-- ==== Sys2Proof/Word.lean ====
section
/-! DEFINITION. The machine's words and the plainest arithmetic on them (R2, R5). -/

namespace Sys2Proof

abbrev Byte := BitVec 8

/-- One 16-bit parcel of an instruction (R117). -/
abbrev Parcel := BitVec 16

/-- One cell's contents: 32 bits (R47). -/
abbrev Word := BitVec 32

/-- A 64-bit value: two cells, or a pair of uniform registers (R48, R59). -/
abbrev Dword := BitVec 64

/-- A set of the 32 lanes of a warp: bit l is lane l. -/
abbrev Mask := BitVec 32

/-- A virtual address: 57 bits (R64). -/
abbrev Va := BitVec 57

end Sys2Proof
end

