-- ==== Sys2Proof/Config.lean ====
section
/-! DEFINITION. What an implementation fixes and the manual leaves open: free values. None of them has a body,
so a statement that uses one holds for every value of it (notes/assumptions/9.md). -/

namespace Sys2Proof.Config

open Sys2Proof

/-- The word that a frame slot holds before anything has written it (R56), by the thread's seed and the slot. -/
opaque frameWord : Nat → Nat → Word

/-- A byte of the nested frame that the manual does not give (R398): its cause, lanes, pc, va, code or origin. -/
opaque nestedByte : Nat → Nat → Byte

/-- R434: after a read of `bload` or `dload` has failed, whether a bank row, a side-store entry or a word of drain
memory holds its old contents. -/
opaque keepsOld : Nat → Nat → Bool

/-- R382, R404: SAVE_BASE, by the save area's seed. -/
opaque saveBase : Nat → Dword

/-- R377: how much a level above the lowest of its group adds to a cluster's refill, in parts of the refill. -/
opaque refillStep : Nat

/-- R404: a byte of the operation fields of a saved restart state, by the record's seed. -/
opaque restartByte : Nat → Nat → Byte

/-- R314: the order in which a copy moves its elements, by the copy's seed: an element with a smaller key goes first. -/
opaque copyKey : Nat → Nat → Nat

/-- R352: the next two partial results that a reduction combines, by the reduction's seed, the element and the number
of results that remain. -/
opaque sumPick : Nat → Nat → Nat → Nat × Nat

/-- R446: a byte of a destination buffer whose contents are undefined, by the operation's seed and its offset. -/
opaque undefinedByte : Nat → Nat → Byte

/-- R452: the type, and the severity, of the record that reports a refused rejoin request. -/
opaque refusedRejoin : Nat → Nat

/-- R385: the type and the severity of the record that reports a step of the boot, and a byte of its payload. -/
opaque bootRecord : Nat → Nat
opaque bootPayload : Nat → List Byte

/-- R156: the nanoseconds of module time that pass in a front-end cycle, by its seed. -/
opaque nanoseconds : Nat → Nat

/-- R458, R466: the cycles that a replay undid, by its seed. -/
opaque strikeCycles : Nat → Nat

/-- R81: the index of a page of a context in the L2 TLB, before it is taken modulo the number of sets. -/
opaque tlbIndex : Nat → Nat → Nat → Nat

/-- R364, R385: the SHA-256 digests of the accepted signer keys that the device's fuses hold, of which there are four at most. -/
opaque fusedKeys : List Nat

/-- R369, R385: the security version of a firmware image, by the bytes that its signature covers. -/
opaque firmwareSvn : List Byte → Word

/-- R448: the module at the other end of the fabric link of a port. -/
opaque linkModule : Nat → Nat

end Sys2Proof.Config
end

