-- ==== Sys2Proof/Syntax.lean ====
section
/-! DEFINITION. The instructions of the part, one constructor for each row of the opcode table:
the Dexale instructions (R117 to R144), the commands of the command processor (R107) and the steps the
device takes by itself (spec/95_what_each_step_holds.md). A name's number is the place it has in the
state (a context slot, a core, a lane block, an access in flight). -/

namespace Sys2Proof

/-- The command that a graph's NODE carries (R107). -/
inductive NodeCommand where
  | launch (record : BitVec 64)
  | launchIndirect (record grid : BitVec 64)
  | copy (src dst bytes : BitVec 64)
  deriving DecidableEq, Repr

/-- What a member of a collective gives the others: the descriptor's fields that must agree (R349), and
the elements of its source buffer. -/
structure Contribution where
  op : BitVec 8
  etype : BitVec 8
  redop : BitVec 8
  policy : BitVec 8
  count : BitVec 64
  root : BitVec 32
  data : List (BitVec 8)
  deriving DecidableEq, Repr

/-- What SECDED says of a word that is read (R459). -/
inductive EccFinding where
  | clean
  /-- A single-bit error, corrected and written back. -/
  | corrected
  /-- An uncorrectable error: the word is poisoned. -/
  | uncorrectable
  deriving DecidableEq, Repr

/-- What a flit of a collective brings (R448, R449). -/
inductive FlitPayload where
  /-- A member's contribution to one operation. -/
  | contribution (c : Contribution)
  /-- A member's acknowledgement of the last flit of one operation. -/
  | lastAcknowledged
  deriving DecidableEq, Repr

/-- A flit that another member sends this module: its operation's view tag and sequence number (R347, R350,
R449) and what it brings. -/
structure CollectiveFlit where
  slot : Nat
  group : BitVec 16
  gen : BitVec 48
  seq : Nat
  sender : Nat
  payload : FlitPayload
  deriving DecidableEq, Repr

/-- The three fatal errors (R467). -/
inductive FatalReason where
  | controlComplexError
  | thermalTrip
  | supplyLoss
  deriving DecidableEq, Repr

/-- One constructor for each row of the opcode table. -/
inductive Instr where
  /-- R146. Does nothing. -/
  | nop (w : Bool)
  /-- R146. Discards the top cell without reading it. -/
  | drop (w : Bool)
  /-- R146. Pushes a copy of cell n below the top. -/
  | dup (w : Bool) (n : BitVec 3)
  /-- R146. Exchanges the top two cells. -/
  | swap (w : Bool)
  /-- R146. Rotates the third cell to the top. -/
  | rot (w : Bool)
  /-- R146. Discards the cell beneath the top. -/
  | nip (w : Bool)
  /-- R148. Pushes the thread's stack depth. -/
  | depth (w : Bool)
  /-- R149. Pushes a sign-extended 7-bit immediate. -/
  | litS (w : Bool) (v : BitVec 7)
  /-- R152. Pushes frame slot s of each thread. -/
  | ldf (w : Bool) (s : BitVec 7)
  /-- R152. Pops a cell into frame slot s. -/
  | stf (w : Bool) (s : BitVec 7)
  /-- R156. Pushes one special register. -/
  | rds (w : Bool) (n : BitVec 5)
  /-- R157. Pushes a 64-bit special register from one reading. -/
  | rdsD (w : Bool) (n : BitVec 5)
  /-- R160. Pushes the sticky flags, clearing them in the clearing form. -/
  | flags (w clear : Bool)
  /-- R254. Pushes 1 in the split's lowest lane and 0 elsewhere. -/
  | lead (w : Bool)
  /-- R255. Computes any, all or ballot of a predicate across the split. -/
  | vote (w : Bool) (mode : BitVec 2)
  /-- R256. Exchanges values between lanes of the split. -/
  | shfl (w : Bool) (mode : BitVec 2)
  /-- R257. Waits until every live thread of the warp arrives, then merges them. -/
  | wsync (w : Bool)
  /-- R162. Adds two cells, wrapping or saturating. -/
  | add (w nat sat : Bool)
  /-- R162. Subtracts two cells, wrapping or saturating. -/
  | sub (w nat sat : Bool)
  /-- R162. Pushes the low 32 bits of the product. -/
  | mul (w : Bool)
  /-- R162. Pushes the high 32 bits of the product. -/
  | mulh (w nat : Bool)
  /-- R164. Pushes the truncated quotient, never trapping. -/
  | div (w nat : Bool)
  /-- R164. Pushes the remainder, never trapping. -/
  | rem (w nat : Bool)
  /-- R162. Negates a cell, wrapping. -/
  | neg (w : Bool)
  /-- R162. Pushes the absolute value, wrapping. -/
  | abs (w : Bool)
  /-- R162. Pushes the smaller of two cells. -/
  | min (w nat : Bool)
  /-- R162. Pushes the larger of two cells. -/
  | max (w nat : Bool)
  /-- R162. Bitwise AND. -/
  | and (w : Bool)
  /-- R162. Bitwise OR. -/
  | or (w : Bool)
  /-- R162. Bitwise XOR. -/
  | xor (w : Bool)
  /-- R162. Bitwise NOT. -/
  | not (w : Bool)
  /-- R165. Shifts left. -/
  | shl (w : Bool)
  /-- R165. Shifts right with zero fill. -/
  | shr (w : Bool)
  /-- R165. Shifts right with sign fill. -/
  | sra (w : Bool)
  /-- R165. Rotates left. -/
  | rotl (w : Bool)
  /-- R162. Counts one bits. -/
  | popc (w : Bool)
  /-- R162. Counts leading zero bits. -/
  | clz (w : Bool)
  /-- R162. Counts trailing zero bits. -/
  | ctz (w : Bool)
  /-- R162. Reverses the bits of a cell. -/
  | brev (w : Bool)
  /-- R166. Selects a or b by a condition cell. -/
  | sel (w : Bool)
  /-- R166. Pushes x + a × b, wrapping. -/
  | mad (w : Bool)
  /-- R167. Compares two integers and pushes 1 or 0. -/
  | icmp (w nat : Bool) (cond : BitVec 3)
  /-- R173. FP32 addition, rounded once. -/
  | fadd (w : Bool) (rm : BitVec 2)
  /-- R173. FP32 subtraction, rounded once. -/
  | fsub (w : Bool) (rm : BitVec 2)
  /-- R173. FP32 multiplication, rounded once. -/
  | fmul (w : Bool) (rm : BitVec 2)
  /-- R173. FP32 division, rounded once. -/
  | fdiv (w : Bool) (rm : BitVec 2)
  /-- R173. FP32 fused multiply-add. -/
  | fma (w : Bool) (rm : BitVec 2)
  /-- R174. Inverts the sign bit. -/
  | fneg (w : Bool)
  /-- R174. Clears the sign bit. -/
  | fabs (w : Bool)
  /-- R175. FP32 minimum. -/
  | fmin (w : Bool)
  /-- R175. FP32 maximum. -/
  | fmax (w : Bool)
  /-- R173. FP32 square root. -/
  | fsqrt (w : Bool) (rm : BitVec 2)
  /-- R173. FP32 reciprocal. -/
  | frcp (w : Bool) (rm : BitVec 2)
  /-- R179. Reciprocal square root. -/
  | frsq (w : Bool)
  /-- R179. Base-2 exponential. -/
  | fex2 (w : Bool)
  /-- R179. Base-2 logarithm. -/
  | flg2 (w : Bool)
  /-- R179. Sine of an argument in turns. -/
  | fsin (w : Bool)
  /-- R179. Cosine of an argument in turns. -/
  | fcos (w : Bool)
  /-- R176. Compares two FP32 values and pushes 1 or 0. -/
  | fcmp (w : Bool) (cond : BitVec 3)
  /-- R177. Pushes a one-hot class mask. -/
  | fclass (w : Bool)
  /-- R178. Rounds to an integral FP32 value. -/
  | frnd (w inexact : Bool) (rm : BitVec 2)
  /-- R169. 64-bit addition. -/
  | add2 (w : Bool)
  /-- R169. 64-bit subtraction. -/
  | sub2 (w : Bool)
  /-- R169. Full 64-bit product of two cells. -/
  | mulw (w nat : Bool)
  /-- R169. 64-bit left shift. -/
  | shl2 (w : Bool)
  /-- R169. 64-bit right shift, logical or arithmetic. -/
  | shr2 (w arith : Bool)
  /-- R169. Compares two 64-bit integers. -/
  | icmp2 (w nat : Bool) (cond : BitVec 3)
  /-- R170. Forms a 64-bit address from base and scaled index. -/
  | lea (w nat : Bool) (scale : BitVec 3)
  /-- R126. Routed form of an op7 0x10-0x4E instruction taking operands and result through stack or channels. -/
  | l32Routed (op : BitVec 7) (w : Bool) (ra rb : BitVec 2) (rd : Bool) (cha chb chd mod : BitVec 4)
  /-- R193. Sends the split to a target block. -/
  | br (w : Bool) (off : BitVec 7)
  /-- R192. Branches lanes whose popped cell is zero. -/
  | bz (w : Bool) (off : BitVec 7)
  /-- R192. Branches lanes whose popped cell is nonzero. -/
  | bnz (w : Bool) (off : BitVec 7)
  /-- R192. Pushes a join entry and branches lanes whose cell is zero. -/
  | bzj (w : Bool) (off : BitVec 7)
  /-- R192. Pushes a join entry and branches lanes whose cell is nonzero. -/
  | bnzj (w : Bool) (off : BitVec 7)
  /-- R197. Pops ch15 and branches the whole split if nonzero. -/
  | brq (w : Bool) (off : BitVec 7)
  /-- R194. Waits until the top join entry's threads arrive, then pops it and merges. -/
  | join (w : Bool) (d : BitVec 7)
  /-- R200. Returns each thread to its popped block. -/
  | ret (w : Bool)
  /-- R201. Ends every thread of the split. -/
  | exit (w : Bool)
  /-- R202. Takes a selection point and drops the warp to rank 7. -/
  | yield (w : Bool)
  /-- R203. Traps with BREAKPOINT. -/
  | brk (w : Bool) (code : BitVec 7)
  /-- R150. Pushes a cell built from a 16-bit immediate. -/
  | lit16 (w : Bool) (form : BitVec 2) (imm : BitVec 16)
  /-- R152. Pushes frame slot s, 32 or 64 bits. -/
  | ldfL (w wide : Bool) (s : BitVec 8)
  /-- R152. Pops into frame slot s, 32 or 64 bits. -/
  | stfL (w wide : Bool) (s : BitVec 8)
  /-- R154. Raises each thread's frame pointer by n. -/
  | frame (w : Bool) (n : BitVec 8)
  /-- R154. Lowers each thread's frame pointer by n. -/
  | leave (w : Bool) (n : BitVec 8)
  /-- R193. Long unconditional branch. -/
  | brL (w : Bool) (off : BitVec 16)
  /-- R192. Long branch on zero. -/
  | bzL (w : Bool) (off : BitVec 16)
  /-- R192. Long branch on nonzero. -/
  | bnzL (w : Bool) (off : BitVec 16)
  /-- R192. Long joining branch on zero. -/
  | bzjL (w : Bool) (off : BitVec 16)
  /-- R192. Long joining branch on nonzero. -/
  | bnzjL (w : Bool) (off : BitVec 16)
  /-- R199. Pushes the next block on the return stack and jumps. -/
  | call (w : Bool) (off : BitVec 16)
  /-- R196. Sends each lane through a table of block offsets, pushing a join entry. -/
  | jtab (w : Bool) (last : BitVec 5)
  /-- R204. Jumps only if the target page is VALID in the code store. -/
  | jmpF (w : Bool) (off : BitVec 16)
  /-- R198. Branches the split when a uniform predicate is 0. -/
  | kbz (w : Bool) (kp : BitVec 3) (off : BitVec 16)
  /-- R198. Branches the split when a uniform predicate is 1. -/
  | kbnz (w : Bool) (kp : BitVec 3) (off : BitVec 16)
  /-- R203. Traps with SOFTWARE. -/
  | trap (w : Bool) (code : BitVec 16)
  /-- R395. Restores the warp from the frame, re-injects replay entries and leaves handler mode. -/
  | rte
  /-- R394. Pushes a field of a hardware replay entry. -/
  | rplq (w : Bool) (entry field : BitVec 4)
  /-- R394. Writes a field of a hardware replay entry. -/
  | wplq (w : Bool) (entry field : BitVec 4)
  /-- R238. Plain load pushing empty cells that later fill. -/
  | ld (w : Bool) (size : BitVec 3) (off : BitVec 16)
  /-- R239. Plain store. -/
  | st (w : Bool) (size : BitVec 3) (off : BitVec 16)
  /-- R241. Load with scope and order. -/
  | ldo (w rmt : Bool) (order scope size : BitVec 3)
  /-- R241. Store with scope and order. -/
  | sto (w rmt : Bool) (order scope size : BitVec 3)
  /-- R242. Warms TLBs, memory-side cache or replica area; never traps. -/
  | prefetch (w : Bool) (off : BitVec 16)
  /-- R244. Atomic read-modify-write returning the old value. -/
  | atom (w : Bool) (op : BitVec 5) (rmt : Bool) (order scope size : BitVec 3)
  /-- R245. Compare-and-swap returning the old value. -/
  | cas (w : Bool) (forder : BitVec 3) (rmt : Bool) (order scope size : BitVec 3)
  /-- R246. Atomic read-modify-write returning nothing. -/
  | red (w : Bool) (op : BitVec 5) (rmt : Bool) (order scope size : BitVec 3)
  /-- R247. Memory fence at a scope and order. -/
  | fence (w : Bool) (order scope : BitVec 3)
  /-- R250. Waits until a class counter is at most n. -/
  | waitc (w : Bool) (cls : BitVec 2) (n : BitVec 8)
  /-- R251. Waits on a counter for a bounded time and pushes success. -/
  | trywait (w : Bool) (cls : BitVec 2) (n : BitVec 8)
  /-- R253. Arrives at a named barrier and continues. -/
  | barArrive (w : Bool) (bar : BitVec 4) (count : BitVec 16)
  /-- R253. Arrives at a named barrier and waits for the phase to complete. -/
  | barSync (w : Bool) (bar : BitVec 4) (count : BitVec 16)
  /-- R332. Requests queue records and copies lane buffers into them. -/
  | qpush (w : Bool) (port : BitVec 2)
  /-- R333. Takes records from a queue, waiting until available or ended. -/
  | qpop (w : Bool) (port : BitVec 2)
  /-- R335. Marks the team finished on an out queue. -/
  | qeos (w : Bool) (port : BitVec 2)
  /-- R333. Takes records from a queue without waiting. -/
  | qtry (w : Bool) (port : BitVec 2)
  /-- R248. Requests that a region be sealed; pushes a status cell. -/
  | seal (w : Bool)
  /-- R248. Requests that a sealed region be unsealed; pushes a status cell. -/
  | unseal (w : Bool)
  /-- R205. Starts an asynchronous fill of a code-store segment. -/
  | cfetch (w : Bool) (seg : BitVec 6)
  /-- R206. Frees an unpinned code-store segment. -/
  | cevict (w : Bool) (seg : BitVec 6)
  /-- R207. Pushes a code-store segment's state. -/
  | cstat (w : Bool) (seg : BitVec 6)
  /-- R184. Converts between lane types, direct form. -/
  | cvt (w sat : Bool) (rm : BitVec 2) (dst src : BitVec 4)
  /-- R186. Converts through two format slots. -/
  | cvtSlot (w : Bool) (src dst : BitVec 3)
  /-- R188. Packs 32 lanes' FP32 values into one DB block. -/
  | bpack (w : Bool) (slot : BitVec 3)
  /-- R189. Decodes one DB block into 32 lanes. -/
  | bunpack (w : Bool) (slot : BitVec 3)
  /-- R180. Packed FP16 or BF16 addition or subtraction. -/
  | hadd2 (w bf sub : Bool) (rm : BitVec 2)
  /-- R180. Packed FP16 or BF16 multiplication. -/
  | hmul2 (w bf : Bool) (rm : BitVec 2)
  /-- R180. Packed FP16 or BF16 fused multiply-add. -/
  | hfma2 (w bf : Bool) (rm : BitVec 2)
  /-- R180. Packed FP16 or BF16 minimum or maximum. -/
  | hmnx2 (w max bf : Bool)
  /-- R181. FP64 addition. -/
  | dadd (w : Bool) (rm : BitVec 2)
  /-- R181. FP64 multiplication. -/
  | dmul (w : Bool) (rm : BitVec 2)
  /-- R181. FP64 fused multiply-add. -/
  | dfma (w : Bool) (rm : BitVec 2)
  /-- R181. FP64 division. -/
  | ddiv (w : Bool) (rm : BitVec 2)
  /-- R181. FP64 square root. -/
  | dsqrt (w : Bool) (rm : BitVec 2)
  /-- R168. Extracts a bit field, zero- or sign-extended. -/
  | bfe (w signed : Bool) (len pos : BitVec 5)
  /-- R168. Inserts a bit field. -/
  | bfi (w : Bool) (len pos : BitVec 5)
  /-- R159. Writes the warp's LFSR L from the lowest lane. -/
  | wrsLfsr (w : Bool)
  /-- R159. Sets the progress-watchdog limit and restarts split ages. -/
  | wrsVigil (w : Bool)
  /-- R209. Copies a uniform register. -/
  | kmov (kd ka : BitVec 6)
  /-- R209. Uniform addition. -/
  | kadd (kd ka kb : BitVec 6) (imm : Bool)
  /-- R209. Uniform subtraction. -/
  | ksub (kd ka kb : BitVec 6) (imm : Bool)
  /-- R209. Uniform multiplication. -/
  | kmul (kd ka kb : BitVec 6) (imm : Bool)
  /-- R209. Uniform AND. -/
  | kand (kd ka kb : BitVec 6) (imm : Bool)
  /-- R209. Uniform OR. -/
  | kor (kd ka kb : BitVec 6) (imm : Bool)
  /-- R209. Uniform XOR. -/
  | kxor (kd ka kb : BitVec 6) (imm : Bool)
  /-- R209. Uniform left shift. -/
  | kshl (kd ka kb : BitVec 6) (imm : Bool)
  /-- R209. Uniform right shift, logical or arithmetic. -/
  | kshr (kd ka kb : BitVec 6) (imm arith : Bool)
  /-- R209. Uniform minimum. -/
  | kmin (kd ka kb : BitVec 6) (imm nat : Bool)
  /-- R209. Uniform maximum. -/
  | kmax (kd ka kb : BitVec 6) (imm nat : Bool)
  /-- R210. Compares uniform registers into a predicate. -/
  | kcmp (kp : BitVec 3) (ka kb : BitVec 6) (nat : Bool) (cond : BitVec 3)
  /-- R211. 64-bit uniform addition. -/
  | kadd2 (kd ka kb : BitVec 6) (imm : Bool)
  /-- R211. Forms a 64-bit uniform address with a scaled index. -/
  | klea (kd ka kb : BitVec 6) (nat : Bool) (scale : BitVec 3)
  /-- R212. Uniform load into a register. -/
  | kld (kd ka n : BitVec 6) (size : BitVec 2)
  /-- R212. Uniform store from a register. -/
  | kst (kd ka n : BitVec 6) (size : BitVec 2)
  /-- R60. Pushes a uniform register onto each thread of the split. -/
  | kpush (ka : BitVec 6)
  /-- R61. Pops each thread and writes the lowest lane's value to a uniform register. -/
  | kpop (kd : BitVec 6) (cv : Bool)
  /-- R62. Pops each thread and writes a reduction to a uniform register. -/
  | kred (kd : BitVec 6) (op : BitVec 4)
  /-- R210. Selects between uniform registers by a predicate. -/
  | kpsel (kd ka kb : BitVec 6) (inv : Bool) (kp : BitVec 3)
  /-- R215. Sets the warp's performance level. -/
  | setperf (ka : BitVec 6)
  /-- R216. Starts an affine-address-engine stream into a channel. -/
  | agen (ch : BitVec 3) (ka : BitVec 6)
  /-- R218. Appends a decision to ch15 of every live warp of the team. -/
  | dqpush (ka : BitVec 6)
  /-- R219. Ends the front-end context. -/
  | fetend
  /-- R151. Pushes a 32-bit immediate. -/
  | lit32 (imm : BitVec 32)
  /-- R214. Loads a 32-bit immediate into a uniform register. -/
  | kli (kd : BitVec 6) (imm : BitVec 32)
  /-- R193. Uniform-pipe jump with a 48-bit block offset. -/
  | jmpX (off : BitVec 48)
  /-- R286. Multiplies A by resident B into tile slots, optionally draining. -/
  | mma (ka : BitVec 6) (tile : BitVec 2) (prog : BitVec 5) (aslot bslot oslot : BitVec 3) (back pair acc cplx naz dc : Bool) (kt ks : BitVec 6) (rows : BitVec 4)
  /-- R288. Clears a tile slot and its NaN counters. -/
  | mclr (tile : BitVec 2) (pair : Bool)
  /-- R289. Drains a completed tile slot, or resumes a stopped drain. -/
  | mdrain (tile : BitVec 2) (prog : BitVec 5) (aslot bslot oslot : BitVec 3) (pair : Bool) (kt ks : BitVec 6) (rows : BitVec 4)
  /-- R290. Fills a B bank of the masked macros from memory. -/
  | bload (kb : BitVec 6) (macros : BitVec 4) (bslot : BitVec 3) (back pair : Bool) (kstr : BitVec 6) (rows : BitVec 7)
  /-- R292. Exchanges the front and back bank roles of masked macros. -/
  | bswap (macros : BitVec 4) (pair : Bool)
  /-- R293. Copies drain programs, constants or tables into drain memory. -/
  | dload (kr : BitVec 6) (kind : BitVec 2) (first last : BitVec 6)
  /-- R311. Queues tile copy commands to the block-transfer engine. -/
  | tcopy (kl ksl : BitVec 6) (out : Bool) (ring : BitVec 3) (kc : BitVec 6) (cv : Bool) (dslot ncoord : BitVec 3) (tag : BitVec 16)
  /-- R311. Queues indexed gather commands. -/
  | tgather (kl ksl : BitVec 6) (ring : BitVec 3) (kc : BitVec 6) (cv : Bool) (dslot ncoord : BitVec 3) (tag : BitVec 16)
  /-- R311. Queues indexed scatter commands. -/
  | tscatter (kl ksl : BitVec 6) (ring : BitVec 3) (kc : BitVec 6) (cv : Bool) (dslot ncoord : BitVec 3) (tag : BitVec 16)
  /-- R354. Sends a collective operation to the module's collective sequencer. -/
  | coll (kdsc : BitVec 6) (ring : BitVec 3) (tag : BitVec 16)
  /-- R356. Reads a group's current view tag into a uniform pair. -/
  | vtag (kd : BitVec 6) (group : BitVec 16)
  /-- R113. Starts a grid or stage set from a launch record. -/
  | launch (tag : BitVec 32) (record : BitVec 64)
  /-- R107. Starts a launch with grid sizes read from memory. -/
  | launchIndirect (tag : BitVec 32) (record grid : BitVec 64)
  /-- R107. Command that copies bytes as a one-node graph. -/
  | copy (tag : BitVec 32) (src dst bytes : BitVec 64)
  /-- R109. Opens and checks a dependence graph of nodes and edges. -/
  | graph (tag : BitVec 32) (nodes edges : BitVec 16)
  /-- R109. Declares one graph node. -/
  | node (tag : BitVec 32) (index : BitVec 16) (cmd : NodeCommand)
  /-- R109. Declares one graph edge. -/
  | edge (tag : BitVec 32) (src dst : BitVec 16)
  /-- R111. Ends the current phase for the stream. -/
  | phase (tag : BitVec 32)
  /-- R108. Holds later commands until a memory value meets a condition. -/
  | wait (tag : BitVec 32) (eq : Bool) (va x : BitVec 64)
  /-- R108. Command processor re-reads the WAIT value. -/
  | waitPoll (slot stream : Nat)
  /-- R108. Writes a value with release once earlier commands complete, optionally interrupting the host. -/
  | signal (tag : BitVec 32) (irq : Bool) (va value : BitVec 64)
  /-- R108. Opens a repeated block of commands. -/
  | loop (tag count : BitVec 32)
  /-- R108. Closes a LOOP block. -/
  | endloop (tag : BitVec 32)
  /-- R108. Skips words when a memory value fails a condition. -/
  | ifSkip (tag : BitVec 32) (eqz : Bool) (va : BitVec 64) (skip : BitVec 32)
  /-- R108. Waits for every earlier command of the stream to complete. -/
  | fenceCommand (tag : BitVec 32)
  /-- R112. Cancels a team, launch, graph, phase or job. -/
  | cancel (tag : BitVec 32) (unit : BitVec 3) (team : BitVec 32)
  /-- R365. Reads, verifies, translates if needed and places a DXO image. -/
  | codeLoad (tag : BitVec 32) (image bytes report : BitVec 64)
  /-- R375. Removes a code object, forced or not. -/
  | codeUnload (tag : BitVec 32) (forced : Bool) (handle : BitVec 64)
  /-- R107. Seals or unseals a region from the command stream. -/
  | sealCommand (tag : BitVec 32) (undo : Bool) (base len : BitVec 64)
  /-- R110. Starts a graph node whose predecessor count has reached 0. -/
  | nodeStart (slot graph index : Nat)
  /-- R382. Context teardown finishes and the slot becomes FREE. -/
  | closeComplete (slot : Nat)
  /-- R382. A mapping request completes and MAP_STATUS becomes done or refused. -/
  | mapDone (slot : Nat)
  /-- R385. Module reset: ROM verifies firmware and boots the control complex. -/
  | reset
  /-- R23. The command processor places a team on a core when it fits. -/
  | teamPlacement (launch core : Nat)
  /-- R329. Places initial teams of every stage together and starts them. -/
  | stageSetStart (launch : Nat) (cores : List Nat)
  /-- R45. Restores an evicted warp into a free slot. -/
  | warpResume (warp lb : Nat)
  /-- R39. Swaps a waiting active warp with a ready pending warp. -/
  | warpSwap (core lb : Nat)
  /-- R31. A due selection is made when a split becomes ready, stepping L. -/
  | splitSelection (warp : Nat)
  /-- R52. The spill engine finishes a spill or refill request. -/
  | spillRefillComplete (core lb : Nat)
  /-- R57. A forwarding-table entry is freed when its slice write completes. -/
  | forwardingEntryFreed (core lb : Nat)
  /-- R55. Returning load data fills its empty cell. -/
  | loadFill (access : Nat)
  /-- R222. An access reaches its home and performs there. -/
  | homeAccess (access : Nat)
  /-- R457. An effect leaves its 48-cycle hold window. -/
  | holdWindowRelease (access : Nat)
  /-- R80. A page walk completes or fails. -/
  | pageWalk (access : Nat)
  /-- R424. The memory manager serves a failed translation. -/
  | pageService (access : Nat)
  /-- R72. A seal becomes effective at the region's home and its status fills. -/
  | sealTakesEffect (request : Nat)
  /-- R74. Every replica line is invalidated and the unseal takes effect. -/
  | unsealComplete (request : Nat)
  /-- R77. A fetch miss starts a demand fill into the LRU unpinned segment. -/
  | demandFill (core slot : Nat) (page : BitVec 45)
  /-- R205. A code-store fill completes, VALID or FREE with FAULT. -/
  | codeFillLands (core seg : Nat)
  /-- R217. An affine stream read returns and sends entries to a channel. -/
  | agenStreamRead (fet ch : Nat)
  /-- R42. A stalled front-end context resumes when the channel has room. -/
  | fetResume (fet : Nat)
  /-- R408. Traps a warp blocked on channels that can never change. -/
  | channelEmpty (warp : Nat)
  /-- R270. An mma's array phase begins once row 0 is buffered and earlier array phases end. -/
  | arrayPhase (core : Nat)
  /-- R270. An mma finishes its array phase. -/
  | arrayPhaseEnd (core : Nat)
  /-- R302. A drain begins after the array phase and earlier drains. -/
  | drain (core : Nat)
  /-- R296. The drain unit runs the program on one accumulator element. -/
  | drainElement (core : Nat)
  /-- R292. Bank roles swap after earlier array phases finish. -/
  | bswapTakesEffect (core : Nat)
  /-- R283. A bload, dload, mclr or mma finishes its last effect. -/
  | matrixOperationRetire (core : Nat)
  /-- R304. The BTE starts a command and reads its TLR. -/
  | copyCommandStart (command : Nat)
  /-- R319. A copy command completes and writes its completion record. -/
  | copyCommandComplete (command : Nat)
  /-- R250. An operation's counter decrement is delivered with its flags. -/
  | decrementDelivery (operation : Nat)
  /-- R332. A queue unit grants a push request. -/
  | queueGrant (launch queue : Nat)
  /-- R333. A pop request receives records or EOS and its status fills. -/
  | queueRecordDelivery (launch queue : Nat)
  /-- R354. The sequencer accepts a collective and reads its descriptor. -/
  | collAccept
  /-- R355. A collective completes and writes its completion record. -/
  | collComplete (operation : Nat)
  /-- R387. Stops the warp, writes the trap frame and enters handler mode. -/
  | trapDelivery (warp : Nat)
  /-- R338. A queue unit handles a handover mark and releases the donor's pops. -/
  | handoverMark (launch queue : Nat)
  /-- R251. A trywait's bound expires and it pushes 0. -/
  | trywaitTimeout (warp : Nat)
  /-- R379. Adds the cluster's refill each front-end cycle. -/
  | tokenBucketRefill (cluster : Nat)
  /-- R337. At the Solstice boundary the balancer samples queues and starts handovers. -/
  | rebalancingInterval (launch : Nat)
  /-- R338. A recipient stage's new team starts on the freed core. -/
  | stageTeamStart (launch core : Nat)
  /-- R399. A split's age reaches the Vigil limit. -/
  | progressStall (warp : Nat)
  /-- R440. A barrier phase ages 2^28 cycles and the context is terminated. -/
  | barrierTimeout (team bar : Nat)
  /-- R445. After 4 stuck intervals the launch is cancelled. -/
  | stageSetStuck (launch : Nat)
  /-- R461. An idempotent launch's ended team is placed again. -/
  | teamRelaunch (team : Nat)
  /-- R339. A donor team still running one interval later is evicted and moved. -/
  | donorEviction (launch team : Nat)
  /-- R43. Evicts lower-priority warps to place a higher-priority context. -/
  | partialEviction (launch core : Nat)
  /-- R463. Restores snapshots and replays a rollback-capable launch. -/
  | rollback (launch : Nat)
  /-- R378. A cluster's lane-rate change completes. -/
  | laneRateTransition (cluster : Nat)
  /-- R449. A collective flit arrives; stale generations are dropped. -/
  | collectiveFlit (flit : CollectiveFlit)
  /-- R448. A heartbeat flit is sent on each link each 1 ms. -/
  | heartbeat (port : Nat) (received : Bool)
  /-- R381. Write to a host register with no behaviour of its own. -/
  | registerWrite (offset width : Nat) (value : BitVec 256)
  /-- R448. A member misses 100 heartbeats or is reported down. -/
  | moduleLost (module : Nat)
  /-- R358. The coordinator proposes a new view and cut. -/
  | agreementProposal (slot : Nat) (group : BitVec 16) (members : List Nat) (cut : Nat)
  /-- R358. A module acknowledges a proposal. -/
  | agreementAck (slot : Nat) (group : BitVec 16) (module : Nat)
  /-- R358. The coordinator commits a proposal. -/
  | agreementCommit (slot : Nat) (group : BitVec 16)
  /-- R358. A member installs the new view when its sequencer reaches the cut. -/
  | viewInstall (slot : Nat) (group : BitVec 16)
  /-- R360. A returning module asks the coordinator to rejoin. -/
  | rejoinRequest (slot : Nat) (group : BitVec 16) (module : Nat) (tag : BitVec 64)
  /-- R360. The coordinator sends the Almanac entry and cut. -/
  | stateTransfer (slot : Nat) (group : BitVec 16) (module : Nat) (gen : BitVec 48) (members : List Nat) (cut : Nat)
  /-- R452. The returning module resends its request after 1 s. -/
  | rejoinResend (slot : Nat) (group : BitVec 16)
  /-- R458. A strike report undoes and reissues the lane block's recent instructions. -/
  | strike (core lb : Nat)
  /-- R459. The scrubber reads a protected word, and what its code says. -/
  | scrub (addr : Nat) (found : EccFinding)
  /-- R467. Thermal trip, supply loss or control-complex error dumps state and halts. -/
  | fatalError (reason : FatalReason)
  /-- R467. Above 95% of the thermal limit the caps are lowered. -/
  | thermal (cluster temperature : Nat) (cap : BitVec 3)
  /-- R380. A requester refused 16 cycles reserves the bucket. -/
  | bucketReservation (cluster requester : Nat)
  /-- R14. The droop detector stretches the cluster's clocks. -/
  | droopDetectorTrip (cluster : Nat)
  /-- R369. Signed control-complex firmware programs a higher value into the fused security counter, which takes effect at the next reset. -/
  | securityCounterProgram (value : BitVec 32)
  /-- R378. The power manager sets a cluster's performance-level cap and its token-bucket refill rate from its own measurements. -/
  | powerManagerCapAndRefill (cluster : Nat) (cap : BitVec 3) (refill : Nat)
  /-- R383. Commits accepted feature bits into FEAT_ACTIVE. -/
  | featCommit (value : BitVec 32)
  /-- R468. The host link goes down. -/
  | hostLinkDown
  /-- R468. The host link retrains; held interrupts are raised. -/
  | hostLinkUp
  /-- R104. Register write naming a stream; the command processor reads its descriptor. -/
  | doorbell (slot stream : Nat)
  /-- R46. Saves warp contexts at a time-slice switch. -/
  | timeSliceSwitch (slot core : Nat)
  /-- R70. The memory manager migrates a page between tiers. -/
  | migration (slot : Nat) (va : BitVec 64) (tier : BitVec 8)
  /-- R432. A faulted engine operation traps its issuer at the next issue boundary. -/
  | engineFaultTrap (warp : Nat)
  /-- R384. A function finishes training and sets its READY bit. -/
  | functionReady (function : Nat)
  /-- R382. MAP_GO with op UNMAP removes a range. -/
  | unmapPages (slot : Nat)
  /-- R382. CTRL write that cancels the job and tears down the context. -/
  | ctxClose (slot : Nat)
  /-- R382. MAP_GO with op MAP maps a range into the context. -/
  | mapPages (slot : Nat)
  /-- R382. CTRL write creating a context's roots and save area; R346: the job's groups that the device kernel
  installs with it. -/
  | ctxOpen (slot : Nat) (groups : List (BitVec 16 × List Nat))
  deriving DecidableEq, Repr

end Sys2Proof
end

