-- ==== Sys2Proof/WellFormed.lean ====
section
/-! DEFINITION. Which instructions the part accepts whatever the state: check 2 of R143 as far as the
encoding alone decides it, the checks of a command's words (R107), and for a device step the ranges of
the names it carries (R8 to R10, R104). What depends on the state (where an instruction may issue, R142;
what a format slot holds) is checked where the instruction runs. -/

namespace Sys2Proof

/-- R132: a field that names a 64-bit uniform value is even. -/
def even (k : BitVec 6) : Bool := k.toNat % 2 == 0

/-- R163: the natural form of `add` and `sub` exists only saturating. -/
def addMod (nat sat : Bool) : Bool := sat || !nat

/-- R124, R167, R210: conditions 6 and 7 are unassigned. -/
def compareCode (c : BitVec 3) : Bool := decide (c.toNat ≤ 5)

/-- R236: the sizes of a plain load. -/
def loadSize (z : BitVec 3) : Bool := z != 7

/-- R236: the sizes of a store; the sign-extending sizes are for loads. -/
def storeSize (z : BitVec 3) : Bool := z == 0 || z == 1 || z == 2 || z == 4 || z == 6

/-- R236: an ordered access moves at most 8 bytes. -/
def orderedSize (z : BitVec 3) : Bool := decide (z.toNat ≤ 5)

/-- R221, R235: a load carries rlx, acq or sc, and a plain one only rlx. -/
def loadOrder (o s : BitVec 3) : Bool :=
  decide (s.toNat ≤ 5) && (o == 0 || o == 1 || o == 4) && (s != 0 || o == 0)

/-- R221, R235: a store carries rlx, rel or sc, and a plain one only rlx. -/
def storeOrder (o s : BitVec 3) : Bool :=
  decide (s.toNat ≤ 5) && (o == 0 || o == 2 || o == 4) && (s != 0 || o == 0)

/-- R220, R221: scopes 1 to 5. -/
def strongScope (s : BitVec 3) : Bool := decide (1 ≤ s.toNat) && decide (s.toNat ≤ 5)

/-- R229, R235: rmt only on an acquire or a release, at scope die or wider. -/
def promotion (rmt : Bool) (s : BitVec 3) (synchronises : Bool) : Bool :=
  !rmt || (synchronises && decide (3 ≤ s.toNat))

/-- R244 to R246: the ordering field of a read-modify-write. -/
def updateForm (rmt : Bool) (o s z : BitVec 3) : Bool :=
  decide (z.toNat ≤ 1) && strongScope s && decide (o.toNat ≤ 4) && promotion rmt s (o != 0)

/-- R205: a core has 48 segments. -/
def segment (s : BitVec 6) : Bool := decide (s.toNat < 48)

/-- R168: the field lies inside the cell; `len` holds the length less one. -/
def bitField (len pos : BitVec 5) : Bool := decide (pos.toNat + len.toNat + 1 ≤ 32)

/-- R212: size 0, or size 1 with an even register. -/
def uniformSize (z : BitVec 2) (kd : BitVec 6) : Bool := z == 0 || (z == 1 && even kd)

/-- R136: records of programs, constants and tables; `last` is the count less one. -/
def drainRecords (kind : BitVec 2) (first last : BitVec 6) : Bool :=
  match kind.toNat with
  | 0 => decide (first.toNat + last.toNat + 1 ≤ 32)
  | 1 => decide (first.toNat + last.toNat + 1 ≤ 64)
  | 2 => decide (first.toNat + last.toNat + 1 ≤ 8)
  | _ => false

/-- R137: 1 to 6 coordinates, and no destination slot without conversion. -/
def copyForm (cv : Bool) (dslot ncoord : BitVec 3) : Bool :=
  (cv || dslot == 0) && ncoord != 0 && ncoord != 7

/-- The S16 opcodes with a routed form (R129, R139). -/
def routable (op : Nat) : Bool :=
  (decide (0x10 ≤ op) && decide (op ≤ 0x28)) || (decide (0x30 ≤ op) && decide (op ≤ 0x42)) ||
    (decide (0x48 ≤ op) && decide (op ≤ 0x4E))

/-- The routable opcodes with the one operand B (R127). -/
def oneOperand (op : Nat) : Bool :=
  [0x16, 0x17, 0x1D, 0x22, 0x23, 0x24, 0x25, 0x35, 0x36, 0x39, 0x3A, 0x3B, 0x3C, 0x3D, 0x3E, 0x3F, 0x41,
    0x42].contains op

/-- The imm[3:0] that the entry of a routable opcode allows (R124, R162 to R170, R173 to R179). -/
def routedMod (op mod : Nat) : Bool :=
  match op with
  | 0x10 | 0x11 => mod == 0 || mod == 1 || mod == 3
  | 0x13 | 0x14 | 0x15 | 0x18 | 0x19 | 0x4A | 0x4C => decide (mod ≤ 1)
  | 0x28 | 0x4D => decide (mod % 8 ≤ 5)
  | 0x30 | 0x31 | 0x32 | 0x33 | 0x34 | 0x39 | 0x3A => decide (mod ≤ 3)
  | 0x40 | 0x42 => decide (mod ≤ 7)
  | 0x4E => true
  | _ => mod == 0

/-- R126, R128: an operand's channel is ch0 to ch7 or ch15, and 0 where the route is to the stack. -/
def operandChannel (route : BitVec 2) (ch : BitVec 4) : Bool :=
  if route.toNat < 2 then ch == 0 else decide (ch.toNat < 8) || ch == 15

/-- R126 to R129: the routed form. -/
def routedWellFormed (op : BitVec 7) (ra rb : BitVec 2) (rd : Bool) (cha chb chd mod : BitVec 4) : Bool :=
  routable op.toNat && routedMod op.toNat mod.toNat &&
    (!oneOperand op.toNat || ra == 0) &&
    operandChannel ra cha && operandChannel rb chb &&
    (if rd then decide (chd.toNat < 8) else chd == 0)

/-- R9: 576 cores. -/
def coreNumber (c : Nat) : Bool := decide (c < 576)
/-- R10: 144 clusters. -/
def clusterNumber (c : Nat) : Bool := decide (c < 144)
/-- R12: four lane blocks in a core. -/
def laneBlock (b : Nat) : Bool := decide (b < 4)
/-- R382: 64 context slots. -/
def contextSlot (s : Nat) : Bool := decide (s < 64)
/-- R104: 16 streams in a context. -/
def streamName (s n : Nat) : Bool := contextSlot s && decide (n < 16)
/-- R156: module numbers 0 to 8,191. -/
def moduleNumber (m : Nat) : Bool := decide (m < 8192)

/-- R348: a member set is listed in ascending module number. -/
def ascending : List Nat → Bool
  | a :: b :: rest => decide (a < b) && ascending (b :: rest)
  | _ => true

/-- The part accepts the instruction, whatever the state. -/
def Instr.wellFormed : Instr → Bool
  | .nop _ => true
  | .drop _ => true
  | .dup _ _ => true
  | .swap _ => true
  | .rot _ => true
  | .nip _ => true
  | .depth _ => true
  | .litS _ _ => true
  | .ldf _ _ => true
  | .stf _ _ => true
  | .rds _ n => decide (n.toNat ≤ 22)
  | .rdsD _ n => n == 15 || n == 17 || n == 21
  | .flags _ _ => true
  | .lead _ => true
  | .vote _ mode => mode != 3
  | .shfl _ _ => true
  | .wsync _ => true
  | .add _ nat sat => addMod nat sat
  | .sub _ nat sat => addMod nat sat
  | .mul _ => true
  | .mulh _ _ => true
  | .div _ _ => true
  | .rem _ _ => true
  | .neg _ => true
  | .abs _ => true
  | .min _ _ => true
  | .max _ _ => true
  | .and _ => true
  | .or _ => true
  | .xor _ => true
  | .not _ => true
  | .shl _ => true
  | .shr _ => true
  | .sra _ => true
  | .rotl _ => true
  | .popc _ => true
  | .clz _ => true
  | .ctz _ => true
  | .brev _ => true
  | .sel _ => true
  | .mad _ => true
  | .icmp _ _ cond => compareCode cond
  | .fadd _ _ => true
  | .fsub _ _ => true
  | .fmul _ _ => true
  | .fdiv _ _ => true
  | .fma _ _ => true
  | .fneg _ => true
  | .fabs _ => true
  | .fmin _ => true
  | .fmax _ => true
  | .fsqrt _ _ => true
  | .frcp _ _ => true
  | .frsq _ => true
  | .fex2 _ => true
  | .flg2 _ => true
  | .fsin _ => true
  | .fcos _ => true
  | .fcmp _ _ => true
  | .fclass _ => true
  | .frnd _ _ _ => true
  | .add2 _ => true
  | .sub2 _ => true
  | .mulw _ _ => true
  | .shl2 _ => true
  | .shr2 _ _ => true
  | .icmp2 _ _ cond => compareCode cond
  | .lea _ _ _ => true
  | .l32Routed op _ ra rb rd cha chb chd mod => routedWellFormed op ra rb rd cha chb chd mod
  | .br _ _ => true
  | .bz _ _ => true
  | .bnz _ _ => true
  | .bzj _ _ => true
  | .bnzj _ _ => true
  | .brq _ _ => true
  | .join _ _ => true
  | .ret _ => true
  | .exit _ => true
  | .yield _ => true
  | .brk _ _ => true
  | .lit16 _ form _ => form != 3
  | .ldfL _ wide s => !(wide && s == 255)
  | .stfL _ wide s => !(wide && s == 255)
  | .frame _ _ => true
  | .leave _ _ => true
  | .brL _ _ => true
  | .bzL _ _ => true
  | .bnzL _ _ => true
  | .bzjL _ _ => true
  | .bnzjL _ _ => true
  | .call _ _ => true
  | .jtab _ _ => true
  | .jmpF _ _ => true
  | .kbz _ _ _ => true
  | .kbnz _ _ _ => true
  | .trap _ _ => true
  | .rte => true
  | .rplq _ _ field => decide (field.toNat ≤ 10)
  | .wplq _ _ field => field == 0 || field == 3 || (decide (6 ≤ field.toNat) && decide (field.toNat ≤ 10))
  | .ld _ size _ => loadSize size
  | .st _ size _ => storeSize size
  | .ldo _ rmt order scope size => orderedSize size && loadOrder order scope && promotion rmt scope (order == 1 || order == 4)
  | .sto _ rmt order scope size => orderedSize size && storeSize size && storeOrder order scope && promotion rmt scope (order == 2 || order == 4)
  | .prefetch _ _ => true
  | .atom _ op rmt order scope size => decide (op.toNat ≤ 11) && updateForm rmt order scope size
  | .cas _ forder rmt order scope size => (forder == 0 || forder == 1 || forder == 4) && updateForm rmt order scope size
  | .red _ op rmt order scope size => decide (op.toNat ≤ 11) && updateForm rmt order scope size
  | .fence _ order scope => strongScope scope && order != 0 && decide (order.toNat ≤ 4)
  | .waitc _ _ _ => true
  | .trywait _ _ _ => true
  | .barArrive _ _ count => decide (count.toNat ≤ 1024)
  | .barSync _ _ count => decide (count.toNat ≤ 1024)
  | .qpush _ _ => true
  | .qpop _ _ => true
  | .qeos _ _ => true
  | .qtry _ _ => true
  | .seal _ => true
  | .unseal _ => true
  | .cfetch _ seg => segment seg
  | .cevict _ seg => segment seg
  | .cstat _ seg => segment seg
  | .cvt _ sat _ dst src => src != 15 && dst != 15 && (!sat || decide (dst.toNat ≤ 5))
  | .cvtSlot _ _ _ => true
  | .bpack _ _ => true
  | .bunpack _ _ => true
  | .hadd2 _ _ _ _ => true
  | .hmul2 _ _ _ => true
  | .hfma2 _ _ _ => true
  | .hmnx2 _ _ _ => true
  | .dadd _ _ => true
  | .dmul _ _ => true
  | .dfma _ _ => true
  | .ddiv _ _ => true
  | .dsqrt _ _ => true
  | .bfe _ _ len pos => bitField len pos
  | .bfi _ len pos => bitField len pos
  | .wrsLfsr _ => true
  | .wrsVigil _ => true
  | .kmov _ _ => true
  | .kadd _ _ _ _ => true
  | .ksub _ _ _ _ => true
  | .kmul _ _ _ _ => true
  | .kand _ _ _ _ => true
  | .kor _ _ _ _ => true
  | .kxor _ _ _ _ => true
  | .kshl _ _ _ _ => true
  | .kshr _ _ _ _ _ => true
  | .kmin _ _ _ _ _ => true
  | .kmax _ _ _ _ _ => true
  | .kcmp _ _ _ _ cond => compareCode cond
  | .kadd2 kd ka kb imm => even kd && even ka && (imm || even kb)
  | .klea kd ka _ _ _ => even kd && even ka
  | .kld kd ka _ size => even ka && uniformSize size kd
  | .kst kd ka _ size => even ka && uniformSize size kd
  | .kpush _ => true
  | .kpop _ _ => true
  | .kred _ op => decide (op.toNat ≤ 11)
  | .kpsel _ _ _ _ _ => true
  | .setperf _ => true
  | .agen _ ka => ka.toNat % 8 == 0
  | .dqpush _ => true
  | .fetend => true
  | .lit32 _ => true
  | .kli _ _ => true
  | .jmpX _ => true
  | .mma ka _ prog _ _ _ _ _ _ _ _ dc kt ks _ => even ka && even kt && even ks && (dc || (prog == 0 && kt == 0 && ks == 0))
  | .mclr _ _ => true
  | .mdrain _ _ _ _ _ _ kt ks _ => even kt && even ks
  | .bload kb macros _ _ _ _ _ => even kb && macros != 0
  | .bswap macros _ => macros != 0
  | .dload kr kind first last => even kr && drainRecords kind first last
  | .tcopy kl ksl _ _ _ cv dslot ncoord _ => even kl && even ksl && copyForm cv dslot ncoord
  | .tgather kl ksl _ _ cv dslot ncoord _ => even kl && even ksl && copyForm cv dslot ncoord
  | .tscatter kl ksl _ _ cv dslot ncoord _ => even kl && even ksl && copyForm cv dslot ncoord
  | .coll kdsc _ _ => even kdsc
  | .vtag kd _ => even kd
  | .launch _ _ => true
  | .launchIndirect _ _ _ => true
  | .copy _ _ _ _ => true
  | .graph _ nodes edges => decide (1 ≤ nodes.toNat) && decide (nodes.toNat ≤ 4096) && decide (edges.toNat ≤ 16384)
  | .node _ _ _ => true
  | .edge _ _ _ => true
  | .phase _ => true
  | .wait _ _ _ _ => true
  | .waitPoll slot stream => streamName slot stream
  | .signal _ _ _ _ => true
  | .loop _ _ => true
  | .endloop _ => true
  | .ifSkip _ _ _ _ => true
  | .fenceCommand _ => true
  | .cancel _ unit team => decide (unit.toNat ≤ 4) && (unit == 0 || team == 0)
  | .codeLoad _ _ _ _ => true
  | .codeUnload _ _ _ => true
  | .sealCommand _ _ _ _ => true
  | .nodeStart slot _ _ => contextSlot slot
  | .doorbell slot stream => streamName slot stream
  | .ctxOpen slot groups => contextSlot slot && groups.all fun g => g.2.all moduleNumber
  | .ctxClose slot => contextSlot slot
  | .closeComplete slot => contextSlot slot
  | .mapPages slot => contextSlot slot
  | .unmapPages slot => contextSlot slot
  | .mapDone slot => contextSlot slot
  | .featCommit _ => true
  | .registerWrite _ width _ => decide (width = 4 ∨ width = 8 ∨ width = 16 ∨ width = 32)
  | .reset => true
  | .functionReady _ => true
  | .hostLinkDown => true
  | .hostLinkUp => true
  | .teamPlacement _ core => coreNumber core
  | .stageSetStart _ cores => cores.all coreNumber
  | .partialEviction _ core => coreNumber core
  | .warpResume _ lb => laneBlock lb
  | .timeSliceSwitch slot core => contextSlot slot && coreNumber core
  | .warpSwap core lb => coreNumber core && laneBlock lb
  | .splitSelection _ => true
  | .spillRefillComplete core lb => coreNumber core && laneBlock lb
  | .forwardingEntryFreed core lb => coreNumber core && laneBlock lb
  | .loadFill _ => true
  | .homeAccess _ => true
  | .pageWalk _ => true
  | .pageService _ => true
  | .migration slot _ _ => contextSlot slot
  | .sealTakesEffect _ => true
  | .unsealComplete _ => true
  | .demandFill core slot _ => coreNumber core && contextSlot slot
  | .codeFillLands core seg => coreNumber core && decide (seg < 48)
  | .agenStreamRead _ ch => decide (ch < 8)
  | .fetResume _ => true
  | .channelEmpty _ => true
  | .arrayPhase core => coreNumber core
  | .arrayPhaseEnd core => coreNumber core
  | .drain core => coreNumber core
  | .drainElement core => coreNumber core
  | .bswapTakesEffect core => coreNumber core
  | .matrixOperationRetire core => coreNumber core
  | .copyCommandStart _ => true
  | .copyCommandComplete _ => true
  | .decrementDelivery _ => true
  | .engineFaultTrap _ => true
  | .queueGrant _ _ => true
  | .queueRecordDelivery _ _ => true
  | .rebalancingInterval _ => true
  | .handoverMark _ _ => true
  | .donorEviction _ _ => true
  | .stageTeamStart _ core => coreNumber core
  | .stageSetStuck _ => true
  | .collAccept => true
  | .collComplete _ => true
  | .collectiveFlit _ => true
  | .heartbeat port _ => decide (port < 24)
  | .moduleLost module => moduleNumber module
  | .agreementProposal slot _ members _ => contextSlot slot && ascending members
  | .agreementAck slot _ module => contextSlot slot && moduleNumber module
  | .agreementCommit slot _ => contextSlot slot
  | .viewInstall slot _ => contextSlot slot
  | .rejoinRequest slot _ module _ => contextSlot slot && moduleNumber module
  | .stateTransfer slot _ module _ members _ => contextSlot slot && moduleNumber module && members.all moduleNumber
  | .rejoinResend slot _ => contextSlot slot
  | .trapDelivery _ => true
  | .progressStall _ => true
  | .barrierTimeout _ bar => decide (bar < 16)
  | .trywaitTimeout _ => true
  | .strike core lb => coreNumber core && laneBlock lb
  | .holdWindowRelease _ => true
  | .scrub _ _ => true
  | .teamRelaunch _ => true
  | .rollback _ => true
  | .fatalError _ => true
  | .thermal cluster _ _ => clusterNumber cluster
  | .tokenBucketRefill cluster => clusterNumber cluster
  | .bucketReservation cluster _ => clusterNumber cluster
  | .laneRateTransition cluster => clusterNumber cluster
  | .droopDetectorTrip cluster => clusterNumber cluster
  | .securityCounterProgram _ => true
  | .powerManagerCapAndRefill cluster _ _ => clusterNumber cluster

end Sys2Proof
end

