-- ==== Sys2Proof/Decode.lean ====
section
/-! DEFINITION. Reading and writing the words of instructions (R117 to R141) and of commands (R106, R107).
The decoder refuses, by name, every word that check 2 of R143 refuses whatever the state. The encoder is
written from the same tables. -/

namespace Sys2Proof

/-- Why the decoder reads no instruction. -/
inductive DecodeError where
  /-- The instruction is longer than the bytes given to the decoder. -/
  | tooShort
  /-- R139 to R141: an unassigned opcode, or a reserved bit or field that is not 0. -/
  | unassigned
  /-- A field outside its listed range (check 2 of R143). -/
  | outOfRange
  deriving DecidableEq, Repr

/-- `i`, if the reserved bits are as they must be. -/
def only (reserved : Bool) (i : Instr) : Option Instr := if reserved then some i else none

/-- R129, R139: opcodes 0x10 to 0x4E, whose imm[3:0] is `mod`. -/
def decodeRoutable (op : BitVec 7) (w : Bool) (mod : BitVec 4) : Option Instr :=
  match op.toNat with
  | 0x10 => only (mod.extractLsb' 2 2 == 0) (.add w (mod.getLsbD 1) (mod.getLsbD 0))
  | 0x11 => only (mod.extractLsb' 2 2 == 0) (.sub w (mod.getLsbD 1) (mod.getLsbD 0))
  | 0x12 => only (mod == 0) (.mul w)
  | 0x13 => only (mod.extractLsb' 1 3 == 0) (.mulh w (mod.getLsbD 0))
  | 0x14 => only (mod.extractLsb' 1 3 == 0) (.div w (mod.getLsbD 0))
  | 0x15 => only (mod.extractLsb' 1 3 == 0) (.rem w (mod.getLsbD 0))
  | 0x16 => only (mod == 0) (.neg w)
  | 0x17 => only (mod == 0) (.abs w)
  | 0x18 => only (mod.extractLsb' 1 3 == 0) (.min w (mod.getLsbD 0))
  | 0x19 => only (mod.extractLsb' 1 3 == 0) (.max w (mod.getLsbD 0))
  | 0x1A => only (mod == 0) (.and w)
  | 0x1B => only (mod == 0) (.or w)
  | 0x1C => only (mod == 0) (.xor w)
  | 0x1D => only (mod == 0) (.not w)
  | 0x1E => only (mod == 0) (.shl w)
  | 0x1F => only (mod == 0) (.shr w)
  | 0x20 => only (mod == 0) (.sra w)
  | 0x21 => only (mod == 0) (.rotl w)
  | 0x22 => only (mod == 0) (.popc w)
  | 0x23 => only (mod == 0) (.clz w)
  | 0x24 => only (mod == 0) (.ctz w)
  | 0x25 => only (mod == 0) (.brev w)
  | 0x26 => only (mod == 0) (.sel w)
  | 0x27 => only (mod == 0) (.mad w)
  | 0x28 => some (.icmp w (mod.getLsbD 3) (mod.extractLsb' 0 3))
  | 0x30 => only (mod.extractLsb' 2 2 == 0) (.fadd w (mod.extractLsb' 0 2))
  | 0x31 => only (mod.extractLsb' 2 2 == 0) (.fsub w (mod.extractLsb' 0 2))
  | 0x32 => only (mod.extractLsb' 2 2 == 0) (.fmul w (mod.extractLsb' 0 2))
  | 0x33 => only (mod.extractLsb' 2 2 == 0) (.fdiv w (mod.extractLsb' 0 2))
  | 0x34 => only (mod.extractLsb' 2 2 == 0) (.fma w (mod.extractLsb' 0 2))
  | 0x35 => only (mod == 0) (.fneg w)
  | 0x36 => only (mod == 0) (.fabs w)
  | 0x37 => only (mod == 0) (.fmin w)
  | 0x38 => only (mod == 0) (.fmax w)
  | 0x39 => only (mod.extractLsb' 2 2 == 0) (.fsqrt w (mod.extractLsb' 0 2))
  | 0x3A => only (mod.extractLsb' 2 2 == 0) (.frcp w (mod.extractLsb' 0 2))
  | 0x3B => only (mod == 0) (.frsq w)
  | 0x3C => only (mod == 0) (.fex2 w)
  | 0x3D => only (mod == 0) (.flg2 w)
  | 0x3E => only (mod == 0) (.fsin w)
  | 0x3F => only (mod == 0) (.fcos w)
  | 0x40 => only (!mod.getLsbD 3) (.fcmp w (mod.extractLsb' 0 3))
  | 0x41 => only (mod == 0) (.fclass w)
  | 0x42 => only (!mod.getLsbD 3) (.frnd w (mod.getLsbD 2) (mod.extractLsb' 0 2))
  | 0x48 => only (mod == 0) (.add2 w)
  | 0x49 => only (mod == 0) (.sub2 w)
  | 0x4A => only (mod.extractLsb' 1 3 == 0) (.mulw w (mod.getLsbD 0))
  | 0x4B => only (mod == 0) (.shl2 w)
  | 0x4C => only (mod.extractLsb' 1 3 == 0) (.shr2 w (mod.getLsbD 0))
  | 0x4D => some (.icmp2 w (mod.getLsbD 3) (mod.extractLsb' 0 3))
  | 0x4E => some (.lea w (mod.getLsbD 3) (mod.extractLsb' 0 3))
  | _ => none

/-- R122, R139: the other S16 opcodes. -/
def decodeShort (op : BitVec 7) (w : Bool) (imm : BitVec 7) : Option Instr :=
  match op.toNat with
  | 0x00 => only (imm == 0) (.nop w)
  | 0x01 => only (imm == 0) (.drop w)
  | 0x02 => only (imm.extractLsb' 3 4 == 0) (.dup w (imm.extractLsb' 0 3))
  | 0x03 => only (imm == 0) (.swap w)
  | 0x04 => only (imm == 0) (.rot w)
  | 0x05 => only (imm == 0) (.nip w)
  | 0x06 => only (imm == 0) (.depth w)
  | 0x07 => some (.litS w imm)
  | 0x08 => some (.ldf w imm)
  | 0x09 => some (.stf w imm)
  | 0x0A => (only (imm.extractLsb' 5 2 == 0) (.rds w (imm.extractLsb' 0 5))) <|> (only (imm.extractLsb' 5 2 == 2) (.rdsD w (imm.extractLsb' 0 5)))
  | 0x0B => only (imm.extractLsb' 1 6 == 0) (.flags w (imm.getLsbD 0))
  | 0x0C => only (imm == 0) (.lead w)
  | 0x0D => only (imm.extractLsb' 2 5 == 0) (.vote w (imm.extractLsb' 0 2))
  | 0x0E => only (imm.extractLsb' 2 5 == 0) (.shfl w (imm.extractLsb' 0 2))
  | 0x0F => only (imm == 0) (.wsync w)
  | 0x50 => some (.br w imm)
  | 0x51 => some (.bz w imm)
  | 0x52 => some (.bnz w imm)
  | 0x53 => some (.bzj w imm)
  | 0x54 => some (.bnzj w imm)
  | 0x55 => some (.brq w imm)
  | 0x56 => some (.join w imm)
  | 0x57 => only (imm == 0) (.ret w)
  | 0x58 => only (imm == 0) (.exit w)
  | 0x59 => only (imm == 0) (.yield w)
  | 0x5A => some (.brk w imm)
  | _ => if imm.extractLsb' 4 3 == 0 then decodeRoutable op w (imm.extractLsb' 0 4) else none

/-- R130, R140: the L32-I opcodes. -/
def decodeImmediate (op : BitVec 8) (w : Bool) (sub : BitVec 5) (imm : BitVec 16) : Option Instr :=
  match op.toNat with
  | 0x80 => only (sub.extractLsb' 2 3 == 0) (.lit16 w (sub.extractLsb' 0 2) imm)
  | 0x81 => only (imm.extractLsb' 8 8 == 0 && sub.extractLsb' 1 4 == 0) (.ldfL w (sub.getLsbD 0) (imm.extractLsb' 0 8))
  | 0x82 => only (imm.extractLsb' 8 8 == 0 && sub.extractLsb' 1 4 == 0) (.stfL w (sub.getLsbD 0) (imm.extractLsb' 0 8))
  | 0x83 => only (sub == 0 && imm.extractLsb' 8 8 == 0) (.frame w (imm.extractLsb' 0 8))
  | 0x84 => only (sub == 0 && imm.extractLsb' 8 8 == 0) (.leave w (imm.extractLsb' 0 8))
  | 0x85 => only (sub == 0) (.brL w imm)
  | 0x86 => only (sub == 0) (.bzL w imm)
  | 0x87 => only (sub == 0) (.bnzL w imm)
  | 0x88 => only (sub == 0) (.bzjL w imm)
  | 0x89 => only (sub == 0) (.bnzjL w imm)
  | 0x8A => only (sub == 0) (.call w imm)
  | 0x8B => only (imm == 0) (.jtab w sub)
  | 0x8C => only (sub == 0) (.jmpF w imm)
  | 0x8D => only (sub.extractLsb' 3 2 == 0) (.kbz w (sub.extractLsb' 0 3) imm)
  | 0x8E => only (sub.extractLsb' 3 2 == 0) (.kbnz w (sub.extractLsb' 0 3) imm)
  | 0x8F => only (sub == 0) (.trap w imm)
  | 0x90 => only (sub == 0 && imm == 0) .rte
  | 0x91 => only (imm.extractLsb' 4 12 == 0 && !sub.getLsbD 4) (.rplq w (sub.extractLsb' 0 4) (imm.extractLsb' 0 4))
  | 0x92 => only (imm.extractLsb' 4 12 == 0 && !sub.getLsbD 4) (.wplq w (sub.extractLsb' 0 4) (imm.extractLsb' 0 4))
  | 0x93 => only (sub.extractLsb' 3 2 == 0) (.ld w (sub.extractLsb' 0 3) imm)
  | 0x94 => only (sub.extractLsb' 3 2 == 0) (.st w (sub.extractLsb' 0 3) imm)
  | 0x95 => only (sub == 0 && imm.extractLsb' 10 6 == 0) (.ldo w (imm.getLsbD 9) (imm.extractLsb' 6 3) (imm.extractLsb' 3 3) (imm.extractLsb' 0 3))
  | 0x96 => only (sub == 0 && imm.extractLsb' 10 6 == 0) (.sto w (imm.getLsbD 9) (imm.extractLsb' 6 3) (imm.extractLsb' 3 3) (imm.extractLsb' 0 3))
  | 0x97 => only (sub == 0) (.prefetch w imm)
  | 0x98 => only (imm.extractLsb' 10 6 == 0) (.atom w sub (imm.getLsbD 9) (imm.extractLsb' 6 3) (imm.extractLsb' 3 3) (imm.extractLsb' 0 3))
  | 0x99 => only (imm.extractLsb' 10 6 == 0 && sub.extractLsb' 3 2 == 0) (.cas w (sub.extractLsb' 0 3) (imm.getLsbD 9) (imm.extractLsb' 6 3) (imm.extractLsb' 3 3) (imm.extractLsb' 0 3))
  | 0x9A => only (imm.extractLsb' 10 6 == 0) (.red w sub (imm.getLsbD 9) (imm.extractLsb' 6 3) (imm.extractLsb' 3 3) (imm.extractLsb' 0 3))
  | 0x9B => only (imm.extractLsb' 0 3 == 0 && sub == 0 && imm.extractLsb' 9 7 == 0) (.fence w (imm.extractLsb' 6 3) (imm.extractLsb' 3 3))
  | 0x9C => only (imm.extractLsb' 8 8 == 0 && sub.extractLsb' 2 3 == 0) (.waitc w (sub.extractLsb' 0 2) (imm.extractLsb' 0 8))
  | 0x9D => only (imm.extractLsb' 8 8 == 0 && sub.extractLsb' 2 3 == 0) (.trywait w (sub.extractLsb' 0 2) (imm.extractLsb' 0 8))
  | 0x9E => only (!sub.getLsbD 4) (.barArrive w (sub.extractLsb' 0 4) imm)
  | 0x9F => only (!sub.getLsbD 4) (.barSync w (sub.extractLsb' 0 4) imm)
  | 0xA0 => only (imm == 0 && sub.extractLsb' 2 3 == 0) (.qpush w (sub.extractLsb' 0 2))
  | 0xA1 => only (imm == 0 && sub.extractLsb' 2 3 == 0) (.qpop w (sub.extractLsb' 0 2))
  | 0xA2 => only (imm == 0 && sub.extractLsb' 2 3 == 0) (.qeos w (sub.extractLsb' 0 2))
  | 0xA3 => only (imm == 0 && sub.extractLsb' 2 3 == 0) (.qtry w (sub.extractLsb' 0 2))
  | 0xA4 => only (sub == 0 && imm == 0) (.seal w)
  | 0xA5 => only (sub == 0 && imm == 0) (.unseal w)
  | 0xA6 => only (sub == 0 && imm.extractLsb' 6 10 == 0) (.cfetch w (imm.extractLsb' 0 6))
  | 0xA7 => only (sub == 0 && imm.extractLsb' 6 10 == 0) (.cevict w (imm.extractLsb' 0 6))
  | 0xA8 => only (sub == 0 && imm.extractLsb' 6 10 == 0) (.cstat w (imm.extractLsb' 0 6))
  | 0xA9 => (only (sub == 0 && imm.extractLsb' 11 5 == 0) (.cvt w (imm.getLsbD 10) (imm.extractLsb' 8 2) (imm.extractLsb' 4 4) (imm.extractLsb' 0 4))) <|> (only (imm.extractLsb' 3 13 == 0 && sub.extractLsb' 3 2 == 2) (.cvtSlot w (sub.extractLsb' 0 3) (imm.extractLsb' 0 3)))
  | 0xAA => only (imm == 0 && sub.extractLsb' 3 2 == 0) (.bpack w (sub.extractLsb' 0 3))
  | 0xAB => only (imm == 0 && sub.extractLsb' 3 2 == 0) (.bunpack w (sub.extractLsb' 0 3))
  | 0xAC => only (imm.extractLsb' 3 13 == 0 && sub.extractLsb' 1 4 == 0) (.hadd2 w (sub.getLsbD 0) (imm.getLsbD 2) (imm.extractLsb' 0 2))
  | 0xAD => only (imm.extractLsb' 2 14 == 0 && sub.extractLsb' 1 4 == 0) (.hmul2 w (sub.getLsbD 0) (imm.extractLsb' 0 2))
  | 0xAE => only (imm.extractLsb' 2 14 == 0 && sub.extractLsb' 1 4 == 0) (.hfma2 w (sub.getLsbD 0) (imm.extractLsb' 0 2))
  | 0xAF => only (imm == 0 && sub.extractLsb' 2 3 == 0) (.hmnx2 w (sub.getLsbD 1) (sub.getLsbD 0))
  | 0xB0 => only (sub == 0 && imm.extractLsb' 2 14 == 0) (.dadd w (imm.extractLsb' 0 2))
  | 0xB1 => only (sub == 0 && imm.extractLsb' 2 14 == 0) (.dmul w (imm.extractLsb' 0 2))
  | 0xB2 => only (sub == 0 && imm.extractLsb' 2 14 == 0) (.dfma w (imm.extractLsb' 0 2))
  | 0xB3 => only (sub == 0 && imm.extractLsb' 2 14 == 0) (.ddiv w (imm.extractLsb' 0 2))
  | 0xB4 => only (sub == 0 && imm.extractLsb' 2 14 == 0) (.dsqrt w (imm.extractLsb' 0 2))
  | 0xB5 => only (imm.extractLsb' 10 6 == 0 && sub.extractLsb' 1 4 == 0) (.bfe w (sub.getLsbD 0) (imm.extractLsb' 5 5) (imm.extractLsb' 0 5))
  | 0xB6 => only (sub == 0 && imm.extractLsb' 10 6 == 0) (.bfi w (imm.extractLsb' 5 5) (imm.extractLsb' 0 5))
  | 0xB7 => (only (sub == 0 && imm == 0) (.wrsLfsr w)) <|> (only (sub == 1 && imm == 0) (.wrsVigil w))
  | _ => none

/-- R131, R140: the L32-K opcodes. -/
def decodeUniform (op : BitVec 8) (kd ka kb : BitVec 6) (mod : BitVec 4) : Option Instr :=
  match op.toNat with
  | 0xC0 => only (kb == 0 && mod == 0) (.kmov kd ka)
  | 0xC1 => only (mod.extractLsb' 0 3 == 0) (.kadd kd ka kb (mod.getLsbD 3))
  | 0xC2 => only (mod.extractLsb' 0 3 == 0) (.ksub kd ka kb (mod.getLsbD 3))
  | 0xC3 => only (mod.extractLsb' 0 3 == 0) (.kmul kd ka kb (mod.getLsbD 3))
  | 0xC4 => only (mod.extractLsb' 0 3 == 0) (.kand kd ka kb (mod.getLsbD 3))
  | 0xC5 => only (mod.extractLsb' 0 3 == 0) (.kor kd ka kb (mod.getLsbD 3))
  | 0xC6 => only (mod.extractLsb' 0 3 == 0) (.kxor kd ka kb (mod.getLsbD 3))
  | 0xC7 => only (mod.extractLsb' 0 3 == 0) (.kshl kd ka kb (mod.getLsbD 3))
  | 0xC8 => only (mod.extractLsb' 1 2 == 0) (.kshr kd ka kb (mod.getLsbD 3) (mod.getLsbD 0))
  | 0xC9 => only (mod.extractLsb' 1 2 == 0) (.kmin kd ka kb (mod.getLsbD 3) (mod.getLsbD 0))
  | 0xCA => only (mod.extractLsb' 1 2 == 0) (.kmax kd ka kb (mod.getLsbD 3) (mod.getLsbD 0))
  | 0xCB => only (kd.extractLsb' 3 3 == 0) (.kcmp (kd.extractLsb' 0 3) ka kb (mod.getLsbD 3) (mod.extractLsb' 0 3))
  | 0xCC => only (mod.extractLsb' 0 3 == 0) (.kadd2 kd ka kb (mod.getLsbD 3))
  | 0xCD => some (.klea kd ka kb (mod.getLsbD 3) (mod.extractLsb' 0 3))
  | 0xCE => only (mod.extractLsb' 2 2 == 0) (.kld kd ka kb (mod.extractLsb' 0 2))
  | 0xCF => only (mod.extractLsb' 2 2 == 0) (.kst kd ka kb (mod.extractLsb' 0 2))
  | 0xD0 => only (kb == 0 && mod == 0 && kd == 0) (.kpush ka)
  | 0xD1 => only (ka == 0 && kb == 0 && mod.extractLsb' 1 3 == 0) (.kpop kd (mod.getLsbD 0))
  | 0xD2 => only (ka == 0 && kb == 0) (.kred kd mod)
  | 0xD3 => some (.kpsel kd ka kb (mod.getLsbD 3) (mod.extractLsb' 0 3))
  | 0xD4 => only (kb == 0 && mod == 0 && kd == 0) (.setperf ka)
  | 0xD5 => only (kb == 0 && mod == 0 && kd.extractLsb' 3 3 == 0) (.agen (kd.extractLsb' 0 3) ka)
  | 0xD6 => only (kb == 0 && mod == 0 && kd == 0) (.dqpush ka)
  | 0xD7 => only (kd == 0 && ka == 0 && kb == 0 && mod == 0) .fetend
  | _ => none

/-- R132 to R138, R141: the X64 forms, with f6 and the payload. -/
def decodeLong (op : BitVec 8) (f : BitVec 6) (p : BitVec 48) : Option Instr :=
  match op.toNat with
  | 0x00 => only (f == 0 && p.extractLsb' 32 16 == 0) (.lit32 (p.extractLsb' 0 32))
  | 0x01 => only (p.extractLsb' 32 16 == 0) (.kli f (p.extractLsb' 0 32))
  | 0x02 => only (f == 0) (.jmpX p)
  | 0x10 =>
    only (p.extractLsb' 46 2 == 0 && !p.getLsbD 29 && p.extractLsb' 9 2 == 0 && p.extractLsb' 0 5 == 0)
      (.mma f (p.extractLsb' 44 2) (p.extractLsb' 39 5) (p.extractLsb' 36 3) (p.extractLsb' 33 3)
        (p.extractLsb' 30 3) (p.getLsbD 28) (p.getLsbD 27) (p.getLsbD 26) (p.getLsbD 25) (p.getLsbD 24)
        (p.getLsbD 23) (p.extractLsb' 17 6) (p.extractLsb' 11 6) (p.extractLsb' 5 4))
  | 0x11 =>
    only (f == 0 && p.extractLsb' 46 2 == 0 && p.extractLsb' 28 16 == 0 && p.extractLsb' 0 27 == 0)
      (.mclr (p.extractLsb' 44 2) (p.getLsbD 27))
  | 0x12 =>
    only (f == 0 && p.extractLsb' 46 2 == 0 && p.extractLsb' 28 2 == 0 && p.extractLsb' 23 4 == 0
        && p.extractLsb' 9 2 == 0 && p.extractLsb' 0 5 == 0)
      (.mdrain (p.extractLsb' 44 2) (p.extractLsb' 39 5) (p.extractLsb' 36 3) (p.extractLsb' 33 3)
        (p.extractLsb' 30 3) (p.getLsbD 27) (p.extractLsb' 17 6) (p.extractLsb' 11 6) (p.extractLsb' 5 4))
  | 0x13 =>
    only (p.extractLsb' 36 8 == 0 && p.extractLsb' 29 4 == 0 && p.extractLsb' 23 4 == 0
        && p.extractLsb' 12 5 == 0 && p.extractLsb' 0 5 == 0)
      (.bload f (p.extractLsb' 44 4) (p.extractLsb' 33 3) (p.getLsbD 28) (p.getLsbD 27)
        (p.extractLsb' 17 6) (p.extractLsb' 5 7))
  | 0x14 =>
    only (f == 0 && p.extractLsb' 28 16 == 0 && p.extractLsb' 0 27 == 0)
      (.bswap (p.extractLsb' 44 4) (p.getLsbD 27))
  | 0x15 =>
    only (p.extractLsb' 0 34 == 0)
      (.dload f (p.extractLsb' 46 2) (p.extractLsb' 40 6) (p.extractLsb' 34 6))
  | 0x20 =>
    only (!p.getLsbD 27 && p.extractLsb' 0 8 == 0)
      (.tcopy f (p.extractLsb' 42 6) (p.getLsbD 41) (p.extractLsb' 38 3) (p.extractLsb' 32 6)
        (p.getLsbD 31) (p.extractLsb' 28 3) (p.extractLsb' 24 3) (p.extractLsb' 8 16))
  | 0x21 =>
    only (!p.getLsbD 41 && !p.getLsbD 27 && p.extractLsb' 0 8 == 0)
      (.tgather f (p.extractLsb' 42 6) (p.extractLsb' 38 3) (p.extractLsb' 32 6)
        (p.getLsbD 31) (p.extractLsb' 28 3) (p.extractLsb' 24 3) (p.extractLsb' 8 16))
  | 0x22 =>
    only (!p.getLsbD 41 && !p.getLsbD 27 && p.extractLsb' 0 8 == 0)
      (.tscatter f (p.extractLsb' 42 6) (p.extractLsb' 38 3) (p.extractLsb' 32 6)
        (p.getLsbD 31) (p.extractLsb' 28 3) (p.extractLsb' 24 3) (p.extractLsb' 8 16))
  | 0x30 =>
    only (p.extractLsb' 41 7 == 0 && p.extractLsb' 24 14 == 0 && p.extractLsb' 0 8 == 0)
      (.coll f (p.extractLsb' 38 3) (p.extractLsb' 8 16))
  | 0x31 => only (p.extractLsb' 16 32 == 0) (.vtag f (p.extractLsb' 0 16))
  | _ => none

/-- R122: one parcel. -/
def decode16 (w : BitVec 16) : Option Instr :=
  decodeShort (w.extractLsb' 8 7) (w.getLsbD 7) (w.extractLsb' 0 7)

/-- R125: two parcels; the opcode selects the layout. -/
def decode32 (w : BitVec 32) : Option Instr :=
  if (w.extractLsb' 22 8).toNat < 0x80 then
    some (.l32Routed (w.extractLsb' 22 7) (w.getLsbD 21) (w.extractLsb' 19 2) (w.extractLsb' 17 2)
      (w.getLsbD 16) (w.extractLsb' 12 4) (w.extractLsb' 8 4) (w.extractLsb' 4 4) (w.extractLsb' 0 4))
  else if (w.extractLsb' 22 8).toNat < 0xC0 then
    decodeImmediate (w.extractLsb' 22 8) (w.getLsbD 21) (w.extractLsb' 16 5) (w.extractLsb' 0 16)
  else
    decodeUniform (w.extractLsb' 22 8) (w.extractLsb' 16 6) (w.extractLsb' 10 6) (w.extractLsb' 4 6)
      (w.extractLsb' 0 4)

/-- R132: four parcels. -/
def decode64 (w : BitVec 64) : Option Instr :=
  decodeLong (w.extractLsb' 54 8) (w.extractLsb' 48 6) (w.extractLsb' 0 48)

/-- R118: the number of parcels, from the first parcel alone. -/
def parcelCount (p : Parcel) : Nat :=
  if !p.getLsbD 15 then 1 else if p.getLsbD 14 then 4 else 2

/-- What was read, if it is well formed. -/
def accept (rest : List Parcel) : Option Instr → Except DecodeError (Instr × List Parcel)
  | none => .error .unassigned
  | some i => if i.wellFormed then .ok (i, rest) else .error .outOfRange

/-- R117, R118: the instruction that the parcels begin with, and the parcels after it. The first parcel
holds the most significant bits. -/
def decodeParcels : List Parcel → Except DecodeError (Instr × List Parcel)
  | [] => .error .tooShort
  | p :: rest =>
    match parcelCount p, rest with
    | 1, _ => accept rest (decode16 p)
    | 2, q :: rest => accept rest (decode32 (p ++ q))
    | 4, q :: r :: s :: rest => accept rest (decode64 (p ++ q ++ r ++ s))
    | _, _ => .error .tooShort

/-- R117: parcels are stored little-endian at consecutive addresses. -/
def parcelsOf : List Byte → List Parcel
  | lo :: hi :: rest => (hi ++ lo) :: parcelsOf rest
  | _ => []

/-- The bytes of the parcels, lowest address first. -/
def bytesOf : List Parcel → List Byte
  | [] => []
  | p :: rest => p.extractLsb' 0 8 :: p.extractLsb' 8 8 :: bytesOf rest

/-- The instruction at the start of the bytes, and the bytes after it. -/
def decode (bytes : List Byte) : Except DecodeError (Instr × List Byte) :=
  let ps := parcelsOf bytes
  match decodeParcels ps with
  | .error e => .error e
  | .ok (i, rest) => .ok (i, bytes.drop (2 * (ps.length - rest.length)))

/-- An S16 word (R122). -/
def s16 (op : BitVec 7) (w : Bool) (imm : BitVec 7) : BitVec 16 := 0#1 ++ op ++ BitVec.ofBool w ++ imm

/-- An S16 word of a routable opcode (R129). -/
def s16r (op : BitVec 7) (w : Bool) (mod : BitVec 4) : BitVec 16 := s16 op w (0#3 ++ mod)

/-- An L32-I word (R130). -/
def l32i (op : BitVec 8) (w : Bool) (sub : BitVec 5) (imm : BitVec 16) : BitVec 32 :=
  0b10#2 ++ op ++ BitVec.ofBool w ++ sub ++ imm

/-- An L32-K word (R131). -/
def l32k (op : BitVec 8) (kd ka kb : BitVec 6) (mod : BitVec 4) : BitVec 32 :=
  0b10#2 ++ op ++ kd ++ ka ++ kb ++ mod

/-- An L32-R word (R126). -/
def l32r (op : BitVec 7) (w : Bool) (ra rb : BitVec 2) (rd : Bool) (cha chb chd mod : BitVec 4) :
    BitVec 32 :=
  0b100#3 ++ op ++ BitVec.ofBool w ++ ra ++ rb ++ BitVec.ofBool rd ++ cha ++ chb ++ chd ++ mod

/-- One parcel. -/
def parcels1 (w : BitVec 16) : List Parcel := [w]

/-- Two parcels, the most significant first (R117). -/
def parcels2 (w : BitVec 32) : List Parcel := [w.extractLsb' 16 16, w.extractLsb' 0 16]

/-- An X64 word's parcels (R132). -/
def x64 (op : BitVec 8) (f : BitVec 6) (p : BitVec 48) : List Parcel :=
  let w : BitVec 64 := 0b11#2 ++ op ++ f ++ p
  [w.extractLsb' 48 16, w.extractLsb' 32 16, w.extractLsb' 16 16, w.extractLsb' 0 16]

/-- The parcels of an instruction; a command or a device step has none. -/
def encode : Instr → Option (List Parcel)
  | .nop w => some (parcels1 (s16 0x00 w (0#7)))
  | .drop w => some (parcels1 (s16 0x01 w (0#7)))
  | .dup w n => some (parcels1 (s16 0x02 w (0#4 ++ n)))
  | .swap w => some (parcels1 (s16 0x03 w (0#7)))
  | .rot w => some (parcels1 (s16 0x04 w (0#7)))
  | .nip w => some (parcels1 (s16 0x05 w (0#7)))
  | .depth w => some (parcels1 (s16 0x06 w (0#7)))
  | .litS w v => some (parcels1 (s16 0x07 w (v)))
  | .ldf w s => some (parcels1 (s16 0x08 w (s)))
  | .stf w s => some (parcels1 (s16 0x09 w (s)))
  | .rds w n => some (parcels1 (s16 0x0A w (0#2 ++ n)))
  | .rdsD w n => some (parcels1 (s16 0x0A w (2#2 ++ n)))
  | .flags w clear => some (parcels1 (s16 0x0B w (0#6 ++ BitVec.ofBool clear)))
  | .lead w => some (parcels1 (s16 0x0C w (0#7)))
  | .vote w mode => some (parcels1 (s16 0x0D w (0#5 ++ mode)))
  | .shfl w mode => some (parcels1 (s16 0x0E w (0#5 ++ mode)))
  | .wsync w => some (parcels1 (s16 0x0F w (0#7)))
  | .add w nat sat => some (parcels1 (s16r 0x10 w (0#2 ++ BitVec.ofBool nat ++ BitVec.ofBool sat)))
  | .sub w nat sat => some (parcels1 (s16r 0x11 w (0#2 ++ BitVec.ofBool nat ++ BitVec.ofBool sat)))
  | .mul w => some (parcels1 (s16r 0x12 w (0#4)))
  | .mulh w nat => some (parcels1 (s16r 0x13 w (0#3 ++ BitVec.ofBool nat)))
  | .div w nat => some (parcels1 (s16r 0x14 w (0#3 ++ BitVec.ofBool nat)))
  | .rem w nat => some (parcels1 (s16r 0x15 w (0#3 ++ BitVec.ofBool nat)))
  | .neg w => some (parcels1 (s16r 0x16 w (0#4)))
  | .abs w => some (parcels1 (s16r 0x17 w (0#4)))
  | .min w nat => some (parcels1 (s16r 0x18 w (0#3 ++ BitVec.ofBool nat)))
  | .max w nat => some (parcels1 (s16r 0x19 w (0#3 ++ BitVec.ofBool nat)))
  | .and w => some (parcels1 (s16r 0x1A w (0#4)))
  | .or w => some (parcels1 (s16r 0x1B w (0#4)))
  | .xor w => some (parcels1 (s16r 0x1C w (0#4)))
  | .not w => some (parcels1 (s16r 0x1D w (0#4)))
  | .shl w => some (parcels1 (s16r 0x1E w (0#4)))
  | .shr w => some (parcels1 (s16r 0x1F w (0#4)))
  | .sra w => some (parcels1 (s16r 0x20 w (0#4)))
  | .rotl w => some (parcels1 (s16r 0x21 w (0#4)))
  | .popc w => some (parcels1 (s16r 0x22 w (0#4)))
  | .clz w => some (parcels1 (s16r 0x23 w (0#4)))
  | .ctz w => some (parcels1 (s16r 0x24 w (0#4)))
  | .brev w => some (parcels1 (s16r 0x25 w (0#4)))
  | .sel w => some (parcels1 (s16r 0x26 w (0#4)))
  | .mad w => some (parcels1 (s16r 0x27 w (0#4)))
  | .icmp w nat cond => some (parcels1 (s16r 0x28 w (BitVec.ofBool nat ++ cond)))
  | .fadd w rm => some (parcels1 (s16r 0x30 w (0#2 ++ rm)))
  | .fsub w rm => some (parcels1 (s16r 0x31 w (0#2 ++ rm)))
  | .fmul w rm => some (parcels1 (s16r 0x32 w (0#2 ++ rm)))
  | .fdiv w rm => some (parcels1 (s16r 0x33 w (0#2 ++ rm)))
  | .fma w rm => some (parcels1 (s16r 0x34 w (0#2 ++ rm)))
  | .fneg w => some (parcels1 (s16r 0x35 w (0#4)))
  | .fabs w => some (parcels1 (s16r 0x36 w (0#4)))
  | .fmin w => some (parcels1 (s16r 0x37 w (0#4)))
  | .fmax w => some (parcels1 (s16r 0x38 w (0#4)))
  | .fsqrt w rm => some (parcels1 (s16r 0x39 w (0#2 ++ rm)))
  | .frcp w rm => some (parcels1 (s16r 0x3A w (0#2 ++ rm)))
  | .frsq w => some (parcels1 (s16r 0x3B w (0#4)))
  | .fex2 w => some (parcels1 (s16r 0x3C w (0#4)))
  | .flg2 w => some (parcels1 (s16r 0x3D w (0#4)))
  | .fsin w => some (parcels1 (s16r 0x3E w (0#4)))
  | .fcos w => some (parcels1 (s16r 0x3F w (0#4)))
  | .fcmp w cond => some (parcels1 (s16r 0x40 w (0#1 ++ cond)))
  | .fclass w => some (parcels1 (s16r 0x41 w (0#4)))
  | .frnd w inexact rm => some (parcels1 (s16r 0x42 w (0#1 ++ BitVec.ofBool inexact ++ rm)))
  | .add2 w => some (parcels1 (s16r 0x48 w (0#4)))
  | .sub2 w => some (parcels1 (s16r 0x49 w (0#4)))
  | .mulw w nat => some (parcels1 (s16r 0x4A w (0#3 ++ BitVec.ofBool nat)))
  | .shl2 w => some (parcels1 (s16r 0x4B w (0#4)))
  | .shr2 w arith => some (parcels1 (s16r 0x4C w (0#3 ++ BitVec.ofBool arith)))
  | .icmp2 w nat cond => some (parcels1 (s16r 0x4D w (BitVec.ofBool nat ++ cond)))
  | .lea w nat scale => some (parcels1 (s16r 0x4E w (BitVec.ofBool nat ++ scale)))
  | .br w off => some (parcels1 (s16 0x50 w (off)))
  | .bz w off => some (parcels1 (s16 0x51 w (off)))
  | .bnz w off => some (parcels1 (s16 0x52 w (off)))
  | .bzj w off => some (parcels1 (s16 0x53 w (off)))
  | .bnzj w off => some (parcels1 (s16 0x54 w (off)))
  | .brq w off => some (parcels1 (s16 0x55 w (off)))
  | .join w d => some (parcels1 (s16 0x56 w (d)))
  | .ret w => some (parcels1 (s16 0x57 w (0#7)))
  | .exit w => some (parcels1 (s16 0x58 w (0#7)))
  | .yield w => some (parcels1 (s16 0x59 w (0#7)))
  | .brk w code => some (parcels1 (s16 0x5A w (code)))
  | .l32Routed op w ra rb rd cha chb chd mod => some (parcels2 (l32r op w ra rb rd cha chb chd mod))
  | .lit16 w form imm => some (parcels2 (l32i 0x80 w (0#3 ++ form) imm))
  | .ldfL w wide s => some (parcels2 (l32i 0x81 w (0#4 ++ BitVec.ofBool wide) (0#8 ++ s)))
  | .stfL w wide s => some (parcels2 (l32i 0x82 w (0#4 ++ BitVec.ofBool wide) (0#8 ++ s)))
  | .frame w n => some (parcels2 (l32i 0x83 w (0#5) (0#8 ++ n)))
  | .leave w n => some (parcels2 (l32i 0x84 w (0#5) (0#8 ++ n)))
  | .brL w off => some (parcels2 (l32i 0x85 w (0#5) off))
  | .bzL w off => some (parcels2 (l32i 0x86 w (0#5) off))
  | .bnzL w off => some (parcels2 (l32i 0x87 w (0#5) off))
  | .bzjL w off => some (parcels2 (l32i 0x88 w (0#5) off))
  | .bnzjL w off => some (parcels2 (l32i 0x89 w (0#5) off))
  | .call w off => some (parcels2 (l32i 0x8A w (0#5) off))
  | .jtab w last => some (parcels2 (l32i 0x8B w last (0#16)))
  | .jmpF w off => some (parcels2 (l32i 0x8C w (0#5) off))
  | .kbz w kp off => some (parcels2 (l32i 0x8D w (0#2 ++ kp) off))
  | .kbnz w kp off => some (parcels2 (l32i 0x8E w (0#2 ++ kp) off))
  | .trap w code => some (parcels2 (l32i 0x8F w (0#5) code))
  | .rte => some (parcels2 (l32i 0x90 false (0#5) (0#16)))
  | .rplq w entry field => some (parcels2 (l32i 0x91 w (0#1 ++ entry) (0#12 ++ field)))
  | .wplq w entry field => some (parcels2 (l32i 0x92 w (0#1 ++ entry) (0#12 ++ field)))
  | .ld w size off => some (parcels2 (l32i 0x93 w (0#2 ++ size) off))
  | .st w size off => some (parcels2 (l32i 0x94 w (0#2 ++ size) off))
  | .ldo w rmt order scope size => some (parcels2 (l32i 0x95 w (0#5) (0#6 ++ BitVec.ofBool rmt ++ order ++ scope ++ size)))
  | .sto w rmt order scope size => some (parcels2 (l32i 0x96 w (0#5) (0#6 ++ BitVec.ofBool rmt ++ order ++ scope ++ size)))
  | .prefetch w off => some (parcels2 (l32i 0x97 w (0#5) off))
  | .atom w op rmt order scope size => some (parcels2 (l32i 0x98 w op (0#6 ++ BitVec.ofBool rmt ++ order ++ scope ++ size)))
  | .cas w forder rmt order scope size => some (parcels2 (l32i 0x99 w (0#2 ++ forder) (0#6 ++ BitVec.ofBool rmt ++ order ++ scope ++ size)))
  | .red w op rmt order scope size => some (parcels2 (l32i 0x9A w op (0#6 ++ BitVec.ofBool rmt ++ order ++ scope ++ size)))
  | .fence w order scope => some (parcels2 (l32i 0x9B w (0#5) (0#7 ++ order ++ scope ++ 0#3)))
  | .waitc w cls n => some (parcels2 (l32i 0x9C w (0#3 ++ cls) (0#8 ++ n)))
  | .trywait w cls n => some (parcels2 (l32i 0x9D w (0#3 ++ cls) (0#8 ++ n)))
  | .barArrive w bar count => some (parcels2 (l32i 0x9E w (0#1 ++ bar) count))
  | .barSync w bar count => some (parcels2 (l32i 0x9F w (0#1 ++ bar) count))
  | .qpush w port => some (parcels2 (l32i 0xA0 w (0#3 ++ port) (0#16)))
  | .qpop w port => some (parcels2 (l32i 0xA1 w (0#3 ++ port) (0#16)))
  | .qeos w port => some (parcels2 (l32i 0xA2 w (0#3 ++ port) (0#16)))
  | .qtry w port => some (parcels2 (l32i 0xA3 w (0#3 ++ port) (0#16)))
  | .seal w => some (parcels2 (l32i 0xA4 w (0#5) (0#16)))
  | .unseal w => some (parcels2 (l32i 0xA5 w (0#5) (0#16)))
  | .cfetch w seg => some (parcels2 (l32i 0xA6 w (0#5) (0#10 ++ seg)))
  | .cevict w seg => some (parcels2 (l32i 0xA7 w (0#5) (0#10 ++ seg)))
  | .cstat w seg => some (parcels2 (l32i 0xA8 w (0#5) (0#10 ++ seg)))
  | .cvt w sat rm dst src => some (parcels2 (l32i 0xA9 w (0#5) (0#5 ++ BitVec.ofBool sat ++ rm ++ dst ++ src)))
  | .cvtSlot w src dst => some (parcels2 (l32i 0xA9 w (2#2 ++ src) (0#13 ++ dst)))
  | .bpack w slot => some (parcels2 (l32i 0xAA w (0#2 ++ slot) (0#16)))
  | .bunpack w slot => some (parcels2 (l32i 0xAB w (0#2 ++ slot) (0#16)))
  | .hadd2 w bf sub rm => some (parcels2 (l32i 0xAC w (0#4 ++ BitVec.ofBool bf) (0#13 ++ BitVec.ofBool sub ++ rm)))
  | .hmul2 w bf rm => some (parcels2 (l32i 0xAD w (0#4 ++ BitVec.ofBool bf) (0#14 ++ rm)))
  | .hfma2 w bf rm => some (parcels2 (l32i 0xAE w (0#4 ++ BitVec.ofBool bf) (0#14 ++ rm)))
  | .hmnx2 w max bf => some (parcels2 (l32i 0xAF w (0#3 ++ BitVec.ofBool max ++ BitVec.ofBool bf) (0#16)))
  | .dadd w rm => some (parcels2 (l32i 0xB0 w (0#5) (0#14 ++ rm)))
  | .dmul w rm => some (parcels2 (l32i 0xB1 w (0#5) (0#14 ++ rm)))
  | .dfma w rm => some (parcels2 (l32i 0xB2 w (0#5) (0#14 ++ rm)))
  | .ddiv w rm => some (parcels2 (l32i 0xB3 w (0#5) (0#14 ++ rm)))
  | .dsqrt w rm => some (parcels2 (l32i 0xB4 w (0#5) (0#14 ++ rm)))
  | .bfe w signed len pos => some (parcels2 (l32i 0xB5 w (0#4 ++ BitVec.ofBool signed) (0#6 ++ len ++ pos)))
  | .bfi w len pos => some (parcels2 (l32i 0xB6 w (0#5) (0#6 ++ len ++ pos)))
  | .wrsLfsr w => some (parcels2 (l32i 0xB7 w (0#5) (0#16)))
  | .wrsVigil w => some (parcels2 (l32i 0xB7 w (1#5) (0#16)))
  | .kmov kd ka => some (parcels2 (l32k 0xC0 kd ka (0#6) (0#4)))
  | .kadd kd ka kb imm => some (parcels2 (l32k 0xC1 kd ka kb (BitVec.ofBool imm ++ 0#3)))
  | .ksub kd ka kb imm => some (parcels2 (l32k 0xC2 kd ka kb (BitVec.ofBool imm ++ 0#3)))
  | .kmul kd ka kb imm => some (parcels2 (l32k 0xC3 kd ka kb (BitVec.ofBool imm ++ 0#3)))
  | .kand kd ka kb imm => some (parcels2 (l32k 0xC4 kd ka kb (BitVec.ofBool imm ++ 0#3)))
  | .kor kd ka kb imm => some (parcels2 (l32k 0xC5 kd ka kb (BitVec.ofBool imm ++ 0#3)))
  | .kxor kd ka kb imm => some (parcels2 (l32k 0xC6 kd ka kb (BitVec.ofBool imm ++ 0#3)))
  | .kshl kd ka kb imm => some (parcels2 (l32k 0xC7 kd ka kb (BitVec.ofBool imm ++ 0#3)))
  | .kshr kd ka kb imm arith => some (parcels2 (l32k 0xC8 kd ka kb (BitVec.ofBool imm ++ 0#2 ++ BitVec.ofBool arith)))
  | .kmin kd ka kb imm nat => some (parcels2 (l32k 0xC9 kd ka kb (BitVec.ofBool imm ++ 0#2 ++ BitVec.ofBool nat)))
  | .kmax kd ka kb imm nat => some (parcels2 (l32k 0xCA kd ka kb (BitVec.ofBool imm ++ 0#2 ++ BitVec.ofBool nat)))
  | .kcmp kp ka kb nat cond => some (parcels2 (l32k 0xCB (0#3 ++ kp) ka kb (BitVec.ofBool nat ++ cond)))
  | .kadd2 kd ka kb imm => some (parcels2 (l32k 0xCC kd ka kb (BitVec.ofBool imm ++ 0#3)))
  | .klea kd ka kb nat scale => some (parcels2 (l32k 0xCD kd ka kb (BitVec.ofBool nat ++ scale)))
  | .kld kd ka n size => some (parcels2 (l32k 0xCE kd ka n (0#2 ++ size)))
  | .kst kd ka n size => some (parcels2 (l32k 0xCF kd ka n (0#2 ++ size)))
  | .kpush ka => some (parcels2 (l32k 0xD0 (0#6) ka (0#6) (0#4)))
  | .kpop kd cv => some (parcels2 (l32k 0xD1 kd (0#6) (0#6) (0#3 ++ BitVec.ofBool cv)))
  | .kred kd op => some (parcels2 (l32k 0xD2 kd (0#6) (0#6) op))
  | .kpsel kd ka kb inv kp => some (parcels2 (l32k 0xD3 kd ka kb (BitVec.ofBool inv ++ kp)))
  | .setperf ka => some (parcels2 (l32k 0xD4 (0#6) ka (0#6) (0#4)))
  | .agen ch ka => some (parcels2 (l32k 0xD5 (0#3 ++ ch) ka (0#6) (0#4)))
  | .dqpush ka => some (parcels2 (l32k 0xD6 (0#6) ka (0#6) (0#4)))
  | .fetend => some (parcels2 (l32k 0xD7 (0#6) (0#6) (0#6) (0#4)))
  | .lit32 imm => some (x64 0x00 0#6 (0#16 ++ imm))
  | .kli kd imm => some (x64 0x01 kd (0#16 ++ imm))
  | .jmpX off => some (x64 0x02 0#6 off)
  | .mma ka tile prog aslot bslot oslot back pair acc cplx naz dc kt ks rows => some (x64 0x10 ka (0#2 ++ tile ++ prog ++ aslot ++ bslot ++ oslot ++ 0#1 ++ BitVec.ofBool back ++ BitVec.ofBool pair ++
      BitVec.ofBool acc ++ BitVec.ofBool cplx ++ BitVec.ofBool naz ++ BitVec.ofBool dc ++ kt ++ ks ++ 0#2 ++ rows ++ 0#5))
  | .mclr tile pair => some (x64 0x11 0#6 (0#2 ++ tile ++ 0#16 ++ BitVec.ofBool pair ++ 0#27))
  | .mdrain tile prog aslot bslot oslot pair kt ks rows => some (x64 0x12 0#6 (0#2 ++ tile ++ prog ++ aslot ++ bslot ++ oslot ++ 0#2 ++ BitVec.ofBool pair ++ 0#4 ++ kt ++ ks ++
      0#2 ++ rows ++ 0#5))
  | .bload kb macros bslot back pair kstr rows => some (x64 0x13 kb (macros ++ 0#8 ++ bslot ++ 0#4 ++ BitVec.ofBool back ++ BitVec.ofBool pair ++ 0#4 ++ kstr ++ 0#5 ++ rows ++ 0#5))
  | .bswap macros pair => some (x64 0x14 0#6 (macros ++ 0#16 ++ BitVec.ofBool pair ++ 0#27))
  | .dload kr kind first last => some (x64 0x15 kr (kind ++ first ++ last ++ 0#34))
  | .tcopy kl ksl out ring kc cv dslot ncoord tag => some (x64 0x20 kl (ksl ++ BitVec.ofBool out ++ ring ++ kc ++ BitVec.ofBool cv ++ dslot ++ 0#1 ++ ncoord ++ tag ++ 0#8))
  | .tgather kl ksl ring kc cv dslot ncoord tag => some (x64 0x21 kl (ksl ++ 0#1 ++ ring ++ kc ++ BitVec.ofBool cv ++ dslot ++ 0#1 ++ ncoord ++ tag ++ 0#8))
  | .tscatter kl ksl ring kc cv dslot ncoord tag => some (x64 0x22 kl (ksl ++ 0#1 ++ ring ++ kc ++ BitVec.ofBool cv ++ dslot ++ 0#1 ++ ncoord ++ tag ++ 0#8))
  | .coll kdsc ring tag => some (x64 0x30 kdsc (0#7 ++ ring ++ 0#14 ++ tag ++ 0#8))
  | .vtag kd group => some (x64 0x31 kd (0#32 ++ group))
  | .launch _ _ => none
  | .launchIndirect _ _ _ => none
  | .copy _ _ _ _ => none
  | .graph _ _ _ => none
  | .node _ _ _ => none
  | .edge _ _ _ => none
  | .phase _ => none
  | .wait _ _ _ _ => none
  | .waitPoll _ _ => none
  | .signal _ _ _ _ => none
  | .loop _ _ => none
  | .endloop _ => none
  | .ifSkip _ _ _ _ => none
  | .fenceCommand _ => none
  | .cancel _ _ _ => none
  | .codeLoad _ _ _ _ => none
  | .codeUnload _ _ _ => none
  | .sealCommand _ _ _ _ => none
  | .nodeStart _ _ _ => none
  | .doorbell _ _ => none
  | .ctxOpen _ _ => none
  | .ctxClose _ => none
  | .closeComplete _ => none
  | .mapPages _ => none
  | .unmapPages _ => none
  | .mapDone _ => none
  | .featCommit _ => none
  | .registerWrite _ _ _ => none
  | .reset => none
  | .functionReady _ => none
  | .hostLinkDown => none
  | .hostLinkUp => none
  | .teamPlacement _ _ => none
  | .stageSetStart _ _ => none
  | .partialEviction _ _ => none
  | .warpResume _ _ => none
  | .timeSliceSwitch _ _ => none
  | .warpSwap _ _ => none
  | .splitSelection _ => none
  | .spillRefillComplete _ _ => none
  | .forwardingEntryFreed _ _ => none
  | .loadFill _ => none
  | .homeAccess _ => none
  | .pageWalk _ => none
  | .pageService _ => none
  | .migration _ _ _ => none
  | .sealTakesEffect _ => none
  | .unsealComplete _ => none
  | .demandFill _ _ _ => none
  | .codeFillLands _ _ => none
  | .agenStreamRead _ _ => none
  | .fetResume _ => none
  | .channelEmpty _ => none
  | .arrayPhase _ => none
  | .arrayPhaseEnd _ => none
  | .drain _ => none
  | .drainElement _ => none
  | .bswapTakesEffect _ => none
  | .matrixOperationRetire _ => none
  | .copyCommandStart _ => none
  | .copyCommandComplete _ => none
  | .decrementDelivery _ => none
  | .engineFaultTrap _ => none
  | .queueGrant _ _ => none
  | .queueRecordDelivery _ _ => none
  | .rebalancingInterval _ => none
  | .handoverMark _ _ => none
  | .donorEviction _ _ => none
  | .stageTeamStart _ _ => none
  | .stageSetStuck _ => none
  | .collAccept => none
  | .collComplete _ => none
  | .collectiveFlit _ => none
  | .heartbeat _ _ => none
  | .moduleLost _ => none
  | .agreementProposal _ _ _ _ => none
  | .agreementAck _ _ _ => none
  | .agreementCommit _ _ => none
  | .viewInstall _ _ => none
  | .rejoinRequest _ _ _ _ => none
  | .stateTransfer _ _ _ _ _ _ => none
  | .rejoinResend _ _ => none
  | .trapDelivery _ => none
  | .progressStall _ => none
  | .barrierTimeout _ _ => none
  | .trywaitTimeout _ => none
  | .strike _ _ => none
  | .holdWindowRelease _ => none
  | .scrub _ _ => none
  | .teamRelaunch _ => none
  | .rollback _ => none
  | .fatalError _ => none
  | .thermal _ _ _ => none
  | .tokenBucketRefill _ => none
  | .bucketReservation _ _ => none
  | .laneRateTransition _ => none
  | .droopDetectorTrip _ => none
  | .securityCounterProgram _ => none
  | .powerManagerCapAndRefill _ _ _ => none

/-- R117: the number of parcels the instruction occupies. -/
def Instr.parcels (i : Instr) : Nat := ((encode i).getD []).length

/-- A command's words (R106): the header, and the operand words. -/
def command (op words flags : BitVec 8) (tag : BitVec 32) (operands : List (BitVec 64)) :
    List (BitVec 64) :=
  (tag ++ 0#8 ++ flags ++ words ++ op) :: operands

/-- A NODE's words (R107). -/
def nodeWords (tag : BitVec 32) (index : BitVec 16) : NodeCommand → List (BitVec 64)
  | .launch record => command 0x05 3 0 tag [0#40 ++ 0x01#8 ++ index, record]
  | .launchIndirect record grid => command 0x05 4 0 tag [0#40 ++ 0x02#8 ++ index, record, grid]
  | .copy src dst bytes => command 0x05 5 0 tag [0#40 ++ 0x03#8 ++ index, src, dst, bytes]

/-- The words of a command (R107); no other instruction has any. -/
def encodeCommand : Instr → Option (List (BitVec 64))
  | .launch tag record => some (command 0x01 2 0 tag [record])
  | .launchIndirect tag record grid => some (command 0x02 3 0 tag [record, grid])
  | .copy tag src dst bytes => some (command 0x03 4 0 tag [src, dst, bytes])
  | .graph tag nodes edges => some (command 0x04 2 0 tag [0#32 ++ edges ++ nodes])
  | .node tag index cmd => some (nodeWords tag index cmd)
  | .edge tag src dst => some (command 0x06 2 0 tag [0#32 ++ dst ++ src])
  | .phase tag => some (command 0x07 1 0 tag [])
  | .wait tag eq va x => some (command 0x08 3 (0#7 ++ BitVec.ofBool eq) tag [va, x])
  | .signal tag irq va value => some (command 0x09 3 (0#7 ++ BitVec.ofBool irq) tag [va, value])
  | .loop tag count => some (command 0x0A 2 0 tag [0#32 ++ count])
  | .endloop tag => some (command 0x0B 1 0 tag [])
  | .ifSkip tag eqz va skip => some (command 0x0C 3 (0#7 ++ BitVec.ofBool eqz) tag [va, 0#32 ++ skip])
  | .fenceCommand tag => some (command 0x0D 1 0 tag [])
  | .cancel tag unit team => some (command 0x0E 2 0 tag [team ++ 0#29 ++ unit])
  | .codeLoad tag image bytes report => some (command 0x0F 4 0 tag [image, bytes, report])
  | .codeUnload tag forced handle => some (command 0x10 2 (0#7 ++ BitVec.ofBool forced) tag [handle])
  | .sealCommand tag undo base len => some (command 0x11 3 (0#7 ++ BitVec.ofBool undo) tag [base, len])
  | .nop _ => none
  | .drop _ => none
  | .dup _ _ => none
  | .swap _ => none
  | .rot _ => none
  | .nip _ => none
  | .depth _ => none
  | .litS _ _ => none
  | .ldf _ _ => none
  | .stf _ _ => none
  | .rds _ _ => none
  | .rdsD _ _ => none
  | .flags _ _ => none
  | .lead _ => none
  | .vote _ _ => none
  | .shfl _ _ => none
  | .wsync _ => none
  | .add _ _ _ => none
  | .sub _ _ _ => none
  | .mul _ => none
  | .mulh _ _ => none
  | .div _ _ => none
  | .rem _ _ => none
  | .neg _ => none
  | .abs _ => none
  | .min _ _ => none
  | .max _ _ => none
  | .and _ => none
  | .or _ => none
  | .xor _ => none
  | .not _ => none
  | .shl _ => none
  | .shr _ => none
  | .sra _ => none
  | .rotl _ => none
  | .popc _ => none
  | .clz _ => none
  | .ctz _ => none
  | .brev _ => none
  | .sel _ => none
  | .mad _ => none
  | .icmp _ _ _ => none
  | .fadd _ _ => none
  | .fsub _ _ => none
  | .fmul _ _ => none
  | .fdiv _ _ => none
  | .fma _ _ => none
  | .fneg _ => none
  | .fabs _ => none
  | .fmin _ => none
  | .fmax _ => none
  | .fsqrt _ _ => none
  | .frcp _ _ => none
  | .frsq _ => none
  | .fex2 _ => none
  | .flg2 _ => none
  | .fsin _ => none
  | .fcos _ => none
  | .fcmp _ _ => none
  | .fclass _ => none
  | .frnd _ _ _ => none
  | .add2 _ => none
  | .sub2 _ => none
  | .mulw _ _ => none
  | .shl2 _ => none
  | .shr2 _ _ => none
  | .icmp2 _ _ _ => none
  | .lea _ _ _ => none
  | .l32Routed _ _ _ _ _ _ _ _ _ => none
  | .br _ _ => none
  | .bz _ _ => none
  | .bnz _ _ => none
  | .bzj _ _ => none
  | .bnzj _ _ => none
  | .brq _ _ => none
  | .join _ _ => none
  | .ret _ => none
  | .exit _ => none
  | .yield _ => none
  | .brk _ _ => none
  | .lit16 _ _ _ => none
  | .ldfL _ _ _ => none
  | .stfL _ _ _ => none
  | .frame _ _ => none
  | .leave _ _ => none
  | .brL _ _ => none
  | .bzL _ _ => none
  | .bnzL _ _ => none
  | .bzjL _ _ => none
  | .bnzjL _ _ => none
  | .call _ _ => none
  | .jtab _ _ => none
  | .jmpF _ _ => none
  | .kbz _ _ _ => none
  | .kbnz _ _ _ => none
  | .trap _ _ => none
  | .rte => none
  | .rplq _ _ _ => none
  | .wplq _ _ _ => none
  | .ld _ _ _ => none
  | .st _ _ _ => none
  | .ldo _ _ _ _ _ => none
  | .sto _ _ _ _ _ => none
  | .prefetch _ _ => none
  | .atom _ _ _ _ _ _ => none
  | .cas _ _ _ _ _ _ => none
  | .red _ _ _ _ _ _ => none
  | .fence _ _ _ => none
  | .waitc _ _ _ => none
  | .trywait _ _ _ => none
  | .barArrive _ _ _ => none
  | .barSync _ _ _ => none
  | .qpush _ _ => none
  | .qpop _ _ => none
  | .qeos _ _ => none
  | .qtry _ _ => none
  | .seal _ => none
  | .unseal _ => none
  | .cfetch _ _ => none
  | .cevict _ _ => none
  | .cstat _ _ => none
  | .cvt _ _ _ _ _ => none
  | .cvtSlot _ _ _ => none
  | .bpack _ _ => none
  | .bunpack _ _ => none
  | .hadd2 _ _ _ _ => none
  | .hmul2 _ _ _ => none
  | .hfma2 _ _ _ => none
  | .hmnx2 _ _ _ => none
  | .dadd _ _ => none
  | .dmul _ _ => none
  | .dfma _ _ => none
  | .ddiv _ _ => none
  | .dsqrt _ _ => none
  | .bfe _ _ _ _ => none
  | .bfi _ _ _ => none
  | .wrsLfsr _ => none
  | .wrsVigil _ => none
  | .kmov _ _ => none
  | .kadd _ _ _ _ => none
  | .ksub _ _ _ _ => none
  | .kmul _ _ _ _ => none
  | .kand _ _ _ _ => none
  | .kor _ _ _ _ => none
  | .kxor _ _ _ _ => none
  | .kshl _ _ _ _ => none
  | .kshr _ _ _ _ _ => none
  | .kmin _ _ _ _ _ => none
  | .kmax _ _ _ _ _ => none
  | .kcmp _ _ _ _ _ => none
  | .kadd2 _ _ _ _ => none
  | .klea _ _ _ _ _ => none
  | .kld _ _ _ _ => none
  | .kst _ _ _ _ => none
  | .kpush _ => none
  | .kpop _ _ => none
  | .kred _ _ => none
  | .kpsel _ _ _ _ _ => none
  | .setperf _ => none
  | .agen _ _ => none
  | .dqpush _ => none
  | .fetend => none
  | .lit32 _ => none
  | .kli _ _ => none
  | .jmpX _ => none
  | .mma _ _ _ _ _ _ _ _ _ _ _ _ _ _ _ => none
  | .mclr _ _ => none
  | .mdrain _ _ _ _ _ _ _ _ _ => none
  | .bload _ _ _ _ _ _ _ => none
  | .bswap _ _ => none
  | .dload _ _ _ _ => none
  | .tcopy _ _ _ _ _ _ _ _ _ => none
  | .tgather _ _ _ _ _ _ _ _ => none
  | .tscatter _ _ _ _ _ _ _ _ => none
  | .coll _ _ _ => none
  | .vtag _ _ => none
  | .waitPoll _ _ => none
  | .nodeStart _ _ _ => none
  | .doorbell _ _ => none
  | .ctxOpen _ _ => none
  | .ctxClose _ => none
  | .closeComplete _ => none
  | .mapPages _ => none
  | .unmapPages _ => none
  | .mapDone _ => none
  | .featCommit _ => none
  | .registerWrite _ _ _ => none
  | .reset => none
  | .functionReady _ => none
  | .hostLinkDown => none
  | .hostLinkUp => none
  | .teamPlacement _ _ => none
  | .stageSetStart _ _ => none
  | .partialEviction _ _ => none
  | .warpResume _ _ => none
  | .timeSliceSwitch _ _ => none
  | .warpSwap _ _ => none
  | .splitSelection _ => none
  | .spillRefillComplete _ _ => none
  | .forwardingEntryFreed _ _ => none
  | .loadFill _ => none
  | .homeAccess _ => none
  | .pageWalk _ => none
  | .pageService _ => none
  | .migration _ _ _ => none
  | .sealTakesEffect _ => none
  | .unsealComplete _ => none
  | .demandFill _ _ _ => none
  | .codeFillLands _ _ => none
  | .agenStreamRead _ _ => none
  | .fetResume _ => none
  | .channelEmpty _ => none
  | .arrayPhase _ => none
  | .arrayPhaseEnd _ => none
  | .drain _ => none
  | .drainElement _ => none
  | .bswapTakesEffect _ => none
  | .matrixOperationRetire _ => none
  | .copyCommandStart _ => none
  | .copyCommandComplete _ => none
  | .decrementDelivery _ => none
  | .engineFaultTrap _ => none
  | .queueGrant _ _ => none
  | .queueRecordDelivery _ _ => none
  | .rebalancingInterval _ => none
  | .handoverMark _ _ => none
  | .donorEviction _ _ => none
  | .stageTeamStart _ _ => none
  | .stageSetStuck _ => none
  | .collAccept => none
  | .collComplete _ => none
  | .collectiveFlit _ => none
  | .heartbeat _ _ => none
  | .moduleLost _ => none
  | .agreementProposal _ _ _ _ => none
  | .agreementAck _ _ _ => none
  | .agreementCommit _ _ => none
  | .viewInstall _ _ => none
  | .rejoinRequest _ _ _ _ => none
  | .stateTransfer _ _ _ _ _ _ => none
  | .rejoinResend _ _ => none
  | .trapDelivery _ => none
  | .progressStall _ => none
  | .barrierTimeout _ _ => none
  | .trywaitTimeout _ => none
  | .strike _ _ => none
  | .holdWindowRelease _ => none
  | .scrub _ _ => none
  | .teamRelaunch _ => none
  | .rollback _ => none
  | .fatalError _ => none
  | .thermal _ _ _ => none
  | .tokenBucketRefill _ => none
  | .bucketReservation _ _ => none
  | .laneRateTransition _ => none
  | .droopDetectorTrip _ => none
  | .securityCounterProgram _ => none
  | .powerManagerCapAndRefill _ _ _ => none

/-- R107: the command with this opcode, these cflags and these operand words. DESIGN CHOICE (notes/assumptions/48.md): the bits
of operand words that the table gives no field (those of GRAPH, EDGE, LOOP, NODE and IF) are taken as reserved, and a command
that has one set is refused; R107 says so only of the cflags bits and of CANCEL's w1[31:3]. -/
def decodeOperands (op flags : BitVec 8) (tag : BitVec 32) (ws : List (BitVec 64)) : Option Instr :=
  match op.toNat, ws with
  | 0x01, [record] => only (flags == 0) (.launch tag record)
  | 0x02, [record, grid] => only (flags == 0) (.launchIndirect tag record grid)
  | 0x03, [src, dst, bytes] => only (flags == 0) (.copy tag src dst bytes)
  | 0x04, [w] =>
    only (flags == 0 && w.extractLsb' 32 32 == 0) (.graph tag (w.extractLsb' 0 16) (w.extractLsb' 16 16))
  | 0x05, w :: ws =>
    if flags == 0 && w.extractLsb' 24 40 == 0 then
      match (w.extractLsb' 16 8).toNat, ws with
      | 0x01, [record] => some (.node tag (w.extractLsb' 0 16) (.launch record))
      | 0x02, [record, grid] => some (.node tag (w.extractLsb' 0 16) (.launchIndirect record grid))
      | 0x03, [src, dst, bytes] => some (.node tag (w.extractLsb' 0 16) (.copy src dst bytes))
      | _, _ => none
    else none
  | 0x06, [w] =>
    only (flags == 0 && w.extractLsb' 32 32 == 0) (.edge tag (w.extractLsb' 0 16) (w.extractLsb' 16 16))
  | 0x07, [] => only (flags == 0) (.phase tag)
  | 0x08, [va, x] => only (flags.extractLsb' 1 7 == 0) (.wait tag (flags.getLsbD 0) va x)
  | 0x09, [va, value] => only (flags.extractLsb' 1 7 == 0) (.signal tag (flags.getLsbD 0) va value)
  | 0x0A, [w] => only (flags == 0 && w.extractLsb' 32 32 == 0) (.loop tag (w.extractLsb' 0 32))
  | 0x0B, [] => only (flags == 0) (.endloop tag)
  | 0x0C, [va, w] =>
    only (flags.extractLsb' 1 7 == 0 && w.extractLsb' 32 32 == 0)
      (.ifSkip tag (flags.getLsbD 0) va (w.extractLsb' 0 32))
  | 0x0D, [] => only (flags == 0) (.fenceCommand tag)
  | 0x0E, [w] =>
    only (flags == 0 && w.extractLsb' 3 29 == 0) (.cancel tag (w.extractLsb' 0 3) (w.extractLsb' 32 32))
  | 0x0F, [image, bytes, report] => only (flags == 0) (.codeLoad tag image bytes report)
  | 0x10, [handle] => only (flags.extractLsb' 1 7 == 0) (.codeUnload tag (flags.getLsbD 0) handle)
  | 0x11, [base, len] => only (flags.extractLsb' 1 7 == 0) (.sealCommand tag (flags.getLsbD 0) base len)
  | _, _ => none

/-- R106: the length in words that a header gives. -/
def headerWords (h : BitVec 64) : Nat := (h.extractLsb' 8 8).toNat

/-- R107: the words of a command that each opcode may have. -/
def wordsOf (op : Nat) : List Nat :=
  match op with
  | 0x07 | 0x0B | 0x0D => [1]
  | 0x01 | 0x04 | 0x06 | 0x0A | 0x0E | 0x10 => [2]
  | 0x02 | 0x08 | 0x09 | 0x0C | 0x11 => [3]
  | 0x03 | 0x0F => [4]
  | 0x05 => [3, 4, 5]
  | _ => []

/-- The command whose words these are, header first; none is BAD_COMMAND (R107). -/
def decodeCommand : List (BitVec 64) → Option Instr
  | [] => none
  | h :: ws =>
    if h.extractLsb' 24 8 == 0 && headerWords h == ws.length + 1 then
      (decodeOperands (h.extractLsb' 0 8) (h.extractLsb' 16 8) (h.extractLsb' 32 32) ws).filter
        Instr.wellFormed
    else none

/-- The parcels of the first `nbits` bits of an instruction whose word is `w`, numbered as the opcode table
numbers them: one number, whose most significant parcel comes first (R117). -/
def tableParcels (nbits w : Nat) : List Parcel :=
  if nbits ≤ 16 then parcels1 (BitVec.ofNat 16 w)
  else if nbits ≤ 32 then parcels2 (BitVec.ofNat 32 w)
  else
    [(BitVec.ofNat 64 w).extractLsb' 48 16, (BitVec.ofNat 64 w).extractLsb' 32 16,
      (BitVec.ofNat 64 w).extractLsb' 16 16, (BitVec.ofNat 64 w).extractLsb' 0 16]

/-- The bytes of a table word, followed by zeros up to the longest instruction. -/
def tableBytes (nbits w : Nat) : List Byte :=
  bytesOf (tableParcels nbits w ++ List.replicate (4 - (tableParcels nbits w).length) 0)

/-- The instruction the decoder reads from a table word. -/
def decodeTableWord (nbits w : Nat) : Option Instr :=
  match decode (tableBytes nbits w) with
  | .ok (i, _) => some i
  | .error _ => none

end Sys2Proof
end

