-- ==== Sys2Proof/Machine/State.lean ====
section
/-! DEFINITION. The state of the module as plain data (INVENTORY.md, ## State), the reasons a step can
stop, and the state after reset. A table lists the entries in use; what an absent entry reads as is said
where the table is declared. -/

namespace Sys2Proof.Machine

/-- Entries by number, ascending. -/
abbrev Table (α : Type) := List (Nat × α)

/-- Memory: (address, byte) pairs by ascending physical address (R68); an address that is not listed reads
0 (notes/assumptions/5.md). -/
abbrev Memory := List Host.Cell

/-- The sticky flags of R100: bit 4 NX, 3 UF, 2 OF, 1 DZ, 0 NV. -/
abbrev Flags := BitVec 5

/-- Who issues an instruction or makes an access (R220): a warp, a front-end context, or the command
processor for one stream of one context slot. -/
inductive Party where
  | none
  | warp (id : Nat)
  | fet (id : Nat)
  | stream (slot n : Nat)
  deriving DecidableEq, Repr

/-! ## Threads, splits and warps -/

/-- A stack cell (R47): 32 bits, or empty and waiting for the fill that carries its ticket (R55). -/
inductive Cell where
  | full (w : Word)
  | empty (ticket : Nat)
  deriving DecidableEq, Repr

/-- A live thread (R21). The stack is listed top first; the cells beyond the split's resident count are the
ones in the backing stack (R50), and the slice, or in handler mode memory, holds their words too once their slice
write is complete (R57). A frame word that nothing has written reads as the free value of its seed
(notes/assumptions/9.md). -/
structure Thread where
  lane : Nat
  stack : List Cell
  fp : Nat
  frame : List (Nat × Word)
  frameSeed : Nat
  ret : List (BitVec 51)
  ch : List (List Word)
  deriving DecidableEq, Repr

/-- What a split that is blocked before its instruction issues waits for (R30, R33, R405). -/
inductive Wait where
  /-- Empty operand cells, by ticket (R55). -/
  | cells (tickets : List Nat)
  /-- A spill or a refill in progress (R53). -/
  | transfer
  /-- Entries in a channel, or room for a send (R128): channel, number, send. -/
  | channels (needs : List (Nat × Nat × Bool))
  /-- `waitc`: the counter at or below n (R250). -/
  | counter (cls n : Nat)
  /-- Room for n operations in a counter, and command slots of the engine (R250, R311). -/
  | room (cls n : Nat)
  /-- Destinations of `kld` whose data has not returned (R212). -/
  | registers (ks : List Nat)
  /-- A demand fill of the code page VA[56:12] (R77). -/
  | code (page : Nat)
  /-- Places in the store-to-load forwarding table for n entries (R57). -/
  | forwarding (n : Nat)
  /-- The words of an `ldf`, read at a time of the cluster's clock (R153). -/
  | frame (due : Nat)
  /-- Replay-queue entries (R391). -/
  | replay (n : Nat)
  /-- A translation served before issue (R212, R390), by access. -/
  | translation (access : Nat)
  /-- Earlier stores of a fence (R247), by access. -/
  | accesses (ids : List Nat)
  /-- A follower's matrix engine held by a pair operation (R281). -/
  | pairHeld
  /-- An evicted warp of the team, which a `dqpush` targets (R404), or the matrix state, which another context has (R266). -/
  | residence
  /-- Every dependence of either part of a merged split (R33), or a merge's spill after them (R54). -/
  | both (a b : Wait)
  deriving DecidableEq, Repr

/-- Where a split stands (R30, R33, R389). -/
inductive SplitState where
  | ready
  | blocked (w : Wait)
  | join
  | wsync
  /-- In `bar.sync` of barrier b, with its arrival in the hold window (R253, R457), or counted. -/
  | arriving (b : Nat)
  | barrier (b : Nat)
  | queue (request : Nat)
  | trywait (cls n left : Nat)
  | parked
  /-- Parked after an arrival at barrier b whose phase is not complete (R397, R253). -/
  | parkedAt (b : Nat)
  deriving DecidableEq, Repr

/-- A split (R29): its lanes, the address of its next instruction, its resident count (R50), its age (R399). -/
structure Split where
  mask : Mask
  pc : Va
  c : Nat
  age : Nat
  state : SplitState
  deriving DecidableEq, Repr

/-- An entry of the replay queue (R390). `tickets` names the empty cells of each lane that a re-injected
load fills. `ddepth` is none for 0xFFFF. -/
structure ReplayEntry where
  stamp : Nat
  instr : Instr
  pc : Va
  mask : Mask
  ddepth : Option Nat
  cause : BitVec 8
  discard : Bool
  ea : List Dword
  cells : List (List Word)
  tickets : List (Nat × List Nat)
  deriving DecidableEq, Repr

/-- A trap that waits for its warp's next issue boundary (R387, R432), in issue order by stamp. `erec` is
the record of R433 or R447. -/
structure Posted where
  stamp : Nat
  cause : BitVec 8
  tflags : BitVec 8
  code : BitVec 16
  lanes : Mask
  pc : Va
  va : Dword
  origin : Nat
  erec : List Byte
  deriving DecidableEq, Repr

/-- Handler mode (R393): the stacks and splits at the trap, the faults held until `rte` (R432), and whether a
translation service of the handler is pending (R398). -/
structure Handler where
  saved : List (Nat × List Cell)
  splits : List Split
  held : List Posted
  nested : Bool
  deriving DecidableEq, Repr

/-- A release as a home keeps it (R224, R229): who released, with which scope, and the accesses that come
before it and may not have performed yet. `live` holds while the location holds the value of the release or of
its release sequence; a tag that is not live counts for a `.rmt` acquire only, and comes back to life with a later
read-modify-write. `mates` lists the stores of the releasing team that came before it (R229). -/
structure ReleaseTag where
  live : Bool
  pa : Nat
  va : Nat
  bytes : Nat
  party : Party
  team : Nat
  slot : Nat
  die : Nat
  scope : Nat
  rmt : Bool
  deps : List Nat
  mates : List Nat
  deriving DecidableEq, Repr

/-- What an ordering point of some lanes asks of their later accesses (R225, R233, R234, R257): all of them
wait for `all`; each later strong store is a release, at `scope`, of `before`. -/
structure OrderMark where
  lanes : Mask
  all : List Nat
  scope : Nat
  before : List Nat
  deriving DecidableEq, Repr

/-- An entry of the store-to-load forwarding table (R57): the warp, and the line as an offset in the slice, or, where
`mapped`, in the warp's handler area (R393). -/
structure Forward where
  warp : Nat
  mapped : Bool
  line : Nat
  lanes : Mask
  words : List Word
  /-- R57: the time of the cluster's clock at which its slice write completes. -/
  due : Nat
  deriving DecidableEq, Repr

/-- Where a warp is (R36, R43). -/
inductive Place where
  | resident
  | evicted
  deriving DecidableEq, Repr

/-- A warp (R21, R46). `stackBase` and `frameBase` are the offsets of its backing stacks and frames in the slice of its core
(R50), or, of an evicted warp, in the slice or the slice image of the core `sliceCore`. `stopped` lists the lanes that dxdb found at a breakpoint, with its address, until they issue again after the
resumption (R261, R264). `cur` is the current split; none while a selection is due (R31). The join stack is
listed top first. `kld` lists the uniform destinations of loads under way (R212). `observed` lists the
releases that strong loads of some lanes have read, for a later acquire fence (R225). -/
structure Warp where
  team : Nat
  w : Nat
  core : Nat
  lb : Nat
  slot : Nat
  sliceCore : Nat
  stackBase : Nat
  frameBase : Nat
  place : Place
  /-- R46: the forwarding entries of an evicted warp, with the cycles that their slice writes still take. -/
  fwd : List Forward
  stopped : List (Mask × Va)
  threads : List Thread
  cur : Option Split
  others : List Split
  /-- R39: the lanes of the split that was current last. -/
  last : Mask
  lfsr : BitVec 16
  join : List Mask
  k : List Word
  kp : BitVec 8
  flags : Flags
  cnt : List Nat
  ch15 : List (Word × List Nat)
  vlimit : Word
  perf : Nat
  handler : Option Handler
  posted : List Posted
  replay : List ReplayEntry
  kld : List (Nat × Nat)
  marks : List OrderMark
  observed : List (Mask × ReleaseTag)
  /-- R153: the lanes whose frame words have been read for the `ldf` that they issue next. -/
  fed : Mask
  deriving DecidableEq, Repr

/-- An affine stream (R216, R217): its fields, the next element, and the words of that element which have been read and
not yet sent, by warp and lane. -/
structure Stream where
  ch : Nat
  base : Dword
  count : Nat
  ts : Word
  is : Word
  ic : Nat
  os : Word
  mode : Nat
  elem : Nat
  pending : List (Nat × Nat × List Word)
  pc : Va
  stamp : Nat
  deps : List Nat
  deriving DecidableEq, Repr

/-- A front-end context (R40). `stalled` holds the instruction's wait (R42); `ended` after `fetend` or a trap; `stopped`
names the breakpoint PC at which dxdb found it (R324). -/
structure Fet where
  team : Nat
  core : Nat
  pc : Va
  k : List Word
  kp : BitVec 8
  cnt : List Nat
  level : Nat
  streams : List Stream
  kld : List (Nat × Nat)
  stalled : Option Wait
  ended : Bool
  stopped : Option Va
  deriving DecidableEq, Repr

/-! ## Accesses and engine operations -/

inductive AccessKind where
  | load
  | store
  | update (op : Nat)
  | swapIf
  deriving DecidableEq, Repr

/-- One lane's access to memory, or one word of it where the access is plain and longer than a word (R227).
`width` is the size of the whole access. Lane 32 stands for the warp's or the context's uniform access. -/
structure Access where
  party : Party
  slot : Nat
  lane : Nat
  stamp : Nat
  part : Nat
  instr : Instr
  pc : Va
  kind : AccessKind
  bytes : Nat
  width : Nat
  signed : Bool
  va : Dword
  data : List Word
  expect : List Word
  order : Nat
  forder : Nat
  scope : Nat
  rmt : Bool
  tickets : List Nat
  regs : List Nat
  pa : Option Nat
  held : Bool
  served : Bool
  cause : BitVec 8
  parked : Bool
  result : Option (List Word)
  deps : List Nat
  waits : List Nat
  relScope : Nat
  relDeps : List Nat
  deriving DecidableEq, Repr

/-- The engine fault record of R433, or the membership record of R447, with the cause of its trap. -/
structure EngineFault where
  cause : BitVec 8
  erec : List Byte
  deriving DecidableEq, Repr

/-- An operation that a counter counts (R250): class 0 COPY, 1 GATHER, 2 MATRIX, 3 COLLECT. `stamp` gives its
place in the issuer's issue order; `done` holds once it is complete. -/
structure EngineOp where
  party : Party
  team : Nat
  cls : Nat
  stamp : Nat
  pc : Va
  lanes : Mask
  deps : List Nat
  done : Bool
  flags : Flags
  faults : List EngineFault
  deriving DecidableEq, Repr

/-- What a matrix operation does, with the registers it read at issue (R283, R286 to R293). -/
inductive MatrixWork where
  | mma (a : Dword) (tile prog aslot bslot oslot : Nat) (back pair acc cplx naz dc : Bool) (base : Dword)
      (g h : Word) (rows : Nat)
  | mclr (tile : Nat) (pair : Bool)
  | mdrain (tile prog aslot bslot oslot : Nat) (pair : Bool) (base : Dword) (g h : Word) (rows : Nat)
  | bload (b : Dword) (stride : Word) (macros : BitVec 4) (bslot : Nat) (back pair : Bool) (rows : Nat)
  | bswap (macros : BitVec 4) (pair : Bool)
  | dload (src : Dword) (kind first count : Nat)
  deriving DecidableEq, Repr

/-- How far a matrix operation has come (R270). -/
inductive Phase where
  | queued
  | array
  | arrayEnded
  | draining
  | finished
  deriving DecidableEq, Repr

/-- What an element of a drain stores (R300): bytes; an atomic addition of FP32; the byte of which an even element of s4
leaves its nibble for the next one; one nibble of a byte alone, the upper or the lower one (R435); the block that the element's `cvtb` has yet to encode, to stream `m` (R301). -/
inductive DrainStore where
  | put (va : Dword) (bytes : List Byte) (align : Nat)
  | add (va : Dword) (v : Word)
  | share (va : Dword)
  | half (va : Dword) (upper : Bool) (v : Nat)
  | late (m : Nat)
  deriving DecidableEq, Repr

/-- A drain unit's work on one operation (R296, R302, R435): the unit's core, the elements it covers and the
index of the next, the row statistics, the block stager, and whether it has stopped or ended. -/
structure DrainUnit where
  core : Nat
  tile : Nat
  first : Nat
  columns : Nat
  rows : Nat
  prog : Nat
  aslot : Nat
  bslot : Nat
  oslot : Nat
  next : Nat
  sums : List Word
  maxima : List Word
  stager : List Word
  /-- R300: the 4-bit values that an even element has left for the next one, with their bytes' addresses, by program word. -/
  nibbles : List (Nat × Dword × Nat)
  /-- R435: the stores of an element that has passed its check, and its flags. -/
  checked : Option (List DrainStore × Flags)
  stopped : Bool
  deriving DecidableEq, Repr

/-- A matrix operation in the engine of a core (R271), with its launch for the format slots. -/
structure MatrixOp where
  op : Nat
  launch : Nat
  slot : Nat
  work : MatrixWork
  phase : Phase
  units : List DrainUnit
  /-- R457: the command is still in its lane block's hold window. -/
  held : Bool
  deriving DecidableEq, Repr

/-- A core's matrix state (R265). A bank row or a side-store entry is named by macro, physical bank, row or
column and K-block; every entry that is not listed is 0. -/
structure Matrix where
  owner : Option Nat
  banks : List (Nat × BitVec 1024)
  side : List (Nat × BitVec 64)
  tiles : List (Nat × Word)
  nanc : List (Nat × Nat)
  roles : BitVec 4
  programs : List (Nat × Word)
  constants : List (Nat × Word)
  tables : List (Nat × Word)
  restart : Option DrainUnit
  deriving DecidableEq, Repr

/-- A command of a block-transfer engine (R311, R312, R314), or a COPY of the command processor (R107). -/
inductive CopyWork where
  | tile (instr : Instr) (coords : List Word) (tlr slice : Dword)
  | bytes (src dst count : Dword)
  deriving DecidableEq, Repr

/-- A copy in progress. `layout` is the TLR as the command read it at its start (R304). -/
structure Copy where
  op : Nat
  core : Nat
  slot : Nat
  launch : Nat
  graph : Nat
  node : Nat
  work : CopyWork
  ring : Nat
  tag : BitVec 16
  started : Bool
  layout : Option (List Byte)
  /-- R457: the command is still in its lane block's hold window. -/
  held : Bool
  deriving DecidableEq, Repr

/-- A collective in the module's sequencer (R354). `desc` is the descriptor as read at acceptance; the view
is the generation it runs under, `first` lists the members of the view it was accepted under, and `staged` is the
copy of sbuf that the engine made at its first start (R449). -/
structure Coll where
  op : Nat
  slot : Nat
  launch : Nat
  desc : Dword
  ring : Nat
  tag : BitVec 16
  accepted : Bool
  bytes : List Byte
  group : BitVec 16
  seq : Nat
  oldGen : BitVec 48
  gen : BitVec 48
  first : List Nat
  members : List Nat
  status : Nat
  changed : Bool
  staged : Option (List Byte)
  given : List (Nat × Contribution)
  acks : List Nat
  /-- R457: the command is still in its lane block's hold window. -/
  held : Bool
  deriving DecidableEq, Repr

/-! ## Teams, launches and stage sets -/

/-- A named barrier (R253, R440, R441). `deps` lists what the arrivals of the phase have issued and not yet
performed. -/
structure Barrier where
  expected : Nat
  arrived : Nat
  phase : Bool
  age : Nat
  first : Nat
  warps : BitVec 32
  deps : List Nat
  deriving DecidableEq, Repr

/-- A team (R21 to R25). `reserved` counts the slice bytes that hold its frames and backing stacks; `eos`
lists the queues on which it has issued `qeos` (R335); `marks` lists the queues whose handover mark has been
handled (R338). `held` says that dxdb holds the team stopped (R264, R440); `record` is its team record's number while
it is evicted whole (R404). -/
structure Team where
  launch : Nat
  index : Nat
  coords : Nat × Nat × Nat
  core : Nat
  follower : Option Nat
  start : Nat
  stage : Option Nat
  warps : Nat
  shared : Dword
  sharedBytes : Nat
  reserved : Nat
  bars : List Barrier
  rings : List Nat
  eos : List Nat
  donor : Bool
  marks : List Nat
  ended : Bool
  complete : Bool
  held : Bool
  record : Nat
  deriving DecidableEq, Repr

/-- A format slot (R97). -/
structure FormatSlot where
  format : BitVec 8
  naz : Bool
  sat : Bool
  sparse : Bool
  round : Nat
  scale : Word
  expStride : Dword
  deriving DecidableEq, Repr

/-- A launch record (R113). -/
structure LaunchRecord where
  teamWarps : Nat
  grid : Nat × Nat × Nat
  handle : Dword
  stackLimit : Nat
  frameSlots : Nat
  sharedBytes : Nat
  seed : BitVec 16
  pair : Bool
  perf : Nat
  idempotent : Bool
  rollback : Bool
  argBase : Dword
  argBytes : Word
  trapEntry : Dword
  handlerStack : Dword
  stageSet : Dword
  slots : List FormatSlot
  deriving DecidableEq, Repr

/-- A port of a stage (R326): bound to a queue, out or in. -/
structure Port where
  out : Bool
  queue : Nat
  deriving DecidableEq, Repr

/-- A stage (R326, R337, R338): its record, and how it stands. A
pending handover names the other stage, whether this one is the donor, and the donor team; `since` is the gtime of
the boundary that chose it. -/
structure Stage where
  entry : Dword
  aentry : Dword
  teamWarps : Nat
  minCores : Nat
  maxCores : Nat
  initCores : Nat
  ports : List (Option Port)
  handover : Option (Nat × Bool × Nat)
  since : Nat
  freed : Option Nat
  complete : Bool
  abandoned : Bool
  deriving DecidableEq, Repr

/-- A queue record of a stage set in its queue unit (R330, R332): its bytes once its copy is written, and
what its push comes after. -/
structure QueueRecord where
  bytes : Option (List Byte)
  push : Nat
  lane : Nat
  deps : List Nat
  deriving DecidableEq, Repr

/-- A request at a queue unit (R332, R333): the warp, whether it pushes, and each participating lane's buffer; `deps` lists
what the reading or writing of the buffers comes after, and `before` all that the instruction comes after (R234); `poll` gives
the lanes and the pc of a `qtry`, whose split goes on; `held` says that it is still in its lane block's hold window (R457). -/
structure QueueRequest where
  id : Nat
  warp : Nat
  push : Bool
  lanes : List (Nat × Dword)
  deps : List Nat
  before : List Nat
  poll : Option (Mask × Va)
  held : Bool
  deriving DecidableEq, Repr

/-- An arrival at a barrier that is still in its lane block's hold window (R253, R457): the team, the barrier, whether it is
that of a `bar.sync`, the warp, its index in the team and its lanes, the count that it gives, and what it comes after. -/
structure Arrival where
  team : Nat
  bar : Nat
  sync : Bool
  warp : Nat
  w : Nat
  lanes : Mask
  count : Nat
  deps : List Nat
  deriving DecidableEq, Repr

/-- An entry of `dqpush` for the decision queues of a team that is still in the hold window (R218, R457): the front-end
context, the team, the word, and what it comes after. -/
structure Decision where
  fet : Nat
  team : Nat
  word : Word
  deps : List Nat
  deriving DecidableEq, Repr

/-- A queue (R327, R330, R335). -/
structure Queue where
  home : Nat
  recBytes : Nat
  capacity : Nat
  records : List QueueRecord
  requests : List QueueRequest
  ended : Bool
  abandoned : Bool
  /-- Donor teams whose handover mark the unit has yet to handle (R338). -/
  marks : List Nat
  deriving DecidableEq, Repr

/-- A copy of a record into a lane's buffer that a `qpop` or `qtry` has been granted (R333): its request, the warp and
the lane, the buffer's address, the bytes once its push has written them, the ticket of the status cells, and what the copy
comes after. -/
structure QueueCopy where
  warp : Nat
  lane : Nat
  buffer : Dword
  queue : Nat
  record : QueueRecord
  ticket : Nat
  status : List (Nat × Word)
  pc : Va
  stamp : Nat
  deps : List Nat
  deriving DecidableEq, Repr

/-- A stage set (R325, R337, R345, R445): the interval in gtime units, the next boundary, the stuck intervals, whether a
queue has granted or delivered, a warp has come out of a queue or a handover has begun since the last boundary, the gtime
of its start, and how much of the time since then dxdb has held the launch stopped. -/
structure StageSet where
  interval : Nat
  next : Nat
  stages : List Stage
  queues : List Queue
  stuck : Nat
  moved : Bool
  started : Bool
  since : Nat
  stopTime : Nat
  deriving DecidableEq, Repr

/-- A launch (R21, R25). `graph` and `node` name the node that it runs as; `next` is the next team to place;
`relaunched` lists the teams placed again (R461); `cause` is byte 6 of its error record. -/
structure Launch where
  slot : Nat
  graph : Nat
  node : Nat
  record : LaunchRecord
  code : Nat
  next : Nat
  again : List Nat
  relaunched : List Nat
  stages : Option StageSet
  cancelled : Bool
  faulted : Bool
  cause : BitVec 8
  rolled : Bool
  complete : Bool
  deriving DecidableEq, Repr

/-! ## Commands and contexts -/

inductive NodeState where
  | waiting
  | running
  | done
  deriving DecidableEq, Repr

/-- A node of a graph (R109, R110). `word` is its NODE command's place in the ring; `dropped` lists the teams of its
launch that a CANCEL has named (R112). -/
structure Node where
  tag : BitVec 32
  word : Nat
  cmd : NodeCommand
  preds : Nat
  succs : List Nat
  state : NodeState
  dropped : List Nat
  deriving DecidableEq, Repr

/-- A graph, or a launch or copy run as a graph of one node (R108). `word` and `opcode` name its command in
an error record (R116). -/
structure Graph where
  slot : Nat
  stream : Nat
  tag : BitVec 32
  opcode : Nat
  word : Nat
  nodes : List Node
  cancelled : Bool
  complete : Bool
  deriving DecidableEq, Repr

/-- A graph whose NODE and EDGE commands have not all been read (R109). -/
structure Building where
  tag : BitVec 32
  word : Nat
  nodes : Nat
  edges : Nat
  gotNodes : List (Nat × Node)
  gotEdges : List (Nat × Nat)
  deriving DecidableEq, Repr

/-- A command stream (R104). `loops` holds the open loops, innermost first: the word after the LOOP and the
passes that remain. `failed` holds once the stream's first failure has been recorded (R116). -/
structure CmdStream where
  ring : Dword
  words : Nat
  priority : Nat
  wr : Nat
  rd : Nat
  errRec : Dword
  stopped : Bool
  failed : Bool
  loops : List (Nat × Nat)
  building : Option Building
  /-- R108: an open WAIT: its tag, its condition, the address and the operand. -/
  waiting : Option (BitVec 32 × Bool × Dword × Dword)
  phase : Bool
  turn : Nat
  deriving DecidableEq, Repr

/-- A range that the memory manager has allocated to a context (R382, R424): its pages take a frame of
`tier` at first touch. -/
structure Range where
  base : Nat
  bytes : Nat
  tier : Nat
  rd : Bool
  w : Bool
  deriving DecidableEq, Repr

/-- A `seal` or `unseal` request that has not been decided (R248). Its place in the order of memory is its number's, as
an access's is (R231). `ticket` names the status cells; `tag` and
`word` are those of a SEAL command (R107). -/
structure SealRequest where
  base : Nat
  bytes : Nat
  undo : Bool
  party : Party
  ticket : Nat
  tag : BitVec 32
  word : Nat
  deps : List Nat
  deriving DecidableEq, Repr

/-- A view change under way (R358). -/
structure Round where
  members : List Nat
  gen : BitVec 48
  cut : Nat
  acks : List Nat
  committed : Bool
  deriving DecidableEq, Repr

/-- A group's entry in the table of current views (R346), with its round under way, whether the module is
detached (R451) and, for a returning module, its last view tag and the time of its last request (R360, R452).
`lost` lists the members that are lost (R448). -/
structure Group where
  gen : BitVec 48
  members : List Nat
  lost : List Nat
  next : Nat
  round : Option Round
  detached : Bool
  rejoin : Option (Dword × Nat)
  returning : List (Nat × Dword)
  deriving DecidableEq, Repr

/-- A copy-on-write snapshot page (R424, R462): its virtual base and size, the physical page at the launch's
start, and whether a write has copied it. -/
structure Snapshot where
  base : Nat
  bytes : Nat
  pa : Nat
  copied : Bool
  deriving DecidableEq, Repr

/-- The STATE of a context slot (R382). -/
inductive SlotState where
  | free
  | open_
  | closing
  | terminated
  deriving DecidableEq, Repr

/-- A context slot (R382) and the context it holds. An absent slot is FREE with its registers 0. -/
structure Context where
  state : SlotState
  streamTable : Dword
  saveBase : Dword
  /-- R404: the frame behind each 64 KiB page of the save area that the device has written. -/
  savePages : Table Nat
  mapReq : BitVec 256
  /-- R382: the request that the last MAP_GO started. -/
  mapHeld : BitVec 256
  mapStatus : Nat
  roots : List Nat
  ranges : List Range
  sealed_ : List (Nat × Nat)
  streams : Table CmdStream
  snapshots : List Snapshot
  /-- R462: the mapped slice pages that a rollback-capable launch's start has copied to the save area, by physical address. -/
  sliceImages : List Nat
  groups : Table Group
  /-- R266: the matrix state that it has saved, by core. -/
  matrices : Table Matrix
  /-- R264, R443: dxdb's breakpoints. -/
  breaks : List Va
  phaseNo : Nat
  /-- R26, R112: the context's job is cancelled, and its current phase. -/
  cancelled : Bool
  phaseCancelled : Bool
  cause : BitVec 8
  deriving DecidableEq, Repr

/-- A loaded code object (R366, R367). `frames` gives, for each die and each page of
its sections, the frame that holds it. -/
structure CodeObject where
  digest : Nat
  svn : Word
  text : Dword
  textBytes : Nat
  access : Dword
  accessBytes : Nat
  drain : Dword
  drainBytes : Nat
  entry : Word
  aentry : Word
  frames : List (Nat × Nat × Nat)
  contexts : List Nat
  deriving DecidableEq, Repr

/-- A cached translation (R370). `order` names the order of each launch's instances that the translator chose with it
(R373): `Config.translated` gives that order for the section and this number. -/
structure Translation where
  digest : Nat
  stamp : Nat
  svn : Word
  text : List Byte
  access : List Byte
  entry : Word
  aentry : Word
  order : Nat
  deriving DecidableEq, Repr

/-! ## Cores and clusters -/

inductive SegmentState where
  | free
  | filling
  | valid
  deriving DecidableEq, Repr

/-- A segment of the code store (R76): its tag, the physical address its bytes came from, FAULT (R207) and
the time of its last use (R77). -/
structure Segment where
  state : SegmentState
  slot : Nat
  page : Nat
  pa : Nat
  fault : Bool
  used : Nat
  /-- R427, R430: the fill is a demand fill. -/
  demand : Bool
  /-- R457: the fill is one that a `cfetch` has asked for, whose request is still in its lane block's hold window. -/
  held : Option Nat
  deriving DecidableEq, Repr

/-- A spill or refill request of a lane block's spill engine (R52, R54): the warp, the lanes, and the resident counts
before it and after it. -/
structure Transfer where
  warp : Nat
  lanes : Mask
  was : Nat
  c : Nat
  deriving DecidableEq, Repr

/-- A lane block (R36, R37, R52, R57, R182, R428). `active` is in rank order, `pending` by waiting time. `run`
is the warp that issued last and how many consecutive issue cycles it has had; `hold` counts the cycles that the
multi-cycle instruction of the warp `holder` still takes, in which nothing may issue (R182), and `replay` those of a replay
after a strike (R458); `credit` the lane cycles left in the front-end cycle; `follow` the vector instruction that has just
issued, in the turn in which another may co-issue with it (R38); `arrivals` the warps that have swapped in, with the lane
cycles until they may issue (R39); `loop` the blocks that the loop buffer holds, with the warp and the lane of the split that
repeats them; `due` the tokens of a request that the first pass of a front-end cycle has granted, and whose instruction
issues in the lane block's place in the cycle, and `misses` the pages that its fetches have missed meanwhile, with their
context slots (R208, R380). -/
structure LaneBlock where
  active : List Nat
  pending : List Nat
  run : Nat × Nat
  hold : Nat
  credit : Nat
  follow : Option (Nat × Instr × Va)
  transfers : List Transfer
  forwards : List Forward
  loop : List (Nat × Nat × Nat)
  arrivals : List (Nat × Nat)
  holder : Nat
  replay : Nat
  due : Option Nat
  misses : List (Nat × Nat)
  deriving DecidableEq, Repr

/-- Who has a 64 KiB page of a slice (R65): the replica area, the frames, backing stacks and queues that no
page table maps, a context that has mapped it, or a team's shared bytes (R24). -/
inductive PageOwner where
  | replica
  | reserved
  | context (slot : Nat)
  | shared (team : Nat)
  deriving DecidableEq, Repr

/-- Who has bytes in the reserved part of a slice (R50, R327). -/
inductive Holder where
  | team (id : Nat)
  | queue (launch n : Nat)
  deriving DecidableEq, Repr

/-- A core (R12). `pages` lists the pages of its slice in use besides the replica area; `reserved` the bytes of
frames, backing stacks and queues by holder, offset and size; `replicas` the lines of the replica area by context and
address, most recent first (R73); `tlb` the pages in the L1 TLB by context, address and size (R81); `fetTurn` the front-end context
that issued last, and `fetCredit` the front-end instructions left in the cycle (R40); `fetDue` and `fetMisses` are for the
front-end contexts what `due` and `misses` are for a lane block. -/
structure Core where
  segments : Table Segment
  lbs : Table LaneBlock
  pages : Table PageOwner
  reserved : List (Holder × Nat × Nat)
  replicas : List (Nat × Nat)
  tlb : List (Nat × Nat × Nat)
  matrix : Matrix
  engine : List MatrixOp
  fetTurn : Nat
  fetCredit : Nat
  fetDue : Option Nat
  fetMisses : List (Nat × Nat)
  deriving DecidableEq, Repr

/-- A cluster (R14, R377 to R380). `cursor` is one more than the place, in the order of R380, of the last request that
the current front-end cycle has decided. `reserve` is the requester that has reserved the bucket; `refused` gives, for a
requester, in how many consecutive front-end cycles it was refused, and the last of them; `transition` is the level that the cluster leaves. -/
structure Cluster where
  clock : Nat
  cursor : Nat
  tokens : Nat
  refill : Nat
  reserve : Option Nat
  refused : List (Nat × Nat × Nat)
  cap : Nat
  level : Nat
  transition : Option Nat
  droop : Bool
  deriving DecidableEq, Repr

/-- An out-of-band record (R466), without its sequence number and time, which its place in the list and the
management controller give. -/
structure OobRecord where
  rtype : Nat
  severity : Nat
  slot : Nat
  source : Dword
  gtime : Nat
  payload : List Byte
  deriving DecidableEq, Repr

/-! ## The module -/

/-- R467: what the dump of a fatal error covers: every slice, the save areas by context slot, the uniform files of the warps
and of the front-end contexts, the queues by launch, the Almanac by context slot, and the control complex's logs, which are
the records that it has sent. The spec gives the dump no layout (notes/assumptions/35.md). -/
structure StateDump where
  slices : Memory
  saveAreas : List (Nat × List (Nat × Memory))
  uniform : List (Nat × List Word × BitVec 8)
  fetUniform : List (Nat × List Word × BitVec 8)
  queues : List (Nat × List Queue)
  almanac : List (Nat × Table Group)
  logs : List OobRecord
  deriving DecidableEq, Repr

/-- R369, R385: a firmware image: the bytes that are signed, the signer's public key, x and y, and the signature, r and s, each
of 32 bytes big-endian, as R361 and R364 have them of a code object. -/
structure FirmwareImage where
  signed : List Byte
  key : List Byte
  sig : List Byte
  deriving DecidableEq, Repr

/-- The host function and the fuses (R364, R369, R381 to R385, R468). `window` is BAR2's mapping into device memory,
which the memory manager sets: the context slot and the address that each of its 64 KiB pages shows; `read` is what the
host's last read returned; `booted` says that the firmware image has passed the ROM's check, `halted` that the boot stopped
at it (R385); `keys` holds the fused digests of the accepted signer keys (R364); `nvme` is what the NVMe dump namespace holds
(R467). -/
structure HostPart where
  featOffer : BitVec 128
  featAccept : BitVec 128
  featActive : BitVec 128
  committed : Bool
  ready : BitVec 64
  module : Nat
  stepping : BitVec 8
  counter : Word
  fuse : Word
  keys : List Nat
  linkUp : Bool
  stopped : Bool
  booted : Bool
  halted : Bool
  window : Table (Nat × Nat)
  read : List Byte
  nvme : Option StateDump
  deriving DecidableEq, Repr

/-- What dxdb does to the module (R261, R264, R324, R345, R443). -/
inductive Debug where
  | breakpoint (slot : Nat) (pc : Va) (on : Bool)
  | hold (team : Nat)
  | resume (team : Nat)
  deriving DecidableEq, Repr

/-- What can come next (notes/assumptions/1.md): a lane block's issue, a front-end context's, a command of
the streams, a device step, the host's reads and writes through BAR0 and BAR2 that are no row of the opcode table
(R381), a copy of a queue record under way (R333), the memory manager's setting of BAR2's mapping, the check of the firmware image at boot (R385), a request of
dxdb. -/
inductive Turn where
  | lane (core lb : Nat)
  | frontEnd (core : Nat)
  | command
  | event (i : Instr)
  | queueCopy (n : Nat)
  | registerRead (offset width : Nat)
  | windowMap (page : Nat) (target : Option (Nat × Dword))
  | windowRead (offset n : Nat)
  | windowWrite (offset : Nat) (bytes : List Byte)
  | firmware (image : FirmwareImage)
  | debug (a : Debug)
  deriving DecidableEq, Repr

/-- The device: everything but the host function. -/
structure Dev where
  mem : Memory
  poison : List Nat
  contexts : Table Context
  graphs : Table Graph
  launches : Table Launch
  teams : Table Team
  warps : Table Warp
  fets : Table Fet
  accesses : Table Access
  ops : Table EngineOp
  copies : Table Copy
  colls : Table Coll
  seals : Table SealRequest
  tags : List ReleaseTag
  cores : Table Core
  clusters : Table Cluster
  code : Table CodeObject
  cache : List Translation
  nextHandle : Nat
  gtime : Nat
  irqs : List Nat
  heldIrqs : List Nat
  latched : List (Nat × Nat)
  oob : List OobRecord
  /-- R79, R382, R384: how many frames of each HBM4E stack, and of the LPDDR tier, have ever been given out, and the
  addresses of those that have been given back. -/
  hbmTaken : Table Nat
  lpddrTaken : Nat
  freeFrames : List Nat
  heartbeats : List (Nat × Nat)
  /-- R81: each die's L2 TLB: context, address and size. -/
  l2 : Table (List (Nat × Nat × Nat))
  queueCopies : List QueueCopy
  /-- R457: arrivals at barriers, and entries of `dqpush`, that are still in the hold window. -/
  arrivals : Table Arrival
  decisions : Table Decision
  /-- R467: what the reserved 8 GiB at the top of the LPDDR tier hold after a fatal error. -/
  dump : Option StateDump
  /-- The model's own fields (notes/assumptions/2.md): the party whose instruction runs, whether it issued,
  the counter of free values, and the next name of an access, an operation, a warp and so on. -/
  issuer : Party
  issued : Bool
  free : Nat
  nextId : Nat
  deriving DecidableEq, Repr

/-- The module. -/
structure State where
  host : HostPart
  dev : Dev
  agenda : List Turn
  deriving DecidableEq, Repr

/-! ## How a step can stop -/

/-- No instruction of this part has a stop for its effect; a machine fault is the trap that the part takes. -/
inductive Fault where
  /-- Raised by no step: the part meets every fault with a trap, a status or a record (R143, R386, R467). Safe. -/
  | none
  deriving DecidableEq, Repr

/-- Why the model gives an instruction no meaning. -/
inductive Refusal where
  /-- Raised by `exec` for an instruction that has no meaning here yet. Safe: nothing is claimed of it. -/
  | notModelled (mnemonic : String)
  deriving DecidableEq, Repr

/-! ## Reset -/

/-- A barrier at the start (R253). -/
def Barrier.reset : Barrier := ⟨0, 0, false, 0, 0, 0, []⟩

/-- A segment of the code store that holds nothing (R76). -/
def Segment.reset : Segment := ⟨.free, 0, 0, 0, false, 0, false, none⟩

/-- A lane block with no warp. -/
def LaneBlock.reset : LaneBlock := ⟨[], [], (0, 0), 0, 0, none, [], [], [], [], 0, 0, none, []⟩

/-- Matrix state that no context has taken (R265). -/
def Matrix.reset : Matrix := ⟨none, [], [], [], [], 0, [], [], [], none⟩

/-- A core that holds nothing. -/
def Core.reset : Core := ⟨[], [], [], [], [], [], Matrix.reset, [], 0, 0, none, []⟩

/-- A cluster after reset (R156, R379; notes/assumptions/7.md). -/
def Cluster.reset : Cluster := ⟨0, 0, 4096, 4096, none, [], 7, 0, none, false⟩

/-- A FREE context slot (R382). -/
def Context.reset : Context :=
  ⟨.free, 0, 0, [], 0, 0, 0, [], [], [], [], [], [], [], [], [], 0, false, false, 0⟩

/-- A stream that no doorbell has named (R104): its first doorbell reads rd_ptr. -/
def CmdStream.reset : CmdStream := ⟨0, 0, 0, 0, 0, 0, true, false, [], none, none, false, 0⟩

/-- The host function after reset (R383, R384; notes/assumptions/6.md). -/
def HostPart.reset : HostPart where
  featOffer := 0x7F
  featAccept := 0
  featActive := 0
  committed := false
  ready := 0
  module := 0
  stepping := 0
  counter := 0
  fuse := 0
  keys := Config.fusedKeys.take 4
  linkUp := true
  stopped := false
  booted := false
  halted := false
  window := []
  read := []
  nvme := none

/-- The device after reset: no context, no memory written, nothing under way (R382, R385). -/
def Dev.reset : Dev where
  mem := []
  poison := []
  contexts := []
  graphs := []
  launches := []
  teams := []
  warps := []
  fets := []
  accesses := []
  ops := []
  copies := []
  colls := []
  seals := []
  tags := []
  cores := []
  clusters := []
  code := []
  cache := []
  nextHandle := 1
  gtime := 0
  irqs := []
  heldIrqs := []
  latched := []
  oob := []
  hbmTaken := []
  lpddrTaken := 0
  freeFrames := []
  heartbeats := []
  l2 := []
  queueCopies := []
  arrivals := []
  decisions := []
  dump := none
  issuer := .none
  issued := false
  free := 0
  nextId := 0

/-- The module right after reset. -/
def State.reset : State := ⟨HostPart.reset, Dev.reset, []⟩

end Sys2Proof.Machine
end

