-- ==== Sys2Proof/Machine/Memory.lean ====
section
/-! DEFINITION. Tables, physical memory, the places of the module, and translation (R64 to R81, R423, R424). -/

namespace Sys2Proof.Machine

open Sys2Proof

/-! ## Tables -/

/-- The entry of a number. -/
def Table.find? {α : Type} : Table α → Nat → Option α
  | [], _ => none
  | (k, v) :: t, n => if k = n then some v else Table.find? t n

/-- The entry of a number, or what an absent entry reads as. -/
def Table.get {α : Type} (t : Table α) (n : Nat) (absent : α) : α := (Table.find? t n).getD absent

/-- The table with the entry of one number set. -/
def Table.set {α : Type} : Table α → Nat → α → Table α
  | [], n, a => [(n, a)]
  | (k, v) :: t, n, a =>
    if k = n then (n, a) :: t else if n < k then (n, a) :: (k, v) :: t else (k, v) :: Table.set t n a

/-- The table without the entry of one number. -/
def Table.erase {α : Type} : Table α → Nat → Table α
  | [], _ => []
  | (k, v) :: t, n => if k = n then t else (k, v) :: Table.erase t n

/-- The table with one entry, if it is there, changed. -/
def Table.modify {α : Type} (t : Table α) (n : Nat) (f : α → α) : Table α :=
  match Table.find? t n with
  | none => t
  | some a => Table.set t n (f a)

/-- The numbers that have entries. -/
def Table.keys {α : Type} (t : Table α) : List Nat := t.map Prod.fst

/-! ## Bytes and memory -/

/-- The value of bytes, the lowest address least significant (R5). -/
def leValue : List Byte → Nat
  | [] => 0
  | b :: bs => b.toNat + 256 * leValue bs

/-- The `n` bytes of a value, least significant first (R5). -/
def leBytes : Nat → Nat → List Byte
  | 0, _ => []
  | n + 1, v => BitVec.ofNat 8 v :: leBytes n (v / 256)

/-- The byte at a physical address; one that is not listed reads 0. -/
def Memory.read : Memory → Nat → Byte
  | [], _ => 0
  | (k, b) :: m, a => if k = a then b else if a < k then 0 else Memory.read m a

/-- Memory without an entry for the address. -/
def Memory.drop : Memory → Nat → Memory
  | [], _ => []
  | (k, b) :: m, a => if k = a then m else if a < k then (k, b) :: m else (k, b) :: Memory.drop m a

/-- Memory with an entry for the address. -/
def Memory.put : Memory → Nat → Byte → Memory
  | [], a, v => [(a, v)]
  | (k, b) :: m, a, v =>
    if k = a then (a, v) :: m else if a < k then (a, v) :: (k, b) :: m else (k, b) :: Memory.put m a v

/-- Memory with one byte written; a byte of 0 is not listed. -/
def Memory.write (m : Memory) (a : Nat) (v : Byte) : Memory :=
  if v = 0 then Memory.drop m a else Memory.put m a v

/-- Addresses rise strictly from `lo`, and no entry is 0. -/
def Memory.wfFrom : Nat → Memory → Bool
  | _, [] => true
  | lo, (k, b) :: m => decide (lo ≤ k) && b != 0 && Memory.wfFrom (k + 1) m

/-- The canonical form: addresses strictly rising, and no entry equal to what an unlisted address reads as. -/
def Memory.wf (m : Memory) : Bool := Memory.wfFrom 0 m

/-- Consecutive bytes. -/
def Memory.readBytes (m : Memory) (a : Nat) : Nat → List Byte
  | 0 => []
  | n + 1 => Memory.read m a :: Memory.readBytes m (a + 1) n

/-- Memory with consecutive bytes written. -/
def Memory.writeBytes (m : Memory) (a : Nat) : List Byte → Memory
  | [] => m
  | b :: bs => Memory.writeBytes (Memory.write m a b) (a + 1) bs

/-- Memory with `n` bytes set to 0. -/
def Memory.clear (m : Memory) (a n : Nat) : Memory := m.filter fun c => !(decide (a ≤ c.1) && decide (c.1 < a + n))

/-- The entries of a range. -/
def Memory.range (m : Memory) (a n : Nat) : Memory := m.filter fun c => decide (a ≤ c.1) && decide (c.1 < a + n)

/-- Memory with a range's bytes copied from another range. -/
def Memory.copyRange (m : Memory) (src dst n : Nat) : Memory :=
  (Memory.range m src n).foldl (fun m c => Memory.write m (c.1 - src + dst) c.2) (Memory.clear m dst n)

/-! ## Places (R8 to R10, R65, R68, R69) -/

/-- R9: the die of a core. -/
def dieOf (core : Nat) : Nat := core / 144

/-- R10: the cluster of a core, numbered die, then row pair, then column pair. -/
def clusterOf (core : Nat) : Nat :=
  dieOf core * 36 + core % 144 / 12 / 2 * 6 + core % 12 / 2

/-- R10: the follower of a leader core, its east neighbour. -/
def followerOf (core : Nat) : Nat := core + 1

/-- R65. -/
def sliceBase : Nat := 0x0180000000000000

/-- R65: the bytes of one slice. -/
def sliceBytes : Nat := 0x400000

/-- R65: the virtual address of a core's slice. -/
def sliceVa (core : Nat) : Nat := sliceBase + core * sliceBytes

/-- R68: the physical address of a core's slice. -/
def slicePa (core : Nat) : Nat := 0x080000000000 + core * sliceBytes

/-- R65: the address lies in the slice window. -/
def inWindow (va : Nat) : Bool := decide (sliceBase ≤ va) && decide (va < sliceBase + 576 * sliceBytes)

/-- R65: the core whose slice an address of the window lies in. -/
def windowCore (va : Nat) : Nat := (va - sliceBase) / sliceBytes

/-- R79: a page of 64 KiB. -/
def pageBytes : Nat := 0x10000

/-- The first address of the page. -/
def pageOf (va : Nat) : Nat := va / pageBytes * pageBytes

/-- R68: physical addresses that exist. -/
def physical (pa : Nat) : Bool :=
  decide (pa < 0x8000000000) || (decide (0x010000000000 ≤ pa) && decide (pa < 0x028000000000)) ||
    (decide (0x080000000000 ≤ pa) && decide (pa < 0x080000000000 + 576 * sliceBytes))

/-! ## Fields of the device -/

def Dev.context (d : Dev) (slot : Nat) : Context := Table.get d.contexts slot Context.reset
def Dev.core (d : Dev) (j : Nat) : Core := Table.get d.cores j Core.reset
def Dev.cluster (d : Dev) (n : Nat) : Cluster := Table.get d.clusters n Cluster.reset
def Core.lb (c : Core) (b : Nat) : LaneBlock := Table.get c.lbs b LaneBlock.reset
def Core.segment (c : Core) (n : Nat) : Segment := Table.get c.segments n Segment.reset
def Context.stream (c : Context) (n : Nat) : CmdStream := Table.get c.streams n CmdStream.reset

def Dev.setContext (d : Dev) (slot : Nat) (c : Context) : Dev :=
  { d with contexts := Table.set d.contexts slot c }
def Dev.setCore (d : Dev) (j : Nat) (c : Core) : Dev := { d with cores := Table.set d.cores j c }
def Dev.setCluster (d : Dev) (n : Nat) (c : Cluster) : Dev := { d with clusters := Table.set d.clusters n c }
def Dev.setWarp (d : Dev) (id : Nat) (w : Warp) : Dev := { d with warps := Table.set d.warps id w }
def Dev.setFet (d : Dev) (id : Nat) (f : Fet) : Dev := { d with fets := Table.set d.fets id f }
def Dev.setTeam (d : Dev) (id : Nat) (t : Team) : Dev := { d with teams := Table.set d.teams id t }
def Dev.setLaunch (d : Dev) (id : Nat) (l : Launch) : Dev := { d with launches := Table.set d.launches id l }
def Dev.setGraph (d : Dev) (id : Nat) (g : Graph) : Dev := { d with graphs := Table.set d.graphs id g }
def Dev.setOp (d : Dev) (id : Nat) (o : EngineOp) : Dev := { d with ops := Table.set d.ops id o }
def Dev.setCopy (d : Dev) (id : Nat) (c : Copy) : Dev := { d with copies := Table.set d.copies id c }
def Dev.setColl (d : Dev) (id : Nat) (c : Coll) : Dev := { d with colls := Table.set d.colls id c }
def Dev.setAccess (d : Dev) (id : Nat) (a : Access) : Dev := { d with accesses := Table.set d.accesses id a }
def Dev.setMem (d : Dev) (m : Memory) : Dev := { d with mem := m }
def Dev.onContext (d : Dev) (slot : Nat) (f : Context → Context) : Dev := d.setContext slot (f (d.context slot))
def Dev.onCore (d : Dev) (j : Nat) (f : Core → Core) : Dev := d.setCore j (f (d.core j))
def Dev.onCluster (d : Dev) (n : Nat) (f : Cluster → Cluster) : Dev := d.setCluster n (f (d.cluster n))
def Dev.onWarp (d : Dev) (id : Nat) (f : Warp → Warp) : Dev := { d with warps := Table.modify d.warps id f }
def Dev.onFet (d : Dev) (id : Nat) (f : Fet → Fet) : Dev := { d with fets := Table.modify d.fets id f }
def Dev.onTeam (d : Dev) (id : Nat) (f : Team → Team) : Dev := { d with teams := Table.modify d.teams id f }
def Dev.onLaunch (d : Dev) (id : Nat) (f : Launch → Launch) : Dev :=
  { d with launches := Table.modify d.launches id f }
def Core.onLb (c : Core) (b : Nat) (f : LaneBlock → LaneBlock) : Core :=
  { c with lbs := Table.set c.lbs b (f (c.lb b)) }
def Dev.onLb (d : Dev) (j b : Nat) (f : LaneBlock → LaneBlock) : Dev := d.onCore j fun c => c.onLb b f
def Core.onSegment (c : Core) (n : Nat) (f : Segment → Segment) : Core :=
  { c with segments := Table.set c.segments n (f (c.segment n)) }

/-- The next name, and the device with it taken. -/
def Dev.fresh (d : Dev) : Nat × Dev := (d.nextId, { d with nextId := d.nextId + 1 })

/-- The next free value's number, and the device with it taken (notes/assumptions/2.md). -/
def Dev.nextFree (d : Dev) : Nat × Dev := (d.free, { d with free := d.free + 1 })

/-! ## The slice's pages (R24, R50, R65) -/

/-- R73: the replica area is the slice's last 256 KiB (notes/assumptions/8.md). -/
def replicaPage (k : Nat) : Bool := decide (60 ≤ k)

/-- Pages of the slice that nothing has, the highest first. -/
def Core.freePages (c : Core) : List Nat :=
  ((List.range 60).filter fun k => (Table.find? c.pages k).isNone).reverse

/-- R65: a page of the slice that no page table may map. -/
def Core.reservedPage (c : Core) (k : Nat) : Bool :=
  replicaPage k || Table.find? c.pages k == some .reserved

/-- The reserved bytes of some holder lie in a page. -/
def Core.covers (c : Core) (k : Nat) : Bool :=
  c.reserved.any fun r => decide (r.2.1 < (k + 1) * pageBytes) && decide (k * pageBytes < r.2.1 + r.2.2)

/-- The core with the pages reserved that its reserved bytes lie in, and no others. -/
def Core.settleReserved (c : Core) : Core :=
  let kept := c.pages.filter fun p => p.2 != .reserved || c.covers p.1
  let add := fun (t : Table PageOwner) (k : Nat) =>
    if c.covers k && (Table.find? t k).isNone then Table.set t k .reserved else t
  { c with pages := (List.range 60).foldl add kept }

/-- The core without the reserved bytes of some holders. -/
def Core.giveBack (c : Core) (mine : Holder → Bool) : Core :=
  { c with reserved := c.reserved.filter fun r => !mine r.1 }.settleReserved

/-- `n` bytes of the slice at an offset may be reserved: their pages are free or reserved, and no holder has them. -/
def Core.roomAt (c : Core) (n off : Nat) : Bool :=
  decide (off + n ≤ 60 * pageBytes) &&
    ((List.range (n / pageBytes + 2)).all fun i =>
      let k := off / pageBytes + i
      decide (off + n ≤ k * pageBytes) || (match Table.find? c.pages k with
        | none => true
        | some o => o == .reserved)) &&
    c.reserved.all fun r => decide (off + n ≤ r.2.1) || decide (r.2.1 + r.2.2 ≤ off)

/-- R50: where a holder's bytes can lie: the lowest place at the start of a page or after another holder's bytes
(notes/assumptions/8.md). -/
def Core.findRoom (c : Core) (n : Nat) : Option Nat :=
  let places := ((List.range 60).map (· * pageBytes)) ++
    c.reserved.map fun (r : Holder × Nat × Nat) => (r.2.1 + r.2.2 + 127) / 128 * 128
  (places.filter (c.roomAt n)).foldl (fun (best : Option Nat) x => some (Nat.min x (best.getD x))) none

/-- The core with bytes at an offset reserved for a holder. -/
def Core.reserveAt (c : Core) (who : Holder) (off n : Nat) : Core :=
  { c with reserved := c.reserved ++ [(who, off, n)] }.settleReserved

/-! ## Poison (R459) -/

/-- R459: a write of a whole unit clears its poison. -/
def clearPoison (poison : List Nat) (pa bytes : Nat) : List Nat :=
  poison.filter fun u => !(decide (pa ≤ u * 8) && decide (u * 8 + 8 ≤ pa + bytes))

/-- R459: a range of physical addresses meets a poisoned unit. -/
def Dev.poisoned (d : Dev) (pa bytes : Nat) : Bool :=
  d.poison.any fun u => decide (u * 8 < pa + bytes) && decide (pa < u * 8 + 8)

/-- The device with bytes written at a physical address. -/
def Dev.putBytes (d : Dev) (pa : Nat) (bytes : List Byte) : Dev :=
  { d with mem := Memory.writeBytes d.mem pa bytes, poison := clearPoison d.poison pa bytes.length }

/-- A range's bytes copied to another range, whole units at a time: a poisoned unit stays poisoned where it is copied to. -/
def Dev.copyBytes (d : Dev) (src dst n : Nat) : Dev :=
  { d with
    mem := Memory.copyRange d.mem src dst n
    poison := clearPoison d.poison dst n ++ ((d.poison.filter fun u => decide (src ≤ u * 8) && decide (u * 8 < src + n)).map
      fun u => u - src / 8 + dst / 8) }

/-! ## Page tables (R79, R80, R423) -/

/-- R80: the fields of an entry. -/
def pteX (e : Dword) : Bool := e.getLsbD 63
def pteW (e : Dword) : Bool := e.getLsbD 62
def pteRd (e : Dword) : Bool := e.getLsbD 61
def ptePa (e : Dword) : Nat := (e.extractLsb' 16 36).toNat * 0x10000
def pteLeaf (e : Dword) : Bool := e.getLsbD 1
def pteValid (e : Dword) : Bool := e.getLsbD 0

/-- R80: a leaf entry. -/
def leafEntry (pa : Nat) (x w rd : Bool) : Dword :=
  BitVec.ofBool x ++ BitVec.ofBool w ++ BitVec.ofBool rd ++ 0#5 ++ 0#4 ++ BitVec.ofNat 36 (pa / 0x10000) ++ 0#8 ++
    0#6 ++ 0b11#2

/-- R80: an entry that points to the next table. -/
def tableEntry (pa : Nat) : Dword := 0#12 ++ BitVec.ofNat 36 (pa / 0x10000) ++ 0#14 ++ 0b01#2

/-- R79: the index of a level. -/
def levelIndex (level va : Nat) : Nat :=
  match level with
  | 1 => va / 2 ^ 55 % 4
  | 2 => va / 2 ^ 42 % 8192
  | 3 => va / 2 ^ 29 % 8192
  | _ => va / 2 ^ 16 % 8192

/-- R79: the size of a leaf's page. -/
def levelBytes (level : Nat) : Nat :=
  match level with
  | 2 => 2 ^ 42
  | 3 => 2 ^ 29
  | _ => 2 ^ 16

/-- R80: the reserved bits of an entry are 0. -/
def pteReserved (level : Nat) (e : Dword) : Bool :=
  if pteLeaf e then
    e.extractLsb' 56 5 == 0 && e.extractLsb' 8 8 == 0 && e.extractLsb' 2 4 == 0 &&
      ptePa e % levelBytes level == 0
  else e.extractLsb' 52 12 == 0 && e.extractLsb' 2 14 == 0

/-- The fault codes of R423. -/
def faultNotMapped : Nat := 0x01
def faultNoRead : Nat := 0x02
def faultNoWrite : Nat := 0x03
def faultNoExec : Nat := 0x04
def faultSealed : Nat := 0x05
def faultReserved : Nat := 0x06
def faultBadEntry : Nat := 0x07
def faultAddress : Nat := 0x08
def faultMisaligned : Nat := 0x09

/-- R80: the walk from a table at `table`, with `fuel` levels left: the level, the address of the leaf's entry
and the entry, or the fault code. -/
def walkFrom (m : Memory) (va : Nat) : Nat → Nat → Nat → Except Nat (Nat × Nat × Dword)
  | 0, _, _ => .error faultBadEntry
  | fuel + 1, level, table =>
    let a := table + levelIndex level va * 8
    let e : Dword := BitVec.ofNat 64 (leValue (Memory.readBytes m a 8))
    if !pteValid e then .error faultNotMapped
    else if !pteReserved level e || (!pteLeaf e && level == 4) || (pteLeaf e && level == 1) then
      .error faultBadEntry
    else if pteLeaf e then .ok (level, a, e)
    else walkFrom m va fuel (level + 1) (ptePa e)

/-- What an access asks of its leaf (R80). -/
inductive Want where
  | read
  | write
  | exec
  deriving DecidableEq, Repr

/-- R423: the code where the leaf does not allow the access. -/
def permitted (want : Want) (e : Dword) : Option Nat :=
  match want with
  | .read => if pteRd e then none else some faultNoRead
  | .write => if pteW e then none else some faultNoWrite
  | .exec => if pteX e then none else some faultNoExec

/-- R65, R423: region 3 outside the window, or a reserved part of a slice. -/
def Dev.reservedVa (d : Dev) (va : Nat) : Bool :=
  decide (sliceBase ≤ va) &&
    (!inWindow va || (d.core (windowCore va)).reservedPage ((va - sliceBase) % sliceBytes / pageBytes))

/-- R80: the leaf that a context's root of a die gives for an address. -/
def Dev.walk (d : Dev) (slot die va : Nat) : Except Nat (Nat × Nat × Dword) :=
  if d.reservedVa va then .error faultReserved
  else
    match (d.context slot).roots[die]? with
    | none => .error faultNotMapped
    | some root => walkFrom d.mem va 4 1 root

/-- R80: the entry with A set, and D for a write. -/
def touchEntry (e : Dword) (want : Want) : Dword := e ||| (if want == .write then 0xC0#64 else 0x40#64)

/-- R81: the set of the L2 TLB that a page belongs to, of 1,024 sets of 8 ways; the index function is open. -/
def tlbSet (e : Nat × Nat × Nat) : Nat := Config.tlbIndex e.1 e.2.1 e.2.2 % 1024

/-- R81: a full set of a TLB with a page of a context put in front. DESIGN CHOICE (notes/assumptions/8.md): R81 names no
replacement policy; the model keeps the pages that were used last, and drops the oldest of them. -/
def noteWay (ways : Nat) (e : Nat × Nat × Nat) (same : Nat × Nat × Nat → Bool) (tlb : List (Nat × Nat × Nat)) :
    List (Nat × Nat × Nat) :=
  (e :: (tlb.filter fun f => same f && f != e).take (ways - 1)) ++ tlb.filter fun f => !same f

/-- R81: a page of a leaf's size in the L1 TLB of the core, of 256 entries and one set, and in the L2 TLB of its die, of
8,192 entries in sets of 8, the most recent first. -/
def Dev.noteTlb (d : Dev) (slot core va bytes : Nat) : Dev :=
  let e := (slot, va / bytes * bytes, bytes)
  let d := d.onCore core fun c => { c with tlb := noteWay 256 e (fun _ => true) c.tlb }
  let ways := noteWay 8 e (fun f => tlbSet f == tlbSet e) (Table.get d.l2 (dieOf core) [])
  { d with l2 := Table.set d.l2 (dieOf core) ways }

/-- R81: the context's range leaves every TLB. -/
def Dev.dropTlb (d : Dev) (slot base bytes : Nat) : Dev :=
  let hit := fun (e : Nat × Nat × Nat) =>
    e.1 == slot && decide (base < e.2.1 + e.2.2) && decide (e.2.1 < base + bytes)
  { d with
    l2 := d.l2.map fun p => (p.1, p.2.filter fun e => !hit e)
    cores := d.cores.map fun p => (p.1, { p.2 with tlb := p.2.tlb.filter fun e => !hit e }) }

/-- R80: the device as a walk leaves it: A, and D for a write, are set in the leaf that it finds, whether or not the
leaf allows the access. -/
def Dev.walked (d : Dev) (slot core va : Nat) (want : Want) : Dev :=
  match d.walk slot (dieOf core) va with
  | .error _ => d
  | .ok (_, a, e) => d.putBytes a (leBytes 8 (touchEntry e want).toNat)

/-- R80: the physical address of an access from a core, with A and D set in the leaf; or the fault code. DESIGN CHOICE
(notes/assumptions/8.md): a leaf whose frame is a reserved physical address, which R68 says is never mapped, fails with
BAD_ENTRY; R423 names no code for it. Safe: the memory manager writes no such leaf. -/
def Dev.translate (d : Dev) (slot core va : Nat) (want : Want) : Except Nat (Nat × Dev) :=
  match d.walk slot (dieOf core) va with
  | .error c => .error c
  | .ok (level, a, e) =>
    match permitted want e with
    | some c => .error c
    | none =>
      let pa := ptePa e + va % levelBytes level
      if !physical pa then .error faultBadEntry
      else
        .ok (pa, (d.putBytes a (leBytes 8 (touchEntry e want).toNat)).noteTlb slot core va (levelBytes level))

/-- The physical address that an address has under a context's root, 0 where it has none. -/
def Dev.physicalOf (d : Dev) (slot core va : Nat) : Nat :=
  match d.walk slot (dieOf core) va with
  | .error _ => 0
  | .ok (level, _, e) => ptePa e + va % levelBytes level

/-! ## The memory manager (R65, R70, R382, R424) -/

/-- The frames of the LPDDR tier below the 8 GiB that a fatal error's dump takes (R467). -/
def lpddrFrames : Nat := 0x17E0000

/-- R8, R68: the frames of an HBM4E stack, and the stack of a frame below the LPDDR tier. -/
def stackFrames : Nat := 0x100000
def stackOf (pa : Nat) : Nat := pa / pageBytes / stackFrames

/-- R8: the two stacks of a die. -/
def dieStacks (die : Nat) : List Nat := [2 * die, 2 * die + 1]

/-- The tier of a frame: 0 HBM4E, 1 LPDDR. -/
def tierOf (pa : Nat) : Nat := if pa < 0x8000000000 then 0 else 1

/-- R384: the stack or the tier of a frame is usable. -/
def HostPart.frameReady (h : HostPart) (pa : Nat) : Bool :=
  h.ready.getLsbD (if tierOf pa = 0 then 33 + stackOf pa else 41)

/-- A frame that has been given back, with its bytes 0. -/
def Dev.reuseFrame (d : Dev) (pa : Nat) : Dev :=
  { d with
    freeFrames := d.freeFrames.erase pa
    mem := Memory.clear d.mem pa pageBytes
    poison := clearPoison d.poison pa pageBytes }

/-- R384: a frame that was never given out, of the first of some stacks that is usable and has one. -/
def Dev.freshFrame (h : HostPart) (d : Dev) (ks : List Nat) : Option (Nat × Dev) :=
  (ks.find? fun k => h.ready.getLsbD (33 + k) && decide (Table.get d.hbmTaken k 0 < stackFrames)).map fun k =>
    let n := Table.get d.hbmTaken k 0
    ((k * stackFrames + n) * pageBytes, { d with hbmTaken := Table.set d.hbmTaken k (n + 1) })

/-- A frame of some stacks, one given back before a fresh one. -/
def Dev.takeHbm (h : HostPart) (d : Dev) (ks : List Nat) : Option (Nat × Dev) :=
  match d.freeFrames.find? fun pa => tierOf pa == 0 && ks.contains (stackOf pa) && h.frameReady pa with
  | some pa => some (pa, d.reuseFrame pa)
  | none => d.freshFrame h ks

/-- A frame of a tier, of a stack or tier whose READY bit is set (R384), and the device with it taken
(notes/assumptions/8.md). Tier 0 is HBM4E, 1 LPDDR. -/
def Dev.takeFrame (h : HostPart) (d : Dev) (tier : Nat) : Option (Nat × Dev) :=
  if tier = 1 then
    match d.freeFrames.find? fun pa => tierOf pa == 1 && h.frameReady pa with
    | some pa => some (pa, d.reuseFrame pa)
    | none =>
      if h.ready.getLsbD 41 && decide (d.lpddrTaken < lpddrFrames) then
        some (0x010000000000 + d.lpddrTaken * pageBytes, { d with lpddrTaken := d.lpddrTaken + 1 })
      else none
  else d.takeHbm h (List.range 8)

/-- R75: a frame of one of a die's own stacks. -/
def Dev.takeFrameOn (h : HostPart) (d : Dev) (die : Nat) : Option (Nat × Dev) := d.takeHbm h (dieStacks die)

/-- Frames of the tiers are given back. -/
def Dev.freeFrame (d : Dev) (pa : Nat) : Dev :=
  if decide (pa < 0x028000000000) && pa % pageBytes == 0 && !d.freeFrames.contains pa then
    { d with freeFrames := d.freeFrames ++ [pa] }
  else d

/-- Writes the level-4 leaf of a page under one root, with the tables that are missing on the way. -/
def Dev.mapUnder (h : HostPart) (d : Dev) (va : Nat) (leaf : Dword) : Nat → Nat → Nat → Option Dev
  | 0, _, _ => none
  | fuel + 1, level, table =>
    let a := table + levelIndex level va * 8
    let e : Dword := BitVec.ofNat 64 (leValue (Memory.readBytes d.mem a 8))
    if level = 4 then some (d.putBytes a (leBytes 8 leaf.toNat))
    else if pteValid e then if pteLeaf e then none else Dev.mapUnder h d va leaf fuel (level + 1) (ptePa e)
    else
      match d.takeFrame h 0 with
      | none => none
      | some (t, d) =>
        Dev.mapUnder h (d.putBytes a (leBytes 8 (tableEntry t).toNat)) va leaf fuel (level + 1) t

/-- R75: writes the leaf of a page under each root, the leaf of each die in turn. -/
def Dev.mapRoots (h : HostPart) (d : Dev) (va : Nat) : List Nat → List Dword → Option Dev
  | [], _ => some d
  | _, [] => some d
  | root :: roots, leaf :: leaves =>
    match d.mapUnder h va leaf 4 1 root with
    | none => none
    | some d => Dev.mapRoots h d va roots leaves

/-- Maps a page with the same leaf under the four roots. -/
def Dev.mapPage (h : HostPart) (d : Dev) (slot va : Nat) (leaf : Dword) : Option Dev :=
  d.mapRoots h va (d.context slot).roots [leaf, leaf, leaf, leaf]

/-- Clears the leaf of a page under one root. -/
def Dev.unmapUnder (d : Dev) (va root : Nat) : Dev :=
  match walkFrom d.mem va 4 1 root with
  | .error _ => d
  | .ok (_, a, _) => d.putBytes a (leBytes 8 0)

/-- Clears the leaves of a page under every root. -/
def Dev.unmapPage (d : Dev) (slot va : Nat) : Dev :=
  (d.context slot).roots.foldl (fun d r => d.unmapUnder va r) d

/-- The allocated range that holds an address (R382, R424). -/
def Context.range? (c : Context) (va : Nat) : Option Range :=
  c.ranges.find? fun r => decide (r.base ≤ va) && decide (va < r.base + r.bytes)

/-- The snapshot page that holds an address (R462). -/
def Context.snapshot? (c : Context) (va : Nat) : Option Snapshot :=
  c.snapshots.find? fun s => decide (s.base ≤ va) && decide (va < s.base + s.bytes)

/-- A physical address in a frame, as it stands in another one. -/
def movedTo (src dst pa : Nat) : Nat := if src ≤ pa ∧ pa < src + pageBytes then pa - src + dst else pa

/-- R300: the bytes that a store of a drain writes. -/
def DrainStore.span : DrainStore → Nat × Nat
  | .put va bytes _ => (va.toNat, bytes.length)
  | .add va _ => (va.toNat, 4)
  | .share va => (va.toNat, 1)
  | .half va _ _ => (va.toNat, 1)
  | .late _ => (0, 0)

/-- R81, R435: an access that has not performed, and is not refused, uses the frame, or a store of a drain that has passed its
check does. -/
def Dev.frameUsed (d : Dev) (pa : Nat) : Bool :=
  let inside := fun (p : Nat) => decide (pa ≤ p) && decide (p < pa + pageBytes)
  d.accesses.any (fun e => e.2.result.isNone && e.2.cause == 0 && e.2.pa.any inside) ||
    d.cores.any fun (e : Nat × Core) => e.2.engine.any fun o => o.units.any fun u =>
      ((u.checked.map Prod.fst).getD []).any fun s =>
        let (va, n) := s.span
        decide (0 < n) && (inside (d.physicalOf o.slot e.1 va) || inside (d.physicalOf o.slot e.1 (va + n - 1)))

/-- R81: the accesses that have a translation to a frame and have not performed there are translated again, to the frame
that the page has now. -/
def Dev.retranslate (d : Dev) (src dst : Nat) : Dev :=
  { d with accesses := d.accesses.map fun (e : Nat × Access) =>
      (e.1, if e.2.result.isNone then { e.2 with pa := e.2.pa.map (movedTo src dst) } else e.2) }

/-- R424: serves a failed translation, or finds it unresolvable. A page that is allocated and not backed takes
a frame of zeros; a write to a snapshot page takes a copy, whose leaf allows reads where the range does. -/
def Dev.serve (h : HostPart) (d : Dev) (slot va code : Nat) : Option Dev :=
  let c := d.context slot
  if code = faultNotMapped then
    match c.range? va with
    | none => none
    | some r =>
      match d.takeFrame h r.tier with
      | none => none
      | some (pa, d) => d.mapPage h slot (pageOf va) (leafEntry pa false r.w r.rd)
  else if code = faultNoWrite then
    match c.snapshot? va with
    | none => none
    | some s =>
      if s.copied || (c.range? va).isNone then none
      else
        match d.takeFrame h (((c.range? va).map Range.tier).getD 0) with
        | none => none
        | some (pa, d) =>
          let d := d.copyBytes s.pa pa s.bytes
          let d := d.onContext slot fun c =>
            { c with snapshots := c.snapshots.map fun t => if t.base = s.base then { t with copied := true } else t }
          let rd := ((c.range? va).map Range.rd).getD true
          (d.mapPage h slot (pageOf va) (leafEntry pa false true rd)).map fun d =>
            (d.dropTlb slot (pageOf va) pageBytes).retranslate s.pa pa
  else none

/-- R462: the snapshots are dropped: a page that no write has copied may be written again, and what a copied page held
before is given back. -/
def Dev.dropSnapshots (h : HostPart) (d : Dev) (slot : Nat) : Dev :=
  let c := d.context slot
  let d := c.snapshots.foldl (fun (d : Dev) s =>
    if s.copied then d.freeFrame s.pa
    else
      match c.range? s.base with
      | none => d
      | some r => ((d.mapPage h slot s.base (leafEntry s.pa false true r.rd)).getD d).dropTlb slot s.base s.bytes) d
  d.onContext slot fun c => { c with snapshots := [], sliceImages := [] }

/-- The physical addresses of the entries that a walk reads. -/
def walkReads (m : Memory) (va : Nat) : Nat → Nat → Nat → List Nat
  | 0, _, _ => []
  | fuel + 1, level, table =>
    let a := table + levelIndex level va * 8
    let e : Dword := BitVec.ofNat 64 (leValue (Memory.readBytes m a 8))
    a :: if pteValid e && !pteLeaf e && level != 4 then walkReads m va fuel (level + 1) (ptePa e) else []

/-- R460: the walker meets an uncorrectable entry. -/
def Dev.walkPoisoned (d : Dev) (slot die va : Nat) : Bool :=
  match (d.context slot).roots[die]? with
  | none => false
  | some root => (walkReads d.mem va 4 1 root).any fun a => d.poisoned a 8

/-- R424, R460: the memory manager, a part of the control complex (R365), meets an uncorrectable word in the snapshot page
that it copies. -/
def Dev.servePoisoned (d : Dev) (slot va code : Nat) : Bool :=
  code == faultNoWrite && ((d.context slot).snapshot? va).any fun s => !s.copied && d.poisoned s.pa s.bytes

/-- How a read or write of virtual memory failed: the code of R423 and the address; an uncorrectable word, with its virtual
and its physical address; or an uncorrectable word that the page walker or the memory manager has met, which kills the context
(R460). -/
inductive Failure where
  | fault (code va : Nat)
  | uncorrectable (va pa : Nat)
  | lost (va : Nat)
  deriving DecidableEq, Repr

/-- The virtual address that a failure names. -/
def Failure.va : Failure → Nat
  | .fault _ va => va
  | .uncorrectable va _ => va
  | .lost va => va

/-- R80, R424, R432, R460: the physical address of an access from a core, in which the memory manager serves what it can; or
how it failed. The leaf that it finds has A set, and D for a write, in either case. -/
def Dev.reach (h : HostPart) (d : Dev) (slot core va : Nat) (want : Want) : Except Failure Nat × Dev :=
  if d.walkPoisoned slot (dieOf core) va then (.error (.lost va), d)
  else
    match d.translate slot core va want with
    | .ok (pa, d) => (.ok pa, d)
    | .error code =>
      let d := d.walked slot core va want
      if d.servePoisoned slot va code then (.error (.lost va), d)
      else
        match d.serve h slot va code with
        | none => (.error (.fault code va), d)
        | some e =>
          match e.translate slot core va want with
          | .ok (pa, e) => (.ok pa, e)
          | .error code => (.error (.fault code va), e.walked slot core va want)

/-! ## Virtual memory as an engine, the command processor or the device reaches it -/

/-- R71: the context's sealed region that holds an address. -/
def Context.sealedAt (c : Context) (va : Nat) : Bool :=
  c.sealed_.any fun r => decide (r.1 ≤ va) && decide (va < r.1 + r.2)

/-- R71: a range meets a sealed region. -/
def Context.sealedRange (c : Context) (va bytes : Nat) : Bool :=
  c.sealed_.any fun r => decide (r.1 < va + bytes) && decide (va < r.1 + r.2)

/-- R459: the number that stands for a 64-bit unit of a core's own stores: 0 B banks, 1 side stores, 2 accumulators,
3 drain programs, 4 constants, 5 tables, 6 code store. No physical address has it. -/
def chipUnit (core store index : Nat) : Nat := 2 ^ 48 + (core * 8 + store) * 2 ^ 20 + index

/-- R459: units of a core's store that are poisoned. -/
def Dev.chipPoisoned (d : Dev) (core store lo n : Nat) : Bool :=
  d.poison.any fun u => decide (chipUnit core store lo ≤ u) && decide (u < chipUnit core store lo + n)

/-- R459: units of a core's store are written whole. -/
def Dev.clearChip (d : Dev) (core store lo n : Nat) : Dev :=
  { d with poison := d.poison.filter fun u =>
      !(decide (chipUnit core store lo ≤ u) && decide (u < chipUnit core store lo + n)) }

/-- The parts of a range that lie in one page each: address and length. -/
def pageParts (va : Nat) : Nat → Nat → List (Nat × Nat)
  | 0, _ => []
  | fuel + 1, n =>
    if n = 0 then []
    else
      let k := Nat.min n (pageBytes - va % pageBytes)
      (va, k) :: pageParts (va + k) fuel (n - k)

/-- What a read or write of virtual memory answers: its value, or how it failed, and the device after it. The leaves that it
found have A set, and the pages that were served are there, also where it failed (R80). -/
abbrev Reached (α : Type) := Except (Failure × Dev) (α × Dev)

/-- R459: the first byte of a range that lies in a poisoned unit, counted from the range's start. -/
def Dev.firstPoisoned (d : Dev) (pa bytes : Nat) : Nat := ((List.range bytes).find? fun i => d.poisoned (pa + i) 1).getD 0

/-- Reads the parts in order. A failure of R460 names the address of the word that cannot be corrected. -/
def Dev.readParts (h : HostPart) (slot core : Nat) (d : Dev) : List (Nat × Nat) → Reached (List Byte)
  | [] => .ok ([], d)
  | (va, n) :: parts =>
    match d.reach h slot core va .read with
    | (.error f, d) => .error (f, d)
    | (.ok pa, d) =>
      if d.poisoned pa n then .error (.uncorrectable (va + d.firstPoisoned pa n) (pa + d.firstPoisoned pa n), d)
      else
        match Dev.readParts h slot core d parts with
        | .error f => .error f
        | .ok (bs, d') => .ok (Memory.readBytes d.mem pa n ++ bs, d')

/-- Reads `n` bytes at a virtual address for the party on a core (R432: what can be served only delays it). -/
def Dev.readVa (h : HostPart) (d : Dev) (slot core va n : Nat) : Reached (List Byte) :=
  if va + n > 2 ^ 57 then .error (.fault faultAddress va, d)
  else Dev.readParts h slot core d (pageParts va (n / pageBytes + 2) n)

/-- Translates the parts of a write; nothing is written unless all of them can be. -/
def Dev.writeParts (h : HostPart) (slot core : Nat) (d : Dev) : List (Nat × Nat) → Reached (List (Nat × Nat))
  | [] => .ok ([], d)
  | (va, n) :: parts =>
    match d.reach h slot core va .write with
    | (.error f, d) => .error (f, d)
    | (.ok pa, d) =>
      if (d.context slot).sealedRange va n then .error (.fault faultSealed va, d)
      else
        match Dev.writeParts h slot core d parts with
        | .error f => .error f
        | .ok (ps, d) => .ok ((pa, n) :: ps, d)

/-- The part of a release from its byte `lo` up to its byte `hi`: a location is one byte (R222). -/
def ReleaseTag.cut (t : ReleaseTag) (lo hi : Nat) (live : Bool) : List ReleaseTag :=
  if hi ≤ lo then [] else [{ t with pa := t.pa + lo, va := t.va + lo, bytes := hi - lo, live := live }]

/-- R222, R224: a release after a write to some of its bytes: those hold it, as `live` says, and the others as before. -/
def ReleaseTag.after (t : ReleaseTag) (pa n : Nat) (live : Bool) : List ReleaseTag :=
  if t.pa < pa + n && pa < t.pa + t.bytes then
    let lo := pa - t.pa
    let hi := Nat.min t.bytes (pa + n - t.pa)
    t.cut 0 lo t.live ++ t.cut lo hi live ++ t.cut hi t.bytes t.live
  else [t]

/-- R224: a write of other than a read-modify-write ends the releases that its bytes hold. -/
def Dev.endTags (d : Dev) (pa n : Nat) : Dev :=
  { d with tags := d.tags.flatMap fun (t : ReleaseTag) => t.after pa n false }

/-- Writes the parts' bytes at their physical addresses. -/
def Dev.putParts (d : Dev) : List (Nat × Nat) → List Byte → Dev
  | [], _ => d
  | (pa, n) :: ps, bs => Dev.putParts ((d.putBytes pa (bs.take n)).endTags pa n) ps (bs.drop n)

/-- Writes bytes at a virtual address for the party on a core; a write that fails writes nothing. -/
def Dev.writeVa (h : HostPart) (d : Dev) (slot core va : Nat) (bytes : List Byte) : Except (Failure × Dev) Dev :=
  if va + bytes.length > 2 ^ 57 then .error (.fault faultAddress va, d)
  else
    match Dev.writeParts h slot core d (pageParts va (bytes.length / pageBytes + 2) bytes.length) with
    | .error f => .error f
    | .ok (ps, d) => .ok (d.putParts ps bytes)

/-- A little-endian value at a virtual address. -/
def Dev.readValue (h : HostPart) (d : Dev) (slot core va n : Nat) : Reached Nat :=
  match d.readVa h slot core va n with
  | .error f => .error f
  | .ok (bs, d) => .ok (leValue bs, d)

/-- The `n`-byte value at an offset of a record. -/
def field (bs : List Byte) (off n : Nat) : Nat := leValue ((bs.drop off).take n)

/-- The `n` bytes at an offset of a record. -/
def slice (bs : List Byte) (off n : Nat) : List Byte := (bs.drop off).take n

end Sys2Proof.Machine
end

