-- ==== Sys2Proof/Machine/Warps.lean ====
section
/-! DEFINITION. Lanes, threads and splits: which splits are ready, how splits merge, and how a warp selects its
current split (R29 to R34, R53, R54, R399). -/

namespace Sys2Proof.Machine

open Sys2Proof

/-! ## Lanes -/

/-- The mask of one lane. -/
def laneBit (l : Nat) : Mask := 1#32 <<< l

/-- The lanes of a mask, ascending. -/
def lanesOf (m : Mask) : List Nat := (List.range 32).filter fun l => m.getLsbD l

/-- The mask of a list of lanes. -/
def maskOf (ls : List Nat) : Mask := ls.foldl (fun m l => m ||| laneBit l) 0

/-- The lowest lane of a mask. -/
def lowest (m : Mask) : Nat := (lanesOf m).headD 32

/-- The number of lanes. -/
def popcount (m : Mask) : Nat := (lanesOf m).length

/-- A list with one place set, lengthened with `fill` where it is too short. -/
def putAt {α : Type} (fill : α) : List α → Nat → α → List α
  | [], 0, v => [v]
  | [], n + 1, v => fill :: putAt fill [] n v
  | _ :: xs, 0, v => v :: xs
  | x :: xs, n + 1, v => x :: putAt fill xs n v

/-! ## Threads of a warp -/

/-- The live thread of a lane. -/
def Warp.thread? (w : Warp) (l : Nat) : Option Thread := w.threads.find? fun t => t.lane == l

/-- The warp with the threads of some lanes changed. -/
def Warp.onLanes (w : Warp) (m : Mask) (f : Thread → Thread) : Warp :=
  { w with threads := w.threads.map fun t => if m.getLsbD t.lane then f t else t }

/-- The threads of some lanes, in ascending lane. -/
def Warp.threadsOf (w : Warp) (m : Mask) : List Thread := w.threads.filter fun t => m.getLsbD t.lane

/-- The live lanes. -/
def Warp.live (w : Warp) : Mask := maskOf (w.threads.map Thread.lane)

/-- All splits. -/
def Warp.splits (w : Warp) : List Split := w.cur.toList ++ w.others

/-- The depth of a split: that of every one of its threads (R29). -/
def Warp.depth (w : Warp) (s : Split) : Nat :=
  match w.thread? (lowest s.mask) with
  | none => 0
  | some t => t.stack.length

/-- The ticket of an empty cell. -/
def Cell.ticket? : Cell → Option Nat
  | .full _ => none
  | .empty t => some t

/-- A cell's word; the pipeline reads only full cells (R55). -/
def Cell.word : Cell → Word
  | .full w => w
  | .empty _ => 0

/-- Uniform register n (R59). -/
def kGet (k : List Word) (n : Nat) : Word := k.getD n 0

/-- The pair n:n+1, low half in n (R59). -/
def kGet64 (k : List Word) (n : Nat) : Dword := kGet k (n + 1) ++ kGet k n

/-- Uniform register n written. -/
def kSet (k : List Word) (n : Nat) (v : Word) : List Word := putAt 0 k n v

/-- The pair n:n+1 written. -/
def kSet64 (k : List Word) (n : Nat) (v : Dword) : List Word :=
  kSet (kSet k n (v.extractLsb' 0 32)) (n + 1) (v.extractLsb' 32 32)

/-- A counter of class c (R250). -/
def cntGet (cnt : List Nat) (c : Nat) : Nat := cnt.getD c 0

/-! ## Names -/

def Dev.warp? (d : Dev) (id : Nat) : Option Warp := Table.find? d.warps id
def Dev.team? (d : Dev) (id : Nat) : Option Team := Table.find? d.teams id
def Dev.launch? (d : Dev) (id : Nat) : Option Launch := Table.find? d.launches id

/-- The launch of a team. -/
def Dev.launchOf (d : Dev) (team : Nat) : Option Launch := (d.team? team).bind fun t => d.launch? t.launch

/-- The context slot of a team. -/
def Dev.slotOf (d : Dev) (team : Nat) : Nat := ((d.launchOf team).map Launch.slot).getD 64

/-- The context slot of a party. -/
def Dev.partySlot (d : Dev) : Party → Nat
  | .none => 64
  | .warp id => ((d.warp? id).map fun w => d.slotOf w.team).getD 64
  | .fet id => ((Table.find? d.fets id).map fun f => d.slotOf f.team).getD 64
  | .stream slot _ => slot

/-- The team of a party. -/
def Dev.partyTeam (d : Dev) : Party → Option Nat
  | .warp id => (d.warp? id).map Warp.team
  | .fet id => (Table.find? d.fets id).map Fet.team
  | _ => none

/-- The command processor that runs the streams of a context slot (notes/assumptions/10.md). -/
def processorOf (slot : Nat) : Nat := slot % 4

/-- The core that stands for a slot's command processor: the first of the processor's die (R18). -/
def processorCore (slot : Nat) : Nat := processorOf slot * 144

/-- The core of a party. -/
def Dev.partyCore (d : Dev) : Party → Nat
  | .warp id => ((d.warp? id).map Warp.core).getD 0
  | .fet id => ((Table.find? d.fets id).map Fet.core).getD 0
  | .stream slot _ => processorCore slot
  | .none => 0

/-! ## Waiting and readiness (R30, R33) -/

/-- An access acquires (R224, R235). -/
def Access.acquires (a : Access) : Bool :=
  a.kind != .store && (a.order == 1 || a.order == 3 || a.order == 4 || a.forder == 1 || a.forder == 4)

/-- Bytes that a `qpop` or a `qtry` of a warp has yet to write for a lane (R333): those of a copy under way, or the buffer of a
`qtry` that its queue unit has not handled; with the name that they have until they are written. -/
structure BufferWrite where
  warp : Nat
  lane : Nat
  name : Nat
  va : Nat
  bytes : Nat
  deriving DecidableEq, Repr

/-- The requests of `qtry` instructions at the queue units, each with the record size of its queue. -/
def Dev.polls (d : Dev) : List (QueueRequest × Nat) :=
  d.launches.flatMap fun e => (e.2.stages.toList.flatMap StageSet.queues).flatMap fun (q : Queue) =>
    (q.requests.filter fun r => r.poll.isSome).map fun r => (r, q.recBytes)

/-- R333: what `qpop` and `qtry` instructions have yet to write. -/
def Dev.bufferWrites (d : Dev) : List BufferWrite :=
  d.queueCopies.map (fun q => ⟨q.warp, q.lane, q.ticket, q.buffer.toNat, (q.record.bytes.getD []).length⟩) ++
    d.polls.flatMap fun p => p.1.lanes.map fun l => ⟨p.1.warp, l.1, p.1.id, l.2.toNat, p.2⟩

/-- What must come before a later access has come about: the access has performed at its home, and where it
acquires, it is complete (R224, R229). A request to seal has been decided (R231), and the records that a `qpop` or `qtry`
takes are written (R333, R336). -/
def Dev.performed (d : Dev) (id : Nat) : Bool :=
  match Table.find? d.accesses id with
  | none => (Table.find? d.seals id).isNone && d.bufferWrites.all fun b => b.name != id
  | some a => a.result.isSome && !a.acquires

/-- Every access of a list has come about. -/
def Dev.allPerformed (d : Dev) (ids : List Nat) : Bool := ids.all d.performed

/-- The accesses of a party's instructions that are still in flight: their stamps, each instruction once. -/
def Dev.inFlight (d : Dev) (p : Party) : List Nat :=
  ((d.accesses.filter fun e => e.2.party == p && decide (e.2.lane < 32)).map fun e => e.2.stamp).eraseDups

/-- R390: `st.q` and `cas.d` take two entries, and every other memory instruction one. -/
def replayCost : Instr → Nat
  | .st _ size _ => if size == 6 then 2 else 1
  | .cas _ _ _ _ _ size => if size == 1 then 2 else 1
  | _ => 1

/-- R390, R391: the entries of an access in flight: a re-injected half of a `st.q` has one. -/
def Access.replayCost (a : Access) : Nat :=
  match a.instr with
  | .st _ _ _ => if a.width = 16 then 2 else 1
  | i => Machine.replayCost i

/-- R391: the replay-queue entries that the warp's instructions in flight, and its queue, hold. -/
def Dev.replayUse (d : Dev) (id : Nat) (w : Warp) : Nat :=
  w.replay.length +
    ((d.inFlight (.warp id)).map fun st =>
      match List.find? (fun e => e.2.party == Party.warp id && e.2.stamp == st) d.accesses with
      | none => 0
      | some e => e.2.replayCost).foldl (· + ·) 0

/-- The copies that hold a command slot of a core's block-transfer engine (R314). -/
def Dev.slotsUsed (d : Dev) (core : Nat) : Nat :=
  (d.copies.filter fun e => e.2.core == core && match e.2.work with
    | .tile _ _ _ _ => true
    | .bytes _ _ _ => false).length

/-- The operation holds the follower's macros (R281). -/
def MatrixWork.paired : MatrixWork → Bool
  | .mma _ _ _ _ _ _ _ pair _ _ _ _ _ _ _ _ => pair
  | .mclr _ pair => pair
  | .mdrain _ _ _ _ _ pair _ _ _ _ => pair
  | .bload _ _ _ _ _ pair _ => pair
  | .bswap _ pair => pair
  | .dload _ _ _ _ => false

/-- R281: a pair operation that has not retired holds this core's engine as its follower. -/
def Dev.pairHeld (d : Dev) (core : Nat) : Bool :=
  core % 2 == 1 && (d.core (core - 1)).engine.any fun o => o.work.paired

/-- R128, R405: entries to pop or peek in a channel, or room to send, in every lane. -/
def channelReady (w : Warp) (mask : Mask) (n : Nat × Nat × Bool) : Bool :=
  let (ch, k, send) := n
  if ch = 15 then decide (k ≤ w.ch15.length)
  else
    (w.threadsOf mask).all fun t =>
      let have_ := (t.ch.getD ch []).length
      if send then decide (have_ + k ≤ 8) else decide (k ≤ have_)

/-- The segment of a core that holds a context's code page in the given state. -/
def Core.pageSegment (c : Core) (slot page : Nat) (st : SegmentState) : Option Nat :=
  (List.find? (fun e => e.2.state == st && e.2.slot == slot && e.2.page == page) c.segments).map Prod.fst

/-- R52, R54: the spill engine of the warp's lane block has a request for one of the lanes. -/
def Dev.transferring (d : Dev) (id : Nat) (w : Warp) (lanes : Mask) : Bool :=
  ((d.core w.core).lb w.lb).transfers.any fun t => t.warp == id && t.lanes &&& lanes != 0

/-- What a split waits for has come about. -/
def Dev.resolved (d : Dev) (id : Nat) (w : Warp) (s : Split) : Wait → Bool
  | .cells ts => (w.threadsOf s.mask).all fun t =>
      t.stack.all fun c => match c.ticket? with
        | none => true
        | some k => !ts.contains k
  | .transfer => !d.transferring id w s.mask
  | .channels needs => needs.all (channelReady w s.mask)
  | .counter cls n => decide (cntGet w.cnt cls ≤ n)
  | .room cls n => decide (cntGet w.cnt cls + n ≤ 255) && (2 ≤ cls || d.slotsUsed w.core + n ≤ 32)
  | .registers ks => w.kld.all fun e => !ks.contains e.1
  | .code page => ((d.core w.core).pageSegment (d.slotOf w.team) page .valid).isSome
  | .forwarding n => decide (((d.core w.core).lb w.lb).forwards.length + n ≤ 16)
  | .frame due => decide (due ≤ (d.cluster (clusterOf w.core)).clock)
  | .replay n => decide (d.replayUse id w + n ≤ 16)
  | .translation a => (Table.find? d.accesses a).isNone
  | .accesses ids => d.allPerformed ids
  | .pairHeld => !d.pairHeld w.core
  | .residence => true
  | .both a b => Dev.resolved d id w s a && Dev.resolved d id w s b

/-- What is left of a split's wait: the parts of a merged split's wait are over one by one (R33). -/
def Dev.remaining (d : Dev) (id : Nat) (w : Warp) (s : Split) : Wait → Option Wait
  | .both a b =>
    match Dev.remaining d id w s a, Dev.remaining d id w s b with
    | some a, some b => some (.both a b)
    | some a, none => some a
    | none, r => r
  | r => if d.resolved id w s r then none else some r

/-- A blocked split whose wait is over is ready again (R405). One that is ready otherwise is not while its spill or refill
is in progress, such as that of a merge of waiting splits (R53, R54). -/
def Dev.wake (d : Dev) (id : Nat) (w : Warp) (s : Split) : Split :=
  match s.state with
  | .blocked r => match d.remaining id w s r with
    | none => { s with state := .ready }
    | some r => { s with state := .blocked r }
  | .ready => if d.transferring id w s.mask then { s with state := .blocked .transfer } else s
  | _ => s

/-- A spill or a refill is among what the split waits for. -/
def Wait.spills : Wait → Bool
  | .transfer => true
  | .both a b => a.spills || b.spills
  | _ => false

/-- R33: the state that two splits with one PC and one depth merge into, if they merge: a merged split waits for every
dependence of either part, and one whose spill or refill is in progress does not merge yet. -/
def mergedState : SplitState → SplitState → Option SplitState
  | .ready, .ready => some .ready
  | .ready, .blocked r => if r.spills then none else some (.blocked r)
  | .blocked r, .ready => if r.spills then none else some (.blocked r)
  | .blocked q, .blocked r =>
    if q.spills || r.spills then none else some (.blocked (if q = r then q else .both q r))
  | .join, .join => some .join
  | .wsync, .wsync => some .wsync
  | .barrier a, .barrier b => if a = b then some (.barrier a) else none
  | _, _ => none

/-- R51, R54: cells that a spill moves are full: those of some lanes from resident count `was` down to `c`. -/
def Warp.spillable (w : Warp) (lanes : Mask) (was c : Nat) : Bool :=
  (w.threadsOf lanes).all fun t => ((t.stack.take was).drop c).all fun x => x.ticket?.isNone

/-- R54: the spills that bring splits down to the smallest resident count of them. -/
def mergeSpills (id : Nat) (ss : List Split) (c : Nat) : List Transfer :=
  (ss.filter fun s => c < s.c).map fun s => ⟨id, s.mask, s.c, c⟩

/-- R54: a merged split is not ready until its spills are done. Splits that wait inside an instruction wait on, and are not
ready after it before their spills are done (`Dev.wake`). -/
def SplitState.spilling (st : SplitState) : SplitState :=
  match st with
  | .ready => .blocked .transfer
  | .blocked r => .blocked (.both r .transfer)
  | st => st

/-- R33, R54, R399: the union of two splits, with the smaller resident count and the larger age, and the spills that
this takes. -/
def Warp.merge? (id : Nat) (w : Warp) (a b : Split) : Option (Split × List Transfer) :=
  if a.pc = b.pc ∧ w.depth a = w.depth b then
    (mergedState a.state b.state).map fun st =>
      let c := Nat.min a.c b.c
      let ts := mergeSpills id [a, b] c
      ({ mask := a.mask ||| b.mask, pc := a.pc, c := c, age := Nat.max a.age b.age,
         state := if ts.isEmpty then st else st.spilling }, ts)
  else none

/-- A split put among splits that do not merge with one another, and the spills that this takes. -/
def Warp.mergeIn (id : Nat) (w : Warp) (s : Split) : List Split → List Split × List Transfer
  | [] => ([s], [])
  | t :: ts =>
    match w.merge? id t s with
    | some (u, rs) => (u :: ts, rs)
    | none => let r := Warp.mergeIn id w s ts; (t :: r.1, r.2)

/-- R33: splits of a warp merged with one another. -/
def Warp.mergeAll (id : Nat) (w : Warp) (ss : List Split) : List Split × List Transfer :=
  ss.foldl (fun r s => let q := w.mergeIn id s r.1; (q.1, r.2 ++ q.2)) ([], [])

/-- A split in its place by lowest lane. -/
def insertSplit (s : Split) : List Split → List Split
  | [] => [s]
  | t :: ts => if lowest s.mask < lowest t.mask then s :: t :: ts else t :: insertSplit s ts

/-- Splits by ascending lowest lane (R31, R389). -/
def sortSplits (ss : List Split) : List Split := ss.foldr insertSplit []

/-- R31: one step of L. -/
def lfsrStep (l : BitVec 16) : BitVec 16 :=
  (l <<< 1) ||| BitVec.setWidth 16 (BitVec.ofBool ((l.getLsbD 15 ^^ l.getLsbD 13) ^^ (l.getLsbD 12 ^^ l.getLsbD 10)))

/-- R31: the choice among ready splits, with L stepped if there are two or more; the other splits follow. -/
def choose (l : BitVec 16) (ready : List Split) : Option Split × BitVec 16 :=
  match ready with
  | [] => (none, l)
  | [s] => (some s, l)
  | _ => (ready[(lfsrStep l).toNat % ready.length]?, lfsrStep l)

/-- A selection point (R30, R31, R33): splits merge, and one of the ready ones becomes current; the selection
stays due where none is ready. The spills are those of merges (R54). -/
def Dev.selected (d : Dev) (id : Nat) (w : Warp) : Warp × List Transfer :=
  let r := w.mergeAll id (w.splits.map (d.wake id w))
  let merged := sortSplits r.1
  let ready := merged.filter fun s => s.state == .ready
  let (cur, l) := choose w.lfsr ready
  ({ w with
      cur := cur
      lfsr := l
      others := match cur with
        | none => merged
        | some s => merged.filter fun t => t.mask != s.mask }, r.2)

/-- Requests reach the spill engine of the warp's lane block, in order (R52). -/
def Dev.addTransfers (d : Dev) (w : Warp) (ts : List Transfer) : Dev :=
  if ts.isEmpty then d else d.onLb w.core w.lb fun b => { b with transfers := b.transfers ++ ts }

/-- R397: the state in which a lane of a split is parked. One that waits at a `join` or a `wsync` arrives there again after its
service; one whose arrival at a barrier is counted waits there again. A split whose arrival is in the hold window, or that is in a
queue request or a `trywait`, merges with nothing before that is over (R33), and keeps the lane until then
(notes/assumptions/13.md). -/
def SplitState.park : SplitState → Option SplitState
  | .ready => some .parked
  | .blocked _ => some .parked
  | .join => some .parked
  | .wsync => some .parked
  | .barrier b => some (.parkedAt b)
  | .arriving _ => none
  | .queue _ => none
  | .trywait _ _ _ => none
  | .parked => none
  | .parkedAt _ => none

/-- R397: the state of a parked split after its service. -/
def SplitState.unpark : SplitState → SplitState
  | .parked => .ready
  | .parkedAt b => .barrier b
  | st => st

/-- R397: the lane leaves its split as a parked split, together with the lanes of the same instruction that are
parked at the same place with the same resident count. -/
def Warp.park (w : Warp) (lane : Nat) (mates : Mask) : Warp :=
  match w.splits.find? fun s => s.mask.getLsbD lane with
  | none => w
  | some s =>
    match s.state.park with
    | none => w
    | some st =>
      let rest := { s with mask := s.mask &&& ~~~(laneBit lane) }
      let home := w.others.find? fun t =>
        t.state == st && t.pc == s.pc && t.c == s.c && t.mask &&& mates == t.mask
      let joinTo : Split := match home with
        | none => { s with mask := laneBit lane, state := st }
        | some t => { t with mask := t.mask ||| laneBit lane, age := Nat.max t.age s.age }
      let others := (w.others.filter fun t => t.mask != s.mask && some t.mask != home.map Split.mask) ++ [joinTo]
      let isCur := w.cur.any fun c => c.mask == s.mask
      { w with
        cur := if isCur then if rest.mask == 0 then none else some rest else w.cur
        others := if isCur || rest.mask == 0 then others else others ++ [rest] }

/-- R397: the lanes of a warp whose accesses wait for the memory manager. -/
def Dev.parkedLanes (d : Dev) (id : Nat) : Mask :=
  maskOf ((d.accesses.filter fun e => e.2.party == Party.warp id && e.2.parked && decide (e.2.lane < 32)).map fun e =>
    e.2.lane)

/-- The lanes of an access's instruction that are parked. -/
def Dev.parkedMates (d : Dev) (a : Access) : Mask :=
  maskOf ((d.accesses.filter fun e => e.2.party == a.party && e.2.stamp == a.stamp && e.2.parked).map fun e => e.2.lane)

/-- R397: lanes whose access waits for the memory manager are parked as soon as their split has come out of the
instruction that it waited in. -/
def Dev.parkedAll (d : Dev) (id : Nat) (w : Warp) : Warp :=
  (d.accesses.filter fun e => e.2.party == Party.warp id && e.2.parked && decide (e.2.lane < 32)).foldl
    (fun (w : Warp) e => w.park e.2.lane (d.parkedMates e.2)) w

/-- The warp takes a selection point. -/
def Dev.select (d : Dev) (id : Nat) : Dev :=
  match d.warp? id with
  | none => d
  | some w =>
    let (w, ts) := d.selected id (d.parkedAll id w)
    (d.setWarp id w).addTransfers w ts

/-- R33: after a branch of the current split: if it now merges with another split, that is a selection point. -/
def Dev.mergeCheck (d : Dev) (id : Nat) : Dev :=
  match d.warp? id with
  | none => d
  | some w =>
    match w.cur with
    | none => d
    | some s => if w.others.any fun t => (w.merge? id t s).isSome then d.select id else d

/-- The current split replaced. -/
def Warp.setCur (w : Warp) (s : Split) : Warp := { w with cur := some s }

/-- The current split gone, its place taken by other splits; the selection is due. -/
def Warp.replaceCur (w : Warp) (ss : List Split) : Warp :=
  { w with cur := none, others := w.others ++ ss, last := (w.cur.map Split.mask).getD w.last }

/-- The current split blocked before its instruction issues, and a selection (R30, R405). -/
def Dev.block (d : Dev) (id : Nat) (r : Wait) : Dev :=
  (d.onWarp id fun w =>
    match w.cur with
    | none => w
    | some s => w.replaceCur [{ s with state := .blocked r }]).select id

/-- Every split of the list that satisfies `p`, changed. -/
def Warp.onSplits (w : Warp) (f : Split → Split) : Warp :=
  { w with cur := w.cur.map f, others := w.others.map f }

/-! ## Joins and wsync (R34, R194, R195, R257) -/

/-- R195: entries all of whose threads have exited leave the join stack. -/
def popDead (live : Mask) : List Mask → List Mask
  | [] => []
  | m :: ms => if m &&& live == 0 then popDead live ms else m :: ms

/-- The union of the masks of splits. -/
def unionMask (ss : List Split) : Mask := ss.foldl (fun m s => m ||| s.mask) 0

/-- The splits of the list merged into one split at an address, with the smallest resident count and the largest age
(R54, R399); it is ready once the spills that this takes are done. -/
def joined (ss : List Split) (pc : Va) (c : Nat) : Split where
  mask := unionMask ss
  pc := pc
  c := c
  age := ss.foldl (fun a s => Nat.max a s.age) 0
  state := if ss.all fun s => s.c == c then .ready else .blocked .transfer

/-- R54: the smallest resident count of splits. -/
def leastCount (ss : List Split) : Nat := ss.foldl (fun c s => Nat.min c s.c) 8

/-- Whether every live thread of a mask waits in the given state at one address, which it gives. -/
def Warp.allWaiting (w : Warp) (m : Mask) (st : SplitState) : Option Va :=
  match w.splits.filter fun s => s.mask &&& m != 0 with
  | [] => none
  | s :: ss =>
    if (s :: ss).all fun t => t.state == st && t.pc == s.pc then some s.pc else none

/-- R34, R194, R195: dead entries leave the join stack, and a join whose mask is complete issues: its threads
merge and continue after the one-parcel `join`. A thread that page service holds parked keeps it open (R397). -/
def Warp.settleJoin (id : Nat) (w : Warp) (parked : Mask) : Warp × List Transfer :=
  let js := popDead w.live w.join
  match js with
  | [] => ({ w with join := [] }, [])
  | m :: rest =>
    match w.allWaiting (m &&& w.live) .join with
    | none => ({ w with join := js }, [])
    | some pc =>
      let here := w.splits.filter fun s => s.mask &&& m != 0
      let c := leastCount here
      if parked &&& m &&& w.live != 0 then ({ w with join := js }, [])
      else
        ({ w with
            join := popDead w.live rest
            cur := none
            others := (w.splits.filter fun s => s.mask &&& m == 0) ++ [{ joined here (pc + 2) c with age := 0 }] },
          mergeSpills id here c)

/-- R257: where every live thread waits at one `wsync`, it issues: the threads merge and continue after it. -/
def Warp.settleWsync (id : Nat) (w : Warp) (parked : Mask) : Warp × Bool × List Transfer :=
  if w.live == 0 || parked &&& w.live != 0 then (w, false, [])
  else
    match w.allWaiting w.live .wsync with
    | none => (w, false, [])
    | some pc =>
      let c := leastCount w.splits
      ({ w with cur := none, others := [{ joined w.splits (pc + 2) c with age := 0 }] }, true, mergeSpills id w.splits c)

end Sys2Proof.Machine
end

