-- ==== Sys2Proof/Machine/Records.lean ====
section
/-! DEFINITION. The byte layouts that the device writes: split records, trap frames, replay entries, dump
headers, error records and engine fault records (R116, R388 to R390, R433, R441, R447, R465, R466). -/

namespace Sys2Proof.Machine

open Sys2Proof

/-- Bytes that are 0. -/
def zeros (n : Nat) : List Byte := List.replicate n 0

/-- Bytes followed by 0 up to a length. -/
def padTo (n : Nat) (bs : List Byte) : List Byte := (bs ++ zeros (n - bs.length)).take n

/-- Words, little-endian. -/
def wordBytes (ws : List Word) : List Byte := ws.flatMap fun w => leBytes 4 w.toNat

/-- The words of bytes, little-endian. -/
def bytesWords (bs : List Byte) (n : Nat) : List Word := (List.range n).map fun i => BitVec.ofNat 32 (field bs (4 * i) 4)

/-! ## The handler area (R388) -/

/-- R388: the handler index. -/
def Launch.handlerIndex (l : Launch) (index w : Nat) : Nat :=
  index * (match l.stages with
    | none => l.record.teamWarps
    | some s => s.stages.foldl (fun m t => Nat.max m t.teamWarps) 0) + w

/-- R388: the base H of the handler area of a warp of a launch's team. -/
def Launch.handlerArea (l : Launch) (index w : Nat) : Nat := l.record.handlerStack.toNat + l.handlerIndex index w * 0x8000

/-- R388: the base H of a warp's handler area. -/
def Dev.handlerBase (d : Dev) (team w : Nat) : Nat :=
  match d.team? team, d.launchOf team with
  | some t, some l => l.handlerArea t.index w
  | _, _ => 0

/-! ## Split records (R389) -/

/-- R389: the state byte. -/
def SplitState.byte : SplitState → Nat
  | .ready => 0
  | .join => 1
  | .wsync => 2
  | .parked => 4
  | .parkedAt _ => 4
  | _ => 3

/-- R389: one record of 16 bytes. -/
def splitRecord (depth : Nat) (s : Split) : List Byte :=
  leBytes 8 (s.pc.toNat / 64 * 64) ++ leBytes 4 s.mask.toNat ++ leBytes 2 depth ++ leBytes 1 (s.pc.toNat % 64) ++
    leBytes 1 s.state.byte

/-- R389: the records of a warp, by ascending lowest lane, in 512 bytes. -/
def Warp.splitRecords (w : Warp) : List Byte :=
  padTo 512 ((sortSplits w.splits).flatMap fun s => splitRecord (w.depth s) s)

/-- R388: the join stack, bottom entry first, in 64 bytes. -/
def joinBytes (js : List Mask) : List Byte := padTo 64 (wordBytes js.reverse)

/-! ## Replay entries (R390) -/

/-- R390: an instruction's parcels, the first in [63:48], zero-filled. -/
def instrDword (i : Instr) : Dword :=
  match encode i with
  | some [a] => a ++ 0#48
  | some [a, b] => a ++ b ++ 0#32
  | some [a, b, c, e] => a ++ b ++ c ++ e
  | _ => 0

/-- R390: one entry of 656 bytes. -/
def replayBytes (e : ReplayEntry) : List Byte :=
  leBytes 8 (instrDword e.instr).toNat ++ leBytes 4 e.mask.toNat ++ leBytes 2 (e.ddepth.getD 0xFFFF) ++
    leBytes 1 e.cause.toNat ++ leBytes 1 e.discard.toNat ++
    (List.range 32).flatMap (fun l => leBytes 8 (e.ea.getD l 0).toNat) ++
    (List.range 32).flatMap fun l => padTo 12 (wordBytes (e.cells.getD l []))

/-! ## The trap frame (R388) -/

/-- R388: the lanes parked by page service. -/
def Warp.parkedLanes (w : Warp) : Mask := unionMask (w.splits.filter fun s => s.state.unpark != s.state)

/-- R388: the frame of 0x2D00 bytes. -/
def trapFrame (w : Warp) (p : Posted) (reps : List ReplayEntry) : List Byte :=
  leBytes 1 p.cause.toNat ++ leBytes 1 p.tflags.toNat ++ leBytes 2 p.code.toNat ++ leBytes 4 p.lanes.toNat ++
    leBytes 8 p.pc.toNat ++ leBytes 8 p.va.toNat ++ leBytes 1 w.splits.length ++ leBytes 1 w.join.length ++
    leBytes 1 reps.length ++ leBytes 1 p.origin ++ leBytes 4 w.parkedLanes.toNat ++ w.splitRecords ++
    joinBytes w.join ++ padTo 256 (wordBytes w.k) ++ leBytes 1 w.kp.toNat ++ zeros 31 ++ padTo 32 p.erec ++
    zeros 96 ++ padTo 10496 (reps.flatMap replayBytes)

/-! ## Other records -/

/-- R433: the engine fault record. -/
def engineRecord (kind fcode status unit : Nat) (tag : Nat) (va : Nat) (row col done time : Nat) : List Byte :=
  leBytes 1 kind ++ leBytes 1 fcode ++ leBytes 1 status ++ leBytes 1 unit ++ leBytes 4 tag ++ leBytes 8 va ++
    leBytes 2 row ++ leBytes 2 col ++ leBytes 4 done ++ leBytes 8 time

/-- R116: the error record; byte 6 holds the code that R365, R368, R430 and others give. -/
def errorRecord (tag : BitVec 32) (status opcode byte6 word : Nat) : List Byte :=
  leBytes 4 tag.toNat ++ leBytes 1 status ++ leBytes 1 opcode ++ leBytes 1 byte6 ++ [0] ++ leBytes 8 word

/-- R465: the context dump header. -/
def dumpHeader (cause : BitVec 8) (slot team va gtime : Nat) (handle : Dword) : List Byte :=
  leBytes 1 cause.toNat ++ leBytes 1 (if cause = 0x18 then 1 else 0) ++ leBytes 2 slot ++ leBytes 4 team ++
    leBytes 8 va ++ leBytes 8 gtime ++ leBytes 8 handle.toNat ++ zeros 32

/-- R441: the mask of a team's warps that have a live thread. -/
def Dev.liveWarps (d : Dev) (team : Nat) : BitVec 32 :=
  maskOf ((d.warps.filter fun e => e.2.team == team && !e.2.threads.isEmpty).map fun e => e.2.w)

/-- The clock of the cluster of a core. -/
def Dev.clockOf (d : Dev) (core : Nat) : Nat := (d.cluster (clusterOf core)).clock

/-- R466: the 32-byte header with the payload. The management controller stamps IEEE 1588 time, of which gtime
is the nanosecond count (R156). -/
def OobRecord.bytes (module seq : Nat) (r : OobRecord) : List Byte :=
  leBytes 1 r.rtype ++ leBytes 1 r.severity ++ leBytes 2 (32 + r.payload.length) ++ leBytes 4 seq ++
    leBytes 6 (r.gtime / 1000000000) ++ zeros 2 ++ leBytes 4 (r.gtime % 1000000000) ++ leBytes 2 module ++
    leBytes 2 (if r.slot < 64 then r.slot else 0xFFFF) ++ leBytes 8 r.source.toNat ++ r.payload

/-- R466: a record goes out of band. -/
def Dev.report (d : Dev) (rtype severity slot source : Nat) (payload : List Byte) : Dev :=
  { d with oob := d.oob ++ [⟨rtype, severity, slot, BitVec.ofNat 64 source, d.gtime, payload⟩] }

/-! ## Descriptors of a command stream (R104) -/

/-- R404: where a byte of a core's region of a context's save area lies; none where nothing has been written to its
page. -/
def Dev.savedPa (d : Dev) (slot core off : Nat) : Option Nat :=
  let a := core * 0x800000 + off
  (Table.find? (d.context slot).savePages (a / pageBytes)).map (· + a % pageBytes)

/-- R404: the place of a warp's record in its core's region of the save area. -/
def Warp.recordOff (w : Warp) : Nat := 0x0E0000 + (24 * w.lb + w.slot) * 0x6000

/-- R44, R102, R404: the counter of a class, and the sticky flags, of an evicted warp in its save record. A warp that has ended
has no record any more. -/
def Dev.patchRecord (d : Dev) (id cls : Nat) : Dev :=
  match d.warp? id with
  | none => d
  | some w =>
    if w.place == .resident || w.threads.isEmpty then d
    else
      let put := fun (d : Dev) (off v : Nat) =>
        match d.savedPa (d.slotOf w.team) w.core (w.recordOff + off) with
        | none => d
        | some pa => d.putBytes pa (leBytes 1 v)
      put (put d (8 + cls) (cntGet w.cnt cls)) 6 w.flags.toNat

/-- R104: the address of stream N's descriptor. -/
def Dev.descriptorVa (d : Dev) (slot n : Nat) : Nat := (d.context slot).streamTable.toNat + 64 * n

/-- The stream of a context slot changed. -/
def Dev.onStream (d : Dev) (slot n : Nat) (f : CmdStream → CmdStream) : Dev :=
  d.onContext slot fun c => { c with streams := Table.set c.streams n (f (c.stream n)) }

/-- R104: the word of the next unstarted command: that of a GRAPH whose commands are still being read. -/
def CmdStream.position (s : CmdStream) : Nat :=
  match s.building with
  | none => s.rd
  | some b => b.word

/-- R104: the device's position written to rd_ptr. A descriptor that can no longer be written keeps what it
holds. -/
def Dev.storeRd (h : HostPart) (d : Dev) (slot n : Nat) : Dev :=
  match d.writeVa h slot (processorCore slot) (d.descriptorVa slot n + 24) (leBytes 8 ((d.context slot).stream n).position) with
  | .ok d => d
  | .error (_, d) => d

/-- R116: the stream stops at its next unstarted command; a graph that has not started is read again from its GRAPH. -/
def CmdStream.halted (s : CmdStream) : CmdStream :=
  { s with stopped := true, failed := true, rd := s.position, building := none }

/-- R104, R116: a command fails: the stream stops, its own position overwriting what the host has written to rd_ptr while it
ran, and the first failure since its last start is recorded. DESIGN CHOICE
(notes/assumptions/40.md): where `err_rec` cannot be written, the record is dropped, and the failure counts as recorded;
the spec says what happens only for a refused descriptor. -/
def Dev.failCommand (h : HostPart) (d : Dev) (slot n : Nat) (tag : BitVec 32) (status opcode byte6 word : Nat) : Dev :=
  let s := (d.context slot).stream n
  let d := if s.stopped then d.onStream slot n CmdStream.halted else (d.onStream slot n CmdStream.halted).storeRd h slot n
  if s.failed then d
  else
    match d.writeVa h slot (processorCore slot) s.errRec.toNat (errorRecord tag status opcode byte6 word) with
    | .ok d => d
    | .error (_, d) => d

end Sys2Proof.Machine
end

