-- ==== Sys2Proof/Machine/Replay.lean ====
section
/-! DEFINITION. The accesses of a warp that cannot finish, and the replay queue that holds them (R223, R240, R387, R390). -/

namespace Sys2Proof.Machine

open Sys2Proof

/-! ## Accesses that cannot finish -/

/-- The bytes of two accesses overlap. -/
def Access.overlaps (a b : Access) : Bool :=
  decide (a.va.toNat < b.va.toNat + b.bytes) && decide (b.va.toNat < a.va.toNat + a.bytes)

/-- R223, R240: an earlier access of the same party that has to perform first. A lane that is parked or refused
holds back no other lane that is not (R397). -/
def Access.before (e a : Access) : Bool :=
  e.party == a.party && e.result.isNone &&
    ((e.stamp == a.stamp && decide (e.lane < a.lane) && !e.parked && e.cause == 0) ||
      (e.overlaps a && (e.lane == a.lane || e.lane == 32 || a.lane == 32)))

/-- The address of the whole access of which one word's access is a part. -/
def Access.ea (a : Access) : Dword := a.va - BitVec.ofNat 64 (4 * a.part)

/-- R387, R390, R397: the accesses of a party that cannot finish: those whose translation failed, those that were
refused, and those that come after one of these. -/
def Dev.unfinishedAccesses (d : Dev) (p : Party) : List Nat :=
  d.accesses.foldl (fun acc e =>
    if e.2.party == p && e.2.result.isNone &&
        ((e.2.pa.isNone && e.2.parked) || e.2.cause != 0 || e.2.deps.any acc.contains ||
          d.accesses.any fun f => acc.contains f.1 && f.2.before e.2) then acc ++ [e.1]
    else acc) []

/-! ## The replay queue at a trap (R387, R390) -/

/-- The position of a ticket's cell in a thread's stack, 0 for the deepest cell. -/
def Thread.position (t : Thread) (tickets : List Nat) : Option Nat :=
  t.stack.reverse.findIdx? fun c => match c.ticket? with
    | some k => tickets.contains k
    | none => false

/-- R390: the position of the deepest destination cell. -/
def deepest (w : Warp) (as : List Access) : Option Nat :=
  (as.filterMap fun a => (w.thread? a.lane).bind fun t => t.position a.tickets).foldl
    (fun best n => match best with
      | none => some n
      | some m => some (Nat.min m n)) none

/-- The accesses of one lane, its effective address and its captured cells. -/
def laneValue {α : Type} (as : List Access) (absent : α) (f : Access → α) : List α :=
  (List.range 32).map fun l => ((as.find? fun a => a.lane == l).map f).getD absent

/-- R390, R392: the entries of one instruction, from those of its accesses that cannot finish. A re-injected half of a
`st.q` has one entry. -/
def replayEntries (w : Warp) (stamp : Nat) (as : List Access) : List ReplayEntry :=
  match as.head? with
  | none => []
  | some a =>
    let mask := maskOf (as.map Access.lane)
    let cause := (as.foldl (fun c a => if c = 0 then a.cause else c) 0)
    let tickets := (lanesOf mask).map fun l => (l, ((as.find? fun a => a.lane == l).map Access.tickets).getD [])
    let entry := fun (depth : Option Nat) (off : Nat) (f : Access → List Word) =>
      (⟨stamp, a.instr, a.pc, mask, depth, cause, false, laneValue as 0 fun a => a.ea + BitVec.ofNat 64 off,
        laneValue as [] f, tickets⟩ : ReplayEntry)
    match a.instr with
    | .st _ _ _ =>
      if a.width = 16 then [entry none 0 fun a => a.data.take 2, entry none 8 fun a => a.data.drop 2]
      else [entry none 0 Access.data]
    | .cas _ _ _ _ _ size =>
      if size = 1 then [entry (deepest w as) 0 Access.expect, entry none 0 Access.data]
      else [entry (deepest w as) 0 fun a => a.expect ++ a.data]
    | _ => [entry (deepest w as) 0 Access.data]

/-- R390: the replay queue of a warp, oldest first. -/
def Dev.replayQueue (d : Dev) (id : Nat) (w : Warp) : List ReplayEntry :=
  let ids := d.unfinishedAccesses (.warp id)
  let mine := (d.accesses.filter fun e => ids.contains e.1 && decide (e.2.lane < 32)).map Prod.snd
  let stamps := (mine.map Access.stamp).eraseDups
  stamps.flatMap fun st => replayEntries w st (mine.filter fun a => a.stamp == st)

end Sys2Proof.Machine
end

