-- ==== Sys2Proof/Machine/Units.lean ====
section
/-! DEFINITION. The units of work: how a warp, a team, a stage, a launch, a node and a graph end, and the
termination of a context (R21 to R26, R111, R335, R340, R430, R444, R461, R464). -/

namespace Sys2Proof.Machine

open Sys2Proof

/-! ## Warps in their lane blocks -/

/-- The warp leaves its lane block; a pending warp takes a free place in the active set, at rank 7 (R36). DESIGN CHOICE
(notes/assumptions/41.md): it is the one that has waited longest, whether or not it is ready; R36 does not say which. -/
def LaneBlock.leave (b : LaneBlock) (id : Nat) : LaneBlock :=
  let active := b.active.filter (· != id)
  let pending := b.pending.filter (· != id)
  let b := { b with
    run := if b.run.1 = id then (0, 0) else b.run
    follow := if b.follow.any (fun (f : Nat × Instr × Va) => f.1 == id) then none else b.follow
    transfers := b.transfers.filter fun t => t.warp != id
    loop := b.loop.filter fun e => e.1 != id
    arrivals := b.arrivals.filter fun e => e.1 != id }
  if active.length < 8 then
    { b with active := active ++ pending.take 1, pending := pending.drop 1 }
  else { b with active := active, pending := pending }

/-- The requests in a queue unit that `gone` names are withdrawn (R331). -/
def Dev.withdraw (d : Dev) (gone : QueueRequest → Bool) : Dev :=
  { d with launches := d.launches.map fun e =>
      (e.1, { e.2 with stages := e.2.stages.map fun ss =>
        { ss with
          queues := ss.queues.map fun q => { q with requests := q.requests.filter fun r => !gone r }
          moved := ss.moved || ss.queues.any fun q => q.requests.any gone } }) }

/-- Accesses of a party that no page is found for, and loads not yet sent back, go with it. -/
def Dev.dropAccesses (d : Dev) (p : Party) : Dev :=
  { d with accesses := d.accesses.filter fun e =>
      !(e.2.party == p && (e.2.pa.isNone || e.2.kind == AccessKind.load)) }

/-- R201: the loads in flight of some lanes of a party are dropped, and its uniform loads where no thread is left. -/
def Dev.dropLoads (d : Dev) (p : Party) (lanes : Mask) (last : Bool) : Dev :=
  { d with accesses := d.accesses.filter fun e =>
      !(e.2.party == p && e.2.kind == AccessKind.load && (lanes.getLsbD e.2.lane || (last && e.2.lane == 32))) }

/-- R57: forwarding entries of some warps go with their slice bytes. -/
def Dev.dropForwards (d : Dev) (gone : Nat → Bool) : Dev :=
  { d with cores := d.cores.map fun (e : Nat × Core) => (e.1, { e.2 with lbs := e.2.lbs.map fun (b : Nat × LaneBlock) =>
      (b.1, { b.2 with forwards := b.2.forwards.filter fun f => !gone f.warp }) }) }

/-- The warp has no live thread any more (R195, R201): it frees its slot. The entry stays until its team is
complete, for its place in the team (R403). -/
def Dev.leaveWarp (d : Dev) (id : Nat) : Dev :=
  match d.warp? id with
  | none => d
  | some w =>
    let d := (d.onLb w.core w.lb fun b => b.leave id).withdraw fun r => r.warp == id && r.poll.isNone
    d.onWarp id fun w =>
      { w with threads := [], cur := none, others := [], join := [], posted := [], replay := [], handler := none }

/-- The warp is terminated where it stands (R26): an access whose translation has not been found goes with it, and so
do the copies of queue records that it waits for. -/
def Dev.endWarp (d : Dev) (id : Nat) : Dev :=
  let d := ((d.leaveWarp id).dropAccesses (.warp id)).withdraw fun r => r.warp == id
  { d with queueCopies := d.queueCopies.filter fun q => q.warp != id }

/-- A front-end context ends (R219): it is stopped, and its streams with it. -/
def Dev.endFet (d : Dev) (id : Nat) : Dev :=
  let d := { d with decisions := d.decisions.filter fun e => e.2.fet != id }
  (d.dropAccesses (.fet id)).onFet id fun f => { f with ended := true, streams := [], stalled := none }

/-! ## Teams -/

/-- The warps of a team, by number. -/
def Dev.teamWarps (d : Dev) (team : Nat) : List Nat := (d.warps.filter fun e => e.2.team == team).map Prod.fst

/-- The front-end contexts of a team. -/
def Dev.teamFets (d : Dev) (team : Nat) : List Nat := (d.fets.filter fun e => e.2.team == team).map Prod.fst

/-- A warp of the team has a live thread. -/
def Dev.teamLive (d : Dev) (team : Nat) : Bool := d.warps.any fun e => e.2.team == team && !e.2.threads.isEmpty

/-- The team's lowest-numbered live warp (R402, R403). -/
def Dev.lowestWarp (d : Dev) (team : Nat) : Option Nat :=
  ((d.warps.filter fun e => e.2.team == team && !e.2.threads.isEmpty).foldl
    (fun best e => match best with
      | none => some (e.1, e.2.w)
      | some (i, w) => if e.2.w < w then some (e.1, e.2.w) else some (i, w)) none).map Prod.fst

/-- R25: the team's completion counter, its live warps and its outstanding engine operations, with what its warps and
front-end contexts have asked of memory and has not come about: accesses, requests to seal, copies of queue records. -/
def Dev.teamCounter (d : Dev) (team : Nat) : Nat :=
  (d.warps.filter fun e => e.2.team == team && !e.2.threads.isEmpty).length +
    (d.ops.filter fun e => e.2.team == team).length +
    (d.accesses.filter fun e => d.partyTeam e.2.party == some team && e.2.result.isNone).length +
    (d.seals.filter fun e => d.partyTeam e.2.party == some team).length +
    (d.bufferWrites.filter fun b => d.partyTeam (.warp b.warp) == some team).length

/-- The pages of a core's slice that hold a team's shared bytes. -/
def Dev.sharedPagesOn (d : Dev) (team core : Nat) : List Nat :=
  ((d.core core).pages.filter fun p => p.2 == .shared team).map Prod.fst

/-- The team's slice pages and reserved bytes on a core are given back, and its shared pages unmapped (R24). -/
def Dev.freeTeamOn (d : Dev) (team slot core : Nat) : Dev :=
  let mine := d.sharedPagesOn team core
  let d := mine.foldl (fun d k => (d.unmapPage slot (sliceVa core + k * pageBytes)).dropTlb slot
    (sliceVa core + k * pageBytes) pageBytes) d
  d.onCore core fun c => { c with pages := mine.foldl Table.erase c.pages }.giveBack fun r => r == Holder.team team

/-- The cores on which a team holds bytes. -/
def Team.cores (t : Team) : List Nat :=
  let start := if t.core = t.start then [] else [t.start]
  t.core :: start ++ t.follower.toList

/-- What a team holds is given back: its slice bytes, its warps and its front-end context. -/
def Dev.releaseTeam (d : Dev) (team : Nat) : Dev :=
  match d.team? team with
  | none => d
  | some t =>
    let d := t.cores.foldl (fun d j => d.freeTeamOn team (d.slotOf team) j) d
    let d := d.dropForwards fun id => d.partyTeam (.warp id) == some team
    { d with
      warps := d.warps.filter fun e => e.2.team != team
      fets := d.fets.filter fun e => e.2.team != team
      accesses := d.accesses.filter fun e => d.partyTeam e.2.party != some team
      arrivals := d.arrivals.filter fun e => e.2.team != team
      decisions := d.decisions.filter fun e => e.2.team != team }

/-- R81: an access in flight uses a page of the team's shared bytes, which are not unmapped before it has performed. -/
def Dev.sharedUsed (d : Dev) (team : Nat) (t : Team) : Bool :=
  t.cores.any fun j => (d.sharedPagesOn team j).any fun k => d.frameUsed (slicePa j + k * pageBytes)

/-- R338: the core that a donor team leaves is kept for the recipient. -/
def StageSet.freeCore (ss : StageSet) (team core : Nat) : StageSet :=
  { ss with stages := ss.stages.map fun s =>
      match s.handover with
      | some (_, false, t) => if t = team then { s with freed := some core } else s
      | _ => s }

/-- R25: a team whose counter is 0 is complete. A team that R461 ended waits for its relaunch or the rollback. -/
def Dev.settleTeam (d : Dev) (team : Nat) : Dev :=
  match d.team? team with
  | none => d
  | some t =>
    if t.complete || t.ended || d.teamCounter team != 0 || d.sharedUsed team t then d
    else
      let d := (d.releaseTeam team).onTeam team fun t => { t with complete := true }
      if t.donor then
        d.onLaunch t.launch fun l => { l with stages := l.stages.map fun ss => ss.freeCore team t.core }
      else d

/-- The threads of a team's warps end, and its front-end context with them (R26, R461). -/
def Dev.stopTeam (d : Dev) (team : Nat) : Dev :=
  let d := (d.teamWarps team).foldl Dev.endWarp d
  (d.teamFets team).foldl Dev.endFet d

/-! ## Stages (R335, R338, R340, R444) -/

/-- The queues that a stage's ports of one direction name. -/
def Stage.queues (s : Stage) (out : Bool) : List Nat :=
  s.ports.filterMap fun p => match p with
    | some q => if q.out = out then some q.queue else none
    | none => none

/-- The entry of a list, or another value. -/
def nth {α : Type} (xs : List α) (n : Nat) (absent : α) : α := xs.getD n absent

/-- An entry of a list changed. -/
def changeAt {α : Type} : List α → Nat → (α → α) → List α
  | [], _, _ => []
  | x :: xs, 0, f => f x :: xs
  | x :: xs, n + 1, f => x :: changeAt xs n f

/-- A queue that holds nothing and is not declared. -/
def Queue.none : Queue := ⟨0, 0, 0, [], [], false, false, []⟩

/-- R335: each of the stage's in queues is ended. -/
def StageSet.closing (ss : StageSet) (s : Stage) : Bool :=
  (s.queues false).all fun q => (nth ss.queues q Queue.none).ended

/-- The stage that has a queue as a port of one direction. -/
def StageSet.stageOf (ss : StageSet) (q : Nat) (out : Bool) : Nat :=
  ss.stages.findIdx fun s => (s.queues out).contains q

/-- The teams of a stage of a launch that have a live thread. -/
def Dev.liveStageTeams (d : Dev) (launch k : Nat) : List Nat :=
  (d.teams.filter fun e => e.2.launch == launch && e.2.stage == some k && d.teamLive e.1).map Prod.fst

/-- R335: the queue is ended now, if its producing stage is closing and every live team of it is finished. -/
def Dev.endedNow (d : Dev) (launch : Nat) (ss : StageSet) (q : Nat) : Bool :=
  let k := ss.stageOf q true
  match ss.stages[k]? with
  | none => false
  | some s =>
    ss.closing s &&
      (d.liveStageTeams launch k).all fun t => ((d.team? t).map fun t => t.eos.contains q).getD true

/-- Each queue ended that is to be. -/
def Dev.endQueues (d : Dev) (launch : Nat) (ss : StageSet) : StageSet :=
  { ss with queues := ss.queues.mapIdx fun n q => { q with ended := q.ended || d.endedNow launch ss n } }

/-- Queues end one after another along the stages, of which there are at most 8. -/
def Dev.endAll (d : Dev) (launch : Nat) : Nat → StageSet → StageSet
  | 0, ss => ss
  | n + 1, ss => Dev.endAll d launch n (d.endQueues launch ss)

/-- R444: the stage has no live team, no handover, and input left. A team that R461 has ended has not exited: its stage waits
for its relaunch, or for the rollback. -/
def Dev.abandonedNow (d : Dev) (launch k : Nat) (ss : StageSet) (s : Stage) : Bool :=
  !s.complete && s.handover.isNone && (d.liveStageTeams launch k).isEmpty &&
    (d.teams.all fun e => !(e.2.launch == launch && e.2.stage == some k && e.2.ended && !e.2.complete)) &&
    (s.queues false).any fun q => let u := nth ss.queues q Queue.none
      !(u.ended && u.records.isEmpty)

/-- R444: an abandoned stage's in queues with input are abandoned, and their records discarded. -/
def StageSet.abandon (ss : StageSet) (s : Stage) (k : Nat) : StageSet :=
  { ss with
    stages := changeAt ss.stages k fun s => { s with complete := true, abandoned := true }
    queues := (s.queues false).foldl (fun qs q => changeAt qs q fun u =>
      if u.ended && u.records.isEmpty then u else { u with abandoned := true, records := [] }) ss.queues }

/-- R338: a handover to a stage that is closing ends once the core is free, and the core counts for neither. -/
def StageSet.endHandovers (ss : StageSet) : StageSet :=
  let done := ss.stages.filterMap fun s =>
    match s.handover with
    | some (_, false, team) => if s.freed.isSome && ss.closing s then some team else none
    | _ => none
  { ss with stages := ss.stages.map fun s =>
      match s.handover with
      | some (_, _, team) =>
        if done.contains team then
          { s with handover := none, freed := none }
        else s
      | none => s }

/-- R340: the stages that are complete. -/
def Dev.completeStages (d : Dev) (launch : Nat) (ss : StageSet) : StageSet :=
  { ss with stages := ss.stages.mapIdx fun k s =>
      if !s.complete && ss.closing s &&
          ((s.queues false).all fun q => (nth ss.queues q Queue.none).records.isEmpty) &&
          d.teams.all (fun e => !(e.2.launch == launch && e.2.stage == some k) || e.2.complete) then
        { s with complete := true }
      else s }

/-- A trap that waits for the warp's next issue boundary (R387). -/
def Dev.post (d : Dev) (id : Nat) (p : Posted) : Dev := d.onWarp id fun w => { w with posted := w.posted ++ [p] }

/-- The split that waits in a queue request is ready again at its instruction. -/
def Warp.unqueue (w : Warp) (request : Nat) : Warp :=
  w.onSplits fun s => if s.state == .queue request then { s with state := .ready } else s

/-- R444: a waiting `qpush` on an abandoned queue traps with STAGE_CLOSED. -/
def Dev.closePush (d : Dev) (r : QueueRequest) : Dev :=
  match d.warp? r.warp with
  | none => d
  | some w =>
    let pc := ((w.splits.find? fun s => s.state == .queue r.id).map Split.pc).getD 0
    (d.onWarp r.warp fun w => w.unqueue r.id).post r.warp
      ⟨r.id, 0x1B, 0, 0, maskOf (r.lanes.map Prod.fst), pc, 0, 0, []⟩

/-- The pushes that wait on abandoned queues trap. -/
def Dev.closePushes (d : Dev) (launch : Nat) : Dev :=
  match (d.launch? launch).bind Launch.stages with
  | none => d
  | some ss =>
    let waiting := (ss.queues.filter Queue.abandoned).flatMap fun q => q.requests.filter QueueRequest.push
    let d := waiting.foldl Dev.closePush d
    d.onLaunch launch fun l => { l with stages := l.stages.map fun ss => { ss with queues := ss.queues.map fun q =>
      if q.abandoned then { q with requests := q.requests.filter fun r => !r.push } else q } }

/-- R327, R340: the queue storage is given back. -/
def Dev.freeQueues (d : Dev) (launch : Nat) (ss : StageSet) : Dev :=
  (ss.queues.map Queue.home).foldl (fun d j => d.onCore j fun c => c.giveBack fun r => match r with
    | .queue l _ => l == launch
    | .team _ => false) d

/-- R335, R338, R340, R444 for one launch. The last stage to complete frees the queue storage. -/
def Dev.settleStages (d : Dev) (launch : Nat) : Dev :=
  match d.launch? launch with
  | none => d
  | some l =>
    match l.stages with
    | none => d
    | some ss =>
      if !ss.started || l.complete then d
      else
        let ss := (d.endAll launch 9 ss).endHandovers
        let lost := if l.cancelled || !l.again.isEmpty then [] else
          (List.range ss.stages.length).filter fun k =>
            match ss.stages[k]? with
            | none => false
            | some s => d.abandonedNow launch k ss s
        let ss := lost.foldl (fun ss k => match ss.stages[k]? with
          | none => ss
          | some s => ss.abandon s k) ss
        let ss := d.completeStages launch ss
        let d := d.onLaunch launch fun l =>
          { l with
            stages := some ss
            faulted := l.faulted || !lost.isEmpty
            cause := if lost.isEmpty || l.faulted then l.cause else 0x1B }
        let d := if lost.isEmpty then d else d.closePushes launch
        if ss.stages.all Stage.complete then d.freeQueues launch ss else d

/-! ## Launches, nodes and graphs -/

/-- The teams of a grid (R21, R108). -/
def LaunchRecord.teams (r : LaunchRecord) : Nat := r.grid.1 * r.grid.2.1 * r.grid.2.2

/-- R25: the launch's completion counter: its teams not yet complete, and its stages not yet complete. Teams of
a cancelled launch that have not been placed are none (R26). -/
def Dev.launchCounter (d : Dev) (launch : Nat) (l : Launch) : Nat :=
  (d.teams.filter fun e => e.2.launch == launch && !e.2.complete).length +
    (if l.cancelled then 0
     else l.again.length + match l.stages with
       | none => l.record.teams - l.next
       | some ss => (ss.stages.filter fun s => !s.complete).length)

/-- R110: a node is done, and its successors have one predecessor fewer. -/
def Graph.nodeDone (g : Graph) (n : Nat) : Graph :=
  let succs := (g.nodes[n]?.map Node.succs).getD []
  let nodes := changeAt g.nodes n fun x => { x with state := .done }
  { g with nodes := succs.foldl (fun ns k => changeAt ns k fun x => { x with preds := x.preds - 1 }) nodes }

/-- R110, R25: a graph is complete when its nodes are. -/
def Graph.settle (g : Graph) : Graph :=
  if !g.cancelled && g.nodes.all fun n => n.state == NodeState.done then { g with complete := true } else g

/-- A node of a graph completes. -/
def Dev.nodeDone (d : Dev) (graph n : Nat) : Dev :=
  { d with graphs := Table.modify d.graphs graph fun g => (g.nodeDone n).settle }

/-- R116: the failure of a command that runs as a node. -/
def Dev.failNode (h : HostPart) (d : Dev) (graph n status byte6 : Nat) : Dev :=
  match Table.find? d.graphs graph with
  | none => d
  | some g =>
    match g.nodes[n]? with
    | none => d
    | some x =>
      let opcode := if g.opcode = 4 then 5 else g.opcode
      d.failCommand h g.slot g.stream x.tag status opcode byte6 x.word

/-- R25, R116, R462: a launch whose counter is 0 is complete: its snapshots are dropped, its status reported,
and its node done. DESIGN CHOICE (notes/assumptions/48.md): a launch that faulted and was cancelled is reported as FAULT; the
spec gives no precedence. -/
def Dev.settleLaunch (h : HostPart) (d : Dev) (launch : Nat) : Dev :=
  match d.launch? launch with
  | none => d
  | some l =>
    if l.complete || d.launchCounter launch l != 0 then d
    else
      let d := d.onLaunch launch fun l => { l with complete := true }
      let d := match l.stages with
        | none => d
        | some ss => d.freeQueues launch ss
      let d := if l.record.rollback then d.dropSnapshots h l.slot else d
      let d := if l.faulted then d.failNode h l.graph l.node 0x08 l.cause.toNat
        else if l.cancelled && !(Table.find? d.graphs l.graph).any Graph.cancelled then d.failNode h l.graph l.node 0x06 0
        else d
      d.nodeDone l.graph l.node

/-- R26, R112: the nodes of a cancelled graph that have not started count as complete; once the others are complete,
the graph is, and its command is reported as CANCELLED. -/
def Dev.settleGraph (h : HostPart) (d : Dev) (graph : Nat) : Dev :=
  match Table.find? d.graphs graph with
  | none => d
  | some g =>
    if !g.cancelled || g.complete then d
    else
      let nodes := g.nodes.map fun (n : Node) => if n.state == NodeState.waiting then { n with state := .done } else n
      if nodes.all fun n => n.state == NodeState.done then
        (d.setGraph graph { g with nodes := nodes, complete := true }).failCommand h g.slot g.stream g.tag 0x06 g.opcode 0 g.word
      else d.setGraph graph { g with nodes := nodes }

/-- Every unit whose completion counter has reached 0 is complete (R25). -/
def Dev.settle (h : HostPart) (d : Dev) : Dev :=
  let d := (d.teams.map Prod.fst).foldl Dev.settleTeam d
  let d := (d.launches.map Prod.fst).foldl Dev.settleStages d
  let d := (d.launches.map Prod.fst).foldl (Dev.settleLaunch h) d
  (d.graphs.map Prod.fst).foldl (Dev.settleGraph h) d

/-! ## Cancel (R26) -/

/-- The team is cancelled. -/
def Dev.cancelTeam (d : Dev) (team : Nat) : Dev := d.stopTeam team

/-- The launch is cancelled: it places no further team, and its warps end. -/
def Dev.cancelLaunch (d : Dev) (launch : Nat) : Dev :=
  match d.launch? launch with
  | none => d
  | some l =>
    if l.complete then d
    else
      let d := d.onLaunch launch fun l => { l with cancelled := true, again := [] }
      ((d.teams.filter fun e => e.2.launch == launch && !e.2.complete).map Prod.fst).foldl
        (fun d t => (d.cancelTeam t).onTeam t fun t => { t with ended := false }) d

/-- The graph is cancelled, and the launches that run as its nodes. -/
def Dev.cancelGraph (d : Dev) (graph : Nat) : Dev :=
  let d := { d with graphs := Table.modify d.graphs graph fun g => if g.complete then g else { g with cancelled := true } }
  ((d.launches.filter fun e => e.2.graph == graph).map Prod.fst).foldl Dev.cancelLaunch d

/-! ## Termination of a context (R430, R441, R464) -/

/-- The context's stream holds an unfinished command. -/
def Dev.unfinished (d : Dev) (slot n : Nat) : Bool :=
  let s := (d.context slot).stream n
  s.building.isSome || s.waiting.isSome || s.phase || (!s.stopped && decide (s.rd < s.wr)) ||
    d.seals.any (fun e => e.2.party == Party.stream slot n) ||
    d.graphs.any fun e => e.2.slot == slot && e.2.stream == n && !e.2.complete

/-- The unfinished commands of a stream that have started, with their tags, opcodes and words: its graphs and SEAL
commands, and an open WAIT of three words. -/
def Dev.startedCommands (d : Dev) (slot n : Nat) : List (BitVec 32 × Nat × Nat) :=
  let s := (d.context slot).stream n
  ((d.graphs.filter fun e => e.2.slot == slot && e.2.stream == n && !e.2.complete).map fun e =>
      (e.2.tag, e.2.opcode, e.2.word)) ++
    ((d.seals.filter fun e => e.2.party == Party.stream slot n).map fun e => (e.2.tag, 0x11, e.2.word)) ++
    (s.waiting.map fun w => (w.1, 0x08, s.rd - 3)).toList

/-- The command that an error record of a terminated stream names: the oldest unfinished one, a PHASE at which it stands
(R111), or the next one (notes/assumptions/40.md). -/
def Dev.oldestCommand (h : HostPart) (d : Dev) (slot n : Nat) : BitVec 32 × Nat × Nat :=
  let s := (d.context slot).stream n
  match (d.startedCommands slot n).foldl (fun (best : Option (BitVec 32 × Nat × Nat)) c => match best with
      | none => some c
      | some b => if c.2.2 < b.2.2 then some c else some b) none with
  | some c => c
  | none =>
    let word := if s.phase then s.rd - 1 else s.position
    match d.readValue h slot (processorCore slot) (s.ring.toNat + 8 * (word % s.words)) 8 with
    | .ok (v, _) => (BitVec.ofNat 32 (v / 2 ^ 32), v % 256, word)
    | .error (_, _) => (0, 0, word)

/-- R430 step 4: one stream stops. -/
def Dev.stopStream (h : HostPart) (slot : Nat) (cause : BitVec 8) (d : Dev) (n : Nat) : Dev :=
  if d.unfinished slot n then
    let (tag, opcode, word) := d.oldestCommand h slot n
    (d.failCommand h slot n tag 0x08 opcode cause.toNat word).onStream slot n fun s =>
      { s with building := none, waiting := none, phase := false, loops := [] }
  else d

/-- R430 step 1: the warps and front-end contexts that remain are those of other contexts. -/
def Dev.dropContextWarps (d : Dev) (slot : Nat) : Dev :=
  let gone := (d.warps.filter fun e => d.slotOf e.2.team == slot).map Prod.fst
  let d := (gone.foldl Dev.endWarp d).dropForwards gone.contains
  { d with
    warps := d.warps.filter fun e => d.slotOf e.2.team != slot
    fets := d.fets.filter fun e => d.slotOf e.2.team != slot }

/-- A core as a context leaves it: its segments, matrix state, engine work and reserved bytes are freed; its
teams' shared pages stay mapped until the slot closes. -/
def Dev.leaveCore (d : Dev) (slot : Nat) (c : Core) : Core :=
  let c := { c with
    segments := c.segments.filter fun e => e.2.slot != slot || e.2.state == SegmentState.free
    matrix := if c.matrix.owner = some slot then Matrix.reset else c.matrix
    engine := c.engine.filter fun o => o.slot != slot
    pages := c.pages.map fun (p : Nat × PageOwner) => match p.2 with
      | PageOwner.shared t => (p.1, if d.slotOf t = slot then PageOwner.context slot else p.2)
      | _ => p }
  c.giveBack fun r => match r with
    | .team t => d.slotOf t == slot
    | .queue l _ => ((d.launch? l).map Launch.slot) == some slot

/-- R430 steps 1 to 4: the context is terminated with a cause. Accesses that have issued may still perform. -/
def Dev.terminate (h : HostPart) (d : Dev) (slot : Nat) (cause : BitVec 8) : Dev :=
  let d := (List.range 16).foldl (Dev.stopStream h slot cause) d
  let d := { d with seals := d.seals.filter fun e => d.partySlot e.2.party != slot }.dropContextWarps slot
  let d := { d with
    cores := d.cores.map fun (e : Nat × Core) => (e.1, d.leaveCore slot e.2)
    ops := d.ops.filter fun e => d.slotOf e.2.team != slot
    copies := d.copies.filter fun e => e.2.slot != slot
    arrivals := d.arrivals.filter fun e => d.slotOf e.2.team != slot
    decisions := d.decisions.filter fun e => d.slotOf e.2.team != slot
    colls := d.colls.filter fun e => e.2.slot != slot
    accesses := d.accesses.filter fun e => !(e.2.slot == slot && (e.2.pa.isNone || e.2.kind == AccessKind.load)) }
  let d := { d with
    teams := d.teams.filter fun e => d.slotOf e.1 != slot
    launches := d.launches.filter fun e => e.2.slot != slot
    graphs := d.graphs.filter fun e => e.2.slot != slot }
  (d.dropSnapshots h slot).onContext slot fun c => { c with state := .terminated, cause := cause }

/-- R464: the launch whose handler areas take the dump of a context: that of the team `team`, or the context's oldest one that
is not complete. -/
def Dev.dumpLaunch (d : Dev) (slot : Nat) (team : Option Nat) : Option Launch :=
  match team.bind d.launchOf with
  | some l => some l
  | none => (List.find? (fun (e : Nat × Launch) => e.2.slot == slot && !e.2.complete) d.launches).map Prod.snd

/-- R464: the context is killed: the dump header at H + 0x7D00, termination, and a record of type 0x06. H is the handler area
of the warp `w` of `team` that trapped or consumed the word, or, where no warp did, that of warp 0 of the launch's team 0. A
context without a launch has none (notes/assumptions/35.md). -/
def Dev.kill (h : HostPart) (d : Dev) (slot : Nat) (cause : BitVec 8) (team w : Option Nat) (va : Nat)
    (frames : List Byte) : Dev :=
  let t := team.bind d.team?
  let index := (t.map Team.index).getD 0
  let launch := d.dumpLaunch slot team
  let header := dumpHeader cause slot index va d.gtime ((launch.map fun l => l.record.handle).getD 0)
  let d := match launch with
    | none => d
    | some l =>
      let base := match w with
        | some w => l.handlerArea index w
        | none => l.handlerArea 0 0
      match d.writeVa h slot ((t.map Team.core).getD (processorCore slot)) (base + 0x7D00) header with
      | .ok d => d
      | .error (_, d) => d
  (d.terminate h slot cause).report 0x06 3 slot 0 (header ++ frames)

/-- R460, R464: an uncorrectable word that no team consumed, at a virtual address of a context, kills the context. -/
def Dev.killSlot (h : HostPart) (d : Dev) (slot va : Nat) : Dev := (d.kill h slot 0x19 none none va []).settle h

/-- R460, R464: the page walker or the memory manager met an uncorrectable word in an access of a party: the context is
killed, with the dump header in the handler area of the party's warp. -/
def Dev.killAt (h : HostPart) (d : Dev) (p : Party) (slot va : Nat) : Dev :=
  let w := match p with
    | .warp id => (d.warp? id).map Warp.w
    | _ => none
  (d.kill h slot 0x19 (d.partyTeam p) w va []).settle h

/-- R116, R460: what a command processor does where a read of its own fails: an uncorrectable word kills the context, and
any other failure is the command's. -/
def Dev.unreadable (h : HostPart) (d : Dev) (slot : Nat) (f : Failure) (fail : Dev → Dev) : Dev :=
  match f with
  | .uncorrectable va _ => d.killSlot h slot va
  | .lost va => d.killSlot h slot va
  | .fault _ _ => fail d

/-! ## Ending a team (R461 to R463) -/

/-- R461 steps 2 and 3: the team stops; its engine operations run on, and no trap is delivered for them. -/
def Dev.haltTeam (d : Dev) (team : Nat) : Dev :=
  { d.stopTeam team with ops := d.ops.map fun (e : Nat × EngineOp) =>
      if e.2.team = team then (e.1, { e.2 with faults := [] }) else e }.onTeam team fun t => { t with ended := true }

/-- R461: what follows a team's ending: its relaunch, the rollback of its launch (R462, R463), or the kill of
its context (R464). -/
def Dev.afterEnding (h : HostPart) (d : Dev) (team : Nat) (w : Option Nat) (va : Nat) (frame : List Byte) : Dev :=
  match d.team? team, d.launchOf team with
  | some t, some l =>
    if l.record.idempotent && !l.relaunched.contains t.index then d
    else if l.record.rollback && !l.rolled then
      let d := ((d.teams.filter fun e => e.2.launch == t.launch && !e.2.complete).map Prod.fst).foldl Dev.haltTeam d
      d.onLaunch t.launch fun l => { l with cause := 0x19 }
    else d.kill h l.slot 0x19 (some team) w va frame
  | _, _ => d

/-- R461: an uncorrectable word was consumed for a team, which is ended. `who` is the warp that consumed it, whose handler
area takes the frame; none where a front-end context or an operation of a warp that has exited did. -/
def Dev.endTeam (h : HostPart) (d : Dev) (team : Nat) (who : Option Nat) (lanes : Mask) (pc : Va) (va pa : Nat) : Dev :=
  let slot := d.slotOf team
  let (d, w, frame) := match who.bind d.warp? with
    | none => (d, none, [])
    | some w =>
      let frame := trapFrame w ⟨0, 0x19, 0, 0, lanes, pc, BitVec.ofNat 64 va, 0, []⟩
        ((who.map fun id => d.replayQueue id w).getD [])
      match d.writeVa h slot w.core (d.handlerBase team w.w) frame with
      | .ok d => (d, some w.w, frame)
      | .error (_, d) => (d, some w.w, frame)
  let index := ((d.team? team).map Team.index).getD 0
  let core := ((d.team? team).map Team.core).getD 0
  let d := (d.haltTeam team).report 0x03 3 slot core (leBytes 8 pa ++ leBytes 4 index)
  (d.afterEnding h team w va frame).settle h

end Sys2Proof.Machine
end

