-- ==== Sys2Proof/Machine/Order.lean ====
section
/-! DEFINITION. Which accesses come before which: program order to overlapping bytes, lanes of one instruction,
releases, acquires, fences and the ordering points of a warp (R220 to R231, R240). -/

namespace Sys2Proof.Machine

open Sys2Proof

/-! ## Scopes (R220) -/

/-- The die of a party's warp or front-end context; the command processor runs on every die (R18). -/
def Dev.partyDie (d : Dev) (p : Party) : Nat := dieOf (d.partyCore p)

/-- R220: a party of a context, with its team and die, lies in the scope instance of another. -/
def inScope (scope : Nat) (p q : Party) (tp tq : Option Nat) (dp dq : Nat) : Bool :=
  match scope with
  | 0 => false
  | 1 => p == q
  | 2 => p == q || (tp == tq && tp.isSome)
  | 3 => dp == dq
  | _ => true

/-- R224, R229: an acquire by `q` at a scope takes in a release that a home keeps. -/
def Dev.synchronises (d : Dev) (t : ReleaseTag) (q : Party) (scope : Nat) (rmt : Bool) : Bool :=
  let tq := d.partyTeam q
  let dq := d.partyDie q
  let inRelease := inScope t.scope t.party q (some t.team) tq t.die dq
  let inAcquire := inScope scope q t.party tq (some t.team) dq t.die
  d.partySlot q == t.slot &&
    ((inRelease && inAcquire) || (rmt && decide (2 ≤ t.scope)) || (t.rmt && decide (2 ≤ scope)))

/-! ## What has not come about -/

/-- The records, by name, that are yet to be written to buffers of some lanes of a warp (R333). -/
def Dev.copiesFor (d : Dev) (p : Party) (lanes : Mask) : List Nat :=
  ((d.bufferWrites.filter fun b => Party.warp b.warp == p && lanes.getLsbD b.lane).map BufferWrite.name).eraseDups

/-- What a party has asked of memory that has not performed, of some lanes and of the party's uniform accesses: its accesses,
and the copies of queue records for those lanes. -/
def Dev.earlier (d : Dev) (p : Party) (lanes : Mask) : List Nat :=
  (d.accesses.filter fun e => e.2.party == p && (e.2.lane == 32 || lanes.getLsbD e.2.lane) && !d.performed e.1).map
    Prod.fst ++ d.copiesFor p lanes

/-- What the marks of a warp ask of the next access of some lanes; a uniform access acts for every lane of its split
(R223). -/
def Dev.markDeps (d : Dev) (marks : List OrderMark) (lanes : Mask) : List Nat :=
  ((marks.filter fun m => m.lanes &&& lanes != 0).flatMap OrderMark.all).filter fun i => !d.performed i

/-- R225: what the release fences of a warp ask of the next strong store of some lanes. -/
def Dev.fenceDeps (d : Dev) (marks : List OrderMark) (lanes : Mask) : List Nat :=
  ((marks.filter fun m => m.lanes &&& lanes != 0).flatMap OrderMark.before).filter fun i => !d.performed i

/-- R225: the widest scope of the release fences that the next strong store of some lanes follows. -/
def fenceScope (marks : List OrderMark) (lanes : Mask) : Nat :=
  (marks.filter fun m => m.lanes &&& lanes != 0).foldl (fun s m => Nat.max s m.scope) 0

/-- R229: the stores and read-modify-writes of a team, and the copies of queue records for its warps, that came before an
access and have not performed. -/
def Dev.teamStores (d : Dev) (team : Option Nat) (before : Nat) : List Nat :=
  (d.accesses.filter fun e => team.isSome && d.partyTeam e.2.party == team && e.2.kind != AccessKind.load &&
    decide (e.1 < before) && !d.performed e.1).map Prod.fst ++
  ((d.bufferWrites.filter fun b => team.isSome && d.partyTeam (.warp b.warp) == team && decide (b.name < before)).map
    BufferWrite.name).eraseDups

/-- The marks that still ask something. A release fence makes each later strong store of its lanes a release (R225), also
once everything before it has performed: its mark stays, each once. -/
def Dev.liveMarks (d : Dev) (marks : List OrderMark) : List OrderMark :=
  ((marks.filter fun m => m.scope != 0 || !(d.allPerformed m.all && d.allPerformed m.before)).map fun m =>
    if d.allPerformed m.all && d.allPerformed m.before then { m with all := [], before := [] } else m).eraseDups

/-- A mark added to a warp. -/
def Dev.mark (d : Dev) (id : Nat) (m : OrderMark) : Dev :=
  d.onWarp id fun w => { w with marks := d.liveMarks w.marks ++ [m] }

/-- R34, R195, R257: a join or a `wsync` that is complete issues. What the threads made before the `wsync`, and what
their ordering points ask, comes before what any of them makes after it. -/
def Dev.settleWarp (d : Dev) (id : Nat) : Dev :=
  match d.warp? id with
  | none => d
  | some w =>
    let parked := d.parkedLanes id
    let (w, ts) := w.settleJoin id parked
    let (w, done, us) := w.settleWsync id parked
    let d := (d.setWarp id w).addTransfers w (ts ++ us)
    if done then d.mark id ⟨w.live, d.earlier (.warp id) w.live ++ d.markDeps w.marks w.live, 0, []⟩ else d

/-! ## Performing at the home -/

/-- R223, R336: a record that an earlier `qpop` or `qtry` of the lane takes is yet to be written to bytes of the access. -/
def BufferWrite.before (b : BufferWrite) (id : Nat) (a : Access) : Bool :=
  Party.warp b.warp == a.party && decide (b.name < id) && (b.lane == a.lane || a.lane == 32) &&
    decide (b.va < a.va.toNat + a.bytes) && decide (a.va.toNat < b.va + b.bytes)

/-- The access may perform at its home now (R222, R223, R224, R240, R336, R457). -/
def Dev.homeReady (d : Dev) (id : Nat) (a : Access) : Bool :=
  a.pa.isSome && !a.held && a.result.isNone && a.cause == 0 && d.allPerformed a.deps &&
    (d.accesses.all fun e => !(decide (e.1 < id) && e.2.before a)) && d.bufferWrites.all fun b => !b.before id a

/-! ## The memory instructions and their accesses (R235 to R246) -/

/-- R236: the bytes of a size code. -/
def sizeBytes (size : BitVec 3) : Nat :=
  match size.toNat with
  | 0 => 4
  | 1 => 8
  | 2 => 1
  | 3 => 1
  | 4 => 2
  | 5 => 2
  | _ => 16

/-- R236: the cells of a size code. -/
def sizeCells (size : BitVec 3) : Nat :=
  match size.toNat with
  | 1 => 2
  | 6 => 4
  | _ => 1

/-- R236: the loaded byte or half is sign-extended. -/
def sizeSigned (size : BitVec 3) : Bool := size == 3 || size == 5

/-- What a memory instruction does in each lane: its kind, size and ordering field, the value cells it pops
besides the address, and the cells it pushes. -/
structure MemForm where
  kind : AccessKind
  bytes : Nat
  signed : Bool
  order : Nat
  forder : Nat
  scope : Nat
  rmt : Bool
  takes : Nat
  gives : Nat
  deriving DecidableEq, Repr

/-- The form of a memory instruction. A `red` synchronises only with rel, acqrel or sc (R230, R246). -/
def memForm : Instr → Option MemForm
  | .ld _ size _ => some ⟨.load, sizeBytes size, sizeSigned size, 0, 0, 0, false, 0, sizeCells size⟩
  | .st _ size _ => some ⟨.store, sizeBytes size, false, 0, 0, 0, false, sizeCells size, 0⟩
  | .ldo _ rmt order scope size =>
    some ⟨.load, sizeBytes size, sizeSigned size, order.toNat, 0, scope.toNat, rmt, 0, sizeCells size⟩
  | .sto _ rmt order scope size =>
    some ⟨.store, sizeBytes size, false, order.toNat, 0, scope.toNat, rmt, sizeCells size, 0⟩
  | .atom _ op rmt order scope size =>
    some ⟨.update op.toNat, sizeBytes size, false, order.toNat, 0, scope.toNat, rmt, sizeCells size, sizeCells size⟩
  | .red _ op rmt order scope size =>
    some ⟨.update op.toNat, sizeBytes size, false, if order = 1 then 0 else order.toNat, 0, scope.toNat, rmt,
      sizeCells size, 0⟩
  | .cas _ forder rmt order scope size =>
    some ⟨.swapIf, sizeBytes size, false, order.toNat, forder.toNat, scope.toNat, rmt, 2 * sizeCells size,
      sizeCells size⟩
  | _ => none

/-- R227: the words that an access makes on their own: a plain access longer than a word is one for each word. -/
def MemForm.parts (f : MemForm) : Nat := if f.scope = 0 then (f.bytes + 3) / 4 else 1

/-- R224, R225: the access releases. -/
def MemForm.releases (f : MemForm) : Bool := f.kind != AccessKind.load && (f.order == 2 || f.order == 3 || f.order == 4)

/-- The store part of a strong access (R225). -/
def MemForm.strongStore (f : MemForm) : Bool := f.kind != AccessKind.load && decide (1 ≤ f.scope)

/-- One access of some lanes (a lane's own, or a uniform one of a split), or one word of it, as it is issued: what must
have performed first (R223 to R225, R228, R229), and what it releases. A release at die scope or wider, or with `.rmt`,
performs after what it releases, and with `.rmt` after its team's stores too; one at a narrower scope leaves that to the
acquire that takes it in. -/
def Dev.newAccess (d : Dev) (party : Party) (marks : List OrderMark) (i : Instr) (pc : Va) (stamp lane part : Nat)
    (lanes : Mask) (f : MemForm) (ea : Dword) (data expect : List Word) (tickets : List Nat) (pa : Option Nat) : Access :=
  let before := d.earlier party lanes
  let fenced := if f.strongStore then d.fenceDeps marks lanes else []
  let released := (if f.releases then before else []) ++ fenced
  let relScope := if f.strongStore then
      Nat.max (if f.releases then f.scope else 0) (fenceScope marks lanes) else 0
  let wide := decide (3 ≤ relScope) || (f.rmt && f.releases)
  let mates := if f.rmt && f.releases then d.teamStores (d.partyTeam party) d.nextId else []
  { party := party, slot := d.partySlot party, lane := lane, stamp := stamp, part := part, instr := i, pc := pc,
    kind := f.kind, bytes := if f.parts = 1 then f.bytes else 4, width := f.bytes, signed := f.signed,
    va := ea + BitVec.ofNat 64 (4 * part), data := data, expect := expect, order := f.order, forder := f.forder,
    scope := f.scope, rmt := f.rmt, tickets := tickets, regs := [], pa := pa, held := f.kind != AccessKind.load,
    served := false, cause := 0, parked := false, result := none,
    deps := d.markDeps marks lanes ++ (if f.order = 4 then before else []) ++ (if wide then released else []) ++ mates,
    waits := [], relScope := relScope, relDeps := released }

/-- R224, R228: a lane's later accesses wait for an acquire, or for an sc access. -/
def MemForm.holdsLater (f : MemForm) : Bool :=
  f.order == 4 || (f.kind != AccessKind.store && (f.order == 1 || f.order == 3 || f.forder == 1 || f.forder == 4))

/-- The accesses of a lane put among those in flight. -/
def Dev.addParts (d : Dev) (party : Party) (marks : List OrderMark) (i : Instr) (pc : Va) (stamp lane : Nat)
    (f : MemForm) (ea : Dword) (data expect : List Word) (tickets : List Nat) (pa : Option Nat) : List Nat → Dev
  | [] => d
  | part :: parts =>
    let a := d.newAccess party marks i pc stamp lane part (laneBit lane) f ea data expect tickets
      (pa.map fun p => p + 4 * part)
    let (id, d) := d.fresh
    Dev.addParts (d.setAccess id a) party marks i pc stamp lane f ea data expect tickets pa parts

/-- A lane's access issues. -/
def Dev.addAccess (d : Dev) (party : Party) (marks : List OrderMark) (i : Instr) (pc : Va) (stamp lane : Nat)
    (f : MemForm) (ea : Dword) (data expect : List Word) (tickets : List Nat) (pa : Option Nat) : Dev :=
  d.addParts party marks i pc stamp lane f ea data expect tickets pa (List.range f.parts)

/-- A lane's access issues for a warp, and what it holds back of the lane's later accesses (R224, R228). -/
def Dev.issueAccess (d : Dev) (id : Nat) (marks : List OrderMark) (i : Instr) (pc : Va) (stamp lane : Nat)
    (f : MemForm) (ea : Dword) (data expect : List Word) (tickets : List Nat) (pa : Option Nat) : Dev :=
  let first := d.nextId
  let d := d.addAccess (.warp id) marks i pc stamp lane f ea data expect tickets pa
  if f.holdsLater then d.mark id ⟨laneBit lane, (List.range (d.nextId - first)).map (first + ·), 0, []⟩ else d

end Sys2Proof.Machine
end

