-- ==== Sys2Proof/Machine/Ops.lean ====
section
/-! DEFINITION. The shared operations of the instructions: taking a trap and returning from one (R387 to R403),
and the checks that come before an instruction's effect (R142, R143, R405, R406). -/

namespace Sys2Proof.Machine

open Sys2Proof

/-! ## The words of frames and backing stacks (R50, R57, R393) -/

/-- R50: the slice offset of a position of a warp's backing stacks, and of a slot of its frames. -/
def Warp.stackLine (w : Warp) (p : Nat) : Nat := w.stackBase + p * 128
def Warp.frameLine (w : Warp) (n : Nat) : Nat := w.frameBase + n * 128

/-- R393: the offset of a position of the handler's backing stacks in the handler area. -/
def handlerLine (p : Nat) : Nat := 0x3000 + p * 128

/-- The physical address of an entry's line; none where a handler area is no longer mapped. -/
def Dev.linePa (d : Dev) (core : Nat) (f : Forward) : Option Nat :=
  if !f.mapped then some (slicePa core + f.line)
  else
    match d.warp? f.warp with
    | none => none
    | some w =>
      let va := d.handlerBase w.team w.w + f.line
      match d.walk (d.slotOf w.team) (dieOf core) va with
      | .error _ => none
      | .ok (level, _, e) => some (ptePa e + va % levelBytes level)

/-- The words of some lanes of a line are written, whole units at a time where both their words are (R459). -/
def Dev.writeLine (d : Dev) (pa : Nat) (lanes : Mask) (words : List Word) : Dev :=
  let word := fun (l : Nat) => leBytes 4 (words.getD l 0).toNat
  (List.range 16).foldl
    (fun (d : Dev) i =>
      match lanes.getLsbD (2 * i), lanes.getLsbD (2 * i + 1) with
      | true, true => d.putBytes (pa + 8 * i) (word (2 * i) ++ word (2 * i + 1))
      | true, false => d.putBytes (pa + 8 * i) (word (2 * i))
      | false, true => d.putBytes (pa + 8 * i + 4) (word (2 * i + 1))
      | false, false => d) d

/-- R57, R71, R393: the write of an entry completes. A line of the handler area is a store of its warp: it is written only
where the area is mapped, may be written and is not sealed; where it is refused, the warp has that cause, which in handler mode
escalates (R398). -/
def Dev.retire (core : Nat) (d : Dev) (f : Forward) : Dev :=
  if !f.mapped then d.writeLine (slicePa core + f.line) f.lanes f.words
  else
    match d.warp? f.warp with
    | none => d
    | some w =>
      let slot := d.slotOf w.team
      let va := d.handlerBase w.team w.w + f.line
      let refused := fun (d : Dev) (cause : BitVec 8) =>
        d.fresh.2.post f.warp ⟨d.nextId, cause, 0, 0, f.lanes, (w.cur.map Split.pc).getD 0, BitVec.ofNat 64 va, 0, []⟩
      if (d.context slot).sealedRange va 128 then refused d 0x0E
      else
        match d.translate slot core va .write with
        | .error _ => refused (d.walked slot core va .write) 0x0C
        | .ok (pa, d) => d.writeLine pa f.lanes f.words

/-- R57: entries are taken; where the table has no place, the oldest are freed first. -/
def Dev.pushForwards (d : Dev) (core lb : Nat) (fs : List Forward) : Dev :=
  let all := ((d.core core).lb lb).forwards ++ fs
  let out := all.length - 16
  ((all.take out).foldl (Dev.retire core) d).onLb core lb fun b => { b with forwards := all.drop out }

/-- R57: the entry of a store of some threads to a line, which memory has 12 cycles after the time given. -/
def forwardOf (now id : Nat) (mapped : Bool) (line : Nat) (ts : List Thread) (f : Thread → Word) : Forward :=
  ⟨id, mapped, line, maskOf (ts.map Thread.lane),
    (List.range 32).map fun l => ((ts.find? fun t => t.lane == l).map f).getD 0, now + 12⟩

/-- The cell of a thread at a position of its stack, 0 for the deepest. -/
def Thread.cellAt (t : Thread) (p : Nat) : Option Cell := t.stack.reverse[p]?

/-- R51, R57: the entries of a spill of some lanes from resident count `was` to `c`, one for each position, the deepest
first; an empty cell stays where it is (R390). -/
def spillForwards (now id : Nat) (w : Warp) (lanes : Mask) (was c : Nat) : List Forward :=
  let ts := w.threadsOf lanes
  let depth := ((ts.head?).map fun t => t.stack.length).getD 0
  (List.range (was - c)).map fun i =>
    let p := depth - was + i
    forwardOf now id w.handler.isSome (if w.handler.isSome then handlerLine p else w.stackLine p)
      (ts.filter fun t => (t.cellAt p).any fun x => x.ticket?.isNone) fun t => ((t.cellAt p).map Cell.word).getD 0

/-- R387: the entries of the warp's spills that its lane block's engine has yet to make. -/
def Dev.spillsUnderWay (d : Dev) (id : Nat) (w : Warp) : List Forward :=
  (((d.core w.core).lb w.lb).transfers.filter fun t => t.warp == id).flatMap fun t =>
    spillForwards (d.clockOf w.core) id w (t.lanes &&& w.live) t.was t.c

/-! ## Handler mode (R387, R393, R398) -/

/-- R387, R389: a split as the trap leaves it. -/
def Split.stopped (s : Split) : Split :=
  { s with
    c := 0
    state := match s.state with
      | .queue _ => .ready
      | .trywait _ _ _ => .ready
      | st => st }

/-- R388: the whole handler area is mapped and writable. -/
def Dev.areaWritable (h : HostPart) (d : Dev) (slot core base : Nat) : Except (Failure × Dev) Dev :=
  if base + 0x8000 > 2 ^ 57 then .error (.fault faultAddress base, d)
  else
    match Dev.writeParts h slot core d (pageParts base 3 0x8000) with
    | .ok (_, d) => .ok d
    | .error f => .error f

/-- R398: a cause in handler mode, or with no handler area, terminates the context. -/
def Dev.doubleTrap (h : HostPart) (d : Dev) (id : Nat) (p : Posted) : Dev :=
  match d.warp? id with
  | none => d
  | some w =>
    let slot := d.slotOf w.team
    let base := d.handlerBase w.team w.w
    let frame := trapFrame w { p with tflags := p.tflags ||| 1 } (d.replayQueue id w)
    let d := match d.writeVa h slot w.core (base + 0x5000) frame with
      | .ok d => d
      | .error (_, d) => d
    let first := match d.readVa h slot w.core base 0x2D00 with
      | .ok (bs, _) => bs
      | .error _ => []
    (d.kill h slot 0x18 (some w.team) (some w.w) p.va.toNat (first ++ frame)).settle h

/-- R398: the nested frame: the handler's splits and stacks, with NESTED set. -/
def nestedFrame (w : Warp) (n : Nat) (reps : List ReplayEntry) : List Byte :=
  let bs := trapFrame w ⟨0, 0, 1, 0, 0, 0, 0, 0, []⟩ reps
  let free := Config.nestedByte n
  [free 0] ++ slice bs 1 1 ++ (List.range 22).map (fun i => free (i + 2)) ++ slice bs 24 3 ++ [free 27] ++ bs.drop 28

/-- A failed translation of the warp that is not resolved yet. -/
def Dev.serving (d : Dev) (id : Nat) : Bool := d.accesses.any fun e => e.2.party == Party.warp id && e.2.parked

/-- R398: a translation failure in handler mode: the first is served, with the handler's splits kept in the nested frame;
a second while it is pending escalates. The failures of one instruction count as one. -/
def Dev.nestFault (h : HostPart) (d : Dev) (id stamp : Nat) (lanes : Mask) (pc : Va) (va : Dword) : Dev :=
  match d.warp? id with
  | none => d
  | some w =>
    match w.handler with
    | none => d
    | some hd =>
      if hd.nested && !(d.accesses.any fun e => e.2.party == Party.warp id && e.2.stamp == stamp && e.2.parked) then
        let (s, d) := d.fresh
        d.doubleTrap h id ⟨s, 0x0C, 0, 0, lanes, pc, va, 0, []⟩
      else
        let (n, d) := d.nextFree
        let base := d.handlerBase w.team w.w
        let d := match d.writeVa h (d.slotOf w.team) w.core (base + 0x5000) (nestedFrame w n (d.replayQueue id w)) with
          | .ok d => d
          | .error (_, d) => d
        d.onWarp id fun w => { w with handler := some { hd with nested := true } }

/-- R398: the handler's pending service is over. -/
def Dev.served (d : Dev) (id : Nat) : Dev :=
  if d.serving id then d
  else d.onWarp id fun w => { w with handler := w.handler.map fun hd => { hd with nested := false } }

/-- R397, R398: the cause of a translation that cannot be served: ACCESS_VIOLATION, or PAGE_FAULT in handler mode. -/
def Warp.walkCause (w : Warp) : BitVec 8 := if w.handler.isSome then 0x0C else 0x0D

/-- R393: the warp in handler mode. -/
def Warp.enterHandler (w : Warp) (entry : Va) (base : Nat) (cause : BitVec 8) (held : List Posted)
    (reps : List ReplayEntry) : Warp :=
  { w with
    threads := w.threads.map fun t => { t with stack := [] }
    cur := some ⟨w.live, entry, 0, 0, .ready⟩
    others := []
    join := []
    k := kSet (kSet64 w.k 0 (BitVec.ofNat 64 base)) 2 (BitVec.setWidth 32 cause)
    handler := some ⟨w.threads.map fun t => (t.lane, t.stack), w.splits, held, false⟩
    posted := []
    replay := reps }

/-- The trap of a posted entry is one that an unfinished access keeps in the queue (R392). -/
def inQueue (reps : List ReplayEntry) (p : Posted) : Bool := p.erec.isEmpty && reps.any fun e => e.stamp == p.stamp

/-- R392: the trap of an instruction in the replay queue has the cause of its lowest failing lane, and names the
lanes with that cause; where a translation failed, every lane whose translation has failed (R397). The address is that
lane's, or the lowest of those that a home refused (R426). -/
def Dev.queuedCause (d : Dev) (id : Nat) (p : Posted) : Posted :=
  let all := (d.accesses.filter fun e => e.2.party == Party.warp id && e.2.stamp == p.stamp).map Prod.snd
  let bad := all.filter fun a => a.cause != 0
  match bad.foldl (fun (best : Option Access) a => match best with
      | none => some a
      | some b => if a.lane < b.lane then some a else best) none with
  | none => p
  | some a =>
    if !p.erec.isEmpty || decide (32 ≤ a.lane) then p
    else
      { p with
        cause := if p.cause = 0x0C then p.cause else a.cause
        lanes := maskOf ((all.filter fun b => b.cause == a.cause || (a.cause == 0x0D && b.parked && b.cause == 0)).map
          Access.lane)
        va := if a.cause = 0x0E then
            (bad.filter fun b => b.cause == a.cause).foldl (fun (v : Dword) b => if b.ea.toNat < v.toNat then b.ea else v) a.ea
          else a.ea }

/-- R388, R398, R464: the frame of a trap cannot be written: it escalates, with the warp's replay queue still its accesses
`open_`; or the walker met an uncorrectable word on the way. -/
def Dev.escalate (h : HostPart) (d : Dev) (id : Nat) (w : Warp) (p : Posted) (open_ : Table Access) (f : Failure) : Dev :=
  let d := { d with accesses := open_ }.setWarp id w
  match f with
  | .lost va => d.killAt h (.warp id) (d.slotOf w.team) va
  | _ => d.doubleTrap h id p

/-- R387: the trap is taken: spills end, every resident cell is spilled, the frame is written and the warp enters handler
mode. -/
def Dev.takeTrap (h : HostPart) (d : Dev) (id : Nat) (p : Posted) : Dev :=
  match d.warp? id with
  | none => d
  | some w =>
    if w.handler.isSome then d.doubleTrap h id (d.queuedCause id p)
    else
      let slot := d.slotOf w.team
      let base := d.handlerBase w.team w.w
      let p := d.queuedCause id p
      let w := w.onSplits (d.wake id w)
      let spills := d.spillsUnderWay id w ++
        w.splits.flatMap fun s => spillForwards (d.clockOf w.core) id w s.mask s.c 0
      let w := d.parkedAll id { w.onSplits Split.stopped with fed := 0 }
      let w := w.onSplits fun s => if s.state == .blocked .transfer then { s with state := .ready } else s
      let reps := d.replayQueue id w
      let entry := ((d.launchOf w.team).map fun l => BitVec.ofNat 57 l.record.trapEntry.toNat).getD 0
      let held := (w.posted.filter fun q => q.stamp != p.stamp || q.erec != p.erec).filter fun q => !inQueue reps q
      let ids := d.unfinishedAccesses (.warp id)
      let open_ := d.accesses
      let d := { d with accesses := d.accesses.filter fun e => !(ids.contains e.1 && decide (e.2.lane < 32)) }
      let d := (d.withdraw fun r => r.warp == id && r.poll.isNone).onLb w.core w.lb fun b =>
        { b with transfers := b.transfers.filter fun t => t.warp != id, loop := b.loop.filter fun e => e.1 != id }
      let d := d.pushForwards w.core w.lb spills
      match d.areaWritable h slot w.core base with
      | .error f => f.2.escalate h id w p open_ f.1
      | .ok d =>
        match d.writeVa h slot w.core base (trapFrame w p reps) with
        | .error f => f.2.escalate h id w p open_ f.1
        | .ok d => d.setWarp id (w.enterHandler entry base p.cause held reps)

/-- A `qtry` of the warp, whose status cells are empty, is still to be handled by its queue unit (R333). -/
def Dev.polling (d : Dev) (id : Nat) : Bool :=
  d.polls.any fun p => p.1.warp == id

/-- R387: nothing of the warp is in flight that a trap has to complete first. -/
def Dev.trapReady (d : Dev) (id : Nat) : Bool :=
  let ids := d.unfinishedAccesses (.warp id)
  d.accesses.all (fun e => e.2.party != Party.warp id || ids.contains e.1) && d.bufferWrites.all (fun b => b.warp != id) &&
    !d.polling id

/-- R392: the oldest of the traps that wait. -/
def oldestPosted : List Posted → Option Posted
  | [] => none
  | p :: ps =>
    match oldestPosted ps with
    | none => some p
    | some q => if q.stamp < p.stamp then some q else some p

/-- R387, R392: the warp takes the oldest trap that waits, once it can. -/
def Dev.deliver (h : HostPart) (d : Dev) (id : Nat) : Dev :=
  match d.warp? id with
  | none => d
  | some w =>
    match oldestPosted w.posted with
    | none => d
    | some p =>
      if w.place == .resident && (w.handler.isSome || d.trapReady id) then d.takeTrap h id p else d

/-- R386, R143: the current split's instruction traps at issue: it has no effect, and the split's PC names it. -/
def Dev.raise (h : HostPart) (d : Dev) (id : Nat) (s : Split) (cause : BitVec 8) (lanes : Mask) (va : Dword)
    (code : BitVec 16) : Dev :=
  let (stamp, d) := d.fresh
  (d.post id ⟨stamp, cause, 0, code, lanes, s.pc, va, 0, []⟩).deliver h id

/-- Two entries report one instruction's failing lanes. -/
def Posted.same (p q : Posted) : Bool := p.stamp == q.stamp && p.cause == q.cause && p.erec.isEmpty && q.erec.isEmpty

/-- A trap put among those that wait; lanes of one instruction that fail one after another are reported together, with the
lowest of their addresses. -/
def addPosted (ps : List Posted) (p : Posted) : List Posted :=
  if ps.any p.same then
    ps.map fun q => if p.same q then
      { q with lanes := q.lanes ||| p.lanes, va := if p.va.toNat < q.va.toNat then p.va else q.va } else q
  else ps ++ [p]

/-- R432: an engine's fault waits for the next issue boundary, or, in handler mode, for `rte`. -/
def Dev.postFault (d : Dev) (id : Nat) (p : Posted) : Dev :=
  d.onWarp id fun w =>
    match w.handler with
    | none => { w with posted := addPosted w.posted p }
    | some hd => { w with handler := some { hd with held := addPosted hd.held p } }

/-- R403: a trap for a team that has no live warp: the frame is written to the handler area of warp 0 and sent
out of band, and the launch fails with the cause. -/
def Dev.undelivered (h : HostPart) (d : Dev) (team : Nat) (p : Posted) : Dev :=
  match d.team? team with
  | none => d
  | some t =>
    let slot := d.slotOf team
    let base := d.handlerBase team 0
    let frame := match (d.warps.filter fun e => e.2.team == team && e.2.w == 0).head? with
      | some e => trapFrame e.2 p []
      | none => []
    let d := match d.writeVa h slot t.core base frame with
      | .ok d => d
      | .error (_, d) => d
    (d.report 0x0D 3 slot t.core (frame.take 32 ++ leBytes 4 t.index ++ leBytes 8 base)).onLaunch t.launch fun l =>
      { l with faulted := true, cause := if l.faulted then l.cause else p.cause }

/-- R403: a fault whose issuing warp has exited goes to the team's lowest-numbered live warp; the same for a store or a
load of a thread that has exited (DEDUCED, notes/assumptions/14.md: R249 has every refused store reported). -/
def Dev.delegate (h : HostPart) (d : Dev) (team origin : Nat) (p : Posted) : Dev :=
  let p := { p with tflags := 4, origin := origin }
  match d.lowestWarp team with
  | none => d.undelivered h team p
  | some id => d.postFault id p

/-- R402: a trap of a front-end context, with its place in issue order: the context stops, and the team's
lowest-numbered live warp traps with the same cause. -/
def Dev.fetTrapAt (h : HostPart) (d : Dev) (fet stamp : Nat) (cause : BitVec 8) (lanes : Mask) (pc : Va) (va : Dword)
    (erec : List Byte) : Dev :=
  match Table.find? d.fets fet with
  | none => d
  | some f =>
    let p : Posted := ⟨stamp, cause, 2, 0, lanes, pc, va, 0, erec⟩
    let d := d.onFet fet fun f => { f with ended := true, stalled := none }
    match d.lowestWarp f.team with
    | none => d.undelivered h f.team p
    | some id => (d.postFault id p).deliver h id

/-- R402: a trap of a front-end context at its issue. -/
def Dev.fetTrap (h : HostPart) (d : Dev) (fet : Nat) (cause : BitVec 8) (lanes : Mask) (pc : Va) (va : Dword)
    (erec : List Byte) : Dev :=
  let (stamp, d) := d.fresh
  d.fetTrapAt h fet stamp cause lanes pc va erec

/-! ## Place of issue (R142) -/

/-- R142: a warp issues an instruction that only a front-end thread, or only handler mode, may: it traps. -/
def Dev.misplaced (h : HostPart) (d : Dev) : Dev :=
  match d.issuer with
  | .warp id =>
    match (d.warp? id).bind Warp.cur with
    | none => d
    | some s => d.raise h id s 0x01 s.mask 0 0
  | .fet id =>
    match Table.find? d.fets id with
    | none => d
    | some f => d.fetTrap h id 0x01 0 f.pc 0 []
  | _ => d

/-! ## The checks of a stack instruction (R143, R405) -/

/-- What an instruction asks of its split before it issues: its length in bytes, its W bit, the cells that it
pops and peeks and pushes, the places of its operand cells counted from the top, those of them that are judged first
(R418), the entries and the room that it needs in channels, the uniform registers it reads or writes, and the entries that it takes in the replay
queue and in the forwarding table. -/
structure Need where
  bytes : Nat
  w : Bool
  pops : Nat
  pushes : Nat
  reads : List Nat
  early : List Nat
  channels : List (Nat × Nat × Bool)
  regs : List Nat
  replay : Nat
  forwards : Nat
  deriving DecidableEq, Repr

/-- An instruction that takes `pops` operand cells and pushes `pushes`. -/
def Need.of (bytes : Nat) (w : Bool) (pops pushes : Nat) : Need :=
  ⟨bytes, w, pops, pushes, List.range pops, [], [], [], 0, 0⟩

/-- A uniform instruction that touches some uniform registers. -/
def Need.uniform (bytes : Nat) (regs : List Nat) : Need := { Need.of bytes false 0 0 with regs := regs }

/-- What the checks answer. -/
inductive Verdict where
  | go
  | trap (cause : BitVec 8) (lanes : Mask)
  | transfer (c : Nat)
  | wait (r : Wait)
  deriving DecidableEq, Repr

/-- R49, R393: the deepest stack that the warp may have. -/
def Dev.depthLimit (d : Dev) (w : Warp) : Nat :=
  if w.handler.isSome then 64 else ((d.launchOf w.team).map fun l => l.record.stackLimit).getD 0

/-- R51: the resident count that the instruction needs at its issue. -/
def residentTarget (c p q : Nat) : Nat :=
  let c := Nat.max c p
  if 8 < c - p + q then 8 + p - q else c

/-- The tickets of the empty cells at the given places of a stack. -/
def Thread.empties (t : Thread) (reads : List Nat) : List Nat :=
  reads.filterMap fun n => (t.stack[n]?).bind Cell.ticket?

/-- R405: the outcome of the checks, in their order. -/
def Dev.verdict (d : Dev) (id : Nat) (w : Warp) (s : Split) (n : Need) : Verdict :=
  let depth := w.depth s
  let c := residentTarget s.c n.pops n.pushes
  let early := (w.threadsOf s.mask).filter fun t => !(t.empties n.early).isEmpty
  let bad := if early.isEmpty then (w.threadsOf s.mask).filter fun t => !(t.empties n.reads).isEmpty else early
  if depth < n.pops then .trap 0x06 s.mask
  else if d.depthLimit w < depth - n.pops + n.pushes then .trap 0x05 s.mask
  else if c ≠ s.c then .transfer c
  else if !bad.isEmpty then
    if n.w then .trap 0x07 (maskOf (bad.map Thread.lane))
    else .wait (.cells (bad.flatMap fun t => t.empties n.reads))
  else if !(n.channels.all (channelReady w s.mask)) then .wait (.channels n.channels)
  else if w.kld.any fun e => n.regs.contains e.1 then .wait (.registers n.regs)
  else if 16 < d.replayUse id w + n.replay then .wait (.replay n.replay)
  else if 16 < ((d.core w.core).lb w.lb).forwards.length + n.forwards then .wait (.forwarding n.forwards)
  else .go

/-- R52, R53: the split waits for a spill or a refill. -/
def Dev.requestTransfer (d : Dev) (id : Nat) (w : Warp) (s : Split) (c : Nat) : Dev :=
  (d.addTransfers w [⟨id, s.mask, s.c, c⟩]).block id .transfer

/-- The outcome of checks that do not let the instruction issue. -/
def Dev.refused (h : HostPart) (d : Dev) (id : Nat) (w : Warp) (s : Split) : Verdict → Dev
  | .go => d
  | .trap cause lanes => d.raise h id s cause lanes 0 0
  | .transfer c => d.requestTransfer id w s c
  | .wait r => d.block id r

/-- R142, R143: an instruction of a warp's current split: its effect `k`, given the warp and the split, comes
about once every check has passed. A front-end context that issues it traps. -/
def Dev.issueWarp (h : HostPart) (d : Dev) (n : Need) (k : Nat → Warp → Split → Dev) : Dev :=
  match d.issuer with
  | .warp id =>
    match d.warp? id with
    | none => d
    | some w =>
      match w.cur with
      | none => d
      | some s =>
        match d.verdict id w s n with
        | .go => k id w s
        | v => d.refused h id w s v
  | .fet _ => d.misplaced h
  | _ => d

/-- The split after the instruction: its resident count follows the pops and pushes (R51), its age is 0 (R399)
and its PC is after the instruction. -/
def Split.after (s : Split) (n : Need) : Split :=
  { s with pc := s.pc + BitVec.ofNat 57 n.bytes, c := s.c - n.pops + n.pushes, age := 0 }

/-- The instruction has issued, with the warp as it leaves it and the split that goes on. -/
def Dev.commit (d : Dev) (id : Nat) (w : Warp) (s : Split) : Dev :=
  { d.setWarp id (w.setCur s) with issued := true }

/-- A check of the values of a lane: it fails with a cause and an address (R406). -/
structure ValueCheck where
  cause : BitVec 8
  lanes : Mask
  va : Dword
  deriving DecidableEq, Repr

/-- R406: the lanes whose value fails a check, and the address of the lowest of them. -/
def valueCheck (cause : BitVec 8) (lanes : List Nat) (bad : Nat → Bool) (va : Nat → Dword) : ValueCheck :=
  let l := lanes.filter bad
  ⟨cause, maskOf l, match l.head? with
    | some x => va x
    | none => 0⟩

/-- R406: the first check that some lane fails. -/
def firstFailing (cs : List ValueCheck) : Option ValueCheck := cs.find? fun c => c.lanes != 0

/-- R405 step 5: the effect, unless a value check fails. -/
def Dev.checked (h : HostPart) (d : Dev) (id : Nat) (s : Split) (cs : List ValueCheck) (k : Dev) : Dev :=
  match firstFailing cs with
  | some c => d.raise h id s c.cause c.lanes c.va 0
  | none => k

/-! ## Uniform instructions of a warp or a front-end context (R40, R63, R212) -/

/-- The uniform file as a uniform instruction sees it: the registers and the predicates. -/
structure Uniform where
  k : List Word
  kp : BitVec 8
  deriving DecidableEq, Repr

/-- A front-end context stalls at its instruction (R42, R212). -/
def Dev.stall (d : Dev) (id : Nat) (r : Wait) : Dev := d.onFet id fun f => { f with stalled := some r }

/-- A uniform instruction, of a warp or of a front-end context: `kw` and `kf` give its effect once the
destinations of `kld` that it touches have their data (R212). -/
def Dev.issueEither (h : HostPart) (d : Dev) (bytes : Nat) (regs : List Nat) (kw : Nat → Warp → Split → Dev)
    (kf : Nat → Fet → Dev) : Dev :=
  match d.issuer with
  | .fet id =>
    match Table.find? d.fets id with
    | none => d
    | some f => if f.kld.any fun e => regs.contains e.1 then d.stall id (.registers regs) else kf id f
  | _ => d.issueWarp h (Need.uniform bytes regs) kw

/-- The front-end context goes on after an instruction. -/
def Dev.commitFet (d : Dev) (id : Nat) (f : Fet) (bytes : Nat) : Dev :=
  { d.setFet id { f with pc := f.pc + BitVec.ofNat 57 bytes, stalled := none } with issued := true }

/-- A uniform instruction whose effect is on the uniform file alone. -/
def Dev.uniform (h : HostPart) (d : Dev) (bytes : Nat) (regs : List Nat) (f : Uniform → Uniform) : Dev :=
  d.issueEither h bytes regs
    (fun id w s =>
      let u := f ⟨w.k, w.kp⟩
      d.commit id { w with k := u.k, kp := u.kp } (s.after (Need.uniform bytes regs)))
    (fun id c =>
      let u := f ⟨c.k, c.kp⟩
      d.commitFet id { c with k := u.k, kp := u.kp } bytes)

/-! ## The return from a trap (R395, R396) -/

/-- The instruction that the memory holds at an address where a context may fetch (R80, R117, R119). -/
def Dev.instrAt (d : Dev) (slot core : Nat) (pc : Va) : Option Instr :=
  match d.walk slot (dieOf core) pc.toNat with
  | .error _ => none
  | .ok (level, _, e) =>
    if pteX e then
      let n := Nat.min 8 (64 - pc.toNat % 64)
      match decode (Memory.readBytes d.mem (ptePa e + pc.toNat % levelBytes level) n) with
      | .ok (i, _) => some i
      | .error _ => none
    else none

/-- The fields of a split record (R389). -/
structure SplitRecord where
  block : Nat
  mask : Mask
  depth : Nat
  off : Nat
  state : Nat
  deriving DecidableEq, Repr

/-- R389: a record of a frame. -/
def readSplit (bs : List Byte) (n : Nat) : SplitRecord :=
  let o := 32 + 16 * n
  ⟨field bs o 8, BitVec.ofNat 32 (field bs (o + 8) 4), field bs (o + 12) 2, field bs (o + 14) 1, field bs (o + 15) 1⟩

/-- The masks of the records are disjoint and not 0, and make up the live threads. -/
def masksCover (live : Mask) (rs : List SplitRecord) : Bool :=
  rs.all (fun r => r.mask != 0) && decide (rs.Pairwise fun a b => a.mask &&& b.mask = 0) &&
    rs.foldl (fun m r => m ||| r.mask) 0 == live

/-- R395: why `rte` cannot resume from a frame: the cause, if a check fails. -/
def Dev.frameFault (d : Dev) (w : Warp) (bs : List Byte) : Option (BitVec 8) :=
  let nsplit := field bs 24 1
  let rs := (List.range nsplit).map (readSplit bs)
  let limit := ((d.launchOf w.team).map fun l => l.record.stackLimit).getD 0
  let slot := d.slotOf w.team
  if nsplit = 0 || decide (32 < nsplit) || !masksCover w.live rs || rs.any (fun r => decide (limit < r.depth)) ||
      rs.any (fun r => decide (4 < r.state)) || decide (16 < field bs 25 1) then some 0x01
  else if rs.any fun r => r.block % 64 != 0 || decide (2 ^ 57 ≤ r.block) || r.off % 2 != 0 || decide (62 < r.off) then
    some 0x02
  else if rs.any fun r =>
      let i := d.instrAt slot w.core (BitVec.ofNat 57 (r.block + r.off))
      (r.state == 1 && !(match i with
        | some (.join _ _) => true
        | _ => false)) ||
      (r.state == 2 && !(match i with
        | some (.wsync _) => true
        | _ => false)) then some 0x01
  else none

/-- R395: a stack at the depth that the frame gives: the cells above a lower depth are discarded, and those up
to a higher one hold 0. -/
def restack (st : List Cell) (depth : Nat) : List Cell :=
  if depth ≤ st.length then st.drop (st.length - depth)
  else List.replicate (depth - st.length) (.full 0) ++ st

/-- R399: the age of the splits that some lanes were in. -/
def ageOf (saved : List Split) (lanes : Mask) : Nat :=
  (saved.filter fun s => s.mask &&& lanes != 0).foldl (fun a s => Nat.max a s.age) 0

/-- R395: the state in which a record's split resumes, beside those of lower lanes. The arrival at a `join` or a `wsync`
is checked again: where that fails, the split is ready and the instruction traps. States 0, 3 and 4 resume ready, that of a
split set aside in a `bar.sync` too, after it (notes/assumptions/42.md). -/
def resumeState (d : Dev) (w : Warp) (join : List Mask) (before : List (Split × Nat)) (pc : Va) (r : SplitRecord) :
    SplitState :=
  match r.state with
  | 1 =>
    match join.head?, d.instrAt (d.slotOf w.team) w.core pc with
    | some m, some (.join _ n) => if r.mask &&& m == r.mask && n.toNat == r.depth then .join else .ready
    | _, _ => .ready
  | 2 => if before.any fun b => b.1.state == .wsync && b.1.pc == pc && b.2 != r.depth then .ready else .wsync
  | _ => .ready

/-- R395, R389, R399: the resumed splits, with their depths. -/
def resumeSplits (d : Dev) (w : Warp) (saved : List Split) (join : List Mask) (rs : List SplitRecord) :
    List (Split × Nat) :=
  rs.foldl
    (fun (out : List (Split × Nat)) r =>
      let pc := BitVec.ofNat 57 (r.block + r.off)
      out ++ [(⟨r.mask, pc, 0, ageOf saved r.mask, resumeState d w join out pc r⟩, r.depth)]) []

/-- The value cells of an entry for a lane, and those of the entry after it (a `cas.d` takes two, R390). -/
def entryCells (e : ReplayEntry) (next : Option ReplayEntry) (l : Nat) : List Word × List Word :=
  let cs := e.cells.getD l []
  match e.instr with
  | .cas _ _ _ _ _ size =>
    if size = 1 then (((next.map fun n => n.cells.getD l []).getD []), cs)
    else (cs.drop 1, cs.take 1)
  | _ => (cs, [])

/-- The access of an entry: a `st.q` is performed 8 bytes at a time (R390). -/
def entryForm (i : Instr) : Option MemForm :=
  (memForm i).map fun f => if f.bytes = 16 && f.kind == .store then { f with bytes := 8, takes := 2 } else f

/-- R395, R396: an entry that is not discarded is performed again in its lanes, as accesses that issue at the `rte`: one
that acquires, or is sc, holds back those re-injected after it and those of the resumed splits (R224, R228). -/
def Dev.reinject (d : Dev) (id : Nat) (w : Warp) (e : ReplayEntry) (next : Option ReplayEntry) : Dev :=
  match entryForm e.instr with
  | none => d
  | some f =>
    let (stamp, d) := d.fresh
    (lanesOf e.mask).foldl (fun d l =>
      let (data, expect) := entryCells e next l
      let tickets := ((e.tickets.find? fun t => t.1 == l).map Prod.snd).getD []
      d.issueAccess id w.marks e.instr e.pc stamp l f (e.ea.getD l 0) data expect tickets none) d

/-- Cells that wait for tickets of a list, filled with 0. -/
def fillZero (tickets : List Nat) (st : List Cell) : List Cell :=
  st.map fun c => match c with
    | .empty t => if tickets.contains t then .full 0 else c
    | .full _ => c

/-- R395: the destination cells of a discarded entry hold 0. -/
def Warp.discard (w : Warp) (e : ReplayEntry) : Warp :=
  { w with threads := w.threads.map fun t =>
      if e.mask.getLsbD t.lane then
        { t with stack := fillZero (((e.tickets.find? fun x => x.1 == t.lane).map Prod.snd).getD []) t.stack }
      else t }

/-- R390, R395: the entries in queue order. The second entry of a `cas.d` goes with the first, and DISCARD on
either discards both. -/
def Dev.replayAll (id : Nat) : List ReplayEntry → Dev → Dev
  | [], d => d
  | e :: es, d =>
    let pair := match e.instr with
      | .cas _ _ _ _ _ size => size == 1 && e.ddepth.isSome
      | _ => false
    let second := match e.instr with
      | .cas _ _ _ _ _ size => size == 1 && e.ddepth.isNone
      | _ => false
    let discard := e.discard || (pair && ((es.head?.map ReplayEntry.discard).getD false))
    if second then Dev.replayAll id es d
    else
      match d.warp? id with
      | none => d
      | some w =>
        Dev.replayAll id es (if discard then d.setWarp id (w.discard e) else d.reinject id w e es.head?)

/-- R395: the warp as the frame gives it, out of handler mode. The words of a `kld` of the handler that have not come yet find
their registers restored, and are dropped. -/
def Dev.restored (d : Dev) (w : Warp) (hd : Handler) (bs : List Byte) : Warp :=
  let rs := (List.range (field bs 24 1)).map (readSplit bs)
  let njoin := field bs 25 1
  let join := (bytesWords (slice bs 544 64) njoin).reverse
  let stackOf := fun (l : Nat) =>
    let st := ((hd.saved.find? fun e => e.1 == l).map Prod.snd).getD []
    match rs.find? fun r => r.mask.getLsbD l with
    | some r => restack st r.depth
    | none => st
  { w with
    threads := w.threads.map fun t => { t with stack := stackOf t.lane }
    cur := none
    others := sortSplits ((resumeSplits d w hd.splits join rs).map Prod.fst)
    join := join
    k := bytesWords (slice bs 608 256) 64
    kp := BitVec.ofNat 8 (field bs 864 1)
    kld := []
    handler := none
    posted := hd.held
    replay := [] }

/-- R395, R396: `rte`: the frame's checks, the restored warp, the re-injected accesses, and a selection point. -/
def Dev.returnFromTrap (h : HostPart) (d : Dev) (id : Nat) (w : Warp) (hd : Handler) (s : Split) : Dev :=
  match d.readVa h (d.slotOf w.team) w.core (d.handlerBase w.team w.w) 0x2D00 with
  | .error (.uncorrectable va pa, d) => d.endTeam h w.team (some id) s.mask s.pc va pa
  | .error (.lost va, d) => d.killAt h (.warp id) (d.slotOf w.team) va
  | .error (.fault _ va, d) => d.raise h id s 0x0C s.mask (BitVec.ofNat 64 va) 0
  | .ok (bs, d) =>
    match d.frameFault w bs with
    | some cause => d.raise h id s cause s.mask 0 0
    | none =>
      let d := { d.setWarp id (d.restored w hd bs) with issued := true }
      ((Dev.replayAll id w.replay d).settleWarp id).select id

end Sys2Proof.Machine
end

