-- ==== Sys2Proof/Machine/Flags.lean ====
section
/-! DEFINITION. The sticky flags of a warp (R100 to R102). -/

namespace Sys2Proof.Machine

open Sys2Proof

/-- R100: invalid. -/
def flagNV : Flags := 0b00001
/-- R100: division by zero. -/
def flagDZ : Flags := 0b00010
/-- R100: overflow. -/
def flagOF : Flags := 0b00100
/-- R100: underflow. -/
def flagUF : Flags := 0b01000
/-- R100: inexact. -/
def flagNX : Flags := 0b10000

/-- A flag, where its condition holds. -/
def flagIf (c : Bool) (f : Flags) : Flags := if c then f else 0

/-- R101: the flags that the lanes of an instruction raise are ORed into the warp's. -/
def Warp.raiseFlags (w : Warp) (fs : List Flags) : Warp := { w with flags := fs.foldl (· ||| ·) w.flags }

/-- R100: the cell that `flags` pushes. -/
def flagsCell (f : Flags) : Word := BitVec.setWidth 32 f

end Sys2Proof.Machine
end

