-- ==== Sys2Proof/Machine/Operands.lean ====
section
/-! DEFINITION. Operands and results: stack cells, routes through stack and channels (R126 to R129), and the
shapes of instruction that take operands in each lane and leave a result there. -/

namespace Sys2Proof.Machine

open Sys2Proof

/-! ## Cells and values (R48) -/

/-- The value of operand cells, top first: the top one is the high half. -/
def cellsValue : List Cell → Dword
  | [] => 0
  | [c] => BitVec.setWidth 64 c.word
  | c :: d :: _ => c.word ++ d.word

/-- The value of channel entries, head first: the head is the low half. -/
def entriesValue : List Word → Dword
  | [] => 0
  | [v] => BitVec.setWidth 64 v
  | lo :: hi :: _ => hi ++ lo

/-- The low half of a value. -/
def low (v : Dword) : Word := v.extractLsb' 0 32

/-- The high half of a value. -/
def high (v : Dword) : Word := v.extractLsb' 32 32

/-- A value of `n` cells pushed. -/
def pushValue (n : Nat) (v : Dword) (st : List Cell) : List Cell :=
  match n with
  | 0 => st
  | 1 => .full (low v) :: st
  | _ => .full (high v) :: .full (low v) :: st

/-- The entries of a value of `n` words, low half first. -/
def valueEntries (n : Nat) (v : Dword) : List Word :=
  match n with
  | 0 => []
  | 1 => [low v]
  | _ => [low v, high v]

/-- The stack of a thread changed. -/
def Thread.onStack (t : Thread) (f : List Cell → List Cell) : Thread := { t with stack := f t.stack }

/-! ## Routes (R126, R127) -/

/-- Where operands A and B come from and the result goes. -/
structure Route where
  ra : BitVec 2
  rb : BitVec 2
  rd : Bool
  cha : Nat
  chb : Nat
  chd : Nat
  deriving DecidableEq, Repr

/-- R129: the route of the S16 form: stack pops and a push. -/
def Route.stack : Route := ⟨0, 0, false, 0, 0, 0⟩

/-- The route is a channel's. -/
def fromChannel (r : BitVec 2) : Bool := r.getLsbD 1

/-- The route peeks. -/
def peeks (r : BitVec 2) : Bool := r.getLsbD 0

/-- An operation on the operands x, a and b of a lane, of so many cells each; its result has `r` cells. -/
structure LaneOp where
  x : Nat
  a : Nat
  b : Nat
  r : Nat
  f : Dword → Dword → Dword → Dword × Flags

/-- R127: the stack cells of B, A and x. -/
def LaneOp.stackB (o : LaneOp) (r : Route) : Nat := if fromChannel r.rb then 0 else o.b
def LaneOp.stackA (o : LaneOp) (r : Route) : Nat := if fromChannel r.ra then 0 else o.a

/-- The entries that A and B remove from a channel. -/
def LaneOp.popsA (o : LaneOp) (r : Route) (ch : Nat) : Nat :=
  if fromChannel r.ra && !peeks r.ra && r.cha == ch then o.a else 0
def LaneOp.popsB (o : LaneOp) (r : Route) (ch : Nat) : Nat :=
  if fromChannel r.rb && !peeks r.rb && r.chb == ch then o.b else 0

/-- R128, R412: the entries and the room that a routed instruction needs. -/
def LaneOp.channels (o : LaneOp) (r : Route) : List (Nat × Nat × Bool) :=
  (if fromChannel r.ra && o.a != 0 then [(r.cha, o.a, false)] else []) ++
    (if fromChannel r.rb && o.b != 0 then [(r.chb, o.popsA r r.chb + o.b, false)] else []) ++
    (if r.rd && o.r != 0 then [(r.chd, o.r - (o.popsA r r.chd + o.popsB r r.chd), true)] else [])

/-- R51, R127: what a routed instruction needs. -/
def LaneOp.need (o : LaneOp) (r : Route) (bytes : Nat) (w : Bool) : Need :=
  let nb := o.stackB r
  let na := o.stackA r
  let kept := (if peeks r.rb then nb else 0) + (if peeks r.ra then na else 0)
  ⟨bytes, w, o.x + na + nb, kept + (if r.rd then 0 else o.r), List.range (o.x + na + nb), [], o.channels r, [],
    0, 0⟩

/-- The entries of a channel as a lane sees them; ch15 is the warp's (R128). -/
def laneChannel (ch15 : List Word) (t : Thread) (ch : Nat) : List Word :=
  if ch = 15 then ch15 else t.ch.getD ch []

/-- R127: operand A of a lane. -/
def LaneOp.valueA (o : LaneOp) (r : Route) (ch15 : List Word) (t : Thread) : Dword :=
  if fromChannel r.ra then entriesValue ((laneChannel ch15 t r.cha).take o.a)
  else cellsValue ((t.stack.drop (o.stackB r)).take o.a)

/-- R127, R412: operand B of a lane; where A pops the same channel, B reads after it. -/
def LaneOp.valueB (o : LaneOp) (r : Route) (ch15 : List Word) (t : Thread) : Dword :=
  if fromChannel r.rb then entriesValue (((laneChannel ch15 t r.chb).drop (o.popsA r r.chb)).take o.b)
  else cellsValue (t.stack.take o.b)

/-- R127: operand x of a lane. -/
def LaneOp.valueX (o : LaneOp) (r : Route) (t : Thread) : Dword :=
  cellsValue ((t.stack.drop (o.stackB r + o.stackA r)).take o.x)

/-- The lane's result and flags. -/
def LaneOp.result (o : LaneOp) (r : Route) (ch15 : List Word) (t : Thread) : Dword × Flags :=
  o.f (o.valueX r t) (o.valueA r ch15 t) (o.valueB r ch15 t)

/-- R127: the cells that stay: peeked operands, and what lies below the operands. -/
def LaneOp.kept (o : LaneOp) (r : Route) (st : List Cell) : List Cell :=
  let nb := o.stackB r
  let na := o.stackA r
  (if peeks r.rb then st.take nb else []) ++ (if peeks r.ra then (st.drop nb).take na else []) ++
    st.drop (nb + na + o.x)

/-- The channel with its popped entries gone. -/
def popChannel (chs : List (List Word)) (ch n : Nat) : List (List Word) :=
  if n = 0 || ch = 15 then chs else putAt [] chs ch ((chs.getD ch []).drop n)

/-- Entries sent to a channel. -/
def sendChannel (chs : List (List Word)) (ch : Nat) (vs : List Word) : List (List Word) :=
  putAt [] chs ch (chs.getD ch [] ++ vs)

/-- R127: the thread after a routed instruction. -/
def LaneOp.step (o : LaneOp) (r : Route) (ch15 : List Word) (t : Thread) : Thread :=
  let v := (o.result r ch15 t).1
  let chs := popChannel (popChannel t.ch r.cha (o.popsA r r.cha)) r.chb (o.popsB r r.chb)
  if r.rd then { t with stack := o.kept r t.stack, ch := sendChannel chs r.chd (valueEntries o.r v) }
  else { t with stack := pushValue o.r v (o.kept r t.stack), ch := chs }

/-- The warp after a lane operation of the split's lanes: their stacks and channels, the flags, and ch15. -/
def LaneOp.apply (o : LaneOp) (r : Route) (w : Warp) (s : Split) : Warp :=
  let ch15 := w.ch15.map Prod.fst
  let pops := o.popsA r 15 + o.popsB r 15
  let w := w.raiseFlags ((w.threadsOf s.mask).map fun t => (o.result r ch15 t).2)
  { w.onLanes s.mask (o.step r ch15) with ch15 := w.ch15.drop pops }

/-- R182: the lane block issues nothing for so many lane cycles after this one. -/
def Dev.holdIssue (d : Dev) (w : Warp) (cycles : Nat) : Dev :=
  if cycles = 0 then d else d.onLb w.core w.lb fun b => { b with hold := cycles }

/-- R234: what the popped entries of ch15 come after. -/
def Dev.entryMark (d : Dev) (id : Nat) (s : Split) (entries : List (Word × List Nat)) : Dev :=
  let all := entries.flatMap Prod.snd
  if all.isEmpty then d else d.mark id ⟨s.mask, all, 0, []⟩

/-- An instruction that takes its operands and leaves its result through a route, in each lane of the split. -/
def Dev.laneOp (h : HostPart) (d : Dev) (bytes : Nat) (wbit : Bool) (hold : Nat) (r : Route) (o : LaneOp) : Dev :=
  let n := o.need r bytes wbit
  d.issueWarp h n fun id w s =>
    let d := d.commit id (o.apply r w s) (s.after n)
    (d.holdIssue w hold).entryMark id s (w.ch15.take (o.popsA r 15 + o.popsB r 15))

/-! ## Shapes -/

/-- A unary operation on a word. -/
def op1 (f : Word → Word) : LaneOp := ⟨0, 0, 1, 1, fun _ _ b => (BitVec.setWidth 64 (f (low b)), 0)⟩

/-- A binary operation on words. -/
def op2 (f : Word → Word → Word) : LaneOp := ⟨0, 1, 1, 1, fun _ a b => (BitVec.setWidth 64 (f (low a) (low b)), 0)⟩

/-- A ternary operation on words. -/
def op3 (f : Word → Word → Word → Word) : LaneOp :=
  ⟨1, 1, 1, 1, fun x a b => (BitVec.setWidth 64 (f (low x) (low a) (low b)), 0)⟩

/-- A unary operation on a word that raises flags. -/
def fop1 (f : Word → Word × Flags) : LaneOp :=
  ⟨0, 0, 1, 1, fun _ _ b => let r := f (low b); (BitVec.setWidth 64 r.1, r.2)⟩

/-- A binary operation on words that raises flags. -/
def fop2 (f : Word → Word → Word × Flags) : LaneOp :=
  ⟨0, 1, 1, 1, fun _ a b => let r := f (low a) (low b); (BitVec.setWidth 64 r.1, r.2)⟩

/-- A ternary operation on words that raises flags. -/
def fop3 (f : Word → Word → Word → Word × Flags) : LaneOp :=
  ⟨1, 1, 1, 1, fun x a b => let r := f (low x) (low a) (low b); (BitVec.setWidth 64 r.1, r.2)⟩

/-- An instruction that changes the stack of each lane of the split, and nothing else. -/
def Dev.stackOp (h : HostPart) (d : Dev) (n : Need) (f : Thread → Thread) : Dev :=
  d.issueWarp h n fun id w s => d.commit id (w.onLanes s.mask f) (s.after n)

/-- The pops of a lane, and a value of one cell pushed for it. -/
def popPush (n : Nat) (v : Word) (st : List Cell) : List Cell := .full v :: st.drop n

/-! ## Meanings -/

/-- A step of the device part: the host function is as before. -/
def State.run (s : State) (f : HostPart → Dev → Dev) : Host.Outcome State Fault Refusal :=
  .next { s with dev := f s.host s.dev }

/-- A step that may change the host function too. -/
def State.runHost (s : State) (f : HostPart → Dev → HostPart × Dev) : Host.Outcome State Fault Refusal :=
  .next { s with host := (f s.host s.dev).1, dev := (f s.host s.dev).2 }

/-- An integer lane instruction in its S16 form. -/
def State.lane16 (s : State) (w : Bool) (o : LaneOp) : Host.Outcome State Fault Refusal :=
  s.run fun h d => d.laneOp h 2 w 0 Route.stack o

end Sys2Proof.Machine
end

