-- ==== Sys2Proof/Machine/StackOps.lean ====
section
/-! DEFINITION. The stack, literal, frame, special-register and warp-wide instructions (R145 to R160, R254 to
R256). -/

namespace Sys2Proof.Machine

open Sys2Proof

/-! ## Stack cells (R146 to R148) -/

/-- R146, R410: nothing but the PC. A front-end context may not issue it (R142): it is one of the other S16 instructions. -/
def Dev.nop (h : HostPart) (d : Dev) : Dev := d.stackOp h (Need.of 2 false 0 0) id

def execNop (_ : Bool) (s : State) : Host.Outcome State Fault Refusal := s.run fun h d => d.nop h

/-- An instruction that moves or discards cells without reading them (R147). -/
def Dev.moveCells (h : HostPart) (d : Dev) (pops pushes : Nat) (f : List Cell → List Cell) : Dev :=
  d.stackOp h { Need.of 2 false pops pushes with reads := [] } fun t => t.onStack f

/-- R146: ( a -- ). -/
def dropCell (st : List Cell) : List Cell := st.drop 1

/-- R146: ( a b -- b a ). -/
def swapCells : List Cell → List Cell
  | b :: a :: st => a :: b :: st
  | st => st

/-- R146: ( a b c -- b c a ). -/
def rotCells : List Cell → List Cell
  | c :: b :: a :: st => a :: c :: b :: st
  | st => st

/-- R146: ( a b -- b ). -/
def nipCell : List Cell → List Cell
  | b :: _ :: st => b :: st
  | st => st

/-- R147: the copy of cell n is full. -/
def dupCell (n : Nat) (st : List Cell) : List Cell := .full ((st[n]?.map Cell.word).getD 0) :: st

def execDrop (_ : Bool) (s : State) : Host.Outcome State Fault Refusal :=
  s.run fun h d => d.moveCells h 1 0 dropCell

/-- R146: p is the n + 1 cells down to the copied one, which is the operand (R147). -/
def execDup (w : Bool) (n : BitVec 3) (s : State) : Host.Outcome State Fault Refusal :=
  s.run fun h d => d.stackOp h { Need.of 2 w (n.toNat + 1) (n.toNat + 2) with reads := [n.toNat] } fun t =>
    t.onStack (dupCell n.toNat)

def execSwap (_ : Bool) (s : State) : Host.Outcome State Fault Refusal :=
  s.run fun h d => d.moveCells h 2 2 swapCells

def execRot (_ : Bool) (s : State) : Host.Outcome State Fault Refusal :=
  s.run fun h d => d.moveCells h 3 3 rotCells

def execNip (_ : Bool) (s : State) : Host.Outcome State Fault Refusal :=
  s.run fun h d => d.moveCells h 2 1 nipCell

/-- An instruction that pushes one cell, which may differ between the lanes. -/
def Dev.pushOp (h : HostPart) (d : Dev) (bytes : Nat) (f : Dev → Warp → Split → Thread → Word) : Dev :=
  let n := Need.of bytes false 0 1
  d.issueWarp h n fun id w s =>
    d.commit id (w.onLanes s.mask fun t => t.onStack fun st => .full (f d w s t) :: st) (s.after n)

/-- R148: the depth before the push. -/
def execDepth (_ : Bool) (s : State) : Host.Outcome State Fault Refusal :=
  s.run fun h d => d.pushOp h 2 fun _ _ _ t => BitVec.ofNat 32 t.stack.length

/-! ## Literals (R149 to R151) -/

def execLitS (_ : Bool) (v : BitVec 7) (s : State) : Host.Outcome State Fault Refusal :=
  s.run fun h d => d.pushOp h 2 fun _ _ _ _ => BitVec.signExtend 32 v

/-- R150: the cell of a `lit16` form. -/
def literal16 (form : BitVec 2) (imm : BitVec 16) : Word :=
  match form.toNat with
  | 0 => BitVec.signExtend 32 imm
  | 1 => BitVec.setWidth 32 imm
  | _ => imm ++ 0#16

def execLit16 (_ : Bool) (form : BitVec 2) (imm : BitVec 16) (s : State) : Host.Outcome State Fault Refusal :=
  s.run fun h d => if form = 3 then d.misplaced h else d.pushOp h 4 fun _ _ _ _ => literal16 form imm

def execLit32 (imm : BitVec 32) (s : State) : Host.Outcome State Fault Refusal :=
  s.run fun h d => d.pushOp h 8 fun _ _ _ _ => imm

/-! ## Frames (R56, R152 to R155, R407) -/

/-- R56: a frame word; one that nothing has written is a free value. -/
def Thread.frameWord (t : Thread) (n : Nat) : Word :=
  ((t.frame.find? fun e => e.1 == n).map Prod.snd).getD (Config.frameWord t.frameSeed n)

/-- A frame word written. -/
def Thread.setFrame (t : Thread) (n : Nat) (v : Word) : Thread :=
  { t with frame := (n, v) :: t.frame.filter fun e => e.1 != n }

/-- R113: the frame slots of a thread of the warp. -/
def Dev.frameSlots (d : Dev) (w : Warp) : Nat := ((d.launchOf w.team).map fun l => l.record.frameSlots).getD 0

/-- R407: the address that a frame access reports. -/
def frameVa (w : Warp) (n : Nat) (l : Nat) : Dword :=
  0x8000000000000000 + BitVec.ofNat 64 (((w.thread? l).map Thread.fp).getD 0 + n)

/-- R152: the lanes whose slots fp + s to fp + s + k − 1 are not all in the frame. -/
def Dev.frameCheck (d : Dev) (w : Warp) (s : Split) (slot k : Nat) : ValueCheck :=
  valueCheck 0x0D (lanesOf s.mask)
    (fun l => ((w.thread? l).map fun t => decide (d.frameSlots w < t.fp + slot + k)).getD false) (frameVa w slot)

/-- R57, R58: the forwarding table of the warp's lane block holds a word of a thread's frame. -/
def Dev.forwards (d : Dev) (id : Nat) (w : Warp) (t : Thread) (n : Nat) : Bool :=
  ((d.core w.core).lb w.lb).forwards.any fun f =>
    f.warp == id && !f.mapped && f.line == w.frameLine n && f.lanes.getLsbD t.lane

/-- R153: the forwarding table of the warp's lane block holds every word that the split's `ldf` addresses. -/
def Dev.forwarded (d : Dev) (id : Nat) (w : Warp) (s : Split) (slot k : Nat) : Bool :=
  (w.threadsOf s.mask).all fun t => (List.range k).all fun i => d.forwards id w t (t.fp + slot + i)

/-- R58, R460: a frame word that the split's `ldf` reads from the slice is uncorrectable: its lane and its address. A word
whose latest store is in the forwarding table comes from there. -/
def Dev.poisonedFrame (d : Dev) (id : Nat) (w : Warp) (s : Split) (slot k : Nat) : Option (Nat × Nat) :=
  let words := (w.threadsOf s.mask).flatMap fun t => (List.range k).filterMap fun i =>
    if d.forwards id w t (t.fp + slot + i) then none
    else some (t.lane, slicePa w.core + w.frameLine (t.fp + slot + i) + 4 * t.lane)
  words.find? fun x => d.poisoned x.2 4

/-- R153: an `ldf` waits until its words have been read: 12 cycles, or 1 where they are forwarded. A word that cannot be
corrected ends the team (R460); it has no virtual address (R407). -/
def Dev.readFrame (h : HostPart) (d : Dev) (id : Nat) (w : Warp) (s : Split) (slot k : Nat) : Dev :=
  let near := d.forwarded id w s slot k
  match d.poisonedFrame id w s slot k with
  | some (l, pa) => d.endTeam h w.team (some id) (laneBit l) s.pc (frameVa w slot l).toNat pa
  | none =>
    (d.setWarp id { w with fed := w.fed ||| s.mask }).block id (.frame (d.clockOf w.core + if near then 1 else 12))

/-- R152, R153: `ldf` of `k` words: once they are read, they are pushed low half first. -/
def Dev.loadFrame (h : HostPart) (d : Dev) (bytes slot k : Nat) : Dev :=
  let n := Need.of bytes false 0 k
  d.issueWarp h n fun id w s =>
    d.checked h id s [d.frameCheck w s slot k]
      (if s.mask &&& w.fed == s.mask then
        d.commit id
          ({ w with fed := w.fed &&& ~~~s.mask }.onLanes s.mask fun t => t.onStack fun st =>
            (List.range k).foldl (fun st i => .full (t.frameWord (t.fp + slot + i)) :: st) st)
          (s.after n)
      else d.readFrame h id w s slot k)

/-- R152: the word that an `stf` of `k` words stores in slot i of a lane: the high half is popped first. -/
def Thread.storedWord (t : Thread) (k i : Nat) : Word := ((t.stack[k - 1 - i]?).map Cell.word).getD 0

/-- The frame pointers of a split's lanes, each once. -/
def Warp.framePointers (w : Warp) (s : Split) : List Nat := ((w.threadsOf s.mask).map Thread.fp).eraseDups

/-- R57: the forwarding entries of an `stf` of `k` words, one for each line that it stores to. DESIGN CHOICE
(notes/assumptions/42.md): where the lanes hold different frame pointers, an entry holds one line (R57), so that the store
takes one for each line; the spec gives the case of one line only. -/
def storeEntries (now id : Nat) (w : Warp) (s : Split) (slot k : Nat) : List Forward :=
  (List.range k).flatMap fun i => (w.framePointers s).map fun fp =>
    forwardOf now id false (w.frameLine (fp + slot + i)) ((w.threadsOf s.mask).filter fun t => t.fp == fp) fun t =>
      t.storedWord k i

/-- R57: the places that an `stf` of `k` words waits for in the forwarding table, of its 16. -/
def Dev.storePlaces (d : Dev) (k : Nat) : Nat :=
  match d.issuer with
  | .warp id => match d.warp? id with
    | some w => Nat.min 16 (k * ((w.cur.map fun s => (w.framePointers s).length).getD 1))
    | none => k
  | _ => k

/-- R152: `stf` of `k` words. -/
def Dev.storeFrame (h : HostPart) (d : Dev) (bytes : Nat) (wbit : Bool) (slot k : Nat) : Dev :=
  let n := { Need.of bytes wbit k 0 with forwards := d.storePlaces k }
  d.issueWarp h n fun id w s =>
    d.checked h id s [d.frameCheck w s slot k]
      ((d.pushForwards w.core w.lb (storeEntries (d.clockOf w.core) id w s slot k)).commit id
        (w.onLanes s.mask fun t =>
          ((List.range k).foldl (fun u i => u.setFrame (t.fp + slot + i) (t.storedWord k i)) t).onStack fun st => st.drop k)
        (s.after n))

def execLdf (_ : Bool) (n : BitVec 7) (s : State) : Host.Outcome State Fault Refusal :=
  s.run fun h d => d.loadFrame h 2 n.toNat 1

def execStf (w : Bool) (n : BitVec 7) (s : State) : Host.Outcome State Fault Refusal :=
  s.run fun h d => d.storeFrame h 2 w n.toNat 1

/-- R152: a 64-bit form with s = 255 is illegal. -/
def execLdfL (_ wide : Bool) (n : BitVec 8) (s : State) : Host.Outcome State Fault Refusal :=
  s.run fun h d =>
    if wide && n == 255 then d.misplaced h else d.loadFrame h 4 n.toNat (if wide then 2 else 1)

def execStfL (w wide : Bool) (n : BitVec 8) (s : State) : Host.Outcome State Fault Refusal :=
  s.run fun h d =>
    if wide && n == 255 then d.misplaced h else d.storeFrame h 4 w n.toNat (if wide then 2 else 1)

/-- R154: the frame pointers of the split move, unless a lane's may not. -/
def Dev.moveFrame (h : HostPart) (d : Dev) (n : Nat) (bad : Nat → Bool) (f : Nat → Nat) : Dev :=
  let need := Need.of 4 false 0 0
  d.issueWarp h need fun id w s =>
    d.checked h id s
      [valueCheck 0x0D (lanesOf s.mask) (fun l => ((w.thread? l).map fun t => bad t.fp).getD false) (frameVa w n)]
      (d.commit id (w.onLanes s.mask fun t => { t with fp := f t.fp }) (s.after need))

def Dev.enterFrame (h : HostPart) (d : Dev) (n : Nat) : Dev :=
  match d.issuer with
  | .warp id =>
    d.moveFrame h n (fun fp => decide (((d.warp? id).map d.frameSlots).getD 0 < fp + n)) (· + n)
  | _ => d.moveFrame h n (fun _ => false) (· + n)

def execFrame (_ : Bool) (n : BitVec 8) (s : State) : Host.Outcome State Fault Refusal :=
  s.run fun h d => d.enterFrame h n.toNat

def execLeave (_ : Bool) (n : BitVec 8) (s : State) : Host.Outcome State Fault Refusal :=
  s.run fun h d => d.moveFrame h n.toNat (fun fp => decide (fp < n.toNat)) (· - n.toNat)

/-! ## Special registers (R156 to R160) -/

/-- R347, R356: the view tag of a group of a context, 0 where the context has no such group. -/
def Dev.viewTag (d : Dev) (slot : Nat) (group : BitVec 16) : Dword :=
  match Table.find? (d.context slot).groups group.toNat with
  | none => 0
  | some g => group ++ g.gen

/-- R156: registers 5 to 11 and 20, which name the thread's team. -/
def Dev.teamRegister (d : Dev) (w : Warp) (n : Nat) : Nat :=
  match d.team? w.team, d.launchOf w.team with
  | some t, some l =>
    match n with
    | 5 => t.coords.1
    | 6 => t.coords.2.1
    | 7 => t.coords.2.2
    | 8 => l.record.grid.1
    | 9 => l.record.grid.2.1
    | 10 => l.record.grid.2.2
    | 11 => t.warps
    | _ => t.stage.getD 0xFFFFFFFF
  | _, _ => 0

/-- R156, R157: the 64-bit registers by their low number, taken from one reading. -/
def Dev.wideRegister (d : Dev) (w : Warp) (n : Nat) : Dword :=
  match n with
  | 15 => BitVec.ofNat 64 (d.clockOf w.core)
  | 17 => BitVec.ofNat 64 d.gtime
  | _ => d.viewTag (d.slotOf w.team) 0

/-- R156: the cell of special register n. -/
def Dev.special (h : HostPart) (d : Dev) (n : Nat) (w : Warp) (s : Split) (t : Thread) : Word :=
  match n with
  | 0 => BitVec.ofNat 32 (32 * w.w + t.lane)
  | 1 => 0
  | 2 => 0
  | 3 => BitVec.ofNat 32 t.lane
  | 4 => BitVec.ofNat 32 w.w
  | 12 => BitVec.ofNat 32 w.core
  | 13 => BitVec.ofNat 32 (dieOf w.core)
  | 14 => BitVec.ofNat 32 h.module
  | 15 => low (d.wideRegister w 15)
  | 16 => high (d.wideRegister w 15)
  | 17 => low (d.wideRegister w 17)
  | 18 => high (d.wideRegister w 17)
  | 19 => s.mask
  | 21 => low (d.wideRegister w 21)
  | 22 => high (d.wideRegister w 21)
  | n => BitVec.ofNat 32 (d.teamRegister w n)

/-- R158, R479: a reading of gtime comes after what the ordering points before it in the split's lanes ask: it is never less
than a reading that happens before it. Other registers ask nothing. -/
def Dev.gtimeWaits (d : Dev) (w : Warp) (sp : Split) (n : Nat) : List Nat :=
  if n = 17 ∨ n = 18 then d.markDeps w.marks sp.mask else []

/-- A special register's cells are pushed in each lane, once its reading may be taken. -/
def Dev.readSpecial (h : HostPart) (d : Dev) (n cells : Nat) (f : Dev → Warp → Split → Thread → List Cell → List Cell) :
    Dev :=
  let need := Need.of 2 false 0 cells
  d.issueWarp h need fun id w sp =>
    let waits := d.gtimeWaits w sp n
    if !waits.isEmpty then d.block id (.accesses waits)
    else d.commit id (w.onLanes sp.mask fun t => t.onStack (f d w sp t)) (sp.after need)

/-- R156: a number above 22 is illegal. -/
def execRds (_ : Bool) (n : BitVec 5) (s : State) : Host.Outcome State Fault Refusal :=
  s.run fun h d =>
    if 22 < n.toNat then d.misplaced h
    else d.readSpecial h n.toNat 1 fun d w sp t st => .full (d.special h n.toNat w sp t) :: st

/-- R157: only 15, 17 and 21 have a 64-bit form. -/
def execRdsD (_ : Bool) (n : BitVec 5) (s : State) : Host.Outcome State Fault Refusal :=
  s.run fun h d =>
    if n != 15 && n != 17 && n != 21 then d.misplaced h
    else d.readSpecial h n.toNat 2 fun d w _ _ => pushValue 2 (d.wideRegister w n.toNat)

/-- The value that the split's lowest lane holds in its top cells. -/
def lowestValue (w : Warp) (s : Split) (n : Nat) : Dword :=
  ((w.thread? (lowest s.mask)).map fun t => cellsValue (t.stack.take n)).getD 0

/-- An instruction that pops one cell in each lane and gives the lowest lane's value to the warp. -/
def Dev.popLowest (h : HostPart) (d : Dev) (bytes : Nat) (wbit : Bool) (f : Warp → Word → Warp) (g : Split → Split) :
    Dev :=
  let n := Need.of bytes wbit 1 0
  d.issueWarp h n fun id w s =>
    let v := low (lowestValue w s 1)
    d.commit id (f (w.onLanes s.mask fun t => t.onStack fun st => st.drop 1) v) (g (s.after n))

/-- R32, R159: L written; 0 stores 0xACE1. -/
def lfsrOf (v : BitVec 16) : BitVec 16 := if v = 0 then 0xACE1 else v

def execWrsLfsr (w : Bool) (s : State) : Host.Outcome State Fault Refusal :=
  s.run fun h d => d.popLowest h 4 w (fun w v => { w with lfsr := lfsrOf (v.extractLsb' 0 16) }) id

/-- R159, R399: the limit, with the age of every split of the warp at 0, those that a trap has set aside too. -/
def execWrsVigil (w : Bool) (s : State) : Host.Outcome State Fault Refusal :=
  s.run fun h d =>
    let young := fun (s : Split) => { s with age := 0 }
    d.popLowest h 4 w
      (fun w v =>
        let hd := w.handler.map fun hd => { hd with splits := hd.splits.map young }
        { w with vlimit := v, handler := hd }.onSplits young)
      young

/-- R160: the flags before they are cleared. -/
def execFlags (_ clear : Bool) (s : State) : Host.Outcome State Fault Refusal :=
  s.run fun h d =>
    let n := Need.of 2 false 0 1
    d.issueWarp h n fun id w s =>
      let w' := w.onLanes s.mask fun t => t.onStack fun st => .full (flagsCell w.flags) :: st
      d.commit id { w' with flags := if clear then 0 else w.flags } (s.after n)

/-! ## Warp-wide instructions (R254 to R256) -/

def execLead (_ : Bool) (s : State) : Host.Outcome State Fault Refusal :=
  s.run fun h d => d.pushOp h 2 fun _ _ s t => if t.lane = lowest s.mask then 1 else 0

/-- The top cell of a lane. -/
def topWord (t : Thread) : Word := low (cellsValue (t.stack.take 1))

/-- R255: the result of a vote. -/
def voteResult (mode : BitVec 2) (w : Warp) (s : Split) : Word :=
  let ts := w.threadsOf s.mask
  let yes := ts.filter fun t => topWord t != 0
  match mode.toNat with
  | 0 => if yes.isEmpty then 0 else 1
  | 1 => if yes.length = ts.length then 1 else 0
  | _ => maskOf (yes.map Thread.lane)

/-- R255: mode 3 is illegal. -/
def execVote (w : Bool) (mode : BitVec 2) (s : State) : Host.Outcome State Fault Refusal :=
  s.run fun h d =>
    let n := Need.of 2 w 1 1
    if mode = 3 then d.misplaced h
    else
      d.issueWarp h n fun id w s =>
        let r := voteResult mode w s
        d.commit id (w.onLanes s.mask fun t => t.onStack (popPush 1 r)) (s.after n)

/-- R256: the lane whose value a lane receives, if it lies in 0 to 31. -/
def shuffleLane (mode : BitVec 2) (l : Nat) (v : Word) : Option Nat :=
  let j : Int := match mode.toNat with
    | 0 => (v.toNat % 32 : Nat)
    | 1 => (l : Int) - v.toNat
    | 2 => (l : Int) + v.toNat
    | _ => (l ^^^ (v.toNat % 32) : Nat)
  if 0 ≤ j && j ≤ 31 then some j.toNat else none

/-- R256: the value beneath the top of a lane. -/
def secondWord (t : Thread) : Word := low (cellsValue ((t.stack.drop 1).take 1))

/-- R256: what a lane receives. -/
def shuffled (mode : BitVec 2) (w : Warp) (s : Split) (t : Thread) : Word :=
  match shuffleLane mode t.lane (topWord t) with
  | none => secondWord t
  | some j => if s.mask.getLsbD j then ((w.thread? j).map secondWord).getD (secondWord t) else secondWord t

def execShfl (w : Bool) (mode : BitVec 2) (s : State) : Host.Outcome State Fault Refusal :=
  s.run fun h d =>
    let n := Need.of 2 w 2 1
    d.issueWarp h n fun id w s =>
      d.commit id (w.onLanes s.mask fun t => t.onStack (popPush 2 (shuffled mode w s t))) (s.after n)

end Sys2Proof.Machine
end

