-- ==== Sys2Proof/Machine/Integer.lean ====
section
/-! DEFINITION. The integer instructions on words, bit fields and 64-bit pairs (R161 to R170). -/

namespace Sys2Proof.Machine

open Sys2Proof

/-! ## Arithmetic on words (R162 to R164) -/

/-- An exact value as a word, modulo 2^32. -/
def wrapWord (v : Int) : Word := BitVec.ofInt 32 v

/-- R163: an exact value limited to s32. -/
def satSigned (v : Int) : Word := wrapWord (max (-2147483648) (min 2147483647 v))

/-- R163: an exact value limited to n32. -/
def satNatural (v : Int) : Word := wrapWord (max 0 (min 4294967295 v))

/-- A word as s32, or as n32. -/
def wordInt (nat : Bool) (a : Word) : Int := if nat then (a.toNat : Int) else a.toInt

def intAdd (nat sat : Bool) : LaneOp :=
  op2 fun a b =>
    let v := wordInt nat a + wordInt nat b
    if !sat then a + b else if nat then satNatural v else satSigned v

def intSub (nat sat : Bool) : LaneOp :=
  op2 fun a b =>
    let v := wordInt nat a - wordInt nat b
    if !sat then a - b else if nat then satNatural v else satSigned v

def intMul : LaneOp := op2 fun a b => a * b

/-- R162: bits [63:32] of the product. -/
def intMulh (nat : Bool) : LaneOp := op2 fun a b => high (BitVec.ofInt 64 (wordInt nat a * wordInt nat b))

/-- R164: the quotient truncated toward zero. -/
def quotient (nat : Bool) (a b : Word) : Word :=
  if b = 0 then 0xFFFFFFFF else wrapWord (Int.tdiv (wordInt nat a) (wordInt nat b))

/-- R164: the remainder, with the sign of a. -/
def remainder (nat : Bool) (a b : Word) : Word :=
  if b = 0 then a else wrapWord (Int.tmod (wordInt nat a) (wordInt nat b))

def intDiv (nat : Bool) : LaneOp := op2 (quotient nat)
def intRem (nat : Bool) : LaneOp := op2 (remainder nat)
def intNeg : LaneOp := op1 fun a => -a
def intAbs : LaneOp := op1 fun a => if a.msb then -a else a

def intMin (nat : Bool) : LaneOp := op2 fun a b => if wordInt nat b < wordInt nat a then b else a
def intMax (nat : Bool) : LaneOp := op2 fun a b => if wordInt nat a < wordInt nat b then b else a
def intAnd : LaneOp := op2 fun a b => a &&& b
def intOr : LaneOp := op2 fun a b => a ||| b
def intXor : LaneOp := op2 fun a b => a ^^^ b
def intNot : LaneOp := op1 fun a => ~~~a

/-! ## Shifts and bit counts (R162, R165) -/

def shiftLeft (a b : Word) : Word := if b.toNat < 32 then a <<< b.toNat else 0
def shiftRight (a b : Word) : Word := if b.toNat < 32 then a >>> b.toNat else 0
def shiftArith (a b : Word) : Word := a.sshiftRight (Nat.min b.toNat 31)
def rotateLeft (a b : Word) : Word := a.rotateLeft (b.toNat % 32)

def intShl : LaneOp := op2 shiftLeft
def intShr : LaneOp := op2 shiftRight
def intSra : LaneOp := op2 shiftArith
def intRotl : LaneOp := op2 rotateLeft

/-- The place of the first bit that is 1 in a list of places, or 32. -/
def firstOne (a : Word) (places : List Nat) : Nat := (places.findIdx? fun i => a.getLsbD i).getD 32

def bitCount (a : Word) : Word := BitVec.ofNat 32 (popcount a)
def leadingZeros (a : Word) : Word := BitVec.ofNat 32 (firstOne a (List.range 32).reverse)
def trailingZeros (a : Word) : Word := BitVec.ofNat 32 (firstOne a (List.range 32))
def bitReverse (a : Word) : Word := a.reverse

def intPopc : LaneOp := op1 bitCount
def intClz : LaneOp := op1 leadingZeros
def intCtz : LaneOp := op1 trailingZeros
def intBrev : LaneOp := op1 bitReverse

/-! ## Choice, multiply-add and comparison (R166, R167) -/

def intSel : LaneOp := op3 fun c a b => if c != 0 then a else b
def intMad : LaneOp := op3 fun x a b => x + a * b

/-- R167: the condition of an integer comparison. -/
def compareInt (cond : BitVec 3) (a b : Int) : Bool :=
  match cond.toNat with
  | 0 => a == b
  | 1 => a != b
  | 2 => decide (a < b)
  | 3 => decide (a ≤ b)
  | 4 => decide (b < a)
  | _ => decide (b ≤ a)

/-- A truth value as a cell. -/
def truth (b : Bool) : Word := if b then 1 else 0

def intCmp (nat : Bool) (cond : BitVec 3) : LaneOp :=
  op2 fun a b => truth (compareInt cond (wordInt nat a) (wordInt nat b))

/-! ## Bit fields (R168) -/

/-- The low `len` bits. -/
def fieldMask (len : Nat) : Word := BitVec.ofNat 32 (2 ^ len - 1)

/-- R168: the field of `len` bits at `pos`. -/
def extractField (signed : Bool) (len pos : Nat) (a : Word) : Word :=
  let v := (a >>> pos) &&& fieldMask len
  if signed && v.getLsbD (len - 1) then v ||| ~~~(fieldMask len) else v

/-- R168: a with the field replaced. -/
def insertField (len pos : Nat) (a b : Word) : Word :=
  let m := fieldMask len <<< pos
  (a &&& ~~~m) ||| ((b <<< pos) &&& m)

/-! ## Pairs and addresses (R169, R170) -/

/-- An operation on values of `a` and `b` cells with a result of `r` cells. -/
def wide (a b r : Nat) (f : Dword → Dword → Dword) : LaneOp := ⟨0, a, b, r, fun _ x y => (f x y, 0)⟩

def pairAdd : LaneOp := wide 2 2 2 fun a b => a + b
def pairSub : LaneOp := wide 2 2 2 fun a b => a - b

def pairMul (nat : Bool) : LaneOp :=
  wide 1 1 2 fun a b => BitVec.ofInt 64 (wordInt nat (low a) * wordInt nat (low b))

/-- R169: shifts of 64 bits by a word taken as n32. -/
def pairShl : LaneOp := wide 2 1 2 fun a b => if (low b).toNat < 64 then a <<< (low b).toNat else 0
def pairShr (arith : Bool) : LaneOp :=
  wide 2 1 2 fun a b =>
    if arith then a.sshiftRight (Nat.min (low b).toNat 63)
    else if (low b).toNat < 64 then a >>> (low b).toNat else 0

def pairCmp (nat : Bool) (cond : BitVec 3) : LaneOp :=
  wide 2 2 1 fun a b =>
    BitVec.setWidth 64 (truth
      (if nat then compareInt cond (a.toNat : Int) (b.toNat : Int) else compareInt cond a.toInt b.toInt))

/-- R170, R211: base plus a scaled index, modulo 2^64. -/
def scaledAddress (nat : Bool) (scale : BitVec 3) (a : Dword) (i : Word) : Dword :=
  a + ((if nat then BitVec.setWidth 64 i else BitVec.signExtend 64 i) <<< scale.toNat)

def pairLea (nat : Bool) (scale : BitVec 3) : LaneOp := wide 2 1 2 fun a b => scaledAddress nat scale a (low b)

/-! ## Meanings -/

def execAdd (w nat sat : Bool) (s : State) : Host.Outcome State Fault Refusal := s.lane16 w (intAdd nat sat)
def execSub (w nat sat : Bool) (s : State) : Host.Outcome State Fault Refusal := s.lane16 w (intSub nat sat)
def execMul (w : Bool) (s : State) : Host.Outcome State Fault Refusal := s.lane16 w intMul
def execMulh (w nat : Bool) (s : State) : Host.Outcome State Fault Refusal := s.lane16 w (intMulh nat)
def execDiv (w nat : Bool) (s : State) : Host.Outcome State Fault Refusal := s.lane16 w (intDiv nat)
def execRem (w nat : Bool) (s : State) : Host.Outcome State Fault Refusal := s.lane16 w (intRem nat)
def execNeg (w : Bool) (s : State) : Host.Outcome State Fault Refusal := s.lane16 w intNeg
def execAbs (w : Bool) (s : State) : Host.Outcome State Fault Refusal := s.lane16 w intAbs
def execMin (w nat : Bool) (s : State) : Host.Outcome State Fault Refusal := s.lane16 w (intMin nat)
def execMax (w nat : Bool) (s : State) : Host.Outcome State Fault Refusal := s.lane16 w (intMax nat)
def execAnd (w : Bool) (s : State) : Host.Outcome State Fault Refusal := s.lane16 w intAnd
def execOr (w : Bool) (s : State) : Host.Outcome State Fault Refusal := s.lane16 w intOr
def execXor (w : Bool) (s : State) : Host.Outcome State Fault Refusal := s.lane16 w intXor
def execNot (w : Bool) (s : State) : Host.Outcome State Fault Refusal := s.lane16 w intNot
def execShl (w : Bool) (s : State) : Host.Outcome State Fault Refusal := s.lane16 w intShl
def execShr (w : Bool) (s : State) : Host.Outcome State Fault Refusal := s.lane16 w intShr
def execSra (w : Bool) (s : State) : Host.Outcome State Fault Refusal := s.lane16 w intSra
def execRotl (w : Bool) (s : State) : Host.Outcome State Fault Refusal := s.lane16 w intRotl
def execPopc (w : Bool) (s : State) : Host.Outcome State Fault Refusal := s.lane16 w intPopc
def execClz (w : Bool) (s : State) : Host.Outcome State Fault Refusal := s.lane16 w intClz
def execCtz (w : Bool) (s : State) : Host.Outcome State Fault Refusal := s.lane16 w intCtz
def execBrev (w : Bool) (s : State) : Host.Outcome State Fault Refusal := s.lane16 w intBrev
def execSel (w : Bool) (s : State) : Host.Outcome State Fault Refusal := s.lane16 w intSel
def execMad (w : Bool) (s : State) : Host.Outcome State Fault Refusal := s.lane16 w intMad

/-- R124: condition codes 6 and 7 are illegal. -/
def execIcmp (w nat : Bool) (cond : BitVec 3) (s : State) : Host.Outcome State Fault Refusal :=
  if 6 ≤ cond.toNat then s.run fun h d => d.misplaced h else s.lane16 w (intCmp nat cond)

def execAdd2 (w : Bool) (s : State) : Host.Outcome State Fault Refusal := s.lane16 w pairAdd
def execSub2 (w : Bool) (s : State) : Host.Outcome State Fault Refusal := s.lane16 w pairSub
def execMulw (w nat : Bool) (s : State) : Host.Outcome State Fault Refusal := s.lane16 w (pairMul nat)
def execShl2 (w : Bool) (s : State) : Host.Outcome State Fault Refusal := s.lane16 w pairShl
def execShr2 (w arith : Bool) (s : State) : Host.Outcome State Fault Refusal := s.lane16 w (pairShr arith)

def execIcmp2 (w nat : Bool) (cond : BitVec 3) (s : State) : Host.Outcome State Fault Refusal :=
  if 6 ≤ cond.toNat then s.run fun h d => d.misplaced h else s.lane16 w (pairCmp nat cond)

def execLea (w nat : Bool) (scale : BitVec 3) (s : State) : Host.Outcome State Fault Refusal :=
  s.lane16 w (pairLea nat scale)

/-- R168: `len` is the field's length less 1; a field past bit 31 is illegal. -/
def execBfe (w signed : Bool) (len pos : BitVec 5) (s : State) : Host.Outcome State Fault Refusal :=
  s.run fun h d =>
    if 32 < pos.toNat + (len.toNat + 1) then d.misplaced h
    else d.laneOp h 4 w 0 Route.stack (op1 (extractField signed (len.toNat + 1) pos.toNat))

def execBfi (w : Bool) (len pos : BitVec 5) (s : State) : Host.Outcome State Fault Refusal :=
  s.run fun h d =>
    if 32 < pos.toNat + (len.toNat + 1) then d.misplaced h
    else d.laneOp h 4 w 0 Route.stack (op2 (insertField (len.toNat + 1) pos.toNat))

end Sys2Proof.Machine
end

