-- ==== Sys2Proof/Machine/Float.lean ====
section
/-! DEFINITION. Exact numbers, the binary formats, and rounding (R83 to R90, R171). -/

namespace Sys2Proof.Machine

open Sys2Proof

/-! ## Numbers -/

/-- A number: a NaN, an infinity, or ± m × 2^e exactly. With `more` the magnitude lies strictly between
m × 2^e and (m + 1) × 2^e. -/
inductive FpNum where
  | nan (signalling : Bool)
  | inf (neg : Bool)
  | fin (neg : Bool) (m : Nat) (e : Int) (more : Bool)
  deriving DecidableEq, Repr

/-- The number is a signalling NaN. -/
def FpNum.signals : FpNum → Bool
  | .nan s => s
  | _ => false

/-- The number is a NaN. -/
def FpNum.isNan : FpNum → Bool
  | .nan _ => true
  | _ => false

/-- The number is ±0. -/
def FpNum.isZero : FpNum → Bool
  | .fin _ m _ more => m == 0 && !more
  | _ => false

/-- The sign. -/
def FpNum.neg : FpNum → Bool
  | .nan _ => false
  | .inf n => n
  | .fin n _ _ _ => n

/-- +0. -/
def FpNum.zero : FpNum := .fin false 0 0 false

/-- The number with its sign inverted. -/
def FpNum.negate : FpNum → FpNum
  | .nan s => .nan s
  | .inf n => .inf !n
  | .fin n m e more => .fin (!n) m e more

/-- An integer. -/
def FpNum.ofInt (v : Int) : FpNum := .fin (decide (v < 0)) v.natAbs 0 false

/-! ## Formats (R83, R84) -/

/-- A binary format: the widths of its exponent and fraction, and whether it is E4M3, which has no infinity. -/
structure FloatFormat where
  eb : Nat
  fb : Nat
  e4m3 : Bool
  deriving DecidableEq, Repr

def fmtFp64 : FloatFormat := ⟨11, 52, false⟩
def fmtFp32 : FloatFormat := ⟨8, 23, false⟩
def fmtFp16 : FloatFormat := ⟨5, 10, false⟩
def fmtBf16 : FloatFormat := ⟨8, 7, false⟩
def fmtE5m2 : FloatFormat := ⟨5, 2, false⟩
def fmtE4m3 : FloatFormat := ⟨4, 3, true⟩

/-- The bits of an element. -/
def FloatFormat.bits (f : FloatFormat) : Nat := 1 + f.eb + f.fb

/-- R83. -/
def FloatFormat.bias (f : FloatFormat) : Nat := 2 ^ (f.eb - 1) - 1

/-- The exponent of the last place of a subnormal number. -/
def FloatFormat.qmin (f : FloatFormat) : Int := 1 - (f.bias : Int) - f.fb

/-- The sign bit. -/
def FloatFormat.sign (f : FloatFormat) (neg : Bool) : Nat := if neg then 2 ^ (f.eb + f.fb) else 0

/-- R83: the encoding of the largest finite magnitude. -/
def FloatFormat.largest (f : FloatFormat) : Nat := if f.e4m3 then 0x7E else (2 ^ f.eb - 1) * 2 ^ f.fb - 1

/-- R84: the encoding of infinity; E4M3 has none. -/
def FloatFormat.infinity (f : FloatFormat) : Nat := (2 ^ f.eb - 1) * 2 ^ f.fb

/-- R83: the default NaN. -/
def FloatFormat.defaultNan (f : FloatFormat) : Nat :=
  if f.e4m3 then 0x7F else f.infinity + 2 ^ (f.fb - 1)

/-- R84: the NaNs of the format can signal: every NaN of E5M2 and E4M3 is quiet. -/
def FloatFormat.canSignal (f : FloatFormat) : Bool := decide (8 < f.bits)

/-- R83, R84: the number that an encoding stands for. -/
def FloatFormat.decode (f : FloatFormat) (v : Nat) : FpNum :=
  let v := v % 2 ^ f.bits
  let neg := decide (2 ^ (f.eb + f.fb) ≤ v)
  let mag := v % 2 ^ (f.eb + f.fb)
  let e := mag / 2 ^ f.fb
  let frac := mag % 2 ^ f.fb
  if f.e4m3 then
    if mag = 0x7F then .nan false
    else if e = 0 then .fin neg frac f.qmin false
    else .fin neg (2 ^ f.fb + frac) (f.qmin + (e - 1 : Nat)) false
  else if e = 2 ^ f.eb - 1 then
    if frac = 0 then .inf neg else .nan (f.canSignal && decide (frac < 2 ^ (f.fb - 1)))
  else if e = 0 then .fin neg frac f.qmin false
  else .fin neg (2 ^ f.fb + frac) (f.qmin + (e - 1 : Nat)) false

/-! ## Rounding (R87, R88) -/

/-- The number of bits of a natural number. -/
def bitLength (n : Nat) : Nat := if n = 0 then 0 else Nat.log2 n + 1

/-- R87: a magnitude of m units of 2^-k, and a fraction of one where `more` holds, rounded to whole units of
1; whether it was inexact. -/
def roundUnits (mode : Nat) (neg : Bool) (m k : Nat) (more : Bool) : Nat × Bool :=
  let q := m >>> k
  let rest := m - (q <<< k)
  let half := if k = 0 then 0 else 1 <<< (k - 1)
  let inexact := rest != 0 || more
  let up := match mode with
    | 0 => k != 0 && (decide (half < rest) || (rest == half && (more || q % 2 == 1)))
    | 1 => false
    | 2 => inexact && neg
    | _ => inexact && !neg
  (if up then q + 1 else q, inexact)

/-- The magnitude in units of 2^q, rounded. -/
def roundAt (mode : Nat) (neg : Bool) (m : Nat) (e : Int) (more : Bool) (q : Int) : Nat × Bool :=
  if q ≤ e then (m <<< (e - q).toNat, more) else roundUnits mode neg m (q - e).toNat more

/-- R87, R90: what an overflow gives: infinity or the largest finite magnitude. -/
def FloatFormat.overflow (f : FloatFormat) (mode : Nat) (neg sat : Bool) : Nat :=
  let toInf := match mode with
    | 0 => true
    | 1 => false
    | 2 => neg
    | _ => !neg
  if sat || !toInf then f.sign neg + f.largest
  else if f.e4m3 then f.defaultNan else f.sign neg + f.infinity

/-- R88: the result, rounded as if the exponent were unbounded, is smaller than the smallest normal value. -/
def FloatFormat.tiny (f : FloatFormat) (mode : Nat) (neg : Bool) (m : Nat) (e : Int) (more : Bool) : Bool :=
  let q := e + bitLength m - (f.fb + 1 : Nat)
  let r := (roundAt mode neg m e more q).1
  decide (q + bitLength r ≤ f.qmin + f.fb)

/-- R87, R88, R90: a number rounded into a format, with its flags. A NaN gives the default NaN; whether it is
invalid is the operation's to say. -/
def FloatFormat.round (f : FloatFormat) (mode : Nat) (sat : Bool) : FpNum → Nat × Flags
  | .nan _ => (f.defaultNan, 0)
  | .inf neg =>
    if f.e4m3 then if sat then (f.sign neg + f.largest, 0) else (f.defaultNan, flagNV)
    else (f.sign neg + f.infinity, 0)
  | .fin neg m e more =>
    if m = 0 && !more then (f.sign neg, 0)
    else
      let q := max (e + bitLength m - (f.fb + 1 : Nat)) f.qmin
      let (r, inexact) := roundAt mode neg m e more q
      let mag := (q - f.qmin).toNat * 2 ^ f.fb + r
      if f.largest < mag then (f.overflow mode neg sat, flagOF ||| flagNX)
      else
        (f.sign neg + mag,
          flagIf inexact (flagNX ||| flagIf (f.tiny mode neg m e more) flagUF))

/-! ## Exact operations (R171) -/

/-- R171: a NaN among the operands: the result is a NaN, invalid where one signals. -/
def nanOf (xs : List FpNum) : Option Flags :=
  if xs.any FpNum.isNan then some (flagIf (xs.any FpNum.signals) flagNV) else none

/-- An exact sum of two finite numbers; a zero sum of opposite signs is −0 under RDN only. -/
def addFinite (mode : Nat) (na : Bool) (ma : Nat) (ea : Int) (nb : Bool) (mb : Nat) (eb : Int) : FpNum :=
  let e := min ea eb
  let a : Int := (ma <<< (ea - e).toNat : Nat)
  let b : Int := (mb <<< (eb - e).toNat : Nat)
  let s := (if na then -a else a) + (if nb then -b else b)
  if s = 0 then .fin (if na == nb then na else mode == 2) 0 0 false
  else .fin (decide (s < 0)) s.natAbs e false

/-- The exponents of a sum brought together, where one is zero. -/
def addNum (mode : Nat) (a b : FpNum) : FpNum × Flags :=
  match nanOf [a, b] with
  | some fl => (.nan false, fl)
  | none =>
    match a, b with
    | .inf na, .inf nb => if na == nb then (.inf na, 0) else (.nan false, flagNV)
    | .inf n, _ => (.inf n, 0)
    | _, .inf n => (.inf n, 0)
    | .fin na ma ea _, .fin nb mb eb _ =>
      if mb = 0 && ma != 0 then (a, 0)
      else if ma = 0 && mb != 0 then (b, 0)
      else (addFinite mode na ma ea nb mb eb, 0)
    | _, _ => (.nan false, 0)

/-- A product. -/
def mulNum (a b : FpNum) : FpNum × Flags :=
  match nanOf [a, b] with
  | some fl => (.nan false, fl)
  | none =>
    match a, b with
    | .fin na ma ea _, .fin nb mb eb _ => (.fin (na != nb) (ma * mb) (ea + eb) false, 0)
    | _, _ => if a.isZero || b.isZero then (.nan false, flagNV) else (.inf (a.neg != b.neg), 0)

/-- x + a × b. A signalling addend, and 0 × ∞ with a quiet NaN as addend, are invalid. -/
def fmaNum (mode : Nat) (x a b : FpNum) : FpNum × Flags :=
  let (p, fp) := mulNum a b
  let (r, fr) := addNum mode x p
  (r, fp ||| fr)

/-- A quotient, to 120 bits past the dividend's last place. -/
def divNum (a b : FpNum) : FpNum × Flags :=
  match nanOf [a, b] with
  | some fl => (.nan false, fl)
  | none =>
    match a, b with
    | .inf _, .inf _ => (.nan false, flagNV)
    | .inf na, _ => (.inf (na != b.neg), 0)
    | _, .inf nb => (.fin (a.neg != nb) 0 0 false, 0)
    | .fin na ma ea _, .fin nb mb eb _ =>
      if mb = 0 then if ma = 0 then (.nan false, flagNV) else (.inf (na != nb), flagDZ)
      else
        let n := ma <<< 120
        (.fin (na != nb) (n / mb) (ea - eb - 120) (n % mb != 0), 0)
    | _, _ => (.nan false, 0)

/-- The integer square root, a bit at a time from bit `n - 1` down. -/
def sqrtBits (v : Nat) : Nat → Nat → Nat
  | 0, r => r
  | n + 1, r =>
    let t := r + 1 <<< n
    sqrtBits v n (if t * t ≤ v then t else r)

/-- The integer square root. -/
def natSqrt (v : Nat) : Nat := sqrtBits v (bitLength v / 2 + 1) 0

/-- A square root. -/
def sqrtNum (a : FpNum) : FpNum × Flags :=
  match a with
  | .nan s => (.nan false, flagIf s flagNV)
  | .inf n => if n then (.nan false, flagNV) else (.inf false, 0)
  | .fin neg m e _ =>
    if m = 0 then (a, 0)
    else if neg then (.nan false, flagNV)
    else
      let odd := (e % 2).toNat
      let v := m <<< (128 + odd)
      let r := natSqrt v
      (.fin false r ((e - odd - 128) / 2) (r * r != v), 0)

/-- R171, R173: an operation's exact result, rounded once into the format. -/
def FloatFormat.finish (f : FloatFormat) (mode : Nat) (r : FpNum × Flags) : Nat × Flags :=
  let (v, fl) := f.round mode false r.1
  (v, r.2 ||| fl)

/-! ## Order (R175, R176) -/

/-- The order of two finite magnitudes of one sign. -/
def magnitudeLess (ma : Nat) (ea : Int) (mb : Nat) (eb : Int) : Bool :=
  let e := min ea eb
  decide (ma <<< (ea - e).toNat < mb <<< (eb - e).toNat)

/-- a < b, for numbers, with −0 equal to +0. -/
def numLess (a b : FpNum) : Bool :=
  match a, b with
  | .inf na, .inf nb => na && !nb
  | .inf na, .fin _ _ _ _ => na
  | .fin _ _ _ _, .inf nb => !nb
  | .fin na ma ea _, .fin nb mb eb _ =>
    if ma = 0 && mb = 0 then false
    else if ma = 0 then !nb
    else if mb = 0 then na
    else if na && !nb then true
    else if !na && nb then false
    else if na then magnitudeLess mb eb ma ea
    else magnitudeLess ma ea mb eb
  | _, _ => false

/-- R175: a < b with −0 below +0. -/
def numBelow (a b : FpNum) : Bool := numLess a b || (!numLess b a && a.neg && !b.neg)

/-- R175: `fmin` and `fmax` on encodings. -/
def FloatFormat.minMax (f : FloatFormat) (max : Bool) (a b : Nat) : Nat × Flags :=
  let x := f.decode a
  let y := f.decode b
  let fl := flagIf (x.signals || y.signals) flagNV
  if x.isNan && y.isNan then (f.defaultNan, fl)
  else if x.isNan then (b, fl)
  else if y.isNan then (a, fl)
  else (if (if max then numBelow x y else numBelow y x) then b else a, 0)

/-! ## Integers (R89) -/

/-- R87: a number rounded to an integer; whether it was inexact. -/
def roundInteger (mode : Nat) (neg : Bool) (m : Nat) (e : Int) (more : Bool) : Int × Bool :=
  let (r, inexact) := roundAt mode neg m e more 0
  (if neg then -(r : Int) else r, inexact)

/-- R89: a number converted to an integer type with the given range. -/
def toInteger (mode : Nat) (lo hi : Int) : FpNum → Int × Flags
  | .nan _ => (0, flagNV)
  | .inf neg => (if neg then lo else hi, flagNV)
  | .fin neg m e more =>
    let (v, inexact) := roundInteger mode neg m e more
    if v < lo then (lo, flagNV) else if hi < v then (hi, flagNV) else (v, flagIf inexact flagNX)

end Sys2Proof.Machine
end

