-- ==== Sys2Proof/Machine/FloatFunctions.lean ====
section
/-! DEFINITION. The functions of R179, from series carried to 320 bits after the point. A value other than the
exact ones of R179 is irrational, so it lies strictly between two neighbours of its last place; the rounding of
R179 takes the place below it (notes/assumptions/12.md). -/

namespace Sys2Proof.Machine

open Sys2Proof

/-- The bits after the point. -/
def seriesBits : Nat := 320

/-- A fixed-point 1. -/
def seriesOne : Nat := 1 <<< seriesBits

/-- ln 2, in fixed point. -/
def ln2Fixed : Nat := 0xb17217f7d1cf79abc9e3b39803f2f6af40f343267298b62d8a0d175b8baafa2be7b876206debac98

/-- π, in fixed point. -/
def piFixed : Nat := 0x3243f6a8885a308d313198a2e03707344a4093822299f31d0082efa98ec4e6c89452821e638d01377

/-- The terms x^n / n! of e^x from the n-th on, each of the fuel's. -/
def expTerms (x : Nat) : Nat → Nat → Nat → Nat
  | 0, _, _ => 0
  | fuel + 1, n, t => t + expTerms x fuel (n + 1) ((t * x / (n + 1)) >>> seriesBits)

/-- e^x for x below 1, in fixed point. -/
def expFixed (x : Nat) : Nat := expTerms x 80 0 seriesOne

/-- The terms of an alternating series in x²: the n-th is t, and the next one t × x² / ((n + 1)(n + 2)). -/
def turnTerms (x2 : Nat) : Nat → Nat → Nat → Int
  | 0, _, _ => 0
  | fuel + 1, n, t =>
    (t : Int) - turnTerms x2 fuel (n + 2) (((t * x2) >>> seriesBits) / ((n + 1) * (n + 2)))

/-- The square of a fixed-point value. -/
def fixedSquare (x : Nat) : Nat := (x * x) >>> seriesBits

/-- sin x and cos x for x up to π/2, in fixed point. -/
def sinFixed (x : Nat) : Nat := (turnTerms (fixedSquare x) 50 1 x).toNat
def cosFixed (x : Nat) : Nat := (turnTerms (fixedSquare x) 50 0 seriesOne).toNat

/-- The terms z^n / n for odd n, of the area tangent. -/
def atanhTerms (z2 : Nat) : Nat → Nat → Nat → Nat
  | 0, _, _ => 0
  | fuel + 1, n, p => p / n + atanhTerms z2 fuel (n + 2) ((p * z2) >>> seriesBits)

/-- log2 of m / 2^k, for a value in [1, 2), in fixed point. -/
def log2Fixed (m k : Nat) : Nat :=
  let one := 1 <<< k
  let z := (m - one) <<< seriesBits / (m + one)
  let ln := 2 * atanhTerms (fixedSquare z) 110 1 z
  (ln <<< seriesBits) / ln2Fixed

/-- A fixed-point value that the function's value exceeds by less than one place. -/
def FpNum.approx (neg : Bool) (v : Nat) (e : Int) : FpNum := .fin neg v (e - seriesBits) true

/-- R179: the operand's special cases: NaN. -/
def nanCase (x : FpNum) (k : FpNum × Flags) : FpNum × Flags :=
  match x with
  | .nan s => (.nan false, flagIf s flagNV)
  | _ => k

/-- R179: 1/√b. -/
def rsqrtNum (x : FpNum) : FpNum × Flags :=
  nanCase x (match x with
    | .inf n => if n then (.nan false, flagNV) else (.fin false 0 0 false, 0)
    | .fin neg m e _ =>
      if m = 0 then (.inf neg, flagDZ)
      else if neg then (.nan false, flagNV)
      else
        let odd := (e % 2).toNat
        let v := m <<< odd
        let r := natSqrt (1 <<< 160 / v)
        (.fin false r (-80 - (e - odd) / 2) (r * r * v != 1 <<< 160), 0)
    | .nan _ => (.nan false, 0))

/-- The integer part, rounded down, of ± m × 2^e with e < 0, and the fraction in fixed point. -/
def splitFixed (neg : Bool) (m : Nat) (k : Nat) : Int × Nat :=
  let whole := m >>> k
  let frac := (m - (whole <<< k)) <<< (seriesBits - k)
  if neg then if frac = 0 then (-(whole : Int), 0) else (-(whole : Int) - 1, seriesOne - frac) else (whole, frac)

/-- R179: 2^b. Below −400 the value rounds as 2^−400 does. -/
def exp2Num (x : FpNum) : FpNum × Flags :=
  nanCase x (match x with
    | .inf n => if n then (.fin false 0 0 false, 0) else (.inf false, 0)
    | .fin neg m e _ =>
      let whole : Int := (m <<< e.toNat : Nat)
      let (n, frac) := if 0 ≤ e then (if neg then -whole else whole, 0) else splitFixed neg m (-e).toNat
      if 128 ≤ n then (.inf false, flagOF ||| flagNX)
      else
        let n := max n (-400)
        if frac = 0 then (.fin false 1 n false, 0) else (.approx false (expFixed ((frac * ln2Fixed) >>> seriesBits)) n, 0)
    | .nan _ => (.nan false, 0))

/-- R179: log2 b. -/
def log2Num (x : FpNum) : FpNum × Flags :=
  nanCase x (match x with
    | .inf n => if n then (.nan false, flagNV) else (.inf false, 0)
    | .fin neg m e _ =>
      if m = 0 then (.inf true, flagDZ)
      else if neg then (.nan false, flagNV)
      else
        let k := bitLength m - 1
        let n : Int := e + k
        if m = 1 <<< k then (.ofInt n, 0)
        else
          let v : Int := n * (seriesOne : Int) + (log2Fixed m k : Int)
          if v < 0 then (.approx true (v.natAbs - 1) 0, 0) else (.approx false v.natAbs 0, 0)
    | .nan _ => (.nan false, 0))

/-- The quarter of a turn that |b| lies in, 0 to 3, and how far into it, in fixed point. -/
def quarterOf (m : Nat) (k : Nat) : Nat × Nat :=
  let four := m <<< 2
  let whole := four >>> k
  (whole % 4, (four - (whole <<< k)) <<< (seriesBits - k))

/-- sin and cos at the start of a quarter. -/
def quarterValue (q : Nat) : Int :=
  match q with
  | 0 => 0
  | 1 => 1
  | 2 => 0
  | _ => -1

/-- R179: the sine of (q + u) quarters of a turn, with its sign. -/
def sineAt (neg : Bool) (q u : Nat) : FpNum × Flags :=
  if u = 0 then
    let v := quarterValue q
    if v = 0 then (.fin false 0 0 false, 0) else (.fin (decide (v < 0) != neg) 1 0 false, 0)
  else
    let x := (piFixed * u) >>> (seriesBits + 1)
    (.approx (decide (2 ≤ q) != neg) (if q % 2 = 0 then sinFixed x else cosFixed x) 0, 0)

/-- R179: sin(2πb). -/
def sinNum (x : FpNum) : FpNum × Flags :=
  nanCase x (match x with
    | .fin neg m e _ =>
      if m = 0 then (x, 0)
      else if 0 ≤ e then sineAt neg 0 0
      else let (q, u) := quarterOf m (-e).toNat
           sineAt neg q u
    | _ => (.nan false, flagNV))

/-- R179: cos(2πb): the sine a quarter of a turn on. -/
def cosNum (x : FpNum) : FpNum × Flags :=
  nanCase x (match x with
    | .fin _ m e _ =>
      if m = 0 || 0 ≤ e then sineAt false 1 0
      else let (q, u) := quarterOf m (-e).toNat
           sineAt false ((q + 1) % 4) u
    | _ => (.nan false, flagNV))

end Sys2Proof.Machine
end

