-- ==== Sys2Proof/Machine/Formats.lean ====
section
/-! DEFINITION. Elements by format code, the packing of values into blocks, and 2:4-sparse lines (R82, R86,
R91 to R99). -/

namespace Sys2Proof.Machine

open Sys2Proof

/-! ## Format codes (R82) -/

/-- R83: the binary format of a code. -/
def floatOf (code : Nat) : Option FloatFormat :=
  match code with
  | 0x00 => some fmtFp32
  | 0x01 => some fmtFp16
  | 0x02 => some fmtBf16
  | 0x03 => some fmtE4m3
  | 0x04 => some fmtE5m2
  | 0x05 => some fmtFp64
  | _ => none

/-- R86: the width of an integer code, and whether it is signed. -/
def integerOf (code : Nat) : Option (Nat × Bool) :=
  match code with
  | 0x10 => some (8, true)
  | 0x11 => some (4, true)
  | 0x12 => some (8, false)
  | 0x18 => some (32, true)
  | _ => none

/-- R91: the magnitude bits M of a block format. -/
def blockOf (code : Nat) : Option Nat :=
  match code with
  | 0x20 => some 2
  | 0x21 => some 4
  | 0x22 => some 6
  | 0x23 => some 10
  | 0x28 => some 2
  | 0x2A => some 6
  | _ => none

/-- R95: the code is of a 2:4-sparse format. -/
def sparseCode (code : Nat) : Bool := code == 0x28 || code == 0x2A

/-- R82: the bits of an element. -/
def elementBits (code : Nat) : Nat :=
  match floatOf code, integerOf code, blockOf code with
  | some f, _, _ => f.bits
  | _, some (w, _), _ => w
  | _, _, some m => m + 2
  | _, _, _ => 0

/-- The range of an integer type. -/
def integerRange (w : Nat) (signed : Bool) : Int × Int :=
  if signed then (-(2 ^ (w - 1) : Nat), (2 ^ (w - 1) - 1 : Nat)) else (0, (2 ^ w - 1 : Nat))

/-- The integer that `w` bits stand for. -/
def integerValue (w : Nat) (signed : Bool) (v : Nat) : Int :=
  let v := v % 2 ^ w
  if signed && decide (2 ^ (w - 1) ≤ v) then (v : Int) - (2 ^ w : Nat) else v

/-- The `w` bits of an integer. -/
def integerBits (w : Nat) (v : Int) : Nat := (v % (2 ^ w : Nat)).toNat

/-- The value of an element that is not of a block format. -/
def elementValue (code v : Nat) : FpNum :=
  match floatOf code, integerOf code with
  | some f, _ => f.decode v
  | _, some (w, sg) => .ofInt (integerValue w sg v)
  | _, _ => .zero

/-- R89, R90: a value converted to a format that is not a block format, with its flags. -/
def elementEncode (code mode : Nat) (sat : Bool) (x : FpNum) : Nat × Flags :=
  match floatOf code, integerOf code with
  | some f, _ =>
    let (v, fl) := f.round mode sat x
    (v, fl ||| flagIf x.signals flagNV)
  | _, some (w, sg) =>
    let (lo, hi) := integerRange w sg
    let (v, fl) := toInteger mode lo hi x
    (integerBits w v, fl)
  | _, _ => (0, 0)

/-! ## Blocks (R91 to R94) -/

/-- R91: the bytes of a block's payload. -/
def payloadBytes (m : Nat) : Nat := (m + 2) * 4

/-- R91, R92: the value of a block element. -/
def blockValue (m e0 e1 v : Nat) : FpNum :=
  let mag := v % 2 ^ m
  let neg := decide (v / 2 ^ m % 2 = 1)
  let e := if v / 2 ^ (m + 1) % 2 = 1 then e1 else e0
  if e = 255 then if mag = 0 then .inf neg else .nan false
  else .fin neg mag ((e : Int) - 127 - m) false

/-- R94: Q of a finite value: its magnitude in units of the exponent, rounded; whether it was inexact. -/
def blockUnits (mode m e : Nat) : FpNum → Nat × Bool
  | .fin neg mag x more => roundAt mode neg mag x more ((e : Int) - 127 - m)
  | _ => (0, false)

/-- A block as R94 encodes it. -/
structure Block where
  elements : List Nat
  e0 : Nat
  e1 : Nat
  flags : List Flags
  nans : Nat
  deriving DecidableEq, Repr

/-- R94: the encoding of one element, with its flags: a nonzero element that becomes an infinity encodes with m = 0. -/
def blockElement (mode m e0 e1 : Nat) (sat : Bool) (x : FpNum) : Nat × Flags :=
  let s := if x.neg then 2 ^ m else 0
  let one := 2 ^ (m + 1)
  match x with
  | .nan sg => (one + 1, flagIf sg flagNV)
  | .inf _ => (one + s, 0)
  | .fin _ _ _ _ =>
    let (q1, i1) := blockUnits mode m e1 x
    let (q0, i0) := blockUnits mode m e0 x
    let small := fun (q : Nat) (i : Bool) => flagIf i flagNX ||| flagIf (q == 0 && !x.isZero) (flagUF ||| flagNX)
    if e1 < 255 && decide (q1 < 2 ^ m) then (one + s + q1, small q1 i1)
    else if q0 < 2 ^ m then (s + q0, small q0 i0)
    else if sat then (s + (2 ^ m - 1), flagOF ||| flagNX)
    else (one + s, flagOF ||| flagUF ||| flagNX)

/-- R94: BLOCKENC. -/
def blockEncode (slot : FormatSlot) (m : Nat) (xs : List FpNum) : Block :=
  let nans := if slot.naz then (xs.filter FpNum.isNan).length else 0
  let xs := if slot.naz then xs.map fun x => if x.isNan then FpNum.zero else x else xs
  let fits := fun (e : Nat) => xs.all fun x => decide ((blockUnits slot.round m e x).1 < 2 ^ m)
  let e0 := ((List.range 254).map (· + 1)).find? fits
  let ovf := e0.isNone
  let e0 := e0.getD 254
  let special := xs.any fun x => match x with
    | .fin _ _ _ _ => false
    | _ => true
  let e1 := if special || (ovf && !slot.sat) then 255 else Nat.max (e0 - m) 1
  let rs := xs.map (blockElement slot.round m e0 e1 slot.sat)
  ⟨rs.map Prod.fst, e0, e1, rs.map Prod.snd, nans⟩

/-- R93: elements of `w` bits as one little-endian bit stream. -/
def packStream (w : Nat) : List Nat → Nat
  | [] => 0
  | v :: vs => v % 2 ^ w + 2 ^ w * packStream w vs

/-- Element i of a bit stream of `w`-bit elements. -/
def streamElement (w i v : Nat) : Nat := v / 2 ^ (w * i) % 2 ^ w

/-! ## Sparse lines (R95, R96) -/

/-- R95: the blocks that a line may hold. -/
def lineBlocks (code : Nat) : Nat := if code = 0x28 then 9 else 5

/-- R95: the offset and the bytes of block b's payload. -/
def linePayload (code b : Nat) : Nat × Nat := if code = 0x28 then (56 + 8 * b, 8) else (32 + 16 * b, 16)

/-- R96: the position of kept value j of a block. -/
def linePosition (line : List Byte) (b j : Nat) : Nat := field line (4 + 6 * b) 4 / 4 ^ j % 4

/-- R96: a line is malformed. -/
def lineMalformed (code : Nat) (line : List Byte) : Bool :=
  let count := field line 1 1
  field line 0 1 != code || count == 0 || decide (lineBlocks code < count) ||
    (List.range count).any fun b => (List.range 8).any fun g =>
      decide (linePosition line b (2 * g + 1) ≤ linePosition line b (2 * g))

/-- R96: the values of a block of a line, none for an element that the line skips. -/
def lineValues (code : Nat) (line : List Byte) (b : Nat) : List (Option FpNum) :=
  let m := (blockOf code).getD 0
  let (off, n) := linePayload code b
  let v := field line off n
  let kept := (List.range 16).map fun j =>
    (4 * (j / 2) + linePosition line b j,
      blockValue m (field line (2 + 6 * b) 1) (field line (3 + 6 * b) 1) (streamElement (m + 2) j v))
  (List.range 32).map fun i => (kept.find? fun e => e.1 == i).map Prod.snd

/-- The format slot n of a launch record. -/
def LaunchRecord.slot (r : LaunchRecord) (n : Nat) : FormatSlot := r.slots.getD n ⟨0, false, false, false, 0, 0, 0⟩

end Sys2Proof.Machine
end

