-- ==== Sys2Proof/Machine/FloatOps.lean ====
section
/-! DEFINITION. The floating-point instructions (R171 to R182), and the routed forms of the lane instructions
(R126, R129). -/

namespace Sys2Proof.Machine

open Sys2Proof

/-! ## FP32 (R173 to R179) -/

/-- A word as FP32. -/
def fp32 (v : Word) : FpNum := fmtFp32.decode v.toNat

/-- An exact FP32 result, rounded. -/
def fpResult (mode : Nat) (r : FpNum × Flags) : Word × Flags :=
  let (v, fl) := fmtFp32.finish mode r
  (BitVec.ofNat 32 v, fl)

def fpAdd (rm : BitVec 2) : LaneOp := fop2 fun a b => fpResult rm.toNat (addNum rm.toNat (fp32 a) (fp32 b))
def fpSub (rm : BitVec 2) : LaneOp := fop2 fun a b => fpResult rm.toNat (addNum rm.toNat (fp32 a) (fp32 b).negate)
def fpMul (rm : BitVec 2) : LaneOp := fop2 fun a b => fpResult rm.toNat (mulNum (fp32 a) (fp32 b))
def fpDiv (rm : BitVec 2) : LaneOp := fop2 fun a b => fpResult rm.toNat (divNum (fp32 a) (fp32 b))
def fpFma (rm : BitVec 2) : LaneOp :=
  fop3 fun x a b => fpResult rm.toNat (fmaNum rm.toNat (fp32 x) (fp32 a) (fp32 b))
def fpSqrt (rm : BitVec 2) : LaneOp := fop1 fun b => fpResult rm.toNat (sqrtNum (fp32 b))
def fpRcp (rm : BitVec 2) : LaneOp := fop1 fun b => fpResult rm.toNat (divNum (FpNum.ofInt 1) (fp32 b))

def fpNeg : LaneOp := op1 fun b => b ^^^ 0x80000000
def fpAbs : LaneOp := op1 fun b => b &&& 0x7FFFFFFF

/-- R175. -/
def fpMinMax (max : Bool) : LaneOp :=
  fop2 fun a b =>
    let (v, fl) := fmtFp32.minMax max a.toNat b.toNat
    (BitVec.ofNat 32 v, fl)

/-- R176: the condition of a comparison, and whether it is invalid. -/
def fpCompare (cond : BitVec 3) (a b : FpNum) : Bool × Bool :=
  let un := a.isNan || b.isNan
  let sg := a.signals || b.signals
  let eq := !numLess a b && !numLess b a
  match cond.toNat with
  | 0 => (!un && eq, sg)
  | 1 => (un || !eq, sg)
  | 2 => (!un && numLess a b, un)
  | 3 => (!un && !numLess b a, un)
  | 4 => (!un && numLess b a, un)
  | 5 => (!un && !numLess a b, un)
  | 6 => (un, sg)
  | _ => (!un, sg)

def fpCmp (cond : BitVec 3) : LaneOp :=
  fop2 fun a b =>
    let (c, nv) := fpCompare cond (fp32 a) (fp32 b)
    (truth c, flagIf nv flagNV)

/-- R177: the class of a number. -/
def fpClassBit (b : FpNum) : Nat :=
  match b with
  | .nan sg => if sg then 8 else 9
  | .inf neg => if neg then 0 else 7
  | .fin neg m _ _ =>
    if m = 0 then if neg then 3 else 4
    else if m < 2 ^ 23 then if neg then 2 else 5
    else if neg then 1 else 6

def fpClass : LaneOp := op1 fun b => BitVec.ofNat 32 (2 ^ fpClassBit (fp32 b))

/-- R178: a word rounded to an integral value. -/
def fpRound (inexact : Bool) (rm : BitVec 2) (b : Word) : Word × Flags :=
  match fp32 b with
  | .nan sg => (BitVec.ofNat 32 fmtFp32.defaultNan, flagIf sg flagNV)
  | .inf _ => (b, 0)
  | .fin neg m e more =>
    let (r, x) := roundAt rm.toNat neg m e more 0
    if 0 ≤ e || m = 0 then (b, 0)
    else (BitVec.ofNat 32 (fmtFp32.round 0 false (.fin neg r 0 false)).1, flagIf (x && inexact) flagNX)

def fpRnd (inexact : Bool) (rm : BitVec 2) : LaneOp := fop1 (fpRound inexact rm)

def fpRsq : LaneOp := fop1 fun b => fpResult 0 (rsqrtNum (fp32 b))
def fpEx2 : LaneOp := fop1 fun b => fpResult 0 (exp2Num (fp32 b))
def fpLg2 : LaneOp := fop1 fun b => fpResult 0 (log2Num (fp32 b))
def fpSin : LaneOp := fop1 fun b => fpResult 0 (sinNum (fp32 b))
def fpCos : LaneOp := fop1 fun b => fpResult 0 (cosNum (fp32 b))

/-! ## Packed FP16 and BF16 (R180) -/

/-- R180: the format of the packed elements. -/
def packedFormat (bf : Bool) : FloatFormat := if bf then fmtBf16 else fmtFp16

/-- Element i of a packed cell. -/
def packedElement (v : Word) (i : Nat) : Nat := v.toNat / 2 ^ (16 * i) % 65536

/-- A packed cell from its elements, with the flags of both. -/
def packedResult (f : Nat → Nat × Flags) : Word × Flags :=
  (BitVec.ofNat 32 ((f 0).1 + 65536 * (f 1).1), (f 0).2 ||| (f 1).2)

def packedAdd (bf sub : Bool) (rm : BitVec 2) : LaneOp :=
  let t := packedFormat bf
  fop2 fun a b => packedResult fun i =>
    let y := t.decode (packedElement b i)
    t.finish rm.toNat (addNum rm.toNat (t.decode (packedElement a i)) (if sub then y.negate else y))

def packedMul (bf : Bool) (rm : BitVec 2) : LaneOp :=
  let t := packedFormat bf
  fop2 fun a b => packedResult fun i =>
    t.finish rm.toNat (mulNum (t.decode (packedElement a i)) (t.decode (packedElement b i)))

def packedFma (bf : Bool) (rm : BitVec 2) : LaneOp :=
  let t := packedFormat bf
  fop3 fun x a b => packedResult fun i =>
    t.finish rm.toNat (fmaNum rm.toNat (t.decode (packedElement x i)) (t.decode (packedElement a i))
      (t.decode (packedElement b i)))

def packedMinMax (max bf : Bool) : LaneOp :=
  fop2 fun a b => packedResult fun i => (packedFormat bf).minMax max (packedElement a i) (packedElement b i)

/-! ## FP64 (R181, R182) -/

/-- A value as FP64. -/
def fp64 (v : Dword) : FpNum := fmtFp64.decode v.toNat

/-- An exact FP64 result, rounded. -/
def fp64Result (mode : Nat) (r : FpNum × Flags) : Dword × Flags :=
  let (v, fl) := fmtFp64.finish mode r
  (BitVec.ofNat 64 v, fl)

def dblAdd (rm : BitVec 2) : LaneOp :=
  ⟨0, 2, 2, 2, fun _ a b => fp64Result rm.toNat (addNum rm.toNat (fp64 a) (fp64 b))⟩
def dblMul (rm : BitVec 2) : LaneOp := ⟨0, 2, 2, 2, fun _ a b => fp64Result rm.toNat (mulNum (fp64 a) (fp64 b))⟩
def dblFma (rm : BitVec 2) : LaneOp :=
  ⟨2, 2, 2, 2, fun x a b => fp64Result rm.toNat (fmaNum rm.toNat (fp64 x) (fp64 a) (fp64 b))⟩
def dblDiv (rm : BitVec 2) : LaneOp := ⟨0, 2, 2, 2, fun _ a b => fp64Result rm.toNat (divNum (fp64 a) (fp64 b))⟩
def dblSqrt (rm : BitVec 2) : LaneOp := ⟨0, 0, 2, 2, fun _ _ b => fp64Result rm.toNat (sqrtNum (fp64 b))⟩

/-! ## Meanings -/

def execFadd (w : Bool) (rm : BitVec 2) (s : State) : Host.Outcome State Fault Refusal := s.lane16 w (fpAdd rm)
def execFsub (w : Bool) (rm : BitVec 2) (s : State) : Host.Outcome State Fault Refusal := s.lane16 w (fpSub rm)
def execFmul (w : Bool) (rm : BitVec 2) (s : State) : Host.Outcome State Fault Refusal := s.lane16 w (fpMul rm)
def execFdiv (w : Bool) (rm : BitVec 2) (s : State) : Host.Outcome State Fault Refusal := s.lane16 w (fpDiv rm)
def execFma (w : Bool) (rm : BitVec 2) (s : State) : Host.Outcome State Fault Refusal := s.lane16 w (fpFma rm)
def execFneg (w : Bool) (s : State) : Host.Outcome State Fault Refusal := s.lane16 w fpNeg
def execFabs (w : Bool) (s : State) : Host.Outcome State Fault Refusal := s.lane16 w fpAbs
def execFmin (w : Bool) (s : State) : Host.Outcome State Fault Refusal := s.lane16 w (fpMinMax false)
def execFmax (w : Bool) (s : State) : Host.Outcome State Fault Refusal := s.lane16 w (fpMinMax true)
def execFsqrt (w : Bool) (rm : BitVec 2) (s : State) : Host.Outcome State Fault Refusal := s.lane16 w (fpSqrt rm)
def execFrcp (w : Bool) (rm : BitVec 2) (s : State) : Host.Outcome State Fault Refusal := s.lane16 w (fpRcp rm)
def execFrsq (w : Bool) (s : State) : Host.Outcome State Fault Refusal := s.lane16 w fpRsq
def execFex2 (w : Bool) (s : State) : Host.Outcome State Fault Refusal := s.lane16 w fpEx2
def execFlg2 (w : Bool) (s : State) : Host.Outcome State Fault Refusal := s.lane16 w fpLg2
def execFsin (w : Bool) (s : State) : Host.Outcome State Fault Refusal := s.lane16 w fpSin
def execFcos (w : Bool) (s : State) : Host.Outcome State Fault Refusal := s.lane16 w fpCos
def execFcmp (w : Bool) (cond : BitVec 3) (s : State) : Host.Outcome State Fault Refusal := s.lane16 w (fpCmp cond)
def execFclass (w : Bool) (s : State) : Host.Outcome State Fault Refusal := s.lane16 w fpClass
def execFrnd (w inexact : Bool) (rm : BitVec 2) (s : State) : Host.Outcome State Fault Refusal :=
  s.lane16 w (fpRnd inexact rm)

/-- A lane instruction of the L32-I form. -/
def State.lane32 (s : State) (w : Bool) (hold : Nat) (o : LaneOp) : Host.Outcome State Fault Refusal :=
  s.run fun h d => d.laneOp h 4 w hold Route.stack o

def execHadd2 (w bf sub : Bool) (rm : BitVec 2) (s : State) : Host.Outcome State Fault Refusal :=
  s.lane32 w 0 (packedAdd bf sub rm)
def execHmul2 (w bf : Bool) (rm : BitVec 2) (s : State) : Host.Outcome State Fault Refusal :=
  s.lane32 w 0 (packedMul bf rm)
def execHfma2 (w bf : Bool) (rm : BitVec 2) (s : State) : Host.Outcome State Fault Refusal :=
  s.lane32 w 0 (packedFma bf rm)
def execHmnx2 (w max bf : Bool) (s : State) : Host.Outcome State Fault Refusal := s.lane32 w 0 (packedMinMax max bf)

/-- R182: 4 lane cycles in all, the instruction's own among them, or 16. -/
def execDadd (w : Bool) (rm : BitVec 2) (s : State) : Host.Outcome State Fault Refusal := s.lane32 w 3 (dblAdd rm)
def execDmul (w : Bool) (rm : BitVec 2) (s : State) : Host.Outcome State Fault Refusal := s.lane32 w 3 (dblMul rm)
def execDfma (w : Bool) (rm : BitVec 2) (s : State) : Host.Outcome State Fault Refusal := s.lane32 w 3 (dblFma rm)
def execDdiv (w : Bool) (rm : BitVec 2) (s : State) : Host.Outcome State Fault Refusal := s.lane32 w 15 (dblDiv rm)
def execDsqrt (w : Bool) (rm : BitVec 2) (s : State) : Host.Outcome State Fault Refusal := s.lane32 w 15 (dblSqrt rm)

/-! ## Routed forms (R126, R129) -/

/-- R124, R129: the operation of an opcode from 0x10 to 0x4E, with the modifiers that its S16 form has in
imm[3:0]; none where they are illegal. -/
def routedOp (op : Nat) (mod : BitVec 4) : Option LaneOp :=
  let m0 := mod.getLsbD 0
  let m1 := mod.getLsbD 1
  let rm := mod.extractLsb' 0 2
  let cond := mod.extractLsb' 0 3
  let plain := fun (o : LaneOp) => if mod = 0 then some o else none
  let oneBit := fun (f : Bool → LaneOp) => if mod.toNat < 2 then some (f m0) else none
  let rounded := fun (f : BitVec 2 → LaneOp) => if mod.toNat < 4 then some (f rm) else none
  match op with
  | 0x10 => if 4 ≤ mod.toNat || (m1 && !m0) then none else some (intAdd m1 m0)
  | 0x11 => if 4 ≤ mod.toNat || (m1 && !m0) then none else some (intSub m1 m0)
  | 0x12 => plain intMul
  | 0x13 => oneBit intMulh
  | 0x14 => oneBit intDiv
  | 0x15 => oneBit intRem
  | 0x16 => plain intNeg
  | 0x17 => plain intAbs
  | 0x18 => oneBit intMin
  | 0x19 => oneBit intMax
  | 0x1A => plain intAnd
  | 0x1B => plain intOr
  | 0x1C => plain intXor
  | 0x1D => plain intNot
  | 0x1E => plain intShl
  | 0x1F => plain intShr
  | 0x20 => plain intSra
  | 0x21 => plain intRotl
  | 0x22 => plain intPopc
  | 0x23 => plain intClz
  | 0x24 => plain intCtz
  | 0x25 => plain intBrev
  | 0x26 => plain intSel
  | 0x27 => plain intMad
  | 0x28 => if 6 ≤ cond.toNat then none else some (intCmp (mod.getLsbD 3) cond)
  | 0x30 => rounded fpAdd
  | 0x31 => rounded fpSub
  | 0x32 => rounded fpMul
  | 0x33 => rounded fpDiv
  | 0x34 => rounded fpFma
  | 0x35 => plain fpNeg
  | 0x36 => plain fpAbs
  | 0x37 => plain (fpMinMax false)
  | 0x38 => plain (fpMinMax true)
  | 0x39 => rounded fpSqrt
  | 0x3A => rounded fpRcp
  | 0x3B => plain fpRsq
  | 0x3C => plain fpEx2
  | 0x3D => plain fpLg2
  | 0x3E => plain fpSin
  | 0x3F => plain fpCos
  | 0x40 => if mod.toNat < 8 then some (fpCmp cond) else none
  | 0x41 => plain fpClass
  | 0x42 => if mod.toNat < 8 then some (fpRnd (mod.getLsbD 2) rm) else none
  | 0x48 => plain pairAdd
  | 0x49 => plain pairSub
  | 0x4A => oneBit pairMul
  | 0x4B => plain pairShl
  | 0x4C => oneBit pairShr
  | 0x4D => if 6 ≤ cond.toNat then none else some (pairCmp (mod.getLsbD 3) cond)
  | 0x4E => some (pairLea (mod.getLsbD 3) cond)
  | _ => none

/-- R126: the route's own fields are illegal where a field that is not used is not 0, or ch15 is the result's. -/
def LaneOp.routeOk (o : LaneOp) (r : Route) : Bool :=
  (fromChannel r.ra || r.cha == 0) && (fromChannel r.rb || r.chb == 0) && (r.rd || r.chd == 0) &&
    (o.a != 0 || r.ra == 0) && !(r.rd && r.chd == 15)

def execL32Routed (op : BitVec 7) (w : Bool) (ra rb : BitVec 2) (rd : Bool) (cha chb chd mod : BitVec 4) (s : State) :
    Host.Outcome State Fault Refusal :=
  s.run fun h d =>
    let r : Route := ⟨ra, rb, rd, cha.toNat, chb.toNat, chd.toNat⟩
    match routedOp op.toNat mod with
    | none => d.misplaced h
    | some o => if o.routeOk r then d.laneOp h 4 w 0 r o else d.misplaced h

end Sys2Proof.Machine
end

