-- ==== Sys2Proof/Machine/Convert.lean ====
section
/-! DEFINITION. Conversions between lane types and through format slots, and the packing of a block across a
warp (R183 to R190). -/

namespace Sys2Proof.Machine

open Sys2Proof

/-! ## Lane types (R183) -/

/-- R183: the float type of a code. -/
def laneFloat (t : Nat) : Option FloatFormat := if t < 6 then floatOf t else none

/-- R183: the width and the sign of an integer type. -/
def laneInteger (t : Nat) : Nat × Bool :=
  match t with
  | 6 => (8, true)
  | 7 => (8, false)
  | 8 => (16, true)
  | 9 => (16, false)
  | 10 => (32, true)
  | 11 => (32, false)
  | 12 => (64, true)
  | 13 => (64, false)
  | _ => (4, true)

/-- R183, R185: the cells of a type. -/
def laneCells (t : Nat) : Nat := if t = 5 || t = 12 || t = 13 then 2 else 1

/-- The cells that hold an integer of a type: sign-extended where it is signed. -/
def integerCells (w : Nat) (signed : Bool) (v : Int) : Dword :=
  if w = 64 then BitVec.ofInt 64 v
  else if signed then BitVec.setWidth 64 (BitVec.ofInt 32 v) else BitVec.ofNat 64 (integerBits w v)

/-- R184: a conversion. `naz` reads a NaN as +0. -/
def convertLane (src dst mode : Nat) (sat naz : Bool) (v : Dword) : Dword × Flags :=
  match laneFloat src, laneFloat dst with
  | some f, some g =>
    let x := f.decode v.toNat
    let x := if naz && x.isNan then FpNum.zero else x
    let (r, fl) := g.round mode sat x
    (BitVec.ofNat 64 r, fl ||| flagIf x.signals flagNV)
  | some f, none =>
    let x := f.decode v.toNat
    let x := if naz && x.isNan then FpNum.zero else x
    let (w, sg) := laneInteger dst
    let (lo, hi) := integerRange w sg
    let (r, fl) := toInteger mode lo hi x
    (integerCells w sg r, fl)
  | none, some g =>
    let (w, sg) := laneInteger src
    let (r, fl) := g.round mode sat (.ofInt (integerValue w sg v.toNat))
    (BitVec.ofNat 64 r, fl)
  | none, none =>
    let (w, sg) := laneInteger src
    let (w', sg') := laneInteger dst
    let (lo, hi) := integerRange w' sg'
    (integerCells w' sg' (max lo (min hi (integerValue w sg v.toNat))), 0)

/-- R185: the conversion as a lane operation. -/
def convertOp (src dst mode : Nat) (sat naz : Bool) : LaneOp :=
  ⟨0, 0, laneCells src, laneCells dst, fun _ _ b => convertLane src dst mode sat naz b⟩

/-- R183: type code 15, and saturation into an integer type, are illegal. -/
def execCvt (w sat : Bool) (rm : BitVec 2) (dst src : BitVec 4) (s : State) : Host.Outcome State Fault Refusal :=
  s.run fun h d =>
    if src = 15 || dst = 15 || (sat && (laneFloat dst.toNat).isNone) then d.misplaced h
    else d.laneOp h 4 w 0 Route.stack (convertOp src.toNat dst.toNat rm.toNat sat false)

/-! ## Through slots (R186) -/

/-- R186: the lane type of a format code from 0x00 to 0x18. -/
def laneTypeOf (code : Nat) : Option Nat :=
  match code with
  | 0x10 => some 6
  | 0x11 => some 14
  | 0x12 => some 7
  | 0x18 => some 10
  | c => if c < 6 then some c else none

/-- The format slot of the issuing warp's launch. -/
def Dev.issuerSlot (d : Dev) (n : Nat) : FormatSlot :=
  match d.issuer with
  | .warp id =>
    (((d.warp? id).bind fun w => d.launchOf w.team).map fun l => l.record.slot n).getD ⟨0, false, false, false, 0, 0, 0⟩
  | _ => ⟨0, false, false, false, 0, 0, 0⟩

/-- R186: a block format in either slot is illegal. -/
def execCvtSlot (w : Bool) (src dst : BitVec 3) (s : State) : Host.Outcome State Fault Refusal :=
  s.run fun h d =>
    let a := d.issuerSlot src.toNat
    let b := d.issuerSlot dst.toNat
    match laneTypeOf a.format.toNat, laneTypeOf b.format.toNat with
    | some x, some y => d.laneOp h 4 w 0 Route.stack (convertOp x y b.round b.sat a.naz)
    | _, _ => d.misplaced h

/-! ## Across a warp (R187 to R190) -/

/-- R187: the magnitude bits of a slot that holds a dense block format. -/
def denseSlot (f : FormatSlot) : Option Nat := if sparseCode f.format.toNat then none else blockOf f.format.toNat

/-- The popped cells of the 32 lanes, with `absent` outside the split. -/
def laneWords (w : Warp) (s : Split) : List (Option Word) :=
  (List.range 32).map fun l => if s.mask.getLsbD l then (w.thread? l).map topWord else none

/-- R187, R188: the block cell layout. -/
def blockCell (m : Nat) (b : Block) (l : Nat) : Word :=
  if l < payloadBytes m / 4 then BitVec.ofNat 32 (packStream (m + 2) b.elements / 2 ^ (32 * l))
  else BitVec.ofNat 32 (b.e0 + 256 * b.e1)

def execBpack (w : Bool) (slot : BitVec 3) (s : State) : Host.Outcome State Fault Refusal :=
  s.run fun h d =>
    let f := d.issuerSlot slot.toNat
    let n := Need.of 4 w 1 1
    match denseSlot f with
    | none => d.misplaced h
    | some m =>
      d.issueWarp h n fun id w s =>
        let b := blockEncode f m ((laneWords w s).map fun v => (v.map fp32).getD FpNum.zero)
        let w := w.raiseFlags ((lanesOf s.mask).map fun l => b.flags.getD l 0)
        d.commit id (w.onLanes s.mask fun t => t.onStack (popPush 1 (blockCell m b t.lane))) (s.after n)

/-- R189: element l of a block whose cells are given. -/
def unpackCell (m : Nat) (cs : List Word) (l : Nat) : Word :=
  let payload := leValue (wordBytes (cs.take (payloadBytes m / 4)))
  let e := (cs.getD 31 0).toNat
  BitVec.ofNat 32 (fmtFp32.round 0 false (blockValue m (e % 256) (e / 256 % 256) (streamElement (m + 2) l payload))).1

def execBunpack (w : Bool) (slot : BitVec 3) (s : State) : Host.Outcome State Fault Refusal :=
  s.run fun h d =>
    let n := Need.of 4 w 1 1
    match denseSlot (d.issuerSlot slot.toNat) with
    | none => d.misplaced h
    | some m =>
      d.issueWarp h n fun id w s =>
        let cs := (laneWords w s).map fun v => v.getD 0
        d.commit id (w.onLanes s.mask fun t => t.onStack (popPush 1 (unpackCell m cs t.lane))) (s.after n)

end Sys2Proof.Machine
end

