-- ==== Sys2Proof/Machine/Control.lean ====
section
/-! DEFINITION. Branches, joins, calls, exits, traps by instruction, and `wsync` (R191 to R204, R257). -/

namespace Sys2Proof.Machine

open Sys2Proof

/-! ## Where a branch goes (R120, R191, R192) -/

/-- R120: the block that lies `off` blocks from the instruction's. -/
def blockTarget (pc : Va) (off : Int) : Va := BitVec.ofInt 57 (((pc.toNat / 64 : Nat) + off) * 64)

/-- R192, R33: the split continues as the given parts. If there are two or more, that is a selection point;
one part may merge with another split. -/
def Dev.goTo (d : Dev) (id : Nat) (w : Warp) (parts : List Split) : Dev :=
  match parts with
  | [p] => (d.commit id w p).mergeCheck id
  | ps => { d.setWarp id (w.replaceCur ps) with issued := true }.select id

/-- The part of a split that has some of its lanes, at an address. -/
def Split.part (s : Split) (lanes : Mask) (pc : Va) : Split := { s with mask := lanes, pc := pc }

/-- R192: the lanes that take the branch, and those that fall through. -/
def branchParts (s : Split) (taken : Mask) (target : Va) : List Split :=
  ([s.part (s.mask &&& taken) target, s.part (s.mask &&& ~~~taken) s.pc]).filter fun p => p.mask != 0

/-- R192, R194, R196: the join stack has no room for an entry. -/
def joinRoom (w : Warp) (s : Split) : ValueCheck := ⟨0x08, if 16 ≤ w.join.length then s.mask else 0, 0⟩

/-- R192: a conditional branch; the lanes whose cell is zero take it, or with `nz` those whose cell is not. -/
def Dev.condBranch (h : HostPart) (d : Dev) (bytes : Nat) (wbit nz push : Bool) (off : Int) : Dev :=
  let n := Need.of bytes wbit 1 0
  d.issueWarp h n fun id w s =>
    d.checked h id s (if push then [joinRoom w s] else [])
      (let taken := maskOf (((w.threadsOf s.mask).filter fun t => (topWord t != 0) == nz).map Thread.lane)
       let w := w.onLanes s.mask fun t => t.onStack fun st => st.drop 1
       let w := if push then { w with join := s.mask :: w.join } else w
       d.goTo id w (branchParts (s.after n) taken (blockTarget s.pc off)))

/-- R193: the whole split goes to the target. -/
def Dev.jump (h : HostPart) (d : Dev) (bytes : Nat) (off : Int) : Dev :=
  let n := Need.of bytes false 0 0
  d.issueWarp h n fun id w s => d.goTo id w [{ s.after n with pc := blockTarget s.pc off }]

def execBr (_ : Bool) (off : BitVec 7) (s : State) : Host.Outcome State Fault Refusal :=
  s.run fun h d => d.jump h 2 off.toInt
def execBz (w : Bool) (off : BitVec 7) (s : State) : Host.Outcome State Fault Refusal :=
  s.run fun h d => d.condBranch h 2 w false false off.toInt
def execBnz (w : Bool) (off : BitVec 7) (s : State) : Host.Outcome State Fault Refusal :=
  s.run fun h d => d.condBranch h 2 w true false off.toInt
def execBzj (w : Bool) (off : BitVec 7) (s : State) : Host.Outcome State Fault Refusal :=
  s.run fun h d => d.condBranch h 2 w false true off.toInt
def execBnzj (w : Bool) (off : BitVec 7) (s : State) : Host.Outcome State Fault Refusal :=
  s.run fun h d => d.condBranch h 2 w true true off.toInt
def execBrL (_ : Bool) (off : BitVec 16) (s : State) : Host.Outcome State Fault Refusal :=
  s.run fun h d => d.jump h 4 off.toInt
def execBzL (w : Bool) (off : BitVec 16) (s : State) : Host.Outcome State Fault Refusal :=
  s.run fun h d => d.condBranch h 4 w false false off.toInt
def execBnzL (w : Bool) (off : BitVec 16) (s : State) : Host.Outcome State Fault Refusal :=
  s.run fun h d => d.condBranch h 4 w true false off.toInt
def execBzjL (w : Bool) (off : BitVec 16) (s : State) : Host.Outcome State Fault Refusal :=
  s.run fun h d => d.condBranch h 4 w false true off.toInt
def execBnzjL (w : Bool) (off : BitVec 16) (s : State) : Host.Outcome State Fault Refusal :=
  s.run fun h d => d.condBranch h 4 w true true off.toInt

/-- R197: one entry of ch15 decides for the split. -/
def execBrq (_ : Bool) (off : BitVec 7) (s : State) : Host.Outcome State Fault Refusal :=
  s.run fun h d =>
    let n := { Need.of 2 false 0 0 with channels := [(15, 1, false)] }
    d.issueWarp h n fun id w s =>
      let v := ((w.ch15.head?).map Prod.fst).getD 0
      let next := s.after n
      let d := d.entryMark id s (w.ch15.take 1)
      let w := ((d.warp? id).getD w)
      d.goTo id { w with ch15 := w.ch15.drop 1 } [if v != 0 then { next with pc := blockTarget s.pc off.toInt } else next]

/-! ## Uniform branches (R193, R198) -/

/-- A branch of the uniform pipe, of a warp's split or of a front-end context: `taken` is given KP. -/
def Dev.uniformBranch (h : HostPart) (d : Dev) (bytes : Nat) (taken : BitVec 8 → Bool) (off : Int) : Dev :=
  let n := Need.of bytes false 0 0
  d.issueEither h bytes []
    (fun id w s =>
      let next := s.after n
      d.goTo id w [if taken w.kp then { next with pc := blockTarget s.pc off } else next])
    (fun id f => if taken f.kp then d.commitFet id { f with pc := blockTarget f.pc off } 0 else d.commitFet id f bytes)

def execKbz (_ : Bool) (kp : BitVec 3) (off : BitVec 16) (s : State) : Host.Outcome State Fault Refusal :=
  s.run fun h d => d.uniformBranch h 4 (fun p => !p.getLsbD kp.toNat) off.toInt
def execKbnz (_ : Bool) (kp : BitVec 3) (off : BitVec 16) (s : State) : Host.Outcome State Fault Refusal :=
  s.run fun h d => d.uniformBranch h 4 (fun p => p.getLsbD kp.toNat) off.toInt
def execJmpX (off : BitVec 48) (s : State) : Host.Outcome State Fault Refusal :=
  s.run fun h d => d.uniformBranch h 8 (fun _ => true) off.toInt

/-! ## join and wsync (R194, R257) -/

/-- R194: a split whose mask is that of every live thread of the entry passes at once (R30). Any other waits. -/
def Dev.arriveJoin (d : Dev) (id : Nat) (w : Warp) (s : Split) (n : Need) (top : Mask) (rest : List Mask) : Dev :=
  if s.mask == top &&& w.live then d.commit id { w with join := popDead w.live rest } (s.after n)
  else
    ({ d.setWarp id (w.replaceCur [{ s with state := .join, age := 0 }]) with issued := true }.settleWarp id).select id

def execJoin (_ : Bool) (k : BitVec 7) (s : State) : Host.Outcome State Fault Refusal :=
  s.run fun h d =>
    let n := Need.of 2 false 0 0
    d.issueWarp h n fun id w s =>
      match w.join with
      | [] => d.raise h id s 0x08 s.mask 0 0
      | top :: rest =>
        if s.mask &&& top != s.mask || w.depth s != k.toNat then d.raise h id s 0x08 s.mask 0 0
        else d.arriveJoin id w s n top rest

def execWsync (_ : Bool) (s : State) : Host.Outcome State Fault Refusal :=
  s.run fun h d =>
    d.issueWarp h (Need.of 2 false 0 0) fun id w s =>
      if w.others.any fun t => t.state == .wsync && t.pc == s.pc && w.depth t != w.depth s then
        d.raise h id s 0x08 s.mask 0 0
      else
        ({ d.setWarp id (w.replaceCur [{ s with state := .wsync, age := 0 }]) with issued := true }.settleWarp id).select id

/-! ## Multiway dispatch (R121, R196) -/

/-- What reading a parcel of a table gives. -/
inductive TableRead where
  | parcels (vs : List Nat)
  | absent (page : Nat)
  | uncorrectable (va pa : Nat)
  deriving DecidableEq, Repr

/-- R121: consecutive parcels of a context's code, from the code store. -/
def Dev.codeParcels (d : Dev) (core slot : Nat) : Nat → Nat → TableRead
  | _, 0 => .parcels []
  | va, n + 1 =>
    match (d.core core).pageSegment slot (va / 4096) .valid with
    | none => .absent (va / 4096)
    | some g =>
      let pa := ((d.core core).segment g).pa + va % 4096
      if d.poisoned pa 2 then .uncorrectable va pa
      else
        match Dev.codeParcels d core slot (va + 2) n with
        | .parcels vs => .parcels (leValue (Memory.readBytes d.mem pa 2) :: vs)
        | r => r

/-- R196: the parts of a split whose lanes go to the given targets. -/
def targetParts (s : Split) (targets : List (Nat × Va)) : List Split :=
  ((targets.map Prod.snd).eraseDups).map fun t =>
    s.part (maskOf ((targets.filter fun e => e.2 == t).map Prod.fst)) t

/-- R196. The table is read before anything of it is checked: where a page of it is not VALID, the split first waits for
the fill, whatever the checks of the join stack and of the indices will find (DESIGN CHOICE, notes/assumptions/43.md). -/
def execJtab (w : Bool) (last : BitVec 5) (s : State) : Host.Outcome State Fault Refusal :=
  s.run fun h d =>
    let n := Need.of 4 w 1 0
    d.issueWarp h n fun id w s =>
      match d.codeParcels w.core (d.slotOf w.team) (s.pc.toNat + 4) (last.toNat + 1) with
      | .absent page => d.block id (.code page)
      | .uncorrectable va pa => d.endTeam h w.team (some id) s.mask s.pc va pa
      | .parcels table =>
        let index := fun (l : Nat) => ((w.thread? l).map fun t => (topWord t).toNat).getD 0
        d.checked h id s
          [joinRoom w s, valueCheck 0x0A (lanesOf s.mask) (fun l => decide (last.toNat < index l)) fun _ => 0]
          (let targets := (lanesOf s.mask).map fun l =>
             (l, blockTarget s.pc (BitVec.ofNat 16 (table.getD (index l) 0)).toInt)
           let w := w.onLanes s.mask fun t => t.onStack fun st => st.drop 1
           d.goTo id { w with join := s.mask :: w.join } (targetParts (s.after n) targets))

/-! ## Calls and returns (R199, R200) -/

/-- R199: the lanes whose return stack is full, or empty. -/
def returnCheck (cause : BitVec 8) (w : Warp) (s : Split) (bad : Nat → Bool) : ValueCheck :=
  valueCheck cause (lanesOf s.mask) (fun l => ((w.thread? l).map fun t => bad t.ret.length).getD false) fun _ => 0

def execCall (_ : Bool) (off : BitVec 16) (s : State) : Host.Outcome State Fault Refusal :=
  s.run fun h d =>
    let n := Need.of 4 false 0 0
    d.issueWarp h n fun id w s =>
      d.checked h id s [returnCheck 0x05 w s fun k => decide (32 ≤ k)]
        (let back := (blockTarget s.pc 1).extractLsb' 6 51
         d.goTo id (w.onLanes s.mask fun t => { t with ret := back :: t.ret })
           [{ s.after n with pc := blockTarget s.pc off.toInt }])

def execRet (_ : Bool) (s : State) : Host.Outcome State Fault Refusal :=
  s.run fun h d =>
    let n := Need.of 2 false 0 0
    d.issueWarp h n fun id w s =>
      d.checked h id s [returnCheck 0x06 w s fun k => k == 0]
        (let targets := (w.threadsOf s.mask).map fun t => (t.lane, (t.ret.headD 0) ++ (0 : BitVec 6))
         d.goTo id (w.onLanes s.mask fun t => { t with ret := t.ret.drop 1 }) (targetParts (s.after n) targets))

/-! ## Leaving, yielding and breaking (R201 to R203) -/

/-- R201: the threads of some lanes end; a warp with none left ends, and may complete its team. -/
def Dev.endThreads (h : HostPart) (d : Dev) (id : Nat) (w : Warp) (s : Split) : Dev :=
  let w := { w with threads := w.threads.filter fun t => !s.mask.getLsbD t.lane }.replaceCur []
  let d := ({ d.setWarp id w with issued := true }).dropLoads (.warp id) s.mask w.threads.isEmpty
  if w.threads.isEmpty then (d.leaveWarp id).settle h else (d.settleWarp id).select id

def execExit (_ : Bool) (s : State) : Host.Outcome State Fault Refusal :=
  s.run fun h d => d.issueWarp h (Need.of 2 false 0 0) fun id w s => d.endThreads h id w s

/-- R37, R202: the warp takes rank 7. -/
def LaneBlock.dropRank (b : LaneBlock) (id : Nat) : LaneBlock :=
  { b with active := b.active.filter (· != id) ++ b.active.filter (· == id) }

def execYield (_ : Bool) (s : State) : Host.Outcome State Fault Refusal :=
  s.run fun h d =>
    let n := Need.of 2 false 0 0
    d.issueWarp h n fun id w s =>
      ((d.commit id w (s.after n)).onLb w.core w.lb fun b => b.dropRank id).select id

def execBrk (_ : Bool) (code : BitVec 7) (s : State) : Host.Outcome State Fault Refusal :=
  s.run fun h d => d.issueWarp h (Need.of 2 false 0 0) fun id _ s => d.raise h id s 0x17 s.mask 0 (BitVec.setWidth 16 code)

def execTrap (_ : Bool) (code : BitVec 16) (s : State) : Host.Outcome State Fault Refusal :=
  s.run fun h d => d.issueWarp h (Need.of 4 false 0 0) fun id _ s => d.raise h id s 0x16 s.mask 0 code

/-! ## jmp.f (R204) -/

def execJmpF (_ : Bool) (off : BitVec 16) (s : State) : Host.Outcome State Fault Refusal :=
  s.run fun h d =>
    let n := Need.of 4 false 0 0
    d.issueWarp h n fun id w s =>
      let target := blockTarget s.pc off.toInt
      if ((d.core w.core).pageSegment (d.slotOf w.team) (target.toNat / 4096) .valid).isSome then
        d.goTo id w [{ s.after n with pc := target }]
      else d.raise h id s 0x04 s.mask 0 0

end Sys2Proof.Machine
end

