-- ==== Sys2Proof/Machine/Overlay.lean ====
section
/-! DEFINITION. The code store: pins, fills and the overlay instructions (R76 to R78, R205 to R208, R425 to
R429). -/

namespace Sys2Proof.Machine

open Sys2Proof

/-! ## Pins (R78, R428) -/

/-- R78: a warp of a core, resident or evicted from it, has a split whose PC lies in the page. -/
def Warp.inPage (w : Warp) (page : Nat) : Bool := w.splits.any fun s => s.pc.toNat / 4096 == page

/-- R428: a loop buffer of the core holds blocks of a context's page. -/
def Dev.loopHolds (d : Dev) (c : Core) (slot page : Nat) : Bool :=
  c.lbs.any fun b => b.2.loop.any fun e => e.2.2 / 64 == page && d.partySlot (.warp e.1) == slot

/-- R78: the segment is pinned. -/
def Dev.pinned (d : Dev) (core n : Nat) : Bool :=
  let c := d.core core
  let g := c.segment n
  g.state != SegmentState.free &&
    (d.warps.any (fun e => e.2.core == core && d.slotOf e.2.team == g.slot && e.2.inPage g.page) ||
      d.fets.any (fun e => e.2.core == core && !e.2.ended && d.slotOf e.2.team == g.slot &&
        e.2.pc.toNat / 4096 == g.page) ||
      d.loopHolds c g.slot g.page)

/-- R78: a fill may take the segment. -/
def Dev.takeable (d : Dev) (core n : Nat) : Bool :=
  ((d.core core).segment n).state != SegmentState.filling && !d.pinned core n

/-- A fill starts in a segment. DEDUCED (notes/assumptions/47.md): a demand fill clears FAULT too, which says that the segment's
last fill failed; R207 names the next `cfetch` alone. -/
def Dev.startFill (d : Dev) (core n slot page : Nat) (demand : Bool) (held : Option Nat) : Dev :=
  d.onCore core fun c => c.onSegment n fun g => ⟨.filling, slot, page, 0, false, g.used, demand, held⟩

/-- R205, R457: the fill of a `cfetch` starts. R205 decides its status at issue, and each later request sees the segment FILLING
(R208); the request itself leaves its hold window first, and the fill lands after that. -/
def Dev.fetchSegment (d : Dev) (core n slot page : Nat) : Dev :=
  let (id, d) := d.fresh
  d.startFill core n slot page false (some id)

/-! ## cfetch, cevict, cstat (R205 to R207) -/

/-- R205: the status of a `cfetch`. -/
def Dev.fetchStatus (d : Dev) (core n slot page : Nat) : Nat :=
  let c := d.core core
  if (c.pageSegment slot page .valid).isSome || (c.pageSegment slot page .filling).isSome then 1
  else if d.takeable core n then 0 else 2

/-- R205: codes 48 to 63 are illegal. -/
def execCfetch (w : Bool) (seg : BitVec 6) (s : State) : Host.Outcome State Fault Refusal :=
  s.run fun h d =>
    let n := Need.of 4 w 2 1
    if 48 ≤ seg.toNat then d.misplaced h
    else
      d.issueWarp h n fun id w s =>
        let va := lowestValue w s 2
        d.checked h id s
          [⟨0x0D, if va.extractLsb' 57 7 != 0 then laneBit (lowest s.mask) else 0, va⟩]
          (let slot := d.slotOf w.team
           let page := va.toNat / 4096
           let st := d.fetchStatus w.core seg.toNat slot page
           let d := if st = 0 then d.fetchSegment w.core seg.toNat slot page else d
           d.commit id (w.onLanes s.mask fun t => t.onStack (popPush 2 (BitVec.ofNat 32 st))) (s.after n))

/-- R206. -/
def execCevict (_ : Bool) (seg : BitVec 6) (s : State) : Host.Outcome State Fault Refusal :=
  s.run fun h d =>
    let n := Need.of 4 false 0 1
    if 48 ≤ seg.toNat then d.misplaced h
    else
      d.issueWarp h n fun id w s =>
        let ok := d.takeable w.core seg.toNat
        let d := if ok then d.onCore w.core fun c => c.onSegment seg.toNat fun g => { g with state := .free } else d
        d.commit id (w.onLanes s.mask fun t => t.onStack (popPush 0 (if ok then 0 else 2))) (s.after n)

/-- R207: the state of a segment as a context sees it. -/
def Dev.segmentWord (d : Dev) (core n slot : Nat) : Word :=
  let g := (d.core core).segment n
  let pin := if d.pinned core n then 4 else 0
  let page := g.page % 2 ^ 20 * 4096
  let fault := if g.fault then 8 else 0
  BitVec.ofNat 32 (match g.state with
    | .free => fault + pin
    | .filling => if g.slot = slot then page + fault + pin + 1 else pin + 3
    | .valid => if g.slot = slot then page + fault + pin + 2 else pin + 3)

def execCstat (_ : Bool) (seg : BitVec 6) (s : State) : Host.Outcome State Fault Refusal :=
  s.run fun h d =>
    if 48 ≤ seg.toNat then d.misplaced h
    else d.pushOp h 4 fun d w _ _ => d.segmentWord w.core seg.toNat (d.slotOf w.team)

/-! ## Fills (R76, R77, R425, R429) -/

/-- The split waits for a code page. -/
def Split.waitsCode (s : Split) (page : Nat) : Bool := s.state == .blocked (.code page)

/-- A front-end context waits for a code page. -/
def Fet.waitsCode (f : Fet) (page : Nat) : Bool := f.stalled == some (.code page)

/-- The warp is resident, no trap waits for it, and a split of it waits for a code page: its fetch goes on (R387, R425). -/
def Warp.fetches (w : Warp) (page : Nat) : Bool :=
  w.place == .resident && w.posted.isEmpty && w.splits.any fun s => s.waitsCode page

/-- Something on the core waits for a page of the context. -/
def Dev.codeWanted (d : Dev) (core slot page : Nat) : Bool :=
  d.warps.any (fun e => e.2.core == core && d.slotOf e.2.team == slot && e.2.fetches page) ||
    d.fets.any fun e => e.2.core == core && d.slotOf e.2.team == slot && e.2.waitsCode page

/-- R77: the least recently used segment that a demand fill may take. -/
def Dev.victim (d : Dev) (core : Nat) : Option Nat :=
  ((List.range 48).filter (d.takeable core)).foldl
    (fun best n => match best with
      | none => some n
      | some m => if ((d.core core).segment n).used < ((d.core core).segment m).used then some n else some m) none

/-- R77, R208: a demand fill starts for a page that no segment holds or fills, where a segment can be taken. -/
def Dev.demandFill (d : Dev) (core slot page : Nat) : Dev :=
  let c := d.core core
  if (c.pageSegment slot page .valid).isSome || (c.pageSegment slot page .filling).isSome then d
  else
    match d.victim core with
    | none => d
    | some n => d.startFill core n slot page true none

/-- R208: a miss of the page waits for its place in the front-end cycle. -/
def Core.missed (c : Core) (slot page : Nat) : Bool :=
  c.fetMisses.contains (slot, page) || c.lbs.any fun b => b.2.misses.contains (slot, page)

/-- R77, R428: a demand fill that found no segment, or whose segment has been taken since, starts, if something waits for the
page; the fetch that missed has asked for it at its own place (`Dev.laneRequest`). -/
def execDemandFill (core slot : Nat) (page : BitVec 45) (s : State) : Host.Outcome State Fault Refusal :=
  s.run fun _ d =>
    if d.codeWanted core slot page.toNat && !(d.core core).missed slot page.toNat then d.demandFill core slot page.toNat
    else d

/-- R425, R398: the waiting split of a warp traps for a page that cannot be fetched; it waits for the page no more, and
fetches again when it resumes. -/
def Dev.fetchFault (h : HostPart) (d : Dev) (page id : Nat) : Dev :=
  match d.warp? id with
  | none => d
  | some w =>
    match (sortSplits w.splits).find? fun s => s.waitsCode page with
    | none => d
    | some s =>
      (d.onWarp id fun w => w.onSplits fun t => if t.mask == s.mask then { t with state := .ready } else t).raise h id s
        w.walkCause s.mask (BitVec.setWidth 64 s.pc) 0

/-- R402, R425: a front-end context traps for a page that cannot be fetched. -/
def Dev.fetFetchFault (h : HostPart) (d : Dev) (id : Nat) : Dev :=
  match Table.find? d.fets id with
  | none => d
  | some f => d.fetTrap h id 0x0D 0 f.pc (BitVec.setWidth 64 f.pc) []

/-- R425: everything that waits for the page traps. -/
def Dev.failFetch (h : HostPart) (d : Dev) (core slot page : Nat) : Dev :=
  let ws := (d.warps.filter fun e => e.2.core == core && d.slotOf e.2.team == slot && e.2.fetches page).map Prod.fst
  let fs := (d.fets.filter fun e => e.2.core == core && d.slotOf e.2.team == slot && e.2.waitsCode page).map Prod.fst
  fs.foldl (Dev.fetFetchFault h) (ws.foldl (Dev.fetchFault h · page) d)

/-- R76, R205, R425, R429, R460: a fill lands: the page is translated through the core's die root; a fill that fails
leaves the segment FREE with FAULT, and one that a fetch asked for traps what waits for it. -/
def execCodeFillLands (core seg : Nat) (s : State) : Host.Outcome State Fault Refusal :=
  s.run fun h d =>
    let g := (d.core core).segment seg
    if g.state != SegmentState.filling || g.held.isSome then d
    else
      match d.reach h g.slot core (g.page * 4096) .exec with
      | (.error (.lost va), d) => d.killSlot h g.slot va
      | (.ok pa, d) =>
        d.onCore core fun c => c.onSegment seg fun g => { g with state := .valid, pa := pa, used := d.clockOf core }
      | (.error _, d) =>
        let d := d.onCore core fun c => c.onSegment seg fun g => { g with state := .free, fault := true }
        if g.demand then d.failFetch h core g.slot g.page else d

end Sys2Proof.Machine
end

