-- ==== Sys2Proof/Machine/Schedule.lean ====
section
/-! DEFINITION. Which warp or front-end context issues, what its instruction is, and what an issue costs: the
ranks of a lane block, co-issue, the token bucket, fetching, dxdb's stops (R27, R36 to R40, R76, R119, R261, R264, R324,
R345, R377 to R380, R443). -/

namespace Sys2Proof.Machine

open Sys2Proof

/-! ## Classes of instruction (R38, R379) -/

/-- R38: the instruction is of the uniform pipe. -/
def uniformPipe : Instr → Bool
  | .kmov _ _ | .kadd _ _ _ _ | .ksub _ _ _ _ | .kmul _ _ _ _ | .kand _ _ _ _ | .kor _ _ _ _ | .kxor _ _ _ _
  | .kshl _ _ _ _ | .kshr _ _ _ _ _ | .kmin _ _ _ _ _ | .kmax _ _ _ _ _ | .kcmp _ _ _ _ _ | .kadd2 _ _ _ _
  | .klea _ _ _ _ _ | .kld _ _ _ _ | .kst _ _ _ _ | .kpush _ | .kpop _ _ | .kred _ _ | .kpsel _ _ _ _ _
  | .setperf _ | .agen _ _ | .dqpush _ | .fetend | .kbz _ _ _ | .kbnz _ _ _ | .kli _ _ | .jmpX _ => true
  | _ => false

/-- R38: no uniform instruction co-issues after this one: a branch, `call`, `join`, `exit`, `yield`, a trap or
`rte`. -/
def endsPair : Instr → Bool
  | .br _ _ | .bz _ _ | .bnz _ _ | .bzj _ _ | .bnzj _ _ | .brq _ _ | .join _ _ | .ret _ | .exit _ | .yield _
  | .brk _ _ | .brL _ _ | .bzL _ _ | .bnzL _ _ | .bzjL _ _ | .bnzjL _ _ | .call _ _ | .jtab _ _ | .jmpF _ _
  | .trap _ _ | .rte => true
  | _ => false

/-- R38: the uniform instruction reads or writes stack cells. -/
def touchesStack : Instr → Bool
  | .kpush _ | .kpop _ _ | .kred _ _ => true
  | _ => false

/-- R38, R127: what a channel-routed instruction needs. -/
def routedNeed (op : BitVec 7) (ra rb : BitVec 2) (rd : Bool) (cha chb chd mod : BitVec 4) : Need :=
  match routedOp op.toNat mod with
  | none => Need.of 4 false 0 0
  | some o => o.need ⟨ra, rb, rd, cha.toNat, chb.toNat, chd.toNat⟩ 4 false

/-- R38: the vector instruction neither pops nor pushes. -/
def stackless : Instr → Bool
  | .nop _ | .frame _ _ | .leave _ _ | .fence _ _ _ | .waitc _ _ _ | .qeos _ _ | .mma _ _ _ _ _ _ _ _ _ _ _ _ _ _ _
  | .mclr _ _ | .mdrain _ _ _ _ _ _ _ _ _ | .bload _ _ _ _ _ _ _ | .bswap _ _ | .dload _ _ _ _ | .coll _ _ _
  | .vtag _ _ | .wsync _ => true
  | .barArrive _ _ n | .barSync _ _ n => n != 0
  | .l32Routed op _ ra rb rd cha chb chd mod =>
    let n := routedNeed op ra rb rd cha chb chd mod
    n.pops == 0 && n.pushes == 0
  | _ => false

/-- The two registers of a pair. -/
def pairOf (k : BitVec 6) : List Nat := [k.toNat, k.toNat + 1]

/-- R38, R128: the channels that a vector instruction takes entries from or sends to. -/
def vectorChannels : Instr → List Nat
  | .l32Routed op _ ra rb rd cha chb chd mod => (routedNeed op ra rb rd cha chb chd mod).channels.map fun n => n.1
  | _ => []

/-- R38, R216: the channel that a uniform instruction sends to. -/
def uniformChannels : Instr → List Nat
  | .agen ch _ => [ch.toNat]
  | .dqpush _ => [15]
  | _ => []

/-- R38: the uniform registers that a vector or engine instruction of a warp reads; a warp's copy takes its coordinates
from the stack. -/
def vectorReads : Instr → List Nat
  | .mma ka _ _ _ _ _ _ _ _ _ _ dc kt ks _ => pairOf ka ++ if dc then pairOf kt ++ pairOf ks else []
  | .mdrain _ _ _ _ _ _ kt ks _ => pairOf kt ++ pairOf ks
  | .bload kb _ _ _ _ kstr _ => pairOf kb ++ [kstr.toNat]
  | .dload kr _ _ _ => pairOf kr
  | .tcopy kl ksl _ _ _ _ _ _ _ | .tgather kl ksl _ _ _ _ _ _ | .tscatter kl ksl _ _ _ _ _ _ => pairOf kl ++ pairOf ksl
  | .coll kdsc _ _ => pairOf kdsc
  | _ => []

/-- R38: the uniform registers that a vector or engine instruction writes. -/
def vectorWrites : Instr → List Nat
  | .vtag kd _ => pairOf kd
  | _ => []

/-- R209: the registers of a source that may be an immediate. -/
def sourceB (kb : BitVec 6) (imm : Bool) : List Nat := if imm then [] else [kb.toNat]

/-- The uniform registers that a uniform instruction reads. -/
def uniformReads : Instr → List Nat
  | .kmov _ ka => [ka.toNat]
  | .kadd _ ka kb imm | .ksub _ ka kb imm | .kmul _ ka kb imm | .kand _ ka kb imm | .kor _ ka kb imm
  | .kxor _ ka kb imm | .kshl _ ka kb imm => ka.toNat :: sourceB kb imm
  | .kshr _ ka kb imm _ | .kmin _ ka kb imm _ | .kmax _ ka kb imm _ => ka.toNat :: sourceB kb imm
  | .kcmp _ ka kb _ _ => [ka.toNat, kb.toNat]
  | .kadd2 _ ka kb imm => pairOf ka ++ if imm then [] else pairOf kb
  | .klea _ ka kb _ _ => pairOf ka ++ [kb.toNat]
  | .kld _ ka _ _ => pairOf ka
  | .kst kd ka _ size => pairOf ka ++ if size = 1 then pairOf kd else [kd.toNat]
  | .kpush ka => [ka.toNat]
  | .kpsel _ ka kb _ _ => [ka.toNat, kb.toNat]
  | .setperf ka => [ka.toNat]
  | .dqpush ka => [ka.toNat]
  | .agen _ ka => (List.range 8).map (ka.toNat + ·)
  | _ => []

/-- The uniform registers that a uniform instruction writes. -/
def uniformWrites : Instr → List Nat
  | .kmov kd _ | .kadd kd _ _ _ | .ksub kd _ _ _ | .kmul kd _ _ _ | .kand kd _ _ _ | .kor kd _ _ _ | .kxor kd _ _ _
  | .kshl kd _ _ _ | .kshr kd _ _ _ _ | .kmin kd _ _ _ _ | .kmax kd _ _ _ _ | .kpop kd _ | .kred kd _
  | .kpsel kd _ _ _ _ | .kli kd _ => [kd.toNat]
  | .kadd2 kd _ _ _ | .klea kd _ _ _ _ => pairOf kd
  | .kld kd _ _ size => if size = 1 then pairOf kd else [kd.toNat]
  | _ => []

/-- R38: the uniform instruction `u` co-issues with the vector instruction `v` just before it, whose successor has the
address `next`. -/
def coIssues (v : Instr) (next : Va) (u : Instr) (upc : Va) : Bool :=
  uniformPipe u && !uniformPipe v && !endsPair v && upc == next && upc.toNat % 64 != 0 &&
    (!touchesStack u || stackless v) && (uniformChannels u).all (fun c => !(vectorChannels v).contains c) &&
    (uniformWrites u).all (fun k => !(vectorReads v).contains k) &&
    (uniformReads u).all fun k => !(vectorWrites v).contains k

/-! ## Token costs (R379) -/

/-- R267: the bit-planes of a matrix A format: the width of its element. -/
def planesOf (format : BitVec 8) : Nat :=
  match format.toNat with
  | 0x20 => 4
  | 0x21 => 6
  | 0x23 => 12
  | _ => 8

/-- R379: the classes that cost 2, 8, 32 and 4 tokens; every other instruction but the matrix ones costs 1. -/
def plainCost : Instr → Nat
  | .fadd _ _ | .fsub _ _ | .fmul _ _ | .fdiv _ _ | .fma _ _ | .fneg _ | .fabs _ | .fmin _ | .fmax _ | .fsqrt _ _
  | .frcp _ _ | .frsq _ | .fex2 _ | .flg2 _ | .fsin _ | .fcos _ | .fcmp _ _ | .fclass _ | .frnd _ _ _
  | .hadd2 _ _ _ _ | .hmul2 _ _ _ | .hfma2 _ _ _ | .hmnx2 _ _ _ | .cvt _ _ _ _ _ | .cvtSlot _ _ _ | .bpack _ _
  | .bunpack _ _ => 2
  | .ld _ _ _ | .st _ _ _ | .ldo _ _ _ _ _ | .sto _ _ _ _ _ | .atom _ _ _ _ _ _ | .cas _ _ _ _ _ _
  | .red _ _ _ _ _ _ | .qpush _ _ | .qpop _ _ | .qeos _ _ | .qtry _ _ => 2
  | .l32Routed op _ _ _ _ _ _ _ _ => if 0x30 ≤ op.toNat && op.toNat ≤ 0x42 then 2 else 1
  | .dadd _ _ | .dmul _ _ | .dfma _ _ => 8
  | .ddiv _ _ | .dsqrt _ _ => 32
  | .mclr _ _ | .bload _ _ _ _ _ _ _ | .bswap _ _ | .dload _ _ _ _ | .tcopy _ _ _ _ _ _ _ _ _
  | .tgather _ _ _ _ _ _ _ _ | .tscatter _ _ _ _ _ _ _ _ | .coll _ _ _ | .vtag _ _ => 4
  | _ => 1

/-- R379: the cost of an instruction in a launch. -/
def tokenCost (l : Option Launch) (i : Instr) : Nat :=
  match i with
  | .mma _ _ _ aslot _ _ _ pair _ _ _ dc _ _ rows =>
    let format := ((l.bind fun l => l.record.slots[aslot.toNat]?).map FormatSlot.format).getD 0
    let units := if pair then 2 else 1
    let n := rows.toNat + 1
    4 * n * planesOf format * units + if dc then 2 * n * 32 * units else 0
  | .mdrain _ _ _ _ _ pair _ _ rows => 2 * (rows.toNat + 1) * 32 * if pair then 2 else 1
  | i => plainCost i

/-! ## Lane rates (R14, R27, R377, R378) -/

/-- R377: the lane rate of a level: 0 half, 1 equal, 2 double. -/
def laneRate (level : Nat) : Nat := if level ≤ 2 then 0 else if level ≤ 5 then 1 else 2

/-- R378: the lane rate at which the cluster runs. -/
def Cluster.rate (c : Cluster) : Nat :=
  match c.transition with
  | none => laneRate c.level
  | some old => Nat.min (laneRate old) (laneRate c.level)

/-! ## Requests of the token bucket (R380) -/

/-- R380: the number of a requester of its cluster: a lane block of a core, or the core's front-end contexts. -/
def requester (core lb : Nat) : Nat := core * 5 + lb

/-- R380: the request issues: the balance covers it, and no other requester has reserved the bucket; or the first pass has
granted it so many tokens. -/
def Cluster.grants (c : Cluster) (r cost : Nat) (paid : Option Nat) : Bool :=
  paid.any (fun p => decide (cost ≤ p)) || (decide (cost ≤ c.tokens) && (c.reserve.isNone || c.reserve == some r))

/-- R380: a request that issues is debited, and its refusals are forgotten. -/
def Cluster.debit (c : Cluster) (r cost : Nat) : Cluster :=
  { c with
    tokens := c.tokens - cost
    reserve := if c.reserve = some r then none else c.reserve
    refused := c.refused.filter fun e => e.1 != r }

/-- R380: the consecutive front-end cycles in which a request was refused, with the current one. DEDUCED
(notes/assumptions/35.md): at half lane rate, where a lane block makes a request in every second front-end cycle (R27), the
cycles in which it makes none neither count nor break the row. -/
def Cluster.refusals (c : Cluster) (r : Nat) : Nat :=
  match c.refused.find? fun (e : Nat × Nat × Nat) => e.1 == r with
  | none => 1
  | some (_, n, last) =>
    if last = c.clock then n
    else if last + 1 = c.clock || (c.rate == 0 && last + 2 == c.clock) then n + 1
    else 1

/-- R380: the request is refused in the current front-end cycle; at the 16th refusal in a row its requester reserves the
bucket, where no other has. -/
def Cluster.refuse (c : Cluster) (r : Nat) : Cluster :=
  { c with
    refused := (r, c.refusals r, c.clock) :: c.refused.filter fun e => e.1 != r
    reserve := if c.reserve.isNone && decide (16 ≤ c.refusals r) then some r else c.reserve }

/-! ## The order of a front-end cycle's requests (R27, R380) -/

/-- R27: the lane cycles of a front-end cycle. -/
def Cluster.laneCycles (c : Cluster) : Nat :=
  match c.rate with
  | 0 => if c.clock % 2 = 0 then 1 else 0
  | 1 => 1
  | _ => 2

/-- R380: the place at which a requester's next request is decided in the current front-end cycle, and whether it is in the
first of two passes; none where the cycle has gone past it. At double lane rate the first pass decides the tokens of every
requester's first request, and each requester's instructions then issue at its place in the second pass, the first one
before the second request is decided: what one front-end cycle brings to a core's code store, engines, barriers and
collectives comes in ascending order of lane block, then in issue order (R208, R253, R271, R350). -/
def Cluster.placeOf (c : Cluster) (r : Nat) (first : Bool) : Option (Nat × Bool) :=
  if c.laneCycles = 2 then
    if first && decide (c.cursor ≤ r) then some (r, true)
    else if c.cursor ≤ 2880 + r then some (2880 + r, false)
    else none
  else if c.cursor ≤ r then some (r, false)
  else none

/-- R380: the request at a place is decided. -/
def Cluster.decided (c : Cluster) (place : Nat) : Cluster := { c with cursor := place + 1 }

/-- R182, R458: the lane cycles left in the front-end cycle, once those that a multi-cycle instruction or a replay takes have
passed. -/
def LaneBlock.free (b : LaneBlock) : Nat := b.credit - (b.hold + b.replay)

/-- R380: the place of a lane block's next request. An instruction whose tokens the first pass has granted issues at the
block's place in the second. -/
def Dev.lanePlace (d : Dev) (core lb : Nat) : Option (Nat × Bool) :=
  let c := d.cluster (clusterOf core)
  let b := (d.core core).lb lb
  if b.due.isSome then some (2880 + requester core lb, false)
  else if b.free = 0 then none
  else c.placeOf (requester core lb) (decide (c.laneCycles ≤ b.free))

/-- R40, R380: the place of the request of a core's front-end contexts. -/
def Dev.fetPlace (d : Dev) (core : Nat) : Option (Nat × Bool) :=
  if (d.core core).fetDue.isSome then some (2880 + requester core 4, false)
  else if (d.core core).fetCredit = 0 then none
  else (d.cluster (clusterOf core)).placeOf (requester core 4) true

/-! ## Fetching (R76, R77, R119) -/

/-- What a fetch finds. -/
inductive Fetched where
  | run (i : Instr) (bytes : Nat)
  | straddle
  | illegal
  | absent (page : Nat)
  | uncorrectable (pa : Nat)
  deriving DecidableEq, Repr

/-- R76, R119: the instruction at an address, from the core's code store. -/
def Dev.fetch (d : Dev) (core slot : Nat) (pc : Va) : Fetched :=
  let c := d.core core
  let page := pc.toNat / 4096
  match c.pageSegment slot page .valid with
  | none => .absent page
  | some n =>
    let pa := (c.segment n).pa + pc.toNat % 4096
    let room := Nat.min 8 (64 - pc.toNat % 64)
    if d.poisoned pa 2 || d.chipPoisoned core 6 (n * 512 + pc.toNat % 4096 / 8) 1 then .uncorrectable pa
    else
      match decode (Memory.readBytes d.mem pa room) with
      | .ok (i, rest) => .run i (room - rest.length)
      | .error .tooShort => .straddle
      | .error _ => .illegal

/-- R77: the segment of a page is the one used last. -/
def Dev.touchSegment (d : Dev) (core slot : Nat) (pc : Va) : Dev :=
  match (d.core core).pageSegment slot (pc.toNat / 4096) .valid with
  | none => d
  | some n => d.onCore core fun c => c.onSegment n fun s => { s with used := d.clockOf core }

/-! ## The issue of a lane block (R36 to R38) -/

/-- The warp's current split may issue: it is ready, and no trap waits for the boundary (R387). -/
def Warp.issuable (w : Warp) : Bool :=
  w.place == .resident && w.posted.isEmpty && w.cur.any fun s => s.state == .ready

/-- R264: dxdb holds the team stopped. -/
def Dev.heldTeam (d : Dev) (team : Nat) : Bool := (d.team? team).any Team.held

/-- R39: a warp that has swapped in may issue from the second lane cycle after. -/
def Dev.arrived (d : Dev) (core lb id : Nat) : Bool :=
  let b := (d.core core).lb lb
  match b.arrivals.find? fun e => e.1 == id with
  | none => true
  | some e => decide (e.2 ≤ (d.cluster (clusterOf core)).laneCycles - b.credit)

/-- R36, R37, R39, R264: an active warp of a lane block may issue. -/
def Dev.issues (d : Dev) (core lb id : Nat) : Bool :=
  (d.warp? id).any (fun w => w.issuable && !d.heldTeam w.team) && d.arrived core lb id

/-- R37: the ready active warp with the lowest rank. -/
def Dev.candidate (d : Dev) (core lb : Nat) : Option Nat := ((d.core core).lb lb).active.find? (d.issues core lb)

/-- The branches that can repeat blocks (R428). -/
def isBranch : Instr → Bool
  | .br _ _ | .bz _ _ | .bnz _ _ | .bzj _ _ | .bnzj _ _ | .brq _ _ | .brL _ _ | .bzL _ _ | .bnzL _ _ | .bzjL _ _
  | .bnzjL _ _ | .kbz _ _ _ | .kbnz _ _ _ | .jmpX _ => true
  | _ => false

/-- R428: the loop buffer after an instruction of some lanes of a warp: a backward branch that a lane has taken takes
hold of the blocks that it repeats, if they are 8 at most, in place of what those lanes held; a split whose next fetch
lies outside its blocks lets them go. `pcOf` gives each lane's next address. DEDUCED (notes/assumptions/47.md): the buffer
holds the blocks of one split at a time, and another split's loop waits until that split has let them go, by the events that
R428 lists. -/
def loopAfter (loop : List (Nat × Nat × Nat)) (id : Nat) (i : Instr) (pc : Va) (mask : Mask) (pcOf : Nat → Option Va) :
    List (Nat × Nat × Nat) :=
  let blk := pc.toNat / 64
  let mine := fun (e : Nat × Nat × Nat) => e.1 == id && mask.getLsbD e.2.1
  let kept := loop.filter fun e => !mine e || (pcOf e.2.1).any fun t => loop.contains (id, e.2.1, t.toNat / 64)
  let back := fun (l : Nat) => (pcOf l).any fun t => decide (t.toNat ≤ pc.toNat) && decide (blk - t.toNat / 64 < 8)
  match if isBranch i then (lanesOf mask).find? back else none with
  | none => kept
  | some l =>
    let dest := ((pcOf l).map fun t => t.toNat / 64).getD blk
    if loop.any fun e => !mine e then kept
    else (List.range (blk - dest + 1)).map fun n => (id, l, dest + n)

/-- R37: the active set after an issue cycle of a warp: after 4 in a row in which another warp was ready, it drops to
rank 7. -/
def LaneBlock.ranked (b : LaneBlock) (id : Nat) (contested : Bool) : LaneBlock :=
  let n := (if b.run.1 = id then b.run.2 else 0) + 1
  if !contested then { b with run := (id, 0) }
  else if 4 ≤ n then
    { b with active := (b.active.filter (· != id)) ++ (b.active.filter (· == id)), run := (0, 0) }
  else { b with run := (id, n) }

/-! ## Breakpoints (R261, R264, R324, R345, R443) -/

/-- R345: the teams that a stop of one holds: those of a stage set's launch all together. -/
def Dev.stopMates (d : Dev) (team : Nat) : List Nat :=
  match d.team? team with
  | none => []
  | some t =>
    if ((d.launch? t.launch).bind Launch.stages).isNone then [team]
    else (d.teams.filter fun e => e.2.launch == t.launch).map Prod.fst

/-- R264: dxdb holds the teams stopped, or lets them go on. -/
def Dev.holdTeams (d : Dev) (team : Nat) (on : Bool) : Dev :=
  (d.stopMates team).foldl (fun d t => d.onTeam t fun t => { t with held := on }) d

/-- R443: the context of a slot has a breakpoint at the address. -/
def Dev.breaksAt (d : Dev) (slot : Nat) (pc : Va) : Bool := (d.context slot).breaks.contains pc

/-! ## The turn of a lane block -/

/-- An instruction that a requester may issue: with the split that issues it, the address after it, its cost, whether it
co-issues, the request's place, whether only its tokens are decided now (the first of two passes), and the tokens that the
first pass has granted. -/
structure Grant where
  instr : Instr
  id : Nat
  mask : Mask
  pc : Va
  next : Va
  cost : Nat
  paired : Bool
  place : Nat
  first : Bool
  paid : Option Nat
  deriving DecidableEq, Repr

/-- What a lane block or a core's front-end contexts do in a turn. -/
inductive LaneIssue where
  | idle (d : Dev)
  | run (g : Grant) (d : Dev)

/-- Another active warp of the lane block is ready beside one (R37). -/
def Dev.contested (d : Dev) (core lb id : Nat) : Bool :=
  ((d.core core).lb lb).active.any fun x => x != id && d.issues core lb x

/-- R37, R182, R458: lane cycles of a replay, and then of a multi-cycle instruction, pass; each of the latter counts as an issue
cycle of its warp. -/
def LaneBlock.burn (b : LaneBlock) (k : Nat) (contested : Bool) : LaneBlock :=
  let r := Nat.min b.replay k
  let m := Nat.min b.hold (k - r)
  (List.range m).foldl (fun (b : LaneBlock) _ => b.ranked b.holder contested)
    { b with replay := b.replay - r, hold := b.hold - m, credit := b.credit - (r + m) }

/-- R182: the lane cycles of the front-end cycle that a multi-cycle instruction or a replay takes pass. -/
def Dev.burnHold (d : Dev) (core lb : Nat) : Dev :=
  let b := (d.core core).lb lb
  if b.hold + b.replay = 0 then d
  else d.onLb core lb fun b => b.burn b.credit (d.contested core lb b.holder)

/-- R77, R208: a fetch has missed: a demand fill starts in the lane block's place, or waits for it in the first of two
passes. -/
def Dev.laneMiss (d : Dev) (core lb slot page : Nat) (first : Bool) : Dev :=
  if first then d.onLb core lb fun b => { b with misses := b.misses ++ [(slot, page)] } else d.demandFill core slot page

/-- R27, R380: a request of a warp's current split: it traps or waits where the instruction cannot be fetched. -/
def Dev.laneRequest (h : HostPart) (d : Dev) (core lb : Nat) (place : Nat × Bool) (paid : Option Nat) (id : Nat) (w : Warp)
    (s : Split) : LaneIssue :=
  let d := { d with issuer := .warp id, issued := false }
  let slot := d.slotOf w.team
  match d.fetch core slot s.pc with
  | .absent page => .idle ((d.block id (.code page)).laneMiss core lb slot page place.2)
  | .straddle => .idle (d.raise h id s 0x03 s.mask 0 0)
  | .illegal => .idle (d.raise h id s 0x01 s.mask 0 0)
  | .uncorrectable pa => .idle (d.endTeam h w.team (some id) s.mask s.pc s.pc.toNat pa)
  | .run i bytes =>
    .run ⟨i, id, s.mask, s.pc, s.pc + BitVec.ofNat 57 bytes, tokenCost (d.launchOf w.team) i, false, place.1, place.2, paid⟩
      (d.touchSegment core slot s.pc)

/-- R380: the tokens that the first pass has granted are back in the bucket, where they are for the same request. -/
def Dev.repaid (d : Dev) (core lb : Nat) : Dev :=
  match ((d.core core).lb lb).due with
  | none => d
  | some n => (d.onCluster (clusterOf core) fun c => { c with tokens := c.tokens + n }).onLb core lb fun b => { b with due := none }

/-- R208: the demand fills of the lane block's misses in the first pass. -/
def Dev.serveMisses (d : Dev) (core lb : Nat) : Dev :=
  ((d.core core).lb lb).misses.foldl (fun (d : Dev) m => d.demandFill core m.1 m.2)
    (d.onLb core lb fun b => { b with misses := [] })

/-- R27, R37, R380: the lane block's turn: what the lowest-ranked ready warp issues, if the cycle has a place for the block's
request. The cycles of a multi-cycle instruction pass first (R182), and the demand fills of the first pass start before
the second request. -/
def Dev.laneTurn (h : HostPart) (d : Dev) (core lb : Nat) : LaneIssue :=
  let b := (d.core core).lb lb
  let first := (d.lanePlace core lb).any Prod.snd
  if !first && !b.misses.isEmpty then .idle (d.serveMisses core lb)
  else
    let place := d.lanePlace core lb
    let d := (d.burnHold core lb).repaid core lb
    match place, d.candidate core lb with
    | some place, some id =>
      match d.warp? id with
      | none => .idle d
      | some w =>
        match w.cur with
        | none => .idle d
        | some s => d.laneRequest h core lb place b.due id w s
    | _, _ => .idle (if b.misses.isEmpty then d else d.serveMisses core lb)

/-- R38: the uniform instruction that co-issues with the lane block's vector instruction that has just issued: the split that
issued it stands there, and no breakpoint does. -/
def Dev.pairMate (d : Dev) (core lb : Nat) (g : Grant) : Option (Grant × Dev) :=
  match ((d.core core).lb lb).follow with
  | none => none
  | some (id, v, next) =>
    match d.warp? id with
    | none => none
    | some w =>
      match w.cur with
      | none => none
      | some s =>
        match d.fetch core (d.slotOf w.team) s.pc with
        | .run i bytes =>
          if w.issuable && s.mask == g.mask && coIssues v next i s.pc && !d.breaksAt (d.slotOf w.team) s.pc then
            some ({ g with instr := i, pc := s.pc, next := s.pc + BitVec.ofNat 57 bytes
                           cost := tokenCost (d.launchOf w.team) i, paired := true },
              { d with issuer := .warp id, issued := false })
          else none
        | _ => none

/-- R264: lanes that issue are at no breakpoint any more. -/
def Warp.clearStop (w : Warp) (mask : Mask) : Warp :=
  { w with stopped := (w.stopped.map fun (e : Mask × Va) => (e.1 &&& ~~~mask, e.2)).filter fun e => e.1 != 0 }

/-- What follows an instruction of a lane block: ranks, the loop buffer, and which instruction may co-issue. -/
def Dev.afterLane (d : Dev) (core lb : Nat) (g : Grant) : Dev :=
  let d := d.onWarp g.id fun w => w.clearStop g.mask
  let pcOf := fun (l : Nat) => ((d.warp? g.id).bind fun w => w.splits.find? fun s => s.mask.getLsbD l).map Split.pc
  d.onLb core lb fun b =>
    { (if g.paired then b else { b with holder := g.id }.ranked g.id (d.contested core lb g.id)) with
      follow := if g.paired || uniformPipe g.instr then none else some (g.id, g.instr, g.next)
      loop := loopAfter b.loop g.id g.instr g.pc g.mask pcOf }

/-- R27, R380: the lane cycles left to a lane block whose request has been granted: an instruction of the first pass leaves
those of the second. -/
def LaneBlock.spend (b : LaneBlock) (g : Grant) : LaneBlock :=
  { b with
    due := none, follow := none
    credit := if g.paid.isNone && decide (2880 ≤ g.place) then 0 else b.credit - 1 }

/-- R380: the cluster once a request has been granted: the cost debited, and its place in the cycle decided. An instruction
that the first pass has granted makes no request in the second, where the lane block's other one still comes. -/
def Cluster.granted (c : Cluster) (r cost : Nat) (g : Grant) : Cluster :=
  let c := c.debit r cost
  if g.paid.isSome && g.first == false then { c with cursor := Nat.max c.cursor g.place } else c.decided g.place

/-- R380: the decision on a lane block's request of a cost: `before` is the device without the instruction, and `after` with it.
The instruction issues; or, in the first of two passes, its tokens are put aside; or the request is refused. -/
def laneDecision (before after : Dev) (core lb : Nat) (g : Grant) (cost : Nat) : Dev :=
  let r := requester core lb
  let k := clusterOf core
  if (before.cluster k).grants r cost g.paid then
    if g.first then (before.onCluster k fun c => c.granted r cost g).onLb core lb fun b => { b with due := some cost }
    else (after.onCluster k fun c => c.granted r cost g).onLb core lb fun b => b.spend g
  else (before.onCluster k fun c => (c.refuse r).decided g.place).onLb core lb fun b => { b with credit := 0 }

/-- R264: the lanes of a warp that dxdb has found at a breakpoint. -/
def Warp.stoppedAt (w : Warp) (pc : Va) : Mask :=
  w.stopped.foldl (fun (m : Mask) e => if e.2 == pc then m ||| e.1 else m) 0

/-- R261, R264: the instruction is at a breakpoint, where dxdb has not stopped its lanes since they last issued. -/
def Dev.breaks (d : Dev) (g : Grant) : Bool :=
  match d.warp? g.id with
  | none => false
  | some w => d.breaksAt (d.slotOf w.team) g.pc && g.mask &&& ~~~(w.stoppedAt g.pc) != 0

/-- The attempt to issue has left the split waiting for something (R261: dxdb stops a split only when its next instruction is
ready to issue). -/
def Dev.waitsAt (d : Dev) (g : Grant) : Bool :=
  (d.warp? g.id).any fun w => w.splits.any fun s => s.mask == g.mask && s.pc == g.pc && match s.state with
    | .blocked _ => true
    | _ => false

/-- R264: dxdb stops the team of a warp. -/
def Dev.stopTeamOf (d : Dev) (id : Nat) : Dev :=
  match d.warp? id with
  | none => d
  | some w => d.holdTeams w.team true

/-- R440, R128: a lane block of the core can still issue in the current front-end cycle. -/
def Dev.laneBusy (d : Dev) (core : Nat) : Bool :=
  (d.core core).lbs.any fun b =>
    b.2.due.isSome || !b.2.misses.isEmpty || ((d.lanePlace core b.1).isSome && (d.candidate core b.1).isSome)

/-- R380: an instruction of a core of the cluster, or a demand fill, still waits for its place in the front-end cycle. -/
def Dev.cycleOpen (d : Dev) (cluster : Nat) : Bool :=
  d.cores.any fun e => clusterOf e.1 == cluster &&
    (e.2.fetDue.isSome || !e.2.fetMisses.isEmpty || e.2.lbs.any fun b => b.2.due.isSome || !b.2.misses.isEmpty)

/-! ## The issue of the front-end contexts (R40, R42) -/

/-- What a front-end context's wait asks has come about. -/
def Dev.fetResolved (d : Dev) (f : Fet) : Wait → Bool
  | .registers ks => f.kld.all fun e => !ks.contains e.1
  | .counter cls n => decide (cntGet f.cnt cls ≤ n)
  | .room cls n => decide (cntGet f.cnt cls + n ≤ 255) && (2 ≤ cls || d.slotsUsed f.core + n ≤ 32)
  | .code page => ((d.core f.core).pageSegment (d.slotOf f.team) page .valid).isSome
  | .translation a => (Table.find? d.accesses a).isNone
  | .channels needs => needs.all fun n =>
      if n.1 = 15 then d.warps.all fun e => e.2.team != f.team || e.2.threads.isEmpty ||
        e.2.ch15.length + (d.decisions.filter fun x => x.2.team == f.team).length < 16
      else f.streams.all fun s => s.ch != n.1 || (!s.pending.isEmpty && decide (s.count ≤ s.elem + 1))
  | .pairHeld => !d.pairHeld f.core
  | .residence => d.warps.all fun e => e.2.team != f.team || e.2.threads.isEmpty || e.2.place == .resident
  | _ => true

/-- R40: the context may issue. -/
def Fet.issuable (f : Fet) : Bool := !f.ended && f.stalled.isNone

/-- R40: the next ready context of the core, in rotation, once in a front-end cycle. -/
def Dev.nextFet (d : Dev) (core : Nat) : Option Nat :=
  let turn := (d.core core).fetTurn
  let ready := (d.fets.filter fun e => e.2.core == core && e.2.issuable && !d.heldTeam e.2.team).map Prod.fst
  match ready.find? fun n => decide (turn < n) with
  | some n => some n
  | none => ready.head?

/-- R77, R208: a front-end context's fetch has missed. -/
def Dev.fetMiss (d : Dev) (core slot page : Nat) (first : Bool) : Dev :=
  if first then d.onCore core fun c => { c with fetMisses := c.fetMisses ++ [(slot, page)] } else d.demandFill core slot page

/-- R208: the demand fills of the front-end contexts' misses in the first pass. -/
def Dev.serveFetMisses (d : Dev) (core : Nat) : Dev :=
  (d.core core).fetMisses.foldl (fun (d : Dev) m => d.demandFill core m.1 m.2)
    (d.onCore core fun c => { c with fetMisses := [] })

/-- R380: the tokens that the first pass has granted are back in the bucket, where they are for the same request. -/
def Dev.fetRepaid (d : Dev) (core : Nat) : Dev :=
  match (d.core core).fetDue with
  | none => d
  | some n => (d.onCluster (clusterOf core) fun c => { c with tokens := c.tokens + n }).onCore core fun c => { c with fetDue := none }

/-- R40, R142, R324: the request of a front-end context: it traps or waits where the instruction cannot be fetched. -/
def Dev.fetRequest (h : HostPart) (d : Dev) (core : Nat) (place : Nat × Bool) (paid : Option Nat) (id : Nat) (f : Fet) : LaneIssue :=
  let d := { d with issuer := .fet id, issued := false }
  let slot := d.slotOf f.team
  match d.fetch core slot f.pc with
  | .absent page => .idle ((d.stall id (.code page)).fetMiss core slot page place.2)
  | .straddle => .idle (d.fetTrap h id 0x03 0 f.pc 0 [])
  | .illegal => .idle (d.fetTrap h id 0x01 0 f.pc 0 [])
  | .uncorrectable pa => .idle (d.endTeam h f.team none 0 f.pc f.pc.toNat pa)
  | .run i bytes =>
    .run ⟨i, id, 0, f.pc, f.pc + BitVec.ofNat 57 bytes, tokenCost (d.launchOf f.team) i, false, place.1, place.2, paid⟩
      (d.touchSegment core slot f.pc)

/-- R40, R142, R324: the turn of a core's front-end contexts: the next ready one issues, where the cycle has a place for its
request; a refused one keeps its place in the rotation. -/
def Dev.fetTurn (h : HostPart) (d : Dev) (core : Nat) : LaneIssue :=
  let c := d.core core
  let first := (d.fetPlace core).any Prod.snd
  if !first && !c.fetMisses.isEmpty then .idle (d.serveFetMisses core)
  else
    let place := d.fetPlace core
    let d := d.fetRepaid core
    match place, d.nextFet core with
    | some place, some id =>
      match Table.find? d.fets id with
      | none => .idle d
      | some f => d.fetRequest h core place c.fetDue id f
    | _, _ => .idle (if c.fetMisses.isEmpty then d else d.serveFetMisses core)

/-- R264: the context is at a breakpoint, where dxdb has not stopped it since it last issued. -/
def Dev.fetBreaks (d : Dev) (g : Grant) : Bool :=
  match Table.find? d.fets g.id with
  | none => false
  | some f => d.breaksAt (d.slotOf f.team) g.pc && f.stopped != some g.pc

/-- R261: the attempt to issue has left the context waiting for something. -/
def Dev.fetWaits (d : Dev) (g : Grant) : Bool := ((Table.find? d.fets g.id).bind Fet.stalled).isSome

/-- R264: dxdb stops the team of a front-end context. -/
def Dev.stopTeamOfFet (d : Dev) (id : Nat) : Dev :=
  match Table.find? d.fets id with
  | none => d
  | some f => d.holdTeams f.team true

/-- R380: the decision on the request of a core's front-end contexts, as `laneDecision` makes it for a lane block. -/
def fetDecision (before after : Dev) (core : Nat) (g : Grant) (cost : Nat) : Dev :=
  let r := requester core 4
  let k := clusterOf core
  if (before.cluster k).grants r cost g.paid then
    if g.first then (before.onCluster k fun c => c.granted r cost g).onCore core fun c => { c with fetDue := some cost }
    else
      ((after.onCluster k fun c => (c.debit r cost).decided g.place).onCore core fun c =>
        { c with fetTurn := g.id, fetDue := none, fetCredit := c.fetCredit - 1 }).onFet g.id fun f => { f with stopped := none }
  else (before.onCluster k fun c => (c.refuse r).decided g.place).onCore core fun c => { c with fetCredit := 0 }

end Sys2Proof.Machine
end

