-- ==== Sys2Proof/Machine/Uniform.lean ====
section
/-! DEFINITION. The uniform instructions, of warps and of front-end contexts (R59 to R63, R209 to R215). -/

namespace Sys2Proof.Machine

open Sys2Proof

/-! ## Arithmetic (R209 to R211, R214) -/

/-- The uniform registers that an instruction reads or writes (R212). -/
def uniformRegs (i : Instr) : List Nat := uniformReads i ++ uniformWrites i

/-- An instruction whose effect is on the uniform file alone. -/
def State.uniform (s : State) (bytes : Nat) (i : Instr) (f : Uniform → Uniform) : Host.Outcome State Fault Refusal :=
  s.run fun h d => d.uniform h bytes (uniformRegs i) f

/-- R209: operand B. -/
def operandB (u : Uniform) (kb : BitVec 6) (imm : Bool) : Word :=
  if imm then BitVec.setWidth 32 kb else kGet u.k kb.toNat

/-- R209: K[kd] := f (K[ka], B). -/
def uniformOp (kd ka kb : BitVec 6) (imm : Bool) (f : Word → Word → Word) (u : Uniform) : Uniform :=
  { u with k := kSet u.k kd.toNat (f (kGet u.k ka.toNat) (operandB u kb imm)) }

def execKmov (kd ka : BitVec 6) (s : State) : Host.Outcome State Fault Refusal :=
  s.uniform 4 (.kmov kd ka) fun u => { u with k := kSet u.k kd.toNat (kGet u.k ka.toNat) }
def execKadd (kd ka kb : BitVec 6) (imm : Bool) (s : State) : Host.Outcome State Fault Refusal :=
  s.uniform 4 (.kadd kd ka kb imm) (uniformOp kd ka kb imm fun a b => a + b)
def execKsub (kd ka kb : BitVec 6) (imm : Bool) (s : State) : Host.Outcome State Fault Refusal :=
  s.uniform 4 (.ksub kd ka kb imm) (uniformOp kd ka kb imm fun a b => a - b)
def execKmul (kd ka kb : BitVec 6) (imm : Bool) (s : State) : Host.Outcome State Fault Refusal :=
  s.uniform 4 (.kmul kd ka kb imm) (uniformOp kd ka kb imm fun a b => a * b)
def execKand (kd ka kb : BitVec 6) (imm : Bool) (s : State) : Host.Outcome State Fault Refusal :=
  s.uniform 4 (.kand kd ka kb imm) (uniformOp kd ka kb imm fun a b => a &&& b)
def execKor (kd ka kb : BitVec 6) (imm : Bool) (s : State) : Host.Outcome State Fault Refusal :=
  s.uniform 4 (.kor kd ka kb imm) (uniformOp kd ka kb imm fun a b => a ||| b)
def execKxor (kd ka kb : BitVec 6) (imm : Bool) (s : State) : Host.Outcome State Fault Refusal :=
  s.uniform 4 (.kxor kd ka kb imm) (uniformOp kd ka kb imm fun a b => a ^^^ b)
def execKshl (kd ka kb : BitVec 6) (imm : Bool) (s : State) : Host.Outcome State Fault Refusal :=
  s.uniform 4 (.kshl kd ka kb imm) (uniformOp kd ka kb imm shiftLeft)
def execKshr (kd ka kb : BitVec 6) (imm arith : Bool) (s : State) : Host.Outcome State Fault Refusal :=
  s.uniform 4 (.kshr kd ka kb imm arith) (uniformOp kd ka kb imm (if arith then shiftArith else shiftRight))
def execKmin (kd ka kb : BitVec 6) (imm nat : Bool) (s : State) : Host.Outcome State Fault Refusal :=
  s.uniform 4 (.kmin kd ka kb imm nat)
    (uniformOp kd ka kb imm fun a b => if wordInt nat b < wordInt nat a then b else a)
def execKmax (kd ka kb : BitVec 6) (imm nat : Bool) (s : State) : Host.Outcome State Fault Refusal :=
  s.uniform 4 (.kmax kd ka kb imm nat)
    (uniformOp kd ka kb imm fun a b => if wordInt nat a < wordInt nat b then b else a)

/-- A predicate written. -/
def setPred (kp : BitVec 8) (p : Nat) (v : Bool) : BitVec 8 :=
  if v then kp ||| (1#8 <<< p) else kp &&& ~~~(1#8 <<< p)

def execKcmp (kp : BitVec 3) (ka kb : BitVec 6) (nat : Bool) (cond : BitVec 3) (s : State) :
    Host.Outcome State Fault Refusal :=
  if 6 ≤ cond.toNat then s.run fun h d => d.misplaced h
  else
    s.uniform 4 (.kcmp kp ka kb nat cond) fun u =>
      let c := compareInt cond (wordInt nat (kGet u.k ka.toNat)) (wordInt nat (kGet u.k kb.toNat))
      { u with kp := setPred u.kp kp.toNat c }

def execKpsel (kd ka kb : BitVec 6) (inv : Bool) (kp : BitVec 3) (s : State) : Host.Outcome State Fault Refusal :=
  s.uniform 4 (.kpsel kd ka kb inv kp) fun u =>
    { u with k := kSet u.k kd.toNat (kGet u.k (if u.kp.getLsbD kp.toNat != inv then ka.toNat else kb.toNat)) }

def execKadd2 (kd ka kb : BitVec 6) (imm : Bool) (s : State) : Host.Outcome State Fault Refusal :=
  s.uniform 4 (.kadd2 kd ka kb imm) fun u =>
    let b := if imm then BitVec.setWidth 64 kb else kGet64 u.k kb.toNat
    { u with k := kSet64 u.k kd.toNat (kGet64 u.k ka.toNat + b) }

def execKlea (kd ka kb : BitVec 6) (nat : Bool) (scale : BitVec 3) (s : State) : Host.Outcome State Fault Refusal :=
  s.uniform 4 (.klea kd ka kb nat scale) fun u =>
    { u with k := kSet64 u.k kd.toNat (scaledAddress nat scale (kGet64 u.k ka.toNat) (kGet u.k kb.toNat)) }

def execKli (kd : BitVec 6) (imm : BitVec 32) (s : State) : Host.Outcome State Fault Refusal :=
  s.uniform 8 (.kli kd imm) fun u => { u with k := kSet u.k kd.toNat imm }

/-! ## The performance level (R215) -/

/-- R215: a value above 7 is taken as 7. -/
def perfLevel (v : Word) : Nat := Nat.min v.toNat 7

/-- R215. A front-end context's own level (R378) is the launch's `perf_level` throughout: its `setperf` sets the levels of
the team's warps and leaves its own as it is (DESIGN CHOICE, notes/assumptions/43.md). -/
def execSetperf (ka : BitVec 6) (s : State) : Host.Outcome State Fault Refusal :=
  s.run fun h d =>
    let regs := [ka.toNat]
    let n := Need.uniform 4 regs
    d.issueEither h 4 regs
      (fun id w s => d.commit id { w with perf := perfLevel (kGet w.k ka.toNat) } (s.after n))
      (fun id f =>
        let lv := perfLevel (kGet f.k ka.toNat)
        let d := (d.teamWarps f.team).foldl (fun d id => d.onWarp id fun w => { w with perf := lv }) d
        d.commitFet id f 4)

/-! ## Between the stack and the uniform file (R60 to R62) -/

def execKpush (ka : BitVec 6) (s : State) : Host.Outcome State Fault Refusal :=
  s.run fun h d =>
    let n := { Need.of 4 false 0 1 with regs := [ka.toNat] }
    d.issueWarp h n fun id w s =>
      d.commit id (w.onLanes s.mask fun t => t.onStack fun st => .full (kGet w.k ka.toNat) :: st) (s.after n)

/-- An instruction that pops a cell of each lane and writes a uniform register. -/
def Dev.popToUniform (h : HostPart) (d : Dev) (kd : BitVec 6) (f : List Word → Word × Flags) : Dev :=
  let n := { Need.of 4 false 1 0 with regs := [kd.toNat] }
  d.issueWarp h n fun id w s =>
    let (v, fl) := f ((w.threadsOf s.mask).map topWord)
    let w := (w.onLanes s.mask fun t => t.onStack fun st => st.drop 1).raiseFlags [fl]
    d.commit id { w with k := kSet w.k kd.toNat v } (s.after n)

/-- R61: the issuing warp's split is not every live thread. -/
def Dev.diverged (d : Dev) : Option (Nat × Split) :=
  match d.issuer with
  | .warp id =>
    match d.warp? id with
    | none => none
    | some w => (w.cur.filter fun s => s.mask != w.live).map fun s => (id, s)
  | _ => none

/-- R61: `kpop.cv` checks for divergence before anything else. -/
def execKpop (kd : BitVec 6) (cv : Bool) (s : State) : Host.Outcome State Fault Refusal :=
  s.run fun h d =>
    match if cv then d.diverged else none with
    | some (id, sp) => d.raise h id sp 0x09 sp.mask 0 0
    | none => d.popToUniform h kd fun vs => (vs.headD 0, 0)

/-- The best of a list of words by an order. -/
def bestWord (better : Word → Word → Bool) (vs : List Word) : Word :=
  vs.tail.foldl (fun m v => if better v m then v else m) (vs.headD 0)

/-- R62: FP32 sum in ascending lanes. -/
def sumWords (vs : List Word) : Word × Flags :=
  vs.tail.foldl
    (fun r v =>
      let (x, fl) := fpResult 0 (addNum 0 (fp32 r.1) (fp32 v))
      (x, r.2 ||| fl))
    (vs.headD 0, 0)

/-- R62: FP32 minimum or maximum; NaNs are ignored. -/
def extremeWord (max : Bool) (vs : List Word) : Word :=
  let ns := vs.filter fun v => !(fp32 v).isNan
  if ns.isEmpty then 0x7FC00000
  else bestWord (fun v m => if max then numBelow (fp32 m) (fp32 v) else numBelow (fp32 v) (fp32 m)) ns

/-- R62: a reduction. -/
def reduceWords (op : BitVec 4) (vs : List Word) : Word × Flags :=
  match op.toNat with
  | 0 => (vs.foldl (· + ·) 0, 0)
  | 1 => (vs.foldl (· &&& ·) 0xFFFFFFFF, 0)
  | 2 => (vs.foldl (· ||| ·) 0, 0)
  | 3 => (vs.foldl (· ^^^ ·) 0, 0)
  | 4 => (bestWord (fun v m => decide (v.toInt < m.toInt)) vs, 0)
  | 5 => (bestWord (fun v m => decide (m.toInt < v.toInt)) vs, 0)
  | 6 => (bestWord (fun v m => decide (v.toNat < m.toNat)) vs, 0)
  | 7 => (bestWord (fun v m => decide (m.toNat < v.toNat)) vs, 0)
  | 8 => sumWords vs
  | 9 => (extremeWord false vs, 0)
  | 10 => (extremeWord true vs, 0)
  | _ => (BitVec.ofNat 32 (vs.filter (· != 0)).length, 0)

def execKred (kd : BitVec 6) (op : BitVec 4) (s : State) : Host.Outcome State Fault Refusal :=
  s.run fun h d => if 12 ≤ op.toNat then d.misplaced h else d.popToUniform h kd (reduceWords op)

/-! ## Uniform loads and stores (R212) -/

/-- R212: a uniform load or store: its size in bytes, and whether it stores. -/
structure UniformAccess where
  instr : Instr
  store : Bool
  bytes : Nat
  reg : Nat
  va : Dword
  data : List Word
  deriving DecidableEq, Repr

/-- The access as a form: relaxed, of the issuer itself. -/
def UniformAccess.form (u : UniformAccess) : MemForm :=
  ⟨if u.store then .store else .load, u.bytes, false, 0, 0, 0, false, 0, 0⟩

/-- R212, R460: what comes of its issue. -/
inductive UniformCheck where
  | trap (cause : BitVec 8) (d : Dev)
  | unmapped (d : Dev)
  | lost (d : Dev)
  | serve
  | go (pa : Nat) (d : Dev)

/-- R212: the checks of a uniform load or store, in their order. -/
def Dev.checkUniform (h : HostPart) (d : Dev) (slot core : Nat) (u : UniformAccess) : UniformCheck :=
  let want : Want := if u.store then .write else .read
  if u.va.extractLsb' 57 7 != 0 then .trap 0x0D d
  else if u.va.toNat % u.bytes != 0 then .trap 0x0B d
  else
    match d.translate slot core u.va.toNat want with
    | .error _ =>
      match d.reach h slot core u.va.toNat want with
      | (.ok _, _) => .serve
      | (.error (.lost _), d) => .lost d
      | (.error _, d) => .unmapped d
    | .ok (pa, d) =>
      if d.walkPoisoned slot (dieOf core) u.va.toNat then .lost d else
      if u.store && (d.context slot).sealedRange u.va.toNat u.bytes then .trap 0x0E d else .go pa d

/-- R212: the accesses of a uniform instruction, in lane 32, one for each word; `mask` is that of the split that
issued it. -/
def Dev.addUniform (d : Dev) (p : Party) (marks : List OrderMark) (pc : Va) (mask : Mask) (u : UniformAccess) (pa : Nat) :
    List (Nat × Nat) × Dev :=
  let (stamp, d) := d.fresh
  (List.range u.form.parts).foldl
    (fun (r : List (Nat × Nat) × Dev) part =>
      let a := r.2.newAccess p marks u.instr pc stamp 32 part mask u.form u.va u.data [mask] [] (some (pa + 4 * part))
      let regs := if u.store then [] else [u.reg, u.reg + 1]
      let (id, d) := r.2.fresh
      (if u.store then r.1 else r.1 ++ [(u.reg + part, id)], d.setAccess id { a with regs := regs }))
    ([], d)

/-- R212, R424: while the memory manager serves the translation, the issuer is not ready. The entry stands for
the walk; it has no physical address. -/
def Dev.awaitPage (d : Dev) (p : Party) (pc : Va) (u : UniformAccess) : Nat × Dev :=
  let (id, d) := d.fresh
  let a := d.newAccess p [] u.instr pc id 32 0 0 u.form u.va [] [] [] none
  (id, d.setAccess id { a with parked := true, deps := [] })

/-- R212, R390, R398: a warp's split waits until the memory manager has served a translation; in handler mode that is a
failure one level deep. -/
def Dev.awaitService (h : HostPart) (d : Dev) (id : Nat) (s : Split) (u : UniformAccess) : Dev :=
  let d := d.nestFault h id d.nextId s.mask s.pc u.va
  if (d.warp? id).isNone then d
  else
    let (a, d) := d.awaitPage (.warp id) s.pc u
    d.block id (.translation a)

/-- R212: `kld` and `kst`. -/
def Dev.uniformAccess (h : HostPart) (d : Dev) (regs : List Nat) (u : Uniform → UniformAccess) : Dev :=
  d.issueEither h 4 regs
    (fun id w s =>
      let u := u ⟨w.k, w.kp⟩
      match d.checkUniform h (d.slotOf w.team) w.core u with
      | .trap cause d => d.raise h id s cause s.mask u.va 0
      | .unmapped d => d.raise h id s w.walkCause s.mask u.va 0
      | .lost d => d.killAt h (.warp id) (d.slotOf w.team) u.va.toNat
      | .serve => d.awaitService h id s u
      | .go pa d =>
        let (ks, d) := d.addUniform (.warp id) w.marks s.pc s.mask u pa
        d.commit id { w with kld := w.kld ++ ks } (s.after (Need.uniform 4 regs)))
    (fun id f =>
      let u := u ⟨f.k, f.kp⟩
      match d.checkUniform h (d.slotOf f.team) f.core u with
      | .trap cause d => d.fetTrap h id cause 0 f.pc u.va []
      | .unmapped d => d.fetTrap h id 0x0D 0 f.pc u.va []
      | .lost d => d.killAt h (.fet id) (d.slotOf f.team) u.va.toNat
      | .serve =>
        let (a, d) := d.awaitPage (.fet id) f.pc u
        d.stall id (.translation a)
      | .go pa d =>
        let (ks, d) := d.addUniform (.fet id) [] f.pc 0 u pa
        d.commitFet id { f with kld := f.kld ++ ks } 4)

/-- R212: the access of a uniform instruction. -/
def uniformAccessOf (i : Instr) (store : Bool) (kd ka n : BitVec 6) (size : BitVec 2) (u : Uniform) : UniformAccess :=
  let bytes := if size = 1 then 8 else 4
  ⟨i, store, bytes, kd.toNat, kGet64 u.k ka.toNat + BitVec.ofNat 64 (n.toNat * bytes),
    if store then [kGet u.k kd.toNat, kGet u.k (kd.toNat + 1)] else []⟩

/-- R212: a later `kld` to a register may issue at once. -/
def execKld (kd ka n : BitVec 6) (size : BitVec 2) (s : State) : Host.Outcome State Fault Refusal :=
  s.run fun h d =>
    if 2 ≤ size.toNat then d.misplaced h
    else d.uniformAccess h (pairOf ka) (uniformAccessOf (.kld kd ka n size) false kd ka n size)

def execKst (kd ka n : BitVec 6) (size : BitVec 2) (s : State) : Host.Outcome State Fault Refusal :=
  s.run fun h d =>
    if 2 ≤ size.toNat then d.misplaced h
    else d.uniformAccess h (uniformReads (.kst kd ka n size)) (uniformAccessOf (.kst kd ka n size) true kd ka n size)

end Sys2Proof.Machine
end

