-- ==== Sys2Proof/Machine/FrontEnd.lean ====
section
/-! DEFINITION. The front-end thread's own instructions, its streams, and a warp left with empty channels (R41,
R42, R216 to R219, R402, R408). -/

namespace Sys2Proof.Machine

open Sys2Proof

/-- An instruction that only a front-end context may issue (R142). -/
def Dev.issueFet (h : HostPart) (d : Dev) (regs : List Nat) (k : Nat → Fet → Dev) : Dev :=
  match d.issuer with
  | .fet id =>
    match Table.find? d.fets id with
    | none => d
    | some f => if f.kld.any fun e => regs.contains e.1 then d.stall id (.registers regs) else k id f
  | .warp _ => d.misplaced h
  | _ => d

/-! ## agen (R216, R217) -/

/-- R216: a stream as its eight registers describe it. -/
def streamOf (k : List Word) (ka ch : Nat) (pc : Va) (stamp : Nat) (deps : List Nat) : Stream where
  ch := ch
  base := kGet64 k ka
  count := (kGet k (ka + 2)).toNat
  ts := kGet k (ka + 3)
  is := kGet k (ka + 4)
  ic := Nat.max (kGet k (ka + 5)).toNat 1
  os := kGet k (ka + 6)
  mode := (kGet k (ka + 7)).toNat
  elem := 0
  pending := []
  pc := pc
  stamp := stamp
  deps := deps

/-- R217: the stream has issued its last read; entries of that element may still wait to be sent. -/
def Stream.allRead (s : Stream) : Bool := !s.pending.isEmpty && decide (s.count ≤ s.elem + 1)

/-- R216, R217: a mode of 3 or a reserved bit is illegal; the context waits for a stream into the channel that
still has reads to issue; a stream of no elements sends nothing. -/
def execAgen (ch : BitVec 3) (ka : BitVec 6) (s : State) : Host.Outcome State Fault Refusal :=
  s.run fun h d =>
    d.issueFet h ((List.range 8).map (ka.toNat + ·)) fun id f =>
      if 3 ≤ (kGet f.k (ka.toNat + 7)).toNat then d.fetTrap h id 0x01 0 f.pc 0 []
      else if f.streams.any fun s => s.ch == ch.toNat && !s.allRead then d.stall id (.channels [(ch.toNat, 0, true)])
      else
        let (stamp, d) := d.fresh
        let st := streamOf f.k ka.toNat ch.toNat f.pc stamp []
        d.commitFet id { f with streams := if st.count = 0 then f.streams else f.streams ++ [st] } 4

/-- R217: the address of element `elem` for thread `t` of the team. -/
def Stream.address (s : Stream) (t : Nat) : Dword :=
  s.base + BitVec.ofInt 64 ((t : Int) * s.ts.toInt + (s.elem % s.ic : Nat) * s.is.toInt + (s.elem / s.ic : Nat) * s.os.toInt)

/-- R217: what a stream read gives. -/
inductive StreamRead where
  | entries (vs : List Word) (d : Dev)
  | fault (cause : BitVec 8) (va : Dword) (d : Dev)
  | uncorrectable (va pa : Nat) (d : Dev)
  | lost (va : Nat) (d : Dev)

/-- R217, R227: the read of one thread's element. DESIGN CHOICE (notes/assumptions/47.md): it gives what the bytes then hold,
so that it may also give a racing store that has performed since the `agen`; R217 speaks of the stores that happen before
the `agen`, and R227 lets a racing load return either value. -/
def Dev.streamRead (h : HostPart) (d : Dev) (slot core mode : Nat) (a : Dword) : StreamRead :=
  let n := if mode = 0 then 4 else 8
  if mode = 2 then .entries [low a, high a] d
  else if a.extractLsb' 57 7 != 0 then .fault 0x0D a d
  else if a.toNat % n != 0 then .fault 0x0B a d
  else
    match d.reach h slot core a.toNat .read with
    | (.error (.lost va), d) => .lost va d
    | (.error _, d) => .fault 0x0D a d
    | (.ok pa, d) =>
      if d.poisoned pa n then .uncorrectable a.toNat pa d
      else .entries (bytesWords (Memory.readBytes d.mem pa n) (n / 4)) d

/-- The live threads of a team, by warp and lane. -/
def Dev.teamThreads (d : Dev) (team : Nat) : List (Nat × Nat × Nat) :=
  (d.teamWarps team).flatMap fun id =>
    match d.warp? id with
    | none => []
    | some w => w.threads.map fun t => (id, w.w, t.lane)

/-- R217: an element's entries for every live thread of the team. DESIGN CHOICE (notes/assumptions/47.md): where the reads of
several threads fail, the trap names that of the lowest warp and lane; R217 does not say which. -/
def Dev.streamReads (h : HostPart) (slot core : Nat) (s : Stream) :
    List (Nat × Nat × Nat) → Dev → Except StreamRead (List (Nat × Nat × List Word) × Dev)
  | [], d => .ok ([], d)
  | (id, w, lane) :: ts, d =>
    match d.streamRead h slot core s.mode (s.address (32 * w + lane)) with
    | .entries vs d =>
      match Dev.streamReads h slot core s ts d with
      | .ok (rs, d) => .ok ((id, lane, vs) :: rs, d)
      | .error e => .error e
    | e => .error e

/-- R42, R217, R404: every target lane has room for an entry, and no target warp is evicted. -/
def Dev.streamRoom (d : Dev) (team ch : Nat) : Bool :=
  (d.teamWarps team).all fun id => ((d.warp? id).map fun w =>
    (w.threads.isEmpty || w.place == .resident) && w.threads.all fun t =>
      decide ((t.ch.getD ch []).length < 8)).getD true

/-- R217, R223: the stream's read of an element does not come before an earlier store of the context to the same
bytes. -/
def Dev.streamBehind (d : Dev) (fet : Nat) (s : Stream) : Bool :=
  d.accesses.any fun e => e.2.party == Party.fet fet && decide (e.2.stamp < s.stamp) && e.2.kind == AccessKind.store &&
    e.2.result.isNone && (d.teamThreads ((d.partyTeam (.fet fet)).getD 0)).any fun t =>
      let a := (s.address (32 * t.2.1 + t.2.2)).toNat
      decide (a < e.2.va.toNat + e.2.bytes) && decide (e.2.va.toNat < a + 8)

/-- The first stream into a channel changed, or ended where `f` gives none. -/
def streamAt (ch : Nat) (f : Stream → Option Stream) : List Stream → List Stream
  | [] => []
  | s :: ss => if s.ch = ch then (f s).toList ++ ss else s :: streamAt ch f ss

/-- The stream after an entry, with the words of its element that are still to send: after the last of them it goes on to the
next element, and it ends after the last element. -/
def Stream.next (s : Stream) (rest : List (Nat × Nat × List Word)) : Option Stream :=
  if rest.any fun r => !r.2.2.isEmpty then some { s with pending := rest }
  else if s.elem + 1 < s.count then some { s with pending := [], elem := s.elem + 1 }
  else none

/-- The first stream of a front-end context into a channel changed. -/
def Dev.onStreamOf (d : Dev) (fet ch : Nat) (f : Stream → Option Stream) : Dev :=
  d.onFet fet fun x => { x with streams := streamAt ch f x.streams }

/-- R128, R217: the first of the words for each thread is put into its channel; the others stay to be sent. -/
def Dev.sendEntries (d : Dev) (fet ch : Nat) (rs : List (Nat × Nat × List Word)) : Dev :=
  (rs.foldl (fun (d : Dev) (r : Nat × Nat × List Word) => d.onWarp r.1 fun w =>
      w.onLanes (laneBit r.2.1) fun t => { t with ch := sendChannel t.ch ch (r.2.2.take 1) }) d).onStreamOf fet ch fun s =>
    s.next (rs.map fun (r : Nat × Nat × List Word) => (r.1, r.2.1, r.2.2.drop 1))

/-- R42, R128, R217: at the end of a front-end cycle an element's next entry of a stream enters its channel in every lane, where
there is room: the sends of the warps in that cycle have been accepted first. -/
def Dev.sendStream (d : Dev) (fet ch : Nat) : Dev :=
  match (Table.find? d.fets fet).bind fun f => (f.streams.find? fun s => s.ch == ch).map fun s => (f.team, s) with
  | none => d
  | some (team, s) =>
    if s.pending.isEmpty || !d.streamRoom team ch then d
    else d.sendEntries fet ch (s.pending.filter fun r => (d.teamThreads team).any fun t => t.1 == r.1 && t.2.2 == r.2.1)

/-- R128: the entries of the streams of a cluster's front-end contexts at the end of a front-end cycle. -/
def Dev.sendStreams (d : Dev) (cluster : Nat) : Dev :=
  (d.fets.filter fun e => clusterOf e.2.core == cluster && !e.2.streams.isEmpty).foldl
    (fun (d : Dev) e => (e.2.streams.map Stream.ch).eraseDups.foldl (fun (d : Dev) ch => d.sendStream e.1 ch) d) d

/-- R217, R402, R460: a stream reads its next element for every live thread; its entries are then sent one after another
(`Dev.sendStreams`), and a failed read ends the stream. DESIGN CHOICE (notes/assumptions/47.md): no element is read for a
thread that has exited, whose entries are dropped, and a stream of a team with no live thread ends; R217 does not say
whether such reads are made and can fail. -/
def execAgenStreamRead (fet ch : Nat) (s : State) : Host.Outcome State Fault Refusal :=
  s.run fun h d =>
    match Table.find? d.fets fet with
    | none => d
    | some f =>
      match f.streams.find? fun s => s.ch == ch with
      | none => d
      | some st =>
        let ts := d.teamThreads f.team
        if ts.isEmpty then d.onStreamOf fet ch fun _ => none
        else if !st.pending.isEmpty || d.streamBehind fet st then d
        else
          match Dev.streamReads h (d.slotOf f.team) f.core st ts d with
          | .ok (rs, d) => d.onStreamOf fet ch fun s => some { s with pending := rs }
          | .error (.fault cause va d) =>
            (d.onStreamOf fet ch fun _ => none).fetTrapAt h fet st.stamp cause 0 st.pc va []
          | .error (.uncorrectable va pa d) => d.endTeam h f.team none 0 st.pc va pa
          | .error (.lost va d) => d.killAt h (.fet fet) (d.slotOf f.team) va
          | .error (.entries _ d) => d

/-! ## dqpush, fetend (R218, R219) -/

/-- R218: a warp of the team that receives the entry. -/
def Dev.receivers (d : Dev) (team : Nat) : List Nat :=
  (d.warps.filter fun e => e.2.team == team && !e.2.threads.isEmpty).map Prod.fst

/-- R218, R457: an entry of the hold window reaches the decision queue of every receiver; it waits for a warp that is evicted
(R404). -/
def Dev.releaseDecision (d : Dev) (id : Nat) (e : Decision) : Dev :=
  let ids := d.receivers e.team
  if ids.any fun i => ((d.warp? i).map fun w => w.place == .evicted).getD false then d
  else
    ids.foldl (fun d i => d.onWarp i fun w => { w with ch15 := w.ch15 ++ [(e.word, e.deps)] })
      { d with decisions := Table.erase d.decisions id }

/-- R218, R457: the entries on their way to a team's decision queues count as held there. -/
def Dev.decisionsFor (d : Dev) (team : Nat) : Nat := (d.decisions.filter fun e => e.2.team == team).length

/-- R218, R234, R404, R457: the entry comes after what the context has done before, and leaves the hold window later; the
context waits for a warp that is evicted. -/
def execDqpush (ka : BitVec 6) (s : State) : Host.Outcome State Fault Refusal :=
  s.run fun h d =>
    d.issueFet h [ka.toNat] fun id f =>
      let ids := d.receivers f.team
      if ids.any fun i => ((d.warp? i).map fun w => w.place == .evicted).getD false then d.stall id .residence
      else if ids.any fun i => ((d.warp? i).map fun w => decide (16 ≤ w.ch15.length + d.decisionsFor f.team)).getD false then
        d.stall id (.channels [(15, 1, true)])
      else
        let e : Decision := ⟨id, f.team, kGet f.k ka.toNat, d.earlier (.fet id) 0xFFFFFFFF⟩
        let (n, d) := d.fresh
        { d with decisions := Table.set d.decisions n e }.commitFet id f 4

/-- R219: streams already started run on. -/
def execFetend (s : State) : Host.Outcome State Fault Refusal :=
  s.run fun h d => d.issueFet h [] fun id f => (d.commitFet id f 4).onFet id fun f => { f with ended := true }

/-- R42: a stalled context goes on once what it waits for has come about. -/
def execFetResume (fet : Nat) (s : State) : Host.Outcome State Fault Refusal :=
  s.run fun _ d =>
    match Table.find? d.fets fet with
    | none => d
    | some f =>
      match f.stalled with
      | none => d
      | some r => if d.fetResolved f r then d.onFet fet fun f => { f with stalled := none } else d

/-! ## CHANNEL_EMPTY (R408) -/

/-- The channels that a split is blocked on. -/
def Split.blockedOn (s : Split) : List (Nat × Nat × Bool) :=
  match s.state with
  | .blocked (.channels ns) => ns
  | _ => []

/-- R408: no front-end context of the team can add to a channel of the warp, and no entry is on its way to it. -/
def Dev.streamless (d : Dev) (team ch : Nat) : Bool :=
  ((d.fets.filter fun e => e.2.team == team).all fun e => e.2.ended && e.2.streams.all fun s => s.ch != ch) &&
    (ch != 15 || d.decisionsFor team == 0)

/-- R408: no split of the warp can ever go on: each is blocked on channels that nothing will change, or waits at
a join or a `wsync`, and one at least is blocked. -/
def Dev.channelsDead (d : Dev) (id : Nat) (w : Warp) : Bool :=
  let ss := w.splits.map (d.wake id w)
  let stuck := fun (s : Split) => match s.state with
    | .blocked (.channels ns) => (ns.filter fun n => !channelReady w s.mask n).all fun n => d.streamless w.team n.1
    | .join => true
    | .wsync => true
    | _ => false
  ss.all stuck && ss.any fun s => !s.blockedOn.isEmpty

/-- R408: the warp traps; its lanes are those of the blocked splits. -/
def execChannelEmpty (warp : Nat) (s : State) : Host.Outcome State Fault Refusal :=
  s.run fun h d =>
    match d.warp? warp with
    | none => d
    | some w =>
      if w.place == .resident && d.channelsDead warp w && !(w.posted.any fun p => p.cause == 0x0F) then
        let bs := (sortSplits (w.splits.map (d.wake warp w))).filter fun s => !s.blockedOn.isEmpty
        match bs.head? with
        | none => d
        | some b =>
          let (stamp, d) := d.fresh
          (d.post warp ⟨stamp, 0x0F, 0, 0, unionMask bs, b.pc, 0, 0, []⟩).deliver h warp
      else d

end Sys2Proof.Machine
end

