-- ==== Sys2Proof/Machine/MemoryOps.lean ====
section
/-! DEFINITION. The memory instructions as they issue (R235 to R249, R391, R418). What becomes of an access after
that is in Accesses.lean. -/

namespace Sys2Proof.Machine

open Sys2Proof

/-! ## Issue of an access -/

/-- So many new names. -/
def Dev.takeIds (d : Dev) (k : Nat) : List Nat × Dev :=
  ((List.range k).map (d.nextId + ·), { d with nextId := d.nextId + k })

/-- Cells as words, the deepest first. -/
def wordsUp (cs : List Cell) : List Word := (cs.map Cell.word).reverse

/-- R237: the effective address of a lane. -/
def Thread.ea (t : Thread) (off : BitVec 16) : Dword := cellsValue (t.stack.take 2) + BitVec.signExtend 64 off

/-- The value of a lane's thread. -/
def Warp.ofLane {α : Type} (w : Warp) (l : Nat) (absent : α) (f : Thread → α) : α :=
  ((w.thread? l).map f).getD absent

/-- R237, R406: the address checks of the lanes. -/
def addressChecks (w : Warp) (s : Split) (off : BitVec 16) (bytes : Nat) : List ValueCheck :=
  let ea := fun (l : Nat) => w.ofLane l 0 fun t => t.ea off
  [valueCheck 0x0D (lanesOf s.mask) (fun l => (ea l).extractLsb' 57 7 != 0) ea,
    valueCheck 0x0B (lanesOf s.mask) (fun l => (ea l).toNat % bytes != 0) ea]

/-- R249: the lanes whose location is sealed at issue. -/
def Dev.sealedCheck (d : Dev) (w : Warp) (s : Split) (off : BitVec 16) (bytes : Nat) : ValueCheck :=
  let ea := fun (l : Nat) => w.ofLane l 0 fun t => t.ea off
  let c := d.context (d.slotOf w.team)
  valueCheck 0x0E (lanesOf s.mask) (fun l => c.sealedRange (ea l).toNat bytes) ea

/-- One lane of a memory instruction issues: its access, and the empty cells that it pushes (R55, R238). -/
def Dev.issueLane (d : Dev) (id : Nat) (marks : List OrderMark) (i : Instr) (pc : Va) (stamp : Nat) (f : MemForm)
    (off : BitVec 16) (pa : Option Nat) (t : Thread) : Thread × Dev :=
  let cells := t.stack.drop 2
  let data := wordsUp (if f.kind == AccessKind.swapIf then cells.take (f.takes / 2) else cells.take f.takes)
  let expect := if f.kind == AccessKind.swapIf then wordsUp ((cells.drop (f.takes / 2)).take (f.takes / 2)) else []
  let (tickets, d) := d.takeIds f.gives
  let d := d.issueAccess id marks i pc stamp t.lane f (t.ea off) data expect tickets pa
  (t.onStack fun _ => tickets.foldl (fun st k => .empty k :: st) (cells.drop f.takes), d)

/-- The lanes of a memory instruction in ascending order (R240). `pas` gives the lanes whose translation is
already there. -/
def Dev.issueLanes (id : Nat) (marks : List OrderMark) (i : Instr) (pc : Va) (stamp : Nat) (f : MemForm)
    (off : BitVec 16) (pas : List (Nat × Nat)) : List Thread → Dev → List Thread × Dev
  | [], d => ([], d)
  | t :: ts, d =>
    let pa := (pas.find? fun e => e.1 == t.lane).map Prod.snd
    let (t, d) := d.issueLane id marks i pc stamp f off pa t
    let (us, d) := Dev.issueLanes id marks i pc stamp f off pas ts d
    (t :: us, d)

/-- The effect of a memory instruction that has passed its checks. -/
def Dev.issueAccesses (d : Dev) (id : Nat) (w : Warp) (s : Split) (n : Need) (i : Instr) (f : MemForm)
    (off : BitVec 16) (pas : List (Nat × Nat)) : Dev :=
  let (stamp, d) := d.fresh
  let (ts, d) := Dev.issueLanes id w.marks i s.pc stamp f off pas (w.threadsOf s.mask) d
  let marks := ((d.warp? id).map Warp.marks).getD w.marks
  d.commit id
    { w with
      marks := marks
      threads := w.threads.map fun t => (ts.find? fun u => u.lane == t.lane).getD t }
    (s.after n)

/-! ## cas.d translates before it issues (R390) -/

/-- What the translations of the lanes give: those that cannot be served, one that the memory manager has to
serve, the physical addresses, and the address at which the walker has met an uncorrectable word (R460). -/
structure LaneWalks where
  failed : List Nat
  serve : Option Nat
  pas : List (Nat × Nat)
  lost : Option Nat
  d : Dev

/-- R390: every lane of a `cas.d` is translated. -/
def Dev.walkLanes (h : HostPart) (slot core : Nat) : List (Nat × Dword) → LaneWalks → LaneWalks
  | [], r => r
  | (l, ea) :: ls, r =>
    if r.d.walkPoisoned slot (dieOf core) ea.toNat then { r with lost := some ea.toNat }
    else
      match r.d.translate slot core ea.toNat .write with
      | .ok (pa, d) => Dev.walkLanes h slot core ls { r with pas := r.pas ++ [(l, pa)], d := d }
      | .error _ =>
        match r.d.reach h slot core ea.toNat .write with
        | (.ok _, _) => Dev.walkLanes h slot core ls { r with serve := some (r.serve.getD l) }
        | (.error (.lost va), d) => { r with lost := some va, d := d }
        | (.error _, d) => Dev.walkLanes h slot core ls { r with failed := r.failed ++ [l], d := d }

/-- R390: a `cas.d`. -/
def Dev.issueWide (h : HostPart) (d : Dev) (id : Nat) (w : Warp) (s : Split) (n : Need) (i : Instr) (f : MemForm) : Dev :=
  let ea := fun (l : Nat) => w.ofLane l 0 fun t => t.ea 0
  d.checked h id s (addressChecks w s 0 f.bytes)
    (let slot := d.slotOf w.team
     let r := Dev.walkLanes h slot w.core ((lanesOf s.mask).map fun l => (l, ea l)) ⟨[], none, [], none, d⟩
     match r.lost with
     | some va => r.d.killAt h (.warp id) slot va
     | none =>
     r.d.checked h id s [valueCheck w.walkCause (lanesOf s.mask) r.failed.contains ea]
       (match r.serve with
        | some l => d.awaitService h id s ⟨i, true, f.bytes, 0, ea l, []⟩
        | none =>
          r.d.checked h id s [d.sealedCheck w s 0 f.bytes] (r.d.issueAccesses id w s n i f 0 r.pas)))

/-- R238 to R246: a memory instruction. -/
def Dev.memoryOp (h : HostPart) (d : Dev) (wbit : Bool) (i : Instr) (off : BitVec 16) : Dev :=
  match memForm i with
  | none => d.misplaced h
  | some f =>
    let n := { Need.of 4 wbit (2 + f.takes) f.gives with
      replay := replayCost i, early := if f.kind == AccessKind.store then [0, 1] else [] }
    d.issueWarp h n fun id w s =>
      if f.kind == AccessKind.swapIf && f.bytes == 8 then d.issueWide h id w s n i f
      else
        d.checked h id s
          (addressChecks w s off f.bytes ++
            if f.kind == AccessKind.load then [] else [d.sealedCheck w s off f.bytes])
          (d.issueAccesses id w s n i f off [])

def execLd (w : Bool) (size : BitVec 3) (off : BitVec 16) (s : State) : Host.Outcome State Fault Refusal :=
  s.run fun h d => d.memoryOp h w (.ld w size off) off
def execSt (w : Bool) (size : BitVec 3) (off : BitVec 16) (s : State) : Host.Outcome State Fault Refusal :=
  s.run fun h d => d.memoryOp h w (.st w size off) off
def execLdo (w rmt : Bool) (order scope size : BitVec 3) (s : State) : Host.Outcome State Fault Refusal :=
  s.run fun h d => d.memoryOp h w (.ldo w rmt order scope size) 0
def execSto (w rmt : Bool) (order scope size : BitVec 3) (s : State) : Host.Outcome State Fault Refusal :=
  s.run fun h d => d.memoryOp h w (.sto w rmt order scope size) 0
def execAtom (w : Bool) (op : BitVec 5) (rmt : Bool) (order scope size : BitVec 3) (s : State) :
    Host.Outcome State Fault Refusal :=
  s.run fun h d => d.memoryOp h w (.atom w op rmt order scope size) 0
def execCas (w : Bool) (forder : BitVec 3) (rmt : Bool) (order scope size : BitVec 3) (s : State) :
    Host.Outcome State Fault Refusal :=
  s.run fun h d => d.memoryOp h w (.cas w forder rmt order scope size) 0
def execRed (w : Bool) (op : BitVec 5) (rmt : Bool) (order scope size : BitVec 3) (s : State) :
    Host.Outcome State Fault Refusal :=
  s.run fun h d => d.memoryOp h w (.red w op rmt order scope size) 0

/-! ## Prefetch (R73, R242) -/

/-- R73: a line of sealed data in the core's replica area, most recent first; the area holds 2,048 lines. -/
def Dev.noteReplica (d : Dev) (core slot va : Nat) : Dev :=
  let e := (slot, va / 128 * 128)
  d.onCore core fun c => { c with replicas := (e :: c.replicas.filter (· != e)).take 2048 }

/-- R242: one lane's prefetch. -/
def Dev.prefetchLane (core slot : Nat) (d : Dev) (ea : Dword) : Dev :=
  if ea.extractLsb' 57 7 != 0 then d
  else
    match d.translate slot core ea.toNat .read with
    | .error _ => d.walked slot core ea.toNat .read
    | .ok (_, d) => if (d.context slot).sealedAt ea.toNat then d.noteReplica core slot ea.toNat else d

def execPrefetch (w : Bool) (off : BitVec 16) (s : State) : Host.Outcome State Fault Refusal :=
  s.run fun h d =>
    let n := Need.of 4 w 2 0
    d.issueWarp h n fun id w s =>
      let d := ((w.threadsOf s.mask).map fun t => t.ea off).foldl (Dev.prefetchLane w.core (d.slotOf w.team)) d
      d.commit id (w.onLanes s.mask fun t => t.onStack fun st => st.drop 2) (s.after n)

/-! ## Fences (R225, R228, R247) -/

/-- The accesses of some lanes of a warp that satisfy a condition. -/
def Dev.laneAccesses (d : Dev) (id : Nat) (lanes : Mask) (p : Access → Bool) : List Nat :=
  (d.accesses.filter fun e => e.2.party == Party.warp id && decide (e.2.lane < 32) && lanes.getLsbD e.2.lane && p e.2).map
    Prod.fst

/-- R225: the strong loads and read-modify-writes of the lanes that have not read yet become acquires, a `cas` that fails
too. -/
def Dev.acquireInFlight (d : Dev) (ids : List Nat) (scope : Nat) : Dev :=
  { d with accesses := d.accesses.map fun (e : Nat × Access) =>
      if ids.contains e.1 then
        (e.1, { e.2 with order := if e.2.order = 0 then 1 else if e.2.order = 2 then 3 else e.2.order
                         forder := if e.2.kind == AccessKind.swapIf && e.2.forder == 0 then 1 else e.2.forder
                         scope := Nat.max e.2.scope scope })
      else e }

/-- R225: what the releases that the lanes have read ask, for an acquire fence at a scope. -/
def Dev.observedDeps (d : Dev) (id : Nat) (w : Warp) (lanes : Mask) (scope : Nat) : List Nat :=
  (w.observed.filter fun o => o.1 &&& lanes != 0 && d.synchronises o.2 (.warp id) scope false).flatMap fun o => o.2.deps

/-- R225, R228: what a fence leaves for the later accesses of the split. -/
def Dev.fenceMark (d : Dev) (id : Nat) (w : Warp) (s : Split) (order scope : Nat) : Dev :=
  let acq := order != 2
  let rel := order != 1
  let strong := if acq then
      d.laneAccesses id s.mask fun a => decide (1 ≤ a.scope) && a.kind != AccessKind.store && a.result.isNone
    else []
  let before := d.earlier (.warp id) s.mask
  let all := strong ++ (if acq then d.observedDeps id w s.mask scope else []) ++ if order = 4 then before else []
  (d.acquireInFlight strong scope).mark id ⟨s.mask, all, if rel then scope else 0, if rel then before else []⟩

/-- R247: a fence at die scope or wider waits for the lanes' earlier stores and read-modify-writes. DESIGN CHOICE
(notes/assumptions/28.md): R247 has the thread's earlier stores at that scope perform, R479 those at die scope or wider; the
model waits for the lanes' own stores of every scope, and not for the warp's `kst`. -/
def execFence (_ : Bool) (order scope : BitVec 3) (s : State) : Host.Outcome State Fault Refusal :=
  s.run fun h d =>
    let n := Need.of 4 false 0 0
    d.issueWarp h n fun id w s =>
      let stores := d.laneAccesses id s.mask fun a => a.kind != AccessKind.load && a.result.isNone
      if 3 ≤ scope.toNat && !stores.isEmpty then d.block id (.accesses stores)
      else
        let d := d.fenceMark id w s order.toNat scope.toNat
        d.commit id ((d.warp? id).getD w) (s.after n)

/-! ## seal and unseal (R248) -/

/-- R231, R248: the request of the split's lowest lane, after what those lanes have done and before what they do later; all
its lanes get one status cell. -/
def Dev.sealRequest (h : HostPart) (d : Dev) (wbit undo : Bool) : Dev :=
  let n := Need.of 4 wbit 4 1
  d.issueWarp h n fun id w s =>
    let len := lowestValue w s 2
    let base := w.ofLane (lowest s.mask) 0 fun t => cellsValue ((t.stack.drop 2).take 2)
    let (ticket, d) := d.fresh
    let (r, d) := d.fresh
    let q : SealRequest :=
      ⟨base.toNat, len.toNat, undo, .warp id, ticket, 0, 0, d.earlier (.warp id) s.mask ++ d.markDeps w.marks s.mask⟩
    let w := { w with marks := d.liveMarks w.marks ++ [(⟨s.mask, [r], 0, []⟩ : OrderMark)] }
    let d := { d with seals := Table.set d.seals r q }
    d.commit id (w.onLanes s.mask fun t => t.onStack fun st => .empty ticket :: st.drop 4) (s.after n)

def execSeal (w : Bool) (s : State) : Host.Outcome State Fault Refusal := s.run fun h d => d.sealRequest h w false
def execUnseal (w : Bool) (s : State) : Host.Outcome State Fault Refusal := s.run fun h d => d.sealRequest h w true

end Sys2Proof.Machine
end

