-- ==== Sys2Proof/Machine/Accesses.lean ====
section
/-! DEFINITION. What becomes of an access after its issue: its walk, its service, its place at the home, its fill
(R51 to R58, R70 to R81, R222 to R231, R397, R398, R419, R424 to R426, R457, R460). -/

namespace Sys2Proof.Machine

open Sys2Proof

/-! ## Fills (R55) -/

/-- A stack with the cells of a ticket filled. -/
def fillStack (ticket : Nat) (v : Word) (st : List Cell) : List Cell :=
  st.map fun c => if c.ticket? == some ticket then .full v else c

/-- R55: every cell that waits for a ticket is filled, those that a trap has set aside too. -/
def Warp.fill (w : Warp) (ticket : Nat) (v : Word) : Warp :=
  { w with
    threads := w.threads.map fun t => t.onStack (fillStack ticket v)
    handler := w.handler.map fun hd => { hd with saved := hd.saved.map fun e => (e.1, fillStack ticket v e.2) } }

/-- R212: a returning `kld` word: it is written unless a later `kld` has written the register. -/
def fillRegister (k : List Word) (kld : List (Nat × Nat)) (reg id : Nat) (v : Word) : List Word × List (Nat × Nat) :=
  if !kld.contains (reg, id) then (k, kld)
  else if kld.any fun e => e.1 == reg && decide (id < e.2) then (k, kld.filter (· != (reg, id)))
  else (kSet k reg v, kld.filter fun e => !(e.1 == reg && decide (e.2 ≤ id)))

/-- What an access gives its tickets or registers: all of them, or the word of its part. -/
def Access.parts (a : Access) (names : List Nat) (vs : List Word) : List (Nat × Word) :=
  if names.length = vs.length then names.zip vs
  else match names[a.part]?, vs.head? with
    | some n, some v => [(n, v)]
    | _, _ => []

/-- The result of an access goes to its cells and registers. -/
def Dev.fillAccess (d : Dev) (id : Nat) (a : Access) (vs : List Word) : Dev :=
  match a.party with
  | .warp wid =>
    d.onWarp wid fun w =>
      let w := (a.parts a.tickets vs).foldl (fun (w : Warp) e => w.fill e.1 e.2) w
      (a.parts a.regs vs).foldl
        (fun (w : Warp) e =>
          let r := fillRegister w.k w.kld e.1 id e.2
          { w with k := r.1, kld := r.2 })
        w
  | .fet fid =>
    d.onFet fid fun f =>
      (a.parts a.regs vs).foldl
        (fun (f : Fet) e =>
          let r := fillRegister f.k f.kld e.1 id e.2
          { f with k := r.1, kld := r.2 })
        f
  | _ => d

/-! ## Translation (R80, R397, R398, R424) -/

/-- R80: the access that a kind asks of its leaf. -/
def Access.want (a : Access) : Want := if a.kind == AccessKind.load then .read else .write

/-- R397: the parked split of a lane is ready again, or waits at its barrier again, once none of its lanes has an access that
is parked. -/
def Dev.unpark (d : Dev) (id lane : Nat) : Dev :=
  let parked := fun (l : Nat) => d.accesses.any fun e => e.2.party == Party.warp id && e.2.lane == l && e.2.parked
  d.onWarp id fun w => w.onSplits fun s =>
    if s.mask.getLsbD lane && (lanesOf s.mask).all fun l => !parked l then { s with state := s.state.unpark } else s

/-- R397: an access whose translation failed goes to the memory manager, and its lane is parked. -/
def Dev.failWalk (h : HostPart) (d : Dev) (id : Nat) (a : Access) : Dev :=
  match a.party with
  | .warp wid =>
    let d := d.nestFault h wid a.stamp (laneBit a.lane) a.pc a.va
    if (d.warp? wid).isNone then d
    else
      let mates := d.parkedMates a ||| laneBit a.lane
      (d.setAccess id { a with parked := true }).onWarp wid fun w => w.park a.lane mates
  | _ => d.setAccess id { a with parked := true }

/-- R80, R81, R397, R460: a walk completes or fails. -/
def execPageWalk (access : Nat) (s : State) : Host.Outcome State Fault Refusal :=
  s.run fun h d =>
    match Table.find? d.accesses access with
    | none => d
    | some a =>
      if a.pa.isSome || a.parked || a.cause != 0 then d
      else
        let core := d.partyCore a.party
        if d.walkPoisoned a.slot (dieOf core) a.va.toNat then d.killAt h a.party a.slot a.va.toNat
        else
          match d.translate a.slot core a.va.toNat a.want with
          | .ok (pa, d) => d.setAccess access { a with pa := some pa }
          | .error _ => (d.walked a.slot core a.va.toNat a.want).failWalk h access a

/-- R397: the access is re-injected, with its translation. -/
def Dev.reached (d : Dev) (id : Nat) (a : Access) (pa : Nat) : Dev :=
  let d := d.setAccess id { a with pa := some pa, parked := false, served := false }
  match a.party with
  | .warp wid => ((d.unpark wid a.lane).settleWarp wid).served wid
  | _ => d

/-- R397, R398: the memory manager cannot serve the access: the warp traps, with ACCESS_VIOLATION, or, in handler
mode, with PAGE_FAULT. The failure of a warp with no live thread is reported to another (R403). -/
def Dev.unresolved (h : HostPart) (d : Dev) (id : Nat) (a : Access) : Dev :=
  match a.party with
  | .warp wid =>
    match d.warp? wid with
    | none => { d with accesses := Table.erase d.accesses id }
    | some w =>
      if w.threads.isEmpty then
        ({ d with accesses := Table.erase d.accesses id }.delegate h w.team w.w
          ⟨a.stamp, 0x0D, 4, 0, laneBit a.lane, a.pc, a.ea, 0, []⟩).settle h
      else
        let d := d.setAccess id { a with cause := 0x0D, served := true }
        if w.posted.any fun p => p.stamp == a.stamp then d
        else d.post wid ⟨a.stamp, w.walkCause, 0, 0, laneBit a.lane, a.pc, a.ea, 0, []⟩
  | _ => { d with accesses := Table.erase d.accesses id }

/-- R212: the walk before the issue of a uniform access is over; its issuer looks again. -/
def Dev.walkOver (d : Dev) (id : Nat) (a : Access) : Dev :=
  let d := { d with accesses := Table.erase d.accesses id }
  match a.party with
  | .warp wid => d.served wid
  | _ => d

/-- The party is a warp that is evicted. -/
def Dev.away (d : Dev) : Party → Bool
  | .warp id => (d.warp? id).any fun w => w.place == .evicted
  | _ => false

/-- R240: a lower lane of the same instruction, to bytes of the access, waits for its service too. -/
def Dev.servedAfter (d : Dev) (a : Access) : Bool :=
  d.accesses.any fun e => e.2.party == a.party && e.2.stamp == a.stamp && decide (e.2.lane < a.lane) && e.2.parked &&
    e.2.cause == 0 && e.2.pa.isNone && e.2.overlaps a

/-- R397, R424: the memory manager serves a failed translation, once for an access, those of the lanes of an instruction to
the same bytes in ascending lane (R240); that of an evicted warp is injected again when the warp is back (R425). -/
def execPageService (access : Nat) (s : State) : Host.Outcome State Fault Refusal :=
  s.run fun h d =>
    match Table.find? d.accesses access with
    | none => d
    | some a =>
      if !a.parked || a.served || a.pa.isSome || a.cause != 0 || d.servedAfter a then d
      else
        match d.reach h a.slot (d.partyCore a.party) a.va.toNat a.want with
        | (.ok pa, d) =>
          if d.away a.party then d else if a.lane = 32 then d.walkOver access a else d.reached access a pa
        | (.error (.lost va), d) => d.killAt h a.party a.slot va
        | (.error _, d) => if a.lane = 32 then d.walkOver access a else d.unresolved h access a

/-! ## At the home (R222 to R231, R243 to R246) -/

/-- R243: the new value of a read-modify-write of 4 or 8 bytes. -/
def updateValue (op bytes v b : Nat) : Nat :=
  let w := 8 * bytes
  let f := if bytes = 8 then fmtFp64 else fmtFp32
  match op with
  | 0 => (v + b) % 2 ^ w
  | 1 => v &&& b
  | 2 => v ||| b
  | 3 => v ^^^ b
  | 4 => if integerValue w true b < integerValue w true v then b else v
  | 5 => if integerValue w true v < integerValue w true b then b else v
  | 6 => if b < v then b else v
  | 7 => if v < b then b else v
  | 8 => b
  | 9 => (f.finish 0 (addNum 0 (f.decode v) (f.decode b))).1
  | 10 => (f.minMax false v b).1
  | _ => (f.minMax true v b).1

/-- A list of words as one number, the first least significant. -/
def wordsValue : List Word → Nat
  | [] => 0
  | v :: vs => v.toNat + 2 ^ 32 * wordsValue vs

/-- R236: the words that a load gives, extended. -/
def loadWords (bytes : Nat) (signed : Bool) (v : Nat) : List Word :=
  if bytes < 4 then [if signed then BitVec.ofInt 32 (integerValue (8 * bytes) true v) else BitVec.ofNat 32 v]
  else (List.range (bytes / 4)).map fun i => BitVec.ofNat 32 (v / 2 ^ (32 * i))

/-- The words that the access writes or compares with: those of its part. -/
def Access.words (a : Access) (ws : List Word) : List Word := if 4 < a.bytes then ws else (ws.drop a.part).take 1

/-- What an access does at its home: the words that it reads and the value that it writes. -/
structure Performed where
  read : List Word
  write : Option Nat
  failed : Bool
  deriving DecidableEq, Repr

/-- R222, R230, R245: the effect of an access on the value `v` of its bytes. -/
def Access.perform (a : Access) (v : Nat) : Performed :=
  let data := wordsValue (a.words a.data)
  match a.kind with
  | .load => ⟨loadWords a.bytes a.signed v, none, false⟩
  | .store => ⟨[], some data, false⟩
  | .update op => ⟨loadWords a.bytes false v, some (updateValue op a.bytes v data), false⟩
  | .swapIf =>
    if v = wordsValue (a.words a.expect) then ⟨loadWords a.bytes false v, some data, false⟩
    else ⟨loadWords a.bytes false v, none, true⟩

/-- The release tag is for bytes that the access touches. -/
def ReleaseTag.meets (t : ReleaseTag) (pa bytes : Nat) : Bool :=
  decide (t.pa < pa + bytes) && decide (pa < t.pa + t.bytes)

/-- What a release asks has come about. -/
def Dev.tagOver (d : Dev) (t : ReleaseTag) : Bool := d.allPerformed t.deps && d.allPerformed t.mates

/-- R224, R229: what an acquire waits for: what the releases that it takes in ask; with `.rmt` also every release at team
scope of the same team to the location, and the stores that this team made before its release. -/
def Dev.acquireWaits (d : Dev) (a : Access) (pa : Nat) : List Nat :=
  let here := d.tags.filter fun t => t.meets pa a.bytes && t.slot == a.slot
  let synced := here.filter fun t => t.live && d.synchronises t a.party a.scope a.rmt
  let older := if a.rmt then
      here.filter fun t => !t.live && t.scope == 2 && synced.any fun u => u.team == t.team
    else []
  ((synced ++ older).flatMap ReleaseTag.deps ++ if a.rmt then synced.flatMap ReleaseTag.mates else []).filter fun i =>
    !d.performed i

/-- R224: the releases that a home keeps after an access: a plain write ends those that its bytes hold, a read-modify-write
belongs to the release sequence of each release before it, and a release adds its own. Releases to bytes of which no
release of the same team asks anything any more are dropped. -/
def Dev.tagsAfter (d : Dev) (id : Nat) (a : Access) (pa : Nat) (writes : Bool) : List ReleaseTag :=
  let after := if writes then d.tags.flatMap fun (t : ReleaseTag) => t.after pa a.bytes (a.kind != AccessKind.store) else d.tags
  let team := (d.partyTeam a.party).getD 0
  let own : List ReleaseTag :=
    if writes && a.relScope != 0 then
      [⟨true, pa, a.va.toNat, a.bytes, a.party, team, a.slot, d.partyDie a.party, a.relScope, a.rmt, a.relDeps,
        d.teamStores (d.partyTeam a.party) id⟩]
    else []
  let all := after ++ own
  all.filter fun t => all.any fun u => u.team == t.team && u.meets t.pa t.bytes && !d.tagOver u

/-- R225: what a strong access has read, for a later acquire fence. -/
def Dev.observe (d : Dev) (a : Access) (pa : Nat) : Dev :=
  match a.party with
  | .warp id =>
    let seen := (d.tags.filter fun t => t.live && t.meets pa a.bytes && t.slot == a.slot).map fun t => (laneBit a.lane, t)
    if a.scope = 0 || a.kind == AccessKind.store then d
    else d.onWarp id fun w => { w with observed := (w.observed.filter fun o => !d.allPerformed o.2.deps) ++ seen }
  | _ => d

/-- R245: after a `cas`, only the order of what it did remains. -/
def Access.settleOrder (a : Access) (failed : Bool) : Access :=
  if a.kind == AccessKind.swapIf then { a with order := if failed then a.forder else a.order, forder := 0 } else a

/-- The accesses are of one lane of one instruction. -/
def Access.sameLane (a b : Access) : Bool := a.party == b.party && a.stamp == b.stamp && a.lane == b.lane

/-- R212, R249, R398, R403, R426: a home refuses a store to a region that is sealed now: none of its lane's words is
written. -/
def Dev.refuseStore (h : HostPart) (d : Dev) (a : Access) : Dev :=
  let gone := { d with accesses := d.accesses.filter fun e => !a.sameLane e.2 }
  match a.party with
  | .warp wid =>
    match d.warp? wid with
    | none => gone
    | some w =>
      let lanes := if a.lane = 32 then a.expect.headD 0 else laneBit a.lane
      let p : Posted := ⟨a.stamp, 0x0E, 0, 0, lanes, a.pc, a.ea, 0, []⟩
      if w.threads.isEmpty then (gone.delegate h w.team w.w p).settle h
      else if a.lane = 32 then gone.post wid p
      else
        let refuse := fun (e : Nat × Access) => if a.sameLane e.2 then (e.1, { e.2 with cause := 0x0E }) else e
        let d := { d with accesses := d.accesses.map refuse }
        if w.posted.any fun q => q.stamp == a.stamp then d else d.post wid p
  | .fet f => gone.fetTrapAt h f a.stamp 0x0E 0 a.pc a.ea []
  | _ => gone

/-- The access has performed: a store is done with; anything that returns a value, or acquires, is kept until it
does. -/
def Dev.performedAt (h : HostPart) (d : Dev) (id : Nat) (a : Access) (pa : Nat) : Dev :=
  if a.kind != AccessKind.store && d.poisoned pa a.bytes then d.setAccess id { a with cause := 0x19, result := some [] }
  else
    let p := a.perform (leValue (Memory.readBytes d.mem pa a.bytes))
    let a := a.settleOrder p.failed
    let waits := if a.acquires then d.acquireWaits a pa else []
    let d := d.observe a pa
    let d := { d with tags := d.tagsAfter id a pa p.write.isSome }
    let d := match p.write with
      | some v => d.putBytes pa (leBytes a.bytes v)
      | none => d
    let d := match a.party with
      | .warp wid =>
        if a.kind == AccessKind.load && (d.context a.slot).sealedAt a.va.toNat then
          d.noteReplica (((d.warp? wid).map Warp.core).getD 0) a.slot a.va.toNat
        else d
      | _ => d
    if a.tickets.isEmpty && a.regs.isEmpty && waits.isEmpty then { d with accesses := Table.erase d.accesses id }.settle h
    else (d.setAccess id { a with result := some p.read, waits := waits }).settle h

/-- R222 to R224, R240: the access performs at its home, or is refused there. -/
def execHomeAccess (access : Nat) (s : State) : Host.Outcome State Fault Refusal :=
  s.run fun h d =>
    match Table.find? d.accesses access with
    | none => d
    | some a =>
      match a.pa with
      | none => d
      | some pa =>
        if !d.homeReady access a then d
        else if a.kind != AccessKind.load && (d.context a.slot).sealedRange a.va.toNat a.bytes then d.refuseStore h a
        else d.performedAt h access a pa

/-! ## The fill (R55, R212, R460, R461) -/

/-- R461: the lanes of an access's instruction that have read an uncorrectable word; a uniform access has those of its split. -/
def Dev.consumers (d : Dev) (a : Access) : Mask :=
  if 32 ≤ a.lane then a.expect.headD 0
  else
    laneBit a.lane ||| maskOf ((d.accesses.filter fun e => e.2.party == a.party && e.2.stamp == a.stamp && e.2.result.isSome &&
      e.2.cause == 0x19).map fun e => e.2.lane)

/-- R460: the consumer of an uncorrectable word. -/
def Dev.consume (h : HostPart) (d : Dev) (a : Access) (pa : Nat) : Dev :=
  match a.party with
  | .warp id =>
    match d.warp? id with
    | none => d
    | some w => d.endTeam h w.team (some id) (d.consumers a) a.pc (a.va.toNat + d.firstPoisoned pa a.bytes)
        (pa + d.firstPoisoned pa a.bytes)
  | .fet id =>
    match Table.find? d.fets id with
    | none => d
    | some f => d.endTeam h f.team none 0 a.pc (a.va.toNat + d.firstPoisoned pa a.bytes) (pa + d.firstPoisoned pa a.bytes)
  | _ => d

def execLoadFill (access : Nat) (s : State) : Host.Outcome State Fault Refusal :=
  s.run fun h d =>
    match Table.find? d.accesses access with
    | none => d
    | some a =>
      match a.result with
      | none => d
      | some vs =>
        if !d.allPerformed a.waits then d
        else
          let e := { d with accesses := Table.erase d.accesses access }
          if a.cause != 0 then e.consume h a (a.pa.getD 0) else (e.fillAccess access a vs).settle h

/-! ## Spills, refills and forwarding (R51 to R57, R393) -/

/-- R57: where the word of a spilled cell lies in memory; none while the forwarding table still holds it. -/
def Dev.spilledAt (d : Dev) (id : Nat) (w : Warp) (lane p : Nat) : Option Nat :=
  let f : Forward := ⟨id, w.handler.isSome, if w.handler.isSome then handlerLine p else w.stackLine p, laneBit lane, [], 0⟩
  if ((d.core w.core).lb w.lb).forwards.any fun g =>
      g.warp == f.warp && g.mapped == f.mapped && g.line == f.line && g.lanes.getLsbD lane then none
  else (d.linePa w.core f).map (· + 4 * lane)

/-- R51: the words that a refill from resident count `was` to `c` reads from memory, the deepest first: the lane, the
cell's position and the address. -/
def Dev.refillWords (d : Dev) (id : Nat) (w : Warp) (lanes : Mask) (was c : Nat) : List (Nat × Nat × Nat) :=
  (List.range (c - was)).flatMap fun i => (w.threadsOf lanes).filterMap fun t =>
    let p := t.stack.length - c + i
    (d.spilledAt id w t.lane p).map fun pa => (t.lane, p, pa)

/-- A full cell of a thread's stack, at a position, given a word. -/
def Thread.setCell (t : Thread) (p : Nat) (v : Word) : Thread :=
  let n := t.stack.length - 1 - p
  { t with stack := match t.stack[n]? with
    | some (.full _) => t.stack.set n (.full v)
    | _ => t.stack }

/-- R393: a refill in handler mode takes the words that the mapped handler area holds. -/
def Dev.refilled (d : Dev) (w : Warp) (words : List (Nat × Nat × Nat)) : Warp :=
  if w.handler.isNone then w
  else
    words.foldl (fun (w : Warp) (r : Nat × Nat × Nat) =>
      w.onLanes (laneBit r.1) fun t => t.setCell r.2.1 (BitVec.ofNat 32 (leValue (Memory.readBytes d.mem r.2.2 4)))) w

/-- R461: the address that the frame of a refill's uncorrectable word gives: a word of the slice's backing stacks has none
(DESIGN CHOICE, notes/assumptions/43.md: it gives 0). -/
def Dev.refillVa (d : Dev) (w : Warp) (lane p : Nat) : Nat :=
  if w.handler.isSome then d.handlerBase w.team w.w + handlerLine p + 4 * lane else 0

/-- R51, R54: a split as a request that moves its lanes leaves it: its resident count is the request's, or, where a
later merge has made it smaller already, that one. -/
def Split.moved (lanes : Mask) (spill : Bool) (c : Nat) (s : Split) : Split :=
  if s.mask &&& lanes == 0 then s else { s with c := if spill then Nat.min s.c c else c }

/-- R51 to R54, R57, R460: the oldest request of a lane block's spill engine is done, for its lanes that are live: a spill
waits for its cells to fill and for places in the forwarding table; a refill may meet an uncorrectable word. -/
def execSpillRefillComplete (core lb : Nat) (s : State) : Host.Outcome State Fault Refusal :=
  s.run fun h d =>
    let b := (d.core core).lb lb
    match b.transfers with
    | [] => d
    | t :: rest =>
      let ended := d.onLb core lb fun b => { b with transfers := rest }
      match d.warp? t.warp with
      | none => ended
      | some w =>
        let lanes := t.lanes &&& w.live
        let moved := fun (w : Warp) => w.onSplits (Split.moved lanes (decide (t.c < t.was)) t.c)
        if t.c < t.was then
          let fs := spillForwards (d.clockOf core) t.warp w lanes t.was t.c
          if !w.spillable lanes t.was t.c || decide (16 < b.forwards.length + fs.length) then d
          else (ended.pushForwards core lb fs).setWarp t.warp (moved w)
        else
          let words := d.refillWords t.warp w lanes t.was t.c
          match words.find? fun (r : Nat × Nat × Nat) => d.poisoned r.2.2 4 with
          | some r =>
            let pc := ((w.splits.find? fun s => s.mask.getLsbD r.1).map Split.pc).getD 0
            ended.endTeam h w.team (some t.warp) (laneBit r.1) pc (d.refillVa w r.1 r.2.1) r.2.2
          | none => ended.setWarp t.warp (moved (d.refilled w words))

/-- R57: the oldest entry's write completes, 12 cycles after its issue: its words are in memory and its place is free. -/
def execForwardingEntryFreed (core lb : Nat) (s : State) : Host.Outcome State Fault Refusal :=
  s.run fun _ d =>
    match ((d.core core).lb lb).forwards with
    | [] => d
    | f :: fs =>
      if f.due ≤ d.clockOf core then (Dev.retire core d f).onLb core lb fun b => { b with forwards := fs } else d

end Sys2Proof.Machine
end

