-- ==== Sys2Proof/Machine/Crypto.lean ====
section
/-! DEFINITION. SHA-256 and the verification of ECDSA P-256 signatures, as the loader uses them (R363, R364). The two
standards are FIPS 180-4 and FIPS 186-4 (notes/assumptions/17.md). -/

namespace Sys2Proof.Machine

open Sys2Proof

/-! ## Big-endian numbers -/

/-- The number that bytes give, first byte highest. -/
def beValue (bs : List Byte) : Nat := bs.foldl (fun n b => n * 256 + b.toNat) 0

/-- The bytes of a number, first byte highest. -/
def beBytes (n v : Nat) : List Byte := (leBytes n v).reverse

/-! ## SHA-256

The hash is a list of eight words. Its start, and the constants of its rounds, are fractions of roots of the first
primes, as FIPS 180-4 defines them. -/

/-- The first `n` primes among the numbers from `k`. -/
def primesFrom : Nat → Nat → Nat → List Nat
  | 0, _, _ => []
  | _, 0, _ => []
  | fuel + 1, n + 1, k =>
    if (List.range k).all fun m => m < 2 || k % m != 0 then k :: primesFrom fuel n (k + 1) else primesFrom fuel (n + 1) (k + 1)

/-- The largest number below 2 to the power `bits` whose power of exponent `e` is at most `v`, tried from the top bit, on
top of `r`. -/
def rootBits (e v : Nat) : Nat → Nat → Nat
  | 0, r => r
  | bits + 1, r => rootBits e v bits (if (r + 2 ^ bits) ^ e ≤ v then r + 2 ^ bits else r)

/-- The first 32 bits of the fraction of a root of a number below 512. -/
def rootFraction (e p : Nat) : Word := BitVec.ofNat 32 (rootBits e (p * 2 ^ (32 * e)) 37 0)

/-- The constants of the rounds: from the cube roots of the first 64 primes. -/
def shaConstants : List Word := (primesFrom 312 64 2).map (rootFraction 3)

/-- The first hash: from the square roots of the first eight primes. -/
def shaStart : List Word := (primesFrom 20 8 2).map (rootFraction 2)

/-- The sum without carries of a word turned right by some numbers of places. -/
def turned (places : List Nat) (x : Word) : Word := places.foldl (fun v n => v ^^^ x.rotateRight n) 0

/-- A round, with the sum of its constant and its message word. -/
def shaRound (kw : Word) : List Word → List Word
  | [a, b, c, d, e, f, g, h] =>
    let chosen := g ^^^ (e &&& (f ^^^ g))
    let most := (a &&& b) ||| (c &&& (a ||| b))
    let t := kw + chosen + turned [6, 11, 25] e + h
    [t + most + turned [2, 13, 22] a, a, b, c, d + t, e, f, g]
  | hash => hash

/-- The message words of `n` further rounds: `w` holds the sixteen before them, the latest first. -/
def shaExpand : Nat → List Word → List Word
  | 0, _ => []
  | n + 1, w =>
    let x := w.getD 14 0
    let y := w.getD 1 0
    let v := w.getD 15 0 + w.getD 6 0 + (turned [7, 18] x ^^^ (x >>> 3)) + (turned [17, 19] y ^^^ (y >>> 10))
    v :: shaExpand n (v :: w.take 15)

/-- A block of 64 bytes taken into the hash. -/
def shaBlock (hash : List Word) (bs : List Byte) : List Word :=
  let first := (List.range 16).map fun i => BitVec.ofNat 32 (beValue (slice bs (4 * i) 4))
  let words := first ++ shaExpand 48 first.reverse
  let after := (words.zipWith (· + ·) shaConstants).foldl (fun s kw => shaRound kw s) hash
  hash.zipWith (· + ·) after

/-- The message with its padding and its length in bits. -/
def shaPadded (bs : List Byte) : List Byte :=
  bs ++ [0x80] ++ zeros ((119 - bs.length % 64) % 64) ++ beBytes 8 (8 * bs.length)

/-- The SHA-256 digest, as a number. -/
def sha256 (bs : List Byte) : Nat :=
  let m := shaPadded bs
  let hash := (List.range (m.length / 64)).foldl (fun s i => shaBlock s (slice m (64 * i) 64)) shaStart
  hash.foldl (fun n w => n * 2 ^ 32 + w.toNat) 0

/-! ## P-256 -/

/-- The field, the order of the group, the coefficient b, and the base point. -/
def p256 : Nat := 0xffffffff00000001000000000000000000000000ffffffffffffffffffffffff
def p256Order : Nat := 0xffffffff00000000ffffffffffffffffbce6faada7179e84f3b9cac2fc632551
def p256B : Nat := 0x5ac635d8aa3a93e7b3ebbd55769886bc651d06b0cc53b0f63bce3c3e27d2604b
def p256G : Nat × Nat :=
  (0x6b17d1f2e12c4247f8bce6e563a440f277037d812deb33a0f4a13945d898c296,
   0x4fe342e2fe1a7f9b8ee7eb4a7c0f9e162bce33576b315ececbb6406837bf51f5)

/-- `r` times `a` to the power `e` modulo `m`, over the lowest `n` bits of `e`. -/
def powMod (m : Nat) : Nat → Nat → Nat → Nat → Nat
  | 0, _, _, r => r
  | n + 1, a, e, r => powMod m n (a * a % m) (e / 2) (if e % 2 = 1 then r * a % m else r)

/-- The inverse modulo a prime of 256 bits. -/
def inverseMod (m a : Nat) : Nat := powMod m 256 (a % m) (m - 2) 1

/-- A difference modulo the field. -/
def subP (a b : Nat) : Nat := (a + p256 - b % p256) % p256

/-- A point of the curve by three coordinates modulo the field: x is X / Z², y is Y / Z³, and Z is 0 at infinity. -/
structure CurvePoint where
  x : Nat
  y : Nat
  z : Nat
  deriving DecidableEq, Repr

/-- A point added to itself. -/
def CurvePoint.double (q : CurvePoint) : CurvePoint :=
  let zz := q.z * q.z % p256
  let yy := q.y * q.y % p256
  let b := 4 * q.x * yy % p256
  let a := 3 * subP q.x zz * (q.x + zz) % p256
  let x := subP (a * a % p256) (2 * b)
  ⟨x, subP (a * subP b x % p256) (8 * yy * yy), 2 * q.y * q.z % p256⟩

/-- The sum of two points. -/
def CurvePoint.add (q r : CurvePoint) : CurvePoint :=
  if q.z = 0 then r
  else if r.z = 0 then q
  else
    let zq := q.z * q.z % p256
    let zr := r.z * r.z % p256
    let u := q.x * zr % p256
    let s := q.y * r.z * zr % p256
    let h := subP (r.x * zq % p256) u
    let v := subP (r.y * q.z * zq % p256) s
    if h = 0 then if v = 0 then q.double else ⟨1, 1, 0⟩
    else
      let hh := h * h % p256
      let x := subP (subP (v * v % p256) (hh * h)) (2 * u * hh)
      ⟨x, subP (v * subP (u * hh % p256) x % p256) (s * hh * h), h * q.z * r.z % p256⟩

/-- `r` and a multiple of `q`, over the lowest `n` bits of the factor. -/
def CurvePoint.addTimes : Nat → CurvePoint → Nat → CurvePoint → CurvePoint
  | 0, _, _, r => r
  | n + 1, q, k, r => CurvePoint.addTimes n q.double (k / 2) (if k % 2 = 1 then r.add q else r)

/-- A point lies on the curve. -/
def onCurve (q : Nat × Nat) : Bool :=
  decide (q.1 < p256) && decide (q.2 < p256) &&
    q.2 * q.2 % p256 == (q.1 * q.1 % p256 * q.1 + (p256 - 3) * q.1 + p256B) % p256

/-- R364: a signature (r, s) of a digest verifies under a key. -/
def ecdsaVerify (key : Nat × Nat) (r s digest : Nat) : Bool :=
  let n := p256Order
  onCurve key && decide (1 ≤ r) && decide (r < n) && decide (1 ≤ s) && decide (s < n) &&
    (let w := inverseMod n s
     let q := CurvePoint.addTimes 256 ⟨key.1, key.2, 1⟩ (r * w % n)
       (CurvePoint.addTimes 256 ⟨p256G.1, p256G.2, 1⟩ (digest * w % n) ⟨1, 1, 0⟩)
     q.z != 0 && q.x * inverseMod p256 (q.z * q.z) % p256 % n == r)

end Sys2Proof.Machine
end

