-- ==== Sys2Proof/Machine/Seals.lean ====
section
/-! DEFINITION. Sealed regions as their requests are decided, and the migration of a page (R70 to R74, R81, R231,
R248). -/

namespace Sys2Proof.Machine

open Sys2Proof

/-! ## seal and unseal decided (R71 to R74, R231, R248) -/

/-- R248: the range of a request is one that a region may have, and the feature is active (R383). -/
def SealRequest.inRange (h : HostPart) (r : SealRequest) : Bool :=
  h.featActive.getLsbD 6 && r.base % pageBytes == 0 && r.bytes % pageBytes == 0 && decide (pageBytes ≤ r.bytes) &&
    decide (r.bytes ≤ 2 ^ 32) && decide (r.base + r.bytes ≤ 2 ^ 57)

/-- R248: the status of a request as the table of sealed regions stands. -/
def SealRequest.verdict (h : HostPart) (c : Context) (r : SealRequest) : Nat :=
  if !r.inRange h then 3
  else if r.undo then if c.sealed_.contains (r.base, r.bytes) then 0 else 4
  else if 64 ≤ c.sealed_.length then 1
  else if c.sealedRange r.base r.bytes then 2
  else 0

/-- R231: what a seal or unseal, as an acqrel access at device scope to its region, comes after. -/
def Dev.sealWaits (d : Dev) (r : SealRequest) : List Nat :=
  r.deps ++ (d.tags.filter fun t => t.live && t.slot == d.partySlot r.party && decide (r.base ≤ t.va) &&
    decide (t.va < r.base + r.bytes) && d.synchronises t r.party 4 false).flatMap ReleaseTag.deps

/-- R74: every replica line of a region is invalidated. -/
def Dev.dropReplicas (d : Dev) (slot base bytes : Nat) : Dev :=
  { d with cores := d.cores.map fun (e : Nat × Core) =>
      (e.1, { e.2 with replicas := e.2.replicas.filter fun (l : Nat × Nat) =>
        !(l.1 == slot && decide (base ≤ l.2) && decide (l.2 < base + bytes)) }) }

/-- R72, R74: a request that is carried out. -/
def Dev.carrySeal (d : Dev) (slot : Nat) (r : SealRequest) : Dev :=
  if r.undo then
    (d.dropReplicas slot r.base r.bytes).onContext slot fun c => { c with sealed_ := c.sealed_.erase (r.base, r.bytes) }
  else d.onContext slot fun c => { c with sealed_ := c.sealed_ ++ [(r.base, r.bytes)] }

/-- R107, R248: the status of a decided request fills its cells; a command that is refused fails. -/
def Dev.answerSeal (h : HostPart) (d : Dev) (r : SealRequest) (status : Nat) : Dev :=
  match r.party with
  | .warp id => d.onWarp id fun w => w.fill r.ticket (BitVec.ofNat 32 status)
  | .stream slot n => if status = 0 then d else d.failCommand h slot n r.tag 0x09 0x11 status r.word
  | _ => d

/-- R249, R426: a lane's wide store to a range has performed in part. Its words reach the home on their own (R227), and the
whole lane comes before a seal, or after it. -/
def Dev.halfStored (d : Dev) (slot base bytes : Nat) : Bool :=
  d.accesses.any fun e =>
    e.2.slot == slot && e.2.kind == AccessKind.store && e.2.cause == 0 && decide (e.2.bytes < e.2.width) &&
      decide (base < e.2.ea.toNat + e.2.width) && decide (e.2.ea.toNat < base + bytes) &&
      decide ((d.accesses.filter fun f => e.2.sameLane f.2).length * e.2.bytes < e.2.width)

/-- R248: a request is decided: a refusal at once, and any other once what it comes after has performed. -/
def Dev.decideSeal (h : HostPart) (d : Dev) (id : Nat) (undo : Bool) : Dev :=
  match Table.find? d.seals id with
  | none => d
  | some r =>
    let slot := d.partySlot r.party
    let status := r.verdict h (d.context slot)
    if r.undo != undo || (status == 0 && (!d.allPerformed (d.sealWaits r) || (!undo && d.halfStored slot r.base r.bytes))) then d
    else
      let d := { d with seals := Table.erase d.seals id }
      ((if status = 0 then d.carrySeal slot r else d).answerSeal h r status).settle h

/-- R72: the seal takes effect, or is refused. -/
def execSealTakesEffect (request : Nat) (s : State) : Host.Outcome State Fault Refusal :=
  s.run fun h d => d.decideSeal h request false

/-- R74: the unseal takes effect, or is refused. -/
def execUnsealComplete (request : Nat) (s : State) : Host.Outcome State Fault Refusal :=
  s.run fun h d => d.decideSeal h request true

/-! ## Migration (R70, R81) -/

/-- R70: the page's contents, and what the homes keep of it, in another frame. -/
def Dev.movePage (d : Dev) (src dst : Nat) : Dev :=
  { d with
    mem := Memory.copyRange d.mem src dst pageBytes
    poison := (d.poison.filter fun u => decide (src ≤ u * 8) && decide (u * 8 < src + pageBytes)).map
      (fun u => movedTo src dst (u * 8) / 8) ++ d.poison
    tags := d.tags.map fun t => { t with pa := movedTo src dst t.pa } }

/-- R424: a loaded code object of the context has the page. -/
def Dev.objectPage (d : Dev) (slot page : Nat) : Bool :=
  d.code.any fun e => e.2.contexts.contains slot &&
    [(e.2.text, e.2.textBytes), (e.2.access, e.2.accessBytes), (e.2.drain, e.2.drainBytes)].any fun r =>
      decide (r.1.toNat ≤ page + (pageBytes - 1)) && decide (page < r.1.toNat + r.2)

/-- R70, R424: a data page of 64 KiB goes to a frame of another tier: 0 HBM4E, 1 LPDDR. Nothing that has used the old
translation is in flight when it does (R81). -/
def execMigration (slot : Nat) (va : BitVec 64) (tier : BitVec 8) (s : State) : Host.Outcome State Fault Refusal :=
  s.run fun h d =>
    let page := pageOf va.toNat
    match d.walk slot 0 page with
    | .error _ => d
    | .ok (level, _, e) =>
      if level != 4 || pteX e || d.objectPage slot page || inWindow page || d.frameUsed (ptePa e) || decide (1 < tier.toNat) then d
      else
        match d.takeFrame h tier.toNat with
        | none => d
        | some (pa, d) =>
          let leaf := (e &&& 0xFFF000000000FFFF#64) ||| leafEntry pa false false false
          let d := (d.movePage (ptePa e) pa).onContext slot fun c =>
            { c with snapshots := c.snapshots.map fun t =>
                if t.copied then t else { t with pa := movedTo (ptePa e) pa t.pa } }
          match d.mapPage h slot page leaf with
          | none => d
          | some d => (d.dropTlb slot page pageBytes).freeFrame (ptePa e)

end Sys2Proof.Machine
end

