-- ==== Sys2Proof/Machine/Sync.lean ====
section
/-! DEFINITION. Waiting on engine counters, the delivery of their decrements, barriers, the watchdogs, selections
that are due, and traps at an issue boundary (R31, R102, R250 to R253, R387, R399, R400, R432, R440, R441, R446). -/

namespace Sys2Proof.Machine

open Sys2Proof

/-! ## waitc and trywait (R250, R251) -/

/-- R250: a front-end context waits on its own counters. -/
def execWaitc (_ : Bool) (cls : BitVec 2) (n : BitVec 8) (s : State) : Host.Outcome State Fault Refusal :=
  s.run fun h d =>
    d.issueEither h 4 []
      (fun id w s =>
        if cntGet w.cnt cls.toNat ≤ n.toNat then d.commit id w (s.after (Need.of 4 false 0 0))
        else d.block id (.counter cls.toNat n.toNat))
      (fun id f =>
        if cntGet f.cnt cls.toNat ≤ n.toNat then d.commitFet id f 4 else d.stall id (.counter cls.toNat n.toNat))

/-- R251: what a `trywait` asks of its split. -/
def trywaitNeed (w : Bool) : Need := Need.of 4 w 1 1

/-- R251: the split's `trywait` is over: b is popped and f pushed. -/
def Warp.endTrywait (w : Warp) (s : Split) (f : Word) : Warp :=
  w.onLanes s.mask fun t => t.onStack (popPush 1 f)

/-- R251. -/
def execTrywait (wbit : Bool) (cls : BitVec 2) (n : BitVec 8) (s : State) : Host.Outcome State Fault Refusal :=
  s.run fun h d =>
    d.issueWarp h (trywaitNeed wbit) fun id w s =>
      let bound := Nat.min (lowestValue w s 1).toNat 4096
      if cntGet w.cnt cls.toNat ≤ n.toNat then d.commit id (w.endTrywait s 1) (s.after (trywaitNeed wbit))
      else if bound = 0 then d.commit id (w.endTrywait s 0) (s.after (trywaitNeed wbit))
      else
        ({ d.setWarp id (w.replaceCur [{ s with age := 0, state := .trywait cls.toNat n.toNat bound }]) with
            issued := true }).select id

/-- R251: a split whose `trywait` is over goes on after it. -/
def Split.endTrywait (s : Split) : Split := { s.after (trywaitNeed false) with state := .ready }

/-- R251: each `trywait` of a warp for which `p` gives a value ends with it. -/
def Warp.endTrywaits (w : Warp) (p : Nat → Nat → Nat → Option Word) : Warp :=
  w.others.foldl
    (fun (w : Warp) s =>
      match s.state with
      | .trywait cls n left =>
        match p cls n left with
        | none => w
        | some f =>
          let w := w.endTrywait s f
          { w with others := w.others.map fun t => if t.mask == s.mask then t.endTrywait else t }
      | _ => w)
    w

/-- R251: the bound of a `trywait` has passed. A trap that waits for the warp comes first (R432). -/
def execTrywaitTimeout (warp : Nat) (s : State) : Host.Outcome State Fault Refusal :=
  s.run fun _ d => d.onWarp warp fun w =>
    if w.posted.isEmpty then
      w.endTrywaits fun cls n left =>
        if left = 0 then some (if cntGet w.cnt cls ≤ n then 1 else 0) else none
    else w

/-! ## Delivery of a decrement (R102, R250, R403, R432, R446) -/

/-- R250: no older operation of the class from the same issuer is left. -/
def Dev.oldestOp (d : Dev) (id : Nat) (o : EngineOp) : Bool :=
  d.ops.all fun e => e.1 == id || e.2.party != o.party || e.2.cls != o.cls || decide (o.stamp < e.2.stamp)

/-- A counter one lower. -/
def cntDown (cnt : List Nat) (cls : Nat) : List Nat := putAt 0 cnt cls (cntGet cnt cls - 1)

/-- R403: a fault of an issuer that has exited. -/
def Dev.delegateFault (h : HostPart) (d : Dev) (o : EngineOp) (origin : Nat) (f : EngineFault) : Dev :=
  d.delegate h o.team origin ⟨o.stamp, f.cause, 4, 0, o.lanes, o.pc, 0, origin, f.erec⟩

/-- R432, R402, R403: a fault of an operation goes to its issuer. -/
def Dev.deliverFault (h : HostPart) (o : EngineOp) (d : Dev) (f : EngineFault) : Dev :=
  match o.party with
  | .warp id =>
    match d.warp? id with
    | none => d.delegateFault h o 0 f
    | some w =>
      if w.threads.isEmpty then d.delegateFault h o w.w f
      else d.postFault id ⟨o.stamp, f.cause, 0, 0, o.lanes, o.pc, 0, 0, f.erec⟩
  | .fet id => d.fetTrapAt h id o.stamp f.cause 0 o.pc 0 f.erec
  | _ => d

/-- R44, R102, R250, R404: the issuer's counter and flags as the decrement leaves them, those of an evicted warp in its
record too. -/
def Dev.decrement (d : Dev) (o : EngineOp) : Dev :=
  match o.party with
  | .warp id =>
    (d.onWarp id fun w => { w with cnt := cntDown w.cnt o.cls, flags := w.flags ||| o.flags }).patchRecord id o.cls
  | .fet id =>
    (d.teamWarps o.team).foldl
      (fun d w => (d.onWarp w fun w => { w with flags := w.flags ||| o.flags }).patchRecord w o.cls)
      (d.onFet id fun f => { f with cnt := cntDown f.cnt o.cls })
  | _ => d

/-- R251: the `trywait`s of the issuer that the decrement ends, if no trap comes first. -/
def Dev.wakeTrywaits (d : Dev) (o : EngineOp) : Dev :=
  match o.party with
  | .warp id => d.onWarp id fun w =>
      if w.posted.isEmpty then w.endTrywaits fun cls n _ => if cntGet w.cnt cls ≤ n then some 1 else none else w
  | _ => d

/-- R250: the decrement of a complete operation is delivered, in issue order within its class. -/
def execDecrementDelivery (operation : Nat) (s : State) : Host.Outcome State Fault Refusal :=
  s.run fun h d =>
    match Table.find? d.ops operation with
    | none => d
    | some o =>
      if !o.done || !d.oldestOp operation o then d
      else
        let d := { d with ops := Table.erase d.ops operation }.decrement o
        ((o.faults.foldl (Dev.deliverFault h o) d).wakeTrywaits o).settle h

/-! ## Barriers (R233, R252, R253, R440) -/

/-- R253: an arrival of `n` threads of warp `w` at the clock `now`, with what comes before it; and whether it
completes the phase. -/
def Barrier.arrive (b : Barrier) (count n w now : Nat) (deps : List Nat) : Barrier × Bool :=
  let first := b.arrived == 0
  let b := if first then { b with expected := count, age := 0, first := now, warps := 0, deps := [] } else b
  let b := { b with arrived := b.arrived + n, warps := b.warps ||| laneBit w, deps := b.deps ++ deps }
  if b.expected ≤ b.arrived then ({ b with arrived := 0, phase := !b.phase, age := 0 }, true) else (b, false)

/-- R253: a split that waits at a barrier goes on; one that is parked there stays parked (R397). -/
def Split.passBarrier (bar : Nat) (s : Split) : Split :=
  if s.state == .barrier bar then { s with state := .ready }
  else if s.state == .parkedAt bar then { s with state := .parked }
  else s

/-- R253: the arrival of a split's `bar.sync` is counted: it waits for the phase to change. -/
def Split.countedAt (bar : Nat) (lanes : Mask) (s : Split) : Split :=
  if s.mask == lanes && s.state == .arriving bar then { s with state := .barrier bar } else s

/-- Every split of a warp, those that a trap has set aside too, changed. -/
def Warp.onAllSplits (w : Warp) (f : Split → Split) : Warp :=
  let w := w.onSplits f
  { w with handler := w.handler.map fun hd => { hd with splits := hd.splits.map f } }

/-- R233, R253: waiting splits go on, those that a trap has set aside too, after everything that the arrivals come
after. -/
def Dev.releaseBarrier (bar : Nat) (deps : List Nat) (d : Dev) (id : Nat) : Dev :=
  match d.warp? id with
  | none => d
  | some w =>
    let saved := (w.handler.map Handler.splits).getD []
    let mask := unionMask ((w.splits ++ saved).filter fun s => s.state == .barrier bar || s.state == .parkedAt bar)
    if mask == 0 then d else (d.setWarp id (w.onAllSplits (Split.passBarrier bar))).mark id ⟨mask, deps, 0, []⟩

/-- R253, R457: an arrival of some lanes of a warp, in its hold window. -/
def Dev.arrive (d : Dev) (id : Nat) (w : Warp) (mask : Mask) (bar count : Nat) (sync : Bool) : Dev :=
  let deps := d.earlier (.warp id) mask ++ w.marks.flatMap fun m => if m.lanes &&& mask != 0 then m.all else []
  let a : Arrival := ⟨w.team, bar, sync, id, w.w, mask, count, deps.filter fun i => !d.performed i⟩
  let (n, d) := d.fresh
  { d with arrivals := Table.set d.arrivals n a }

/-- R253: the team's barrier unit, which is in the leader core, handles an arrival that has left its hold window; where it
completes the phase, the splits that wait go on. -/
def Dev.countArrival (d : Dev) (n : Nat) (a : Arrival) : Dev :=
  let d := { d with arrivals := Table.erase d.arrivals n }
  let d := if a.sync then d.onWarp a.warp fun w => d.parkedAll a.warp (w.onAllSplits (Split.countedAt a.bar a.lanes)) else d
  match d.team? a.team with
  | none => d
  | some t =>
    let (b, done) := (t.bars.getD a.bar Barrier.reset).arrive a.count (popcount a.lanes) a.w (d.clockOf t.core)
      (a.deps.filter fun i => !d.performed i)
    let d := d.onTeam a.team fun t => { t with bars := putAt Barrier.reset t.bars a.bar b }
    if done then (d.teamWarps a.team).foldl (Dev.releaseBarrier a.bar b.deps) d else d

/-- R252, R253, R457: `bar.arrive` and `bar.sync`. The split of a `bar.sync` waits, which is a selection point; the arrival
is counted once it leaves its hold window. -/
def Dev.barrierOp (h : HostPart) (d : Dev) (wbit sync : Bool) (bar : BitVec 4) (count : BitVec 16) : Dev :=
  if 1024 < count.toNat then d.misplaced h
  else
    let n := Need.of 4 wbit (if count = 0 then 1 else 0) 0
    d.issueWarp h n fun id w s =>
      let e := if count = 0 then (lowestValue w s 1).toNat else count.toNat
      d.checked h id s [⟨0x01, if e = 0 || 1024 < e then s.mask else 0, 0⟩]
        (let w := w.onLanes s.mask fun t => t.onStack fun st => st.drop n.pops
         let s' := s.after n
         let d := if sync then
             { d.setWarp id (w.replaceCur [{ s' with state := .arriving bar.toNat }]) with issued := true }.select id
           else d.commit id w s'
         d.arrive id w s.mask bar.toNat e sync)

def execBarArrive (w : Bool) (bar : BitVec 4) (count : BitVec 16) (s : State) : Host.Outcome State Fault Refusal :=
  s.run fun h d => d.barrierOp h w false bar count
def execBarSync (w : Bool) (bar : BitVec 4) (count : BitVec 16) (s : State) : Host.Outcome State Fault Refusal :=
  s.run fun h d => d.barrierOp h w true bar count

/-- R441: the header tag of a launch's command. -/
def Dev.launchTag (d : Dev) (l : Launch) : BitVec 32 :=
  (((Table.find? d.graphs l.graph).bind fun g => g.nodes[l.node]?).map Node.tag).getD 0

/-- R441: the diagnostic record. -/
def Dev.barrierRecord (d : Dev) (team : Nat) (t : Team) (l : Launch) (bar : Nat) (b : Barrier) : List Byte :=
  leBytes 1 0x10 ++ leBytes 1 bar ++ leBytes 1 b.phase.toNat ++ leBytes 1 t.warps ++ leBytes 2 b.expected ++
    leBytes 2 b.arrived ++ leBytes 4 b.warps.toNat ++ leBytes 4 (d.liveWarps team).toNat ++ leBytes 4 t.index ++
    leBytes 2 l.slot ++ leBytes 2 t.core ++ leBytes 8 b.first ++ leBytes 8 (d.clockOf t.core) ++ leBytes 8 d.gtime ++
    leBytes 8 l.record.handle.toNat ++ leBytes 4 (d.launchTag l).toNat ++ zeros 4

/-- R400, R440, R441: a phase that has had arrivals is 2^28 cycles old: its context is terminated, once the arrivals that
the cycle may still bring have been handled. -/
def execBarrierTimeout (team bar : Nat) (s : State) : Host.Outcome State Fault Refusal :=
  s.run fun h d =>
    match d.team? team, d.launchOf team with
    | some t, some l =>
      let b := t.bars.getD bar Barrier.reset
      if b.arrived = 0 || decide (b.age < 2 ^ 28) || t.cores.any d.laneBusy then d
      else
        let record := d.barrierRecord team t l bar b
        let d := match d.writeVa h l.slot t.core (d.handlerBase team 0 + 0x7D40) record with
          | .ok d => d
          | .error (_, d) => d
        ((d.terminate h l.slot 0x10).report 0x07 3 l.slot t.core record).settle h
    | _, _ => d

/-! ## The progress watchdog (R399) -/

/-- R399: the ages of the split count. -/
def Split.ages (s : Split) : Bool := s.state == .ready || s.state == .join || s.state == .wsync

/-- R399: the splits whose age has reached the limit, by lowest lane. -/
def Warp.stalledSplits (w : Warp) (awake : Split → Split) : List Split :=
  if w.vlimit = 0 then [] else sortSplits (w.splits.filter fun s => decide (w.vlimit.toNat ≤ s.age) && (awake s).ages)

/-- R399: the warp traps with PROGRESS_STALL. -/
def execProgressStall (warp : Nat) (s : State) : Host.Outcome State Fault Refusal :=
  s.run fun h d =>
    match d.warp? warp with
    | none => d
    | some w =>
      match w.stalledSplits (d.wake warp w) with
      | [] => d
      | s :: ss =>
        if w.posted.any fun p => p.cause == 0x11 then d
        else
          let (stamp, d) := d.fresh
          (d.post warp ⟨stamp, 0x11, 0, 0, unionMask (s :: ss), s.pc, 0, 0, []⟩).deliver h warp

/-! ## Selections and traps that are due (R31, R387, R432) -/

/-- R31: a selection that is due is made once a split is ready. A warp whose team dxdb holds stands still (R261). -/
def execSplitSelection (warp : Nat) (s : State) : Host.Outcome State Fault Refusal :=
  s.run fun _ d =>
    match d.warp? warp with
    | none => d
    | some w =>
      if w.place == .resident && !(d.team? w.team).any Team.held && w.cur.isNone &&
          w.others.any fun s => (d.wake warp w s).state == .ready then
        d.select warp
      else d

/-- R387, R392: the warp takes the oldest trap that waits for its issue boundary. -/
def execTrapDelivery (warp : Nat) (s : State) : Host.Outcome State Fault Refusal :=
  s.run fun h d => d.deliver h warp

/-- R432: the same, where the oldest trap is an engine operation's. -/
def execEngineFaultTrap (warp : Nat) (s : State) : Host.Outcome State Fault Refusal :=
  s.run fun h d =>
    match (d.warp? warp).bind fun w => oldestPosted w.posted with
    | none => d
    | some p => if p.erec.isEmpty then d else d.deliver h warp

end Sys2Proof.Machine
end

