-- ==== Sys2Proof/Machine/TrapOps.lean ====
section
/-! DEFINITION. The instructions of handler mode: `rte`, `rplq` and `wplq` (R142, R394 to R396, R422). -/

namespace Sys2Proof.Machine

open Sys2Proof

/-- R142, R422: the instruction of a warp in handler mode; elsewhere it is illegal. -/
def Dev.issueHandler (h : HostPart) (d : Dev) (n : Need) (legal : Warp → Bool) (k : Nat → Warp → Handler → Split → Dev) :
    Dev :=
  match d.issuer with
  | .warp id =>
    match d.warp? id with
    | none => d
    | some w =>
      match w.handler with
      | none => d.misplaced h
      | some hd => if legal w then d.issueWarp h n fun id w s => k id w hd s else d.misplaced h
  | .fet _ => d.misplaced h
  | _ => d

/-- R395, R396: the handler's accesses come before `rte`, which waits for them. -/
def execRte (s : State) : Host.Outcome State Fault Refusal :=
  s.run fun h d =>
    d.issueHandler h (Need.of 4 false 0 0) (fun _ => true) fun id w hd s =>
      let earlier := d.earlier (.warp id) w.live
      if earlier.isEmpty then d.returnFromTrap h id w hd s else d.block id (.accesses earlier)

/-- R394: a field of a replay entry, for a lane. -/
def ReplayEntry.field (e : ReplayEntry) (f lane : Nat) : Word :=
  match f with
  | 0 => if e.discard then 1 else 0
  | 1 => (instrDword e.instr).extractLsb' 0 32
  | 2 => (instrDword e.instr).extractLsb' 32 32
  | 3 => e.mask
  | 4 => BitVec.ofNat 32 (e.ddepth.getD 0xFFFF)
  | 5 => BitVec.setWidth 32 e.cause
  | 6 => (e.ea.getD lane 0).extractLsb' 0 32
  | 7 => (e.ea.getD lane 0).extractLsb' 32 32
  | _ => (e.cells.getD lane []).getD (f - 8) 0

/-- R394: a field of a replay entry that is one value for each lane, written in a lane. -/
def ReplayEntry.setLane (e : ReplayEntry) (f lane : Nat) (v : Word) : ReplayEntry :=
  let ea := e.ea.getD lane 0
  match f with
  | 6 => { e with ea := putAt 0 e.ea lane (ea.extractLsb' 32 32 ++ v) }
  | 7 => { e with ea := putAt 0 e.ea lane (v ++ ea.extractLsb' 0 32) }
  | _ => { e with cells := putAt [] e.cells lane (putAt 0 (e.cells.getD lane []) (f - 8) v) }

/-- R394: `wplq` on an entry: the values of the split's lanes, lowest lane first. -/
def ReplayEntry.write (e : ReplayEntry) (f : Nat) (vs : List (Nat × Word)) : ReplayEntry :=
  let v := (vs.head?.map Prod.snd).getD 0
  match f with
  | 0 => { e with discard := v == 1 }
  | 3 => { e with mask := v &&& e.mask }
  | _ => vs.foldl (fun e x => e.setLane f x.1 x.2) e

/-- R394: pushes a field of a replay entry. -/
def execRplq (_ : Bool) (entry field : BitVec 4) (s : State) : Host.Outcome State Fault Refusal :=
  s.run fun h d =>
    let n := Need.of 4 false 0 1
    d.issueHandler h n (fun w => decide (entry.toNat < w.replay.length) && decide (field.toNat < 11)) fun id w _ s =>
      match w.replay[entry.toNat]? with
      | none => d
      | some e =>
        d.commit id (w.onLanes s.mask fun t => t.onStack (popPush 0 (e.field field.toNat t.lane))) (s.after n)

/-- R394: the fields that `wplq` may write. -/
def writable (f : Nat) : Bool := [0, 3, 6, 7, 8, 9, 10].contains f

/-- R394: writes a field of a replay entry. -/
def execWplq (wbit : Bool) (entry field : BitVec 4) (s : State) : Host.Outcome State Fault Refusal :=
  s.run fun h d =>
    let n := Need.of 4 wbit 1 0
    d.issueHandler h n (fun w => decide (entry.toNat < w.replay.length) && writable field.toNat) fun id w _ s =>
      let vs := (w.threadsOf s.mask).map fun t => (t.lane, (t.stack.head?.map Cell.word).getD 0)
      d.checked h id s [⟨0x01, if field = 0 && 1 < (lowestValue w s 1).toNat then s.mask else 0, 0⟩]
        (d.commit id
          { w.onLanes s.mask (fun t => t.onStack fun st => st.drop 1) with
            replay := changeAt w.replay entry.toNat fun e => e.write field.toNat vs }
          (s.after n))

end Sys2Proof.Machine
end

