-- ==== Sys2Proof/Machine/Matrix.lean ====
section
/-! DEFINITION. The matrix engine of a core: the issue of its instructions, the order in which it takes them, and
the array phase (R265 to R286, R288, R290 to R293, R434, R460). The drain is in Drain.lean. -/

namespace Sys2Proof.Machine

open Sys2Proof

/-! ## Shapes (R267 to R269) -/

/-- R267: a format that B may have. -/
def matrixB (code : Nat) : Bool := [0x10, 0x20, 0x21, 0x22, 0x23, 0x28, 0x2A].contains code

/-- R267: a dense block format. -/
def denseBlock (code : Nat) : Bool := decide (0x20 ≤ code) && decide (code ≤ 0x23)

/-- R267: the pair of formats is one that an `mma` accepts. -/
def matrixPair (a b : Nat) : Bool := (denseBlock a && matrixB b && b != 0x10) || (a == 0x10 && b == 0x10)

/-- R267: the bits of a B cell. -/
def cellBits (code : Nat) : Nat :=
  match code with
  | 0x20 => 4
  | 0x28 => 4
  | 0x23 => 16
  | _ => 8

/-- R267: N per core. -/
def columnsOf (code : Nat) : Nat := 4096 / cellBits code

/-- R268: the columns of a macro. -/
def macroColumns (code : Nat) : Nat := 1024 / cellBits code

/-- R267: K of an `mma`. -/
def depthOf (code : Nat) : Nat := if sparseCode code then 256 else 128

/-- R267: 4-bit B uses two tile slots. -/
def tilesOf (code : Nat) : Nat := if cellBits code = 4 then 2 else 1

/-- R91, R269: the bits of an A element. -/
def elementWidth (code : Nat) : Nat := if code = 0x10 then 8 else elementBits code

/-- R269, R286: the bytes of A's payload and of its exponents. -/
def payloadSize (a b rows : Nat) : Nat := rows * depthOf b * elementWidth a / 8
def exponentSize (a b rows : Nat) : Nat := if a = 0x10 then 0 else rows * (depthOf b / 32) * 2

/-! ## Names of entries (R265) -/

def bankKey (q p r : Nat) : Nat := (2 * q + p) * 128 + r
def sideKey (q p c t : Nat) : Nat := (2 * q + p) * 2048 + 8 * c + t
def tileKey (tile i c : Nat) : Nat := (tile * 16 + i) * 512 + c
def nancKey (tile i : Nat) : Nat := tile * 16 + i

/-- A table with the entries of `n` numbers from `lo` replaced; an entry of 0 is not listed. -/
def Table.replace {α : Type} [DecidableEq α] (zero : α) (t : Table α) (lo n : Nat) (f : Nat → α) : Table α :=
  t.filter (fun e => decide (e.1 < lo)) ++
    ((List.range n).map fun k => (lo + k, f k)).filter (fun e => e.2 != zero) ++
    t.filter fun e => decide (lo + n ≤ e.1)

/-- R265: an element of a tile slot. -/
def Matrix.tile (m : Matrix) (tile i c : Nat) : Word := Table.get m.tiles (tileKey tile i c) 0

/-- R268: the physical bank that a logical bank of macro q names under roles. -/
def bankOf (roles : BitVec 4) (q : Nat) (back : Bool) : Nat := if roles.getLsbD q != back then 1 else 0

/-! ## Issue (R283, R285) -/

/-- R281, R283: the core whose engine takes an instruction. -/
def Dev.engineOf (d : Dev) (team core : Nat) (pair : Bool) : Nat :=
  if pair then ((d.team? team).map Team.core).getD core else core

/-- What an instruction of the matrix engine asks at its issue: the uniform registers that it reads, whether it is
a pair operation, whether its slots allow it, the value checks in order, and the work. -/
structure MatrixIssue where
  regs : List Nat
  pair : Bool
  legal : LaunchRecord → Bool
  checks : Dev → LaunchRecord → Nat → List Word → List (BitVec 8 × Bool × Dword)
  work : List Word → MatrixWork

/-- The operation joins the engine's queue, in its hold window (R457). -/
def Dev.enqueueMatrix (d : Dev) (p : Party) (team core : Nat) (pc : Va) (lanes : Mask) (deps : List Nat)
    (work : MatrixWork) : Dev :=
  let (id, d) := d.fresh
  let launch := ((d.team? team).map Team.launch).getD 0
  let op : EngineOp := ⟨p, team, 2, id, pc, lanes, deps, false, 0, []⟩
  (d.setOp id op).onCore core fun c => { c with engine := c.engine ++ [⟨id, launch, d.slotOf team, work, .queued, [], true⟩] }

/-- A counter one higher. -/
def cntUp (cnt : List Nat) (cls : Nat) : List Nat := putAt 0 cnt cls (cntGet cnt cls + 1)

/-- R232: what an engine operation of a warp comes after. -/
def Dev.warpEarlier (d : Dev) (id : Nat) (w : Warp) : List Nat :=
  d.earlier (.warp id) 0xFFFFFFFF ++ (w.marks.flatMap OrderMark.all).filter fun i => !d.performed i

/-- The first check that fails. -/
def firstBad (cs : List (BitVec 8 × Bool × Dword)) : Option (BitVec 8 × Dword) :=
  (cs.find? fun c => c.2.1).map fun c => (c.1, c.2.2)

/-- The cores that an operation acts on. -/
def opCores (core : Nat) (pair : Bool) : List Nat := if pair then [core, followerOf core] else [core]

/-- R266: the matrix state that an operation acts on belongs to another context, which took it once the warps of this one had
left the core. -/
def Dev.matrixAway (d : Dev) (slot core : Nat) (pair : Bool) : Bool :=
  (opCores core pair).any fun j => (d.core j).matrix.owner.any fun o => o != slot

/-- What holds back a matrix instruction of a context that is not ready (R250, R266, R281). DEDUCED
(notes/assumptions/45.md): a front-end context, which is not evicted (R404), stalls while another context has the matrix
state. -/
def Dev.matrixWait (d : Dev) (cnt : List Nat) (slot core : Nat) (pair : Bool) : Option Wait :=
  if 255 ≤ cntGet cnt 2 then some (.room 2 1)
  else if d.matrixAway slot core pair then some .residence
  else if !pair && d.pairHeld core then some .pairHeld
  else none

/-- R283, R285: a matrix instruction issues. -/
def Dev.issueMatrix (h : HostPart) (d : Dev) (q : MatrixIssue) : Dev :=
  match (d.partyTeam d.issuer).bind d.launchOf with
  | none => d
  | some l =>
    if !q.legal l.record || (q.pair && !l.record.pair) then d.misplaced h
    else
      d.issueEither h 8 q.regs
        (fun id w s =>
          let core := d.engineOf w.team w.core q.pair
          match d.matrixWait w.cnt l.slot core q.pair with
          | some r => d.block id r
          | none =>
            match firstBad (q.checks d l.record core w.k) with
            | some (cause, va) => d.raise h id s cause s.mask va 0
            | none =>
              (d.enqueueMatrix (.warp id) w.team core s.pc s.mask (d.warpEarlier id w) (q.work w.k)).commit id
                { w with cnt := cntUp w.cnt 2 } (s.after (Need.of 8 false 0 0)))
        (fun id f =>
          let core := d.engineOf f.team f.core q.pair
          match d.matrixWait f.cnt l.slot core q.pair with
          | some r => d.stall id r
          | none =>
            match firstBad (q.checks d l.record core f.k) with
            | some (cause, va) => d.fetTrap h id cause 0 f.pc va []
            | none =>
              (d.enqueueMatrix (.fet id) f.team core f.pc 0 (d.earlier (.fet id) 0) (q.work f.k)).commitFet id
                { f with cnt := cntUp f.cnt 2 } 8)

/-- R285: the slot of a drain's output. -/
def drainOutput (r : LaunchRecord) (oslot : BitVec 3) : Bool :=
  let c := (r.slot oslot.toNat).format.toNat
  c != 0x05 && !sparseCode c

/-- The first byte of a range that lies outside a core's slice. -/
def outsideSlice (core : Nat) (va : Dword) (n : Nat) : Option Dword :=
  let lo := sliceVa core
  if n = 0 then none
  else if va.toNat < lo || decide (lo + sliceBytes ≤ va.toNat) then some va
  else if lo + sliceBytes < va.toNat + n then some (BitVec.ofNat 64 (lo + sliceBytes))
  else none

/-- R285, R406: the checks of an `mma`'s A; the range of its payload address comes before its alignment. -/
def mmaChecks (ka : BitVec 6) (aslot bslot : BitVec 3) (rows : Nat) (r : LaunchRecord) (core : Nat) (k : List Word) :
    List (BitVec 8 × Bool × Dword) :=
  let a := r.slot aslot.toNat
  let b := (r.slot bslot.toNat).format.toNat
  let base := kGet64 k ka.toNat
  let bad := match outsideSlice core base (payloadSize a.format.toNat b rows) with
    | some va => some va
    | none => outsideSlice core (base + a.expStride) (exponentSize a.format.toNat b rows)
  [(0x0D, bad.isSome, bad.getD 0), (0x0B, base.toNat % 128 != 0, base)]

/-- R286. -/
def execMma (ka : BitVec 6) (tile : BitVec 2) (prog : BitVec 5) (aslot bslot oslot : BitVec 3)
    (back pair acc cplx naz dc : Bool) (kt ks : BitVec 6) (rows : BitVec 4) (s : State) :
    Host.Outcome State Fault Refusal :=
  s.run fun h d =>
    let n := rows.toNat + 1
    d.issueMatrix h
      { regs := pairOf ka ++ if dc then pairOf kt ++ pairOf ks else []
        pair := pair
        legal := fun r =>
          let b := (r.slot bslot.toNat).format.toNat
          matrixPair (r.slot aslot.toNat).format.toNat b && (tilesOf b == 1 || !tile.getLsbD 0) &&
            (!dc || drainOutput r oslot)
        checks := fun _ r core k => mmaChecks ka aslot bslot n r core k
        work := fun k => .mma (kGet64 k ka.toNat) tile.toNat prog.toNat aslot.toNat bslot.toNat oslot.toNat back pair acc
          cplx naz dc (kGet64 k kt.toNat) (kGet k ks.toNat) (kGet k (ks.toNat + 1)) n }

/-- R288. -/
def execMclr (tile : BitVec 2) (pair : Bool) (s : State) : Host.Outcome State Fault Refusal :=
  s.run fun h d =>
    d.issueMatrix h
      { regs := [], pair := pair, legal := fun _ => true, checks := fun _ _ _ _ => [], work := fun _ => .mclr tile.toNat pair }

/-- R289. -/
def execMdrain (tile : BitVec 2) (prog : BitVec 5) (aslot bslot oslot : BitVec 3) (pair : Bool) (kt ks : BitVec 6)
    (rows : BitVec 4) (s : State) : Host.Outcome State Fault Refusal :=
  s.run fun h d =>
    d.issueMatrix h
      { regs := pairOf kt ++ pairOf ks, pair := pair, legal := fun r => drainOutput r oslot, checks := fun _ _ _ _ => [],
        work := fun k => .mdrain tile.toNat prog.toNat aslot.toNat bslot.toNat oslot.toNat pair (kGet64 k kt.toNat)
          (kGet k ks.toNat) (kGet k (ks.toNat + 1)) (rows.toNat + 1) }

/-! ## Roles and busy banks (R272, R292) -/

/-- R292: roles after a `bswap` of some macros. -/
def swapRoles (macros roles : BitVec 4) : BitVec 4 := roles ^^^ macros

/-- R272: a walk along an engine's queue: the roles after the `bswap`s so far, and the banks that `mma`s in their
array phase or before it name. `follower` holds for the queue of the leader as its follower sees it. -/
def bankWalk (follower : Bool) (roles : BitVec 4) (busy : List (Nat × Nat)) : List MatrixOp → BitVec 4 × List (Nat × Nat)
  | [] => (roles, busy)
  | o :: os =>
    match o.work with
    | .bswap macros pair =>
      bankWalk follower (if !follower || pair then swapRoles macros roles else roles) busy os
    | .mma _ _ _ _ _ _ back pair _ _ _ _ _ _ _ _ =>
      let held := (o.phase == .queued || o.phase == .array) && (!follower || pair)
      bankWalk follower roles (if held then busy ++ (List.range 4).map fun q => (q, bankOf roles q back) else busy) os
    | _ => bankWalk follower roles busy os

/-- R272: the roles and the busy banks of a core, with what its leader's pair operations hold of it. -/
def Dev.bankUse (d : Dev) (core : Nat) : BitVec 4 × List (Nat × Nat) :=
  let c := d.core core
  let r := bankWalk false c.matrix.roles [] c.engine
  if core % 2 = 1 then bankWalk true r.1 r.2 (d.core (core - 1)).engine else r

/-- R272: a bank that a `bload` names is busy. -/
def Dev.bankBusy (d : Dev) (core : Nat) (macros : BitVec 4) (back : Bool) : Bool :=
  let (roles, busy) := d.bankUse core
  (List.range 4).any fun q => macros.getLsbD q && busy.contains (q, bankOf roles q back)

/-- R290, R291. DESIGN CHOICE (notes/assumptions/29.md): where the stride alone is not a multiple of 128, va is the base V of
the load; R388 says only that it is the faulting VA. -/
def execBload (kb : BitVec 6) (macros : BitVec 4) (bslot : BitVec 3) (back pair : Bool) (kstr : BitVec 6)
    (rows : BitVec 7) (s : State) : Host.Outcome State Fault Refusal :=
  s.run fun h d =>
    let n := rows.toNat + 1
    d.issueMatrix h
      { regs := pairOf kb ++ [kstr.toNat]
        pair := pair
        legal := fun r =>
          let c := (r.slot bslot.toNat).format.toNat
          matrixB c && n % (if sparseCode c then 16 else 32) == 0
        checks := fun d _ core k =>
          let v := kGet64 k kb.toNat
          [(0x0B, v.toNat % 128 != 0 || (kGet k kstr.toNat).toNat % 128 != 0, v),
            (0x12, d.bankBusy core macros back || (pair && d.bankBusy (followerOf core) macros back), 0)]
        work := fun k => .bload (kGet64 k kb.toNat) (kGet k kstr.toNat) macros bslot.toNat back pair n }

/-- R292. -/
def execBswap (macros : BitVec 4) (pair : Bool) (s : State) : Host.Outcome State Fault Refusal :=
  s.run fun h d =>
    d.issueMatrix h
      { regs := [], pair := pair, legal := fun _ => true, checks := fun _ _ _ _ => [], work := fun _ => .bswap macros pair }

/-- R293. -/
def execDload (kr : BitVec 6) (kind : BitVec 2) (first last : BitVec 6) (s : State) : Host.Outcome State Fault Refusal :=
  s.run fun h d =>
    d.issueMatrix h
      { regs := pairOf kr, pair := false, legal := fun _ => true,
        checks := fun _ _ _ k => [(0x0B, (kGet64 k kr.toNat).toNat % 4 != 0, kGet64 k kr.toNat)],
        work := fun k => .dload (kGet64 k kr.toNat) kind.toNat first.toNat (last.toNat + 1) }

/-! ## What an operation waits for in its engine (R270, R271) -/

/-- The format codes of an operation's slots. -/
def Dev.opSlot (d : Dev) (o : MatrixOp) (n : Nat) : FormatSlot :=
  ((d.launch? o.launch).map fun l => l.record.slot n).getD ⟨0, false, false, false, 0, 0, 0⟩

/-- R267, R287, R436: the tile slots that an operation writes, or reads while it drains. -/
def Dev.opTiles (d : Dev) (o : MatrixOp) : List Nat :=
  match o.work with
  | .mma _ tile _ _ bslot _ _ _ _ _ _ _ _ _ _ _ =>
    (List.range (tilesOf (d.opSlot o bslot).format.toNat)).map (tile + ·)
  | .mclr tile _ => [tile]
  | .mdrain tile _ _ _ _ _ _ _ _ _ => [tile, tile + 1]
  | _ => []

/-- The operation is an `mma` whose array phase has not ended. -/
def MatrixOp.inArray (o : MatrixOp) : Bool :=
  match o.work with
  | .mma _ _ _ _ _ _ _ _ _ _ _ _ _ _ _ _ => o.phase == .queued || o.phase == .array
  | _ => false

/-- The operation drains, and has not finished. -/
def MatrixOp.drains (o : MatrixOp) : Bool :=
  match o.work with
  | .mma _ _ _ _ _ _ _ _ _ _ _ dc _ _ _ _ => dc && o.phase != .finished
  | .mdrain _ _ _ _ _ _ _ _ _ _ => o.phase != .finished
  | _ => false

/-- The operation is a `bload`, `bswap`, `mclr` or `dload` that has not taken effect. -/
def MatrixOp.loads (o : MatrixOp) : Bool :=
  match o.work with
  | .mma _ _ _ _ _ _ _ _ _ _ _ _ _ _ _ _ => false
  | .mdrain _ _ _ _ _ _ _ _ _ _ => false
  | _ => o.phase != .finished

/-- R271: an operation may act, given one that the engine took before it. -/
def Dev.mayPass (d : Dev) (o e : MatrixOp) : Bool :=
  let apart := (d.opTiles o).all fun t => !(d.opTiles e).contains t
  match o.work with
  | .mma _ _ _ _ _ _ _ _ _ _ _ _ _ _ _ _ => !e.inArray && !e.loads && (!e.drains || apart)
  | .mclr _ _ => !e.loads && ((!e.inArray && !e.drains) || apart)
  | .mdrain _ _ _ _ _ _ _ _ _ _ => !e.inArray && !e.loads && !e.drains
  | .bload _ _ _ _ _ _ _ => !e.loads
  | .bswap _ _ => !e.inArray && !e.loads
  | .dload _ _ _ _ => !e.loads && !e.drains

/-- The operations that an engine took before one. -/
def engineBefore (id : Nat) (os : List MatrixOp) : List MatrixOp := os.takeWhile fun o => o.op != id

/-- R232, R271, R281, R457: the operation may act: it has left its hold window, what its issuer did before has performed, and
every earlier operation of its engine, and for a pair operation of the follower's, has finished with what it needs. -/
def Dev.engineReady (d : Dev) (core : Nat) (o : MatrixOp) : Bool :=
  let deps := ((Table.find? d.ops o.op).map EngineOp.deps).getD []
  !o.held && d.allPerformed deps && (engineBefore o.op (d.core core).engine).all (d.mayPass o) &&
    (!o.work.paired || (d.core (followerOf core)).engine.all (d.mayPass o))

/-- The first operation of a core's engine that satisfies a condition. -/
def Dev.firstOp (d : Dev) (core : Nat) (p : MatrixOp → Bool) : Option MatrixOp := (d.core core).engine.find? p

/-- An operation of a core's engine changed. -/
def Dev.onOp (d : Dev) (core id : Nat) (f : MatrixOp → MatrixOp) : Dev :=
  d.onCore core fun c => { c with engine := c.engine.map fun o => if o.op = id then f o else o }

/-- The operation's phase. -/
def Dev.setPhase (d : Dev) (core id : Nat) (p : Phase) : Dev := d.onOp core id fun o => { o with phase := p }

/-- The matrix state of a core changed. -/
def Dev.onMatrix (d : Dev) (core : Nat) (f : Matrix → Matrix) : Dev := d.onCore core fun c => { c with matrix := f c.matrix }

/-- R433: the unit that a failure's record names. -/
def EngineFault.unit (f : EngineFault) : Nat := field f.erec 3 1

/-- R434: a failure of an operation, for its issuer: those of unit 0 come before those of unit 1. -/
def Dev.faultOp (d : Dev) (id core kind fcode unit va row col done : Nat) : Dev :=
  let f : EngineFault := ⟨0x13, engineRecord kind fcode 0 unit 0 va row col done (d.clockOf core)⟩
  { d with ops := Table.modify d.ops id fun o =>
      { o with faults := (o.faults.filter fun x => decide (x.unit ≤ unit)) ++ f :: o.faults.filter fun x => decide (unit < x.unit) } }

/-- R460: the issuing team of an operation is ended. -/
def Dev.consumeOp (h : HostPart) (d : Dev) (id va pa : Nat) : Dev :=
  match Table.find? d.ops id with
  | none => d
  | some o =>
    let who := match o.party with
      | .warp w => if (d.warp? w).any fun w => !w.threads.isEmpty then some w else none
      | _ => none
    d.endTeam h o.team who o.lanes o.pc va pa

/-- R460, R464: the page walker or the memory manager met an uncorrectable word in an access of an operation: the context is
killed. No warp consumed the word. -/
def Dev.killOp (h : HostPart) (d : Dev) (id va : Nat) : Dev :=
  match Table.find? d.ops id with
  | none => d
  | some o => (d.kill h (d.slotOf o.team) 0x19 (some o.team) none va []).settle h

/-- R250: the operation is complete; its decrement can be delivered. -/
def Dev.retireOp (h : HostPart) (d : Dev) (core id : Nat) : Dev :=
  let d := d.onCore core fun c => { c with engine := c.engine.filter fun o => o.op != id }
  { d with ops := Table.modify d.ops id fun o => { o with done := true } }.settle h

/-! ## The array phase (R273 to R280) -/

/-- An element as it enters a product: its selector, and its value in units of its exponent. -/
structure Factor where
  sel : Bool
  value : FpNum
  deriving DecidableEq, Repr

/-- R91, R92, R278: an element of a block; under NaN-as-zero a NaN is +0. -/
def blockFactor (m e0 e1 : Nat) (naz : Bool) (v : Nat) : Factor :=
  let mag := v % 2 ^ m
  let neg := decide (v / 2 ^ m % 2 = 1)
  let sel := decide (v / 2 ^ (m + 1) % 2 = 1)
  if (if sel then e1 else e0) = 255 then
    if mag = 0 then ⟨sel, .inf neg⟩ else ⟨sel, if naz then .zero else .nan false⟩
  else ⟨sel, .fin neg mag 0 false⟩

/-- R280: an s8 element. -/
def byteFactor (v : Nat) : Factor := ⟨false, .ofInt (integerValue 8 true v)⟩

/-- A K-block of a row of A or a column of B: its exponents, and its elements with their place in the block. -/
structure KBlock where
  e0 : Nat
  e1 : Nat
  elements : List (Nat × Factor)
  deriving DecidableEq, Repr

/-- R273, R275: the sums of a block's products by selectors, and the products that are not finite. -/
structure Partial where
  s00 : Int
  s01 : Int
  s10 : Int
  s11 : Int
  pos : Bool
  neg : Bool
  nan : Bool
  deriving DecidableEq, Repr

/-- One product added; `flip` negates it (R277). -/
def Partial.add (p : Partial) (flip : Bool) (a b : Factor) : Partial :=
  match a.value, b.value with
  | .fin na ma _ _, .fin nb mb _ _ =>
    let v : Int := (ma * mb : Nat)
    let v := if (na != nb) != flip then -v else v
    match a.sel, b.sel with
    | false, false => { p with s00 := p.s00 + v }
    | false, true => { p with s01 := p.s01 + v }
    | true, false => { p with s10 := p.s10 + v }
    | true, true => { p with s11 := p.s11 + v }
  | x, y =>
    if x.isNan || y.isNan || x.isZero || y.isZero then { p with nan := true }
    else if (x.neg != y.neg) != flip then { p with neg := true }
    else { p with pos := true }

/-- R273: WINDOW of terms, each an integer and the exponent of its unit. -/
def windowSum (ts : List (Int × Int)) : FpNum :=
  let ts := ts.filter fun t => t.1 != 0
  match ts.map fun (t : Int × Int) => t.2 + (bitLength t.1.natAbs : Nat) - 1 with
  | [] => .zero
  | e :: es =>
    let q := es.foldl max e - 93
    let term := fun (t : Int × Int) =>
      let n : Nat := if q ≤ t.2 then t.1.natAbs <<< (t.2 - q).toNat else t.1.natAbs >>> (q - t.2).toNat
      if t.1 < 0 then -(n : Int) else n
    let s := (ts.map term).foldl (· + ·) 0
    .fin (decide (s < 0)) s.natAbs q false

/-- R273, R275, R280: P of a block pair. `w` is 254 + MA + MB, or nothing for s8. -/
def blockPartial (w : Option Nat) (cplx even : Bool) (a b : KBlock) : Word :=
  let p := b.elements.foldl
    (fun (p : Partial) e =>
      match a.elements.find? fun x => x.1 == e.1 with
      | none => p
      | some x => p.add (cplx && even && e.1 % 2 == 1) x.2 e.2)
    ⟨0, 0, 0, 0, false, false, false⟩
  let r : FpNum :=
    if p.nan || (p.pos && p.neg) then .nan false
    else if p.pos then .inf false
    else if p.neg then .inf true
    else match w with
      | none => .ofInt (p.s00 + p.s01 + p.s10 + p.s11)
      | some w =>
        let x := fun (ea eb : Nat) => (ea : Int) + eb - w
        windowSum [(p.s00, x a.e0 b.e0), (p.s01, x a.e0 b.e1), (p.s10, x a.e1 b.e0), (p.s11, x a.e1 b.e1)]
  BitVec.ofNat 32 (fmtFp32.round 0 false r).1

/-- R274, R275: the accumulator of an element after the K-blocks of its row and column. -/
def accumulate (w : Option Nat) (cplx even : Bool) (acc : Option Word) (as bs : List KBlock) : Word :=
  ((as.zip bs).foldl
    (fun (c : Option Word) x =>
      let p := blockPartial w cplx even x.1 x.2
      some (match c with
        | none => p
        | some c => BitVec.ofNat 32 (fmtFp32.round 0 false (addNum 0 (fmtFp32.decode c.toNat) (fmtFp32.decode p.toNat)).1).1))
    acc).getD 0

/-- R269: the K-blocks of row i of A, from its payload and exponent bytes. -/
def rowBlocks (a b : Nat) (naz : Bool) (payload exps : List Byte) (i : Nat) : List KBlock :=
  let blocks := depthOf b / 32
  if a = 0x10 then
    (List.range blocks).map fun t =>
      ⟨0, 0, (List.range 32).map fun j => (j, byteFactor (field payload (i * 128 + t * 32 + j) 1))⟩
  else
    let m := (blockOf a).getD 0
    let n := payloadBytes m
    (List.range blocks).map fun t =>
      let k := i * blocks + t
      let v := field payload (k * n) n
      let e0 := field exps (2 * k) 1
      let e1 := field exps (2 * k + 1) 1
      ⟨e0, e1, (List.range 32).map fun j => (j, blockFactor m e0 e1 naz (streamElement (m + 2) j v))⟩

/-- R268, R279: the K-blocks of column n of B, from the banks and side stores of a core. -/
def columnBlocks (b : Nat) (naz : Bool) (m : Matrix) (banks : List Nat) (rows : List (List (BitVec 1024))) (n : Nat) :
    List KBlock :=
  let w := cellBits b
  let q := n / macroColumns b
  let c := n % macroColumns b
  let cell := fun (r : Nat) => ((((rows.getD q []).getD r 0) >>> (c * w)).toNat) % 2 ^ w
  let side := fun (t : Nat) => (Table.get m.side (sideKey q (banks.getD q 0) c t) 0).toNat
  if b = 0x10 then
    (List.range 4).map fun t => ⟨0, 0, (List.range 32).map fun j => (j, byteFactor (cell (t * 32 + j)))⟩
  else
    let mb := (blockOf b).getD 0
    if sparseCode b then
      (List.range 8).map fun t =>
        let s := side t
        let e0 := s % 256
        let e1 := s / 256 % 256
        ⟨e0, e1, (List.range 16).map fun j =>
          (4 * (j / 2) + s / 2 ^ 32 / 4 ^ j % 4, blockFactor mb e0 e1 naz (cell (t * 16 + j)))⟩
    else
      (List.range 4).map fun t =>
        let s := side t
        let e0 := s % 256
        let e1 := s / 256 % 256
        ⟨e0, e1, (List.range 32).map fun j => (j, blockFactor mb e0 e1 naz (cell (t * 32 + j)))⟩

/-- NaN elements of K-blocks read without NaN-as-zero (R278). -/
def countNans (ks : List KBlock) : Nat :=
  (ks.map fun k => (k.elements.filter fun e => e.2.value.isNan).length).foldl (· + ·) 0

/-- What an `mma` does to the tile slots, with its format slots. -/
structure MmaForm where
  tile : Nat
  a : FormatSlot
  b : FormatSlot
  back : Bool
  acc : Bool
  cplx : Bool
  naz : Bool
  rows : Nat
  deriving DecidableEq, Repr

/-- The format codes. -/
def MmaForm.ca (f : MmaForm) : Nat := f.a.format.toNat
def MmaForm.cb (f : MmaForm) : Nat := f.b.format.toNat

/-- R278: NaN-as-zero is in force for A, and for B. -/
def MmaForm.nazA (f : MmaForm) : Bool := f.naz || f.a.naz
def MmaForm.nazB (f : MmaForm) : Bool := f.naz || f.b.naz

/-- R267, R274, R278: the matrix state of a core after an `mma`. -/
def Matrix.multiply (m : Matrix) (f : MmaForm) (payload exps : List Byte) : Matrix :=
  let banks := (List.range 4).map fun q => bankOf m.roles q f.back
  let rowsOf := (List.range 4).map fun q =>
    (List.range 128).map fun r => Table.get m.banks (bankKey q (banks.getD q 0) r) 0
  let w : Option Nat := match blockOf f.ca, blockOf f.cb with
    | some ma, some mb => some (254 + ma + mb)
    | _, _ => none
  let columns := (List.range (columnsOf f.cb)).map fun n => columnBlocks f.cb f.nazB m banks rowsOf n
  let nansB := if f.nazB then
      ((List.range (columnsOf f.cb)).map fun n => countNans (columnBlocks f.cb false m banks rowsOf n)).foldl (· + ·) 0
    else 0
  let slots := (List.range (tilesOf f.cb)).map (f.tile + ·)
  (List.range f.rows).foldl
    (fun (m : Matrix) i =>
      let as := rowBlocks f.ca f.cb f.nazA payload exps i
      let nansA := if f.nazA then countNans (rowBlocks f.ca f.cb false payload exps i) else 0
      let m := slots.foldl
        (fun (m : Matrix) t =>
          let old := if f.acc then Table.get m.nanc (nancKey t i) 0 else 0
          { m with nanc := Table.replace 0 m.nanc (nancKey t i) 1 fun _ => Nat.min (old + nansA + nansB) 65535 })
        m
      let values := (columns.mapIdx fun n bs =>
        accumulate w f.cplx (n % 2 == 0) (if f.acc then some (m.tile (f.tile + n / 512) i (n % 512)) else none) as bs)
      slots.foldl
        (fun (m : Matrix) t =>
          let vs := (values.drop ((t - f.tile) * 512)).take 512
          { m with tiles := Table.replace 0 m.tiles (tileKey t i 0) vs.length fun c => vs.getD c 0 })
        m)
    m

/-- R460: what an `mma` reads of a core's stores is poisoned. -/
def Dev.multiplyPoisoned (d : Dev) (core : Nat) (f : MmaForm) : Bool :=
  let m := (d.core core).matrix
  (List.range 4).any (fun q =>
    let p := bankOf m.roles q f.back
    d.chipPoisoned core 0 (bankKey q p 0 * 16) 2048 || d.chipPoisoned core 1 (sideKey q p 0 0) 2048) ||
    (f.acc && (List.range (tilesOf f.cb)).any fun t => d.chipPoisoned core 2 (tileKey (f.tile + t) 0 0 / 2) (f.rows * 256))

/-- R436: a restart state goes, when an `mma` writes its tile. -/
def Matrix.dropRestart (m : Matrix) (tiles : List Nat) : Matrix :=
  { m with restart := m.restart.filter fun r => !(tiles.any fun t => decide (r.tile ≤ t) && decide (t < r.tile + (r.columns + 511) / 512)) }

/-- One core's part of an array phase. -/
def Dev.multiplyOn (d : Dev) (core : Nat) (f : MmaForm) (payload exps : List Byte) : Dev :=
  let tiles := (List.range (tilesOf f.cb)).map (f.tile + ·)
  let d := if f.acc then d else
    tiles.foldl (fun d t => (List.range f.rows).foldl
      (fun (d : Dev) i => d.clearChip core 2 (tileKey t i 0 / 2) (Nat.min 512 (columnsOf f.cb) / 2)) d) d
  d.onMatrix core fun m => (m.multiply f payload exps).dropRestart tiles

/-- R269, R270, R434: the fill has read A, or could not. -/
def Dev.readA (h : HostPart) (d : Dev) (slot core : Nat) (a : Dword) (f : MmaForm) : Reached (List Byte × List Byte) :=
  match d.readVa h slot core a.toNat (payloadSize f.ca f.cb f.rows) with
  | .error e => .error e
  | .ok (payload, d) =>
    match d.readVa h slot core (a + f.a.expStride).toNat (exponentSize f.ca f.cb f.rows) with
    | .error e => .error e
    | .ok (exps, d) => .ok ((payload, exps), d)

/-- R270: an array phase begins. A is read as it then stands (notes/assumptions/15.md). A word of a core's own stores has no
virtual and no physical address: its consumption names 0 for both (DESIGN CHOICE, notes/assumptions/43.md). -/
def execArrayPhase (core : Nat) (s : State) : Host.Outcome State Fault Refusal :=
  s.run fun h d =>
    match d.firstOp core fun o => o.inArray && o.phase == .queued with
    | none => d
    | some o =>
      match o.work with
      | .mma a tile _ aslot bslot _ back pair acc cplx naz _ _ _ _ rows =>
        if !d.engineReady core o then d
        else
          let f : MmaForm := ⟨tile, d.opSlot o aslot, d.opSlot o bslot, back, acc, cplx, naz, rows⟩
          match d.readA h o.slot core a f with
          | .error (.fault code va, d) => (d.faultOp o.op core 1 code 0 va 0 0 0).setPhase core o.op .finished
          | .error (.uncorrectable va pa, d) => (d.setPhase core o.op .finished).consumeOp h o.op va pa
          | .error (.lost va, d) => d.killOp h o.op va
          | .ok ((payload, exps), d) =>
            if (opCores core pair).any fun j => d.multiplyPoisoned j f then
              (d.setPhase core o.op .finished).consumeOp h o.op 0 0
            else
              ((opCores core pair).foldl (fun d j => d.multiplyOn j f payload exps) d).setPhase core o.op .array
      | _ => d

/-- R270: an array phase ends; without a drain the operation is over. -/
def execArrayPhaseEnd (core : Nat) (s : State) : Host.Outcome State Fault Refusal :=
  s.run fun _ d =>
    match d.firstOp core fun o => o.phase == .array with
    | none => d
    | some o => d.setPhase core o.op (if o.drains then .arrayEnded else .finished)

/-- R292: a `bswap` takes effect, and retires. -/
def execBswapTakesEffect (core : Nat) (s : State) : Host.Outcome State Fault Refusal :=
  s.run fun h d =>
    match d.firstOp core fun o => match o.work with
      | .bswap _ _ => true
      | _ => false with
    | none => d
    | some o =>
      match o.work with
      | .bswap macros pair =>
        if d.engineReady core o then
          ((opCores core pair).foldl (fun d j => d.onMatrix j fun m => { m with roles := swapRoles macros m.roles }) d).retireOp
            h core o.op
        else d
      | _ => d

end Sys2Proof.Machine
end

