-- ==== Sys2Proof/Machine/Drain.lean ====
section
/-! DEFINITION. The drain unit and its micro-ops, and the last effects of the matrix operations (R270, R276,
R287 to R303, R434 to R436, R460). -/

namespace Sys2Proof.Machine

open Sys2Proof

/-! ## Micro-ops (R295, R297) -/

/-- R295: the fields of a micro-op. -/
def microOp (w : Word) : Nat := (w.extractLsb' 27 5).toNat
def microDst (w : Word) : Nat := (w.extractLsb' 24 3).toNat
def microA (w : Word) : Nat := (w.extractLsb' 21 3).toNat
def microB (w : Word) : Nat := (w.extractLsb' 18 3).toNat
def microImm (w : Word) : BitVec 18 := w.extractLsb' 0 18

/-- R297: the fields of a micro-op and the bits of its imm18 that it may use. -/
def microUses (op : Nat) : Option Word :=
  let d : Word := 0x07000000
  let a : Word := 0x00E00000
  let b : Word := 0x001C0000
  match op with
  | 0 => some 0
  | 1 => some (d ||| a)
  | 2 => some (d ||| 0x3F)
  | 3 => some (d ||| 0x7E)
  | 4 => some (d ||| 0x7E)
  | 5 => some (d ||| a ||| b ||| 3)
  | 6 => some (d ||| a ||| b ||| 3)
  | 7 => some (d ||| a ||| b ||| 3)
  | 8 => some (d ||| a ||| b ||| 3)
  | 9 => some (d ||| a ||| b)
  | 10 => some (d ||| a ||| b)
  | 11 => some (d ||| a ||| 7)
  | 12 => some (d ||| a ||| 3)
  | 13 => some (d ||| a)
  | 14 => some (d ||| a ||| b ||| 7)
  | 15 => some (d ||| a ||| 7)
  | 16 => some (a ||| 7)
  | 17 => some (a ||| 3)
  | 18 => some (a ||| 1)
  | 19 => some (d ||| a)
  | 20 => some (d ||| a)
  | 21 => some (d ||| 1)
  | 22 => some (d ||| a ||| 0x1FF)
  | _ => none

/-- The slots and the streams of a drain (R299), with what its instruction read at issue. -/
structure DrainForm where
  slots : List FormatSlot
  aslot : Nat
  bslot : Nat
  oslot : Nat
  base : Dword
  g : Word
  h : Word
  deriving DecidableEq, Repr

/-- A slot of the launch. -/
def DrainForm.slot (f : DrainForm) (n : Nat) : FormatSlot := f.slots.getD n ⟨0, false, false, false, 0, 0, 0⟩

/-- The output format. -/
def DrainForm.out (f : DrainForm) : FormatSlot := f.slot f.oslot

/-- R299: the base and the row stride of a stream. -/
def DrainForm.streamBase (f : DrainForm) (m : Nat) : Dword :=
  if m = 0 then f.base else f.base + BitVec.ofInt 64 ((f.h.extractLsb' 8 24).toInt * 256)
def DrainForm.stride (f : DrainForm) (m : Nat) : Int :=
  if m = 0 then f.g.toInt else ((f.h.extractLsb' 0 8).toNat : Int)

/-- R295: one word of the program passes its check. -/
def microLegal (f : DrainForm) (w : Word) : Bool :=
  let s := (f.slot (microImm w).toNat).format.toNat
  let slot := (f.slot ((microImm w).toNat % 8)).format.toNat
  let out := f.out.format.toNat
  match microUses (microOp w) with
  | none => false
  | some used =>
    let fields : Word := 0x07FFFFFF
    (w &&& fields &&& ~~~used) == 0 &&
      match microOp w with
      | 15 => [0x00, 0x01, 0x02, 0x03, 0x04, 0x10, 0x11, 0x12, 0x18].contains slot
      | 16 => denseBlock s && s == out
      | 17 =>
        (microImm w).getLsbD 1 || !denseBlock out ||
          f.stride ((microImm w).toNat % 2) % (payloadBytes ((blockOf out).getD 0) : Nat) == 0
      | 18 => out == 0
      | _ => true

/-- R295, R296: the words of a program that run, up to its first `end`. -/
def programWords : List Word → List Word
  | [] => []
  | w :: ws => if microOp w = 0 then [] else w :: programWords ws

/-- R295: the words of a program that are checked. -/
def checkedWords : List Word → List Word
  | [] => []
  | w :: ws => if microOp w = 0 then [w] else w :: checkedWords ws

/-- R293: a program of a core's drain memory. -/
def Matrix.program (m : Matrix) (p : Nat) : List Word := (List.range 16).map fun i => Table.get m.programs (p * 16 + i) 0

/-- R293: a constant. -/
def Matrix.constant (m : Matrix) (c : Nat) : Word := Table.get m.constants c 0

/-- R294: word j of a table. -/
def Matrix.tableWord (m : Matrix) (t j : Nat) : Word := Table.get m.tables (t * 36 + j) 0

/-! ## pwl (R298) -/

/-- A finite FP32 value in units of 2^-149. -/
def fpUnits (x : FpNum) : Int :=
  match x with
  | .fin neg m e _ =>
    let v : Int := (m <<< (e + 149).toNat : Nat)
    if neg then -v else v
  | _ => 0

/-- The number is finite. -/
def FpNum.finite : FpNum → Bool
  | .fin _ _ _ _ => true
  | _ => false

/-- An exact quotient of integers in units of 2^-149, rounded once into FP32. -/
def roundQuotient (n : Int) (s : Nat) : Word × Flags :=
  let k := bitLength s + 30
  let v := n.natAbs <<< k
  fpResult 0 (.fin (decide (n < 0)) (v / s) (-149 - k) (v % s != 0), 0)

/-- R85: a value of a table, a NaN as the default NaN. -/
def tableValue (y : Word) : Word × Flags := (if (fp32 y).isNan then BitVec.ofNat 32 fmtFp32.defaultNan else y, 0)

/-- R298: table t applied to x. -/
def pwl (m : Matrix) (t : Nat) (x : Word) : Word × Flags :=
  let lo := fp32 (m.tableWord t 0)
  let step := fp32 (m.tableWord t 1)
  let y := fun (j : Nat) => m.tableWord t (2 + j)
  let bad := !lo.finite || !step.finite || decide (fpUnits step ≤ 0)
  let v := fp32 x
  let nan := BitVec.ofNat 32 fmtFp32.defaultNan
  if v.isNan || bad then (nan, flagIf (v.signals || bad) flagNV)
  else
    match v with
    | .inf neg => tableValue (if neg then y 0 else y 32)
    | v =>
      let a := fpUnits v - fpUnits lo
      let s := fpUnits step
      if a ≤ 0 then tableValue (y 0)
      else if 32 * s ≤ a then tableValue (y 32)
      else
        let j := (a / s).toNat
        let r := a % s
        if r = 0 then tableValue (y j)
        else
          let y0 := fp32 (y j)
          let y1 := fp32 (y (j + 1))
          if !y0.finite || !y1.finite then (nan, flagNV)
          else
            let n := fpUnits y0 * s + r * (fpUnits y1 - fpUnits y0)
            if n = 0 then (0, 0) else roundQuotient n s.toNat

/-! ## One element (R296 to R302) -/

/-- Why an element fails its check: a fault of a kind (R434), or an uncorrectable word (R460). -/
inductive DrainStop where
  | fault (kind code va : Nat)
  | uncorrectable (va pa : Nat)
  | lost (va : Nat)
  deriving DecidableEq, Repr

/-- The stop that a failure of an access of some kind makes. -/
def Failure.stop (kind : Nat) : Failure → DrainStop
  | .fault code va => .fault kind code va
  | .uncorrectable va pa => .uncorrectable va pa
  | .lost va => .lost va

/-- The state of an element's program. -/
structure DrainRun where
  regs : List Word
  sum : Word
  max : Word
  stager : List Word
  nibbles : List (Nat × Dword × Nat)
  block : Option Block
  flags : Flags
  stores : List DrainStore
  stop : Option DrainStop
  d : Dev

/-- An element's place: its unit, row, column of the operation, whether it is the last of its row, and the row's
NaN count. -/
structure DrainAt where
  unit : Nat
  row : Nat
  n : Nat
  last : Bool
  nans : Nat
  deriving DecidableEq, Repr

def DrainRun.reg (r : DrainRun) (i : Nat) : Word := r.regs.getD i 0

/-- A result in a register, with the flags that it raises. -/
def DrainRun.put (r : DrainRun) (i : Nat) (v : Word × Flags) : DrainRun :=
  { r with regs := putAt 0 r.regs i v.1, flags := r.flags ||| v.2 }

/-- R297, R406, R423: a read of `n` bytes by the drain, which faults as a copy's reads do: the range of its address comes
before its alignment. -/
def DrainRun.load (h : HostPart) (r : DrainRun) (slot core va n : Nat) (k : Nat → DrainRun → DrainRun) : DrainRun :=
  if 2 ^ 57 ≤ va then { r with stop := some (.fault 6 faultAddress va) }
  else if va % n != 0 then { r with stop := some (.fault 6 faultMisaligned va) }
  else
    match r.d.readValue h slot core va n with
    | .error (f, d) => { r with stop := some (f.stop 6), d := d }
    | .ok (v, d) => k v { r with d := d }

/-- R297: an FP32 value, or a BF16 one decoded, of a vector. -/
def vectorValue (bf : Bool) (v : Nat) : Word × Flags :=
  if bf then
    let x := fmtBf16.decode v
    (BitVec.ofNat 32 (if x.isNan then fmtFp32.defaultNan else v * 65536), flagIf x.signals flagNV)
  else (BitVec.ofNat 32 v, 0)

/-- R85, R297: `scl`. -/
def scaleBy (x : Word) (e : Int) : Word × Flags :=
  match fp32 x with
  | .fin neg m k more => fpResult 0 (.fin neg m (k + e) more, 0)
  | v => fpResult 0 (v, flagIf v.signals flagNV)

/-- R300, R435: the byte that an odd element of s4 stores, or the nibble that an even one leaves, whose byte is checked with
it. After a stop between the two (`DrainUnit.halves`) the odd element stores its nibble alone. -/
def DrainRun.storeNibble (r : DrainRun) (word : Nat) (va : Dword) (n : Nat) (v : Word) : DrainRun :=
  let x := v.toNat % 16
  let others := r.nibbles.filter fun e => e.1 != word
  if n % 2 = 0 then { r with nibbles := (word, va, x) :: others, stores := r.stores ++ [.share va] }
  else
    let store : DrainStore := match r.nibbles.find? fun e => e.1 == word with
      | some e => .put va [BitVec.ofNat 8 (e.2.2 + 16 * x)] 1
      | none => .half va true x
    { r with nibbles := others, stores := r.stores ++ [store] }

/-- R300, R301: the stores of a block. -/
def blockStores (f : DrainForm) (at_ : DrainAt) (b : Block) (m : Nat) : List DrainStore :=
  let mb := (blockOf f.out.format.toNat).getD 0
  let p := payloadBytes mb
  let off := (at_.row : Int) * f.stride m
  [.put (f.streamBase m + BitVec.ofInt 64 off + BitVec.ofNat 64 (at_.n / 32 * p)) (leBytes p (packStream (mb + 2) b.elements)) 1,
    .put (f.streamBase m + f.out.expStride + BitVec.ofInt 64 (2 * (off / (p : Nat) + (at_.n / 32 : Nat))))
      [BitVec.ofNat 8 b.e0, BitVec.ofNat 8 b.e1] 1]

/-- R301: the stores that waited for the element's block, in their places. -/
def settleBlock (f : DrainForm) (at_ : DrainAt) (b : Block) (ss : List DrainStore) : List DrainStore :=
  ss.flatMap fun s => match s with
    | .late m => blockStores f at_ b m
    | s => [s]

/-- R297, R301: `cvtb`. -/
def DrainRun.stage (r : DrainRun) (f : DrainForm) (at_ : DrainAt) (slot : FormatSlot) (v : Word) : DrainRun :=
  let stager := putAt 0 r.stager (at_.n % 32) v
  if at_.n % 32 = 31 then
    let b := blockEncode slot ((blockOf slot.format.toNat).getD 0) ((List.range 32).map fun i => fp32 (stager.getD i 0))
    { r with
      stager := stager, block := some b, flags := b.flags.foldl (· ||| ·) r.flags
      stores := settleBlock f at_ b r.stores }
  else { r with stager := stager }

/-- R300, R301: `st`. `word` is the micro-op's place in the program. The `st` of a block stores what the element's last
`cvtb` has encoded. DESIGN CHOICE (notes/assumptions/43.md): one that stands before every `cvtb` of the program stores the
block that the next `cvtb` encodes in this element; R301 gives the block to "the `st` of that element" and does not say
which comes first. -/
def DrainRun.store (r : DrainRun) (f : DrainForm) (at_ : DrainAt) (word : Nat) (v : Word) (m : Nat) (row : Bool) : DrainRun :=
  let base := f.streamBase m + BitVec.ofInt 64 ((at_.row : Int) * f.stride m)
  let code := f.out.format.toNat
  if row then
    if at_.last then
      { r with stores := r.stores ++ [.put (base + BitVec.ofNat 64 (4 * at_.unit)) (leBytes 4 v.toNat) 4] }
    else r
  else if denseBlock code then
    if at_.n % 32 = 31 then
      { r with stores := r.stores ++ match r.block with
          | some b => blockStores f at_ b m
          | none => [.late m] }
    else r
  else if code = 0x11 then r.storeNibble word (base + BitVec.ofNat 64 (at_.n / 2)) at_.n v
  else
    let w := elementBits code / 8
    { r with stores := r.stores ++ [.put (base + BitVec.ofNat 64 (at_.n * w)) (leBytes w v.toNat) w] }

/-- R301: the stores of an element whose program has run: a block with no `cvtb` is 32 times +0. -/
def DrainRun.elementStores (r : DrainRun) (f : DrainForm) (at_ : DrainAt) : List DrainStore :=
  settleBlock f at_ (blockEncode f.out ((blockOf f.out.format.toNat).getD 0) (List.replicate 32 .zero)) r.stores

/-- R297: one micro-op, the `word`-th of the program. -/
def microStep (h : HostPart) (slot core : Nat) (m : Matrix) (f : DrainForm) (at_ : DrainAt) (r : DrainRun) (word : Nat)
    (w : Word) : DrainRun :=
  if r.stop.isSome then r
  else
    let imm := (microImm w).toNat
    let rm := imm % 4
    let dd := microDst w
    let a := r.reg (microA w)
    let b := r.reg (microB w)
    let vector := fun (i : Nat) =>
      let bf := decide (imm / 64 % 2 = 1)
      let n := if bf then 2 else 4
      let v : Dword := m.constant (imm % 64 + 1) ++ m.constant (imm % 64)
      r.load h slot core (v + BitVec.ofNat 64 (i * n)).toNat n fun v r => r.put dd (vectorValue bf v)
    match microOp w with
    | 1 => r.put dd (a, 0)
    | 2 => r.put dd (m.constant (imm % 64), 0)
    | 3 => vector at_.n
    | 4 => vector at_.row
    | 5 => r.put dd (fpResult rm (addNum rm (fp32 a) (fp32 b)))
    | 6 => r.put dd (fpResult rm (addNum rm (fp32 a) (fp32 b).negate))
    | 7 => r.put dd (fpResult rm (mulNum (fp32 a) (fp32 b)))
    | 8 => r.put dd (fpResult rm (fmaNum rm (fp32 (r.reg dd)) (fp32 a) (fp32 b)))
    | 9 => r.put dd (let x := fmtFp32.minMax false a.toNat b.toNat; (BitVec.ofNat 32 x.1, x.2))
    | 10 => r.put dd (let x := fmtFp32.minMax true a.toNat b.toNat; (BitVec.ofNat 32 x.1, x.2))
    | 11 => r.put dd (pwl m (imm % 8) a)
    | 12 => r.put dd (fpResult rm (divNum (FpNum.ofInt 1) (fp32 a)))
    | 13 => r.put dd (fpResult 0 (exp2Num (fp32 a)))
    | 14 =>
      let (c, nv) := fpCompare (BitVec.ofNat 3 imm) (fp32 (r.reg dd)) .zero
      r.put dd (if c then a else b, flagIf nv flagNV)
    | 15 =>
      let s := f.slot (imm % 8)
      let code := s.format.toNat
      let (v, fl) := convertLane 0 ((laneTypeOf code).getD 0) s.round s.sat (s.naz && (floatOf code).isSome)
        (BitVec.setWidth 64 a)
      r.put dd (BitVec.ofNat 32 (v.toNat % 2 ^ elementBits code), fl)
    | 16 => r.stage f at_ (f.slot (imm % 8)) a
    | 17 => r.store f at_ word a (imm % 2) (decide (imm / 2 % 2 = 1))
    | 18 =>
      let base := f.streamBase (imm % 2) + BitVec.ofInt 64 ((at_.row : Int) * f.stride (imm % 2))
      { r with stores := r.stores ++ [.add (base + BitVec.ofNat 64 (4 * at_.n)) a] }
    | 19 =>
      let v := fpResult 0 (addNum 0 (fp32 r.sum) (fp32 a))
      { r.put dd v with sum := v.1 }
    | 20 =>
      let x := fmtFp32.minMax true r.max.toNat a.toNat
      let v := BitVec.ofNat 32 x.1
      { r.put dd (v, x.2) with max := v }
    | 21 =>
      r.put dd (if imm % 2 = 1 then (fpResult 0 (FpNum.ofInt at_.nans, 0)).1 else BitVec.ofNat 32 at_.nans, 0)
    | 22 => r.put dd (scaleBy a (integerValue 9 true imm))
    | _ => r

/-- R296: the program of one element. -/
def microRun (h : HostPart) (slot core : Nat) (m : Matrix) (f : DrainForm) (at_ : DrainAt) (r : DrainRun) (n : Nat) :
    List Word → DrainRun
  | [] => r
  | w :: ws => microRun h slot core m f at_ (microStep h slot core m f at_ r n w) (n + 1) ws

/-- R423: the alignment of a store of a drain. -/
def DrainStore.align : DrainStore → Nat
  | .put _ _ align => align
  | .add _ _ => 4
  | _ => 1

/-- R406, R435: the range, the alignment, the translation, the write permission and the seal of every store, before any
performs. -/
def Dev.checkStores (h : HostPart) (slot core : Nat) : List DrainStore → Dev → Except (Failure × Dev) Dev
  | [], d => .ok d
  | s :: ss, d =>
    let (va, n) := s.span
    if 2 ^ 57 < va + n then .error (.fault faultAddress va, d)
    else if va % s.align != 0 then .error (.fault faultMisaligned va, d)
    else
      match Dev.writeParts h slot core d (pageParts va 3 n) with
      | .error f => .error f
      | .ok (_, d) => Dev.checkStores h slot core ss d

/-- The byte with one of its nibbles replaced. -/
def withNibble (upper : Bool) (old v : Nat) : Nat := if upper then old % 16 + 16 * v else old / 16 * 16 + v

/-- R300: a store performs; an addition is a read-modify-write. -/
def Dev.performStore (h : HostPart) (slot core : Nat) (d : Dev) (s : DrainStore) : Except (Failure × Dev) Dev :=
  match s with
  | .put va bytes _ => d.writeVa h slot core va.toNat bytes
  | .half va upper v =>
    match d.reach h slot core va.toNat .write with
    | (.error f, d) => .error (f, d)
    | (.ok pa, d) =>
      .ok ((d.putBytes pa (leBytes 1 (withNibble upper (leValue (Memory.readBytes d.mem pa 1)) v))).endTags pa 1)
  | .add va v =>
    match d.reach h slot core va.toNat .write with
    | (.error f, d) => .error (f, d)
    | (.ok pa, d) =>
      let old := leValue (Memory.readBytes d.mem pa 4)
      .ok (d.putBytes pa (leBytes 4 (fmtFp32.finish 0 (addNum 0 (fmtFp32.decode old) (fp32 v))).1))
  | .share _ => .ok d
  | .late _ => .ok d

/-- R435: the seal that has taken effect since the check refuses a store. -/
def DrainStore.refused (c : Context) (s : DrainStore) : Bool :=
  match s with
  | .share _ => false
  | .late _ => false
  | s => let (va, n) := s.span; c.sealedRange va n

/-- R435: the stores of an element perform; and the first failure of one. A store that a seal refuses now is lost. -/
def Dev.performStores (h : HostPart) (slot core : Nat) (d : Dev) (stores : List DrainStore) : Option Failure × Dev :=
  stores.foldl
    (fun (r : Option Failure × Dev) s =>
      if s.refused (r.2.context slot) then (r.1.orElse fun _ => some (.fault faultSealed s.span.1), r.2)
      else
        match r.2.performStore h slot core s with
        | .ok d => (r.1, d)
        | .error (f, d) => (r.1.orElse fun _ => some f, d))
    (none, d)

/-! ## A drain unit (R287, R296, R302, R435, R436) -/

/-- R276, R299: what the drain of an operation has from its instruction. -/
def Dev.drainForm (d : Dev) (o : MatrixOp) : Option (DrainForm × Nat × Nat) :=
  let slots := (List.range 8).map (d.opSlot o)
  match o.work with
  | .mma _ _ prog aslot bslot oslot _ _ _ _ _ _ base g h rows => some (⟨slots, aslot, bslot, oslot, base, g, h⟩, prog, rows)
  | .mdrain _ prog aslot bslot oslot _ base g h rows => some (⟨slots, aslot, bslot, oslot, base, g, h⟩, prog, rows)
  | _ => none

/-- R287: the tile and the columns of an operation's drain on one core. -/
def Dev.drainSpan (d : Dev) (o : MatrixOp) : Nat × Nat :=
  match o.work with
  | .mma _ tile _ _ bslot _ _ _ _ _ _ _ _ _ _ _ => (tile, columnsOf (d.opSlot o bslot).format.toNat)
  | .mdrain tile _ _ _ _ _ _ _ _ _ => (tile, 512)
  | _ => (0, 0)

/-- R296, R297: a unit at the start of a drain: the row statistics at +0 and −∞. -/
def freshUnit (core tile first columns rows prog aslot bslot oslot : Nat) : DrainUnit :=
  ⟨core, tile, first, columns, rows, prog, aslot, bslot, oslot, 0, List.replicate rows 0, List.replicate rows 0xFF800000,
    List.replicate 32 0, [], none, false⟩

/-- R436: the restart state is one that an `mdrain` with these fields resumes. -/
def DrainUnit.resumes (r u : DrainUnit) : Bool :=
  r.tile == u.tile && r.rows == u.rows && r.prog == u.prog && r.aslot == u.aslot && r.bslot == u.bslot && r.oslot == u.oslot

/-- R287, R436: the unit of a core for a drain that begins; the restart state is taken or discarded. -/
def Dev.beginUnit (d : Dev) (o : MatrixOp) (f : DrainForm) (prog rows core index : Nat) : DrainUnit :=
  let (tile, columns) := d.drainSpan o
  let u := freshUnit core tile (index * columns) columns rows prog f.aslot f.bslot f.oslot
  let isMdrain := match o.work with
    | .mdrain _ _ _ _ _ _ _ _ _ _ => true
    | _ => false
  match (d.core core).matrix.restart with
  | some r => if isMdrain && r.resumes u then { r with core := core, stopped := false } else u
  | none => u

/-- R295, R434: the unit checks its program; a refused one stops. -/
def Dev.startUnit (o : MatrixOp) (f : DrainForm) (prog rows : Nat) (core : Nat) (d : Dev) (x : Nat × Nat) : Dev :=
  let (j, index) := x
  let u := d.beginUnit o f prog rows j index
  let d := d.onMatrix j fun m => { m with restart := none }
  let ok := (checkedWords ((d.core j).matrix.program prog)).all (microLegal f)
  let d := d.onOp core o.op fun o => { o with units := o.units ++ [if ok then u else { u with stopped := true, sums := [] }] }
  if ok then d else d.faultOp o.op j 5 0 index 0 0 0 0

/-- The unit has no element left to drain. -/
def DrainUnit.over (u : DrainUnit) : Bool := u.stopped || decide (u.rows * u.columns ≤ u.next)

/-- R435: an operation whose units are over has finished; where one stopped, each keeps a restart state. A unit
whose program was refused has drained nothing and keeps none. -/
def Dev.endDrain (d : Dev) (core : Nat) (o : MatrixOp) : Dev :=
  if o.units.all DrainUnit.over then
    let d := if o.units.any DrainUnit.stopped then
        o.units.foldl
          (fun (d : Dev) u => if u.sums.isEmpty then d
            else d.onMatrix u.core fun m => { m with restart := some u }) d
      else d
    d.setPhase core o.op .finished
  else d

/-- R460: the program of a drain lies in poisoned words. -/
def Dev.programPoisoned (d : Dev) (core prog : Nat) : Bool := d.chipPoisoned core 3 (prog * 8) 8

/-- R270, R302, R457: a drain begins. -/
def execDrain (core : Nat) (s : State) : Host.Outcome State Fault Refusal :=
  s.run fun h d =>
    match d.firstOp core fun o => o.drains && o.phase != .draining &&
        (o.phase == .arrayEnded || !o.inArray) && !o.held with
    | none => d
    | some o =>
      let ready := (engineBefore o.op (d.core core).engine).all fun e => !e.drains && !e.inArray && (o.phase == .arrayEnded || !e.loads)
      let deps := ((Table.find? d.ops o.op).map EngineOp.deps).getD []
      if !ready || !d.allPerformed deps ||
          (o.work.paired && !(d.core (followerOf core)).engine.all fun e => e.phase == .finished) then d
      else
        match d.drainForm o with
        | none => d
        | some (f, prog, rows) =>
          if (opCores core o.work.paired).any fun j => d.programPoisoned j prog then
            (d.setPhase core o.op .finished).consumeOp h o.op 0 0
          else
            let d := (opCores core o.work.paired).mapIdx (fun n j => (j, n)) |>.foldl (Dev.startUnit o f prog rows core)
              (d.setPhase core o.op .draining)
            match d.firstOp core fun e => e.op == o.op with
            | none => d
            | some o => d.endDrain core o

/-- R276: the scaled accumulator. -/
def scaledAccumulator (f : DrainForm) (c : Word) : Word :=
  let scale := (fpResult 0 (mulNum (fp32 (f.slot f.aslot).scale) (fp32 (f.slot f.bslot).scale))).1
  (fpResult 0 (mulNum (fp32 c) (fp32 scale))).1

/-- R460: what an element reads of its core's stores is poisoned. -/
def Dev.elementPoisoned (d : Dev) (core tile i c : Nat) (ws : List Word) : Bool :=
  d.chipPoisoned core 2 (tileKey tile i c / 2) 1 ||
    ws.any fun w =>
      let imm := (microImm w).toNat
      match microOp w with
      | 2 => d.chipPoisoned core 4 (imm % 64 / 2) 1
      | 3 => d.chipPoisoned core 4 (imm % 64 / 2) 1
      | 4 => d.chipPoisoned core 4 (imm % 64 / 2) 1
      | 11 => d.chipPoisoned core 5 (imm % 8 * 18) 18
      | _ => false

/-- The units of an operation with the one of a core changed. -/
def Dev.setUnit (d : Dev) (engine id core : Nat) (u : DrainUnit) : Dev :=
  d.onOp engine id fun o => { o with units := o.units.map fun v => if v.core = core then u else v }

/-- R102: the flags of a done element go with the operation's decrement. -/
def Dev.opFlags (d : Dev) (id : Nat) (fl : Flags) : Dev :=
  { d with ops := Table.modify d.ops id fun o => { o with flags := o.flags ||| fl } }

/-- R434, R435, R460: what a failure of an element does to its operation: `row`, `n` and `done` are those of its record. -/
def Dev.stopElement (h : HostPart) (d : Dev) (o : MatrixOp) (core index row n done : Nat) : DrainStop → Dev
  | .fault kind code va => d.faultOp o.op core kind code index va row n done
  | .uncorrectable va pa => d.consumeOp h o.op va pa
  | .lost va => d.killOp h o.op va

/-- R435: the stores of an element perform, and the first that fails is reported. -/
def Dev.putStores (h : HostPart) (d : Dev) (o : MatrixOp) (core index row n done : Nat) (stores : List DrainStore) : Dev :=
  match d.performStores h o.slot core stores with
  | (none, d) => d
  | (some f, d) => d.stopElement h o core index row n done (f.stop 7)

/-- R435: the stores of the nibbles that an even element of s4 has left, where the odd one fails: the even element is done, and
so its nibble is stored. DESIGN CHOICE (notes/assumptions/29.md): it is stored alone, as the unit stops; R300 has the two
nibbles of a byte written together. -/
def DrainUnit.halves (u : DrainUnit) : List DrainStore := u.nibbles.map fun e => .half e.2.1 false e.2.2

/-- R296, R435: the next element of a unit passes its check, and its stores wait to perform; or the unit stops. A word of a
core's own stores has no address (notes/assumptions/43.md). -/
def Dev.checkElement (h : HostPart) (d : Dev) (engine core : Nat) (o : MatrixOp) (u : DrainUnit) (f : DrainForm) : Dev :=
  let i := u.next / u.columns
  let c := u.next % u.columns
  let index := if core = engine then 0 else 1
  let m := (d.core core).matrix
  let tile := u.tile + c / 512
  let at_ : DrainAt := ⟨index, i, u.first + c, c + 1 == u.columns, Table.get m.nanc (nancKey tile i) 0⟩
  let ws := programWords (m.program u.prog)
  let stopWith := fun (d : Dev) (why : DrainStop) =>
    ((d.putStores h o core index i at_.n u.next u.halves).setUnit engine o.op core
      { u with stopped := true, nibbles := [] }).stopElement h o core index i at_.n u.next why
  if d.elementPoisoned core tile i (c % 512) ws then stopWith d (.uncorrectable 0 0)
  else
    let r : DrainRun := ⟨scaledAccumulator f (m.tile tile i (c % 512)) :: List.replicate 7 0, u.sums.getD i 0,
      u.maxima.getD i 0, u.stager, u.nibbles, none, 0, [], none, d⟩
    let r := microRun h o.slot core m f at_ r 0 ws
    match r.stop with
    | some why => stopWith r.d why
    | none =>
      let stores := r.elementStores f at_
      match Dev.checkStores h o.slot core stores r.d with
      | .error (why, d) => stopWith d (why.stop 7)
      | .ok d =>
        d.setUnit engine o.op core
          { u with
            checked := some (stores, r.flags)
            sums := putAt 0 u.sums i r.sum
            maxima := putAt 0 u.maxima i r.max
            stager := r.stager
            nibbles := r.nibbles }

/-- R102, R435: the stores of a checked element perform, and the element is done; a store that a seal refuses now is lost,
and reported. -/
def Dev.storeElement (h : HostPart) (d : Dev) (engine core : Nat) (o : MatrixOp) (u : DrainUnit) (stores : List DrainStore)
    (flags : Flags) : Dev :=
  ((d.putStores h o core (if core = engine then 0 else 1) (u.next / u.columns) (u.first + u.next % u.columns) (u.next + 1)
    stores).opFlags o.op flags).setUnit engine o.op core { u with next := u.next + 1, checked := none }

/-- R296, R435: a drain unit goes on: it checks its next element, or performs the stores of the one that it has checked. -/
def Dev.drainElement (h : HostPart) (d : Dev) (engine core : Nat) (o : MatrixOp) (u : DrainUnit) (f : DrainForm) : Dev :=
  match u.checked with
  | none => d.checkElement h engine core o u f
  | some (stores, flags) => d.storeElement h engine core o u stores flags

/-- The operation that a core's drain unit works on, with the core of its engine: its own, or its leader's. -/
def Dev.drainingOp (d : Dev) (core : Nat) : Option (Nat × MatrixOp × DrainUnit) :=
  let find := fun (j : Nat) =>
    ((d.core j).engine.find? fun o => o.phase == .draining && o.units.any fun u => u.core == core && !u.over).bind fun o =>
      (o.units.find? fun u => u.core == core && !u.over).map fun u => (j, o, u)
  match find core with
  | some x => some x
  | none => if core % 2 = 1 then find (core - 1) else none

/-- R296: the drain unit runs its program on one element. -/
def execDrainElement (core : Nat) (s : State) : Host.Outcome State Fault Refusal :=
  s.run fun h d =>
    match d.drainingOp core with
    | none => d
    | some (engine, o, u) =>
      match d.drainForm o with
      | none => d
      | some (f, _, _) =>
        let d := d.drainElement h engine core o u f
        match d.firstOp engine fun e => e.op == o.op with
        | none => d
        | some o => if o.phase == .draining then d.endDrain engine o else d

/-! ## bload, mclr and dload (R288, R290, R291, R293, R434) -/

/-- A column of a B image: its payload cells, and the exponents and positions of its K-blocks, as far as they could be
read. -/
structure Column where
  cells : List (Option Nat)
  side : List (Option Nat)
  deriving DecidableEq, Repr

/-- The reading of an image: its first fault, with its kind, and the first failure by an uncorrectable word. -/
structure ImageRead where
  fault : Option (Nat × Nat × Nat)
  poison : Option Failure
  d : Dev

/-- A failure of the reading. -/
def ImageRead.fail (r : ImageRead) (kind code va : Nat) : ImageRead := { r with fault := some (r.fault.getD (kind, code, va)) }

/-- Bytes of the image, where they can be read. -/
def ImageRead.bytes (h : HostPart) (slot core : Nat) (r : ImageRead) (va n : Nat) : Option (List Byte) × ImageRead :=
  match r.d.readVa h slot core va n with
  | .ok (bs, d) => (some bs, { r with d := d })
  | .error (.fault c va, d) => (none, { r with d := d }.fail 2 c va)
  | .error (f, d) => (none, { r with d := d, poison := some (r.poison.getD f) })

/-- R290: a column of dense or s8 B, `blocks` K-blocks of it. -/
def ImageRead.denseColumn (h : HostPart) (slot core code blocks : Nat) (es v : Dword) (stride n : Nat) (r : ImageRead) :
    Column × ImageRead :=
  let m := (blockOf code).getD 0
  let p := if code = 0x10 then 32 else payloadBytes m
  let a := (v + BitVec.ofNat 64 (n * stride)).toNat
  let x := (v + es + BitVec.ofNat 64 (8 * n)).toNat
  let cells := fun (b : List Byte) => if code = 0x10 then b.map BitVec.toNat else (List.range 32).map fun j =>
    streamElement (m + 2) j (field b 0 p)
  (List.range blocks).foldl
    (fun (s : Column × ImageRead) t =>
      let q := s.2.bytes h slot core (a + t * p) p
      let e := if code = 0x10 then (none, q.2) else q.2.bytes h slot core (x + 2 * t) 2
      let vs := match q.1 with
        | none => List.replicate 32 none
        | some b => (cells b).map some
      (⟨s.1.cells ++ vs, if code = 0x10 then [] else s.1.side ++ [e.1.map fun y => field y 0 2]⟩, e.2))
    (⟨[], []⟩, r)

/-- R95, R290: the lines of a column of sparse B. -/
def sparseLines (code : Nat) : Nat := if cellBits code = 4 then 1 else 2

/-- R290, R291, R96: the lines of a column of sparse B: their counts reach its blocks exactly. -/
def ImageRead.sparseColumn (h : HostPart) (slot core code : Nat) : Nat → Nat → Nat → Column → ImageRead → Column × ImageRead
  | _, _, 0, c, r => (c, r)
  | 0, va, _, c, r => (c, r.fail 3 0 (va - 128))
  | lines + 1, va, need, c, r =>
    match r.bytes h slot core va 128 with
    | (none, r) => (c, r)
    | (some line, r) =>
      let count := field line 1 1
      if lineMalformed code line || decide (need < count) then (c, r.fail 3 0 va)
      else
        let m := (blockOf code).getD 0
        let cells := (List.range count).flatMap fun b =>
          let (off, n) := linePayload code b
          (List.range 16).map fun j => some (streamElement (m + 2) j (field line off n))
        let side := (List.range count).map fun b => some (field line (2 + 6 * b) 2 + 2 ^ 32 * field line (4 + 6 * b) 4)
        ImageRead.sparseColumn h slot core code lines (va + 128) (need - count) ⟨c.cells ++ cells, c.side ++ side⟩ r

/-- R291: the K-blocks of `rows` bank rows. -/
def bankBlocks (code rows : Nat) : Nat := rows / if sparseCode code then 16 else 32

/-- R290: column n of the image. -/
def ImageRead.column (h : HostPart) (slot core : Nat) (b : FormatSlot) (v : Dword) (stride rows n : Nat) (r : ImageRead) :
    Column × ImageRead :=
  let code := b.format.toNat
  if sparseCode code then
    r.sparseColumn h slot core code (sparseLines code) (v + BitVec.ofNat 64 (n * stride)).toNat (bankBlocks code rows) ⟨[], []⟩
  else r.denseColumn h slot core code (bankBlocks code rows) b.expStride v stride n

/-- R268, R291: row r of a bank from the columns of its macro, where all of it could be read. -/
def bankRow (w rows r : Nat) (cs : List Column) : Option (BitVec 1024) :=
  let cells := cs.map fun c => if r < rows then c.cells.getD r none else some 0
  if cells.all Option.isSome then some (BitVec.ofNat 1024 (packStream w (cells.map fun c => c.getD 0))) else none

/-- R291: the side-store entry of a K-block, where it could be read. -/
def sideEntry (blocks k : Nat) (cs : List Column) : Option (BitVec 64) :=
  if k % 8 < blocks then ((cs.getD (k / 8) ⟨[], []⟩).side.getD (k % 8) none).map (BitVec.ofNat 64) else some 0

/-- R434: an entry after its load: the new contents; or the old ones, where the new could not be read, or where the load
failed and the free value says so. -/
def renewed {α : Type} (failed : Bool) (free n : Nat) (old : α) (new : Option α) : α :=
  if failed && Config.keepsOld free n then old else new.getD old

/-- R268, R291, R434: one bank of a macro filled from its columns. -/
def Matrix.fillBank (m : Matrix) (code q p rows : Nat) (failed : Bool) (free : Nat) (cs : List Column) : Matrix :=
  { m with
    banks := Table.replace 0 m.banks (bankKey q p 0) 128 fun r =>
      renewed failed free r (Table.get m.banks (bankKey q p r) 0) (bankRow (cellBits code) rows r cs)
    side := Table.replace 0 m.side (sideKey q p 0 0) 2048 fun k =>
      renewed failed free (128 + k) (Table.get m.side (sideKey q p 0 k) 0)
        (if code = 0x10 then some 0 else sideEntry (bankBlocks code rows) k cs) }

/-- R290, R291: the banks of one core; `first` is its first column (R281). -/
def Dev.loadBanks (h : HostPart) (d : Dev) (o : MatrixOp) (engine core first : Nat) (b : FormatSlot) (v : Dword)
    (stride : Word) (macros : BitVec 4) (back : Bool) (rows : Nat) : Dev :=
  let code := b.format.toNat
  let nm := macroColumns code
  (List.range 4).foldl
    (fun (d : Dev) q =>
      if !macros.getLsbD q then d
      else
        let (cs, r) := (List.range nm).foldl
          (fun (s : List Column × ImageRead) c =>
            let x := s.2.column h o.slot engine b v stride.toNat rows (first + q * nm + c)
            (s.1 ++ [x.1], x.2)) ([], (⟨none, none, d⟩ : ImageRead))
        let p := bankOf (r.d.core core).matrix.roles q back
        let (free, d) := r.d.nextFree
        let failed := r.fault.isSome || r.poison.isSome
        let d := d.onMatrix core fun m => m.fillBank code q p rows failed free cs
        let d := if failed then d else (d.clearChip core 0 (bankKey q p 0 * 16) 2048).clearChip core 1 (sideKey q p 0 0) 2048
        let reported := (Table.find? d.ops o.op).any fun x => !x.faults.isEmpty
        let d := match r.fault with
          | some (kind, c, va) => if reported then d else d.faultOp o.op engine kind c 0 va 0 0 0
          | none => d
        match r.poison with
        | some (.uncorrectable va pa) => d.consumeOp h o.op va pa
        | some f => d.killOp h o.op f.va
        | none => d)
    d

/-- R288: a tile slot and its NaN counters are cleared; a restart state goes (R436). -/
def Dev.clearTile (tile : Nat) (d : Dev) (core : Nat) : Dev :=
  (d.clearChip core 2 (tileKey tile 0 0 / 2) 4096).onMatrix core fun m =>
    { m with
      tiles := Table.replace 0 m.tiles (tileKey tile 0 0) 8192 fun _ => 0
      nanc := Table.replace 0 m.nanc (nancKey tile 0) 16 fun _ => 0
      restart := none }

/-- R293: the words of a record of each kind, and the first word of record n. -/
def drainRecordWords (kind : Nat) : Nat :=
  match kind with
  | 0 => 16
  | 1 => 1
  | _ => 36

/-- Drain memory with words of a kind replaced. -/
def Matrix.setDrain (m : Matrix) (kind lo n : Nat) (f : Nat → Word) : Matrix :=
  match kind with
  | 0 => { m with programs := Table.replace 0 m.programs lo n f }
  | 1 => { m with constants := Table.replace 0 m.constants lo n f }
  | _ => { m with tables := Table.replace 0 m.tables lo n f }

/-- A word of drain memory. -/
def Matrix.drainWord (m : Matrix) (kind n : Nat) : Word :=
  match kind with
  | 0 => Table.get m.programs n 0
  | 1 => Table.get m.constants n 0
  | _ => Table.get m.tables n 0

/-- R293, R434, R459: a `dload`, which writes whole each unit of 64 bits that lies in its words. After a failed read each word
is old or new. -/
def Dev.loadDrain (h : HostPart) (d : Dev) (o : MatrixOp) (core : Nat) (src : Dword) (kind first count : Nat) : Dev :=
  let w := drainRecordWords kind
  match d.readVa h o.slot core src.toNat (count * w * 4) with
  | .ok (bs, d) =>
    let lo := first * w
    let first := (lo + 1) / 2
    let d := d.clearChip core (3 + Nat.min kind 2) first ((lo + count * w) / 2 - first)
    d.onMatrix core fun m => m.setDrain kind lo (count * w) fun i => BitVec.ofNat 32 (field bs (4 * i) 4)
  | .error (e, d) =>
    let (free, d) := d.nextFree
    let word := fun (i : Nat) => match d.readValue h o.slot core (src.toNat + 4 * i) 4 with
      | .ok (v, _) => some (BitVec.ofNat 32 v)
      | .error _ => none
    let d := d.onMatrix core fun m => m.setDrain kind (first * w) (count * w) fun i =>
      renewed true free i (m.drainWord kind (first * w + i)) (word i)
    match e with
    | .fault c va => d.faultOp o.op core 4 c 0 va 0 0 0
    | .uncorrectable va pa => d.consumeOp h o.op va pa
    | .lost va => d.killOp h o.op va

/-- R283: the first operation of an engine whose last effect can come about has it, and retires. -/
def execMatrixOperationRetire (core : Nat) (s : State) : Host.Outcome State Fault Refusal :=
  s.run fun h d =>
    match d.firstOp core fun o => o.phase == .finished || (o.loads && d.engineReady core o && match o.work with
        | .bswap _ _ => false
        | _ => true) with
    | none => d
    | some o =>
      let d := if o.phase == .finished then d else
        match o.work with
        | .bload v stride macros bslot back pair rows =>
          let b := d.opSlot o bslot
          (opCores core pair).mapIdx (fun n j => (j, n)) |>.foldl
            (fun (d : Dev) x => d.loadBanks h o core x.1 (x.2 * columnsOf b.format.toNat) b v stride macros back rows) d
        | .mclr tile pair => (opCores core pair).foldl (Dev.clearTile tile) d
        | .dload src kind first count => d.loadDrain h o core src kind first count
        | _ => d
      d.retireOp h core o.op

end Sys2Proof.Machine
end

