-- ==== Sys2Proof/Machine/CopyEngine.lean ====
section
/-! DEFINITION. The block-transfer engine of a core: the issue of `tcopy`, `tgather` and `tscatter`, the tensor
layout record, the movement of the data, and the completion rings (R304 to R320, R437, R438). -/

namespace Sys2Proof.Machine

open Sys2Proof

/-! ## Issue (R310 to R313) -/

/-- R137: the fields of a copy instruction, with its counter class (R310). -/
structure CopyFields where
  kl : Nat
  ksl : Nat
  out : Bool
  ring : Nat
  kc : Nat
  cv : Bool
  dslot : Nat
  ncoord : Nat
  tag : BitVec 16
  cls : Nat
  deriving DecidableEq, Repr

/-- The fields of a copy instruction; of another instruction, fields that name nothing. -/
def copyFields : Instr → CopyFields
  | .tcopy kl ksl out ring kc cv dslot ncoord tag =>
    ⟨kl.toNat, ksl.toNat, out, ring.toNat, kc.toNat, cv, dslot.toNat, ncoord.toNat, tag, 0⟩
  | .tgather kl ksl ring kc cv dslot ncoord tag =>
    ⟨kl.toNat, ksl.toNat, false, ring.toNat, kc.toNat, cv, dslot.toNat, ncoord.toNat, tag, 1⟩
  | .tscatter kl ksl ring kc cv dslot ncoord tag =>
    ⟨kl.toNat, ksl.toNat, true, ring.toNat, kc.toNat, cv, dslot.toNat, ncoord.toNat, tag, 1⟩
  | _ => ⟨0, 0, false, 0, 0, false, 0, 1, 0, 0⟩

/-- R313: the slot of a conversion holds a format that it may not. -/
def badDslot (f : CopyFields) (r : LaunchRecord) : Bool :=
  let c := (r.slot f.dslot).format.toNat
  f.cv && (sparseCode c || c == 0x05)

/-- R313: the checks of the two addresses. -/
def copyChecks (tlr slice : Dword) : List (BitVec 8 × Bool × Dword) :=
  [(0x0D, decide (2 ^ 57 ≤ tlr.toNat), tlr), (0x0D, decide (2 ^ 57 ≤ slice.toNat) || !inWindow slice.toNat, slice),
    (0x0B, tlr.toNat % 128 != 0, tlr), (0x0B, slice.toNat % 128 != 0, slice)]

/-- R311, R457: a command for the engine of a core, in its hold window. -/
def Dev.queueCopy (d : Dev) (i : Instr) (f : CopyFields) (p : Party) (team core : Nat) (pc : Va) (lanes : Mask)
    (deps : List Nat) (coords : List Word) (tlr slice : Dword) : Dev :=
  let (id, d) := d.fresh
  let launch := ((d.team? team).map Team.launch).getD 0
  (d.setOp id ⟨p, team, f.cls, id, pc, lanes, deps, false, 0, []⟩).setCopy id
    ⟨id, core, d.slotOf team, launch, 0, 0, .tile i coords tlr slice, f.ring, f.tag, false, none, true⟩

/-- R311: what a lane pops: f, and the coordinates, dimension 0 deepest. -/
def copyCells (n : Nat) (t : Thread) : Word × List Word :=
  let ws := (t.stack.take (n + 1)).map Cell.word
  (ws.headD 0, (ws.drop 1).reverse)

/-- R311: what a copy instruction asks of its split. -/
def copyNeed (f : CopyFields) : Need :=
  { Need.of 8 false (f.ncoord + 1) 0 with regs := [f.kl, f.kl + 1, f.ksl, f.ksl + 1] }

/-- R311: the threads of a split that lead, by lane. -/
def copyLeaders (f : CopyFields) (w : Warp) (s : Split) : List Thread :=
  (w.threadsOf s.mask).filter fun t => (copyCells f.ncoord t).1 != 0

/-- R311, R313: the commands of the leading lanes are queued. -/
def Dev.copyFromWarp (h : HostPart) (d : Dev) (i : Instr) (f : CopyFields) (r : LaunchRecord) (id : Nat) (w : Warp)
    (s : Split) : Dev :=
  let ls := copyLeaders f w s
  let n := ls.length
  let tlr := kGet64 w.k f.kl
  let slice := kGet64 w.k f.ksl
  if badDslot f r then d.raise h id s 0x01 s.mask 0 0
  else if n != 0 && !d.resolved id w s (.room f.cls n) then d.block id (.room f.cls n)
  else
    match firstBad (if n = 0 then [] else copyChecks tlr slice) with
    | some (cause, va) => d.raise h id s cause (maskOf (ls.map Thread.lane)) va 0
    | none =>
      let deps := d.warpEarlier id w
      let d := ls.foldl (fun d t => d.queueCopy i f (.warp id) w.team w.core s.pc (laneBit t.lane) deps
        (copyCells f.ncoord t).2 tlr slice) d
      d.commit id
        { w.onLanes s.mask fun t => t.onStack fun st => st.drop (f.ncoord + 1) with
            cnt := putAt 0 w.cnt f.cls (cntGet w.cnt f.cls + n) }
        (s.after (copyNeed f))

/-- R312, R313: the command of a front-end context. -/
def Dev.copyFromFet (h : HostPart) (d : Dev) (i : Instr) (f : CopyFields) (r : LaunchRecord) (id : Nat) (c : Fet) : Dev :=
  let tlr := kGet64 c.k f.kl
  let slice := kGet64 c.k f.ksl
  if badDslot f r then d.fetTrap h id 0x01 0 c.pc 0 []
  else if 255 ≤ cntGet c.cnt f.cls || decide (32 ≤ d.slotsUsed c.core) then d.stall id (.room f.cls 1)
  else
    match firstBad (copyChecks tlr slice) with
    | some (cause, va) => d.fetTrap h id cause 0 c.pc va []
    | none =>
      let coords := (List.range f.ncoord).map fun n => kGet c.k (f.kc + n)
      (d.queueCopy i f (.fet id) c.team c.core c.pc 0 (d.earlier (.fet id) 0) coords tlr slice).commitFet id
        { c with cnt := cntUp c.cnt f.cls } 8

/-- R310 to R313: a copy instruction issues: its place and its fields are checked first, and its slot with its values. -/
def Dev.issueCopy (h : HostPart) (d : Dev) (i : Instr) : Dev :=
  let f := copyFields i
  match (d.partyTeam d.issuer).bind d.launchOf with
  | none => d
  | some l =>
    match d.issuer with
    | .warp _ =>
      if f.kc != 0 then d.misplaced h
      else d.issueWarp h (copyNeed f) fun id w s => d.copyFromWarp h i f l.record id w s
    | .fet id =>
      if 64 < f.kc + f.ncoord then d.misplaced h
      else
        match Table.find? d.fets id with
        | none => d
        | some c =>
          let regs := [f.kl, f.kl + 1, f.ksl, f.ksl + 1] ++ (List.range f.ncoord).map (f.kc + ·)
          if c.kld.any fun e => regs.contains e.1 then d.stall id (.registers regs) else d.copyFromFet h i f l.record id c
    | _ => d

def execTcopy (kl ksl : BitVec 6) (out : Bool) (ring : BitVec 3) (kc : BitVec 6) (cv : Bool) (dslot ncoord : BitVec 3)
    (tag : BitVec 16) (s : State) : Host.Outcome State Fault Refusal :=
  s.run fun h d => d.issueCopy h (.tcopy kl ksl out ring kc cv dslot ncoord tag)
def execTgather (kl ksl : BitVec 6) (ring : BitVec 3) (kc : BitVec 6) (cv : Bool) (dslot ncoord : BitVec 3)
    (tag : BitVec 16) (s : State) : Host.Outcome State Fault Refusal :=
  s.run fun h d => d.issueCopy h (.tgather kl ksl ring kc cv dslot ncoord tag)
def execTscatter (kl ksl : BitVec 6) (ring : BitVec 3) (kc : BitVec 6) (cv : Bool) (dslot ncoord : BitVec 3)
    (tag : BitVec 16) (s : State) : Host.Outcome State Fault Refusal :=
  s.run fun h d => d.issueCopy h (.tscatter kl ksl ring kc cv dslot ncoord tag)

/-! ## The tensor layout record (R304, R308, R309) -/

/-- R304: the fields of a TLR. `stride` has one entry for each dimension; that of dimension 0 is 0. -/
structure Layout where
  rank : Nat
  mode : Nat
  fslot : Nat
  rlog : Nat
  pad : Nat
  base : Dword
  dim : List Nat
  stride : List Int
  box : List Nat
  reserved : Nat
  ringBase : Nat
  area : List Byte
  deriving DecidableEq, Repr

/-- R304. -/
def readLayout (bs : List Byte) : Layout where
  rank := field bs 0 1
  mode := field bs 1 1
  fslot := field bs 2 1
  rlog := field bs 3 1
  pad := field bs 4 4
  base := BitVec.ofNat 64 (field bs 8 8)
  dim := (List.range 6).map fun k => field bs (16 + 4 * k) 4
  stride := 0 :: (List.range 5).map fun k => (BitVec.ofNat 64 (field bs (40 + 8 * k) 8)).toInt
  box := (List.range 6).map fun k => field bs (80 + 2 * k) 2
  reserved := field bs 92 4
  ringBase := field bs 96 8
  area := slice bs 104 24

/-- R304: the fields of the completion rings. -/
def Layout.ringOk (l : Layout) : Bool := decide (1 ≤ l.rlog) && decide (l.rlog ≤ 8) && l.ringBase % 32 == 0

/-- R304: the shape. -/
def Layout.shapeOk (l : Layout) : Bool :=
  decide (1 ≤ l.rank) && decide (l.rank ≤ 6) && decide (l.fslot < 8) && l.reserved == 0 &&
    l.dim.all (fun n => n != 0) && l.box.all (fun n => n != 0) &&
    (l.dim.drop l.rank).all (fun n => n == 1) && (l.box.drop l.rank).all (fun n => n == 1) &&
    (l.stride.drop l.rank).all fun n => n == 0

/-- R308: the parameters of im2col mode. -/
structure Im2col where
  sw : Nat
  sh : Nat
  pw : Int
  ph : Int
  fw : Nat
  fh : Nat
  ow : Nat
  oh : Nat
  deriving DecidableEq, Repr

/-- R308. -/
def Layout.im2col (l : Layout) : Im2col where
  sw := field l.area 0 2
  sh := field l.area 2 2
  pw := (BitVec.ofNat 16 (field l.area 4 2)).toInt
  ph := (BitVec.ofNat 16 (field l.area 6 2)).toInt
  fw := field l.area 8 2
  fh := field l.area 10 2
  ow := field l.area 12 4
  oh := field l.area 16 4

/-- R309: the index list and its length. -/
def Layout.listVa (l : Layout) : Nat := field l.area 0 8
def Layout.listCount (l : Layout) : Nat := field l.area 8 4

/-- A copy as its command carries it out. `rows` gives, in indexed mode, the tensor row of each box row that is
in range. -/
structure CopyJob where
  into : Bool
  fields : CopyFields
  lay : Layout
  tensor : FormatSlot
  slice : FormatSlot
  coords : List Int
  tlr : Dword
  base : Dword
  rows : List (Option Nat)
  deriving DecidableEq, Repr

/-- R307: coordinates that the command does not carry are 0. -/
def copyCoords (cs : List Word) : List Int := (List.range 6).map fun k => ((cs.getD k 0).toInt)

/-- R306, R315: the job of a command, given the slots of its launch. -/
def copyJob (r : LaunchRecord) (i : Instr) (coords : List Word) (tlr base : Dword) (lay : Layout) : CopyJob :=
  let f := copyFields i
  let tensor := r.slot lay.fslot
  ⟨!f.out, f, lay, tensor, if f.cv then r.slot f.dslot else tensor, copyCoords coords, tlr, base, []⟩

/-- R305, R307: the format of the source, and of the destination. -/
def CopyJob.source (j : CopyJob) : FormatSlot := if j.into then j.tensor else j.slice
def CopyJob.dest (j : CopyJob) : FormatSlot := if j.into then j.slice else j.tensor

/-- R305: the bits of an element as a copy moves it. -/
def copyWidth (code : Nat) : Nat := if sparseCode code then 1024 else elementBits code

/-- R304, R306: the payload bytes of `n` elements laid out densely. -/
def copyBytes (f : FormatSlot) (n : Nat) : Nat :=
  match denseSlot f with
  | some m => n / 32 * payloadBytes m
  | none => (n * copyWidth f.format.toNat + 7) / 8

/-- The elements of the box. -/
def Layout.count (l : Layout) : Nat := l.box.foldl (· * ·) 1

/-- R307 to R309: the mode is one that the instruction accepts, and its parameters are right. -/
def CopyJob.modeOk (j : CopyJob) : Bool :=
  let l := j.lay
  match l.mode with
  | 0 => j.fields.cls == 0 && l.area.all fun b => b == 0
  | 1 =>
    let p := l.im2col
    j.fields.cls == 0 && j.into && l.rank == 4 && l.box.getD 2 0 == 1 && l.box.getD 3 0 == 1 && j.fields.ncoord == 3 &&
      p.sw != 0 && p.sh != 0 && p.fw != 0 && p.fh != 0 && p.ow != 0 && p.oh != 0 && field l.area 20 4 == 0 &&
      decide (j.coords.getD 2 0 < (p.fw * p.fh : Nat))
  | 2 => j.fields.cls == 1 && field l.area 12 12 == 0
  | _ => false

/-- R305, R307, R315: the rules of the block formats. -/
def CopyJob.blocksOk (j : CopyJob) : Bool :=
  let box := j.lay.box.getD 0 0
  !(j.fields.cv && sparseCode j.tensor.format.toNat) &&
    (match denseSlot j.tensor with
    | some m => j.coords.getD 0 0 % 32 == 0 && box % 32 == 0 && j.lay.stride.all fun s => s % (payloadBytes m : Nat) == 0
    | none => true) &&
    ((denseSlot j.slice).isNone || box % 32 == 0)

/-- R304: the layout breaks no rule of R304 to R309. -/
def CopyJob.ok (j : CopyJob) : Bool :=
  j.lay.ringOk && j.lay.shapeOk && j.modeOk && j.blocksOk && decide (copyBytes j.dest j.lay.count ≤ 0x400000)

/-- R437: the VA of a layout fault: that of the list, where only its alignment is at fault, or of the TLR. -/
def CopyJob.layoutFault (j : CopyJob) : Option Nat :=
  if !j.ok then some j.tlr.toNat
  else if j.lay.mode = 2 && j.lay.listVa % 4 != 0 then some j.lay.listVa
  else none

/-- R437: the lowest VA of the slice box outside the slice. -/
def CopyJob.rangeFault (j : CopyJob) : Option Nat :=
  let core := windowCore j.base.toNat
  let n := j.lay.count
  let a := outsideSlice core j.base (copyBytes j.slice n)
  let b := if (denseSlot j.slice).isSome then outsideSlice core (j.base + j.slice.expStride) (n / 32 * 2) else none
  match a, b with
  | some a, some b => some (Nat.min a.toNat b.toNat)
  | some a, none => some a.toNat
  | none, some b => some b.toNat
  | none, none => none

/-! ## Elements and their places (R305 to R309) -/

/-- Where a box element lies in the tensor: at coordinates, or in none: clipped; a pad of im2col; or a zero
element of im2col. -/
inductive Spot where
  | inside (i : List Int)
  | clipped
  | padded
  | zero
  deriving DecidableEq, Repr

/-- R306: the box coordinates of the element at a linear position. -/
def boxAt : List Nat → Nat → List Nat
  | [], _ => []
  | b :: bs, n => n % b :: boxAt bs (n / b)

/-- R307: each coordinate lies in its dimension. -/
def inDims (dim : List Nat) (i : List Int) : Bool := (dim.zip i).all fun (x : Nat × Int) => decide (0 ≤ x.2) && decide (x.2 < x.1)

/-- R307: coordinates and box coordinates added. -/
def addBox (cs : List Int) (j : List Nat) : List Int := (cs.zip j).map fun (x : Int × Nat) => x.1 + x.2

/-- R308: only x, y and the channel can lie in the padding. -/
def CopyJob.im2colSpot (job : CopyJob) (j : List Nat) : Spot :=
  let p := job.lay.im2col
  let q : Int := job.coords.getD 1 0 + (j.getD 1 0 : Nat)
  let tap := job.coords.getD 2 0
  let n := q / (p.ow * p.oh : Nat)
  let oy := q / (p.ow : Nat) % (p.oh : Nat)
  let ox := q % (p.ow : Nat)
  let x := ox * (p.sw : Nat) - p.pw + tap % (p.fw : Nat)
  let y := oy * (p.sh : Nat) - p.ph + tap / (p.fw : Nat)
  let c : Int := job.coords.getD 0 0 + (j.getD 0 0 : Nat)
  if (job.lay.dim.getD 3 0 : Int) ≤ n then .zero
  else if inDims job.lay.dim [c, x, y] then .inside [c, x, y, n]
  else .padded

/-- R307 to R309. -/
def CopyJob.spot (job : CopyJob) (e : Nat) : Spot :=
  let j := boxAt job.lay.box e
  match job.lay.mode with
  | 1 => job.im2colSpot j
  | 2 =>
    match job.rows.getD (j.getD 1 0) none with
    | none => .clipped
    | some v =>
      let i := (addBox job.coords j).set 1 v
      if inDims job.lay.dim i then .inside i else .clipped
  | _ =>
    let i := addBox job.coords j
    if inDims job.lay.dim i then .inside i else .clipped

/-- R305: an element's byte address, its position in the byte or block there, and its block's exponents. -/
structure ElementPlace where
  va : Dword
  pos : Nat
  exps : Dword
  deriving DecidableEq, Repr

/-- R305. -/
def elementPlace (f : FormatSlot) (base : Dword) (i0 : Nat) (off : Int) : ElementPlace :=
  match denseSlot f with
  | some m =>
    let p := payloadBytes m
    let rel : Int := (i0 / 32 * p : Nat) + off
    ⟨base + BitVec.ofInt 64 rel, i0 % 32, base + f.expStride + BitVec.ofInt 64 (2 * (rel / (p : Nat)))⟩
  | none =>
    if copyWidth f.format.toNat = 4 then ⟨base + BitVec.ofInt 64 ((i0 / 2 : Nat) + off), i0 % 2, 0⟩
    else ⟨base + BitVec.ofInt 64 ((i0 * (copyWidth f.format.toNat / 8) : Nat) + off), 0, 0⟩

/-- R305: the place of a tensor element. -/
def CopyJob.tensorPlace (job : CopyJob) (i : List Int) : ElementPlace :=
  let off := ((i.zip job.lay.stride).map fun (x : Int × Int) => x.1 * x.2).foldl (· + ·) 0
  elementPlace job.tensor job.lay.base (i.headD 0).toNat off

/-- R306: the place of a box element in the slice. -/
def CopyJob.slicePlace (job : CopyJob) (e : Nat) : ElementPlace := elementPlace job.slice job.base e 0

/-! ## Moving the data (R314 to R316) -/

/-- An element as it is read: its bits, and its block's exponents. -/
structure RawElement where
  bits : Nat
  e0 : Nat
  e1 : Nat
  deriving DecidableEq, Repr

/-- R423: the size of a copy's access to an element, of which its address is a multiple. DEDUCED
(notes/assumptions/30.md): a block's payload and its exponents ask no alignment; R93 lets blocks follow one another with
no gap. -/
def elementAlign (f : FormatSlot) : Nat :=
  if (denseSlot f).isSome then 1 else Nat.max 1 (copyWidth f.format.toNat / 8)

/-- R423: why an element cannot lie at an address. -/
def badPlace (f : FormatSlot) (va : Nat) : Option Failure :=
  if 2 ^ 57 ≤ va then some (.fault faultAddress va)
  else if va % elementAlign f ≠ 0 then some (.fault faultMisaligned va)
  else none

/-- An element of a format is read. -/
def Dev.readElement (h : HostPart) (d : Dev) (slot core : Nat) (f : FormatSlot) (p : ElementPlace) : Reached RawElement :=
  match badPlace f p.va.toNat with
  | some e => .error (e, d)
  | none =>
  match denseSlot f with
  | some m =>
    match d.readValue h slot core p.va.toNat (payloadBytes m) with
    | .error e => .error e
    | .ok (v, d) =>
      match d.readValue h slot core p.exps.toNat 2 with
      | .error e => .error e
      | .ok (x, d) => .ok (⟨streamElement (m + 2) p.pos v, x % 256, x / 256⟩, d)
  | none =>
    let w := copyWidth f.format.toNat
    match d.readValue h slot core p.va.toNat ((w + 7) / 8) with
    | .error e => .error e
    | .ok (v, d) => .ok (⟨if w = 4 then v / 16 ^ p.pos % 16 else v, 0, 0⟩, d)

/-- R92, R315: the value of an element, under its slot's NaN-as-zero. -/
def rawValue (f : FormatSlot) (r : RawElement) : FpNum :=
  let x := match denseSlot f with
    | some m => blockValue m r.e0 r.e1 r.bits
    | none => elementValue f.format.toNat r.bits
  if f.naz && x.isNan then .zero else x

/-- R89, R90, R315: an element converted to a format that is not a block format. -/
def convertRaw (src dst : FormatSlot) (r : RawElement) : Nat × Flags :=
  let out := (laneTypeOf dst.format.toNat).getD 0
  let (v, fl) := match denseSlot src with
    | some m =>
      convertLane 0 out dst.round dst.sat src.naz
        (BitVec.ofNat 64 (fmtFp32.round 0 false (blockValue m r.e0 r.e1 r.bits)).1)
    | none =>
      convertLane ((laneTypeOf src.format.toNat).getD 0) out dst.round dst.sat src.naz (BitVec.ofNat 64 r.bits)
  (v.toNat % 2 ^ elementBits dst.format.toNat, fl)

/-- An element of the box with its spot and what was read of it. -/
structure Moved where
  e : Nat
  spot : Spot
  raw : Option RawElement
  deriving DecidableEq, Repr

/-- The elements of one destination item are read. -/
def CopyJob.readItem (h : HostPart) (job : CopyJob) (slot core : Nat) : List Nat → Dev → Reached (List Moved)
  | [], d => .ok ([], d)
  | e :: es, d =>
    let spot := job.spot e
    let read : Reached (Option RawElement) := match spot with
      | .inside i =>
        match d.readElement h slot core job.source (if job.into then job.tensorPlace i else job.slicePlace e) with
        | .error f => .error f
        | .ok (r, d) => .ok (some r, d)
      | _ => .ok (none, d)
    match read with
    | .error f => .error f
    | .ok (r, d) =>
      match CopyJob.readItem h job slot core es d with
      | .error f => .error f
      | .ok (ms, d) => .ok (⟨e, spot, r⟩ :: ms, d)

/-- R307, R308: the bits that stand where no element was read. -/
def CopyJob.fillBits (job : CopyJob) (w : Nat) : Spot → Nat
  | .clipped => if job.into then job.lay.pad % 2 ^ w else 0
  | .padded => job.lay.pad % 2 ^ w
  | _ => 0

/-- The place that a moved element is written to. -/
def CopyJob.destPlace (job : CopyJob) (m : Moved) : Option ElementPlace :=
  if job.into then some (job.slicePlace m.e)
  else
    match m.spot with
    | .inside i => some (job.tensorPlace i)
    | _ => none

/-- R307, R315: the block that a run of 32 elements gives, with its flags; none where nothing is written. -/
def CopyJob.block (job : CopyJob) (mb : Nat) (ms : List Moved) : Option (List Nat × Nat × Nat × Flags) :=
  match (ms.filterMap Moved.raw).head? with
  | none => if job.into then some (List.replicate 32 0, 0, 0, 0) else none
  | some r =>
    if job.fields.cv then
      let b := blockEncode job.dest mb (ms.map fun m => (m.raw.map (rawValue job.source)).getD .zero)
      let fl := ((ms.zip b.flags).filter fun (x : Moved × Flags) => x.1.raw.isSome).foldl
        (fun (a : Flags) x => a ||| x.2) 0
      some (b.elements, b.e0, b.e1, fl)
    else some (ms.map fun m => (m.raw.map RawElement.bits).getD (job.fillBits (mb + 2) m.spot), r.e0, r.e1, 0)

/-- R307, R315: the bits that an element is written as, with its flags. -/
def CopyJob.elementBitsOf (job : CopyJob) (m : Moved) : Nat × Flags :=
  match m.raw with
  | none => (job.fillBits (copyWidth job.dest.format.toNat) m.spot, 0)
  | some r => if job.fields.cv then convertRaw job.source job.dest r else (r.bits, 0)

/-- R86: the byte that holds nibbles, of which some are written and the others stay. -/
def nibbleByte (old : Byte) (ns : List (Nat × Nat)) : Byte :=
  let at_ := fun (p : Nat) (x : Nat) => ((ns.find? fun n => n.1 == p).map Prod.snd).getD x
  BitVec.ofNat 8 (at_ 0 (old.toNat % 16) + 16 * at_ 1 (old.toNat / 16))

/-- The byte that stands where a copy writes a nibble. -/
def Dev.oldByte (h : HostPart) (d : Dev) (slot core va : Nat) : Byte :=
  match d.reach h slot core va .write with
  | (.ok pa, d) => Memory.read d.mem pa
  | (.error _, _) => 0

/-- R305 to R307: what one item writes, and its flags. -/
def CopyJob.stores (h : HostPart) (job : CopyJob) (d : Dev) (slot core : Nat) (ms : List Moved) :
    List (Dword × List Byte) × Flags :=
  match (ms.filterMap job.destPlace).head? with
  | none => ([], 0)
  | some p =>
    match denseSlot job.dest with
    | some mb =>
      match job.block mb ms with
      | none => ([], 0)
      | some (els, e0, e1, fl) =>
        ([(p.va, leBytes (payloadBytes mb) (packStream (mb + 2) els)), (p.exps, [BitVec.ofNat 8 e0, BitVec.ofNat 8 e1])], fl)
    | none =>
      let w := copyWidth job.dest.format.toNat
      let vs := ms.filterMap fun m => (job.destPlace m).map fun q => (q.pos, job.elementBitsOf m)
      let fl := vs.foldl (fun (a : Flags) v => a ||| v.2.2) 0
      if w = 4 then
        ([(p.va, [nibbleByte (d.oldByte h slot core p.va.toNat) (vs.map fun v => (v.1, v.2.1))])], fl)
      else ([(p.va, leBytes (w / 8) ((vs.head?.map fun v => v.2.1).getD 0))], fl)

/-- How far a copy has come: its flags, the elements that count as clipped, whether one of them was written (R437), whether
an element took the pad pattern in im2col mode, the bytes written, and its failure. -/
structure CopyRun where
  d : Dev
  flags : Flags
  clipped : Nat
  wroteClipped : Bool
  padded : Bool
  bytes : Nat
  stop : Option Failure

/-- The writes of an item of a format, in order. -/
def CopyRun.put (h : HostPart) (slot core : Nat) (f : FormatSlot) : List (Dword × List Byte) → CopyRun → CopyRun
  | [], r => r
  | (va, bs) :: ws, r =>
    match badPlace f va.toNat with
    | some e => { r with stop := some e }
    | none =>
      match r.d.writeVa h slot core va.toNat bs with
      | .error (e, d) => { r with d := d, stop := some e }
      | .ok d => CopyRun.put h slot core f ws { r with d := d, bytes := r.bytes + bs.length }

/-- One item of a copy; after a failure none. -/
def CopyJob.item (h : HostPart) (job : CopyJob) (slot core : Nat) (r : CopyRun) (es : List Nat) : CopyRun :=
  if r.stop.isSome then r
  else
    match job.readItem h slot core es r.d with
    | .error (f, d) => { r with d := d, stop := some f }
    | .ok (ms, d) =>
      let (ws, fl) := job.stores h d slot core ms
      let r := CopyRun.put h slot core job.dest ws { r with d := d }
      if r.stop.isSome then r
      else
        let clips := (ms.filter fun m => m.spot == .clipped || m.spot == .zero).length
        { r with
          flags := r.flags ||| fl
          clipped := r.clipped + clips
          wroteClipped := r.wroteClipped || (clips != 0 && !ws.isEmpty && (job.into || (denseSlot job.dest).isSome))
          padded := r.padded || ms.any fun m => m.spot == .padded }

/-- The box elements that are written together: the run of a block, the nibbles of a byte, or one element. -/
def CopyJob.itemOf (job : CopyJob) (e : Nat) : Nat × Nat :=
  if (denseSlot job.dest).isSome then (0, e / 32)
  else if copyWidth job.dest.format.toNat = 4 then
    if job.into then (0, e / 2)
    else
      let b := job.lay.box.getD 0 1
      (e / b, (e % b + (job.coords.getD 0 0 % 2).toNat) / 2)
  else (0, e)

/-- The items of a copy, in ascending position. -/
def CopyJob.items (job : CopyJob) : List (List Nat) :=
  (List.range job.lay.count).splitBy fun a b => job.itemOf a == job.itemOf b

/-- R309, R314: what the free order of the items goes by: the item's first element; for `tscatter` the tensor
elements that it names, so that the rows of one tensor row are written in ascending j1. -/
def CopyJob.orderName (job : CopyJob) (es : List Nat) : Nat :=
  let e := es.headD 0
  if job.lay.mode = 2 && !job.into then
    let j := boxAt job.lay.box e
    match job.rows.getD (j.getD 1 0) none with
    | none => e
    | some v =>
      let strides := (job.lay.box.foldl (fun (a : Nat × List Nat) b => (a.1 * b, a.2 ++ [a.1])) (1, [])).2
      ((j.set 1 0).zip strides).foldl (fun n x => n + x.1 * x.2) 0 + (v + 1) * 2 ^ 32
  else e

/-- An item put in its place by key, after those of the same key. -/
def insertKeyed {α : Type} (k : Nat) (a : α) : List (Nat × α) → List (Nat × α)
  | [] => [(k, a)]
  | (m, b) :: xs => if k < m then (k, a) :: (m, b) :: xs else (m, b) :: insertKeyed k a xs

/-- Items by ascending key; those of one key in their order. -/
def byKey {α : Type} (key : α → Nat) (xs : List α) : List α :=
  (xs.foldl (fun acc a => insertKeyed (key a) a acc) []).map Prod.snd

/-- R309: the tensor row of each box row, none for a row that is out of range. -/
def CopyJob.readRows (h : HostPart) (job : CopyJob) (slot core : Nat) : List Nat → Dev → Reached (List (Option Nat))
  | [], d => .ok ([], d)
  | j :: js, d =>
    let n : Int := job.coords.getD 1 0 + (j : Nat)
    let read : Reached (Option Nat) := if 0 ≤ n && decide (n < (job.lay.listCount : Nat)) then
        match d.readValue h slot core (BitVec.ofNat 64 (job.lay.listVa + 4 * n.toNat)).toNat 4 with
        | .error f => .error f
        | .ok (v, d) => .ok (if v < job.lay.dim.getD 1 0 then some v else none, d)
      else .ok (none, d)
    match read with
    | .error f => .error f
    | .ok (r, d) =>
      match CopyJob.readRows h job slot core js d with
      | .error f => .error f
      | .ok (rs, d) => .ok (r :: rs, d)

/-- R314: the data moves, in an order that is free. -/
def CopyJob.move (h : HostPart) (job : CopyJob) (slot core : Nat) (d : Dev) : CopyRun :=
  let (seed, d) := d.nextFree
  let start := fun (d : Dev) => (⟨d, 0, 0, false, false, 0, none⟩ : CopyRun)
  match (if job.lay.mode = 2 then job.readRows h slot core (List.range (job.lay.box.getD 1 0)) d else .ok ([], d)) with
  | .error (f, d) => { start d with stop := some f }
  | .ok (rows, d) =>
    let job := { job with rows := rows }
    (byKey (fun es => Config.copyKey seed (job.orderName es)) job.items).foldl (job.item h slot core) (start d)

/-! ## Completion (R317 to R320, R437) -/

/-- R437: how a copy ends. `ring` gives ring_base and rlog, where a record can be written. -/
structure CopyEnd where
  d : Dev
  status : Nat
  code : Nat
  va : Nat
  flags : Flags
  clipped : Nat
  rflags : Nat
  bytes : Nat
  ring : Option (Nat × Nat)

/-- R437: the status, fault code and VA of a failure; one of the page walker or the memory manager ends the context with the
copy (R460). -/
def Failure.status : Failure → Nat × Nat × Nat
  | .fault code va => (3, code, va)
  | .uncorrectable va _ => (4, 0, va)
  | .lost va => (4, 0, va)

/-- R437: a copy that moves no element. -/
def CopyEnd.early (d : Dev) (status code va : Nat) (ring : Option (Nat × Nat)) : CopyEnd := ⟨d, status, code, va, 0, 0, 0, 0, ring⟩

/-- R437: how a copy whose data has moved, or could not, ends. -/
def CopyRun.ended (r : CopyRun) (ring : Nat × Nat) : CopyEnd :=
  let (status, code, va) := match r.stop with
    | none => (0, 0, 0)
    | some f => f.status
  let clip := if r.stop.isNone then r.clipped != 0 else r.wroteClipped
  ⟨r.d, status, code, va, r.flags, r.clipped, clip.toNat + 2 * r.padded.toNat, r.bytes, some ring⟩

/-- R437, R460: a copy carried out; or the address at which the page walker or the memory manager met an uncorrectable word, and
the device then. -/
def CopyJob.run (h : HostPart) (job : CopyJob) (slot core : Nat) (d : Dev) : Except (Nat × Dev) CopyEnd :=
  if !job.lay.ringOk then .ok (.early d 1 0 job.tlr.toNat none)
  else
    let ring := (job.lay.ringBase, job.lay.rlog)
    match job.layoutFault, job.rangeFault with
    | some va, _ => .ok (.early d 1 0 va (some ring))
    | none, some va => .ok (.early d 2 0 va (some ring))
    | none, none =>
      let r := job.move h slot core d
      match r.stop with
      | some (.lost va) => .error (va, r.d)
      | _ => .ok (r.ended ring)

/-- R318: a completion record. -/
def completionRecord (tag : BitVec 16) (status rflags index bytes detail time : Nat) : List Byte :=
  leBytes 4 tag.toNat ++ leBytes 1 status ++ leBytes 1 rflags ++ leBytes 2 (index % 65535 + 1) ++ leBytes 8 bytes ++
    leBytes 8 detail ++ leBytes 8 time

/-- R317, R319: a record goes into a team's ring, and the write index rises; and the failure where the write is refused
(R437). DESIGN CHOICE (notes/assumptions/30.md): the index rises also for a record that
is refused and discarded; R317 and R437 leave that open. -/
def Dev.pushRecord (h : HostPart) (d : Dev) (slot core team ring ringBase rlog : Nat) (record : Nat → List Byte) :
    Dev × Option Failure :=
  match d.team? team with
  | none => (d, none)
  | some t =>
    let index := t.rings.getD ring 0
    let va := (BitVec.ofNat 64 (ringBase + ((8 * t.index + ring) * 2 ^ rlog + index % 2 ^ rlog) * 32)).toNat
    let d := d.onTeam team fun t => { t with rings := putAt 0 t.rings ring (index + 1) }
    match d.writeVa h slot core va (record index) with
    | .ok d => (d, none)
    | .error (f, d) => (d, some f)

/-- R318: the detail field. -/
def detailOf (status code va clipped : Nat) : Nat := if status = 0 then clipped else code * 2 ^ 57 + va % 2 ^ 57

/-- R437: the fault that a copy's issuer takes, if any. -/
def copyFault (tag : BitVec 16) (status code va : Nat) (recorded : Bool) (time : Nat) : List EngineFault :=
  if status = 0 && recorded then []
  else [⟨0x14, engineRecord (if recorded then 8 else 9) code status 0 tag.toNat va 0 0 0 time⟩]

/-- R320: the operation is complete. -/
def Dev.endOp (h : HostPart) (d : Dev) (id : Nat) (flags : Flags) (faults : List EngineFault) : Dev :=
  { d with ops := Table.modify d.ops id fun o =>
      { o with done := true, flags := o.flags ||| flags, faults := o.faults ++ faults } }.settle h

/-- R318, R437: a copy's record is written, and its slot freed. -/
def CopyEnd.finish (h : HostPart) (e : CopyEnd) (id : Nat) (c : Copy) (o : EngineOp) : Dev :=
  let fet := match o.party with
    | .fet _ => 4
    | _ => 0
  let time := e.d.clockOf c.core
  let (d, refused) := match e.ring with
    | none => (e.d, some (Failure.fault e.code e.va))
    | some (base, rlog) =>
      e.d.pushRecord h c.slot c.core o.team c.ring base rlog fun index =>
        completionRecord c.tag e.status (e.rflags + fet) index e.bytes (detailOf e.status e.code e.va e.clipped) time
  match e.ring, refused with
  | some _, some (.lost va) => d.killOp h id va
  | _, _ =>
    let (status, code, va) := match e.ring, refused with
      | some _, some f => (3, f.status.2)
      | _, _ => (e.status, e.code, e.va)
    { d with copies := Table.erase d.copies id }.endOp h id e.flags (copyFault c.tag status code va refused.isNone time)

/-- R232, R304, R457: a command starts once it has left its hold window and what its issuer did before has performed, and
reads its TLR; one whose TLR cannot be read is over (R437). -/
def execCopyCommandStart (command : Nat) (s : State) : Host.Outcome State Fault Refusal :=
  s.run fun h d =>
    match Table.find? d.copies command, Table.find? d.ops command with
    | some c, some o =>
      if c.started || c.held || !d.allPerformed o.deps then d
      else
        match c.work with
        | .tile _ _ tlr _ =>
          match d.readVa h c.slot c.core tlr.toNat 128 with
          | .ok (bs, d) => d.setCopy command { c with started := true, layout := some bs }
          | .error (.lost va, d) => d.killOp h command va
          | .error (f, d) => (CopyEnd.early d 3 f.status.2.1 tlr.toNat none).finish h command c o
        | .bytes _ _ _ => d
    | some c, none => d.setCopy command { c with started := true }
    | _, _ => d

/-! ## COPY of a command stream (R107) -/

/-- Bytes are copied one after another; the failure of the first that cannot be. -/
def Dev.copyBytesFrom (h : HostPart) (slot core : Nat) (src dst : Dword) : List Nat → Dev → Dev × Option Failure
  | [], d => (d, none)
  | n :: ns, d =>
    let off := BitVec.ofNat 64 n
    match d.readVa h slot core (src + off).toNat 1 with
    | .error (f, d) => (d, some f)
    | .ok (bs, d) =>
      match d.writeVa h slot core (dst + off).toNat bs with
      | .error (f, d) => (d, some f)
      | .ok d => Dev.copyBytesFrom h slot core src dst ns d

/-- R107, R108, R116: a COPY moves its bytes, in an order that is free, and its node completes. An uncorrectable word, which
the command processor consumes, kills the context (R460). -/
def Dev.finishByteCopy (h : HostPart) (d : Dev) (id : Nat) (c : Copy) (src dst count : Dword) : Dev :=
  let (seed, d) := d.nextFree
  let (d, bad) := Dev.copyBytesFrom h c.slot c.core src dst (byKey (Config.copyKey seed) (List.range count.toNat)) d
  let d := { d with copies := Table.erase d.copies id }
  let done := fun (d : Dev) => (d.nodeDone c.graph c.node).settle h
  match bad with
  | none => done d
  | some f => d.unreadable h c.slot f fun d => done (d.failNode h c.graph c.node 0x08 0)

/-- R314, R319, R437: a command completes, in any order among the commands of an engine. -/
def execCopyCommandComplete (command : Nat) (s : State) : Host.Outcome State Fault Refusal :=
  s.run fun h d =>
    match Table.find? d.copies command with
    | none => d
    | some c =>
      if !c.started then d
      else
        match c.work with
        | .bytes src dst count => d.finishByteCopy h command c src dst count
        | .tile i coords tlr base =>
          match Table.find? d.ops command, d.launch? c.launch with
          | some o, some l =>
            match (copyJob l.record i coords tlr base (readLayout (c.layout.getD []))).run h c.slot c.core d with
            | .ok e => e.finish h command c o
            | .error (va, d) => d.killOp h command va
          | _, _ => d

end Sys2Proof.Machine
end

