-- ==== Sys2Proof/Machine/Queues.lean ====
section
/-! DEFINITION. Bounded queues between stages: `qpush`, `qpop`, `qeos` and `qtry`, and what a queue unit does with a
request or a handover mark (R330 to R336, R338, R444). -/

namespace Sys2Proof.Machine

open Sys2Proof

/-! ## Queues by name -/

/-- The stage set of a launch. -/
def Dev.stages? (d : Dev) (launch : Nat) : Option StageSet := (d.launch? launch).bind Launch.stages

/-- The stage set of a launch changed. -/
def Dev.onStages (d : Dev) (launch : Nat) (f : StageSet → StageSet) : Dev :=
  d.onLaunch launch fun l => { l with stages := l.stages.map f }

/-- A queue of a launch. -/
def Dev.queue (d : Dev) (launch q : Nat) : Queue := ((d.stages? launch).map fun ss => nth ss.queues q Queue.none).getD Queue.none

/-- A queue of a launch changed. -/
def Dev.onQueue (d : Dev) (launch q : Nat) (f : Queue → Queue) : Dev :=
  d.onStages launch fun ss => { ss with queues := changeAt ss.queues q f }

/-- R331: the queue that a port of a team's stage binds in a direction. -/
def Dev.portQueue (d : Dev) (team port : Nat) (out : Bool) : Option (Nat × Nat) :=
  match d.team? team, d.launchOf team with
  | some t, some l =>
    match t.stage, l.stages with
    | some k, some ss =>
      match (ss.stages[k]?).bind fun s => s.ports.getD port none with
      | some p => if p.out = out then some (t.launch, p.queue) else none
      | none => none
    | _, _ => none
  | _, _ => none

/-! ## What the queue instructions share (R331, R405, R406) -/

/-- R331: the cells of `( a.64 f -- st )`. -/
def queueNeed (w : Bool) (pushes : Nat) : Need := Need.of 4 w 3 pushes

/-- R331: f, and the buffer's address. -/
def leaderCell (t : Thread) : Word := topWord t
def bufferVa (t : Thread) : Dword := cellsValue ((t.stack.drop 1).take 2)

/-- R331: the lanes that take part. -/
def queueLanes (w : Warp) (s : Split) : List (Nat × Dword) :=
  ((w.threadsOf s.mask).filter fun t => leaderCell t != 0).map fun t => (t.lane, bufferVa t)

/-- R331: a buffer lies wholly in the slice of a core. -/
def inSlice (core : Nat) (va : Dword) (n : Nat) : Bool := (outsideSlice core va n).isNone

/-- R331: the checks of the buffers: their range, then their alignment. -/
def Dev.bufferChecks (d : Dev) (w : Warp) (ls : List (Nat × Dword)) (n : Nat) : List ValueCheck :=
  let start := ((d.team? w.team).map Team.start).getD w.core
  let va := fun (l : Nat) => ((ls.find? fun e => e.1 == l).map Prod.snd).getD 0
  let lanes := ls.map Prod.fst
  [valueCheck 0x0D lanes (fun l => !inSlice w.core (va l) n && !inSlice start (va l) n) va,
    valueCheck 0x0B lanes (fun l => (va l).toNat % 16 != 0) va]

/-- R222, R223, R233, R336: what a queue's read or write of some buffers has to come after: the warp's own accesses and the
records still to be written for it, to the same bytes, and what its ordering points name. -/
def Dev.bufferWaits (d : Dev) (id : Nat) (w : Warp) (ls : List (Nat × Dword)) (n : Nat) : List Nat :=
  ((d.accesses.filter fun e => e.2.party == Party.warp id && ls.any fun l =>
      decide (e.2.va.toNat < l.2.toNat + n) && decide (l.2.toNat < e.2.va.toNat + e.2.bytes)).map Prod.fst ++
    (d.bufferWrites.filter fun b => b.warp == id && ls.any fun l =>
      decide (b.va < l.2.toNat + n) && decide (l.2.toNat < b.va + b.bytes)).map BufferWrite.name ++
    w.marks.flatMap OrderMark.all).filter fun i => !d.performed i

/-- A split after its queue instruction: its cells are popped, and a status cell is pushed where it pushes one. -/
def Warp.endQueue (w : Warp) (mask : Mask) (st : Option (Nat → Cell)) : Warp :=
  w.onLanes mask fun t => t.onStack fun cs => match st with
    | none => cs.drop 3
    | some f => f t.lane :: cs.drop 3

/-- R143: the queue instruction's effect at its issue, for the queue that its port binds. -/
def Dev.issueQueue (h : HostPart) (d : Dev) (n : Need) (port : BitVec 2) (out : Bool)
    (k : Nat → Nat → Nat → Warp → Split → Dev) : Dev :=
  match d.issuer with
  | .warp id =>
    match (d.warp? id).bind fun w => d.portQueue w.team port.toNat out with
    | none => d.misplaced h
    | some (launch, q) => d.issueWarp h n fun id w s => k launch q id w s
  | .fet _ => d.misplaced h
  | _ => d

/-- R332, R333, R457: a request of a warp sets out for the queue unit, in its hold window. -/
def Dev.sendRequest (d : Dev) (launch q id : Nat) (w : Warp) (push : Bool) (ls : List (Nat × Dword))
    (poll : Option (Mask × Va)) : Nat × Dev :=
  let waits := d.bufferWaits id w ls (d.queue launch q).recBytes
  let before := d.warpEarlier id w
  let (r, d) := d.fresh
  (r, d.onQueue launch q fun u => { u with requests := u.requests ++ [⟨r, id, push, ls, waits, before, poll, true⟩] })

/-- R332, R333: the split waits in a request at the queue unit. -/
def Dev.request (d : Dev) (launch q id : Nat) (w : Warp) (s : Split) (push : Bool) (ls : List (Nat × Dword)) : Dev :=
  let (r, d) := d.sendRequest launch q id w push ls none
  ({ d.setWarp id (w.replaceCur [{ s with age := 0, state := .queue r }]) with issued := true }).select id

/-! ## qpush (R332, R335, R444) -/

/-- R335, R444: the team may push no more. -/
def Dev.pushClosed (d : Dev) (team launch q : Nat) : Bool :=
  (d.queue launch q).abandoned || ((d.team? team).map fun t => t.eos.contains q).getD false

def execQpush (wbit : Bool) (port : BitVec 2) (s : State) : Host.Outcome State Fault Refusal :=
  s.run fun h d =>
    d.issueQueue h (queueNeed wbit 0) port true fun launch q id w s =>
      let ls := queueLanes w s
      if ls.isEmpty then d.commit id (w.endQueue s.mask none) (s.after (queueNeed wbit 0))
      else
        d.checked h id s
          (d.bufferChecks w ls (d.queue launch q).recBytes ++
            [⟨0x1B, if d.pushClosed w.team launch q then maskOf (ls.map Prod.fst) else 0, 0⟩])
          (d.request launch q id w s true ls)

/-! ## qeos (R335) -/

def execQeos (_ : Bool) (port : BitVec 2) (s : State) : Host.Outcome State Fault Refusal :=
  s.run fun h d =>
    d.issueQueue h (Need.of 4 false 0 0) port true fun _ q id w s =>
      ((d.commit id w (s.after (Need.of 4 false 0 0))).onTeam w.team fun t =>
        { t with eos := if t.eos.contains q then t.eos else t.eos ++ [q] }).settle h

/-! ## qpop and qtry (R333, R334) -/

/-- R334. -/
def statusOk : Word := 0
def statusEos : Word := 1
def statusHandover : Word := 2
def statusEmpty : Word := 3
def statusIdle : Word := 4

/-- R331, R423: buffers can be written; or the first that cannot. -/
def Dev.checkBuffers (h : HostPart) (slot core n : Nat) : List Dword → Dev → Except (Failure × Dev) Dev
  | [], d => .ok d
  | va :: vas, d =>
    match Dev.writeParts h slot core d (pageParts va.toNat (n / pageBytes + 2) n) with
    | .error f => .error f
    | .ok (_, d) => Dev.checkBuffers h slot core n vas d

/-- R333: the status cell of each lane, where `k` records went to the first of the lanes that take part. -/
def queueStatus (ls : List (Nat × Dword)) (k : Nat) (ended : Bool) (lane : Nat) : Word :=
  match ls.findIdx? fun l => l.1 == lane with
  | none => statusIdle
  | some i => if i < k then statusOk else if ended then statusEos else statusEmpty

/-- R334: HANDOVER, or IDLE, in every lane. -/
def allStatus (st : Word) (_ : Nat) : Cell := .full st

/-- R333: the status cells of a pop: empty until its copies are written, if it makes any. -/
def statusCells (copies ticket : Nat) (st : Nat → Word) (lane : Nat) : Cell :=
  if copies = 0 then .full (st lane) else .empty ticket

/-- R249, R423: the cause of the trap for a queue buffer that cannot be read or written. -/
def failureCause : Failure → BitVec 8
  | .fault code _ => if code = faultSealed then 0x0E else 0x0D
  | _ => 0x19

/-- The lanes whose buffer holds an address. -/
def lanesAt (ls : List (Nat × Dword)) (n va : Nat) : Mask :=
  maskOf ((ls.filter fun l => decide (l.2.toNat ≤ va) && decide (va < l.2.toNat + n)).map Prod.fst)

/-- R234, R333, R336: `k` records leave the queue for the first lanes of a request, in order, and their copies begin, which
come after what the request and the records' pushes come after. What these lanes do next comes after the copies. -/
def Dev.takeRecords (d : Dev) (launch q : Nat) (r : QueueRequest) (mask : Mask) (pc : Va) (k : Nat) (st : Nat → Word) : Dev :=
  let u := d.queue launch q
  let into := r.lanes.zip (u.records.take k)
  let status := (lanesOf mask).map fun l => (l, st l)
  let copies := into.map fun (x : (Nat × Dword) × QueueRecord) =>
    (⟨r.warp, x.1.1, x.1.2, q, x.2, r.id, status, pc, r.id, r.deps ++ x.2.deps⟩ : QueueCopy)
  let d := (({ d with queueCopies := d.queueCopies ++ copies }).onQueue launch q fun u =>
    { u with records := u.records.drop k }).onStages launch fun ss => { ss with moved := ss.moved || k != 0 }
  if into.isEmpty then d else d.mark r.warp ⟨maskOf (into.map fun x => x.1.1), [r.id], 0, []⟩

/-- R333: what `qpop` and `qtry` do before they ask for records. -/
def Dev.issuePop (h : HostPart) (d : Dev) (wbit : Bool) (port : BitVec 2)
    (k : Nat → Nat → Nat → Warp → Split → List (Nat × Dword) → Dev) : Dev :=
  d.issueQueue h (queueNeed wbit 1) port false fun launch q id w s =>
    let ls := queueLanes w s
    d.checked h id s (d.bufferChecks w ls (d.queue launch q).recBytes)
      (if ((d.team? w.team).map fun t => t.marks.contains q).getD false then
        d.commit id (w.endQueue s.mask (some (allStatus statusHandover))) (s.after (queueNeed wbit 1))
      else if ls.isEmpty then
        d.commit id (w.endQueue s.mask (some (allStatus statusIdle))) (s.after (queueNeed wbit 1))
      else k launch q id w s ls)

def execQpop (wbit : Bool) (port : BitVec 2) (s : State) : Host.Outcome State Fault Refusal :=
  s.run fun h d =>
    d.issuePop h wbit port fun launch q id w s ls => d.request launch q id w s false ls

/-- R333: a `qtry` does not wait: its split goes on with its status cells empty, and what its lanes do next comes after what
the queue unit does for it (R234). -/
def execQtry (wbit : Bool) (port : BitVec 2) (s : State) : Host.Outcome State Fault Refusal :=
  s.run fun h d =>
    d.issuePop h wbit port fun launch q id w s ls =>
      let (r, d) := d.sendRequest launch q id w false ls (some (s.mask, s.pc))
      (d.commit id (w.endQueue s.mask (some fun _ => .empty r)) (s.after (queueNeed wbit 1))).mark id
        ⟨maskOf (ls.map Prod.fst), [r], 0, []⟩

/-! ## The queue unit (R330, R332, R333) -/

/-- The split that waits in a request. -/
def Warp.requestSplit (w : Warp) (r : Nat) : Option Split := w.splits.find? fun s => s.state == .queue r

/-- A request leaves the unit; its warp is blocked in the queue no more (R445). -/
def Dev.dropRequest (d : Dev) (launch q : Nat) (r : QueueRequest) : Dev :=
  (d.onQueue launch q fun u => { u with requests := u.requests.filter fun x => x.id != r.id }).onStages launch fun ss =>
    { ss with moved := true }

/-- A request that is answered leaves the unit, and its split goes on after the instruction. -/
def Dev.answerRequest (d : Dev) (launch q id : Nat) (r : QueueRequest) (s : Split) (st : Option (Nat → Cell)) : Dev :=
  let d := d.dropRequest launch q r
  d.onWarp id fun w =>
    let w := w.endQueue s.mask st
    w.onSplits fun x =>
      if x.state == .queue r.id then
        { x.after (queueNeed false (if st.isNone then 0 else 1)) with state := .ready }
      else x

/-- A request whose buffer cannot be read or written is withdrawn, and its warp traps, or its team is ended. -/
def Dev.failRequest (h : HostPart) (d : Dev) (launch q id : Nat) (w : Warp) (r : QueueRequest) (s : Split) (f : Failure) : Dev :=
  let lanes := lanesAt r.lanes (d.queue launch q).recBytes f.va
  let d := (d.dropRequest launch q r).onWarp id fun w => w.unqueue r.id
  match f with
  | .uncorrectable va pa => d.endTeam h w.team (some id) lanes s.pc va pa
  | .lost va => d.killAt h (.warp id) (d.slotOf w.team) va
  | .fault _ va => d.post id ⟨r.id, failureCause f, 0, 0, lanes, s.pc, BitVec.ofNat 64 va, 0, []⟩

/-- R332: the sources of a push are read, lane by lane. -/
def Dev.readRecords (h : HostPart) (slot core n : Nat) : List (Nat × Dword) → Dev → Reached (List (Nat × List Byte))
  | [], d => .ok ([], d)
  | (l, va) :: ls, d =>
    match d.readVa h slot core va.toNat n with
    | .error f => .error f
    | .ok (bs, d) =>
      match Dev.readRecords h slot core n ls d with
      | .error f => .error f
      | .ok (rs, d) => .ok ((l, bs) :: rs, d)

/-- A request with its warp and its split. -/
def Dev.requestOf (d : Dev) (r : QueueRequest) : Option (Warp × Split) :=
  (d.warp? r.warp).bind fun w => (w.requestSplit r.id).map fun s => (w, s)

/-- R330, R457: the oldest request of a kind that has reached the unit. -/
def Queue.first (u : Queue) (push : Bool) : Option QueueRequest :=
  u.requests.find? fun r => r.push == push && r.poll.isNone && !r.held

/-- R332: the unit grants the oldest push that waits, once it has room: the records enter in ascending lane, with
what the push comes after. -/
def execQueueGrant (launch queue : Nat) (s : State) : Host.Outcome State Fault Refusal :=
  s.run fun h d =>
    let u := d.queue launch queue
    match u.first true with
    | none => d
    | some r =>
      match d.requestOf r with
      | none => d
      | some (w, s) =>
        if u.capacity - u.records.length < r.lanes.length || !d.allPerformed r.deps then d
        else
          match Dev.readRecords h (d.slotOf w.team) w.core u.recBytes r.lanes d with
          | .error (f, d) => d.failRequest h launch queue r.warp w r s f
          | .ok (rs, d) =>
            let deps := r.before.filter fun i => !d.performed i
            let d := (d.onQueue launch queue fun u =>
              { u with records := u.records ++ rs.map fun (x : Nat × List Byte) => ⟨some x.2, r.id, x.1, deps⟩ }).onStages
                launch fun ss => { ss with moved := true }
            (d.answerRequest launch queue r.warp r s none).settle h

/-- R338: the unit has handled the handover mark of the team of a request. -/
def Dev.marked (d : Dev) (queue : Nat) (r : QueueRequest) : Bool :=
  (((d.warp? r.warp).bind fun w => d.team? w.team).map fun t => t.marks.contains queue).getD false

/-- R333: the unit answers the oldest `qpop` that waits, once there are records for all of its lanes or the queue is
ended; one of a team whose handover mark it has handled takes none. -/
def Dev.answerPop (h : HostPart) (d : Dev) (launch queue : Nat) : Dev :=
  let u := d.queue launch queue
  match u.first false with
  | none => d
  | some r =>
    match d.requestOf r with
    | none => d
    | some (w, s) =>
      let k := Nat.min r.lanes.length u.records.length
      let st := queueStatus r.lanes k u.ended
      if d.marked queue r then (d.answerRequest launch queue r.warp r s (some (allStatus statusHandover))).settle h
      else if k < r.lanes.length && !u.ended then d
      else
        match Dev.checkBuffers h (d.slotOf w.team) w.core u.recBytes ((r.lanes.take k).map Prod.snd) d with
        | .error (f, d) => d.failRequest h launch queue r.warp w r s f
        | .ok d =>
          ((d.takeRecords launch queue r s.mask s.pc k st).answerRequest launch queue r.warp r s
            (some (statusCells k r.id st))).settle h

/-- R333: the status cells of an instruction's lanes fill. -/
def Warp.fillStatus (w : Warp) (ticket : Nat) (status : List (Nat × Word)) : Warp :=
  let put := fun (lane : Nat) (st : List Cell) =>
    match status.find? fun e => e.1 == lane with
    | none => st
    | some e => fillStack ticket e.2 st
  { w with
    threads := w.threads.map fun t => t.onStack (put t.lane)
    handler := w.handler.map fun hd => { hd with saved := hd.saved.map fun e => (e.1, put e.1 e.2) } }

/-- R333: a copy of a record is written, and with the last of its instruction the status cells fill. DESIGN CHOICE
(notes/assumptions/44.md): a copy whose buffer can no longer be written is lost and reported as a store that its home
refuses is (R426), and its cell fills. -/
def Dev.writeQueueCopy (h : HostPart) (d : Dev) (c : QueueCopy) : Dev :=
  let d := { d with queueCopies := d.queueCopies.filter fun x => !(x.ticket == c.ticket && x.lane == c.lane) }
  let d := match d.writeVa h (d.partySlot (.warp c.warp)) (d.partyCore (.warp c.warp)) c.buffer.toNat (c.record.bytes.getD []) with
    | .ok d => d
    | .error (.lost va, d) => d.killAt h (.warp c.warp) (d.partySlot (.warp c.warp)) va
    | .error (f, d) =>
      let p : Posted := ⟨c.stamp, failureCause f, 0, 0, laneBit c.lane, c.pc, BitVec.ofNat 64 f.va, 0, []⟩
      match d.warp? c.warp with
      | none => d
      | some w => if w.threads.isEmpty then d.delegate h w.team w.w p else d.postFault c.warp p
  (if d.queueCopies.any fun x => x.ticket == c.ticket then d
   else d.onWarp c.warp fun w => w.fillStatus c.ticket c.status).settle h

/-- R333: the unit handles a `qtry`: it takes what is there, unless an earlier `qpop` waits, and none for a team whose handover
mark it has handled; its status cells fill now where no record is copied. -/
def Dev.answerPoll (h : HostPart) (d : Dev) (launch queue : Nat) (r : QueueRequest) (mask : Mask) (pc : Va) : Dev :=
  let u := d.queue launch queue
  let d := d.onQueue launch queue fun u => { u with requests := u.requests.filter fun x => x.id != r.id }
  let fill := fun (d : Dev) (st : Nat → Word) =>
    d.onWarp r.warp fun w => w.fillStatus r.id ((lanesOf mask).map fun l => (l, st l))
  if d.marked queue r then (fill d fun _ => statusHandover).settle h
  else
    let waits := (u.requests.takeWhile fun x => x.id != r.id).any fun x => !x.push && x.poll.isNone
    let k := if waits then 0 else Nat.min r.lanes.length u.records.length
    let st := queueStatus r.lanes k u.ended
    let d := d.takeRecords launch queue r mask pc k st
    (if k = 0 then fill d st else d).settle h

/-- R330, R333, R457: a request of a launch reaches its queue's unit, after those that its queue has before it; a `qtry` is
handled then. -/
def Dev.releaseRequest (h : HostPart) (d : Dev) (launch queue : Nat) (r : QueueRequest) : Dev :=
  if (((d.queue launch queue).requests.takeWhile fun x => x.id != r.id).any QueueRequest.held) then d
  else
    let d := d.onQueue launch queue fun u =>
      { u with requests := u.requests.map fun x => if x.id = r.id then { x with held := false } else x }
    match r.poll with
    | none => d
    | some (mask, pc) => d.answerPoll h launch queue r mask pc

/-- R333: a pop that waits receives records or EOS. Its status cells fill as the last copy of a record is written
(`Dev.copyTurn`). -/
def execQueueRecordDelivery (launch queue : Nat) (s : State) : Host.Outcome State Fault Refusal :=
  s.run fun h d => d.answerPop h launch queue

/-- R223, R333: one of the copies of records that are under way is written, once what it comes after has performed; which one
comes first is open. -/
def Dev.copyTurn (h : HostPart) (d : Dev) (n : Nat) : Dev :=
  match d.queueCopies[n]? with
  | none => d
  | some c => if d.allPerformed c.deps then d.writeQueueCopy h c else d

/-- R338 step 1: the unit handles the oldest handover mark: the donor team's waiting `qpop`s are released, and its
later ones return HANDOVER. -/
def execHandoverMark (launch queue : Nat) (s : State) : Host.Outcome State Fault Refusal :=
  s.run fun h d =>
    let u := d.queue launch queue
    match u.marks with
    | [] => d
    | team :: rest =>
      let d := (d.onQueue launch queue fun u => { u with marks := rest }).onTeam team fun t =>
        { t with marks := t.marks ++ [queue] }
      let mine := u.requests.filter fun r => !r.push && r.poll.isNone && !r.held && (d.warp? r.warp).any fun w => w.team == team
      (mine.foldl (fun (d : Dev) r => match d.requestOf r with
        | none => d
        | some (_, s) => d.answerRequest launch queue r.warp r s (some (allStatus statusHandover))) d).settle h

end Sys2Proof.Machine
end

