-- ==== Sys2Proof/Machine/SaveArea.lean ====
section
/-! DEFINITION. The context save area: the records of warps, teams and matrix state, and the slice image (R46, R266,
R404, R435). -/

namespace Sys2Proof.Machine

open Sys2Proof

/-- R404: the frame behind a page of a context's save area, which the device's first write takes (R382: LPDDR or HBM4E;
notes/assumptions/8.md). -/
def Dev.savePage (h : HostPart) (d : Dev) (slot page : Nat) : Option (Nat × Dev) :=
  match Table.find? (d.context slot).savePages page with
  | some pa => some (pa, d)
  | none =>
    ((d.takeFrame h 1).orElse fun _ => d.takeFrame h 0).map fun (r : Nat × Dev) =>
      (r.1, r.2.onContext slot fun c => { c with savePages := Table.set c.savePages page r.1 })

/-- R404: the physical parts of a range of the save area. -/
def Dev.saveParts (h : HostPart) (slot : Nat) : List (Nat × Nat) → Dev → Option (List (Nat × Nat) × Dev)
  | [], d => some ([], d)
  | (a, n) :: ps, d =>
    match d.savePage h slot (a / pageBytes) with
    | none => none
    | some (pa, d) => (Dev.saveParts h slot ps d).map fun r => ((pa + a % pageBytes, n) :: r.1, r.2)

/-- R404: the physical parts of `n` bytes at an offset of a core's region. -/
def Dev.saveRange (h : HostPart) (d : Dev) (slot core off n : Nat) : Option (List (Nat × Nat) × Dev) :=
  Dev.saveParts h slot (pageParts (core * 0x800000 + off) (n / pageBytes + 2) n) d

/-- R404: bytes written to the save area, once there are frames for its pages. -/
def Dev.save (h : HostPart) (d : Dev) (slot core off : Nat) (bytes : List Byte) : Option Dev :=
  (d.saveRange h slot core off bytes.length).map fun r => r.2.putParts r.1 bytes

/-- R459: bytes copied from a physical address into parts, and from parts to a physical address. DESIGN CHOICE
(notes/assumptions/35.md): a poisoned word that the device moves keeps its mark, and is not consumed. -/
def Dev.copyOut (src : Nat) : List (Nat × Nat) → Dev → Dev
  | [], d => d
  | (pa, n) :: ps, d => Dev.copyOut (src + n) ps (d.copyBytes src pa n)
def Dev.copyIn (dst : Nat) : List (Nat × Nat) → Dev → Dev
  | [], d => d
  | (pa, n) :: ps, d => Dev.copyIn (dst + n) ps (d.copyBytes pa dst n)

/-- R404: the place of an offset of the slice in the slice image of its core's region. -/
def imageOff (off : Nat) : Nat := 0x320000 + off

/-- R46, R404: bytes of a core's slice leave for the slice image, at their own offset. -/
def Dev.saveSlice (h : HostPart) (d : Dev) (slot core off n : Nat) : Option Dev :=
  (d.saveRange h slot core (imageOff off) n).map fun r => r.2.copyOut (slicePa core + off) r.1

/-- R46, R339: bytes of a core's slice image come back to a physical address. -/
def Dev.loadSlice (h : HostPart) (d : Dev) (slot core off n dst : Nat) : Option Dev :=
  (d.saveRange h slot core (imageOff off) n).map fun r => r.2.copyIn dst r.1

/-! ## The warp save record (R404) -/

/-- R404: a value for each lane. -/
def perLane (w : Warp) (n : Nat) (f : Thread → Nat) : List Byte :=
  (List.range 32).flatMap fun l => leBytes n (w.ofLane l 0 f)

/-- R51: the resident count of a thread's split. -/
def Warp.residentOf (w : Warp) (l : Nat) : Nat :=
  ((w.splits.find? fun s => s.mask.getLsbD l).map Split.c).getD 0

/-- R404: the resident cells of a thread, deepest first. -/
def Warp.residentCells (w : Warp) (t : Thread) : List Cell := (t.stack.take (w.residentOf t.lane)).reverse

/-- R404: `cell` and `full`. -/
def Warp.cellBytes (w : Warp) : List Byte :=
  (List.range 32).flatMap fun l =>
    padTo 32 (wordBytes (w.ofLane l [] fun t => (w.residentCells t).map Cell.word))
def Warp.fullBytes (w : Warp) : List Byte :=
  perLane w 1 fun t =>
    ((w.residentCells t).mapIdx fun i c => if c.ticket?.isNone then 2 ^ i else 0).foldl (· + ·) 0

/-- R404: the forwarding entries of the warp. -/
def forwardBytes (f : Forward) : List Byte :=
  leBytes 4 f.line ++ leBytes 4 f.lanes.toNat ++ zeros 8 ++ padTo 128 (wordBytes f.words)

/-- R404: the record of a warp. -/
def warpRecord (w : Warp) (team : Nat) (fwd : List Forward) : List Byte :=
  let mode := w.handler.isSome.toNat + 2 * ((w.handler.map Handler.nested).getD false).toNat
  leBytes 1 w.splits.length ++ leBytes 1 w.join.length ++ leBytes 1 mode ++ leBytes 1 w.perf ++ leBytes 2 w.lfsr.toNat ++
    leBytes 1 w.flags.toNat ++ leBytes 1 fwd.length ++ (List.range 4).flatMap (fun c => leBytes 1 (cntGet w.cnt c)) ++
    leBytes 4 w.live.toNat ++ leBytes 4 w.vlimit.toNat ++
    leBytes 4 (w.splits.foldl (fun a s => Nat.max a s.age) 0) ++ leBytes 2 w.w ++ zeros 2 ++ leBytes 4 team ++
    w.splitRecords ++ joinBytes w.join ++ padTo 256 (wordBytes w.k) ++ leBytes 1 w.kp.toNat ++ zeros 31 ++
    w.cellBytes ++ w.fullBytes ++
    padTo 32 ((sortSplits w.splits).flatMap fun s => leBytes 1 s.c) ++
    perLane w 2 (fun t => t.stack.length - w.residentOf t.lane) ++ perLane w 2 Thread.fp ++
    perLane w 1 (fun t => t.ret.length) ++ zeros 32 ++
    (List.range 32).flatMap (fun l => padTo 256 (w.ofLane l [] fun t => t.ret.reverse.flatMap fun r => leBytes 8 r.toNat)) ++
    (List.range 8).flatMap (fun c => (List.range 32).flatMap fun l =>
      padTo 32 (wordBytes (w.ofLane l [] fun t => t.ch.getD c []))) ++
    (List.range 8).flatMap (fun c => perLane w 1 fun t => (t.ch.getD c []).length) ++
    padTo 64 (wordBytes (w.ch15.map Prod.fst)) ++ leBytes 1 w.ch15.length ++ zeros 63 ++
    padTo 2304 (fwd.flatMap forwardBytes) ++ zeros 3328

/-! ## The team save record (R404) -/

/-- R404: the record of a team. -/
def teamRecord (t : Team) : List Byte :=
  let off := if t.sharedBytes = 0 then 0xFFFFFFFF else (t.shared.toNat - sliceBase) % sliceBytes
  leBytes 4 t.index ++ leBytes 4 off ++ leBytes 4 t.sharedBytes ++ zeros 4 ++
    (List.range 8).flatMap (fun q => leBytes 4 (t.rings.getD q 0)) ++ zeros 16 ++
    (List.range 16).flatMap (fun b =>
      let x := t.bars.getD b Barrier.reset
      leBytes 2 x.expected ++ leBytes 2 x.arrived ++ leBytes 1 x.phase.toNat ++ zeros 3) ++
    (List.range 16).flatMap (fun b => leBytes 4 (t.bars.getD b Barrier.reset).age) ++ zeros 3840

/-! ## The matrix save record (R266, R404) -/

/-- R435: whether a drain unit has done an element. -/
def DrainUnit.isDone (u : DrainUnit) (i n : Nat) : Bool :=
  decide (u.first ≤ n) && decide (n < u.first + u.columns) && decide (i < u.rows) &&
    decide (i * u.columns + (n - u.first) < u.next)

/-- R404: the restart state. Its operation fields have no layout; the bytes that the record leaves to them stay
free (notes/assumptions/9.md). -/
def restartBytes (seed : Nat) : Option DrainUnit → List Byte
  | none => zeros 0x1000
  | some u =>
    (List.range 64).map (Config.restartByte seed) ++ padTo 64 (wordBytes u.sums) ++ padTo 64 (wordBytes u.maxima) ++
      padTo 128 (wordBytes u.stager) ++ zeros (0x800 - 0x140) ++
      (List.range 2048).map fun k => BitVec.ofNat 8
        (((List.range 8).filter fun b => u.isDone ((8 * k + b) / 1024) ((8 * k + b) % 1024)).foldl (fun v b => v + 2 ^ b) 0)

/-- R404: the record of a core's matrix state. -/
def matrixRecord (m : Matrix) (seed : Nat) : List Byte :=
  wordBytes ((List.range 0x8000).map fun k => Table.get m.tiles k 0) ++
    (List.range 64).flatMap (fun k => leBytes 2 (Table.get m.nanc k 0)) ++ leBytes 1 m.roles.toNat ++ zeros 0xF7F ++
    (List.range 1024).flatMap (fun k => leBytes 128 (Table.get m.banks k 0).toNat) ++
    (List.range 8).flatMap (fun b => (List.range 2048).flatMap fun k => leBytes 8 (Table.get m.side (b * 2048 + k) 0).toNat) ++
    wordBytes ((List.range 512).map fun k => Table.get m.programs k 0) ++
    wordBytes ((List.range 64).map fun k => Table.get m.constants k 0) ++
    wordBytes ((List.range 288).map fun k => Table.get m.tables k 0) ++ zeros 0x280 ++ restartBytes seed m.restart ++
    zeros 0x1D000

/-- R266, R281: a holder's warps have left the core, and its operations there have retired. DEDUCED
(notes/assumptions/45.md): the warps of a pair team count on both of its cores, and so does an operation in pair mode, which
the leader's engine holds. -/
def Dev.matrixFree (d : Dev) (core holder : Nat) : Bool :=
  d.warps.all (fun e => !(e.2.place == .resident && !e.2.threads.isEmpty && d.slotOf e.2.team == holder &&
      (e.2.core == core || (d.team? e.2.team).any fun t => t.follower.isSome && (t.core == core || t.follower == some core)))) &&
    (d.core core).engine.all (fun o => o.slot != holder) &&
    (core % 2 == 0 || (d.core (core - 1)).engine.all fun o => o.slot != holder || !o.work.paired)

/-- R404, R459: where the matrix save record keeps the units of a core's stores 0 to 5. -/
def storeOffset (store : Nat) : Nat := [0x21000, 0x41000, 0, 0x61000, 0x61800, 0x61900].getD store 0

/-- R459: the offset in the matrix save record of a unit that a number stands for, if it is one of a core's stores. -/
def recordOffset (core unit : Nat) : Option Nat :=
  if chipUnit core 0 0 ≤ unit ∧ unit < chipUnit core 6 0 then
    let n := unit - chipUnit core 0 0
    some (storeOffset (n / 2 ^ 20) + 8 * (n % 2 ^ 20))
  else none

/-- R459: the unit of a core's stores that the record keeps at an offset. -/
def unitAt (core off : Nat) : Option Nat :=
  ((List.range 6).find? fun s => decide (storeOffset s ≤ off) &&
    decide (off < storeOffset s + 8 * [16384, 16384, 16384, 256, 32, 144].getD s 0)).map fun s =>
      chipUnit core s ((off - storeOffset s) / 8)

/-- The physical address of an offset in parts, and the offset of a physical address. -/
def partAddress : List (Nat × Nat) → Nat → Option Nat
  | [], _ => none
  | (pa, n) :: ps, off => if off < n then some (pa + off) else partAddress ps (off - n)
def partOffset (pa : Nat) : List (Nat × Nat) → Nat → Option Nat
  | [], _ => none
  | (p, n) :: ps, base => if p ≤ pa ∧ pa < p + n then some (base + (pa - p)) else partOffset pa ps (base + n)

/-- R266, R404, R459: the matrix state of a core goes to its holder's save area, its poison marks with it. -/
def Dev.saveMatrix (h : HostPart) (d : Dev) (holder core : Nat) (m : Matrix) : Option Dev :=
  let (seed, d) := d.nextFree
  let bytes := matrixRecord m seed
  (d.saveRange h holder core 0 bytes.length).map fun (r : List (Nat × Nat) × Dev) =>
    let d := r.2.putParts r.1 bytes
    let marks := (d.poison.filterMap (recordOffset core)).filterMap fun off => (partAddress r.1 off).map (· / 8)
    { d with poison := d.poison ++ marks }.onContext holder fun c => { c with matrices := Table.set c.matrices core m }

/-- R266: what a context saved of a core's matrix state is there again, or, at its first time, matrix state at 0. -/
def Dev.restoreMatrix (h : HostPart) (d : Dev) (slot core : Nat) : Dev :=
  let saved := Table.find? (d.context slot).matrices core
  let m := saved.getD Matrix.reset
  let (parts, d) := if saved.isSome then (d.saveRange h slot core 0 0x80000).getD ([], d) else ([], d)
  let marks := d.poison.filterMap fun u => (partOffset (8 * u) parts 0).bind (unitAt core)
  { d with poison := d.poison.filter (fun u => (recordOffset core u).isNone) ++ marks }.onCore core fun c =>
    { c with matrix := { m with owner := some slot } }

/-- R266: a core's matrix state passes to a context: the holder's is saved, and what the context saved there is
restored. -/
def Dev.takeMatrix (h : HostPart) (d : Dev) (slot core : Nat) : Option Dev :=
  let m := (d.core core).matrix
  match m.owner with
  | none => some (d.restoreMatrix h slot core)
  | some o =>
    if o = slot then some d
    else if !d.matrixFree core o then none
    else (d.saveMatrix h o core m).map fun d => d.restoreMatrix h slot core

/-- The instruction is one of the matrix engine's (R283). -/
def ofMatrix : Instr → Bool
  | .mma _ _ _ _ _ _ _ _ _ _ _ _ _ _ _ => true
  | .mclr _ _ => true
  | .mdrain _ _ _ _ _ _ _ _ _ => true
  | .bload _ _ _ _ _ _ _ => true
  | .bswap _ _ => true
  | .dload _ _ _ _ => true
  | _ => false

/-- R119: a fetch block holds an instruction of the matrix engine. -/
def blockUsesMatrix : Nat → List Byte → Bool
  | 0, _ => false
  | n + 1, bs =>
    match decode bs with
    | .error _ => false
    | .ok (i, rest) => ofMatrix i || blockUsesMatrix n rest

/-- The bytes of a section of a code object. -/
def Dev.sectionBytes (d : Dev) (c : CodeObject) (va : Dword) (n : Nat) : List Byte :=
  (pageParts va.toNat (n / pageBytes + 2) n).flatMap fun p =>
    match c.frames.find? fun (f : Nat × Nat × Nat) => f.2.1 == pageOf p.1 with
    | none => zeros p.2
    | some f => Memory.readBytes d.mem f.2.2 p.2

/-- R266: the context uses matrix instructions. DESIGN CHOICE (notes/assumptions/45.md): it does where the text or the
access section of a code object that it has loaded holds one; the spec gives the command processor no flag for it. -/
def Dev.usesMatrix (d : Dev) (slot : Nat) : Bool :=
  d.code.any fun e => e.2.contexts.contains slot &&
    [(e.2.text, e.2.textBytes), (e.2.access, e.2.accessBytes)].any fun s =>
      let bs := d.sectionBytes e.2 s.1 s.2
      (List.range (s.2 / 64)).any fun k => blockUsesMatrix 32 (slice bs (64 * k) 64)

/-- R266: the core's matrix state is the context's, if it uses it. -/
def Dev.claimMatrix (h : HostPart) (d : Dev) (slot core : Nat) : Option Dev :=
  if d.usesMatrix slot then d.takeMatrix h slot core else some d

/-- R266: the matrix state of each of some cores is the context's. -/
def Dev.claimAll (h : HostPart) (d : Dev) (slot : Nat) (cores : List Nat) : Option Dev :=
  cores.foldl (fun (d : Option Dev) j => d.bind fun d => d.claimMatrix h slot j) (some d)

end Sys2Proof.Machine
end

