-- ==== Sys2Proof/Machine/Placement.lean ====
section
/-! DEFINITION. The placement of teams, their eviction and resumption, and the swap of warps (R21 to R25, R32, R36,
R39, R40, R43 to R46, R50, R59, R266, R404, R461). -/

namespace Sys2Proof.Machine

open Sys2Proof

/-! ## Slots (R23, R36, R43) -/

/-- R36: the warp slots in use of a lane block, of 24. -/
def LaneBlock.used (b : LaneBlock) : Nat := b.active.length + b.pending.length

/-- R23: the lane block of a core with the most free warp slots; ties go to the lowest-numbered. -/
def Core.roomiest (c : Core) : Nat :=
  (List.range 4).foldl (fun best b => if (c.lb b).used < (c.lb best).used then b else best) 0

/-- R404: a warp slot of a lane block for a warp of a context: the lowest that no resident warp has, and whose record in
the context's save area holds no other warp. -/
def Dev.warpSlot (d : Dev) (slot core lb : Nat) (self : Option Nat) : Option Nat :=
  let taken := (d.warps.filter fun e => some e.1 != self && e.2.core == core && e.2.lb == lb && !e.2.threads.isEmpty &&
    (e.2.place == .resident || d.slotOf e.2.team == slot)).map fun e => e.2.slot
  (List.range 24).find? fun n => !taken.contains n

/-- R36: a warp enters a lane block: the active set at rank 7 where it has room, else the pending set. -/
def LaneBlock.enter (b : LaneBlock) (id : Nat) : LaneBlock :=
  if b.active.length < 8 then { b with active := b.active ++ [id] } else { b with pending := b.pending ++ [id] }

/-- R43: the contexts that have a resident warp on a core. -/
def Dev.contextsOn (d : Dev) (core : Nat) : List Nat :=
  ((d.warps.filter fun e => e.2.core == core && e.2.place == .resident && !e.2.threads.isEmpty).map fun e =>
    d.slotOf e.2.team).eraseDups

/-- R43: a core may take warps of the context. -/
def Dev.contextFits (d : Dev) (slot core : Nat) : Bool :=
  (d.contextsOn core).contains slot || decide ((d.contextsOn core).length < 4)

/-! ## The bytes of a slice (R24, R50) -/

/-- The pages of a team's shared bytes. -/
def Team.sharedPages (t : Team) : List Nat :=
  let n := (t.sharedBytes + pageBytes - 1) / pageBytes
  (List.range n).map (((t.shared.toNat - sliceBase) % sliceBytes) / pageBytes + ·)

/-- R50: the bytes of frames and backing stacks of `n` warps. -/
def LaunchRecord.warpBytes (r : LaunchRecord) (n : Nat) : Nat := n * (r.stackLimit + r.frameSlots) * 128

/-- R50: the bytes of a warp's frames and backing stacks. -/
def Dev.warpBytes (d : Dev) (w : Warp) : Nat := ((d.launchOf w.team).map fun l => l.record.warpBytes 1).getD 0

/-- A team has a resident warp. -/
def Dev.teamResident (d : Dev) (team : Nat) : Bool :=
  d.warps.any fun e => e.2.team == team && e.2.place == .resident && !e.2.threads.isEmpty

/-- R404: a core as new bytes of a context find it: what its slice image keeps for the context's teams that are evicted whole is
taken, for each comes back to its own offset. -/
def Dev.keptCore (d : Dev) (slot core : Nat) : Core :=
  let gone := d.warps.filter fun e =>
    e.2.sliceCore == core && e.2.place == .evicted && !e.2.threads.isEmpty && d.slotOf e.2.team == slot &&
      !d.teamResident e.2.team
  let bytes := gone.map fun e => (Holder.team e.2.team, e.2.stackBase, d.warpBytes e.2)
  let shared := (gone.map fun e => e.2.team).eraseDups
  let c := { d.core core with reserved := (d.core core).reserved ++ bytes }.settleReserved
  { c with pages := (shared.filterMap d.team?).foldl (fun ps t =>
      if t.start = core then t.sharedPages.foldl (fun ps k => Table.set ps k .reserved) ps else ps) c.pages }

/-- The highest run of free pages of a slice. -/
def Core.freeRun (c : Core) (n : Nat) : Option Nat :=
  ((List.range (61 - n)).reverse).find? fun k => (List.range n).all fun i => (Table.find? c.pages (k + i)).isNone

/-- R24: pages mapped into a context for a team's shared bytes. -/
def Dev.mapShared (h : HostPart) (slot core team : Nat) : List Nat → Dev → Option Dev
  | [], d => some d
  | k :: ks, d =>
    match d.mapPage h slot (sliceVa core + k * pageBytes) (leafEntry (slicePa core + k * pageBytes) false true true) with
    | none => none
    | some d =>
      Dev.mapShared h slot core team ks (d.onCore core fun c => { c with pages := Table.set c.pages k (.shared team) })

/-- R24: bytes of a slice set to 0. -/
def Dev.clearSlice (d : Dev) (pa n : Nat) : Dev :=
  { d with mem := Memory.clear d.mem pa n, poison := clearPoison d.poison pa n }.endTags pa n

/-- R24: a team's shared bytes in a core's slice: their VA, or 0 for none. -/
def Dev.placeShared (h : HostPart) (d : Dev) (slot core team bytes : Nat) : Option (Dword × Dev) :=
  if bytes = 0 then some (0, d)
  else
    let n := (bytes + pageBytes - 1) / pageBytes
    match (d.keptCore slot core).freeRun n with
    | none => none
    | some k =>
      (Dev.mapShared h slot core team ((List.range n).map (k + ·)) d).map fun d =>
        (BitVec.ofNat 64 (sliceVa core + k * pageBytes), d.clearSlice (slicePa core + k * pageBytes) (n * pageBytes))

/-- R50, R327: bytes reserved for a holder of a context in a core's slice, and their offset. -/
def Dev.reserve (d : Dev) (slot core : Nat) (who : Holder) (n : Nat) : Option (Nat × Dev) :=
  if n = 0 then some (0, d)
  else ((d.keptCore slot core).findRoom n).map fun off => (off, d.onCore core fun c => c.reserveAt who off n)

/-! ## A team starts (R21 to R23, R32, R40, R59) -/

/-- What a team runs: its entry, its access slice's entry, its warps and its stage. -/
structure TeamForm where
  entry : Va
  aentry : Option Va
  warps : Nat
  stage : Option Nat
  deriving DecidableEq, Repr

/-- R59: the uniform file at a warp's start. -/
def startUniform (r : LaunchRecord) (shared : Dword) (index : Nat) : List Word :=
  List.replicate 58 0 ++ [low shared, high shared, low r.argBase, high r.argBase, r.argBytes, BitVec.ofNat 32 index]

/-- R21, R56: the threads of a new warp. -/
def startThreads (seed : Nat) : List Thread := (List.range 32).map fun l => ⟨l, [], 0, [], seed * 32 + l, [], []⟩

/-- R23, R32, R50, R378, R399: a warp of a team starts on a core, if its slot and its bytes fit there. -/
def Dev.startWarp (slot team index : Nat) (f : TeamForm) (r : LaunchRecord) (k : List Word) (place : Nat × Nat) (d : Dev) :
    Option Dev :=
  let (w, core) := place
  let lb := (d.core core).roomiest
  if !d.contextFits slot core || decide (24 ≤ ((d.core core).lb lb).used) then none
  else
    match d.warpSlot slot core lb none, d.reserve slot core (.team team) (r.warpBytes 1) with
    | some ws, some (base, d) =>
      let (id, d) := d.fresh
      let (seed, d) := d.nextFree
      let warp : Warp := {
        team := team, w := w, core := core, lb := lb, slot := ws, sliceCore := core, stackBase := base, frameBase := base + r.stackLimit * 128,
        place := .resident, fwd := [], stopped := [], threads := startThreads seed,
        cur := some ⟨0xFFFFFFFF, f.entry, 0, 0, .ready⟩, others := [], last := 0xFFFFFFFF,
        lfsr := lfsrOf (r.seed ^^^ BitVec.ofNat 16 (index * f.warps + w)), join := [], k := k, kp := 0, flags := 0,
        cnt := [0, 0, 0, 0], ch15 := [], vlimit := 0x01000000, perf := r.perf, handler := none, posted := [], replay := [],
        kld := [], marks := [], observed := [], fed := 0 }
      some ((d.setWarp id warp).onLb core lb fun b => b.enter id)
    | _, _ => none

/-- R23: some warps of a team start, each on its core. -/
def Dev.startWarps (slot team index : Nat) (f : TeamForm) (r : LaunchRecord) (k : List Word) :
    List (Nat × Nat) → Dev → Option Dev
  | [], d => some d
  | p :: ps, d => (Dev.startWarp slot team index f r k p d).bind (Dev.startWarps slot team index f r k ps)

/-- R40: a front-end context is free on a core. -/
def Dev.fetFree (d : Dev) (core : Nat) : Bool :=
  decide ((d.fets.filter fun e => e.2.core == core && (!e.2.ended || !e.2.streams.isEmpty)).length < 4)

/-- R40: the team's front-end context, if its kernel has an access slice. -/
def Dev.startFet (d : Dev) (team core : Nat) (f : TeamForm) (r : LaunchRecord) (k : List Word) : Dev :=
  match f.aentry with
  | none => d
  | some pc =>
    let (id, d) := d.fresh
    d.setFet id ⟨team, core, pc, k, 0, [0, 0, 0, 0], r.perf, [], [], none, false, none⟩

/-- R384: the die of a core is usable. -/
def HostPart.dieReady (h : HostPart) (core : Nat) : Bool := h.ready.getLsbD (1 + dieOf core)

/-- R23: the warps of a team, each with its core. -/
def teamPlaces (core : Nat) (pair : Bool) (n : Nat) : List (Nat × Nat) :=
  (List.range n).map fun w => (w, if pair && w % 2 == 1 then followerOf core else core)

/-- R21: the cores of a team. -/
def teamCores (core : Nat) (pair : Bool) : List Nat := if pair then [core, followerOf core] else [core]

/-- R22: the coordinates of a team. -/
def LaunchRecord.coordsOf (r : LaunchRecord) (index : Nat) : Nat × Nat × Nat :=
  let (x, y, _) := r.grid
  (index % x, index / x % y, index / (x * y))

/-- R25, R113: a team as it is placed. -/
def Launch.newTeam (l : Launch) (launch index core : Nat) (f : TeamForm) (shared : Dword) : Team :=
  let r := l.record
  { launch := launch, index := index, coords := if f.stage.isSome then (index, 0, 0) else r.coordsOf index, core := core,
    follower := if r.pair && f.stage.isNone then some (followerOf core) else none, start := core, stage := f.stage,
    warps := f.warps, shared := shared, sharedBytes := r.sharedBytes, reserved := r.warpBytes f.warps,
    bars := List.replicate 16 Barrier.reset, rings := List.replicate 8 0, eos := [], donor := false, marks := [],
    ended := false, complete := false, held := false, record := 0 }

/-- R345: dxdb holds the teams of a launch stopped. -/
def Dev.launchHeld (d : Dev) (launch : Nat) : Bool := d.teams.any fun e => e.2.launch == launch && e.2.held

/-- R22 to R25, R50, R345: the part of a team that lies on some cores takes its slots and its slice bytes, if they fit: the team's
shared bytes on its first core, and the warps of those cores. A team of a stage set that starts while the launch is held stopped
is held with it. -/
def Dev.seatTeam (h : HostPart) (d : Dev) (launch : Nat) (l : Launch) (index core : Nat) (f : TeamForm) (on : List Nat) :
    Option (Nat × Dev) :=
  let r := l.record
  let (team, d) := d.fresh
  match (if on.contains core then d.placeShared h l.slot core team r.sharedBytes else some (0, d)) with
  | none => none
  | some (shared, d) =>
    (Dev.startWarps l.slot team index f r (startUniform r shared index)
      ((teamPlaces core (r.pair && f.stage.isNone) f.warps).filter fun p => on.contains p.2)
      (d.setTeam team { l.newTeam launch index core f shared with held := f.stage.isSome && d.launchHeld launch })).map fun d =>
        (team, d)

/-- R22 to R25, R266, R384: a team of a launch starts on a core, if it fits there: its name, and the device with it. -/
def Dev.startTeam (h : HostPart) (d : Dev) (launch : Nat) (l : Launch) (index core : Nat) (f : TeamForm) :
    Option (Nat × Dev) :=
  let pair := l.record.pair && f.stage.isNone
  if !h.dieReady core || decide (576 ≤ core) || (pair && core % 2 == 1) || (f.aentry.isSome && !d.fetFree core) then none
  else
    match (d.claimAll h l.slot (teamCores core pair)).bind fun d =>
        d.seatTeam h launch l index core f (teamCores core pair) with
    | none => none
    | some (team, d) =>
      some (team, d.startFet team core f l.record
        (startUniform l.record (((d.team? team).map Team.shared).getD 0) index))

/-- R113, R366: what the teams of a launch's grid run. -/
def Dev.gridForm (d : Dev) (l : Launch) : Option TeamForm :=
  (Table.find? d.code l.code).map fun c =>
    ⟨BitVec.ofNat 57 (c.text.toNat + c.entry.toNat),
      if c.aentry = 0xFFFFFFFF then none else some (BitVec.ofNat 57 (c.access.toNat + c.aentry.toNat)), l.record.teamWarps, none⟩

/-- R461, R463: the teams of the launch have been ended for its rollback, which is still to come: none starts before it. -/
def Launch.rollsBack (l : Launch) : Bool := l.record.rollback && !l.rolled && l.cause == 0x19

/-- A launch that has places to fill: its next team, of those to place again first. -/
def Dev.nextTeam (d : Dev) (l : Launch) : Option Nat :=
  if l.complete || l.rollsBack || l.cancelled || l.stages.isSome || (d.context l.slot).state != .open_ then none
  else
    match l.again with
    | i :: _ => some i
    | [] => if l.next < l.record.teams then some l.next else none

/-- R26: the team was cancelled before it was placed. -/
def Dev.skipsTeam (d : Dev) (launch : Nat) (l : Launch) (index : Nat) : Bool :=
  l.again.isEmpty && d.teams.any fun e => e.2.launch == launch && e.2.index == index

/-- The launch with its next team taken. -/
def Launch.tookTeam (l : Launch) : Launch :=
  match l.again with
  | _ :: is => { l with again := is }
  | [] => { l with next := l.next + 1 }

/-- R23: the launch's next team is placed on a core, if it fits. -/
def execTeamPlacement (launch core : Nat) (s : State) : Host.Outcome State Fault Refusal :=
  s.run fun h d =>
    match d.launch? launch with
    | none => d
    | some l =>
      match d.nextTeam l, d.gridForm l with
      | some index, some f =>
        if d.skipsTeam launch l index then (d.onLaunch launch Launch.tookTeam).settle h
        else
          match d.startTeam h launch l index core f with
          | none => d
          | some (_, d) => d.onLaunch launch Launch.tookTeam
      | _, _ => d

/-! ## Eviction (R43, R44, R46, R404) -/

/-- R44: the warp is at an issue boundary with no spill, refill or fill in progress, a seal's status among them, and no
trap due. -/
def Dev.evictable (d : Dev) (id : Nat) (w : Warp) : Bool :=
  w.place == .resident && !w.threads.isEmpty && w.posted.isEmpty && d.trapReady id &&
    d.seals.all (fun e => e.2.party != Party.warp id) &&
    ((d.core w.core).lb w.lb).transfers.all fun t => t.warp != id

/-- R44, R331: a split as the save area keeps it: a queue request is issued again. -/
def Split.saved (s : Split) : Split :=
  { s with state := match s.state with
      | .queue _ => .ready
      | st => st }

/-- R43, R46, R404: the team's shared bytes leave the slice for the slice image, once no access in flight uses their pages
(R81). -/
def Dev.imageShared (h : HostPart) (d : Dev) (slot team : Nat) (t : Team) : Option Dev :=
  if d.sharedUsed team t then none
  else
    t.sharedPages.foldl (fun (d : Option Dev) k => d.bind fun d =>
      let va := sliceVa t.start + k * pageBytes
      (d.saveSlice h slot t.start (k * pageBytes) pageBytes).map fun d =>
        ((d.unmapPage slot va).dropTlb slot va pageBytes).onCore t.start fun c =>
          { c with pages := match Table.find? c.pages k with
              | some (.shared x) => if x = team then Table.erase c.pages k else c.pages
              | _ => c.pages }) (some d)

/-- R46, R404: the frames and backing stacks of a warp leave the slice for the slice image. -/
def Dev.imageStacks (h : HostPart) (slot : Nat) (d : Dev) (w : Warp) : Option Dev :=
  if w.threads.isEmpty then some d else d.saveSlice h slot w.sliceCore w.stackBase (d.warpBytes w)

/-- R43, R46, R404: the last resident warp of a team has left: its record is written, the frames and backing stacks of its
warps, which have stayed in the slice so far, leave with its shared bytes, and its slice bytes are freed. A team that R339 moves
keeps its shared bytes in their place. -/
def Dev.teamLeaves (h : HostPart) (d : Dev) (slot core record team : Nat) (moves : Bool) : Option Dev :=
  match d.team? team with
  | none => some d
  | some t =>
    let leave := fun (d : Dev) => ((d.teamWarps team).filterMap d.warp?).foldl
      (fun (d : Option Dev) w => d.bind fun d => d.imageStacks h slot w) (some d)
    (((d.save h slot core (0x80000 + record * 0x1000) (teamRecord t)).bind leave).bind fun d =>
      if moves then some d else d.imageShared h slot team t).map fun d =>
      (t.cores.foldl (fun (d : Dev) j => d.onCore j fun c => c.giveBack fun r => r == Holder.team team) d).onTeam team fun t =>
        { t with record := record }

/-- R46, R57, R404: the forwarding entries of a warp that leaves a lane block: those of its handler area complete, and the
others keep the cycles that their slice writes still take. -/
def Dev.takeForwards (d : Dev) (id : Nat) (w : Warp) : List Forward × Dev :=
  let mine := ((d.core w.core).lb w.lb).forwards.filter fun f => f.warp == id
  let now := d.clockOf w.core
  ((mine.filter fun f => !f.mapped).map fun f => { f with due := f.due - now },
    ((mine.filter Forward.mapped).foldl (Dev.retire w.core) d).onLb w.core w.lb fun b =>
      { b with forwards := b.forwards.filter fun f => f.warp != id })

/-- R43 to R46, R404: a warp is evicted: its record goes to the save area, and with the last of a team's resident warps the
team's bytes; none where it has to wait for a frame of the save area or for an access. -/
def Dev.evict (h : HostPart) (d : Dev) (id : Nat) (moves : Bool) : Option Dev :=
  match d.warp? id with
  | none => some d
  | some w =>
    let slot := d.slotOf w.team
    let (fwd, d) := (d.withdraw fun r => r.warp == id && r.poll.isNone).takeForwards id w
    let w := { w.onSplits Split.saved with place := .evicted, fwd := fwd }
    let index := ((d.team? w.team).map Team.index).getD 0
    (d.save h slot w.core w.recordOff (warpRecord w index fwd)).bind fun d =>
      let d := (d.setWarp id w).onLb w.core w.lb fun b => b.leave id
      if d.teamResident w.team then some d else d.teamLeaves h slot w.core (24 * w.lb + w.slot) w.team moves

/-- R44, R46: warps are evicted one after another, or none of them. -/
def Dev.evictAll (h : HostPart) (moves : Bool) : List Nat → Dev → Option Dev
  | [], d => some d
  | id :: ids, d => (d.evict h id moves).bind (Dev.evictAll h moves ids)

/-- R105: the launch waits for placement: it has a team to place, or is a stage set that has not started. -/
def Dev.awaitsPlacement (d : Dev) (l : Launch) : Bool :=
  (d.nextTeam l).isSome ||
    (l.stages.any (fun ss => !ss.started) && !l.complete && !l.cancelled && (d.context l.slot).state == .open_)

/-- R43, R105: the priority of a context: the highest of its streams with a launch that waits for placement. DESIGN CHOICE
(notes/assumptions/45.md): a context with no such launch has priority 0. -/
def Dev.waitingPriority (d : Dev) (slot : Nat) : Nat :=
  ((d.launches.filter fun e => e.2.slot == slot && d.awaitsPlacement e.2).map fun e =>
    ((Table.find? d.graphs e.2.graph).map fun g => ((d.context slot).stream g.stream).priority).getD 0).foldl Nat.max 0

/-- R43: of two warps, the one that is evicted first: of the context of lower priority; of the younger team; of the
higher w. DESIGN CHOICE (notes/assumptions/45.md): of two contexts of one priority, that of the lower slot goes first; the
spec names no order between them. -/
def Dev.evictsFirst (d : Dev) (a b : Nat × Warp) : Bool :=
  let sa := d.slotOf a.2.team
  let sb := d.slotOf b.2.team
  let pa := d.waitingPriority sa
  let pb := d.waitingPriority sb
  if pa != pb then decide (pa < pb)
  else if sa != sb then decide (sa < sb)
  else if a.2.team != b.2.team then decide (b.2.team < a.2.team)
  else decide (b.2.w < a.2.w)

/-- R43: the warp of a core that is evicted next for a context of some priority. -/
def Dev.nextVictim (d : Dev) (core priority : Nat) : Option Nat :=
  ((d.warps.filter fun e => e.2.core == core && e.2.place == .resident && !e.2.threads.isEmpty &&
      decide (d.waitingPriority (d.slotOf e.2.team) < priority)).foldl
    (fun (best : Option (Nat × Warp)) e => match best with
      | none => some e
      | some b => if d.evictsFirst e b then some e else some b) none).map Prod.fst

/-- R329: what the initial teams of a stage set run. -/
def Stage.form (s : Stage) (k : Nat) : TeamForm :=
  ⟨BitVec.ofNat 57 s.entry.toNat, if s.aentry = 0 then none else some (BitVec.ofNat 57 s.aentry.toNat), s.teamWarps, some k⟩

/-- R327: the storage of queues is reserved in their homes. -/
def Dev.reserveQueues (slot launch : Nat) : List (Nat × Queue) → Dev → Option Dev
  | [], d => some d
  | (n, q) :: qs, d =>
    (d.reserve slot q.home (.queue launch n) (q.capacity * q.recBytes)).bind fun r => Dev.reserveQueues slot launch qs r.2

/-- R43: warp slots or slice bytes are lacking on a core for a launch whose next team, or whose initial teams, are to be
placed from another core on. DESIGN CHOICE (notes/assumptions/45.md): a fifth context lacks a slot; for a stage set, the
core is to have room for a team of any of its stages, and for the queues whose home it is. -/
def Dev.lacking (h : HostPart) (d : Dev) (launch : Nat) (l : Launch) (first core : Nat) : Bool :=
  match l.stages with
  | none =>
    match d.nextTeam l, d.gridForm l with
    | some index, some f => (d.seatTeam h launch l index first f [core]).isNone
    | _, _ => false
  | some ss =>
    d.awaitsPlacement l &&
      ((List.range ss.stages.length).any (fun k => (ss.stages[k]?).any fun s =>
          (d.seatTeam h launch l k core (s.form k) [core]).isNone) ||
        (Dev.reserveQueues l.slot launch
          (((List.range ss.queues.length).zip ss.queues).filter fun q => q.2.home == core) d).isNone)

/-- R43: while warp slots or slice bytes are lacking for a launch on a core, or on the core's follower, the next warp of a
context of lower priority leaves it. -/
def execPartialEviction (launch core : Nat) (s : State) : Host.Outcome State Fault Refusal :=
  s.run fun h d =>
    match d.launch? launch with
    | none => d
    | some l =>
      match (teamCores core (l.record.pair && l.stages.isNone)).find? (d.lacking h launch l core) with
      | none => d
      | some j =>
        match d.nextVictim j (d.waitingPriority l.slot) with
        | none => d
        | some id =>
          match d.warp? id with
          | none => d
          | some w => if d.evictable id w then (d.evict h id false).getD d else d

/-- R46: at a time-slice switch the resident warps of a context leave a core. -/
def execTimeSliceSwitch (slot core : Nat) (s : State) : Host.Outcome State Fault Refusal :=
  s.run fun h d =>
    let mine := d.warps.filter fun e =>
      e.2.core == core && e.2.place == .resident && !e.2.threads.isEmpty && d.slotOf e.2.team == slot
    if mine.all fun e => d.evictable e.1 e.2 then (Dev.evictAll h false (mine.map Prod.fst) d).getD d else d

/-! ## Resumption (R45, R46) -/

/-- R24, R45: the team's shared bytes come back to their address. -/
def Dev.restoreShared (h : HostPart) (d : Dev) (slot team : Nat) (t : Team) : Option Dev :=
  let c := d.core t.start
  if t.sharedPages.all fun k => Table.find? c.pages k == some (.shared team) then some d
  else if t.sharedPages.all fun k => (Table.find? c.pages k).isNone then
    t.sharedPages.foldl (fun (d : Option Dev) k => d.bind fun d =>
        d.loadSlice h slot t.start (k * pageBytes) pageBytes (slicePa t.start + k * pageBytes))
      (Dev.mapShared h slot t.start team t.sharedPages d)
  else none

/-- R45, R339: the core on which an evicted warp resumes: its own, or the one that its team has been moved to. -/
def Dev.homeCore (d : Dev) (w : Warp) : Nat :=
  match d.team? w.team with
  | none => w.core
  | some t => if w.core = t.core || t.follower = some w.core then w.core else t.core

/-- R46: a warp whose frames and backing stacks lie at another offset of a core's slice. -/
def Warp.based (w : Warp) (core base : Nat) : Warp :=
  { w with
    sliceCore := core
    stackBase := base
    frameBase := w.frameBase - w.stackBase + base
    fwd := w.fwd.map fun f => { f with line := f.line - w.stackBase + base } }

/-- R46, R339, R404: an evicted warp's frames and backing stacks come back to its slice: to their own offset, or, on another
core, to bytes that are free there. -/
def Dev.restoreStacks (h : HostPart) (slot : Nat) (d : Dev) (id : Nat) : Option Dev :=
  match d.warp? id with
  | none => some d
  | some w =>
    let core := d.homeCore w
    let n := d.warpBytes w
    if w.threads.isEmpty then some d
    else
      (if core = w.sliceCore then
        if n = 0 then some (w.stackBase, d)
        else if (d.core core).roomAt n w.stackBase then
          some (w.stackBase, d.onCore core fun c => c.reserveAt (.team w.team) w.stackBase n)
        else none
      else d.reserve slot core (.team w.team) n).bind fun (r : Nat × Dev) =>
        (r.2.loadSlice h slot w.sliceCore w.stackBase n (slicePa core + r.1)).map fun d =>
          d.setWarp id (w.based core r.1)

/-- R45, R46: a team with no resident warp comes back to its cores: its shared bytes, and the frames and backing stacks of its
warps, before the first of them resumes. -/
def Dev.teamReturns (h : HostPart) (d : Dev) (slot team : Nat) : Option Dev :=
  if d.teamResident team then some d
  else
    ((d.team? team).bind fun t => d.restoreShared h slot team t).bind fun d =>
      (d.teamWarps team).foldl (fun (d : Option Dev) id => d.bind fun d => d.restoreStacks h slot id) (some d)

/-- R46: an evicted warp in a lane block again: it goes on as it was. -/
def Warp.resumed (w : Warp) (core lb slot : Nat) : Warp :=
  { w with place := .resident, core := core, lb := lb, slot := slot, fwd := [] }

/-- R45: an evicted warp resumes in a lane block with a free slot, on its core (R339). -/
def execWarpResume (warp lb : Nat) (s : State) : Host.Outcome State Fault Refusal :=
  s.run fun h d =>
    match d.warp? warp with
    | none => d
    | some w =>
      let slot := d.slotOf w.team
      let core := d.homeCore w
      if w.place != .evicted || w.threads.isEmpty || decide (4 ≤ lb) || decide (24 ≤ ((d.core core).lb lb).used) ||
          !d.contextFits slot core then d
      else
        match d.warpSlot slot core lb (some warp),
          (d.claimAll h slot (teamCores core ((d.team? w.team).any fun t => t.follower.isSome))).bind fun d =>
            d.teamReturns h slot w.team with
        | some ws, some e =>
          match e.warp? warp with
          | none => d
          | some w =>
            let fwd := w.fwd.map fun f => { f with due := f.due + e.clockOf core }
            ((e.setWarp warp (w.resumed core lb ws)).onLb core lb fun b => b.enter warp).pushForwards core lb fwd
        | _, _ => d

/-! ## Swaps (R39) -/

/-- R39, R65: an access goes to memory outside the core's own slice, which lies in the window; before its walk its address says
which. -/
def Access.far (a : Access) (core : Nat) : Bool :=
  match a.pa with
  | none => !(inWindow a.va.toNat && windowCore a.va.toNat == core)
  | some pa => !(decide (slicePa core ≤ pa) && decide (pa < slicePa core + sliceBytes))

/-- R39, R248, R333: a cell of the split is filled from outside the core's own slice, from a seal, or from a queue port. -/
def Dev.farFill (d : Dev) (w : Warp) (tickets : List Nat) : Bool :=
  d.accesses.any (fun e => e.2.tickets.any tickets.contains && e.2.far w.core) ||
    d.seals.any (fun e => tickets.contains e.2.ticket) || d.bufferWrites.any fun b => tickets.contains b.name

/-- R212: a destination of `kld` waits for memory outside the core's own slice. -/
def Dev.farLoad (d : Dev) (w : Warp) (ks : List Nat) : Bool :=
  w.kld.any fun e => ks.contains e.1 && (Table.find? d.accesses e.2).any fun a => a.far w.core

/-- R39: the wait counts as long latency. -/
def Dev.longLatency (d : Dev) (w : Warp) : Wait → Bool
  | .cells ts => d.farFill w ts
  | .registers ks => d.farLoad w ks
  | .counter _ _ => true
  | .channels ns => ns.any fun n => decide (8 ≤ n.1) && decide (n.1 ≤ 11)
  | .both a b => Dev.longLatency d w a || Dev.longLatency d w b
  | _ => false

/-- R39: what the split waits for counts as long latency. -/
def Dev.longWait (d : Dev) (w : Warp) (s : Split) : Bool :=
  match s.state with
  | .blocked r => d.longLatency w r
  | .arriving _ => true
  | .barrier _ => true
  | .queue _ => true
  | .trywait _ _ left => decide (64 < left)
  | _ => false

/-- R39: the warp's current split, or the one that was current last. -/
def Warp.lastSplit (w : Warp) : Option Split :=
  match w.cur with
  | some s => some s
  | none => w.splits.find? fun s => s.mask &&& w.last != 0

/-- R39: the warp has no ready split, and its current one waits on a long-latency dependence. -/
def Dev.stands (d : Dev) (id : Nat) (w : Warp) : Bool :=
  (w.splits.all fun s => (d.wake id w s).state != .ready) && w.lastSplit.any (d.longWait w)

/-- R39: the warp could issue. -/
def Dev.couldIssue (d : Dev) (id : Nat) : Bool :=
  (d.warp? id).any fun w => w.splits.any fun s => (d.wake id w s).state == .ready

/-- R39: the lane cycles, counted from the start of the front-end cycle, after which a warp that swaps in now may issue. -/
def arrivalTime (cycles credit : Nat) : Nat := Nat.min (cycles - credit) (cycles - 1) + 2

/-- R39: an active warp that waits on a long-latency dependence changes places with the ready pending warp that has
waited longest, which may issue 2 cycles later. DESIGN CHOICE (notes/assumptions/45.md): of several that wait so, the warp of
the lowest rank goes first; the spec does not say which. -/
def execWarpSwap (core lb : Nat) (s : State) : Host.Outcome State Fault Refusal :=
  s.run fun _ d =>
    let b := (d.core core).lb lb
    match b.active.find? fun id => (d.warp? id).any (d.stands id), b.pending.find? d.couldIssue with
    | some out, some in_ =>
      let due := arrivalTime (d.cluster (clusterOf core)).laneCycles b.credit
      d.onLb core lb fun b =>
        { b with
          active := b.active.filter (· != out) ++ [in_]
          pending := b.pending.filter (· != in_) ++ [out]
          arrivals := (b.arrivals.filter fun e => e.1 != out) ++ [(in_, due)] }
    | _, _ => d

/-! ## A team is placed again (R461) -/

/-- R338, R461: a donor team that is placed again keeps its place in its handover, under its new name. -/
def Dev.renameDonor (d : Dev) (launch old new : Nat) : Dev :=
  match d.team? old with
  | none => d
  | some t =>
    if !t.donor then d
    else
      (d.onStages launch fun ss =>
        { ss with
          stages := ss.stages.map fun s =>
            { s with handover := s.handover.map fun (x : Nat × Bool × Nat) => (x.1, x.2.1, if x.2.2 = old then new else x.2.2) }
          queues := ss.queues.map fun q =>
            { q with marks := q.marks.map fun m => if m = old then new else m } }).onTeam new fun n =>
        { n with donor := true, marks := t.marks }

/-- R461: an ended team of an idempotent launch, of which nothing runs any more, is placed again with its index: on
its core, or, where it no longer fits there, on the next core that it fits. A launch that is to be rolled back places none
(R463); and a stage team's fresh warps are not blocked in a queue, so that a stuck interval starts anew (R445). -/
def execTeamRelaunch (team : Nat) (s : State) : Host.Outcome State Fault Refusal :=
  s.run fun h d =>
    match d.team? team, d.launchOf team with
    | some t, some l =>
      if !t.ended || l.rollsBack || !l.record.idempotent || l.relaunched.contains t.index || l.cancelled || d.teamCounter team != 0 ||
          d.sharedUsed team t then d
      else
        let gone := (d.releaseTeam team).onLaunch t.launch fun l => { l with relaunched := l.relaunched ++ [t.index] }
        let form : Option TeamForm := match t.stage, l.stages with
          | some k, some ss => (ss.stages[k]?).map fun s => s.form k
          | _, _ => d.gridForm l
        let forget := fun (d : Dev) => { d with teams := Table.erase d.teams team }
        let report := fun (d : Dev) => (d.onStages t.launch fun ss => { ss with moved := true }).report 0x04 2 l.slot t.core
          (leBytes 4 t.index)
        match form.bind fun f => gone.startTeam h t.launch l t.index t.core f with
        | some (new, d) => report (forget (d.renameDonor t.launch team new))
        | none =>
          if t.stage.isSome then d
          else report (forget (gone.onLaunch t.launch fun l => { l with again := l.again ++ [t.index] }))
    | _, _ => d

end Sys2Proof.Machine
end

