-- ==== Sys2Proof/Machine/StageSets.lean ====
section
/-! DEFINITION. Stage sets: the declaration, the start, the stage balancer, and a stuck set (R325 to R329, R337 to
R339, R445). -/

namespace Sys2Proof.Machine

open Sys2Proof

/-! ## The declaration (R325 to R328) -/

/-- R326: a port byte; none where it breaks the rule. -/
def readPort (queues v : Nat) : Option (Option Port) :=
  if v < 128 then if v = 0 then some none else none
  else if v / 16 % 4 != 0 || decide (queues ≤ v % 16) then none
  else some (some ⟨decide (v / 64 % 2 = 1), v % 16⟩)

/-- R326, R367: an address is that of a block of a section. -/
def inSection (va : Dword) (bytes at_ : Nat) : Bool :=
  decide (va.toNat ≤ at_) && decide (at_ < va.toNat + bytes) && at_ % 64 == 0

/-- R326: a stage record; none where it breaks the rule. The entries are addresses in the launch's code object (R367). -/
def readStage (c : CodeObject) (queues : Nat) (bs : List Byte) : Option Stage :=
  let ports := (List.range 4).map fun p => readPort queues (field bs (24 + p) 1)
  let min := field bs 18 2
  let max := field bs 20 2
  let init := field bs 22 2
  let warps := field bs 16 2
  if !inSection c.text c.textBytes (field bs 0 8) ||
      (field bs 8 8 != 0 && !inSection c.access c.accessBytes (field bs 8 8)) || warps = 0 || decide (32 < warps) || min = 0 || decide (max < min) ||
      decide (576 < max) || decide (init < min) || decide (max < init) || field bs 28 4 != 0 || ports.any Option.isNone then none
  else
    some ⟨BitVec.ofNat 64 (field bs 0 8), BitVec.ofNat 64 (field bs 8 8), warps, min, max, init,
      ports.map fun p => p.getD none, none, 0, none, false, false⟩

/-- R327: the number is a power of two from 64 to 4,096. -/
def queueCapacity (n : Nat) : Bool := [64, 128, 256, 512, 1024, 2048, 4096].contains n

/-- R327: a queue record; none where it breaks the rule. -/
def readQueue (bs : List Byte) : Option Queue :=
  let home := field bs 0 2
  let n := field bs 2 2
  let cap := field bs 4 2
  if 576 ≤ home || n % 16 != 0 || decide (n < 16) || decide (256 < n) || !queueCapacity cap || field bs 6 10 != 0 then none
  else some ⟨home, n, cap, [], [], false, false, []⟩

/-- Every entry is there. -/
def allSome {α : Type} : List (Option α) → Option (List α)
  | [] => some []
  | none :: _ => none
  | some a :: xs => (allSome xs).map fun ys => a :: ys

/-- R328: a stage binds no queue twice. -/
def Stage.bindsOnce (s : Stage) : Bool := decide ((s.queues true ++ s.queues false).Nodup)

/-- R328: a stage with no in port has a fixed number of cores. -/
def Stage.fixedSource (s : Stage) : Bool :=
  !(s.queues false).isEmpty || (s.minCores == s.initCores && s.initCores == s.maxCores)

/-- R328: a queue is bound out by exactly one stage and in by exactly one other. -/
def boundOnce (stages : List Stage) (q : Nat) : Bool :=
  let outs := (List.range stages.length).filter fun k => (stages[k]?).any fun s => (s.queues true).contains q
  let ins := (List.range stages.length).filter fun k => (stages[k]?).any fun s => (s.queues false).contains q
  outs.length == 1 && ins.length == 1 && outs != ins

/-- R328: the stages that no queue of the remaining stages leads into are taken away, one round after another. -/
def acyclic (stages : List Stage) : Nat → List Nat → Bool
  | 0, left => left.isEmpty
  | n + 1, left =>
    let fed := fun (k : Nat) => left.any fun j => (stages[j]?).any fun s => (s.queues true).any fun q =>
      (stages[k]?).any fun t => (t.queues false).contains q
    acyclic stages n (left.filter fed)

/-- R325 to R328: a stage-set declaration; none where it breaks a rule. -/
def readStageSet (c : CodeObject) (r : LaunchRecord) (bs : List Byte) : Option StageSet :=
  let ns := field bs 1 1
  let nq := field bs 2 1
  let iv := field bs 4 2
  if field bs 0 1 != 1 || ns = 0 || decide (8 < ns) || nq = 0 || decide (16 < nq) || field bs 3 1 != 0 ||
      field bs 6 10 != 0 || (iv != 0 && (decide (iv < 8) || decide (1024 < iv))) || r.grid != (1, 1, 1) || r.pair then none
  else
    match allSome ((List.range ns).map fun k => readStage c nq (slice bs (16 + 32 * k) 32)),
      allSome ((List.range nq).map fun q => readQueue (slice bs (272 + 16 * q) 16)) with
    | some stages, some queues =>
      if stages.all Stage.bindsOnce && stages.all Stage.fixedSource && (List.range nq).all (boundOnce stages) &&
          acyclic stages (ns + 1) (List.range ns) then
        some ⟨(if iv = 0 then 64 else iv) * 1000, 0, stages, queues, 0, false, false, 0, 0⟩
      else none
    | _, _ => none

/-! ## The start (R329) -/

/-- R329: the stage of each initial team, in stage order. -/
def StageSet.initial (ss : StageSet) : List Nat :=
  (List.range ss.stages.length).flatMap fun k => List.replicate (((ss.stages[k]?).map Stage.initCores).getD 0) k

/-- R329: the initial teams start, one on each of the cores named. -/
def Dev.startStages (h : HostPart) (launch : Nat) (l : Launch) (ss : StageSet) : List (Nat × Nat × Nat) → Dev → Option Dev
  | [], d => some d
  | (index, k, core) :: ts, d =>
    match (ss.stages[k]?).bind fun s => d.startTeam h launch l index core (s.form k) with
    | none => none
    | some (_, d) => Dev.startStages h launch l ss ts d

/-- R329: the stage set starts, once every initial team can be placed at the same moment, each on a core of its own. -/
def execStageSetStart (launch : Nat) (cores : List Nat) (s : State) : Host.Outcome State Fault Refusal :=
  s.run fun h d =>
    match d.launch? launch with
    | none => d
    | some l =>
      match l.stages with
      | none => d
      | some ss =>
        if ss.started || l.complete || l.cancelled || cores.length != ss.initial.length || !decide cores.Nodup then d
        else
          let teams := ((List.range cores.length).zip (ss.initial.zip cores))
          match (Dev.startStages h launch l ss teams d).bind fun d =>
              Dev.reserveQueues l.slot launch ((List.range ss.queues.length).zip ss.queues) d with
          | none => d
          | some d =>
            (d.onLaunch launch fun l =>
              { l with
                next := cores.length
                stages := l.stages.map fun ss => { ss with started := true, next := d.gtime + ss.interval, since := d.gtime } }).settle h

/-! ## The stage balancer (R337, R338) -/

/-- R337: the largest occupancy of some queues, in parts of 4,096 of their capacity. -/
def StageSet.fullness (ss : StageSet) (qs : List Nat) : Nat :=
  (qs.map fun q =>
    let u := nth ss.queues q Queue.none
    u.records.length * (4096 / u.capacity)).foldl Nat.max 0

/-- R337: in(s) and out(s). -/
def StageSet.inOf (ss : StageSet) (k : Nat) : Nat := ((ss.stages[k]?).map fun s => ss.fullness (s.queues false)).getD 0
def StageSet.outOf (ss : StageSet) (k : Nat) : Nat := ((ss.stages[k]?).map fun s => ss.fullness (s.queues true)).getD 0

/-- R337: a movable stage. -/
def StageSet.movable (ss : StageSet) (s : Stage) : Bool :=
  !(s.queues false).isEmpty && !ss.closing s && s.handover.isNone && !s.complete

/-- R337: the cores of a stage: those of its teams that are not complete, and one that it is handing over. -/
def Dev.stageCores (d : Dev) (launch : Nat) (ss : StageSet) (k : Nat) : Nat :=
  let cores := ((d.teams.filter fun e => e.2.launch == launch && e.2.stage == some k && !e.2.complete).map fun e =>
    e.2.core).eraseDups
  let leaving := match (ss.stages[k]?).bind Stage.handover with
    | some (r, true, _) => ((ss.stages[r]?).any fun s => s.freed.isSome).toNat
    | _ => 0
  cores.length + leaving

/-- The stage of a list with the largest, or smallest, value; ties go to the lowest. -/
def bestStage (better : Nat → Nat → Bool) (f : Nat → Nat) (ks : List Nat) : Option Nat :=
  ks.foldl (fun best k => match best with
    | none => some k
    | some b => if better (f k) (f b) then some k else some b) none

/-- R338: the donor's team with the highest linear index. -/
def Dev.donorTeam (d : Dev) (launch k : Nat) : Option Nat :=
  ((d.teams.filter fun e => e.2.launch == launch && e.2.stage == some k && !e.2.complete).foldl
    (fun (best : Option (Nat × Team)) e => match best with
      | none => some e
      | some b => if b.2.index < e.2.index then some e else some b) none).map Prod.fst

/-- R338: a handover of one core starts. -/
def Dev.startHandover (d : Dev) (launch donor to_ team now : Nat) : Dev :=
  (d.onStages launch fun ss =>
    let qs := ((ss.stages[donor]?).map fun s => s.queues false).getD []
    { ss with
      stages := changeAt (changeAt ss.stages donor fun s => { s with handover := some (to_, true, team), since := now }) to_
        fun s => { s with handover := some (donor, false, team), since := now }
      queues := qs.foldl (fun us q => changeAt us q fun u => { u with marks := u.marks ++ [team] }) ss.queues
      moved := true }).onTeam team
    fun t => { t with donor := true }

/-- R337: the moves of a boundary; `touched` lists T. -/
def Dev.balance (launch now : Nat) : Nat → List Nat → Dev → Dev
  | 0, _, d => d
  | fuel + 1, touched, d =>
    match d.stages? launch with
    | none => d
    | some ss =>
      let free := (List.range ss.stages.length).filter fun k =>
        !touched.contains k && (ss.stages[k]?).any ss.movable
      let cores := d.stageCores launch ss
      let r := bestStage (fun a b => decide (b < a)) ss.inOf (free.filter fun k =>
        decide (cores k < ((ss.stages[k]?).map Stage.maxCores).getD 0) && decide (ss.outOf k < 3072))
      match r with
      | none => d
      | some r =>
        match bestStage (fun a b => decide (a < b)) ss.inOf (free.filter fun k =>
          k != r && decide (((ss.stages[k]?).map Stage.minCores).getD 0 < cores k)) with
        | none => d
        | some g =>
          if ss.inOf r < ss.inOf g + 512 then d
          else
            match d.donorTeam launch g with
            | none => d
            | some team => Dev.balance launch now fuel (r :: g :: touched) (d.startHandover launch g r team now)

/-- R445: the warp is blocked in `qpush` or `qpop`. -/
def Warp.inQueue (w : Warp) : Bool :=
  !w.splits.isEmpty && w.splits.all fun s => match s.state with
    | .queue _ => true
    | _ => false

/-- R445: every live warp of a launch is blocked in a queue, and no handover is pending. -/
def Dev.allBlocked (d : Dev) (launch : Nat) (ss : StageSet) : Bool :=
  let mine := d.warps.filter fun e => !e.2.threads.isEmpty && ((d.team? e.2.team).map Team.launch) == some launch
  !mine.isEmpty && mine.all (fun e => e.2.inQueue) && ss.stages.all fun s => s.handover.isNone

/-- R445: how many boundaries in a row have found the set blocked, with nothing between them that ended it: no grant or
delivery, no warp that came out of its queue, no handover. -/
def stuckAfter (blocked moved : Bool) (stuck : Nat) : Nat := if !blocked then 0 else if moved then 1 else stuck + 1

/-- R345: a stage set as a span of gtime passes that ends at a given time: while dxdb holds the launch stopped, the span
counts as stopped, the boundaries in it are skipped, and the interval of a handover that is under way (R339) is the longer by
it. -/
def StageSet.passStopped (ss : StageSet) (ns now : Nat) : StageSet :=
  { ss with
    stopTime := ss.stopTime + ns
    stages := ss.stages.map fun s => { s with since := s.since + ns }
    next := if now < ss.next then ss.next else ss.next + ((now - ss.next) / ss.interval + 1) * ss.interval }

/-- R345: the run time that dxdb prints. -/
def StageSet.runTime (ss : StageSet) (now : Nat) : Nat := now - ss.since - ss.stopTime

/-- R337: a boundary of the rebalancing interval; none comes about while the launch is held stopped (R345). -/
def execRebalancingInterval (launch : Nat) (s : State) : Host.Outcome State Fault Refusal :=
  s.run fun h d =>
    match d.launch? launch with
    | none => d
    | some l =>
      match l.stages with
      | none => d
      | some ss =>
        if !ss.started || l.complete || l.cancelled || d.launchHeld launch || decide (d.gtime < ss.next) then d
        else
          let stuck := stuckAfter (d.allBlocked launch ss) ss.moved ss.stuck
          let d := d.onStages launch fun ss => { ss with stuck := stuck, moved := false, next := ss.next + ss.interval }
          (if 5 ≤ stuck then d else Dev.balance launch ss.next 8 [] d).settle h

/-! ## A donor that stays (R339) -/

/-- R339: the core of another team of the stage, the lowest. -/
def Dev.siblingCore (d : Dev) (launch k team : Nat) : Option Nat :=
  ((d.teams.filter fun e => e.2.launch == launch && e.2.stage == some k && !e.2.complete && e.1 != team).map fun e =>
    e.2.core).min?

/-- R339: a donor team that is not complete one interval after its choice is evicted, to resume on the core of a
sibling team; its core goes to the recipient, and its handover is cleared. Nothing of this comes about while dxdb holds the
launch stopped (R345). -/
def execDonorEviction (launch team : Nat) (s : State) : Host.Outcome State Fault Refusal :=
  s.run fun h d =>
    match d.team? team, d.stages? launch with
    | some t, some ss =>
      match t.stage with
      | none => d
      | some k =>
        let due := (ss.stages[k]?).any fun s => match s.handover with
          | some (_, true, x) => x == team && decide (s.since + ss.interval ≤ d.gtime)
          | _ => false
        let mine := d.warps.filter fun e => e.2.team == team && !e.2.threads.isEmpty
        match d.siblingCore launch k team with
        | none => d
        | some core =>
          if !due || d.launchHeld launch || !t.donor || t.complete || !(mine.all fun e => e.2.place == .evicted || d.evictable e.1 e.2) then d
          else
            match Dev.evictAll h true ((mine.filter fun e => e.2.place == .resident).map Prod.fst) d with
            | none => d
            | some d =>
              let d := d.onTeam team fun t => { t with core := core, donor := false, marks := [] }
              (d.onStages launch fun ss =>
                { ss with
                  stages := ss.stages.map fun s => match s.handover with
                    | some (_, false, x) => if x = team then { s with freed := some t.core } else s
                    | _ => s
                  queues := ss.queues.map fun u => { u with marks := u.marks.filter (· != team) } }).settle h
    | _, _ => d

/-- R338 step 3: a new team of the recipient starts on the core that the donor has left; where dxdb holds the launch stopped, the
team is held too (R345). -/
def execStageTeamStart (launch core : Nat) (s : State) : Host.Outcome State Fault Refusal :=
  s.run fun h d =>
    match d.launch? launch with
    | none => d
    | some l =>
      match l.stages with
      | none => d
      | some ss =>
        let k := ss.stages.findIdx fun s => s.freed == some core && !ss.closing s
        match ss.stages[k]? with
        | none => d
        | some s =>
          if l.cancelled || l.complete then d
          else
            match d.startTeam h launch l l.next core (s.form k) with
            | none => d
            | some (_, d) =>
              let team := (s.handover.map fun x => x.2.2).getD 0
              d.onLaunch launch fun l =>
                { l with
                  next := l.next + 1
                  stages := l.stages.map fun ss => { ss with stages := ss.stages.map fun s =>
                    match s.handover with
                    | some (_, _, x) => if x = team then { s with handover := none, freed := none } else s
                    | none => s } }

/-! ## A stuck set (R445, R466) -/

/-- R466: the payload of record type 0x0E (notes/assumptions/16.md). -/
def Dev.stuckRecord (d : Dev) (launch : Nat) (l : Launch) (ss : StageSet) : List Byte :=
  leBytes 4 (d.launchTag l).toNat ++
    ss.queues.flatMap (fun u => leBytes 2 u.records.length ++ leBytes 2 u.capacity ++ leBytes 1 u.ended.toNat) ++
    (List.range ss.stages.length).flatMap fun k => leBytes 2 ((d.liveStageTeams launch k).filter fun t =>
      (d.warps.filter fun e => e.2.team == t && !e.2.threads.isEmpty).all fun e => e.2.inQueue).length

/-- R445: after four stuck intervals the launch is cancelled, with FAULT and STAGE_CLOSED. -/
def execStageSetStuck (launch : Nat) (s : State) : Host.Outcome State Fault Refusal :=
  s.run fun h d =>
    match d.launch? launch with
    | none => d
    | some l =>
      match l.stages with
      | none => d
      | some ss =>
        if ss.stuck < 5 || l.cancelled || l.complete then d
        else
          let d := d.report 0x0E 3 l.slot 0 (d.stuckRecord launch l ss)
          let d := d.onLaunch launch fun l => { l with faulted := true, cause := if l.faulted then l.cause else 0x1B }
          (d.cancelLaunch launch).settle h

end Sys2Proof.Machine
end

