-- ==== Sys2Proof/Machine/Collectives.lean ====
section
/-! DEFINITION. Fabric collectives and membership views: the collective instructions, the module's sequencer, the
five operations, their completion, and the agreement and rejoin rounds (R346 to R360, R446 to R452). -/

namespace Sys2Proof.Machine

open Sys2Proof

/-! ## Issue (R353, R354, R356) -/

/-- R353: the checks of a descriptor address. -/
def collChecks (desc : Dword) : List (BitVec 8 × Bool × Dword) :=
  [(0x0D, decide (2 ^ 57 ≤ desc.toNat), desc), (0x0B, desc.toNat % 128 != 0, desc)]

/-- R354, R457: an operation goes to the module's sequencer, and leaves its lane block's hold window later. -/
def Dev.sendColl (d : Dev) (p : Party) (team : Nat) (pc : Va) (lanes : Mask) (deps : List Nat) (desc : Dword)
    (ring : Nat) (tag : BitVec 16) : Dev :=
  let (id, d) := d.fresh
  let launch := ((d.team? team).map Team.launch).getD 0
  (d.setOp id ⟨p, team, 3, id, pc, lanes, deps, false, 0, []⟩).setColl id
    { op := id, slot := d.slotOf team, launch := launch, desc := desc, ring := ring, tag := tag, accepted := false,
      bytes := [], group := 0, seq := 0, oldGen := 0, gen := 0, first := [], members := [], status := 0,
      changed := false, staged := none, given := [], acks := [], held := true }

/-- R353, R354: `coll` issues. -/
def execColl (kdsc : BitVec 6) (ring : BitVec 3) (tag : BitVec 16) (s : State) : Host.Outcome State Fault Refusal :=
  s.run fun h d =>
    let k := kdsc.toNat
    d.issueEither h 8 [k, k + 1]
      (fun id w s =>
        let desc := kGet64 w.k k
        if 255 ≤ cntGet w.cnt 3 then d.block id (.room 3 1)
        else
          match firstBad (collChecks desc) with
          | some (cause, va) => d.raise h id s cause s.mask va 0
          | none =>
            (d.sendColl (.warp id) w.team s.pc s.mask (d.warpEarlier id w) desc ring.toNat tag).commit id
              { w with cnt := cntUp w.cnt 3 } (s.after (Need.of 8 false 0 0)))
      (fun id f =>
        let desc := kGet64 f.k k
        if 255 ≤ cntGet f.cnt 3 then d.stall id (.room 3 1)
        else
          match firstBad (collChecks desc) with
          | some (cause, va) => d.fetTrap h id cause 0 f.pc va []
          | none =>
            (d.sendColl (.fet id) f.team f.pc 0 (d.earlier (.fet id) 0) desc ring.toNat tag).commitFet id
              { f with cnt := cntUp f.cnt 3 } 8)

/-- R356: `vtag` reads the current view tag of a group. -/
def execVtag (kd : BitVec 6) (group : BitVec 16) (s : State) : Host.Outcome State Fault Refusal :=
  s.run fun h d =>
    d.uniform h 8 [kd.toNat, kd.toNat + 1] fun u =>
      { u with k := kSet64 u.k kd.toNat (d.viewTag (d.partySlot d.issuer) group) }

/-! ## The descriptor (R349) -/

/-- R349: the fields of a collective descriptor. -/
structure CollDesc where
  op : Nat
  etype : Nat
  redop : Nat
  policy : Nat
  cflags : Nat
  rlog : Nat
  group : BitVec 16
  count : Nat
  sbuf : Dword
  dbuf : Dword
  vexp : Dword
  root : Nat
  reserved : Bool
  ringBase : Nat
  deriving DecidableEq, Repr

/-- R349: the descriptor that 128 bytes give. -/
def readColl (bs : List Byte) : CollDesc where
  op := field bs 0 1
  etype := field bs 1 1
  redop := field bs 2 1
  policy := field bs 3 1
  cflags := field bs 4 1
  rlog := field bs 5 1
  group := BitVec.ofNat 16 (field bs 6 2)
  count := field bs 8 8
  sbuf := BitVec.ofNat 64 (field bs 16 8)
  dbuf := BitVec.ofNat 64 (field bs 24 8)
  vexp := BitVec.ofNat 64 (field bs 32 8)
  root := field bs 40 4
  reserved := field bs 44 4 != 0 || (slice bs 56 72).any fun b => b != 0
  ringBase := field bs 48 8

/-- R349: the element formats of collectives, and those of reductions. -/
def collFormats : List Nat := [0x00, 0x01, 0x02, 0x05, 0x10, 0x12, 0x18]
def reduceFormats : List Nat := [0x00, 0x01, 0x02, 0x05, 0x18]

/-- The bytes of an element. -/
def CollDesc.size (c : CollDesc) : Nat := elementBits c.etype / 8

/-- R351: the bytes of sbuf and of dbuf, with M members. -/
def CollDesc.sourceBytes (c : CollDesc) (m : Nat) : Nat := c.count * c.size * (if c.op = 4 then m else 1)
def CollDesc.destBytes (c : CollDesc) (m : Nat) : Nat :=
  c.size * (match c.op with
    | 1 => c.count / m
    | 2 => m * c.count
    | 4 => m * c.count
    | _ => c.count)

/-- R349: sbuf is dbuf, where that is allowed. -/
def CollDesc.inPlace (c : CollDesc) : Bool := c.sbuf == c.dbuf && (c.op == 0 || c.op == 3)

/-- R349: the buffers do not overlap but as a whole. -/
def CollDesc.apart (c : CollDesc) (m : Nat) : Bool :=
  c.inPlace || decide (c.sbuf.toNat + c.sourceBytes m ≤ c.dbuf.toNat) ||
    decide (c.dbuf.toNat + c.destBytes m ≤ c.sbuf.toNat)

/-- R349, R446: a record can be written. -/
def CollDesc.ringOk (c : CollDesc) : Bool := decide (1 ≤ c.rlog) && decide (c.rlog ≤ 8) && c.ringBase % 32 == 0

/-- R349: the descriptor breaks no rule, with M members. -/
def CollDesc.valid (c : CollDesc) (m : Nat) : Bool :=
  decide (c.op ≤ 4) && collFormats.contains c.etype && !c.reserved && decide (c.policy ≤ 1) && decide (c.cflags ≤ 1) &&
    c.ringOk && decide (1 ≤ c.count) && decide (c.count ≤ 2 ^ 32) &&
    (if c.op ≤ 1 then decide (c.redop ≤ 3) && reduceFormats.contains c.etype else c.redop == 0) &&
    (if c.op = 3 then decide (c.root < m) else c.root == 0) &&
    (c.op != 1 || c.count % m == 0) &&
    c.sbuf.toNat % c.size == 0 && c.dbuf.toNat % c.size == 0 && c.apart m

/-- R349: the fields that every member gives alike. -/
def CollDesc.matches (c : CollDesc) (x : Contribution) : Bool :=
  c.op == x.op.toNat && c.etype == x.etype.toNat && c.redop == x.redop.toNat && c.policy == x.policy.toNat &&
    c.count == x.count.toNat && c.root == x.root.toNat

/-- R348: the rank of a module. -/
def rankIn (members : List Nat) (module : Nat) : Nat := (members.filter (· < module)).length

/-- R348: the module of a rank. -/
def moduleAt (members : List Nat) (rank : Nat) : Nat :=
  (members.find? fun m => rankIn members m == rank).getD 0

/-! ## Completion (R355, R446, R447) -/

/-- How a collective ends. -/
structure CollEnd where
  status : Nat
  code : Nat
  va : Nat
  bytes : Nat
  flags : Flags
  deriving DecidableEq, Repr

/-- R446: an end that moves nothing. -/
def CollEnd.early (status : Nat) : CollEnd := ⟨status, 0, 0, 0, 0⟩

/-- R347: a view tag. -/
def tagOf (group : BitVec 16) (gen : BitVec 48) : Dword := group ++ gen

/-- R447: the membership record, with its cause. -/
def membershipFault (c : Coll) (f : CollDesc) (status : Nat) : EngineFault :=
  ⟨0x15, leBytes 1 status ++ leBytes 1 f.policy ++ zeros 2 ++ leBytes 4 c.tag.toNat ++
    leBytes 8 (tagOf c.group c.oldGen).toNat ++
    leBytes 8 (if status = 0x17 then 0 else (tagOf c.group c.gen).toNat) ++ leBytes 8 c.seq⟩

/-- R446: the fault of an operation that reports to no ring. -/
def ringlessFault (tag : BitVec 16) (status code va time : Nat) : EngineFault :=
  ⟨0x14, engineRecord 9 code status 0 tag.toNat va 0 0 0 time⟩

/-- R446, R355: the detail field. -/
def collDetail (c : Coll) (e : CollEnd) : Nat :=
  if e.status = 0 || e.status = 0x13 then (tagOf c.group c.gen).toNat
  else if e.status = 0x14 then e.code * 2 ^ 57 + e.va % 2 ^ 57
  else 0

/-- R355, R446, R447: the operation is over: its record, its traps, and its decrement to be delivered. -/
def Dev.endColl (h : HostPart) (d : Dev) (id : Nat) (c : Coll) (e : CollEnd) : Dev :=
  match Table.find? d.ops id with
  | none => { d with colls := Table.erase d.colls id }
  | some o =>
    let f := readColl c.bytes
    let core := ((d.team? o.team).map Team.core).getD 0
    let time := d.clockOf core
    let fet := match o.party with
      | .fet _ => 4
      | _ => 0
    let members := if (e.status == 0x13 || e.status == 0x17) && f.cflags % 2 == 0 then [membershipFault c f e.status] else []
    let finish := fun (d : Dev) (faults : List EngineFault) =>
      { d with colls := Table.erase d.colls id }.endOp h id e.flags (members ++ faults)
    if !f.ringOk then finish d [ringlessFault c.tag 0x10 0 c.desc.toNat time]
    else
      match d.pushRecord h c.slot core o.team c.ring f.ringBase f.rlog fun index =>
          completionRecord c.tag e.status fet index e.bytes (collDetail c e) time with
      | (d, none) => finish d []
      | (d, some (.lost va)) => d.killOp h id va
      | (d, some r) => finish d [ringlessFault c.tag e.status r.status.2.1 r.status.2.2 time]

/-- R354, R446: a collective whose descriptor cannot be read. -/
def Dev.endUnread (h : HostPart) (d : Dev) (id : Nat) (c : Coll) (code : Nat) : Dev :=
  let core := ((Table.find? d.ops id).bind fun o => (d.team? o.team).map Team.core).getD 0
  { d with colls := Table.erase d.colls id }.endOp h id 0 [ringlessFault c.tag 0x14 code c.desc.toNat (d.clockOf core)]

/-! ## Acceptance (R350, R354, R360) -/

/-- The core of a collective's issuer. -/
def Dev.collCore (d : Dev) (id : Nat) : Nat :=
  ((Table.find? d.ops id).bind fun o => (d.team? o.team).map Team.core).getD 0

/-- The operations under way of a group, by sequence number. -/
def Dev.groupColls (d : Dev) (slot : Nat) (group : BitVec 16) : List (Nat × Coll) :=
  d.colls.filter fun e => e.2.accepted && e.2.slot == slot && e.2.group == group

/-- R358, R359, R360: the group takes no operation now: it waits for the module's inclusion, or for the installation of the
view that holds from the next number on, or, since no member runs two views of one group at once, for the operations of
the view before. -/
def Dev.groupWaits (d : Dev) (slot : Nat) (group : BitVec 16) : Bool :=
  match Table.find? (d.context slot).groups group.toNat with
  | none => false
  | some g =>
    g.rejoin.isSome || g.round.any (fun r => decide (r.cut ≤ g.next)) ||
      (d.groupColls slot group).any fun e => e.2.gen != g.gen

/-- What the operation's issuer did before it has performed. -/
def Dev.collReady (d : Dev) (id : Nat) : Bool := ((Table.find? d.ops id).map fun o => d.allPerformed o.deps).getD false

/-- The operation is for a group that takes none now. -/
def Dev.collWaits (h : HostPart) (d : Dev) (id : Nat) (c : Coll) : Bool :=
  match d.readVa h c.slot (d.collCore id) c.desc.toNat 128 with
  | .error _ => false
  | .ok (bs, _) => d.groupWaits c.slot (readColl bs).group

/-- R350, R457: the operation that the sequencer accepts next: the one that was issued first, of those that it does not keep
waiting for their group; none while that one is in its hold window. -/
def Dev.nextColl (h : HostPart) (d : Dev) : List (Nat × Coll) → Option (Nat × Coll)
  | [] => none
  | (id, c) :: es =>
    if c.accepted then Dev.nextColl h d es
    else if c.held || !d.collReady id then none
    else if d.collWaits h id c then Dev.nextColl h d es
    else some (id, c)

/-- A group of a context changed. -/
def Dev.onGroup (d : Dev) (slot : Nat) (group : BitVec 16) (f : Group → Group) : Dev :=
  d.onContext slot fun c => { c with groups := Table.modify c.groups group.toNat f }

/-- R449: the copy of sbuf that the engine makes where sbuf is dbuf; none where sbuf cannot be read, which the operation reports
when it reads sbuf (R446). An uncorrectable word that the page walker meets ends the context (R460). -/
def Dev.stage (h : HostPart) (d : Dev) (id : Nat) (c : Coll) (f : CollDesc) (reads : Bool) : Dev :=
  if f.inPlace && reads then
    match d.readVa h c.slot (d.collCore id) f.sbuf.toNat (f.sourceBytes 1) with
    | .ok (bs, d) => d.setColl id { c with staged := some bs }
    | .error (.lost va, d) => (d.setColl id c).killOp h id va
    | .error (_, d) => d.setColl id c
  else d.setColl id c

/-- R351: the module's sbuf is read: at the root only, in a broadcast. -/
def CollDesc.readsHere (f : CollDesc) (first : List Nat) (module : Nat) : Bool :=
  f.op != 3 || rankIn first module == f.root

/-- R354: the sequencer accepts an operation whose descriptor it has read. -/
def Dev.acceptRead (h : HostPart) (d : Dev) (id : Nat) (c : Coll) (bs : List Byte) : Dev :=
  let f := readColl bs
  let c := { c with accepted := true, bytes := bs, group := f.group }
  match Table.find? (d.context c.slot).groups f.group.toNat with
  | none => d.endColl h id c (.early 0x15)
  | some g =>
    let d := d.onGroup c.slot f.group fun g => { g with next := g.next + 1 }
    let c := { c with
      seq := g.next, oldGen := g.gen, gen := g.gen, first := g.members, members := g.members, staged := none }
    if !h.featActive.getLsbD 3 then d.endColl h id c (.early 0x15)
    else
      if g.detached || (f.vexp != 0 && f.vexp != tagOf f.group g.gen) then d.endColl h id c (.early 0x12)
      else if !f.valid g.members.length then d.endColl h id c (.early 0x10)
      else d.stage h id c f (f.readsHere g.members h.module)

/-- R350, R354: the sequencer accepts the next operation. -/
def execCollAccept (s : State) : Host.Outcome State Fault Refusal :=
  s.run fun h d =>
    match d.nextColl h d.colls with
    | none => d
    | some (id, c) =>
      match d.readVa h c.slot (d.collCore id) c.desc.toNat 128 with
      | .error (.lost va, d) => d.killOp h id va
      | .error (f, d) => d.endUnread h id c f.status.2.1
      | .ok (bs, d) => d.acceptRead h id c bs

/-! ## The operations (R351, R352, R449) -/

/-- The elements of a buffer. -/
def elementsOf (size n : Nat) (bs : List Byte) : List Nat := (List.range n).map fun i => field bs (size * i) size

/-- R352, R175: one reduction step on two elements. -/
def reduceStep (etype redop a b : Nat) : Nat × Flags :=
  match floatOf etype with
  | some f => if redop ≤ 1 then f.finish 0 (addNum 0 (f.decode a) (f.decode b)) else f.minMax (redop == 3) a b
  | none =>
    let x := integerValue 32 true a
    let y := integerValue 32 true b
    (integerBits 32 (if redop ≤ 1 then x + y else if redop = 2 then min x y else max x y), 0)

/-- An entry taken out of a list. -/
def takeOut (xs : List Nat) (i : Nat) : Nat × List Nat := (xs.getD i 0, xs.eraseIdx i)

/-- R352, R3: the elements of all members combined, two at a time, in an order that the engine chooses. -/
def reduceTree (etype redop : Nat) (pick : Nat → Nat × Nat) : Nat → List Nat → Flags → Nat × Flags
  | 0, xs, fl => (xs.headD 0, fl)
  | n + 1, xs, fl =>
    let (i, j) := pick n
    let (a, xs) := takeOut xs (i % xs.length)
    let (b, xs) := takeOut xs (j % xs.length)
    let (c, g) := reduceStep etype redop a b
    reduceTree etype redop pick n (c :: xs) (fl ||| g)

/-- R352, R449: S × num ÷ den, rounded once; s32 truncates. -/
def scaleElement (etype num den s : Nat) : Nat × Flags :=
  match floatOf etype with
  | some f =>
    let p := mulNum (f.decode s) (.ofInt num)
    let r := f.finish 0 (divNum p.1 (.ofInt den))
    (r.1, r.2 ||| p.2)
  | none => (integerBits 32 (Int.tdiv (integerValue 32 true s * num) den), 0)

/-- R352, R449: a reduced element weighted: an average by the members that gave to it; a sum that is rerun under
REWEIGHT by the members at acceptance over those that gave. -/
def Coll.weigh (c : Coll) (f : CollDesc) (s : Nat) : Nat × Flags :=
  let m := c.members.length
  if f.redop = 1 then scaleElement f.etype 1 m s
  else if f.redop = 0 && f.policy = 1 && c.changed then scaleElement f.etype c.first.length m s
  else (s, 0)

/-- R352: the reduction of elements `lo` to `lo + n`, given each rank's elements. -/
def Coll.reduce (c : Coll) (f : CollDesc) (seed lo n : Nat) (xs : List (List Nat)) : List (Nat × Flags) :=
  (List.range n).map fun i =>
    let (s, fl) := reduceTree f.etype f.redop (Config.sumPick seed (lo + i)) (xs.length - 1)
      (xs.map fun x => x.getD (lo + i) 0) 0
    let (v, g) := c.weigh f s
    (v, fl ||| g)

/-- R351: what each operation writes for a rank, given each rank's elements, with the flags raised. -/
def Coll.result (c : Coll) (f : CollDesc) (seed rank root : Nat) (xs : List (List Nat)) : List (Nat × Flags) :=
  let n := f.count
  let block := n / xs.length
  match f.op with
  | 0 => c.reduce f seed 0 n xs
  | 1 => c.reduce f seed (rank * block) block xs
  | 2 => (xs.flatMap fun x => x).map fun v => (v, 0)
  | 3 => (xs.getD root []).map fun v => (v, 0)
  | _ => (xs.flatMap fun x => (x.drop (rank * n)).take n).map fun v => (v, 0)

/-- How far undefined contents have been put into a buffer: the device, the bytes passed and the bytes written. -/
structure Scramble where
  d : Dev
  passed : Nat
  wrote : Nat
  deriving DecidableEq, Repr

/-- Undefined contents put into one part of a buffer, where it can be written. -/
def Scramble.part (h : HostPart) (slot core seed : Nat) (x : Scramble) (va n : Nat) : Scramble :=
  let bytes := (List.range n).map fun i => Config.undefinedByte seed (x.passed + i)
  match x.d.writeVa h slot core va bytes with
  | .ok d => ⟨d, x.passed + n, x.wrote + n⟩
  | .error (_, d) => ⟨d, x.passed + n, x.wrote⟩

/-- R446: undefined contents put into a buffer, where it can be written, and how many bytes that wrote. -/
def Dev.scramble (h : HostPart) (d : Dev) (slot core va n : Nat) : Scramble :=
  let (seed, d) := d.nextFree
  (pageParts va (n / pageBytes + 2) n).foldl (fun x p => x.part h slot core seed p.1 p.2) ⟨d, 0, 0⟩

/-- R446, R355: an operation that fails once it has started leaves dbuf undefined; its record counts the bytes written there. -/
def Dev.endUndefined (h : HostPart) (d : Dev) (id : Nat) (c : Coll) (f : CollDesc) (e : CollEnd) : Dev :=
  let n := Nat.max (f.destBytes c.first.length) (f.destBytes c.members.length)
  let x := d.scramble h c.slot (d.collCore id) f.dbuf.toNat n
  x.d.endColl h id c { e with bytes := x.wrote }

/-- R351, R449: the bytes that the module gives: none where it is not the root of a broadcast; the staged copy, if
there is one. -/
def Dev.ownBytes (h : HostPart) (d : Dev) (id : Nat) (c : Coll) (f : CollDesc) : Reached (List Byte) :=
  if !f.readsHere c.first h.module then .ok ([], d)
  else
    match c.staged with
    | some bs => .ok (bs, d)
    | none => d.readVa h c.slot (d.collCore id) f.sbuf.toNat (f.sourceBytes c.members.length)

/-- R448: every other member has given its contribution and acknowledged the last flit. -/
def Coll.allGiven (c : Coll) (module : Nat) : Bool :=
  c.members.all fun m => m == module || (c.given.any (fun g => g.1 == m) && c.acks.contains m)

/-- R351, R352, R446, R449: the operation under its view, given what every member gave. -/
def Dev.runColl (h : HostPart) (d : Dev) (id : Nat) (c : Coll) : Dev :=
  let f := readColl c.bytes
  let m := c.members.length
  if !(c.given.all fun g => g.1 == h.module || f.matches g.2) then d.endColl h id c (.early 0x11)
  else if f.op = 1 && f.count % m != 0 then d.endUndefined h id c f (.early 0x16)
  else
    match d.ownBytes h id c f with
    | .error (.lost va, d) => d.killOp h id va
    | .error (e, d) => d.endUndefined h id c f ⟨0x14, e.status.2.1, e.status.2.2, 0, 0⟩
    | .ok (own, d) =>
      let (seed, d) := d.nextFree
      let n := f.count * (if f.op = 4 then m else 1)
      let xs := (List.range m).map fun r =>
        let p := moduleAt c.members r
        if p = h.module then elementsOf f.size n own
        else elementsOf f.size n (((c.given.find? fun g => g.1 == p).map fun g => g.2.data).getD [])
      let root := rankIn c.members (moduleAt c.first f.root)
      let out := c.result f seed (rankIn c.members h.module) root xs
      let flags := out.foldl (fun (a : Flags) x => a ||| x.2) 0
      let bytes := out.flatMap fun x => leBytes f.size x.1
      match d.writeVa h c.slot (d.collCore id) f.dbuf.toNat bytes with
      | .error (.lost va, d) => d.killOp h id va
      | .error (e, d) => d.endUndefined h id c f ⟨0x14, e.status.2.1, e.status.2.2, 0, flags⟩
      | .ok d => d.endColl h id c ⟨if c.changed then 0x13 else 0, 0, 0, bytes.length, flags⟩

/-- R355, R448: an operation completes once every member has acknowledged its last flit. -/
def execCollComplete (operation : Nat) (s : State) : Host.Outcome State Fault Refusal :=
  s.run fun h d =>
    match Table.find? d.colls operation with
    | none => d
    | some c => if c.accepted && c.allGiven h.module then d.runColl h operation c else d

/-- R351: the length of what a member gives. -/
def contributionBytes (x : Contribution) (m : Nat) : Nat :=
  x.count.toNat * (elementBits x.etype.toNat / 8) * (if x.op = 4 then m else 1)

/-- R449: a flit goes to the operation of its group, sequence number and view; any other is dropped. -/
def execCollectiveFlit (flit : CollectiveFlit) (s : State) : Host.Outcome State Fault Refusal :=
  s.run fun h d =>
    match List.find? (fun (e : Nat × Coll) => e.2.accepted && e.2.slot == flit.slot && e.2.group == flit.group &&
        e.2.seq == flit.seq && e.2.gen == flit.gen) d.colls with
    | none => d
    | some (id, c) =>
      if !c.members.contains flit.sender || flit.sender == h.module then d
      else
        match flit.payload with
        | .contribution x =>
          let full := x.data.length == contributionBytes x c.members.length || (x.op == 3 && x.data.isEmpty)
          if !full || c.given.any (fun g => g.1 == flit.sender) then d
          else d.setColl id { c with given := c.given ++ [(flit.sender, x)] }
        | .lastAcknowledged =>
          if c.acks.contains flit.sender then d else d.setColl id { c with acks := c.acks ++ [flit.sender] }

/-! ## Losing a module (R448, R450, R451) -/

/-- R446, R451: operations under way are abandoned. -/
def Dev.abandonColls (h : HostPart) (d : Dev) (es : List (Nat × Coll)) : Dev :=
  es.foldl (fun (d : Dev) e => d.endUndefined h e.1 e.2 (readColl e.2.bytes) (.early 0x17)) d

/-- The members of a group that are not lost. -/
def Group.liveMembers (g : Group) : List Nat := g.members.filter fun m => !g.lost.contains m

/-- R358: the coordinator of a group. -/
def Group.coordinator (g : Group) : Option Nat :=
  g.liveMembers.foldl (fun best m => match best with
    | none => some m
    | some b => some (Nat.min b m)) none

/-- R451: a set holds more than half of the members of the current view. -/
def Group.majority (g : Group) (set : List Nat) : Bool :=
  decide (g.members.length < 2 * (g.members.filter set.contains).length)

/-- R450: a round under way that a lost module belongs to is abandoned; one that has committed is installed, and the module stays
lost. -/
def Group.loseMember (g : Group) (module : Nat) : Group :=
  { g with
    lost := if g.lost.contains module then g.lost else g.lost ++ [module]
    round := match g.round with
      | some r => if r.members.contains module && !r.committed then none else some r
      | none => none
    returning := g.returning.filter fun r => r.1 != module }

/-- R448, R451: one group loses a module. -/
def Dev.loseIn (h : HostPart) (module slot : Nat) (d : Dev) (group : Nat) : Dev :=
  match Table.find? (d.context slot).groups group with
  | none => d
  | some g =>
    let g := if g.members.contains module || g.round.any (fun r => r.members.contains module) then g.loseMember module
      else { g.loseMember module with lost := g.lost }
    let d := d.onGroup slot (BitVec.ofNat 16 group) fun _ => g
    if g.detached || g.majority g.liveMembers then d
    else
      (d.onGroup slot (BitVec.ofNat 16 group) fun g => { g with detached := true, round := none }).abandonColls h
        (d.groupColls slot (BitVec.ofNat 16 group))

/-- R448: a module is lost. -/
def Dev.loseModule (h : HostPart) (d : Dev) (module : Nat) : Dev :=
  if module = h.module then d
  else d.contexts.foldl (fun (d : Dev) c => (Table.keys c.2.groups).foldl (Dev.loseIn h module c.1) d) d

/-- R448: a module's management controller reports it down. -/
def execModuleLost (module : Nat) (s : State) : Host.Outcome State Fault Refusal :=
  s.run fun h d => d.loseModule h module

/-- R16, R448: every link to a module has missed 100 heartbeats in a row. -/
def Dev.linksDead (d : Dev) (module : Nat) : Bool :=
  (List.range 24).all fun p => Config.linkModule p != module || decide (100 ≤ Table.get d.heartbeats p 0)

/-- R448: a heartbeat of a port in 1 ms came, or was missed; a module whose links have all missed 100 is lost. -/
def execHeartbeat (port : Nat) (received : Bool) (s : State) : Host.Outcome State Fault Refusal :=
  s.run fun h d =>
    let missed := Table.get d.heartbeats port 0
    let d := { d with heartbeats := Table.set d.heartbeats port (if received then 0 else missed + 1) }
    if !received && d.linksDead (Config.linkModule port) then d.loseModule h (Config.linkModule port) else d

/-! ## The agreement round (R358, R359) -/

/-- R358: a proposal: the new member set, the generation after the current one, and a cut that no live member's
sequencer has passed. -/
def execAgreementProposal (slot : Nat) (group : BitVec 16) (members : List Nat) (cut : Nat) (s : State) :
    Host.Outcome State Fault Refusal :=
  s.run fun h d =>
    match Table.find? (d.context slot).groups group.toNat with
    | none => d
    | some g =>
      let busy := (g.round.map Round.committed).getD false
      if busy || g.detached || !members.contains h.module || decide (cut < g.next) || members.any g.lost.contains then d
      else d.onGroup slot group fun g => { g with round := some ⟨members.eraseDups, g.gen + 1, cut, [], false⟩ }

/-- R358: a module of the new set acknowledges. -/
def execAgreementAck (slot : Nat) (group : BitVec 16) (module : Nat) (s : State) : Host.Outcome State Fault Refusal :=
  s.run fun _ d =>
    d.onGroup slot group fun g =>
      { g with round := g.round.map fun r =>
          if r.members.contains module && !r.acks.contains module then { r with acks := r.acks ++ [module] } else r }

/-- R358, R451: the proposal commits: at the coordinator once every module has acknowledged, at another module once it
has; and only with a majority of the current view. -/
def Group.mayCommit (g : Group) (module : Nat) (r : Round) : Bool :=
  g.majority r.members &&
    (if g.coordinator = some module then r.members.all r.acks.contains else r.acks.contains module)

/-- R358: the coordinator commits. -/
def execAgreementCommit (slot : Nat) (group : BitVec 16) (s : State) : Host.Outcome State Fault Refusal :=
  s.run fun h d =>
    d.onGroup slot group fun g =>
      { g with round := g.round.map fun r => if g.mayCommit h.module r then { r with committed := true } else r }

/-- R449: an operation under way is rerun under the new view, among the survivors: a module that the round adds never had the
operation and gives nothing to it. It is abandoned where its root is lost. DESIGN CHOICE (notes/assumptions/34.md): in a
round that both adds and removes members, D of R449 counts those survivors. -/
def Dev.rerun (h : HostPart) (r : Round) (d : Dev) (e : Nat × Coll) : Dev :=
  let f := readColl e.2.bytes
  if f.op = 3 && !r.members.contains (moduleAt e.2.first f.root) then
    d.endUndefined h e.1 e.2 f (.early 0x17)
  else
    d.setColl e.1
      { e.2 with gen := r.gen, members := e.2.members.filter r.members.contains, given := [], acks := [], changed := true }

/-- R358, R359, R449, R450: the new view is installed once the module's sequencer has reached the cut. A member lost since the
round committed stays lost. -/
def Dev.install (h : HostPart) (d : Dev) (slot : Nat) (group : BitVec 16) (g : Group) (r : Round) : Dev :=
  let d := d.onGroup slot group fun g =>
    { g with gen := r.gen, members := r.members, lost := g.lost.filter r.members.contains, round := none, detached := false,
             rejoin := none, returning := g.returning.filter fun x => !r.members.contains x.1 }
  let d := if g.members.all r.members.contains then d
    else (d.groupColls slot group).foldl (Dev.rerun h r) d
  d.report 0x0B 2 slot 0 (leBytes 2 group.toNat ++ leBytes 8 (tagOf group g.gen).toNat ++
    leBytes 8 (tagOf group r.gen).toNat)

/-- R358: a member installs the new view. -/
def execViewInstall (slot : Nat) (group : BitVec 16) (s : State) : Host.Outcome State Fault Refusal :=
  s.run fun h d =>
    match Table.find? (d.context slot).groups group.toNat with
    | none => d
    | some g =>
      match g.round with
      | none => d
      | some r => if r.committed && g.next == r.cut then d.install h slot group g r else d

/-! ## Rejoining (R360, R452) -/

/-- R360, R452: a returning module asks, with the last view tag that it held. A request for a group that is not there
is refused and reported. -/
def execRejoinRequest (slot : Nat) (group : BitVec 16) (module : Nat) (tag : BitVec 64) (s : State) :
    Host.Outcome State Fault Refusal :=
  s.run fun h d =>
    match Table.find? (d.context slot).groups group.toNat with
    | none =>
      d.report (Config.refusedRejoin 0) (Config.refusedRejoin 1) slot module (leBytes 2 group.toNat ++ leBytes 8 tag.toNat)
    | some _ =>
      if module = h.module then d.onGroup slot group fun g => { g with rejoin := some (tag, d.gtime) }
      else d.onGroup slot group fun g =>
        { g with returning := (g.returning.filter fun r => r.1 != module) ++ [(module, tag)] }

/-- R360: the returning module gets the group's entry and the cut of the next round; the coordinator, which sends
them, changes nothing. A generation is never 0 and never falls (R347). -/
def execStateTransfer (slot : Nat) (group : BitVec 16) (module : Nat) (gen : BitVec 48) (members : List Nat) (cut : Nat)
    (s : State) : Host.Outcome State Fault Refusal :=
  s.run fun h d =>
    if module = h.module then
      d.onGroup slot group fun g =>
        if g.rejoin.isSome && gen != 0 && decide (g.gen.toNat ≤ gen.toNat) then
          { g with gen := gen, members := members.eraseDups, lost := [], next := cut, round := none, detached := false }
        else g
    else d

/-- R452: the returning module asks again after 1 s. -/
def execRejoinResend (slot : Nat) (group : BitVec 16) (s : State) : Host.Outcome State Fault Refusal :=
  s.run fun _ d =>
    d.onGroup slot group fun g =>
      match g.rejoin with
      | some (tag, t) => if t + 1000000000 ≤ d.gtime then { g with rejoin := some (tag, d.gtime) } else g
      | none => g

end Sys2Proof.Machine
end

