-- ==== Sys2Proof/Machine/CommandFetch.lean ====
section
/-! DEFINITION. Which command the command processors start next: the streams, their words and what each command
waits for (R104 to R108, R111, R384, R462). -/

namespace Sys2Proof.Machine

open Sys2Proof

/-- R384: the command processor of a slot is usable. -/
def HostPart.processorReady (h : HostPart) (slot : Nat) : Bool := h.ready.getLsbD (5 + processorOf slot)

/-- R104: one word of a ring. -/
def Dev.ringWord (h : HostPart) (d : Dev) (slot : Nat) (s : CmdStream) (i : Nat) : Reached Dword :=
  match d.readValue h slot (processorCore slot) (s.ring.toNat + 8 * (i % s.words)) 8 with
  | .error f => .error f
  | .ok (v, d) => .ok (BitVec.ofNat 64 v, d)

/-- Consecutive words of a ring. -/
def Dev.ringWords (h : HostPart) (slot : Nat) (s : CmdStream) : Nat → Nat → Dev → Reached (List Dword)
  | _, 0, d => .ok ([], d)
  | i, n + 1, d =>
    match d.ringWord h slot s i with
    | .error f => .error f
    | .ok (w, d) =>
      match Dev.ringWords h slot s (i + 1) n d with
      | .error f => .error f
      | .ok (ws, d) => .ok (w :: ws, d)

/-- R460: the failure is an uncorrectable word. -/
def Failure.isUncorrectable : Failure → Bool
  | .fault _ _ => false
  | .uncorrectable _ _ => true
  | .lost _ => true

/-- R108: the word after the ENDLOOP that matches a LOOP, of those that lie before wr_ptr; the failure is an uncorrectable
word on the way to it (R460). DESIGN CHOICE (notes/assumptions/40.md): where a word on the way cannot be read for another
reason, none is found, and the LOOP waits; the spec does not speak of that case. -/
def Dev.loopEnd (h : HostPart) (d : Dev) (slot : Nat) (s : CmdStream) : Nat → Nat → Nat → Except Failure (Option Nat)
  | 0, _, _ => .ok none
  | fuel + 1, i, open_ =>
    if s.wr ≤ i then .ok none
    else
      match d.ringWord h slot s i with
      | .error (f, _) => if f.isUncorrectable then .error f else .ok none
      | .ok (w, _) =>
        let n := Nat.max 1 (headerWords w)
        let op := (w.extractLsb' 0 8).toNat
        if s.wr < i + n then .ok none
        else if op = 0x0B then
          if open_ = 0 then .ok (some (i + n)) else Dev.loopEnd h d slot s fuel (i + n) (open_ - 1)
        else Dev.loopEnd h d slot s fuel (i + n) (if op = 0x0A then open_ + 1 else open_)

/-- Every earlier command of a stream is complete (R108): its graphs, and its requests to seal. -/
def Dev.streamIdle (d : Dev) (slot n : Nat) : Bool :=
  d.graphs.all (fun e => !(e.2.slot == slot && e.2.stream == n) || e.2.complete) &&
    d.seals.all fun e => e.2.party != Party.stream slot n

/-- R111: the streams of a context that have reached a PHASE go on: each other stream that holds unstarted
commands has reached one, and every graph is complete. -/
def Dev.phaseOver (d : Dev) (slot : Nat) : Bool :=
  let c := d.context slot
  c.streams.any (fun e => e.2.phase) &&
    c.streams.all (fun e => e.2.phase || (decide (e.2.wr ≤ e.2.rd) && e.2.building.isNone)) &&
    d.graphs.all fun e => e.2.slot != slot || e.2.complete

/-- R111: the next phase of a context. -/
def Dev.nextPhase (d : Dev) (slot : Nat) : Dev :=
  if d.phaseOver slot then
    d.onContext slot fun c =>
      { c with
        phaseNo := c.phaseNo + 1
        phaseCancelled := false
        streams := c.streams.map fun (e : Nat × CmdStream) => (e.1, { e.2 with phase := false }) }
  else d

/-- R462: a rollback-capable launch of the context is not complete. -/
def Dev.rollbackRuns (d : Dev) (slot : Nat) : Bool :=
  d.launches.any fun e => e.2.slot == slot && !e.2.complete && e.2.record.rollback

/-- R104: the stream has a command whose first word has arrived, and nothing that it waits for. -/
def Dev.streamOpen (h : HostPart) (d : Dev) (slot n : Nat) : Bool :=
  let c := d.context slot
  let s := c.stream n
  c.state == .open_ && h.processorReady slot && !h.stopped && !s.stopped && s.waiting.isNone && !s.phase &&
    decide (s.rd < s.wr) && !d.rollbackRuns slot

/-- R462: a rollback-capable launch may start, by its own command or as a node of a graph: every other graph of the context is
complete, and every request to seal, and no stream stands in an earlier WAIT. -/
def Dev.aloneInContext (d : Dev) (slot : Nat) (graph : Option Nat) : Bool :=
  d.graphs.all (fun e => graph == some e.1 || e.2.slot != slot || e.2.complete) &&
    d.seals.all (fun e => d.partySlot e.2.party != slot) &&
    (d.context slot).streams.all fun e => e.2.waiting.isNone || graph.any fun g => decide (g < e.2.turn)

/-- R462: the launch record that a command names is of a rollback-capable launch. -/
def Dev.namesRollback (h : HostPart) (d : Dev) (slot : Nat) (i : Instr) : Bool :=
  let record := match i with
    | .launch _ r => some r
    | .launchIndirect _ r _ => some r
    | _ => none
  match record with
  | none => false
  | some r =>
    match d.readValue h slot (processorCore slot) (r.toNat + 38) 2 with
    | .ok (v, _) => decide (v / 2 % 2 = 1)
    | .error _ => false

/-- R81, R108, R462: a command may start now: a CODE_UNLOAD once no access in flight uses the object's frames. -/
def Dev.mayStart (h : HostPart) (d : Dev) (slot n : Nat) (i : Instr) : Bool :=
  match i with
  | .fenceCommand _ => d.streamIdle slot n
  | .signal _ _ _ _ => d.streamIdle slot n
  | .loop _ _ =>
    let s := (d.context slot).stream n
    (match d.loopEnd h slot s (s.wr - s.rd) (s.rd + 2) 0 with
      | .ok none => false
      | _ => true) || decide (4 ≤ s.loops.length)
  | .codeUnload _ _ handle =>
    match Table.find? d.code handle.toNat with
    | none => true
    | some o => !(o.frames.any fun f => d.frameUsed f.2.2)
  | .launch _ _ | .launchIndirect _ _ _ =>
    !d.namesRollback h slot i || d.aloneInContext slot none
  | _ => true

/-- What the command processor finds at a stream's position. -/
inductive CommandFetched where
  /-- The words have not all arrived, or the command has to wait. -/
  | waits
  | failed (tag : BitVec 32) (status opcode : Nat)
  /-- An uncorrectable word of the ring, at an address (R460). -/
  | uncorrectable (va : Nat)
  | run (i : Instr)
  deriving DecidableEq, Repr

/-- R106, R107, R116: the next command of a stream. DESIGN CHOICE (notes/assumptions/40.md): a header that cannot be read
fails with FAULT, and its error record has tag 0 and opcode 0; the spec names neither for such a command. -/
def Dev.nextCommand (h : HostPart) (d : Dev) (slot n : Nat) : CommandFetched × Dev :=
  let s := (d.context slot).stream n
  match d.ringWord h slot s s.rd with
  | .error (f, d) => (if f.isUncorrectable then .uncorrectable f.va else .failed 0 0x08 0, d)
  | .ok (w, d) =>
    let op := (w.extractLsb' 0 8).toNat
    let tag := w.extractLsb' 32 32
    let k := headerWords w
    if !(wordsOf op).contains k then (.failed tag 0x01 op, d)
    else if s.wr < s.rd + k then (.waits, d)
    else
      match Dev.ringWords h slot s s.rd k d with
      | .error (f, d) => (if f.isUncorrectable then .uncorrectable f.va else .failed tag 0x08 op, d)
      | .ok (ws, d) =>
        match decodeCommand ws with
        | none => (.failed tag 0x01 op, d)
        | some i => (if d.mayStart h slot n i then .run i else .waits, d)

/-- R105: the streams that have a command to start or to refuse, with their priority and the time of their last
start. -/
def Dev.readyStreams (h : HostPart) (d : Dev) : List (Nat × Nat × Nat × Nat) :=
  d.contexts.flatMap fun c => (List.range 16).filterMap fun n =>
    if d.streamOpen h c.1 n then
      match (d.nextCommand h c.1 n).1 with
      | .waits => none
      | _ => let s := c.2.stream n
             some (c.1, n, s.priority, s.turn)
    else none

/-- R105: the stream of highest priority; among those of equal priority, the one that started least recently. -/
def bestStream : List (Nat × Nat × Nat × Nat) → Option (Nat × Nat × Nat × Nat)
  | [] => none
  | s :: ss =>
    match bestStream ss with
    | none => some s
    | some t => if s.2.2.1 > t.2.2.1 || (s.2.2.1 == t.2.2.1 && decide (s.2.2.2 ≤ t.2.2.2)) then some s else some t

/-- What the command processors do in a turn. -/
inductive CommandIssue where
  | idle (d : Dev)
  | run (i : Instr) (d : Dev)

/-- R105: the turn of the command processors. -/
def Dev.commandTurn (h : HostPart) (d : Dev) : CommandIssue :=
  let d := (d.contexts.map Prod.fst).foldl Dev.nextPhase d
  match bestStream (d.readyStreams h) with
  | none => .idle d
  | some (slot, n, _, _) =>
    let (stamp, d) := d.fresh
    let (f, d) := (d.onStream slot n fun s => { s with turn := stamp }).nextCommand h slot n
    match f with
    | .waits => .idle d
    | .failed tag status op =>
      .idle (d.failCommand h slot n tag status op 0 ((d.context slot).stream n).rd)
    | .uncorrectable va => .idle (d.killSlot h slot va)
    | .run i => .run i { d with issuer := .stream slot n, issued := false }

/-- R104: the words of a command. -/
def commandWords (i : Instr) : Nat := ((encodeCommand i).getD []).length

/-- R104: the command has started: rd_ptr moves past it. -/
def Dev.advance (h : HostPart) (d : Dev) (slot n : Nat) (i : Instr) : Dev :=
  (({ d with issued := true }).onStream slot n fun s => { s with rd := s.rd + commandWords i }).storeRd h slot n

/-- R104: the stream goes on at another word. -/
def Dev.jumpTo (h : HostPart) (d : Dev) (slot n word : Nat) : Dev :=
  (({ d with issued := true }).onStream slot n fun s => { s with rd := word }).storeRd h slot n

/-- A command's effect, where a stream issues it. -/
def Dev.asCommand (d : Dev) (k : Nat → Nat → CmdStream → Dev) : Dev :=
  match d.issuer with
  | .stream slot n => k slot n ((d.context slot).stream n)
  | _ => d

end Sys2Proof.Machine
end

