-- ==== Sys2Proof/Machine/Commands.lean ====
section
/-! DEFINITION. The commands of a stream: launches and their records, copies, graphs, phases, waits, signals, loops,
cancels and seals, with the snapshots of a rollback-capable launch and its rollback (R97, R98, R104 to R114, R383,
R462, R463). -/

namespace Sys2Proof.Machine

open Sys2Proof

/-! ## The launch record (R97, R98, R113, R114) -/

/-- R97: a format slot record. -/
def readSlot (bs : List Byte) : FormatSlot :=
  let flags : Byte := BitVec.ofNat 8 (field bs 1 1)
  ⟨BitVec.ofNat 8 (field bs 0 1), flags.getLsbD 0, flags.getLsbD 1, flags.getLsbD 2, field bs 2 1,
    BitVec.ofNat 32 (field bs 4 4), BitVec.ofNat 64 (field bs 8 8)⟩

/-- R98: a format slot record is valid. -/
def slotValid (bs : List Byte) : Bool :=
  let s := readSlot bs
  let code := s.format.toNat
  elementBits code != 0 && decide (field bs 1 1 < 8) && field bs 3 1 == 0 && decide (s.round ≤ 3) &&
    s.sparse == sparseCode code &&
    (if (blockOf code).isSome && !sparseCode code then !s.expStride.getLsbD 0 else s.expStride == 0)

/-- R113: the fields of a launch record, with other grid sizes where a command gives them. -/
def readLaunch (bs : List Byte) (grid : Option (List Byte)) : LaunchRecord where
  teamWarps := field bs 2 2
  grid := match grid with
    | none => (field bs 4 4, field bs 8 4, field bs 12 4)
    | some g => (field g 0 4, field g 4 4, field g 8 4)
  handle := BitVec.ofNat 64 (field bs 16 8)
  stackLimit := field bs 24 2
  frameSlots := field bs 26 2
  sharedBytes := field bs 28 4
  seed := BitVec.ofNat 16 (field bs 32 2)
  pair := field bs 36 1 == 1
  perf := field bs 37 1
  idempotent := (BitVec.ofNat 16 (field bs 38 2)).getLsbD 0
  rollback := (BitVec.ofNat 16 (field bs 38 2)).getLsbD 1
  argBase := BitVec.ofNat 64 (field bs 40 8)
  argBytes := BitVec.ofNat 32 (field bs 48 4)
  trapEntry := BitVec.ofNat 64 (field bs 56 8)
  handlerStack := BitVec.ofNat 64 (field bs 64 8)
  stageSet := BitVec.ofNat 64 (field bs 72 8)
  slots := (List.range 8).map fun n => readSlot (slice bs (128 + 16 * n) 16)

/-- R113, R328: the fields are ones that a record may have. -/
def recordValid (va : Dword) (bs : List Byte) (r : LaunchRecord) : Bool :=
  va.toNat % 64 == 0 && field bs 0 2 == 1 &&
    (r.stageSet != 0 || (decide (1 ≤ r.teamWarps) && decide (r.teamWarps ≤ 32))) &&
    decide (16 ≤ r.stackLimit) && decide (r.stackLimit ≤ 1024) && decide (r.frameSlots ≤ 256) &&
    r.sharedBytes % 128 == 0 && decide (r.sharedBytes ≤ 0x200000) && decide (field bs 36 1 ≤ 1) && decide (r.perf ≤ 7) &&
    decide (field bs 38 2 < 4) && r.argBase.toNat % 8 == 0 && r.argBytes.toNat % 8 == 0 &&
    decide (r.argBytes.toNat ≤ 65536) && field bs 52 4 == 0 && r.trapEntry.toNat % 64 == 0 &&
    r.stageSet.toNat % 64 == 0 && (slice bs 80 48).all fun b => b == 0

/-- R383: the features that the record needs are active. -/
def recordAllowed (h : HostPart) (r : LaunchRecord) : Bool :=
  (!r.pair || h.featActive.getLsbD 1) && (r.stageSet == 0 || h.featActive.getLsbD 2)

/-- R114, R366: the code handle is loaded, in the context. -/
def Dev.handleLoaded (d : Dev) (slot : Nat) (handle : Dword) : Bool :=
  ((Table.find? d.code handle.toNat).map fun o => o.contexts.contains slot).getD false

/-! ## Snapshots of a rollback-capable launch (R462) -/

/-- The entries of a page table that are not 0, by index. -/
def tableIndices (m : Memory) (table : Nat) : List Nat :=
  ((Memory.range m table 0x10000).map fun c => (c.1 - table) / 8).eraseDups

/-- What an index of a level adds to an address. -/
def levelSpan (level : Nat) : Nat :=
  match level with
  | 1 => 2 ^ 55
  | 2 => 2 ^ 42
  | 3 => 2 ^ 29
  | _ => 2 ^ 16

/-- R79, R80: the leaves of 64 KiB under a table, with their addresses. -/
def leavesUnder (m : Memory) : Nat → Nat → Nat → Nat → List (Nat × Dword)
  | 0, _, _, _ => []
  | fuel + 1, level, table, va =>
    (tableIndices m table).flatMap fun i =>
      let e : Dword := BitVec.ofNat 64 (leValue (Memory.readBytes m (table + 8 * i) 8))
      let at_ := va + i * levelSpan level
      if !pteValid e then []
      else if pteLeaf e then if level = 4 then [(at_, e)] else []
      else leavesUnder m fuel (level + 1) (ptePa e) at_

/-- The data leaves of a context. -/
def Dev.dataLeaves (d : Dev) (slot : Nat) : List (Nat × Dword) :=
  match (d.context slot).roots.head? with
  | none => []
  | some root => (leavesUnder d.mem 4 1 root 0).filter fun l => !pteX l.2

/-- A frame of a slice. -/
def slicePage (pa : Nat) : Bool := decide (slicePa 0 ≤ pa) && decide (pa < slicePa 576)

/-- Why the work of a node does not start: the status of its command (R113, R116); an uncorrectable word that the command
processor or the memory manager met (R460); or a frame of the save area that is not there now, for which it waits. -/
inductive Refused where
  | status (n : Nat)
  | uncorrectable (va : Nat)
  | later
  deriving DecidableEq, Repr

/-- R116, R460: a read that fails refuses the work. -/
def Failure.refused : Failure → Refused
  | .fault _ _ => .status 0x08
  | .uncorrectable va _ => .uncorrectable va
  | .lost va => .uncorrectable va

/-- The core in whose slice a physical address lies. -/
def sliceCoreOf (pa : Nat) : Nat := (pa - slicePa 0) / sliceBytes

/-- R404, R462: a page of a slice goes to its core's slice image in the context's save area. -/
def Dev.imagePage (h : HostPart) (slot : Nat) (d : Dev) (pa : Nat) : Option Dev :=
  d.saveSlice h slot (sliceCoreOf pa) (pa - slicePa (sliceCoreOf pa)) pageBytes

/-- R462: every writable leaf becomes a snapshot page, and the mapped slice pages are copied to the save area. The memory
manager consumes the words that it copies (R365, R460). -/
def Dev.takeSnapshots (h : HostPart) (d : Dev) (slot : Nat) : Except Refused Dev :=
  let leaves := d.dataLeaves slot
  let pages := leaves.filter fun l => pteW l.2 && !slicePage (ptePa l.2)
  let slices := leaves.filter fun l => slicePage (ptePa l.2)
  match slices.find? fun l => d.poisoned (ptePa l.2) pageBytes with
  | some l => .error (.uncorrectable l.1)
  | none =>
    let frames := slices.map fun l => ptePa l.2
    match frames.foldl (fun (d : Option Dev) pa => d.bind fun d => d.imagePage h slot pa) (some d) with
    | none => .error .later
    | some d =>
      let d := pages.foldl (fun (d : Dev) l =>
        ((d.mapPage h slot l.1 (leafEntry (ptePa l.2) false false (pteRd l.2))).getD d).dropTlb slot l.1 pageBytes) d
      .ok (d.onContext slot fun c =>
        { c with snapshots := pages.map fun l => ⟨l.1, pageBytes, ptePa l.2, false⟩, sliceImages := frames })

/-! ## A launch starts (R21, R108, R113, R114, R462) -/

/-- R113, R114: the record of a launch, read and checked, with its stage set; or why it is refused. -/
def Dev.readRecord (h : HostPart) (d : Dev) (slot : Nat) (record : Dword) (grid : Option Dword) :
    Except (Refused × Dev) (LaunchRecord × Option StageSet × Dev) :=
  let core := processorCore slot
  match d.readVa h slot core record.toNat 256 with
  | .error (f, d) => .error (f.refused, d)
  | .ok (bs, d) =>
    let sizes : Reached (Option (List Byte)) := match grid with
      | none => .ok (none, d)
      | some va => (d.readVa h slot core va.toNat 12).map fun r => (some r.1, r.2)
    match sizes with
    | .error (f, d) => .error (f.refused, d)
    | .ok (g, d) =>
      let r := readLaunch bs g
      if !recordValid record bs r || !recordAllowed h r || !d.handleLoaded slot r.handle then .error (.status 0x02, d)
      else if !((List.range 8).all fun n => slotValid (slice bs (128 + 16 * n) 16)) then .error (.status 0x03, d)
      else if r.stageSet = 0 then .ok (r, none, d)
      else
        match d.readVa h slot core r.stageSet.toNat 528 with
        | .error (f, d) => .error (f.refused, d)
        | .ok (ss, d) =>
          match (Table.find? d.code r.handle.toNat).bind fun c => readStageSet c r ss with
          | none => .error (.status 0x02, d)
          | some s => .ok (r, some s, d)

/-- R112: one team of a launch is cancelled. A team that has not been placed, or that waits to be placed again, will not
be: it is complete. DESIGN CHOICE (notes/assumptions/48.md): in a launch of a stage set the index names a team that has
started, since R329 numbers the teams as they start; one that has not, or that a rollback has still to start again, is not
named, and the CANCEL does nothing to it. -/
def Dev.cancelTeamOf (d : Dev) (index launch : Nat) : Dev :=
  match List.find? (fun (e : Nat × Team) => e.2.launch == launch && e.2.index == index) d.teams with
  | some (id, t) => if t.complete then d else (d.cancelTeam id).onTeam id fun t => { t with ended := false }
  | none =>
    match d.launch? launch with
    | none => d
    | some l =>
      if l.again.contains index then d.onLaunch launch fun l => { l with again := l.again.filter fun i => i != index }
      else if l.stages.isSome || l.record.teams ≤ index || index < l.next then d
      else
        let (id, d) := d.fresh
        d.setTeam id
          { launch := launch, index := index, coords := l.record.coordsOf index, core := 0, follower := none, start := 0,
            stage := none, warps := 0, shared := 0, sharedBytes := 0, reserved := 0, bars := [], rings := [], eos := [],
            donor := false, marks := [], ended := false, complete := true, held := false, record := 0 }

/-- A launch as it starts. -/
def Launch.start (slot graph node : Nat) (r : LaunchRecord) (stages : Option StageSet) (rolled : Bool) : Launch :=
  ⟨slot, graph, node, r, r.handle.toNat, 0, [], [], stages, false, false, 0, rolled, false⟩

/-- A node's launch starts, without the teams that a CANCEL has named (R112), or is refused. -/
def Dev.startLaunch (h : HostPart) (d : Dev) (slot graph node : Nat) (dropped : List Nat) (record : Dword)
    (grid : Option Dword) : Except (Refused × Dev) Dev :=
  match d.readRecord h slot record grid with
  | .error st => .error st
  | .ok (r, ss, d) =>
    match (if r.rollback then d.takeSnapshots h slot else .ok d) with
    | .error st => .error (st, d)
    | .ok d =>
      let (id, d) := d.fresh
      .ok (dropped.foldl (fun (d : Dev) i => d.cancelTeamOf i id) (d.setLaunch id (Launch.start slot graph node r ss false)))

/-- R107: a node's COPY starts. -/
def Dev.startCopy (d : Dev) (slot graph node : Nat) (src dst count : Dword) : Dev :=
  let (id, d) := d.fresh
  d.setCopy id ⟨id, processorCore slot, slot, 0, graph, node, .bytes src dst count, 0, 0, false, none, false⟩

/-- The work of a node starts, or is refused. -/
def Dev.startWork (h : HostPart) (d : Dev) (slot graph node : Nat) (dropped : List Nat) : NodeCommand → Except (Refused × Dev) Dev
  | .launch record => d.startLaunch h slot graph node dropped record none
  | .launchIndirect record grid => d.startLaunch h slot graph node dropped record (some grid)
  | .copy src dst count => .ok (d.startCopy slot graph node src dst count)

/-! ## Graphs (R108 to R110) -/

/-- R109: a graph that is broken is refused: the stream stands at its GRAPH. -/
def Dev.badGraph (h : HostPart) (d : Dev) (slot n : Nat) (b : Building) : Dev :=
  (d.onStream slot n fun s => { s with rd := b.word, building := none }).failCommand h slot n b.tag 0x04 0x04 0 b.word

/-- R109: a command that is not part of a graph may not come before the graph's last EDGE. -/
def Dev.command (h : HostPart) (d : Dev) (k : Nat → Nat → CmdStream → Dev) : Dev :=
  d.asCommand fun slot n st =>
    match st.building with
    | some b => d.badGraph h slot n b
    | none => k slot n st

/-- R26, R112: the context's job or its phase is cancelled. -/
def Dev.workCancelled (d : Dev) (slot : Nat) : Bool := (d.context slot).cancelled || (d.context slot).phaseCancelled

/-- R108: a command that runs as a graph of one node. -/
def Dev.oneNode (h : HostPart) (d : Dev) (i : Instr) (tag : BitVec 32) (opcode : Nat) (cmd : NodeCommand) : Dev :=
  d.command h fun slot n st =>
    let (gid, d1) := d.fresh
    let off := d.workCancelled slot
    let node : Node := ⟨tag, st.rd, cmd, 0, [], if off then .waiting else .running, []⟩
    let d1 := d1.setGraph gid ⟨slot, n, tag, opcode, st.rd, [node], off, false⟩
    let started := if off then .ok d1 else d1.startWork h slot gid 0 [] cmd
    match started with
    | .error (.status status, e) => { e with graphs := Table.erase e.graphs gid }.failCommand h slot n tag status opcode 0 st.rd
    | .error (.uncorrectable va, e) => e.killSlot h slot va
    | .error (.later, _) => d
    | .ok d2 => (d2.advance h slot n i).settle h

def execLaunch (tag : BitVec 32) (record : BitVec 64) (s : State) : Host.Outcome State Fault Refusal :=
  s.run fun h d => d.oneNode h (.launch tag record) tag 0x01 (.launch record)
def execLaunchIndirect (tag : BitVec 32) (record grid : BitVec 64) (s : State) : Host.Outcome State Fault Refusal :=
  s.run fun h d => d.oneNode h (.launchIndirect tag record grid) tag 0x02 (.launchIndirect record grid)
def execCopy (tag : BitVec 32) (src dst bytes : BitVec 64) (s : State) : Host.Outcome State Fault Refusal :=
  s.run fun h d => d.oneNode h (.copy tag src dst bytes) tag 0x03 (.copy src dst bytes)

/-- R107, R109: a GRAPH opens. -/
def execGraph (tag : BitVec 32) (nodes edges : BitVec 16) (s : State) : Host.Outcome State Fault Refusal :=
  s.run fun h d => d.command h fun slot n st =>
    if nodes = 0 || decide (4096 < nodes.toNat) || decide (16384 < edges.toNat) then
      d.failCommand h slot n tag 0x01 0x04 0 st.rd
    else
      { d with issued := true }.onStream slot n fun s =>
        { s with rd := s.rd + 2, building := some ⟨tag, s.rd, nodes.toNat, edges.toNat, [], []⟩ }

/-- R109: the nodes that no node of the rest leads to are taken away, one round after another. -/
def graphAcyclic (edges : List (Nat × Nat)) : Nat → List Nat → Bool
  | 0, left => left.isEmpty
  | fuel + 1, left =>
    let next := left.filter fun n => edges.any fun e => e.2 == n && left.contains e.1
    if next.length = left.length then left.isEmpty else graphAcyclic edges fuel next

/-- R110: the nodes of a graph with their predecessors counted. -/
def Building.nodesOf (b : Building) : List Node :=
  (List.range b.nodes).map fun i =>
    let x := ((b.gotNodes.find? fun e => e.1 == i).map Prod.snd).getD ⟨0, 0, .copy 0 0 0, 0, [], .done, []⟩
    { x with
      preds := (b.gotEdges.filter fun e => e.2 == i).length
      succs := (b.gotEdges.filter fun e => e.1 == i).map Prod.snd }

/-- R109, R110: the graph starts once its last NODE or EDGE has been read, unless its edges form a cycle. -/
def Dev.closeGraph (h : HostPart) (d : Dev) (slot n : Nat) (b : Building) : Dev :=
  if b.gotNodes.length < b.nodes || b.gotEdges.length < b.edges then d
  else if !graphAcyclic b.gotEdges (b.nodes + 1) (List.range b.nodes) then d.badGraph h slot n b
  else
    let (gid, d) := d.fresh
    let d := d.onStream slot n fun s => { s with building := none }
    ((d.setGraph gid ⟨slot, n, b.tag, 0x04, b.word, b.nodesOf, d.workCancelled slot, false⟩).storeRd h slot n).settle h

/-- R109: a NODE or an EDGE joins the graph that is open. -/
def Dev.joinGraph (h : HostPart) (d : Dev) (i : Instr) (tag : BitVec 32) (opcode : Nat) (f : CmdStream → Building → Option Building) :
    Dev :=
  d.asCommand fun slot n st =>
    match st.building with
    | none => d.failCommand h slot n tag 0x04 opcode 0 st.rd
    | some b =>
      match f st b with
      | none => d.badGraph h slot n b
      | some b =>
        ({ d with issued := true }.onStream slot n fun s => { s with rd := s.rd + commandWords i, building := some b }).closeGraph
          h slot n b

/-- R109: a NODE: its index is in range and new, and every NODE comes before the first EDGE. -/
def execNode (tag : BitVec 32) (index : BitVec 16) (cmd : NodeCommand) (s : State) : Host.Outcome State Fault Refusal :=
  s.run fun h d => d.joinGraph h (.node tag index cmd) tag 0x05 fun st b =>
    if b.nodes ≤ index.toNat || b.gotNodes.any fun e => e.1 == index.toNat then none
    else some { b with gotNodes := b.gotNodes ++ [(index.toNat, ⟨tag, st.rd, cmd, 0, [], .waiting, []⟩)] }

/-- R109: an EDGE: its nodes are in range and differ, it is new, and it comes after the last NODE. -/
def execEdge (tag : BitVec 32) (src dst : BitVec 16) (s : State) : Host.Outcome State Fault Refusal :=
  s.run fun h d => d.joinGraph h (.edge tag src dst) tag 0x06 fun _ b =>
    let e := (src.toNat, dst.toNat)
    if b.gotNodes.length < b.nodes || b.nodes ≤ e.1 || b.nodes ≤ e.2 || e.1 == e.2 || b.gotEdges.contains e then none
    else some { b with gotEdges := b.gotEdges ++ [e] }

/-- R462: a node's launch is rollback-capable, as its record stands. -/
def Dev.nodeRollback (h : HostPart) (d : Dev) (slot : Nat) : NodeCommand → Bool
  | .launch r => d.namesRollback h slot (.launch 0 r)
  | .launchIndirect r _ => d.namesRollback h slot (.launch 0 r)
  | .copy _ _ _ => false

/-- R110, R462: a node may start: its predecessors are complete, and no rollback-capable launch stands against it. -/
def Dev.nodeReady (h : HostPart) (d : Dev) (slot graph : Nat) (g : Graph) (x : Node) : Bool :=
  g.slot == slot && !g.cancelled && x.state == NodeState.waiting && x.preds == 0 && !d.rollbackRuns slot &&
    (!d.nodeRollback h slot x.cmd ||
      (g.nodes.all (fun y => y.state != NodeState.running) && d.aloneInContext slot (some graph)))

/-- R110: a node starts; one that is refused has failed (R116), and counts as complete. -/
def execNodeStart (slot graph index : Nat) (s : State) : Host.Outcome State Fault Refusal :=
  s.run fun h d =>
    match (Table.find? d.graphs graph).bind fun g => (g.nodes[index]?).map fun x => (g, x) with
    | none => d
    | some (g, x) =>
      if !d.nodeReady h slot graph g x then d
      else
        let waits := d
        let d := d.setGraph graph { g with nodes := changeAt g.nodes index fun x => { x with state := .running } }
        match d.startWork h slot graph index x.dropped x.cmd with
        | .ok d => d.settle h
        | .error (.status status, d) => ((d.failNode h graph index status 0).nodeDone graph index).settle h
        | .error (.uncorrectable va, d) => d.killSlot h slot va
        | .error (.later, _) => waits

/-! ## Phases, waits, signals and loops (R108, R111) -/

/-- R111: the stream has reached a PHASE. -/
def execPhase (tag : BitVec 32) (s : State) : Host.Outcome State Fault Refusal :=
  s.run fun h d => d.command h fun slot n _ =>
    (d.advance h slot n (.phase tag)).onStream slot n fun s => { s with phase := true }

/-- R107, R108: the condition of a WAIT. -/
def waitMet (eq : Bool) (v : Nat) (x : Dword) : Bool := if eq then v == x.toNat else decide (x.toNat ≤ v)

/-- R108: a WAIT reads its value for the first time. -/
def execWait (tag : BitVec 32) (eq : Bool) (va x : BitVec 64) (s : State) : Host.Outcome State Fault Refusal :=
  s.run fun h d => d.command h fun slot n st =>
    match d.readValue h slot (processorCore slot) va.toNat 8 with
    | .error (f, d) => d.unreadable h slot f fun d => d.failCommand h slot n tag 0x08 0x08 0 st.rd
    | .ok (v, d) =>
      let d := d.advance h slot n (.wait tag eq va x)
      if waitMet eq v x then d else d.onStream slot n fun s => { s with waiting := some (tag, eq, va, x) }

/-- R108: the value of an open WAIT is read again. -/
def execWaitPoll (slot stream : Nat) (s : State) : Host.Outcome State Fault Refusal :=
  s.run fun h d =>
    let st := (d.context slot).stream stream
    match st.waiting with
    | none => d
    | some (tag, eq, va, x) =>
      match d.readValue h slot (processorCore slot) va.toNat 8 with
      | .error (f, d) =>
        d.unreadable h slot f fun d =>
          (d.onStream slot stream fun s => { s with waiting := none }).failCommand h slot stream tag 0x08 0x08 0 (st.rd - 3)
      | .ok (v, d) => if waitMet eq v x then d.onStream slot stream fun s => { s with waiting := none } else d

/-- R382, R468: the interrupt of a context slot; it is held while the host link is down. -/
def Dev.interrupt (h : HostPart) (d : Dev) (slot : Nat) : Dev :=
  if h.linkUp then { d with irqs := d.irqs ++ [slot] } else { d with heldIrqs := d.heldIrqs ++ [slot] }

/-- R108: every earlier command is complete: the value is written, and the interrupt follows. -/
def execSignal (tag : BitVec 32) (irq : Bool) (va value : BitVec 64) (s : State) : Host.Outcome State Fault Refusal :=
  s.run fun h d => d.command h fun slot n st =>
    match d.writeVa h slot (processorCore slot) va.toNat (leBytes 8 value.toNat) with
    | .error (f, d) => d.unreadable h slot f fun d => d.failCommand h slot n tag 0x08 0x09 0 st.rd
    | .ok d =>
      let d := d.advance h slot n (.signal tag irq va value)
      if irq then d.interrupt h slot else d

/-- R107, R108: a LOOP opens; a count of 0 goes past its ENDLOOP. -/
def execLoop (tag count : BitVec 32) (s : State) : Host.Outcome State Fault Refusal :=
  s.run fun h d => d.command h fun slot n st =>
    if 4 ≤ st.loops.length then d.failCommand h slot n tag 0x01 0x0A 0 st.rd
    else if count = 0 then
      match d.loopEnd h slot st (st.wr - st.rd) (st.rd + 2) 0 with
      | .ok none => d
      | .ok (some word) => d.jumpTo h slot n word
      | .error f => d.killSlot h slot f.va
    else
      (d.advance h slot n (.loop tag count)).onStream slot n fun s => { s with loops := (st.rd + 2, count.toNat) :: s.loops }

/-- R107, R108: a pass of the innermost loop is over. -/
def execEndloop (tag : BitVec 32) (s : State) : Host.Outcome State Fault Refusal :=
  s.run fun h d => d.command h fun slot n st =>
    match st.loops with
    | [] => d.failCommand h slot n tag 0x01 0x0B 0 st.rd
    | (word, passes) :: rest =>
      if 2 ≤ passes then
        (d.jumpTo h slot n word).onStream slot n fun s => { s with loops := (word, passes - 1) :: rest }
      else (d.advance h slot n (.endloop tag)).onStream slot n fun s => { s with loops := rest }

/-- R108: an IF whose condition is false skips words. -/
def execIfSkip (tag : BitVec 32) (eqz : Bool) (va : BitVec 64) (skip : BitVec 32) (s : State) :
    Host.Outcome State Fault Refusal :=
  s.run fun h d => d.command h fun slot n st =>
    match d.readValue h slot (processorCore slot) va.toNat 8 with
    | .error (f, d) => d.unreadable h slot f fun d => d.failCommand h slot n tag 0x08 0x0C 0 st.rd
    | .ok (v, d) => d.jumpTo h slot n (st.rd + 3 + (if (v == 0) == eqz then 0 else skip.toNat))

/-- R108: a FENCE starts once every earlier command is complete, and does nothing. -/
def execFenceCommand (tag : BitVec 32) (s : State) : Host.Outcome State Fault Refusal :=
  s.run fun h d => d.command h fun slot n _ => d.advance h slot n (.fenceCommand tag)

/-! ## Cancel (R26, R112) -/

/-- R112: the header tag of the command that a launch is. -/
def Dev.tagOfLaunch (d : Dev) (l : Launch) : Option (BitVec 32) :=
  (Table.find? d.graphs l.graph).bind fun g => (g.nodes[l.node]?).map Node.tag

/-- R112: the launches of a context that a tag names. -/
def Dev.taggedLaunches (d : Dev) (slot : Nat) (tag : BitVec 32) : List Nat :=
  (d.launches.filter fun e => e.2.slot == slot && !e.2.complete && d.tagOfLaunch e.2 == some tag).map Prod.fst

/-- The graphs of a context that are not complete. -/
def Dev.openGraphs (d : Dev) (slot : Nat) : List Nat :=
  (d.graphs.filter fun e => e.2.slot == slot && !e.2.complete).map Prod.fst

/-- R26, R112: what a cancel of a context's job does: nothing further of it starts. -/
def Dev.cancelJob (d : Dev) (slot : Nat) : Dev :=
  ((d.openGraphs slot).foldl Dev.cancelGraph d).onContext slot fun c => { c with cancelled := true }

/-- A command that a node runs is a launch. -/
def isLaunch : NodeCommand → Bool
  | .launch _ => true
  | .launchIndirect _ _ => true
  | .copy _ _ _ => false

/-- R112: the node is a launch that a tag names and that is not complete. -/
def Node.named (tag : BitVec 32) (x : Node) : Bool := isLaunch x.cmd && x.tag == tag && x.state != NodeState.done

/-- R112: the launches that a tag names and that still wait for predecessors (R110): graph and node. -/
def Dev.taggedNodes (d : Dev) (slot : Nat) (tag : BitVec 32) : List (Nat × Nat) :=
  d.graphs.flatMap fun e =>
    if e.2.slot != slot || e.2.complete || e.2.cancelled then []
    else
      (((List.range e.2.nodes.length).zip e.2.nodes).filter fun (k : Nat × Node) =>
        k.2.named tag && k.2.state == NodeState.waiting).map fun k => (e.1, k.1)

/-- R26, R110, R112: a launch that has not started is cancelled: it counts as complete, with the status CANCELLED. -/
def Dev.cancelNode (h : HostPart) (d : Dev) (at_ : Nat × Nat) : Dev :=
  (d.failNode h at_.1 at_.2 0x06 0).nodeDone at_.1 at_.2

/-- R112: the node leaves a team out of its launch. -/
def Node.drop (index : Nat) (x : Node) : Node := { x with dropped := (x.dropped ++ [index]).eraseDups }

/-- R112: a team is noted in every launch that a tag names: one that starts or is replayed later leaves it out. -/
def Dev.noteDropped (d : Dev) (slot : Nat) (tag : BitVec 32) (index : Nat) : Dev :=
  let note := fun (x : Node) => if x.named tag then x.drop index else x
  { d with graphs := d.graphs.map fun (e : Nat × Graph) =>
      if e.2.slot != slot || e.2.complete then e else (e.1, { e.2 with nodes := e.2.nodes.map note }) }

/-- R112: the units that a CANCEL names. -/
def Dev.cancelUnits (h : HostPart) (d : Dev) (slot : Nat) (tag : BitVec 32) (unit index : Nat) : Dev :=
  match unit with
  | 0 => (d.taggedLaunches slot tag).foldl (fun (d : Dev) l => d.cancelTeamOf index l) (d.noteDropped slot tag index)
  | 1 => (d.taggedNodes slot tag).foldl (Dev.cancelNode h) ((d.taggedLaunches slot tag).foldl Dev.cancelLaunch d)
  | 2 => ((d.graphs.filter fun e => e.2.slot == slot && !e.2.complete && e.2.tag == tag).map Prod.fst).foldl
      Dev.cancelGraph d
  | 3 => ((d.openGraphs slot).foldl Dev.cancelGraph d).onContext slot fun c => { c with phaseCancelled := true }
  | _ => d.cancelJob slot

/-- R112: CANCEL. -/
def execCancel (tag : BitVec 32) (unit : BitVec 3) (team : BitVec 32) (s : State) : Host.Outcome State Fault Refusal :=
  s.run fun h d => d.command h fun slot n st =>
    if 4 < unit.toNat || (unit != 0 && team != 0) then d.failCommand h slot n tag 0x01 0x0E 0 st.rd
    else ((d.advance h slot n (.cancel tag unit team)).cancelUnits h slot tag unit.toNat team.toNat).settle h

/-! ## Seal (R107, R248) -/

/-- R107, R248: a SEAL command makes a request, and is complete when it is decided; a refusal found at the start refuses
the command. -/
def execSealCommand (tag : BitVec 32) (undo : Bool) (base len : BitVec 64) (s : State) :
    Host.Outcome State Fault Refusal :=
  s.run fun h d => d.command h fun slot n st =>
    let r : SealRequest := ⟨base.toNat, len.toNat, undo, .stream slot n, 0, tag, st.rd, []⟩
    let status := r.verdict h (d.context slot)
    if status != 0 then d.failCommand h slot n tag 0x09 0x11 status st.rd
    else
      let (id, d) := (d.advance h slot n (.sealCommand tag undo base len)).fresh
      { d with seals := Table.set d.seals id r }

/-! ## Rollback (R462, R463) -/

/-- R463: the teams of a launch have stopped, and their engine operations have retired. -/
def Dev.launchHalted (d : Dev) (launch : Nat) : Bool :=
  d.teams.all fun e => e.2.launch != launch || e.2.complete || (e.2.ended && d.teamCounter e.1 == 0)

/-- R404, R463: a page of a slice gets back what its core's slice image holds of it. -/
def Dev.restorePage (h : HostPart) (slot : Nat) (d : Dev) (pa : Nat) : Dev :=
  (d.loadSlice h slot (sliceCoreOf pa) (pa - slicePa (sliceCoreOf pa)) pageBytes pa).getD d

/-- R463: what the pages of a context held at the launch's start is there again; the frames that the launch took for them are
given back. -/
def Dev.restoreSnapshots (h : HostPart) (d : Dev) (slot : Nat) : Dev :=
  let c := d.context slot
  let kept := fun (pa : Nat) => c.snapshots.any fun s => s.pa == pa
  let known := fun (va : Nat) => c.snapshots.any fun s => s.base == va
  let d := (d.dataLeaves slot).foldl (fun (d : Dev) l =>
    if pteW l.2 && !slicePage (ptePa l.2) then
      let d := if kept (ptePa l.2) then d else d.freeFrame (ptePa l.2)
      if known l.1 then d else (d.unmapPage slot l.1).dropTlb slot l.1 pageBytes
    else d) d
  let d := c.snapshots.foldl (fun (d : Dev) s =>
    match c.range? s.base with
    | none => d
    | some r => ((d.mapPage h slot s.base (leafEntry s.pa false false r.rd)).getD d).dropTlb slot s.base s.bytes) d
  let d := c.sliceImages.foldl (Dev.restorePage h slot) d
  d.onContext slot fun c => { c with snapshots := c.snapshots.map fun s => { s with copied := false } }

/-- R460, R463: the memory manager meets an uncorrectable word in a slice page that it is to restore. -/
def Dev.imagesPoisoned (h : HostPart) (d : Dev) (slot : Nat) : Bool :=
  (d.context slot).sliceImages.any fun pa =>
    (d.saveRange h slot (sliceCoreOf pa) (imageOff (pa - slicePa (sliceCoreOf pa))) pageBytes).any fun r =>
      r.1.any fun p => d.poisoned p.1 p.2

/-- R463: the rollback of a launch whose teams have ended: the snapshots are restored, and the launch replayed from its
command. A team that R461 has relaunched is not relaunched in the replay, which is the same launch. -/
def execRollback (launch : Nat) (s : State) : Host.Outcome State Fault Refusal :=
  s.run fun h d =>
    match d.launch? launch with
    | none => d
    | some l =>
      if !l.rollsBack || l.complete || l.cancelled || !d.launchHalted launch then d
      else if d.imagesPoisoned h l.slot then d.killSlot h l.slot 0
      else
        match (Table.find? d.graphs l.graph).bind fun g => g.nodes[l.node]? with
        | none => d
        | some x =>
          let teams := (d.teams.filter fun e => e.2.launch == launch).map Prod.fst
          let d := teams.foldl Dev.releaseTeam d
          let d := match l.stages with
            | none => d
            | some ss => d.freeQueues launch ss
          let d := { d with teams := d.teams.filter fun e => e.2.launch != launch }
          let d := (d.restoreSnapshots h l.slot).report 0x05 3 l.slot 0 (leBytes 4 x.tag.toNat)
          let read := match x.cmd with
            | .launch r => d.readRecord h l.slot r none
            | .launchIndirect r g => d.readRecord h l.slot r (some g)
            | .copy _ _ _ => .error (.status 0x02, d)
          match read with
          | .ok (r, ss, d) =>
            (x.dropped.foldl (fun (d : Dev) i => d.cancelTeamOf i launch)
              (d.setLaunch launch { Launch.start l.slot l.graph l.node r ss true with relaunched := l.relaunched })).settle h
          | .error (.uncorrectable va, d) => d.killSlot h l.slot va
          | .error (.later, d) => d
          | .error (.status status, d) =>
            (((d.onLaunch launch fun l => { l with complete := true }).dropSnapshots h l.slot).failNode h l.graph l.node status 0
              |>.nodeDone l.graph l.node).settle h

end Sys2Proof.Machine
end

