-- ==== Sys2Proof/Machine/PortableForm.lean ====
section
/-! DEFINITION. The Dexale Portable Form: the records of a DPF section, its fragments, and whether it keeps its rules (R371,
R372, R374). -/

namespace Sys2Proof.Machine

open Sys2Proof

/-! ## Records (R371, R372) -/

/-- A record: its type and sub, and its body. -/
structure DpfRecord where
  kind : Nat
  sub : Nat
  body : List Byte
  deriving DecidableEq, Repr

/-- R371: the header of a section. -/
structure DpfHeader where
  nparam : Nat
  nstmt : Nat
  nrec : Nat
  root : Nat
  fragOff : Nat
  fragBytes : Nat
  deriving DecidableEq, Repr

/-- All of some bytes are 0. -/
def allZero (bs : List Byte) : Bool := bs.all fun b => b == 0

/-- R371: the header and the parameter table. -/
def readDpfHeader (bs : List Byte) : Option DpfHeader :=
  let h : DpfHeader := ⟨field bs 4 2, field bs 6 2, field bs 8 4, field bs 12 4, field bs 16 4, field bs 20 4⟩
  if field bs 0 4 = 1 && decide (h.nparam ≤ 16) && decide (1 ≤ h.nstmt) && decide (h.nstmt ≤ 256) && decide (1 ≤ h.nrec) &&
      decide (h.nrec ≤ 4096) && decide (h.root < h.nrec) && field bs 24 8 == 0 && decide (32 + 8 * h.nparam ≤ bs.length) &&
      (List.range h.nparam).all fun p => field bs (36 + 8 * p) 4 == 0 then some h
  else none

/-- R371: the records, from an offset, with the offset of the end. -/
def readRecords (bs : List Byte) : Nat → Nat → Option (List DpfRecord × Nat)
  | 0, off => some ([], off)
  | n + 1, off =>
    let len := field bs (off + 4) 4
    if len % 8 != 0 || len < 8 || bs.length < off + len || field bs (off + 2) 2 != 0 then none
    else
      (readRecords bs n (off + len)).map fun r =>
        (⟨field bs off 1, field bs (off + 1) 1, slice bs (off + 8) (len - 8)⟩ :: r.1, r.2)

/-- R371: a body holds `n` bytes and padding of 0. -/
def DpfRecord.holds (r : DpfRecord) (n : Nat) : Bool := r.body.length == (n + 7) / 8 * 8 && allZero (r.body.drop n)

/-- R371: the bytes of a row. -/
def rowBytes (h : DpfHeader) (ndim : Nat) : Nat := 4 * (ndim + h.nparam + 1)

/-- An entry of a list of n32 values. -/
def entryAt (r : DpfRecord) (off i : Nat) : Nat := field r.body (off + 4 * i) 4

/-- R372: the n32 values from an offset. -/
def entriesAt (r : DpfRecord) (off n : Nat) : List Nat := (List.range n).map (entryAt r off)

/-- R372: the record of a number is of a type. -/
def isKind (rs : List DpfRecord) (n kind sub : Nat) : Bool :=
  ((rs[n]?).map fun r => r.kind == kind && r.sub == sub).getD false

/-- R372: the dimensions of a DOMAIN or a MAP. -/
def ndimOf (rs : List DpfRecord) (n : Nat) : Nat := ((rs[n]?).map fun r => field r.body 0 2).getD 0

/-- R372: the domain of a statement. -/
def domainOf (rs : List DpfRecord) (n : Nat) : Nat := ((rs[n]?).map fun r => field r.body 0 4).getD 0

/-- R372: a DOMAIN. -/
def domainOk (h : DpfHeader) (r : DpfRecord) : Bool :=
  let ndim := field r.body 0 2
  let ncon := field r.body 2 2
  let row := 4 + rowBytes h ndim
  decide (ndim ≤ 8) && field r.body 4 4 == 0 && r.holds (8 + ncon * row) &&
    (List.range ncon).all fun i => decide (field r.body (8 + i * row) 4 ≤ 1)

/-- R372: the element formats of a MAP. -/
def mapFormats : List Nat := [0x00, 0x01, 0x02, 0x05, 0x10, 0x12, 0x18]

/-- R372: a MAP. Its rows are padded to 8 bytes, and its strides follow them. -/
def mapOk (h : DpfHeader) (r : DpfRecord) : Bool :=
  let ndim := field r.body 0 2
  let nout := field r.body 2 2
  let rows := nout * rowBytes h ndim
  let padded := (rows + 7) / 8 * 8
  decide (1 ≤ nout) && decide (nout ≤ 6) && mapFormats.contains (field r.body 8 1) && allZero (slice r.body 9 7) &&
    r.holds (16 + padded + 8 * nout) && allZero (slice r.body (16 + rows) (padded - rows))

/-- R374: the cells of an element. -/
def mapCells (rs : List DpfRecord) (n : Nat) : Nat :=
  ((rs[n]?).map fun r => if field r.body 8 1 = 5 then 2 else 1).getD 0

/-- R372: the read maps and the write maps of a STMT. -/
def DpfRecord.reads (r : DpfRecord) : List Nat := entriesAt r 16 (field r.body 12 2)
def DpfRecord.writes (r : DpfRecord) : List Nat := entriesAt r (16 + 4 * field r.body 12 2) (field r.body 14 2)

/-- R372: a STMT, but for its fragment. -/
def stmtOk (rs : List DpfRecord) (r : DpfRecord) : Bool :=
  let dom := field r.body 0 4
  let reads := r.reads
  let writes := r.writes
  r.holds (16 + 4 * (reads.length + writes.length)) && isKind rs dom 1 0 &&
    reads.all (fun m => isKind rs m 2 0 && ndimOf rs m == ndimOf rs dom) &&
    writes.all fun m => isKind rs m 2 1 && ndimOf rs m == ndimOf rs dom

/-- R372: the bytes of the entries of a BAND from an offset: each names a statement and gives its rows. -/
def bandEntries (h : DpfHeader) (rs : List DpfRecord) (r : DpfRecord) (m : Nat) : Nat → Nat → Option (List Nat × Nat)
  | 0, off => some ([], off)
  | k + 1, off =>
    let s := field r.body off 4
    if !isKind rs s 3 0 then none
    else
      (bandEntries h rs r m k (off + 4 + m * rowBytes h (ndimOf rs (domainOf rs s)))).map fun x => (s :: x.1, x.2)

/-- R372: a child is a record of the schedule. -/
def isSchedule (rs : List DpfRecord) (n : Nat) : Bool := ((rs[n]?).map fun r => r.kind == 4).getD false

/-- R372: the leaf mark of a BAND. -/
def leafMark : Nat := 0xFFFFFFFF

/-- R372: the statements of a BAND or a FILTER. -/
def namedBy (h : DpfHeader) (rs : List DpfRecord) (r : DpfRecord) : List Nat :=
  if r.sub = 0 then ((bandEntries h rs r (field r.body 0 2) (field r.body 2 2) 16).map Prod.fst).getD []
  else entriesAt r 8 (field r.body 4 4)

/-- R372: the children of a schedule record. -/
def childrenOf (r : DpfRecord) : List Nat :=
  if r.kind != 4 then []
  else if r.sub = 1 then entriesAt r 4 (field r.body 0 4)
  else
    let c := if r.sub = 0 then field r.body 4 4 else field r.body 0 4
    if r.sub == 0 && c == leafMark then [] else [c]

/-- R372: a schedule record. -/
def scheduleOk (h : DpfHeader) (rs : List DpfRecord) (r : DpfRecord) : Bool :=
  match r.sub with
  | 0 =>
    let m := field r.body 0 2
    let k := field r.body 2 2
    decide (1 ≤ m) && decide (m ≤ 8) && decide (field r.body 8 1 ≤ 1) && allZero (slice r.body 10 6) &&
      (childrenOf r).all (isSchedule rs) &&
      ((bandEntries h rs r m k 16).map fun x => r.holds x.2).getD false
  | 1 =>
    let n := field r.body 0 4
    decide (2 ≤ n) && r.holds (4 + 4 * n) && (childrenOf r).all fun c => isKind rs c 4 2
  | 2 =>
    let n := field r.body 4 4
    r.holds (8 + 4 * n) && (childrenOf r).all (isSchedule rs) && (namedBy h rs r).all fun s => isKind rs s 3 0
  | 3 => r.holds 8 && (childrenOf r).all (isSchedule rs)
  | _ => false

/-- R372: a record of any type. -/
def recordOk (h : DpfHeader) (rs : List DpfRecord) (r : DpfRecord) : Bool :=
  match r.kind, r.sub with
  | 1, 0 => domainOk h r
  | 2, 0 => mapOk h r
  | 2, 1 => mapOk h r
  | 3, 0 => stmtOk rs r
  | 4, _ => scheduleOk h rs r
  | _, _ => false

/-! ## Fragments (R374) -/

/-- R374: an instruction of the base profile: the cells that it needs, and the stack that it leaves. -/
structure BaseOp where
  pops : Nat
  run : List Cell → List Cell

/-- R126: a lane operation as a fragment runs it, with its operands and its result on the stack. -/
def LaneOp.base (o : LaneOp) (r : Route) : BaseOp :=
  ⟨(o.need r 4 false).pops, fun st => (o.step r [] ⟨0, st, 0, [], 0, [], []⟩).stack⟩

/-- A literal, or another cell that is pushed. -/
def pushOf (f : List Cell → Word) : BaseOp := ⟨0, fun st => .full (f st) :: st⟩

/-- R374: the base profile, but for the S16 forms from opcode 0x10; none for any other instruction. -/
def baseOp (i : Instr) : Option BaseOp :=
  match i with
  | .drop _ => some ⟨1, dropCell⟩
  | .dup _ n => some ⟨n.toNat + 1, dupCell n.toNat⟩
  | .swap _ => some ⟨2, swapCells⟩
  | .rot _ => some ⟨3, rotCells⟩
  | .nip _ => some ⟨2, nipCell⟩
  | .depth _ => some (pushOf fun st => BitVec.ofNat 32 st.length)
  | .litS _ v => some (pushOf fun _ => BitVec.signExtend 32 v)
  | .lit16 _ form imm => if form = 3 then none else some (pushOf fun _ => literal16 form imm)
  | .lit32 imm => some (pushOf fun _ => imm)
  | .cvt _ sat rm dst src =>
    if src = 15 || dst = 15 || (sat && (laneFloat dst.toNat).isNone) then none
    else some ((convertOp src.toNat dst.toNat rm.toNat sat false).base Route.stack)
  | .hadd2 _ bf sub rm => some ((packedAdd bf sub rm).base Route.stack)
  | .hmul2 _ bf rm => some ((packedMul bf rm).base Route.stack)
  | .hfma2 _ bf rm => some ((packedFma bf rm).base Route.stack)
  | .hmnx2 _ max bf => some ((packedMinMax max bf).base Route.stack)
  | .dadd _ rm => some ((dblAdd rm).base Route.stack)
  | .dmul _ rm => some ((dblMul rm).base Route.stack)
  | .dfma _ rm => some ((dblFma rm).base Route.stack)
  | .ddiv _ rm => some ((dblDiv rm).base Route.stack)
  | .dsqrt _ rm => some ((dblSqrt rm).base Route.stack)
  | .bfe _ signed len pos =>
    if 32 < pos.toNat + (len.toNat + 1) then none
    else some ((op1 (extractField signed (len.toNat + 1) pos.toNat)).base Route.stack)
  | .bfi _ len pos =>
    if 32 < pos.toNat + (len.toNat + 1) then none
    else some ((op2 (insertField (len.toNat + 1) pos.toNat)).base Route.stack)
  | .l32Routed op _ ra rb rd cha chb chd mod =>
    let r : Route := ⟨ra, rb, rd, cha.toNat, chb.toNat, chd.toNat⟩
    match routedOp op.toNat mod with
    | none => none
    | some o => if fromChannel ra || fromChannel rb || rd || !o.routeOk r then none else some (o.base r)
  | _ => none

/-- R374: an S16 instruction of opcode 0x10 and up, which does what its routed form does. -/
def shortOp (p : Parcel) : Option BaseOp :=
  (routedOp (p.extractLsb' 8 7).toNat (p.extractLsb' 0 4)).map fun o => o.base Route.stack

/-- R374: a fragment run on a stack; none where a parcel is not of the base profile or cells are missing. -/
def runFragment : Nat → List Byte → List Cell → Option (List Cell)
  | 0, bs, st => if bs.isEmpty then some st else none
  | fuel + 1, bs, st =>
    if bs.isEmpty then some st
    else
      match decode bs with
      | .error _ => none
      | .ok (i, rest) =>
        let op := match baseOp i with
          | some o => some o
          | none => if bs.length = rest.length + 2 then shortOp (BitVec.ofNat 16 (field bs 0 2)) else none
        match op with
        | none => none
        | some o => if st.length < o.pops then none else runFragment fuel rest (o.run st)

/-- R372: the bytes of a STMT's fragment. -/
def DpfRecord.fragment (area : List Byte) (r : DpfRecord) : List Byte := slice area (field r.body 4 4) (field r.body 8 4)

/-- R374: a statement's fragment lies in the area and leaves the cells of its write maps: how many cells a fragment leaves
does not depend on their values. -/
def fragmentOk (h : DpfHeader) (rs : List DpfRecord) (area : List Byte) (r : DpfRecord) : Bool :=
  let cells := fun (ms : List Nat) => (ms.map (mapCells rs)).foldl (· + ·) 0
  decide (field r.body 4 4 + field r.body 8 4 ≤ h.fragBytes) &&
    ((runFragment (field r.body 8 4) (r.fragment area) (List.replicate (cells r.reads) (.full 0))).map List.length) ==
      some (cells r.writes)

/-! ## The schedule (R372) -/

/-- R372: how many paths a statement lies under, from a record, and whether every BAND on them names it. -/
def pathsTo (h : DpfHeader) (rs : List DpfRecord) (s : Nat) : Nat → Nat → Nat × Bool
  | 0, _ => (0, false)
  | fuel + 1, n =>
    match rs[n]? with
    | none => (0, false)
    | some r =>
      if r.kind == 4 && r.sub == 2 && !(namedBy h rs r).contains s then (0, true)
      else
        let named := r.sub != 0 || (namedBy h rs r).contains s
        match childrenOf r with
        | [] => (1, named)
        | cs =>
          let below := cs.map (pathsTo h rs s fuel)
          let count := below.foldl (fun a x => a + x.1) 0
          (count, (named || count == 0) && below.all Prod.snd)

/-- R371 to R374: the section keeps the rules of the portable form. -/
def dpfOk (bs : List Byte) : Bool :=
  match readDpfHeader bs with
  | none => false
  | some h =>
    match readRecords bs h.nrec (32 + 8 * h.nparam) with
    | none => false
    | some (rs, finish) =>
      let area := slice bs h.fragOff h.fragBytes
      let numbers := List.range rs.length
      let edges := numbers.flatMap fun n => ((rs[n]?).map childrenOf).getD [] |>.map fun c => (n, c)
      let stmts := numbers.filter fun n => isKind rs n 3 0
      decide (finish ≤ h.fragOff) && decide (h.fragOff + h.fragBytes ≤ bs.length) &&
        allZero (slice bs finish (h.fragOff - finish)) && allZero (bs.drop (h.fragOff + h.fragBytes)) &&
        rs.all (recordOk h rs) && stmts.length == h.nstmt && isSchedule rs h.root &&
        graphAcyclic edges (rs.length + 1) numbers &&
        stmts.all (fun s => pathsTo h rs s (rs.length + 1) h.root == (1, true)) &&
        rs.all fun r => r.kind != 3 || fragmentOk h rs area r

end Sys2Proof.Machine
end

