-- ==== Sys2Proof/Machine/PortableRun.lean ====
section
/-! DEFINITION. What a DPF section means: parameters, the instances of its statements, the order in which its schedule runs
them, what an instance does, the orders that a translation may run them in, and the translator (R370 to R374). -/

namespace Sys2Proof.Machine

open Sys2Proof

/-! ## Sections and parameters (R371) -/

/-- R371: a section that has been read: its header, its records, the offsets of its parameters in the argument block, and
its fragment area. -/
structure Dpf where
  head : DpfHeader
  records : List DpfRecord
  params : List Nat
  area : List Byte
  deriving DecidableEq, Repr

/-- R371: a section; none where its header or its records cannot be read. -/
def readDpf (bs : List Byte) : Option Dpf :=
  (readDpfHeader bs).bind fun h =>
    (readRecords bs h.nrec (32 + 8 * h.nparam)).map fun r =>
      ⟨h, r.1, (List.range h.nparam).map fun p => field bs (32 + 8 * p) 4, slice bs h.fragOff h.fragBytes⟩

/-- A record of a section; one that is not there is of no type. -/
def Dpf.record (x : Dpf) (n : Nat) : DpfRecord := x.records.getD n ⟨0, 0, []⟩

/-- R371: an s32 of some bytes. -/
def intAt (bs : List Byte) (off : Nat) : Int := integerValue 32 true (field bs off 4)

/-- R371, R115: the parameters of a launch, from its argument block. -/
def Dpf.paramValues (x : Dpf) (args : List Byte) : List Int := x.params.map (intAt args)

/-- R371: the coefficients of the row at an offset of a record's body, over some dimensions. -/
def Dpf.row (x : Dpf) (r : DpfRecord) (off ndim : Nat) : List Int :=
  (List.range (ndim + x.head.nparam + 1)).map fun i => intAt r.body (off + 4 * i)

/-- R371: the value of a row: its coefficients apply to the dimensions, the parameters, and 1. -/
def rowValue (row : List Int) (point params : List Int) : Int :=
  ((row.zip (point ++ params ++ [1])).map fun p => p.1 * p.2).foldl (· + ·) 0

/-! ## Instances (R372, R373) -/

/-- R373: an instance of a statement: the statement's record, and a point of its domain. -/
structure Instance where
  stmt : Nat
  point : List Int
  deriving DecidableEq, Repr

/-- R372: a point lies in a domain: each of its constraints is 0, or at least 0, there. -/
def Dpf.inDomain (x : Dpf) (args : List Byte) (domain : Nat) (point : List Int) : Bool :=
  let r := x.record domain
  let ndim := field r.body 0 2
  point.length == ndim &&
    (List.range (field r.body 2 2)).all fun i =>
      let off := 8 + i * (4 + rowBytes x.head ndim)
      let v := rowValue (x.row r (off + 4) ndim) point (x.paramValues args)
      if field r.body off 4 = 0 then v == 0 else decide (0 ≤ v)

/-- R373: the instance is one of a statement of the section, under the parameters of a launch. -/
def Dpf.hasInstance (x : Dpf) (args : List Byte) (a : Instance) : Bool :=
  isKind x.records a.stmt 3 0 && x.inDomain args (domainOf x.records a.stmt) a.point

/-! ## The schedule (R372, R373) -/

/-- R372: where the rows of a statement stand in a BAND. -/
def Dpf.bandRows (x : Dpf) (r : DpfRecord) (stmt : Nat) : Nat → Nat → Option Nat
  | 0, _ => none
  | k + 1, off =>
    let s := field r.body off 4
    if s = stmt then some (off + 4)
    else x.bandRows r stmt k (off + 4 + field r.body 0 2 * rowBytes x.head (ndimOf x.records (domainOf x.records s)))

/-- R373: the place of an instance under a record of the schedule: the values of its BAND rows and the number of its child
in each SEQUENCE, from the record downward. -/
def Dpf.place (x : Dpf) (args : List Byte) (a : Instance) : Nat → Nat → List Int
  | 0, _ => []
  | fuel + 1, n =>
    let r := x.record n
    match r.sub with
    | 0 =>
      let ndim := a.point.length
      let rows := match x.bandRows r a.stmt (field r.body 2 2) 16 with
        | none => []
        | some off => (List.range (field r.body 0 2)).map fun i =>
            rowValue (x.row r (off + i * rowBytes x.head ndim) ndim) a.point (x.paramValues args)
      rows ++ (childrenOf r).flatMap (x.place args a fuel)
    | 1 =>
      let children := childrenOf r
      let i := children.findIdx fun c => (namedBy x.head x.records (x.record c)).contains a.stmt
      (i : Int) :: (children[i]?.map (x.place args a fuel)).getD []
    | _ => (childrenOf r).flatMap (x.place args a fuel)

/-- R373: lexicographic order. -/
def lexBefore : List Int → List Int → Bool
  | a :: as, b :: bs => decide (a < b) || (a == b && lexBefore as bs)
  | _, _ => false

/-- R373: the DPF schedule runs one instance before another. -/
def Dpf.before (x : Dpf) (args : List Byte) (a b : Instance) : Bool :=
  let place := fun (i : Instance) => x.place args i (x.records.length + 1) x.head.root
  lexBefore (place a) (place b)

/-- R372: the statement lies beneath a REDUCE mark, on its path from a record. -/
def Dpf.reduces (x : Dpf) (stmt : Nat) : Nat → Nat → Bool
  | 0, _ => false
  | fuel + 1, n =>
    let r := x.record n
    (r.sub == 2 && !(namedBy x.head x.records r).contains stmt) == false &&
      ((r.sub == 3 && field r.body 4 4 == 1 && (pathsTo x.head x.records stmt (x.records.length + 1) n).1 != 0) ||
        (childrenOf r).any (x.reduces stmt fuel))

/-! ## Maps (R372, R374) -/

/-- R374: the bytes of a map's element. -/
def Dpf.mapBytes (x : Dpf) (m : Nat) : Nat := elementBits (field (x.record m).body 8 1) / 8

/-- R372: the index rows of a map. -/
def Dpf.mapRows (x : Dpf) (m : Nat) : List (List Int) :=
  let r := x.record m
  let ndim := field r.body 0 2
  (List.range (field r.body 2 2)).map fun i => x.row r (16 + i * rowBytes x.head ndim) ndim

/-- R372: the address of a map's element at a point: the array's base, and each index times its stride. -/
def Dpf.mapAddress (x : Dpf) (args : List Byte) (m : Nat) (point : List Int) : Nat :=
  let r := x.record m
  let rows := x.mapRows m
  let strides := 16 + (rows.length * rowBytes x.head (field r.body 0 2) + 7) / 8 * 8
  let terms := ((List.range rows.length).zip rows).map fun p =>
    rowValue p.2 point (x.paramValues args) * integerValue 64 true (field r.body (strides + 8 * p.1) 8)
  ((field args (field r.body 4 4) 8 + terms.foldl (· + ·) 0) % (2 ^ 64 : Int)).toNat

/-- R373: the bytes that an instance touches through a map. -/
def Dpf.touched (x : Dpf) (args : List Byte) (m : Nat) (point : List Int) : List Nat :=
  (List.range (x.mapBytes m)).map fun i => (x.mapAddress args m point + i) % 2 ^ 64

/-- R373: the pairs of maps through which two instances touch a common byte with at least one write. -/
def Dpf.conflicts (x : Dpf) (args : List Byte) (a b : Instance) : List (Nat × Nat) :=
  let maps := fun (i : Instance) => (x.record i.stmt).reads ++ (x.record i.stmt).writes
  let writes := fun (i : Instance) (m : Nat) => (x.record i.stmt).writes.contains m
  (maps a).flatMap fun m => ((maps b).filter fun k =>
    (writes a m || writes b k) && (x.touched args m a.point).any (x.touched args k b.point).contains).map fun k => (m, k)

/-- R373: two instances beneath a REDUCE mark conflict only through one write map and one read map of their statement,
with identical index rows. -/
def Dpf.relaxed (x : Dpf) (args : List Byte) (a b : Instance) : Bool :=
  a.stmt == b.stmt && x.reduces a.stmt (x.records.length + 1) x.head.root &&
    (x.record a.stmt).writes.any fun w => (x.record a.stmt).reads.any fun r =>
      x.mapRows w == x.mapRows r && (x.conflicts args a b).all fun p => [w, r].contains p.1 && [w, r].contains p.2

/-- R373: every schedule keeps the order of the two instances. -/
def Dpf.keeps (x : Dpf) (args : List Byte) (a b : Instance) : Bool :=
  x.before args a b && !(x.conflicts args a b).isEmpty && !x.relaxed args a b

/-! ## What an instance does (R374) -/

/-- R236, R374: an element is extended with its sign. -/
def Dpf.mapSigned (x : Dpf) (m : Nat) : Bool := field (x.record m).body 8 1 == 0x10

/-- R374: the stack as a fragment starts: the values of the read maps, the first one deepest, extended as `ld` extends
them. -/
def Dpf.operands (x : Dpf) (args : List Byte) (mem : Nat → Byte) (a : Instance) : List Cell :=
  (x.record a.stmt).reads.foldl (fun st m =>
    let bytes := (x.touched args m a.point).map mem
    ((loadWords bytes.length (x.mapSigned m) (leValue bytes)).map Cell.full).reverse ++ st) []

/-- R374: the bytes that the write maps take from the stack as a fragment ends, the last map's value on top; a map is
written in its place among them. -/
def Dpf.results (x : Dpf) (args : List Byte) (a : Instance) (st : List Cell) : List (Nat × Byte) :=
  ((x.record a.stmt).writes.foldl (fun (acc : List (Nat × Byte) × List Cell) m =>
    let n := mapCells x.records m
    let v := wordsValue ((acc.2.take n).map Cell.word)
    (acc.1 ++ (x.touched args m a.point).zip (leBytes (x.mapBytes m) v), acc.2.drop n)) ([], st.reverse)).1

/-- Memory with some bytes written, the last write of a byte counting. -/
def putAll (mem : Nat → Byte) (ws : List (Nat × Byte)) : Nat → Byte :=
  ws.foldl (fun m w a => if a = w.1 then w.2 else m a) mem

/-- R374: an instance runs: it reads, its fragment computes, and it writes. -/
def Dpf.runInstance (x : Dpf) (args : List Byte) (mem : Nat → Byte) (a : Instance) : Nat → Byte :=
  let bs := (x.record a.stmt).fragment x.area
  match runFragment bs.length bs (x.operands args mem a) with
  | none => mem
  | some st => putAll mem (x.results args a st)

/-- R373: instances run one after another. -/
def Dpf.runAll (x : Dpf) (args : List Byte) (order : List Instance) (mem : Nat → Byte) : Nat → Byte :=
  order.foldl (x.runInstance args) mem

/-! ## Translation (R370, R373) -/

/-- What the loader places. -/
structure KernelText where
  text : List Byte
  access : List Byte
  entry : Word
  aentry : Word
  deriving DecidableEq, Repr

/-- R373: an order runs each instance of a launch once, and keeps every order of two of them that a schedule has to
keep. -/
def Dpf.legalOrder (x : Dpf) (args : List Byte) (order : List Instance) : Prop :=
  order.Nodup ∧ (∀ a, a ∈ order ↔ x.hasInstance args a = true) ∧ order.Pairwise fun a b => x.keeps args b a = false

/-- R361, R370: the entries lie at blocks of the text that they start. -/
def KernelText.entriesOk (t : KernelText) : Bool :=
  t.entry.toNat % 64 == 0 && decide (t.entry.toNat < t.text.length) &&
    (t.aentry == 0xFFFFFFFF || (t.aentry.toNat % 64 == 0 && decide (t.aentry.toNat < t.access.length)))

/-- R370, R373: a translation of a section: text, and the order in which it runs the instances under the argument block of
each launch whose instances are finitely many. -/
structure TextWithOrder where
  text : KernelText
  order : List Byte → List Instance

/-- R370, R373: what the translator answers keeps the rules: its entries, and the order of every launch. -/
def TextWithOrder.keeps (t : TextWithOrder) (bs : List Byte) : Prop :=
  t.text.entriesOk = true ∧
    ∀ x, readDpf bs = some x →
      ∀ args (all : List Instance), (∀ a, x.hasInstance args a = true → a ∈ all) → x.legalOrder args (t.order args)

end Sys2Proof.Machine

namespace Sys2Proof.Config

open Sys2Proof.Machine

/-- R370, R373: what the translator builds from a DPF section, by its bytes and the load's seed: TEXT, ACCESS, entry and
aentry, with a legal order of the instances for each launch; none where it cannot fit the kernel (R368). Any text may be
it that keeps those rules (notes/assumptions/9.md). -/
opaque translated : (bs : List Byte) → Nat → Option { t : TextWithOrder // t.keeps bs }

end Sys2Proof.Config
end

