-- ==== Sys2Proof/Machine/CodeLoad.lean ====
section
/-! DEFINITION. The loader: DXO images, their checks, translation, placement and unloading (R361 to R370, R375, R430,
R431). -/

namespace Sys2Proof.Machine

open Sys2Proof

/-! ## The image (R361, R362) -/

/-- R361: the fields of an image's header that the loader uses. -/
structure DxoHeader where
  nsect : Nat
  stamp : Nat
  svn : Word
  entry : Word
  aentry : Word
  sigOff : Nat
  key : List Byte
  deriving DecidableEq, Repr

/-- R361: the header; none where a field breaks the rule. -/
def readHeader (bs : List Byte) : Option DxoHeader :=
  let h : DxoHeader := ⟨field bs 6 2, field bs 8 16, BitVec.ofNat 32 (field bs 24 4), BitVec.ofNat 32 (field bs 28 4),
    BitVec.ofNat 32 (field bs 32 4), field bs 48 8, slice bs 56 64⟩
  if 192 ≤ bs.length && field bs 0 4 == 0x004F5844 && field bs 4 2 == 1 && decide (1 ≤ h.nsect) && decide (h.nsect ≤ 8) &&
      h.entry.toNat % 64 == 0 && (h.aentry == 0xFFFFFFFF || h.aentry.toNat % 64 == 0) && field bs 36 4 == 0 &&
      field bs 40 8 == bs.length && h.sigOff == bs.length - 64 && field bs 120 8 == 0 then some h
  else none

/-- R362: a section record. -/
structure Section where
  kind : Nat
  offset : Nat
  bytes : Nat
  deriving DecidableEq, Repr

/-- R362: the section records. -/
def readSections (bs : List Byte) (h : DxoHeader) : List Section :=
  (List.range h.nsect).map fun n => let o := 128 + 24 * n
    ⟨field bs o 1, field bs (o + 8) 8, field bs (o + 16) 8⟩

/-- R362: sections do not overlap. -/
def Section.apart (a b : Section) : Bool := decide (a.offset + a.bytes ≤ b.offset) || decide (b.offset + b.bytes ≤ a.offset)

/-- R362: the section records keep the rule. -/
def sectionsOk (bs : List Byte) (h : DxoHeader) (ss : List Section) : Bool :=
  (List.range h.nsect).all (fun n => allZero (slice bs (129 + 24 * n) 7)) &&
    ss.all (fun s => decide (1 ≤ s.kind) && decide (s.kind ≤ 5) && s.offset % (if s.kind ≤ 2 then 64 else 8) == 0 &&
      decide (128 + 24 * h.nsect ≤ s.offset) && decide (s.offset + s.bytes ≤ h.sigOff)) &&
    decide ((ss.map Section.kind).Nodup) && decide (ss.Pairwise fun a b => a.apart b)

/-- R362: the content of the section of a kind. -/
def sectionOf (bs : List Byte) (ss : List Section) (kind : Nat) : Option (List Byte) :=
  (ss.find? fun s => s.kind == kind).map fun s => slice bs s.offset s.bytes

/-- R361: the parts of the header that the sections bear on: without native text the stamp is zero; the entry lies in
TEXT, and the access entry, if any, in ACCESS. DESIGN CHOICE (notes/assumptions/17.md): a header that breaks this is refused
with the reason of the other fields of R361; the spec's reasons name no other one. -/
def entriesWithin (h : DxoHeader) (ss : List Section) : Bool :=
  let within := fun (kind : Nat) (e : Word) => ss.any fun s => s.kind == kind && decide (e.toNat < s.bytes)
  if ss.any fun s => s.kind == 1 then within 1 h.entry && (h.aentry == 0xFFFFFFFF || within 2 h.aentry)
  else h.stamp == 0

/-! ## The checks (R363, R364, R368) -/

/-- R363: the device's stamp. -/
def HostPart.stamp (h : HostPart) : Nat :=
  let record := leBytes 2 0x0960 ++ leBytes 1 h.stepping.toNat ++ leBytes 1 1 ++ zeros 60
  leValue ((beBytes 32 (sha256 record)).take 16)

/-- R364: the signature of an image. -/
def signatureOk (bs : List Byte) (h : DxoHeader) : Bool :=
  let sig := bs.drop h.sigOff
  ecdsaVerify (beValue (h.key.take 32), beValue (h.key.drop 32)) (beValue (sig.take 32)) (beValue (slice sig 32 32))
    (sha256 (bs.take h.sigOff))

/-- R365, R368: how a load fails: a status and byte 6 of the error record. -/
structure LoadFailure where
  status : Nat
  reason : Nat
  deriving DecidableEq, Repr

/-- R370: a cached translation that the loader may use. -/
def Dev.cached (h : HostPart) (d : Dev) (digest : Nat) : Option Translation :=
  d.cache.find? fun t => t.digest == digest && t.stamp == h.stamp && decide (h.counter.toNat ≤ t.svn.toNat)

/-- R365 step 4, R370, R373: the text of an image that does not match the device; with a new translation stays the number of the
order of instances that the translator chose. -/
def Dev.translation (h : HostPart) (d : Dev) (x : DxoHeader) (digest : Nat) (dpf : Option (List Byte)) :
    Except LoadFailure (KernelText × Dev) :=
  match dpf with
  | none => .error ⟨0x02, 0x05⟩
  | some bs =>
    if !h.featActive.getLsbD 4 then .error ⟨0x02, 0x05⟩
    else
      match d.cached h digest with
      | some t => .ok (⟨t.text, t.access, t.entry, t.aentry⟩, d)
      | none =>
        if !dpfOk bs then .error ⟨0x02, 0x06⟩
        else
          let (seed, d) := d.nextFree
          match Config.translated bs seed with
          | none => .error ⟨0x02, 0x07⟩
          | some t =>
            let k := t.val.text
            .ok (k, { d with cache := d.cache ++ [⟨digest, h.stamp, x.svn, k.text, k.access, k.entry, k.aentry, seed⟩] })

/-- R365 steps 2 to 4: an image that was read, checked, and its text obtained. -/
def Dev.checkImage (h : HostPart) (d : Dev) (bs : List Byte) :
    Except LoadFailure (DxoHeader × List Section × Nat × KernelText × Dev) :=
  match readHeader bs with
  | none => .error ⟨0x02, 0x01⟩
  | some x =>
    let ss := readSections bs x
    if !sectionsOk bs x ss then .error ⟨0x02, 0x02⟩
    else if !entriesWithin x ss then .error ⟨0x02, 0x01⟩
    else if !h.keys.contains (sha256 x.key) then .error ⟨0x02, 0x03⟩
    else if !signatureOk bs x then .error ⟨0x02, 0x04⟩
    else if x.svn.toNat < h.counter.toNat then .error ⟨0x07, 0⟩
    else
      let digest := sha256 (bs.take x.sigOff)
      match x.stamp == h.stamp, sectionOf bs ss 1 with
      | true, some text => .ok (x, ss, digest, ⟨text, (sectionOf bs ss 2).getD [], x.entry, x.aentry⟩, d)
      | _, _ => (d.translation h x digest (sectionOf bs ss 5)).map fun t => (x, ss, digest, t.1, t.2)

/-! ## Placement (R366) -/

/-- R366: where region 2 begins. -/
def codeBase : Nat := 0x0100000000000000

/-- The pages of a section. -/
def sectionPages (n : Nat) : Nat := (n + pageBytes - 1) / pageBytes

/-- R366: the first address after every loaded object. -/
def Dev.codeTop (d : Dev) : Nat :=
  d.code.foldl (fun top e =>
    [(e.2.text, e.2.textBytes), (e.2.access, e.2.accessBytes), (e.2.drain, e.2.drainBytes)].foldl
      (fun top s => Nat.max top (s.1.toNat + sectionPages s.2 * pageBytes)) top) codeBase

/-- R8, R366: the pages of a section take frames in the stacks of the dies named, with the section's bytes and zeros after
them. -/
def Dev.placePages (h : HostPart) (va : Nat) (bytes : List Byte) : List (Nat × Nat) → Dev →
    Option (List (Nat × Nat × Nat) × Dev)
  | [], d => some ([], d)
  | (die, k) :: ps, d =>
    match d.takeFrameOn h die with
    | none => none
    | some (pa, d) =>
      (Dev.placePages h va bytes ps (d.putBytes pa (padTo pageBytes (slice bytes (k * pageBytes) pageBytes)))).map fun r =>
        ((die, va + k * pageBytes, pa) :: r.1, r.2)

/-- The pages of a section on some dies. -/
def pagesOn (dies n : Nat) : List (Nat × Nat) :=
  (List.range (sectionPages n)).flatMap fun k => (List.range dies).map fun die => (die, k)

/-- R366: a new object is placed: TEXT and ACCESS with a copy on each die, DRAIN on one; none where there is no room. -/
def Dev.placeObject (h : HostPart) (d : Dev) (x : DxoHeader) (digest : Nat) (t : KernelText) (drain : List Byte) :
    Option (Nat × CodeObject × Dev) :=
  let text := d.codeTop
  let access := text + sectionPages t.text.length * pageBytes
  let drainVa := access + sectionPages t.access.length * pageBytes
  if sliceBase < drainVa + sectionPages drain.length * pageBytes then none
  else
    match Dev.placePages h text t.text (pagesOn 4 t.text.length) d with
    | none => none
    | some (a, d) =>
      match Dev.placePages h access t.access (pagesOn 4 t.access.length) d with
      | none => none
      | some (b, d) =>
        (Dev.placePages h drainVa drain (pagesOn 1 drain.length) d).map fun c =>
          let at_ := fun (va n : Nat) => if n = 0 then 0 else BitVec.ofNat 64 va
          let o : CodeObject :=
            ⟨digest, x.svn, BitVec.ofNat 64 text, t.text.length, at_ access t.access.length, t.access.length,
              at_ drainVa drain.length, drain.length, t.entry, t.aentry, a ++ b ++ c.1, []⟩
          (c.2.nextHandle, o, { c.2 with nextHandle := c.2.nextHandle + 1 })

/-- The frame of a page of an object on a die, or on the die that has it. -/
def CodeObject.frame (o : CodeObject) (die va : Nat) : Nat :=
  match o.frames.find? fun f => f.1 == die && f.2.1 == va with
  | some f => f.2.2
  | none => ((o.frames.find? fun f => f.2.1 == va).map fun f => f.2.2).getD 0

/-- The pages of an object, with the permissions of their leaves: text X, DRAIN RD. -/
def CodeObject.pages (o : CodeObject) : List (Nat × Bool) :=
  let of_ := fun (va : Dword) (n : Nat) (x : Bool) => (List.range (sectionPages n)).map fun k => (va.toNat + k * pageBytes, x)
  of_ o.text o.textBytes true ++ of_ o.access o.accessBytes true ++ of_ o.drain o.drainBytes false

/-- R366, R75: the object's sections are mapped into a context, each die's root to the copy of the die. -/
def Dev.mapObject (h : HostPart) (slot : Nat) (o : CodeObject) : List (Nat × Bool) → Dev → Option Dev
  | [], d => some d
  | (va, x) :: ps, d =>
    let leaves := (List.range 4).map fun die => leafEntry (o.frame die va) x false (!x)
    (d.mapRoots h va (d.context slot).roots leaves).bind (Dev.mapObject h slot o ps)

/-- R366: the object is one of the context's. -/
def Dev.joinObject (h : HostPart) (d : Dev) (slot handle : Nat) (o : CodeObject) : Option Dev :=
  if o.contexts.contains slot then some d
  else
    (Dev.mapObject h slot o o.pages d).map fun d =>
      { d with code := Table.set d.code handle { o with contexts := o.contexts ++ [slot] } }

/-- R367: the load report. -/
def loadReport (handle : Nat) (o : CodeObject) : List Byte :=
  leBytes 8 handle ++ leBytes 8 o.text.toNat ++ leBytes 8 o.access.toNat ++ leBytes 8 o.drain.toNat ++ zeros 8

/-- R365 step 5, R366: the object of a checked image, a new one or one that is loaded already, in the context. -/
def Dev.placeImage (h : HostPart) (d : Dev) (slot : Nat) (x : DxoHeader) (digest : Nat) (t : KernelText)
    (drain : List Byte) : Option (Nat × CodeObject × Dev) :=
  match List.find? (fun (e : Nat × CodeObject) => e.2.digest == digest) d.code with
  | some (handle, o) => (d.joinObject h slot handle o).map fun d => (handle, o, d)
  | none =>
    (d.placeObject h x digest t drain).bind fun (r : Nat × CodeObject × Dev) =>
      (r.2.2.joinObject h slot r.1 r.2.1).map fun d => (r.1, r.2.1, d)

/-- R365: CODE_LOAD. A translation stays cached (R370) where the placement finds no room. -/
def execCodeLoad (tag : BitVec 32) (image bytes report : BitVec 64) (s : State) : Host.Outcome State Fault Refusal :=
  s.run fun h d => d.command h fun slot n st =>
    let core := processorCore slot
    let d := d.advance h slot n (.codeLoad tag image bytes report)
    let fail := fun (d : Dev) (f : LoadFailure) => d.failCommand h slot n tag f.status 0x0F f.reason st.rd
    match d.readVa h slot core image.toNat bytes.toNat with
    | .error (f, d) => d.unreadable h slot f fun d => fail d ⟨0x08, 0⟩
    | .ok (bs, d) =>
      match d.checkImage h bs with
      | .error f => fail d f
      | .ok (x, ss, digest, t, d) =>
        match d.placeImage h slot x digest t ((sectionOf bs ss 3).getD []) with
        | none => fail d ⟨0x02, 0x08⟩
        | some (handle, o, d) =>
          match d.writeVa h slot core report.toNat (loadReport handle o) with
          | .ok d => d
          | .error (f, d) => d.unreadable h slot f fun d => fail d ⟨0x08, 0⟩

/-! ## Unloading (R375, R430) -/

/-- R375: an address lies in an object's text. -/
def CodeObject.holdsPc (o : CodeObject) (pc : Va) : Bool :=
  [(o.text, o.textBytes), (o.access, o.accessBytes)].any fun s =>
    decide (s.1.toNat ≤ pc.toNat) && decide (pc.toNat < s.1.toNat + s.2)

/-- R375: a warp, resident or saved, has a PC in the text. -/
def Warp.standsIn (w : Warp) (o : CodeObject) : Bool :=
  let held := match w.handler with
    | none => []
    | some hd => hd.splits
  !w.threads.isEmpty && (w.splits ++ held).any fun s => o.holdsPc s.pc

/-- R375: a context references the object. -/
def Dev.references (d : Dev) (slot handle : Nat) (o : CodeObject) : Bool :=
  d.launches.any (fun e => e.2.slot == slot && !e.2.complete && e.2.code == handle) ||
    d.warps.any (fun e => d.slotOf e.2.team == slot && e.2.standsIn o) ||
    d.fets.any fun e => d.slotOf e.2.team == slot && !e.2.ended && o.holdsPc e.2.pc

/-- R375: the object leaves a context: its pages are unmapped, and the segments that hold a part of one of them freed. -/
def Dev.unmapObject (o : CodeObject) (d : Dev) (slot : Nat) : Dev :=
  let d := o.pages.foldl (fun (d : Dev) p => (d.unmapPage slot p.1).dropTlb slot p.1 pageBytes) d
  { d with cores := d.cores.map fun (c : Nat × Core) =>
      (c.1, { c.2 with segments := c.2.segments.filter fun g =>
        !(g.2.slot == slot && g.2.state != SegmentState.free && o.pages.any fun p => p.1 == pageOf (g.2.page * 4096)) }) }

/-- R375: the object is removed, and its frames given back. -/
def Dev.removeObject (d : Dev) (handle : Nat) (o : CodeObject) : Dev :=
  let d := (o.contexts.foldl (Dev.unmapObject o) d)
  { o.frames.foldl (fun (d : Dev) f => d.freeFrame f.2.2) d with code := Table.erase d.code handle }

/-- R430: a context that references an object is terminated, and reported. -/
def Dev.revoke (h : HostPart) (handle : Nat) (d : Dev) (slot : Nat) : Dev :=
  (d.terminate h slot 0x1A).report 0x0C 3 slot 0 (leBytes 8 handle)

/-- R375, R430: CODE_UNLOAD. -/
def execCodeUnload (tag : BitVec 32) (forced : Bool) (handle : BitVec 64) (s : State) : Host.Outcome State Fault Refusal :=
  s.run fun h d => d.command h fun slot n st =>
    let d := d.advance h slot n (.codeUnload tag forced handle)
    match Table.find? d.code handle.toNat with
    | none => d
    | some o =>
      let users := (d.contexts.map Prod.fst).filter fun c => d.references c handle.toNat o
      if users.isEmpty then d.removeObject handle.toNat o
      else if !forced then d.failCommand h slot n tag 0x05 0x10 0 st.rd
      else
        let d := if users.contains slot then d.failCommand h slot n tag 0x08 0x10 0x1A st.rd else d
        (users.foldl (Dev.revoke h handle.toNat) d).removeObject handle.toNat o

end Sys2Proof.Machine
end

