-- ==== Sys2Proof/Machine/HoldWindow.lean ====
section
/-! DEFINITION. The hold window: what each kind of effect does when it leaves its lane block's window (R457). -/

namespace Sys2Proof.Machine

open Sys2Proof

/-- Whether no entry of a list before the one that a test finds is held. -/
def noneHeldBefore {α : Type} (isIt held : α → Bool) (xs : List α) : Bool := !(xs.takeWhile fun x => !isIt x).any held

/-- R457: a store or a read-modify-write leaves its window. -/
def Dev.releaseAccess (d : Dev) (n : Nat) : Option Dev :=
  (Table.find? d.accesses n).map fun _ =>
    { d with accesses := Table.modify d.accesses n fun a => { a with held := false } }

/-- R457: a command of a matrix engine leaves its window, after those that its engine has before it (R271). -/
def Dev.releaseMatrix (d : Dev) (n : Nat) : Option Dev :=
  (List.find? (fun (e : Nat × Core) => e.2.engine.any fun o => o.op == n) d.cores).map fun (e : Nat × Core) =>
    if noneHeldBefore (fun (o : MatrixOp) => o.op == n) MatrixOp.held e.2.engine then
      d.onCore e.1 fun c => { c with engine := c.engine.map fun o => if o.op = n then { o with held := false } else o }
    else d

/-- R457: a command of a copy engine leaves its window, after those of its core before it. -/
def Dev.releaseCopy (d : Dev) (n : Nat) : Option Dev :=
  (Table.find? d.copies n).map fun c =>
    if noneHeldBefore (fun (e : Nat × Copy) => e.1 == n) (fun e => e.2.core == c.core && e.2.held) d.copies then
      d.setCopy n { c with held := false }
    else d

/-- R350, R457: a collective leaves its window, after those before it. -/
def Dev.releaseColl (d : Dev) (n : Nat) : Option Dev :=
  (Table.find? d.colls n).map fun c =>
    if noneHeldBefore (fun (e : Nat × Coll) => e.1 == n) (fun e => e.2.held) d.colls then d.setColl n { c with held := false }
    else d

/-- The queue request of a name, with its launch and its queue. -/
def Dev.requestNamed (d : Dev) (n : Nat) : Option (Nat × Nat × QueueRequest) :=
  (d.launches.flatMap fun (l : Nat × Launch) => match l.2.stages with
    | none => []
    | some ss => ((List.range ss.queues.length).zip ss.queues).flatMap fun (q : Nat × Queue) =>
        q.2.requests.filterMap fun r => if r.id = n && r.held then some (l.1, q.1, r) else none).head?

/-- R457: a queue request leaves its window. -/
def Dev.releaseQueue (h : HostPart) (d : Dev) (n : Nat) : Option Dev :=
  (d.requestNamed n).map fun r => d.releaseRequest h r.1 r.2.1 r.2.2

/-- R253, R457: an arrival at a barrier leaves its window and is counted, after those of its team before it. -/
def Dev.releaseArrival (d : Dev) (n : Nat) : Option Dev :=
  (Table.find? d.arrivals n).map fun a =>
    if ((List.find? (fun (e : Nat × Arrival) => e.2.team == a.team) d.arrivals).map Prod.fst) == some n then d.countArrival n a else d

/-- R218, R457: an entry of `dqpush` leaves its window, after those of its context before it. -/
def Dev.releaseEntry (d : Dev) (n : Nat) : Option Dev :=
  (Table.find? d.decisions n).map fun x =>
    if ((List.find? (fun (e : Nat × Decision) => e.2.fet == x.fet) d.decisions).map Prod.fst) == some n then d.releaseDecision n x else d

/-- R205, R457: the request of a `cfetch` to the code store leaves its window. -/
def Dev.releaseFill (d : Dev) (n : Nat) : Dev :=
  { d with cores := d.cores.map fun (c : Nat × Core) =>
      (c.1, { c.2 with segments := c.2.segments.map fun (g : Nat × Segment) =>
        (g.1, if g.2.held = some n then { g.2 with held := none } else g.2) }) }

/-- R457: the effect of a name leaves its window: a store or a read-modify-write, an engine command, a collective, a queue
request, an arrival at a barrier, an entry for the decision queues, or a request to the code store. -/
def execHoldWindowRelease (effect : Nat) (s : State) : Host.Outcome State Fault Refusal :=
  s.run fun h d =>
    (d.releaseAccess effect <|> d.releaseMatrix effect <|> d.releaseCopy effect <|> d.releaseColl effect <|>
      d.releaseQueue h effect <|> d.releaseArrival effect <|> d.releaseEntry effect).getD (d.releaseFill effect)

/-- The names of the effects that are in their hold windows. -/
def Dev.heldEffects (d : Dev) : List Nat :=
  ((d.accesses.filter fun e => e.2.held).map Prod.fst) ++
    (d.cores.flatMap fun (c : Nat × Core) =>
      ((c.2.engine.filter MatrixOp.held).map MatrixOp.op) ++ c.2.segments.filterMap fun (g : Nat × Segment) => g.2.held) ++
    ((d.copies.filter fun e => e.2.held).map Prod.fst) ++ ((d.colls.filter fun e => e.2.held).map Prod.fst) ++
    (d.launches.flatMap fun (l : Nat × Launch) => match l.2.stages with
      | none => []
      | some ss => ss.queues.flatMap fun q => (q.requests.filter QueueRequest.held).map QueueRequest.id) ++
    d.arrivals.map Prod.fst ++ d.decisions.map Prod.fst

end Sys2Proof.Machine
end

