-- ==== Sys2Proof/Machine/HostFunction.lean ====
section
/-! DEFINITION. The host function and bring-up: registers, doorbells, context slots, mapping requests, feature bits, BAR2,
reset, boot, readiness and the host link (R104, R381 to R385, R431, R468), and what dxdb does (R261, R264, R324, R345, R443). -/

namespace Sys2Proof.Machine

open Sys2Proof

/-- R384, R468: a register write reaches the module: the host function is usable, and its link is up. -/
def HostPart.reached (h : HostPart) : Bool := h.linkUp && !h.stopped && h.ready.getLsbD 0

/-! ## Doorbells (R104, R382 to R384) -/

/-- R104: a stream descriptor breaks no rule. -/
def descriptorOk (bs : List Byte) (rd : Nat) : Bool :=
  let words := field bs 8 4
  let wr := field bs 16 8
  field bs 0 8 % 4096 == 0 && decide (512 ≤ words) && decide (words ≤ 2 ^ 24) && 2 ^ Nat.log2 words == words &&
    decide (field bs 12 1 ≤ 3) && field bs 13 3 == 0 && field bs 32 8 % 16 == 0 && allZero (slice bs 40 24) &&
    decide (rd ≤ wr) && decide (wr ≤ rd + words)

/-- R104: a refused descriptor stops the stream; its error record is written where that can be done, and no later failure
of a command that has started is written into it (R116). -/
def Dev.refuseDescriptor (h : HostPart) (d : Dev) (slot n rd errRec : Nat) : Dev :=
  let d := d.onStream slot n fun s => { s with stopped := true, failed := true, rd := rd, building := none }
  if errRec % 16 != 0 then d
  else
    match d.writeVa h slot (processorCore slot) errRec (errorRecord 0 0x0A 0 0 rd) with
    | .ok d => d
    | .error (f, d) => d.unreadable h slot f id

/-- R104, R116: the command processor reads the descriptor that a doorbell names; while the stream runs, its own position
overwrites what the host has written to rd_ptr. DESIGN CHOICE (notes/assumptions/40.md):
a doorbell whose descriptor cannot be read does nothing; the spec does not speak of that case. -/
def Dev.readDescriptor (h : HostPart) (d : Dev) (slot n : Nat) : Dev :=
  match d.readVa h slot (processorCore slot) (d.descriptorVa slot n) 64 with
  | .error (f, d) => d.unreadable h slot f id
  | .ok (bs, d) =>
    let s := (d.context slot).stream n
    let d := if s.stopped then d else d.storeRd h slot n
    let rd := if s.stopped then field bs 24 8 else s.position
    if !descriptorOk bs rd then d.refuseDescriptor h slot n rd (field bs 32 8)
    else
      d.onStream slot n fun s =>
        { s with
          ring := BitVec.ofNat 64 (field bs 0 8)
          words := field bs 8 4
          priority := field bs 12 1
          wr := field bs 16 8
          rd := if s.stopped then rd else s.rd
          errRec := BitVec.ofNat 64 (field bs 32 8)
          stopped := false
          failed := false }

/-- R382 to R384: a doorbell: it is ignored while the slot is not OPEN or no features are active, latched while the
command processor is not ready, and lost while the link is down (R468). -/
def execDoorbell (slot stream : Nat) (s : State) : Host.Outcome State Fault Refusal :=
  s.run fun h d =>
    if !h.reached || (d.context slot).state != .open_ || !h.featActive.getLsbD 0 then d
    else if h.processorReady slot then d.readDescriptor h slot stream
    else if d.latched.contains (slot, stream) then d
    else { d with latched := d.latched ++ [(slot, stream)] }

/-! ## Context slots (R382) -/

/-- R75: empty page tables, one root for each die. DESIGN CHOICE (notes/assumptions/8.md): which stack of HBM4E holds a die's
root the spec does not say; each root takes a frame of any stack that is ready. -/
def Dev.newRoots (h : HostPart) : Nat → Dev → Option (List Nat × Dev)
  | 0, d => some ([], d)
  | n + 1, d =>
    match d.takeFrame h 0 with
    | none => none
    | some (pa, d) => (Dev.newRoots h n d).map fun r => (pa :: r.1, r.2)

/-- R346: how many groups a module holds over all its contexts. -/
def Dev.groupCount (d : Dev) : Nat := (d.contexts.map fun e => e.2.groups.length).foldl (· + ·) 0

/-- R346: a set of modules as a list, ascending. -/
def moduleSet (ms : List Nat) : List Nat := byKey id ms.eraseDups

/-- R346: the groups of a job as a member module holds them: group 0 with every module of the job, and the others that
the module is a member of. -/
def jobGroups (module : Nat) (groups : List (BitVec 16 × List Nat)) : List (Nat × List Nat) :=
  let named := (groups.map fun g => (g.1.toNat, moduleSet g.2)).filter fun g => g.1 != 0 && g.2.contains module
  (0, moduleSet (module :: groups.flatMap Prod.snd)) ::
    (named.map Prod.fst).eraseDups.filterMap fun n => named.find? fun g => g.1 == n

/-- R346, R347: the groups that the device kernel installs in a context. DESIGN CHOICE (notes/assumptions/36.md): where the
groups of the job do not all fit the 256 that the module holds at most, the first ones are installed, group 0 before the
others. The spec gives the limit only. -/
def Dev.installGroups (h : HostPart) (d : Dev) (slot : Nat) (groups : List (BitVec 16 × List Nat)) : Dev :=
  ((jobGroups h.module groups).take (256 - d.groupCount)).foldl (fun (d : Dev) g => d.onContext slot fun c =>
    { c with groups := Table.set c.groups g.1 ⟨1, g.2, [], 0, none, false, none, []⟩ }) d

/-- R382, R404: OPEN: four page tables with nothing mapped, and a save area that no frame backs yet, at a base that the spec
leaves open. -/
def execCtxOpen (slot : Nat) (groups : List (BitVec 16 × List Nat)) (s : State) : Host.Outcome State Fault Refusal :=
  s.run fun h d =>
    if !h.reached || (d.context slot).state != .free then d
    else
      match Dev.newRoots h 4 d with
      | none => d
      | some (roots, d) =>
        let (seed, d) := d.nextFree
        (d.onContext slot fun c =>
          { Context.reset with
            state := .open_, streamTable := c.streamTable, mapReq := c.mapReq, roots := roots,
            saveBase := Config.saveBase seed }).installGroups h slot groups

/-- R382: every command of the context is finished. -/
def Dev.contextIdle (d : Dev) (slot : Nat) : Bool :=
  (List.range 16).all fun n => !d.unfinished slot n && d.streamIdle slot n

/-- R382: CLOSE: the job is cancelled where a command is unfinished. -/
def execCtxClose (slot : Nat) (s : State) : Host.Outcome State Fault Refusal :=
  s.run fun h d =>
    let c := d.context slot
    if !h.reached || !(c.state == .open_ || c.state == .terminated) then d
    else
      let d := if c.state == .open_ && !d.contextIdle slot then d.cancelJob slot else d
      (d.onContext slot fun c => { c with state := .closing }).settle h

/-- R81, R111, R382: nothing of the context's job is under way, and no access of it has yet to perform. -/
def Dev.contextDone (d : Dev) (slot : Nat) : Bool :=
  d.graphs.all (fun e => e.2.slot != slot || e.2.complete) && d.seals.all (fun e => d.partySlot e.2.party != slot) &&
    d.accesses.all fun e => e.2.slot != slot || e.2.pa.isNone || e.2.result.isSome || e.2.cause != 0

/-- What a core keeps of a context that closes: nothing. -/
def Core.closeContext (c : Core) (slot : Nat) : Core :=
  { c with
    pages := c.pages.filter fun p => p.2 != PageOwner.context slot
    replicas := c.replicas.filter fun l => l.1 != slot
    tlb := c.tlb.filter fun e => e.1 != slot }

/-- R79: the frames of a page table and of the tables under it. -/
def tablesUnder (m : Memory) : Nat → Nat → List Nat
  | 0, table => [table]
  | fuel + 1, table =>
    table :: ((tableIndices m table).flatMap fun i =>
      let e : Dword := BitVec.ofNat 64 (leValue (Memory.readBytes m (table + 8 * i) 8))
      if pteValid e && !pteLeaf e then tablesUnder m fuel (ptePa e) else [])

/-- R382: the frames that stand behind a context: its data pages, what snapshots keep (R462), its save area (R404) and its
page tables. -/
def Dev.contextFrames (d : Dev) (slot : Nat) : List Nat :=
  let c := d.context slot
  (((d.dataLeaves slot).filter fun l => (c.range? l.1).isSome).map fun l => ptePa l.2) ++
    ((c.snapshots.filter Snapshot.copied).map Snapshot.pa) ++ c.savePages.map Prod.snd ++
    c.roots.flatMap (tablesUnder d.mem 3)

/-- R382: everything that the module holds for a context goes, with its frames; its slot is FREE. -/
def Dev.freeSlot (d : Dev) (slot : Nat) : Dev :=
  let d := (d.contextFrames slot).foldl Dev.freeFrame d
  let d := { d with cores := d.cores.map fun (e : Nat × Core) => (e.1, (d.leaveCore slot e.2).closeContext slot) }
  let c := d.context slot
  let d := { d with
    accesses := d.accesses.filter fun e => e.2.slot != slot
    tags := d.tags.filter fun t => t.slot != slot
    teams := d.teams.filter fun e => d.slotOf e.1 != slot
    launches := d.launches.filter fun e => e.2.slot != slot
    graphs := d.graphs.filter fun e => e.2.slot != slot
    l2 := d.l2.map fun (e : Nat × List (Nat × Nat × Nat)) => (e.1, e.2.filter fun t => t.1 != slot)
    latched := d.latched.filter fun e => e.1 != slot
    code := d.code.map fun (e : Nat × CodeObject) => (e.1, { e.2 with contexts := e.2.contexts.filter (· != slot) }) }
  d.setContext slot { Context.reset with streamTable := c.streamTable, mapReq := c.mapReq }

/-- R382: the job is complete: the context's mappings and its save area are removed. -/
def execCloseComplete (slot : Nat) (s : State) : Host.Outcome State Fault Refusal :=
  s.run fun _ d => if (d.context slot).state == .closing && d.contextDone slot then d.freeSlot slot else d

/-! ## Mapping requests (R65, R382, R424) -/

/-- R382: a mapping request. -/
structure MapRequest where
  op : Nat
  perm : Nat
  tier : Nat
  va : Nat
  bytes : Nat
  reserved : Bool
  deriving DecidableEq, Repr

/-- R382: the request that MAP_REQ holds. -/
def readMapRequest (v : BitVec 256) : MapRequest :=
  let bs := leBytes 32 v.toNat
  ⟨field bs 0 1, field bs 1 1, field bs 2 1, field bs 8 8, field bs 16 8, field bs 3 5 != 0 || field bs 24 8 != 0⟩

/-- R382: MAP_GO starts the request that MAP_REQ holds, unless one is busy. -/
def Dev.startRequest (h : HostPart) (d : Dev) (slot : Nat) (undo : Bool) : Dev :=
  let c := d.context slot
  if !h.reached || c.mapStatus = 1 || ((readMapRequest c.mapReq).op == 2) != undo then d
  else d.onContext slot fun c => { c with mapHeld := c.mapReq, mapStatus := 1 }

def execMapPages (slot : Nat) (s : State) : Host.Outcome State Fault Refusal := s.run fun h d => d.startRequest h slot false
def execUnmapPages (slot : Nat) (s : State) : Host.Outcome State Fault Refusal := s.run fun h d => d.startRequest h slot true

/-- R382: the range of a request is one of whole pages below a limit. -/
def MapRequest.rangeOk (r : MapRequest) (limit : Nat) : Bool :=
  r.va % pageBytes == 0 && r.bytes % pageBytes == 0 && decide (0 < r.bytes) && decide (r.va + r.bytes ≤ limit) &&
    !r.reserved && decide (r.perm < 4)

/-- R382: the pages of a request in the slice window: core and page. -/
def MapRequest.slicePages (r : MapRequest) : List (Nat × Nat) :=
  (List.range (r.bytes / pageBytes)).map fun i =>
    let off := r.va - sliceBase + i * pageBytes
    (off / sliceBytes, off % sliceBytes / pageBytes)

/-- R382, R384: frames that a tier can still give. -/
def Dev.framesLeft (h : HostPart) (d : Dev) (tier : Nat) : Nat :=
  let back := (d.freeFrames.filter fun pa => tierOf pa == tier && h.frameReady pa).length
  if tier = 1 then if h.ready.getLsbD 41 then back + (lpddrFrames - d.lpddrTaken) else 0
  else
    back + ((List.range 8).map fun k =>
      if h.ready.getLsbD (33 + k) then stackFrames - Table.get d.hbmTaken k 0 else 0).foldl (· + ·) 0

/-- R382, R424: the pages that are allocated in a tier and have no frame yet. -/
def Dev.framesOwed (d : Dev) (tier : Nat) : Nat :=
  (d.contexts.map fun e =>
    let ranges := e.2.ranges.filter fun r => r.tier == tier
    let backed := (d.dataLeaves e.1).filter fun l => ranges.any fun r => decide (r.base ≤ l.1) && decide (l.1 < r.base + r.bytes)
    (ranges.map fun r => r.bytes / pageBytes).foldl (· + ·) 0 - backed.length).foldl (· + ·) 0

/-- R382: a tier can back so many more pages. -/
def Dev.canBack (h : HostPart) (d : Dev) (tier pages : Nat) : Bool := decide (pages + d.framesOwed tier ≤ d.framesLeft h tier)

/-- R382, R383: a MAP that is not refused. -/
def Dev.mapAllowed (h : HostPart) (d : Dev) (slot : Nat) (r : MapRequest) : Bool :=
  let c := d.context slot
  let clear := c.ranges.all fun x => decide (x.base + x.bytes ≤ r.va) || decide (r.va + r.bytes ≤ x.base)
  match r.tier with
  | 0 => r.rangeOk codeBase && clear && d.canBack h 0 (r.bytes / pageBytes)
  | 1 => r.rangeOk codeBase && clear && h.featActive.getLsbD 5 && d.canBack h 1 (r.bytes / pageBytes)
  | 2 =>
    r.rangeOk (sliceBase + 576 * sliceBytes) && decide (sliceBase ≤ r.va) && clear &&
      r.slicePages.all fun p => !replicaPage p.2 && (Table.find? (d.core p.1).pages p.2).isNone
  | _ => false

/-- R65, R382: one page of a slice is mapped. -/
def Dev.mapSlicePage (h : HostPart) (slot : Nat) (r : MapRequest) : List (Nat × Nat) → Dev → Option Dev
  | [], d => some d
  | (core, k) :: ps, d =>
    let leaf := leafEntry (slicePa core + k * pageBytes) false (r.perm / 2 == 1) (r.perm % 2 == 1)
    match d.mapPage h slot (sliceVa core + k * pageBytes) leaf with
    | none => none
    | some d =>
      Dev.mapSlicePage h slot r ps (d.onCore core fun c => { c with pages := Table.set c.pages k (.context slot) })

/-- R382: a MAP is done: the range is the context's. -/
def Dev.mapRange (h : HostPart) (d : Dev) (slot : Nat) (r : MapRequest) : Option Dev :=
  let d := d.onContext slot fun c =>
    { c with ranges := c.ranges ++ [⟨r.va, r.bytes, r.tier, r.perm % 2 == 1, r.perm / 2 == 1⟩] }
  if r.tier = 2 then Dev.mapSlicePage h slot r r.slicePages d else some d

/-- R382: what is left of an allocated range once another range is taken out of it. -/
def Range.without (x : Range) (va bytes : Nat) : List Range :=
  let low := { x with bytes := Nat.min x.bytes (va - x.base) }
  let hi := Nat.max x.base (va + bytes)
  let high := { x with base := hi, bytes := x.base + x.bytes - hi }
  [low, high].filter fun y => y.bytes != 0

/-- R382: the mapped data pages of a range. -/
def Dev.mappedIn (d : Dev) (slot va bytes : Nat) : List (Nat × Dword) :=
  (d.dataLeaves slot).filter fun l => decide (va ≤ l.1) && decide (l.1 < va + bytes)

/-- R462: the snapshots of a range that is unmapped are dropped. -/
def Dev.forgetSnapshots (d : Dev) (slot va bytes : Nat) : Dev :=
  let gone := fun (s : Snapshot) => decide (va ≤ s.base) && decide (s.base < va + bytes)
  let c := d.context slot
  ((c.snapshots.filter fun s => gone s && s.copied).foldl (fun (d : Dev) s => d.freeFrame s.pa) d).onContext slot fun c =>
    { c with snapshots := c.snapshots.filter fun s => !gone s }

/-- R382: an UNMAP is done: the leaves go, with their translations, and the backing is freed. -/
def Dev.unmapRange (d : Dev) (slot va bytes : Nat) : Dev :=
  let d := (d.mappedIn slot va bytes).foldl (fun (d : Dev) l => (d.unmapPage slot l.1).freeFrame (ptePa l.2))
    (d.forgetSnapshots slot va bytes)
  let d := { d with cores := d.cores.map fun (e : Nat × Core) =>
    (e.1, { e.2 with pages := e.2.pages.filter fun p =>
      !(p.2 == PageOwner.context slot && decide (va ≤ sliceVa e.1 + p.1 * pageBytes) &&
        decide (sliceVa e.1 + p.1 * pageBytes < va + bytes)) }) }
  (d.onContext slot fun c => { c with ranges := c.ranges.flatMap fun x => x.without va bytes }).dropTlb slot va bytes

/-- R382: an UNMAP that is not refused. -/
def MapRequest.unmapAllowed (r : MapRequest) : Bool :=
  r.rangeOk (2 ^ 57) && decide (r.tier ≤ 2) && (decide (r.va + r.bytes ≤ codeBase) || decide (sliceBase ≤ r.va))

/-- The status of a request that is over. -/
def Dev.endRequest (d : Dev) (slot status : Nat) : Dev := d.onContext slot fun c => { c with mapStatus := status }

/-- R81, R382: the memory manager completes a request. An UNMAP completes once no access uses its pages. -/
def execMapDone (slot : Nat) (s : State) : Host.Outcome State Fault Refusal :=
  s.run fun h d =>
    let c := d.context slot
    let r := readMapRequest c.mapHeld
    if c.mapStatus != 1 then d
    else if c.state == .free then d.endRequest slot 3
    else if r.op = 1 then
      if !d.mapAllowed h slot r then d.endRequest slot 3
      else
        match d.mapRange h slot r with
        | none => d.endRequest slot 3
        | some d => d.endRequest slot 2
    else if r.op = 2 && r.unmapAllowed then
      if (d.mappedIn slot r.va r.bytes).any fun l => d.frameUsed (ptePa l.2) then d
      else (d.unmapRange slot r.va r.bytes).endRequest slot 2
    else d.endRequest slot 3

/-! ## Features and plain registers (R381 to R383) -/

/-- R383: the first commit after reset. -/
def execFeatCommit (value : BitVec 32) (s : State) : Host.Outcome State Fault Refusal :=
  s.runHost fun h d =>
    if !h.reached || h.committed || value != 1 then (h, d)
    else
      let f := h.featAccept &&& h.featOffer
      ({ h with committed := true, featActive := if f.getLsbD 0 then f else 0 }, d)

/-- Bytes written over a part of a register of `n` bytes, at an offset from its first byte. -/
def overwrite (n old : Nat) (off : Int) (bytes : List Byte) : Nat :=
  leValue ((List.range n).map fun (i : Nat) =>
    let j : Int := Int.ofNat i - off
    if 0 ≤ j && decide (j < Int.ofNat bytes.length) then bytes.getD j.toNat 0 else BitVec.ofNat 8 (old / 256 ^ i))

/-- R381, R382: a write to FEAT_ACCEPT, to STREAM_TABLE or to MAP_REQ changes the bytes that it covers; any other
register without a behaviour of its own ignores it. -/
def execRegisterWrite (offset width : Nat) (value : BitVec 256) (s : State) : Host.Outcome State Fault Refusal :=
  s.runHost fun h d =>
    let bytes := leBytes width value.toNat
    let meets := fun (base n : Nat) => decide (base < offset + width) && decide (offset < base + n)
    if !h.reached then (h, d)
    else
      let h := if meets 0x20 16 then
          { h with featAccept := BitVec.ofNat 128 (overwrite 16 h.featAccept.toNat ((offset : Int) - 0x20) bytes) }
        else h
      if offset < 0x10000 || 0x50000 ≤ offset then (h, d)
      else
        let slot := (offset - 0x10000) / 0x1000
        let at_ := (offset - 0x10000) % 0x1000
        let put := fun (base n old : Nat) => overwrite n old ((at_ : Int) - (base : Int)) bytes
        let hit := fun (base n : Nat) => decide (base < at_ + width) && decide (at_ < base + n)
        if hit 0x008 8 || hit 0x040 32 then
          (h, d.onContext slot fun c =>
            { c with
              streamTable := if hit 0x008 8 then BitVec.ofNat 64 (put 0x008 8 c.streamTable.toNat) else c.streamTable
              mapReq := if hit 0x040 32 then BitVec.ofNat 256 (put 0x040 32 c.mapReq.toNat) else c.mapReq })
        else (h, d)

/-! ## Reads of the registers (R381 to R384) -/

/-- R382: the number of a STATE. -/
def SlotState.number : SlotState → Nat
  | .free => 0
  | .open_ => 1
  | .closing => 2
  | .terminated => 3

/-- R381 to R384: the readable registers outside the slots' pages: offset, size and value. -/
def HostPart.registers (h : HostPart) : List (Nat × Nat × Nat) :=
  [(0x00, 4, 0x0960 + h.stepping.toNat * 0x10000), (0x10, 16, h.featOffer.toNat), (0x20, 16, h.featAccept.toNat),
    (0x40, 16, h.featActive.toNat), (0x50, 8, h.ready.toNat)]

/-- R382: the readable registers of a slot's page. -/
def Context.registers (c : Context) : List (Nat × Nat × Nat) :=
  [(0x008, 8, c.streamTable.toNat), (0x014, 4, c.state.number), (0x018, 8, c.saveBase.toNat), (0x040, 32, c.mapReq.toNat),
    (0x064, 4, c.mapStatus)]

/-- A byte of a list of registers; 0 where none of them lies. -/
def registerByte (rs : List (Nat × Nat × Nat)) (off : Nat) : Byte :=
  match rs.find? fun r => decide (r.1 ≤ off) && decide (off < r.1 + r.2.1) with
  | none => 0
  | some r => BitVec.ofNat 8 (r.2.2 / 256 ^ (off - r.1))

/-- R381, R382: a byte of BAR0 as a read gives it. DESIGN CHOICE (notes/assumptions/46.md): outside the slots' pages, where
R382 says so, an offset that holds no readable register reads as 0 too. -/
def Dev.barByte (h : HostPart) (d : Dev) (off : Nat) : Byte :=
  if 0x10000 ≤ off && off < 0x50000 then registerByte (d.context ((off - 0x10000) / 0x1000)).registers ((off - 0x10000) % 0x1000)
  else registerByte h.registers off

/-- R381, R468: the host reads BAR0; a read that does not reach the module returns nothing. -/
def HostPart.readRegister (h : HostPart) (d : Dev) (offset width : Nat) : HostPart :=
  { h with read := if h.reached then (List.range width).map fun i => d.barByte h (offset + i) else [] }

/-! ## BAR2 (R381, R382) -/

/-- R381: the 64 KiB pages of BAR2. -/
def windowPages : Nat := 0x100000

/-- R381: the memory manager sets what a page of BAR2 shows: a page of a context, or nothing. -/
def HostPart.mapWindow (h : HostPart) (page : Nat) (target : Option (Nat × Dword)) : HostPart :=
  if windowPages ≤ page then h
  else
    { h with window := match target with
      | none => Table.erase h.window page
      | some t => Table.set h.window page (t.1, pageOf t.2.toNat) }

/-- R381: the context slot and the address that an offset of BAR2 shows. -/
def HostPart.windowAt (h : HostPart) (offset : Nat) : Option (Nat × Nat) :=
  (Table.find? h.window (offset / pageBytes)).map fun t => (t.1, t.2 + offset % pageBytes)

/-- R381: the bytes that BAR2 shows, page by page; none where a page shows nothing or cannot be read. A word that the page
walker or the memory manager cannot correct kills the context (R460). -/
def Dev.readWindow (h : HostPart) : List (Nat × Nat) → Dev → Option (List Byte) × Dev
  | [], d => (some [], d)
  | (off, n) :: ps, d =>
    match h.windowAt off with
    | none => (none, d)
    | some (slot, va) =>
      match d.readVa h slot 0 va n with
      | .error (.lost va, d) => (none, d.killSlot h slot va)
      | .error (_, d) => (none, d)
      | .ok (bs, d) =>
        let (rest, d) := Dev.readWindow h ps d
        (rest.map fun r => bs ++ r, d)

/-- R381, R382: the host reads through BAR2, whatever the state of the context. DESIGN CHOICE (notes/assumptions/46.md): a
read that meets a page which shows nothing, or which cannot be read, returns nothing. -/
def Dev.windowRead (h : HostPart) (d : Dev) (offset n : Nat) : HostPart × Dev :=
  if !h.reached then ({ h with read := [] }, d)
  else
    let (bs, d) := Dev.readWindow h (pageParts offset (n / pageBytes + 2) n) d
    ({ h with read := bs.getD [] }, d)

/-- R381: bytes written through BAR2, page by page. DESIGN CHOICE (notes/assumptions/46.md): a page that shows nothing, or
that cannot be written, keeps what it holds. -/
def Dev.writeWindow (h : HostPart) : List (Nat × Nat) → List Byte → Dev → Dev
  | [], _, d => d
  | (off, n) :: ps, bs, d =>
    let d := match h.windowAt off with
      | none => d
      | some (slot, va) =>
        match d.writeVa h slot 0 va (bs.take n) with
        | .error (.lost va, d) => d.killSlot h slot va
        | .error (_, d) => d
        | .ok d => d
    Dev.writeWindow h ps (bs.drop n) d

/-- R381: the host writes through BAR2. -/
def Dev.windowWrite (h : HostPart) (d : Dev) (offset : Nat) (bytes : List Byte) : Dev :=
  if h.reached then Dev.writeWindow h (pageParts offset (bytes.length / pageBytes + 2) bytes.length) bytes d else d

/-! ## dxdb (R261, R264, R324, R345, R443) -/

/-- R264: a team that dxdb has stopped goes on. DEDUCED (notes/assumptions/28.md): its ready splits that stand at a breakpoint
then, and its front-end context, have been stopped there and do not stop again before they have issued: in the session of
15_program_pingpong.md, lines 287 to 301, warps 2 and 3 both stand at line 74, and go on with no second stop. -/
def Dev.goOn (d : Dev) (team : Nat) : Dev :=
  let breaks := d.breaksAt (d.slotOf team)
  let seen := fun (id : Nat) (w : Warp) => (w.splits.filter fun s => (d.wake id w s).state == .ready && breaks s.pc).map fun s =>
    (s.mask, s.pc)
  { d with
    warps := d.warps.map fun (e : Nat × Warp) =>
      (e.1, if e.2.team = team then { e.2 with stopped := e.2.stopped ++ seen e.1 e.2 } else e.2)
    fets := d.fets.map fun (e : Nat × Fet) =>
      (e.1, if e.2.team = team && e.2.issuable && breaks e.2.pc then { e.2 with stopped := some e.2.pc } else e.2) }

/-- R264, R345: dxdb lets a team go on that it holds, or the teams of a stage set together. -/
def Dev.resumeTeam (d : Dev) (team : Nat) : Dev :=
  if d.heldTeam team then ((d.stopMates team).foldl Dev.goOn d).holdTeams team false else d

/-- R261, R264, R345, R443: dxdb sets or deletes a breakpoint, holds a team stopped, or lets one go on. -/
def Dev.debug (d : Dev) : Debug → Dev
  | .breakpoint slot pc on => d.onContext slot fun c =>
      { c with breaks := if on then if c.breaks.contains pc then c.breaks else c.breaks ++ [pc]
          else c.breaks.filter fun p => p != pc }
  | .hold team => d.holdTeams team true
  | .resume team => d.resumeTeam team

/-! ## Reset, boot and readiness (R369, R370, R384, R385, R431) -/

/-- R369, R385: what a reset leaves of the host function: the fuses, which the counter is read from, and the NVMe dump
namespace (R467). -/
def HostPart.afterReset (h : HostPart) : HostPart :=
  { HostPart.reset with
    module := h.module, stepping := h.stepping, keys := h.keys, fuse := h.fuse, counter := h.fuse, linkUp := h.linkUp, nvme := h.nvme }

/-- R370, R431: the cached translations that a reset leaves. -/
def keptTranslations (counter : Word) (ts : List Translation) : List Translation :=
  ts.filter fun t => decide (counter.toNat ≤ t.svn.toNat)

/-- R385: a module reset. The management controller stays powered, so gtime goes on (R158). -/
def execReset (s : State) : Host.Outcome State Fault Refusal :=
  s.runHost fun h d => (h.afterReset, { Dev.reset with cache := keptTranslations h.fuse d.cache, gtime := d.gtime })

/-- R385: the management controller reports a step of the boot. The spec gives the record's type and payload no value. -/
def Dev.reportBoot (d : Dev) (step : Nat) : Dev :=
  d.report (Config.bootRecord (2 * step)) (Config.bootRecord (2 * step + 1)) 64 0 (Config.bootPayload step)

/-- R364, R385: the image is signed by a key whose digest is fused: ECDSA P-256 over SHA-256. DESIGN CHOICE
(notes/assumptions/9.md): the parts of a firmware image have the form that R361 and R364 give them in a code object; the spec
gives the image no layout. -/
def HostPart.firmwareSigned (h : HostPart) (x : FirmwareImage) : Bool :=
  h.keys.contains (sha256 x.key) &&
    ecdsaVerify (beValue (x.key.take 32), beValue (x.key.drop 32)) (beValue (x.sig.take 32)) (beValue (x.sig.drop 32))
      (sha256 x.signed)

/-- R369, R385 steps 1 and 2: the ROM runs and checks the firmware image: its signature by a fused key, and its security
version against the counter. A failure halts the boot. -/
def HostPart.checkFirmware (h : HostPart) (d : Dev) (x : FirmwareImage) : HostPart × Dev :=
  if h.booted || h.halted || h.stopped then (h, d)
  else
    let d := d.reportBoot 1
    if h.firmwareSigned x && decide (h.counter.toNat ≤ (Config.firmwareSvn x.signed).toNat) then
      ({ h with booted := true }, d.reportBoot 2)
    else ({ h with halted := true }, d.reportBoot 0)

/-- R384: the doorbells that waited for a command processor are served. -/
def Dev.serveLatched (h : HostPart) (d : Dev) : Dev :=
  let ready := d.latched.filter fun e => h.processorReady e.1
  let d := { d with latched := d.latched.filter fun e => !h.processorReady e.1 }
  ready.foldl (fun (d : Dev) e => if (d.context e.1).state == .open_ then d.readDescriptor h e.1 e.2 else d) d

/-- R384, R385 steps 3 and 4: a function is usable and sets its bit, the host function first, once the firmware has been
checked; each step is reported. -/
def execFunctionReady (function : Nat) (s : State) : Host.Outcome State Fault Refusal :=
  s.runHost fun h d =>
    if 42 ≤ function || h.stopped || !h.booted || (function != 0 && !h.ready.getLsbD 0) then (h, d)
    else
      let h := { h with ready := h.ready ||| 1#64 <<< function }
      (h, (d.serveLatched h).reportBoot (3 + function))

/-! ## The host link (R468) -/

/-- R468: the link goes down, and that is reported. -/
def execHostLinkDown (s : State) : Host.Outcome State Fault Refusal :=
  s.runHost fun h d => if h.linkUp then ({ h with linkUp := false }, d.report 0x0A 0 64 0 (leBytes 1 0)) else (h, d)

/-- R468: the link retrains; the interrupts that were held are raised. -/
def execHostLinkUp (s : State) : Host.Outcome State Fault Refusal :=
  s.runHost fun h d =>
    if h.linkUp then (h, d)
    else ({ h with linkUp := true }, { d with irqs := d.irqs ++ d.heldIrqs, heldIrqs := [] }.report 0x0A 0 64 0 (leBytes 1 1))

end Sys2Proof.Machine
end

