-- ==== Sys2Proof/Machine/Power.lean ====
section
/-! DEFINITION. Clocks, performance levels and token buckets, and the events of reliability: strikes, scrubbing, fatal
errors and thermal limits (R14, R377 to R380, R399, R440, R457 to R459, R466, R467). -/

namespace Sys2Proof.Machine

open Sys2Proof

/-! ## Performance levels (R377, R378) -/

/-- R378: the level at which a cluster is to run: the highest of its resident warps and front-end contexts, under
the cap. -/
def Dev.targetLevel (d : Dev) (n : Nat) : Nat :=
  let warps := (d.warps.filter fun e => clusterOf e.2.core == n && e.2.place == .resident && !e.2.threads.isEmpty).map
    fun e => e.2.perf
  let fets := (d.fets.filter fun e => clusterOf e.2.core == n && !e.2.ended).map fun e => e.2.level
  Nat.min (d.cluster n).cap ((warps ++ fets).foldl Nat.max 0)

/-- R378: a level that changes takes a transition, during which the lower of the two rates holds. -/
def Cluster.toLevel (c : Cluster) (level : Nat) : Cluster :=
  if c.level = level then c
  else { c with level := level, transition := some ((c.transition.map fun t => Nat.min t c.level).getD c.level) }

/-- R378: the lane-rate change is complete. -/
def execLaneRateTransition (cluster : Nat) (s : State) : Host.Outcome State Fault Refusal :=
  s.run fun _ d => d.onCluster cluster fun c => { c with transition := none }

/-- R378, R379: the power manager sets a cluster's cap and its refill. -/
def execPowerManagerCapAndRefill (cluster : Nat) (cap : BitVec 3) (refill : Nat) (s : State) :
    Host.Outcome State Fault Refusal :=
  s.run fun _ d =>
    let d := d.onCluster cluster fun c => { c with cap := cap.toNat, refill := refill }
    let level := d.targetLevel cluster
    d.onCluster cluster fun c => c.toLevel level

/-! ## A front-end cycle (R14, R156, R251, R379, R399, R440) -/

/-- R251, R399: the ages of a warp's splits and the bounds of its `trywait`s after a front-end cycle. `awake` gives a split
as it stands where what it waits for has come about. -/
def Warp.tick (w : Warp) (lanes : Nat) (awake : Split → Split) : Warp :=
  w.onSplits fun s =>
    let s := if (awake s).ages then { s with age := s.age + 1 } else s
    match s.state with
    | .trywait cls n left => { s with state := .trywait cls n (left - lanes) }
    | _ => s

/-- R440: the ages of a team's barriers. -/
def Team.tick (t : Team) : Team := { t with bars := t.bars.map fun b => if b.arrived = 0 then b else { b with age := b.age + 1 } }

/-- R440: the team's barriers age: one of its warps is resident, and dxdb does not hold it stopped. -/
def Dev.barriersAge (d : Dev) (team : Nat) (t : Team) : Bool :=
  !t.held && d.warps.any fun e => e.2.team == team && e.2.place == Place.resident && !e.2.threads.isEmpty

/-- R440: a barrier of a team in the cluster has reached its limit: the timeout comes before the next cycle. -/
def Dev.barrierDue (d : Dev) (cluster : Nat) : Bool :=
  d.teams.any fun e => clusterOf e.2.core == cluster && !e.2.complete &&
    e.2.bars.any fun b => b.arrived != 0 && decide (2 ^ 28 ≤ b.age)

/-- R377, R379: the refill at the cluster's level: within the levels of one rate, a higher one raises it. -/
def Cluster.effectiveRefill (c : Cluster) : Nat := c.refill + c.level % 3 * (1 + Config.refillStep)

/-- R379: the refill is added, and the balance is clamped to the capacity. -/
def Cluster.refilled (c : Cluster) : Cluster :=
  { c with clock := c.clock + 1, cursor := 0, tokens := Nat.min 4096 (c.tokens + c.effectiveRefill), droop := false }

/-- R37, R128, R182: the end of a cluster's front-end cycle: the lane cycles that a multi-cycle instruction or a replay still
takes in it pass, and then the entries of its streams enter their channels. -/
def Dev.endCycle (d : Dev) (cluster : Nat) : Dev :=
  let blocks := d.cores.flatMap fun (e : Nat × Core) =>
    if clusterOf e.1 = cluster then e.2.lbs.map fun (b : Nat × LaneBlock) => (e.1, b.1) else []
  (blocks.foldl (fun (d : Dev) b => d.burnHold b.1 b.2) d).sendStreams cluster

/-- R39: a lane block at the start of a front-end cycle: the lane cycles of the last one have passed, used or not. -/
def LaneBlock.newCycle (b : LaneBlock) (last lanes : Nat) : LaneBlock :=
  { b with
    arrivals := (b.arrivals.map fun a => (a.1, a.2 - last)).filter fun a => a.2 != 0
    credit := lanes
    follow := none }

/-- R345: time passes for the stage sets that dxdb holds stopped. -/
def Dev.passStops (d : Dev) (ns : Nat) : Dev :=
  { d with launches := d.launches.map fun (e : Nat × Launch) =>
      (e.1, if d.launchHeld e.1 then
        { e.2 with stages := e.2.stages.map fun ss => ss.passStopped ns d.gtime } else e.2) }

/-- R14, R379: a front-end cycle of a cluster starts, once the last one has decided its requests (R380) and no barrier timeout
of it is due (R440). -/
def execTokenBucketRefill (cluster : Nat) (s : State) : Host.Outcome State Fault Refusal :=
  s.run fun _ d =>
    if d.barrierDue cluster || d.cycleOpen cluster then d
    else
      let (seed, d) := (d.endCycle cluster).nextFree
      let level := d.targetLevel cluster
      let last := (d.cluster cluster).laneCycles
      let d := d.onCluster cluster fun c => (c.toLevel level).refilled
      let lanes := (d.cluster cluster).laneCycles
      let ns := Config.nanoseconds seed
      { d with
        gtime := d.gtime + ns
        warps := d.warps.map fun (e : Nat × Warp) =>
          (e.1, if clusterOf e.2.core = cluster && e.2.place == Place.resident then e.2.tick lanes (d.wake e.1 e.2) else e.2)
        teams := d.teams.map fun (e : Nat × Team) =>
          (e.1, if clusterOf e.2.core = cluster && d.barriersAge e.1 e.2 then e.2.tick else e.2)
        cores := d.cores.map fun (e : Nat × Core) =>
          (e.1, if clusterOf e.1 = cluster then
            { e.2 with
              fetCredit := 1
              lbs := e.2.lbs.map fun (b : Nat × LaneBlock) => (b.1, b.2.newCycle last lanes) }
          else e.2) }.passStops ns

/-- R380: a requester refused for 16 consecutive front-end cycles reserves the bucket. -/
def execBucketReservation (cluster requester : Nat) (s : State) : Host.Outcome State Fault Refusal :=
  s.run fun _ d =>
    let c := d.cluster cluster
    if c.reserve.isNone && c.refused.any fun e => e.1 == requester && decide (16 ≤ e.2.1) && e.2.2 == c.clock then
      d.setCluster cluster { c with reserve := some requester }
    else d

/-- R14: the detector stretches the cluster's clocks. -/
def execDroopDetectorTrip (cluster : Nat) (s : State) : Host.Outcome State Fault Refusal :=
  s.run fun _ d => d.onCluster cluster fun c => { c with droop := true }

/-! ## Reliability (R457 to R459, R466, R467) -/

/-- R458: a strike is replayed: the instructions that it undoes issue again, with the same outcome, and the lane block issues
no other meanwhile; it is recorded. -/
def execStrike (core lb : Nat) (s : State) : Host.Outcome State Fault Refusal :=
  s.run fun _ d =>
    let (seed, d) := d.nextFree
    let cycles := Config.strikeCycles seed % 49
    (d.onLb core lb fun b => { b with replay := b.replay + cycles }).report 0x01 2 64 (core * 4 + lb)
      (leBytes 2 (core * 4 + lb) ++ leBytes 1 cycles)

/-- R69, R459: from here on, a word's number stands for its copy in the memory-side cache of its home. -/
def cacheCopies : Nat := 2 ^ 47

/-- R459: the physical address of a protected word; 0 for one of a core's own stores, which have none
(notes/assumptions/43.md). -/
def wordAddress (addr : Nat) : Nat := if addr < 2 ^ 48 then addr % cacheCopies else 0

/-- R459: the number of a protected unit. A word of memory whose copy in a memory-side cache is uncorrectable reads as poisoned. -/
def unitOf (addr : Nat) : Nat := if addr < 2 ^ 48 then addr % cacheCopies / 8 else addr

/-- R459: the store that a word is of, by its place in the table. -/
def storeOf (addr : Nat) : Nat :=
  if addr < cacheCopies then if slicePage addr then 0 else 7
  else if addr < 2 ^ 48 then 1
  else
    match (addr - 2 ^ 48) / 2 ^ 20 % 8 with
    | 0 => 3
    | 1 => 4
    | 2 => 2
    | 6 => 6
    | _ => 5

/-- R459: a protected word is read: a corrected error is recorded, and an uncorrectable one poisons the word. -/
def execScrub (addr : Nat) (found : EccFinding) (s : State) : Host.Outcome State Fault Refusal :=
  s.run fun _ d =>
    match found with
    | .clean => d
    | .corrected => d.report 0x02 1 64 (storeOf addr) (leBytes 1 (storeOf addr) ++ leBytes 8 (wordAddress addr))
    | .uncorrectable =>
      if d.poison.contains (unitOf addr) then d else { d with poison := unitOf addr :: d.poison }

/-- R467: where the state goes on a fatal error: the 8 GiB at the top of the LPDDR tier. -/
def dumpBase : Nat := 0x010000000000 + lpddrFrames * pageBytes

/-- R467: the state that a dump holds: every slice, the save areas, the uniform files, the queues, the Almanac and the control
complex's logs. -/
def Dev.stateDump (d : Dev) : StateDump where
  slices := Memory.range d.mem (slicePa 0) (576 * sliceBytes)
  saveAreas := d.contexts.map fun (e : Nat × Context) =>
    (e.1, e.2.savePages.map fun p => (p.1, Memory.range d.mem p.2 pageBytes))
  uniform := d.warps.map fun (e : Nat × Warp) => (e.1, e.2.k, e.2.kp)
  fetUniform := d.fets.map fun (e : Nat × Fet) => (e.1, e.2.k, e.2.kp)
  queues := d.launches.filterMap fun (e : Nat × Launch) => e.2.stages.map fun ss => (e.1, ss.queues)
  almanac := d.contexts.map fun (e : Nat × Context) => (e.1, e.2.groups)
  logs := d.oob

/-- R467: a fatal error: the dies stop, the whole state is written to the reserved part of LPDDR and then to the NVMe dump
namespace, READY is cleared, and the module waits for a reset. -/
def execFatalError (_ : FatalReason) (s : State) : Host.Outcome State Fault Refusal :=
  s.runHost fun h d =>
    if h.stopped then (h, d)
    else
      let dump := some d.stateDump
      ({ h with stopped := true, ready := 0, nvme := dump }, { d with dump := dump }.report 0x08 4 64 0 (leBytes 8 dumpBase))

/-- R467: near the thermal limit, a cluster's cap is lowered, and that is reported. -/
def execThermal (cluster temperature : Nat) (cap : BitVec 3) (s : State) : Host.Outcome State Fault Refusal :=
  s.run fun _ d =>
    let d := d.onCluster cluster fun c => { c with cap := Nat.min c.cap cap.toNat }
    let level := d.targetLevel cluster
    (d.onCluster cluster fun c => c.toLevel level).report 0x09 0 64 cluster
      (leBytes 2 cluster ++ leBytes 2 temperature ++ leBytes 1 (d.cluster cluster).cap)

/-- R369: the fused counter takes a higher value, which holds from the next reset. -/
def execSecurityCounterProgram (value : BitVec 32) (s : State) : Host.Outcome State Fault Refusal :=
  s.runHost fun h d => (if h.fuse.toNat < value.toNat then { h with fuse := value } else h, d)

end Sys2Proof.Machine
end

