-- ==== Sys2Proof/Machine/Dispatch.lean ====
section
/-! DEFINITION. One arm for each constructor of Instr: the meaning that the spec gives the row. -/

namespace Sys2Proof.Machine

open Sys2Proof

def exec (i : Instr) (s : State) : Host.Outcome State Fault Refusal :=
  match i with
  | .nop w => Sys2Proof.Machine.execNop w s
  | .drop w => Sys2Proof.Machine.execDrop w s
  | .dup w n => Sys2Proof.Machine.execDup w n s
  | .swap w => Sys2Proof.Machine.execSwap w s
  | .rot w => Sys2Proof.Machine.execRot w s
  | .nip w => Sys2Proof.Machine.execNip w s
  | .depth w => Sys2Proof.Machine.execDepth w s
  | .litS w v => Sys2Proof.Machine.execLitS w v s
  | .ldf w n => Sys2Proof.Machine.execLdf w n s
  | .stf w n => Sys2Proof.Machine.execStf w n s
  | .rds w n => Sys2Proof.Machine.execRds w n s
  | .rdsD w n => Sys2Proof.Machine.execRdsD w n s
  | .flags w clear => Sys2Proof.Machine.execFlags w clear s
  | .lead w => Sys2Proof.Machine.execLead w s
  | .vote w mode => Sys2Proof.Machine.execVote w mode s
  | .shfl w mode => Sys2Proof.Machine.execShfl w mode s
  | .wsync w => Sys2Proof.Machine.execWsync w s
  | .add w nat sat => Sys2Proof.Machine.execAdd w nat sat s
  | .sub w nat sat => Sys2Proof.Machine.execSub w nat sat s
  | .mul w => Sys2Proof.Machine.execMul w s
  | .mulh w nat => Sys2Proof.Machine.execMulh w nat s
  | .div w nat => Sys2Proof.Machine.execDiv w nat s
  | .rem w nat => Sys2Proof.Machine.execRem w nat s
  | .neg w => Sys2Proof.Machine.execNeg w s
  | .abs w => Sys2Proof.Machine.execAbs w s
  | .min w nat => Sys2Proof.Machine.execMin w nat s
  | .max w nat => Sys2Proof.Machine.execMax w nat s
  | .and w => Sys2Proof.Machine.execAnd w s
  | .or w => Sys2Proof.Machine.execOr w s
  | .xor w => Sys2Proof.Machine.execXor w s
  | .not w => Sys2Proof.Machine.execNot w s
  | .shl w => Sys2Proof.Machine.execShl w s
  | .shr w => Sys2Proof.Machine.execShr w s
  | .sra w => Sys2Proof.Machine.execSra w s
  | .rotl w => Sys2Proof.Machine.execRotl w s
  | .popc w => Sys2Proof.Machine.execPopc w s
  | .clz w => Sys2Proof.Machine.execClz w s
  | .ctz w => Sys2Proof.Machine.execCtz w s
  | .brev w => Sys2Proof.Machine.execBrev w s
  | .sel w => Sys2Proof.Machine.execSel w s
  | .mad w => Sys2Proof.Machine.execMad w s
  | .icmp w nat cond => Sys2Proof.Machine.execIcmp w nat cond s
  | .fadd w rm => Sys2Proof.Machine.execFadd w rm s
  | .fsub w rm => Sys2Proof.Machine.execFsub w rm s
  | .fmul w rm => Sys2Proof.Machine.execFmul w rm s
  | .fdiv w rm => Sys2Proof.Machine.execFdiv w rm s
  | .fma w rm => Sys2Proof.Machine.execFma w rm s
  | .fneg w => Sys2Proof.Machine.execFneg w s
  | .fabs w => Sys2Proof.Machine.execFabs w s
  | .fmin w => Sys2Proof.Machine.execFmin w s
  | .fmax w => Sys2Proof.Machine.execFmax w s
  | .fsqrt w rm => Sys2Proof.Machine.execFsqrt w rm s
  | .frcp w rm => Sys2Proof.Machine.execFrcp w rm s
  | .frsq w => Sys2Proof.Machine.execFrsq w s
  | .fex2 w => Sys2Proof.Machine.execFex2 w s
  | .flg2 w => Sys2Proof.Machine.execFlg2 w s
  | .fsin w => Sys2Proof.Machine.execFsin w s
  | .fcos w => Sys2Proof.Machine.execFcos w s
  | .fcmp w cond => Sys2Proof.Machine.execFcmp w cond s
  | .fclass w => Sys2Proof.Machine.execFclass w s
  | .frnd w inexact rm => Sys2Proof.Machine.execFrnd w inexact rm s
  | .add2 w => Sys2Proof.Machine.execAdd2 w s
  | .sub2 w => Sys2Proof.Machine.execSub2 w s
  | .mulw w nat => Sys2Proof.Machine.execMulw w nat s
  | .shl2 w => Sys2Proof.Machine.execShl2 w s
  | .shr2 w arith => Sys2Proof.Machine.execShr2 w arith s
  | .icmp2 w nat cond => Sys2Proof.Machine.execIcmp2 w nat cond s
  | .lea w nat scale => Sys2Proof.Machine.execLea w nat scale s
  | .l32Routed op w ra rb rd cha chb chd mod => Sys2Proof.Machine.execL32Routed op w ra rb rd cha chb chd mod s
  | .br w off => Sys2Proof.Machine.execBr w off s
  | .bz w off => Sys2Proof.Machine.execBz w off s
  | .bnz w off => Sys2Proof.Machine.execBnz w off s
  | .bzj w off => Sys2Proof.Machine.execBzj w off s
  | .bnzj w off => Sys2Proof.Machine.execBnzj w off s
  | .brq w off => Sys2Proof.Machine.execBrq w off s
  | .join w d => Sys2Proof.Machine.execJoin w d s
  | .ret w => Sys2Proof.Machine.execRet w s
  | .exit w => Sys2Proof.Machine.execExit w s
  | .yield w => Sys2Proof.Machine.execYield w s
  | .brk w code => Sys2Proof.Machine.execBrk w code s
  | .lit16 w form imm => Sys2Proof.Machine.execLit16 w form imm s
  | .ldfL w wide n => Sys2Proof.Machine.execLdfL w wide n s
  | .stfL w wide n => Sys2Proof.Machine.execStfL w wide n s
  | .frame w n => Sys2Proof.Machine.execFrame w n s
  | .leave w n => Sys2Proof.Machine.execLeave w n s
  | .brL w off => Sys2Proof.Machine.execBrL w off s
  | .bzL w off => Sys2Proof.Machine.execBzL w off s
  | .bnzL w off => Sys2Proof.Machine.execBnzL w off s
  | .bzjL w off => Sys2Proof.Machine.execBzjL w off s
  | .bnzjL w off => Sys2Proof.Machine.execBnzjL w off s
  | .call w off => Sys2Proof.Machine.execCall w off s
  | .jtab w last => Sys2Proof.Machine.execJtab w last s
  | .jmpF w off => Sys2Proof.Machine.execJmpF w off s
  | .kbz w kp off => Sys2Proof.Machine.execKbz w kp off s
  | .kbnz w kp off => Sys2Proof.Machine.execKbnz w kp off s
  | .trap w code => Sys2Proof.Machine.execTrap w code s
  | .rte => Sys2Proof.Machine.execRte s
  | .rplq w entry field => Sys2Proof.Machine.execRplq w entry field s
  | .wplq w entry field => Sys2Proof.Machine.execWplq w entry field s
  | .ld w size off => Sys2Proof.Machine.execLd w size off s
  | .st w size off => Sys2Proof.Machine.execSt w size off s
  | .ldo w rmt order scope size => Sys2Proof.Machine.execLdo w rmt order scope size s
  | .sto w rmt order scope size => Sys2Proof.Machine.execSto w rmt order scope size s
  | .prefetch w off => Sys2Proof.Machine.execPrefetch w off s
  | .atom w op rmt order scope size => Sys2Proof.Machine.execAtom w op rmt order scope size s
  | .cas w forder rmt order scope size => Sys2Proof.Machine.execCas w forder rmt order scope size s
  | .red w op rmt order scope size => Sys2Proof.Machine.execRed w op rmt order scope size s
  | .fence w order scope => Sys2Proof.Machine.execFence w order scope s
  | .waitc w cls n => Sys2Proof.Machine.execWaitc w cls n s
  | .trywait w cls n => Sys2Proof.Machine.execTrywait w cls n s
  | .barArrive w bar count => Sys2Proof.Machine.execBarArrive w bar count s
  | .barSync w bar count => Sys2Proof.Machine.execBarSync w bar count s
  | .qpush w port => Sys2Proof.Machine.execQpush w port s
  | .qpop w port => Sys2Proof.Machine.execQpop w port s
  | .qeos w port => Sys2Proof.Machine.execQeos w port s
  | .qtry w port => Sys2Proof.Machine.execQtry w port s
  | .seal w => Sys2Proof.Machine.execSeal w s
  | .unseal w => Sys2Proof.Machine.execUnseal w s
  | .cfetch w seg => Sys2Proof.Machine.execCfetch w seg s
  | .cevict w seg => Sys2Proof.Machine.execCevict w seg s
  | .cstat w seg => Sys2Proof.Machine.execCstat w seg s
  | .cvt w sat rm dst src => Sys2Proof.Machine.execCvt w sat rm dst src s
  | .cvtSlot w src dst => Sys2Proof.Machine.execCvtSlot w src dst s
  | .bpack w slot => Sys2Proof.Machine.execBpack w slot s
  | .bunpack w slot => Sys2Proof.Machine.execBunpack w slot s
  | .hadd2 w bf sub rm => Sys2Proof.Machine.execHadd2 w bf sub rm s
  | .hmul2 w bf rm => Sys2Proof.Machine.execHmul2 w bf rm s
  | .hfma2 w bf rm => Sys2Proof.Machine.execHfma2 w bf rm s
  | .hmnx2 w max bf => Sys2Proof.Machine.execHmnx2 w max bf s
  | .dadd w rm => Sys2Proof.Machine.execDadd w rm s
  | .dmul w rm => Sys2Proof.Machine.execDmul w rm s
  | .dfma w rm => Sys2Proof.Machine.execDfma w rm s
  | .ddiv w rm => Sys2Proof.Machine.execDdiv w rm s
  | .dsqrt w rm => Sys2Proof.Machine.execDsqrt w rm s
  | .bfe w signed len pos => Sys2Proof.Machine.execBfe w signed len pos s
  | .bfi w len pos => Sys2Proof.Machine.execBfi w len pos s
  | .wrsLfsr w => Sys2Proof.Machine.execWrsLfsr w s
  | .wrsVigil w => Sys2Proof.Machine.execWrsVigil w s
  | .kmov kd ka => Sys2Proof.Machine.execKmov kd ka s
  | .kadd kd ka kb imm => Sys2Proof.Machine.execKadd kd ka kb imm s
  | .ksub kd ka kb imm => Sys2Proof.Machine.execKsub kd ka kb imm s
  | .kmul kd ka kb imm => Sys2Proof.Machine.execKmul kd ka kb imm s
  | .kand kd ka kb imm => Sys2Proof.Machine.execKand kd ka kb imm s
  | .kor kd ka kb imm => Sys2Proof.Machine.execKor kd ka kb imm s
  | .kxor kd ka kb imm => Sys2Proof.Machine.execKxor kd ka kb imm s
  | .kshl kd ka kb imm => Sys2Proof.Machine.execKshl kd ka kb imm s
  | .kshr kd ka kb imm arith => Sys2Proof.Machine.execKshr kd ka kb imm arith s
  | .kmin kd ka kb imm nat => Sys2Proof.Machine.execKmin kd ka kb imm nat s
  | .kmax kd ka kb imm nat => Sys2Proof.Machine.execKmax kd ka kb imm nat s
  | .kcmp kp ka kb nat cond => Sys2Proof.Machine.execKcmp kp ka kb nat cond s
  | .kadd2 kd ka kb imm => Sys2Proof.Machine.execKadd2 kd ka kb imm s
  | .klea kd ka kb nat scale => Sys2Proof.Machine.execKlea kd ka kb nat scale s
  | .kld kd ka n size => Sys2Proof.Machine.execKld kd ka n size s
  | .kst kd ka n size => Sys2Proof.Machine.execKst kd ka n size s
  | .kpush ka => Sys2Proof.Machine.execKpush ka s
  | .kpop kd cv => Sys2Proof.Machine.execKpop kd cv s
  | .kred kd op => Sys2Proof.Machine.execKred kd op s
  | .kpsel kd ka kb inv kp => Sys2Proof.Machine.execKpsel kd ka kb inv kp s
  | .setperf ka => Sys2Proof.Machine.execSetperf ka s
  | .agen ch ka => Sys2Proof.Machine.execAgen ch ka s
  | .dqpush ka => Sys2Proof.Machine.execDqpush ka s
  | .fetend => Sys2Proof.Machine.execFetend s
  | .lit32 imm => Sys2Proof.Machine.execLit32 imm s
  | .kli kd imm => Sys2Proof.Machine.execKli kd imm s
  | .jmpX off => Sys2Proof.Machine.execJmpX off s
  | .mma ka tile prog aslot bslot oslot back pair acc cplx naz dc kt ks rows => Sys2Proof.Machine.execMma ka tile prog aslot bslot oslot back pair acc cplx naz dc kt ks rows s
  | .mclr tile pair => Sys2Proof.Machine.execMclr tile pair s
  | .mdrain tile prog aslot bslot oslot pair kt ks rows => Sys2Proof.Machine.execMdrain tile prog aslot bslot oslot pair kt ks rows s
  | .bload kb macros bslot back pair kstr rows => Sys2Proof.Machine.execBload kb macros bslot back pair kstr rows s
  | .bswap macros pair => Sys2Proof.Machine.execBswap macros pair s
  | .dload kr kind first last => Sys2Proof.Machine.execDload kr kind first last s
  | .tcopy kl ksl out ring kc cv dslot ncoord tag => Sys2Proof.Machine.execTcopy kl ksl out ring kc cv dslot ncoord tag s
  | .tgather kl ksl ring kc cv dslot ncoord tag => Sys2Proof.Machine.execTgather kl ksl ring kc cv dslot ncoord tag s
  | .tscatter kl ksl ring kc cv dslot ncoord tag => Sys2Proof.Machine.execTscatter kl ksl ring kc cv dslot ncoord tag s
  | .coll kdsc ring tag => Sys2Proof.Machine.execColl kdsc ring tag s
  | .vtag kd group => Sys2Proof.Machine.execVtag kd group s
  | .launch tag record => Sys2Proof.Machine.execLaunch tag record s
  | .launchIndirect tag record grid => Sys2Proof.Machine.execLaunchIndirect tag record grid s
  | .copy tag src dst bytes => Sys2Proof.Machine.execCopy tag src dst bytes s
  | .graph tag nodes edges => Sys2Proof.Machine.execGraph tag nodes edges s
  | .node tag index cmd => Sys2Proof.Machine.execNode tag index cmd s
  | .edge tag src dst => Sys2Proof.Machine.execEdge tag src dst s
  | .phase tag => Sys2Proof.Machine.execPhase tag s
  | .wait tag eq va x => Sys2Proof.Machine.execWait tag eq va x s
  | .waitPoll slot stream => Sys2Proof.Machine.execWaitPoll slot stream s
  | .signal tag irq va value => Sys2Proof.Machine.execSignal tag irq va value s
  | .loop tag count => Sys2Proof.Machine.execLoop tag count s
  | .endloop tag => Sys2Proof.Machine.execEndloop tag s
  | .ifSkip tag eqz va skip => Sys2Proof.Machine.execIfSkip tag eqz va skip s
  | .fenceCommand tag => Sys2Proof.Machine.execFenceCommand tag s
  | .cancel tag unit team => Sys2Proof.Machine.execCancel tag unit team s
  | .codeLoad tag image bytes report => Sys2Proof.Machine.execCodeLoad tag image bytes report s
  | .codeUnload tag forced handle => Sys2Proof.Machine.execCodeUnload tag forced handle s
  | .sealCommand tag undo base len => Sys2Proof.Machine.execSealCommand tag undo base len s
  | .nodeStart slot graph index => Sys2Proof.Machine.execNodeStart slot graph index s
  | .doorbell slot stream => Sys2Proof.Machine.execDoorbell slot stream s
  | .closeComplete slot => Sys2Proof.Machine.execCloseComplete slot s
  | .mapDone slot => Sys2Proof.Machine.execMapDone slot s
  | .reset => Sys2Proof.Machine.execReset s
  | .teamPlacement launch core => Sys2Proof.Machine.execTeamPlacement launch core s
  | .stageSetStart launch cores => Sys2Proof.Machine.execStageSetStart launch cores s
  | .warpResume warp lb => Sys2Proof.Machine.execWarpResume warp lb s
  | .warpSwap core lb => Sys2Proof.Machine.execWarpSwap core lb s
  | .splitSelection warp => Sys2Proof.Machine.execSplitSelection warp s
  | .spillRefillComplete core lb => Sys2Proof.Machine.execSpillRefillComplete core lb s
  | .forwardingEntryFreed core lb => Sys2Proof.Machine.execForwardingEntryFreed core lb s
  | .loadFill access => Sys2Proof.Machine.execLoadFill access s
  | .homeAccess access => Sys2Proof.Machine.execHomeAccess access s
  | .holdWindowRelease access => Sys2Proof.Machine.execHoldWindowRelease access s
  | .pageWalk access => Sys2Proof.Machine.execPageWalk access s
  | .pageService access => Sys2Proof.Machine.execPageService access s
  | .sealTakesEffect request => Sys2Proof.Machine.execSealTakesEffect request s
  | .unsealComplete request => Sys2Proof.Machine.execUnsealComplete request s
  | .demandFill core slot page => Sys2Proof.Machine.execDemandFill core slot page s
  | .codeFillLands core seg => Sys2Proof.Machine.execCodeFillLands core seg s
  | .agenStreamRead fet ch => Sys2Proof.Machine.execAgenStreamRead fet ch s
  | .fetResume fet => Sys2Proof.Machine.execFetResume fet s
  | .channelEmpty warp => Sys2Proof.Machine.execChannelEmpty warp s
  | .arrayPhase core => Sys2Proof.Machine.execArrayPhase core s
  | .arrayPhaseEnd core => Sys2Proof.Machine.execArrayPhaseEnd core s
  | .drain core => Sys2Proof.Machine.execDrain core s
  | .drainElement core => Sys2Proof.Machine.execDrainElement core s
  | .bswapTakesEffect core => Sys2Proof.Machine.execBswapTakesEffect core s
  | .matrixOperationRetire core => Sys2Proof.Machine.execMatrixOperationRetire core s
  | .copyCommandStart command => Sys2Proof.Machine.execCopyCommandStart command s
  | .copyCommandComplete command => Sys2Proof.Machine.execCopyCommandComplete command s
  | .decrementDelivery operation => Sys2Proof.Machine.execDecrementDelivery operation s
  | .queueGrant launch queue => Sys2Proof.Machine.execQueueGrant launch queue s
  | .queueRecordDelivery launch queue => Sys2Proof.Machine.execQueueRecordDelivery launch queue s
  | .collAccept => Sys2Proof.Machine.execCollAccept s
  | .collComplete operation => Sys2Proof.Machine.execCollComplete operation s
  | .trapDelivery warp => Sys2Proof.Machine.execTrapDelivery warp s
  | .handoverMark launch queue => Sys2Proof.Machine.execHandoverMark launch queue s
  | .trywaitTimeout warp => Sys2Proof.Machine.execTrywaitTimeout warp s
  | .tokenBucketRefill cluster => Sys2Proof.Machine.execTokenBucketRefill cluster s
  | .rebalancingInterval launch => Sys2Proof.Machine.execRebalancingInterval launch s
  | .stageTeamStart launch core => Sys2Proof.Machine.execStageTeamStart launch core s
  | .progressStall warp => Sys2Proof.Machine.execProgressStall warp s
  | .barrierTimeout team bar => Sys2Proof.Machine.execBarrierTimeout team bar s
  | .stageSetStuck launch => Sys2Proof.Machine.execStageSetStuck launch s
  | .teamRelaunch team => Sys2Proof.Machine.execTeamRelaunch team s
  | .donorEviction launch team => Sys2Proof.Machine.execDonorEviction launch team s
  | .rollback launch => Sys2Proof.Machine.execRollback launch s
  | .laneRateTransition cluster => Sys2Proof.Machine.execLaneRateTransition cluster s
  | .collectiveFlit flit => Sys2Proof.Machine.execCollectiveFlit flit s
  | .heartbeat port received => Sys2Proof.Machine.execHeartbeat port received s
  | .registerWrite offset width value => Sys2Proof.Machine.execRegisterWrite offset width value s
  | .moduleLost module => Sys2Proof.Machine.execModuleLost module s
  | .agreementProposal slot group members cut => Sys2Proof.Machine.execAgreementProposal slot group members cut s
  | .agreementAck slot group module => Sys2Proof.Machine.execAgreementAck slot group module s
  | .agreementCommit slot group => Sys2Proof.Machine.execAgreementCommit slot group s
  | .viewInstall slot group => Sys2Proof.Machine.execViewInstall slot group s
  | .rejoinRequest slot group module tag => Sys2Proof.Machine.execRejoinRequest slot group module tag s
  | .stateTransfer slot group module gen members cut => Sys2Proof.Machine.execStateTransfer slot group module gen members cut s
  | .rejoinResend slot group => Sys2Proof.Machine.execRejoinResend slot group s
  | .strike core lb => Sys2Proof.Machine.execStrike core lb s
  | .scrub addr found => Sys2Proof.Machine.execScrub addr found s
  | .fatalError reason => Sys2Proof.Machine.execFatalError reason s
  | .thermal cluster temperature cap => Sys2Proof.Machine.execThermal cluster temperature cap s
  | .bucketReservation cluster requester => Sys2Proof.Machine.execBucketReservation cluster requester s
  | .droopDetectorTrip cluster => Sys2Proof.Machine.execDroopDetectorTrip cluster s
  | .securityCounterProgram value => Sys2Proof.Machine.execSecurityCounterProgram value s
  | .powerManagerCapAndRefill cluster cap refill => Sys2Proof.Machine.execPowerManagerCapAndRefill cluster cap refill s
  | .featCommit value => Sys2Proof.Machine.execFeatCommit value s
  | .hostLinkDown => Sys2Proof.Machine.execHostLinkDown s
  | .hostLinkUp => Sys2Proof.Machine.execHostLinkUp s
  | .partialEviction launch core => Sys2Proof.Machine.execPartialEviction launch core s
  | .timeSliceSwitch slot core => Sys2Proof.Machine.execTimeSliceSwitch slot core s
  | .migration slot va tier => Sys2Proof.Machine.execMigration slot va tier s
  | .engineFaultTrap warp => Sys2Proof.Machine.execEngineFaultTrap warp s
  | .functionReady function => Sys2Proof.Machine.execFunctionReady function s
  | .unmapPages slot => Sys2Proof.Machine.execUnmapPages slot s
  | .ctxClose slot => Sys2Proof.Machine.execCtxClose slot s
  | .mapPages slot => Sys2Proof.Machine.execMapPages slot s
  | .ctxOpen slot groups => Sys2Proof.Machine.execCtxOpen slot groups s

end Sys2Proof.Machine
end

