-- ==== Sys2Proof/Machine/Idle.lean ====
section
/-! DEFINITION. What comes next where the agenda names nothing (notes/assumptions/1.md), and the place where a
step fetches. -/

namespace Sys2Proof.Machine

open Sys2Proof

/-- Numbers of a table's entries. -/
def keys {α : Type} (t : Table α) : List Nat := t.map Prod.fst

/-- The pages that a core's splits wait for, by context slot (R77). -/
def Dev.pagesWanted (d : Dev) : List Instr :=
  d.warps.flatMap fun (e : Nat × Warp) => e.2.splits.filterMap fun (s : Split) =>
    match s.state with
    | .blocked (.code page) => some (Instr.demandFill e.2.core (d.slotOf e.2.team) (BitVec.ofNat 45 page))
    | _ => none

/-- The same for the front-end contexts (R42). -/
def Dev.fetPagesWanted (d : Dev) : List Instr :=
  d.fets.filterMap fun (e : Nat × Fet) =>
    match e.2.stalled with
    | some (.code page) => some (Instr.demandFill e.2.core (d.slotOf e.2.team) (BitVec.ofNat 45 page))
    | _ => none

/-- The next steps of held effects, of accesses, and of the memory manager for them. -/
def Dev.accessEvents (d : Dev) : List Instr :=
  (d.heldEffects.map fun n => Instr.holdWindowRelease n) ++
    (keys d.accesses).flatMap fun n => [Instr.loadFill n, Instr.homeAccess n, Instr.pageWalk n, Instr.pageService n]

/-- The next steps of the warps and the front-end contexts. -/
def Dev.warpEvents (d : Dev) : List Instr :=
  ((keys d.warps).flatMap fun n => [Instr.trapDelivery n, Instr.progressStall n, Instr.splitSelection n, Instr.channelEmpty n]) ++
    d.fets.flatMap fun (e : Nat × Fet) => Instr.fetResume e.1 :: e.2.streams.map fun (s : Stream) => Instr.agenStreamRead e.1 s.ch

/-- The next steps of the cores' units. -/
def Dev.coreEvents (d : Dev) : List Instr :=
  d.pagesWanted ++ d.fetPagesWanted ++ d.cores.flatMap fun (c : Nat × Core) =>
    ((keys c.2.segments).map fun n => Instr.codeFillLands c.1 n) ++
      ((keys c.2.lbs).flatMap fun n => [Instr.spillRefillComplete c.1 n, Instr.forwardingEntryFreed c.1 n, Instr.warpSwap c.1 n]) ++
      (if c.2.engine.isEmpty then []
       else [Instr.matrixOperationRetire c.1, Instr.drainElement c.1, Instr.drain c.1, Instr.arrayPhaseEnd c.1, Instr.arrayPhase c.1,
         Instr.bswapTakesEffect c.1])

/-- The next steps of the engines, of the queue units and of the requests to seal. -/
def Dev.engineEvents (d : Dev) : List Instr :=
  ((keys d.ops).map fun n => Instr.decrementDelivery n) ++
    ((keys d.copies).flatMap fun n => [Instr.copyCommandStart n, Instr.copyCommandComplete n]) ++
    ((keys d.seals).flatMap fun n => [Instr.sealTakesEffect n, Instr.unsealComplete n]) ++
    (if d.colls.isEmpty then [] else [Instr.collAccept]) ++ ((keys d.colls).map fun n => Instr.collComplete n) ++
    d.launches.flatMap fun (l : Nat × Launch) =>
      match l.2.stages with
      | none => []
      | some ss => (List.range ss.queues.length).flatMap fun q =>
          [Instr.queueGrant l.1 q, Instr.queueRecordDelivery l.1 q, Instr.handoverMark l.1 q]

/-- The next steps of the command processors, the memory manager's requests and the launches; a team is placed on
the lowest core that it fits, and a stage set on the lowest; a launch that fits on none may evict warps (R43). -/
def Dev.launchEvents (d : Dev) : List Instr :=
  (d.contexts.flatMap fun (c : Nat × Context) =>
    [Instr.mapDone c.1, Instr.closeComplete c.1] ++ (keys c.2.streams).map fun n => Instr.waitPoll c.1 n) ++
    (d.graphs.flatMap fun (g : Nat × Graph) =>
      (List.range g.2.nodes.length).map fun n => Instr.nodeStart g.2.slot g.1 n) ++
    (d.launches.flatMap fun (l : Nat × Launch) =>
      match l.2.stages with
      | some ss =>
        if ss.started then [] else [Instr.stageSetStart l.1 (List.range ss.initial.length)]
      | none =>
        if (d.nextTeam l.2).isNone then [] else (List.range 576).map fun core => Instr.teamPlacement l.1 core) ++
    d.launches.flatMap fun (l : Nat × Launch) =>
      if d.awaitsPlacement l.2 then (List.range 576).map fun core => Instr.partialEviction l.1 core else []

/-- The steps that need the passing of time: the end of a lane-rate transition, an evicted warp's return, a bound of
`trywait`, a front-end cycle. -/
def Dev.timeEvents (d : Dev) : List Instr :=
  (d.clusters.filterMap fun (c : Nat × Cluster) =>
    if c.2.transition.isSome then some (Instr.laneRateTransition c.1) else none) ++ (d.warps.flatMap fun (w : Nat × Warp) =>
    if w.2.place == .evicted then (List.range 4).map fun lb => Instr.warpResume w.1 lb else [Instr.trywaitTimeout w.1]) ++
    ((((d.warps.filter fun (w : Nat × Warp) => w.2.place == .resident).map fun (w : Nat × Warp) => clusterOf w.2.core) ++
      (d.fets.filter fun (f : Nat × Fet) => !f.2.ended).map fun (f : Nat × Fet) => clusterOf f.2.core).eraseDups.foldr
        (fun n ns => if ns.all fun (m : Nat) => decide ((d.cluster n).clock ≤ (d.cluster m).clock) then n :: ns else ns ++ [n])
        []).map fun n => Instr.tokenBucketRefill n

/-- The steps of placed launches that come about by rule: a team placed again, a rollback, a phase that is too old,
the boundaries of a stage set, its handovers and its end when stuck (R337 to R339, R440, R445, R461, R463). -/
def Dev.recoveryEvents (d : Dev) : List Instr :=
  (d.teams.flatMap fun (t : Nat × Team) =>
    Instr.teamRelaunch t.1 :: (List.range 16).map fun b => Instr.barrierTimeout t.1 b) ++
    d.launches.flatMap fun (l : Nat × Launch) =>
      Instr.rollback l.1 :: match l.2.stages with
        | none => []
        | some ss => Instr.stageSetStuck l.1 :: Instr.rebalancingInterval l.1 ::
            ((ss.stages.filterMap Stage.freed).map fun core => Instr.stageTeamStart l.1 core) ++
              (keys d.teams).map fun t => Instr.donorEviction l.1 t

/-- R208, R380: the turns that the lane blocks and the front-end contexts of a cluster still have in the current front-end
cycle, with their places: a request that has a place in it, or one whose tokens the first pass has granted, or the demand
fills of that pass. -/
def Dev.requests (d : Dev) : List (Nat × Turn) :=
  d.cores.flatMap fun (c : Nat × Core) =>
    (c.2.lbs.filterMap fun (b : Nat × LaneBlock) =>
      match d.lanePlace c.1 b.1, d.candidate c.1 b.1 with
      | some place, some _ => some (place.1, Turn.lane c.1 b.1)
      | _, _ =>
        if b.2.due.isSome || !b.2.misses.isEmpty then some (2880 + requester c.1 b.1, Turn.lane c.1 b.1) else none) ++
      match d.fetPlace c.1, d.nextFet c.1 with
      | some place, some _ => [(place.1, Turn.frontEnd c.1)]
      | _, _ =>
        if c.2.fetDue.isSome || !c.2.fetMisses.isEmpty then [(2880 + requester c.1 4, Turn.frontEnd c.1)] else []

/-- R380: the first of some requests. -/
def firstRequest : List (Nat × Turn) → Option (Nat × Turn)
  | [] => none
  | r :: rs =>
    match firstRequest rs with
    | none => some r
    | some q => if r.1 ≤ q.1 then some r else some q

/-- The issue that comes next where no event does: a command, a lane block's or a front-end context's. -/
def Dev.issueTurn (h : HostPart) (d : Dev) : Option Turn :=
  if !(d.readyStreams h).isEmpty || (keys d.contexts).any d.phaseOver then some .command
  else (firstRequest d.requests).map Prod.snd

/-! ## The place where a step fetches -/

/-- The text page of the first instruction: its context page and where its bytes lie. -/
def fetchPage : Nat := 0x100000000000
def fetchPa : Nat := 0x10000

/-- A launch record whose fields hold the least that a team needs: one warp, the deepest stack and frame. -/
def fetchRecord : LaunchRecord :=
  ⟨1, (1, 1, 1), 1, 1024, 256, 0, 1, false, 3, false, false, 0, 0, BitVec.ofNat 64 (fetchPage * 4096), 0, 0, []⟩

/-- A launch of one team (R113). -/
def fetchLaunch : Launch := ⟨0, 0, 0, fetchRecord, 1, 1, [], [], none, false, false, 0, false, false⟩

/-- Its team, on core 0. -/
def fetchTeam : Team where
  launch := 0
  index := 0
  coords := (0, 0, 0)
  core := 0
  follower := none
  start := 0
  stage := none
  warps := 1
  shared := 0
  sharedBytes := 0
  reserved := 1024 * 128 + 256 * 128
  bars := List.replicate 16 Barrier.reset
  rings := List.replicate 8 0
  eos := []
  donor := false
  marks := []
  ended := false
  complete := false
  held := false
  record := 0

/-- A thread at its start (R21). -/
def fetchThread (lane : Nat) : Thread := ⟨lane, [], 0, [], lane, [], []⟩

/-- A warp at its start: 32 threads in one split at the first instruction (R22, R32, R59). -/
def fetchWarp : Warp :=
  { team := 0, w := 0, core := 0, lb := 0, slot := 0, sliceCore := 0, stackBase := 0, frameBase := 1024 * 128, place := .resident,
    fwd := [], stopped := [],
    threads := (List.range 32).map fetchThread,
    cur := some ⟨0xFFFFFFFF, BitVec.ofNat 57 (fetchPage * 4096), 0, 0, .ready⟩, others := [], last := 0, lfsr := 1, join := [],
    k := List.replicate 64 0, kp := 0, flags := 0, cnt := [0, 0, 0, 0], ch15 := [], vlimit := 0x01000000, perf := 3,
    handler := none, posted := [], replay := [], kld := [], marks := [], observed := [], fed := 0xFFFFFFFF }

/-- The device with one warp on core 0 whose next instruction is the one whose bytes are given, its code page
VALID in the code store. -/
def Dev.placed (d : Dev) (bytes : List Byte) : Dev :=
  let c := d.core 0
  let b : LaneBlock :=
    { c.lb 0 with
      active := [0], hold := 0, replay := 0, credit := 1, follow := none, arrivals := [], due := none, misses := [] }
  { d with
    mem := Memory.writeBytes d.mem fetchPa bytes
    poison := clearPoison d.poison fetchPa 8
    contexts := Table.set d.contexts 0 { d.context 0 with state := .open_, breaks := [] }
    launches := Table.set d.launches 0 fetchLaunch
    teams := Table.set d.teams 0 fetchTeam
    warps := Table.set d.warps 0 fetchWarp
    cores := Table.set d.cores 0 { c with
      fetDue := none
      fetMisses := []
      segments := Table.set c.segments 0 ⟨.valid, 0, fetchPage, fetchPa, false, 0, false, none⟩
      lbs := Table.set c.lbs 0 b }
    clusters := Table.set d.clusters 0 { d.cluster 0 with
      clock := 0, cursor := 0, tokens := 4096, reserve := none, level := 3, transition := none } }

end Sys2Proof.Machine
end

