-- ==== Sys2Proof/Machine/Turns.lean ====
section
/-! DEFINITION. The turns of a step: the issue of a lane block, of a front-end context or of the command
processors, an event of the device, and what comes next where the agenda names nothing (notes/assumptions/1.md). -/

namespace Sys2Proof.Machine

open Sys2Proof

/-- The state as an event of the device finds it: no instruction issues. -/
def State.between (s : State) : State := { s with dev := { s.dev with issuer := .none, issued := false } }

/-- R38, R380: a lane block's instruction has taken effect in `t`, where `s` is the state without it: another may co-issue with
it, and the bucket then decides on the two together. One that would not issue is left for a request of its own. -/
def laneIssued (s t : State) (core lb : Nat) (g : Grant) : Host.Outcome State Fault Refusal :=
  let t := { t with dev := t.dev.afterLane core lb g }
  let done := fun (t : State) (cost : Nat) => Host.Outcome.next { t with dev := laneDecision s.dev t.dev core lb g cost }
  match t.dev.pairMate core lb g with
  | none => done t g.cost
  | some (m, d) =>
    match exec m.instr { t with dev := d } with
    | .next u => if u.dev.issued then done { u with dev := u.dev.afterLane core lb m } (g.cost + m.cost) else done t g.cost
    | .fault r => .fault r
    | .refused r => .refused r

/-- R261, R380: a lane block's attempt to issue an instruction: one that does not issue has made no request, and one that dxdb
stops at a breakpoint does nothing. -/
def laneAttempt (s : State) (core lb : Nat) (g : Grant) : Host.Outcome State Fault Refusal :=
  match exec g.instr s with
  | .next t =>
    if s.dev.breaks g && !t.dev.waitsAt g then .next { s with dev := s.dev.stopTeamOf g.id }
    else if t.dev.issued then laneIssued s t core lb g
    else .next t
  | .fault r => .fault r
  | .refused r => .refused r

/-- The same for a core's front-end contexts. -/
def fetAttempt (s : State) (core : Nat) (g : Grant) : Host.Outcome State Fault Refusal :=
  match exec g.instr s with
  | .next t =>
    if s.dev.fetBreaks g && !t.dev.fetWaits g then .next { s with dev := s.dev.stopTeamOfFet g.id }
    else if t.dev.issued then .next { t with dev := fetDecision s.dev t.dev core g g.cost }
    else .next t
  | .fault r => .fault r
  | .refused r => .refused r

/-- A turn. -/
def turn (t : Turn) (s : State) : Host.Outcome State Fault Refusal :=
  match t with
  | .lane core lb =>
    match s.dev.laneTurn s.host core lb with
    | .idle d => .next { s with dev := d }
    | .run g d => laneAttempt { s with dev := d } core lb g
  | .frontEnd core =>
    match s.dev.fetTurn s.host core with
    | .idle d => .next { s with dev := d }
    | .run g d => fetAttempt { s with dev := d } core g
  | .command =>
    match s.dev.commandTurn s.host with
    | .idle d => .next { s with dev := d }
    | .run i d => exec i { s with dev := d }
  | .event i => exec i s.between
  | .queueCopy n => s.run fun h d => d.copyTurn h n
  | .registerRead offset width => .next { s with host := s.host.readRegister s.dev offset width }
  | .windowMap page target => .next { s with host := s.host.mapWindow page target }
  | .windowRead offset n => s.runHost fun h d => d.windowRead h offset n
  | .windowWrite offset bytes => s.run fun h d => d.windowWrite h offset bytes
  | .firmware image => s.runHost fun h d => h.checkFirmware d image
  | .debug a => s.run fun _ d => d.debug a

/-- The event does something now. -/
def State.enabled (s : State) (i : Instr) : Bool :=
  match exec i s.between with
  | .next t => t.dev != s.between.dev
  | _ => false

/-- The first of some events that does something now. -/
def State.firstEnabled (s : State) : List Instr → Option Turn
  | [] => none
  | i :: is => if s.enabled i then some (.event i) else s.firstEnabled is

/-- R223: the copy of a queue record comes after nothing that has still to perform. -/
def Dev.copyReady (d : Dev) (n : Nat) : Bool := (d.queueCopies[n]?).any fun c => d.allPerformed c.deps

/-- The turn that comes where the agenda is empty: the device's first event that does something, then a copy of a queue
record, then an issue, then the passing of time; none where nothing is under way. -/
def State.defaultTurn (s : State) : Option Turn :=
  let d := s.dev
  match s.firstEnabled (d.accessEvents ++ d.warpEvents ++ d.coreEvents ++ d.engineEvents ++ d.recoveryEvents ++
    d.launchEvents) with
  | some t => some t
  | none =>
    match (List.range d.queueCopies.length).find? d.copyReady with
    | some n => some (.queueCopy n)
    | none =>
      match d.issueTurn s.host with
      | some t => some t
      | none => s.firstEnabled d.timeEvents

end Sys2Proof.Machine
end

