-- ==== Sys2Proof/Machine/Step.lean ====
section
/-! DEFINITION. One step of the module: the turn that the agenda names, or that comes by itself. -/

namespace Sys2Proof.Machine

open Sys2Proof

/-- One step. After a fatal error the module waits for a reset (R467). -/
def step (s : State) : Host.Outcome State Fault Refusal :=
  match s.agenda with
  | [] =>
    if s.host.stopped then .next s
    else
      match s.defaultTurn with
      | none => .next s
      | some t => turn t s
  | t :: ts =>
    if s.host.stopped && t != .event .reset then .next { s with agenda := ts } else turn t { s with agenda := ts }

/-- The state with an instruction where the next step fetches: the first bits of its word, in the table's
numbering, and zeros after them. -/
def State.withFetchWord (s : State) (nbits w : Nat) : State :=
  { s with
    host := { s.host with stopped := false }
    dev := s.dev.placed (tableBytes nbits w)
    agenda := [.lane 0 0] }

end Sys2Proof.Machine
end

