-- ==== Sys2Proof/Safety.lean ====
section
/-! DEFINITION. The terms that statements about the machine use: what a safe run is, when an instruction of a warp or of
a front-end context issues, the state that its issue leaves, and the results that the spec's tables give. -/

namespace Sys2Proof.Safety

open Sys2Proof Sys2Proof.Machine

/-- The step answers a next state. -/
def steps (s : Machine.State) : Prop := ∃ t, step s = .next t

/-- Memory is in canonical form. -/
def memory (s : Machine.State) : Prop := Memory.wf s.dev.mem = true

/-! ## Issue (R142, R143, R405) -/

/-- The turn is that of a resident warp, which has a current split. -/
structure Issues (s : Machine.State) (id : Nat) (w : Warp) (sp : Split) : Prop where
  issuer : s.dev.issuer = .warp id
  warp : s.dev.warp? id = some w
  cur : w.cur = some sp

/-- The turn is that of a front-end context, which waits for no destination of `kld` among `regs`. -/
structure IssuesFet (s : Machine.State) (id : Nat) (f : Fet) (regs : List Nat) : Prop where
  issuer : s.dev.issuer = .fet id
  fet : Table.find? s.dev.fets id = some f
  loaded : ∀ e ∈ f.kld, e.1 ∉ regs

/-- R405: the warp's current split meets every condition of the instruction's issue: enough cells, and a depth
within the limit; the resident count that it needs; operand cells that are full; entries and room in its
channels; no `kld` under way to its uniform registers; and room in the replay queue and the forwarding table. -/
structure Ready (s : Machine.State) (id : Nat) (w : Warp) (sp : Split) (n : Need) : Prop where
  issues : Issues s id w sp
  deep : n.pops ≤ w.depth sp
  fits : w.depth sp - n.pops + n.pushes ≤ s.dev.depthLimit w
  resident : residentTarget sp.c n.pops n.pushes = sp.c
  judged : ∀ t ∈ w.threadsOf sp.mask, t.empties n.early = []
  full : ∀ t ∈ w.threadsOf sp.mask, t.empties n.reads = []
  channels : ∀ c ∈ n.channels, channelReady w sp.mask c = true
  loaded : ∀ e ∈ w.kld, e.1 ∉ n.regs
  replay : s.dev.replayUse id w + n.replay ≤ 16
  forwards : ((s.dev.core w.core).lb w.lb).forwards.length + n.forwards ≤ 16

/-- The split that goes on after an instruction of so many bytes that pops and pushes so many cells. -/
def after (sp : Split) (bytes pops pushes : Nat) : Split :=
  { sp with pc := sp.pc + BitVec.ofNat 57 bytes, c := sp.c - pops + pushes, age := 0 }

/-- The state after an issue that changes its own warp and nothing else. -/
def issued (s : Machine.State) (id : Nat) (w : Warp) (sp : Split) : Machine.State :=
  { s with dev := { s.dev.setWarp id { w with cur := some sp } with issued := true } }

/-- The state after an issue that changes its own front-end context and nothing else. -/
def issuedFet (s : Machine.State) (id : Nat) (f : Fet) (bytes : Nat) : Machine.State :=
  { s with dev := { s.dev.setFet id { f with pc := f.pc + BitVec.ofNat 57 bytes, stalled := none } with issued := true } }

/-- The word of the cell at a place of a stack, counted from the top. -/
def cell (st : List Cell) (n : Nat) : Word := ((st[n]?).map Cell.word).getD 0

/-- R48: the 64-bit value whose high half is at a place of a stack, and its low half one deeper. A stack that
ends between the two has the one cell's value. -/
def pair (st : List Cell) (n : Nat) : Dword :=
  match st.drop n with
  | hi :: lo :: _ => hi.word ++ lo.word
  | [one] => BitVec.setWidth 64 one.word
  | [] => 0

/-- The stack of every lane of the split changed. -/
def onStacks (w : Warp) (sp : Split) (f : List Cell → List Cell) : Warp :=
  w.onLanes sp.mask fun t => { t with stack := f t.stack }

/-! ## The results of the integer tables (R162 to R170) -/

/-- An instruction that pops `pops` cells in each lane of its split, and pushes one cell for them. -/
structure WordForm where
  bytes : Nat
  w : Bool
  pops : Nat
  f : Word → Word → Word → Word

/-- The stack of a lane after it: the operands are x, a and b, with b on top. -/
def WordForm.onCells (o : WordForm) (st : List Cell) : List Cell :=
  .full (o.f (cell st 2) (cell st 1) (cell st 0)) :: st.drop o.pops

/-- A value limited to an interval. -/
def clamp (lo hi v : Int) : Word := BitVec.ofInt 32 (if v < lo then lo else if hi < v then hi else v)

/-- R163: SAT(v, s32), or SAT(v, n32). -/
def saturate (nat : Bool) (v : Int) : Word := if nat then clamp 0 (2 ^ 32 - 1) v else clamp (-2 ^ 31) (2 ^ 31 - 1) v

/-- A word as n32, or as s32. -/
def value (nat : Bool) (a : Word) : Int := if nat then (a.toNat : Int) else a.toInt

/-- R167: a condition by its code. -/
def holds (cond : BitVec 3) (a b : Int) : Bool :=
  (cond == 0 && decide (a = b)) || (cond == 1 && decide (a ≠ b)) || (cond == 2 && decide (a < b)) ||
    (cond == 3 && decide (a ≤ b)) || (cond == 4 && decide (b < a)) || (cond == 5 && decide (b ≤ a))

/-- A condition as the word that a comparison pushes. -/
def flag (p : Bool) : Word := if p then 1 else 0

/-- R162, R166 to R168: the forms of the word instructions, and what they push. -/
def wordForm : Instr → Option WordForm
  | .add w false false => some ⟨2, w, 2, fun _ a b => BitVec.ofInt 32 (a.toInt + b.toInt)⟩
  | .add w nat true => some ⟨2, w, 2, fun _ a b => saturate nat (value nat a + value nat b)⟩
  | .sub w false false => some ⟨2, w, 2, fun _ a b => BitVec.ofInt 32 (a.toInt - b.toInt)⟩
  | .sub w nat true => some ⟨2, w, 2, fun _ a b => saturate nat (value nat a - value nat b)⟩
  | .mul w => some ⟨2, w, 2, fun _ a b => BitVec.ofNat 32 (a.toNat * b.toNat)⟩
  | .mulh w nat => some ⟨2, w, 2, fun _ a b => BitVec.ofInt 32 (value nat a * value nat b / 2 ^ 32)⟩
  | .div w nat => some ⟨2, w, 2, fun _ a b =>
      if b = 0 then 0xFFFFFFFF else BitVec.ofInt 32 ((value nat a).tdiv (value nat b))⟩
  | .rem w nat => some ⟨2, w, 2, fun _ a b =>
      if b = 0 then a
      else BitVec.ofInt 32 (value nat a - (value nat a).tdiv (value nat b) * value nat b)⟩
  | .neg w => some ⟨2, w, 1, fun _ _ a => BitVec.ofInt 32 (-a.toInt)⟩
  | .abs w => some ⟨2, w, 1, fun _ _ a => BitVec.ofInt 32 a.toInt.natAbs⟩
  | .min w nat => some ⟨2, w, 2, fun _ a b => if value nat a ≤ value nat b then a else b⟩
  | .max w nat => some ⟨2, w, 2, fun _ a b => if value nat b ≤ value nat a then a else b⟩
  | .and w => some ⟨2, w, 2, fun _ a b => a &&& b⟩
  | .or w => some ⟨2, w, 2, fun _ a b => a ||| b⟩
  | .xor w => some ⟨2, w, 2, fun _ a b => a ^^^ b⟩
  | .not w => some ⟨2, w, 1, fun _ _ a => ~~~a⟩
  | .shl w => some ⟨2, w, 2, fun _ a b => if b.toNat < 32 then BitVec.ofNat 32 (a.toNat * 2 ^ b.toNat) else 0⟩
  | .shr w => some ⟨2, w, 2, fun _ a b => if b.toNat < 32 then BitVec.ofNat 32 (a.toNat / 2 ^ b.toNat) else 0⟩
  | .sra w => some ⟨2, w, 2, fun _ a b =>
      if b.toNat < 32 then BitVec.ofInt 32 (a.toInt / 2 ^ b.toNat) else if 0 ≤ a.toInt then 0 else 0xFFFFFFFF⟩
  | .rotl w => some ⟨2, w, 2, fun _ a b => a <<< (b.toNat % 32) ||| a >>> (32 - b.toNat % 32)⟩
  | .popc w => some ⟨2, w, 1, fun _ _ a => BitVec.ofNat 32 ((List.range 32).countP fun i => a.getLsbD i)⟩
  | .clz w => some ⟨2, w, 1, fun _ _ a => if a = 0 then 32 else BitVec.ofNat 32 (31 - Nat.log2 a.toNat)⟩
  | .ctz w => some ⟨2, w, 1, fun _ _ a =>
      BitVec.ofNat 32 (((List.range 32).find? fun i => decide (a.toNat % 2 ^ (i + 1) ≠ 0)).getD 32)⟩
  | .brev w => some ⟨2, w, 1, fun _ _ a =>
      (List.range 32).foldl (fun r i => if a.getLsbD (31 - i) then r ||| 1#32 <<< i else r) 0⟩
  | .sel w => some ⟨2, w, 3, fun c a b => if c ≠ 0 then a else b⟩
  | .mad w => some ⟨2, w, 3, fun x a b => BitVec.ofNat 32 (x.toNat + a.toNat * b.toNat)⟩
  | .icmp w nat cond =>
    if cond.toNat < 6 then some ⟨2, w, 2, fun _ a b => flag (holds cond (value nat a) (value nat b))⟩ else none
  | .bfe w signed len pos =>
    if pos.toNat + len.toNat < 32 then
      some ⟨4, w, 1, fun _ _ a =>
        let v := a.toNat / 2 ^ pos.toNat % 2 ^ (len.toNat + 1)
        BitVec.ofInt 32 (if signed ∧ 2 ^ len.toNat ≤ v then (v : Int) - 2 ^ (len.toNat + 1) else v)⟩
    else none
  | .bfi w len pos =>
    if pos.toNat + len.toNat < 32 then
      some ⟨4, w, 2, fun _ a b =>
        BitVec.ofNat 32 (a.toNat - a.toNat / 2 ^ pos.toNat % 2 ^ (len.toNat + 1) * 2 ^ pos.toNat +
          b.toNat % 2 ^ (len.toNat + 1) * 2 ^ pos.toNat)⟩
    else none
  | _ => none

/-- An instruction on pairs: its stack picture, as the stack it leaves. -/
structure PairForm where
  w : Bool
  pops : Nat
  pushes : Nat
  f : List Cell → List Cell

/-- A 64-bit value pushed: its low half lies deeper (R48). -/
def pushPair (v : Dword) (st : List Cell) : List Cell := .full (v.extractLsb' 32 32) :: .full (v.extractLsb' 0 32) :: st

/-- A pair as n64, or as s64. -/
def value64 (nat : Bool) (a : Dword) : Int := if nat then (a.toNat : Int) else a.toInt

/-- R169, R170: the forms of the pair instructions. -/
def pairForm : Instr → Option PairForm
  | .add2 w => some ⟨w, 4, 2, fun st => pushPair (pair st 2 + pair st 0) (st.drop 4)⟩
  | .sub2 w => some ⟨w, 4, 2, fun st => pushPair (pair st 2 - pair st 0) (st.drop 4)⟩
  | .mulw w nat => some ⟨w, 2, 2, fun st =>
      pushPair (BitVec.ofInt 64 (value nat (cell st 1) * value nat (cell st 0))) (st.drop 2)⟩
  | .shl2 w => some ⟨w, 3, 2, fun st =>
      let b := (cell st 0).toNat
      pushPair (if b < 64 then BitVec.ofNat 64 ((pair st 1).toNat * 2 ^ b) else 0) (st.drop 3)⟩
  | .shr2 w arith => some ⟨w, 3, 2, fun st =>
      let b := (cell st 0).toNat
      let a := pair st 1
      pushPair
        (if b < 64 then BitVec.ofInt 64 (value64 (!arith) a / 2 ^ b)
         else if arith ∧ a.toInt < 0 then BitVec.ofInt 64 (-1) else 0)
        (st.drop 3)⟩
  | .icmp2 w nat cond =>
    if cond.toNat < 6 then
      some ⟨w, 4, 1, fun st =>
        .full (flag (holds cond (value64 nat (pair st 2)) (value64 nat (pair st 0)))) :: st.drop 4⟩
    else none
  | .lea w nat scale => some ⟨w, 3, 2, fun st =>
      pushPair (BitVec.ofInt 64 ((pair st 1).toInt + value nat (cell st 0) * 2 ^ scale.toNat)) (st.drop 3)⟩
  | _ => none

/-! ## Instructions that change their own warp and nothing else -/

/-- What an instruction needs to issue (R405), what its operands must be (R406), what it does to the warp besides
its threads, and what it does to each thread of the issuing split. -/
structure WarpForm where
  need : Need
  legal : Machine.State → Warp → Split → Bool := fun _ _ _ => true
  own : Machine.State → Warp → Split → Warp := fun _ w _ => w
  lane : Machine.State → Warp → Split → Thread → Thread

/-- The warp after it. -/
def WarpForm.warp (o : WarpForm) (s : Machine.State) (w : Warp) (sp : Split) : Warp :=
  (o.own s w sp).onLanes sp.mask (o.lane s w sp)

/-- The instruction completes wherever it may issue, and this is the state that it leaves: all that is not named
is as it was. -/
def WarpForm.completes (o : WarpForm) (i : Instr) : Prop :=
  ∀ (s : Machine.State) (id : Nat) (w : Warp) (sp : Split), Ready s id w sp o.need → o.legal s w sp = true →
    exec i s = .next (issued s id (o.warp s w sp) (after sp o.need.bytes o.need.pops o.need.pushes))

/-- An instruction that changes only the stacks of its split's threads. -/
def onStack (need : Need) (f : Machine.State → Warp → Split → Thread → List Cell) : WarpForm :=
  { need := need, lane := fun s w sp t => { t with stack := f s w sp t } }

/-- A need without operand cells that are read. -/
def blind (bytes pops pushes : Nat) : Need := { Need.of bytes false pops pushes with reads := [] }

/-- R146 to R151: the instructions that move cells, and the literals. -/
def cellForm : Instr → Option WarpForm
  | .nop _ => some (onStack (Need.of 2 false 0 0) fun _ _ _ t => t.stack)
  | .drop _ => some (onStack (blind 2 1 0) fun _ _ _ t => t.stack.drop 1)
  | .dup w n => some (onStack { Need.of 2 w (n.toNat + 1) (n.toNat + 2) with reads := [n.toNat] } fun _ _ _ t =>
      .full (cell t.stack n.toNat) :: t.stack)
  | .swap _ => some (onStack (blind 2 2 2) fun _ _ _ t => (t.stack.take 2).reverse ++ t.stack.drop 2)
  | .rot _ => some (onStack (blind 2 3 3) fun _ _ _ t =>
      (t.stack.drop 2).take 1 ++ t.stack.take 2 ++ t.stack.drop 3)
  | .nip _ => some (onStack (blind 2 2 1) fun _ _ _ t => t.stack.take 1 ++ t.stack.drop 2)
  | .depth _ => some (onStack (Need.of 2 false 0 1) fun _ _ _ t =>
      .full (BitVec.ofNat 32 t.stack.length) :: t.stack)
  | .litS _ v => some (onStack (Need.of 2 false 0 1) fun _ _ _ t => .full (BitVec.ofInt 32 v.toInt) :: t.stack)
  | .lit16 _ form imm =>
    if form = 3 then none
    else some (onStack (Need.of 4 false 0 1) fun _ _ _ t =>
      .full (if form = 0 then BitVec.ofInt 32 imm.toInt else if form = 1 then BitVec.ofNat 32 imm.toNat
        else BitVec.ofNat 32 (imm.toNat * 65536)) :: t.stack)
  | .lit32 imm => some (onStack (Need.of 8 false 0 1) fun _ _ _ t => .full imm :: t.stack)
  | _ => none

/-- R152, R407: every lane's slots from `n`, `k` of them, lie in its frame. -/
def inFrame (s : Machine.State) (w : Warp) (sp : Split) (n k : Nat) : Bool :=
  (w.threadsOf sp.mask).all fun t => decide (t.fp + n + k ≤ s.dev.frameSlots w)

/-- R152, R153: an `ldf` of `k` slots whose words have been read. -/
def frameLoad (bytes n k : Nat) : WarpForm where
  need := Need.of bytes false 0 k
  legal s w sp := inFrame s w sp n k && (sp.mask &&& w.fed == sp.mask)
  own _ w sp := { w with fed := w.fed &&& ~~~sp.mask }
  lane _ _ _ t :=
    { t with stack :=
        ((List.range k).map fun i => Cell.full (t.frameWord (t.fp + n + i))).reverse ++ t.stack }

/-- R152 to R154: `ldf`, and the moves of the frame pointer. -/
def frameForm : Instr → Option WarpForm
  | .ldf _ n => some (frameLoad 2 n.toNat 1)
  | .ldfL _ wide n =>
    if wide ∧ n = 255 then none else some (frameLoad 4 n.toNat (if wide then 2 else 1))
  | .frame _ n => some
      { need := Need.of 4 false 0 0
        legal := fun s w sp => inFrame s w sp n.toNat 0
        lane := fun _ _ _ t => { t with fp := t.fp + n.toNat } }
  | .leave _ n => some
      { need := Need.of 4 false 0 0
        legal := fun _ w sp => (w.threadsOf sp.mask).all fun t => decide (n.toNat ≤ t.fp)
        lane := fun _ _ _ t => { t with fp := t.fp - n.toNat } }
  | _ => none

/-- R156: a special register that the thread's team gives. -/
def teamValue (s : Machine.State) (w : Warp) (f : Team → Launch → Nat) : Word :=
  match s.dev.team? w.team, s.dev.launchOf w.team with
  | some t, some l => BitVec.ofNat 32 (f t l)
  | _, _ => 0

/-- R156, R157, R347: the view tag of group 0, the group in its high 16 bits and the generation in the rest. -/
def groupTag (s : Machine.State) (slot n : Nat) : Dword :=
  match Table.find? (s.dev.context slot).groups n with
  | none => 0
  | some g => BitVec.ofNat 64 (n % 2 ^ 16 * 2 ^ 48 + g.gen.toNat)

/-- R156: the special registers of a thread, in their order. -/
def specials (s : Machine.State) (w : Warp) (sp : Split) (t : Thread) : List Word :=
  let wide := fun (v : Nat) => [BitVec.ofNat 32 v, BitVec.ofNat 32 (v / 2 ^ 32)]
  [BitVec.ofNat 32 (32 * w.w + t.lane), 0, 0, BitVec.ofNat 32 t.lane, BitVec.ofNat 32 w.w,
    teamValue s w fun t _ => t.coords.1, teamValue s w fun t _ => t.coords.2.1, teamValue s w fun t _ => t.coords.2.2,
    teamValue s w fun _ l => l.record.grid.1, teamValue s w fun _ l => l.record.grid.2.1,
    teamValue s w fun _ l => l.record.grid.2.2, teamValue s w fun t _ => t.warps,
    BitVec.ofNat 32 w.core, BitVec.ofNat 32 (w.core / 144), BitVec.ofNat 32 s.host.module] ++
    wide (s.dev.cluster (clusterOf w.core)).clock ++ wide s.dev.gtime ++
    [sp.mask, teamValue s w fun t _ => t.stage.getD (2 ^ 32 - 1)] ++ wide (groupTag s (s.dev.slotOf w.team) 0).toNat

/-- R32, R159: a new value of L. -/
def newLfsr (v : Word) : BitVec 16 := if v.toNat % 65536 = 0 then 0xACE1 else BitVec.ofNat 16 v.toNat

/-- The word that the split's lowest lane holds on top of its stack. -/
def lowestTop (w : Warp) (sp : Split) : Word := ((w.thread? (lowest sp.mask)).map fun t => cell t.stack 0).getD 0

/-- R100, R156 to R160, R479: the special registers, and the flags; gtime is read once what the ordering points before it ask
has performed. -/
def registerForm : Instr → Option WarpForm
  | .rds _ n =>
    if 22 < n.toNat then none
    else some
      { onStack (Need.of 2 false 0 1) (fun s w sp t => .full ((specials s w sp t).getD n.toNat 0) :: t.stack) with
        legal := fun s w sp => (n != 17 && n != 18) || (s.dev.markDeps w.marks sp.mask).isEmpty }
  | .rdsD _ n =>
    if n = 15 ∨ n = 17 ∨ n = 21 then some
      { onStack (Need.of 2 false 0 2) (fun s w sp t =>
          .full ((specials s w sp t).getD (n.toNat + 1) 0) :: .full ((specials s w sp t).getD n.toNat 0) :: t.stack) with
        legal := fun s w sp => n != 17 || (s.dev.markDeps w.marks sp.mask).isEmpty }
    else none
  | .flags _ clear => some
      { need := Need.of 2 false 0 1
        own := fun _ w _ => if clear then { w with flags := 0 } else w
        lane := fun _ w _ t => { t with stack := .full (BitVec.ofNat 32 w.flags.toNat) :: t.stack } }
  | .wrsLfsr b => some
      { need := Need.of 4 b 1 0
        own := fun _ w sp => { w with lfsr := newLfsr (lowestTop w sp) }
        lane := fun _ _ _ t => { t with stack := t.stack.drop 1 } }
  | .wrsVigil b => some
      { need := Need.of 4 b 1 0
        own := fun _ w sp =>
          { w with
            vlimit := lowestTop w sp
            others := w.others.map fun s => { s with age := 0 }
            handler := w.handler.map fun hd => { hd with splits := hd.splits.map fun s => { s with age := 0 } } }
        lane := fun _ _ _ t => { t with stack := t.stack.drop 1 } }
  | _ => none

/-- R256: the lane whose value lane `l` asks for with a cell `v`, in each mode. -/
def wanted (mode : BitVec 2) (l : Nat) (v : Word) : Int :=
  if mode = 0 then v.toNat % 32 else if mode = 1 then l - v.toNat else if mode = 2 then l + v.toNat
  else ((l ^^^ (v.toNat % 32) : Nat) : Int)

/-- R256: what a lane receives: the value of the lane that it asks for, where that lane is in the split, and
else its own. -/
def received (mode : BitVec 2) (w : Warp) (sp : Split) (t : Thread) : Word :=
  let j := wanted mode t.lane (cell t.stack 0)
  if 0 ≤ j ∧ j < 32 ∧ sp.mask.getLsbD j.toNat then
    ((w.thread? j.toNat).map fun u => cell u.stack 1).getD (cell t.stack 1)
  else cell t.stack 1

/-- R254 to R256: the warp-wide instructions. -/
def wideForm : Instr → Option WarpForm
  | .lead _ => some (onStack (Need.of 2 false 0 1) fun _ _ sp t => .full (flag (t.lane == lowest sp.mask)) :: t.stack)
  | .vote b mode =>
    if mode = 3 then none
    else some (onStack (Need.of 2 b 1 1) fun _ w sp t =>
      let yes := fun (u : Thread) => cell u.stack 0 != 0
      .full (if mode = 0 then flag ((w.threadsOf sp.mask).any yes)
        else if mode = 1 then flag ((w.threadsOf sp.mask).all yes)
        else maskOf (((w.threadsOf sp.mask).filter yes).map Thread.lane)) :: t.stack.drop 1)
  | .shfl b mode => some (onStack (Need.of 2 b 2 1) fun _ w sp t => .full (received mode w sp t) :: t.stack.drop 2)
  | _ => none

/-! ## Floating-point and conversion instructions (R171 to R190) -/

/-- The operand value of so many cells at a place of a stack. -/
def operand (st : List Cell) (place cells : Nat) : Dword :=
  if cells = 0 then 0 else if cells = 1 then BitVec.setWidth 64 (cell st place) else pair st place

/-- A value of so many cells pushed. -/
def pushed (cells : Nat) (v : Dword) (st : List Cell) : List Cell :=
  if cells = 0 then st else if cells = 1 then .full (v.extractLsb' 0 32) :: st else pushPair v st

/-- An instruction that computes a value from the operand cells of each lane, with flags; `hold` is the number of
lane cycles for which its lane block issues nothing after it (R182). -/
structure NumberForm where
  bytes : Nat
  w : Bool
  hold : Nat
  op : LaneOp

/-- The operands' cells. -/
def NumberForm.pops (o : NumberForm) : Nat := o.op.x + o.op.a + o.op.b

/-- A lane's value and flags: b lies on top, a beneath it and x beneath both. -/
def NumberForm.value (o : NumberForm) (t : Thread) : Dword × Flags :=
  o.op.f (operand t.stack (o.op.b + o.op.a) o.op.x) (operand t.stack o.op.b o.op.a) (operand t.stack 0 o.op.b)

/-- R101: the flags of every lane of the split are ORed into the warp's. -/
def NumberForm.form (o : NumberForm) : WarpForm where
  need := Need.of o.bytes o.w o.pops o.op.r
  own _ w sp := { w with flags := (w.threadsOf sp.mask).foldl (fun fl t => fl ||| (o.value t).2) w.flags }
  lane _ _ _ t := { t with stack := pushed o.op.r (o.value t).1 (t.stack.drop o.pops) }

/-- R182: the warp's lane block held. -/
def held (s : Machine.State) (w : Warp) (cycles : Nat) : Machine.State :=
  if cycles = 0 then s else { s with dev := s.dev.onLb w.core w.lb fun b => { b with hold := cycles } }

/-- The instruction completes wherever it may issue, and this is the state that it leaves. -/
def NumberForm.completes (o : NumberForm) (i : Instr) : Prop :=
  ∀ (s : Machine.State) (id : Nat) (w : Warp) (sp : Split), Ready s id w sp o.form.need →
    exec i s = .next (held (issued s id (o.form.warp s w sp) (after sp o.bytes o.pops o.op.r)) w o.hold)

/-- R173 to R182: the floating-point instructions. -/
def floatForm : Instr → Option NumberForm
  | .fadd w rm => some ⟨2, w, 0, fpAdd rm⟩
  | .fsub w rm => some ⟨2, w, 0, fpSub rm⟩
  | .fmul w rm => some ⟨2, w, 0, fpMul rm⟩
  | .fdiv w rm => some ⟨2, w, 0, fpDiv rm⟩
  | .fma w rm => some ⟨2, w, 0, fpFma rm⟩
  | .fsqrt w rm => some ⟨2, w, 0, fpSqrt rm⟩
  | .frcp w rm => some ⟨2, w, 0, fpRcp rm⟩
  | .fmin w => some ⟨2, w, 0, fpMinMax false⟩
  | .fmax w => some ⟨2, w, 0, fpMinMax true⟩
  | .frsq w => some ⟨2, w, 0, fpRsq⟩
  | .fex2 w => some ⟨2, w, 0, fpEx2⟩
  | .flg2 w => some ⟨2, w, 0, fpLg2⟩
  | .fsin w => some ⟨2, w, 0, fpSin⟩
  | .fcos w => some ⟨2, w, 0, fpCos⟩
  | .fcmp w cond => some ⟨2, w, 0, fpCmp cond⟩
  | .fclass w => some ⟨2, w, 0, fpClass⟩
  | .frnd w inexact rm => some ⟨2, w, 0, fpRnd inexact rm⟩
  | .hadd2 w bf sub rm => some ⟨4, w, 0, packedAdd bf sub rm⟩
  | .hmul2 w bf rm => some ⟨4, w, 0, packedMul bf rm⟩
  | .hfma2 w bf rm => some ⟨4, w, 0, packedFma bf rm⟩
  | .hmnx2 w max bf => some ⟨4, w, 0, packedMinMax max bf⟩
  | .dadd w rm => some ⟨4, w, 3, dblAdd rm⟩
  | .dmul w rm => some ⟨4, w, 3, dblMul rm⟩
  | .dfma w rm => some ⟨4, w, 3, dblFma rm⟩
  | .ddiv w rm => some ⟨4, w, 15, dblDiv rm⟩
  | .dsqrt w rm => some ⟨4, w, 15, dblSqrt rm⟩
  | .cvt w sat rm dst src =>
    if src = 15 ∨ dst = 15 ∨ (sat = true ∧ laneFloat dst.toNat = none) then none
    else some ⟨4, w, 0, convertOp src.toNat dst.toNat rm.toNat sat false⟩
  | _ => none

/-- R174: the instructions on the sign of an FP32 cell. -/
def signForm : Instr → Option WarpForm
  | .fneg w => some (onStack (Need.of 2 w 1 1) fun _ _ _ t =>
      .full (BitVec.ofNat 32 ((cell t.stack 0).toNat + 2 ^ 31)) :: t.stack.drop 1)
  | .fabs w => some (onStack (Need.of 2 w 1 1) fun _ _ _ t =>
      .full (BitVec.ofNat 32 ((cell t.stack 0).toNat % 2 ^ 31)) :: t.stack.drop 1)
  | _ => none

/-- R97: a format slot of the warp's launch. -/
def formatSlot (s : Machine.State) (w : Warp) (n : Nat) : FormatSlot :=
  ((s.dev.launchOf w.team).map fun l => l.record.slot n).getD ⟨0, false, false, false, 0, 0, 0⟩

/-- R188: `bpack` through a slot of a block format with `m` magnitude bits. -/
def packForm (wbit : Bool) (slot : BitVec 3) (m : Nat) : WarpForm where
  need := Need.of 4 wbit 1 1
  legal s w _ := denseSlot (formatSlot s w slot.toNat) == some m
  own s w sp :=
    let b := blockEncode (formatSlot s w slot.toNat) m ((laneWords w sp).map fun v => (v.map fp32).getD FpNum.zero)
    { w with flags := (lanesOf sp.mask).foldl (fun fl l => fl ||| b.flags.getD l 0) w.flags }
  lane s w sp t :=
    let b := blockEncode (formatSlot s w slot.toNat) m ((laneWords w sp).map fun v => (v.map fp32).getD FpNum.zero)
    { t with stack := .full (blockCell m b t.lane) :: t.stack.drop 1 }

/-- R189: `bunpack` through such a slot. -/
def unpackForm (wbit : Bool) (slot : BitVec 3) (m : Nat) : WarpForm where
  need := Need.of 4 wbit 1 1
  legal s w _ := denseSlot (formatSlot s w slot.toNat) == some m
  lane _ w sp t :=
    { t with stack := .full (unpackCell m ((laneWords w sp).map fun v => v.getD 0) t.lane) :: t.stack.drop 1 }

/-! ## Uniform instructions (R59 to R63, R209 to R215) -/

/-- A uniform instruction of a warp or of a front-end context: its length, the registers that it names, and its
effect on a file of registers and predicates. -/
structure UniformForm where
  bytes : Nat
  regs : List Nat
  f : Uniform → Uniform

/-- It completes in a warp and in a front-end context, each on its own file. -/
def UniformForm.completes (o : UniformForm) (i : Instr) : Prop :=
  (∀ (s : Machine.State) (id : Nat) (w : Warp) (sp : Split),
    Ready s id w sp { blind o.bytes 0 0 with regs := o.regs } →
    exec i s = .next (issued s id { w with k := (o.f ⟨w.k, w.kp⟩).k, kp := (o.f ⟨w.k, w.kp⟩).kp } (after sp o.bytes 0 0))) ∧
  ∀ (s : Machine.State) (id : Nat) (f : Fet), IssuesFet s id f o.regs →
    exec i s = .next (issuedFet s id { f with k := (o.f ⟨f.k, f.kp⟩).k, kp := (o.f ⟨f.k, f.kp⟩).kp } o.bytes)

/-- R209: an arithmetic form: K[kd] := f (K[ka], B), with B the register kb or the number kb. -/
def arithmetic (kd ka kb : BitVec 6) (imm : Bool) (f : Word → Word → Word) : UniformForm where
  bytes := 4
  regs := if imm then [ka.toNat, kd.toNat] else [ka.toNat, kb.toNat, kd.toNat]
  f u :=
    { u with k := kSet u.k kd.toNat (f (kGet u.k ka.toNat) (if imm then BitVec.ofNat 32 kb.toNat else kGet u.k kb.toNat)) }

/-- R209 to R211, R214: what each uniform instruction does. -/
def uniformForm : Instr → Option UniformForm
  | .kmov kd ka => some ⟨4, [ka.toNat, kd.toNat], fun u => { u with k := kSet u.k kd.toNat (kGet u.k ka.toNat) }⟩
  | .kadd kd ka kb imm => some (arithmetic kd ka kb imm fun a b => BitVec.ofNat 32 (a.toNat + b.toNat))
  | .ksub kd ka kb imm => some (arithmetic kd ka kb imm fun a b => BitVec.ofInt 32 ((a.toNat : Int) - b.toNat))
  | .kmul kd ka kb imm => some (arithmetic kd ka kb imm fun a b => BitVec.ofNat 32 (a.toNat * b.toNat))
  | .kand kd ka kb imm => some (arithmetic kd ka kb imm fun a b => a &&& b)
  | .kor kd ka kb imm => some (arithmetic kd ka kb imm fun a b => a ||| b)
  | .kxor kd ka kb imm => some (arithmetic kd ka kb imm fun a b => a ^^^ b)
  | .kshl kd ka kb imm => some (arithmetic kd ka kb imm fun a b =>
      if b.toNat < 32 then BitVec.ofNat 32 (a.toNat * 2 ^ b.toNat) else 0)
  | .kshr kd ka kb imm arith => some (arithmetic kd ka kb imm fun a b =>
      if b.toNat < 32 then BitVec.ofInt 32 (value (!arith) a / 2 ^ b.toNat)
      else if arith ∧ a.toInt < 0 then BitVec.ofInt 32 (-1) else 0)
  | .kmin kd ka kb imm nat => some (arithmetic kd ka kb imm fun a b => if value nat a ≤ value nat b then a else b)
  | .kmax kd ka kb imm nat => some (arithmetic kd ka kb imm fun a b => if value nat b ≤ value nat a then a else b)
  | .kcmp kp ka kb nat cond =>
    if cond.toNat < 6 then
      some ⟨4, [ka.toNat, kb.toNat], fun u =>
        let c := holds cond (value nat (kGet u.k ka.toNat)) (value nat (kGet u.k kb.toNat))
        { u with kp := u.kp &&& ~~~(1#8 <<< kp.toNat) ||| (if c then 1#8 <<< kp.toNat else 0) }⟩
    else none
  | .kpsel kd ka kb inv kp => some ⟨4, [ka.toNat, kb.toNat, kd.toNat], fun u =>
      { u with
        k := kSet u.k kd.toNat (kGet u.k (if u.kp.getLsbD kp.toNat = inv then kb.toNat else ka.toNat)) }⟩
  | .kadd2 kd ka kb imm => some
      ⟨4, [ka.toNat, ka.toNat + 1] ++ (if imm then [] else [kb.toNat, kb.toNat + 1]) ++ [kd.toNat, kd.toNat + 1],
        fun u =>
          let b := if imm then kb.toNat else (kGet64 u.k kb.toNat).toNat
          { u with k := kSet64 u.k kd.toNat (BitVec.ofNat 64 ((kGet64 u.k ka.toNat).toNat + b)) }⟩
  | .klea kd ka kb nat scale => some
      ⟨4, [ka.toNat, ka.toNat + 1, kb.toNat, kd.toNat, kd.toNat + 1], fun u =>
        let v := (kGet64 u.k ka.toNat).toInt + value nat (kGet u.k kb.toNat) * 2 ^ scale.toNat
        { u with k := kSet64 u.k kd.toNat (BitVec.ofInt 64 v) }⟩
  | .kli kd imm => some ⟨8, [kd.toNat], fun u => { u with k := kSet u.k kd.toNat imm }⟩
  | _ => none

/-- R60 to R62: between the stack and the uniform file. -/
def exchangeForm : Instr → Option WarpForm
  | .kpush ka => some
      { need := { Need.of 4 false 0 1 with regs := [ka.toNat] }
        lane := fun _ w _ t => { t with stack := .full (kGet w.k ka.toNat) :: t.stack } }
  | .kpop kd cv => some
      { need := { Need.of 4 false 1 0 with regs := [kd.toNat] }
        legal := fun _ w sp => !cv || sp.mask == w.live
        own := fun _ w sp =>
          { w with k := kSet w.k kd.toNat (((w.threadsOf sp.mask).head?.map fun t => cell t.stack 0).getD 0) }
        lane := fun _ _ _ t => { t with stack := t.stack.drop 1 } }
  | .kred kd op =>
    if 12 ≤ op.toNat then none
    else some
      { need := { Need.of 4 false 1 0 with regs := [kd.toNat] }
        own := fun _ w sp =>
          let r := reduceWords op ((w.threadsOf sp.mask).map fun t => cell t.stack 0)
          { w with k := kSet w.k kd.toNat r.1, flags := w.flags ||| r.2 }
        lane := fun _ _ _ t => { t with stack := t.stack.drop 1 } }
  | _ => none

/-! ## Handler mode (R394) -/

/-- R394: a field of a replay entry, as a lane sees it. -/
def replayField (e : ReplayEntry) (f lane : Nat) : Word :=
  let ea := (e.ea.getD lane 0).toNat
  [if e.discard then 1 else 0, BitVec.ofNat 32 (instrDword e.instr).toNat, BitVec.ofNat 32 ((instrDword e.instr).toNat / 2 ^ 32),
    e.mask, BitVec.ofNat 32 (e.ddepth.getD 0xFFFF), BitVec.ofNat 32 e.cause.toNat,
    BitVec.ofNat 32 ea, BitVec.ofNat 32 (ea / 2 ^ 32)].getD f ((e.cells.getD lane []).getD (f - 8) 0)

/-- R394: `rplq`, and `wplq` of the fields of the whole entry. -/
def replayForm : Instr → Option WarpForm
  | .rplq _ entry field => some
      { need := Need.of 4 false 0 1
        legal := fun _ w _ => w.handler.isSome && decide (entry.toNat < w.replay.length) && decide (field.toNat < 11)
        lane := fun _ w _ t =>
          { t with stack := .full (((w.replay[entry.toNat]?).map fun e => replayField e field.toNat t.lane).getD 0) :: t.stack } }
  | .wplq b entry field => some
      { need := Need.of 4 b 1 0
        legal := fun _ w sp => w.handler.isSome && decide (entry.toNat < w.replay.length) &&
          [0, 3, 6, 7, 8, 9, 10].contains field.toNat && (field != 0 || decide ((lowestTop w sp).toNat ≤ 1))
        own := fun _ w sp =>
          { w with replay := changeAt w.replay entry.toNat fun e =>
              e.write field.toNat ((w.threadsOf sp.mask).map fun t => (t.lane, cell t.stack 0)) }
        lane := fun _ _ _ t => { t with stack := t.stack.drop 1 } }
  | _ => none

/-! ## Control flow (R120, R191 to R204) -/

/-- The state with another device. -/
def withDev (s : Machine.State) (d : Dev) : Machine.State := { s with dev := d }

/-- R120: the first byte of the block that lies `off` blocks from the one that holds an address. -/
def blockAt (pc : Va) (off : Int) : Va := BitVec.ofInt 57 (((pc.toNat / 64 : Nat) : Int) * 64 + off * 64)

/-- A branch of a warp's split: what it needs, when it may be taken, what it does to the warp, and the parts that its
split goes on as (R192). -/
structure BranchForm where
  need : Need
  legal : Machine.State → Warp → Split → Bool := fun _ _ _ => true
  own : Machine.State → Warp → Split → Warp := fun _ w _ => w
  parts : Machine.State → Warp → Split → List Split

/-- It completes wherever it may issue: the split goes on as its parts. -/
def BranchForm.completes (o : BranchForm) (i : Instr) : Prop :=
  ∀ (s : Machine.State) (id : Nat) (w : Warp) (sp : Split), Ready s id w sp o.need → o.legal s w sp = true →
    exec i s = .next (withDev s (s.dev.goTo id (o.own s w sp) (o.parts s w sp)))

/-- The whole split goes to one address. -/
def whole (need : Need) (sp : Split) (pc : Va) : List Split := [{ after sp need.bytes need.pops need.pushes with pc := pc }]

/-- R193: an unconditional branch. -/
def jumpForm (bytes : Nat) (off : Int) : BranchForm where
  need := Need.of bytes false 0 0
  parts _ _ sp := whole (Need.of bytes false 0 0) sp (blockAt sp.pc off)

/-- R192: the lanes of a split whose top cell is zero, or with `nz` is not. -/
def takers (nz : Bool) (w : Warp) (sp : Split) : Mask :=
  maskOf (((w.threadsOf sp.mask).filter fun t => if nz then cell t.stack 0 != 0 else cell t.stack 0 == 0).map Thread.lane)

/-- R192, R194: a conditional branch; with `push` it pushes the split's mask on the join stack. -/
def conditionalForm (bytes : Nat) (wbit nz push : Bool) (off : Int) : BranchForm where
  need := Need.of bytes wbit 1 0
  legal _ w _ := !push || decide (w.join.length < 16)
  own _ w sp :=
    let w := w.onLanes sp.mask fun t => { t with stack := t.stack.drop 1 }
    if push then { w with join := sp.mask :: w.join } else w
  parts _ w sp :=
    [{ after sp bytes 1 0 with mask := sp.mask &&& takers nz w sp, pc := blockAt sp.pc off },
      { after sp bytes 1 0 with mask := sp.mask &&& ~~~takers nz w sp }].filter fun p => p.mask != 0

/-- R193, R198: a branch that one predicate of the warp decides for the split. -/
def predicateForm (bytes : Nat) (taken : BitVec 8 → Bool) (off : Int) : BranchForm where
  need := Need.of bytes false 0 0
  parts _ w sp :=
    whole (Need.of bytes false 0 0) sp (if taken w.kp then blockAt sp.pc off else sp.pc + BitVec.ofNat 57 bytes)

/-- R192, R193, R198 to R200, R204: the branches, calls and returns. -/
def branchForm : Instr → Option BranchForm
  | .br _ off => some (jumpForm 2 off.toInt)
  | .bz b off => some (conditionalForm 2 b false false off.toInt)
  | .bnz b off => some (conditionalForm 2 b true false off.toInt)
  | .bzj b off => some (conditionalForm 2 b false true off.toInt)
  | .bnzj b off => some (conditionalForm 2 b true true off.toInt)
  | .brL _ off => some (jumpForm 4 off.toInt)
  | .bzL b off => some (conditionalForm 4 b false false off.toInt)
  | .bnzL b off => some (conditionalForm 4 b true false off.toInt)
  | .bzjL b off => some (conditionalForm 4 b false true off.toInt)
  | .bnzjL b off => some (conditionalForm 4 b true true off.toInt)
  | .kbz _ kp off => some (predicateForm 4 (fun p => !p.getLsbD kp.toNat) off.toInt)
  | .kbnz _ kp off => some (predicateForm 4 (fun p => p.getLsbD kp.toNat) off.toInt)
  | .jmpX off => some (jumpForm 8 off.toInt)
  | .jmpF _ off => some
      { jumpForm 4 off.toInt with
        legal := fun s w sp =>
          ((s.dev.core w.core).pageSegment (s.dev.slotOf w.team) ((blockAt sp.pc off.toInt).toNat / 4096) .valid).isSome }
  | .call _ off => some
      { jumpForm 4 off.toInt with
        legal := fun _ w sp => (w.threadsOf sp.mask).all fun t => decide (t.ret.length < 32)
        own := fun _ w sp => w.onLanes sp.mask fun t =>
          { t with ret := BitVec.ofNat 51 ((blockAt sp.pc 1).toNat / 64) :: t.ret } }
  | .ret _ => some
      { need := Need.of 2 false 0 0
        legal := fun _ w sp => (w.threadsOf sp.mask).all fun t => !t.ret.isEmpty
        own := fun _ w sp => w.onLanes sp.mask fun t => { t with ret := t.ret.drop 1 }
        parts := fun _ w sp => targetParts (after sp 2 0 0)
          ((w.threadsOf sp.mask).map fun t => (t.lane, BitVec.ofNat 57 ((t.ret.headD 0).toNat * 64))) }
  | _ => none

/-- R193, R198: the same branches of a front-end context: whether it is taken, and the offset. -/
def contextBranch : Instr → Option (Nat × (BitVec 8 → Bool) × Int)
  | .kbz _ kp off => some (4, fun p => !p.getLsbD kp.toNat, off.toInt)
  | .kbnz _ kp off => some (4, fun p => p.getLsbD kp.toNat, off.toInt)
  | .jmpX off => some (8, fun _ => true, off.toInt)
  | _ => none

/-- A lane's word on top of its stack, 0 for a lane without a thread. -/
def topOf (w : Warp) (l : Nat) : Word := ((w.thread? l).map fun t => cell t.stack 0).getD 0

/-- The warp's current split gone, with the splits that take its place; the selection is due. -/
def leaving (s : Machine.State) (id : Nat) (w : Warp) (parts : List Split) : Dev :=
  { s.dev.setWarp id
      { w with cur := none, others := w.others ++ parts, last := (w.cur.map Split.mask).getD w.last } with issued := true }

/-- A split that waits, before its instruction (R30, R389). -/
def waiting (sp : Split) (st : SplitState) : Split := { sp with state := st, age := 0 }

/-! ## Memory instructions as they issue (R235 to R249) -/

/-- R237: the effective address of a lane; a lane without a thread has none, and counts as 0. -/
def address (w : Warp) (off : BitVec 16) (l : Nat) : Dword :=
  ((w.thread? l).map fun t => pair t.stack 0 + BitVec.ofInt 64 off.toInt).getD 0

/-- R237, R249, R406: every lane's address lies in the address space and is a multiple of the size, and a location
that is written is not sealed. -/
def accessible (s : Machine.State) (w : Warp) (sp : Split) (off : BitVec 16) (bytes : Nat) (writes : Bool) : Prop :=
  ∀ l ∈ lanesOf sp.mask,
    (address w off l).toNat < 2 ^ 57 ∧ (address w off l).toNat % bytes = 0 ∧
      (writes = true → (s.dev.context (s.dev.slotOf w.team)).sealedRange (address w off l).toNat bytes = false)

/-- What a memory instruction needs, with its offset. -/
def memoryForm : Instr → Option (Bool × BitVec 16 × MemForm)
  | .ld w size off => (memForm (.ld w size off)).map fun f => (w, off, f)
  | .st w size off => (memForm (.st w size off)).map fun f => (w, off, f)
  | .ldo w rmt order scope size => (memForm (.ldo w rmt order scope size)).map fun f => (w, 0, f)
  | .sto w rmt order scope size => (memForm (.sto w rmt order scope size)).map fun f => (w, 0, f)
  | .atom w op rmt order scope size => (memForm (.atom w op rmt order scope size)).map fun f => (w, 0, f)
  | .red w op rmt order scope size => (memForm (.red w op rmt order scope size)).map fun f => (w, 0, f)
  | .cas w forder rmt order scope size => (memForm (.cas w forder rmt order scope size)).map fun f => (w, 0, f)
  | _ => none

/-- R235, R390, R391, R418: its need; the address cells of a store are judged before its value cells. -/
def memoryNeed (i : Instr) (w : Bool) (f : MemForm) : Need :=
  { Need.of 4 w (2 + f.takes) f.gives with replay := replayCost i, early := if f.kind == .store then [0, 1] else [] }

/-- The words that a lane's cells give to an access, from `place` cells down, deepest first. -/
def words (st : List Cell) (place n : Nat) : List Word := (((st.drop place).take n).map Cell.word).reverse

/-- R238 to R246: one word's access of a lane as it issues, among the accesses of a device. -/
def issuedAccess (d : Dev) (id : Nat) (f : MemForm) (i : Instr) (pc : Va) (t : Thread) (off : BitVec 16) (part : Nat) : Prop :=
  ∃ e ∈ d.accesses, e.2.party = .warp id ∧ e.2.lane = t.lane ∧ e.2.part = part ∧ e.2.instr = i ∧ e.2.pc = pc ∧
    e.2.kind = f.kind ∧ e.2.bytes = (if f.parts = 1 then f.bytes else 4) ∧
    e.2.va = pair t.stack 0 + BitVec.ofInt 64 off.toInt + BitVec.ofNat 64 (4 * part) ∧
    e.2.data = (if f.kind = .swapIf then words t.stack 2 (f.takes / 2) else words t.stack 2 f.takes) ∧
    e.2.expect = (if f.kind = .swapIf then words t.stack (2 + f.takes / 2) (f.takes / 2) else []) ∧
    e.2.result = none ∧ e.2.cause = 0

/-- R55, R238: what a memory instruction leaves of a lane: its cells popped, and empty cells for what it loads. -/
def loading (w w' : Warp) (sp : Split) (f : MemForm) : Prop :=
  ∀ l ∈ lanesOf sp.mask, ∀ t, w.thread? l = some t →
    ∃ t', w'.thread? l = some t' ∧ t'.stack.drop f.gives = t.stack.drop (2 + f.takes) ∧
      (∀ c ∈ t'.stack.take f.gives, c.ticket?.isSome = true) ∧ t' = { t with stack := t'.stack }

/-- R253, R457: the state as an arrival of a `bar.arrive` or a `bar.sync` sets out for its team's barrier unit; it comes after
what its lanes have asked of memory. -/
def arriving (d : Dev) (id : Nat) (w : Warp) (lanes : Mask) (bar count : Nat) (sync : Bool) : Dev :=
  { d with
    nextId := d.nextId + 1
    arrivals := Table.set d.arrivals d.nextId
      ⟨w.team, bar, sync, id, w.w, lanes, count,
        (d.earlier (.warp id) lanes ++ w.marks.flatMap fun m => if m.lanes &&& lanes != 0 then m.all else []).filter
          fun i => !d.performed i⟩ }

/-- R253: the team's barrier after an arrival of so many threads of warp `w` that expects `count` threads: the first arrival of
a phase sets how many are expected, every one adds its threads, and the one that makes up the number ends the phase. -/
def countedAt (b : Barrier) (count threads w now : Nat) (deps : List Nat) : Barrier :=
  let opens := b.arrived = 0
  let expected := if opens then count else b.expected
  let ends := expected ≤ b.arrived + threads
  { expected := expected
    arrived := if ends then 0 else b.arrived + threads
    phase := if ends then !b.phase else b.phase
    age := if opens ∨ ends then 0 else b.age
    first := if opens then now else b.first
    warps := (if opens then 0 else b.warps) ||| laneBit w
    deps := (if opens then [] else b.deps) ++ deps }

/-- The name is that of no effect of another kind than an arrival, an entry or a `qtry` (R457). -/
structure OwnName (d : Dev) (n : Nat) : Prop where
  access : Table.find? d.accesses n = none
  engine : ∀ c ∈ d.cores, ∀ o ∈ c.2.engine, o.op ≠ n
  copy : Table.find? d.copies n = none
  coll : Table.find? d.colls n = none

/-- No queue request has the name. -/
def noRequest (d : Dev) (n : Nat) : Prop :=
  ∀ l ∈ d.launches, ∀ ss, l.2.stages = some ss → ∀ q ∈ ss.queues, ∀ r ∈ q.requests, r.id ≠ n

/-- The issue of a memory instruction changes its warp, the accesses in flight and the names in use, and nothing
else: no byte of memory among them. -/
def onlyAccesses (s t : Machine.State) : Prop :=
  t = { s with dev := { s.dev with
    warps := t.dev.warps, accesses := t.dev.accesses, nextId := t.dev.nextId, issued := true } }

/-! ## Engine operations as they issue (R250, R283, R311, R353) -/

/-- A new operation that its issuer's counter counts. -/
def withOp (s : Machine.State) (o : EngineOp) : Machine.State :=
  { s with dev := { s.dev with ops := Table.set s.dev.ops s.dev.nextId o, nextId := s.dev.nextId + 1 } }

/-- R250: an operation as it is issued, at its place in the issuer's order. -/
def newOp (s : Machine.State) (p : Party) (team cls : Nat) (pc : Va) (lanes : Mask) (deps : List Nat) : EngineOp :=
  ⟨p, team, cls, s.dev.nextId, pc, lanes, deps, false, 0, []⟩

/-- A matrix instruction: the registers that it reads, whether it is a pair operation, what its slots and its
operands must be, and the work that the engine gets. -/
structure EngineForm where
  regs : List Nat
  pair : Bool
  slots : LaunchRecord → Bool
  good : Machine.State → LaunchRecord → Nat → List Word → Bool
  work : List Word → MatrixWork

/-- R281, R283, R457: a matrix operation joins the queue of the engine, which is the leader's for a pair operation, in its hold
window. -/
def enqueued (s : Machine.State) (p : Party) (team core : Nat) (pc : Va) (lanes : Mask) (deps : List Nat)
    (work : MatrixWork) : Machine.State :=
  let t := withOp s (newOp s p team 2 pc lanes deps)
  withDev t (t.dev.onCore core fun c =>
    { c with engine := c.engine ++
        [⟨s.dev.nextId, ((s.dev.team? team).map Team.launch).getD 0, s.dev.slotOf team, work, .queued, [], true⟩] })

/-- R281: the engine that takes it. -/
def engineCore (s : Machine.State) (pair : Bool) (team core : Nat) : Nat :=
  if pair then ((s.dev.team? team).map Team.core).getD core else core

/-- R250: the counter one higher. -/
def counted (cnt : List Nat) (cls : Nat) : List Nat := putAt 0 cnt cls (cntGet cnt cls + 1)

/-- R250, R266, R281, R283: it completes in a warp and in a front-end context of a launch whose slots allow it, where its
counter has room, the engine is its context's and no pair operation holds it, and its operands are good. -/
def EngineForm.completes (o : EngineForm) (i : Instr) : Prop :=
  (∀ (s : Machine.State) (id : Nat) (w : Warp) (sp : Split) (l : Launch),
    Ready s id w sp { blind 8 0 0 with regs := o.regs } → s.dev.launchOf w.team = some l →
    o.slots l.record = true → (o.pair = true → l.record.pair = true) → cntGet w.cnt 2 < 255 →
    s.dev.matrixAway l.slot (engineCore s o.pair w.team w.core) o.pair = false →
    (o.pair = false → s.dev.pairHeld w.core = false) → o.good s l.record (engineCore s o.pair w.team w.core) w.k = true →
      exec i s = .next (issued
        (enqueued s (.warp id) w.team (engineCore s o.pair w.team w.core) sp.pc sp.mask (s.dev.warpEarlier id w) (o.work w.k))
        id { w with cnt := counted w.cnt 2 } (after sp 8 0 0))) ∧
  ∀ (s : Machine.State) (id : Nat) (f : Fet) (l : Launch),
    IssuesFet s id f o.regs → s.dev.launchOf f.team = some l →
    o.slots l.record = true → (o.pair = true → l.record.pair = true) → cntGet f.cnt 2 < 255 →
    s.dev.matrixAway l.slot (engineCore s o.pair f.team f.core) o.pair = false →
    (o.pair = false → s.dev.pairHeld f.core = false) → o.good s l.record (engineCore s o.pair f.team f.core) f.k = true →
      exec i s = .next (issuedFet
        (enqueued s (.fet id) f.team (engineCore s o.pair f.team f.core) f.pc 0 (s.dev.earlier (.fet id) 0) (o.work f.k))
        id { f with cnt := counted f.cnt 2 } 8)

/-- R73, R80, R242: what a prefetch of an address does to the device: nothing outside the address space; the A bit of the leaf
that its walk finds; and a copy of a line of sealed data in the core's replicas. -/
def prefetched (core slot : Nat) (d : Dev) (va : Dword) : Dev :=
  if 2 ^ 57 ≤ va.toNat then d
  else
    match d.translate slot core va.toNat .read with
    | .error _ => d.walked slot core va.toNat .read
    | .ok (_, e) => if (e.context slot).sealedAt va.toNat then e.noteReplica core slot va.toNat else e

/-- R285: a range of bytes lies in a core's slice. -/
def inOwnSlice (core : Nat) (va : Dword) (n : Nat) : Bool :=
  n == 0 || (decide (sliceVa core ≤ va.toNat) && decide (va.toNat + n ≤ sliceVa core + 2 ^ 22))

/-- R286 to R293: the matrix instructions. -/
def engineForm : Instr → Option EngineForm
  | .mma ka tile prog aslot bslot oslot back pair acc cplx naz dc kt ks rows => some
      { regs := [ka.toNat, ka.toNat + 1] ++ if dc then [kt.toNat, kt.toNat + 1, ks.toNat, ks.toNat + 1] else []
        pair := pair
        slots := fun r =>
          let b := (r.slot bslot.toNat).format.toNat
          matrixPair (r.slot aslot.toNat).format.toNat b && (tilesOf b == 1 || decide (tile.toNat % 2 = 0)) &&
            (!dc || drainOutput r oslot)
        good := fun _ r core k =>
          let a := r.slot aslot.toNat
          let b := (r.slot bslot.toNat).format.toNat
          let base := kGet64 k ka.toNat
          decide (base.toNat % 128 = 0) && inOwnSlice core base (payloadSize a.format.toNat b (rows.toNat + 1)) &&
            inOwnSlice core (base + a.expStride) (exponentSize a.format.toNat b (rows.toNat + 1))
        work := fun k => .mma (kGet64 k ka.toNat) tile.toNat prog.toNat aslot.toNat bslot.toNat oslot.toNat back pair acc cplx
          naz dc (kGet64 k kt.toNat) (kGet k ks.toNat) (kGet k (ks.toNat + 1)) (rows.toNat + 1) }
  | .mclr tile pair => some ⟨[], pair, fun _ => true, fun _ _ _ _ => true, fun _ => .mclr tile.toNat pair⟩
  | .mdrain tile prog aslot bslot oslot pair kt ks rows => some
      { regs := [kt.toNat, kt.toNat + 1, ks.toNat, ks.toNat + 1]
        pair := pair
        slots := fun r => drainOutput r oslot
        good := fun _ _ _ _ => true
        work := fun k => .mdrain tile.toNat prog.toNat aslot.toNat bslot.toNat oslot.toNat pair (kGet64 k kt.toNat)
          (kGet k ks.toNat) (kGet k (ks.toNat + 1)) (rows.toNat + 1) }
  | .bload kb macros bslot back pair kstr rows => some
      { regs := [kb.toNat, kb.toNat + 1, kstr.toNat]
        pair := pair
        slots := fun r =>
          let c := (r.slot bslot.toNat).format.toNat
          matrixB c && decide ((rows.toNat + 1) % (if sparseCode c then 16 else 32) = 0)
        good := fun s _ core k =>
          decide ((kGet64 k kb.toNat).toNat % 128 = 0) && decide ((kGet k kstr.toNat).toNat % 128 = 0) &&
            !s.dev.bankBusy core macros back && !(pair && s.dev.bankBusy (core + 1) macros back)
        work := fun k =>
          .bload (kGet64 k kb.toNat) (kGet k kstr.toNat) macros bslot.toNat back pair (rows.toNat + 1) }
  | .bswap macros pair => some ⟨[], pair, fun _ => true, fun _ _ _ _ => true, fun _ => .bswap macros pair⟩
  | .dload kr kind first last => some
      { regs := [kr.toNat, kr.toNat + 1]
        pair := false
        slots := fun _ => true
        good := fun _ _ _ k => decide ((kGet64 k kr.toNat).toNat % 4 = 0)
        work := fun k => .dload (kGet64 k kr.toNat) kind.toNat first.toNat (last.toNat + 1) }
  | _ => none

/-- R311, R312, R457: the state with a copy command queued at an engine, in its hold window. -/
def copyQueued (i : Instr) (f : CopyFields) (p : Party) (team core : Nat) (pc : Va) (deps : List Nat) (tlr slice : Dword)
    (s : Machine.State) (lead : Mask × List Word) : Machine.State :=
  let t := withOp s (newOp s p team f.cls pc lead.1 deps)
  withDev t (t.dev.setCopy s.dev.nextId
    ⟨s.dev.nextId, core, s.dev.slotOf team, ((s.dev.team? team).map Team.launch).getD 0, 0, 0,
      .tile i lead.2 tlr slice, f.ring, f.tag, false, none, true⟩)

/-- R311: the lanes of a split that lead, each with its coordinates, dimension 0 deepest. -/
def leads (f : CopyFields) (w : Warp) (sp : Split) : List (Mask × List Word) :=
  ((w.threadsOf sp.mask).filter fun t => cell t.stack 0 != 0).map fun t =>
    (laneBit t.lane, (((t.stack.drop 1).take f.ncoord).map Cell.word).reverse)

/-- R313: the two addresses of a copy command pass their checks. -/
def copyGood (tlr slice : Dword) : Prop :=
  tlr.toNat < 2 ^ 57 ∧ slice.toNat < 2 ^ 57 ∧ inWindow slice.toNat = true ∧ tlr.toNat % 128 = 0 ∧ slice.toNat % 128 = 0

/-! ## Routes (R126 to R128, R412) -/

/-- A two-operand word operation through a route, in a lane that sees `ch15` of its warp. Codes 0 and 1 of ra and rb
pop and peek the stack, 2 and 3 a channel; A is read before B, and B lies above A. -/
def routedWord (f : Word → Word → Word) (ra rb : BitVec 2) (rd : Bool) (cha chb chd : Nat) (ch15 : List Word) (t : Thread) :
    Thread :=
  let chan := fun (c : Nat) => if c = 15 then ch15 else t.ch.getD c []
  let nb := if rb.toNat < 2 then 1 else 0
  let na := if ra.toNat < 2 then 1 else 0
  let a := if ra.toNat < 2 then cell t.stack nb else (chan cha).getD 0 0
  let b := if rb.toNat < 2 then cell t.stack 0 else (chan chb).getD (if ra = 2 ∧ cha = chb then 1 else 0) 0
  let kept := (if rb = 1 then t.stack.take 1 else []) ++ (if ra = 1 then (t.stack.drop nb).take 1 else []) ++
    t.stack.drop (nb + na)
  let pop := fun (on : Bool) (c : Nat) (chs : List (List Word)) =>
    if on ∧ c ≠ 15 then putAt [] chs c ((chs.getD c []).drop 1) else chs
  let chs := pop (rb == 2) chb (pop (ra == 2) cha t.ch)
  if rd then { t with stack := kept, ch := putAt [] chs chd (chs.getD chd [] ++ [f a b]) }
  else { t with stack := .full (f a b) :: kept, ch := chs }

/-! ## Uniform memory access, and the front-end context (R212, R215 to R219) -/

/-- R212, R460: a `kld` or `kst` whose address is good and whose page is translated to `pa` by entries that are good, the
device as that leaves it being `d`. -/
def uniformTranslated (s : Machine.State) (slot core : Nat) (store : Bool) (va : Dword) (bytes pa : Nat) (d : Dev) : Prop :=
  va.toNat < 2 ^ 57 ∧ va.toNat % bytes = 0 ∧
    s.dev.translate slot core va.toNat (if store then .write else .read) = .ok (pa, d) ∧
    d.walkPoisoned slot (dieOf core) va.toNat = false ∧
    (store = true → (d.context slot).sealedRange va.toNat bytes = false)

/-- R212: the access of a uniform instruction to a word, among the accesses of a device. -/
def uniformIssued (d : Dev) (p : Party) (i : Instr) (store : Bool) (va : Dword) (pa part : Nat) (data : List Word) : Prop :=
  ∃ e ∈ d.accesses, e.2.party = p ∧ e.2.lane = 32 ∧ e.2.part = part ∧ e.2.instr = i ∧
    e.2.kind = (if store then .store else .load) ∧ e.2.bytes = 4 ∧ e.2.va = va + BitVec.ofNat 64 (4 * part) ∧
    e.2.pa = some (pa + 4 * part) ∧ (store = true → e.2.data = data) ∧ e.2.result = none

/-- R354, R457: the state with an operation in the module's sequencer, in its hold window. -/
def collQueued (s : Machine.State) (p : Party) (team : Nat) (pc : Va) (lanes : Mask) (deps : List Nat) (desc : Dword) (ring : Nat)
    (tag : BitVec 16) : Machine.State :=
  let t := withOp s (newOp s p team 3 pc lanes deps)
  let c : Coll :=
    { op := s.dev.nextId, slot := s.dev.slotOf team, launch := ((s.dev.team? team).map Team.launch).getD 0, desc := desc,
      ring := ring, tag := tag, accepted := false, bytes := [], group := 0, seq := 0, oldGen := 0, gen := 0, first := [],
      members := [], status := 0, changed := false, staged := none, given := [], acks := [], held := true }
  withDev t { t.dev with colls := Table.set t.dev.colls s.dev.nextId c }

/-! ## Traps (R387 to R396) -/

/-- R387, R389: a warp as a trap saves it, in a device `d`: splits whose wait is over are ready, and none is in a queue or waits
for a counter with a bound, or for a transfer, any more. -/
def savedWarp (d : Dev) (id : Nat) (w : Warp) : Warp :=
  let w := { (w.onSplits (d.wake id w)).onSplits Split.stopped with fed := 0 }
  w.onSplits fun s => if s.state == .blocked .transfer then { s with state := .ready } else s

/-- R387: the device as the frame is written: the warp's requests are withdrawn, its transfers and loop blocks are gone, the
spills in progress are done, and every resident cell is spilled, deepest first, split by split. -/
def savedDev (d : Dev) (id : Nat) (w : Warp) : Dev :=
  let v := w.onSplits (d.wake id w)
  ((d.withdraw fun r => r.warp == id && r.poll.isNone).onLb w.core w.lb fun b =>
    { b with
      transfers := b.transfers.filter fun t => t.warp != id
      loop := b.loop.filter fun e => e.1 != id }).pushForwards w.core w.lb
    (((((d.core w.core).lb w.lb).transfers.filter fun t => t.warp == id).flatMap fun t =>
        spillForwards (d.clockOf w.core) id v (t.lanes &&& v.live) t.was t.c) ++
      v.splits.flatMap fun sp => spillForwards (d.clockOf w.core) id v sp.mask sp.c 0)

/-- R387, R392: the device with a trap posted. -/
def withTrap (s : Machine.State) (id : Nat) (p : Posted) : Dev := (s.dev.fresh.2).post id p

/-- R387: nothing of the warp is in flight: no access, no copy of a queue's record, and no `qtry` that its queue has still to
handle. -/
def Quiet (d : Dev) (id : Nat) : Prop :=
  (∀ e ∈ d.accesses, e.2.party ≠ .warp id) ∧ (∀ q ∈ d.queueCopies, q.warp ≠ id) ∧ ∀ p ∈ d.polls, p.1.warp ≠ id

/-- R387, R393: a warp has entered its handler: every live thread is in one split at the trap entry with an empty
stack, k0:k1 holds the handler area's address and k2 the cause, and the stacks are kept for `rte`. -/
def inHandler (w w' : Warp) (entry : Va) (base : Nat) (cause : BitVec 8) : Prop :=
  w'.cur = some ⟨w.live, entry, 0, 0, .ready⟩ ∧ w'.others = [] ∧ w'.join = [] ∧ w'.posted = [] ∧
    w'.threads = w.threads.map (fun t => { t with stack := [] }) ∧
    kGet64 w'.k 0 = BitVec.ofNat 64 base ∧ kGet w'.k 2 = BitVec.ofNat 32 cause.toNat ∧
    w'.handler.map Handler.saved = some (w.threads.map fun t => (t.lane, t.stack))

/-! ## Queues (R331 to R335) -/

/-- R331: the lanes of a split that take part, each with its buffer's address. -/
def takingPart (w : Warp) (sp : Split) : List (Nat × Dword) :=
  ((w.threadsOf sp.mask).filter fun t => cell t.stack 0 != 0).map fun t => (t.lane, pair t.stack 1)

/-- R331: every buffer lies in the slice of the team's core, or of the core where it started, at a multiple of 16. -/
def buffersGood (s : Machine.State) (w : Warp) (ls : List (Nat × Dword)) (n : Nat) : Prop :=
  ∀ l ∈ ls, (inSlice w.core l.2 n = true ∨ inSlice (((s.dev.team? w.team).map Team.start).getD w.core) l.2 n = true) ∧
    l.2.toNat % 16 = 0

/-- A queue instruction popped in every lane of its split, with a status cell for each. -/
def answered (w : Warp) (sp : Split) (st : Nat → Cell) : Warp :=
  w.onLanes sp.mask fun t => { t with stack := st t.lane :: t.stack.drop 3 }

/-- R332, R333, R457: the split waits in a request at the queue unit, which is in its hold window: the unit reads or writes the
buffers after the warp's accesses to them, and after what its ordering points name. -/
def requested (s : Machine.State) (launch q id : Nat) (w : Warp) (sp : Split) (push : Bool) (ls : List (Nat × Dword)) : Dev :=
  let t := withDev s { s.dev with nextId := s.dev.nextId + 1 }
  let t := withDev t (t.dev.onQueue launch q fun u => { u with requests := u.requests ++
    [⟨s.dev.nextId, id, push, ls, s.dev.bufferWaits id w ls (s.dev.queue launch q).recBytes, s.dev.warpEarlier id w, none,
      true⟩] })
  (leaving t id w [waiting sp (.queue s.dev.nextId)]).select id

/-! ## Commands (R104 to R116) -/

/-- The turn is that of a stream, outside a graph that it has opened. -/
structure IssuesCommand (s : Machine.State) (slot n : Nat) (st : CmdStream) : Prop where
  issuer : s.dev.issuer = .stream slot n
  stream : (s.dev.context slot).stream n = st
  outside : st.building = none

/-- R104: the device with a stream's position moved on by so many words, and its rd_ptr written. -/
def past (h : HostPart) (d : Dev) (slot n words : Nat) : Dev :=
  d.jumpTo h slot n (((d.context slot).stream n).rd + words)

/-- R108: a command that runs as a graph of one node, with its length in words, its opcode and its work. -/
def nodeForm : Instr → Option (BitVec 32 × Nat × Nat × NodeCommand)
  | .launch tag record => some (tag, 2, 0x01, .launch record)
  | .launchIndirect tag record grid => some (tag, 3, 0x02, .launchIndirect record grid)
  | .copy tag src dst bytes => some (tag, 4, 0x03, .copy src dst bytes)
  | _ => none

/-- R108: the device with a graph of one running node at the next name. -/
def withNode (s : Machine.State) (slot n : Nat) (st : CmdStream) (tag : BitVec 32) (opcode : Nat) (cmd : NodeCommand) : Dev :=
  { s.dev with
    nextId := s.dev.nextId + 1
    graphs := Table.set s.dev.graphs s.dev.nextId
      ⟨slot, n, tag, opcode, st.rd, [⟨tag, st.rd, cmd, 0, [], .running, []⟩], false, false⟩ }

/-- R463: the device of a launch that is rolled back: its teams and queues are gone, the pages that it has written hold
what they held, and the rollback is reported. -/
def unrolled (h : HostPart) (d : Dev) (launch : Nat) (l : Launch) (x : Node) : Dev :=
  let d := ((d.teams.filter fun e => e.2.launch == launch).map Prod.fst).foldl Dev.releaseTeam d
  let d := (l.stages.map (d.freeQueues launch)).getD d
  let d := { d with teams := d.teams.filter fun e => e.2.launch != launch }
  (d.restoreSnapshots h l.slot).report 0x05 3 l.slot 0 (leBytes 4 x.tag.toNat)

/-- R112: a launch without the teams that a CANCEL has named. -/
def withoutTeams (d : Dev) (launch : Nat) (dropped : List Nat) : Dev := dropped.foldl (fun d i => d.cancelTeamOf i launch) d

/-- R463: the record of a node's launch, read again. -/
def rereadRecord (h : HostPart) (d : Dev) (slot : Nat) : NodeCommand →
    Except (Refused × Dev) (LaunchRecord × Option StageSet × Dev)
  | .launch r => d.readRecord h slot r none
  | .launchIndirect r g => d.readRecord h slot r (some g)
  | .copy _ _ _ => .error (.status 0x02, d)

/-! ## Accesses at their home (R222, R230, R236, R243, R245) -/

/-- R243: what an integer read-modify-write stores, of the old value `v` and the operand `b`. -/
def updated {n : Nat} (op : Nat) (v b : BitVec n) : BitVec n :=
  match op with
  | 0 => v + b
  | 1 => v &&& b
  | 2 => v ||| b
  | 3 => v ^^^ b
  | 4 => if v.toInt ≤ b.toInt then v else b
  | 5 => if b.toInt ≤ v.toInt then v else b
  | 6 => if v.toNat ≤ b.toNat then v else b
  | 7 => if b.toNat ≤ v.toNat then v else b
  | _ => b

/-- The number that an access stores, given the number that its bytes hold. -/
def stored (a : Access) (v : Nat) : Option Nat :=
  let data := wordsValue (a.words a.data)
  match a.kind with
  | .load => none
  | .store => some data
  | .update op =>
    some (if op < 9 then (updated op (BitVec.ofNat (8 * a.bytes) v) (BitVec.ofNat (8 * a.bytes) data)).toNat
      else updateValue op a.bytes v data)
  | .swapIf => if v = wordsValue (a.words a.expect) then some data else none

/-- R236: the words that an access gives for its bytes, extended where they are fewer than four. -/
def returned (a : Access) (v : Nat) : List Word :=
  if a.kind = .store then []
  else if a.bytes < 4 then
    [if a.signed ∧ a.kind = .load then BitVec.signExtend 32 (BitVec.ofNat (8 * a.bytes) v) else BitVec.ofNat 32 v]
  else (List.range (a.bytes / 4)).map fun i => BitVec.ofNat 32 (v / 2 ^ (32 * i))

/-- The access may perform: its turn in every order has come, no seal and no poison stops it, and a
read-modify-write has the operand of its size. -/
structure Performs (s : Machine.State) (id : Nat) (a : Access) (pa : Nat) : Prop where
  access : Table.find? s.dev.accesses id = some a
  place : a.pa = some pa
  turn : s.dev.homeReady id a = true
  unsealed : a.kind ≠ .load → (s.dev.context a.slot).sealedRange a.va.toNat a.bytes = false
  clean : a.kind ≠ .store → s.dev.poisoned pa a.bytes = false
  sized : ∀ op, a.kind = .update op → 4 ≤ a.bytes ∧ wordsValue (a.words a.data) < 2 ^ (8 * a.bytes)

/-- R55: a cell after an access has returned: one that waits for a ticket of it is full. -/
def filled (a : Access) (vs : List Word) (c : Cell) : Cell :=
  match c.ticket? with
  | none => c
  | some n => match (a.parts a.tickets vs).lookup n with
    | some v => .full v
    | none => c

/-- R212: a register that a returning `kld` word writes: one that a later `kld` has written keeps its value. -/
def regFilled (k : List Word) (kld : List (Nat × Nat)) (id : Nat) (rs : List (Nat × Word)) : List Word :=
  match rs with
  | [(r, v)] => if (r, id) ∈ kld ∧ ∀ e ∈ kld, e.1 = r → e.2 ≤ id then kSet k r v else k
  | _ => k

/-! ## Traps that are delivered (R387 to R393) -/

/-- R387: a resident warp outside handler mode, with nothing in flight and one trap that waits for it, in a device `d`:
its handler area can be written, and the frame with it gives the device `d'`. -/
structure Enters (h : HostPart) (d : Dev) (id : Nat) (w : Warp) (p : Posted) (d' : Dev) : Prop where
  warp : d.warp? id = some w
  outside : w.handler = none
  resident : w.place = .resident
  posted : w.posted = [p]
  quiet : Quiet d id
  launch : (d.launchOf w.team).isSome = true
  area : ∃ d1,
    (savedDev d id w).areaWritable h (d.slotOf w.team) w.core (d.handlerBase w.team w.w) = .ok d1 ∧
    d1.writeVa h (d.slotOf w.team) w.core (d.handlerBase w.team w.w) (trapFrame (savedWarp d id w) p []) = .ok d'

/-- R387, R393: the state after: the warp is in its handler, and memory is as the frame leaves it. -/
def entered (d : Dev) (id : Nat) (w : Warp) (p : Posted) (d' : Dev) (t : Machine.State) : Prop :=
  t.dev.mem = d'.mem ∧ ∃ w' l, t.dev.warp? id = some w' ∧ d.launchOf w.team = some l ∧
    inHandler w w' (BitVec.ofNat 57 l.record.trapEntry.toNat) (d.handlerBase w.team w.w) p.cause

/-- A trap posted by the machine itself, which names no instruction. -/
def postedNow (s : Machine.State) (cause : BitVec 8) (lanes : Mask) (pc : Va) : Posted :=
  ⟨s.dev.nextId, cause, 0, 0, lanes, pc, 0, 0, []⟩

/-! ## Collectives (R350 to R360, R448 to R452) -/

/-- R449: the operation that a flit is for. -/
def flitFor (d : Dev) (f : CollectiveFlit) (id : Nat) (c : Coll) : Prop :=
  List.find? (fun (e : Nat × Coll) => e.2.accepted && e.2.slot == f.slot && e.2.group == f.group && e.2.seq == f.seq &&
    e.2.gen == f.gen) d.colls = some (id, c)

/-- R351: the bytes that the member of a rank gives to an operation: the module's own, or those of its contribution. -/
def given (c : Coll) (own : List Byte) (module r : Nat) : List Byte :=
  let p := moduleAt c.members r
  if p = module then own else ((c.given.find? fun g => g.1 == p).map fun g => g.2.data).getD []

/-! ## Teams that start (R21 to R23, R32, R59) -/

/-- R21, R23, R32, R56, R59, R378, R399: a warp as its team starts: 32 threads with empty stacks, one split at the entry,
and the uniform file zero but for k58 to k63. -/
def fresh (w : Warp) (team core n index : Nat) (f : TeamForm) (r : LaunchRecord) (shared : Dword) : Prop :=
  w.team = team ∧ w.w = n ∧ w.core = core ∧ w.sliceCore = core ∧ w.place = .resident ∧ w.stopped = [] ∧
    w.threads.map (fun t => (t.lane, t.stack, t.fp)) = (List.range 32).map (fun l => (l, [], 0)) ∧
    w.cur = some ⟨0xFFFFFFFF, f.entry, 0, 0, .ready⟩ ∧ w.others = [] ∧ w.join = [] ∧ w.flags = 0 ∧ w.kp = 0 ∧
    w.cnt = [0, 0, 0, 0] ∧ w.vlimit = 0x01000000 ∧ w.perf = r.perf ∧ w.handler = none ∧ w.ch15 = [] ∧
    (∀ i < 58, kGet w.k i = 0) ∧ kGet64 w.k 58 = shared ∧ kGet64 w.k 60 = r.argBase ∧ kGet w.k 62 = r.argBytes ∧
    kGet w.k 63 = BitVec.ofNat 32 index ∧
    w.lfsr = (let l := r.seed ^^^ BitVec.ofNat 16 (index * f.warps + n); if l = 0 then 0xACE1 else l)

/-! ## Clocks and the host function (R14, R377 to R385, R468) -/

/-- The state with another cluster. -/
def withCluster (s : Machine.State) (n : Nat) (c : Cluster) : Machine.State := withDev s (s.dev.setCluster n c)

/-- R377, R378: the lane cycles that a front-end cycle has: none or one at half rate, which it has in every second cycle,
one at equal rate and two at double rate; during a transition the lower of the two rates holds. -/
def laneCycles (c : Cluster) : Nat :=
  let low := match c.transition with
    | none => c.level
    | some old => min old c.level
  if low ≤ 2 then (if c.clock % 2 = 0 then 1 else 0) else if low ≤ 5 then 1 else 2

/-- R382: a request of MAP_REQ, by its bytes. -/
def mapField (v : BitVec 256) (off n : Nat) : Nat := v.toNat / 2 ^ (8 * off) % 2 ^ (8 * n)

/-! ## Traps at issue (R142, R386, R405, R406) -/

/-- The instruction traps, where the warp can take the trap: it has no other effect, and the warp enters its handler. -/
def raises (s : Machine.State) (id : Nat) (w : Warp) (i : Instr) (p : Posted) : Prop :=
  w.posted = [] → ∀ d, Enters s.host (withTrap s id p) id { w with posted := [p] } p d →
    ∃ t, exec i s = .next t ∧ entered s.dev id w p d t

/-- What the instructions on words, on pairs and on memory need. -/
def operandNeed (i : Instr) : Option Need :=
  match wordForm i, pairForm i, memoryForm i with
  | some o, _, _ => some (Need.of o.bytes o.w o.pops 1)
  | _, some o, _ => some (Need.of 2 o.w o.pops o.pushes)
  | _, _, some (w, _, f) => some (memoryNeed i w f)
  | _, _, _ => none

/-! ## Rounding (R83, R87, R88) -/

/-- The value of a finite number. -/
def rational : FpNum → Rat
  | .fin neg m e _ => (if neg then -1 else 1) * m * (2 : Rat) ^ e
  | _ => 0

/-- A finite value of a format. -/
def FiniteIn (f : FloatFormat) (y : Rat) : Prop := ∃ c n m e, c < 2 ^ f.bits ∧ f.decode c = .fin n m e false ∧ rational (.fin n m e false) = y

end Sys2Proof.Safety
end

