-- ==== Sys2Proof/Certificates/Slice0/Obligations.lean ====
section
/-! DEFINITION. The statements about the machine. -/

open Sys2Proof Sys2Proof.Machine Sys2Proof.Safety

/-- R162, R166 to R168: the integer word instructions, with all that they leave as it was. -/
def Obligations.IntegerWordResults : Prop :=
  ∀ (i : Instr) (o : WordForm), wordForm i = some o →
    ∀ (s : Machine.State) (id : Nat) (w : Warp) (sp : Split), Ready s id w sp (Need.of o.bytes o.w o.pops 1) →
      exec i s = .next (issued s id (onStacks w sp o.onCells) (after sp o.bytes o.pops 1))

/-- R169, R170: the pair instructions, with all that they leave as it was. -/
def Obligations.PairResults : Prop :=
  ∀ (i : Instr) (o : PairForm), pairForm i = some o →
    ∀ (s : Machine.State) (id : Nat) (w : Warp) (sp : Split), Ready s id w sp (Need.of 2 o.w o.pops o.pushes) →
      exec i s = .next (issued s id (onStacks w sp o.f) (after sp 2 o.pops o.pushes))

/-- R146 to R151, R174: the instructions that move stack cells, the literals, and the sign of an FP32 cell. -/
def Obligations.CellAndLiteralResults : Prop :=
  ∀ (i : Instr) (o : WarpForm), cellForm i = some o ∨ signForm i = some o → o.completes i

/-- R57, R152 to R154: frame loads and the frame pointer; and `stf`, which pops the value, high half first, into the
slots from fp + s, with an entry of the forwarding table for each word of each frame pointer that its lanes hold (the model's
choice where they hold several, notes/assumptions/42.md). -/
def Obligations.FrameResults : Prop :=
  (∀ (i : Instr) (o : WarpForm), frameForm i = some o → o.completes i) ∧
  ∀ (i : Instr) (bytes n k : Nat) (b : Bool),
    ((∃ x, i = .stf b x ∧ bytes = 2 ∧ n = x.toNat ∧ k = 1) ∨
      (∃ x, i = .stfL b false x ∧ bytes = 4 ∧ n = x.toNat ∧ k = 1) ∨
      (∃ x, i = .stfL b true x ∧ x ≠ 255 ∧ bytes = 4 ∧ n = x.toNat ∧ k = 2)) →
    ∀ (s : Machine.State) (id : Nat) (w : Warp) (sp : Split),
      let entries := k * ((w.threadsOf sp.mask).map Thread.fp).eraseDups.length
      Ready s id w sp { Need.of bytes b k 0 with forwards := Nat.min 16 entries } → inFrame s w sp n k = true →
      ∃ t w', exec i s = .next t ∧ t.dev.warp? id = some w' ∧ w'.cur = some (after sp bytes k 0) ∧
        (entries ≤ 16 →
          t = { s with dev := { s.dev with cores := t.dev.cores, warps := t.dev.warps, issued := true } }) ∧
        ((t.dev.core w.core).lb w.lb).forwards.length =
          Nat.min 16 (((s.dev.core w.core).lb w.lb).forwards.length + entries) ∧
        ∀ l ∈ lanesOf sp.mask, ∀ u, w.thread? l = some u → ∃ u', w'.thread? l = some u' ∧ u'.stack = u.stack.drop k ∧
          (∀ j < k, u'.frameWord (u.fp + n + j) = cell u.stack (k - 1 - j)) ∧
          ∀ m, (m < u.fp + n ∨ u.fp + n + k ≤ m) → u'.frameWord m = u.frameWord m

/-- R156 to R160, R479: special registers and flags; an instruction that reads gtime waits for what the ordering points before
it ask of its lanes. -/
def Obligations.SpecialRegisterResults : Prop :=
  (∀ (i : Instr) (o : WarpForm), registerForm i = some o → o.completes i) ∧
  ∀ (b : Bool) (s : Machine.State) (id : Nat) (w : Warp) (sp : Split), s.dev.markDeps w.marks sp.mask ≠ [] →
    let waits := .next (withDev s (s.dev.block id (.accesses (s.dev.markDeps w.marks sp.mask))))
    (∀ n : BitVec 5, n = 17 ∨ n = 18 → Ready s id w sp (Need.of 2 false 0 1) → exec (.rds b n) s = waits) ∧
    (Ready s id w sp (Need.of 2 false 0 2) → exec (.rdsD b 17) s = waits)

/-- R254 to R256: the warp-wide instructions. -/
def Obligations.WarpWideResults : Prop := ∀ (i : Instr) (o : WarpForm), wideForm i = some o → o.completes i

/-- R171 to R185: the floating-point instructions and conversions. -/
def Obligations.FloatResults : Prop := ∀ (i : Instr) (o : NumberForm), floatForm i = some o → o.completes i

/-- R186 to R190: conversions through format slots. -/
def Obligations.SlotConversionResults : Prop :=
  (∀ (wbit : Bool) (src dst : BitVec 3) (x y : Nat) (s : Machine.State) (id : Nat) (w : Warp) (sp : Split),
    laneTypeOf (formatSlot s w src.toNat).format.toNat = some x →
    laneTypeOf (formatSlot s w dst.toNat).format.toNat = some y →
    let o : NumberForm := ⟨4, wbit, 0, convertOp x y (formatSlot s w dst.toNat).round (formatSlot s w dst.toNat).sat
      (formatSlot s w src.toNat).naz⟩
    Ready s id w sp o.form.need →
      exec (.cvtSlot wbit src dst) s = .next (issued s id (o.form.warp s w sp) (after sp 4 o.pops o.op.r))) ∧
  ∀ (wbit : Bool) (slot : BitVec 3) (m : Nat),
    (packForm wbit slot m).completes (.bpack wbit slot) ∧ (unpackForm wbit slot m).completes (.bunpack wbit slot)

/-- R209 to R214: uniform arithmetic in warps and in front-end contexts. -/
def Obligations.UniformResults : Prop := ∀ (i : Instr) (o : UniformForm), uniformForm i = some o → o.completes i

/-- R60 to R62, R394: between the stack and the uniform file, and the replay queue as a handler reads and writes it. -/
def Obligations.ExchangeAndReplayResults : Prop :=
  ∀ (i : Instr) (o : WarpForm), exchangeForm i = some o ∨ replayForm i = some o → o.completes i

/-- R192, R193, R198 to R200, R204: the branches of a warp. -/
def Obligations.BranchResults : Prop := ∀ (i : Instr) (o : BranchForm), branchForm i = some o → o.completes i

/-- R142, R193, R198, R402: the branches of a front-end context; and `nop`, which it may not issue (R142; that R410's "never
traps" speaks of warps is the model's reading, notes/assumptions/11.md): the context has ended and stops, and the team's
lowest-numbered live warp traps with ILLEGAL_INSTRUCTION, with lane mask 0 (the model's choices, notes/assumptions/38.md), at
once or, as here, when it is next resident. -/
def Obligations.ContextBranchResults : Prop :=
  (∀ (b : Bool) (s : Machine.State) (id n : Nat) (f : Fet) (w : Warp), IssuesFet s id f [] →
    s.dev.lowestWarp f.team = some n → s.dev.warp? n = some w → w.place = .evicted → w.handler = none →
    (∀ p ∈ w.posted, p.stamp ≠ s.dev.nextId) →
      exec (.nop b) s = .next (withDev s { s.dev with
        nextId := s.dev.nextId + 1
        fets := Table.set s.dev.fets id { f with ended := true, stalled := none }
        warps := Table.set s.dev.warps n { w with posted := w.posted ++ [⟨s.dev.nextId, 0x01, 2, 0, 0, f.pc, 0, 0, []⟩] } })) ∧
  ∀ (i : Instr) (bytes : Nat) (taken : BitVec 8 → Bool) (off : Int), contextBranch i = some (bytes, taken, off) →
    ∀ (s : Machine.State) (id : Nat) (f : Fet), IssuesFet s id f [] →
      exec i s = .next (issuedFet s id
        { f with pc := if taken f.kp then blockAt f.pc off - BitVec.ofNat 57 bytes else f.pc } bytes)

/-- R121, R196, R197: multiway dispatch through the parcels of the table that follows the instruction; and one entry of
ch15 that decides for the whole split. -/
def Obligations.DispatchResults : Prop :=
  (∀ (b : Bool) (last : BitVec 5) (s : Machine.State) (id : Nat) (w : Warp) (sp : Split) (table : List Nat),
    Ready s id w sp (Need.of 4 b 1 0) →
    s.dev.codeParcels w.core (s.dev.slotOf w.team) (sp.pc.toNat + 4) (last.toNat + 1) = .parcels table →
    w.join.length < 16 → (∀ l ∈ lanesOf sp.mask, (topOf w l).toNat ≤ last.toNat) →
      exec (.jtab b last) s = .next (withDev s (s.dev.goTo id
        { w.onLanes sp.mask (fun t => { t with stack := t.stack.drop 1 }) with join := sp.mask :: w.join }
        (targetParts (after sp 4 1 0) ((lanesOf sp.mask).map fun l =>
          (l, blockAt sp.pc (BitVec.ofNat 16 (table.getD (topOf w l).toNat 0)).toInt)))))) ∧
  ∀ (b : Bool) (off : BitVec 7) (s : Machine.State) (id : Nat) (w : Warp) (sp : Split) (v : Word) (before : List Nat)
    (rest : List (Word × List Nat)),
    Ready s id w sp { Need.of 2 false 0 0 with channels := [(15, 1, false)] } → w.ch15 = (v, before) :: rest →
      let marks := if before = [] then w.marks else s.dev.liveMarks w.marks ++ [⟨sp.mask, before, 0, []⟩]
      let parts := whole (Need.of 2 false 0 0) sp (if v = 0 then sp.pc + 2 else blockAt sp.pc off.toInt)
      ∃ d : Dev, exec (.brq b off) s = .next (withDev s (d.goTo id { w with ch15 := rest, marks := marks } parts)) ∧
        d = { s.dev with warps := d.warps } ∧ d.warps.map Prod.fst = s.dev.warps.map Prod.fst ∧
        (∀ n, n ≠ id → d.warp? n = s.dev.warp? n) ∧ (before = [] → d = s.dev)

/-- R30, R31, R192: a split that goes on as one part, which merges with no other split, stays current; the choice among ready
splits steps L and takes the split that it numbers. -/
def Obligations.SelectionResults : Prop :=
  (∀ (s : Machine.State) (id : Nat) (w : Warp) (p : Split),
     (∀ t ∈ w.others, w.merge? id t p = none) →
       withDev s (s.dev.goTo id w [p]) = issued s id w p) ∧
  ((∀ (l : BitVec 16), lfsrStep l =
     BitVec.ofNat 16 (2 * l.toNat + ((l.getLsbD 15).toNat + (l.getLsbD 13).toNat + (l.getLsbD 12).toNat + (l.getLsbD 10).toNat) % 2)) ∧
   ∀ (l : BitVec 16) (a b : Split) (rest : List Split),
     choose l [a] = (some a, l) ∧
       choose l (a :: b :: rest) =
         ((a :: b :: rest)[(lfsrStep l).toNat % (rest.length + 2)]?, lfsrStep l))

/-- R34, R194, R257: the last threads of a join's mask pass at once, and its entry leaves the join stack, and the last threads of a
`wsync` pass at once; others wait. -/
def Obligations.JoinAndSyncResults : Prop :=
  (∀ (b : Bool) (depth : BitVec 7) (s : Machine.State) (id : Nat) (w : Warp) (sp : Split) (top : Mask) (rest : List Mask),
     Ready s id w sp (Need.of 2 false 0 0) → w.join = top :: rest → sp.mask &&& top = sp.mask → w.depth sp = depth.toNat →
       (sp.mask = top &&& w.live →
         exec (.join b depth) s = .next (issued s id { w with join := popDead w.live rest } (after sp 2 0 0))) ∧
       (sp.mask ≠ top &&& w.live →
         exec (.join b depth) s =
           .next (withDev s (((leaving s id w [waiting sp .join]).settleWarp id).select id)))) ∧
  ((∀ (b : Bool) (s : Machine.State) (id : Nat) (w : Warp) (sp : Split),
     Ready s id w sp (Need.of 2 false 0 0) →
     (∀ t ∈ w.others, t.state = .wsync → t.pc = sp.pc → w.depth t = w.depth sp) →
       exec (.wsync b) s = .next (withDev s (((leaving s id w [waiting sp .wsync]).settleWarp id).select id))) ∧
   ∀ (b : Bool) (s : Machine.State) (id : Nat) (w : Warp) (sp : Split),
     Ready s id w sp (Need.of 2 false 0 0) → w.others = [] → sp.mask = w.live → w.live ≠ 0 → w.join = [] → sp.c ≤ 8 →
     (∀ e ∈ s.dev.accesses, e.2.party = .warp id → e.2.parked = false) →
     (∀ t ∈ ((s.dev.core w.core).lb w.lb).transfers, t.warp ≠ id) →
       ∃ t w', exec (.wsync b) s = .next t ∧ t.dev.warp? id = some w' ∧
         w'.cur = some { sp with pc := sp.pc + 2, age := 0, state := .ready } ∧ w'.others = [] ∧
         w'.threads = w.threads)

/-- R37, R201, R202: the threads of a split that exits end, and a warp without threads leaves its lane block; `yield`
puts the warp last in its lane block's order, and is a selection point. -/
def Obligations.ExitAndYieldResults : Prop :=
  (∀ (b : Bool) (s : Machine.State) (id : Nat) (w : Warp) (sp : Split), Ready s id w sp (Need.of 2 false 0 0) →
    let w' : Warp := { w with threads := w.threads.filter fun t => !sp.mask.getLsbD t.lane }
    let d := (leaving s id w' []).dropLoads (.warp id) sp.mask w'.threads.isEmpty
    exec (.exit b) s = .next (withDev s (if w'.threads = [] then (d.leaveWarp id).settle s.host else (d.settleWarp id).select id))) ∧
  ∀ (b : Bool) (s : Machine.State) (id : Nat) (w : Warp) (sp : Split), Ready s id w sp (Need.of 2 false 0 0) →
    exec (.yield b) s = .next (withDev s (((issued s id w (after sp 2 0 0)).dev.onLb w.core w.lb fun l =>
      { l with active := l.active.filter (fun x => x != id) ++ l.active.filter (fun x => x == id) }).select id))

/-- R238 to R246, R390: loads, stores, atomics and reductions issue as one access for each word of each lane, a 64-bit
compare-and-swap once the page of every lane is translated. -/
def Obligations.AccessesAreIssued : Prop :=
  (∀ (i : Instr) (b : Bool) (off : BitVec 16) (f : MemForm), memoryForm i = some (b, off, f) →
     ¬(f.kind = .swapIf ∧ f.bytes = 8) →
     ∀ (s : Machine.State) (id : Nat) (w : Warp) (sp : Split),
       Ready s id w sp (memoryNeed i b f) → accessible s w sp off f.bytes (f.kind != .load) →
       ∃ t w', exec i s = .next t ∧ onlyAccesses s t ∧ t.dev.warp? id = some w' ∧
         w'.cur = some (after sp 4 (2 + f.takes) f.gives) ∧ w'.others = w.others ∧ loading w w' sp f ∧
         ∀ l ∈ lanesOf sp.mask, ∀ u, w.thread? l = some u → ∀ part < f.parts,
           issuedAccess t.dev id f i sp.pc u off part) ∧
  (∀ (b : Bool) (forder order scope : BitVec 3) (rmt : Bool) (f : MemForm) (s : Machine.State) (id : Nat) (w : Warp)
     (sp : Split) (r : LaneWalks),
     memForm (.cas b forder rmt order scope 1) = some f →
     Ready s id w sp (memoryNeed (.cas b forder rmt order scope 1) b f) →
     accessible s w sp 0 8 true →
     Dev.walkLanes s.host (s.dev.slotOf w.team) w.core ((lanesOf sp.mask).map fun l => (l, address w 0 l)) ⟨[], none, [], none, s.dev⟩ = r →
     r.failed = [] → r.serve = none → r.lost = none →
       ∃ t w', exec (.cas b forder rmt order scope 1) s = .next t ∧ t.dev.mem = r.d.mem ∧ t.dev.warp? id = some w' ∧
         w'.cur = some (after sp 4 6 2) ∧ loading w w' sp f ∧
         ∀ l ∈ lanesOf sp.mask, ∀ u, w.thread? l = some u → ∀ part < f.parts,
           issuedAccess t.dev id f (.cas b forder rmt order scope 1) sp.pc u 0 part)

/-- R247, R250, R251: a fence at a scope below the die, or with no store of its lanes in flight, completes at once; `waitc`
passes where the counter is at or below n, in a warp and in a front-end context; `trywait` answers 1 at once, 0 at once for a
bound of 0, and else its split waits for at most the bound. -/
def Obligations.FenceAndCounterResults : Prop :=
  (∀ (b : Bool) (order scope : BitVec 3) (s : Machine.State) (id : Nat) (w : Warp) (sp : Split),
     Ready s id w sp (Need.of 4 false 0 0) →
     (scope.toNat < 3 ∨ s.dev.laneAccesses id sp.mask (fun a => a.kind != .load && a.result.isNone) = []) →
       ∃ t w', exec (.fence b order scope) s = .next t ∧ onlyAccesses s t ∧ t.dev.warp? id = some w' ∧
         w'.cur = some (after sp 4 0 0) ∧ w'.threads = w.threads ∧ w'.others = w.others ∧
         t.dev.accesses.map Prod.fst = s.dev.accesses.map Prod.fst) ∧
  ((∀ (b : Bool) (cls : BitVec 2) (n : BitVec 8) (s : Machine.State) (id : Nat),
     (∀ (w : Warp) (sp : Split), Ready s id w sp (blind 4 0 0) →
       (cntGet w.cnt cls.toNat ≤ n.toNat → exec (.waitc b cls n) s = .next (issued s id w (after sp 4 0 0))) ∧
       (n.toNat < cntGet w.cnt cls.toNat →
         exec (.waitc b cls n) s = .next (withDev s (s.dev.block id (.counter cls.toNat n.toNat))))) ∧
     ∀ (f : Fet), IssuesFet s id f [] →
       (cntGet f.cnt cls.toNat ≤ n.toNat → exec (.waitc b cls n) s = .next (issuedFet s id f 4)) ∧
       (n.toNat < cntGet f.cnt cls.toNat →
         exec (.waitc b cls n) s =
           .next (withDev s (s.dev.onFet id fun f => { f with stalled := some (.counter cls.toNat n.toNat) })))) ∧
   ∀ (b : Bool) (cls : BitVec 2) (n : BitVec 8) (s : Machine.State) (id : Nat) (w : Warp) (sp : Split),
     Ready s id w sp (Need.of 4 b 1 1) →
       let answer := fun (v : Word) =>
         issued s id (w.onLanes sp.mask fun t => { t with stack := .full v :: t.stack.drop 1 }) (after sp 4 1 1)
       let bound := Nat.min (lowestTop w sp).toNat 4096
       (cntGet w.cnt cls.toNat ≤ n.toNat → exec (.trywait b cls n) s = .next (answer 1)) ∧
       (n.toNat < cntGet w.cnt cls.toNat → bound = 0 → exec (.trywait b cls n) s = .next (answer 0)) ∧
       (n.toNat < cntGet w.cnt cls.toNat → bound ≠ 0 →
         exec (.trywait b cls n) s =
           .next (withDev s ((leaving s id w [waiting sp (.trywait cls.toNat n.toNat bound)]).select id))))

/-- R252, R253, R457: an arrival at a barrier, which sets out in its hold window; with `bar.sync` the split waits, and with
`bar.arrive` it goes on. The team's barrier counts the oldest arrival once it leaves its window: the first of a phase sets the
expected count, each adds its threads, and the one that makes up the count ends the phase, resets the count and lets every split
that waits at the barrier go on; every other barrier, every thread and memory are as they were. -/
def Obligations.BarrierResults : Prop :=
  (∀ (i : Instr) (b sync : Bool) (bar : BitVec 4) (count : BitVec 16),
    (i = .barArrive b bar count ∧ sync = false) ∨ (i = .barSync b bar count ∧ sync = true) →
    ∀ (s : Machine.State) (id : Nat) (w : Warp) (sp : Split) (pops e : Nat),
      pops = (if count = 0 then 1 else 0) → e = (if count = 0 then (lowestTop w sp).toNat else count.toNat) →
      Ready s id w sp (Need.of 4 b pops 0) → 1 ≤ e → e ≤ 1024 →
        let w' := w.onLanes sp.mask fun t => { t with stack := t.stack.drop pops }
        exec i s = .next (withDev s (arriving
          (if sync then (leaving s id w' [{ after sp 4 pops 0 with state := .arriving bar.toNat }]).select id
            else (issued s id w' (after sp 4 pops 0)).dev) id w' sp.mask bar.toNat e sync))) ∧
  ∀ (s : Machine.State) (n : Nat) (a : Arrival) (t : Team), OwnName s.dev n → noRequest s.dev n →
    Table.find? s.dev.arrivals n = some a →
    List.find? (fun (e : Nat × Arrival) => e.2.team == a.team) s.dev.arrivals = some (n, a) →
    s.dev.team? a.team = some t → (s.dev.warps.map Prod.fst).Nodup →
      let old := t.bars.getD a.bar Barrier.reset
      let new := countedAt old a.count (lanesOf a.lanes).length a.w (s.dev.clockOf t.core)
        (a.deps.filter fun i => !s.dev.performed i)
      ∃ u t', exec (.holdWindowRelease n) s = .next u ∧ u.dev.arrivals = Table.erase s.dev.arrivals n ∧ u.dev.mem = s.dev.mem ∧
        u.dev.team? a.team = some t' ∧ t' = { t with bars := t'.bars } ∧ t'.bars.getD a.bar Barrier.reset = new ∧
        (∀ k, k ≠ a.bar → t'.bars.getD k Barrier.reset = t.bars.getD k Barrier.reset) ∧
        ∀ (id : Nat) (w : Warp), s.dev.warp? id = some w →
          (∀ e ∈ s.dev.accesses, e.2.party = .warp id → e.2.parked = false) → (∀ x ∈ w.splits, x.mask ≠ 0) →
          ∃ w', u.dev.warp? id = some w' ∧ w'.threads = w.threads ∧ w'.splits = w.splits.map fun x =>
            let st := if a.sync = true ∧ id = a.warp ∧ x.mask = a.lanes ∧ x.state = .arriving a.bar then .barrier a.bar else x.state
            { x with state :=
                if new.phase ≠ old.phase ∧ w.team = a.team ∧ st = .barrier a.bar then .ready
                else if new.phase ≠ old.phase ∧ w.team = a.team ∧ st = .parkedAt a.bar then .parked
                else st }

/-- R73, R80, R231, R242, R248: `seal`, `unseal` and `prefetch` complete wherever they may issue. A `seal` or an `unseal` sends
one request, of its lowest lane, that comes after what its lanes have done and before what they do later, and every lane of its
split gets its status in an empty cell; a `prefetch` pops its address in every lane, and what it does to the device besides is
what `prefetched` says of each lane's address in turn. -/
def Obligations.SealAndPrefetchRequests : Prop :=
  (∀ (b : Bool) (s : Machine.State) (id : Nat) (w : Warp) (sp : Split), Ready s id w sp (Need.of 4 b 4 1) →
     let top := fun (n : Nat) => (((w.thread? (lowest sp.mask)).map fun t => pair t.stack n).getD 0).toNat
     let w' : Warp := { w with marks := s.dev.liveMarks w.marks ++ [⟨sp.mask, [s.dev.nextId + 1], 0, []⟩] }
     let sent := fun (undo : Bool) =>
       issued
         (withDev s { s.dev with
           seals := Table.set s.dev.seals (s.dev.nextId + 1)
             ⟨top 2, top 0, undo, .warp id, s.dev.nextId, 0, 0,
               s.dev.earlier (.warp id) sp.mask ++ s.dev.markDeps w.marks sp.mask⟩
           nextId := s.dev.nextId + 2 })
         id (w'.onLanes sp.mask fun t => { t with stack := .empty s.dev.nextId :: t.stack.drop 4 }) (after sp 4 4 1)
     exec (.seal b) s = .next (sent false) ∧ exec (.unseal b) s = .next (sent true)) ∧
  ∀ (b : Bool) (off : BitVec 16) (s : Machine.State) (id : Nat) (w : Warp) (sp : Split), Ready s id w sp (Need.of 4 b 2 0) →
    let d := ((w.threadsOf sp.mask).map fun t => pair t.stack 0 + BitVec.ofInt 64 off.toInt).foldl
      (prefetched w.core (s.dev.slotOf w.team)) s.dev
    exec (.prefetch b off) s =
      .next (issued (withDev s d) id (w.onLanes sp.mask fun t => { t with stack := t.stack.drop 2 }) (after sp 4 2 0))

/-- R205 to R207, R457: the overlay instructions; the fill that a `cfetch` starts has its request in the hold window. -/
def Obligations.OverlayResults : Prop :=
  ∀ (b : Bool) (seg : BitVec 6) (s : Machine.State) (id : Nat) (w : Warp) (sp : Split), seg.toNat < 48 →
    (Ready s id w sp (Need.of 4 b 2 1) →
      let va := ((w.thread? (lowest sp.mask)).map fun t => pair t.stack 0).getD 0
      va.toNat < 2 ^ 57 →
        let slot := s.dev.slotOf w.team
        let st := s.dev.fetchStatus w.core seg.toNat slot (va.toNat / 4096)
        exec (.cfetch b seg) s = .next (issued
          (if st = 0 then withDev s ({ s.dev with nextId := s.dev.nextId + 1 }.onCore w.core fun c => c.onSegment seg.toNat fun g =>
            ⟨.filling, slot, va.toNat / 4096, 0, false, g.used, false, some s.dev.nextId⟩) else s)
          id (w.onLanes sp.mask fun t => { t with stack := .full (BitVec.ofNat 32 st) :: t.stack.drop 2 }) (after sp 4 2 1))) ∧
    (Ready s id w sp (Need.of 4 false 0 1) →
      exec (.cevict b seg) s = .next (issued
        (if s.dev.takeable w.core seg.toNat then
          withDev s (s.dev.onCore w.core fun c => c.onSegment seg.toNat fun g => { g with state := .free }) else s)
        id (w.onLanes sp.mask fun t =>
          { t with stack := .full (if s.dev.takeable w.core seg.toNat then 0 else 2) :: t.stack }) (after sp 4 0 1)) ∧
      exec (.cstat b seg) s = .next (issued s id (w.onLanes sp.mask fun t =>
        { t with stack := .full (s.dev.segmentWord w.core seg.toNat (s.dev.slotOf w.team)) :: t.stack }) (after sp 4 0 1)))

/-- R281 to R293: the matrix instructions join their engine's queue. -/
def Obligations.MatrixInstructionsIssue : Prop := ∀ (i : Instr) (o : EngineForm), engineForm i = some o → o.completes i

/-- R310 to R313: the copy instructions queue one command for each lane that leads, or one for a front-end context. -/
def Obligations.CopyInstructionsIssue : Prop :=
  ∀ (i : Instr) (f : CopyFields) (l : Launch),
    ((∃ kl ksl out ring kc cv dslot ncoord tag, i = .tcopy kl ksl out ring kc cv dslot ncoord tag) ∨
      (∃ kl ksl ring kc cv dslot ncoord tag, i = .tgather kl ksl ring kc cv dslot ncoord tag) ∨
      (∃ kl ksl ring kc cv dslot ncoord tag, i = .tscatter kl ksl ring kc cv dslot ncoord tag)) →
    copyFields i = f → badDslot f l.record = false →
    (∀ (s : Machine.State) (id : Nat) (w : Warp) (sp : Split), Ready s id w sp (copyNeed f) →
      s.dev.launchOf w.team = some l → f.kc = 0 →
      let n := (leads f w sp).length
      cntGet w.cnt f.cls + n ≤ 255 → s.dev.slotsUsed w.core + n ≤ 32 →
      (n ≠ 0 → copyGood (kGet64 w.k f.kl) (kGet64 w.k f.ksl)) →
        exec i s = .next (issued
          ((leads f w sp).foldl (copyQueued i f (.warp id) w.team w.core sp.pc (s.dev.warpEarlier id w)
            (kGet64 w.k f.kl) (kGet64 w.k f.ksl)) s)
          id { w.onLanes sp.mask (fun t => { t with stack := t.stack.drop (f.ncoord + 1) }) with
            cnt := putAt 0 w.cnt f.cls (cntGet w.cnt f.cls + n) } (after sp 8 (f.ncoord + 1) 0))) ∧
    ∀ (s : Machine.State) (id : Nat) (c : Fet),
      IssuesFet s id c ([f.kl, f.kl + 1, f.ksl, f.ksl + 1] ++ (List.range f.ncoord).map (f.kc + ·)) →
      s.dev.launchOf c.team = some l → f.kc + f.ncoord ≤ 64 → cntGet c.cnt f.cls < 255 → s.dev.slotsUsed c.core < 32 →
      copyGood (kGet64 c.k f.kl) (kGet64 c.k f.ksl) →
        exec i s = .next (issuedFet
          (copyQueued i f (.fet id) c.team c.core c.pc (s.dev.earlier (.fet id) 0) (kGet64 c.k f.kl) (kGet64 c.k f.ksl) s
            (0, (List.range f.ncoord).map fun n => kGet c.k (f.kc + n)))
          id { c with cnt := counted c.cnt f.cls } 8)

/-- R126 to R129, R412: a routed instruction pops and peeks its operands where its route says, and sends its result to
the stack or to a channel. -/
def Obligations.RoutedResults : Prop :=
  (∀ (op : BitVec 7) (b : Bool) (ra rb : BitVec 2) (rd : Bool) (cha chb chd mod : BitVec 4) (o : LaneOp)
    (s : Machine.State) (id : Nat) (w : Warp) (sp : Split),
    let r : Route := ⟨ra, rb, rd, cha.toNat, chb.toNat, chd.toNat⟩
    routedOp op.toNat mod = some o → o.routeOk r = true → Ready s id w sp (o.need r 4 b) →
      exec (.l32Routed op b ra rb rd cha chb chd mod) s = .next (withDev s
        ((issued s id (o.apply r w sp) (after sp 4 (o.need r 4 b).pops (o.need r 4 b).pushes)).dev.entryMark id sp
          (w.ch15.take (o.popsA r 15 + o.popsB r 15))))) ∧
  ∀ (f : Word → Word → Word) (ra rb : BitVec 2) (rd : Bool) (cha chb chd : Nat) (ch15 : List Word) (t : Thread),
    (op2 f).step ⟨ra, rb, rd, cha, chb, chd⟩ ch15 t = routedWord f ra rb rd cha chb chd ch15 t

/-- R212, R215, R347, R353, R354, R356: a uniform load or store issues one access for each word, and the registers of a load wait
for their data (that `.d` issues two 4-byte accesses is the model's choice, notes/assumptions/28.md); `setperf`, `vtag` and `coll`,
in a warp and in a front-end context. A `setperf` of a front-end context sets the level of its team's warps and leaves the
context's own, which is the model's reading (notes/assumptions/43.md). -/
def Obligations.UniformUnitResults : Prop :=
  (∀ (i : Instr) (store : Bool) (kd ka n : BitVec 6) (size : BitVec 2), size.toNat < 2 →
     (i = .kld kd ka n size ∧ store = false) ∨ (i = .kst kd ka n size ∧ store = true) →
     let bytes := if size = 1 then 8 else 4
     let regs := if store then [] else if size = 1 then [kd.toNat, kd.toNat + 1] else [kd.toNat]
     (∀ (s : Machine.State) (id : Nat) (w : Warp) (sp : Split) (pa : Nat) (d : Dev),
       Ready s id w sp { blind 4 0 0 with regs := uniformReads i } →
       let va := kGet64 w.k ka.toNat + BitVec.ofNat 64 (n.toNat * bytes)
       uniformTranslated s (s.dev.slotOf w.team) w.core store va bytes pa d →
         ∃ t w', exec i s = .next t ∧ t.dev.mem = d.mem ∧ t.dev.warp? id = some w' ∧ w'.cur = some (after sp 4 0 0) ∧
           w'.threads = w.threads ∧ w'.others = w.others ∧ w'.k = w.k ∧ w'.kld.map Prod.fst = w.kld.map Prod.fst ++ regs ∧
           ∀ part < bytes / 4, uniformIssued t.dev (.warp id) i store va pa part [kGet w.k kd.toNat, kGet w.k (kd.toNat + 1)]) ∧
     ∀ (s : Machine.State) (id : Nat) (f : Fet) (pa : Nat) (d : Dev),
       IssuesFet s id f (uniformReads i) →
       let va := kGet64 f.k ka.toNat + BitVec.ofNat 64 (n.toNat * bytes)
       uniformTranslated s (s.dev.slotOf f.team) f.core store va bytes pa d →
         ∃ t f', exec i s = .next t ∧ t.dev.mem = d.mem ∧ Table.find? t.dev.fets id = some f' ∧
           f' = { f with pc := f.pc + 4, stalled := none, kld := f'.kld } ∧ f'.kld.map Prod.fst = f.kld.map Prod.fst ++ regs ∧
           ∀ part < bytes / 4, uniformIssued t.dev (.fet id) i store va pa part [kGet f.k kd.toNat, kGet f.k (kd.toNat + 1)]) ∧
  ((∀ (ka : BitVec 6),
     (∀ (s : Machine.State) (id : Nat) (w : Warp) (sp : Split), Ready s id w sp { blind 4 0 0 with regs := [ka.toNat] } →
       exec (.setperf ka) s =
         .next (issued s id { w with perf := Nat.min (kGet w.k ka.toNat).toNat 7 } (after sp 4 0 0))) ∧
     ∀ (s : Machine.State) (id : Nat) (f : Fet), IssuesFet s id f [ka.toNat] →
       exec (.setperf ka) s = .next (issuedFet (withDev s ((s.dev.teamWarps f.team).foldl (fun d i =>
         d.onWarp i fun w => { w with perf := Nat.min (kGet f.k ka.toNat).toNat 7 }) s.dev)) id f 4)) ∧
   (∀ (kd : BitVec 6) (group : BitVec 16),
     (∀ (s : Machine.State) (id : Nat) (w : Warp) (sp : Split),
       Ready s id w sp { blind 8 0 0 with regs := [kd.toNat, kd.toNat + 1] } →
       exec (.vtag kd group) s = .next (issued s id
         { w with k := kSet64 w.k kd.toNat (groupTag s (s.dev.slotOf w.team) group.toNat) } (after sp 8 0 0))) ∧
     ∀ (s : Machine.State) (id : Nat) (f : Fet), IssuesFet s id f [kd.toNat, kd.toNat + 1] →
       exec (.vtag kd group) s = .next (issuedFet s id
         { f with k := kSet64 f.k kd.toNat (groupTag s (s.dev.slotOf f.team) group.toNat) } 8)) ∧
   ∀ (kdsc : BitVec 6) (ring : BitVec 3) (tag : BitVec 16),
     (∀ (s : Machine.State) (id : Nat) (w : Warp) (sp : Split),
       Ready s id w sp { blind 8 0 0 with regs := [kdsc.toNat, kdsc.toNat + 1] } → cntGet w.cnt 3 < 255 →
       (kGet64 w.k kdsc.toNat).toNat < 2 ^ 57 → (kGet64 w.k kdsc.toNat).toNat % 128 = 0 →
         exec (.coll kdsc ring tag) s = .next (issued
           (collQueued s (.warp id) w.team sp.pc sp.mask (s.dev.warpEarlier id w) (kGet64 w.k kdsc.toNat) ring.toNat tag)
           id { w with cnt := counted w.cnt 3 } (after sp 8 0 0))) ∧
     ∀ (s : Machine.State) (id : Nat) (f : Fet),
       IssuesFet s id f [kdsc.toNat, kdsc.toNat + 1] → cntGet f.cnt 3 < 255 →
       (kGet64 f.k kdsc.toNat).toNat < 2 ^ 57 → (kGet64 f.k kdsc.toNat).toNat % 128 = 0 →
         exec (.coll kdsc ring tag) s = .next (issuedFet
           (collQueued s (.fet id) f.team f.pc 0 (s.dev.earlier (.fet id) 0) (kGet64 f.k kdsc.toNat) ring.toNat tag)
           id { f with cnt := counted f.cnt 3 } 8))

/-- R216, R218, R219, R457: the instructions of a front-end context: a stream, an entry for the ch15 of every warp of the team,
which reaches the warps as it leaves the hold window, and the end. -/
def Obligations.FrontEndResults : Prop :=
  (∀ (ch : BitVec 3) (ka : BitVec 6) (s : Machine.State) (id : Nat) (f : Fet),
    IssuesFet s id f ((List.range 8).map (ka.toNat + ·)) → (kGet f.k (ka.toNat + 7)).toNat < 3 →
    (∀ st ∈ f.streams, st.ch = ch.toNat → st.pending ≠ [] ∧ st.count ≤ st.elem + 1) →
      let g := fun (j : Nat) => kGet f.k (ka.toNat + j)
      let st : Stream := ⟨ch.toNat, g 1 ++ g 0, (g 2).toNat, g 3, g 4, Nat.max (g 5).toNat 1, g 6, (g 7).toNat, 0, [], f.pc,
        s.dev.nextId, []⟩
      exec (.agen ch ka) s = .next (issuedFet (withDev s { s.dev with nextId := s.dev.nextId + 1 }) id
        { f with streams := if g 2 = 0 then f.streams else f.streams ++ [st] } 4)) ∧
  (∀ (ka : BitVec 6) (s : Machine.State) (id : Nat) (f : Fet), IssuesFet s id f [ka.toNat] →
    (∀ i ∈ s.dev.receivers f.team, ∀ w, s.dev.warp? i = some w →
      w.place ≠ .evicted ∧ w.ch15.length + (s.dev.decisions.filter fun e => e.2.team == f.team).length < 16) →
      exec (.dqpush ka) s = .next (issuedFet (withDev s { s.dev with
        nextId := s.dev.nextId + 1
        decisions := Table.set s.dev.decisions s.dev.nextId
          ⟨id, f.team, kGet f.k ka.toNat, s.dev.earlier (.fet id) 0xFFFFFFFF⟩ }) id f 4)) ∧
  (∀ (s : Machine.State) (n : Nat) (e : Decision), OwnName s.dev n → noRequest s.dev n → Table.find? s.dev.arrivals n = none →
    Table.find? s.dev.decisions n = some e →
    List.find? (fun (x : Nat × Decision) => x.2.fet == e.fet) s.dev.decisions = some (n, e) →
    (∀ i ∈ s.dev.receivers e.team, ∀ w, s.dev.warp? i = some w → w.place ≠ .evicted) →
      exec (.holdWindowRelease n) s = .next (withDev s ((s.dev.receivers e.team).foldl (fun d i =>
        d.onWarp i fun w => { w with ch15 := w.ch15 ++ [(e.word, e.deps)] })
        { s.dev with decisions := Table.erase s.dev.decisions n }))) ∧
  ∀ (s : Machine.State) (id : Nat) (f : Fet), IssuesFet s id f [] →
    exec .fetend s = .next (issuedFet s id { f with ended := true } 4)

/-- R203, R387, R389, R393: `brk` and `trap` save the frame and enter the handler, in a warp with nothing in flight
whose handler area is mapped and writable. A split whose wait is over, or that is in a transfer, is saved as ready, which is the
model's reading (notes/assumptions/27.md). -/
def Obligations.TrapInstructionsEnterHandler : Prop :=
  ∀ (i : Instr) (bytes : Nat) (cause : BitVec 8) (code : BitVec 16),
    (∃ b c, i = .brk b c ∧ bytes = 2 ∧ cause = 0x17 ∧ code = BitVec.setWidth 16 c) ∨
      (∃ b, i = .trap b code ∧ bytes = 4 ∧ cause = 0x16) →
    ∀ (s : Machine.State) (id : Nat) (w : Warp) (sp : Split) (l : Launch) (d d' : Dev),
      Ready s id w sp (Need.of bytes false 0 0) → w.handler = none → w.place = .resident → w.posted = [] →
      Quiet s.dev id → s.dev.launchOf w.team = some l →
      let p : Posted := ⟨s.dev.nextId, cause, 0, code, sp.mask, sp.pc, 0, 0, []⟩
      let base := s.dev.handlerBase w.team w.w
      let at_ := withTrap s id p
      let w₁ : Warp := { w with posted := [p] }
      (savedDev at_ id w₁).areaWritable s.host (s.dev.slotOf w.team) w.core base = .ok d →
      d.writeVa s.host (s.dev.slotOf w.team) w.core base (trapFrame (savedWarp at_ id w₁) p []) = .ok d' →
        ∃ t w', exec i s = .next t ∧ t.dev.mem = d'.mem ∧ t.dev.warp? id = some w' ∧
          inHandler w w' (BitVec.ofNat 57 l.record.trapEntry.toNat) base cause

/-- R395, R396: `rte` restores the splits, the join stack and the uniform file from the frame, the stacks from where
they were kept, and leaves handler mode. Each record gives a split: its mask, its PC, its depth (the cells above a lower depth
are discarded, and those up to a higher one hold 0), nothing resident, and its state: states 0, 3 and 4 resume ready; state 1
waits at its `join`, and state 2 at its `wsync`, where the arrival passes its checks again. That a split set aside in a
`bar.sync` (state 3) resumes ready after it, and what an arrival that fails its checks does, are notes/assumptions/42.md. -/
def Obligations.ReturnFromTrap : Prop :=
  ∀ (s : Machine.State) (id : Nat) (w : Warp) (sp : Split) (hd : Handler) (bs : List Byte) (d : Dev),
    Ready s id w sp (Need.of 4 false 0 0) → w.handler = some hd → s.dev.earlier (.warp id) w.live = [] →
    s.dev.readVa s.host (s.dev.slotOf w.team) w.core (s.dev.handlerBase w.team w.w) 0x2D00 = .ok (bs, d) →
    d.frameFault w bs = none →
      let w' := d.restored w hd bs
      exec .rte s = .next (withDev s
        (((Dev.replayAll id w.replay { d.setWarp id w' with issued := true }).settleWarp id).select id)) ∧
      w'.handler = none ∧ w'.posted = hd.held ∧ w'.replay = [] ∧ w'.k = bytesWords (slice bs 608 256) 64 ∧
      w'.kp = BitVec.ofNat 8 (field bs 864 1) ∧ w'.cur = none ∧
      w'.join = (bytesWords (slice bs 544 64) (field bs 25 1)).reverse ∧
      w'.others.length = field bs 24 1 ∧ w'.threads.map Thread.lane = w.threads.map Thread.lane ∧
      ∀ n < field bs 24 1,
        let at_ := fun (m : Nat) => 32 + 16 * m
        let pc := fun (m : Nat) => BitVec.ofNat 57 (field bs (at_ m) 8 + field bs (at_ m + 14) 1)
        let mask := fun (m : Nat) => BitVec.ofNat 32 (field bs (at_ m + 8) 4)
        let depth := fun (m : Nat) => field bs (at_ m + 12) 2
        let state := fun (m : Nat) => field bs (at_ m + 15) 1
        (∀ l, (mask n).getLsbD l = true → ∀ t ∈ w'.threads, t.lane = l →
          let kept := ((hd.saved.find? fun e => e.1 == l).map Prod.snd).getD []
          t.stack.length = depth n ∧ (depth n ≤ kept.length → t.stack = kept.drop (kept.length - depth n)) ∧
            (kept.length < depth n → t.stack = List.replicate (depth n - kept.length) (.full 0) ++ kept)) ∧
        ∃ x ∈ w'.others, x.mask = mask n ∧ x.pc = pc n ∧ x.c = 0 ∧
          (state n = 0 ∨ state n = 3 ∨ state n = 4 → x.state = .ready) ∧
          (state n = 1 → ∀ (b : Bool) (k : BitVec 7) (top : Mask) (rest : List Mask), w'.join = top :: rest →
            d.instrAt (d.slotOf w.team) w.core (pc n) = some (.join b k) →
              x.state = if mask n &&& top = mask n ∧ k.toNat = depth n then .join else .ready) ∧
          (state n = 2 → (x.state = .wsync ∨ x.state = .ready) ∧
            ((∀ m < n, state m = 2 → pc m = pc n → depth m = depth n) → x.state = .wsync))

/-- R331 to R335, R457: the queue instructions. A `qpush` in which no lane takes part completes, after the team's `qeos` too (the
model's reading of R332 and R335, notes/assumptions/31.md); the queue unit handles the others, pushes and pops without an order
between the two, and their buffers are translated as it moves the records (31.md). A `qtry` does not wait: its split goes on
with empty status cells, which the queue unit fills. -/
def Obligations.QueueInstructionResults : Prop :=
  ∀ (b : Bool) (port : BitVec 2) (s : Machine.State) (id : Nat) (w : Warp) (sp : Split) (launch q : Nat),
    let ls := takingPart w sp
    let n := (s.dev.queue launch q).recBytes
    (s.dev.portQueue w.team port.toNat true = some (launch, q) →
      (Ready s id w sp (Need.of 4 b 3 0) →
        (ls = [] → exec (.qpush b port) s =
          .next (issued s id (w.onLanes sp.mask fun t => { t with stack := t.stack.drop 3 }) (after sp 4 3 0))) ∧
        (ls ≠ [] → buffersGood s w ls n → s.dev.pushClosed w.team launch q = false →
          exec (.qpush b port) s = .next (withDev s (requested s launch q id w sp true ls)))) ∧
      (Ready s id w sp (Need.of 4 false 0 0) →
        exec (.qeos b port) s = .next (withDev s (((issued s id w (after sp 4 0 0)).dev.onTeam w.team fun t =>
          { t with eos := if q ∈ t.eos then t.eos else t.eos ++ [q] }).settle s.host)))) ∧
    (s.dev.portQueue w.team port.toNat false = some (launch, q) → Ready s id w sp (Need.of 4 b 3 1) → buffersGood s w ls n →
      let handed := ((s.dev.team? w.team).map fun t => t.marks.contains q).getD false
      (∀ i, i = .qpop b port ∨ i = .qtry b port →
        (handed = true → exec i s = .next (issued s id (answered w sp fun _ => .full 2) (after sp 4 3 1))) ∧
        (handed = false → ls = [] → exec i s = .next (issued s id (answered w sp fun _ => .full 4) (after sp 4 3 1)))) ∧
      (handed = false → ls ≠ [] →
        exec (.qpop b port) s = .next (withDev s (requested s launch q id w sp false ls)) ∧
        exec (.qtry b port) s = .next (withDev s ((issued
          (withDev s ({ s.dev with nextId := s.dev.nextId + 1 }.onQueue launch q fun u => { u with requests := u.requests ++
            [(⟨s.dev.nextId, id, false, ls, s.dev.bufferWaits id w ls n, s.dev.warpEarlier id w, some (sp.mask, sp.pc), true⟩ :
              QueueRequest)] }))
          id (answered w sp fun _ => .empty s.dev.nextId) (after sp 4 3 1)).dev.mark id
            ⟨maskOf (ls.map Prod.fst), [s.dev.nextId], 0, []⟩))))

/-- R107, R108, R111: the commands that steer their stream, where what they read or write can be reached; and an open
WAIT, which reads its value again and ends where its condition holds. -/
def Obligations.StreamControlResults : Prop :=
  (∀ (s : Machine.State) (slot n : Nat) (st : CmdStream) (tag : BitVec 32), IssuesCommand s slot n st →
    exec (.phase tag) s =
      .next (withDev s ((past s.host s.dev slot n 1).onStream slot n fun x => { x with phase := true })) ∧
    exec (.fenceCommand tag) s = .next (withDev s (past s.host s.dev slot n 1)) ∧
    (∀ (count : BitVec 32), st.loops.length < 4 →
      (count ≠ 0 → exec (.loop tag count) s = .next (withDev s ((past s.host s.dev slot n 2).onStream slot n fun x =>
        { x with loops := (st.rd + 2, count.toNat) :: x.loops }))) ∧
      ∀ word, s.dev.loopEnd s.host slot st (st.wr - st.rd) (st.rd + 2) 0 = .ok (some word) →
        exec (.loop tag 0) s = .next (withDev s (s.dev.jumpTo s.host slot n word))) ∧
    (∀ (word passes : Nat) (rest : List (Nat × Nat)), st.loops = (word, passes) :: rest →
      exec (.endloop tag) s = .next (withDev s
        (if 2 ≤ passes then
          (s.dev.jumpTo s.host slot n word).onStream slot n fun x => { x with loops := (word, passes - 1) :: rest }
        else (past s.host s.dev slot n 1).onStream slot n fun x => { x with loops := rest }))) ∧
    (∀ (va : BitVec 64) (v : Nat) (d : Dev), s.dev.readValue s.host slot (processorCore slot) va.toNat 8 = .ok (v, d) →
      (∀ (eqz : Bool) (skip : BitVec 32), exec (.ifSkip tag eqz va skip) s =
        .next (withDev s (d.jumpTo s.host slot n (st.rd + 3 + if (v == 0) = eqz then 0 else skip.toNat)))) ∧
      ∀ (eq : Bool) (x : BitVec 64), exec (.wait tag eq va x) s = .next (withDev s
        (if (if eq then v = x.toNat else x.toNat ≤ v) then past s.host d slot n 3
        else (past s.host d slot n 3).onStream slot n fun y => { y with waiting := some (tag, eq, va, x) }))) ∧
    ∀ (irq : Bool) (va v : BitVec 64) (d : Dev),
      s.dev.writeVa s.host slot (processorCore slot) va.toNat (leBytes 8 v.toNat) = .ok d →
        exec (.signal tag irq va v) s = .next (withDev s
          (if irq then (past s.host d slot n 3).interrupt s.host slot else past s.host d slot n 3))) ∧
  ∀ (s : Machine.State) (slot n : Nat) (tag : BitVec 32) (eq : Bool) (va x : Dword) (v : Nat) (d : Dev),
    ((s.dev.context slot).stream n).waiting = some (tag, eq, va, x) →
    s.dev.readValue s.host slot (processorCore slot) va.toNat 8 = .ok (v, d) →
      exec (.waitPoll slot n) s = .next (withDev s
        (if (if eq then v = x.toNat else x.toNat ≤ v) then d.onStream slot n fun y => { y with waiting := none } else d))

/-- R107 to R110, R113: the commands that start work, and the parts of a graph. While a graph is open, the stored rd_ptr stands at
its GRAPH, which is the model's reading (notes/assumptions/20.md). -/
def Obligations.WorkCommandResults : Prop :=
  (∀ (i : Instr) (tag : BitVec 32) (words opcode : Nat) (cmd : NodeCommand), nodeForm i = some (tag, words, opcode, cmd) →
    ∀ (s : Machine.State) (slot n : Nat) (st : CmdStream) (d : Dev), IssuesCommand s slot n st →
      s.dev.workCancelled slot = false →
      (withNode s slot n st tag opcode cmd).startWork s.host slot s.dev.nextId 0 [] cmd = .ok d →
        exec i s = .next (withDev s ((past s.host d slot n words).settle s.host))) ∧
  (∀ (s : Machine.State) (slot n : Nat) (st : CmdStream) (tag : BitVec 32) (nodes edges : BitVec 16),
    IssuesCommand s slot n st → nodes ≠ 0 → nodes.toNat ≤ 4096 → edges.toNat ≤ 16384 →
      exec (.graph tag nodes edges) s = .next (withDev s
        ({ s.dev with issued := true }.onStream slot n fun x =>
          { x with rd := st.rd + 2, building := some ⟨tag, st.rd, nodes.toNat, edges.toNat, [], []⟩ }))) ∧
  ∀ (s : Machine.State) (slot n : Nat) (tag : BitVec 32) (b : Building), s.dev.issuer = .stream slot n →
    ((s.dev.context slot).stream n).building = some b →
    (∀ (index : BitVec 16) (cmd : NodeCommand), index.toNat < b.nodes → (∀ e ∈ b.gotNodes, e.1 ≠ index.toNat) →
      let rd := ((s.dev.context slot).stream n).rd
      let b' : Building := { b with gotNodes := b.gotNodes ++ [(index.toNat, ⟨tag, rd, cmd, 0, [], .waiting, []⟩)] }
      exec (.node tag index cmd) s = .next (withDev s (({ s.dev with issued := true }.onStream slot n fun x =>
        { x with rd := rd + commandWords (.node tag index cmd), building := some b' }).closeGraph s.host slot n b'))) ∧
    ∀ (src dst : BitVec 16), b.nodes ≤ b.gotNodes.length → src.toNat < b.nodes → dst.toNat < b.nodes → src ≠ dst →
      (src.toNat, dst.toNat) ∉ b.gotEdges →
        let rd := ((s.dev.context slot).stream n).rd
        let b' : Building := { b with gotEdges := b.gotEdges ++ [(src.toNat, dst.toNat)] }
        exec (.edge tag src dst) s = .next (withDev s (({ s.dev with issued := true }.onStream slot n fun x =>
          { x with rd := rd + 2, building := some b' }).closeGraph s.host slot n b'))

/-- R107, R112, R248, R365, R375: CANCEL, SEAL, CODE_LOAD and CODE_UNLOAD. -/
def Obligations.ContextCommandResults : Prop :=
  ∀ (s : Machine.State) (slot n : Nat) (st : CmdStream) (tag : BitVec 32), IssuesCommand s slot n st →
    (∀ (unit : BitVec 3) (team : BitVec 32), unit.toNat ≤ 4 → (unit = 0 ∨ team = 0) →
      exec (.cancel tag unit team) s = .next (withDev s
        (((past s.host s.dev slot n 2).cancelUnits s.host slot tag unit.toNat team.toNat).settle s.host))) ∧
    (∀ (undo : Bool) (base len : BitVec 64),
      let r : SealRequest := ⟨base.toNat, len.toNat, undo, .stream slot n, 0, tag, st.rd, []⟩
      let d := past s.host s.dev slot n 3
      r.verdict s.host (s.dev.context slot) = 0 →
        exec (.sealCommand tag undo base len) s =
          .next (withDev s { d with nextId := d.nextId + 1, seals := Table.set d.seals d.nextId r })) ∧
    (∀ (image bytes report : BitVec 64) (bs : List Byte) (d d2 d3 d4 : Dev) (x : DxoHeader) (ss : List Section)
      (digest : Nat) (t : KernelText) (handle : Nat) (o : CodeObject),
      (past s.host s.dev slot n 4).readVa s.host slot (processorCore slot) image.toNat bytes.toNat = .ok (bs, d) →
      d.checkImage s.host bs = .ok (x, ss, digest, t, d2) →
      d2.placeImage s.host slot x digest t ((sectionOf bs ss 3).getD []) = some (handle, o, d3) →
      d3.writeVa s.host slot (processorCore slot) report.toNat (loadReport handle o) = .ok d4 →
        exec (.codeLoad tag image bytes report) s = .next (withDev s d4)) ∧
    ∀ (forced : Bool) (handle : BitVec 64),
      let d := past s.host s.dev slot n 2
      (Table.find? d.code handle.toNat = none → exec (.codeUnload tag forced handle) s = .next (withDev s d)) ∧
      ∀ o, Table.find? d.code handle.toNat = some o →
        (∀ e ∈ d.contexts, d.references e.1 handle.toNat o = false) →
          exec (.codeUnload tag forced handle) s = .next (withDev s (d.removeObject handle.toNat o))

/-- R110, R113, R114, R462, R463: a node whose predecessors are complete starts; a launch whose record is good enters the
table of launches with no team placed, after its snapshots where it may be rolled back; and a launch that has failed is
rolled back once, and starts again without the teams that a CANCEL has named. The severity and the width of the record that
reports a rollback are presumed (notes/assumptions/16.md), and that the replay keeps the list of relaunched teams is the model's
reading (35.md). -/
def Obligations.LaunchResults : Prop :=
  (∀ (s : Machine.State) (slot graph index : Nat) (g : Graph) (x : Node) (d : Dev),
    Table.find? s.dev.graphs graph = some g → g.nodes[index]? = some x → s.dev.nodeReady s.host slot graph g x = true →
    (s.dev.setGraph graph { g with nodes := changeAt g.nodes index fun y => { y with state := .running } }).startWork
      s.host slot graph index x.dropped x.cmd = .ok d →
      exec (.nodeStart slot graph index) s = .next (withDev s (d.settle s.host))) ∧
  (∀ (h : HostPart) (d d₁ d₂ : Dev) (slot graph node : Nat) (record : Dword) (grid : Option Dword) (r : LaunchRecord)
    (ss : Option StageSet), d.readRecord h slot record grid = .ok (r, ss, d₁) →
    (r.rollback = true → d₁.takeSnapshots h slot = .ok d₂) → (r.rollback = false → d₂ = d₁) →
      ∃ d', d.startLaunch h slot graph node [] record grid = .ok d' ∧
        d'.launch? d₂.nextId = some ⟨slot, graph, node, r, r.handle.toNat, 0, [], [], ss, false, false, 0, false, false⟩ ∧
        recordAllowed h r = true ∧ d'.teams = d₂.teams) ∧
  ∀ (s : Machine.State) (launch : Nat) (l : Launch) (g : Graph) (x : Node) (r : LaunchRecord) (ss : Option StageSet) (d : Dev),
    s.dev.launch? launch = some l → Table.find? s.dev.graphs l.graph = some g → g.nodes[l.node]? = some x →
    l.record.rollback = true → l.rolled = false → l.complete = false → l.cancelled = false → l.cause = 0x19 →
    s.dev.launchHalted launch = true → s.dev.imagesPoisoned s.host l.slot = false →
    rereadRecord s.host (unrolled s.host s.dev launch l x) l.slot x.cmd = .ok (r, ss, d) →
      exec (.rollback launch) s = .next (withDev s
        ((withoutTeams (d.setLaunch launch
            ⟨l.slot, l.graph, l.node, r, r.handle.toNat, 0, [], l.relaunched, ss, false, false, 0, true, false⟩) launch x.dropped).settle
          s.host))

/-- R222, R230, R236, R243, R245: an access performs at its home in one step: the bytes that it covers hold what it
stores, every other byte is as it was, and what it returns is kept for its fill. -/
def Obligations.AccessesPerform : Prop :=
  (∀ (s : Machine.State) (id pa : Nat) (a : Access), memory s → Performs s id a pa →
    let v := leValue (Memory.readBytes s.dev.mem pa a.bytes)
    ∃ d : Dev, exec (.homeAccess id) s = .next (withDev s (d.settle s.host)) ∧
      (∀ x, x < pa ∨ pa + a.bytes ≤ x → Memory.read d.mem x = Memory.read s.dev.mem x) ∧
      (∀ i < a.bytes, Memory.read d.mem (pa + i) = BitVec.ofNat 8 ((stored a v).getD v / 256 ^ i)) ∧
      (a.tickets ≠ [] ∨ a.regs ≠ [] → ∃ b, Table.find? d.accesses id = some b ∧ b.result = some (returned a v) ∧
        b.tickets = a.tickets ∧ b.regs = a.regs) ∧
      (∀ n, (d.warp? n).map (fun w => { w with observed := [] }) = (s.dev.warp? n).map fun w => { w with observed := [] }) ∧
      d.contexts = s.dev.contexts ∧ d.teams = s.dev.teams ∧ d.launches = s.dev.launches) ∧
  ∀ (s : Machine.State) (id : Nat) (a : Access), Table.find? s.dev.accesses id = some a →
    exec (.holdWindowRelease id) s = .next (withDev s (s.dev.setAccess id { a with held := false }))

/-- R51, R52, R55, R57, R212: an access that has performed, and whose acquires wait for nothing more, fills the cells and registers
that wait for it; the oldest request of a spill engine completes, for its lanes that are live, once the cells that it spills are
full and the forwarding table has room: it enters the words of its lanes for each position of their stacks, the deepest first,
whose line is that position's in the warp's backing stacks, or in those of the handler area; and the oldest forwarding entry's
words are in the slice when its write is done. -/
def Obligations.FillResults : Prop :=
  (∀ (s : Machine.State) (id : Nat) (a : Access) (vs : List Word), Table.find? s.dev.accesses id = some a →
     a.result = some vs → a.cause = 0 → s.dev.allPerformed a.waits = true →
     (∀ (n : Nat) (w : Warp), a.party = .warp n → s.dev.warp? n = some w →
       ∃ (d : Dev) (w' : Warp), exec (.loadFill id) s = .next (withDev s (d.settle s.host)) ∧
         d = { s.dev with accesses := Table.erase s.dev.accesses id, warps := Table.set s.dev.warps n w' } ∧
         w'.threads = w.threads.map (fun t => { t with stack := t.stack.map (filled a vs) }) ∧
         ((a.parts a.regs vs).length ≤ 1 → w'.k = regFilled w.k w.kld id (a.parts a.regs vs)) ∧
         w' = { w with threads := w'.threads, handler := w'.handler, k := w'.k, kld := w'.kld }) ∧
     ∀ (n : Nat) (f : Fet), a.party = .fet n → Table.find? s.dev.fets n = some f → (a.parts a.regs vs).length ≤ 1 →
       ∃ (d : Dev) (f' : Fet), exec (.loadFill id) s = .next (withDev s (d.settle s.host)) ∧
         d = { s.dev with accesses := Table.erase s.dev.accesses id, fets := Table.set s.dev.fets n f' } ∧
         f'.k = regFilled f.k f.kld id (a.parts a.regs vs) ∧ f' = { f with k := f'.k, kld := f'.kld }) ∧
  (∀ (s : Machine.State) (core lb : Nat),
     let b := (s.dev.core core).lb lb
     (∀ (t : Transfer) (rest : List Transfer) (w : Warp), b.transfers = t :: rest → s.dev.warp? t.warp = some w →
       let lanes := t.lanes &&& w.live
       let depth := (((w.threadsOf lanes).head?).map fun x => x.stack.length).getD 0
       let ended := s.dev.onLb core lb fun b => { b with transfers := rest }
       let moved := w.onSplits fun u =>
         if u.mask &&& lanes = 0 then u else { u with c := if t.c < t.was then Nat.min u.c t.c else t.c }
       (t.was ≤ t.c → w.handler = none → (∀ r ∈ s.dev.refillWords t.warp w lanes t.was t.c, s.dev.poisoned r.2.2 4 = false) →
         exec (.spillRefillComplete core lb) s = .next (withDev s (ended.setWarp t.warp moved))) ∧
       (t.c < t.was → b.forwards.length + (t.was - t.c) ≤ 16 →
         (∀ x ∈ w.threadsOf lanes, ∀ c ∈ (x.stack.take t.was).drop t.c, c.ticket? = none) →
           ∃ fs : List Forward, exec (.spillRefillComplete core lb) s = .next (withDev s
               ((ended.onLb core lb fun b => { b with forwards := b.forwards ++ fs }).setWarp t.warp moved)) ∧
             fs.length = t.was - t.c ∧ ∀ i < t.was - t.c, ∃ f, fs[i]? = some f ∧ f.warp = t.warp ∧
               f.due = s.dev.clockOf core + 12 ∧ f.mapped = w.handler.isSome ∧
               f.line = (if w.handler.isSome then 0x3000 else w.stackBase) + 128 * (depth - t.was + i) ∧
               ((w.threads.map Thread.lane).Nodup → ∀ x ∈ w.threadsOf lanes,
                 (f.lanes.getLsbD x.lane = true ↔ ∃ v, x.stack.reverse[depth - t.was + i]? = some (.full v)) ∧
                 ∀ v, x.stack.reverse[depth - t.was + i]? = some (.full v) → f.words[x.lane]? = some v))) ∧
     ∀ (f : Forward) (fs : List Forward), b.forwards = f :: fs → f.due ≤ s.dev.clockOf core →
       exec (.forwardingEntryFreed core lb) s = .next (withDev s ((Dev.retire core s.dev f).onLb core lb fun b =>
         { b with forwards := fs })) ∧
       (memory s → f.mapped = false →
         let line := slicePa core + f.line
         (∀ l ∈ lanesOf f.lanes, leValue (Memory.readBytes (Dev.retire core s.dev f).mem (line + 4 * l) 4) =
           (f.words.getD l 0).toNat) ∧
         ∀ a, (∀ l ∈ lanesOf f.lanes, a < line + 4 * l ∨ line + 4 * l + 4 ≤ a) →
           Memory.read (Dev.retire core s.dev f).mem a = Memory.read s.dev.mem a))

/-- R76, R77, R80, R205, R397, R424, R429: a walk that succeeds gives its access the physical address, and one that fails parks the
lane, until the memory manager serves the access or the warp traps; a demand fill takes the least recently used segment that
it may (whose FAULT bit it clears too, the model's reading, notes/assumptions/47.md), and a fill that lands makes its segment VALID, or FREE with FAULT where its page cannot be executed. -/
def Obligations.PageResults : Prop :=
  (∀ (s : Machine.State) (id : Nat) (a : Access), Table.find? s.dev.accesses id = some a → a.pa = none → a.cause = 0 →
     let core := s.dev.partyCore a.party
     (a.parked = false → s.dev.walkPoisoned a.slot (dieOf core) a.va.toNat = false →
       (∀ pa d, s.dev.translate a.slot core a.va.toNat a.want = .ok (pa, d) →
         exec (.pageWalk id) s = .next (withDev s (d.setAccess id { a with pa := some pa }))) ∧
       ∀ (code n : Nat) (w : Warp), s.dev.translate a.slot core a.va.toNat a.want = .error code → a.party = .warp n →
         s.dev.warp? n = some w → w.handler = none →
           exec (.pageWalk id) s = .next (withDev s
             { s.dev.walked a.slot core a.va.toNat a.want with
               accesses := Table.set s.dev.accesses id { a with parked := true }
               warps := Table.set s.dev.warps n (w.park a.lane (s.dev.parkedMates a ||| laneBit a.lane)) })) ∧
     (a.parked = true → a.served = false → a.lane < 32 → s.dev.servedAfter a = false →
       (∀ pa d n, s.dev.reach s.host a.slot core a.va.toNat a.want = (Except.ok pa, d) → a.party = .warp n →
         d.away a.party = false →
           ∃ t, exec (.pageService id) s = .next t ∧
             t.dev.accesses = Table.set d.accesses id { a with pa := some pa, parked := false, served := false } ∧
             t.dev.mem = d.mem ∧ ∀ w, d.warp? n = some w → w.join = [] → (∀ x ∈ w.splits, x.state ≠ .wsync) →
               ∃ w', t.dev.warp? n = some w' ∧ w'.threads = w.threads ∧ w'.splits = w.splits.map fun x =>
                 if x.mask.getLsbD a.lane = true ∧
                     ¬∃ l ∈ lanesOf x.mask, ∃ e ∈ t.dev.accesses, e.2.party = .warp n ∧ e.2.lane = l ∧ e.2.parked = true then
                   { x with state := match x.state with
                     | .parked => .ready
                     | .parkedAt bar => .barrier bar
                     | st => st }
                 else x) ∧
       ∀ (code n : Nat) (va : Nat) (d : Dev) (w : Warp),
         s.dev.reach s.host a.slot core a.va.toNat a.want = (Except.error (.fault code va), d) →
         a.party = .warp n → d.warp? n = some w → w.threads ≠ [] → (∀ p ∈ w.posted, p.stamp ≠ a.stamp) →
           exec (.pageService id) s = .next (withDev s
             { d with
               accesses := Table.set d.accesses id { a with cause := 0x0D, served := true }
               warps := Table.set d.warps n { w with posted := w.posted ++
                 [⟨a.stamp, if w.handler.isSome then 0x0C else 0x0D, 0, 0, laneBit a.lane, a.pc, a.ea, 0, []⟩] } }))) ∧
  (∀ (s : Machine.State) (core : Nat),
     (∀ (slot n : Nat) (page : BitVec 45), s.dev.codeWanted core slot page.toNat = true →
       (s.dev.core core).missed slot page.toNat = false →
       (∀ e ∈ (s.dev.core core).segments, e.2.slot = slot → e.2.page = page.toNat → e.2.state = .free) →
       s.dev.victim core = some n →
         exec (.demandFill core slot page) s = .next (withDev s (s.dev.onCore core fun c =>
           c.onSegment n fun g => ⟨.filling, slot, page.toNat, 0, false, g.used, true, none⟩)) ∧
         s.dev.takeable core n = true ∧
         ∀ m < 48, s.dev.takeable core m = true → ((s.dev.core core).segment n).used ≤ ((s.dev.core core).segment m).used) ∧
     ∀ (n : Nat), ((s.dev.core core).segment n).state = .filling → ((s.dev.core core).segment n).held = none →
       let g := (s.dev.core core).segment n
       (∀ pa d, s.dev.reach s.host g.slot core (g.page * 4096) .exec = (Except.ok pa, d) →
         exec (.codeFillLands core n) s = .next (withDev s (d.onCore core fun c =>
           c.onSegment n fun g => { g with state := .valid, pa := pa, used := d.clockOf core }))) ∧
       ∀ code va d, s.dev.reach s.host g.slot core (g.page * 4096) .exec = (Except.error (.fault code va), d) → g.demand = false →
         exec (.codeFillLands core n) s = .next (withDev s (d.onCore core fun c =>
           c.onSegment n fun g => { g with state := .free, fault := true })))

/-- R72, R74, R248: a request for a seal or an unseal is decided once all that it comes after has performed: the region
joins or leaves the table of sealed regions, and the status, which is refused for a bad range, a full table, an
overlap or no such region, fills the warp's cells. -/
def Obligations.SealResults : Prop :=
  ∀ (s : Machine.State) (id n : Nat) (r : SealRequest) (w : Warp), Table.find? s.dev.seals id = some r →
    r.party = .warp n → s.dev.warp? n = some w →
    let slot := s.dev.slotOf w.team
    let c := s.dev.context slot
    let good := s.host.featActive.getLsbD 6 = true ∧ r.base % 2 ^ 16 = 0 ∧ r.bytes % 2 ^ 16 = 0 ∧ 2 ^ 16 ≤ r.bytes ∧
      r.bytes ≤ 2 ^ 32 ∧ r.base + r.bytes ≤ 2 ^ 57
    let meets := ∃ e ∈ c.sealed_, e.1 < r.base + r.bytes ∧ r.base < e.1 + e.2
    let answered := fun (d : Dev) (status : Word) =>
      withDev s ({ d with
        seals := Table.erase s.dev.seals id
        warps := Table.set s.dev.warps n (w.fill r.ticket status) }.settle s.host)
    (r.undo = false →
      (¬good → exec (.sealTakesEffect id) s = .next (answered s.dev 3)) ∧
      (good → 64 ≤ c.sealed_.length → exec (.sealTakesEffect id) s = .next (answered s.dev 1)) ∧
      (good → c.sealed_.length < 64 → meets → exec (.sealTakesEffect id) s = .next (answered s.dev 2)) ∧
      (good → c.sealed_.length < 64 → ¬meets → s.dev.allPerformed (s.dev.sealWaits r) = true →
        s.dev.halfStored slot r.base r.bytes = false →
        exec (.sealTakesEffect id) s = .next (answered
          (s.dev.onContext slot fun c => { c with sealed_ := c.sealed_ ++ [(r.base, r.bytes)] }) 0))) ∧
    (r.undo = true →
      (¬good → exec (.unsealComplete id) s = .next (answered s.dev 3)) ∧
      (good → (r.base, r.bytes) ∉ c.sealed_ → exec (.unsealComplete id) s = .next (answered s.dev 4)) ∧
      (good → (r.base, r.bytes) ∈ c.sealed_ → s.dev.allPerformed (s.dev.sealWaits r) = true →
        exec (.unsealComplete id) s = .next (answered
          ((s.dev.dropReplicas slot r.base r.bytes).onContext slot fun c =>
            { c with sealed_ := c.sealed_.erase (r.base, r.bytes) }) 0)))

/-- R31, R42, R217, R250, R251: waits that end: a stalled context goes on, a selection that is due is made, a `trywait`
whose bound has passed pushes its flag, a stream reads its next element for every live thread and, as a front-end cycle ends,
sends them their entries where all have room, and the oldest complete operation of a class lowers its counter, that of an
evicted warp in its record too. -/
def Obligations.WaitsEnd : Prop :=
  (∀ (s : Machine.State) (id : Nat) (f : Fet) (r : Wait), Table.find? s.dev.fets id = some f → f.stalled = some r →
    s.dev.fetResolved f r = true →
      exec (.fetResume id) s = .next (withDev s (s.dev.setFet id { f with stalled := none }))) ∧
  (∀ (s : Machine.State) (id : Nat) (w : Warp), s.dev.warp? id = some w → w.place = .resident → w.cur = none →
    (∃ x ∈ w.others, (s.dev.wake id w x).state = .ready) →
    (s.dev.team? w.team).any Team.held = false →
    (∀ e ∈ s.dev.accesses, e.2.party = .warp id → e.2.parked = false) →
      let r := s.dev.selected id w
      exec (.splitSelection id) s = .next (withDev s ((s.dev.setWarp id r.1).addTransfers r.1 r.2))) ∧
  (∀ (s : Machine.State) (id cls n : Nat) (w : Warp) (sp : Split), s.dev.warp? id = some w → w.others = [sp] →
    sp.state = .trywait cls n 0 → w.posted = [] →
      exec (.trywaitTimeout id) s = .next (withDev s (s.dev.setWarp id
        { onStacks w sp (fun st => .full (flag (decide (cntGet w.cnt cls ≤ n))) :: st.drop 1) with
          others := [{ after sp 4 1 1 with state := .ready }] }))) ∧
  (∀ (s : Machine.State) (id ch : Nat) (f : Fet) (st : Stream),
    Table.find? s.dev.fets id = some f → f.streams.find? (fun x => x.ch == ch) = some st → s.dev.teamThreads f.team ≠ [] →
    (∀ (rs : List (Nat × Nat × List Word)) (d : Dev), st.pending = [] → s.dev.streamBehind id st = false →
      Dev.streamReads s.host (s.dev.slotOf f.team) f.core st (s.dev.teamThreads f.team) s.dev = .ok (rs, d) →
        exec (.agenStreamRead id ch) s = .next (withDev s (d.onFet id fun f =>
          { f with streams := streamAt ch (fun x => some { x with pending := rs }) f.streams })) ∧
        (st.mode = 2 → d = s.dev ∧ rs = (s.dev.teamThreads f.team).map fun t =>
          let a := BitVec.ofInt 64 ((st.base.toNat : Int) + (32 * t.2.1 + t.2.2 : Nat) * st.ts.toInt +
            (st.elem % st.ic : Nat) * st.is.toInt + (st.elem / st.ic : Nat) * st.os.toInt)
          (t.1, t.2.2, [a.extractLsb' 0 32, a.extractLsb' 32 32]))) ∧
    (st.pending ≠ [] → s.dev.streamRoom f.team ch = true →
      let sent := st.pending.filter fun r => (s.dev.teamThreads f.team).any fun t => t.1 == r.1 && t.2.2 == r.2.1
      let left := sent.map fun (r : Nat × Nat × List Word) => (r.1, r.2.1, r.2.2.drop 1)
      s.dev.sendStream id ch =
        (sent.foldl (fun (d : Dev) (r : Nat × Nat × List Word) => d.onWarp r.1 fun w => w.onLanes (laneBit r.2.1) fun t =>
          { t with ch := sendChannel t.ch ch (r.2.2.take 1) }) s.dev).onFet id fun f =>
            { f with streams := streamAt ch (fun x =>
                if ∃ r ∈ left, r.2.2 ≠ [] then some { x with pending := left }
                else if x.elem + 1 < x.count then some { x with pending := [], elem := x.elem + 1 }
                else none) f.streams })) ∧
  ∀ (s : Machine.State) (id n : Nat) (o : EngineOp) (w : Warp), Table.find? s.dev.ops id = some o → o.done = true →
    (∀ e ∈ s.dev.ops, e.1 ≠ id → e.2.party = o.party → e.2.cls = o.cls → o.stamp < e.2.stamp) →
    o.party = .warp n → s.dev.warp? n = some w → (∀ x ∈ w.others, ∀ c m l, x.state ≠ .trywait c m l) →
      let w' := { w with cnt := putAt 0 w.cnt o.cls (cntGet w.cnt o.cls - 1), flags := w.flags ||| o.flags }
      let d := fun (w' : Warp) => { s.dev with ops := Table.erase s.dev.ops id, warps := Table.set s.dev.warps n w' }
      (o.faults = [] → exec (.decrementDelivery id) s = .next (withDev s (((d w').patchRecord n o.cls).settle s.host))) ∧
      (w.place = .resident → (d w').patchRecord n o.cls = d w') ∧
      ∀ f, o.faults = [f] → w.place = .resident → w.threads ≠ [] → w.handler = none → (∀ p ∈ w.posted, p.stamp ≠ o.stamp) →
        exec (.decrementDelivery id) s = .next (withDev s ((d { w' with posted := w.posted ++
          [⟨o.stamp, f.cause, 0, 0, o.lanes, o.pc, 0, 0, f.erec⟩] }).settle s.host))

/-- R387, R393, R399, R400, R408, R432, R440: a trap that waits for its warp is taken; a split that is as old as the
warp's limit, and a warp whose splits can never go on, trap; a barrier phase that is too old ends its context. The frames are
those of notes/assumptions/27.md, and the severity and the source of the record that reports the timeout are presumed (16.md). -/
def Obligations.TrapsAreDelivered : Prop :=
  (∀ (s : Machine.State) (id : Nat) (w : Warp) (p : Posted) (d : Dev), Enters s.host s.dev id w p d →
    (∃ t, exec (.trapDelivery id) s = .next t ∧ entered s.dev id w p d t) ∧
    (p.erec ≠ [] → ∃ t, exec (.engineFaultTrap id) s = .next t ∧ entered s.dev id w p d t)) ∧
  (∀ (s : Machine.State) (id : Nat) (w : Warp) (x : Split) (xs : List Split) (d : Dev), s.dev.warp? id = some w →
    w.posted = [] →
    (w.vlimit ≠ 0 → sortSplits (w.splits.filter fun x => decide (w.vlimit.toNat ≤ x.age) &&
        let st := (s.dev.wake id w x).state
        st == .ready || st == .join || st == .wsync) = x :: xs →
      let p := postedNow s 0x11 (unionMask (x :: xs)) x.pc
      Enters s.host (withTrap s id p) id { w with posted := [p] } p d →
        ∃ t, exec (.progressStall id) s = .next t ∧ entered s.dev id w p d t) ∧
    (w.place = .resident → s.dev.channelsDead id w = true →
      (sortSplits (w.splits.map (s.dev.wake id w))).filter (fun y => !y.blockedOn.isEmpty) = x :: xs →
      let p := postedNow s 0x0F (unionMask (x :: xs)) x.pc
      Enters s.host (withTrap s id p) id { w with posted := [p] } p d →
        ∃ t, exec (.channelEmpty id) s = .next t ∧ entered s.dev id w p d t)) ∧
  ∀ (s : Machine.State) (team bar : Nat) (t : Team) (l : Launch) (d : Dev), s.dev.team? team = some t →
    s.dev.launchOf team = some l → (t.bars.getD bar Barrier.reset).arrived ≠ 0 → 2 ^ 28 ≤ (t.bars.getD bar Barrier.reset).age →
    (∀ c ∈ t.cores, s.dev.laneBusy c = false) →
    let record := s.dev.barrierRecord team t l bar (t.bars.getD bar Barrier.reset)
    s.dev.writeVa s.host l.slot t.core (s.dev.handlerBase team 0 + 0x7D40) record = .ok d →
      exec (.barrierTimeout team bar) s = .next (withDev s
        (((d.terminate s.host l.slot 0x10).report 0x07 3 l.slot t.core record).settle s.host)) ∧
      record.length = 64 ∧ field record 0 1 = 0x10 ∧ field record 1 1 = bar % 256 ∧
      field record 4 2 = (t.bars.getD bar Barrier.reset).expected % 2 ^ 16 ∧
      field record 6 2 = (t.bars.getD bar Barrier.reset).arrived % 2 ^ 16

/-- R267, R270, R273, R288, R292, R293, R295, R296: the matrix engine: an array phase reads A and multiplies, and ends; a
drain begins with its program checked, and runs it on one element at a time; `bswap` exchanges banks; and an operation
whose effect has come about retires. That A is read and multiplied as the array phase begins, and that `bload`, `dload` and `mclr`
act as they retire, is notes/assumptions/15.md; that an element's program runs in one step, and its stores in another, is 29.md. -/
def Obligations.MatrixEngineResults : Prop :=
  ∀ (s : Machine.State) (core : Nat) (o : MatrixOp),
    let engine := (s.dev.core core).engine
    (∀ (a : Dword) (tile prog aslot bslot oslot : Nat) (back pair acc cplx naz dc : Bool) (base : Dword) (g h : Word)
      (rows : Nat) (payload exps : List Byte) (d : Dev),
      o.work = .mma a tile prog aslot bslot oslot back pair acc cplx naz dc base g h rows →
      engine.find? (fun o => o.inArray && o.phase == .queued) = some o → s.dev.engineReady core o = true →
      let f : MmaForm := ⟨tile, s.dev.opSlot o aslot, s.dev.opSlot o bslot, back, acc, cplx, naz, rows⟩
      s.dev.readA s.host o.slot core a f = .ok ((payload, exps), d) →
      (∀ j ∈ opCores core pair, d.multiplyPoisoned j f = false) →
        exec (.arrayPhase core) s = .next (withDev s
          (((opCores core pair).foldl (fun d j => d.multiplyOn j f payload exps) d).setPhase core o.op .array))) ∧
    (engine.find? (fun o => o.phase == .array) = some o →
      exec (.arrayPhaseEnd core) s = .next (withDev s
        (s.dev.setPhase core o.op (if o.drains then .arrayEnded else .finished)))) ∧
    (∀ (macros : BitVec 4) (pair : Bool), o.work = .bswap macros pair →
      engine.find? (fun o => match o.work with
        | .bswap _ _ => true
        | _ => false) = some o → s.dev.engineReady core o = true →
        exec (.bswapTakesEffect core) s = .next (withDev s
          (((opCores core pair).foldl (fun d j => d.onMatrix j fun m => { m with roles := m.roles ^^^ macros }) s.dev).retireOp
            s.host core o.op))) ∧
    (∀ (f : DrainForm) (prog rows : Nat),
      engine.find? (fun o => o.drains && o.phase != .draining && (o.phase == .arrayEnded || !o.inArray) && !o.held) = some o →
      engine.find? (fun e => e.op == o.op) = some o → o.work.paired = false → o.units = [] →
      (∀ e ∈ engineBefore o.op engine, e.drains = false ∧ e.inArray = false ∧ (o.phase = .arrayEnded ∨ e.loads = false)) →
      s.dev.allPerformed (((Table.find? s.dev.ops o.op).map EngineOp.deps).getD []) = true →
      s.dev.drainForm o = some (f, prog, rows) → s.dev.programPoisoned core prog = false →
      (∀ w ∈ checkedWords ((s.dev.core core).matrix.program prog), microLegal f w = true) →
      let u := s.dev.beginUnit o f prog rows core 0
      u.over = false →
        exec (.drain core) s = .next (withDev s (s.dev.onCore core fun c =>
          { c with
            engine := c.engine.map fun x => if x.op = o.op then { x with phase := .draining, units := x.units ++ [u] } else x
            matrix := { c.matrix with restart := none } }))) ∧
    (∀ (f : DrainForm) (prog rows : Nat) (u : DrainUnit) (r : DrainRun) (d : Dev),
      s.dev.drainingOp core = some (core, o, u) → s.dev.drainForm o = some (f, prog, rows) →
      let i := u.next / u.columns
      let c := u.next % u.columns
      let m := (s.dev.core core).matrix
      let ws := programWords (m.program u.prog)
      let place : DrainAt := ⟨0, i, u.first + c, c + 1 == u.columns, Table.get m.nanc (nancKey (u.tile + c / 512) i) 0⟩
      let ends := fun (d : Dev) => match (d.core core).engine.find? fun x => x.op == o.op with
        | none => d
        | some x => if x.phase == .draining then d.endDrain core x else d
      (u.checked = none →
      s.dev.elementPoisoned core (u.tile + c / 512) i (c % 512) ws = false →
      microRun s.host o.slot core m f place
        ⟨scaledAccumulator f (m.tile (u.tile + c / 512) i (c % 512)) :: List.replicate 7 0, u.sums.getD i 0, u.maxima.getD i 0,
          u.stager, u.nibbles, none, 0, [], none, s.dev⟩ 0 ws = r →
      r.stop = none → Dev.checkStores s.host o.slot core (r.elementStores f place) r.d = .ok d →
        exec (.drainElement core) s = .next (withDev s (ends (d.setUnit core o.op core { u with
          checked := some (r.elementStores f place, r.flags), sums := putAt 0 u.sums i r.sum
          maxima := putAt 0 u.maxima i r.max, stager := r.stager, nibbles := r.nibbles })))) ∧
      ∀ (stores : List DrainStore) (flags : Flags), u.checked = some (stores, flags) →
        ∀ e : Dev, Dev.performStores s.host o.slot core s.dev stores = (none, e) →
          let t := ends ((e.opFlags o.op flags).setUnit core o.op core { u with next := u.next + 1, checked := none })
          exec (.drainElement core) s = .next (withDev s t) ∧ t.mem = e.mem ∧
            t.ops = Table.modify e.ops o.op fun x => { x with flags := x.flags ||| flags }) ∧
    (engine.find? (fun x => x.phase == .finished || (x.loads && s.dev.engineReady core x && match x.work with
        | .bswap _ _ => false
        | _ => true)) = some o →
      (o.phase = .finished → exec (.matrixOperationRetire core) s = .next (withDev s (s.dev.retireOp s.host core o.op))) ∧
      (o.phase ≠ .finished → ∀ (tile : Nat) (pair : Bool), o.work = .mclr tile pair →
        exec (.matrixOperationRetire core) s = .next (withDev s
          (((opCores core pair).foldl (Dev.clearTile tile) s.dev).retireOp s.host core o.op))) ∧
      (o.phase ≠ .finished → ∀ (src : Dword) (kind first count : Nat) (bs : List Byte) (d : Dev),
        o.work = .dload src kind first count →
        s.dev.readVa s.host o.slot core src.toNat (count * drainRecordWords kind * 4) = .ok (bs, d) →
          exec (.matrixOperationRetire core) s = .next (withDev s ((s.dev.loadDrain s.host o core src kind first count).retireOp
            s.host core o.op)) ∧
          ∀ n < count * drainRecordWords kind,
            ((s.dev.loadDrain s.host o core src kind first count).core core).matrix.drainWord kind
              (first * drainRecordWords kind + n) = BitVec.ofNat 32 (field bs (4 * n) 4)) ∧
      (o.phase ≠ .finished → ∀ (v : Dword) (stride : Word) (macros : BitVec 4) (bslot rows : Nat) (back : Bool),
        o.work = .bload v stride macros bslot back false rows →
          exec (.matrixOperationRetire core) s = .next (withDev s ((s.dev.loadBanks s.host o core core 0 (s.dev.opSlot o bslot) v
            stride macros back rows).retireOp s.host core o.op))))

/-- R267, R274, R275, R288: an `mma` of a core gives every element of its rows the sum, in the order of the K-blocks, of
its row of A and its column of B on the old element or on nothing, and leaves every other element of the tiles; a
cleared tile is 0 in every element and leaves the others. -/
def Obligations.TileResults : Prop :=
  (∀ (m : Matrix) (f : MmaForm) (payload exps : List Byte),
    let banks := (List.range 4).map fun q => bankOf m.roles q f.back
    let rowsOf := (List.range 4).map fun q => (List.range 128).map fun r => Table.get m.banks (bankKey q (banks.getD q 0) r) 0
    let w : Option Nat := match blockOf f.ca, blockOf f.cb with
      | some ma, some mb => some (254 + ma + mb)
      | _, _ => none
    let m' := m.multiply f payload exps
    f.rows ≤ 16 →
    (∀ i < f.rows, ∀ n < columnsOf f.cb, n / 512 < tilesOf f.cb →
      m'.tile (f.tile + n / 512) i (n % 512) = accumulate w f.cplx (n % 2 == 0)
        (if f.acc then some (m.tile (f.tile + n / 512) i (n % 512)) else none)
        (rowBlocks f.ca f.cb f.nazA payload exps i) (columnBlocks f.cb f.nazB m banks rowsOf n)) ∧
    (∀ t i c, i < 16 → c < 512 → (t < f.tile ∨ f.tile + tilesOf f.cb ≤ t ∨ f.rows ≤ i) → m'.tile t i c = m.tile t i c) ∧
    m' = { m with tiles := m'.tiles, nanc := m'.nanc }) ∧
  ∀ (d : Dev) (core tile : Nat),
    let m := (d.core core).matrix
    let m' := ((Dev.clearTile tile d core).core core).matrix
    (∀ i < 16, ∀ c < 512, m'.tile tile i c = 0 ∧ ∀ t, t ≠ tile → m'.tile t i c = m.tile t i c) ∧
      (∀ i < 16, Table.get m'.nanc (nancKey tile i) 0 = 0) ∧ m'.banks = m.banks ∧ m'.side = m.side ∧ m'.restart = none

/-- R107, R304, R314, R317 to R320: a copy command starts by reading its tile layout record; it completes with a record
in its team's ring, whose write index rises by one, and with the flags and the fault of its end; a COPY of a stream
completes its node. That a copy moves its elements as it completes is notes/assumptions/15.md, and the order in which it moves
them 30.md. -/
def Obligations.CopyEngineResults : Prop :=
  (∀ (s : Machine.State) (id : Nat) (c : Copy) (o : EngineOp), Table.find? s.dev.copies id = some c →
    Table.find? s.dev.ops id = some o →
    (∀ (i : Instr) (coords : List Word) (tlr base : Dword), c.work = .tile i coords tlr base →
      (∀ (bs : List Byte) (d : Dev), c.started = false → c.held = false → s.dev.allPerformed o.deps = true →
        s.dev.readVa s.host c.slot c.core tlr.toNat 128 = .ok (bs, d) →
          exec (.copyCommandStart id) s = .next (withDev s (d.setCopy id { c with started := true, layout := some bs }))) ∧
      ∀ (l : Launch) (t : Team) (d : Dev) (e : CopyEnd) (ring rlog : Nat), c.started = true → s.dev.launch? c.launch = some l →
        (copyJob l.record i coords tlr base (readLayout (c.layout.getD []))).run s.host c.slot c.core s.dev = .ok e →
        e.ring = some (ring, rlog) → e.d.team? o.team = some t →
        let index := t.rings.getD c.ring 0
        let time := e.d.clockOf c.core
        let fet := match o.party with
          | .fet _ => 4
          | _ => 0
        let record := completionRecord c.tag e.status (e.rflags + fet) index e.bytes (detailOf e.status e.code e.va e.clipped) time
        (e.d.onTeam o.team fun t => { t with rings := putAt 0 t.rings c.ring (index + 1) }).writeVa s.host c.slot c.core
          (BitVec.ofNat 64 (ring + ((8 * t.index + c.ring) * 2 ^ rlog + index % 2 ^ rlog) * 32)).toNat record = .ok d →
          exec (.copyCommandComplete id) s = .next (withDev s ({ d with
            copies := Table.erase d.copies id
            ops := Table.modify d.ops id fun o => { o with
              done := true
              flags := o.flags ||| e.flags
              faults := o.faults ++
                (if e.status = 0 then [] else [(⟨0x14, engineRecord 8 e.code e.status 0 c.tag.toNat e.va 0 0 0 time⟩ : EngineFault)]) } }.settle
            s.host)))) ∧
  (∀ (tag : BitVec 16) (status rflags index bytes detail time : Nat),
    let r := completionRecord tag status rflags index bytes detail time
    r.length = 32 ∧ field r 0 4 = tag.toNat ∧ field r 4 1 = status % 2 ^ 8 ∧ field r 5 1 = rflags % 2 ^ 8 ∧
      field r 6 2 = index % 65535 + 1 ∧ field r 8 8 = bytes % 2 ^ 64 ∧ field r 16 8 = detail % 2 ^ 64 ∧
      field r 24 8 = time % 2 ^ 64) ∧
  ∀ (s : Machine.State) (id : Nat) (c : Copy) (src dst count : Dword) (d : Dev), Table.find? s.dev.copies id = some c →
    c.work = .bytes src dst count →
    (c.started = false → Table.find? s.dev.ops id = none →
      exec (.copyCommandStart id) s = .next (withDev s (s.dev.setCopy id { c with started := true }))) ∧
    (c.started = true →
      Dev.copyBytesFrom s.host c.slot c.core src dst (byKey (Config.copyKey s.dev.free) (List.range count.toNat))
        { s.dev with free := s.dev.free + 1 } = (d, none) →
        exec (.copyCommandComplete id) s = .next (withDev s
          (({ d with copies := Table.erase d.copies id }.nodeDone c.graph c.node).settle s.host)))

/-- R330, R332, R333, R338, R457: the queue unit grants the oldest push that has reached it, whose records enter behind the others
in ascending lane; it answers the oldest `qpop` with the records at the head, or with what an ended queue has left, in status
cells that are empty until the copies of the records have been written, and with HANDOVER once it has handled its team's mark; it
answers a `qtry` as its request leaves the hold window, with what is there; it writes the copies one by one, once what they come
after has performed; and it handles the oldest handover mark. Pushes and pops have no order between the two, and a buffer is
translated as its record moves, which are the model's readings (notes/assumptions/31.md). -/
def Obligations.QueueUnitResults : Prop :=
  ∀ (s : Machine.State) (launch q : Nat),
    let u := s.dev.queue launch q
    let copies := fun (r : QueueRequest) (into : List ((Nat × Dword) × QueueRecord)) (status : List (Nat × Word)) (pc : Va) =>
      into.map fun (x : (Nat × Dword) × QueueRecord) =>
        (⟨r.warp, x.1.1, x.1.2, q, x.2, r.id, status, pc, r.id, r.deps ++ x.2.deps⟩ : QueueCopy)
    let taken := fun (d : Dev) (r : QueueRequest) (k : Nat) (status : List (Nat × Word)) (pc : Va) =>
      let into := r.lanes.zip (u.records.take k)
      let d := (({ d with queueCopies := d.queueCopies ++ copies r into status pc } : Dev).onQueue launch q fun u =>
        { u with records := u.records.drop k }).onStages launch fun ss => { ss with moved := ss.moved || k != 0 }
      if into = [] then d else d.mark r.warp ⟨maskOf (into.map fun x => x.1.1), [r.id], 0, []⟩
    (∀ (r : QueueRequest) (w : Warp) (sp : Split) (rs : List (Nat × List Byte)) (d : Dev),
      u.requests.find? (fun r => r.push && r.poll.isNone && !r.held) = some r → s.dev.requestOf r = some (w, sp) →
      r.lanes.length ≤ u.capacity - u.records.length → s.dev.allPerformed r.deps = true →
      Dev.readRecords s.host (s.dev.slotOf w.team) w.core u.recBytes r.lanes s.dev = .ok (rs, d) →
        exec (.queueGrant launch q) s = .next (withDev s
          ((((d.onQueue launch q fun u => { u with records := u.records ++ rs.map fun (x : Nat × List Byte) =>
              (⟨some x.2, r.id, x.1, r.before.filter fun i => !d.performed i⟩ : QueueRecord) }).onStages launch
            fun ss => { ss with moved := true }).answerRequest launch q r.warp r sp none).settle s.host)) ∧
        rs.map Prod.fst = r.lanes.map Prod.fst) ∧
    (∀ (r : QueueRequest) (w : Warp) (sp : Split) (t : Team),
      u.requests.find? (fun r => !r.push && r.poll.isNone && !r.held) = some r → s.dev.requestOf r = some (w, sp) →
      s.dev.team? w.team = some t →
      (q ∈ t.marks → exec (.queueRecordDelivery launch q) s = .next (withDev s
        ((s.dev.answerRequest launch q r.warp r sp (some fun _ => .full 2)).settle s.host))) ∧
      (q ∉ t.marks → (r.lanes.length ≤ u.records.length ∨ u.ended = true) →
        let k := min r.lanes.length u.records.length
        let status := queueStatus r.lanes k u.ended
        ∀ d : Dev, Dev.checkBuffers s.host (s.dev.slotOf w.team) w.core u.recBytes ((r.lanes.take k).map Prod.snd) s.dev = .ok d →
          exec (.queueRecordDelivery launch q) s = .next (withDev s
            (((taken d r k ((lanesOf sp.mask).map fun l => (l, status l)) sp.pc).answerRequest launch q r.warp r sp
              (some (statusCells k r.id status))).settle s.host)))) ∧
    (∀ (r : QueueRequest) (rest : List QueueRequest) (mask : Mask) (pc : Va) (w : Warp) (t : Team), OwnName s.dev r.id →
      s.dev.requestNamed r.id = some (launch, q, r) → u.requests = r :: rest → (∀ x ∈ rest, x.id ≠ r.id) →
      r.poll = some (mask, pc) → s.dev.warp? r.warp = some w → s.dev.team? w.team = some t →
      let d := s.dev.onQueue launch q fun u => { u with requests := rest }
      let fills := fun (d : Dev) (status : List (Nat × Word)) => d.onWarp r.warp fun w => w.fillStatus r.id status
      (q ∈ t.marks → exec (.holdWindowRelease r.id) s = .next (withDev s
        ((fills d ((lanesOf mask).map fun l => (l, 2))).settle s.host))) ∧
      (q ∉ t.marks →
        let k := min r.lanes.length u.records.length
        let status := (lanesOf mask).map fun l => (l, queueStatus r.lanes k u.ended l)
        exec (.holdWindowRelease r.id) s = .next (withDev s
          ((if k = 0 then fills (taken d r k status pc) status else taken d r k status pc).settle s.host)))) ∧
    (∀ (lane i k : Nat) (va : Dword) (ls : List (Nat × Dword)) (ended : Bool),
      ((∀ x ∈ ls, x.1 ≠ lane) → queueStatus ls k ended lane = 4) ∧
      (ls[i]? = some (lane, va) → (ls.map Prod.fst).Nodup →
        queueStatus ls k ended lane = if i < k then 0 else if ended then 1 else 3)) ∧
    (∀ (n : Nat) (c : QueueCopy) (d : Dev), s.dev.queueCopies[n]? = some c → s.dev.allPerformed c.deps = true →
      let others := s.dev.queueCopies.filter fun x => !(x.ticket == c.ticket && x.lane == c.lane)
      ({ s.dev with queueCopies := others } : Dev).writeVa s.host (s.dev.partySlot (.warp c.warp)) (s.dev.partyCore (.warp c.warp))
        c.buffer.toNat (c.record.bytes.getD []) = .ok d →
        turn (.queueCopy n) s = .next (withDev s
          ((if d.queueCopies.any fun x => x.ticket == c.ticket then d
            else d.onWarp c.warp fun w => w.fillStatus c.ticket c.status).settle s.host))) ∧
    ∀ (team : Nat) (rest : List Nat), u.marks = team :: rest →
      let d := (s.dev.onQueue launch q fun u => { u with marks := rest }).onTeam team fun t => { t with marks := t.marks ++ [q] }
      ((∀ r ∈ u.requests, r.push = true ∨ r.poll ≠ none ∨ r.held = true ∨ ∀ w, s.dev.warp? r.warp = some w → w.team ≠ team) →
        exec (.handoverMark launch q) s = .next (withDev s (d.settle s.host))) ∧
      ∀ (r : QueueRequest) (w : Warp) (sp : Split), u.requests = [r] → r.push = false → r.poll = none → r.held = false →
        s.dev.requestOf r = some (w, sp) → w.team = team →
          exec (.handoverMark launch q) s = .next (withDev s
            ((d.answerRequest launch q r.warp r sp (some fun _ => .full 2)).settle s.host))

/-- R346, R350, R351, R352, R354, R446, R448, R449: the sequencer accepts an operation under the current view, or ends it
where the view that it expects is another; it completes once every other member has given and acknowledged; a flit counts
only for the operation of its view; and a sum of integers does not depend on the order of its terms. That sbuf is read as the
operation completes is notes/assumptions/15.md, and that the combination of the members' elements is made there too 33.md. -/
def Obligations.CollectiveResults : Prop :=
  (∀ (s : Machine.State) (id : Nat) (c : Coll) (bs : List Byte) (d : Dev) (g : Group),
    s.dev.nextColl s.host s.dev.colls = some (id, c) →
    s.dev.readVa s.host c.slot (s.dev.collCore id) c.desc.toNat 128 = .ok (bs, d) →
    let f := readColl bs
    Table.find? (d.context c.slot).groups f.group.toNat = some g → s.host.featActive.getLsbD 3 = true →
    let d' := d.onGroup c.slot f.group fun g => { g with next := g.next + 1 }
    let c' : Coll := { c with
      accepted := true, bytes := bs, group := f.group, seq := g.next, oldGen := g.gen, gen := g.gen, first := g.members
      members := g.members }
    (g.detached = false → (f.vexp = 0 ∨ f.vexp = f.group ++ g.gen) → f.valid g.members.length = true →
      (f.inPlace = false ∨ f.readsHere g.members s.host.module = false) →
        exec .collAccept s = .next (withDev s (d'.setColl id { c' with staged := none }))) ∧
    ((g.detached = true ∨ (f.vexp ≠ 0 ∧ f.vexp ≠ f.group ++ g.gen)) →
      exec .collAccept s = .next (withDev s (d'.endColl s.host id c' (.early 0x12))))) ∧
  (∀ (s : Machine.State) (id : Nat) (c : Coll) (own : List Byte) (d d' : Dev), Table.find? s.dev.colls id = some c →
    c.accepted = true →
    (∀ m ∈ c.members, m = s.host.module ∨ ((∃ g ∈ c.given, g.1 = m) ∧ m ∈ c.acks)) →
    let f := readColl c.bytes
    (∀ g ∈ c.given, g.1 = s.host.module ∨ f.matches g.2 = true) → s.dev.ownBytes s.host id c f = .ok (own, d) →
    let m := c.members.length
    let write := fun (bytes : List Byte) =>
      ({ d with free := d.free + 1 }.writeVa s.host c.slot (d.collCore id) f.dbuf.toNat bytes = .ok d' : Prop)
    let ends := fun (bytes : Nat) (flags : Flags) =>
      exec (.collComplete id) s = .next (withDev s (d'.endColl s.host id c ⟨if c.changed then 0x13 else 0, 0, 0, bytes, flags⟩))
    (f.op = 2 → (∀ r < m, (given c own s.host.module r).length = f.count * f.size) →
      let bytes := (List.range m).flatMap (given c own s.host.module)
      write bytes → ends bytes.length 0) ∧
    (f.op = 3 → ∀ root < m, root = rankIn c.members (moduleAt c.first f.root) →
      (given c own s.host.module root).length = f.count * f.size →
      let bytes := given c own s.host.module root
      write bytes → ends bytes.length 0) ∧
    (f.op = 4 → (∀ r < m, (given c own s.host.module r).length = m * f.count * f.size) →
      let rank := rankIn c.members s.host.module
      let bytes := (List.range m).flatMap fun r =>
        ((given c own s.host.module r).drop (rank * f.count * f.size)).take (f.count * f.size)
      rank < m → write bytes → ends bytes.length 0)) ∧
  (∀ (s : Machine.State) (f : CollectiveFlit) (id : Nat) (c : Coll),
    flitFor s.dev f id c → f.sender ∈ c.members → f.sender ≠ s.host.module →
    (∀ x, f.payload = .contribution x → (∀ g ∈ c.given, g.1 ≠ f.sender) →
      (x.data.length = x.count.toNat * (elementBits x.etype.toNat / 8) * (if x.op = 4 then c.members.length else 1) ∨
        (x.op = 3 ∧ x.data = [])) →
        exec (.collectiveFlit f) s = .next (withDev s (s.dev.setColl id { c with given := c.given ++ [(f.sender, x)] }))) ∧
    (f.payload = .lastAcknowledged → f.sender ∉ c.acks →
      exec (.collectiveFlit f) s = .next (withDev s (s.dev.setColl id { c with acks := c.acks ++ [f.sender] })))) ∧
  (∀ (s : Machine.State) (f : CollectiveFlit),
    (∀ e ∈ s.dev.colls, e.2.accepted = true → e.2.slot = f.slot → e.2.group = f.group → e.2.seq = f.seq → e.2.gen ≠ f.gen) →
      exec (.collectiveFlit f) s = .next s) ∧
  ∀ (c : Coll) (f : CollDesc) (seed lo n : Nat) (xs : List (List Nat)), f.etype = 0x18 → f.redop = 0 → f.policy ≠ 1 →
    ∀ i < n, ∃ v, (c.reduce f seed lo n xs)[i]? = some (v, 0) ∧
      v % 2 ^ 32 = (xs.map fun x => x.getD (lo + i) 0).sum % 2 ^ 32

/-- R358 to R360, R448 to R452: heartbeats are counted, and a module whose links have all missed 100 is lost; a module that is lost leaves the live members of every group,
and a group without a majority of its view is detached and its operations abandoned; a proposal, its acknowledgements and
its commit; the new view, which is installed at the cut and reported; and the return of a module. That a module which is not the
coordinator commits on its own acknowledgement, and that a group is detached at once, are the model's readings
(notes/assumptions/34.md); the severity, the source and the widths of record 0x0B are presumed (16.md). -/
def Obligations.MembershipResults : Prop :=
  (∀ (s : Machine.State) (port : Nat) (got : Bool),
    let d := { s.dev with heartbeats := Table.set s.dev.heartbeats port (if got then 0 else Table.get s.dev.heartbeats port 0 + 1) }
    let lost := Config.linkModule port
    ((got = true ∨ ∃ p < 24, Config.linkModule p = lost ∧ Table.get d.heartbeats p 0 < 100) →
      exec (.heartbeat port got) s = .next (withDev s d)) ∧
    (got = false → (∀ p < 24, Config.linkModule p = lost → 100 ≤ Table.get d.heartbeats p 0) →
      exec (.heartbeat port got) s = exec (.moduleLost lost) (withDev s d))) ∧
  (∀ (s : Machine.State) (module : Nat), module ≠ s.host.module →
    ((∀ e ∈ s.dev.contexts, ∀ x ∈ e.2.groups, x.1 < 2 ^ 16 ∧
      (x.2.detached = true ∨ x.2.majority (x.2.liveMembers.filter (· ≠ module)) = true)) →
      ∃ t, exec (.moduleLost module) s = .next t ∧ t.dev.colls = s.dev.colls ∧ t.dev.mem = s.dev.mem ∧
        ∀ slot n g, Table.find? (s.dev.context slot).groups n = some g → module ∈ g.members →
          ∃ g', Table.find? (t.dev.context slot).groups n = some g' ∧ module ∈ g'.lost ∧ g'.members = g.members ∧
            g'.gen = g.gen ∧ g'.detached = g.detached ∧
            ∀ r, g.round = some r → g'.round = if module ∈ r.members ∧ r.committed = false then none else some r) ∧
    ∀ (slot n : Nat) (c : Context) (g : Group), s.dev.contexts = [(slot, c)] → c.groups = [(n, g)] → n < 2 ^ 16 →
      module ∈ g.members → g.detached = false → g.majority (g.liveMembers.filter (· ≠ module)) = false →
        exec (.moduleLost module) s = .next (withDev s
          ((s.dev.onGroup slot (BitVec.ofNat 16 n) fun g => { g.loseMember module with detached := true, round := none }).abandonColls
            s.host (s.dev.groupColls slot (BitVec.ofNat 16 n))))) ∧
  (∀ (s : Machine.State) (slot : Nat) (group : BitVec 16) (g : Group),
    Table.find? (s.dev.context slot).groups group.toNat = some g →
    let answer : Group → Host.Outcome Machine.State Fault Refusal := fun g' =>
      .next (withDev s (s.dev.onGroup slot group fun _ => g'))
    (∀ (members : List Nat) (cut : Nat), (∀ r, g.round = some r → r.committed = false) → g.detached = false →
      s.host.module ∈ members → g.next ≤ cut → (∀ m ∈ members, m ∉ g.lost) →
        exec (.agreementProposal slot group members cut) s =
          answer { g with round := some ⟨members.eraseDups, g.gen + 1, cut, [], false⟩ }) ∧
    (∀ r, g.round = some r →
      (∀ module, module ∈ r.members → module ∉ r.acks →
        exec (.agreementAck slot group module) s = answer { g with round := some { r with acks := r.acks ++ [module] } }) ∧
      (g.members.length < 2 * (g.members.filter (· ∈ r.members)).length →
        (if g.coordinator = some s.host.module then ∀ m ∈ r.members, m ∈ r.acks else s.host.module ∈ r.acks) →
          exec (.agreementCommit slot group) s = answer { g with round := some { r with committed := true } }) ∧
      (2 * (g.members.filter (· ∈ r.members)).length ≤ g.members.length →
        exec (.agreementCommit slot group) s = answer g) ∧
      (r.committed = true → g.next = r.cut →
        let d := s.dev.onGroup slot group fun g => { g with
          gen := r.gen, members := r.members, lost := g.lost.filter r.members.contains, round := none, detached := false, rejoin := none
          returning := g.returning.filter fun x => !r.members.contains x.1 }
        let record := leBytes 2 group.toNat ++ leBytes 8 (tagOf group g.gen).toNat ++ leBytes 8 (tagOf group r.gen).toNat
        ((∀ m ∈ g.members, m ∈ r.members) →
          exec (.viewInstall slot group) s = .next (withDev s (d.report 0x0B 2 slot 0 record))) ∧
        ((∃ m ∈ g.members, m ∉ r.members) →
          exec (.viewInstall slot group) s = .next (withDev s
            (((d.groupColls slot group).foldl (Dev.rerun s.host r) d).report 0x0B 2 slot 0 record))))) ∧
    (∀ (module : Nat) (tag : BitVec 64),
      exec (.rejoinRequest slot group module tag) s = answer
        (if module = s.host.module then { g with rejoin := some (tag, s.dev.gtime) }
        else { g with returning := (g.returning.filter fun r => r.1 != module) ++ [(module, tag)] })) ∧
    (∀ (module : Nat) (gen : BitVec 48) (members : List Nat) (cut : Nat),
      (module = s.host.module → g.rejoin ≠ none →
        exec (.stateTransfer slot group module gen members cut) s = answer (if gen ≠ 0 ∧ g.gen.toNat ≤ gen.toNat then
          { g with gen := gen, members := members.eraseDups, lost := [], next := cut, round := none, detached := false } else g)) ∧
      (module ≠ s.host.module → exec (.stateTransfer slot group module gen members cut) s = .next s)) ∧
    ∀ (tag : Dword) (t : Nat), g.rejoin = some (tag, t) →
      exec (.rejoinResend slot group) s = answer
        (if t + 10 ^ 9 ≤ s.dev.gtime then { g with rejoin := some (tag, s.dev.gtime) } else g)) ∧
  ∀ (s : Machine.State) (slot module : Nat) (group : BitVec 16) (tag : BitVec 64),
    Table.find? (s.dev.context slot).groups group.toNat = none →
      exec (.rejoinRequest slot group module tag) s = .next (withDev s (s.dev.report (Config.refusedRejoin 0)
        (Config.refusedRejoin 1) slot module (leBytes 2 group.toNat ++ leBytes 8 tag.toNat)))

/-- R21 to R24, R32, R40, R59, R329, R338: a team that fits starts with its warps, each with its threads, its entry and its
uniform file; a launch's next team is placed on a core; and the teams of a stage set start together, and one at a time on
a core that is handed over. -/
def Obligations.TeamStartResults : Prop :=
  (∀ (h : HostPart) (d d' : Dev) (launch index core team : Nat) (l : Launch) (f : TeamForm),
    d.startTeam h launch l index core f = some (team, d') →
      core < 576 ∧ h.dieReady core = true ∧ ∃ t, d'.team? team = some t ∧ t.launch = launch ∧ t.index = index ∧ t.core = core ∧
        t.warps = f.warps ∧ t.stage = f.stage ∧ t.held = (f.stage.isSome && d.launchHeld launch) ∧
        (f.stage = none → t.coords = (index % l.record.grid.1, index / l.record.grid.1 % l.record.grid.2.1,
          index / (l.record.grid.1 * l.record.grid.2.1))) ∧
        ∀ n < f.warps, ∃ id w, d'.warp? id = some w ∧
          fresh w team (if l.record.pair = true ∧ f.stage = none ∧ n % 2 = 1 then core + 1 else core) n index f l.record t.shared) ∧
  (∀ (s : Machine.State) (launch core index team : Nat) (l : Launch) (f : TeamForm) (d : Dev), s.dev.launch? launch = some l →
    l.complete = false → l.cancelled = false → l.stages = none → (s.dev.context l.slot).state = .open_ →
    ¬(l.record.rollback = true ∧ l.rolled = false ∧ l.cause = 0x19) →
    (l.again = [] ∧ l.next < l.record.teams ∧ index = l.next ∨ l.again.head? = some index) →
    s.dev.gridForm l = some f → s.dev.skipsTeam launch l index = false →
    s.dev.startTeam s.host launch l index core f = some (team, d) →
      exec (.teamPlacement launch core) s = .next (withDev s (d.onLaunch launch fun l =>
        if l.again = [] then { l with next := l.next + 1 } else { l with again := l.again.drop 1 }))) ∧
  ∀ (s : Machine.State) (launch : Nat) (l : Launch) (ss : StageSet), s.dev.launch? launch = some l → l.stages = some ss →
    l.complete = false → l.cancelled = false →
    (∀ (cores : List Nat) (d d' : Dev), ss.started = false → cores.length = ss.initial.length → cores.Nodup →
      Dev.startStages s.host launch l ss ((List.range cores.length).zip (ss.initial.zip cores)) s.dev = some d →
      Dev.reserveQueues l.slot launch ((List.range ss.queues.length).zip ss.queues) d = some d' →
        exec (.stageSetStart launch cores) s = .next (withDev s ((d'.onLaunch launch fun l =>
          { l with
            next := cores.length
            stages := l.stages.map fun ss => { ss with started := true, next := d'.gtime + ss.interval, since := d'.gtime } }).settle s.host))) ∧
    ∀ (core k team : Nat) (x : Stage) (d : Dev), ss.stages[k]? = some x → x.freed = some core → ss.closing x = false →
      (∀ j < k, ∀ y, ss.stages[j]? = some y → y.freed ≠ some core ∨ ss.closing y = true) →
      s.dev.startTeam s.host launch l l.next core (x.form k) = some (team, d) →
        let donor := (x.handover.map fun y => y.2.2).getD 0
        let cleared := fun (s : Stage) => if s.handover.any (fun y => y.2.2 = donor) then
          { s with handover := none, freed := none } else s
        exec (.stageTeamStart launch core) s = .next (withDev s (d.onLaunch launch fun l =>
          { l with
            next := l.next + 1
            stages := l.stages.map fun ss => { ss with stages := ss.stages.map cleared } }))

/-- R39, R43 to R46, R70, R461: warps change places in a lane block, leave their core and come back, the first of a team with the
frames and backing stacks of all its warps; an ended team of an idempotent launch is placed again and reported; and a page moves
to another tier with its bytes. That the warp of the lowest rank is swapped out, and which of two contexts of one priority loses a
warp first, are the model's choices (notes/assumptions/45.md); that one warp goes in each step of an eviction is 36.md, that
snapshots move with their page is 26.md, and the severity and the width of record 0x04 are presumed (16.md). -/
def Obligations.PlacementResults : Prop :=
  (∀ (s : Machine.State) (core lb out new : Nat),
    let b := (s.dev.core core).lb lb
    b.active.find? (fun id => (s.dev.warp? id).any (s.dev.stands id)) = some out → b.pending.find? s.dev.couldIssue = some new →
      exec (.warpSwap core lb) s = .next (withDev s (s.dev.onLb core lb fun b =>
        { b with
          active := b.active.filter (· != out) ++ [new]
          pending := b.pending.filter (· != new) ++ [out]
          arrivals := (b.arrivals.filter fun e => e.1 != out) ++
            [(new, let n := (s.dev.cluster (clusterOf core)).laneCycles; min (n - b.credit) (n - 1) + 2)] }))) ∧
  (∀ (s : Machine.State) (launch core on id : Nat) (l : Launch) (w : Warp) (d : Dev), s.dev.launch? launch = some l →
    (teamCores core (l.record.pair && l.stages.isNone)).find? (s.dev.lacking s.host launch l core) = some on →
    s.dev.nextVictim on (s.dev.waitingPriority l.slot) = some id → s.dev.warp? id = some w → s.dev.evictable id w = true →
    s.dev.evict s.host id false = some d →
      exec (.partialEviction launch core) s = .next (withDev s d) ∧ (d.warp? id).map Warp.place = some .evicted ∧
      ∃ e ∈ s.dev.warps, e.1 = id ∧ e.2.core = on ∧
        s.dev.waitingPriority (s.dev.slotOf e.2.team) < s.dev.waitingPriority l.slot) ∧
  (∀ (s : Machine.State) (slot core : Nat) (d : Dev),
    let mine := s.dev.warps.filter fun e =>
      e.2.core == core && e.2.place == .resident && !e.2.threads.isEmpty && s.dev.slotOf e.2.team == slot
    (∀ e ∈ mine, s.dev.evictable e.1 e.2 = true) → Dev.evictAll s.host false (mine.map Prod.fst) s.dev = some d →
      exec (.timeSliceSwitch slot core) s = .next (withDev s d)) ∧
  (∀ (s : Machine.State) (id lb ws : Nat) (w w' : Warp) (d e : Dev), s.dev.warp? id = some w → w.place = .evicted →
    w.threads ≠ [] →
    let slot := s.dev.slotOf w.team
    let core := s.dev.homeCore w
    lb < 4 → ((s.dev.core core).lb lb).used < 24 → s.dev.contextFits slot core = true →
    s.dev.warpSlot slot core lb (some id) = some ws →
    s.dev.claimAll s.host slot (teamCores core ((s.dev.team? w.team).any fun t => t.follower.isSome)) = some d →
    d.teamReturns s.host slot w.team = some e → e.warp? id = some w' →
      exec (.warpResume id lb) s = .next (withDev s
        (((e.setWarp id { w' with place := .resident, core := core, lb := lb, slot := ws, fwd := [] }).onLb core lb fun b =>
          if b.active.length < 8 then { b with active := b.active ++ [id] } else { b with pending := b.pending ++ [id] }).pushForwards
            core lb (w'.fwd.map fun f => { f with due := f.due + e.clockOf core }))) ∧
      (d.teamResident w.team = true → e = d ∧ w' = w) ∧
      (w' = w ∨ w' = { w with
        sliceCore := core, stackBase := w'.stackBase, frameBase := w.frameBase - w.stackBase + w'.stackBase
        fwd := w.fwd.map fun f => { f with line := f.line - w.stackBase + w'.stackBase } })) ∧
  (∀ (s : Machine.State) (team : Nat) (t : Team) (l : Launch) (f : TeamForm), s.dev.team? team = some t →
    s.dev.launchOf team = some l → t.ended = true → l.record.idempotent = true → t.index ∉ l.relaunched → l.cancelled = false →
    ¬(l.record.rollback = true ∧ l.rolled = false ∧ l.cause = 0x19) →
    s.dev.teamCounter team = 0 → s.dev.sharedUsed team t = false →
    ((t.stage = none ∧ s.dev.gridForm l = some f) ∨
      ∃ k ss x, t.stage = some k ∧ l.stages = some ss ∧ ss.stages[k]? = some x ∧ f = x.form k) →
    let gone := (s.dev.releaseTeam team).onLaunch t.launch fun l => { l with relaunched := l.relaunched ++ [t.index] }
    let report := fun (d : Dev) => (({ d with teams := Table.erase d.teams team } : Dev).onStages t.launch fun ss =>
      { ss with moved := true }).report 0x04 2 l.slot t.core (leBytes 4 t.index)
    (∀ new d, gone.startTeam s.host t.launch l t.index t.core f = some (new, d) →
      exec (.teamRelaunch team) s = .next (withDev s (report (d.renameDonor t.launch team new)))) ∧
    (gone.startTeam s.host t.launch l t.index t.core f = none → t.stage = none →
      exec (.teamRelaunch team) s = .next (withDev s
        (report (gone.onLaunch t.launch fun l => { l with again := l.again ++ [t.index] }))))) ∧
  (∀ (s : Machine.State) (slot a pa : Nat) (va : BitVec 64) (tier : BitVec 8) (e : Dword) (d d' : Dev),
    let page := va.toNat / 2 ^ 16 * 2 ^ 16
    s.dev.walk slot 0 page = .ok (4, a, e) → pteX e = false → s.dev.objectPage slot page = false → inWindow page = false → s.dev.frameUsed (ptePa e) = false →
    tier.toNat ≤ 1 → s.dev.takeFrame s.host tier.toNat = some (pa, d) →
    let moved := (d.movePage (ptePa e) pa).onContext slot fun c =>
      { c with snapshots := c.snapshots.map fun t => if t.copied then t else { t with pa := movedTo (ptePa e) pa t.pa } }
    moved.mapPage s.host slot page ((e &&& 0xFFF000000000FFFF#64) ||| leafEntry pa false false false) = some d' →
      exec (.migration slot va tier) s = .next (withDev s ((d'.dropTlb slot page 0x10000).freeFrame (ptePa e)))) ∧
  ∀ (d : Dev) (src dst : Nat), Memory.wf d.mem = true → (src + 2 ^ 16 ≤ dst ∨ dst + 2 ^ 16 ≤ src) →
    (∀ i < 2 ^ 16, Memory.read (d.movePage src dst).mem (dst + i) = Memory.read d.mem (src + i)) ∧
      ∀ a, a < dst ∨ dst + 2 ^ 16 ≤ a → Memory.read (d.movePage src dst).mem a = Memory.read d.mem a

/-- R337 to R339, R345, R445: the stage balancer at a boundary of its interval; a donor team that stays is evicted to the core of
a sibling, and its core is freed; a set that has been stuck for four intervals is reported and cancelled, and none of these
happens while dxdb holds the set stopped. That four whole intervals have passed at the fifth boundary, and when the donor is evicted, are the
model's readings (notes/assumptions/32.md); the severity and the source of record 0x0E are presumed (16.md). -/
def Obligations.StageBalancerResults : Prop :=
  ∀ (s : Machine.State) (launch : Nat) (l : Launch) (ss : StageSet), s.dev.launch? launch = some l → l.stages = some ss →
    (s.dev.launchHeld launch = true → exec (.rebalancingInterval launch) s = .next s) ∧
    (ss.started = true → l.complete = false → l.cancelled = false → s.dev.launchHeld launch = false → ss.next ≤ s.dev.gtime →
      let stuck := if s.dev.allBlocked launch ss = false then 0 else if ss.moved then 1 else ss.stuck + 1
      let d := s.dev.onLaunch launch fun l =>
        { l with stages := l.stages.map fun ss => { ss with stuck := stuck, moved := false, next := ss.next + ss.interval } }
      exec (.rebalancingInterval launch) s = .next (withDev s
        ((if 5 ≤ stuck then d else Dev.balance launch ss.next 8 [] d).settle s.host))) ∧
    (5 ≤ ss.stuck → l.complete = false → l.cancelled = false →
      exec (.stageSetStuck launch) s = .next (withDev s
        ((((s.dev.report 0x0E 3 l.slot 0 (s.dev.stuckRecord launch l ss)).onLaunch launch fun l =>
          { l with faulted := true, cause := if l.faulted then l.cause else 0x1B }).cancelLaunch launch).settle s.host))) ∧
    ∀ (team k core to_ : Nat) (t : Team) (x : Stage), s.dev.team? team = some t → t.stage = some k → ss.stages[k]? = some x →
      x.handover = some (to_, true, team) → x.since + ss.interval ≤ s.dev.gtime → t.donor = true → t.complete = false →
      s.dev.launchHeld launch = false →
      s.dev.siblingCore launch k team = some core →
      let mine := s.dev.warps.filter fun e => e.2.team == team && !e.2.threads.isEmpty
      ∀ d, (∀ e ∈ mine, e.2.place = .evicted ∨ s.dev.evictable e.1 e.2 = true) →
        Dev.evictAll s.host true ((mine.filter fun e => e.2.place == .resident).map Prod.fst) s.dev = some d →
        let d := d.onTeam team fun t => { t with core := core, donor := false, marks := [] }
        let freed := fun (s : Stage) => match s.handover with
          | some (_, false, y) => if y = team then { s with freed := some t.core } else s
          | _ => s
        exec (.donorEviction launch team) s = .next (withDev s ((d.onStages launch fun ss =>
          { ss with
            stages := ss.stages.map freed
            queues := ss.queues.map fun u => { u with marks := u.marks.filter (· != team) } }).settle s.host))

/-- R14, R156, R182, R251, R377 to R380, R399, R440, R457 to R459, R466, R467: a front-end cycle ends the one before it, in which a
replay and then a multi-cycle instruction take the lane cycles that are left, advances its cluster's clock, refills its bucket up
to 4,096 tokens and ages what waits; levels, caps and reservations; and a strike, a scrub and a thermal limit, with what is
reported of them. The severities, the sources and the widths of the records are presumed (notes/assumptions/16.md); for how long a strike
stops its lane block, and a cap with what the thermal report says, are 35.md; and gtime goes on by a free amount (19.md). -/
def Obligations.PowerAndReliabilityResults : Prop :=
  (∀ (s : Machine.State) (n : Nat),
    let c := s.dev.cluster n
    let d := s.dev.endCycle n
    let level := d.targetLevel n
    (s.dev.barrierDue n = true ∨ s.dev.cycleOpen n = true → exec (.tokenBucketRefill n) s = .next s) ∧
    (s.dev.barrierDue n = false → s.dev.cycleOpen n = false →
    ∃ c' t, exec (.tokenBucketRefill n) s = .next t ∧ t.dev.clusters = Table.set s.dev.clusters n c' ∧
      c' = { c with
        level := level
        transition := if c.level = level then c.transition else some (match c.transition with
          | none => c.level
          | some old => min old c.level)
        clock := c.clock + 1
        cursor := 0
        tokens := min 4096 (c.tokens + c.refill + level % 3 * (1 + Config.refillStep))
        droop := false } ∧
      t.dev.mem = s.dev.mem ∧ t.dev.gtime = s.dev.gtime + Config.nanoseconds s.dev.free ∧
      (∀ id w, d.warp? id = some w →
        if clusterOf w.core = n ∧ w.place = .resident then ∃ w', t.dev.warp? id = some w' ∧
          w' = w.tick (laneCycles c') (({ d with free := d.free + 1 }.setCluster n c').wake id w) ∧
          w'.threads = w.threads
        else t.dev.warp? id = some w) ∧
      ((s.dev.cores.map Prod.fst).Nodup → ∀ j cr, Table.find? s.dev.cores j = some cr → clusterOf j = n →
        (cr.lbs.map Prod.fst).Nodup →
        ∃ cr', Table.find? t.dev.cores j = some cr' ∧ cr'.fetCredit = 1 ∧
          ∀ e ∈ cr'.lbs, e.2.credit = laneCycles c' ∧ e.2.follow = none ∧
            ∃ b, (e.1, b) ∈ cr.lbs ∧ e.2.replay = b.replay - b.credit ∧ e.2.hold = b.hold - (b.credit - b.replay) ∧
              e.2.pending = b.pending ∧ (b.hold = 0 → e.2.active = b.active)))) ∧
  (∀ (s : Machine.State) (n : Nat),
    let c := s.dev.cluster n
    exec (.laneRateTransition n) s = .next (withCluster s n { c with transition := none }) ∧
    exec (.droopDetectorTrip n) s = .next (withCluster s n { c with droop := true }) ∧
    (∀ requester count, c.reserve = none → (requester, count, c.clock) ∈ c.refused → 16 ≤ count →
      exec (.bucketReservation n requester) s = .next (withCluster s n { c with reserve := some requester })) ∧
    (∀ (cap : BitVec 3) (refill : Nat), ∃ c', exec (.powerManagerCapAndRefill n cap refill) s = .next (withCluster s n c') ∧
      c'.cap = cap.toNat ∧ c'.refill = refill ∧ c'.level = min cap.toNat
        ((((s.dev.warps.filter fun e => clusterOf e.2.core == n && e.2.place == .resident && !e.2.threads.isEmpty).map
            fun e => e.2.perf) ++
          (s.dev.fets.filter fun e => clusterOf e.2.core == n && !e.2.ended).map fun e => e.2.level).foldl Nat.max 0) ∧
      c'.tokens = c.tokens ∧ c'.clock = c.clock) ∧
    ∀ (temperature : Nat) (cap : BitVec 3), ∃ c', exec (.thermal n temperature cap) s = .next
        (withDev s ((withCluster s n c').dev.report 0x09 0 64 n (leBytes 2 n ++ leBytes 2 temperature ++ leBytes 1 c'.cap))) ∧
      c'.cap = min c.cap cap.toNat ∧ c'.level ≤ c'.cap ∧ c'.tokens = c.tokens ∧ c'.refill = c.refill) ∧
  (∀ (s : Machine.State) (core lb : Nat), ∃ cycles, cycles ≤ 48 ∧
    exec (.strike core lb) s = .next (withDev s
      (({ s.dev with free := s.dev.free + 1 }.onLb core lb fun b => { b with replay := b.replay + cycles }).report 0x01 2 64
        (core * 4 + lb) (leBytes 2 (core * 4 + lb) ++ leBytes 1 cycles)))) ∧
  ∀ (s : Machine.State) (addr : Nat),
    exec (.scrub addr .clean) s = .next s ∧
    exec (.scrub addr .corrected) s = .next (withDev s (s.dev.report 0x02 1 64 (storeOf addr)
      (leBytes 1 (storeOf addr) ++ leBytes 8 (if addr < 2 ^ 48 then addr % 2 ^ 47 else 0)))) ∧
    (2 ^ 47 ≤ addr → addr < 2 ^ 48 → storeOf addr = 1) ∧
    let unit := if addr < 2 ^ 48 then addr % 2 ^ 47 / 8 else addr
    ∃ d, exec (.scrub addr .uncorrectable) s = .next (withDev s d) ∧ d.mem = s.dev.mem ∧ unit ∈ d.poison ∧
      ∀ u, u ≠ unit → (u ∈ d.poison ↔ u ∈ s.dev.poison)

/-- R104, R369, R381 to R385, R468: the host function: doorbells, registers, the commit of features, the life of a context
slot and of a mapping request, readiness, reset, a fatal error, the fused counter and the host link. What a reset keeps, gtime
among it, is the model's choice (notes/assumptions/6.md); that a doorbell or a register write has no effect while the link is down
or the host function is not ready is 25.md; what a dump holds, and where it begins, is 35.md; and the severities and the widths of
the records are presumed (16.md). -/
def Obligations.HostFunctionResults : Prop :=
  (∀ (s : Machine.State) (slot n : Nat),
    let usable := s.host.linkUp = true ∧ s.host.stopped = false ∧ s.host.ready.getLsbD 0 = true
    let c := s.dev.context slot
    (¬usable ∨ c.state ≠ .open_ ∨ s.host.featActive.getLsbD 0 = false → exec (.doorbell slot n) s = .next s) ∧
    (usable → c.state = .open_ → s.host.featActive.getLsbD 0 = true → s.host.processorReady slot = false →
      (slot, n) ∉ s.dev.latched →
        exec (.doorbell slot n) s = .next (withDev s { s.dev with latched := s.dev.latched ++ [(slot, n)] })) ∧
    (usable → c.state = .open_ → s.host.featActive.getLsbD 0 = true → s.host.processorReady slot = true →
      ∀ (bs : List Byte) (d : Dev),
        s.dev.readVa s.host slot (processorCore slot) (c.streamTable.toNat + 64 * n) 64 = .ok (bs, d) →
        let st := (d.context slot).stream n
        let rd := if st.stopped then field bs 24 8 else st.position
        descriptorOk bs rd = true →
          let e := if st.stopped then d else d.storeRd s.host slot n
          exec (.doorbell slot n) s = .next (withDev s (e.onStream slot n fun st => { st with
            ring := BitVec.ofNat 64 (field bs 0 8)
            words := field bs 8 4
            priority := field bs 12 1
            wr := field bs 16 8
            rd := if st.stopped then rd else st.rd
            errRec := BitVec.ofNat 64 (field bs 32 8)
            stopped := false
            failed := false }))) ∧
    (usable → c.state = .free → ∀ (groups : List (BitVec 16 × List Nat)) (roots : List Nat) (d : Dev),
      Dev.newRoots s.host 4 s.dev = some (roots, d) →
        exec (.ctxOpen slot groups) s = .next (withDev s ((({ d with free := d.free + 1 } : Dev).onContext slot fun _ => { Context.reset with
          state := .open_, streamTable := c.streamTable, mapReq := c.mapReq, roots := roots
          saveBase := Config.saveBase d.free }).installGroups s.host slot groups))) ∧
    (usable → (c.state = .terminated ∨ (c.state = .open_ ∧ s.dev.contextIdle slot = true)) →
      exec (.ctxClose slot) s = .next (withDev s ((s.dev.onContext slot fun c => { c with state := .closing }).settle s.host))) ∧
    (usable → c.state = .open_ → s.dev.contextIdle slot = false →
      exec (.ctxClose slot) s = .next (withDev s
        (((s.dev.cancelJob slot).onContext slot fun c => { c with state := .closing }).settle s.host))) ∧
    (c.state = .closing → s.dev.contextDone slot = true →
      exec (.closeComplete slot) s = .next (withDev s (s.dev.freeSlot slot)) ∧
        ((s.dev.freeSlot slot).context slot).state = .free ∧ (∀ e ∈ (s.dev.freeSlot slot).accesses, e.2.slot ≠ slot) ∧
        (∀ e ∈ (s.dev.freeSlot slot).launches, e.2.slot ≠ slot)) ∧
    (usable → c.mapStatus ≠ 1 →
      let started := withDev s (s.dev.onContext slot fun c => { c with mapHeld := c.mapReq, mapStatus := 1 })
      (mapField c.mapReq 0 1 ≠ 2 → exec (.mapPages slot) s = .next started) ∧
      (mapField c.mapReq 0 1 = 2 → exec (.unmapPages slot) s = .next started)) ∧
    (c.mapStatus = 1 → c.state ≠ .free →
      let r := readMapRequest c.mapHeld
      (∀ d, r.op = 1 → s.dev.mapAllowed s.host slot r = true → s.dev.mapRange s.host slot r = some d →
        exec (.mapDone slot) s = .next (withDev s (d.endRequest slot 2))) ∧
      (r.op = 2 → r.unmapAllowed = true → (∀ l ∈ s.dev.mappedIn slot r.va r.bytes, s.dev.frameUsed (ptePa l.2) = false) →
        exec (.mapDone slot) s = .next (withDev s ((s.dev.unmapRange slot r.va r.bytes).endRequest slot 2))) ∧
      ((r.op ≠ 1 ∧ r.op ≠ 2) ∨ (r.op = 1 ∧ s.dev.mapAllowed s.host slot r = false) ∨ (r.op = 2 ∧ r.unmapAllowed = false) →
        exec (.mapDone slot) s = .next (withDev s (s.dev.endRequest slot 3))))) ∧
  ∀ (s : Machine.State),
    let h := s.host
    let usable := h.linkUp = true ∧ h.stopped = false ∧ h.ready.getLsbD 0 = true
    let answer : HostPart → Dev → Host.Outcome Machine.State Fault Refusal := fun h d => .next { s with host := h, dev := d }
    (usable → h.committed = false →
      let f := h.featAccept &&& h.featOffer
      exec (.featCommit 1) s = answer { h with committed := true, featActive := if f.getLsbD 0 then f else 0 } s.dev) ∧
    (∀ value, (h.committed = true ∨ value ≠ 1) → exec (.featCommit value) s = .next s) ∧
    (usable → ∀ v : BitVec 256,
      exec (.registerWrite 0x20 16 v) s = answer { h with featAccept := BitVec.setWidth 128 v } s.dev ∧
      ∀ slot < 64,
        exec (.registerWrite (0x10008 + 0x1000 * slot) 8 v) s = .next (withDev s
          (s.dev.onContext slot fun c => { c with streamTable := BitVec.setWidth 64 v })) ∧
        exec (.registerWrite (0x10040 + 0x1000 * slot) 32 v) s = .next (withDev s
          (s.dev.onContext slot fun c => { c with mapReq := v }))) ∧
    exec .reset s = answer
      { HostPart.reset with
        module := h.module, stepping := h.stepping, keys := h.keys, fuse := h.fuse, counter := h.fuse, linkUp := h.linkUp, nvme := h.nvme }
      { Dev.reset with cache := s.dev.cache.filter fun t => h.fuse.toNat ≤ t.svn.toNat, gtime := s.dev.gtime } ∧
    (∀ n, n < 42 → h.stopped = false → h.booted = true → (n = 0 ∨ h.ready.getLsbD 0 = true) → s.dev.latched = [] →
      exec (.functionReady n) s = answer { h with ready := h.ready ||| 1#64 <<< n } (s.dev.reportBoot (3 + n))) ∧
    (h.booted = false → ∀ n, exec (.functionReady n) s = .next s) ∧
    (∀ reason, h.stopped = false →
      exec (.fatalError reason) s = answer { h with stopped := true, ready := 0, nvme := some s.dev.stateDump }
        ({ s.dev with dump := some s.dev.stateDump }.report 0x08 4 64 0 (leBytes 8 dumpBase))) ∧
    (∀ v : BitVec 32, exec (.securityCounterProgram v) s = answer { h with fuse := if h.fuse.toNat < v.toNat then v else h.fuse } s.dev) ∧
    (h.linkUp = true → exec .hostLinkDown s = answer { h with linkUp := false } (s.dev.report 0x0A 0 64 0 (leBytes 1 0))) ∧
    (h.linkUp = false → exec .hostLinkUp s = answer { h with linkUp := true }
      ({ s.dev with irqs := s.dev.irqs ++ s.dev.heldIrqs, heldIrqs := [] }.report 0x0A 0 64 0 (leBytes 1 1)))

/-- R142, R386, R394, R405, R406: an instruction on words, pairs or memory that finds too few cells, or would leave too many,
traps; one whose resident count is not what it needs waits for a spill or a refill; an empty operand traps or waits as W says;
a misaligned address traps; and an instruction of handler mode is illegal outside it. The frames are those of
notes/assumptions/27.md. -/
def Obligations.IssueChecks : Prop :=
  (∀ (i : Instr) (n : Need) (s : Machine.State) (id : Nat) (w : Warp) (sp : Split), operandNeed i = some n → Issues s id w sp →
    let deep := n.pops ≤ w.depth sp
    let fits := w.depth sp - n.pops + n.pushes ≤ s.dev.depthLimit w
    let c := residentTarget sp.c n.pops n.pushes
    let empty := fun (cells : Nat) => (w.threadsOf sp.mask).filter fun t => (t.stack.take cells).any fun x => x.ticket?.isSome
    let early := if (memoryForm i).any (fun x => x.2.2.kind == .store) then empty 2 else []
    let bad := empty n.pops
    (¬deep → raises s id w i (postedNow s 0x06 sp.mask sp.pc)) ∧
    (deep → ¬fits → raises s id w i (postedNow s 0x05 sp.mask sp.pc)) ∧
    (deep → fits → c ≠ sp.c → exec i s = .next (withDev s ((s.dev.onLb w.core w.lb fun b =>
      { b with transfers := b.transfers ++ [⟨id, sp.mask, sp.c, c⟩] }).block id .transfer))) ∧
    (deep → fits → c = sp.c → bad ≠ [] → n.w = true →
      let bad := if early = [] then bad else early
      raises s id w i (postedNow s 0x07 (maskOf (bad.map Thread.lane)) sp.pc)) ∧
    (deep → fits → c = sp.c → bad ≠ [] → n.w = false → ∃ ts : List Nat, exec i s = .next (withDev s (s.dev.block id (.cells ts))))) ∧
  (∀ (i : Instr) (b : Bool) (off : BitVec 16) (f : MemForm) (s : Machine.State) (id : Nat) (w : Warp) (sp : Split) (l : Nat),
    memoryForm i = some (b, off, f) → Ready s id w sp (memoryNeed i b f) →
    (∀ l ∈ lanesOf sp.mask, (address w off l).toNat < 2 ^ 57) →
    (lanesOf sp.mask).find? (fun l => decide ((address w off l).toNat % f.bytes ≠ 0)) = some l →
      raises s id w i ⟨s.dev.nextId, 0x0B, 0, 0,
        maskOf ((lanesOf sp.mask).filter fun l => decide ((address w off l).toNat % f.bytes ≠ 0)), sp.pc, address w off l, 0, []⟩) ∧
  ∀ (i : Instr) (s : Machine.State) (id : Nat) (w : Warp) (sp : Split) (b : Bool) (e f : BitVec 4),
    i = .rte ∨ i = .rplq b e f ∨ i = .wplq b e f → Issues s id w sp → w.handler = none →
      raises s id w i (postedNow s 0x01 sp.mask sp.pc)

/-- R83, R87, R88, R171: a finite number rounded into a format with an infinity is the nearest value of it, ties to even, or the
nearest one toward zero, toward −∞ or toward +∞, with the sign of the number; an overflow gives infinity; inexact says whether the value changed; and a NaN
operand gives the default NaN. -/
def Obligations.RoundingResults : Prop :=
  (∀ (f : FloatFormat) (neg : Bool) (m k : Nat) (e q : Int), f ∈ [fmtFp64, fmtFp32, fmtFp16, fmtBf16, fmtE5m2] → 0 < m →
    f.decode f.largest = .fin false k q false →
    let v := rational (.fin neg m e false)
    let largest := rational (.fin false k q false)
    let limit : Rat := (2 * k + 1) * (2 : Rat) ^ (q - 1)
    let infinite := (f.sign neg + f.infinity, flagOF ||| flagNX)
    let gives := fun (mode : Nat) (best : Rat → Rat → Prop) => ∃ r x, f.decode (f.round mode false (.fin neg m e false)).1 = .fin neg r x false ∧
      (∀ y, FiniteIn f y → best (rational (.fin neg r x false)) y) ∧
      ((f.round mode false (.fin neg m e false)).2 &&& flagNX ≠ 0 ↔ rational (.fin neg r x false) ≠ v)
    (|v| < limit → gives 0 fun w y => |w - v| ≤ |y - v| ∧
      (|w - v| = |y - v| → y = w ∨ (f.round 0 false (.fin neg m e false)).1 % 2 = 0)) ∧
    (limit ≤ |v| → f.round 0 false (.fin neg m e false) = infinite) ∧
    gives 1 (fun w y => |w| ≤ |v| ∧ (|y| ≤ |v| → |y| ≤ |w|)) ∧
    (-largest ≤ v → gives 2 fun w y => w ≤ v ∧ (y ≤ v → y ≤ w)) ∧
    (v < -largest → f.round 2 false (.fin neg m e false) = infinite) ∧
    (v ≤ largest → gives 3 fun w y => v ≤ w ∧ (v ≤ y → w ≤ y)) ∧
    (largest < v → f.round 3 false (.fin neg m e false) = infinite)) ∧
  ∀ (rm : BitVec 2) (x a b : Dword),
    let nan := fun (v : Dword) => (fmtFp32.decode v.toNat).isNan = true
    (nan b → ∀ o ∈ [fpAdd rm, fpSub rm, fpMul rm, fpDiv rm, fpFma rm, fpSqrt rm, fpRcp rm], (o.f x a b).1 = 0x7FC00000) ∧
    (nan a → ∀ o ∈ [fpAdd rm, fpSub rm, fpMul rm, fpDiv rm, fpFma rm], (o.f x a b).1 = 0x7FC00000) ∧
    (nan x → ((fpFma rm).f x a b).1 = 0x7FC00000)

/-- R149: `lit.s v`, its word and its effect. -/
def Obligations.SmallLiteral : Prop :=
  ∀ (v : BitVec 7),
    (∀ b, encode (.litS b v) = some [BitVec.ofInt 16 (0x0700 + v.toInt % 128 + if b then 128 else 0)]) ∧
    encode (.litS false (BitVec.ofInt 7 (-1))) = some [0x077F] ∧ -64 ≤ v.toInt ∧ v.toInt ≤ 63 ∧
    ∀ (b : Bool) (s : Machine.State) (id : Nat) (w : Warp) (sp : Split), Ready s id w sp (Need.of 2 false 0 1) →
      exec (.litS b v) s = .next (issued s id (onStacks w sp fun st => .full (BitVec.ofInt 32 v.toInt) :: st) (after sp 2 0 1))

/-- R214: `kli`, its word and its effect. -/
def Obligations.UniformLiteral : Prop :=
  ∀ (kd : BitVec 6) (v : Word),
    (∃ p q r t, encode (.kli kd v) = some [p, q, r, t] ∧
      (p ++ q ++ r ++ t : BitVec 64).toNat = 0xC040000000000000 + kd.toNat * 2 ^ 48 + v.toNat) ∧
    (∀ (s : Machine.State) (id : Nat) (w : Warp) (sp : Split), Ready s id w sp { blind 8 0 0 with regs := [kd.toNat] } →
      exec (.kli kd v) s = .next (issued s id { w with k := kSet w.k kd.toNat v } (after sp 8 0 0))) ∧
    ∀ (s : Machine.State) (id : Nat) (f : Fet), IssuesFet s id f [kd.toNat] →
      exec (.kli kd v) s = .next (issuedFet s id { f with k := kSet f.k kd.toNat v } 8)

/-- R254: `lead`, its word and its effect. -/
def Obligations.LeadingLane : Prop :=
  decodeTableWord 16 0x0C00 = some (.lead false) ∧ encode (.lead false) = some [0x0C00] ∧
  (∀ imm : BitVec 7, imm ≠ 0 → decode16 (s16 0x0C false imm) = none ∧ decode16 (s16 0x0C true imm) = none) ∧
  ∀ (b : Bool) (s : Machine.State) (id : Nat) (w : Warp) (sp : Split), Ready s id w sp (Need.of 2 false 0 1) →
    exec (.lead b) s = .next (issued s id
      (w.onLanes sp.mask fun t => { t with stack := .full (if t.lane = lowest sp.mask then 1 else 0) :: t.stack }) (after sp 2 0 1))

/-- R36 to R38, R40, R76, R104, R119, R261, R380: a step runs the instruction that the bytes at the program counter decode to: a
lane block's turn that of its warp, a front-end turn that of its context, a command turn the command at its stream's position, and
an event's turn the event; and bytes that decode to nothing trap. An instruction that waits or traps has made no request; one that
issues, alone or with the one that co-issues, is debited, put off to the second pass, or refused, as the bucket decides. -/
def Obligations.StepRunsDecoded : Prop :=
  ∀ (s : Machine.State) (ts : List Turn), s.host.stopped = false →
    let rest : Machine.State := { s with agenda := ts }
    (∀ (core lb id n : Nat) (place : Nat × Bool) (w : Warp) (sp : Split), s.agenda = .lane core lb :: ts →
      let b := (s.dev.core core).lb lb
      let d := (s.dev.burnHold core lb).repaid core lb
      let c := d.core core
      let pa := (c.segment n).pa + sp.pc.toNat % 4096
      let slot := d.slotOf w.team
      s.dev.lanePlace core lb = some place → (place.2 = true ∨ b.misses = []) → d.candidate core lb = some id →
      d.warp? id = some w → w.cur = some sp → c.pageSegment slot (sp.pc.toNat / 4096) .valid = some n →
      d.poisoned pa 2 = false → d.chipPoisoned core 6 (n * 512 + sp.pc.toNat % 4096 / 8) 1 = false →
      let bytes := Memory.readBytes d.mem pa (min 8 (64 - sp.pc.toNat % 64))
      let d := { d with issuer := .warp id, issued := false }
      let k := clusterOf core
      let r := requester core lb
      (∀ i more, decode bytes = .ok (i, more) →
        let cost := tokenCost (d.launchOf w.team) i
        let g : Grant := ⟨i, id, sp.mask, sp.pc, sp.pc + BitVec.ofNat 57 (bytes.length - more.length), cost, false, place.1, place.2, b.due⟩
        let before := d.touchSegment core slot sp.pc
        let decides := fun (t : Machine.State) (cost : Nat) =>
          let grants := (before.cluster k).grants r cost b.due
          (grants = true → place.2 = false → step s = .next (withDev t
            ((t.dev.onCluster k fun c => c.granted r cost g).onLb core lb fun b => b.spend g))) ∧
          (grants = true → place.2 = true → step s = .next (withDev t
            ((before.onCluster k fun c => c.granted r cost g).onLb core lb fun b => { b with due := some cost }))) ∧
          (grants = false → step s = .next (withDev t
            ((before.onCluster k fun c => (c.refuse r).decided place.1).onLb core lb fun b => { b with credit := 0 })))
        ∀ t, exec i (withDev rest before) = .next t →
          (before.breaks g = true → t.dev.waitsAt g = false → step s = .next (withDev rest (before.stopTeamOf id))) ∧
          (before.breaks g = false ∨ t.dev.waitsAt g = true →
            (t.dev.issued = false → step s = .next t) ∧
            (t.dev.issued = true →
              let a := t.dev.afterLane core lb g
              (a.pairMate core lb g = none → decides (withDev t a) cost) ∧
              ∀ m e u, a.pairMate core lb g = some (m, e) → exec m.instr (withDev t e) = .next u →
                (u.dev.issued = false → decides (withDev t a) cost) ∧
                (u.dev.issued = true → decides (withDev u (u.dev.afterLane core lb m)) (cost + m.cost))))) ∧
      (decode bytes = .error .tooShort → step s = .next (withDev rest (d.raise s.host id sp 0x03 sp.mask 0 0))) ∧
      (∀ e, decode bytes = .error e → e ≠ .tooShort → step s = .next (withDev rest (d.raise s.host id sp 0x01 sp.mask 0 0)))) ∧
    (∀ (core id n : Nat) (place : Nat × Bool) (f : Fet), s.agenda = .frontEnd core :: ts →
      let d := s.dev.fetRepaid core
      let c := d.core core
      let due := (s.dev.core core).fetDue
      let pa := (c.segment n).pa + f.pc.toNat % 4096
      let slot := d.slotOf f.team
      s.dev.fetPlace core = some place → (place.2 = true ∨ (s.dev.core core).fetMisses = []) → d.nextFet core = some id →
      Table.find? d.fets id = some f → c.pageSegment slot (f.pc.toNat / 4096) .valid = some n →
      d.poisoned pa 2 = false → d.chipPoisoned core 6 (n * 512 + f.pc.toNat % 4096 / 8) 1 = false →
      let bytes := Memory.readBytes d.mem pa (min 8 (64 - f.pc.toNat % 64))
      let d := { d with issuer := .fet id, issued := false }
      ∀ i more, decode bytes = .ok (i, more) →
        let cost := tokenCost (d.launchOf f.team) i
        let g : Grant := ⟨i, id, 0, f.pc, f.pc + BitVec.ofNat 57 (bytes.length - more.length), cost, false, place.1, place.2, due⟩
        let before := d.touchSegment core slot f.pc
        let r := requester core 4
        let k := clusterOf core
        ∀ t, exec i (withDev rest before) = .next t →
          (before.fetBreaks g = true → t.dev.fetWaits g = false → step s = .next (withDev rest (before.stopTeamOfFet id))) ∧
          (before.fetBreaks g = false ∨ t.dev.fetWaits g = true →
            (t.dev.issued = false → step s = .next t) ∧
            (t.dev.issued = true → (before.cluster k).grants r cost due = true → place.2 = false →
              step s = .next (withDev t (((t.dev.onCluster k fun c => (c.debit r cost).decided place.1).onCore core fun c =>
                { c with fetTurn := id, fetDue := none, fetCredit := c.fetCredit - 1 }).onFet id fun f => { f with stopped := none }))) ∧
            (t.dev.issued = true → (before.cluster k).grants r cost due = false →
              step s = .next (withDev t ((before.onCluster k fun c => (c.refuse r).decided place.1).onCore core fun c =>
                { c with fetCredit := 0 }))))) ∧
    (∀ (i : Instr) (d : Dev), s.agenda = .command :: ts → s.dev.commandTurn s.host = .run i d →
      step s = exec i (withDev rest d)) ∧
    ∀ i, s.agenda = .event i :: ts → step s = exec i (withDev rest { s.dev with issuer := .none, issued := false })

/-- R117 to R122, R126, R130 to R141: words written out from the encoding tables, as bytes, decode to their instructions. -/
def Obligations.DecodesWords : Prop :=
  decode [0x00, 0x30] = .ok (.fadd false 0, []) ∧
  decode [0x7F, 0x07, 0xAA, 0x55] = .ok (.litS false (-1), [0xAA, 0x55]) ∧
  decode [0x84, 0xB4, 0x04, 0x00] = .ok (.kred 4 4, []) ∧
  decode [0x40, 0xAD, 0x68, 0x00] = .ok (.bfe false false 3 8, []) ∧
  decode [0xC1, 0xA7, 0x40, 0x00] = .ok (.barSync false 1 64, []) ∧
  decode [0x00, 0xC0, 0x00, 0x00, 0x49, 0x40, 0xDB, 0x0F] = .ok (.lit32 0x40490FDB, []) ∧
  decode [0x42, 0xC0, 0x00, 0x00, 0x00, 0x00, 0x0A, 0x00] = .ok (.kli 2 10, []) ∧
  decode [0x40, 0xC4, 0x00, 0x20, 0x00, 0x00, 0x00, 0x00] = .ok (.mclr 2 false, []) ∧
  decode [0x58, 0xCC, 0x00, 0x00, 0x00, 0x00, 0x03, 0x00] = .ok (.vtag 24 3, []) ∧
  decodeTableWord 16 0x0C01 = none

/-- R117 to R141, R106, R107: the encoding of every well-formed instruction decodes to it, whatever bytes follow, and that of every
well-formed command of a stream. -/
def Obligations.DecodesEncoding : Prop :=
  ∀ i : Instr, i.wellFormed = true →
    (∀ ps rest, encode i = some ps → decode (bytesOf ps ++ rest) = .ok (i, rest)) ∧
    ∀ ws, encodeCommand i = some ws → decodeCommand ws = some i

/-- R5, R64: every step keeps memory in its canonical form: addresses rise strictly, and no byte that reads as an unlisted one is
listed. -/
def Obligations.MemoryStaysCanonical : Prop := ∀ s t : Machine.State, memory s → step s = .next t → memory t

/-- R156, R346, R377, R379, R382 to R385: reset: memory is in canonical form, every context slot is FREE, no feature is active
and none committed, no function is ready, and nothing is under way; every byte of memory reads 0, and clusters run at level 0 with
a full bucket, which the model chooses (notes/assumptions/5.md and 7.md). -/
def Obligations.ResetLeaves : Prop :=
  memory State.reset ∧ (∀ slot, (State.reset.dev.context slot).state = .free) ∧ State.reset.host.featActive = 0 ∧
    State.reset.host.committed = false ∧ State.reset.host.ready = 0 ∧ State.reset.dev.warps = [] ∧ State.reset.dev.launches = [] ∧
    State.reset.dev.accesses = [] ∧ (∀ a, Memory.read State.reset.dev.mem a = 0) ∧
    ∀ n, (State.reset.dev.cluster n).level = 0 ∧ (State.reset.dev.cluster n).tokens = 4096
end

