-- ==== Sys2Proof/Laws/Memory.lean ====
section
/-! SUPPORT. What tables and memory give back, and that every memory operation keeps the canonical form. -/

namespace Sys2Proof.Machine

open Sys2Proof

/-! ## Tables -/

@[simp] theorem Table.find?_nil {α : Type} (n : Nat) : Table.find? ([] : Table α) n = none := rfl

@[simp] theorem Table.find?_set_self {α : Type} (t : Table α) (n : Nat) (a : α) : Table.find? (Table.set t n a) n = some a := by
  induction t with
  | nil => simp [Table.set, Table.find?]
  | cons e t ih =>
    unfold Table.set
    split
    · simp [Table.find?]
    · split
      · simp [Table.find?]
      · simp [Table.find?, *]

theorem Table.find?_set_of_ne {α : Type} (t : Table α) {m n : Nat} (a : α) (h : m ≠ n) :
    Table.find? (Table.set t n a) m = Table.find? t m := by
  induction t with
  | nil => simp [Table.set, Table.find?, h.symm]
  | cons e t ih =>
    unfold Table.set
    split
    next hk => subst hk; simp [Table.find?, h.symm]
    next =>
      split
      · simp [Table.find?, h.symm]
      · simp [Table.find?, ih]

theorem Table.find?_erase_of_ne {α : Type} (t : Table α) {m n : Nat} (h : m ≠ n) :
    Table.find? (Table.erase t n) m = Table.find? t m := by
  induction t with
  | nil => rfl
  | cons e t ih =>
    unfold Table.erase
    split
    next hk => subst hk; simp [Table.find?, h.symm]
    next => simp [Table.find?, ih]

@[simp] theorem Table.find?_modify_self {α : Type} (t : Table α) (n : Nat) (f : α → α) :
    Table.find? (Table.modify t n f) n = (Table.find? t n).map f := by
  unfold Table.modify
  cases h : Table.find? t n <;> simp [h]

theorem Table.find?_modify_of_ne {α : Type} (t : Table α) {m n : Nat} (f : α → α) (h : m ≠ n) :
    Table.find? (Table.modify t n f) m = Table.find? t m := by
  unfold Table.modify
  split
  · rfl
  · exact Table.find?_set_of_ne t _ h

@[simp] theorem Table.get_set_self {α : Type} (t : Table α) (n : Nat) (a absent : α) : Table.get (Table.set t n a) n absent = a := by
  simp [Table.get]

theorem Table.get_set_of_ne {α : Type} (t : Table α) {m n : Nat} (a absent : α) (h : m ≠ n) :
    Table.get (Table.set t n a) m absent = Table.get t m absent := by
  simp [Table.get, Table.find?_set_of_ne t a h]

/-- A table with an entry of a number set to what it was is as it was. -/
theorem Table.set_find? {α : Type} (t : Table α) {n : Nat} {a : α} (hs : t.Pairwise fun x y => x.1 < y.1)
    (h : Table.find? t n = some a) : Table.set t n a = t := by
  induction t with
  | nil => simp [Table.find?] at h
  | cons e t ih =>
    obtain ⟨k, v⟩ := e
    simp only [Table.find?] at h
    have hs' := List.pairwise_cons.1 hs
    unfold Table.set
    split at h
    next hk => subst hk; simp_all
    next hk =>
      have hlt : ∃ y ∈ t, y.1 = n := by
        clear ih hs hs'
        induction t with
        | nil => simp [Table.find?] at h
        | cons z t ih =>
          simp only [Table.find?] at h
          split at h
          next hz => exact ⟨z, by simp, hz⟩
          next => obtain ⟨y, hy, hn⟩ := ih h; exact ⟨y, by simp [hy], hn⟩
      obtain ⟨y, hy, hn⟩ := hlt
      have := hs'.1 y hy
      rw [if_neg hk, if_neg (by simp only at this; omega), ih hs'.2 h]

/-! ## Bytes and their values -/

@[simp] theorem leBytes_length (n v : Nat) : (leBytes n v).length = n := by
  induction n generalizing v with
  | zero => rfl
  | succ n ih => simp [leBytes, ih]

@[simp] theorem leValue_leBytes (n v : Nat) : leValue (leBytes n v) = v % 256 ^ n := by
  induction n generalizing v with
  | zero => simp [leBytes, leValue, Nat.mod_one]
  | succ n ih =>
    have e : 256 ^ (n + 1) = 256 * 256 ^ n := by rw [Nat.pow_succ, Nat.mul_comm]
    simp only [leBytes, leValue, ih, BitVec.toNat_ofNat]
    rw [e, Nat.mod_mul]

theorem leValue_lt (bs : List Byte) : leValue bs < 256 ^ bs.length := by
  induction bs with
  | nil => simp [leValue]
  | cons b bs ih =>
    simp only [leValue, List.length_cons, Nat.pow_succ]
    have := b.isLt
    omega

/-! ## Memory: the canonical form is kept -/

theorem Memory.wfFrom_mono {lo lo' : Nat} {m : Memory} (h : Memory.wfFrom lo m = true) (hl : lo' ≤ lo) :
    Memory.wfFrom lo' m = true := by
  cases m with
  | nil => rfl
  | cons c m => simp only [Memory.wfFrom, Bool.and_eq_true, decide_eq_true_eq] at h ⊢; exact ⟨⟨by omega, h.1.2⟩, h.2⟩

theorem Memory.wfFrom_filter {lo : Nat} {m : Memory} (p : Host.Cell → Bool) (h : Memory.wfFrom lo m = true) :
    Memory.wfFrom lo (m.filter p) = true := by
  induction m generalizing lo with
  | nil => rfl
  | cons c m ih =>
    simp only [Memory.wfFrom, Bool.and_eq_true, decide_eq_true_eq] at h
    rw [List.filter_cons]
    split
    · simp only [Memory.wfFrom, Bool.and_eq_true, decide_eq_true_eq]
      exact ⟨h.1, ih h.2⟩
    · exact Memory.wfFrom_mono (ih h.2) (by omega)

theorem Memory.wfFrom_drop {lo : Nat} {m : Memory} (a : Nat) (h : Memory.wfFrom lo m = true) :
    Memory.wfFrom lo (Memory.drop m a) = true := by
  induction m generalizing lo with
  | nil => rfl
  | cons c m ih =>
    have h' := h
    simp only [Memory.wfFrom, Bool.and_eq_true, decide_eq_true_eq] at h'
    unfold Memory.drop
    split
    · exact Memory.wfFrom_mono h'.2 (by omega)
    · split
      · exact h
      · simp only [Memory.wfFrom, Bool.and_eq_true, decide_eq_true_eq]; exact ⟨h'.1, ih h'.2⟩

theorem Memory.wfFrom_put {lo : Nat} {m : Memory} {a : Nat} {v : Byte} (h : Memory.wfFrom lo m = true) (hl : lo ≤ a) (hv : v ≠ 0) :
    Memory.wfFrom lo (Memory.put m a v) = true := by
  induction m generalizing lo with
  | nil => simpa [Memory.put, Memory.wfFrom, hl] using hv
  | cons c m ih =>
    have h' := h
    simp only [Memory.wfFrom, Bool.and_eq_true, decide_eq_true_eq] at h'
    unfold Memory.put
    split
    next hk => subst hk; simpa [Memory.wfFrom, h'.1.1, h'.2] using hv
    next hk =>
      split
      · simp only [Memory.wfFrom, Bool.and_eq_true, decide_eq_true_eq]
        exact ⟨⟨hl, by simpa using hv⟩, ⟨by omega, h'.1.2⟩, h'.2⟩
      · simp only [Memory.wfFrom, Bool.and_eq_true, decide_eq_true_eq]
        exact ⟨h'.1, ih h'.2 (by omega)⟩

theorem Memory.wf_write {m : Memory} (a : Nat) (v : Byte) (h : Memory.wf m = true) : Memory.wf (Memory.write m a v) = true := by
  unfold Memory.write
  split
  · exact Memory.wfFrom_drop a h
  · exact Memory.wfFrom_put h (Nat.zero_le a) ‹_›

theorem Memory.wf_writeBytes {m : Memory} (a : Nat) (bs : List Byte) (h : Memory.wf m = true) :
    Memory.wf (Memory.writeBytes m a bs) = true := by
  induction bs generalizing m a with
  | nil => exact h
  | cons b bs ih => exact ih (a + 1) (Memory.wf_write a b h)

theorem Memory.wf_clear {m : Memory} (a n : Nat) (h : Memory.wf m = true) : Memory.wf (Memory.clear m a n) = true :=
  Memory.wfFrom_filter _ h

theorem Memory.wf_copyRange {m : Memory} (src dst n : Nat) (h : Memory.wf m = true) :
    Memory.wf (Memory.copyRange m src dst n) = true := by
  unfold Memory.copyRange
  generalize Memory.range m src n = cs
  have h : Memory.wf (Memory.clear m dst n) = true := Memory.wf_clear dst n h
  generalize Memory.clear m dst n = m' at h
  induction cs generalizing m' with
  | nil => exact h
  | cons c cs ih => exact ih _ (Memory.wf_write _ _ h)

theorem Memory.wf_reset : Memory.wf State.reset.dev.mem = true := rfl

/-! ## Memory: a read after a write -/

/-- Below its first address, memory reads 0. -/
theorem Memory.read_below {lo : Nat} {m : Memory} {a : Nat} (h : Memory.wfFrom lo m = true) (ha : a < lo) : Memory.read m a = 0 := by
  cases m with
  | nil => rfl
  | cons c m =>
    simp only [Memory.wfFrom, Bool.and_eq_true, decide_eq_true_eq] at h
    unfold Memory.read
    rw [if_neg (by omega), if_pos (by omega)]

theorem Memory.read_put_self (m : Memory) (a : Nat) (v : Byte) : Memory.read (Memory.put m a v) a = v := by
  induction m with
  | nil => simp [Memory.put, Memory.read]
  | cons c m ih =>
    unfold Memory.put
    split
    · simp [Memory.read]
    · split
      · simp [Memory.read]
      · simp only [Memory.read]
        rw [if_neg ‹_›, if_neg ‹_›, ih]

theorem Memory.read_put_of_ne (m : Memory) {a x : Nat} (v : Byte) (h : x ≠ a) : Memory.read (Memory.put m a v) x = Memory.read m x := by
  induction m with
  | nil => simp only [Memory.put, Memory.read]; split <;> simp_all
  | cons c m ih =>
    unfold Memory.put
    split
    next hk => subst hk; simp [Memory.read, h.symm]
    next hk =>
      split
      · simp only [Memory.read]
        rw [if_neg h.symm]
        split
        · rw [if_neg (by omega), if_pos (by omega)]
        · rfl
      · simp [Memory.read, ih]

theorem Memory.read_drop_self {lo : Nat} {m : Memory} (a : Nat) (h : Memory.wfFrom lo m = true) : Memory.read (Memory.drop m a) a = 0 := by
  induction m generalizing lo with
  | nil => rfl
  | cons c m ih =>
    have h' := h
    simp only [Memory.wfFrom, Bool.and_eq_true, decide_eq_true_eq] at h'
    unfold Memory.drop
    split
    next hk => exact Memory.read_below h'.2 (by omega)
    next hk =>
      split
      · unfold Memory.read; rw [if_neg hk, if_pos ‹_›]
      · unfold Memory.read; rw [if_neg hk, if_neg ‹_›, ih h'.2]

theorem Memory.read_drop_of_ne {lo : Nat} {m : Memory} {a x : Nat} (h : Memory.wfFrom lo m = true) (hx : x ≠ a) :
    Memory.read (Memory.drop m a) x = Memory.read m x := by
  induction m generalizing lo with
  | nil => rfl
  | cons c m ih =>
    have h' := h
    simp only [Memory.wfFrom, Bool.and_eq_true, decide_eq_true_eq] at h'
    unfold Memory.drop
    split
    next hk =>
      subst hk
      simp only [Memory.read]
      rw [if_neg hx.symm]
      split
      · exact Memory.read_below h'.2 (by omega)
      · rfl
    next hk =>
      split
      · rfl
      · simp [Memory.read, ih h'.2]

theorem Memory.read_write_self {m : Memory} (a : Nat) (v : Byte) (h : Memory.wf m = true) : Memory.read (Memory.write m a v) a = v := by
  unfold Memory.write
  split
  next hv => rw [hv]; exact Memory.read_drop_self a h
  next => exact Memory.read_put_self m a v

theorem Memory.read_write_of_ne {m : Memory} {a x : Nat} (v : Byte) (h : Memory.wf m = true) (hx : x ≠ a) :
    Memory.read (Memory.write m a v) x = Memory.read m x := by
  unfold Memory.write
  split
  · exact Memory.read_drop_of_ne h hx
  · exact Memory.read_put_of_ne m v hx

theorem Memory.read_writeBytes_outside {m : Memory} {a x : Nat} {bs : List Byte} (h : Memory.wf m = true)
    (hx : x < a ∨ a + bs.length ≤ x) : Memory.read (Memory.writeBytes m a bs) x = Memory.read m x := by
  induction bs generalizing m a with
  | nil => rfl
  | cons b bs ih =>
    simp only [List.length_cons] at hx
    show Memory.read (Memory.writeBytes (Memory.write m a b) (a + 1) bs) x = _
    rw [ih (Memory.wf_write a b h) (by omega), Memory.read_write_of_ne b h (by omega)]

theorem Memory.read_writeBytes_inside {m : Memory} {a i : Nat} {bs : List Byte} (h : Memory.wf m = true) (hi : i < bs.length) :
    Memory.read (Memory.writeBytes m a bs) (a + i) = bs[i] := by
  induction bs generalizing m a i with
  | nil => simp at hi
  | cons b bs ih =>
    show Memory.read (Memory.writeBytes (Memory.write m a b) (a + 1) bs) (a + i) = _
    cases i with
    | zero =>
      rw [Memory.read_writeBytes_outside (Memory.wf_write a b h) (by omega)]
      simpa using Memory.read_write_self a b h
    | succ i =>
      have := ih (m := Memory.write m a b) (a := a + 1) (i := i) (Memory.wf_write a b h) (by simpa using hi)
      rw [show a + (i + 1) = a + 1 + i by omega, this]
      rfl

@[simp] theorem Memory.readBytes_length (m : Memory) (a n : Nat) : (Memory.readBytes m a n).length = n := by
  induction n generalizing a with
  | zero => rfl
  | succ n ih => simp [Memory.readBytes, ih]

theorem Memory.readBytes_get (m : Memory) {a n i : Nat} (h : i < n) :
    (Memory.readBytes m a n)[i]? = some (Memory.read m (a + i)) := by
  induction n generalizing a i with
  | zero => omega
  | succ n ih =>
    cases i with
    | zero => simp [Memory.readBytes]
    | succ i =>
      simp only [Memory.readBytes, List.getElem?_cons_succ]
      rw [ih (by omega), show a + (i + 1) = a + 1 + i by omega]

/-- The bytes written are the bytes read. -/
theorem Memory.readBytes_writeBytes {m : Memory} (a : Nat) (bs : List Byte) (h : Memory.wf m = true) :
    Memory.readBytes (Memory.writeBytes m a bs) a bs.length = bs := by
  apply List.ext_getElem?
  intro i
  by_cases hi : i < bs.length
  · rw [Memory.readBytes_get _ hi, Memory.read_writeBytes_inside h hi, List.getElem?_eq_getElem hi]
  · rw [List.getElem?_eq_none (by simpa using hi), List.getElem?_eq_none (by simpa using hi)]

/-- A cell that a read finds is listed. -/
theorem Memory.read_of_mem {lo : Nat} {m : Memory} {c : Host.Cell} (h : Memory.wfFrom lo m = true) (hc : c ∈ m) :
    Memory.read m c.1 = c.2 ∧ lo ≤ c.1 := by
  induction m generalizing lo with
  | nil => simp at hc
  | cons d m ih =>
    simp only [Memory.wfFrom, Bool.and_eq_true, decide_eq_true_eq] at h
    rcases List.mem_cons.1 hc with rfl | hc
    · exact ⟨by simp [Memory.read], h.1.1⟩
    · have := ih h.2 hc
      refine ⟨?_, by omega⟩
      unfold Memory.read
      rw [if_neg (by omega), if_neg (by omega), this.1]

/-- Filtered memory reads what passes the filter, and 0 elsewhere. -/
theorem Memory.read_filter {lo : Nat} {m : Memory} (p : Nat → Bool) (h : Memory.wfFrom lo m = true) (x : Nat) :
    Memory.read (m.filter fun c => p c.1) x = if p x then Memory.read m x else 0 := by
  induction m generalizing lo with
  | nil => simp [Memory.read]
  | cons c m ih =>
    simp only [Memory.wfFrom, Bool.and_eq_true, decide_eq_true_eq] at h
    rw [List.filter_cons]
    have hb : x < c.1 + 1 → Memory.read (m.filter fun c => p c.1) x = 0 := fun hx =>
      Memory.read_below (Memory.wfFrom_filter _ h.2) hx
    by_cases hp : p c.1
    · rw [if_pos hp]
      simp only [Memory.read]
      by_cases hk : c.1 = x
      · subst hk; simp [hp]
      · rw [if_neg hk, if_neg hk]
        by_cases hx : x < c.1
        · simp [hx]
        · simp [hx, ih h.2]
    · rw [if_neg hp]
      simp only [Memory.read]
      by_cases hk : c.1 = x
      · subst hk; simp [hp, hb]
      · rw [if_neg hk]
        by_cases hx : x < c.1
        · simp [hx, hb (by omega)]
        · simp [hx, ih h.2]

/-- R44, R465: a cleared range reads 0, and the rest as it did. -/
theorem Memory.read_clear {m : Memory} (a n x : Nat) (h : Memory.wf m = true) :
    Memory.read (Memory.clear m a n) x = if a ≤ x ∧ x < a + n then 0 else Memory.read m x := by
  unfold Memory.clear
  rw [Memory.read_filter (fun k => !(decide (a ≤ k) && decide (k < a + n))) h x]
  by_cases hx : a ≤ x ∧ x < a + n <;> simp [hx]

end Sys2Proof.Machine
end

