-- ==== Sys2Proof/Laws/State.lean ====
section
/-! SUPPORT. What each update of the device and of a warp does to each field: the field that it writes, and every other one as it
was. -/

namespace Sys2Proof.Machine

open Sys2Proof

/-! ## `Dev.setContext` -/

@[simp] theorem Dev.setContext_mem (d : Dev) (slot : Nat) (c : Context) : (d.setContext slot c).mem = d.mem := rfl
@[simp] theorem Dev.setContext_poison (d : Dev) (slot : Nat) (c : Context) : (d.setContext slot c).poison = d.poison := rfl
@[simp] theorem Dev.setContext_contexts (d : Dev) (slot : Nat) (c : Context) : (d.setContext slot c).contexts = Table.set d.contexts slot c := rfl
@[simp] theorem Dev.setContext_graphs (d : Dev) (slot : Nat) (c : Context) : (d.setContext slot c).graphs = d.graphs := rfl
@[simp] theorem Dev.setContext_launches (d : Dev) (slot : Nat) (c : Context) : (d.setContext slot c).launches = d.launches := rfl
@[simp] theorem Dev.setContext_teams (d : Dev) (slot : Nat) (c : Context) : (d.setContext slot c).teams = d.teams := rfl
@[simp] theorem Dev.setContext_warps (d : Dev) (slot : Nat) (c : Context) : (d.setContext slot c).warps = d.warps := rfl
@[simp] theorem Dev.setContext_fets (d : Dev) (slot : Nat) (c : Context) : (d.setContext slot c).fets = d.fets := rfl
@[simp] theorem Dev.setContext_accesses (d : Dev) (slot : Nat) (c : Context) : (d.setContext slot c).accesses = d.accesses := rfl
@[simp] theorem Dev.setContext_ops (d : Dev) (slot : Nat) (c : Context) : (d.setContext slot c).ops = d.ops := rfl
@[simp] theorem Dev.setContext_copies (d : Dev) (slot : Nat) (c : Context) : (d.setContext slot c).copies = d.copies := rfl
@[simp] theorem Dev.setContext_colls (d : Dev) (slot : Nat) (c : Context) : (d.setContext slot c).colls = d.colls := rfl
@[simp] theorem Dev.setContext_seals (d : Dev) (slot : Nat) (c : Context) : (d.setContext slot c).seals = d.seals := rfl
@[simp] theorem Dev.setContext_tags (d : Dev) (slot : Nat) (c : Context) : (d.setContext slot c).tags = d.tags := rfl
@[simp] theorem Dev.setContext_cores (d : Dev) (slot : Nat) (c : Context) : (d.setContext slot c).cores = d.cores := rfl
@[simp] theorem Dev.setContext_clusters (d : Dev) (slot : Nat) (c : Context) : (d.setContext slot c).clusters = d.clusters := rfl
@[simp] theorem Dev.setContext_code (d : Dev) (slot : Nat) (c : Context) : (d.setContext slot c).code = d.code := rfl
@[simp] theorem Dev.setContext_cache (d : Dev) (slot : Nat) (c : Context) : (d.setContext slot c).cache = d.cache := rfl
@[simp] theorem Dev.setContext_nextHandle (d : Dev) (slot : Nat) (c : Context) : (d.setContext slot c).nextHandle = d.nextHandle := rfl
@[simp] theorem Dev.setContext_gtime (d : Dev) (slot : Nat) (c : Context) : (d.setContext slot c).gtime = d.gtime := rfl
@[simp] theorem Dev.setContext_irqs (d : Dev) (slot : Nat) (c : Context) : (d.setContext slot c).irqs = d.irqs := rfl
@[simp] theorem Dev.setContext_heldIrqs (d : Dev) (slot : Nat) (c : Context) : (d.setContext slot c).heldIrqs = d.heldIrqs := rfl
@[simp] theorem Dev.setContext_latched (d : Dev) (slot : Nat) (c : Context) : (d.setContext slot c).latched = d.latched := rfl
@[simp] theorem Dev.setContext_oob (d : Dev) (slot : Nat) (c : Context) : (d.setContext slot c).oob = d.oob := rfl
@[simp] theorem Dev.setContext_hbmTaken (d : Dev) (slot : Nat) (c : Context) : (d.setContext slot c).hbmTaken = d.hbmTaken := rfl
@[simp] theorem Dev.setContext_lpddrTaken (d : Dev) (slot : Nat) (c : Context) : (d.setContext slot c).lpddrTaken = d.lpddrTaken := rfl
@[simp] theorem Dev.setContext_freeFrames (d : Dev) (slot : Nat) (c : Context) : (d.setContext slot c).freeFrames = d.freeFrames := rfl
@[simp] theorem Dev.setContext_heartbeats (d : Dev) (slot : Nat) (c : Context) : (d.setContext slot c).heartbeats = d.heartbeats := rfl
@[simp] theorem Dev.setContext_l2 (d : Dev) (slot : Nat) (c : Context) : (d.setContext slot c).l2 = d.l2 := rfl
@[simp] theorem Dev.setContext_queueCopies (d : Dev) (slot : Nat) (c : Context) : (d.setContext slot c).queueCopies = d.queueCopies := rfl
@[simp] theorem Dev.setContext_arrivals (d : Dev) (slot : Nat) (c : Context) : (d.setContext slot c).arrivals = d.arrivals := rfl
@[simp] theorem Dev.setContext_decisions (d : Dev) (slot : Nat) (c : Context) : (d.setContext slot c).decisions = d.decisions := rfl
@[simp] theorem Dev.setContext_dump (d : Dev) (slot : Nat) (c : Context) : (d.setContext slot c).dump = d.dump := rfl
@[simp] theorem Dev.setContext_issuer (d : Dev) (slot : Nat) (c : Context) : (d.setContext slot c).issuer = d.issuer := rfl
@[simp] theorem Dev.setContext_issued (d : Dev) (slot : Nat) (c : Context) : (d.setContext slot c).issued = d.issued := rfl
@[simp] theorem Dev.setContext_free (d : Dev) (slot : Nat) (c : Context) : (d.setContext slot c).free = d.free := rfl
@[simp] theorem Dev.setContext_nextId (d : Dev) (slot : Nat) (c : Context) : (d.setContext slot c).nextId = d.nextId := rfl

/-! ## `Dev.setCore` -/

@[simp] theorem Dev.setCore_mem (d : Dev) (j : Nat) (c : Core) : (d.setCore j c).mem = d.mem := rfl
@[simp] theorem Dev.setCore_poison (d : Dev) (j : Nat) (c : Core) : (d.setCore j c).poison = d.poison := rfl
@[simp] theorem Dev.setCore_contexts (d : Dev) (j : Nat) (c : Core) : (d.setCore j c).contexts = d.contexts := rfl
@[simp] theorem Dev.setCore_graphs (d : Dev) (j : Nat) (c : Core) : (d.setCore j c).graphs = d.graphs := rfl
@[simp] theorem Dev.setCore_launches (d : Dev) (j : Nat) (c : Core) : (d.setCore j c).launches = d.launches := rfl
@[simp] theorem Dev.setCore_teams (d : Dev) (j : Nat) (c : Core) : (d.setCore j c).teams = d.teams := rfl
@[simp] theorem Dev.setCore_warps (d : Dev) (j : Nat) (c : Core) : (d.setCore j c).warps = d.warps := rfl
@[simp] theorem Dev.setCore_fets (d : Dev) (j : Nat) (c : Core) : (d.setCore j c).fets = d.fets := rfl
@[simp] theorem Dev.setCore_accesses (d : Dev) (j : Nat) (c : Core) : (d.setCore j c).accesses = d.accesses := rfl
@[simp] theorem Dev.setCore_ops (d : Dev) (j : Nat) (c : Core) : (d.setCore j c).ops = d.ops := rfl
@[simp] theorem Dev.setCore_copies (d : Dev) (j : Nat) (c : Core) : (d.setCore j c).copies = d.copies := rfl
@[simp] theorem Dev.setCore_colls (d : Dev) (j : Nat) (c : Core) : (d.setCore j c).colls = d.colls := rfl
@[simp] theorem Dev.setCore_seals (d : Dev) (j : Nat) (c : Core) : (d.setCore j c).seals = d.seals := rfl
@[simp] theorem Dev.setCore_tags (d : Dev) (j : Nat) (c : Core) : (d.setCore j c).tags = d.tags := rfl
@[simp] theorem Dev.setCore_cores (d : Dev) (j : Nat) (c : Core) : (d.setCore j c).cores = Table.set d.cores j c := rfl
@[simp] theorem Dev.setCore_clusters (d : Dev) (j : Nat) (c : Core) : (d.setCore j c).clusters = d.clusters := rfl
@[simp] theorem Dev.setCore_code (d : Dev) (j : Nat) (c : Core) : (d.setCore j c).code = d.code := rfl
@[simp] theorem Dev.setCore_cache (d : Dev) (j : Nat) (c : Core) : (d.setCore j c).cache = d.cache := rfl
@[simp] theorem Dev.setCore_nextHandle (d : Dev) (j : Nat) (c : Core) : (d.setCore j c).nextHandle = d.nextHandle := rfl
@[simp] theorem Dev.setCore_gtime (d : Dev) (j : Nat) (c : Core) : (d.setCore j c).gtime = d.gtime := rfl
@[simp] theorem Dev.setCore_irqs (d : Dev) (j : Nat) (c : Core) : (d.setCore j c).irqs = d.irqs := rfl
@[simp] theorem Dev.setCore_heldIrqs (d : Dev) (j : Nat) (c : Core) : (d.setCore j c).heldIrqs = d.heldIrqs := rfl
@[simp] theorem Dev.setCore_latched (d : Dev) (j : Nat) (c : Core) : (d.setCore j c).latched = d.latched := rfl
@[simp] theorem Dev.setCore_oob (d : Dev) (j : Nat) (c : Core) : (d.setCore j c).oob = d.oob := rfl
@[simp] theorem Dev.setCore_hbmTaken (d : Dev) (j : Nat) (c : Core) : (d.setCore j c).hbmTaken = d.hbmTaken := rfl
@[simp] theorem Dev.setCore_lpddrTaken (d : Dev) (j : Nat) (c : Core) : (d.setCore j c).lpddrTaken = d.lpddrTaken := rfl
@[simp] theorem Dev.setCore_freeFrames (d : Dev) (j : Nat) (c : Core) : (d.setCore j c).freeFrames = d.freeFrames := rfl
@[simp] theorem Dev.setCore_heartbeats (d : Dev) (j : Nat) (c : Core) : (d.setCore j c).heartbeats = d.heartbeats := rfl
@[simp] theorem Dev.setCore_l2 (d : Dev) (j : Nat) (c : Core) : (d.setCore j c).l2 = d.l2 := rfl
@[simp] theorem Dev.setCore_queueCopies (d : Dev) (j : Nat) (c : Core) : (d.setCore j c).queueCopies = d.queueCopies := rfl
@[simp] theorem Dev.setCore_arrivals (d : Dev) (j : Nat) (c : Core) : (d.setCore j c).arrivals = d.arrivals := rfl
@[simp] theorem Dev.setCore_decisions (d : Dev) (j : Nat) (c : Core) : (d.setCore j c).decisions = d.decisions := rfl
@[simp] theorem Dev.setCore_dump (d : Dev) (j : Nat) (c : Core) : (d.setCore j c).dump = d.dump := rfl
@[simp] theorem Dev.setCore_issuer (d : Dev) (j : Nat) (c : Core) : (d.setCore j c).issuer = d.issuer := rfl
@[simp] theorem Dev.setCore_issued (d : Dev) (j : Nat) (c : Core) : (d.setCore j c).issued = d.issued := rfl
@[simp] theorem Dev.setCore_free (d : Dev) (j : Nat) (c : Core) : (d.setCore j c).free = d.free := rfl
@[simp] theorem Dev.setCore_nextId (d : Dev) (j : Nat) (c : Core) : (d.setCore j c).nextId = d.nextId := rfl

/-! ## `Dev.setCluster` -/

@[simp] theorem Dev.setCluster_mem (d : Dev) (n : Nat) (c : Cluster) : (d.setCluster n c).mem = d.mem := rfl
@[simp] theorem Dev.setCluster_poison (d : Dev) (n : Nat) (c : Cluster) : (d.setCluster n c).poison = d.poison := rfl
@[simp] theorem Dev.setCluster_contexts (d : Dev) (n : Nat) (c : Cluster) : (d.setCluster n c).contexts = d.contexts := rfl
@[simp] theorem Dev.setCluster_graphs (d : Dev) (n : Nat) (c : Cluster) : (d.setCluster n c).graphs = d.graphs := rfl
@[simp] theorem Dev.setCluster_launches (d : Dev) (n : Nat) (c : Cluster) : (d.setCluster n c).launches = d.launches := rfl
@[simp] theorem Dev.setCluster_teams (d : Dev) (n : Nat) (c : Cluster) : (d.setCluster n c).teams = d.teams := rfl
@[simp] theorem Dev.setCluster_warps (d : Dev) (n : Nat) (c : Cluster) : (d.setCluster n c).warps = d.warps := rfl
@[simp] theorem Dev.setCluster_fets (d : Dev) (n : Nat) (c : Cluster) : (d.setCluster n c).fets = d.fets := rfl
@[simp] theorem Dev.setCluster_accesses (d : Dev) (n : Nat) (c : Cluster) : (d.setCluster n c).accesses = d.accesses := rfl
@[simp] theorem Dev.setCluster_ops (d : Dev) (n : Nat) (c : Cluster) : (d.setCluster n c).ops = d.ops := rfl
@[simp] theorem Dev.setCluster_copies (d : Dev) (n : Nat) (c : Cluster) : (d.setCluster n c).copies = d.copies := rfl
@[simp] theorem Dev.setCluster_colls (d : Dev) (n : Nat) (c : Cluster) : (d.setCluster n c).colls = d.colls := rfl
@[simp] theorem Dev.setCluster_seals (d : Dev) (n : Nat) (c : Cluster) : (d.setCluster n c).seals = d.seals := rfl
@[simp] theorem Dev.setCluster_tags (d : Dev) (n : Nat) (c : Cluster) : (d.setCluster n c).tags = d.tags := rfl
@[simp] theorem Dev.setCluster_cores (d : Dev) (n : Nat) (c : Cluster) : (d.setCluster n c).cores = d.cores := rfl
@[simp] theorem Dev.setCluster_clusters (d : Dev) (n : Nat) (c : Cluster) : (d.setCluster n c).clusters = Table.set d.clusters n c := rfl
@[simp] theorem Dev.setCluster_code (d : Dev) (n : Nat) (c : Cluster) : (d.setCluster n c).code = d.code := rfl
@[simp] theorem Dev.setCluster_cache (d : Dev) (n : Nat) (c : Cluster) : (d.setCluster n c).cache = d.cache := rfl
@[simp] theorem Dev.setCluster_nextHandle (d : Dev) (n : Nat) (c : Cluster) : (d.setCluster n c).nextHandle = d.nextHandle := rfl
@[simp] theorem Dev.setCluster_gtime (d : Dev) (n : Nat) (c : Cluster) : (d.setCluster n c).gtime = d.gtime := rfl
@[simp] theorem Dev.setCluster_irqs (d : Dev) (n : Nat) (c : Cluster) : (d.setCluster n c).irqs = d.irqs := rfl
@[simp] theorem Dev.setCluster_heldIrqs (d : Dev) (n : Nat) (c : Cluster) : (d.setCluster n c).heldIrqs = d.heldIrqs := rfl
@[simp] theorem Dev.setCluster_latched (d : Dev) (n : Nat) (c : Cluster) : (d.setCluster n c).latched = d.latched := rfl
@[simp] theorem Dev.setCluster_oob (d : Dev) (n : Nat) (c : Cluster) : (d.setCluster n c).oob = d.oob := rfl
@[simp] theorem Dev.setCluster_hbmTaken (d : Dev) (n : Nat) (c : Cluster) : (d.setCluster n c).hbmTaken = d.hbmTaken := rfl
@[simp] theorem Dev.setCluster_lpddrTaken (d : Dev) (n : Nat) (c : Cluster) : (d.setCluster n c).lpddrTaken = d.lpddrTaken := rfl
@[simp] theorem Dev.setCluster_freeFrames (d : Dev) (n : Nat) (c : Cluster) : (d.setCluster n c).freeFrames = d.freeFrames := rfl
@[simp] theorem Dev.setCluster_heartbeats (d : Dev) (n : Nat) (c : Cluster) : (d.setCluster n c).heartbeats = d.heartbeats := rfl
@[simp] theorem Dev.setCluster_l2 (d : Dev) (n : Nat) (c : Cluster) : (d.setCluster n c).l2 = d.l2 := rfl
@[simp] theorem Dev.setCluster_queueCopies (d : Dev) (n : Nat) (c : Cluster) : (d.setCluster n c).queueCopies = d.queueCopies := rfl
@[simp] theorem Dev.setCluster_arrivals (d : Dev) (n : Nat) (c : Cluster) : (d.setCluster n c).arrivals = d.arrivals := rfl
@[simp] theorem Dev.setCluster_decisions (d : Dev) (n : Nat) (c : Cluster) : (d.setCluster n c).decisions = d.decisions := rfl
@[simp] theorem Dev.setCluster_dump (d : Dev) (n : Nat) (c : Cluster) : (d.setCluster n c).dump = d.dump := rfl
@[simp] theorem Dev.setCluster_issuer (d : Dev) (n : Nat) (c : Cluster) : (d.setCluster n c).issuer = d.issuer := rfl
@[simp] theorem Dev.setCluster_issued (d : Dev) (n : Nat) (c : Cluster) : (d.setCluster n c).issued = d.issued := rfl
@[simp] theorem Dev.setCluster_free (d : Dev) (n : Nat) (c : Cluster) : (d.setCluster n c).free = d.free := rfl
@[simp] theorem Dev.setCluster_nextId (d : Dev) (n : Nat) (c : Cluster) : (d.setCluster n c).nextId = d.nextId := rfl

/-! ## `Dev.setWarp` -/

@[simp] theorem Dev.setWarp_mem (d : Dev) (id : Nat) (w : Warp) : (d.setWarp id w).mem = d.mem := rfl
@[simp] theorem Dev.setWarp_poison (d : Dev) (id : Nat) (w : Warp) : (d.setWarp id w).poison = d.poison := rfl
@[simp] theorem Dev.setWarp_contexts (d : Dev) (id : Nat) (w : Warp) : (d.setWarp id w).contexts = d.contexts := rfl
@[simp] theorem Dev.setWarp_graphs (d : Dev) (id : Nat) (w : Warp) : (d.setWarp id w).graphs = d.graphs := rfl
@[simp] theorem Dev.setWarp_launches (d : Dev) (id : Nat) (w : Warp) : (d.setWarp id w).launches = d.launches := rfl
@[simp] theorem Dev.setWarp_teams (d : Dev) (id : Nat) (w : Warp) : (d.setWarp id w).teams = d.teams := rfl
@[simp] theorem Dev.setWarp_warps (d : Dev) (id : Nat) (w : Warp) : (d.setWarp id w).warps = Table.set d.warps id w := rfl
@[simp] theorem Dev.setWarp_fets (d : Dev) (id : Nat) (w : Warp) : (d.setWarp id w).fets = d.fets := rfl
@[simp] theorem Dev.setWarp_accesses (d : Dev) (id : Nat) (w : Warp) : (d.setWarp id w).accesses = d.accesses := rfl
@[simp] theorem Dev.setWarp_ops (d : Dev) (id : Nat) (w : Warp) : (d.setWarp id w).ops = d.ops := rfl
@[simp] theorem Dev.setWarp_copies (d : Dev) (id : Nat) (w : Warp) : (d.setWarp id w).copies = d.copies := rfl
@[simp] theorem Dev.setWarp_colls (d : Dev) (id : Nat) (w : Warp) : (d.setWarp id w).colls = d.colls := rfl
@[simp] theorem Dev.setWarp_seals (d : Dev) (id : Nat) (w : Warp) : (d.setWarp id w).seals = d.seals := rfl
@[simp] theorem Dev.setWarp_tags (d : Dev) (id : Nat) (w : Warp) : (d.setWarp id w).tags = d.tags := rfl
@[simp] theorem Dev.setWarp_cores (d : Dev) (id : Nat) (w : Warp) : (d.setWarp id w).cores = d.cores := rfl
@[simp] theorem Dev.setWarp_clusters (d : Dev) (id : Nat) (w : Warp) : (d.setWarp id w).clusters = d.clusters := rfl
@[simp] theorem Dev.setWarp_code (d : Dev) (id : Nat) (w : Warp) : (d.setWarp id w).code = d.code := rfl
@[simp] theorem Dev.setWarp_cache (d : Dev) (id : Nat) (w : Warp) : (d.setWarp id w).cache = d.cache := rfl
@[simp] theorem Dev.setWarp_nextHandle (d : Dev) (id : Nat) (w : Warp) : (d.setWarp id w).nextHandle = d.nextHandle := rfl
@[simp] theorem Dev.setWarp_gtime (d : Dev) (id : Nat) (w : Warp) : (d.setWarp id w).gtime = d.gtime := rfl
@[simp] theorem Dev.setWarp_irqs (d : Dev) (id : Nat) (w : Warp) : (d.setWarp id w).irqs = d.irqs := rfl
@[simp] theorem Dev.setWarp_heldIrqs (d : Dev) (id : Nat) (w : Warp) : (d.setWarp id w).heldIrqs = d.heldIrqs := rfl
@[simp] theorem Dev.setWarp_latched (d : Dev) (id : Nat) (w : Warp) : (d.setWarp id w).latched = d.latched := rfl
@[simp] theorem Dev.setWarp_oob (d : Dev) (id : Nat) (w : Warp) : (d.setWarp id w).oob = d.oob := rfl
@[simp] theorem Dev.setWarp_hbmTaken (d : Dev) (id : Nat) (w : Warp) : (d.setWarp id w).hbmTaken = d.hbmTaken := rfl
@[simp] theorem Dev.setWarp_lpddrTaken (d : Dev) (id : Nat) (w : Warp) : (d.setWarp id w).lpddrTaken = d.lpddrTaken := rfl
@[simp] theorem Dev.setWarp_freeFrames (d : Dev) (id : Nat) (w : Warp) : (d.setWarp id w).freeFrames = d.freeFrames := rfl
@[simp] theorem Dev.setWarp_heartbeats (d : Dev) (id : Nat) (w : Warp) : (d.setWarp id w).heartbeats = d.heartbeats := rfl
@[simp] theorem Dev.setWarp_l2 (d : Dev) (id : Nat) (w : Warp) : (d.setWarp id w).l2 = d.l2 := rfl
@[simp] theorem Dev.setWarp_queueCopies (d : Dev) (id : Nat) (w : Warp) : (d.setWarp id w).queueCopies = d.queueCopies := rfl
@[simp] theorem Dev.setWarp_arrivals (d : Dev) (id : Nat) (w : Warp) : (d.setWarp id w).arrivals = d.arrivals := rfl
@[simp] theorem Dev.setWarp_decisions (d : Dev) (id : Nat) (w : Warp) : (d.setWarp id w).decisions = d.decisions := rfl
@[simp] theorem Dev.setWarp_dump (d : Dev) (id : Nat) (w : Warp) : (d.setWarp id w).dump = d.dump := rfl
@[simp] theorem Dev.setWarp_issuer (d : Dev) (id : Nat) (w : Warp) : (d.setWarp id w).issuer = d.issuer := rfl
@[simp] theorem Dev.setWarp_issued (d : Dev) (id : Nat) (w : Warp) : (d.setWarp id w).issued = d.issued := rfl
@[simp] theorem Dev.setWarp_free (d : Dev) (id : Nat) (w : Warp) : (d.setWarp id w).free = d.free := rfl
@[simp] theorem Dev.setWarp_nextId (d : Dev) (id : Nat) (w : Warp) : (d.setWarp id w).nextId = d.nextId := rfl

/-! ## `Dev.setFet` -/

@[simp] theorem Dev.setFet_mem (d : Dev) (id : Nat) (f : Fet) : (d.setFet id f).mem = d.mem := rfl
@[simp] theorem Dev.setFet_poison (d : Dev) (id : Nat) (f : Fet) : (d.setFet id f).poison = d.poison := rfl
@[simp] theorem Dev.setFet_contexts (d : Dev) (id : Nat) (f : Fet) : (d.setFet id f).contexts = d.contexts := rfl
@[simp] theorem Dev.setFet_graphs (d : Dev) (id : Nat) (f : Fet) : (d.setFet id f).graphs = d.graphs := rfl
@[simp] theorem Dev.setFet_launches (d : Dev) (id : Nat) (f : Fet) : (d.setFet id f).launches = d.launches := rfl
@[simp] theorem Dev.setFet_teams (d : Dev) (id : Nat) (f : Fet) : (d.setFet id f).teams = d.teams := rfl
@[simp] theorem Dev.setFet_warps (d : Dev) (id : Nat) (f : Fet) : (d.setFet id f).warps = d.warps := rfl
@[simp] theorem Dev.setFet_fets (d : Dev) (id : Nat) (f : Fet) : (d.setFet id f).fets = Table.set d.fets id f := rfl
@[simp] theorem Dev.setFet_accesses (d : Dev) (id : Nat) (f : Fet) : (d.setFet id f).accesses = d.accesses := rfl
@[simp] theorem Dev.setFet_ops (d : Dev) (id : Nat) (f : Fet) : (d.setFet id f).ops = d.ops := rfl
@[simp] theorem Dev.setFet_copies (d : Dev) (id : Nat) (f : Fet) : (d.setFet id f).copies = d.copies := rfl
@[simp] theorem Dev.setFet_colls (d : Dev) (id : Nat) (f : Fet) : (d.setFet id f).colls = d.colls := rfl
@[simp] theorem Dev.setFet_seals (d : Dev) (id : Nat) (f : Fet) : (d.setFet id f).seals = d.seals := rfl
@[simp] theorem Dev.setFet_tags (d : Dev) (id : Nat) (f : Fet) : (d.setFet id f).tags = d.tags := rfl
@[simp] theorem Dev.setFet_cores (d : Dev) (id : Nat) (f : Fet) : (d.setFet id f).cores = d.cores := rfl
@[simp] theorem Dev.setFet_clusters (d : Dev) (id : Nat) (f : Fet) : (d.setFet id f).clusters = d.clusters := rfl
@[simp] theorem Dev.setFet_code (d : Dev) (id : Nat) (f : Fet) : (d.setFet id f).code = d.code := rfl
@[simp] theorem Dev.setFet_cache (d : Dev) (id : Nat) (f : Fet) : (d.setFet id f).cache = d.cache := rfl
@[simp] theorem Dev.setFet_nextHandle (d : Dev) (id : Nat) (f : Fet) : (d.setFet id f).nextHandle = d.nextHandle := rfl
@[simp] theorem Dev.setFet_gtime (d : Dev) (id : Nat) (f : Fet) : (d.setFet id f).gtime = d.gtime := rfl
@[simp] theorem Dev.setFet_irqs (d : Dev) (id : Nat) (f : Fet) : (d.setFet id f).irqs = d.irqs := rfl
@[simp] theorem Dev.setFet_heldIrqs (d : Dev) (id : Nat) (f : Fet) : (d.setFet id f).heldIrqs = d.heldIrqs := rfl
@[simp] theorem Dev.setFet_latched (d : Dev) (id : Nat) (f : Fet) : (d.setFet id f).latched = d.latched := rfl
@[simp] theorem Dev.setFet_oob (d : Dev) (id : Nat) (f : Fet) : (d.setFet id f).oob = d.oob := rfl
@[simp] theorem Dev.setFet_hbmTaken (d : Dev) (id : Nat) (f : Fet) : (d.setFet id f).hbmTaken = d.hbmTaken := rfl
@[simp] theorem Dev.setFet_lpddrTaken (d : Dev) (id : Nat) (f : Fet) : (d.setFet id f).lpddrTaken = d.lpddrTaken := rfl
@[simp] theorem Dev.setFet_freeFrames (d : Dev) (id : Nat) (f : Fet) : (d.setFet id f).freeFrames = d.freeFrames := rfl
@[simp] theorem Dev.setFet_heartbeats (d : Dev) (id : Nat) (f : Fet) : (d.setFet id f).heartbeats = d.heartbeats := rfl
@[simp] theorem Dev.setFet_l2 (d : Dev) (id : Nat) (f : Fet) : (d.setFet id f).l2 = d.l2 := rfl
@[simp] theorem Dev.setFet_queueCopies (d : Dev) (id : Nat) (f : Fet) : (d.setFet id f).queueCopies = d.queueCopies := rfl
@[simp] theorem Dev.setFet_arrivals (d : Dev) (id : Nat) (f : Fet) : (d.setFet id f).arrivals = d.arrivals := rfl
@[simp] theorem Dev.setFet_decisions (d : Dev) (id : Nat) (f : Fet) : (d.setFet id f).decisions = d.decisions := rfl
@[simp] theorem Dev.setFet_dump (d : Dev) (id : Nat) (f : Fet) : (d.setFet id f).dump = d.dump := rfl
@[simp] theorem Dev.setFet_issuer (d : Dev) (id : Nat) (f : Fet) : (d.setFet id f).issuer = d.issuer := rfl
@[simp] theorem Dev.setFet_issued (d : Dev) (id : Nat) (f : Fet) : (d.setFet id f).issued = d.issued := rfl
@[simp] theorem Dev.setFet_free (d : Dev) (id : Nat) (f : Fet) : (d.setFet id f).free = d.free := rfl
@[simp] theorem Dev.setFet_nextId (d : Dev) (id : Nat) (f : Fet) : (d.setFet id f).nextId = d.nextId := rfl

/-! ## `Dev.setTeam` -/

@[simp] theorem Dev.setTeam_mem (d : Dev) (id : Nat) (t : Team) : (d.setTeam id t).mem = d.mem := rfl
@[simp] theorem Dev.setTeam_poison (d : Dev) (id : Nat) (t : Team) : (d.setTeam id t).poison = d.poison := rfl
@[simp] theorem Dev.setTeam_contexts (d : Dev) (id : Nat) (t : Team) : (d.setTeam id t).contexts = d.contexts := rfl
@[simp] theorem Dev.setTeam_graphs (d : Dev) (id : Nat) (t : Team) : (d.setTeam id t).graphs = d.graphs := rfl
@[simp] theorem Dev.setTeam_launches (d : Dev) (id : Nat) (t : Team) : (d.setTeam id t).launches = d.launches := rfl
@[simp] theorem Dev.setTeam_teams (d : Dev) (id : Nat) (t : Team) : (d.setTeam id t).teams = Table.set d.teams id t := rfl
@[simp] theorem Dev.setTeam_warps (d : Dev) (id : Nat) (t : Team) : (d.setTeam id t).warps = d.warps := rfl
@[simp] theorem Dev.setTeam_fets (d : Dev) (id : Nat) (t : Team) : (d.setTeam id t).fets = d.fets := rfl
@[simp] theorem Dev.setTeam_accesses (d : Dev) (id : Nat) (t : Team) : (d.setTeam id t).accesses = d.accesses := rfl
@[simp] theorem Dev.setTeam_ops (d : Dev) (id : Nat) (t : Team) : (d.setTeam id t).ops = d.ops := rfl
@[simp] theorem Dev.setTeam_copies (d : Dev) (id : Nat) (t : Team) : (d.setTeam id t).copies = d.copies := rfl
@[simp] theorem Dev.setTeam_colls (d : Dev) (id : Nat) (t : Team) : (d.setTeam id t).colls = d.colls := rfl
@[simp] theorem Dev.setTeam_seals (d : Dev) (id : Nat) (t : Team) : (d.setTeam id t).seals = d.seals := rfl
@[simp] theorem Dev.setTeam_tags (d : Dev) (id : Nat) (t : Team) : (d.setTeam id t).tags = d.tags := rfl
@[simp] theorem Dev.setTeam_cores (d : Dev) (id : Nat) (t : Team) : (d.setTeam id t).cores = d.cores := rfl
@[simp] theorem Dev.setTeam_clusters (d : Dev) (id : Nat) (t : Team) : (d.setTeam id t).clusters = d.clusters := rfl
@[simp] theorem Dev.setTeam_code (d : Dev) (id : Nat) (t : Team) : (d.setTeam id t).code = d.code := rfl
@[simp] theorem Dev.setTeam_cache (d : Dev) (id : Nat) (t : Team) : (d.setTeam id t).cache = d.cache := rfl
@[simp] theorem Dev.setTeam_nextHandle (d : Dev) (id : Nat) (t : Team) : (d.setTeam id t).nextHandle = d.nextHandle := rfl
@[simp] theorem Dev.setTeam_gtime (d : Dev) (id : Nat) (t : Team) : (d.setTeam id t).gtime = d.gtime := rfl
@[simp] theorem Dev.setTeam_irqs (d : Dev) (id : Nat) (t : Team) : (d.setTeam id t).irqs = d.irqs := rfl
@[simp] theorem Dev.setTeam_heldIrqs (d : Dev) (id : Nat) (t : Team) : (d.setTeam id t).heldIrqs = d.heldIrqs := rfl
@[simp] theorem Dev.setTeam_latched (d : Dev) (id : Nat) (t : Team) : (d.setTeam id t).latched = d.latched := rfl
@[simp] theorem Dev.setTeam_oob (d : Dev) (id : Nat) (t : Team) : (d.setTeam id t).oob = d.oob := rfl
@[simp] theorem Dev.setTeam_hbmTaken (d : Dev) (id : Nat) (t : Team) : (d.setTeam id t).hbmTaken = d.hbmTaken := rfl
@[simp] theorem Dev.setTeam_lpddrTaken (d : Dev) (id : Nat) (t : Team) : (d.setTeam id t).lpddrTaken = d.lpddrTaken := rfl
@[simp] theorem Dev.setTeam_freeFrames (d : Dev) (id : Nat) (t : Team) : (d.setTeam id t).freeFrames = d.freeFrames := rfl
@[simp] theorem Dev.setTeam_heartbeats (d : Dev) (id : Nat) (t : Team) : (d.setTeam id t).heartbeats = d.heartbeats := rfl
@[simp] theorem Dev.setTeam_l2 (d : Dev) (id : Nat) (t : Team) : (d.setTeam id t).l2 = d.l2 := rfl
@[simp] theorem Dev.setTeam_queueCopies (d : Dev) (id : Nat) (t : Team) : (d.setTeam id t).queueCopies = d.queueCopies := rfl
@[simp] theorem Dev.setTeam_arrivals (d : Dev) (id : Nat) (t : Team) : (d.setTeam id t).arrivals = d.arrivals := rfl
@[simp] theorem Dev.setTeam_decisions (d : Dev) (id : Nat) (t : Team) : (d.setTeam id t).decisions = d.decisions := rfl
@[simp] theorem Dev.setTeam_dump (d : Dev) (id : Nat) (t : Team) : (d.setTeam id t).dump = d.dump := rfl
@[simp] theorem Dev.setTeam_issuer (d : Dev) (id : Nat) (t : Team) : (d.setTeam id t).issuer = d.issuer := rfl
@[simp] theorem Dev.setTeam_issued (d : Dev) (id : Nat) (t : Team) : (d.setTeam id t).issued = d.issued := rfl
@[simp] theorem Dev.setTeam_free (d : Dev) (id : Nat) (t : Team) : (d.setTeam id t).free = d.free := rfl
@[simp] theorem Dev.setTeam_nextId (d : Dev) (id : Nat) (t : Team) : (d.setTeam id t).nextId = d.nextId := rfl

/-! ## `Dev.setLaunch` -/

@[simp] theorem Dev.setLaunch_mem (d : Dev) (id : Nat) (l : Launch) : (d.setLaunch id l).mem = d.mem := rfl
@[simp] theorem Dev.setLaunch_poison (d : Dev) (id : Nat) (l : Launch) : (d.setLaunch id l).poison = d.poison := rfl
@[simp] theorem Dev.setLaunch_contexts (d : Dev) (id : Nat) (l : Launch) : (d.setLaunch id l).contexts = d.contexts := rfl
@[simp] theorem Dev.setLaunch_graphs (d : Dev) (id : Nat) (l : Launch) : (d.setLaunch id l).graphs = d.graphs := rfl
@[simp] theorem Dev.setLaunch_launches (d : Dev) (id : Nat) (l : Launch) : (d.setLaunch id l).launches = Table.set d.launches id l := rfl
@[simp] theorem Dev.setLaunch_teams (d : Dev) (id : Nat) (l : Launch) : (d.setLaunch id l).teams = d.teams := rfl
@[simp] theorem Dev.setLaunch_warps (d : Dev) (id : Nat) (l : Launch) : (d.setLaunch id l).warps = d.warps := rfl
@[simp] theorem Dev.setLaunch_fets (d : Dev) (id : Nat) (l : Launch) : (d.setLaunch id l).fets = d.fets := rfl
@[simp] theorem Dev.setLaunch_accesses (d : Dev) (id : Nat) (l : Launch) : (d.setLaunch id l).accesses = d.accesses := rfl
@[simp] theorem Dev.setLaunch_ops (d : Dev) (id : Nat) (l : Launch) : (d.setLaunch id l).ops = d.ops := rfl
@[simp] theorem Dev.setLaunch_copies (d : Dev) (id : Nat) (l : Launch) : (d.setLaunch id l).copies = d.copies := rfl
@[simp] theorem Dev.setLaunch_colls (d : Dev) (id : Nat) (l : Launch) : (d.setLaunch id l).colls = d.colls := rfl
@[simp] theorem Dev.setLaunch_seals (d : Dev) (id : Nat) (l : Launch) : (d.setLaunch id l).seals = d.seals := rfl
@[simp] theorem Dev.setLaunch_tags (d : Dev) (id : Nat) (l : Launch) : (d.setLaunch id l).tags = d.tags := rfl
@[simp] theorem Dev.setLaunch_cores (d : Dev) (id : Nat) (l : Launch) : (d.setLaunch id l).cores = d.cores := rfl
@[simp] theorem Dev.setLaunch_clusters (d : Dev) (id : Nat) (l : Launch) : (d.setLaunch id l).clusters = d.clusters := rfl
@[simp] theorem Dev.setLaunch_code (d : Dev) (id : Nat) (l : Launch) : (d.setLaunch id l).code = d.code := rfl
@[simp] theorem Dev.setLaunch_cache (d : Dev) (id : Nat) (l : Launch) : (d.setLaunch id l).cache = d.cache := rfl
@[simp] theorem Dev.setLaunch_nextHandle (d : Dev) (id : Nat) (l : Launch) : (d.setLaunch id l).nextHandle = d.nextHandle := rfl
@[simp] theorem Dev.setLaunch_gtime (d : Dev) (id : Nat) (l : Launch) : (d.setLaunch id l).gtime = d.gtime := rfl
@[simp] theorem Dev.setLaunch_irqs (d : Dev) (id : Nat) (l : Launch) : (d.setLaunch id l).irqs = d.irqs := rfl
@[simp] theorem Dev.setLaunch_heldIrqs (d : Dev) (id : Nat) (l : Launch) : (d.setLaunch id l).heldIrqs = d.heldIrqs := rfl
@[simp] theorem Dev.setLaunch_latched (d : Dev) (id : Nat) (l : Launch) : (d.setLaunch id l).latched = d.latched := rfl
@[simp] theorem Dev.setLaunch_oob (d : Dev) (id : Nat) (l : Launch) : (d.setLaunch id l).oob = d.oob := rfl
@[simp] theorem Dev.setLaunch_hbmTaken (d : Dev) (id : Nat) (l : Launch) : (d.setLaunch id l).hbmTaken = d.hbmTaken := rfl
@[simp] theorem Dev.setLaunch_lpddrTaken (d : Dev) (id : Nat) (l : Launch) : (d.setLaunch id l).lpddrTaken = d.lpddrTaken := rfl
@[simp] theorem Dev.setLaunch_freeFrames (d : Dev) (id : Nat) (l : Launch) : (d.setLaunch id l).freeFrames = d.freeFrames := rfl
@[simp] theorem Dev.setLaunch_heartbeats (d : Dev) (id : Nat) (l : Launch) : (d.setLaunch id l).heartbeats = d.heartbeats := rfl
@[simp] theorem Dev.setLaunch_l2 (d : Dev) (id : Nat) (l : Launch) : (d.setLaunch id l).l2 = d.l2 := rfl
@[simp] theorem Dev.setLaunch_queueCopies (d : Dev) (id : Nat) (l : Launch) : (d.setLaunch id l).queueCopies = d.queueCopies := rfl
@[simp] theorem Dev.setLaunch_arrivals (d : Dev) (id : Nat) (l : Launch) : (d.setLaunch id l).arrivals = d.arrivals := rfl
@[simp] theorem Dev.setLaunch_decisions (d : Dev) (id : Nat) (l : Launch) : (d.setLaunch id l).decisions = d.decisions := rfl
@[simp] theorem Dev.setLaunch_dump (d : Dev) (id : Nat) (l : Launch) : (d.setLaunch id l).dump = d.dump := rfl
@[simp] theorem Dev.setLaunch_issuer (d : Dev) (id : Nat) (l : Launch) : (d.setLaunch id l).issuer = d.issuer := rfl
@[simp] theorem Dev.setLaunch_issued (d : Dev) (id : Nat) (l : Launch) : (d.setLaunch id l).issued = d.issued := rfl
@[simp] theorem Dev.setLaunch_free (d : Dev) (id : Nat) (l : Launch) : (d.setLaunch id l).free = d.free := rfl
@[simp] theorem Dev.setLaunch_nextId (d : Dev) (id : Nat) (l : Launch) : (d.setLaunch id l).nextId = d.nextId := rfl

/-! ## `Dev.setGraph` -/

@[simp] theorem Dev.setGraph_mem (d : Dev) (id : Nat) (g : Graph) : (d.setGraph id g).mem = d.mem := rfl
@[simp] theorem Dev.setGraph_poison (d : Dev) (id : Nat) (g : Graph) : (d.setGraph id g).poison = d.poison := rfl
@[simp] theorem Dev.setGraph_contexts (d : Dev) (id : Nat) (g : Graph) : (d.setGraph id g).contexts = d.contexts := rfl
@[simp] theorem Dev.setGraph_graphs (d : Dev) (id : Nat) (g : Graph) : (d.setGraph id g).graphs = Table.set d.graphs id g := rfl
@[simp] theorem Dev.setGraph_launches (d : Dev) (id : Nat) (g : Graph) : (d.setGraph id g).launches = d.launches := rfl
@[simp] theorem Dev.setGraph_teams (d : Dev) (id : Nat) (g : Graph) : (d.setGraph id g).teams = d.teams := rfl
@[simp] theorem Dev.setGraph_warps (d : Dev) (id : Nat) (g : Graph) : (d.setGraph id g).warps = d.warps := rfl
@[simp] theorem Dev.setGraph_fets (d : Dev) (id : Nat) (g : Graph) : (d.setGraph id g).fets = d.fets := rfl
@[simp] theorem Dev.setGraph_accesses (d : Dev) (id : Nat) (g : Graph) : (d.setGraph id g).accesses = d.accesses := rfl
@[simp] theorem Dev.setGraph_ops (d : Dev) (id : Nat) (g : Graph) : (d.setGraph id g).ops = d.ops := rfl
@[simp] theorem Dev.setGraph_copies (d : Dev) (id : Nat) (g : Graph) : (d.setGraph id g).copies = d.copies := rfl
@[simp] theorem Dev.setGraph_colls (d : Dev) (id : Nat) (g : Graph) : (d.setGraph id g).colls = d.colls := rfl
@[simp] theorem Dev.setGraph_seals (d : Dev) (id : Nat) (g : Graph) : (d.setGraph id g).seals = d.seals := rfl
@[simp] theorem Dev.setGraph_tags (d : Dev) (id : Nat) (g : Graph) : (d.setGraph id g).tags = d.tags := rfl
@[simp] theorem Dev.setGraph_cores (d : Dev) (id : Nat) (g : Graph) : (d.setGraph id g).cores = d.cores := rfl
@[simp] theorem Dev.setGraph_clusters (d : Dev) (id : Nat) (g : Graph) : (d.setGraph id g).clusters = d.clusters := rfl
@[simp] theorem Dev.setGraph_code (d : Dev) (id : Nat) (g : Graph) : (d.setGraph id g).code = d.code := rfl
@[simp] theorem Dev.setGraph_cache (d : Dev) (id : Nat) (g : Graph) : (d.setGraph id g).cache = d.cache := rfl
@[simp] theorem Dev.setGraph_nextHandle (d : Dev) (id : Nat) (g : Graph) : (d.setGraph id g).nextHandle = d.nextHandle := rfl
@[simp] theorem Dev.setGraph_gtime (d : Dev) (id : Nat) (g : Graph) : (d.setGraph id g).gtime = d.gtime := rfl
@[simp] theorem Dev.setGraph_irqs (d : Dev) (id : Nat) (g : Graph) : (d.setGraph id g).irqs = d.irqs := rfl
@[simp] theorem Dev.setGraph_heldIrqs (d : Dev) (id : Nat) (g : Graph) : (d.setGraph id g).heldIrqs = d.heldIrqs := rfl
@[simp] theorem Dev.setGraph_latched (d : Dev) (id : Nat) (g : Graph) : (d.setGraph id g).latched = d.latched := rfl
@[simp] theorem Dev.setGraph_oob (d : Dev) (id : Nat) (g : Graph) : (d.setGraph id g).oob = d.oob := rfl
@[simp] theorem Dev.setGraph_hbmTaken (d : Dev) (id : Nat) (g : Graph) : (d.setGraph id g).hbmTaken = d.hbmTaken := rfl
@[simp] theorem Dev.setGraph_lpddrTaken (d : Dev) (id : Nat) (g : Graph) : (d.setGraph id g).lpddrTaken = d.lpddrTaken := rfl
@[simp] theorem Dev.setGraph_freeFrames (d : Dev) (id : Nat) (g : Graph) : (d.setGraph id g).freeFrames = d.freeFrames := rfl
@[simp] theorem Dev.setGraph_heartbeats (d : Dev) (id : Nat) (g : Graph) : (d.setGraph id g).heartbeats = d.heartbeats := rfl
@[simp] theorem Dev.setGraph_l2 (d : Dev) (id : Nat) (g : Graph) : (d.setGraph id g).l2 = d.l2 := rfl
@[simp] theorem Dev.setGraph_queueCopies (d : Dev) (id : Nat) (g : Graph) : (d.setGraph id g).queueCopies = d.queueCopies := rfl
@[simp] theorem Dev.setGraph_arrivals (d : Dev) (id : Nat) (g : Graph) : (d.setGraph id g).arrivals = d.arrivals := rfl
@[simp] theorem Dev.setGraph_decisions (d : Dev) (id : Nat) (g : Graph) : (d.setGraph id g).decisions = d.decisions := rfl
@[simp] theorem Dev.setGraph_dump (d : Dev) (id : Nat) (g : Graph) : (d.setGraph id g).dump = d.dump := rfl
@[simp] theorem Dev.setGraph_issuer (d : Dev) (id : Nat) (g : Graph) : (d.setGraph id g).issuer = d.issuer := rfl
@[simp] theorem Dev.setGraph_issued (d : Dev) (id : Nat) (g : Graph) : (d.setGraph id g).issued = d.issued := rfl
@[simp] theorem Dev.setGraph_free (d : Dev) (id : Nat) (g : Graph) : (d.setGraph id g).free = d.free := rfl
@[simp] theorem Dev.setGraph_nextId (d : Dev) (id : Nat) (g : Graph) : (d.setGraph id g).nextId = d.nextId := rfl

/-! ## `Dev.setOp` -/

@[simp] theorem Dev.setOp_mem (d : Dev) (id : Nat) (o : EngineOp) : (d.setOp id o).mem = d.mem := rfl
@[simp] theorem Dev.setOp_poison (d : Dev) (id : Nat) (o : EngineOp) : (d.setOp id o).poison = d.poison := rfl
@[simp] theorem Dev.setOp_contexts (d : Dev) (id : Nat) (o : EngineOp) : (d.setOp id o).contexts = d.contexts := rfl
@[simp] theorem Dev.setOp_graphs (d : Dev) (id : Nat) (o : EngineOp) : (d.setOp id o).graphs = d.graphs := rfl
@[simp] theorem Dev.setOp_launches (d : Dev) (id : Nat) (o : EngineOp) : (d.setOp id o).launches = d.launches := rfl
@[simp] theorem Dev.setOp_teams (d : Dev) (id : Nat) (o : EngineOp) : (d.setOp id o).teams = d.teams := rfl
@[simp] theorem Dev.setOp_warps (d : Dev) (id : Nat) (o : EngineOp) : (d.setOp id o).warps = d.warps := rfl
@[simp] theorem Dev.setOp_fets (d : Dev) (id : Nat) (o : EngineOp) : (d.setOp id o).fets = d.fets := rfl
@[simp] theorem Dev.setOp_accesses (d : Dev) (id : Nat) (o : EngineOp) : (d.setOp id o).accesses = d.accesses := rfl
@[simp] theorem Dev.setOp_ops (d : Dev) (id : Nat) (o : EngineOp) : (d.setOp id o).ops = Table.set d.ops id o := rfl
@[simp] theorem Dev.setOp_copies (d : Dev) (id : Nat) (o : EngineOp) : (d.setOp id o).copies = d.copies := rfl
@[simp] theorem Dev.setOp_colls (d : Dev) (id : Nat) (o : EngineOp) : (d.setOp id o).colls = d.colls := rfl
@[simp] theorem Dev.setOp_seals (d : Dev) (id : Nat) (o : EngineOp) : (d.setOp id o).seals = d.seals := rfl
@[simp] theorem Dev.setOp_tags (d : Dev) (id : Nat) (o : EngineOp) : (d.setOp id o).tags = d.tags := rfl
@[simp] theorem Dev.setOp_cores (d : Dev) (id : Nat) (o : EngineOp) : (d.setOp id o).cores = d.cores := rfl
@[simp] theorem Dev.setOp_clusters (d : Dev) (id : Nat) (o : EngineOp) : (d.setOp id o).clusters = d.clusters := rfl
@[simp] theorem Dev.setOp_code (d : Dev) (id : Nat) (o : EngineOp) : (d.setOp id o).code = d.code := rfl
@[simp] theorem Dev.setOp_cache (d : Dev) (id : Nat) (o : EngineOp) : (d.setOp id o).cache = d.cache := rfl
@[simp] theorem Dev.setOp_nextHandle (d : Dev) (id : Nat) (o : EngineOp) : (d.setOp id o).nextHandle = d.nextHandle := rfl
@[simp] theorem Dev.setOp_gtime (d : Dev) (id : Nat) (o : EngineOp) : (d.setOp id o).gtime = d.gtime := rfl
@[simp] theorem Dev.setOp_irqs (d : Dev) (id : Nat) (o : EngineOp) : (d.setOp id o).irqs = d.irqs := rfl
@[simp] theorem Dev.setOp_heldIrqs (d : Dev) (id : Nat) (o : EngineOp) : (d.setOp id o).heldIrqs = d.heldIrqs := rfl
@[simp] theorem Dev.setOp_latched (d : Dev) (id : Nat) (o : EngineOp) : (d.setOp id o).latched = d.latched := rfl
@[simp] theorem Dev.setOp_oob (d : Dev) (id : Nat) (o : EngineOp) : (d.setOp id o).oob = d.oob := rfl
@[simp] theorem Dev.setOp_hbmTaken (d : Dev) (id : Nat) (o : EngineOp) : (d.setOp id o).hbmTaken = d.hbmTaken := rfl
@[simp] theorem Dev.setOp_lpddrTaken (d : Dev) (id : Nat) (o : EngineOp) : (d.setOp id o).lpddrTaken = d.lpddrTaken := rfl
@[simp] theorem Dev.setOp_freeFrames (d : Dev) (id : Nat) (o : EngineOp) : (d.setOp id o).freeFrames = d.freeFrames := rfl
@[simp] theorem Dev.setOp_heartbeats (d : Dev) (id : Nat) (o : EngineOp) : (d.setOp id o).heartbeats = d.heartbeats := rfl
@[simp] theorem Dev.setOp_l2 (d : Dev) (id : Nat) (o : EngineOp) : (d.setOp id o).l2 = d.l2 := rfl
@[simp] theorem Dev.setOp_queueCopies (d : Dev) (id : Nat) (o : EngineOp) : (d.setOp id o).queueCopies = d.queueCopies := rfl
@[simp] theorem Dev.setOp_arrivals (d : Dev) (id : Nat) (o : EngineOp) : (d.setOp id o).arrivals = d.arrivals := rfl
@[simp] theorem Dev.setOp_decisions (d : Dev) (id : Nat) (o : EngineOp) : (d.setOp id o).decisions = d.decisions := rfl
@[simp] theorem Dev.setOp_dump (d : Dev) (id : Nat) (o : EngineOp) : (d.setOp id o).dump = d.dump := rfl
@[simp] theorem Dev.setOp_issuer (d : Dev) (id : Nat) (o : EngineOp) : (d.setOp id o).issuer = d.issuer := rfl
@[simp] theorem Dev.setOp_issued (d : Dev) (id : Nat) (o : EngineOp) : (d.setOp id o).issued = d.issued := rfl
@[simp] theorem Dev.setOp_free (d : Dev) (id : Nat) (o : EngineOp) : (d.setOp id o).free = d.free := rfl
@[simp] theorem Dev.setOp_nextId (d : Dev) (id : Nat) (o : EngineOp) : (d.setOp id o).nextId = d.nextId := rfl

/-! ## `Dev.setCopy` -/

@[simp] theorem Dev.setCopy_mem (d : Dev) (id : Nat) (c : Copy) : (d.setCopy id c).mem = d.mem := rfl
@[simp] theorem Dev.setCopy_poison (d : Dev) (id : Nat) (c : Copy) : (d.setCopy id c).poison = d.poison := rfl
@[simp] theorem Dev.setCopy_contexts (d : Dev) (id : Nat) (c : Copy) : (d.setCopy id c).contexts = d.contexts := rfl
@[simp] theorem Dev.setCopy_graphs (d : Dev) (id : Nat) (c : Copy) : (d.setCopy id c).graphs = d.graphs := rfl
@[simp] theorem Dev.setCopy_launches (d : Dev) (id : Nat) (c : Copy) : (d.setCopy id c).launches = d.launches := rfl
@[simp] theorem Dev.setCopy_teams (d : Dev) (id : Nat) (c : Copy) : (d.setCopy id c).teams = d.teams := rfl
@[simp] theorem Dev.setCopy_warps (d : Dev) (id : Nat) (c : Copy) : (d.setCopy id c).warps = d.warps := rfl
@[simp] theorem Dev.setCopy_fets (d : Dev) (id : Nat) (c : Copy) : (d.setCopy id c).fets = d.fets := rfl
@[simp] theorem Dev.setCopy_accesses (d : Dev) (id : Nat) (c : Copy) : (d.setCopy id c).accesses = d.accesses := rfl
@[simp] theorem Dev.setCopy_ops (d : Dev) (id : Nat) (c : Copy) : (d.setCopy id c).ops = d.ops := rfl
@[simp] theorem Dev.setCopy_copies (d : Dev) (id : Nat) (c : Copy) : (d.setCopy id c).copies = Table.set d.copies id c := rfl
@[simp] theorem Dev.setCopy_colls (d : Dev) (id : Nat) (c : Copy) : (d.setCopy id c).colls = d.colls := rfl
@[simp] theorem Dev.setCopy_seals (d : Dev) (id : Nat) (c : Copy) : (d.setCopy id c).seals = d.seals := rfl
@[simp] theorem Dev.setCopy_tags (d : Dev) (id : Nat) (c : Copy) : (d.setCopy id c).tags = d.tags := rfl
@[simp] theorem Dev.setCopy_cores (d : Dev) (id : Nat) (c : Copy) : (d.setCopy id c).cores = d.cores := rfl
@[simp] theorem Dev.setCopy_clusters (d : Dev) (id : Nat) (c : Copy) : (d.setCopy id c).clusters = d.clusters := rfl
@[simp] theorem Dev.setCopy_code (d : Dev) (id : Nat) (c : Copy) : (d.setCopy id c).code = d.code := rfl
@[simp] theorem Dev.setCopy_cache (d : Dev) (id : Nat) (c : Copy) : (d.setCopy id c).cache = d.cache := rfl
@[simp] theorem Dev.setCopy_nextHandle (d : Dev) (id : Nat) (c : Copy) : (d.setCopy id c).nextHandle = d.nextHandle := rfl
@[simp] theorem Dev.setCopy_gtime (d : Dev) (id : Nat) (c : Copy) : (d.setCopy id c).gtime = d.gtime := rfl
@[simp] theorem Dev.setCopy_irqs (d : Dev) (id : Nat) (c : Copy) : (d.setCopy id c).irqs = d.irqs := rfl
@[simp] theorem Dev.setCopy_heldIrqs (d : Dev) (id : Nat) (c : Copy) : (d.setCopy id c).heldIrqs = d.heldIrqs := rfl
@[simp] theorem Dev.setCopy_latched (d : Dev) (id : Nat) (c : Copy) : (d.setCopy id c).latched = d.latched := rfl
@[simp] theorem Dev.setCopy_oob (d : Dev) (id : Nat) (c : Copy) : (d.setCopy id c).oob = d.oob := rfl
@[simp] theorem Dev.setCopy_hbmTaken (d : Dev) (id : Nat) (c : Copy) : (d.setCopy id c).hbmTaken = d.hbmTaken := rfl
@[simp] theorem Dev.setCopy_lpddrTaken (d : Dev) (id : Nat) (c : Copy) : (d.setCopy id c).lpddrTaken = d.lpddrTaken := rfl
@[simp] theorem Dev.setCopy_freeFrames (d : Dev) (id : Nat) (c : Copy) : (d.setCopy id c).freeFrames = d.freeFrames := rfl
@[simp] theorem Dev.setCopy_heartbeats (d : Dev) (id : Nat) (c : Copy) : (d.setCopy id c).heartbeats = d.heartbeats := rfl
@[simp] theorem Dev.setCopy_l2 (d : Dev) (id : Nat) (c : Copy) : (d.setCopy id c).l2 = d.l2 := rfl
@[simp] theorem Dev.setCopy_queueCopies (d : Dev) (id : Nat) (c : Copy) : (d.setCopy id c).queueCopies = d.queueCopies := rfl
@[simp] theorem Dev.setCopy_arrivals (d : Dev) (id : Nat) (c : Copy) : (d.setCopy id c).arrivals = d.arrivals := rfl
@[simp] theorem Dev.setCopy_decisions (d : Dev) (id : Nat) (c : Copy) : (d.setCopy id c).decisions = d.decisions := rfl
@[simp] theorem Dev.setCopy_dump (d : Dev) (id : Nat) (c : Copy) : (d.setCopy id c).dump = d.dump := rfl
@[simp] theorem Dev.setCopy_issuer (d : Dev) (id : Nat) (c : Copy) : (d.setCopy id c).issuer = d.issuer := rfl
@[simp] theorem Dev.setCopy_issued (d : Dev) (id : Nat) (c : Copy) : (d.setCopy id c).issued = d.issued := rfl
@[simp] theorem Dev.setCopy_free (d : Dev) (id : Nat) (c : Copy) : (d.setCopy id c).free = d.free := rfl
@[simp] theorem Dev.setCopy_nextId (d : Dev) (id : Nat) (c : Copy) : (d.setCopy id c).nextId = d.nextId := rfl

/-! ## `Dev.setColl` -/

@[simp] theorem Dev.setColl_mem (d : Dev) (id : Nat) (c : Coll) : (d.setColl id c).mem = d.mem := rfl
@[simp] theorem Dev.setColl_poison (d : Dev) (id : Nat) (c : Coll) : (d.setColl id c).poison = d.poison := rfl
@[simp] theorem Dev.setColl_contexts (d : Dev) (id : Nat) (c : Coll) : (d.setColl id c).contexts = d.contexts := rfl
@[simp] theorem Dev.setColl_graphs (d : Dev) (id : Nat) (c : Coll) : (d.setColl id c).graphs = d.graphs := rfl
@[simp] theorem Dev.setColl_launches (d : Dev) (id : Nat) (c : Coll) : (d.setColl id c).launches = d.launches := rfl
@[simp] theorem Dev.setColl_teams (d : Dev) (id : Nat) (c : Coll) : (d.setColl id c).teams = d.teams := rfl
@[simp] theorem Dev.setColl_warps (d : Dev) (id : Nat) (c : Coll) : (d.setColl id c).warps = d.warps := rfl
@[simp] theorem Dev.setColl_fets (d : Dev) (id : Nat) (c : Coll) : (d.setColl id c).fets = d.fets := rfl
@[simp] theorem Dev.setColl_accesses (d : Dev) (id : Nat) (c : Coll) : (d.setColl id c).accesses = d.accesses := rfl
@[simp] theorem Dev.setColl_ops (d : Dev) (id : Nat) (c : Coll) : (d.setColl id c).ops = d.ops := rfl
@[simp] theorem Dev.setColl_copies (d : Dev) (id : Nat) (c : Coll) : (d.setColl id c).copies = d.copies := rfl
@[simp] theorem Dev.setColl_colls (d : Dev) (id : Nat) (c : Coll) : (d.setColl id c).colls = Table.set d.colls id c := rfl
@[simp] theorem Dev.setColl_seals (d : Dev) (id : Nat) (c : Coll) : (d.setColl id c).seals = d.seals := rfl
@[simp] theorem Dev.setColl_tags (d : Dev) (id : Nat) (c : Coll) : (d.setColl id c).tags = d.tags := rfl
@[simp] theorem Dev.setColl_cores (d : Dev) (id : Nat) (c : Coll) : (d.setColl id c).cores = d.cores := rfl
@[simp] theorem Dev.setColl_clusters (d : Dev) (id : Nat) (c : Coll) : (d.setColl id c).clusters = d.clusters := rfl
@[simp] theorem Dev.setColl_code (d : Dev) (id : Nat) (c : Coll) : (d.setColl id c).code = d.code := rfl
@[simp] theorem Dev.setColl_cache (d : Dev) (id : Nat) (c : Coll) : (d.setColl id c).cache = d.cache := rfl
@[simp] theorem Dev.setColl_nextHandle (d : Dev) (id : Nat) (c : Coll) : (d.setColl id c).nextHandle = d.nextHandle := rfl
@[simp] theorem Dev.setColl_gtime (d : Dev) (id : Nat) (c : Coll) : (d.setColl id c).gtime = d.gtime := rfl
@[simp] theorem Dev.setColl_irqs (d : Dev) (id : Nat) (c : Coll) : (d.setColl id c).irqs = d.irqs := rfl
@[simp] theorem Dev.setColl_heldIrqs (d : Dev) (id : Nat) (c : Coll) : (d.setColl id c).heldIrqs = d.heldIrqs := rfl
@[simp] theorem Dev.setColl_latched (d : Dev) (id : Nat) (c : Coll) : (d.setColl id c).latched = d.latched := rfl
@[simp] theorem Dev.setColl_oob (d : Dev) (id : Nat) (c : Coll) : (d.setColl id c).oob = d.oob := rfl
@[simp] theorem Dev.setColl_hbmTaken (d : Dev) (id : Nat) (c : Coll) : (d.setColl id c).hbmTaken = d.hbmTaken := rfl
@[simp] theorem Dev.setColl_lpddrTaken (d : Dev) (id : Nat) (c : Coll) : (d.setColl id c).lpddrTaken = d.lpddrTaken := rfl
@[simp] theorem Dev.setColl_freeFrames (d : Dev) (id : Nat) (c : Coll) : (d.setColl id c).freeFrames = d.freeFrames := rfl
@[simp] theorem Dev.setColl_heartbeats (d : Dev) (id : Nat) (c : Coll) : (d.setColl id c).heartbeats = d.heartbeats := rfl
@[simp] theorem Dev.setColl_l2 (d : Dev) (id : Nat) (c : Coll) : (d.setColl id c).l2 = d.l2 := rfl
@[simp] theorem Dev.setColl_queueCopies (d : Dev) (id : Nat) (c : Coll) : (d.setColl id c).queueCopies = d.queueCopies := rfl
@[simp] theorem Dev.setColl_arrivals (d : Dev) (id : Nat) (c : Coll) : (d.setColl id c).arrivals = d.arrivals := rfl
@[simp] theorem Dev.setColl_decisions (d : Dev) (id : Nat) (c : Coll) : (d.setColl id c).decisions = d.decisions := rfl
@[simp] theorem Dev.setColl_dump (d : Dev) (id : Nat) (c : Coll) : (d.setColl id c).dump = d.dump := rfl
@[simp] theorem Dev.setColl_issuer (d : Dev) (id : Nat) (c : Coll) : (d.setColl id c).issuer = d.issuer := rfl
@[simp] theorem Dev.setColl_issued (d : Dev) (id : Nat) (c : Coll) : (d.setColl id c).issued = d.issued := rfl
@[simp] theorem Dev.setColl_free (d : Dev) (id : Nat) (c : Coll) : (d.setColl id c).free = d.free := rfl
@[simp] theorem Dev.setColl_nextId (d : Dev) (id : Nat) (c : Coll) : (d.setColl id c).nextId = d.nextId := rfl

/-! ## `Dev.setAccess` -/

@[simp] theorem Dev.setAccess_mem (d : Dev) (id : Nat) (a : Access) : (d.setAccess id a).mem = d.mem := rfl
@[simp] theorem Dev.setAccess_poison (d : Dev) (id : Nat) (a : Access) : (d.setAccess id a).poison = d.poison := rfl
@[simp] theorem Dev.setAccess_contexts (d : Dev) (id : Nat) (a : Access) : (d.setAccess id a).contexts = d.contexts := rfl
@[simp] theorem Dev.setAccess_graphs (d : Dev) (id : Nat) (a : Access) : (d.setAccess id a).graphs = d.graphs := rfl
@[simp] theorem Dev.setAccess_launches (d : Dev) (id : Nat) (a : Access) : (d.setAccess id a).launches = d.launches := rfl
@[simp] theorem Dev.setAccess_teams (d : Dev) (id : Nat) (a : Access) : (d.setAccess id a).teams = d.teams := rfl
@[simp] theorem Dev.setAccess_warps (d : Dev) (id : Nat) (a : Access) : (d.setAccess id a).warps = d.warps := rfl
@[simp] theorem Dev.setAccess_fets (d : Dev) (id : Nat) (a : Access) : (d.setAccess id a).fets = d.fets := rfl
@[simp] theorem Dev.setAccess_accesses (d : Dev) (id : Nat) (a : Access) : (d.setAccess id a).accesses = Table.set d.accesses id a := rfl
@[simp] theorem Dev.setAccess_ops (d : Dev) (id : Nat) (a : Access) : (d.setAccess id a).ops = d.ops := rfl
@[simp] theorem Dev.setAccess_copies (d : Dev) (id : Nat) (a : Access) : (d.setAccess id a).copies = d.copies := rfl
@[simp] theorem Dev.setAccess_colls (d : Dev) (id : Nat) (a : Access) : (d.setAccess id a).colls = d.colls := rfl
@[simp] theorem Dev.setAccess_seals (d : Dev) (id : Nat) (a : Access) : (d.setAccess id a).seals = d.seals := rfl
@[simp] theorem Dev.setAccess_tags (d : Dev) (id : Nat) (a : Access) : (d.setAccess id a).tags = d.tags := rfl
@[simp] theorem Dev.setAccess_cores (d : Dev) (id : Nat) (a : Access) : (d.setAccess id a).cores = d.cores := rfl
@[simp] theorem Dev.setAccess_clusters (d : Dev) (id : Nat) (a : Access) : (d.setAccess id a).clusters = d.clusters := rfl
@[simp] theorem Dev.setAccess_code (d : Dev) (id : Nat) (a : Access) : (d.setAccess id a).code = d.code := rfl
@[simp] theorem Dev.setAccess_cache (d : Dev) (id : Nat) (a : Access) : (d.setAccess id a).cache = d.cache := rfl
@[simp] theorem Dev.setAccess_nextHandle (d : Dev) (id : Nat) (a : Access) : (d.setAccess id a).nextHandle = d.nextHandle := rfl
@[simp] theorem Dev.setAccess_gtime (d : Dev) (id : Nat) (a : Access) : (d.setAccess id a).gtime = d.gtime := rfl
@[simp] theorem Dev.setAccess_irqs (d : Dev) (id : Nat) (a : Access) : (d.setAccess id a).irqs = d.irqs := rfl
@[simp] theorem Dev.setAccess_heldIrqs (d : Dev) (id : Nat) (a : Access) : (d.setAccess id a).heldIrqs = d.heldIrqs := rfl
@[simp] theorem Dev.setAccess_latched (d : Dev) (id : Nat) (a : Access) : (d.setAccess id a).latched = d.latched := rfl
@[simp] theorem Dev.setAccess_oob (d : Dev) (id : Nat) (a : Access) : (d.setAccess id a).oob = d.oob := rfl
@[simp] theorem Dev.setAccess_hbmTaken (d : Dev) (id : Nat) (a : Access) : (d.setAccess id a).hbmTaken = d.hbmTaken := rfl
@[simp] theorem Dev.setAccess_lpddrTaken (d : Dev) (id : Nat) (a : Access) : (d.setAccess id a).lpddrTaken = d.lpddrTaken := rfl
@[simp] theorem Dev.setAccess_freeFrames (d : Dev) (id : Nat) (a : Access) : (d.setAccess id a).freeFrames = d.freeFrames := rfl
@[simp] theorem Dev.setAccess_heartbeats (d : Dev) (id : Nat) (a : Access) : (d.setAccess id a).heartbeats = d.heartbeats := rfl
@[simp] theorem Dev.setAccess_l2 (d : Dev) (id : Nat) (a : Access) : (d.setAccess id a).l2 = d.l2 := rfl
@[simp] theorem Dev.setAccess_queueCopies (d : Dev) (id : Nat) (a : Access) : (d.setAccess id a).queueCopies = d.queueCopies := rfl
@[simp] theorem Dev.setAccess_arrivals (d : Dev) (id : Nat) (a : Access) : (d.setAccess id a).arrivals = d.arrivals := rfl
@[simp] theorem Dev.setAccess_decisions (d : Dev) (id : Nat) (a : Access) : (d.setAccess id a).decisions = d.decisions := rfl
@[simp] theorem Dev.setAccess_dump (d : Dev) (id : Nat) (a : Access) : (d.setAccess id a).dump = d.dump := rfl
@[simp] theorem Dev.setAccess_issuer (d : Dev) (id : Nat) (a : Access) : (d.setAccess id a).issuer = d.issuer := rfl
@[simp] theorem Dev.setAccess_issued (d : Dev) (id : Nat) (a : Access) : (d.setAccess id a).issued = d.issued := rfl
@[simp] theorem Dev.setAccess_free (d : Dev) (id : Nat) (a : Access) : (d.setAccess id a).free = d.free := rfl
@[simp] theorem Dev.setAccess_nextId (d : Dev) (id : Nat) (a : Access) : (d.setAccess id a).nextId = d.nextId := rfl

/-! ## `Dev.setMem` -/

@[simp] theorem Dev.setMem_mem (d : Dev) (m : Memory) : (d.setMem m).mem = m := rfl
@[simp] theorem Dev.setMem_poison (d : Dev) (m : Memory) : (d.setMem m).poison = d.poison := rfl
@[simp] theorem Dev.setMem_contexts (d : Dev) (m : Memory) : (d.setMem m).contexts = d.contexts := rfl
@[simp] theorem Dev.setMem_graphs (d : Dev) (m : Memory) : (d.setMem m).graphs = d.graphs := rfl
@[simp] theorem Dev.setMem_launches (d : Dev) (m : Memory) : (d.setMem m).launches = d.launches := rfl
@[simp] theorem Dev.setMem_teams (d : Dev) (m : Memory) : (d.setMem m).teams = d.teams := rfl
@[simp] theorem Dev.setMem_warps (d : Dev) (m : Memory) : (d.setMem m).warps = d.warps := rfl
@[simp] theorem Dev.setMem_fets (d : Dev) (m : Memory) : (d.setMem m).fets = d.fets := rfl
@[simp] theorem Dev.setMem_accesses (d : Dev) (m : Memory) : (d.setMem m).accesses = d.accesses := rfl
@[simp] theorem Dev.setMem_ops (d : Dev) (m : Memory) : (d.setMem m).ops = d.ops := rfl
@[simp] theorem Dev.setMem_copies (d : Dev) (m : Memory) : (d.setMem m).copies = d.copies := rfl
@[simp] theorem Dev.setMem_colls (d : Dev) (m : Memory) : (d.setMem m).colls = d.colls := rfl
@[simp] theorem Dev.setMem_seals (d : Dev) (m : Memory) : (d.setMem m).seals = d.seals := rfl
@[simp] theorem Dev.setMem_tags (d : Dev) (m : Memory) : (d.setMem m).tags = d.tags := rfl
@[simp] theorem Dev.setMem_cores (d : Dev) (m : Memory) : (d.setMem m).cores = d.cores := rfl
@[simp] theorem Dev.setMem_clusters (d : Dev) (m : Memory) : (d.setMem m).clusters = d.clusters := rfl
@[simp] theorem Dev.setMem_code (d : Dev) (m : Memory) : (d.setMem m).code = d.code := rfl
@[simp] theorem Dev.setMem_cache (d : Dev) (m : Memory) : (d.setMem m).cache = d.cache := rfl
@[simp] theorem Dev.setMem_nextHandle (d : Dev) (m : Memory) : (d.setMem m).nextHandle = d.nextHandle := rfl
@[simp] theorem Dev.setMem_gtime (d : Dev) (m : Memory) : (d.setMem m).gtime = d.gtime := rfl
@[simp] theorem Dev.setMem_irqs (d : Dev) (m : Memory) : (d.setMem m).irqs = d.irqs := rfl
@[simp] theorem Dev.setMem_heldIrqs (d : Dev) (m : Memory) : (d.setMem m).heldIrqs = d.heldIrqs := rfl
@[simp] theorem Dev.setMem_latched (d : Dev) (m : Memory) : (d.setMem m).latched = d.latched := rfl
@[simp] theorem Dev.setMem_oob (d : Dev) (m : Memory) : (d.setMem m).oob = d.oob := rfl
@[simp] theorem Dev.setMem_hbmTaken (d : Dev) (m : Memory) : (d.setMem m).hbmTaken = d.hbmTaken := rfl
@[simp] theorem Dev.setMem_lpddrTaken (d : Dev) (m : Memory) : (d.setMem m).lpddrTaken = d.lpddrTaken := rfl
@[simp] theorem Dev.setMem_freeFrames (d : Dev) (m : Memory) : (d.setMem m).freeFrames = d.freeFrames := rfl
@[simp] theorem Dev.setMem_heartbeats (d : Dev) (m : Memory) : (d.setMem m).heartbeats = d.heartbeats := rfl
@[simp] theorem Dev.setMem_l2 (d : Dev) (m : Memory) : (d.setMem m).l2 = d.l2 := rfl
@[simp] theorem Dev.setMem_queueCopies (d : Dev) (m : Memory) : (d.setMem m).queueCopies = d.queueCopies := rfl
@[simp] theorem Dev.setMem_arrivals (d : Dev) (m : Memory) : (d.setMem m).arrivals = d.arrivals := rfl
@[simp] theorem Dev.setMem_decisions (d : Dev) (m : Memory) : (d.setMem m).decisions = d.decisions := rfl
@[simp] theorem Dev.setMem_dump (d : Dev) (m : Memory) : (d.setMem m).dump = d.dump := rfl
@[simp] theorem Dev.setMem_issuer (d : Dev) (m : Memory) : (d.setMem m).issuer = d.issuer := rfl
@[simp] theorem Dev.setMem_issued (d : Dev) (m : Memory) : (d.setMem m).issued = d.issued := rfl
@[simp] theorem Dev.setMem_free (d : Dev) (m : Memory) : (d.setMem m).free = d.free := rfl
@[simp] theorem Dev.setMem_nextId (d : Dev) (m : Memory) : (d.setMem m).nextId = d.nextId := rfl

/-! ## `Dev.onContext` -/

@[simp] theorem Dev.onContext_mem (d : Dev) (slot : Nat) (f : Context → Context) : (d.onContext slot f).mem = d.mem := rfl
@[simp] theorem Dev.onContext_poison (d : Dev) (slot : Nat) (f : Context → Context) : (d.onContext slot f).poison = d.poison := rfl
@[simp] theorem Dev.onContext_contexts (d : Dev) (slot : Nat) (f : Context → Context) : (d.onContext slot f).contexts = Table.set d.contexts slot (f (d.context slot)) := rfl
@[simp] theorem Dev.onContext_graphs (d : Dev) (slot : Nat) (f : Context → Context) : (d.onContext slot f).graphs = d.graphs := rfl
@[simp] theorem Dev.onContext_launches (d : Dev) (slot : Nat) (f : Context → Context) : (d.onContext slot f).launches = d.launches := rfl
@[simp] theorem Dev.onContext_teams (d : Dev) (slot : Nat) (f : Context → Context) : (d.onContext slot f).teams = d.teams := rfl
@[simp] theorem Dev.onContext_warps (d : Dev) (slot : Nat) (f : Context → Context) : (d.onContext slot f).warps = d.warps := rfl
@[simp] theorem Dev.onContext_fets (d : Dev) (slot : Nat) (f : Context → Context) : (d.onContext slot f).fets = d.fets := rfl
@[simp] theorem Dev.onContext_accesses (d : Dev) (slot : Nat) (f : Context → Context) : (d.onContext slot f).accesses = d.accesses := rfl
@[simp] theorem Dev.onContext_ops (d : Dev) (slot : Nat) (f : Context → Context) : (d.onContext slot f).ops = d.ops := rfl
@[simp] theorem Dev.onContext_copies (d : Dev) (slot : Nat) (f : Context → Context) : (d.onContext slot f).copies = d.copies := rfl
@[simp] theorem Dev.onContext_colls (d : Dev) (slot : Nat) (f : Context → Context) : (d.onContext slot f).colls = d.colls := rfl
@[simp] theorem Dev.onContext_seals (d : Dev) (slot : Nat) (f : Context → Context) : (d.onContext slot f).seals = d.seals := rfl
@[simp] theorem Dev.onContext_tags (d : Dev) (slot : Nat) (f : Context → Context) : (d.onContext slot f).tags = d.tags := rfl
@[simp] theorem Dev.onContext_cores (d : Dev) (slot : Nat) (f : Context → Context) : (d.onContext slot f).cores = d.cores := rfl
@[simp] theorem Dev.onContext_clusters (d : Dev) (slot : Nat) (f : Context → Context) : (d.onContext slot f).clusters = d.clusters := rfl
@[simp] theorem Dev.onContext_code (d : Dev) (slot : Nat) (f : Context → Context) : (d.onContext slot f).code = d.code := rfl
@[simp] theorem Dev.onContext_cache (d : Dev) (slot : Nat) (f : Context → Context) : (d.onContext slot f).cache = d.cache := rfl
@[simp] theorem Dev.onContext_nextHandle (d : Dev) (slot : Nat) (f : Context → Context) : (d.onContext slot f).nextHandle = d.nextHandle := rfl
@[simp] theorem Dev.onContext_gtime (d : Dev) (slot : Nat) (f : Context → Context) : (d.onContext slot f).gtime = d.gtime := rfl
@[simp] theorem Dev.onContext_irqs (d : Dev) (slot : Nat) (f : Context → Context) : (d.onContext slot f).irqs = d.irqs := rfl
@[simp] theorem Dev.onContext_heldIrqs (d : Dev) (slot : Nat) (f : Context → Context) : (d.onContext slot f).heldIrqs = d.heldIrqs := rfl
@[simp] theorem Dev.onContext_latched (d : Dev) (slot : Nat) (f : Context → Context) : (d.onContext slot f).latched = d.latched := rfl
@[simp] theorem Dev.onContext_oob (d : Dev) (slot : Nat) (f : Context → Context) : (d.onContext slot f).oob = d.oob := rfl
@[simp] theorem Dev.onContext_hbmTaken (d : Dev) (slot : Nat) (f : Context → Context) : (d.onContext slot f).hbmTaken = d.hbmTaken := rfl
@[simp] theorem Dev.onContext_lpddrTaken (d : Dev) (slot : Nat) (f : Context → Context) : (d.onContext slot f).lpddrTaken = d.lpddrTaken := rfl
@[simp] theorem Dev.onContext_freeFrames (d : Dev) (slot : Nat) (f : Context → Context) : (d.onContext slot f).freeFrames = d.freeFrames := rfl
@[simp] theorem Dev.onContext_heartbeats (d : Dev) (slot : Nat) (f : Context → Context) : (d.onContext slot f).heartbeats = d.heartbeats := rfl
@[simp] theorem Dev.onContext_l2 (d : Dev) (slot : Nat) (f : Context → Context) : (d.onContext slot f).l2 = d.l2 := rfl
@[simp] theorem Dev.onContext_queueCopies (d : Dev) (slot : Nat) (f : Context → Context) : (d.onContext slot f).queueCopies = d.queueCopies := rfl
@[simp] theorem Dev.onContext_arrivals (d : Dev) (slot : Nat) (f : Context → Context) : (d.onContext slot f).arrivals = d.arrivals := rfl
@[simp] theorem Dev.onContext_decisions (d : Dev) (slot : Nat) (f : Context → Context) : (d.onContext slot f).decisions = d.decisions := rfl
@[simp] theorem Dev.onContext_dump (d : Dev) (slot : Nat) (f : Context → Context) : (d.onContext slot f).dump = d.dump := rfl
@[simp] theorem Dev.onContext_issuer (d : Dev) (slot : Nat) (f : Context → Context) : (d.onContext slot f).issuer = d.issuer := rfl
@[simp] theorem Dev.onContext_issued (d : Dev) (slot : Nat) (f : Context → Context) : (d.onContext slot f).issued = d.issued := rfl
@[simp] theorem Dev.onContext_free (d : Dev) (slot : Nat) (f : Context → Context) : (d.onContext slot f).free = d.free := rfl
@[simp] theorem Dev.onContext_nextId (d : Dev) (slot : Nat) (f : Context → Context) : (d.onContext slot f).nextId = d.nextId := rfl

/-! ## `Dev.onCore` -/

@[simp] theorem Dev.onCore_mem (d : Dev) (j : Nat) (f : Core → Core) : (d.onCore j f).mem = d.mem := rfl
@[simp] theorem Dev.onCore_poison (d : Dev) (j : Nat) (f : Core → Core) : (d.onCore j f).poison = d.poison := rfl
@[simp] theorem Dev.onCore_contexts (d : Dev) (j : Nat) (f : Core → Core) : (d.onCore j f).contexts = d.contexts := rfl
@[simp] theorem Dev.onCore_graphs (d : Dev) (j : Nat) (f : Core → Core) : (d.onCore j f).graphs = d.graphs := rfl
@[simp] theorem Dev.onCore_launches (d : Dev) (j : Nat) (f : Core → Core) : (d.onCore j f).launches = d.launches := rfl
@[simp] theorem Dev.onCore_teams (d : Dev) (j : Nat) (f : Core → Core) : (d.onCore j f).teams = d.teams := rfl
@[simp] theorem Dev.onCore_warps (d : Dev) (j : Nat) (f : Core → Core) : (d.onCore j f).warps = d.warps := rfl
@[simp] theorem Dev.onCore_fets (d : Dev) (j : Nat) (f : Core → Core) : (d.onCore j f).fets = d.fets := rfl
@[simp] theorem Dev.onCore_accesses (d : Dev) (j : Nat) (f : Core → Core) : (d.onCore j f).accesses = d.accesses := rfl
@[simp] theorem Dev.onCore_ops (d : Dev) (j : Nat) (f : Core → Core) : (d.onCore j f).ops = d.ops := rfl
@[simp] theorem Dev.onCore_copies (d : Dev) (j : Nat) (f : Core → Core) : (d.onCore j f).copies = d.copies := rfl
@[simp] theorem Dev.onCore_colls (d : Dev) (j : Nat) (f : Core → Core) : (d.onCore j f).colls = d.colls := rfl
@[simp] theorem Dev.onCore_seals (d : Dev) (j : Nat) (f : Core → Core) : (d.onCore j f).seals = d.seals := rfl
@[simp] theorem Dev.onCore_tags (d : Dev) (j : Nat) (f : Core → Core) : (d.onCore j f).tags = d.tags := rfl
@[simp] theorem Dev.onCore_cores (d : Dev) (j : Nat) (f : Core → Core) : (d.onCore j f).cores = Table.set d.cores j (f (d.core j)) := rfl
@[simp] theorem Dev.onCore_clusters (d : Dev) (j : Nat) (f : Core → Core) : (d.onCore j f).clusters = d.clusters := rfl
@[simp] theorem Dev.onCore_code (d : Dev) (j : Nat) (f : Core → Core) : (d.onCore j f).code = d.code := rfl
@[simp] theorem Dev.onCore_cache (d : Dev) (j : Nat) (f : Core → Core) : (d.onCore j f).cache = d.cache := rfl
@[simp] theorem Dev.onCore_nextHandle (d : Dev) (j : Nat) (f : Core → Core) : (d.onCore j f).nextHandle = d.nextHandle := rfl
@[simp] theorem Dev.onCore_gtime (d : Dev) (j : Nat) (f : Core → Core) : (d.onCore j f).gtime = d.gtime := rfl
@[simp] theorem Dev.onCore_irqs (d : Dev) (j : Nat) (f : Core → Core) : (d.onCore j f).irqs = d.irqs := rfl
@[simp] theorem Dev.onCore_heldIrqs (d : Dev) (j : Nat) (f : Core → Core) : (d.onCore j f).heldIrqs = d.heldIrqs := rfl
@[simp] theorem Dev.onCore_latched (d : Dev) (j : Nat) (f : Core → Core) : (d.onCore j f).latched = d.latched := rfl
@[simp] theorem Dev.onCore_oob (d : Dev) (j : Nat) (f : Core → Core) : (d.onCore j f).oob = d.oob := rfl
@[simp] theorem Dev.onCore_hbmTaken (d : Dev) (j : Nat) (f : Core → Core) : (d.onCore j f).hbmTaken = d.hbmTaken := rfl
@[simp] theorem Dev.onCore_lpddrTaken (d : Dev) (j : Nat) (f : Core → Core) : (d.onCore j f).lpddrTaken = d.lpddrTaken := rfl
@[simp] theorem Dev.onCore_freeFrames (d : Dev) (j : Nat) (f : Core → Core) : (d.onCore j f).freeFrames = d.freeFrames := rfl
@[simp] theorem Dev.onCore_heartbeats (d : Dev) (j : Nat) (f : Core → Core) : (d.onCore j f).heartbeats = d.heartbeats := rfl
@[simp] theorem Dev.onCore_l2 (d : Dev) (j : Nat) (f : Core → Core) : (d.onCore j f).l2 = d.l2 := rfl
@[simp] theorem Dev.onCore_queueCopies (d : Dev) (j : Nat) (f : Core → Core) : (d.onCore j f).queueCopies = d.queueCopies := rfl
@[simp] theorem Dev.onCore_arrivals (d : Dev) (j : Nat) (f : Core → Core) : (d.onCore j f).arrivals = d.arrivals := rfl
@[simp] theorem Dev.onCore_decisions (d : Dev) (j : Nat) (f : Core → Core) : (d.onCore j f).decisions = d.decisions := rfl
@[simp] theorem Dev.onCore_dump (d : Dev) (j : Nat) (f : Core → Core) : (d.onCore j f).dump = d.dump := rfl
@[simp] theorem Dev.onCore_issuer (d : Dev) (j : Nat) (f : Core → Core) : (d.onCore j f).issuer = d.issuer := rfl
@[simp] theorem Dev.onCore_issued (d : Dev) (j : Nat) (f : Core → Core) : (d.onCore j f).issued = d.issued := rfl
@[simp] theorem Dev.onCore_free (d : Dev) (j : Nat) (f : Core → Core) : (d.onCore j f).free = d.free := rfl
@[simp] theorem Dev.onCore_nextId (d : Dev) (j : Nat) (f : Core → Core) : (d.onCore j f).nextId = d.nextId := rfl

/-! ## `Dev.onCluster` -/

@[simp] theorem Dev.onCluster_mem (d : Dev) (n : Nat) (f : Cluster → Cluster) : (d.onCluster n f).mem = d.mem := rfl
@[simp] theorem Dev.onCluster_poison (d : Dev) (n : Nat) (f : Cluster → Cluster) : (d.onCluster n f).poison = d.poison := rfl
@[simp] theorem Dev.onCluster_contexts (d : Dev) (n : Nat) (f : Cluster → Cluster) : (d.onCluster n f).contexts = d.contexts := rfl
@[simp] theorem Dev.onCluster_graphs (d : Dev) (n : Nat) (f : Cluster → Cluster) : (d.onCluster n f).graphs = d.graphs := rfl
@[simp] theorem Dev.onCluster_launches (d : Dev) (n : Nat) (f : Cluster → Cluster) : (d.onCluster n f).launches = d.launches := rfl
@[simp] theorem Dev.onCluster_teams (d : Dev) (n : Nat) (f : Cluster → Cluster) : (d.onCluster n f).teams = d.teams := rfl
@[simp] theorem Dev.onCluster_warps (d : Dev) (n : Nat) (f : Cluster → Cluster) : (d.onCluster n f).warps = d.warps := rfl
@[simp] theorem Dev.onCluster_fets (d : Dev) (n : Nat) (f : Cluster → Cluster) : (d.onCluster n f).fets = d.fets := rfl
@[simp] theorem Dev.onCluster_accesses (d : Dev) (n : Nat) (f : Cluster → Cluster) : (d.onCluster n f).accesses = d.accesses := rfl
@[simp] theorem Dev.onCluster_ops (d : Dev) (n : Nat) (f : Cluster → Cluster) : (d.onCluster n f).ops = d.ops := rfl
@[simp] theorem Dev.onCluster_copies (d : Dev) (n : Nat) (f : Cluster → Cluster) : (d.onCluster n f).copies = d.copies := rfl
@[simp] theorem Dev.onCluster_colls (d : Dev) (n : Nat) (f : Cluster → Cluster) : (d.onCluster n f).colls = d.colls := rfl
@[simp] theorem Dev.onCluster_seals (d : Dev) (n : Nat) (f : Cluster → Cluster) : (d.onCluster n f).seals = d.seals := rfl
@[simp] theorem Dev.onCluster_tags (d : Dev) (n : Nat) (f : Cluster → Cluster) : (d.onCluster n f).tags = d.tags := rfl
@[simp] theorem Dev.onCluster_cores (d : Dev) (n : Nat) (f : Cluster → Cluster) : (d.onCluster n f).cores = d.cores := rfl
@[simp] theorem Dev.onCluster_clusters (d : Dev) (n : Nat) (f : Cluster → Cluster) : (d.onCluster n f).clusters = Table.set d.clusters n (f (d.cluster n)) := rfl
@[simp] theorem Dev.onCluster_code (d : Dev) (n : Nat) (f : Cluster → Cluster) : (d.onCluster n f).code = d.code := rfl
@[simp] theorem Dev.onCluster_cache (d : Dev) (n : Nat) (f : Cluster → Cluster) : (d.onCluster n f).cache = d.cache := rfl
@[simp] theorem Dev.onCluster_nextHandle (d : Dev) (n : Nat) (f : Cluster → Cluster) : (d.onCluster n f).nextHandle = d.nextHandle := rfl
@[simp] theorem Dev.onCluster_gtime (d : Dev) (n : Nat) (f : Cluster → Cluster) : (d.onCluster n f).gtime = d.gtime := rfl
@[simp] theorem Dev.onCluster_irqs (d : Dev) (n : Nat) (f : Cluster → Cluster) : (d.onCluster n f).irqs = d.irqs := rfl
@[simp] theorem Dev.onCluster_heldIrqs (d : Dev) (n : Nat) (f : Cluster → Cluster) : (d.onCluster n f).heldIrqs = d.heldIrqs := rfl
@[simp] theorem Dev.onCluster_latched (d : Dev) (n : Nat) (f : Cluster → Cluster) : (d.onCluster n f).latched = d.latched := rfl
@[simp] theorem Dev.onCluster_oob (d : Dev) (n : Nat) (f : Cluster → Cluster) : (d.onCluster n f).oob = d.oob := rfl
@[simp] theorem Dev.onCluster_hbmTaken (d : Dev) (n : Nat) (f : Cluster → Cluster) : (d.onCluster n f).hbmTaken = d.hbmTaken := rfl
@[simp] theorem Dev.onCluster_lpddrTaken (d : Dev) (n : Nat) (f : Cluster → Cluster) : (d.onCluster n f).lpddrTaken = d.lpddrTaken := rfl
@[simp] theorem Dev.onCluster_freeFrames (d : Dev) (n : Nat) (f : Cluster → Cluster) : (d.onCluster n f).freeFrames = d.freeFrames := rfl
@[simp] theorem Dev.onCluster_heartbeats (d : Dev) (n : Nat) (f : Cluster → Cluster) : (d.onCluster n f).heartbeats = d.heartbeats := rfl
@[simp] theorem Dev.onCluster_l2 (d : Dev) (n : Nat) (f : Cluster → Cluster) : (d.onCluster n f).l2 = d.l2 := rfl
@[simp] theorem Dev.onCluster_queueCopies (d : Dev) (n : Nat) (f : Cluster → Cluster) : (d.onCluster n f).queueCopies = d.queueCopies := rfl
@[simp] theorem Dev.onCluster_arrivals (d : Dev) (n : Nat) (f : Cluster → Cluster) : (d.onCluster n f).arrivals = d.arrivals := rfl
@[simp] theorem Dev.onCluster_decisions (d : Dev) (n : Nat) (f : Cluster → Cluster) : (d.onCluster n f).decisions = d.decisions := rfl
@[simp] theorem Dev.onCluster_dump (d : Dev) (n : Nat) (f : Cluster → Cluster) : (d.onCluster n f).dump = d.dump := rfl
@[simp] theorem Dev.onCluster_issuer (d : Dev) (n : Nat) (f : Cluster → Cluster) : (d.onCluster n f).issuer = d.issuer := rfl
@[simp] theorem Dev.onCluster_issued (d : Dev) (n : Nat) (f : Cluster → Cluster) : (d.onCluster n f).issued = d.issued := rfl
@[simp] theorem Dev.onCluster_free (d : Dev) (n : Nat) (f : Cluster → Cluster) : (d.onCluster n f).free = d.free := rfl
@[simp] theorem Dev.onCluster_nextId (d : Dev) (n : Nat) (f : Cluster → Cluster) : (d.onCluster n f).nextId = d.nextId := rfl

/-! ## `Dev.onLb` -/

@[simp] theorem Dev.onLb_mem (d : Dev) (j b : Nat) (f : LaneBlock → LaneBlock) : (d.onLb j b f).mem = d.mem := rfl
@[simp] theorem Dev.onLb_poison (d : Dev) (j b : Nat) (f : LaneBlock → LaneBlock) : (d.onLb j b f).poison = d.poison := rfl
@[simp] theorem Dev.onLb_contexts (d : Dev) (j b : Nat) (f : LaneBlock → LaneBlock) : (d.onLb j b f).contexts = d.contexts := rfl
@[simp] theorem Dev.onLb_graphs (d : Dev) (j b : Nat) (f : LaneBlock → LaneBlock) : (d.onLb j b f).graphs = d.graphs := rfl
@[simp] theorem Dev.onLb_launches (d : Dev) (j b : Nat) (f : LaneBlock → LaneBlock) : (d.onLb j b f).launches = d.launches := rfl
@[simp] theorem Dev.onLb_teams (d : Dev) (j b : Nat) (f : LaneBlock → LaneBlock) : (d.onLb j b f).teams = d.teams := rfl
@[simp] theorem Dev.onLb_warps (d : Dev) (j b : Nat) (f : LaneBlock → LaneBlock) : (d.onLb j b f).warps = d.warps := rfl
@[simp] theorem Dev.onLb_fets (d : Dev) (j b : Nat) (f : LaneBlock → LaneBlock) : (d.onLb j b f).fets = d.fets := rfl
@[simp] theorem Dev.onLb_accesses (d : Dev) (j b : Nat) (f : LaneBlock → LaneBlock) : (d.onLb j b f).accesses = d.accesses := rfl
@[simp] theorem Dev.onLb_ops (d : Dev) (j b : Nat) (f : LaneBlock → LaneBlock) : (d.onLb j b f).ops = d.ops := rfl
@[simp] theorem Dev.onLb_copies (d : Dev) (j b : Nat) (f : LaneBlock → LaneBlock) : (d.onLb j b f).copies = d.copies := rfl
@[simp] theorem Dev.onLb_colls (d : Dev) (j b : Nat) (f : LaneBlock → LaneBlock) : (d.onLb j b f).colls = d.colls := rfl
@[simp] theorem Dev.onLb_seals (d : Dev) (j b : Nat) (f : LaneBlock → LaneBlock) : (d.onLb j b f).seals = d.seals := rfl
@[simp] theorem Dev.onLb_tags (d : Dev) (j b : Nat) (f : LaneBlock → LaneBlock) : (d.onLb j b f).tags = d.tags := rfl
@[simp] theorem Dev.onLb_cores (d : Dev) (j b : Nat) (f : LaneBlock → LaneBlock) : (d.onLb j b f).cores = Table.set d.cores j ((d.core j).onLb b f) := rfl
@[simp] theorem Dev.onLb_clusters (d : Dev) (j b : Nat) (f : LaneBlock → LaneBlock) : (d.onLb j b f).clusters = d.clusters := rfl
@[simp] theorem Dev.onLb_code (d : Dev) (j b : Nat) (f : LaneBlock → LaneBlock) : (d.onLb j b f).code = d.code := rfl
@[simp] theorem Dev.onLb_cache (d : Dev) (j b : Nat) (f : LaneBlock → LaneBlock) : (d.onLb j b f).cache = d.cache := rfl
@[simp] theorem Dev.onLb_nextHandle (d : Dev) (j b : Nat) (f : LaneBlock → LaneBlock) : (d.onLb j b f).nextHandle = d.nextHandle := rfl
@[simp] theorem Dev.onLb_gtime (d : Dev) (j b : Nat) (f : LaneBlock → LaneBlock) : (d.onLb j b f).gtime = d.gtime := rfl
@[simp] theorem Dev.onLb_irqs (d : Dev) (j b : Nat) (f : LaneBlock → LaneBlock) : (d.onLb j b f).irqs = d.irqs := rfl
@[simp] theorem Dev.onLb_heldIrqs (d : Dev) (j b : Nat) (f : LaneBlock → LaneBlock) : (d.onLb j b f).heldIrqs = d.heldIrqs := rfl
@[simp] theorem Dev.onLb_latched (d : Dev) (j b : Nat) (f : LaneBlock → LaneBlock) : (d.onLb j b f).latched = d.latched := rfl
@[simp] theorem Dev.onLb_oob (d : Dev) (j b : Nat) (f : LaneBlock → LaneBlock) : (d.onLb j b f).oob = d.oob := rfl
@[simp] theorem Dev.onLb_hbmTaken (d : Dev) (j b : Nat) (f : LaneBlock → LaneBlock) : (d.onLb j b f).hbmTaken = d.hbmTaken := rfl
@[simp] theorem Dev.onLb_lpddrTaken (d : Dev) (j b : Nat) (f : LaneBlock → LaneBlock) : (d.onLb j b f).lpddrTaken = d.lpddrTaken := rfl
@[simp] theorem Dev.onLb_freeFrames (d : Dev) (j b : Nat) (f : LaneBlock → LaneBlock) : (d.onLb j b f).freeFrames = d.freeFrames := rfl
@[simp] theorem Dev.onLb_heartbeats (d : Dev) (j b : Nat) (f : LaneBlock → LaneBlock) : (d.onLb j b f).heartbeats = d.heartbeats := rfl
@[simp] theorem Dev.onLb_l2 (d : Dev) (j b : Nat) (f : LaneBlock → LaneBlock) : (d.onLb j b f).l2 = d.l2 := rfl
@[simp] theorem Dev.onLb_queueCopies (d : Dev) (j b : Nat) (f : LaneBlock → LaneBlock) : (d.onLb j b f).queueCopies = d.queueCopies := rfl
@[simp] theorem Dev.onLb_arrivals (d : Dev) (j b : Nat) (f : LaneBlock → LaneBlock) : (d.onLb j b f).arrivals = d.arrivals := rfl
@[simp] theorem Dev.onLb_decisions (d : Dev) (j b : Nat) (f : LaneBlock → LaneBlock) : (d.onLb j b f).decisions = d.decisions := rfl
@[simp] theorem Dev.onLb_dump (d : Dev) (j b : Nat) (f : LaneBlock → LaneBlock) : (d.onLb j b f).dump = d.dump := rfl
@[simp] theorem Dev.onLb_issuer (d : Dev) (j b : Nat) (f : LaneBlock → LaneBlock) : (d.onLb j b f).issuer = d.issuer := rfl
@[simp] theorem Dev.onLb_issued (d : Dev) (j b : Nat) (f : LaneBlock → LaneBlock) : (d.onLb j b f).issued = d.issued := rfl
@[simp] theorem Dev.onLb_free (d : Dev) (j b : Nat) (f : LaneBlock → LaneBlock) : (d.onLb j b f).free = d.free := rfl
@[simp] theorem Dev.onLb_nextId (d : Dev) (j b : Nat) (f : LaneBlock → LaneBlock) : (d.onLb j b f).nextId = d.nextId := rfl

/-! ## `Dev.onWarp` -/

@[simp] theorem Dev.onWarp_mem (d : Dev) (id : Nat) (f : Warp → Warp) : (d.onWarp id f).mem = d.mem := rfl
@[simp] theorem Dev.onWarp_poison (d : Dev) (id : Nat) (f : Warp → Warp) : (d.onWarp id f).poison = d.poison := rfl
@[simp] theorem Dev.onWarp_contexts (d : Dev) (id : Nat) (f : Warp → Warp) : (d.onWarp id f).contexts = d.contexts := rfl
@[simp] theorem Dev.onWarp_graphs (d : Dev) (id : Nat) (f : Warp → Warp) : (d.onWarp id f).graphs = d.graphs := rfl
@[simp] theorem Dev.onWarp_launches (d : Dev) (id : Nat) (f : Warp → Warp) : (d.onWarp id f).launches = d.launches := rfl
@[simp] theorem Dev.onWarp_teams (d : Dev) (id : Nat) (f : Warp → Warp) : (d.onWarp id f).teams = d.teams := rfl
@[simp] theorem Dev.onWarp_warps (d : Dev) (id : Nat) (f : Warp → Warp) : (d.onWarp id f).warps = Table.modify d.warps id f := rfl
@[simp] theorem Dev.onWarp_fets (d : Dev) (id : Nat) (f : Warp → Warp) : (d.onWarp id f).fets = d.fets := rfl
@[simp] theorem Dev.onWarp_accesses (d : Dev) (id : Nat) (f : Warp → Warp) : (d.onWarp id f).accesses = d.accesses := rfl
@[simp] theorem Dev.onWarp_ops (d : Dev) (id : Nat) (f : Warp → Warp) : (d.onWarp id f).ops = d.ops := rfl
@[simp] theorem Dev.onWarp_copies (d : Dev) (id : Nat) (f : Warp → Warp) : (d.onWarp id f).copies = d.copies := rfl
@[simp] theorem Dev.onWarp_colls (d : Dev) (id : Nat) (f : Warp → Warp) : (d.onWarp id f).colls = d.colls := rfl
@[simp] theorem Dev.onWarp_seals (d : Dev) (id : Nat) (f : Warp → Warp) : (d.onWarp id f).seals = d.seals := rfl
@[simp] theorem Dev.onWarp_tags (d : Dev) (id : Nat) (f : Warp → Warp) : (d.onWarp id f).tags = d.tags := rfl
@[simp] theorem Dev.onWarp_cores (d : Dev) (id : Nat) (f : Warp → Warp) : (d.onWarp id f).cores = d.cores := rfl
@[simp] theorem Dev.onWarp_clusters (d : Dev) (id : Nat) (f : Warp → Warp) : (d.onWarp id f).clusters = d.clusters := rfl
@[simp] theorem Dev.onWarp_code (d : Dev) (id : Nat) (f : Warp → Warp) : (d.onWarp id f).code = d.code := rfl
@[simp] theorem Dev.onWarp_cache (d : Dev) (id : Nat) (f : Warp → Warp) : (d.onWarp id f).cache = d.cache := rfl
@[simp] theorem Dev.onWarp_nextHandle (d : Dev) (id : Nat) (f : Warp → Warp) : (d.onWarp id f).nextHandle = d.nextHandle := rfl
@[simp] theorem Dev.onWarp_gtime (d : Dev) (id : Nat) (f : Warp → Warp) : (d.onWarp id f).gtime = d.gtime := rfl
@[simp] theorem Dev.onWarp_irqs (d : Dev) (id : Nat) (f : Warp → Warp) : (d.onWarp id f).irqs = d.irqs := rfl
@[simp] theorem Dev.onWarp_heldIrqs (d : Dev) (id : Nat) (f : Warp → Warp) : (d.onWarp id f).heldIrqs = d.heldIrqs := rfl
@[simp] theorem Dev.onWarp_latched (d : Dev) (id : Nat) (f : Warp → Warp) : (d.onWarp id f).latched = d.latched := rfl
@[simp] theorem Dev.onWarp_oob (d : Dev) (id : Nat) (f : Warp → Warp) : (d.onWarp id f).oob = d.oob := rfl
@[simp] theorem Dev.onWarp_hbmTaken (d : Dev) (id : Nat) (f : Warp → Warp) : (d.onWarp id f).hbmTaken = d.hbmTaken := rfl
@[simp] theorem Dev.onWarp_lpddrTaken (d : Dev) (id : Nat) (f : Warp → Warp) : (d.onWarp id f).lpddrTaken = d.lpddrTaken := rfl
@[simp] theorem Dev.onWarp_freeFrames (d : Dev) (id : Nat) (f : Warp → Warp) : (d.onWarp id f).freeFrames = d.freeFrames := rfl
@[simp] theorem Dev.onWarp_heartbeats (d : Dev) (id : Nat) (f : Warp → Warp) : (d.onWarp id f).heartbeats = d.heartbeats := rfl
@[simp] theorem Dev.onWarp_l2 (d : Dev) (id : Nat) (f : Warp → Warp) : (d.onWarp id f).l2 = d.l2 := rfl
@[simp] theorem Dev.onWarp_queueCopies (d : Dev) (id : Nat) (f : Warp → Warp) : (d.onWarp id f).queueCopies = d.queueCopies := rfl
@[simp] theorem Dev.onWarp_arrivals (d : Dev) (id : Nat) (f : Warp → Warp) : (d.onWarp id f).arrivals = d.arrivals := rfl
@[simp] theorem Dev.onWarp_decisions (d : Dev) (id : Nat) (f : Warp → Warp) : (d.onWarp id f).decisions = d.decisions := rfl
@[simp] theorem Dev.onWarp_dump (d : Dev) (id : Nat) (f : Warp → Warp) : (d.onWarp id f).dump = d.dump := rfl
@[simp] theorem Dev.onWarp_issuer (d : Dev) (id : Nat) (f : Warp → Warp) : (d.onWarp id f).issuer = d.issuer := rfl
@[simp] theorem Dev.onWarp_issued (d : Dev) (id : Nat) (f : Warp → Warp) : (d.onWarp id f).issued = d.issued := rfl
@[simp] theorem Dev.onWarp_free (d : Dev) (id : Nat) (f : Warp → Warp) : (d.onWarp id f).free = d.free := rfl
@[simp] theorem Dev.onWarp_nextId (d : Dev) (id : Nat) (f : Warp → Warp) : (d.onWarp id f).nextId = d.nextId := rfl

/-! ## `Dev.onFet` -/

@[simp] theorem Dev.onFet_mem (d : Dev) (id : Nat) (f : Fet → Fet) : (d.onFet id f).mem = d.mem := rfl
@[simp] theorem Dev.onFet_poison (d : Dev) (id : Nat) (f : Fet → Fet) : (d.onFet id f).poison = d.poison := rfl
@[simp] theorem Dev.onFet_contexts (d : Dev) (id : Nat) (f : Fet → Fet) : (d.onFet id f).contexts = d.contexts := rfl
@[simp] theorem Dev.onFet_graphs (d : Dev) (id : Nat) (f : Fet → Fet) : (d.onFet id f).graphs = d.graphs := rfl
@[simp] theorem Dev.onFet_launches (d : Dev) (id : Nat) (f : Fet → Fet) : (d.onFet id f).launches = d.launches := rfl
@[simp] theorem Dev.onFet_teams (d : Dev) (id : Nat) (f : Fet → Fet) : (d.onFet id f).teams = d.teams := rfl
@[simp] theorem Dev.onFet_warps (d : Dev) (id : Nat) (f : Fet → Fet) : (d.onFet id f).warps = d.warps := rfl
@[simp] theorem Dev.onFet_fets (d : Dev) (id : Nat) (f : Fet → Fet) : (d.onFet id f).fets = Table.modify d.fets id f := rfl
@[simp] theorem Dev.onFet_accesses (d : Dev) (id : Nat) (f : Fet → Fet) : (d.onFet id f).accesses = d.accesses := rfl
@[simp] theorem Dev.onFet_ops (d : Dev) (id : Nat) (f : Fet → Fet) : (d.onFet id f).ops = d.ops := rfl
@[simp] theorem Dev.onFet_copies (d : Dev) (id : Nat) (f : Fet → Fet) : (d.onFet id f).copies = d.copies := rfl
@[simp] theorem Dev.onFet_colls (d : Dev) (id : Nat) (f : Fet → Fet) : (d.onFet id f).colls = d.colls := rfl
@[simp] theorem Dev.onFet_seals (d : Dev) (id : Nat) (f : Fet → Fet) : (d.onFet id f).seals = d.seals := rfl
@[simp] theorem Dev.onFet_tags (d : Dev) (id : Nat) (f : Fet → Fet) : (d.onFet id f).tags = d.tags := rfl
@[simp] theorem Dev.onFet_cores (d : Dev) (id : Nat) (f : Fet → Fet) : (d.onFet id f).cores = d.cores := rfl
@[simp] theorem Dev.onFet_clusters (d : Dev) (id : Nat) (f : Fet → Fet) : (d.onFet id f).clusters = d.clusters := rfl
@[simp] theorem Dev.onFet_code (d : Dev) (id : Nat) (f : Fet → Fet) : (d.onFet id f).code = d.code := rfl
@[simp] theorem Dev.onFet_cache (d : Dev) (id : Nat) (f : Fet → Fet) : (d.onFet id f).cache = d.cache := rfl
@[simp] theorem Dev.onFet_nextHandle (d : Dev) (id : Nat) (f : Fet → Fet) : (d.onFet id f).nextHandle = d.nextHandle := rfl
@[simp] theorem Dev.onFet_gtime (d : Dev) (id : Nat) (f : Fet → Fet) : (d.onFet id f).gtime = d.gtime := rfl
@[simp] theorem Dev.onFet_irqs (d : Dev) (id : Nat) (f : Fet → Fet) : (d.onFet id f).irqs = d.irqs := rfl
@[simp] theorem Dev.onFet_heldIrqs (d : Dev) (id : Nat) (f : Fet → Fet) : (d.onFet id f).heldIrqs = d.heldIrqs := rfl
@[simp] theorem Dev.onFet_latched (d : Dev) (id : Nat) (f : Fet → Fet) : (d.onFet id f).latched = d.latched := rfl
@[simp] theorem Dev.onFet_oob (d : Dev) (id : Nat) (f : Fet → Fet) : (d.onFet id f).oob = d.oob := rfl
@[simp] theorem Dev.onFet_hbmTaken (d : Dev) (id : Nat) (f : Fet → Fet) : (d.onFet id f).hbmTaken = d.hbmTaken := rfl
@[simp] theorem Dev.onFet_lpddrTaken (d : Dev) (id : Nat) (f : Fet → Fet) : (d.onFet id f).lpddrTaken = d.lpddrTaken := rfl
@[simp] theorem Dev.onFet_freeFrames (d : Dev) (id : Nat) (f : Fet → Fet) : (d.onFet id f).freeFrames = d.freeFrames := rfl
@[simp] theorem Dev.onFet_heartbeats (d : Dev) (id : Nat) (f : Fet → Fet) : (d.onFet id f).heartbeats = d.heartbeats := rfl
@[simp] theorem Dev.onFet_l2 (d : Dev) (id : Nat) (f : Fet → Fet) : (d.onFet id f).l2 = d.l2 := rfl
@[simp] theorem Dev.onFet_queueCopies (d : Dev) (id : Nat) (f : Fet → Fet) : (d.onFet id f).queueCopies = d.queueCopies := rfl
@[simp] theorem Dev.onFet_arrivals (d : Dev) (id : Nat) (f : Fet → Fet) : (d.onFet id f).arrivals = d.arrivals := rfl
@[simp] theorem Dev.onFet_decisions (d : Dev) (id : Nat) (f : Fet → Fet) : (d.onFet id f).decisions = d.decisions := rfl
@[simp] theorem Dev.onFet_dump (d : Dev) (id : Nat) (f : Fet → Fet) : (d.onFet id f).dump = d.dump := rfl
@[simp] theorem Dev.onFet_issuer (d : Dev) (id : Nat) (f : Fet → Fet) : (d.onFet id f).issuer = d.issuer := rfl
@[simp] theorem Dev.onFet_issued (d : Dev) (id : Nat) (f : Fet → Fet) : (d.onFet id f).issued = d.issued := rfl
@[simp] theorem Dev.onFet_free (d : Dev) (id : Nat) (f : Fet → Fet) : (d.onFet id f).free = d.free := rfl
@[simp] theorem Dev.onFet_nextId (d : Dev) (id : Nat) (f : Fet → Fet) : (d.onFet id f).nextId = d.nextId := rfl

/-! ## `Dev.onTeam` -/

@[simp] theorem Dev.onTeam_mem (d : Dev) (id : Nat) (f : Team → Team) : (d.onTeam id f).mem = d.mem := rfl
@[simp] theorem Dev.onTeam_poison (d : Dev) (id : Nat) (f : Team → Team) : (d.onTeam id f).poison = d.poison := rfl
@[simp] theorem Dev.onTeam_contexts (d : Dev) (id : Nat) (f : Team → Team) : (d.onTeam id f).contexts = d.contexts := rfl
@[simp] theorem Dev.onTeam_graphs (d : Dev) (id : Nat) (f : Team → Team) : (d.onTeam id f).graphs = d.graphs := rfl
@[simp] theorem Dev.onTeam_launches (d : Dev) (id : Nat) (f : Team → Team) : (d.onTeam id f).launches = d.launches := rfl
@[simp] theorem Dev.onTeam_teams (d : Dev) (id : Nat) (f : Team → Team) : (d.onTeam id f).teams = Table.modify d.teams id f := rfl
@[simp] theorem Dev.onTeam_warps (d : Dev) (id : Nat) (f : Team → Team) : (d.onTeam id f).warps = d.warps := rfl
@[simp] theorem Dev.onTeam_fets (d : Dev) (id : Nat) (f : Team → Team) : (d.onTeam id f).fets = d.fets := rfl
@[simp] theorem Dev.onTeam_accesses (d : Dev) (id : Nat) (f : Team → Team) : (d.onTeam id f).accesses = d.accesses := rfl
@[simp] theorem Dev.onTeam_ops (d : Dev) (id : Nat) (f : Team → Team) : (d.onTeam id f).ops = d.ops := rfl
@[simp] theorem Dev.onTeam_copies (d : Dev) (id : Nat) (f : Team → Team) : (d.onTeam id f).copies = d.copies := rfl
@[simp] theorem Dev.onTeam_colls (d : Dev) (id : Nat) (f : Team → Team) : (d.onTeam id f).colls = d.colls := rfl
@[simp] theorem Dev.onTeam_seals (d : Dev) (id : Nat) (f : Team → Team) : (d.onTeam id f).seals = d.seals := rfl
@[simp] theorem Dev.onTeam_tags (d : Dev) (id : Nat) (f : Team → Team) : (d.onTeam id f).tags = d.tags := rfl
@[simp] theorem Dev.onTeam_cores (d : Dev) (id : Nat) (f : Team → Team) : (d.onTeam id f).cores = d.cores := rfl
@[simp] theorem Dev.onTeam_clusters (d : Dev) (id : Nat) (f : Team → Team) : (d.onTeam id f).clusters = d.clusters := rfl
@[simp] theorem Dev.onTeam_code (d : Dev) (id : Nat) (f : Team → Team) : (d.onTeam id f).code = d.code := rfl
@[simp] theorem Dev.onTeam_cache (d : Dev) (id : Nat) (f : Team → Team) : (d.onTeam id f).cache = d.cache := rfl
@[simp] theorem Dev.onTeam_nextHandle (d : Dev) (id : Nat) (f : Team → Team) : (d.onTeam id f).nextHandle = d.nextHandle := rfl
@[simp] theorem Dev.onTeam_gtime (d : Dev) (id : Nat) (f : Team → Team) : (d.onTeam id f).gtime = d.gtime := rfl
@[simp] theorem Dev.onTeam_irqs (d : Dev) (id : Nat) (f : Team → Team) : (d.onTeam id f).irqs = d.irqs := rfl
@[simp] theorem Dev.onTeam_heldIrqs (d : Dev) (id : Nat) (f : Team → Team) : (d.onTeam id f).heldIrqs = d.heldIrqs := rfl
@[simp] theorem Dev.onTeam_latched (d : Dev) (id : Nat) (f : Team → Team) : (d.onTeam id f).latched = d.latched := rfl
@[simp] theorem Dev.onTeam_oob (d : Dev) (id : Nat) (f : Team → Team) : (d.onTeam id f).oob = d.oob := rfl
@[simp] theorem Dev.onTeam_hbmTaken (d : Dev) (id : Nat) (f : Team → Team) : (d.onTeam id f).hbmTaken = d.hbmTaken := rfl
@[simp] theorem Dev.onTeam_lpddrTaken (d : Dev) (id : Nat) (f : Team → Team) : (d.onTeam id f).lpddrTaken = d.lpddrTaken := rfl
@[simp] theorem Dev.onTeam_freeFrames (d : Dev) (id : Nat) (f : Team → Team) : (d.onTeam id f).freeFrames = d.freeFrames := rfl
@[simp] theorem Dev.onTeam_heartbeats (d : Dev) (id : Nat) (f : Team → Team) : (d.onTeam id f).heartbeats = d.heartbeats := rfl
@[simp] theorem Dev.onTeam_l2 (d : Dev) (id : Nat) (f : Team → Team) : (d.onTeam id f).l2 = d.l2 := rfl
@[simp] theorem Dev.onTeam_queueCopies (d : Dev) (id : Nat) (f : Team → Team) : (d.onTeam id f).queueCopies = d.queueCopies := rfl
@[simp] theorem Dev.onTeam_arrivals (d : Dev) (id : Nat) (f : Team → Team) : (d.onTeam id f).arrivals = d.arrivals := rfl
@[simp] theorem Dev.onTeam_decisions (d : Dev) (id : Nat) (f : Team → Team) : (d.onTeam id f).decisions = d.decisions := rfl
@[simp] theorem Dev.onTeam_dump (d : Dev) (id : Nat) (f : Team → Team) : (d.onTeam id f).dump = d.dump := rfl
@[simp] theorem Dev.onTeam_issuer (d : Dev) (id : Nat) (f : Team → Team) : (d.onTeam id f).issuer = d.issuer := rfl
@[simp] theorem Dev.onTeam_issued (d : Dev) (id : Nat) (f : Team → Team) : (d.onTeam id f).issued = d.issued := rfl
@[simp] theorem Dev.onTeam_free (d : Dev) (id : Nat) (f : Team → Team) : (d.onTeam id f).free = d.free := rfl
@[simp] theorem Dev.onTeam_nextId (d : Dev) (id : Nat) (f : Team → Team) : (d.onTeam id f).nextId = d.nextId := rfl

/-! ## `Dev.onLaunch` -/

@[simp] theorem Dev.onLaunch_mem (d : Dev) (id : Nat) (f : Launch → Launch) : (d.onLaunch id f).mem = d.mem := rfl
@[simp] theorem Dev.onLaunch_poison (d : Dev) (id : Nat) (f : Launch → Launch) : (d.onLaunch id f).poison = d.poison := rfl
@[simp] theorem Dev.onLaunch_contexts (d : Dev) (id : Nat) (f : Launch → Launch) : (d.onLaunch id f).contexts = d.contexts := rfl
@[simp] theorem Dev.onLaunch_graphs (d : Dev) (id : Nat) (f : Launch → Launch) : (d.onLaunch id f).graphs = d.graphs := rfl
@[simp] theorem Dev.onLaunch_launches (d : Dev) (id : Nat) (f : Launch → Launch) : (d.onLaunch id f).launches = Table.modify d.launches id f := rfl
@[simp] theorem Dev.onLaunch_teams (d : Dev) (id : Nat) (f : Launch → Launch) : (d.onLaunch id f).teams = d.teams := rfl
@[simp] theorem Dev.onLaunch_warps (d : Dev) (id : Nat) (f : Launch → Launch) : (d.onLaunch id f).warps = d.warps := rfl
@[simp] theorem Dev.onLaunch_fets (d : Dev) (id : Nat) (f : Launch → Launch) : (d.onLaunch id f).fets = d.fets := rfl
@[simp] theorem Dev.onLaunch_accesses (d : Dev) (id : Nat) (f : Launch → Launch) : (d.onLaunch id f).accesses = d.accesses := rfl
@[simp] theorem Dev.onLaunch_ops (d : Dev) (id : Nat) (f : Launch → Launch) : (d.onLaunch id f).ops = d.ops := rfl
@[simp] theorem Dev.onLaunch_copies (d : Dev) (id : Nat) (f : Launch → Launch) : (d.onLaunch id f).copies = d.copies := rfl
@[simp] theorem Dev.onLaunch_colls (d : Dev) (id : Nat) (f : Launch → Launch) : (d.onLaunch id f).colls = d.colls := rfl
@[simp] theorem Dev.onLaunch_seals (d : Dev) (id : Nat) (f : Launch → Launch) : (d.onLaunch id f).seals = d.seals := rfl
@[simp] theorem Dev.onLaunch_tags (d : Dev) (id : Nat) (f : Launch → Launch) : (d.onLaunch id f).tags = d.tags := rfl
@[simp] theorem Dev.onLaunch_cores (d : Dev) (id : Nat) (f : Launch → Launch) : (d.onLaunch id f).cores = d.cores := rfl
@[simp] theorem Dev.onLaunch_clusters (d : Dev) (id : Nat) (f : Launch → Launch) : (d.onLaunch id f).clusters = d.clusters := rfl
@[simp] theorem Dev.onLaunch_code (d : Dev) (id : Nat) (f : Launch → Launch) : (d.onLaunch id f).code = d.code := rfl
@[simp] theorem Dev.onLaunch_cache (d : Dev) (id : Nat) (f : Launch → Launch) : (d.onLaunch id f).cache = d.cache := rfl
@[simp] theorem Dev.onLaunch_nextHandle (d : Dev) (id : Nat) (f : Launch → Launch) : (d.onLaunch id f).nextHandle = d.nextHandle := rfl
@[simp] theorem Dev.onLaunch_gtime (d : Dev) (id : Nat) (f : Launch → Launch) : (d.onLaunch id f).gtime = d.gtime := rfl
@[simp] theorem Dev.onLaunch_irqs (d : Dev) (id : Nat) (f : Launch → Launch) : (d.onLaunch id f).irqs = d.irqs := rfl
@[simp] theorem Dev.onLaunch_heldIrqs (d : Dev) (id : Nat) (f : Launch → Launch) : (d.onLaunch id f).heldIrqs = d.heldIrqs := rfl
@[simp] theorem Dev.onLaunch_latched (d : Dev) (id : Nat) (f : Launch → Launch) : (d.onLaunch id f).latched = d.latched := rfl
@[simp] theorem Dev.onLaunch_oob (d : Dev) (id : Nat) (f : Launch → Launch) : (d.onLaunch id f).oob = d.oob := rfl
@[simp] theorem Dev.onLaunch_hbmTaken (d : Dev) (id : Nat) (f : Launch → Launch) : (d.onLaunch id f).hbmTaken = d.hbmTaken := rfl
@[simp] theorem Dev.onLaunch_lpddrTaken (d : Dev) (id : Nat) (f : Launch → Launch) : (d.onLaunch id f).lpddrTaken = d.lpddrTaken := rfl
@[simp] theorem Dev.onLaunch_freeFrames (d : Dev) (id : Nat) (f : Launch → Launch) : (d.onLaunch id f).freeFrames = d.freeFrames := rfl
@[simp] theorem Dev.onLaunch_heartbeats (d : Dev) (id : Nat) (f : Launch → Launch) : (d.onLaunch id f).heartbeats = d.heartbeats := rfl
@[simp] theorem Dev.onLaunch_l2 (d : Dev) (id : Nat) (f : Launch → Launch) : (d.onLaunch id f).l2 = d.l2 := rfl
@[simp] theorem Dev.onLaunch_queueCopies (d : Dev) (id : Nat) (f : Launch → Launch) : (d.onLaunch id f).queueCopies = d.queueCopies := rfl
@[simp] theorem Dev.onLaunch_arrivals (d : Dev) (id : Nat) (f : Launch → Launch) : (d.onLaunch id f).arrivals = d.arrivals := rfl
@[simp] theorem Dev.onLaunch_decisions (d : Dev) (id : Nat) (f : Launch → Launch) : (d.onLaunch id f).decisions = d.decisions := rfl
@[simp] theorem Dev.onLaunch_dump (d : Dev) (id : Nat) (f : Launch → Launch) : (d.onLaunch id f).dump = d.dump := rfl
@[simp] theorem Dev.onLaunch_issuer (d : Dev) (id : Nat) (f : Launch → Launch) : (d.onLaunch id f).issuer = d.issuer := rfl
@[simp] theorem Dev.onLaunch_issued (d : Dev) (id : Nat) (f : Launch → Launch) : (d.onLaunch id f).issued = d.issued := rfl
@[simp] theorem Dev.onLaunch_free (d : Dev) (id : Nat) (f : Launch → Launch) : (d.onLaunch id f).free = d.free := rfl
@[simp] theorem Dev.onLaunch_nextId (d : Dev) (id : Nat) (f : Launch → Launch) : (d.onLaunch id f).nextId = d.nextId := rfl

/-! ## `Warp.setCur` -/

@[simp] theorem Warp.setCur_team (x : Warp) (s : Split) : (x.setCur s).team = x.team := rfl
@[simp] theorem Warp.setCur_w (x : Warp) (s : Split) : (x.setCur s).w = x.w := rfl
@[simp] theorem Warp.setCur_core (x : Warp) (s : Split) : (x.setCur s).core = x.core := rfl
@[simp] theorem Warp.setCur_lb (x : Warp) (s : Split) : (x.setCur s).lb = x.lb := rfl
@[simp] theorem Warp.setCur_slot (x : Warp) (s : Split) : (x.setCur s).slot = x.slot := rfl
@[simp] theorem Warp.setCur_sliceCore (x : Warp) (s : Split) : (x.setCur s).sliceCore = x.sliceCore := rfl
@[simp] theorem Warp.setCur_stackBase (x : Warp) (s : Split) : (x.setCur s).stackBase = x.stackBase := rfl
@[simp] theorem Warp.setCur_frameBase (x : Warp) (s : Split) : (x.setCur s).frameBase = x.frameBase := rfl
@[simp] theorem Warp.setCur_place (x : Warp) (s : Split) : (x.setCur s).place = x.place := rfl
@[simp] theorem Warp.setCur_fwd (x : Warp) (s : Split) : (x.setCur s).fwd = x.fwd := rfl
@[simp] theorem Warp.setCur_stopped (x : Warp) (s : Split) : (x.setCur s).stopped = x.stopped := rfl
@[simp] theorem Warp.setCur_threads (x : Warp) (s : Split) : (x.setCur s).threads = x.threads := rfl
@[simp] theorem Warp.setCur_cur (x : Warp) (s : Split) : (x.setCur s).cur = some s := rfl
@[simp] theorem Warp.setCur_others (x : Warp) (s : Split) : (x.setCur s).others = x.others := rfl
@[simp] theorem Warp.setCur_last (x : Warp) (s : Split) : (x.setCur s).last = x.last := rfl
@[simp] theorem Warp.setCur_lfsr (x : Warp) (s : Split) : (x.setCur s).lfsr = x.lfsr := rfl
@[simp] theorem Warp.setCur_join (x : Warp) (s : Split) : (x.setCur s).join = x.join := rfl
@[simp] theorem Warp.setCur_k (x : Warp) (s : Split) : (x.setCur s).k = x.k := rfl
@[simp] theorem Warp.setCur_kp (x : Warp) (s : Split) : (x.setCur s).kp = x.kp := rfl
@[simp] theorem Warp.setCur_flags (x : Warp) (s : Split) : (x.setCur s).flags = x.flags := rfl
@[simp] theorem Warp.setCur_cnt (x : Warp) (s : Split) : (x.setCur s).cnt = x.cnt := rfl
@[simp] theorem Warp.setCur_ch15 (x : Warp) (s : Split) : (x.setCur s).ch15 = x.ch15 := rfl
@[simp] theorem Warp.setCur_vlimit (x : Warp) (s : Split) : (x.setCur s).vlimit = x.vlimit := rfl
@[simp] theorem Warp.setCur_perf (x : Warp) (s : Split) : (x.setCur s).perf = x.perf := rfl
@[simp] theorem Warp.setCur_handler (x : Warp) (s : Split) : (x.setCur s).handler = x.handler := rfl
@[simp] theorem Warp.setCur_posted (x : Warp) (s : Split) : (x.setCur s).posted = x.posted := rfl
@[simp] theorem Warp.setCur_replay (x : Warp) (s : Split) : (x.setCur s).replay = x.replay := rfl
@[simp] theorem Warp.setCur_kld (x : Warp) (s : Split) : (x.setCur s).kld = x.kld := rfl
@[simp] theorem Warp.setCur_marks (x : Warp) (s : Split) : (x.setCur s).marks = x.marks := rfl
@[simp] theorem Warp.setCur_observed (x : Warp) (s : Split) : (x.setCur s).observed = x.observed := rfl
@[simp] theorem Warp.setCur_fed (x : Warp) (s : Split) : (x.setCur s).fed = x.fed := rfl

/-! ## `Warp.replaceCur` -/

@[simp] theorem Warp.replaceCur_team (x : Warp) (ss : List Split) : (x.replaceCur ss).team = x.team := rfl
@[simp] theorem Warp.replaceCur_w (x : Warp) (ss : List Split) : (x.replaceCur ss).w = x.w := rfl
@[simp] theorem Warp.replaceCur_core (x : Warp) (ss : List Split) : (x.replaceCur ss).core = x.core := rfl
@[simp] theorem Warp.replaceCur_lb (x : Warp) (ss : List Split) : (x.replaceCur ss).lb = x.lb := rfl
@[simp] theorem Warp.replaceCur_slot (x : Warp) (ss : List Split) : (x.replaceCur ss).slot = x.slot := rfl
@[simp] theorem Warp.replaceCur_sliceCore (x : Warp) (ss : List Split) : (x.replaceCur ss).sliceCore = x.sliceCore := rfl
@[simp] theorem Warp.replaceCur_stackBase (x : Warp) (ss : List Split) : (x.replaceCur ss).stackBase = x.stackBase := rfl
@[simp] theorem Warp.replaceCur_frameBase (x : Warp) (ss : List Split) : (x.replaceCur ss).frameBase = x.frameBase := rfl
@[simp] theorem Warp.replaceCur_place (x : Warp) (ss : List Split) : (x.replaceCur ss).place = x.place := rfl
@[simp] theorem Warp.replaceCur_fwd (x : Warp) (ss : List Split) : (x.replaceCur ss).fwd = x.fwd := rfl
@[simp] theorem Warp.replaceCur_stopped (x : Warp) (ss : List Split) : (x.replaceCur ss).stopped = x.stopped := rfl
@[simp] theorem Warp.replaceCur_threads (x : Warp) (ss : List Split) : (x.replaceCur ss).threads = x.threads := rfl
@[simp] theorem Warp.replaceCur_cur (x : Warp) (ss : List Split) : (x.replaceCur ss).cur = none := rfl
@[simp] theorem Warp.replaceCur_others (x : Warp) (ss : List Split) : (x.replaceCur ss).others = x.others ++ ss := rfl
@[simp] theorem Warp.replaceCur_last (x : Warp) (ss : List Split) : (x.replaceCur ss).last = (x.cur.map Split.mask).getD x.last := rfl
@[simp] theorem Warp.replaceCur_lfsr (x : Warp) (ss : List Split) : (x.replaceCur ss).lfsr = x.lfsr := rfl
@[simp] theorem Warp.replaceCur_join (x : Warp) (ss : List Split) : (x.replaceCur ss).join = x.join := rfl
@[simp] theorem Warp.replaceCur_k (x : Warp) (ss : List Split) : (x.replaceCur ss).k = x.k := rfl
@[simp] theorem Warp.replaceCur_kp (x : Warp) (ss : List Split) : (x.replaceCur ss).kp = x.kp := rfl
@[simp] theorem Warp.replaceCur_flags (x : Warp) (ss : List Split) : (x.replaceCur ss).flags = x.flags := rfl
@[simp] theorem Warp.replaceCur_cnt (x : Warp) (ss : List Split) : (x.replaceCur ss).cnt = x.cnt := rfl
@[simp] theorem Warp.replaceCur_ch15 (x : Warp) (ss : List Split) : (x.replaceCur ss).ch15 = x.ch15 := rfl
@[simp] theorem Warp.replaceCur_vlimit (x : Warp) (ss : List Split) : (x.replaceCur ss).vlimit = x.vlimit := rfl
@[simp] theorem Warp.replaceCur_perf (x : Warp) (ss : List Split) : (x.replaceCur ss).perf = x.perf := rfl
@[simp] theorem Warp.replaceCur_handler (x : Warp) (ss : List Split) : (x.replaceCur ss).handler = x.handler := rfl
@[simp] theorem Warp.replaceCur_posted (x : Warp) (ss : List Split) : (x.replaceCur ss).posted = x.posted := rfl
@[simp] theorem Warp.replaceCur_replay (x : Warp) (ss : List Split) : (x.replaceCur ss).replay = x.replay := rfl
@[simp] theorem Warp.replaceCur_kld (x : Warp) (ss : List Split) : (x.replaceCur ss).kld = x.kld := rfl
@[simp] theorem Warp.replaceCur_marks (x : Warp) (ss : List Split) : (x.replaceCur ss).marks = x.marks := rfl
@[simp] theorem Warp.replaceCur_observed (x : Warp) (ss : List Split) : (x.replaceCur ss).observed = x.observed := rfl
@[simp] theorem Warp.replaceCur_fed (x : Warp) (ss : List Split) : (x.replaceCur ss).fed = x.fed := rfl

/-! ## `Warp.onLanes` -/

@[simp] theorem Warp.onLanes_team (x : Warp) (m : Mask) (f : Thread → Thread) : (x.onLanes m f).team = x.team := rfl
@[simp] theorem Warp.onLanes_w (x : Warp) (m : Mask) (f : Thread → Thread) : (x.onLanes m f).w = x.w := rfl
@[simp] theorem Warp.onLanes_core (x : Warp) (m : Mask) (f : Thread → Thread) : (x.onLanes m f).core = x.core := rfl
@[simp] theorem Warp.onLanes_lb (x : Warp) (m : Mask) (f : Thread → Thread) : (x.onLanes m f).lb = x.lb := rfl
@[simp] theorem Warp.onLanes_slot (x : Warp) (m : Mask) (f : Thread → Thread) : (x.onLanes m f).slot = x.slot := rfl
@[simp] theorem Warp.onLanes_sliceCore (x : Warp) (m : Mask) (f : Thread → Thread) : (x.onLanes m f).sliceCore = x.sliceCore := rfl
@[simp] theorem Warp.onLanes_stackBase (x : Warp) (m : Mask) (f : Thread → Thread) : (x.onLanes m f).stackBase = x.stackBase := rfl
@[simp] theorem Warp.onLanes_frameBase (x : Warp) (m : Mask) (f : Thread → Thread) : (x.onLanes m f).frameBase = x.frameBase := rfl
@[simp] theorem Warp.onLanes_place (x : Warp) (m : Mask) (f : Thread → Thread) : (x.onLanes m f).place = x.place := rfl
@[simp] theorem Warp.onLanes_fwd (x : Warp) (m : Mask) (f : Thread → Thread) : (x.onLanes m f).fwd = x.fwd := rfl
@[simp] theorem Warp.onLanes_stopped (x : Warp) (m : Mask) (f : Thread → Thread) : (x.onLanes m f).stopped = x.stopped := rfl
@[simp] theorem Warp.onLanes_threads (x : Warp) (m : Mask) (f : Thread → Thread) : (x.onLanes m f).threads = x.threads.map fun t => if m.getLsbD t.lane then f t else t := rfl
@[simp] theorem Warp.onLanes_cur (x : Warp) (m : Mask) (f : Thread → Thread) : (x.onLanes m f).cur = x.cur := rfl
@[simp] theorem Warp.onLanes_others (x : Warp) (m : Mask) (f : Thread → Thread) : (x.onLanes m f).others = x.others := rfl
@[simp] theorem Warp.onLanes_last (x : Warp) (m : Mask) (f : Thread → Thread) : (x.onLanes m f).last = x.last := rfl
@[simp] theorem Warp.onLanes_lfsr (x : Warp) (m : Mask) (f : Thread → Thread) : (x.onLanes m f).lfsr = x.lfsr := rfl
@[simp] theorem Warp.onLanes_join (x : Warp) (m : Mask) (f : Thread → Thread) : (x.onLanes m f).join = x.join := rfl
@[simp] theorem Warp.onLanes_k (x : Warp) (m : Mask) (f : Thread → Thread) : (x.onLanes m f).k = x.k := rfl
@[simp] theorem Warp.onLanes_kp (x : Warp) (m : Mask) (f : Thread → Thread) : (x.onLanes m f).kp = x.kp := rfl
@[simp] theorem Warp.onLanes_flags (x : Warp) (m : Mask) (f : Thread → Thread) : (x.onLanes m f).flags = x.flags := rfl
@[simp] theorem Warp.onLanes_cnt (x : Warp) (m : Mask) (f : Thread → Thread) : (x.onLanes m f).cnt = x.cnt := rfl
@[simp] theorem Warp.onLanes_ch15 (x : Warp) (m : Mask) (f : Thread → Thread) : (x.onLanes m f).ch15 = x.ch15 := rfl
@[simp] theorem Warp.onLanes_vlimit (x : Warp) (m : Mask) (f : Thread → Thread) : (x.onLanes m f).vlimit = x.vlimit := rfl
@[simp] theorem Warp.onLanes_perf (x : Warp) (m : Mask) (f : Thread → Thread) : (x.onLanes m f).perf = x.perf := rfl
@[simp] theorem Warp.onLanes_handler (x : Warp) (m : Mask) (f : Thread → Thread) : (x.onLanes m f).handler = x.handler := rfl
@[simp] theorem Warp.onLanes_posted (x : Warp) (m : Mask) (f : Thread → Thread) : (x.onLanes m f).posted = x.posted := rfl
@[simp] theorem Warp.onLanes_replay (x : Warp) (m : Mask) (f : Thread → Thread) : (x.onLanes m f).replay = x.replay := rfl
@[simp] theorem Warp.onLanes_kld (x : Warp) (m : Mask) (f : Thread → Thread) : (x.onLanes m f).kld = x.kld := rfl
@[simp] theorem Warp.onLanes_marks (x : Warp) (m : Mask) (f : Thread → Thread) : (x.onLanes m f).marks = x.marks := rfl
@[simp] theorem Warp.onLanes_observed (x : Warp) (m : Mask) (f : Thread → Thread) : (x.onLanes m f).observed = x.observed := rfl
@[simp] theorem Warp.onLanes_fed (x : Warp) (m : Mask) (f : Thread → Thread) : (x.onLanes m f).fed = x.fed := rfl

/-! ## `Warp.onSplits` -/

@[simp] theorem Warp.onSplits_team (x : Warp) (f : Split → Split) : (x.onSplits f).team = x.team := rfl
@[simp] theorem Warp.onSplits_w (x : Warp) (f : Split → Split) : (x.onSplits f).w = x.w := rfl
@[simp] theorem Warp.onSplits_core (x : Warp) (f : Split → Split) : (x.onSplits f).core = x.core := rfl
@[simp] theorem Warp.onSplits_lb (x : Warp) (f : Split → Split) : (x.onSplits f).lb = x.lb := rfl
@[simp] theorem Warp.onSplits_slot (x : Warp) (f : Split → Split) : (x.onSplits f).slot = x.slot := rfl
@[simp] theorem Warp.onSplits_sliceCore (x : Warp) (f : Split → Split) : (x.onSplits f).sliceCore = x.sliceCore := rfl
@[simp] theorem Warp.onSplits_stackBase (x : Warp) (f : Split → Split) : (x.onSplits f).stackBase = x.stackBase := rfl
@[simp] theorem Warp.onSplits_frameBase (x : Warp) (f : Split → Split) : (x.onSplits f).frameBase = x.frameBase := rfl
@[simp] theorem Warp.onSplits_place (x : Warp) (f : Split → Split) : (x.onSplits f).place = x.place := rfl
@[simp] theorem Warp.onSplits_fwd (x : Warp) (f : Split → Split) : (x.onSplits f).fwd = x.fwd := rfl
@[simp] theorem Warp.onSplits_stopped (x : Warp) (f : Split → Split) : (x.onSplits f).stopped = x.stopped := rfl
@[simp] theorem Warp.onSplits_threads (x : Warp) (f : Split → Split) : (x.onSplits f).threads = x.threads := rfl
@[simp] theorem Warp.onSplits_cur (x : Warp) (f : Split → Split) : (x.onSplits f).cur = x.cur.map f := rfl
@[simp] theorem Warp.onSplits_others (x : Warp) (f : Split → Split) : (x.onSplits f).others = x.others.map f := rfl
@[simp] theorem Warp.onSplits_last (x : Warp) (f : Split → Split) : (x.onSplits f).last = x.last := rfl
@[simp] theorem Warp.onSplits_lfsr (x : Warp) (f : Split → Split) : (x.onSplits f).lfsr = x.lfsr := rfl
@[simp] theorem Warp.onSplits_join (x : Warp) (f : Split → Split) : (x.onSplits f).join = x.join := rfl
@[simp] theorem Warp.onSplits_k (x : Warp) (f : Split → Split) : (x.onSplits f).k = x.k := rfl
@[simp] theorem Warp.onSplits_kp (x : Warp) (f : Split → Split) : (x.onSplits f).kp = x.kp := rfl
@[simp] theorem Warp.onSplits_flags (x : Warp) (f : Split → Split) : (x.onSplits f).flags = x.flags := rfl
@[simp] theorem Warp.onSplits_cnt (x : Warp) (f : Split → Split) : (x.onSplits f).cnt = x.cnt := rfl
@[simp] theorem Warp.onSplits_ch15 (x : Warp) (f : Split → Split) : (x.onSplits f).ch15 = x.ch15 := rfl
@[simp] theorem Warp.onSplits_vlimit (x : Warp) (f : Split → Split) : (x.onSplits f).vlimit = x.vlimit := rfl
@[simp] theorem Warp.onSplits_perf (x : Warp) (f : Split → Split) : (x.onSplits f).perf = x.perf := rfl
@[simp] theorem Warp.onSplits_handler (x : Warp) (f : Split → Split) : (x.onSplits f).handler = x.handler := rfl
@[simp] theorem Warp.onSplits_posted (x : Warp) (f : Split → Split) : (x.onSplits f).posted = x.posted := rfl
@[simp] theorem Warp.onSplits_replay (x : Warp) (f : Split → Split) : (x.onSplits f).replay = x.replay := rfl
@[simp] theorem Warp.onSplits_kld (x : Warp) (f : Split → Split) : (x.onSplits f).kld = x.kld := rfl
@[simp] theorem Warp.onSplits_marks (x : Warp) (f : Split → Split) : (x.onSplits f).marks = x.marks := rfl
@[simp] theorem Warp.onSplits_observed (x : Warp) (f : Split → Split) : (x.onSplits f).observed = x.observed := rfl
@[simp] theorem Warp.onSplits_fed (x : Warp) (f : Split → Split) : (x.onSplits f).fed = x.fed := rfl

/-! ## What is read of a device after an update -/

@[simp] theorem Dev.warp?_setWarp (d : Dev) (id : Nat) (w : Warp) : (d.setWarp id w).warp? id = some w := by simp [Dev.warp?]

theorem Dev.warp?_setWarp_of_ne (d : Dev) {id n : Nat} (w : Warp) (h : n ≠ id) : (d.setWarp id w).warp? n = d.warp? n := by
  simp [Dev.warp?, Table.find?_set_of_ne _ _ h]

@[simp] theorem Dev.warp?_onWarp (d : Dev) (id : Nat) (f : Warp → Warp) : (d.onWarp id f).warp? id = (d.warp? id).map f := by
  simp [Dev.warp?]

theorem Dev.warp?_onWarp_of_ne (d : Dev) {id n : Nat} (f : Warp → Warp) (h : n ≠ id) : (d.onWarp id f).warp? n = d.warp? n := by
  simp [Dev.warp?, Table.find?_modify_of_ne _ _ h]

@[simp] theorem Dev.core_setCore (d : Dev) (j : Nat) (c : Core) : (d.setCore j c).core j = c := by simp [Dev.core]

theorem Dev.core_setCore_of_ne (d : Dev) {j n : Nat} (c : Core) (h : n ≠ j) : (d.setCore j c).core n = d.core n := by
  simp [Dev.core, Table.get_set_of_ne _ _ _ h]

@[simp] theorem Dev.core_onCore (d : Dev) (j : Nat) (f : Core → Core) : (d.onCore j f).core j = f (d.core j) := by simp [Dev.core]

theorem Dev.core_onCore_of_ne (d : Dev) {j n : Nat} (f : Core → Core) (h : n ≠ j) : (d.onCore j f).core n = d.core n := by
  simp [Dev.core, Table.get_set_of_ne _ _ _ h]

@[simp] theorem Core.lb_onLb (c : Core) (b : Nat) (f : LaneBlock → LaneBlock) : (c.onLb b f).lb b = f (c.lb b) := by
  simp [Core.lb, Core.onLb]

theorem Core.lb_onLb_of_ne (c : Core) {b n : Nat} (f : LaneBlock → LaneBlock) (h : n ≠ b) : (c.onLb b f).lb n = c.lb n := by
  simp [Core.lb, Core.onLb, Table.get_set_of_ne _ _ _ h]

@[simp] theorem Core.segment_onSegment (c : Core) (n : Nat) (f : Segment → Segment) :
    (c.onSegment n f).segment n = f (c.segment n) := by
  simp [Core.segment, Core.onSegment]

theorem Core.segment_onSegment_of_ne (c : Core) {n m : Nat} (f : Segment → Segment) (h : m ≠ n) :
    (c.onSegment n f).segment m = c.segment m := by
  simp [Core.segment, Core.onSegment, Table.get_set_of_ne _ _ _ h]

@[simp] theorem Dev.context_onContext (d : Dev) (slot : Nat) (f : Context → Context) :
    (d.onContext slot f).context slot = f (d.context slot) := by
  simp [Dev.context]

theorem Dev.context_onContext_of_ne (d : Dev) {slot n : Nat} (f : Context → Context) (h : n ≠ slot) :
    (d.onContext slot f).context n = d.context n := by
  simp [Dev.context, Table.get_set_of_ne _ _ _ h]

@[simp] theorem Dev.cluster_setCluster (d : Dev) (n : Nat) (c : Cluster) : (d.setCluster n c).cluster n = c := by
  simp [Dev.cluster]

@[simp] theorem Dev.team?_onTeam (d : Dev) (id : Nat) (f : Team → Team) : (d.onTeam id f).team? id = (d.team? id).map f := by
  simp [Dev.team?]

@[simp] theorem Dev.launch?_setLaunch (d : Dev) (id : Nat) (l : Launch) : (d.setLaunch id l).launch? id = some l := by
  simp [Dev.launch?]

@[simp] theorem Dev.launch?_onLaunch (d : Dev) (id : Nat) (f : Launch → Launch) :
    (d.onLaunch id f).launch? id = (d.launch? id).map f := by
  simp [Dev.launch?]

/-! ## What is read of a warp after an update of its lanes -/

theorem find?_map_of_eq {α : Type} (xs : List α) (p : α → Bool) (f : α → α) (h : ∀ x, p (f x) = p x) :
    (xs.map f).find? p = (xs.find? p).map f := by
  induction xs with
  | nil => rfl
  | cons x xs ih => simp only [List.map_cons, List.find?_cons, h]; split <;> simp_all

/-- A lane of the mask has the changed thread; an update keeps every thread's lane. -/
theorem Warp.thread?_onLanes (x : Warp) (m : Mask) (f : Thread → Thread) (hf : ∀ t, (f t).lane = t.lane) (l : Nat) :
    (x.onLanes m f).thread? l = (x.thread? l).map fun t => if m.getLsbD t.lane then f t else t := by
  unfold Warp.thread?
  apply find?_map_of_eq
  intro t
  split <;> simp [hf]

@[simp] theorem Warp.live_onLanes (x : Warp) (m : Mask) (f : Thread → Thread) (hf : ∀ t, (f t).lane = t.lane) :
    (x.onLanes m f).live = x.live := by
  unfold Warp.live
  congr 1
  rw [Warp.onLanes_threads, List.map_map]
  apply List.map_congr_left
  intro t _
  simp only [Function.comp_apply]
  split <;> simp [hf]

end Sys2Proof.Machine
end

