-- ==== Sys2Proof/Laws/Canonical.lean ====
section
/-! SUPPORT. Every operation that writes memory keeps its canonical form. -/

namespace Sys2Proof.Machine

open Sys2Proof

theorem Dev.wf_translate {d d' : Dev} {slot core va pa : Nat} {want : Want} (h : Memory.wf d.mem = true)
    (ht : d.translate slot core va want = .ok (pa, d')) : Memory.wf d'.mem = true := by
  unfold Dev.translate at ht
  split at ht; · simp at ht
  split at ht; · simp at ht
  dsimp only at ht
  split at ht; · simp at ht
  simp only [Except.ok.injEq, Prod.mk.injEq] at ht
  obtain ⟨-, rfl⟩ := ht
  exact Memory.wf_writeBytes _ _ h

@[simp] theorem Dev.noteTlb_mem (d : Dev) (slot core va bytes : Nat) : (d.noteTlb slot core va bytes).mem = d.mem := rfl

@[simp] theorem Dev.retranslate_mem (d : Dev) (src dst : Nat) : (d.retranslate src dst).mem = d.mem := rfl

@[simp] theorem Dev.freeFrame_mem (d : Dev) (pa : Nat) : (d.freeFrame pa).mem = d.mem := by
  unfold Dev.freeFrame; split <;> rfl

theorem Dev.wf_walked {d : Dev} (slot core va : Nat) (want : Want) (h : Memory.wf d.mem = true) :
    Memory.wf (d.walked slot core va want).mem = true := by
  unfold Dev.walked
  split
  · exact h
  · exact Memory.wf_writeBytes _ _ h

theorem Dev.wf_reuseFrame {d : Dev} (pa : Nat) (h : Memory.wf d.mem = true) : Memory.wf (d.reuseFrame pa).mem = true :=
  Memory.wf_clear _ _ h

@[simp] theorem Dev.dropTlb_mem (d : Dev) (slot base bytes : Nat) : (d.dropTlb slot base bytes).mem = d.mem := rfl

theorem Dev.wf_takeHbm {h : HostPart} {d d' : Dev} {ks : List Nat} {pa : Nat} (hw : Memory.wf d.mem = true)
    (ht : d.takeHbm h ks = some (pa, d')) : Memory.wf d'.mem = true := by
  unfold Dev.takeHbm at ht
  split at ht
  · simp only [Option.some.injEq, Prod.mk.injEq] at ht
    obtain ⟨-, rfl⟩ := ht
    exact Dev.wf_reuseFrame _ hw
  · obtain ⟨k, -, hk⟩ := Option.map_eq_some_iff.1 ht
    simp only [Prod.mk.injEq] at hk
    obtain ⟨-, rfl⟩ := hk
    exact hw

theorem Dev.wf_takeFrame {h : HostPart} {d d' : Dev} {tier pa : Nat} (hw : Memory.wf d.mem = true)
    (ht : d.takeFrame h tier = some (pa, d')) : Memory.wf d'.mem = true := by
  unfold Dev.takeFrame at ht
  split at ht
  · split at ht
    · simp only [Option.some.injEq, Prod.mk.injEq] at ht
      obtain ⟨-, rfl⟩ := ht
      exact Dev.wf_reuseFrame _ hw
    · split at ht <;> simp only [Option.some.injEq, Prod.mk.injEq, reduceCtorEq] at ht
      obtain ⟨-, rfl⟩ := ht
      exact hw
  · exact Dev.wf_takeHbm hw ht

theorem Dev.wf_mapUnder {h : HostPart} {d d' : Dev} {va fuel level table : Nat} {leaf : Dword} (hw : Memory.wf d.mem = true)
    (hm : d.mapUnder h va leaf fuel level table = some d') : Memory.wf d'.mem = true := by
  induction fuel generalizing d level table with
  | zero => simp [Dev.mapUnder] at hm
  | succ fuel ih =>
    unfold Dev.mapUnder at hm
    dsimp only at hm
    split at hm
    · cases hm; exact Memory.wf_writeBytes _ _ hw
    split at hm
    · split at hm
      · simp at hm
      · exact ih hw hm
    split at hm
    · simp at hm
    next t d1 ht => exact ih (Memory.wf_writeBytes _ _ (Dev.wf_takeFrame hw ht)) hm

theorem Dev.wf_mapRoots {h : HostPart} {d d' : Dev} {va : Nat} {roots : List Nat} {leaves : List Dword} (hw : Memory.wf d.mem = true)
    (hm : d.mapRoots h va roots leaves = some d') : Memory.wf d'.mem = true := by
  induction roots generalizing d leaves with
  | nil => simp only [Dev.mapRoots, Option.some.injEq] at hm; exact hm ▸ hw
  | cons r roots ih =>
    cases leaves with
    | nil => simp only [Dev.mapRoots, Option.some.injEq] at hm; exact hm ▸ hw
    | cons l leaves =>
      simp only [Dev.mapRoots] at hm
      split at hm
      · simp at hm
      next d1 h1 => exact ih (Dev.wf_mapUnder hw h1) hm

theorem Dev.wf_mapPage {h : HostPart} {d d' : Dev} {slot va : Nat} {leaf : Dword} (hw : Memory.wf d.mem = true)
    (hm : d.mapPage h slot va leaf = some d') : Memory.wf d'.mem = true := Dev.wf_mapRoots hw hm

theorem Dev.wf_unmapUnder {d : Dev} (va root : Nat) (hw : Memory.wf d.mem = true) : Memory.wf (d.unmapUnder va root).mem = true := by
  unfold Dev.unmapUnder
  split
  · exact hw
  · exact Memory.wf_writeBytes _ _ hw

theorem Dev.wf_unmapPage {d : Dev} (slot va : Nat) (hw : Memory.wf d.mem = true) : Memory.wf (d.unmapPage slot va).mem = true := by
  unfold Dev.unmapPage
  generalize (d.context slot).roots = rs
  induction rs generalizing d with
  | nil => exact hw
  | cons r rs ih => exact ih (Dev.wf_unmapUnder va r hw)

theorem Dev.wf_serve {h : HostPart} {d d' : Dev} {slot va code : Nat} (hw : Memory.wf d.mem = true)
    (hs : d.serve h slot va code = some d') : Memory.wf d'.mem = true := by
  unfold Dev.serve at hs
  dsimp only at hs
  split at hs
  · split at hs
    · simp at hs
    split at hs
    · simp at hs
    next pa d1 ht => exact Dev.wf_mapPage (Dev.wf_takeFrame hw ht) hs
  split at hs
  · split at hs
    · simp at hs
    split at hs
    · simp at hs
    split at hs
    · simp at hs
    next pa d1 ht =>
      obtain ⟨d2, h2, rfl⟩ := Option.map_eq_some_iff.1 hs
      rw [Dev.retranslate_mem, Dev.dropTlb_mem]
      refine Dev.wf_mapPage ?_ h2
      rw [Dev.onContext_mem]
      exact Memory.wf_copyRange _ _ _ (Dev.wf_takeFrame hw ht)
  · simp at hs

theorem Dev.wf_reach {h : HostPart} {d : Dev} (slot core va : Nat) (want : Want) (hw : Memory.wf d.mem = true) :
    Memory.wf (d.reach h slot core va want).2.mem = true := by
  unfold Dev.reach
  split
  · exact hw
  split
  next hr => exact Dev.wf_translate hw hr
  next =>
    dsimp only
    split
    · exact Dev.wf_walked _ _ _ _ hw
    split
    · exact Dev.wf_walked _ _ _ _ hw
    next e he =>
      have h1 := Dev.wf_serve (Dev.wf_walked _ _ _ _ hw) he
      split
      next hr => exact Dev.wf_translate h1 hr
      next => exact Dev.wf_walked _ _ _ _ h1

/-- The device that a read or a write of virtual memory leaves, whether it has failed or not. -/
def Reached.dev {α : Type} : Reached α → Dev
  | .ok r => r.2
  | .error r => r.2

theorem Dev.wf_readParts {h : HostPart} {d : Dev} (slot core : Nat) (parts : List (Nat × Nat)) (hw : Memory.wf d.mem = true) :
    Memory.wf (Dev.readParts h slot core d parts).dev.mem = true := by
  induction parts generalizing d with
  | nil => exact hw
  | cons p parts ih =>
    have h1 := Dev.wf_reach (h := h) slot core p.1 .read hw
    simp only [Dev.readParts]
    split
    next heq => rw [heq] at h1; exact h1
    next heq =>
      rw [heq] at h1
      split
      · exact h1
      have h2 := ih h1
      split
      next heq => rw [heq] at h2; exact h2
      next heq => rw [heq] at h2; exact h2

theorem Dev.wf_readVa {h : HostPart} {d : Dev} (slot core va n : Nat) (hw : Memory.wf d.mem = true) :
    Memory.wf (d.readVa h slot core va n).dev.mem = true := by
  unfold Dev.readVa
  split
  · exact hw
  · exact Dev.wf_readParts slot core _ hw

theorem Dev.wf_readValue {h : HostPart} {d : Dev} (slot core va n : Nat) (hw : Memory.wf d.mem = true) :
    Memory.wf (d.readValue h slot core va n).dev.mem = true := by
  have h1 := Dev.wf_readVa (h := h) slot core va n hw
  unfold Dev.readValue
  split
  next heq => rw [heq] at h1; exact h1
  next heq => rw [heq] at h1; exact h1

theorem Dev.wf_writeParts {h : HostPart} {d : Dev} (slot core : Nat) (parts : List (Nat × Nat)) (hw : Memory.wf d.mem = true) :
    Memory.wf (Dev.writeParts h slot core d parts).dev.mem = true := by
  induction parts generalizing d with
  | nil => exact hw
  | cons p parts ih =>
    have h1 := Dev.wf_reach (h := h) slot core p.1 .write hw
    simp only [Dev.writeParts]
    split
    next heq => rw [heq] at h1; exact h1
    next heq =>
      rw [heq] at h1
      split
      · exact h1
      have h2 := ih h1
      split
      next heq => rw [heq] at h2; exact h2
      next heq => rw [heq] at h2; exact h2

theorem Dev.wf_putBytes {d : Dev} (pa : Nat) (bs : List Byte) (hw : Memory.wf d.mem = true) :
    Memory.wf (d.putBytes pa bs).mem = true := Memory.wf_writeBytes pa bs hw

@[simp] theorem Dev.endTags_mem (d : Dev) (pa n : Nat) : (d.endTags pa n).mem = d.mem := rfl

theorem Dev.wf_putParts {d : Dev} (ps : List (Nat × Nat)) (bs : List Byte) (hw : Memory.wf d.mem = true) :
    Memory.wf (d.putParts ps bs).mem = true := by
  induction ps generalizing d bs with
  | nil => exact hw
  | cons p ps ih => exact ih _ (by rw [Dev.endTags_mem]; exact Dev.wf_putBytes p.1 _ hw)

/-- The device that a write of virtual memory leaves, whether it has failed or not. -/
def writtenDev : Except (Failure × Dev) Dev → Dev
  | .ok d => d
  | .error f => f.2

theorem Dev.wf_writeVa {h : HostPart} {d : Dev} (slot core va : Nat) (bs : List Byte) (hw : Memory.wf d.mem = true) :
    Memory.wf (writtenDev (d.writeVa h slot core va bs)).mem = true := by
  have h2 := Dev.wf_writeParts (h := h) slot core (pageParts va (bs.length / pageBytes + 2) bs.length) hw
  unfold Dev.writeVa
  split
  · exact hw
  split
  next heq => rw [heq] at h2; exact h2
  next heq => rw [heq] at h2; exact Dev.wf_putParts _ bs h2

/-- A translation changes the A and D bits of one entry, which is written whole, what the core and its die hold of translations,
and nothing else. -/
theorem Dev.translate_frame {d d' : Dev} {slot core va pa : Nat} {want : Want} (ht : d.translate slot core va want = .ok (pa, d')) :
    d' = { d with mem := d'.mem, poison := d'.poison, cores := d'.cores, l2 := d'.l2 } := by
  unfold Dev.translate at ht
  split at ht; · simp at ht
  split at ht; · simp at ht
  dsimp only at ht
  split at ht; · simp at ht
  simp only [Except.ok.injEq, Prod.mk.injEq] at ht
  obtain ⟨-, rfl⟩ := ht
  rfl

end Sys2Proof.Machine
end

