-- ==== Sys2Proof/Laws/Issue.lean ====
section
/-! SUPPORT. What the shared operations of issue answer: the checks, and the effect where they pass. -/

namespace Sys2Proof.Machine

open Sys2Proof Sys2Proof.Safety

variable {s : State} {id : Nat} {w : Warp} {sp : Split} {n : Need}

/-! ## The checks of a warp's instruction (R405) -/

/-- A split that meets every condition of issue passes the checks. -/
theorem verdict_ready (h : Ready s id w sp n) : s.dev.verdict id w sp n = .go := by
  obtain ⟨hi, hd, hf, hr, hj, hfull, hch, hl, hrp, hfw⟩ := h
  have none_empty : ∀ reads, (∀ t ∈ w.threadsOf sp.mask, t.empties reads = []) →
      ((w.threadsOf sp.mask).filter fun t => !(t.empties reads).isEmpty) = [] := by
    intro reads hn; rw [List.filter_eq_nil_iff]; intro t ht; simp [hn t ht]
  unfold Dev.verdict
  simp only [none_empty _ hj, none_empty _ hfull]
  rw [if_neg (by omega), if_neg (by omega), if_neg (by simp [hr])]
  simp only [List.isEmpty_nil, Bool.not_true, Bool.false_eq_true, if_false, if_true]
  rw [if_neg, if_neg, if_neg (by omega), if_neg (by omega)]
  · simp only [List.any_eq_true, not_exists]; rintro e ⟨he, hc⟩; exact hl e he (by simpa using hc)
  · simp only [Bool.not_eq_true', Bool.not_eq_false, List.all_eq_true]; exact hch

/-- And only such a split passes them. -/
theorem ready_of_verdict (hi : Issues s id w sp) (h : s.dev.verdict id w sp n = .go) : Ready s id w sp n := by
  unfold Dev.verdict at h
  dsimp only at h
  by_cases h1 : w.depth sp < n.pops
  · simp [h1] at h
  by_cases h2 : s.dev.depthLimit w < w.depth sp - n.pops + n.pushes
  · simp [h1, h2] at h
  by_cases h3 : residentTarget sp.c n.pops n.pushes = sp.c
  swap
  · simp [h1, h2, h3] at h
  by_cases h4 : ∀ t ∈ w.threadsOf sp.mask, t.empties n.early = []
  swap
  · have he : ((w.threadsOf sp.mask).filter fun t => !(t.empties n.early).isEmpty) ≠ [] := by
      simpa [List.filter_eq_nil_iff] using h4
    rw [if_neg h1, if_neg h2, if_neg (by simp [h3]), if_pos (by simp [he])] at h
    split at h <;> exact absurd h (by simp)
  have he : ((w.threadsOf sp.mask).filter fun t => !(t.empties n.early).isEmpty) = [] := by
    simpa [List.filter_eq_nil_iff] using h4
  rw [if_neg h1, if_neg h2, if_neg (by simp [h3])] at h
  simp only [he, List.isEmpty_nil, if_true] at h
  split at h; · split at h <;> exact absurd h (by simp)
  split at h; · exact absurd h (by simp)
  split at h; · exact absurd h (by simp)
  split at h; · exact absurd h (by simp)
  split at h; · exact absurd h (by simp)
  rename_i h5 h6 h7 h8 h9
  refine ⟨hi, by omega, by omega, h3, h4, ?_, ?_, ?_, by omega, by omega⟩
  · intro t ht
    have h5 : ((w.threadsOf sp.mask).filter fun t => !(t.empties n.reads).isEmpty) = [] := by simpa using h5
    simpa using List.filter_eq_nil_iff.1 h5 t ht
  · simpa using h6
  · intro e he hc
    exact h7 (List.any_eq_true.2 ⟨e, he, by simpa using hc⟩)

/-- All that the issue of a warp's instruction can do: its effect, what the checks answer, the trap of a front-end context that
may not issue it, or nothing where no split is current. -/
theorem issueWarp_cases (hp : HostPart) (d : Dev) (n : Need) (k : Nat → Warp → Split → Dev) :
    (∃ id w sp, d.issuer = .warp id ∧ d.warp? id = some w ∧ w.cur = some sp ∧ d.verdict id w sp n = .go ∧
      d.issueWarp hp n k = k id w sp) ∨
    (∃ id w sp, d.issuer = .warp id ∧ d.warp? id = some w ∧ w.cur = some sp ∧ d.verdict id w sp n ≠ .go ∧
      d.issueWarp hp n k = d.refused hp id w sp (d.verdict id w sp n)) ∨
    (∃ id, d.issuer = .fet id ∧ d.issueWarp hp n k = d.misplaced hp) ∨ d.issueWarp hp n k = d := by
  unfold Dev.issueWarp
  split
  next id hi =>
    split
    · exact .inr (.inr (.inr rfl))
    next w hw =>
      split
      · exact .inr (.inr (.inr rfl))
      next sp hs =>
        split
        next hv => exact .inl ⟨id, w, sp, hi, hw, hs, hv, rfl⟩
        next hv => exact .inr (.inl ⟨id, w, sp, hi, hw, hs, hv, rfl⟩)
  next id hi => exact .inr (.inr (.inl ⟨id, hi, rfl⟩))
  next => exact .inr (.inr (.inr rfl))

/-- R142, R143: where the checks pass, the effect comes about. -/
theorem issueWarp_ready (h : Ready s id w sp n) (hp : HostPart) (k : Nat → Warp → Split → Dev) :
    s.dev.issueWarp hp n k = k id w sp := by
  unfold Dev.issueWarp
  simp [h.issues.issuer, h.issues.warp, h.issues.cur, verdict_ready h]

/-- R142, R405: where a check fails, the instruction has none of its effect. -/
theorem issueWarp_refused (hi : Issues s id w sp) {v : Verdict} (hv : s.dev.verdict id w sp n = v) (hg : v ≠ .go)
    (hp : HostPart) (k : Nat → Warp → Split → Dev) : s.dev.issueWarp hp n k = s.dev.refused hp id w sp v := by
  unfold Dev.issueWarp
  simp only [hi.issuer, hi.warp, hi.cur, hv]

/-- R405 step 5: the effect comes about where no value check fails. -/
theorem checked_pass {hp : HostPart} {d : Dev} {cs : List ValueCheck} (h : firstFailing cs = none) (k : Dev) :
    d.checked hp id sp cs k = k := by
  unfold Dev.checked; rw [h]

/-- R406: the first check that fails is the one that traps. -/
theorem checked_fail {hp : HostPart} {d : Dev} {cs : List ValueCheck} {c : ValueCheck} (h : firstFailing cs = some c) (k : Dev) :
    d.checked hp id sp cs k = d.raise hp id sp c.cause c.lanes c.va 0 := by
  unfold Dev.checked; rw [h]

/-- R406: a list of checks passes where each has no failing lane. -/
theorem firstFailing_eq_none {cs : List ValueCheck} : firstFailing cs = none ↔ ∀ c ∈ cs, c.lanes = 0 := by
  simp [firstFailing]

/-! ## What an issue leaves -/

theorem commit_issued (m : Need) :
    s.dev.commit id w (sp.after m) = (issued s id w (after sp m.bytes m.pops m.pushes)).dev := rfl

theorem commitFet_issued (f : Fet) (bytes : Nat) : s.dev.commitFet id f bytes = (issuedFet s id f bytes).dev := rfl

theorem run_eq (f : HostPart → Dev → Dev) : s.run f = .next (withDev s (f s.host s.dev)) := rfl

theorem withDev_issued (x : Warp) (y : Split) : withDev s (issued s id x y).dev = issued s id x y := rfl

theorem withDev_issuedFet (f : Fet) (bytes : Nat) : withDev s (issuedFet s id f bytes).dev = issuedFet s id f bytes := rfl

/-- An issue changes no byte of memory. -/
@[simp] theorem issued_mem (x : Warp) (y : Split) : (issued s id x y).dev.mem = s.dev.mem := rfl

@[simp] theorem issuedFet_mem (f : Fet) (bytes : Nat) : (issuedFet s id f bytes).dev.mem = s.dev.mem := rfl

@[simp] theorem issued_warp (x : Warp) (y : Split) : (issued s id x y).dev.warp? id = some { x with cur := some y } := by
  simp [issued, Dev.warp?]

/-! ## The shapes of instruction -/

/-- A stack operation that may issue changes the threads of its split. -/
theorem stackOp_ready (h : Ready s id w sp n) (hp : HostPart) (f : Thread → Thread) :
    s.dev.stackOp hp n f = (issued s id (w.onLanes sp.mask f) (after sp n.bytes n.pops n.pushes)).dev := by
  unfold Dev.stackOp; rw [issueWarp_ready h]; rfl

/-- A lane operation that may issue does to the warp what its route says, holds its lane block, and marks what its entries of
ch15 come after. -/
theorem laneOp_ready {bytes : Nat} {wbit : Bool} {r : Route} {o : LaneOp} (h : Ready s id w sp (o.need r bytes wbit))
    (hp : HostPart) (hold : Nat) :
    s.dev.laneOp hp bytes wbit hold r o =
      ((issued s id (o.apply r w sp) (after sp bytes (o.need r bytes wbit).pops (o.need r bytes wbit).pushes)).dev.holdIssue w
        hold).entryMark id sp (w.ch15.take (o.popsA r 15 + o.popsB r 15)) := by
  unfold Dev.laneOp; rw [issueWarp_ready h]; rfl

/-- A lane operation from the stack to the stack takes no entry of ch15. -/
theorem laneOp_stack_ready {bytes : Nat} {wbit : Bool} {o : LaneOp} (h : Ready s id w sp (o.need Route.stack bytes wbit))
    (hp : HostPart) (hold : Nat) :
    s.dev.laneOp hp bytes wbit hold Route.stack o =
      (issued s id (o.apply Route.stack w sp) (after sp bytes (o.need Route.stack bytes wbit).pops
        (o.need Route.stack bytes wbit).pushes)).dev.holdIssue w hold := by
  rw [laneOp_ready h]
  simp [Dev.entryMark, LaneOp.popsA, LaneOp.popsB, Route.stack, fromChannel]

/-- R63, R212: a uniform instruction of a warp. -/
theorem issueEither_warp {bytes : Nat} {regs : List Nat} (h : Ready s id w sp { blind bytes 0 0 with regs := regs })
    (hp : HostPart) (kw : Nat → Warp → Split → Dev) (kf : Nat → Fet → Dev) : s.dev.issueEither hp bytes regs kw kf = kw id w sp := by
  unfold Dev.issueEither
  simp only [h.issues.issuer]
  exact issueWarp_ready h hp kw

/-- R40, R212: a uniform instruction of a front-end context. -/
theorem issueEither_fet {f : Fet} {regs : List Nat} (h : IssuesFet s id f regs) (hp : HostPart) (bytes : Nat)
    (kw : Nat → Warp → Split → Dev) (kf : Nat → Fet → Dev) : s.dev.issueEither hp bytes regs kw kf = kf id f := by
  unfold Dev.issueEither
  have : (f.kld.any fun e => regs.contains e.1) = false := by
    rw [List.any_eq_false]; intro e he; simpa using h.loaded e he
  simp only [h.issuer, h.fet, this, Bool.false_eq_true, if_false]

/-- A uniform operation of a warp changes its uniform file. -/
theorem uniform_warp {bytes : Nat} {regs : List Nat} (h : Ready s id w sp { blind bytes 0 0 with regs := regs }) (hp : HostPart)
    (f : Uniform → Uniform) :
    s.dev.uniform hp bytes regs f =
      (issued s id { w with k := (f ⟨w.k, w.kp⟩).k, kp := (f ⟨w.k, w.kp⟩).kp } (after sp bytes 0 0)).dev := by
  unfold Dev.uniform; rw [issueEither_warp h]; rfl

/-- A uniform operation of a front-end context changes its uniform file. -/
theorem uniform_fet {c : Fet} {regs : List Nat} (h : IssuesFet s id c regs) (hp : HostPart) (bytes : Nat) (f : Uniform → Uniform) :
    s.dev.uniform hp bytes regs f =
      (issuedFet s id { c with k := (f ⟨c.k, c.kp⟩).k, kp := (f ⟨c.k, c.kp⟩).kp } bytes).dev := by
  unfold Dev.uniform; rw [issueEither_fet h]; rfl

@[simp] theorem addTransfers_warps (d : Dev) (w : Warp) (ts : List Transfer) : (d.addTransfers w ts).warps = d.warps := by
  unfold Dev.addTransfers; split <;> rfl

/-- A spill request changes the transfers of one lane block and nothing else. -/
theorem addTransfers_frame (d : Dev) (w : Warp) (ts : List Transfer) :
    d.addTransfers w ts = { d with cores := (d.addTransfers w ts).cores } := by
  unfold Dev.addTransfers; split <;> rfl

/-- A selection changes the splits of one warp and the transfers of its lane block, and nothing else. -/
theorem select_frame (d : Dev) (id : Nat) :
    d.select id = { d with warps := (d.select id).warps, cores := (d.select id).cores } := by
  unfold Dev.select
  split
  · rfl
  · dsimp only
    rw [addTransfers_frame]
    rfl

/-- A wait changes no memory and no front-end context: only the splits of the issuing warp, and the transfers that its lane block
has still to make. -/
theorem block_frame (d : Dev) (id : Nat) (r : Wait) :
    d.block id r = { d with warps := (d.block id r).warps, cores := (d.block id r).cores } := by
  unfold Dev.block
  rw [select_frame]
  rfl

/-! ## Traps (R143, R386, R387) -/

/-- R387: a trap is taken at once where the warp is resident and nothing that it waits for is in flight; else it waits. -/
theorem deliver_cases (hp : HostPart) (d : Dev) (id : Nat) :
    d.deliver hp id = d ∨ ∃ w p, d.warp? id = some w ∧ oldestPosted w.posted = some p ∧ w.place = .resident ∧
      (w.handler.isSome = true ∨ d.trapReady id = true) ∧ d.deliver hp id = d.takeTrap hp id p := by
  unfold Dev.deliver
  split
  · exact .inl rfl
  next w hw =>
    split
    · exact .inl rfl
    next p hp' =>
      split
      next hc =>
        simp only [Bool.and_eq_true, beq_iff_eq, Bool.or_eq_true] at hc
        exact .inr ⟨w, p, hw, hp', hc.1, hc.2, rfl⟩
      · exact .inl rfl

/-- R398: a trap in handler mode is a double trap; else the warp enters its handler, or its area cannot be written, which is a
double trap too. -/
theorem takeTrap_double {hp : HostPart} {d : Dev} (hw : d.warp? id = some w) (hh : w.handler.isSome = true) (p : Posted) :
    d.takeTrap hp id p = d.doubleTrap hp id (d.queuedCause id p) := by
  unfold Dev.takeTrap
  simp only [hw, hh, if_true]

/-- R392: the oldest trap that waits is one of those that wait, and no other is older. -/
theorem oldestPosted_oldest {ps : List Posted} {p : Posted} (h : oldestPosted ps = some p) :
    p ∈ ps ∧ ∀ q ∈ ps, p.stamp ≤ q.stamp := by
  induction ps generalizing p with
  | nil => simp [oldestPosted] at h
  | cons q ps ih =>
    simp only [oldestPosted] at h
    split at h
    next hn =>
      cases ps with
      | nil => simp_all
      | cons r rs => simp only [oldestPosted] at hn; split at hn <;> [skip; split at hn] <;> exact absurd hn (by simp)
    next r hr =>
      obtain ⟨hm, hl⟩ := ih hr
      split at h <;> cases h
      · refine ⟨List.mem_cons_of_mem _ hm, fun x hx => ?_⟩
        rcases List.mem_cons.1 hx with rfl | hx
        · omega
        · exact hl x hx
      · refine ⟨List.mem_cons_self .., fun x hx => ?_⟩
        rcases List.mem_cons.1 hx with rfl | hx
        · omega
        · have := hl x hx; omega

end Sys2Proof.Machine
end

