-- ==== Sys2Proof/Tests/Slice0.lean ====
section
/-! SUPPORT. Tests: ill-formed instructions are refused, words written out from the encoding tables decode, single steps give
the spec's worked results, and concrete states meet the hypotheses of each statement. -/

namespace Sys2Proof.Tests

open Sys2Proof Sys2Proof.Machine Sys2Proof.Safety

set_option Elab.async false

/-! ## Ill-formed instructions, one for each check -/

theorem test_illFormed_stack :
    ([.rds false 23, .rdsD false 16, .vote false 3, .add false true false, .sub true true false, .icmp false true 6, .icmp2 false false 7,
      .lit16 false 3 0, .ldfL false true 255, .stfL false true 255, .bfe false false 31 1, .bfi false 15 17] : List Instr).all
      (fun i => !i.wellFormed) = true := by decide

theorem test_illFormed_routed :
    ([.l32Routed 0x29 false 0 0 false 0 0 0 0, .l32Routed 0x10 false 0 0 false 0 0 0 2, .l32Routed 0x16 false 1 0 false 0 0 0 0,
      .l32Routed 0x10 false 0 0 false 1 0 0 0, .l32Routed 0x10 false 2 0 false 8 0 0 0, .l32Routed 0x10 false 0 3 false 0 9 0 0,
      .l32Routed 0x10 false 0 0 true 0 0 8 0, .l32Routed 0x10 false 0 0 false 0 0 1 0] : List Instr).all
      (fun i => !i.wellFormed) = true := by decide

theorem test_illFormed_memory :
    ([.ld false 7 0, .st false 3 0, .ldo false false 2 1 0, .ldo false false 1 0 0, .ldo false true 1 2 0, .ldo false true 0 3 0,
      .sto false false 1 1 0, .sto false false 0 1 3, .sto false false 0 6 0, .atom false 12 false 0 1 0, .atom false 0 false 0 0 0,
      .atom false 0 false 0 1 2, .cas false 2 false 0 1 0, .red false 0 false 5 1 0, .fence false 0 1, .fence false 1 6,
      .barArrive false 0 1025, .barSync false 0 1025, .rplq false 0 11, .wplq false 0 1] : List Instr).all
      (fun i => !i.wellFormed) = true := by decide

theorem test_illFormed_uniform :
    ([.cfetch false 48, .cevict false 48, .cstat false 63, .cvt false false 0 15 0, .cvt false false 0 0 15, .cvt false true 0 6 0,
      .kcmp 0 0 0 false 6, .kadd2 1 0 0 true, .kadd2 0 0 1 false, .klea 0 1 0 false 0, .kld 1 0 0 1, .kld 0 0 0 2, .kst 0 1 0 0,
      .kred 0 12, .agen 0 4, .coll 1 0 0, .vtag 1 0] : List Instr).all (fun i => !i.wellFormed) = true := by decide

theorem test_illFormed_engine :
    ([.mma 1 0 0 0 0 0 false false false false false false 0 0 0, .mma 0 0 1 0 0 0 false false false false false false 0 0 0,
      .mdrain 0 0 0 0 0 false 1 0 0, .bload 0 0 0 false false 0 0, .bload 1 1 0 false false 0 0, .bswap 0 false, .dload 1 0 0 0,
      .dload 0 0 0 32, .dload 0 1 63 1, .dload 0 2 0 8, .dload 0 3 0 0, .tcopy 1 0 false 0 0 false 0 1 0,
      .tgather 0 0 0 0 false 1 1 0, .tscatter 0 0 0 0 true 0 7 0] : List Instr).all (fun i => !i.wellFormed) = true := by decide

theorem test_illFormed_commands_and_events :
    ([.graph 0 0 0, .graph 0 4097 0, .graph 0 1 16385, .cancel 0 5 0, .cancel 0 1 1, .waitPoll 64 0, .doorbell 0 16,
      .ctxOpen 64 [], .ctxOpen 0 [(0, [8192])], .registerWrite 0 3 0, .teamPlacement 0 576, .warpResume 0 4, .codeFillLands 0 48,
      .agenStreamRead 0 8, .heartbeat 24 true, .moduleLost 8192, .agreementProposal 0 0 [2, 1] 0, .barrierTimeout 0 16,
      .tokenBucketRefill 144] : List Instr).all (fun i => !i.wellFormed) = true := by decide

/-! ## Words written out from the spec's encodings -/

/-- R173: `fadd` is 0x3000. -/
theorem test_decode_fadd : decodeTableWord 16 0x3000 = some (.fadd false 0) := by decide

/-- R149: `lit.s −1` is 0x077F. -/
theorem test_decode_lit_s : decodeTableWord 16 0x077F = some (.litS false (-1)) := by decide

/-- R163: 0x1002 is unassigned. -/
theorem test_decode_add_n_alone : decodeTableWord 16 0x1002 = none := by decide

/-- R170: `lea ch2, st -> st` with scale 3 is 0x9390_2003. -/
theorem test_decode_routed_lea : decodeTableWord 32 0x93902003 = some (.l32Routed 0x4E false 2 0 false 2 0 0 3) := by decide

/-- R168: `bfe 8, 4` is 0xAD40_0068. -/
theorem test_decode_bfe : decodeTableWord 32 0xAD400068 = some (.bfe false false 3 8) := by decide

/-- R133, R214: `kli k2, 10` is 0xC042_0000_0000_000A. -/
theorem test_decode_kli : decodeTableWord 64 0xC04200000000000A = some (.kli 2 10) := by decide

/-- R135, R291: `bswap` of the four macros is 0xC500_F000_0000_0000. -/
theorem test_decode_bswap : decodeTableWord 64 0xC500F00000000000 = some (.bswap 0xF false) := by decide

/-- R288: the word of an `mclr` of tile 2. -/
theorem test_decode_mclr : decodeTableWord 64 0xC440200000000000 = some (.mclr 2 false) := by decide

/-- R138: `vtag` of group 3 to k24. -/
theorem test_decode_vtag : decodeTableWord 64 0xCC58000000000003 = some (.vtag 24 3) := by decide

/-- R252: `bar.sync 1, 64` is 0xA7C1_0040. -/
theorem test_decode_bar_sync : decodeTableWord 32 0xA7C10040 = some (.barSync false 1 64) := by decide

/-- R247: a fence at team scope that acquires and releases. -/
theorem test_decode_fence : decodeTableWord 32 0xA6C000D0 = some (.fence false 3 2) := by decide

/-- R395: `rte`. -/
theorem test_decode_rte : decodeTableWord 32 0xA4000000 = some .rte := by decide

/-- R331: `qpush` through port 1. -/
theorem test_decode_qpush : decodeTableWord 32 0xA8010000 = some (.qpush false 1) := by decide

/-- R60: `kpush k2`. -/
theorem test_decode_kpush : decodeTableWord 32 0xB4000800 = some (.kpush 2) := by decide

/-- R151: `lit32` of 0x4049_0FDB. -/
theorem test_decode_lit32 : decodeTableWord 64 0xC000000040490FDB = some (.lit32 0x40490FDB) := by decide

/-- R106, R107: SIGNAL with its interrupt has the header tag, 0x0001_0309, and two words more. -/
theorem test_decode_signal : decodeCommand [0x0000000700010309, 0x1000, 9] = some (.signal 7 true 0x1000 9) := by decide

/-- R107: CANCEL of unit 5 is refused. -/
theorem test_decode_cancel_unit : decodeCommand [0x000000070000020E, 5] = none := by decide

/-! ## Small states -/

/-- A thread whose stack holds words, the deepest first. -/
def thread (lane : Nat) (ws : List Word) : Thread := { fetchThread lane with stack := ws.reverse.map .full }

/-- The split of so many lanes at the first instruction, with so many resident cells. -/
def splitOf (lanes depth : Nat) : Split := ⟨BitVec.ofNat 32 (2 ^ lanes - 1), BitVec.ofNat 57 (fetchPage * 4096), depth, 0, .ready⟩

/-- A warp whose lanes hold the given cells. -/
def warpOf (cells : List (List Word)) : Warp :=
  { fetchWarp with
    threads := cells.zipIdx.map fun x => thread x.2 x.1
    cur := some (splitOf cells.length (cells.headD []).length) }

/-- A state in which the warp has the turn. -/
def stateOf (w : Warp) : Machine.State :=
  { State.reset with dev := { (Dev.reset.placed []).setWarp 0 w with issuer := .warp 0 } }

/-- The cells of the lanes after an instruction. -/
def stacksAfter (i : Instr) (cells : List (List Word)) : List (List Word) :=
  match exec i (stateOf (warpOf cells)) with
  | .next t => ((t.dev.warp? 0).map fun w => w.threads.map fun t => (t.stack.map Cell.word).reverse).getD []
  | _ => []

/-! ## Single steps -/

/-- R164: −7 / 2 is −3. -/
theorem test_div_truncates : stacksAfter (.div false false) [[-7, 2], [0x80000000, -1]] = [[-3], [0x80000000]] := by decide

/-- R164: a divisor of 0 gives all ones, and the remainder is the dividend. -/
theorem test_rem_by_zero : stacksAfter (.rem false true) [[5, 0], [7, -2]] = [[5], [7]] := by decide

/-- R168: `bfi 8, 4` with 0x1234_5678 and 0xA. -/
theorem test_bfi : stacksAfter (.bfi false 3 8) [[0x12345678, 0xA]] = [[0x12345A78]] := by decide

/-- R170: `lea 2` with the base of core 1's slice and the index −1. -/
theorem test_lea : stacksAfter (.lea false false 2) [[0x00400000, 0x01800000, -1]] = [[0x003FFFFC, 0x01800000]] := by decide

/-- R170: `lea.n 2` on the same cells. -/
theorem test_lea_natural : stacksAfter (.lea false true 2) [[0x00400000, 0x01800000, -1]] = [[0x003FFFFC, 0x01800004]] := by decide

/-- R256: `shfl.down` by one in four lanes. -/
theorem test_shfl_down : stacksAfter (.shfl false 2) [[5, 1], [6, 1], [7, 1], [8, 1]] = [[6], [7], [8], [8]] := by decide

/-- R256: `shfl.up` by one in four lanes. -/
theorem test_shfl_up : stacksAfter (.shfl false 1) [[5, 1], [6, 1], [7, 1], [8, 1]] = [[5], [5], [6], [7]] := by decide

/-- R255: the ballot of lanes 0 and 2. -/
theorem test_vote_ballot : stacksAfter (.vote false 2) [[3], [0], [1]] = [[5], [5], [5]] := by decide

/-- R254. -/
theorem test_lead : stacksAfter (.lead false) [[], []] = [[1], [0]] := by decide

/-- R147: `rot` takes the third cell to the top. -/
theorem test_rot : stacksAfter (.rot false) [[1, 2, 3]] = [[2, 3, 1]] := by decide

/-- R163: `add.sat` stops at the greatest s32. -/
theorem test_add_saturates : stacksAfter (.add false false true) [[0x7FFFFFFF, 1]] = [[0x7FFFFFFF]] := by decide

/-- R173: 1.0 + 2^−24 rounds to even, to 1.0. -/
theorem test_fadd_ties_to_even : stacksAfter (.fadd false 0) [[0x3F800000, 0x33800000]] = [[0x3F800000]] := by decide

/-- R88: toward +∞ it gives the next number. -/
theorem test_fadd_up : stacksAfter (.fadd false 3) [[0x3F800000, 0x33800000]] = [[0x3F800001]] := by decide

/-- R174: `fneg` of a NaN keeps its payload. -/
theorem test_fneg_nan : stacksAfter (.fneg false) [[0x7FC00001]] = [[0xFFC00001]] := by decide

/-- R169: `mulw` of −1 and 2, low half deeper. -/
theorem test_mulw : stacksAfter (.mulw false false) [[-1, 2]] = [[-2, -1]] := by decide

/-- The first step after reset runs the instruction that stands where it fetches. -/
theorem test_first_step : (match step (State.reset.withFetchWord 64 0xC04200000000000A) with
    | .next t => (t.dev.warp? 0).map fun (w : Warp) => kGet w.k 2
    | _ => none) = some 10 := by decide

/-! ## Witnesses: states that meet the hypotheses of the statements -/

/-- A predicate of the answer of a partial operation. -/
def okAnd {ε α : Type} (x : Except ε α) (p : α → Bool) : Bool :=
  match x with
  | .ok a => p a
  | .error _ => false

theorem exists_ok {ε α : Type} {x : Except ε α} {p : α → Bool} (h : okAnd x p = true) : ∃ a, x = .ok a ∧ p a = true := by
  cases x with
  | ok a => exact ⟨a, rfl, h⟩
  | error e => simp [okAnd] at h

/-- A pair whose first part is an answer, or is a failure of translation. -/
theorem exists_reach {x : Except Failure Nat × Dev} (h : okAnd x.1 (fun _ => true) = true) : ∃ pa d, x = (Except.ok pa, d) := by
  obtain ⟨pa, h, -⟩ := exists_ok h
  exact ⟨pa, x.2, by rw [← h]⟩

theorem exists_fault {x : Except Failure Nat × Dev} (h : (match x.1 with
    | .error (.fault _ _) => true
    | _ => false) = true) : ∃ code va d, x = (Except.error (Failure.fault code va), d) := by
  obtain ⟨r, d⟩ := x
  match r, h with
  | .error (.fault code va), _ => exact ⟨code, va, d, rfl⟩

theorem exists_some {α : Type} {x : Option α} {p : α → Bool} (h : x.any p = true) : ∃ a, x = some a ∧ p a = true := by
  cases x with
  | some a => exact ⟨a, rfl, h⟩
  | none => simp at h

/-- A warp with the turn is ready where the checks of issue let it go. -/
theorem readyOf {w : Warp} {sp : Split} {n : Need} (hc : w.cur = some sp) (hv : (stateOf w).dev.verdict 0 w sp n = .go) :
    Ready (stateOf w) 0 w sp n := ready_of_verdict ⟨rfl, Table.find?_set_self _ 0 w, hc⟩ hv

/-- A state with another device is one in which the warp has the turn. -/
theorem readyIn {s : Machine.State} {w : Warp} {sp : Split} {n : Need} (hi : s.dev.issuer = .warp 0) (hw : s.dev.warp? 0 = some w)
    (hc : w.cur = some sp) (hv : s.dev.verdict 0 w sp n = .go) : Ready s 0 w sp n := ready_of_verdict ⟨hi, hw, hc⟩ hv

/-- A front-end context of team 0. -/
def fetOf (k : List Word) : Fet := ⟨0, 0, BitVec.ofNat 57 (fetchPage * 4096), k, 0, [0, 0, 0, 0], 3, [], [], none, false, none⟩

/-- A state in which the context has the turn. -/
def fetState (f : Fet) : Machine.State :=
  { State.reset with dev := { (Dev.reset.placed []).setFet 0 f with issuer := .fet 0 } }

theorem fetReady (k : List Word) (regs : List Nat) : IssuesFet (fetState (fetOf k)) 0 (fetOf k) regs :=
  ⟨rfl, Table.find?_set_self _ 0 _, by simp [fetOf]⟩

/-- The state with another launch record. -/
def recordState (s : Machine.State) (r : LaunchRecord) : Machine.State :=
  withDev s (s.dev.setLaunch 0 { fetchLaunch with record := r })

theorem meets_IntegerWordResults : ∃ o, wordForm (.bfe false true 31 0) = some o ∧
    Ready (stateOf (warpOf [[5], [6]])) 0 (warpOf [[5], [6]]) (splitOf 2 1) (Need.of o.bytes o.w o.pops 1) :=
  ⟨_, rfl, readyOf rfl (by decide)⟩

theorem meets_PairResults : ∃ o, pairForm (.icmp2 true true 5) = some o ∧
    Ready (stateOf (warpOf [[1, 2, 3, 4]])) 0 (warpOf [[1, 2, 3, 4]]) (splitOf 1 4) (Need.of 2 o.w o.pops o.pushes) :=
  ⟨_, rfl, readyOf rfl (by decide)⟩

theorem meets_CellAndLiteralResults : ∃ o, cellForm (.dup true 6) = some o ∧
    Ready (stateOf (warpOf [[1, 2, 3, 4, 5, 6, 7]])) 0 (warpOf [[1, 2, 3, 4, 5, 6, 7]]) (splitOf 1 7) o.need ∧
    o.legal (stateOf (warpOf [[1, 2, 3, 4, 5, 6, 7]])) (warpOf [[1, 2, 3, 4, 5, 6, 7]]) (splitOf 1 7) = true :=
  ⟨_, rfl, readyOf rfl (by decide), rfl⟩

theorem meets_CellAndLiteralResults_sign : ∃ o, signForm (.fabs true) = some o ∧
    Ready (stateOf (warpOf [[1]])) 0 (warpOf [[1]]) (splitOf 1 1) o.need := ⟨_, rfl, readyOf rfl (by decide)⟩

theorem meets_FrameResults_load : ∃ o, frameForm (.ldfL false true 254) = some o ∧
    Ready (stateOf (warpOf [[1]])) 0 (warpOf [[1]]) (splitOf 1 1) o.need ∧
    o.legal (stateOf (warpOf [[1]])) (warpOf [[1]]) (splitOf 1 1) = true :=
  ⟨_, rfl, readyOf rfl (by decide), by decide⟩

theorem meets_FrameResults_store :
    Ready (stateOf (warpOf [[1, 2]])) 0 (warpOf [[1, 2]]) (splitOf 1 2) { Need.of 4 true 2 0 with forwards := 2 } ∧
    inFrame (stateOf (warpOf [[1, 2]])) (warpOf [[1, 2]]) (splitOf 1 2) 254 2 = true := ⟨readyOf rfl (by decide), by decide⟩

theorem meets_SpecialRegisterResults : ∃ o, registerForm (.rds false 22) = some o ∧
    Ready (stateOf (warpOf [[]])) 0 (warpOf [[]]) (splitOf 1 0) o.need ∧
    o.legal (stateOf (warpOf [[]])) (warpOf [[]]) (splitOf 1 0) = true :=
  ⟨_, rfl, readyOf rfl (by decide), rfl⟩

theorem meets_WarpWideResults : ∃ o, wideForm (.shfl true 3) = some o ∧
    Ready (stateOf (warpOf [[1, 2], [3, 4]])) 0 (warpOf [[1, 2], [3, 4]]) (splitOf 2 2) o.need ∧
    o.legal (stateOf (warpOf [[1, 2], [3, 4]])) (warpOf [[1, 2], [3, 4]]) (splitOf 2 2) = true :=
  ⟨_, rfl, readyOf rfl (by decide), rfl⟩

theorem meets_FloatResults : ∃ o, floatForm (.dfma true 3) = some o ∧
    Ready (stateOf (warpOf [[1, 2, 3, 4, 5, 6]])) 0 (warpOf [[1, 2, 3, 4, 5, 6]]) (splitOf 1 6) o.form.need :=
  ⟨_, rfl, readyOf rfl (by decide)⟩

/-- A record whose slot 7 holds a block format of six magnitude bits, and whose slot 1 holds s8. -/
def slotRecord : LaunchRecord :=
  { fetchRecord with
    slots := (List.range 8).map fun n =>
      ⟨if n = 7 then 0x22 else if n = 1 then 0x10 else 0, false, false, false, 0, 0, 0⟩ }

/-- A state of that record. -/
def slotState (w : Warp) : Machine.State := recordState (stateOf w) slotRecord

theorem meets_SlotConversionResults_cvt :
    laneTypeOf (formatSlot (slotState (warpOf [[1]])) (warpOf [[1]]) 0).format.toNat = some 0 ∧
    laneTypeOf (formatSlot (slotState (warpOf [[1]])) (warpOf [[1]]) 1).format.toNat = some 6 ∧
    Ready (slotState (warpOf [[1]])) 0 (warpOf [[1]]) (splitOf 1 1)
      (NumberForm.form ⟨4, true, 0, convertOp 0 6 0 false false⟩).need :=
  ⟨by decide, by decide, readyIn rfl (by decide) rfl (by decide)⟩

theorem meets_SlotConversionResults_pack :
    Ready (slotState (warpOf [[1]])) 0 (warpOf [[1]]) (splitOf 1 1) (packForm true 7 6).need ∧
    (packForm true 7 6).legal (slotState (warpOf [[1]])) (warpOf [[1]]) (splitOf 1 1) = true ∧
    Ready (slotState (warpOf [[1]])) 0 (warpOf [[1]]) (splitOf 1 1) (unpackForm true 7 6).need ∧
    (unpackForm true 7 6).legal (slotState (warpOf [[1]])) (warpOf [[1]]) (splitOf 1 1) = true :=
  ⟨readyIn rfl (by decide) rfl (by decide), by decide, readyIn rfl (by decide) rfl (by decide), by decide⟩

theorem meets_UniformResults_warp : ∃ o, uniformForm (.kadd2 62 60 63 true) = some o ∧
    Ready (stateOf (warpOf [[]])) 0 (warpOf [[]]) (splitOf 1 0) { blind o.bytes 0 0 with regs := o.regs } :=
  ⟨_, rfl, readyOf rfl (by decide)⟩

theorem meets_UniformResults_context : ∃ o, uniformForm (.kcmp 7 63 0 true 5) = some o ∧
    IssuesFet (fetState (fetOf [])) 0 (fetOf []) o.regs := ⟨_, rfl, fetReady _ _⟩

theorem meets_ExchangeAndReplayResults_exchange : ∃ o, exchangeForm (.kred 63 11) = some o ∧
    Ready (stateOf (warpOf [[1], [2]])) 0 (warpOf [[1], [2]]) (splitOf 2 1) o.need ∧
    o.legal (stateOf (warpOf [[1], [2]])) (warpOf [[1], [2]]) (splitOf 2 1) = true := ⟨_, rfl, readyOf rfl (by decide), by decide⟩

/-- A warp in handler mode with an entry in its replay queue. -/
def handlerWarp (cells : List (List Word)) : Warp :=
  { warpOf cells with
    handler := some ⟨(List.range cells.length).map fun l => (l, []), [], [], false⟩
    replay := [⟨0, .ld false 2 0, 0, 1, some 0, 0x0D, false, List.replicate 32 0, List.replicate 32 [], []⟩] }

theorem meets_ExchangeAndReplayResults_replay :
    (∃ o, replayForm (.rplq true 0 10) = some o ∧ Ready (stateOf (handlerWarp [[]])) 0 (handlerWarp [[]]) (splitOf 1 0) o.need ∧
      o.legal (stateOf (handlerWarp [[]])) (handlerWarp [[]]) (splitOf 1 0) = true) ∧
    ∃ o, replayForm (.wplq true 0 0) = some o ∧ Ready (stateOf (handlerWarp [[1]])) 0 (handlerWarp [[1]]) (splitOf 1 1) o.need ∧
      o.legal (stateOf (handlerWarp [[1]])) (handlerWarp [[1]]) (splitOf 1 1) = true :=
  ⟨⟨_, rfl, readyOf rfl (by decide), by decide⟩, ⟨_, rfl, readyOf rfl (by decide), by decide⟩⟩

theorem meets_BranchResults : ∃ o, branchForm (.bzj true (-64)) = some o ∧
    Ready (stateOf (warpOf [[0], [1]])) 0 (warpOf [[0], [1]]) (splitOf 2 1) o.need ∧
    o.legal (stateOf (warpOf [[0], [1]])) (warpOf [[0], [1]]) (splitOf 2 1) = true := ⟨_, rfl, readyOf rfl (by decide), by decide⟩

/-- The warp after a call in both lanes. -/
def calledWarp : Warp := (warpOf [[], []]).onLanes 3 fun t => { t with ret := [1] }

theorem meets_BranchResults_return : ∃ o, branchForm (.ret true) = some o ∧
    Ready (stateOf calledWarp) 0 calledWarp (splitOf 2 0) o.need ∧ o.legal (stateOf calledWarp) calledWarp (splitOf 2 0) = true :=
  ⟨_, rfl, readyOf rfl (by decide), by decide⟩

theorem meets_ContextBranchResults_nop :
    let w : Warp := { warpOf [[]] with place := .evicted }
    let s := withDev (fetState (fetOf [])) ((fetState (fetOf [])).dev.setWarp 0 w)
    IssuesFet s 0 (fetOf []) [] ∧ s.dev.lowestWarp (fetOf []).team = some 0 ∧ s.dev.warp? 0 = some w ∧ w.place = .evicted ∧
    w.handler = none ∧ ∀ p ∈ w.posted, p.stamp ≠ s.dev.nextId :=
  ⟨⟨rfl, by decide, by simp [fetOf]⟩, by decide, by decide, rfl, rfl, by decide⟩

theorem meets_ContextBranchResults : IssuesFet (fetState (fetOf [])) 0 (fetOf []) [] ∧
    contextBranch (.jmpX (-1)) = some (8, fun _ => true, BitVec.toInt (-1 : BitVec 51)) := ⟨fetReady _ _, rfl⟩

/-- A state whose code page holds a `jtab` with two entries, and its table. -/
def tableState (w : Warp) : Machine.State :=
  let s := stateOf w
  withDev s (s.dev.setMem (Memory.writeBytes s.dev.mem fetchPa [0x41, 0xA1, 0x01, 0x00, 1, 0, 2, 0]))

theorem meets_DispatchResults_jtab :
    Ready (tableState (warpOf [[1], [0]])) 0 (warpOf [[1], [0]]) (splitOf 2 1) (Need.of 4 true 1 0) ∧
    (tableState (warpOf [[1], [0]])).dev.codeParcels 0 ((tableState (warpOf [[1], [0]])).dev.slotOf 0)
      ((splitOf 2 1).pc.toNat + 4) ((1 : BitVec 5).toNat + 1) = .parcels [1, 2] ∧
    ∀ l ∈ lanesOf (splitOf 2 1).mask, (topOf (warpOf [[1], [0]]) l).toNat ≤ (1 : BitVec 5).toNat :=
  ⟨readyIn rfl (by decide) rfl (by decide), by decide, by decide⟩

/-- A warp with an entry in ch15. -/
def queuedWarp : Warp := { warpOf [[]] with ch15 := [(1, [])] }

theorem meets_DispatchResults_brq :
    Ready (stateOf queuedWarp) 0 queuedWarp (splitOf 1 0) { Need.of 2 false 0 0 with channels := [(15, 1, false)] } ∧
    queuedWarp.ch15 = (1, []) :: [] := ⟨readyOf rfl (by decide), rfl⟩

theorem meets_SelectionResults : ∀ t ∈ (warpOf [[]]).others, (warpOf [[]]).merge? 0 t (splitOf 1 0) = none := by decide

/-- A warp of two lanes in two splits, with a mask on the join stack. -/
def joinWarp (mask : Mask) (others : List Split) : Warp :=
  { warpOf [[], []] with cur := some { splitOf 2 0 with mask := mask }, others := others, join := [3] }

theorem meets_JoinAndSyncResults_last :
    Ready (stateOf (joinWarp 3 [])) 0 (joinWarp 3 []) (splitOf 2 0) (Need.of 2 false 0 0) ∧
    (3 : Mask) &&& 3 = 3 ∧ (joinWarp 3 []).depth (splitOf 2 0) = (0 : BitVec 7).toNat ∧ (3 : Mask) = 3 &&& (joinWarp 3 []).live :=
  ⟨readyOf rfl (by decide), by decide, by decide, by decide⟩

theorem meets_JoinAndSyncResults_wait :
    let other : Split := { splitOf 2 0 with mask := 2 }
    let sp : Split := { splitOf 2 0 with mask := 1 }
    Ready (stateOf (joinWarp 1 [other])) 0 (joinWarp 1 [other]) sp (Need.of 2 false 0 0) ∧
    (1 : Mask) &&& 3 = 1 ∧ (joinWarp 1 [other]).depth sp = (0 : BitVec 7).toNat ∧ (1 : Mask) ≠ 3 &&& (joinWarp 1 [other]).live :=
  ⟨readyOf rfl (by decide), by decide, by decide, by decide⟩

theorem meets_JoinAndSyncResults_sync :
    let w : Warp := { warpOf [[], []] with cur := some { splitOf 2 0 with mask := 1 }, others := [{ splitOf 2 0 with mask := 2, state := .wsync }] }
    Ready (stateOf w) 0 w { splitOf 2 0 with mask := 1 } (Need.of 2 false 0 0) ∧
    ∀ t ∈ w.others, t.state = .wsync → t.pc = (splitOf 2 0).pc → w.depth t = w.depth { splitOf 2 0 with mask := 1 } :=
  ⟨readyOf rfl (by decide), by decide⟩

theorem meets_JoinAndSyncResults_whole :
    Ready (stateOf (warpOf [[]])) 0 (warpOf [[]]) (splitOf 1 0) (Need.of 2 false 0 0) ∧ (warpOf [[]]).others = [] ∧
    (splitOf 1 0).mask = (warpOf [[]]).live ∧ (warpOf [[]]).live ≠ 0 ∧ (warpOf [[]]).join = [] ∧ (splitOf 1 0).c ≤ 8 ∧
    ∀ e ∈ (stateOf (warpOf [[]])).dev.accesses, e.2.party = .warp 0 → e.2.parked = false :=
  ⟨readyOf rfl (by decide), rfl, by decide, by decide, rfl, by decide, by decide⟩

theorem meets_ExitAndYieldResults : Ready (stateOf (warpOf [[]])) 0 (warpOf [[]]) (splitOf 1 0) (Need.of 2 false 0 0) :=
  readyOf rfl (by decide)

/-- A warp of one lane with an address, and values under it. -/
def addressWarp (vs : List Word) (a : Word) : Warp := warpOf [vs ++ [a, 0]]

theorem meets_AccessesAreIssued : ∃ f, memoryForm (.st true 6 (-16)) = some (true, -16, f) ∧ ¬(f.kind = .swapIf ∧ f.bytes = 8) ∧
    Ready (stateOf (addressWarp [1, 2, 3, 4] 32)) 0 (addressWarp [1, 2, 3, 4] 32) (splitOf 1 6) (memoryNeed (.st true 6 (-16)) true f) ∧
    accessible (stateOf (addressWarp [1, 2, 3, 4] 32)) (addressWarp [1, 2, 3, 4] 32) (splitOf 1 6) (-16) f.bytes (f.kind != .load) :=
  ⟨_, rfl, by decide, readyOf rfl (by decide), by unfold accessible; decide⟩

/-- The state with every unit ready, and pages of a context mapped: each by its address, its frame and its leaf's bits. -/
def mapped (s : Machine.State) (pages : List (Nat × Nat × Bool)) : Machine.State :=
  let h : HostPart := { s.host with ready := -1, featActive := 0x7F, linkUp := true }
  let d := s.dev.onContext 0 fun c => { c with roots := [0x1000000, 0x1010000, 0x1020000, 0x1030000] }
  let map := fun (d : Dev) (p : Nat × Nat × Bool) => (d.mapPage h 0 p.1 (leafEntry p.2.1 p.2.2 (!p.2.2) true)).getD d
  { s with host := h, dev := pages.foldl map { d with hbmTaken := [(0, 0x200)] } }

/-- The page at 0x20_0000 that may be read and written. -/
def dataPages : List (Nat × Nat × Bool) := [(0x200000, 0x4000000, false)]

/-- A warp of one lane with a compare-and-swap of 8 bytes at the start of the page. -/
def swapWarp : Warp := warpOf [[1, 0, 2, 0, 0x200000, 0]]

def swapState : Machine.State := mapped (stateOf swapWarp) dataPages

theorem meets_AccessesAreIssued_wide : ∃ f r, memForm (.cas true 4 true 4 5 1) = some f ∧
    Ready swapState 0 swapWarp (splitOf 1 6) (memoryNeed (.cas true 4 true 4 5 1) true f) ∧
    accessible swapState swapWarp (splitOf 1 6) 0 8 true ∧
    Dev.walkLanes swapState.host (swapState.dev.slotOf swapWarp.team) swapWarp.core
      ((lanesOf (splitOf 1 6).mask).map fun l => (l, address swapWarp 0 l)) ⟨[], none, [], none, swapState.dev⟩ = r ∧
    r.failed = [] ∧ r.serve = none ∧ r.lost = none :=
  ⟨_, _, rfl, readyIn (by decide) (by decide) rfl (by decide), by unfold accessible; decide, rfl, by decide, by decide, by decide⟩

/-- A warp whose counter of class 3 stands at 255. -/
def countedWarp : Warp := { warpOf [[4095]] with cnt := [0, 0, 0, 255] }

theorem meets_FenceAndCounterResults_fence :
    Ready (stateOf (warpOf [[]])) 0 (warpOf [[]]) (splitOf 1 0) (Need.of 4 false 0 0) ∧ (2 : BitVec 3).toNat < 3 ∧
    (stateOf (warpOf [[]])).dev.laneAccesses 0 (splitOf 1 0).mask (fun a => a.kind != .load && a.result.isNone) = [] :=
  ⟨readyOf rfl (by decide), by decide, by decide⟩

theorem meets_FenceAndCounterResults_waitc :
    Ready (stateOf countedWarp) 0 countedWarp (splitOf 1 1) (blind 4 0 0) ∧
    cntGet countedWarp.cnt (3 : BitVec 2).toNat ≤ (255 : BitVec 8).toNat ∧
    (254 : BitVec 8).toNat < cntGet countedWarp.cnt (3 : BitVec 2).toNat := ⟨readyOf rfl (by decide), by decide, by decide⟩

theorem meets_FenceAndCounterResults_waitc_context :
    let f : Fet := { fetOf [] with cnt := [1, 0, 0, 0] }
    IssuesFet (fetState f) 0 f [] ∧ cntGet f.cnt (0 : BitVec 2).toNat ≤ (1 : BitVec 8).toNat ∧
    (0 : BitVec 8).toNat < cntGet f.cnt (0 : BitVec 2).toNat :=
  ⟨⟨rfl, Table.find?_set_self _ 0 _, by simp [fetOf]⟩, by decide, by decide⟩

theorem meets_FenceAndCounterResults_trywait :
    let none_ : Warp := { countedWarp with threads := [thread 0 [0]] }
    Ready (stateOf countedWarp) 0 countedWarp (splitOf 1 1) (Need.of 4 true 1 1) ∧
    cntGet countedWarp.cnt (3 : BitVec 2).toNat ≤ (255 : BitVec 8).toNat ∧
    (254 : BitVec 8).toNat < cntGet countedWarp.cnt (3 : BitVec 2).toNat ∧
    Nat.min (lowestTop countedWarp (splitOf 1 1)).toNat 4096 ≠ 0 ∧
    Ready (stateOf none_) 0 none_ (splitOf 1 1) (Need.of 4 true 1 1) ∧ Nat.min (lowestTop none_ (splitOf 1 1)).toNat 4096 = 0 :=
  ⟨readyOf rfl (by decide), by decide, by decide, by decide, readyOf rfl (by decide), by decide⟩

theorem meets_BarrierResults :
    Ready (stateOf (warpOf [[1024]])) 0 (warpOf [[1024]]) (splitOf 1 1) (Need.of 4 true 1 0) ∧
    1 ≤ (lowestTop (warpOf [[1024]]) (splitOf 1 1)).toNat ∧ (lowestTop (warpOf [[1024]]) (splitOf 1 1)).toNat ≤ 1024 ∧
    Ready (stateOf (warpOf [[]])) 0 (warpOf [[]]) (splitOf 1 0) (Need.of 4 true 0 0) ∧
    1 ≤ (1 : BitVec 16).toNat ∧ (1 : BitVec 16).toNat ≤ 1024 :=
  ⟨readyOf rfl (by decide), by decide, by decide, readyOf rfl (by decide), by decide, by decide⟩

theorem meets_SealAndPrefetchRequests :
    Ready (stateOf (warpOf [[0, 0, 0x10000, 0]])) 0 (warpOf [[0, 0, 0x10000, 0]]) (splitOf 1 4) (Need.of 4 true 4 1) ∧
    Ready (stateOf (warpOf [[0x200000, 0]])) 0 (warpOf [[0x200000, 0]]) (splitOf 1 2) (Need.of 4 true 2 0) :=
  ⟨readyOf rfl (by decide), readyOf rfl (by decide)⟩

theorem meets_OverlayResults :
    (47 : BitVec 6).toNat < 48 ∧
    Ready (stateOf (warpOf [[0xFFFFFFFF, 0x01FFFFFF]])) 0 (warpOf [[0xFFFFFFFF, 0x01FFFFFF]]) (splitOf 1 2) (Need.of 4 true 2 1) ∧
    (((warpOf [[0xFFFFFFFF, 0x01FFFFFF]]).thread? (lowest (splitOf 1 2).mask)).map fun t => pair t.stack 0) =
      some 0x01FFFFFFFFFFFFFF ∧
    (0x01FFFFFFFFFFFFFF : Dword).toNat < 2 ^ 57 ∧
    Ready (stateOf (warpOf [[]])) 0 (warpOf [[]]) (splitOf 1 0) (Need.of 4 false 0 1) :=
  ⟨by decide, readyOf rfl (by decide), by decide, by decide, readyOf rfl (by decide)⟩

/-- A record whose slots 0 and 1 hold a dense block format, and whose slot 2 holds FP32. -/
def blockRecord : LaunchRecord :=
  { fetchRecord with
    slots := [⟨0x21, false, false, false, 0, 0, 0x10000⟩, ⟨0x21, false, false, false, 0, 0, 0⟩, ⟨0, false, false, false, 0, 0, 0⟩] }

/-- A uniform file whose k0:k1 holds the address of core 0's slice, and whose k2:k3 the same. -/
def sliceRegs : List Word := [0, 0x01800000, 0, 0x01800000]

/-- A warp of one lane with that file. -/
def engineWarp (ws : List Word) : Warp := { warpOf [ws] with k := sliceRegs }

def engineState : Machine.State := recordState (stateOf (engineWarp [])) blockRecord

theorem meets_MatrixInstructionsIssue_mma :
    ∃ o l, engineForm (.mma 0 6 0 0 1 2 false false true true true true 2 2 15) = some o ∧
      Ready engineState 0 (engineWarp []) (splitOf 1 0) { blind 8 0 0 with regs := o.regs } ∧
      engineState.dev.launchOf (engineWarp []).team = some l ∧ o.slots l.record = true ∧
      (o.pair = true → l.record.pair = true) ∧ cntGet (engineWarp []).cnt 2 < 255 ∧
      (o.pair = false → engineState.dev.pairHeld (engineWarp []).core = false) ∧
      o.good engineState l.record (engineCore engineState o.pair (engineWarp []).team (engineWarp []).core) (engineWarp []).k = true :=
  ⟨_, _, rfl, readyIn (by decide) (by decide) rfl (by decide), rfl, by decide, by decide, by decide, by decide, by decide⟩

theorem meets_MatrixInstructionsIssue_load :
    ∃ o l, engineForm (.bload 0 15 1 true false 4 127) = some o ∧
      Ready engineState 0 (engineWarp []) (splitOf 1 0) { blind 8 0 0 with regs := o.regs } ∧
      engineState.dev.launchOf (engineWarp []).team = some l ∧ o.slots l.record = true ∧
      o.good engineState l.record 0 (engineWarp []).k = true :=
  ⟨_, _, rfl, readyIn (by decide) (by decide) rfl (by decide), rfl, by decide, by decide⟩

/-- A context of core 0 with the same file and record. -/
def engineContext : Machine.State := recordState (fetState (fetOf sliceRegs)) blockRecord

theorem meets_MatrixInstructionsIssue_context :
    ∃ o l, engineForm (.dload 0 1 63 0) = some o ∧ IssuesFet engineContext 0 (fetOf sliceRegs) o.regs ∧
      engineContext.dev.launchOf (fetOf sliceRegs).team = some l ∧ o.slots l.record = true ∧
      (o.pair = true → l.record.pair = true) ∧ cntGet (fetOf sliceRegs).cnt 2 < 255 ∧
      (o.pair = false → engineContext.dev.pairHeld 0 = false) ∧ o.good engineContext l.record 0 sliceRegs = true :=
  ⟨_, _, rfl, ⟨by decide, by decide, by simp [fetOf]⟩, rfl, by decide, by decide, by decide, by decide, by decide⟩

theorem meets_MatrixInstructionsIssue_others :
    (engineForm (.mclr 7 false)).isSome = true ∧ (engineForm (.bswap 15 false)).isSome = true ∧
    ∃ o, engineForm (.mdrain 0 31 0 0 2 false 0 0 0) = some o ∧ o.slots blockRecord = true := ⟨rfl, rfl, _, rfl, by decide⟩

/-- A tile copy with six coordinates into slot 0. -/
def tileCopy : Instr := .tcopy 2 0 true 7 0 true 2 6 0

def copyWarp : Warp := engineWarp [1, 2, 3, 4, 5, 6, 1]

theorem meets_CopyInstructionsIssue_warp :
    let s := recordState (stateOf copyWarp) blockRecord
    let f := copyFields tileCopy
    badDslot f blockRecord = false ∧ Ready s 0 copyWarp (splitOf 1 7) (copyNeed f) ∧
    (s.dev.launchOf copyWarp.team).map Launch.record = some blockRecord ∧ f.kc = 0 ∧
    cntGet copyWarp.cnt f.cls + (leads f copyWarp (splitOf 1 7)).length ≤ 255 ∧
    s.dev.slotsUsed copyWarp.core + (leads f copyWarp (splitOf 1 7)).length ≤ 32 ∧
    (leads f copyWarp (splitOf 1 7)).length ≠ 0 ∧ copyGood (kGet64 copyWarp.k f.kl) (kGet64 copyWarp.k f.ksl) :=
  ⟨by decide, readyIn (by decide) (by decide) rfl (by decide), by decide, by decide, by decide, by decide, by decide,
    by unfold copyGood; decide⟩

theorem meets_CopyInstructionsIssue_context :
    let c := fetOf sliceRegs
    let f := copyFields (.tgather 2 0 7 58 false 0 6 0)
    IssuesFet engineContext 0 c ([f.kl, f.kl + 1, f.ksl, f.ksl + 1] ++ (List.range f.ncoord).map (f.kc + ·)) ∧
    (engineContext.dev.launchOf c.team).map Launch.record = some blockRecord ∧ f.kc + f.ncoord ≤ 64 ∧ cntGet c.cnt f.cls < 255 ∧
    engineContext.dev.slotsUsed c.core < 32 ∧ copyGood (kGet64 c.k f.kl) (kGet64 c.k f.ksl) :=
  ⟨⟨by decide, by decide, by simp [fetOf]⟩, by decide, by decide, by decide, by decide, by unfold copyGood; decide⟩

/-- A warp of one lane with an entry in channel 7. -/
def channelWarp : Warp := (warpOf [[1]]).onLanes 1 fun t => { t with ch := List.replicate 7 [] ++ [[5]] }

theorem meets_RoutedResults : ∃ o, routedOp 0x10 0 = some o ∧ o.routeOk ⟨2, 0, true, 7, 0, 0⟩ = true ∧
    Ready (stateOf channelWarp) 0 channelWarp (splitOf 1 1) (o.need ⟨2, 0, true, 7, 0, 0⟩ 4 true) :=
  ⟨_, rfl, by decide, readyOf rfl (by decide)⟩

/-- A uniform file with an address in k62:k63. -/
def pageRegs : List Word := putAt 0 (List.replicate 62 0) 62 0x200000 ++ [0]

def uniformWarp : Warp := { warpOf [[]] with k := pageRegs }

theorem meets_UniformUnitResults_access :
    let s := mapped (stateOf uniformWarp) dataPages
    Ready s 0 uniformWarp (splitOf 1 0) { blind 4 0 0 with regs := uniformReads (.kst 62 62 63 1) } ∧
    ∃ r, s.dev.translate (s.dev.slotOf uniformWarp.team) uniformWarp.core 0x2001F8 .write = .ok r ∧
      kGet64 uniformWarp.k 62 + BitVec.ofNat 64 (63 * 8) = 0x2001F8 ∧ (0x2001F8 : Dword).toNat < 2 ^ 57 ∧
      (0x2001F8 : Dword).toNat % 8 = 0 ∧ (r.2.context (s.dev.slotOf uniformWarp.team)).sealedRange 0x2001F8 8 = false := by
  refine ⟨readyIn (by decide) (by decide) rfl (by decide), ?_⟩
  obtain ⟨r, hr, hs⟩ := exists_ok (x := (mapped (stateOf uniformWarp) dataPages).dev.translate 0 0 0x2001F8 .write)
    (p := fun r => !(r.2.context 0).sealedRange 0x2001F8 8) (by decide)
  have hs : (r.2.context 0).sealedRange 0x2001F8 8 = false := by simpa using hs
  exact ⟨r, hr, by decide, by decide, by decide, hs⟩

theorem meets_UniformUnitResults_access_context :
    let s := mapped (fetState (fetOf pageRegs)) dataPages
    IssuesFet s 0 (fetOf pageRegs) (uniformReads (.kld 62 62 63 1)) ∧
    ∃ r, s.dev.translate (s.dev.slotOf 0) 0 0x2001F8 .read = .ok r := by
  refine ⟨⟨by decide, by decide, by simp [fetOf]⟩, ?_⟩
  obtain ⟨r, hr, -⟩ := exists_ok (x := (mapped (fetState (fetOf pageRegs)) dataPages).dev.translate 0 0 0x2001F8 .read)
    (p := fun _ => true) (by decide)
  exact ⟨r, hr⟩

theorem meets_UniformUnitResults_others :
    Ready (stateOf uniformWarp) 0 uniformWarp (splitOf 1 0) { blind 4 0 0 with regs := [63] } ∧
    Ready (stateOf uniformWarp) 0 uniformWarp (splitOf 1 0) { blind 8 0 0 with regs := [62, 63] } ∧
    IssuesFet (fetState (fetOf pageRegs)) 0 (fetOf pageRegs) [62, 63] ∧ cntGet uniformWarp.cnt 3 < 255 ∧
    cntGet (fetOf pageRegs).cnt 3 < 255 ∧ (kGet64 uniformWarp.k 62).toNat < 2 ^ 57 ∧ (kGet64 uniformWarp.k 62).toNat % 128 = 0 :=
  ⟨readyOf rfl (by decide), readyOf rfl (by decide), fetReady _ _, by decide, by decide, by decide, by decide⟩

theorem meets_FrontEndResults :
    let f := fetOf (List.replicate 63 0 ++ [2])
    IssuesFet (fetState f) 0 f ((List.range 8).map ((56 : BitVec 6).toNat + ·)) ∧ (kGet f.k ((56 : BitVec 6).toNat + 7)).toNat < 3 ∧
    (∀ st ∈ f.streams, st.ch = (7 : BitVec 3).toNat → st.pending ≠ [] ∧ st.count ≤ st.elem + 1) ∧ IssuesFet (fetState f) 0 f [63] ∧ IssuesFet (fetState f) 0 f [] ∧
    ∀ i ∈ (fetState f).dev.receivers f.team, ∀ w, (fetState f).dev.warp? i = some w →
      w.place ≠ .evicted ∧ w.ch15.length + ((fetState f).dev.decisions.filter fun e => e.2.team == f.team).length < 16 := by
  refine ⟨fetReady _ _, by decide, by decide, fetReady _ _, fetReady _ _, fun i hi w hw => ?_⟩
  have : ((fetState (fetOf (List.replicate 63 0 ++ [2]))).dev.receivers 0).all fun i =>
    ((fetState (fetOf (List.replicate 63 0 ++ [2]))).dev.warp? i).all fun w => decide (w.place ≠ .evicted ∧ w.ch15.length + 0 < 16) := by
    decide
  have h := List.all_eq_true.1 this i hi
  change (fetState (fetOf (List.replicate 63 0 ++ [2]))).dev.warp? i = some w at hw
  rw [hw] at h
  exact of_decide_eq_true (p := w.place ≠ .evicted ∧ w.ch15.length + 0 < 16) h

/-- A record whose handler areas start at 0x20_0000. -/
def trapRecord : LaunchRecord := { fetchRecord with handlerStack := 0x200000 }

/-- A state whose handler area can be written. -/
def trapState (w : Warp) : Machine.State := mapped (recordState (stateOf w) trapRecord) dataPages

theorem meets_TrapInstructionsEnterHandler :
    let s := trapState (warpOf [[1]])
    let p : Posted := ⟨s.dev.nextId, 0x16, 0, 0xFFFF, (splitOf 1 1).mask, (splitOf 1 1).pc, 0, 0, []⟩
    let w₁ : Warp := { warpOf [[1]] with posted := [p] }
    ∃ d d', Ready s 0 (warpOf [[1]]) (splitOf 1 1) (Need.of 4 false 0 0) ∧ (warpOf [[1]]).handler = none ∧
      (warpOf [[1]]).place = .resident ∧ (warpOf [[1]]).posted = [] ∧ Quiet s.dev 0 ∧ (s.dev.launchOf 0).isSome = true ∧
      (savedDev (withTrap s 0 p) 0 w₁).areaWritable s.host (s.dev.slotOf 0) 0 (s.dev.handlerBase 0 0) = .ok d ∧
      d.writeVa s.host (s.dev.slotOf 0) 0 (s.dev.handlerBase 0 0) (trapFrame (savedWarp (withTrap s 0 p) 0 w₁) p []) = .ok d' := by
  intro s p w₁
  obtain ⟨d, hd, hw⟩ := exists_ok
    (x := (savedDev (withTrap s 0 p) 0 w₁).areaWritable s.host (s.dev.slotOf 0) 0 (s.dev.handlerBase 0 0))
    (p := fun d => okAnd (d.writeVa s.host (s.dev.slotOf 0) 0 (s.dev.handlerBase 0 0)
      (trapFrame (savedWarp (withTrap s 0 p) 0 w₁) p [])) fun _ => true) (by decide +kernel)
  obtain ⟨d', hd', -⟩ := exists_ok hw
  exact ⟨d, d', readyIn (by decide) (by decide) rfl (by decide), rfl, rfl, rfl, ⟨by decide, by decide⟩, by decide, hd, hd'⟩
/-! ### Traps and queues -/

/-- A frame with one split of lane 0, at the start of region 2. -/
def frameBytes : List Byte := leBytes 64 (2 ^ (8 * 24) + 2 ^ (8 * 32 + 56) + 2 ^ (8 * 40))

/-- The state of a warp in handler mode, with that frame in its handler area. -/
def returnState : Machine.State :=
  let s := trapState (handlerWarp [[]])
  withDev s (s.dev.setMem (Memory.writeBytes s.dev.mem 0x4000000 frameBytes))

theorem meets_ReturnFromTrap : ∃ hd bs d, Ready returnState 0 (handlerWarp [[]]) (splitOf 1 0) (Need.of 4 false 0 0) ∧
    (handlerWarp [[]]).handler = some hd ∧ returnState.dev.earlier (.warp 0) (handlerWarp [[]]).live = [] ∧
    returnState.dev.readVa returnState.host (returnState.dev.slotOf 0) 0 (returnState.dev.handlerBase 0 0) 0x2D00 = .ok (bs, d) ∧
    d.frameFault (handlerWarp [[]]) bs = none := by
  obtain ⟨r, hr, hf⟩ := exists_ok (x := returnState.dev.readVa returnState.host 0 0 (returnState.dev.handlerBase 0 0) 0x2D00)
    (p := fun r => r.2.frameFault (handlerWarp [[]]) r.1 == none) (by decide +kernel)
  exact ⟨_, r.1, r.2, readyIn (by decide) (by decide) rfl (by decide), rfl, by decide, hr, by simpa using hf⟩

/-- A stage whose ports push to queue 0 and pop from it. -/
def stageOf (handover : Option (Nat × Bool × Nat)) (freed : Option Nat) : Stage :=
  ⟨BitVec.ofNat 64 (fetchPage * 4096), 0xFFFFFFFFFFFFFFFF, 1, 1, 4, 1, [some ⟨true, 0⟩, some ⟨false, 0⟩, none, none], handover, 0,
    freed, false, false⟩

/-- A queue of so many records of 16 bytes, with requests. -/
def queueOf (records : Nat) (requests : List QueueRequest) (ended : Bool) (marks : List Nat) : Queue :=
  ⟨0, 16, 4, (List.range records).map fun n => ⟨some (leBytes 16 n), n, 0, []⟩, requests, ended, false, marks⟩

/-- A stage set of one stage and one queue. -/
def setOf (x : Stage) (q : Queue) : StageSet := ⟨1000, 2000, [x], [q], 0, false, true, 0, 0⟩

/-- The state of a launch with a stage set, whose team is in stage 0. -/
def stageState (w : Warp) (q : Queue) : Machine.State :=
  let s := mapped (stateOf w) [(sliceBase, slicePa 0, false)]
  withDev s ((s.dev.setLaunch 0 { fetchLaunch with stages := some (setOf (stageOf none none) q) }).setTeam 0
    { fetchTeam with stage := some 0 })

/-- A warp of two lanes with buffers in the slice, of which the first takes part. -/
def bufferWarp (first : Word) : Warp := warpOf [[0, 0x01800000, first], [16, 0x01800000, 0]]

/-- The state of such a warp, with a record in its queue. -/
def popState : Machine.State := stageState (bufferWarp 1) (queueOf 1 [] false [])

/-- The lanes that take part in it. -/
def popLanes : List (Nat × Dword) := takingPart (bufferWarp 1) (splitOf 2 3)

theorem meets_QueueInstructionResults_push :
    let s := stageState (bufferWarp 1) (queueOf 0 [] false [])
    let s0 := stageState (bufferWarp 0) (queueOf 0 [] false [])
    s.dev.portQueue 0 (0 : BitVec 2).toNat true = some (0, 0) ∧
    Ready s 0 (bufferWarp 1) (splitOf 2 3) (Need.of 4 true 3 0) ∧ takingPart (bufferWarp 1) (splitOf 2 3) ≠ [] ∧
    buffersGood s (bufferWarp 1) (takingPart (bufferWarp 1) (splitOf 2 3)) (s.dev.queue 0 0).recBytes ∧
    s.dev.pushClosed 0 0 0 = false ∧ Ready s0 0 (bufferWarp 0) (splitOf 2 3) (Need.of 4 true 3 0) ∧
    takingPart (bufferWarp 0) (splitOf 2 3) = [] ∧ Ready s 0 (bufferWarp 1) (splitOf 2 3) (Need.of 4 false 0 0) :=
  ⟨by decide, readyIn (by decide) (by decide) rfl (by decide), by decide, by unfold buffersGood; decide, by decide,
    readyIn (by decide) (by decide) rfl (by decide), by decide, readyIn (by decide) (by decide) rfl (by decide)⟩

theorem meets_QueueInstructionResults_pop :
    popState.dev.portQueue 0 (1 : BitVec 2).toNat false = some (0, 0) ∧
    Ready popState 0 (bufferWarp 1) (splitOf 2 3) (Need.of 4 true 3 1) ∧
    buffersGood popState (bufferWarp 1) popLanes (popState.dev.queue 0 0).recBytes ∧
    ((popState.dev.team? 0).map fun t => t.marks.contains 0).getD false = false ∧ popLanes ≠ [] :=
  ⟨by decide, readyIn (by decide) (by decide) rfl (by decide), by unfold buffersGood; decide, by decide, by decide⟩

/-- The same state with a handover mark for the team. -/
def handedState : Machine.State := withDev popState (popState.dev.onTeam 0 fun t => { t with marks := [0] })

theorem meets_QueueInstructionResults_handed :
    handedState.dev.portQueue 0 (1 : BitVec 2).toNat false = some (0, 0) ∧
    Ready handedState 0 (bufferWarp 1) (splitOf 2 3) (Need.of 4 true 3 1) ∧
    buffersGood handedState (bufferWarp 1) popLanes (handedState.dev.queue 0 0).recBytes ∧
    ((handedState.dev.team? 0).map fun t => t.marks.contains 0).getD false = true :=
  ⟨by decide, readyIn (by decide) (by decide) rfl (by decide), by unfold buffersGood; decide, by decide⟩

/-! ### Commands -/

/-- A stream at word 0 of a ring of 1,024 words. -/
def streamOf (wr : Nat) (loops : List (Nat × Nat)) (building : Option Building) : CmdStream :=
  ⟨0x200000, 1024, 0, wr, 0, 0x208000, false, false, loops, building, none, false, 0⟩

/-- A state in which a stream of context 0 has the turn. -/
def commandState (st : CmdStream) : Machine.State :=
  let d := { Dev.reset with issuer := .stream 0 15 }
  mapped { State.reset with dev := d.onContext 0 fun c => { c with state := .open_, streams := [(15, st)] } } dataPages

/-- The ring holds LOOP 0, PHASE and ENDLOOP. -/
def loopState : Machine.State :=
  let s := commandState (streamOf 4 [] none)
  withDev s (s.dev.setMem (Memory.writeBytes s.dev.mem 0x4000000 (leBytes 8 0x020A ++ leBytes 8 0 ++ leBytes 8 0x0107 ++ leBytes 8 0x010B)))

theorem meets_StreamControlResults_loop :
    IssuesCommand loopState 0 15 (streamOf 4 [] none) ∧ (streamOf 4 [] none).loops.length < 4 ∧
    loopState.dev.loopEnd loopState.host 0 (streamOf 4 [] none) ((streamOf 4 [] none).wr - (streamOf 4 [] none).rd)
      ((streamOf 4 [] none).rd + 2) 0 = .ok (some 4) :=
  ⟨⟨by decide, by decide, rfl⟩, by decide, by decide⟩

theorem meets_StreamControlResults_endloop :
    IssuesCommand (commandState (streamOf 4 [(2, 2)] none)) 0 15 (streamOf 4 [(2, 2)] none) ∧
    (streamOf 4 [(2, 2)] none).loops = [(2, 2)] := ⟨⟨by decide, by decide, rfl⟩, rfl⟩

theorem meets_StreamControlResults_memory : ∃ v d d',
    loopState.dev.readValue loopState.host 0 (processorCore 0) (0x200000 : Dword).toNat 8 = .ok (v, d) ∧
    loopState.dev.writeVa loopState.host 0 (processorCore 0) (0x20FFF8 : Dword).toNat (leBytes 8 (5 : Dword).toNat) = .ok d' := by
  obtain ⟨r, hr, -⟩ := exists_ok (x := loopState.dev.readValue loopState.host 0 (processorCore 0) (0x200000 : Dword).toNat 8)
    (p := fun _ => true) (by decide)
  obtain ⟨d', hd, -⟩ := exists_ok
    (x := loopState.dev.writeVa loopState.host 0 (processorCore 0) (0x20FFF8 : Dword).toNat (leBytes 8 (5 : Dword).toNat))
    (p := fun _ => true) (by decide)
  exact ⟨r.1, r.2, d', hr, hd⟩

/-- The state of a stream with an open WAIT for the value 0. -/
def waitState : Machine.State := commandState { streamOf 0 [] none with waiting := some (1, true, 0x200000, 0) }

theorem meets_StreamControlResults_poll : ∃ v d,
    ((waitState.dev.context 0).stream 15).waiting = some (1, true, 0x200000, 0) ∧
    waitState.dev.readValue waitState.host 0 (processorCore 0) (0x200000 : Dword).toNat 8 = .ok (v, d) := by
  obtain ⟨r, hr, -⟩ := exists_ok (x := waitState.dev.readValue waitState.host 0 (processorCore 0) (0x200000 : Dword).toNat 8)
    (p := fun _ => true) (by decide)
  exact ⟨r.1, r.2, by decide, hr⟩

theorem meets_WorkCommandResults_work : ∃ d, nodeForm (.copy 7 0x200000 0x200100 16) = some (7, 4, 0x03, .copy 0x200000 0x200100 16) ∧
    IssuesCommand loopState 0 15 (streamOf 4 [] none) ∧ loopState.dev.workCancelled 0 = false ∧
    (withNode loopState 0 15 (streamOf 4 [] none) 7 0x03 (.copy 0x200000 0x200100 16)).startWork loopState.host 0 loopState.dev.nextId 0 []
      (.copy 0x200000 0x200100 16) = .ok d := by
  obtain ⟨d, hd, -⟩ := exists_ok
    (x := (withNode loopState 0 15 (streamOf 4 [] none) 7 0x03 (.copy 0x200000 0x200100 16)).startWork loopState.host 0
      loopState.dev.nextId 0 [] (.copy 0x200000 0x200100 16)) (p := fun _ => true) (by decide)
  exact ⟨d, rfl, ⟨by decide, by decide, rfl⟩, by decide, hd⟩

theorem meets_WorkCommandResults_graph :
    IssuesCommand loopState 0 15 (streamOf 4 [] none) ∧ (4096 : BitVec 16) ≠ 0 ∧ (4096 : BitVec 16).toNat ≤ 4096 ∧
    (16384 : BitVec 16).toNat ≤ 16384 := ⟨⟨by decide, by decide, rfl⟩, by decide, by decide, by decide⟩

/-- A graph of two nodes and one edge, of which so many nodes have come. -/
def buildingOf (nodes : Nat) : Building :=
  ⟨7, 0, 2, 1, (List.range nodes).map fun n => (n, ⟨7, 2, .copy 0x200000 0x200100 16, 0, [], .waiting, []⟩), []⟩

theorem meets_WorkCommandResults_parts :
    ((commandState (streamOf 9 [] (some (buildingOf 1)))).dev.context 0).stream 15 = streamOf 9 [] (some (buildingOf 1)) ∧
    (1 : BitVec 16).toNat < (buildingOf 1).nodes ∧ (∀ e ∈ (buildingOf 1).gotNodes, e.1 ≠ (1 : BitVec 16).toNat) ∧
    ((commandState (streamOf 9 [] (some (buildingOf 2)))).dev.context 0).stream 15 = streamOf 9 [] (some (buildingOf 2)) ∧
    (buildingOf 2).nodes ≤ (buildingOf 2).gotNodes.length ∧ (0 : BitVec 16).toNat < (buildingOf 2).nodes ∧ (0 : BitVec 16) ≠ 1 ∧
    ((0 : BitVec 16).toNat, (1 : BitVec 16).toNat) ∉ (buildingOf 2).gotEdges := by decide

theorem meets_ContextCommandResults_seal :
    let r : SealRequest := ⟨0x200000, 0x10000, false, .stream 0 15, 0, 1, 0, []⟩
    IssuesCommand loopState 0 15 (streamOf 4 [] none) ∧ (4 : BitVec 3).toNat ≤ 4 ∧
    r.verdict loopState.host (loopState.dev.context 0) = 0 := ⟨⟨by decide, by decide, rfl⟩, by decide, by decide⟩

/-- R361 to R364: an image with one section, TEXT, of 64 bytes, signed with a test key. -/
def image : List Byte :=
  ([0x10001004f5844, 0xbbed0fbeff79a827, 0xcb2abc8bf21e75a0, 0x0, 0xffffffff, 0x140, 0x100, 0x47422ce1f2d1176b] ++
   [0xf240a463e5e6bcf8, 0xa033eb2d817d0377, 0x96c298d84539a1f4, 0x9b7f1afee242e34f, 0x169e0f7c4aebe78e, 0xce5e316b5733ce2b, 0xf551bf376840b6cb, 0x0] ++
   [0x1, 0xc0, 0x40, 0x0, 0x0, 0x0, 0x0, 0x0] ++
   [0x0, 0x0, 0x0, 0x0, 0x0, 0x0, 0x0, 0x0] ++
   [0x47422ce1f2d1176b, 0xf240a463e5e6bcf8, 0xa033eb2d817d0377, 0x96c298d84539a1f4, 0xd0fed0404546fa78, 0x3126850bbcc3cbc6, 0xbe2fef56a78d30a8, 0x49bc9e9c0975866b] : List Nat).flatMap (leBytes 8)

/-- The digest of the image's signed bytes. -/
def imageDigest : Nat := 0xde274525fa4bc88ce0edcd6a7e0e53f312d10262903fc1d76e53bc3c405f9b3

/-- A host function that trusts the test key. -/
def keyHost : HostPart :=
  { HostPart.reset with ready := -1, featActive := 0x7F, keys := [0xd875db7def232236aec738c6b0bb3e80142f5d0fd8f4df24fed6eef5cbb50d9f] }

/-- The object of that image, loaded in context 0. -/
def loadedObject : CodeObject := ⟨imageDigest, 0, 0x0100000000000000, 64, 0, 0, 0, 0, 0, 0xFFFFFFFF, [], [0]⟩

/-- A state in which a stream has the turn, with that object loaded. -/
def objectState : Machine.State :=
  let s := commandState (streamOf 4 [] none)
  { s with host := keyHost, dev := { s.dev with code := [(1, loadedObject)], nextHandle := 2 } }

/-- The same state with the image at 0x20_0000. -/
def loadState : Machine.State :=
  withDev objectState (objectState.dev.setMem (Memory.writeBytes objectState.dev.mem 0x4000000 image))

/-- Partial operations in a row. -/
theorem exists_chain {ε ε' α β γ δ : Type} {x : Except ε α} {f : α → Except ε' β} {g : α → β → Option γ} {k : γ → Except ε δ}
    (h : okAnd x (fun a => okAnd (f a) fun b => (g a b).any fun c => okAnd (k c) fun _ => true) = true) :
    ∃ a b c d, x = .ok a ∧ f a = .ok b ∧ g a b = some c ∧ k c = .ok d := by
  obtain ⟨a, ha, h⟩ := exists_ok h
  obtain ⟨b, hb, h⟩ := exists_ok h
  obtain ⟨c, hc, h⟩ := exists_some h
  obtain ⟨d, hd, -⟩ := exists_ok h
  exact ⟨a, b, c, d, ha, hb, hc, hd⟩

theorem meets_ContextCommandResults_load : IssuesCommand loadState 0 15 (streamOf 4 [] none) ∧ ∃ r c y d4,
    (past loadState.host loadState.dev 0 15 4).readVa loadState.host 0 (processorCore 0) (0x200000 : Dword).toNat (320 : Dword).toNat =
      .ok r ∧
    r.2.checkImage loadState.host r.1 = .ok c ∧
    c.2.2.2.2.placeImage loadState.host 0 c.1 c.2.2.1 c.2.2.2.1 ((sectionOf r.1 c.2.1 3).getD []) = some y ∧
    y.2.2.writeVa loadState.host 0 (processorCore 0) (0x200400 : Dword).toNat (loadReport y.1 y.2.1) = .ok d4 :=
  ⟨⟨by decide, by decide, rfl⟩, exists_chain (by decide +kernel)⟩

theorem meets_ContextCommandResults_unload :
    let d := past objectState.host objectState.dev 0 15 2
    Table.find? d.code (2 : Dword).toNat = none ∧ Table.find? d.code (1 : Dword).toNat = some loadedObject ∧
    ∀ e ∈ d.contexts, d.references e.1 (1 : Dword).toNat loadedObject = false := by decide +kernel

/-- A record of one team of the loaded object's code, at 0x20_0800, that may be rolled back. -/
def recordBytes : List Byte :=
  leBytes 2 1 ++ leBytes 2 1 ++ leBytes 4 1 ++ leBytes 4 1 ++ leBytes 4 1 ++ leBytes 8 1 ++ leBytes 2 16 ++ leBytes 2 0 ++ leBytes 6 0 ++
    leBytes 2 0 ++ leBytes 2 0 ++ leBytes 2 2 ++ leBytes 16 0 ++ leBytes 8 0x0100000000000000 ++ leBytes 8 0x200000 ++ leBytes 8 0

/-- A graph whose node 1 launches that record once node 0 is complete. -/
def launchGraph : Graph :=
  ⟨0, 15, 7, 0x04, 0, [⟨7, 2, .copy 0x200000 0x200100 16, 0, [1], .done, []⟩, ⟨8, 6, .launch 0x200800, 0, [], .waiting, []⟩], false, false⟩

def launchState : Machine.State :=
  withDev objectState
    { objectState.dev.setMem (Memory.writeBytes objectState.dev.mem 0x4000800 recordBytes) with graphs := [(3, launchGraph)] }

theorem meets_LaunchResults_node : ∃ x d, Table.find? launchState.dev.graphs 3 = some launchGraph ∧ launchGraph.nodes[1]? = some x ∧
    launchState.dev.nodeReady launchState.host 0 3 launchGraph x = true ∧
    (launchState.dev.setGraph 3 { launchGraph with nodes := changeAt launchGraph.nodes 1 fun y => { y with state := .running } }).startWork
      launchState.host 0 3 1 x.dropped x.cmd = .ok d := by
  obtain ⟨d, hd, -⟩ := exists_ok
    (x := (launchState.dev.setGraph 3 { launchGraph with nodes := changeAt launchGraph.nodes 1 fun y => { y with state := .running } }).startWork
      launchState.host 0 3 1 [] (.launch 0x200800)) (p := fun _ => true) (by decide +kernel)
  exact ⟨_, d, by decide, rfl, by decide +kernel, hd⟩

theorem meets_LaunchResults_record : ∃ r ss d', launchState.dev.readRecord launchState.host 0 0x200800 none = .ok (r, ss, d') := by
  obtain ⟨r, hr, -⟩ := exists_ok (x := launchState.dev.readRecord launchState.host 0 0x200800 none) (p := fun _ => true) (by decide +kernel)
  exact ⟨r.1, r.2.1, r.2.2, hr⟩

/-- A launch of that record that has failed with the cause of an uncorrectable error. -/
def failedLaunch : Launch :=
  { fetchLaunch with graph := 3, node := 1, record := { fetchRecord with rollback := true }, faulted := true, cause := 0x19 }

def rollbackState : Machine.State :=
  withDev launchState ((launchState.dev.setLaunch 5 failedLaunch).onContext 0 fun c =>
    { c with snapshots := [⟨0x200000, 0x10000, 0x4000000, false⟩] })

theorem meets_LaunchResults_rollback : ∃ x r ss d, rollbackState.dev.launch? 5 = some failedLaunch ∧
    Table.find? rollbackState.dev.graphs failedLaunch.graph = some launchGraph ∧ launchGraph.nodes[failedLaunch.node]? = some x ∧
    failedLaunch.record.rollback = true ∧ failedLaunch.rolled = false ∧ failedLaunch.complete = false ∧ failedLaunch.cancelled = false ∧
    failedLaunch.cause = 0x19 ∧ rollbackState.dev.launchHalted 5 = true ∧ rollbackState.dev.imagesPoisoned rollbackState.host 0 = false ∧
    rereadRecord rollbackState.host (unrolled rollbackState.host rollbackState.dev 5 failedLaunch x) 0 x.cmd = .ok (r, ss, d) := by
  obtain ⟨r, hr, -⟩ := exists_ok
    (x := rereadRecord rollbackState.host (unrolled rollbackState.host rollbackState.dev 5 failedLaunch
      ⟨8, 6, .launch 0x200800, 0, [], .waiting, []⟩) 0 (.launch 0x200800)) (p := fun _ => true) (by decide +kernel)
  exact ⟨_, r.1, r.2.1, r.2.2, by decide, by decide, rfl, rfl, rfl, rfl, rfl, rfl, by decide, by decide, hr⟩


/-- R229: a store of one word by lane 0 of warp 0. -/
def storeAccess : Access :=
  ⟨.warp 0, 0, 0, 1, 0, .st false 0 0, 0x1000, .store, 4, 4, false, 0x200010, [5], [], 0, 4, 0, false, [], [], none, false, false, 0,
    false, none, [], [], 4, []⟩

/-- A state with these accesses under way, and the page of data. -/
def accessState (w : Warp) (as : List (Nat × Access)) : Machine.State :=
  let s := mapped (stateOf w) dataPages
  { s with dev := { s.dev with accesses := as } }

def onWay : Access :=
  { storeAccess with kind := .update 9, bytes := 8, data := [5, 0], va := 0x200018, pa := some 0x4000018, tickets := [7, 8] }

theorem meets_AccessesPerform : memory (accessState (warpOf [[1]]) [(3, onWay)]) ∧
    Performs (accessState (warpOf [[1]]) [(3, onWay)]) 3 onWay 0x4000018 ∧ (onWay.tickets ≠ [] ∨ onWay.regs ≠ []) :=
  ⟨by unfold memory; decide, ⟨by decide, rfl, by decide, fun _ => by decide, fun _ => by decide, fun op h => by
    have : op = 9 := by simpa [onWay] using h.symm
    subst this; decide⟩, .inl (by decide)⟩

/-- A load that has returned. -/
def returnedLoad : Access :=
  { storeAccess with kind := .load, pa := some 0x4000010, tickets := [7], result := some [9], data := [] }

theorem meets_FillResults_load :
    let s := accessState (warpOf [[1]]) [(3, returnedLoad)]
    Table.find? s.dev.accesses 3 = some returnedLoad ∧ returnedLoad.result = some [9] ∧ returnedLoad.cause = 0 ∧
    s.dev.allPerformed returnedLoad.waits = true ∧ returnedLoad.party = .warp 0 ∧ s.dev.warp? 0 = some (warpOf [[1]]) ∧
    (returnedLoad.parts returnedLoad.regs [9]).length ≤ 1 :=
  ⟨rfl, rfl, rfl, by decide, rfl, by decide, by decide⟩

theorem meets_FillResults_context :
    let a : Access := { returnedLoad with party := .fet 0, lane := 32, tickets := [], regs := [63] }
    let s := fetState (fetOf [])
    let s : Machine.State := { s with dev := { s.dev with accesses := [(3, a)] } }
    Table.find? s.dev.accesses 3 = some a ∧ a.result = some [9] ∧ a.cause = 0 ∧ s.dev.allPerformed a.waits = true ∧
    Table.find? s.dev.fets 0 = some (fetOf []) ∧ (a.parts a.regs [9]).length ≤ 1 :=
  ⟨rfl, rfl, rfl, by decide, by decide, by decide⟩

/-- A warp of one lane that waits for a spill engine with its three cells resident. -/
def spillWarp : Warp := { warpOf [[1, 2, 3]] with cur := some { splitOf 1 3 with state := .blocked .transfer } }

theorem meets_FillResults_transfer : ∀ c : Nat, c = 3 ∨ c = 1 →
    let s := stateOf spillWarp
    let old : Forward := ⟨0, false, 0, 1, [], 0⟩
    let s := withDev s (s.dev.onLb 0 0 fun b => { b with transfers := [⟨0, 1, 3, c⟩], forwards := List.replicate 14 old })
    let b := (s.dev.core 0).lb 0
    let lanes := (1 : Mask) &&& spillWarp.live
    b.transfers = [⟨0, 1, 3, c⟩] ∧ s.dev.warp? 0 = some spillWarp ∧ lanes = 1 ∧ spillWarp.handler = none ∧
    (∀ r ∈ s.dev.refillWords 0 spillWarp lanes 3 c, s.dev.poisoned r.2.2 4 = false) ∧ b.forwards.length + (3 - c) ≤ 16 ∧
    (∀ x ∈ spillWarp.threadsOf lanes, ∀ k ∈ (x.stack.take 3).drop c, k.ticket? = none) ∧ (spillWarp.threads.map Thread.lane).Nodup ∧
    b.forwards.head? = some old ∧ 0 ≤ s.dev.clockOf 0 := by
  rintro c (rfl | rfl) <;> exact ⟨rfl, by decide, by decide, rfl, by decide, by decide, by decide, by decide, by decide, by decide⟩

theorem meets_PageResults_walk :
    let s := accessState (warpOf [[1]]) [(3, storeAccess)]
    Table.find? s.dev.accesses 3 = some storeAccess ∧ storeAccess.pa = none ∧ storeAccess.cause = 0 ∧ storeAccess.parked = false ∧
    s.dev.walkPoisoned 0 (dieOf 0) 0x200010 = false ∧ ∃ r, s.dev.translate 0 0 0x200010 .write = .ok r := by
  refine ⟨rfl, rfl, rfl, rfl, by decide, ?_⟩
  obtain ⟨r, hr, -⟩ := exists_ok (x := (accessState (warpOf [[1]]) [(3, storeAccess)]).dev.translate 0 0 0x200010 .write)
    (p := fun _ => true) (by decide)
  exact ⟨r, hr⟩

/-- The same access to a page that is not mapped. -/
def lostAccess : Access := { storeAccess with va := 0x300010 }

theorem meets_PageResults_walk_fails :
    let s := accessState (warpOf [[1]]) [(3, lostAccess)]
    s.dev.walkPoisoned 0 (dieOf 0) 0x300010 = false ∧ (match s.dev.translate 0 0 0x300010 .write with
      | .ok _ => none
      | .error e => some e).isSome = true ∧
    lostAccess.party = .warp 0 ∧ s.dev.warp? 0 = some (warpOf [[1]]) ∧ (warpOf [[1]]).handler = none :=
  ⟨by decide, by decide, rfl, by decide, rfl⟩

/-- The access parked. -/
def parkedAccess : Access := { lostAccess with parked := true }

theorem meets_PageResults_service :
    let a : Access := { storeAccess with parked := true }
    let s := accessState (warpOf [[1]]) [(3, a)]
    a.parked = true ∧ a.served = false ∧ a.lane < 32 ∧ a.pa = none ∧ a.cause = 0 ∧ s.dev.servedAfter a = false ∧
    (∃ pa d, s.dev.reach s.host 0 0 0x200010 .write = (Except.ok pa, d)) ∧
    (s.dev.reach s.host 0 0 0x200010 .write).2.away a.party = false ∧
    ∃ w, (s.dev.reach s.host 0 0 0x200010 .write).2.warp? 0 = some w ∧ w.join = [] ∧ ∀ x ∈ w.splits, x.state ≠ .wsync :=
  ⟨rfl, rfl, by decide, rfl, rfl, by decide, exists_reach (by decide), by decide, warpOf [[1]], by decide, rfl, by decide⟩

theorem meets_PageResults_service_fails :
    let s := accessState (warpOf [[1]]) [(3, parkedAccess)]
    (∃ code va d, s.dev.reach s.host 0 0 0x300010 .write = (Except.error (Failure.fault code va), d)) ∧
    (s.dev.reach s.host 0 0 0x300010 .write).2.warp? 0 = some (warpOf [[1]]) ∧ parkedAccess.lane < 32 ∧
    (warpOf [[1]]).threads ≠ [] ∧ ∀ p ∈ (warpOf [[1]]).posted, p.stamp ≠ parkedAccess.stamp :=
  ⟨exists_fault (by decide), by decide, by decide, by decide, by decide⟩

/-- A warp that waits for the code page 0x200. -/
def codeWarp : Warp := { warpOf [[1]] with cur := some { splitOf 1 1 with pc := 0x200000, state := .blocked (.code 0x200) } }

theorem meets_PageResults_demand :
    let s := stateOf codeWarp
    s.dev.codeWanted 0 0 (0x200 : BitVec 45).toNat = true ∧ (s.dev.core 0).missed 0 (0x200 : BitVec 45).toNat = false ∧
    (∀ e ∈ (s.dev.core 0).segments, e.2.slot = 0 → e.2.page = 0x200 → e.2.state = .free) ∧ s.dev.victim 0 = some 0 :=
  ⟨by decide, by decide, by decide, by decide⟩

/-- A state whose segment 5 is filled with a page of code at 0x20_0000, or with one that is no code. -/
def fillState (x : Bool) : Machine.State :=
  let s := mapped (stateOf codeWarp) []
  let d := (s.dev.mapPage s.host 0 0x200000 (leafEntry 0x4000000 x false true)).getD s.dev
  withDev s (d.onCore 0 fun c => c.onSegment 5 fun _ => ⟨.filling, 0, 0x200, 0, false, 0, false, none⟩)

theorem meets_PageResults_fill : ((((fillState true).dev.core 0).segment 5).state = .filling ∧
    (((fillState true).dev.core 0).segment 5).held = none ∧
    ∃ pa d, (fillState true).dev.reach (fillState true).host 0 0 (0x200 * 4096) .exec = (Except.ok pa, d)) ∧
    (((fillState false).dev.core 0).segment 5).demand = false ∧
    ∃ code va d, (fillState false).dev.reach (fillState false).host 0 0 (0x200 * 4096) .exec =
      (Except.error (Failure.fault code va), d) :=
  ⟨⟨by decide, by decide, exists_reach (by decide)⟩, by decide, exists_fault (by decide)⟩

/-- A state with one request for a seal. -/
def sealState (r : SealRequest) (old : List (Nat × Nat)) : Machine.State :=
  let s := mapped (stateOf (warpOf [[1]])) []
  let d := s.dev.onContext 0 fun c => { c with sealed_ := old }
  withDev s { d with seals := [(4, r)] }

/-- A request for a region of 64 KiB. -/
def sealRequest (base bytes : Nat) (undo : Bool) : SealRequest := ⟨base, bytes, undo, .warp 0, 7, 0, 0, []⟩

theorem meets_SealResults :
    let s := fun r old => sealState r old
    (∀ undo, Table.find? (s (sealRequest 0 0x10000 undo) []).dev.seals 4 = some (sealRequest 0 0x10000 undo) ∧
      (s (sealRequest 0 0x10000 undo) []).dev.warp? 0 = some (warpOf [[1]])) ∧
    (s (sealRequest 0 0x10000 false) []).host.featActive.getLsbD 6 = true ∧
    (s (sealRequest 0 0x10000 false) []).dev.allPerformed
      ((s (sealRequest 0 0x10000 false) []).dev.sealWaits (sealRequest 0 0x10000 false)) = true ∧
    ¬ 0x10000 ≤ (sealRequest 0 0 false).bytes ∧
    64 ≤ ((sealState (sealRequest 0 0x10000 false) (List.replicate 64 (0x1000000, 0x10000))).dev.context 0).sealed_.length ∧
    (∃ e ∈ ((sealState (sealRequest 0 0x10000 false) [(0, 0x20000)]).dev.context 0).sealed_, e.1 < 0 + 0x10000 ∧ 0 < e.1 + e.2) ∧
    (0, 0x10000) ∈ ((sealState (sealRequest 0 0x10000 true) [(0, 0x10000)]).dev.context 0).sealed_ ∧
    (sealState (sealRequest 0 0x10000 true) [(0, 0x10000)]).dev.allPerformed
      ((sealState (sealRequest 0 0x10000 true) [(0, 0x10000)]).dev.sealWaits (sealRequest 0 0x10000 true)) = true ∧
    (0, 0x10000) ∉ ((sealState (sealRequest 0 0x10000 true) []).dev.context 0).sealed_ ∧
    (s (sealRequest 0 0x10000 false) []).dev.halfStored 0 0 0x10000 = false := by
  refine ⟨fun undo => ?_, by decide, by decide, by decide, by decide, by decide, by decide, by decide, by decide, by decide⟩
  cases undo <;> exact ⟨rfl, by decide⟩

theorem meets_WaitsEnd_resume :
    let f : Fet := { fetOf [] with stalled := some (.counter 0 3) }
    Table.find? (fetState f).dev.fets 0 = some f ∧ f.stalled = some (.counter 0 3) ∧ (fetState f).dev.fetResolved f (.counter 0 3) = true :=
  ⟨by decide, rfl, by decide⟩

theorem meets_WaitsEnd_selection :
    let w : Warp := { warpOf [[1]] with cur := none, others := [splitOf 1 1] }
    (stateOf w).dev.warp? 0 = some w ∧ w.place = .resident ∧ w.cur = none ∧
    (∃ x ∈ w.others, ((stateOf w).dev.wake 0 w x).state = .ready) ∧ ((stateOf w).dev.team? w.team).any Team.held = false ∧
    ∀ e ∈ (stateOf w).dev.accesses, e.2.party = .warp 0 → e.2.parked = false :=
  ⟨by decide, rfl, rfl, by decide, by decide, by decide⟩

theorem meets_WaitsEnd_trywait :
    let sp : Split := { splitOf 1 1 with state := .trywait 2 0 0 }
    let w : Warp := { warpOf [[9]] with cur := none, others := [sp], cnt := [0, 0, 1, 0] }
    (stateOf w).dev.warp? 0 = some w ∧ w.others = [sp] ∧ sp.state = .trywait 2 0 0 ∧ w.posted = [] := ⟨by decide, rfl, rfl, rfl⟩

/-- A stream of addresses into channel 2. -/
def addressStream : Stream := ⟨2, 0x200000, 3, 4, 8, 2, 16, 2, 1, [], 0, 0, []⟩

theorem meets_WaitsEnd_stream :
    let f : Fet := { fetOf [] with streams := [addressStream] }
    let d := (fetState f).dev
    Table.find? d.fets 0 = some f ∧ f.streams.find? (fun x => x.ch == 2) = some addressStream ∧ d.teamThreads 0 ≠ [] ∧
    d.streamRoom 0 2 = true ∧ addressStream.pending = [] ∧ d.streamBehind 0 addressStream = false ∧
    ∃ r, Dev.streamReads (fetState f).host (d.slotOf 0) 0 addressStream (d.teamThreads 0) d = .ok r := by
  refine ⟨by decide, rfl, by decide, by decide, rfl, by decide, ?_⟩
  obtain ⟨r, hr, -⟩ := exists_ok (x := Dev.streamReads (fetState { fetOf [] with streams := [addressStream] }).host 0 0 addressStream
    ((fetState { fetOf [] with streams := [addressStream] }).dev.teamThreads 0)
    (fetState { fetOf [] with streams := [addressStream] }).dev) (p := fun _ => true) (by decide)
  exact ⟨r, hr⟩

theorem meets_WaitsEnd_decrement : ∀ fs : List EngineFault, fs = [] ∨ fs = [⟨0x15, []⟩] →
    let o : EngineOp := ⟨.warp 0, 0, 2, 5, 0, 1, [], true, 1, fs⟩
    let s := stateOf (warpOf [[1]])
    let s := withDev s { s.dev with ops := [(4, o), (6, { o with cls := 1, stamp := 2 })] }
    Table.find? s.dev.ops 4 = some o ∧ o.done = true ∧
    (∀ e ∈ s.dev.ops, e.1 ≠ 4 → e.2.party = o.party → e.2.cls = o.cls → o.stamp < e.2.stamp) ∧ o.party = .warp 0 ∧
    s.dev.warp? 0 = some (warpOf [[1]]) ∧ (∀ x ∈ (warpOf [[1]]).others, ∀ c m l, x.state ≠ .trywait c m l) ∧
    (warpOf [[1]]).threads ≠ [] ∧ (warpOf [[1]]).handler = none ∧ (warpOf [[1]]).place = .resident ∧
    ∀ p ∈ (warpOf [[1]]).posted, p.stamp ≠ o.stamp := by
  rintro fs (rfl | rfl) <;>
    exact ⟨rfl, rfl, by decide, rfl, by decide, by simp [warpOf, fetchWarp], by decide, rfl, rfl, by simp [warpOf, fetchWarp]⟩

/-- R387: a device and a warp with one trap that waits for it, and what the entry gives. -/
theorem entersOf {h : HostPart} {d : Dev} {w : Warp} {p : Posted} (hw : d.warp? 0 = some w) (ho : w.handler = none)
    (hp : w.place = .resident) (hq : w.posted = [p]) (hn : Quiet d 0) (hl : (d.launchOf w.team).isSome = true)
    (hx : okAnd ((savedDev d 0 w).areaWritable h (d.slotOf w.team) w.core (d.handlerBase w.team w.w))
      (fun d1 => okAnd (d1.writeVa h (d.slotOf w.team) w.core (d.handlerBase w.team w.w) (trapFrame (savedWarp d 0 w) p []))
        fun _ => true) = true) : ∃ d', Enters h d 0 w p d' := by
  obtain ⟨d1, h1, h2⟩ := exists_ok hx
  obtain ⟨d2, h3, -⟩ := exists_ok h2
  exact ⟨d2, ⟨hw, ho, hp, hq, hn, hl, d1, h1, h3⟩⟩

/-- A trap with a fault record. -/
def recordedTrap : Posted := ⟨5, 0x15, 0, 0, 1, 0, 0, 0, [1, 2]⟩

theorem meets_TrapsAreDelivered_delivery :
    let w : Warp := { warpOf [[1]] with posted := [recordedTrap] }
    recordedTrap.erec ≠ [] ∧ ∃ d', Enters (trapState w).host (trapState w).dev 0 w recordedTrap d' :=
  ⟨by decide, entersOf (by decide) rfl rfl rfl ⟨by decide, by decide⟩ (by decide) (by decide +kernel)⟩

/-- A warp whose split is as old as its limit. -/
def oldWarp : Warp := { warpOf [[1]] with cur := some { splitOf 1 1 with age := 16 }, vlimit := 16 }

theorem meets_TrapsAreDelivered_progress :
    let s := trapState oldWarp
    let p := postedNow s 0x11 1 (splitOf 1 1).pc
    s.dev.warp? 0 = some oldWarp ∧ oldWarp.posted = [] ∧ oldWarp.vlimit ≠ 0 ∧
    sortSplits (oldWarp.splits.filter fun x => decide (oldWarp.vlimit.toNat ≤ x.age) &&
        let st := (s.dev.wake 0 oldWarp x).state
        st == .ready || st == .join || st == .wsync) = [{ splitOf 1 1 with age := 16 }] ∧
    ∃ d, Enters s.host (withTrap s 0 p) 0 { oldWarp with posted := [p] } p d :=
  ⟨by decide, rfl, by decide, by decide, entersOf (by decide) rfl rfl rfl ⟨by decide, by decide⟩ (by decide) (by decide +kernel)⟩

/-- A warp that waits for an entry of channel 3 that nothing will send. -/
def deadWarp : Warp := { warpOf [[1]] with cur := some { splitOf 1 1 with state := .blocked (.channels [(3, 1, false)]) } }

theorem meets_TrapsAreDelivered_empty :
    let s := trapState deadWarp
    let x : Split := { splitOf 1 1 with state := .blocked (.channels [(3, 1, false)]) }
    let p := postedNow s 0x0F 1 x.pc
    s.dev.warp? 0 = some deadWarp ∧ deadWarp.posted = [] ∧ deadWarp.place = .resident ∧ s.dev.channelsDead 0 deadWarp = true ∧
    (sortSplits (deadWarp.splits.map (s.dev.wake 0 deadWarp))).filter (fun y => !y.blockedOn.isEmpty) = [x] ∧
    ∃ d, Enters s.host (withTrap s 0 p) 0 { deadWarp with posted := [p] } p d :=
  ⟨by decide, rfl, rfl, by decide, by decide, entersOf (by decide) rfl rfl rfl ⟨by decide, by decide⟩ (by decide) (by decide +kernel)⟩

/-- A device whose lane block 0 of core 0 has spent its credit. -/
def spent (d : Dev) : Dev := d.onLb 0 0 fun b => { b with credit := 0 }

/-- A state whose barrier 3 has one arrival that has waited for 2^28 cycles. -/
def barrierState : Machine.State :=
  let s := trapState (warpOf [[1]])
  withDev s (spent ((s.dev.onTeam 0 fun t =>
    { t with bars := putAt Barrier.reset t.bars 3 { Barrier.reset with expected := 2, arrived := 1, age := 2 ^ 28 } }).onLaunch 0 fun l =>
      { l with record := { l.record with handlerStack := 0x1F8300 } }))

theorem meets_TrapsAreDelivered_barrier : ∃ t l d, barrierState.dev.team? 0 = some t ∧ barrierState.dev.launchOf 0 = some l ∧
    (t.bars.getD 3 Barrier.reset).arrived ≠ 0 ∧ 2 ^ 28 ≤ (t.bars.getD 3 Barrier.reset).age ∧
    (∀ c ∈ t.cores, barrierState.dev.laneBusy c = false) ∧
    barrierState.dev.writeVa barrierState.host l.slot t.core (barrierState.dev.handlerBase 0 0 + 0x7D40)
      (barrierState.dev.barrierRecord 0 t l 3 (t.bars.getD 3 Barrier.reset)) = .ok d := by
  obtain ⟨t, ht, h⟩ := exists_some (x := barrierState.dev.team? 0) (p := fun t => (barrierState.dev.launchOf 0).any fun l =>
    (t.cores.all fun c => !barrierState.dev.laneBusy c) && decide ((t.bars.getD 3 Barrier.reset).arrived ≠ 0) && decide (2 ^ 28 ≤ (t.bars.getD 3 Barrier.reset).age) &&
      okAnd (barrierState.dev.writeVa barrierState.host l.slot t.core (barrierState.dev.handlerBase 0 0 + 0x7D40)
        (barrierState.dev.barrierRecord 0 t l 3 (t.bars.getD 3 Barrier.reset))) fun _ => true) (by decide +kernel)
  obtain ⟨l, hl, h⟩ := exists_some h
  simp only [Bool.and_eq_true, decide_eq_true_eq] at h
  obtain ⟨d, hd, -⟩ := exists_ok h.2
  exact ⟨t, l, d, ht, hl, h.1.1.2, h.1.2, fun c hc => by simpa using List.all_eq_true.1 h.1.1.1 c hc, hd⟩

/-- An `mma` of one row with its drain. -/
def mmaWork : MatrixWork := .mma 0x200000 2 1 0 1 2 false false true false false true 0x200100 0 0 1

/-- A matrix operation of core 0. -/
def matrixOp (work : MatrixWork) (phase : Phase) (units : List DrainUnit) : MatrixOp := ⟨9, 0, 0, work, phase, units, false⟩

/-- A state whose engine of core 0 holds it. -/
def matrixState (o : MatrixOp) : Machine.State :=
  let s := mapped (recordState (stateOf (warpOf [[]])) blockRecord) [(0x200000, 0x4000000, false), (0x210000, 0x4010000, false)]
  withDev s (s.dev.onCore 0 fun c => { c with engine := [o] })

theorem meets_MatrixEngineResults_array :
    let o := matrixOp mmaWork .queued []
    let d := (matrixState o).dev
    let f : MmaForm := ⟨2, d.opSlot o 0, d.opSlot o 1, false, true, false, false, 1⟩
    (d.core 0).engine.find? (fun o => o.inArray && o.phase == .queued) = some o ∧ d.engineReady 0 o = true ∧
    (∃ payload exps d', d.readA (matrixState o).host 0 0 0x200000 f = .ok ((payload, exps), d') ∧
      ∀ j ∈ opCores 0 false, d'.multiplyPoisoned j f = false) := by
  refine ⟨by decide, by decide, ?_⟩
  obtain ⟨r, hr, h⟩ := exists_ok (x := (matrixState (matrixOp mmaWork .queued [])).dev.readA
    (matrixState (matrixOp mmaWork .queued [])).host 0 0 0x200000
    ⟨2, (matrixState (matrixOp mmaWork .queued [])).dev.opSlot (matrixOp mmaWork .queued []) 0,
      (matrixState (matrixOp mmaWork .queued [])).dev.opSlot (matrixOp mmaWork .queued []) 1, false, true, false, false, 1⟩)
    (p := fun r => (opCores 0 false).all fun j => !r.2.multiplyPoisoned j
      ⟨2, (matrixState (matrixOp mmaWork .queued [])).dev.opSlot (matrixOp mmaWork .queued []) 0,
        (matrixState (matrixOp mmaWork .queued [])).dev.opSlot (matrixOp mmaWork .queued []) 1, false, true, false, false, 1⟩)
    (by decide +kernel)
  exact ⟨r.1.1, r.1.2, r.2, hr, fun j hj => by simpa using List.all_eq_true.1 h j hj⟩

theorem meets_MatrixEngineResults_end :
    ((matrixState (matrixOp mmaWork .array [])).dev.core 0).engine.find? (fun o => o.phase == .array) =
      some (matrixOp mmaWork .array []) := by decide

theorem meets_MatrixEngineResults_bswap :
    let o := matrixOp (.bswap 5 false) .queued []
    ((matrixState o).dev.core 0).engine.find? (fun o => match o.work with
      | .bswap _ _ => true
      | _ => false) = some o ∧ (matrixState o).dev.engineReady 0 o = true := ⟨by decide, by decide⟩

/-- The operation whose array phase has ended. -/
def drainOp : MatrixOp := matrixOp mmaWork .arrayEnded []

theorem meets_MatrixEngineResults_drain : ∃ x, (matrixState drainOp).dev.drainForm drainOp = some x ∧
    (∀ w ∈ checkedWords (((matrixState drainOp).dev.core 0).matrix.program 1), microLegal x.1 w = true) ∧ x.2 = (1, 1) ∧
    ((matrixState drainOp).dev.beginUnit drainOp x.1 1 1 0 0).over = false ∧
    ((matrixState drainOp).dev.core 0).engine.find? (fun o => o.drains && o.phase != .draining && (o.phase == .arrayEnded || !o.inArray) && !o.held) =
      some drainOp ∧
    ((matrixState drainOp).dev.core 0).engine.find? (fun e => e.op == 9) = some drainOp ∧ drainOp.work.paired = false ∧
    drainOp.units = [] ∧ (∀ e ∈ engineBefore 9 ((matrixState drainOp).dev.core 0).engine, e.drains = false ∧ e.inArray = false ∧
      (drainOp.phase = .arrayEnded ∨ e.loads = false)) ∧
    (matrixState drainOp).dev.allPerformed (((Table.find? (matrixState drainOp).dev.ops 9).map EngineOp.deps).getD []) = true ∧
    (matrixState drainOp).dev.programPoisoned 0 1 = false := by
  obtain ⟨x, hx, h⟩ := exists_some (x := (matrixState drainOp).dev.drainForm drainOp)
    (p := fun x => (checkedWords (((matrixState drainOp).dev.core 0).matrix.program 1)).all (microLegal x.1) && x.2 == (1, 1) &&
      !((matrixState drainOp).dev.beginUnit drainOp x.1 1 1 0 0).over) (by decide +kernel)
  simp only [Bool.and_eq_true, beq_iff_eq, Bool.not_eq_true', List.all_eq_true] at h
  exact ⟨x, hx, h.1.1, h.1.2, h.2, by decide, by decide, rfl, rfl, by decide, by decide, by decide⟩

/-- A unit that drains it, and the operation. -/
def drainUnit : DrainUnit := freshUnit 0 2 0 512 1 1 0 1 2

def drainingOp : MatrixOp := matrixOp mmaWork .draining [drainUnit]

/-- R296: a program that stores each element. -/
def storeProgram : Machine.State :=
  let s := matrixState drainingOp
  withDev s (s.dev.onMatrix 0 fun m => { m with programs := [(16, 0x88000000)] })

theorem meets_MatrixEngineResults_element :
    let d := storeProgram.dev
    d.drainingOp 0 = some (0, drainingOp, drainUnit) ∧ (d.drainForm drainingOp).isSome = true ∧
    programWords ((d.core 0).matrix.program 1) = [0x88000000] ∧
    d.elementPoisoned 0 2 0 0 [0x88000000] = false ∧ ∀ f prog rows, d.drainForm drainingOp = some (f, prog, rows) →
      let place : DrainAt := ⟨0, 0, 0, false, Table.get (d.core 0).matrix.nanc (nancKey 2 0) 0⟩
      let r := microRun storeProgram.host 0 0 (d.core 0).matrix f place
        ⟨scaledAccumulator f ((d.core 0).matrix.tile 2 0 0) :: List.replicate 7 0, drainUnit.sums.getD 0 0, drainUnit.maxima.getD 0 0,
          drainUnit.stager, drainUnit.nibbles, none, 0, [], none, d⟩ 0 [0x88000000]
      drainUnit.checked = none ∧ r.stop = none ∧ r.stores ≠ [] ∧
        okAnd (Dev.checkStores storeProgram.host 0 0 (r.elementStores f place) r.d) (fun _ => true) = true := by
  refine ⟨by decide, by decide, by decide, by decide, fun f prog rows h => ?_⟩
  obtain ⟨rfl, -⟩ := Prod.mk.inj (Option.some.inj h)
  decide +kernel

theorem exists_none {α β : Type} {x : Option α × β} (h : x.1.isNone = true) : ∃ b, x = (none, b) :=
  ⟨x.2, Prod.ext (by simpa using h) rfl⟩

/-- The unit once that element has passed its check. -/
def checkedUnit : DrainUnit := { drainUnit with checked := some ([.put 0x200100 [1, 2, 3, 4] 4], 1) }

theorem meets_MatrixEngineResults_store :
    let o := matrixOp mmaWork .draining [checkedUnit]
    let d := (matrixState o).dev
    d.drainingOp 0 = some (0, o, checkedUnit) ∧ (d.drainForm o).isSome = true ∧
    checkedUnit.checked = some ([.put 0x200100 [1, 2, 3, 4] 4], 1) ∧
    ∃ e, Dev.performStores (matrixState o).host 0 0 d [DrainStore.put 0x200100 [1, 2, 3, 4] 4] = (none, e) :=
  ⟨by decide, by decide, rfl, exists_none (by decide +kernel)⟩

theorem meets_MatrixEngineResults_retire : ∀ work phase, (work, phase) ∈
    [(mmaWork, Phase.finished), (.mclr 3 false, .queued), (.dload 0x200000 1 63 1, .queued), (.bload 0x200000 64 15 1 true false 1, .queued)] →
    let o := matrixOp work phase []
    ((matrixState o).dev.core 0).engine.find? (fun x => x.phase == .finished || (x.loads && (matrixState o).dev.engineReady 0 x &&
      match x.work with
        | .bswap _ _ => false
        | _ => true)) = some o := by
  intro work phase h
  simp only [List.mem_cons, List.not_mem_nil, Prod.mk.injEq, or_false] at h
  obtain ⟨rfl, rfl⟩ | ⟨rfl, rfl⟩ | ⟨rfl, rfl⟩ | ⟨rfl, rfl⟩ := h <;> decide

theorem meets_MatrixEngineResults_dload :
    let o := matrixOp (.dload 0x200000 1 63 1) .queued []
    ∃ r, (matrixState o).dev.readVa (matrixState o).host 0 0 0x200000 (1 * drainRecordWords 1 * 4) = .ok r := by
  obtain ⟨r, hr, -⟩ := exists_ok (x := (matrixState (matrixOp (.dload 0x200000 1 63 1) .queued [])).dev.readVa
    (matrixState (matrixOp (.dload 0x200000 1 63 1) .queued [])).host 0 0 0x200000 (1 * drainRecordWords 1 * 4))
    (p := fun _ => true) (by decide)
  exact ⟨r, hr⟩

theorem meets_TileResults : (⟨2, blockRecord.slot 0, blockRecord.slot 1, false, true, false, false, 16⟩ : MmaForm).rows ≤ 16 ∧
    511 / 512 < tilesOf 0x21 := by decide

/-- R304: a layout of a one-dimensional tensor of FP32 at 0x20_0200, with rings at 0x20_0400. -/
def layoutBytes : List Byte :=
  leBytes 1 1 ++ leBytes 1 0 ++ leBytes 1 2 ++ leBytes 1 1 ++ leBytes 4 0 ++ leBytes 8 0x200200 ++ leBytes 4 4 ++
    (List.replicate 5 (leBytes 4 1)).flatten ++ leBytes 40 0 ++ leBytes 2 2 ++ (List.replicate 5 (leBytes 2 1)).flatten ++ leBytes 4 0 ++
    leBytes 8 0x200400 ++ leBytes 24 0

/-- A tile copy of one coordinate out of the slice. -/
def tileOut : Instr := .tcopy 0 2 true 1 0 false 0 1 7

/-- The copy, queued or started, and its operation. -/
def tileJob (started : Bool) : Copy :=
  ⟨9, 0, 0, 0, 0, 0, .tile tileOut [1] 0x200000 0x200300, 1, 7, started, if started then some layoutBytes else none, false⟩

def copyOp : EngineOp := ⟨.warp 0, 0, 0, 5, 0, 1, [], false, 0, []⟩

/-- A state with the copy. -/
def copyState (c : Copy) : Machine.State :=
  let s := mapped (recordState (stateOf (warpOf [[]])) blockRecord) dataPages
  withDev s { s.dev with ops := [(9, copyOp)], copies := [(9, c)] }

theorem meets_CopyEngineResults_start :
    let s := copyState (tileJob false)
    Table.find? s.dev.copies 9 = some (tileJob false) ∧ Table.find? s.dev.ops 9 = some copyOp ∧
    s.dev.allPerformed copyOp.deps = true ∧ ∃ r, s.dev.readVa s.host 0 0 0x200000 128 = .ok r := by
  refine ⟨rfl, rfl, by decide, ?_⟩
  obtain ⟨r, hr, -⟩ := exists_ok (x := (copyState (tileJob false)).dev.readVa (copyState (tileJob false)).host 0 0 0x200000 128)
    (p := fun _ => true) (by decide +kernel)
  exact ⟨r, hr⟩

/-- R304: a ring's record can be written after the move. -/
theorem meets_CopyEngineResults_complete :
    let s := copyState (tileJob true)
    (s.dev.launch? 0).isSome = true ∧ okAnd ((copyJob blockRecord tileOut [1] 0x200000 0x200300 (readLayout layoutBytes)).run s.host 0 0
      s.dev) (fun e => e.ring == some (0x200400, 1) && (e.d.team? 0).any fun t => okAnd ((e.d.onTeam 0 fun t => { t with rings := putAt 0 t.rings 1 (t.rings.getD 1 0 + 1) }).writeVa s.host 0 0
        (BitVec.ofNat 64 (0x200400 + ((8 * t.index + 1) * 2 ^ 1 + t.rings.getD 1 0 % 2 ^ 1) * 32)).toNat
        (completionRecord 7 e.status e.rflags (t.rings.getD 1 0) e.bytes (detailOf e.status e.code e.va e.clipped) (e.d.clockOf 0)))
        fun _ => true) = true := by decide +kernel

theorem exists_fst {α β : Type} {x : α × Option β} (h : x.2.isNone = true) : ∃ a, x = (a, none) :=
  ⟨x.1, Prod.ext rfl (by simpa using h)⟩

/-- A COPY of a stream, of one byte. -/
def byteJob (started : Bool) : Copy := ⟨9, 0, 0, 0, 0, 0, .bytes 0x200000 0x200001 1, 0, 0, started, none, false⟩

theorem meets_CopyEngineResults_bytes :
    let s := mapped (stateOf (warpOf [[]])) dataPages
    let d : Dev := { s.dev with copies := [(9, byteJob true)] }
    Table.find? d.ops 9 = none ∧ ∃ d', Dev.copyBytesFrom s.host 0 0 0x200000 0x200001
      (byKey (Config.copyKey d.free) (List.range (1 : Dword).toNat)) { d with free := d.free + 1 } = (d', none) :=
  ⟨by decide, exists_fst (by decide +kernel)⟩

/-- A warp of one lane whose split waits in a queue request. -/
def queueWarp : Warp :=
  { warpOf [[0, 0x01800000, 1]] with cur := none, last := 1, others := [{ splitOf 1 3 with state := .queue 5 }] }

/-- Its request. -/
def queueRequest (push : Bool) : QueueRequest := ⟨5, 0, push, [(0, 0x0180000000000000)], [], [], none, false⟩

theorem meets_QueueUnitResults_grant :
    let s := stageState queueWarp (queueOf 1 [queueRequest true] false [])
    let u := s.dev.queue 0 0
    u.requests.find? (fun r => r.push && r.poll.isNone && !r.held) = some (queueRequest true) ∧
    s.dev.requestOf (queueRequest true) = some (queueWarp, { splitOf 1 3 with state := .queue 5 }) ∧
    (queueRequest true).lanes.length ≤ u.capacity - u.records.length ∧
    s.dev.allPerformed (queueRequest true).deps = true ∧
    ∃ r, Dev.readRecords s.host (s.dev.slotOf 0) 0 u.recBytes (queueRequest true).lanes s.dev = .ok r := by
  refine ⟨by decide, by decide, by decide, by decide, ?_⟩
  obtain ⟨r, hr, -⟩ := exists_ok (x := Dev.readRecords (stageState queueWarp (queueOf 1 [queueRequest true] false [])).host
    ((stageState queueWarp (queueOf 1 [queueRequest true] false [])).dev.slotOf 0) 0
    ((stageState queueWarp (queueOf 1 [queueRequest true] false [])).dev.queue 0 0).recBytes (queueRequest true).lanes
    (stageState queueWarp (queueOf 1 [queueRequest true] false [])).dev) (p := fun _ => true) (by decide)
  exact ⟨r, hr⟩

/-- Its queue with one record, or ended with none. -/
def popUnit (ended : Bool) : Machine.State :=
  stageState queueWarp (queueOf (if ended then 0 else 1) [queueRequest false] ended [])

theorem meets_QueueUnitResults_pop : ∀ ended : Bool,
    let s := popUnit ended
    let u := s.dev.queue 0 0
    u.requests.find? (fun r => !r.push && r.poll.isNone && !r.held) = some (queueRequest false) ∧
    (s.dev.team? 0).any (fun t => !t.marks.contains 0) = true ∧
    s.dev.requestOf (queueRequest false) = some (queueWarp, { splitOf 1 3 with state := .queue 5 }) ∧
    ((queueRequest false).lanes.length ≤ u.records.length ∨ u.ended = true) ∧
    okAnd (Dev.checkBuffers s.host (s.dev.slotOf 0) 0 u.recBytes
      (((queueRequest false).lanes.take (min 1 u.records.length)).map Prod.snd) s.dev) (fun _ => true) = true := by decide +kernel

/-- Its team with the handover mark of queue 0. -/
def handedOver : Machine.State := withDev (popUnit false) ((popUnit false).dev.onTeam 0 fun t => { t with marks := [0] })

theorem meets_QueueUnitResults_handedOver :
    ((handedOver.dev.queue 0 0).requests.find? fun r => !r.push && r.poll.isNone && !r.held) = some (queueRequest false) ∧
    handedOver.dev.requestOf (queueRequest false) = some (queueWarp, { splitOf 1 3 with state := .queue 5 }) ∧
    (handedOver.dev.team? 0).any (fun t => t.marks.contains 0) = true := by decide

/-- A `qtry` that leaves its hold window, of a team with the mark or without it, and with a record or without. -/
def pollRequest : QueueRequest := ⟨5, 0, false, [(0, 0x0180000000000000)], [], [], some (1, 0), true⟩

def pollState (records : Nat) (marks : List Nat) : Machine.State :=
  let s := stageState queueWarp (queueOf records [pollRequest] false [])
  withDev s (s.dev.onTeam 0 fun t => { t with marks := marks })

theorem meets_QueueUnitResults_poll : ∀ records marks, (records, marks) ∈ [(0, []), (1, []), (0, [0])] →
    let s := pollState records marks
    OwnName s.dev 5 ∧ s.dev.requestNamed 5 = some (0, 0, pollRequest) ∧ (s.dev.queue 0 0).requests = [pollRequest] ∧
    pollRequest.poll = some (1, 0) ∧ s.dev.warp? 0 = some queueWarp ∧ (s.dev.team? 0).map Team.marks = some marks := by
  intro records marks h
  simp only [List.mem_cons, List.not_mem_nil, Prod.mk.injEq, or_false] at h
  obtain ⟨rfl, rfl⟩ | ⟨rfl, rfl⟩ | ⟨rfl, rfl⟩ := h <;> exact ⟨⟨by decide, by decide, by decide, by decide⟩, by decide, by decide, rfl, by decide, by decide⟩

/-- A copy of a record of queue 0 to the slice. -/
def copyUnderWay : QueueCopy := ⟨0, 0, 0x0180000000000000, 0, ⟨some (leBytes 16 7), 3, 0, []⟩, 8, [(0, 0)], 0, 8, []⟩

def copyingState : Machine.State :=
  withDev (popUnit false) { (popUnit false).dev with queueCopies := [copyUnderWay] }

theorem meets_QueueUnitResults_copy : ∃ d, copyingState.dev.queueCopies[0]? = some copyUnderWay ∧
    copyingState.dev.allPerformed copyUnderWay.deps = true ∧
    ({ copyingState.dev with queueCopies := [] } : Dev).writeVa copyingState.host 0 0 0x0180000000000000 (leBytes 16 7) = .ok d := by
  obtain ⟨d, hd, -⟩ := exists_ok (x := ({ copyingState.dev with queueCopies := [] } : Dev).writeVa copyingState.host 0 0
    0x0180000000000000 (leBytes 16 7)) (p := fun _ => true) (by decide +kernel)
  exact ⟨d, by decide, by decide, hd⟩

theorem meets_QueueUnitResults_mark :
    let s0 := stageState queueWarp (queueOf 0 [] false [0])
    let s := stageState queueWarp (queueOf 0 [queueRequest false] false [0])
    (s0.dev.queue 0 0).marks = [0] ∧ (∀ r ∈ (s0.dev.queue 0 0).requests, r.push = true) ∧ (queueRequest false).poll = none ∧ (queueRequest false).held = false ∧
    (s.dev.queue 0 0).requests = [queueRequest false] ∧
    s.dev.requestOf (queueRequest false) = some (queueWarp, { splitOf 1 3 with state := .queue 5 }) ∧ queueWarp.team = 0 :=
  ⟨by decide, by decide, rfl, rfl, by decide, by decide, rfl⟩

/-- R349: the descriptor of an operation of group 3, on one word. -/
def collBytes (op vexp : Nat) : List Byte :=
  leBytes 1 op ++ leBytes 1 0x18 ++ leBytes 2 0 ++ leBytes 1 0 ++ leBytes 1 1 ++ leBytes 2 3 ++ leBytes 8 1 ++ leBytes 8 0x200200 ++
    leBytes 8 0x200300 ++ leBytes 8 vexp ++ leBytes 8 0 ++ leBytes 8 0x200400 ++ leBytes 72 0

/-- Group 3, with modules 0 and 1. -/
def groupOf (round : Option Round) (rejoin : Option (Dword × Nat)) : Group := ⟨1, [0, 1], [], 4, round, false, rejoin, []⟩

/-- A collective under way. -/
def collOf (op : Nat) (accepted : Bool) (given : List (Nat × Contribution)) (acks : List Nat) : Coll :=
  ⟨9, 0, 0, 0x200000, 1, 7, accepted, if accepted then collBytes op 0 else [], 3, 4, 1, 1, [0, 1], [0, 1], 0, false, none, given, acks, false⟩

/-- A state with a collective and a group. -/
def collState (c : Coll) (bytes : List Byte) (g : Group) : Machine.State :=
  let s := mapped (stateOf (warpOf [[]])) dataPages
  let d := s.dev.onContext 0 fun c => { c with groups := [(3, g)] }
  let o : EngineOp := ⟨.warp 0, 0, 3, 5, 0, 1, [], false, 0, []⟩
  withDev s { d.setMem (Memory.writeBytes d.mem 0x4000000 bytes) with colls := [(9, c)], ops := [(9, o)] }

/-- What module 1 gives to the operation. -/
def contribution (op words : Nat) : Contribution := ⟨BitVec.ofNat 8 op, 0x18, 0, 0, 1, 0, leBytes (4 * words) 5⟩

theorem meets_CollectiveResults_accept : ∀ vexp : Nat, vexp = 0 ∨ vexp = 2 →
    let s := collState (collOf 2 false [] []) (collBytes 2 vexp) (groupOf none none)
    let f := readColl (collBytes 2 vexp)
    s.dev.nextColl s.host s.dev.colls = some (9, collOf 2 false [] []) ∧
    okAnd (s.dev.readVa s.host 0 (s.dev.collCore 9) 0x200000 128) (fun r => r.1 == collBytes 2 vexp &&
      Table.find? (r.2.context 0).groups f.group.toNat == some (groupOf none none)) = true ∧ s.host.featActive.getLsbD 3 = true ∧
    f.valid 2 = true ∧ f.inPlace = false ∧ (f.vexp = 0 ∨ (f.vexp ≠ 0 ∧ f.vexp ≠ f.group ++ (1 : BitVec 48))) := by
  rintro vexp (rfl | rfl) <;> decide +kernel

theorem meets_CollectiveResults_complete : ∀ op words : Nat, (op, words) ∈ [(2, 1), (3, 0), (4, 2)] →
    let c := collOf op true [(1, contribution op words)] [1]
    let s := collState c [] (groupOf none none)
    let f := readColl c.bytes
    c.accepted = true ∧ (∀ m ∈ c.members, m = s.host.module ∨ ((∃ g ∈ c.given, g.1 = m) ∧ m ∈ c.acks)) ∧
    (∀ g ∈ c.given, g.1 = s.host.module ∨ f.matches g.2 = true) ∧ f.op = op ∧
    okAnd (s.dev.ownBytes s.host 9 c f) (fun own =>
      (if op = 3 then (given c own.1 0 0).length == 4 && rankIn c.members (moduleAt c.first f.root) == 0
      else (List.range 2).all fun r => (given c own.1 0 r).length == if op = 4 then 8 else 4) &&
      okAnd ({ own.2 with free := own.2.free + 1 }.writeVa s.host 0 (own.2.collCore 9) f.dbuf.toNat (leBytes 8 0)) fun _ => true) =
        true := by
  intro op words h
  simp only [List.mem_cons, List.not_mem_nil, Prod.mk.injEq, or_false] at h
  obtain ⟨rfl, rfl⟩ | ⟨rfl, rfl⟩ | ⟨rfl, rfl⟩ := h <;> decide +kernel

theorem meets_CollectiveResults_flit :
    let c := collOf 2 true [] []
    let s := collState c [] (groupOf none none)
    let f : CollectiveFlit := ⟨0, 3, 1, 4, 1, .contribution (contribution 2 1)⟩
    flitFor s.dev f 9 c ∧ f.sender ∈ c.members ∧ f.sender ≠ s.host.module ∧ f.sender ∉ c.acks ∧ (∀ g ∈ c.given, g.1 ≠ f.sender) ∧
    (contribution 2 1).data.length = (contribution 2 1).count.toNat * (elementBits (contribution 2 1).etype.toNat / 8) * 1 ∧
    ∀ e ∈ s.dev.colls, e.2.gen ≠ (⟨0, 3, 2, 4, 1, .lastAcknowledged⟩ : CollectiveFlit).gen :=
  ⟨by unfold flitFor; decide, by decide, by decide, by decide, by decide, by decide, by decide⟩

theorem meets_CollectiveResults_sum : (readColl (leBytes 1 0 ++ (collBytes 0 0).drop 1)).etype = 0x18 ∧
    (readColl (collBytes 0 0)).redop = 0 ∧ (readColl (collBytes 0 0)).policy ≠ 1 := by decide

/-- A state with group 3 alone. -/
def groupState (g : Group) : Machine.State :=
  let s := stateOf (warpOf [[]])
  withDev s { s.dev with contexts := [(0, { Context.reset with groups := [(3, g)] })] }

theorem meets_MembershipResults_lost :
    let three : Group := { groupOf none none with members := [0, 1, 2] }
    1 ≠ (groupState three).host.module ∧
    (∀ e ∈ (groupState three).dev.contexts, ∀ x ∈ e.2.groups, x.1 < 2 ^ 16 ∧
      (x.2.detached = true ∨ x.2.majority (x.2.liveMembers.filter (· ≠ 1)) = true)) ∧
    (groupState (groupOf none none)).dev.contexts = [(0, { Context.reset with groups := [(3, groupOf none none)] })] ∧
    1 ∈ (groupOf none none).members ∧ (groupOf none none).detached = false ∧
    (groupOf none none).majority ((groupOf none none).liveMembers.filter (· ≠ 1)) = false := by decide

/-- A round of the module and one that joins. -/
def roundOf (committed : Bool) : Round := ⟨[0, 1, 2], 2, 4, [0, 1, 2], committed⟩

theorem meets_MembershipResults_round :
    let g := groupOf (some (roundOf false)) none
    let s := groupState g
    Table.find? (s.dev.context 0).groups (3 : BitVec 16).toNat = some g ∧ (∀ r, g.round = some r → r.committed = false) ∧
    s.host.module ∈ [0, 1] ∧ g.next ≤ 4 ∧ (∀ m ∈ [0, 1], m ∉ g.lost) ∧ 1 ∈ (roundOf false).members ∧
    1 ∉ ({ roundOf false with acks := [] } : Round).acks ∧
    g.members.length < 2 * (g.members.filter (· ∈ (roundOf false).members)).length ∧
    (if g.coordinator = some s.host.module then ∀ m ∈ (roundOf false).members, m ∈ (roundOf false).acks
      else s.host.module ∈ (roundOf false).acks) ∧
    2 * (g.members.filter (· ∈ ([0] : List Nat))).length ≤ g.members.length :=
  ⟨by decide, fun r h => by obtain rfl := Option.some.inj h; rfl, by decide, by decide, by decide, by decide, by decide, by decide,
    by decide, by decide⟩

theorem meets_MembershipResults_install :
    let g := groupOf (some (roundOf true)) none
    g.round = some (roundOf true) ∧ (roundOf true).committed = true ∧ g.next = (roundOf true).cut ∧
    (∀ m ∈ g.members, m ∈ (roundOf true).members) ∧ ∃ m ∈ g.members, m ∉ ({ roundOf true with members := [0, 2] } : Round).members := by
  decide

theorem meets_MembershipResults_rejoin :
    let g := groupOf none (some (3, 0))
    let s := groupState g
    s.host.module = 0 ∧ g.rejoin ≠ none ∧ g.rejoin = some (3, 0) ∧ Table.find? (s.dev.context 0).groups (4 : BitVec 16).toNat = none := by
  decide

/-- The object that the first launch runs. -/
def gridObject : CodeObject := ⟨7, 0, BitVec.ofNat 64 (fetchPage * 4096), 64, 0, 0, 0, 0, 0, 0xFFFFFFFF, [], [0]⟩

/-- A state with a launch of two teams of that object, of which the second is to be placed; core 1 is empty. -/
def gridLaunch : Launch := { fetchLaunch with record := { fetchRecord with grid := (2, 1, 1) } }

def gridState : Machine.State :=
  let s := mapped (stateOf (warpOf [[]])) []
  withDev s { (s.dev.setLaunch 0 gridLaunch) with code := [(1, gridObject)] }

theorem meets_TeamStartResults_place : ∃ f x, gridState.dev.launch? 0 = some gridLaunch ∧ gridLaunch.complete = false ∧
    gridLaunch.cancelled = false ∧ gridLaunch.stages = none ∧ (gridState.dev.context gridLaunch.slot).state = .open_ ∧
    gridLaunch.again = [] ∧ gridLaunch.next < gridLaunch.record.teams ∧
    gridState.dev.skipsTeam 0 gridLaunch 1 = false ∧ gridState.dev.gridForm gridLaunch = some f ∧
    gridState.dev.startTeam gridState.host 0 gridLaunch 1 1 f = some x := by
  obtain ⟨f, hf, h⟩ := exists_some (x := gridState.dev.gridForm gridLaunch)
    (p := fun f => (gridState.dev.startTeam gridState.host 0 gridLaunch 1 1 f).any fun _ => true) (by decide +kernel)
  obtain ⟨x, hx, -⟩ := exists_some h
  exact ⟨f, x, by decide, rfl, rfl, rfl, by decide, rfl, by decide, by decide, hf, hx⟩

/-- A launch with a stage set that has not started, of one stage. -/
def waitingSet : StageSet := { setOf (stageOf none none) (queueOf 0 [] false []) with started := false }

def stageLaunch (ss : StageSet) : Launch := { fetchLaunch with stages := some ss }

/-- The state with that set. -/
def setState (ss : StageSet) : Machine.State :=
  let s := mapped (stateOf (warpOf [[]])) []
  withDev s (s.dev.setLaunch 0 (stageLaunch ss))

theorem meets_TeamStartResults_set : ∃ d d', (setState waitingSet).dev.launch? 0 = some (stageLaunch waitingSet) ∧
    [1].length = waitingSet.initial.length ∧ [1].Nodup ∧
    Dev.startStages (setState waitingSet).host 0 (stageLaunch waitingSet) waitingSet ((List.range [1].length).zip (waitingSet.initial.zip [1]))
      (setState waitingSet).dev = some d ∧
    Dev.reserveQueues 0 0 ((List.range waitingSet.queues.length).zip waitingSet.queues) d = some d' := by
  obtain ⟨d, hd, h⟩ := exists_some (x := Dev.startStages (setState waitingSet).host 0 (stageLaunch waitingSet) waitingSet
      ((List.range [1].length).zip (waitingSet.initial.zip [1])) (setState waitingSet).dev)
    (p := fun d => (Dev.reserveQueues 0 0 ((List.range waitingSet.queues.length).zip waitingSet.queues) d).any fun _ => true)
    (by decide +kernel)
  obtain ⟨d', hd', -⟩ := exists_some h
  exact ⟨d, d', by decide, by decide, by decide, hd, hd'⟩

/-- A set whose stage takes over core 1. -/
def takingSet : StageSet := setOf (stageOf (some (0, false, 4)) (some 1)) (queueOf 0 [] false [])

theorem meets_TeamStartResults_taken : ∃ x, takingSet.stages[0]? = some (stageOf (some (0, false, 4)) (some 1)) ∧
    takingSet.closing (stageOf (some (0, false, 4)) (some 1)) = false ∧
    (setState takingSet).dev.startTeam (setState takingSet).host 0 (stageLaunch takingSet) (stageLaunch takingSet).next 1
      ((stageOf (some (0, false, 4)) (some 1)).form 0) = some x := by
  obtain ⟨x, hx, -⟩ := exists_some (x := (setState takingSet).dev.startTeam (setState takingSet).host 0 (stageLaunch takingSet) 1 1
      ((stageOf (some (0, false, 4)) (some 1)).form 0)) (p := fun _ => true) (by decide +kernel)
  exact ⟨x, rfl, by decide, hx⟩

/-- A lane block with an active warp that waits in a queue, and a pending warp that could issue. -/
def swapPair : Machine.State :=
  let s := stateOf queueWarp
  withDev s ((s.dev.setWarp 5 (warpOf [[1]])).onLb 0 0 fun b => { b with active := [0], pending := [5] })

theorem meets_PlacementResults_swap :
    ((swapPair.dev.core 0).lb 0).active.find? (fun id => (swapPair.dev.warp? id).any (swapPair.dev.stands id)) = some 0 ∧
    ((swapPair.dev.core 0).lb 0).pending.find? swapPair.dev.couldIssue = some 5 := by decide

/-- Core 0 is full, with the warp of a context of priority 0, and a launch of a context of priority 1 waits. -/
def fullState : Machine.State :=
  let s := mapped (stateOf (warpOf [[1]])) []
  let d := s.dev.onContext 1 fun c => { c with state := .open_, streams := [(0, { streamOf 0 [] none with priority := 1 })], roots := [0x2000000] }
  let d := { d with graphs := [(3, ⟨1, 0, 7, 0x04, 0, [], false, false⟩)], code := [(1, gridObject)] }
  let d := d.setLaunch 7 { fetchLaunch with slot := 1, graph := 3, next := 0 }
  withDev s (d.onCore 0 fun c =>
    { c with lbs := (List.range 4).map fun n => (n, { c.lb n with active := List.replicate 8 0, pending := List.replicate 16 0 }) })

theorem meets_PlacementResults_evict : ∃ l d, fullState.dev.launch? 7 = some l ∧
    (teamCores 0 (l.record.pair && l.stages.isNone)).find? (fullState.dev.lacking fullState.host 7 l 0) = some 0 ∧
    fullState.dev.nextVictim 0 (fullState.dev.waitingPriority l.slot) = some 0 ∧ fullState.dev.warp? 0 = some (warpOf [[1]]) ∧
    fullState.dev.evictable 0 (warpOf [[1]]) = true ∧ fullState.dev.evict fullState.host 0 false = some d := by
  obtain ⟨l, hl, h⟩ := exists_some (x := fullState.dev.launch? 7) (p := fun l =>
    (teamCores 0 (l.record.pair && l.stages.isNone)).find? (fullState.dev.lacking fullState.host 7 l 0) == some 0 &&
      fullState.dev.nextVictim 0 (fullState.dev.waitingPriority l.slot) == some 0) (by decide +kernel)
  obtain ⟨d, hd, -⟩ := exists_some (x := fullState.dev.evict fullState.host 0 false) (p := fun _ => true) (by decide +kernel)
  simp only [Bool.and_eq_true, beq_iff_eq] at h
  exact ⟨l, d, hl, h.1, h.2, by decide, by decide, hd⟩

theorem meets_PlacementResults_slice :
    let mine := fullState.dev.warps.filter fun e =>
      e.2.core == 0 && e.2.place == .resident && !e.2.threads.isEmpty && fullState.dev.slotOf e.2.team == 0
    (∀ e ∈ mine, fullState.dev.evictable e.1 e.2 = true) ∧
    (Dev.evictAll fullState.host false (mine.map Prod.fst) fullState.dev).isSome = true :=
  ⟨by decide, by decide +kernel⟩

/-- A warp that has left core 0, of a launch whose warps have 16 cells and 16 frame slots. -/
def awayWarp : Warp := { warpOf [[1]] with place := .evicted }

def awayState : Machine.State :=
  let s := mapped (stateOf awayWarp) []
  withDev s ((s.dev.setLaunch 0 { fetchLaunch with record := { fetchRecord with stackLimit := 16, frameSlots := 16 } }).onCore 0 fun c =>
    { c with reserved := [], lbs := (List.range 4).map fun n => (n, { c.lb n with active := [] }) })

theorem meets_PlacementResults_resume : ∃ d d' x, awayState.dev.warp? 0 = some awayWarp ∧ awayWarp.place = .evicted ∧
    awayWarp.threads ≠ [] ∧ awayState.dev.homeCore awayWarp = 0 ∧ ((awayState.dev.core 0).lb 3).used < 24 ∧
    awayState.dev.contextFits 0 0 = true ∧ awayState.dev.warpSlot 0 0 3 (some 0) = some 0 ∧
    awayState.dev.claimAll awayState.host 0 (teamCores 0 ((awayState.dev.team? 0).any fun t => t.follower.isSome)) = some d ∧
    d.teamReturns awayState.host 0 0 = some d' ∧ d'.warp? 0 = some x := by
  obtain ⟨d, hd, h⟩ := exists_some
    (x := awayState.dev.claimAll awayState.host 0 (teamCores 0 ((awayState.dev.team? 0).any fun t => t.follower.isSome)))
    (p := fun d => (d.teamReturns awayState.host 0 0).any fun d => (d.warp? 0).any fun _ => true)
    (by decide +kernel)
  obtain ⟨d', hd', h⟩ := exists_some h
  obtain ⟨x, hx, -⟩ := exists_some h
  exact ⟨d, d', x, by decide, rfl, by decide, by decide, by decide, by decide, by decide, hd, hd', hx⟩

/-- A team of an idempotent launch that has ended. -/
def endedState : Machine.State :=
  withDev gridState (((gridState.dev.setLaunch 0 { gridLaunch with record := { gridLaunch.record with idempotent := true } }).setTeam 0
    { fetchTeam with ended := true }).setWarp 0 { fetchWarp with threads := [], cur := none })

theorem meets_PlacementResults_again : ∃ t l, endedState.dev.team? 0 = some t ∧ endedState.dev.launchOf 0 = some l ∧ t.ended = true ∧
    l.record.idempotent = true ∧ t.index ∉ l.relaunched ∧ l.cancelled = false ∧ endedState.dev.teamCounter 0 = 0 ∧
    endedState.dev.sharedUsed 0 t = false ∧ t.stage = none ∧ (endedState.dev.gridForm l).isSome = true :=
  ⟨_, _, rfl, rfl, by decide, by decide, by decide, by decide, by decide, by decide, by decide, by decide⟩

/-- A state with the page of data. -/
def pageState : Machine.State := mapped (stateOf (warpOf [[1]])) dataPages

theorem meets_PlacementResults_page : okAnd (pageState.dev.walk 0 0 0x200000) (fun x => x.1 == 4 && !pteX x.2.2 &&
      !pageState.dev.frameUsed (ptePa x.2.2) && (pageState.dev.takeFrame pageState.host 0).any fun y =>
        (((y.2.movePage (ptePa x.2.2) y.1).onContext 0 fun c =>
          { c with snapshots := c.snapshots.map fun t => if t.copied then t else { t with pa := movedTo (ptePa x.2.2) y.1 t.pa } }).mapPage
            pageState.host 0 0x200000 ((x.2.2 &&& 0xFFF000000000FFFF#64) ||| leafEntry y.1 false false false)).isSome) = true ∧
    pageState.dev.objectPage 0 0x200000 = false ∧ inWindow 0x200000 = false := by decide +kernel

theorem meets_PlacementResults_bytes : Memory.wf pageState.dev.mem = true ∧ 0x4000000 + 2 ^ 16 ≤ 0x5000000 := by decide

theorem meets_StageBalancerResults_boundary :
    let ss := setOf (stageOf none none) (queueOf 0 [] false [])
    (setState ss).dev.launch? 0 = some (stageLaunch ss) ∧ ss.started = true ∧ (setState ss).dev.launchHeld 0 = false ∧
    ({ ss with next := 0 } : StageSet).next ≤ (setState { ss with next := 0 }).dev.gtime ∧ 5 ≤ ({ ss with stuck := 5 } : StageSet).stuck := by
  decide

/-- A donor team, 0, of stage 0, and its sibling on core 3. -/
def donorStage : Stage := stageOf (some (1, true, 0)) none

def donorState : Machine.State :=
  let s := mapped (stateOf (warpOf [[1]])) []
  let d := s.dev.setLaunch 0 (stageLaunch { setOf donorStage (queueOf 0 [] false []) with interval := 0 })
  withDev s ((d.setTeam 0 { fetchTeam with stage := some 0, donor := true }).setTeam 2 { fetchTeam with stage := some 0, core := 3 })

theorem meets_StageBalancerResults_donor : ∃ t, donorState.dev.team? 0 = some t ∧ t.stage = some 0 ∧
    donorStage.handover = some (1, true, 0) ∧ donorStage.since + 0 ≤ donorState.dev.gtime ∧ t.donor = true ∧ t.complete = false ∧
    donorState.dev.siblingCore 0 0 0 = some 3 ∧
    (∀ e ∈ donorState.dev.warps.filter (fun e => e.2.team == 0 && !e.2.threads.isEmpty), donorState.dev.evictable e.1 e.2 = true) ∧
    (Dev.evictAll donorState.host true (((donorState.dev.warps.filter fun e => e.2.team == 0 && !e.2.threads.isEmpty).filter fun e =>
      e.2.place == .resident).map Prod.fst) donorState.dev).isSome = true :=
  ⟨_, rfl, by decide, rfl, by decide, by decide, by decide, by decide, by decide, by decide +kernel⟩

theorem meets_PowerAndReliabilityResults : 0x4000000 < 2 ^ 48 ∧
    let c : Cluster := { State.reset.dev.cluster 0 with refused := [(3, 16, 0)] }
    c.reserve = none ∧ (3, 16, c.clock) ∈ c.refused ∧ 16 ≤ 16 := by decide

/-- A state whose module the host reaches, with context 0 in a state. -/
def hostState (st : SlotState) : Machine.State :=
  let s := commandState (streamOf 0 [] none)
  withDev s (s.dev.onContext 0 fun c => { c with state := st, streamTable := 0x200000 })

/-- The same module before the command processors are ready. -/
def earlyHost : HostPart := { (hostState .open_).host with ready := 1 }

/-- R104: the descriptor of a ring of 1,024 words at 0x20_1000. -/
def descriptorBytes : List Byte := leBytes 8 0x201000 ++ leBytes 8 1024 ++ leBytes 8 4 ++ leBytes 8 0 ++ leBytes 8 0x208000 ++ leBytes 24 0

theorem meets_HostFunctionResults_doorbell :
    let s := hostState .open_
    let d := s.dev.setMem (Memory.writeBytes s.dev.mem 0x4000000 descriptorBytes)
    s.host.linkUp = true ∧ s.host.stopped = false ∧ s.host.ready.getLsbD 0 = true ∧ s.host.featActive.getLsbD 0 = true ∧
    (s.dev.context 0).state = .open_ ∧ s.host.processorReady 0 = true ∧ earlyHost.processorReady 0 = false ∧
    earlyHost.ready.getLsbD 0 = true ∧ (0, 3) ∉ s.dev.latched ∧
    okAnd (d.readVa s.host 0 (processorCore 0) (((d.context 0).streamTable.toNat) + 64 * 0) 64) (fun r =>
      descriptorOk r.1 ((r.2.context 0).stream 0).position) = true ∧
    ¬((hostState .terminated).dev.context 0).state = .open_ := by decide +kernel

theorem meets_HostFunctionResults_open :
    let s := hostState .free
    (s.dev.context 0).state = .free ∧ (Dev.newRoots s.host 4 s.dev).isSome = true := by
  decide +kernel

theorem meets_HostFunctionResults_close :
    ((hostState .terminated).dev.context 0).state = .terminated ∧ (hostState .open_).dev.contextIdle 0 = true ∧
    ((hostState .closing).dev.context 0).state = .closing ∧ (hostState .closing).dev.contextDone 0 = true ∧
    (withDev (hostState .open_) ((hostState .open_).dev.onContext 0 fun c => { c with streams := [(15, streamOf 4 [] none)] })).dev.contextIdle 0 =
      false := by decide

/-- R382: a request to map, or to unmap, one page at 0x30_0000. -/
def mapRequest (op : Nat) : BitVec 256 := BitVec.ofNat 256 (op + 3 * 2 ^ 8 * 0 + 0x300000 * 2 ^ 64 + 0x10000 * 2 ^ 128)

/-- The context with a request that is under way. -/
def requestState (v : BitVec 256) : Machine.State :=
  let s := hostState .open_
  withDev s (s.dev.onContext 0 fun c => { c with mapReq := v, mapHeld := v, mapStatus := 1 })

theorem meets_HostFunctionResults_map :
    let ok := requestState (mapRequest 1)
    let undo := requestState (mapRequest 2)
    let bad := requestState (mapRequest 1 ||| 0x030000)
    let r := readMapRequest (mapRequest 1)
    let u := readMapRequest (undo.dev.context 0).mapHeld
    let v := readMapRequest (bad.dev.context 0).mapHeld
    (ok.dev.context 0).mapStatus = 1 ∧ (ok.dev.context 0).state ≠ .free ∧ ((hostState .open_).dev.context 0).mapStatus ≠ 1 ∧
    r.op = 1 ∧ ok.dev.mapAllowed ok.host 0 r = true ∧ (ok.dev.mapRange ok.host 0 r).isSome = true ∧
    u.op = 2 ∧ u.unmapAllowed = true ∧ (undo.dev.mappedIn 0 u.va u.bytes).all (fun l => !undo.dev.frameUsed (ptePa l.2)) = true ∧
    v.op = 1 ∧ bad.dev.mapAllowed bad.host 0 v = false ∧
    (readMapRequest (mapRequest 0)).op = 0 := by decide +kernel

theorem meets_HostFunctionResults_device :
    State.reset.host.committed = false ∧ State.reset.host.stopped = false ∧ State.reset.dev.latched = [] ∧ (0 : Nat) < 42 ∧
    ({ HostPart.reset with booted := true } : HostPart).booted = true ∧ State.reset.host.booted = false ∧
    ({ HostPart.reset with linkUp := true } : HostPart).linkUp = true ∧ ({ HostPart.reset with linkUp := false } : HostPart).linkUp = false := by
  decide

theorem meets_IssueChecks_cells : operandNeed (.add false false false) = some (Need.of 2 false 2 1) ∧
    ((∃ sp w, Issues (stateOf w) 0 w sp ∧ ¬ 2 ≤ w.depth sp) ∧
      (∃ sp w, Issues (stateOf w) 0 w sp ∧ 2 ≤ w.depth sp ∧ residentTarget sp.c 2 1 ≠ sp.c)) :=
  ⟨by simp only [operandNeed, wordForm],
    ⟨splitOf 1 1, warpOf [[1]], ⟨rfl, Table.find?_set_self _ 0 _, rfl⟩, by decide⟩,
    ⟨{ splitOf 1 2 with c := 0 }, { warpOf [[1, 2]] with cur := some { splitOf 1 2 with c := 0 } },
      ⟨rfl, Table.find?_set_self _ 0 _, rfl⟩, by decide, by decide⟩⟩

/-- A lane whose top cell is empty. -/
def emptyWarp : Warp := (warpOf [[1, 2]]).onLanes 1 fun t => { t with stack := .empty 9 :: t.stack.drop 1 }

theorem meets_IssueChecks_empty : Issues (stateOf emptyWarp) 0 emptyWarp (splitOf 1 2) ∧ 2 ≤ emptyWarp.depth (splitOf 1 2) ∧
    emptyWarp.depth (splitOf 1 2) - 2 + 1 ≤ (stateOf emptyWarp).dev.depthLimit emptyWarp ∧
    residentTarget (splitOf 1 2).c 2 1 = (splitOf 1 2).c ∧
    memoryForm (.add false false false) = none ∧
    (emptyWarp.threadsOf (splitOf 1 2).mask).filter (fun t => (t.stack.take 2).any fun x => x.ticket?.isSome) ≠ [] :=
  ⟨⟨rfl, Table.find?_set_self _ 0 _, rfl⟩, by decide, by decide, by decide, rfl, by decide⟩

theorem meets_IssueChecks_overflow : ∃ n,
    let w := warpOf [List.replicate 7 0]
    let s := recordState (stateOf w) { fetchRecord with stackLimit := 8 }
    operandNeed (.ld false 6 0) = some n ∧ Issues s 0 w (splitOf 1 7) ∧ n.pops ≤ w.depth (splitOf 1 7) ∧
    ¬ w.depth (splitOf 1 7) - n.pops + n.pushes ≤ s.dev.depthLimit w :=
  ⟨_, rfl, ⟨by decide, by decide, rfl⟩, by decide, by decide⟩

theorem meets_IssueChecks_misaligned : ∃ b off f, memoryForm (.ld false 0 0) = some (b, off, f) ∧
    Ready (stateOf (warpOf [[0x200002, 0]])) 0 (warpOf [[0x200002, 0]]) (splitOf 1 2) (memoryNeed (.ld false 0 0) b f) ∧
    (lanesOf (splitOf 1 2).mask).find? (fun l => decide ((address (warpOf [[0x200002, 0]]) off l).toNat % f.bytes ≠ 0)) = some 0 :=
  ⟨_, _, _, rfl, readyOf rfl (by decide), by decide⟩

theorem meets_IssueChecks_handler : Issues (stateOf (warpOf [[]])) 0 (warpOf [[]]) (splitOf 1 0) ∧ (warpOf [[]]).handler = none :=
  ⟨⟨rfl, Table.find?_set_self _ 0 _, rfl⟩, rfl⟩

theorem meets_RoundingResults : ∀ f ∈ [fmtFp64, fmtFp32, fmtFp16, fmtBf16, fmtE5m2], ∃ k q, f.decode f.largest = .fin false k q false := by
  intro f h
  simp only [List.mem_cons, List.not_mem_nil, or_false] at h
  obtain rfl | rfl | rfl | rfl | rfl := h <;> exact ⟨_, _, rfl⟩

theorem meets_RoundingResults_nan : (fmtFp32.decode (0x7FC00001 : Dword).toNat).isNan = true := by decide

theorem meets_SmallLiteral : Ready (stateOf (warpOf [[]])) 0 (warpOf [[]]) (splitOf 1 0) (Need.of 2 false 0 1) := readyOf rfl (by decide)

theorem meets_UniformLiteral : Ready (stateOf (warpOf [[]])) 0 (warpOf [[]]) (splitOf 1 0) { blind 8 0 0 with regs := [63] } ∧
    IssuesFet (fetState (fetOf [])) 0 (fetOf []) [63] := ⟨readyOf rfl (by decide), fetReady _ _⟩

theorem meets_LeadingLane : Ready (stateOf (warpOf [[], []])) 0 (warpOf [[], []]) (splitOf 2 0) (Need.of 2 false 0 1) ∧ (0x40 : BitVec 7) ≠ 0 :=
  ⟨readyOf rfl (by decide), by decide⟩

/-- The first step's state, with an instruction placed. -/
def placedState (bytes : List Byte) : Machine.State :=
  { State.reset with dev := Dev.reset.placed bytes, agenda := [.lane 0 0] }

theorem meets_StepRunsDecoded_lane : ∀ bytes : List Byte, bytes = leBytes 8 0x0700 ∨ bytes = leBytes 8 0xFFFF →
    let s := placedState bytes
    s.host.stopped = false ∧ s.agenda = [.lane 0 0] ∧ (s.dev.lanePlace 0 0 == some (0, false)) = true ∧ ((s.dev.core 0).lb 0).misses = [] ∧
    s.dev.candidate 0 0 = some 0 ∧ s.dev.warp? 0 = some fetchWarp ∧ s.dev.breaksAt 0 (BitVec.ofNat 57 (fetchPage * 4096)) = false ∧
    (s.dev.core 0).pageSegment (s.dev.slotOf 0) fetchPage .valid = some 0 ∧
    s.dev.poisoned fetchPa 2 = false ∧ s.dev.chipPoisoned 0 6 0 1 = false ∧ (s.dev.lanePlace 0 0).isSome = true ∧
    (s.dev.cluster 0).grants (requester 0 0) 1 none = true := by
  rintro bytes (rfl | rfl) <;> decide

/-- The request of the first step's lane block for `lit.s 0`. -/
def firstGrant : Grant :=
  ⟨.litS false 0, 0, 0xFFFFFFFF, BitVec.ofNat 57 (fetchPage * 4096), BitVec.ofNat 57 (fetchPage * 4096 + 2), tokenCost none (.litS false 0), false, 0,
    false, none⟩

/-- R38: its step, alone, and with a `kli` behind it that co-issues. -/
theorem meets_StepRunsDecoded_mate : ∀ more paired, (more, paired) ∈
    [(leBytes 8 0x0700, false), ([0x42, 0xC0, 0x00, 0x00, 0x00, 0x00, 0x0A, 0x00], true)] →
    let s := placedState (leBytes 2 0x0700 ++ more)
    let before := ({ (s.dev.burnHold 0 0).repaid 0 0 with issuer := .warp 0, issued := false } : Dev).touchSegment 0 0 firstGrant.pc
    (match exec (.litS false 0) (withDev { s with agenda := [] } before) with
      | .next t =>
        let m := (t.dev.afterLane 0 0 firstGrant).pairMate 0 0 firstGrant
        t.dev.issued && !before.breaks firstGrant && m.isSome == paired && m.all fun m =>
          (before.cluster 0).grants (requester 0 0) (firstGrant.cost + m.1.cost) none && match exec m.1.instr (withDev t m.2) with
            | .next u => u.dev.issued
            | _ => false
      | _ => false) = true := by
  intro more paired h
  simp only [List.mem_cons, List.not_mem_nil, Prod.mk.injEq, or_false] at h
  obtain ⟨rfl, rfl⟩ | ⟨rfl, rfl⟩ := h <;> decide +kernel

theorem meets_StepRunsDecoded_decode : decode (leBytes 8 0x0700) = .ok (.litS false 0, leBytes 6 0) ∧
    (match decode (leBytes 8 0xFFFF) with
      | .ok _ => none
      | .error e => some (decide (e ≠ .tooShort))) = some true := by decide

/-- The same with a front-end context. -/
def placedContext : Machine.State :=
  let s := placedState (leBytes 8 0)
  { s with dev := (s.dev.setFet 4 (fetOf [])).onCore 0 fun c => { c with fetCredit := 1 }, agenda := [.frontEnd 0] }

theorem meets_StepRunsDecoded_context : placedContext.host.stopped = false ∧ placedContext.dev.nextFet 0 = some 4 ∧
    Table.find? placedContext.dev.fets 4 = some (fetOf []) ∧
    placedContext.dev.breaksAt 0 (fetOf []).pc = false ∧ ((placedContext.dev.fetPlace 0).map Prod.snd == some false) = true ∧
    (placedContext.dev.core 0).fetMisses = [] ∧
    (placedContext.dev.core 0).pageSegment (placedContext.dev.slotOf 0) fetchPage .valid = some 0 ∧
    (placedContext.dev.cluster 0).grants (requester 0 4) 1 none = true := by decide

theorem meets_StepRunsDecoded_command : (match loopState.dev.commandTurn loopState.host with
    | .run i _ => some i
    | _ => none) = some (.loop 0 0) := by decide +kernel

theorem meets_DecodesEncoding : ∃ ps ws, (Instr.bfe true true 3 8).wellFormed = true ∧ encode (.bfe true true 3 8) = some ps ∧
    (Instr.phase 7).wellFormed = true ∧ encodeCommand (.phase 7) = some ws := ⟨_, _, by decide, rfl, by decide, rfl⟩

theorem meets_MemoryStaysCanonical : memory (placedState (leBytes 8 0x0700)) ∧ steps (placedState (leBytes 8 0x0700)) := by
  refine ⟨by unfold memory; decide, ?_⟩
  have h : (match step (placedState (leBytes 8 0x0700)) with
    | .next _ => true
    | _ => false) = true := by decide
  unfold steps
  split at h
  · exact ⟨_, by assumption⟩
  · cases h

/-! ### Waits, arrivals, entries and handovers -/

/-- A warp whose lane 0 has an ordering point that holds back what it does later. -/
def markedWarp : Warp := { warpOf [[]] with marks := [⟨1, [3], 0, []⟩] }

theorem meets_SpecialRegisterResults_wait :
    let s := accessState markedWarp [(3, storeAccess)]
    s.dev.markDeps markedWarp.marks (splitOf 1 0).mask ≠ [] ∧ Ready s 0 markedWarp (splitOf 1 0) (Need.of 2 false 0 1) ∧
    Ready s 0 markedWarp (splitOf 1 0) (Need.of 2 false 0 2) :=
  ⟨by decide, readyIn (by decide) (by decide) rfl (by decide), readyIn (by decide) (by decide) rfl (by decide)⟩

/-- A warp that has arrived at barrier 3 in a `bar.sync`, of which `count` threads are expected. -/
def arrivingWarp : Warp := { warpOf [[]] with cur := none, others := [{ splitOf 1 0 with state := .arriving 3 }] }

def arrivalState (count : Nat) : Machine.State :=
  let s := stateOf arrivingWarp
  withDev s { s.dev with arrivals := [(5, ⟨0, 3, true, 0, 0, 1, count, []⟩)] }

/-- R253: a phase that the arrival ends, and one that it does not. -/
theorem meets_BarrierResults_counted : ∀ count : Nat, count = 1 ∨ count = 2 →
    let s := arrivalState count
    let a : Arrival := ⟨0, 3, true, 0, 0, 1, count, []⟩
    OwnName s.dev 5 ∧ noRequest s.dev 5 ∧ Table.find? s.dev.arrivals 5 = some a ∧
    List.find? (fun (e : Nat × Arrival) => e.2.team == a.team) s.dev.arrivals = some (5, a) ∧
    (s.dev.team? 0).isSome = true ∧ (s.dev.warps.map Prod.fst).Nodup ∧ s.dev.warp? 0 = some arrivingWarp ∧
    (∀ e ∈ s.dev.accesses, e.2.party = .warp 0 → e.2.parked = false) ∧ (∀ x ∈ arrivingWarp.splits, x.mask ≠ 0) ∧
    (1 ≤ (lanesOf a.lanes).length) := by
  rintro count (rfl | rfl) <;>
    exact ⟨⟨by decide, by decide, by decide, by decide⟩, by unfold noRequest; decide, rfl, rfl, by decide, by decide, by decide, by decide,
      by decide, by decide⟩

/-- A state with an entry of `dqpush` in its window. -/
def entryState : Machine.State :=
  let s := fetState (fetOf [])
  withDev s { s.dev with decisions := [(5, ⟨0, 0, 7, []⟩)] }

theorem meets_FrontEndResults_entry : OwnName entryState.dev 5 ∧ noRequest entryState.dev 5 ∧
    Table.find? entryState.dev.arrivals 5 = none ∧ Table.find? entryState.dev.decisions 5 = some ⟨0, 0, 7, []⟩ ∧
    List.find? (fun (x : Nat × Decision) => x.2.fet == 0) entryState.dev.decisions = some (5, ⟨0, 0, 7, []⟩) ∧
    entryState.dev.receivers 0 ≠ [] ∧
    ∀ i ∈ entryState.dev.receivers 0, ∀ w, entryState.dev.warp? i = some w → w.place ≠ .evicted := by
  refine ⟨⟨by decide, by decide, by decide, by decide⟩, by unfold noRequest; decide, rfl, rfl, rfl, by decide, fun i hi w hw => ?_⟩
  have h := List.all_eq_true.1 (show (entryState.dev.receivers 0).all (fun i =>
    (entryState.dev.warp? i).all fun w => decide (w.place ≠ .evicted)) = true by decide) i hi
  rw [hw] at h
  simpa using h

/-- R217: a stream whose element has been read and waits for room. -/
theorem meets_WaitsEnd_stream_sends :
    let st : Stream := { addressStream with mode := 1, pending := [(0, 0, [5, 6])] }
    let f : Fet := { fetOf [] with streams := [st] }
    let d := (fetState f).dev
    Table.find? d.fets 0 = some f ∧ f.streams.find? (fun x => x.ch == 2) = some st ∧ d.teamThreads 0 ≠ [] ∧ st.pending ≠ [] ∧
    d.streamRoom 0 2 = true ∧ (st.pending.filter fun r => (d.teamThreads 0).any fun t => t.1 == r.1 && t.2.2 == r.2.1) ≠ [] := by decide

/-- R448: a module all of whose links have missed 100 heartbeats, and one of whose links has not. -/
theorem meets_MembershipResults_heartbeat :
    let d := fun (n : Nat) => { State.reset.dev with heartbeats := (List.range 24).map fun p => (p, n) }
    (∀ p < 24, 100 ≤ Table.get (d 100).heartbeats p 0) ∧
    ∃ p < 24, Config.linkModule p = Config.linkModule 5 ∧ Table.get (d 99).heartbeats p 0 < 100 :=
  ⟨by decide, 5, by decide, rfl, by decide⟩

/-- R46: a team that is on its core keeps its bytes where they are. -/
theorem meets_PlacementResults_stays : (stateOf (warpOf [[1]])).dev.teamResident 0 = true := by decide

/-- R264, R345: the launch of a stage set that dxdb holds. -/
theorem meets_StageBalancerResults_held :
    let ss := setOf (stageOf none none) (queueOf 0 [] false [])
    let s := setState ss
    (withDev s (s.dev.setTeam 0 { fetchTeam with held := true, stage := some 0 })).dev.launchHeld 0 = true := by decide

/-! ### The launch of `latewarp` (R439, 29_program_barrier_watchdog.md) -/

/-- The launch record of R439. -/
def latewarpBytes : List Byte :=
  leBytes 2 1 ++ leBytes 2 4 ++ leBytes 4 1 ++ leBytes 4 1 ++ leBytes 4 1 ++ leBytes 8 0xF ++ leBytes 2 16 ++ leBytes 14 0 ++
    leBytes 8 0x1000000000 ++ leBytes 4 16 ++ leBytes 4 0 ++ leBytes 8 (0x0100000000000000 + 0xC0) ++ leBytes 8 0x1000010000 ++
    leBytes 184 0

/-- R439, R113, R388: the record is accepted, and the handler areas of its four warps fill G + 0x1_0000 to G + 0x3_0000. -/
theorem test_latewarp_record :
    let r := readLaunch latewarpBytes none
    let l : Launch := { fetchLaunch with record := r }
    latewarpBytes.length = 256 ∧ recordValid 0x1000000300 latewarpBytes r = true ∧
    ((List.range 8).all fun n => slotValid (slice latewarpBytes (128 + 16 * n) 16)) = true ∧
    r.teamWarps = 4 ∧ r.teams = 1 ∧ r.handle = 0xF ∧ r.argBase = 0x1000000000 ∧ r.argBytes = 16 ∧
    (List.range 4).map (l.handlerArea 0) = [0x1000010000, 0x1000018000, 0x1000020000, 0x1000028000] := by decide +kernel

/-- R439, R366: a second context that loads the same image receives the same handle, and the object is then one of both. -/
theorem test_latewarp_handle :
    ((loadState.dev.onContext 8 fun c => { c with state := .open_, roots := [0x1040000, 0x1050000, 0x1060000, 0x1070000] }).placeImage
      loadState.host 8 ⟨1, 0, 0, 0, 0xFFFFFFFF, 0, []⟩ imageDigest ⟨[], [], 0, 0⟩ []).map (fun r => (r.1, r.2.2.handleLoaded 0 1,
        r.2.2.handleLoaded 8 1)) = some (1, true, true) := by decide +kernel
end Sys2Proof.Tests
end

section
/-! PROOF. The small literal (R149): its S16 word, and the cell that it pushes. -/

namespace Sys2Proof.Proofs

open Sys2Proof Sys2Proof.Machine Sys2Proof.Safety

/-- R122: an S16 word by its fields: the opcode from bit 8, the W bit at bit 7, the immediate below it. -/
theorem s16_toNat (op : BitVec 7) (w : Bool) (imm : BitVec 7) :
    (s16 op w imm).toNat = op.toNat * 2 ^ 8 + w.toNat * 2 ^ 7 + imm.toNat := by
  have append_toNat {m k : Nat} (x : BitVec m) (y : BitVec k) : (x ++ y).toNat = x.toNat * 2 ^ k + y.toNat := by
    rw [BitVec.toNat_append, ← Nat.shiftLeft_add_eq_or_of_lt y.isLt, Nat.shiftLeft_eq]
  simp only [s16, append_toNat, BitVec.toNat_ofBool, BitVec.toNat_ofNat]
  omega

/-- A two's complement value modulo the number of words is the unsigned value. -/
theorem toInt_emod_twoPow {n : Nat} (v : BitVec n) : v.toInt % (2 ^ n : Nat) = v.toNat := by
  rw [BitVec.toInt_eq_toNat_bmod, Int.bmod_emod]
  exact Int.emod_eq_of_lt (by omega) (by exact_mod_cast v.isLt)

/-- R149: the word of `lit.s v`, with its W bit. -/
theorem s16_lit (v : BitVec 7) (b : Bool) :
    s16 0x07 b v = BitVec.ofInt 16 (0x0700 + v.toInt % 128 + if b then 128 else 0) := by
  have low : v.toInt % 128 = v.toNat := toInt_emod_twoPow v
  have word : (0x0700 + v.toInt % 128 + if b then 128 else 0 : Int) = ((s16 0x07 b v).toNat : Int) := by
    rw [low, s16_toNat]
    cases b
    · simp
    · simp; omega
  rw [word, BitVec.ofInt_natCast, BitVec.ofNat_toNat, BitVec.setWidth_eq]

/-- An instruction that pushes one cell, where it may issue: each lane of the split has its cell on top. -/
theorem pushOp_ready {s : State} {id : Nat} {w : Warp} {sp : Split} {bytes : Nat}
    (h : Ready s id w sp (Need.of bytes false 0 1)) (hp : HostPart) (f : Dev → Warp → Split → Thread → Word) :
    s.dev.pushOp hp bytes f =
      (issued s id (w.onLanes sp.mask fun t => t.onStack fun st => .full (f s.dev w sp t) :: st) (after sp bytes 0 1)).dev := by
  unfold Dev.pushOp
  rw [issueWarp_ready h]
  exact commit_issued _

/-- R149: `lit.s v`, where it may issue, pushes v as a signed word in each lane of the split. -/
theorem exec_litS_ready {s : State} {id : Nat} {w : Warp} {sp : Split} (h : Ready s id w sp (Need.of 2 false 0 1)) (b : Bool)
    (v : BitVec 7) :
    exec (.litS b v) s =
      .next (issued s id (onStacks w sp fun st => .full (BitVec.ofInt 32 v.toInt) :: st) (after sp 2 0 1)) := by
  calc exec (.litS b v) s
    _ = .next (withDev s (s.dev.pushOp s.host 2 fun _ _ _ _ => BitVec.signExtend 32 v)) := rfl
    _ = .next (withDev s (issued s id (onStacks w sp fun st => .full (BitVec.signExtend 32 v) :: st) (after sp 2 0 1)).dev) := by
      rw [pushOp_ready h]; rfl
    _ = _ := by rw [withDev_issued, BitVec.signExtend]

/-- Settles O53: the word by the fields of S16, the range by that of a 7-bit value, the push by the rule of a push that may
issue. -/
theorem smallLiteral : Obligations.SmallLiteral := by
  unfold Obligations.SmallLiteral
  intro v
  refine ⟨fun b => ?_, ?_, v.le_toInt, Int.le_of_lt_add_one v.toInt_lt, fun b s id w sp h => exec_litS_ready h b v⟩
  · exact congrArg (fun word => some [word]) (s16_lit v b)
  · decide

end Sys2Proof.Proofs
end

section
/-! PROOF. The uniform literal (R214): its X64 word, and the register that it writes in a warp and in a front-end context. -/

namespace Sys2Proof.Proofs

open Sys2Proof Sys2Proof.Machine Sys2Proof.Safety

/-! ## Its word (R117, R132, R133) -/

/-- Fields side by side: the left one counts from the width of the right one. -/
theorem append_toNat {m n : Nat} (x : BitVec m) (y : BitVec n) : (x ++ y).toNat = x.toNat * 2 ^ n + y.toNat := by
  rw [BitVec.toNat_append, ← Nat.shiftLeft_add_eq_or_of_lt y.isLt, Nat.shiftLeft_eq]

/-- R117: the four parcels of a 64-bit word, the most significant first, are that word. -/
theorem parcels4_append (w : BitVec 64) :
    (w.extractLsb' 48 16 ++ w.extractLsb' 32 16 ++ w.extractLsb' 16 16 ++ w.extractLsb' 0 16 : BitVec 64) = w := by
  rw [BitVec.extractLsb'_append_extractLsb'_eq_extractLsb' (start₁ := 32) (len₁ := 16) rfl,
    BitVec.extractLsb'_append_extractLsb'_eq_extractLsb' (start₁ := 16) (len₁ := 16) rfl,
    BitVec.extractLsb'_append_extractLsb'_eq_extractLsb' (start₁ := 0) (len₁ := 16) rfl]
  exact BitVec.extractLsb'_eq_self

/-- R132: an X64 word has four parcels, and its value is that of its fields: the opcode from bit 54, f6 from bit 48, the payload
below it. -/
theorem x64_toNat (op : BitVec 8) (f : BitVec 6) (payload : BitVec 48) :
    ∃ p q r t, x64 op f payload = [p, q, r, t] ∧
      (p ++ q ++ r ++ t : BitVec 64).toNat = 3 * 2 ^ 62 + op.toNat * 2 ^ 54 + f.toNat * 2 ^ 48 + payload.toNat := by
  refine ⟨_, _, _, _, rfl, ?_⟩
  rw [parcels4_append]
  simp only [append_toNat, BitVec.toNat_ofNat]
  omega

/-- R214: the word of `kli kd, v`. -/
theorem encode_kli_toNat (kd : BitVec 6) (v : Word) :
    ∃ p q r t, encode (.kli kd v) = some [p, q, r, t] ∧
      (p ++ q ++ r ++ t : BitVec 64).toNat = 0xC040000000000000 + kd.toNat * 2 ^ 48 + v.toNat := by
  obtain ⟨p, q, r, t, parcels, value⟩ := x64_toNat 0x01 kd (0#16 ++ v)
  refine ⟨p, q, r, t, congrArg some parcels, ?_⟩
  rw [value, append_toNat]
  simp

/-! ## Its effect (R63, R212, R214) -/

/-- R212: an instruction on the uniform file alone, where a warp may issue it. -/
theorem stateUniform_warp {s : State} {id : Nat} {w : Warp} {sp : Split} {bytes : Nat} {i : Instr}
    (h : Ready s id w sp { blind bytes 0 0 with regs := uniformRegs i }) (f : Uniform → Uniform) :
    s.uniform bytes i f =
      .next (issued s id { w with k := (f ⟨w.k, w.kp⟩).k, kp := (f ⟨w.k, w.kp⟩).kp } (after sp bytes 0 0)) := by
  rw [State.uniform, run_eq, uniform_warp h, withDev_issued]

/-- R40, R212: an instruction on the uniform file alone, where a front-end context may issue it. -/
theorem stateUniform_fet {s : State} {id : Nat} {c : Fet} {i : Instr} (h : IssuesFet s id c (uniformRegs i)) (bytes : Nat)
    (f : Uniform → Uniform) :
    s.uniform bytes i f =
      .next (issuedFet s id { c with k := (f ⟨c.k, c.kp⟩).k, kp := (f ⟨c.k, c.kp⟩).kp } bytes) := by
  rw [State.uniform, run_eq, uniform_fet h, withDev_issuedFet]

/-- R212: `kli` touches one uniform register, its destination. -/
theorem uniformRegs_kli (kd : BitVec 6) (v : Word) : uniformRegs (.kli kd v) = [kd.toNat] := rfl

/-- R214: `kli` writes v to K[kd] of the uniform file. -/
theorem exec_kli (kd : BitVec 6) (v : Word) (s : State) :
    exec (.kli kd v) s = s.uniform 8 (.kli kd v) fun u => { u with k := kSet u.k kd.toNat v } := rfl

/-- Settles O54: the word by the fields of X64, the write by the rule of a uniform instruction that may issue, in a warp and in a
front-end context. -/
theorem uniformLiteral : Obligations.UniformLiteral := by
  unfold Obligations.UniformLiteral
  intro kd v
  refine ⟨encode_kli_toNat kd v, fun s id w sp h => ?_, fun s id f h => ?_⟩
  · rw [← uniformRegs_kli kd v] at h
    rw [exec_kli, stateUniform_warp h]
  · rw [← uniformRegs_kli kd v] at h
    rw [exec_kli, stateUniform_fet h]

end Sys2Proof.Proofs
end

section
/-! PROOF. The leading lane (R254): its S16 word, with the reserved immediate, and the cell that each lane of the split gets. -/

namespace Sys2Proof.Proofs

open Sys2Proof Sys2Proof.Machine Sys2Proof.Safety

/-! ## Its word (R122, R139) -/

/-- R122: the decoder of one parcel reads back the three fields of an S16 word. -/
theorem decode16_s16 (op : BitVec 7) (b : Bool) (imm : BitVec 7) : decode16 (s16 op b imm) = decodeShort op b imm := by
  have word := s16_toNat op b imm
  have one := b.toNat_lt
  have opcode : (s16 op b imm).extractLsb' 8 7 = op := by
    apply BitVec.eq_of_toNat_eq
    rw [BitVec.extractLsb'_toNat, Nat.shiftRight_eq_div_pow, word]
    omega
  have wbit : (s16 op b imm).getLsbD 7 = b := by
    have bit : (s16 op b imm).toNat / 2 ^ 7 % 2 = b.toNat := by omega
    rw [BitVec.getLsbD, Nat.testBit_eq_decide_div_mod_eq, bit]
    cases b <;> rfl
  have immediate : (s16 op b imm).extractLsb' 0 7 = imm := by
    apply BitVec.eq_of_toNat_eq
    rw [BitVec.extractLsb'_toNat, Nat.shiftRight_eq_div_pow, word]
    omega
  rw [decode16, opcode, wbit, immediate]

/-- R254: opcode 0x0C is `lead` where its immediate is 0, and no instruction otherwise. -/
theorem decode16_lead (b : Bool) (imm : BitVec 7) : decode16 (s16 0x0C b imm) = only (imm == 0) (.lead b) :=
  decode16_s16 0x0C b imm

/-- R254: `imm7 must be 0`. -/
theorem decode16_lead_reserved {imm : BitVec 7} (h : imm ≠ 0) (b : Bool) : decode16 (s16 0x0C b imm) = none := by
  rw [decode16_lead, only, beq_false_of_ne h]
  rfl

/-! ## Its effect (R254) -/

/-- R254: `lead`, where it may issue, pushes 1 in the lowest lane of its split and 0 in every other lane of it. -/
theorem exec_lead_ready {s : State} {id : Nat} {w : Warp} {sp : Split} (h : Ready s id w sp (Need.of 2 false 0 1)) (b : Bool) :
    exec (.lead b) s =
      .next (issued s id
        (w.onLanes sp.mask fun t => { t with stack := .full (if t.lane = lowest sp.mask then 1 else 0) :: t.stack })
        (after sp 2 0 1)) := by
  calc exec (.lead b) s
    _ = .next (withDev s (s.dev.pushOp s.host 2 fun _ _ sp t => if t.lane = lowest sp.mask then 1 else 0)) := rfl
    _ = _ := by rw [pushOp_ready h, withDev_issued]; rfl

/-- Settles O55: the word by evaluation, the reserved immediates by the decoder's arm for the opcode, the push by the rule of a
push that may issue. -/
theorem leadingLane : Obligations.LeadingLane := by
  unfold Obligations.LeadingLane
  refine ⟨by decide, by decide, fun imm h => ?_, fun b s id w sp h => exec_lead_ready h b⟩
  exact ⟨decode16_lead_reserved h false, decode16_lead_reserved h true⟩

end Sys2Proof.Proofs
end

section
/-! PROOF. The decoder reads back what the encoder writes (R106, R107, R117 to R141). -/

namespace Sys2Proof.Proofs

open Sys2Proof Sys2Proof.Machine Sys2Proof.Safety

/-! ## Bytes and parcels (R117) -/

/-- R117: the bytes of parcels are read back as those parcels, whatever bytes follow. -/
theorem parcelsOf_bytesOf (ps : List Parcel) (rest : List Byte) : parcelsOf (bytesOf ps ++ rest) = ps ++ parcelsOf rest := by
  induction ps with
  | nil => rfl
  | cons p ps ih =>
    have halves : (p.extractLsb' 8 8 ++ p.extractLsb' 0 8 : BitVec 16) = p := by
      rw [BitVec.extractLsb'_append_extractLsb'_eq_extractLsb' (start₁ := 0) (len₁ := 8) rfl]
      exact BitVec.extractLsb'_eq_self
    simp only [bytesOf, List.cons_append, parcelsOf, halves, ih]

theorem bytesOf_length (ps : List Parcel) : (bytesOf ps).length = 2 * ps.length := by
  induction ps with
  | nil => rfl
  | cons p ps ih => simp only [bytesOf, List.length_cons, ih]; omega

/-- The decoder reads the instruction from its parcels, whatever parcels follow. -/
def ReadsBack (ps : List Parcel) (i : Instr) : Prop := ∀ more, decodeParcels (ps ++ more) = .ok (i, more)

/-- R117: an instruction that its parcels give is read from their bytes, and the bytes that follow are left. -/
theorem ReadsBack.decode {ps : List Parcel} {i : Instr} (h : ReadsBack ps i) (rest : List Byte) :
    decode (bytesOf ps ++ rest) = .ok (i, rest) := by
  have taken : 2 * ((ps ++ parcelsOf rest).length - (parcelsOf rest).length) = (bytesOf ps).length := by
    rw [List.length_append, bytesOf_length]; omega
  simp only [Sys2Proof.decode, parcelsOf_bytesOf, h (parcelsOf rest), taken, List.drop_left]

/-! ## Fields of parts side by side -/

/-- A field of the left part of two parts side by side. -/
theorem extract_left {m n start len : Nat} (x : BitVec m) (y : BitVec n) (h : n ≤ start) :
    (x ++ y).extractLsb' start len = x.extractLsb' (start - n) len := BitVec.extractLsb'_append_eq_of_le h

/-- A field of the right part of two parts side by side. -/
theorem extract_right {m n start len : Nat} (x : BitVec m) (y : BitVec n) (h : start + len ≤ n) :
    (x ++ y).extractLsb' start len = y.extractLsb' start len := BitVec.extractLsb'_append_eq_of_add_le h

theorem bit_left {m n i : Nat} (x : BitVec m) (y : BitVec n) (h : n ≤ i) : (x ++ y).getLsbD i = x.getLsbD (i - n) := by
  rw [BitVec.getLsbD_append, if_neg (by omega)]

theorem bit_right {m n i : Nat} (x : BitVec m) (y : BitVec n) (h : i < n) : (x ++ y).getLsbD i = y.getLsbD i := by
  rw [BitVec.getLsbD_append, if_pos h]

theorem bit_ofBool (b : Bool) : (BitVec.ofBool b).getLsbD 0 = b := by cases b <;> rfl

/-! ## The word formats (R118, R122, R125, R126, R130 to R132) -/

theorem accept_wellFormed {i : Instr} (hw : i.wellFormed = true) (rest : List Parcel) : accept rest (some i) = .ok (i, rest) := by
  simp [accept, hw]

/-- R122: an S16 word is read by its opcode. -/
theorem readsBack_s16 {op imm : BitVec 7} {b : Bool} {i : Instr} (h : decodeShort op b imm = some i) (hw : i.wellFormed = true) :
    ReadsBack (parcels1 (s16 op b imm)) i := by
  intro more
  have top : (s16 op b imm).getLsbD 15 = false := by
    simp (disch := decide) only [s16, bit_left, Nat.reduceSub, BitVec.reduceGetLsb]
  have count : parcelCount (s16 op b imm) = 1 := by rw [parcelCount, top]; rfl
  simp only [parcels1, List.singleton_append, decodeParcels, count, decode16_s16, h, accept_wellFormed hw]

/-- R129, R139: an S16 word of a routable opcode is read by its imm[3:0]. -/
theorem decodeShort_routable {op : BitVec 7} (range : 0x10 ≤ op.toNat ∧ op.toNat < 0x50) (b : Bool) (mod : BitVec 4) :
    decodeShort op b (0#3 ++ mod) = decodeRoutable op b mod := by
  have high : (0#3 ++ mod : BitVec 7).extractLsb' 4 3 = 0 := by
    rw [extract_left _ _ (by decide)]; rfl
  have low : (0#3 ++ mod : BitVec 7).extractLsb' 0 4 = mod := by
    rw [extract_right _ _ (by decide), BitVec.extractLsb'_eq_self]
  unfold decodeShort
  split
  case h_28 => rw [high, low]; rfl
  all_goals omega

/-- R129: an S16 word of a routable opcode. -/
theorem readsBack_s16r {op : BitVec 7} {b : Bool} {mod : BitVec 4} {i : Instr} (range : 0x10 ≤ op.toNat ∧ op.toNat < 0x50)
    (h : decodeRoutable op b mod = some i) (hw : i.wellFormed = true) : ReadsBack (parcels1 (s16r op b mod)) i :=
  readsBack_s16 ((decodeShort_routable range b mod).trans h) hw

/-- The two parcels of a 32-bit word are that word. -/
theorem parcels2_append (w : BitVec 32) : (w.extractLsb' 16 16 ++ w.extractLsb' 0 16 : BitVec 32) = w := by
  rw [BitVec.extractLsb'_append_extractLsb'_eq_extractLsb' (start₁ := 0) (len₁ := 16) rfl]
  exact BitVec.extractLsb'_eq_self

/-- R118, R125: a word of two parcels is read by the layout of its opcode. -/
theorem readsBack_parcels2 {w : BitVec 32} {i : Instr} (one : w.getLsbD 31 = true) (zero : w.getLsbD 30 = false)
    (h : decode32 w = some i) (hw : i.wellFormed = true) : ReadsBack (parcels2 w) i := by
  intro more
  have high : (w.extractLsb' 16 16).getLsbD 15 = true := by rw [BitVec.getLsbD_extractLsb', one]; rfl
  have next : (w.extractLsb' 16 16).getLsbD 14 = false := by rw [BitVec.getLsbD_extractLsb', zero]; rfl
  have count : parcelCount (w.extractLsb' 16 16) = 2 := by rw [parcelCount, high, next]; rfl
  simp only [parcels2, List.cons_append, List.nil_append, decodeParcels, count, parcels2_append, h, accept_wellFormed hw]

/-- R125, R130: an L32-I word. -/
theorem readsBack_l32i {op : BitVec 8} {b : Bool} {sub : BitVec 5} {imm : BitVec 16} {i : Instr}
    (range : 0x80 ≤ op.toNat ∧ op.toNat < 0xC0) (h : decodeImmediate op b sub imm = some i) (hw : i.wellFormed = true) : ReadsBack (parcels2 (l32i op b sub imm)) i := by
  have opcode : (l32i op b sub imm).extractLsb' 22 8 = op := by
    simp (disch := decide) only [l32i, extract_left, extract_right, Nat.reduceSub, BitVec.extractLsb'_eq_self]
  refine readsBack_parcels2 ?_ ?_ ?_ hw
  · simp (disch := decide) only [l32i, bit_left, Nat.reduceSub, BitVec.reduceGetLsb]
  · simp (disch := decide) only [l32i, bit_left, Nat.reduceSub, BitVec.reduceGetLsb]
  · rw [decode32, opcode, if_neg (by omega), if_pos range.2, ← h]
    simp (disch := decide) only [l32i, extract_left, extract_right, bit_left, bit_right, bit_ofBool, Nat.reduceSub,
      BitVec.extractLsb'_eq_self]

/-- R125, R131: an L32-K word. -/
theorem readsBack_l32k {op : BitVec 8} {kd ka kb : BitVec 6} {mod : BitVec 4} {i : Instr} (range : 0xC0 ≤ op.toNat)
    (h : decodeUniform op kd ka kb mod = some i) (hw : i.wellFormed = true) : ReadsBack (parcels2 (l32k op kd ka kb mod)) i := by
  have opcode : (l32k op kd ka kb mod).extractLsb' 22 8 = op := by
    simp (disch := decide) only [l32k, extract_left, extract_right, Nat.reduceSub, BitVec.extractLsb'_eq_self]
  refine readsBack_parcels2 ?_ ?_ ?_ hw
  · simp (disch := decide) only [l32k, bit_left, Nat.reduceSub, BitVec.reduceGetLsb]
  · simp (disch := decide) only [l32k, bit_left, Nat.reduceSub, BitVec.reduceGetLsb]
  · rw [decode32, opcode, if_neg (by omega), if_neg (by omega), ← h]
    simp (disch := decide) only [l32k, extract_left, extract_right, Nat.reduceSub, BitVec.extractLsb'_eq_self]

/-- R125, R126: an L32-R word. -/
theorem readsBack_l32r {op : BitVec 7} {b : Bool} {ra rb : BitVec 2} {rd : Bool} {cha chb chd mod : BitVec 4}
    (hw : (Instr.l32Routed op b ra rb rd cha chb chd mod).wellFormed = true) :
    ReadsBack (parcels2 (l32r op b ra rb rd cha chb chd mod)) (.l32Routed op b ra rb rd cha chb chd mod) := by
  have high : (l32r op b ra rb rd cha chb chd mod).getLsbD 29 = false := by
    simp (disch := decide) only [l32r, bit_left, Nat.reduceSub, BitVec.reduceGetLsb]
  have opcode : ((l32r op b ra rb rd cha chb chd mod).extractLsb' 22 8).toNat < 0x80 := by
    have msb : ((l32r op b ra rb rd cha chb chd mod).extractLsb' 22 8).msb = false := by
      rw [BitVec.msb_eq_getLsbD_last, BitVec.getLsbD_extractLsb', high]; rfl
    exact BitVec.toNat_lt_of_msb_false msb
  refine readsBack_parcels2 ?_ ?_ ?_ hw
  · simp (disch := decide) only [l32r, bit_left, Nat.reduceSub, BitVec.reduceGetLsb]
  · simp (disch := decide) only [l32r, bit_left, Nat.reduceSub, BitVec.reduceGetLsb]
  · rw [decode32, if_pos opcode]
    simp (disch := decide) only [l32r, extract_left, extract_right, bit_left, bit_right, bit_ofBool, Nat.reduceSub,
      BitVec.extractLsb'_eq_self]

/-- R132: an X64 word is read by its opcode. -/
theorem readsBack_x64 {op : BitVec 8} {f : BitVec 6} {p : BitVec 48} {i : Instr} (h : decodeLong op f p = some i)
    (hw : i.wellFormed = true) : ReadsBack (x64 op f p) i := by
  intro more
  have high : ((0b11#2 ++ op ++ f ++ p : BitVec 64).extractLsb' 48 16).getLsbD 15 = true := by
    rw [BitVec.getLsbD_extractLsb', bit_left _ _ (by decide), bit_left _ _ (by decide), bit_left _ _ (by decide)]
    decide
  have next : ((0b11#2 ++ op ++ f ++ p : BitVec 64).extractLsb' 48 16).getLsbD 14 = true := by
    rw [BitVec.getLsbD_extractLsb', bit_left _ _ (by decide), bit_left _ _ (by decide), bit_left _ _ (by decide)]
    decide
  have count : parcelCount ((0b11#2 ++ op ++ f ++ p : BitVec 64).extractLsb' 48 16) = 4 := by rw [parcelCount, high, next]; rfl
  have word : decode64 (0b11#2 ++ op ++ f ++ p) = some i := by
    rw [← h]
    simp (disch := decide) only [decode64, extract_left, extract_right, Nat.reduceSub, BitVec.extractLsb'_eq_self]
  simp only [x64, List.cons_append, List.nil_append, decodeParcels, count, parcels4_append, word, accept_wellFormed hw]

/-! ## The opcode tables (R139 to R141) -/

/-- R139: an instruction of one parcel is read back by the arm of its opcode. -/
theorem readsBack_one {i : Instr} {p : Parcel} (hw : i.wellFormed = true) (he : encode i = some [p]) : ReadsBack [p] i := by
  cases i
  case nop | drop | dup | swap | rot | nip | depth | litS | ldf | stf | flags | lead | vote | shfl | wsync | br | bz | bnz | bzj |
      bnzj | brq | join | ret | exit | yield | brk =>
    cases he
    refine readsBack_s16 ?_ hw
    simp (disch := decide) only [decodeShort, BitVec.reduceToNat, extract_left, extract_right, bit_right, bit_ofBool, only,
      BitVec.extractLsb'_eq_self, Nat.reduceSub, BitVec.reduceBEq, if_true]
  case rds | rdsD =>
    cases he
    refine readsBack_s16 ?_ hw
    simp (disch := decide) only [decodeShort, BitVec.reduceToNat, extract_left, extract_right, only, BitVec.extractLsb'_eq_self,
      Nat.reduceSub, BitVec.reduceBEq, if_true]
    rfl
  case add | sub | mul | mulh | div | rem | neg | abs | min | max | and | or | xor | not | shl | shr | sra | rotl | popc | clz |
      ctz | brev | sel | mad | icmp | fadd | fsub | fmul | fdiv | fma | fneg | fabs | fmin | fmax | fsqrt | frcp | frsq | fex2 |
      flg2 | fsin | fcos | fcmp | fclass | frnd | add2 | sub2 | mulw | shl2 | shr2 | icmp2 | lea =>
    cases he
    refine readsBack_s16r (by decide) ?_ hw
    simp (disch := decide) only [decodeRoutable, BitVec.reduceToNat, extract_left, extract_right, bit_left, bit_right,
      bit_ofBool, only, BitVec.extractLsb'_eq_self, Nat.reduceSub, BitVec.reduceBEq, BitVec.reduceGetLsb, Bool.not_false, if_true]
  all_goals nomatch he

/-- R140: an instruction of two parcels is read back by the arm of its opcode. -/
theorem readsBack_two {i : Instr} {p q : Parcel} (hw : i.wellFormed = true) (he : encode i = some [p, q]) :
    ReadsBack [p, q] i := by
  cases i <;> cases he
  case l32Routed =>
    exact readsBack_l32r hw
  case rte =>
    exact readsBack_l32i (by decide) rfl hw
  case cvtSlot =>
    refine readsBack_l32i (by decide) ?_ hw
    have nonzero : ∀ src : BitVec 3, (2#2 ++ src == 0) = false := by decide
    simp (disch := decide) only [decodeImmediate, BitVec.reduceToNat, extract_left, extract_right, only, nonzero, Bool.false_and,
      BitVec.extractLsb'_eq_self, Nat.reduceSub, BitVec.reduceBEq, Bool.and_self, if_true]
    rfl
  case cvt | wrsLfsr | wrsVigil =>
    refine readsBack_l32i (by decide) ?_ hw
    simp (disch := decide) only [decodeImmediate, BitVec.reduceToNat, extract_left, extract_right, bit_left, bit_right, bit_ofBool,
      only, BitVec.extractLsb'_eq_self, Nat.reduceSub, BitVec.reduceBEq, Bool.and_self, Bool.false_and, if_true]
    rfl
  case kmov | kadd | ksub | kmul | kand | kor | kxor | kshl | kshr | kmin | kmax | kcmp | kadd2 | klea | kld | kst | kpush | kpop |
      kred | kpsel | setperf | agen | dqpush | fetend =>
    refine readsBack_l32k (by decide) ?_ hw
    simp (disch := decide) only [decodeUniform, BitVec.reduceToNat, extract_left, extract_right, bit_left, bit_right, bit_ofBool,
      only, BitVec.extractLsb'_eq_self, Nat.reduceSub, BitVec.reduceBEq, Bool.and_self, if_true]
  -- What remains are the immediate forms that need no closing evaluation.
  all_goals
    refine readsBack_l32i (by decide) ?_ hw
    simp (disch := decide) only [decodeImmediate, BitVec.reduceToNat, extract_left, extract_right, bit_left, bit_right, bit_ofBool,
      only, BitVec.extractLsb'_eq_self, Nat.reduceSub, BitVec.reduceBEq, BitVec.reduceGetLsb, Bool.not_false, Bool.and_self, if_true]

/-- R141: an instruction of four parcels is read back by the arm of its opcode. -/
theorem readsBack_four {i : Instr} {p q r t : Parcel} (hw : i.wellFormed = true) (he : encode i = some [p, q, r, t]) :
    ReadsBack [p, q, r, t] i := by
  cases i
  case lit32 | kli | jmpX | mma | mclr | mdrain | bload | bswap | dload | tcopy | tgather | tscatter | coll | vtag =>
    cases he
    refine readsBack_x64 ?_ hw
    simp (disch := decide) only [decodeLong, BitVec.reduceToNat, extract_left, extract_right, bit_left, bit_right, bit_ofBool, only,
      BitVec.extractLsb'_eq_self, Nat.reduceSub, BitVec.reduceBEq, BitVec.reduceGetLsb, Bool.not_false, Bool.and_self, if_true]
  all_goals nomatch he

/-- R117: an instruction has one parcel, two or four. -/
theorem encode_length (i : Instr) : (encode i).all (fun ps => [1, 2, 4].contains ps.length) = true := by cases i <;> rfl

/-- R117 to R141: the parcels of a well-formed instruction are read back as it. -/
theorem readsBack_encode {i : Instr} (hw : i.wellFormed = true) {ps : List Parcel} (he : encode i = some ps) : ReadsBack ps i := by
  have length := encode_length i
  simp only [he, Option.all_some, List.contains_iff_mem, List.mem_cons, List.not_mem_nil, or_false] at length
  obtain h | h | h := length
  · obtain ⟨p, rfl⟩ := List.length_eq_one_iff.1 h
    exact readsBack_one hw he
  · obtain ⟨p, q, rfl⟩ := List.length_eq_two.1 h
    exact readsBack_two hw he
  · match ps, h with
    | [p, q, r, t], _ => exact readsBack_four hw he

/-! ## Commands (R106, R107) -/

/-- R106, R107: the words of a well-formed command whose opcode, flags and operands the table reads are read back as it. -/
theorem decodeCommand_command {op words flags : BitVec 8} {tag : BitVec 32} {operands : List (BitVec 64)} {i : Instr}
    (length : words.toNat = operands.length + 1) (h : decodeOperands op flags tag operands = some i) (hw : i.wellFormed = true) :
    decodeCommand (command op words flags tag operands) = some i := by
  have fields : (tag ++ 0#8 ++ flags ++ words ++ op : BitVec 64).extractLsb' 24 8 = 0 ∧
      headerWords (tag ++ 0#8 ++ flags ++ words ++ op) = operands.length + 1 ∧
      (tag ++ 0#8 ++ flags ++ words ++ op : BitVec 64).extractLsb' 0 8 = op ∧
      (tag ++ 0#8 ++ flags ++ words ++ op : BitVec 64).extractLsb' 16 8 = flags ∧
      (tag ++ 0#8 ++ flags ++ words ++ op : BitVec 64).extractLsb' 32 32 = tag := by
    simp (disch := decide) only [headerWords, extract_left, extract_right, Nat.reduceSub, BitVec.extractLsb'_eq_self, length]
    trivial
  obtain ⟨reserved, count, opcode, bits, name⟩ := fields
  simp only [command, decodeCommand, reserved, count, opcode, bits, name, h, beq_self_eq_true, Bool.and_self, if_true,
    Option.filter_some, hw]

/-- R107: the words of a well-formed command are read back as it. -/
theorem decodeCommand_encode {i : Instr} (hw : i.wellFormed = true) {ws : List (BitVec 64)} (he : encodeCommand i = some ws) :
    decodeCommand ws = some i := by
  cases i
  case launch | launchIndirect | copy | phase | endloop | fenceCommand | codeLoad =>
    cases he
    exact decodeCommand_command rfl rfl hw
  case graph | edge | wait | signal | loop | ifSkip | cancel | codeUnload | sealCommand =>
    cases he
    apply decodeCommand_command _ _ hw
    · rfl
    change only _ _ = _
    simp (disch := decide) only [extract_left, extract_right, bit_right, bit_ofBool, only, BitVec.extractLsb'_eq_self,
      Nat.reduceSub, BitVec.reduceBEq, Bool.and_self, if_true]
  case node tag index cmd =>
    cases he
    cases cmd with
    | launch | launchIndirect | copy =>
      apply decodeCommand_command _ _ hw
      · rfl
      change (if _ then _ else none) = _
      simp (disch := decide) only [BitVec.reduceToNat, extract_left, extract_right, BitVec.extractLsb'_eq_self,
        Nat.reduceSub, BitVec.reduceBEq, Bool.and_self, if_true]
  all_goals nomatch he

/-- Settles O58: the parcels of an instruction through their bytes, and the words of a command, each by the arm of its opcode. -/
theorem decodesEncoding : Obligations.DecodesEncoding := by
  unfold Obligations.DecodesEncoding
  exact fun i hw => ⟨fun ps rest he => (readsBack_encode hw he).decode rest, fun ws he => decodeCommand_encode hw he⟩

end Sys2Proof.Proofs
end

section
/-! PROOF. Words written out from the encoding tables (R117 to R141), and what reset leaves (R382). -/

namespace Sys2Proof.Proofs

open Sys2Proof Sys2Proof.Machine Sys2Proof.Safety

/-- Settles O57: each word by the decoder's evaluation. -/
theorem decodesWords : Obligations.DecodesWords := by
  unfold Obligations.DecodesWords
  refine ⟨?_, ?_, ?_, ?_, ?_, ?_, ?_, ?_, ?_, ?_⟩ <;> rfl

/-- Settles O60: every table is empty at reset, and each function is read from its initial value. -/
theorem resetLeaves : Obligations.ResetLeaves := by
  unfold Obligations.ResetLeaves
  refine ⟨rfl, fun slot => rfl, rfl, rfl, rfl, rfl, rfl, rfl, fun a => rfl, fun n => ⟨rfl, rfl⟩⟩

end Sys2Proof.Proofs
end

section
/-! PROOF. Lane operations from the stack to the stack (R127, R129): what an operation that may issue leaves, and with it the
floating-point instructions and conversions (R171 to R190). -/

namespace Sys2Proof.Proofs

open Sys2Proof Sys2Proof.Machine Sys2Proof.Safety

variable {s : Machine.State} {id : Nat} {w : Warp} {sp : Split}

/-! ## Operand cells and results -/

/-- R48: the operand value of so many cells at a place of a stack. -/
theorem cellsValue_take_drop (st : List Cell) (place cells : Nat) :
    cellsValue ((st.drop place).take cells) = operand st place cells := by
  have head : (st.drop place).head? = st[place]? := by simp [List.head?_drop]
  unfold operand
  split
  next h => simp [h, cellsValue]
  split
  next h =>
    subst h
    unfold cell
    rw [← head]
    cases st.drop place <;> simp [cellsValue, List.head?]
  next h0 h1 =>
    obtain ⟨n, rfl⟩ : ∃ n, cells = n + 2 := ⟨cells - 2, by omega⟩
    unfold pair
    rcases st.drop place with _ | ⟨hi, _ | ⟨lo, rest⟩⟩ <;> rfl

theorem pushValue_eq_pushed (n : Nat) (v : Dword) (st : List Cell) : pushValue n v st = pushed n v st := by
  match n with
  | 0 | 1 | n + 2 => rfl

/-- R129: neither operand of the S16 form comes from a channel. -/
theorem stack_ra : fromChannel Route.stack.ra = false := rfl

theorem stack_rb : fromChannel Route.stack.rb = false := rfl

/-- R127, R129: the result of an operation whose operands are all on the stack. -/
theorem result_stack (o : LaneOp) (ch15 : List Word) (t : Thread) :
    o.result Route.stack ch15 t =
      o.f (operand t.stack (o.b + o.a) o.x) (operand t.stack o.b o.a) (operand t.stack 0 o.b) := by
  have bottom : t.stack.take o.b = (t.stack.drop 0).take o.b := rfl
  unfold LaneOp.result LaneOp.valueX LaneOp.valueA LaneOp.valueB LaneOp.stackA LaneOp.stackB
  simp only [stack_ra, stack_rb, Bool.false_eq_true, if_false]
  rw [bottom, cellsValue_take_drop, cellsValue_take_drop, cellsValue_take_drop]

/-- R127, R129: the thread after it. -/
theorem step_stack (o : LaneOp) (ch15 : List Word) (t : Thread) :
    o.step Route.stack ch15 t =
      { t with stack := pushed o.r (o.result Route.stack ch15 t).1 (t.stack.drop (o.x + o.a + o.b)) } := by
  have kept : o.kept Route.stack t.stack = t.stack.drop (o.x + o.a + o.b) := by
    simp [LaneOp.kept, LaneOp.stackA, LaneOp.stackB, Route.stack, fromChannel, peeks, Nat.add_comm, Nat.add_left_comm]
  unfold LaneOp.step
  simp only [kept, pushValue_eq_pushed]
  simp [LaneOp.popsA, LaneOp.popsB, Route.stack, fromChannel, popChannel]

/-- R51: what it needs to issue. -/
theorem need_stack (o : LaneOp) (bytes : Nat) (b : Bool) :
    o.need Route.stack bytes b = Need.of bytes b (o.x + o.a + o.b) o.r := by
  simp [LaneOp.need, LaneOp.stackA, LaneOp.stackB, LaneOp.channels, Route.stack, fromChannel, peeks, Need.of]

/-- R101: the warp after it. -/
theorem apply_stack (o : NumberForm) : o.op.apply Route.stack w sp = o.form.warp s w sp := by
  have raised : ∀ ch15, ((w.threadsOf sp.mask).map fun t => (o.op.result Route.stack ch15 t).2).foldl (· ||| ·) w.flags =
      (w.threadsOf sp.mask).foldl (fun fl t => fl ||| (o.value t).2) w.flags := by
    intro ch15
    rw [List.foldl_map]
    simp only [result_stack]
    rfl
  have lanes : ∀ ch15, o.op.step Route.stack ch15 = o.form.lane s w sp := by
    intro ch15
    funext t
    rw [step_stack, result_stack]
    rfl
  unfold LaneOp.apply
  simp only [Warp.raiseFlags, raised, lanes]
  simp [LaneOp.popsA, LaneOp.popsB, Route.stack, fromChannel, WarpForm.warp, NumberForm.form, Warp.onLanes]

/-! ## Its issue -/

/-- R182: holding a lane block in a state. -/
theorem withDev_holdIssue (t : Machine.State) (n : Nat) : withDev t (t.dev.holdIssue w n) = held t w n := by
  unfold Dev.holdIssue held
  split <;> rfl

/-- An operation of a lane, from the stack to the stack, that may issue: its result in each lane, its flags, and the lane block
held. -/
theorem run_laneOp (o : NumberForm) (h : Ready s id w sp o.form.need) :
    (s.run fun hp d => d.laneOp hp o.bytes o.w o.hold Route.stack o.op) =
      .next (held (issued s id (o.form.warp s w sp) (after sp o.bytes o.pops o.op.r)) w o.hold) := by
  have ready : Ready s id w sp (o.op.need Route.stack o.bytes o.w) := by
    rw [need_stack]
    exact h
  rw [run_eq, laneOp_stack_ready ready, apply_stack (s := s), need_stack]
  exact congrArg _ (withDev_holdIssue (issued s id (o.form.warp s w sp) (after sp o.bytes o.pops o.op.r)) o.hold)

/-- An instruction that is a lane operation completes as its form says. -/
theorem completes_laneOp {i : Instr} (o : NumberForm)
    (hexec : ∀ s, exec i s = s.run fun hp d => d.laneOp hp o.bytes o.w o.hold Route.stack o.op) : o.completes i := by
  intro s id w sp h
  rw [hexec, run_laneOp o h]

/-! ## Floating point and conversions -/

/-- R183: a conversion between two types, of which none is illegal. -/
theorem exec_cvt {b sat : Bool} {rm : BitVec 2} {dst src : BitVec 4}
    (legal : ¬ (src = 15 ∨ dst = 15 ∨ (sat = true ∧ laneFloat dst.toNat = none))) (s : Machine.State) :
    exec (.cvt b sat rm dst src) s =
      s.run fun hp d => d.laneOp hp 4 b 0 Route.stack (convertOp src.toNat dst.toNat rm.toNat sat false) := by
  have : (src = 15 || dst = 15 || (sat && (laneFloat dst.toNat).isNone)) = false := by
    simpa [not_or, ← Option.ne_none_iff_isSome, and_assoc] using legal
  change (s.run fun hp d => if (src = 15 || dst = 15 || (sat && (laneFloat dst.toNat).isNone)) = true then d.misplaced hp
    else d.laneOp hp 4 b 0 Route.stack (convertOp src.toNat dst.toNat rm.toNat sat false)) = _
  rw [this]
  rfl

/-- Settles O7: each of these instructions is a lane operation from the stack to the stack. -/
theorem floatResults : Obligations.FloatResults := by
  unfold Obligations.FloatResults
  intro i o h
  cases i
  case fadd | fsub | fmul | fdiv | fma | fsqrt | frcp | fmin | fmax | frsq | fex2 | flg2 | fsin | fcos | fcmp | fclass | frnd |
      hadd2 | hmul2 | hfma2 | hmnx2 | dadd | dmul | dfma | ddiv | dsqrt =>
    cases h
    exact completes_laneOp _ fun _ => rfl
  case cvt b sat rm dst src =>
    change (if src = 15 ∨ dst = 15 ∨ (sat = true ∧ laneFloat dst.toNat = none) then none else some _) = some o at h
    split at h
    · nomatch h
    next legal =>
      cases h
      exact completes_laneOp _ (exec_cvt legal)
  all_goals nomatch h

/-! ## Through format slots, and across a warp (R186 to R189) -/

/-- R97: the slot that the issuing warp reads. -/
theorem issuerSlot_issues (h : Issues s id w sp) (n : Nat) : s.dev.issuerSlot n = formatSlot s w n := by
  unfold Dev.issuerSlot formatSlot
  simp only [h.issuer, h.warp]
  rfl

theorem low_setWidth (v : Word) : low (BitVec.setWidth 64 v) = v :=
  BitVec.eq_of_toNat_eq (by simp [low]; omega)

theorem topWord_eq (t : Thread) : topWord t = cell t.stack 0 := by
  unfold topWord cell
  cases t.stack with
  | nil => rfl
  | cons c st => exact low_setWidth c.word

theorem popPush_eq (n : Nat) (v : Word) (st : List Cell) : popPush n v st = .full v :: st.drop n := rfl

/-- R186: a conversion through two slots of lane types. -/
theorem exec_cvtSlot {wbit : Bool} {src dst : BitVec 3} {x y : Nat} (h : Issues s id w sp)
    (hx : laneTypeOf (formatSlot s w src.toNat).format.toNat = some x)
    (hy : laneTypeOf (formatSlot s w dst.toNat).format.toNat = some y) :
    exec (.cvtSlot wbit src dst) s =
      s.run fun hp d => d.laneOp hp 4 wbit 0 Route.stack
        (convertOp x y (formatSlot s w dst.toNat).round (formatSlot s w dst.toNat).sat (formatSlot s w src.toNat).naz) := by
  change execCvtSlot wbit src dst s = _
  unfold execCvtSlot State.run
  simp only [issuerSlot_issues h, hx, hy]

/-- R188: `bpack` through a slot of a dense block format. -/
theorem completes_bpack (wbit : Bool) (slot : BitVec 3) (m : Nat) : (packForm wbit slot m).completes (.bpack wbit slot) := by
  intro s id w sp h legal
  have dense : denseSlot (s.dev.issuerSlot slot.toNat) = some m := by
    rw [issuerSlot_issues h.issues]
    exact beq_iff_eq.1 legal
  change execBpack wbit slot s = _
  unfold execBpack
  rw [run_eq]
  simp only [dense]
  rw [issueWarp_ready (n := Need.of 4 wbit 1 1) h, issuerSlot_issues h.issues, commit_issued, withDev_issued]
  simp only [Warp.raiseFlags, List.foldl_map]
  rfl

/-- R189: `bunpack` through such a slot. -/
theorem completes_bunpack (wbit : Bool) (slot : BitVec 3) (m : Nat) :
    (unpackForm wbit slot m).completes (.bunpack wbit slot) := by
  intro s id w sp h legal
  have dense : denseSlot (s.dev.issuerSlot slot.toNat) = some m := by
    rw [issuerSlot_issues h.issues]
    exact beq_iff_eq.1 legal
  change execBunpack wbit slot s = _
  unfold execBunpack
  rw [run_eq]
  simp only [dense]
  rw [issueWarp_ready (n := Need.of 4 wbit 1 1) h, commit_issued, withDev_issued]
  rfl

/-- Settles O8: a conversion through slots is a lane operation, and the two block instructions change their own warp. -/
theorem slotConversionResults : Obligations.SlotConversionResults := by
  unfold Obligations.SlotConversionResults
  refine ⟨?_, fun wbit slot m => ⟨completes_bpack wbit slot m, completes_bunpack wbit slot m⟩⟩
  intro wbit src dst x y s id w sp hx hy o h
  rw [exec_cvtSlot h.issues hx hy]
  exact run_laneOp o h

end Sys2Proof.Proofs
end

section
/-! PROOF. The integer instructions on words and pairs (R161 to R170): the value of each operation as a number, and the stack that
the instruction leaves. -/

namespace Sys2Proof.Proofs

open Sys2Proof Sys2Proof.Machine Sys2Proof.Safety

/-! ## Arithmetic of words (R162 to R164) -/

theorem ofInt_toInt_add {n : Nat} (a b : BitVec n) : BitVec.ofInt n (a.toInt + b.toInt) = a + b := by
  rw [BitVec.ofInt_add, BitVec.ofInt_toInt, BitVec.ofInt_toInt]

theorem ofInt_toInt_sub {n : Nat} (a b : BitVec n) : BitVec.ofInt n (a.toInt - b.toInt) = a - b := by
  rw [Int.sub_eq_add_neg, BitVec.ofInt_add, BitVec.ofInt_neg, BitVec.ofInt_toInt, BitVec.ofInt_toInt, BitVec.sub_eq_add_neg]

theorem ofNat_toNat_mul {n : Nat} (a b : BitVec n) : BitVec.ofNat n (a.toNat * b.toNat) = a * b := by
  rw [BitVec.ofNat_mul, BitVec.ofNat_toNat, BitVec.ofNat_toNat, BitVec.setWidth_eq, BitVec.setWidth_eq]

/-- R163: the limits of a saturating form. -/
theorem saturate_eq (nat : Bool) (v : Int) : saturate nat v = if nat then satNatural v else satSigned v := by
  have limits : ∀ lo hi : Int, lo ≤ hi → (if v < lo then lo else if hi < v then hi else v) = max lo (min hi v) := by
    intro lo hi h
    split
    · omega
    · split <;> omega
  cases nat
  · exact congrArg (BitVec.ofInt 32) (limits _ _ (by decide))
  · exact congrArg (BitVec.ofInt 32) (limits _ _ (by decide))

/-- R162: the high half of a product. -/
theorem high_ofInt (v : Int) : high (BitVec.ofInt 64 v) = BitVec.ofInt 32 (v / 2 ^ 32) := by
  apply BitVec.eq_of_toNat_eq
  simp only [high, BitVec.extractLsb'_toNat, BitVec.toNat_ofInt, Nat.shiftRight_eq_div_pow]
  omega

theorem remainder_eq (nat : Bool) (a b : Word) :
    remainder nat a b =
      if b = 0 then a else BitVec.ofInt 32 (value nat a - (value nat a).tdiv (value nat b) * value nat b) := by
  unfold remainder wrapWord
  rw [Int.tmod_def, Int.mul_comm]
  rfl

theorem ofInt_natAbs (a : Word) : BitVec.ofInt 32 a.toInt.natAbs = if a.msb then -a else a := by
  rw [BitVec.msb_eq_toInt]
  by_cases h : a.toInt < 0
  · have : (a.toInt.natAbs : Int) = -a.toInt := by omega
    rw [this, BitVec.ofInt_neg, BitVec.ofInt_toInt, if_pos (decide_eq_true h)]
  · have : (a.toInt.natAbs : Int) = a.toInt := by omega
    rw [this, BitVec.ofInt_toInt, if_neg (by simpa using h)]

/-! ## Shifts (R165) -/

theorem shiftLeft_eq_ofNat {n : Nat} (a : BitVec n) (b : Nat) : a <<< b = BitVec.ofNat n (a.toNat * 2 ^ b) := by
  apply BitVec.eq_of_toNat_eq
  rw [BitVec.toNat_shiftLeft, BitVec.toNat_ofNat, Nat.shiftLeft_eq]

theorem ushiftRight_eq_ofNat {n : Nat} (a : BitVec n) (b : Nat) : a >>> b = BitVec.ofNat n (a.toNat / 2 ^ b) := by
  apply BitVec.eq_of_toNat_eq
  rw [BitVec.toNat_ushiftRight, BitVec.toNat_ofNat, Nat.shiftRight_eq_div_pow,
    Nat.mod_eq_of_lt (Nat.lt_of_le_of_lt (Nat.div_le_self ..) a.isLt)]

theorem ushiftRight_eq_ofInt {n : Nat} (a : BitVec n) (b : Nat) : a >>> b = BitVec.ofInt n ((a.toNat : Int) / 2 ^ b) := by
  rw [ushiftRight_eq_ofNat, ← BitVec.ofInt_natCast]
  norm_cast

theorem sshiftRight_eq_ofInt {n : Nat} (a : BitVec n) (b : Nat) : a.sshiftRight b = BitVec.ofInt n (a.toInt / 2 ^ b) := by
  rw [← BitVec.ofInt_toInt (x := a.sshiftRight b), BitVec.toInt_sshiftRight, Int.shiftRight_eq_div_pow]
  norm_cast

/-- A shift by all bits but the sign leaves the sign. -/
theorem sshiftRight_sign {n : Nat} (a : BitVec (n + 1)) : a.sshiftRight n = if a.toInt < 0 then BitVec.ofInt _ (-1) else 0 := by
  have low := a.le_toInt
  have high := a.toInt_lt
  have pos : (0 : Int) < 2 ^ n := by positivity
  simp only [Nat.add_sub_cancel] at low high
  rw [sshiftRight_eq_ofInt]
  split
  · have : a.toInt / 2 ^ n = -1 := by
      rw [Int.ediv_eq_iff_of_pos pos]
      omega
    rw [this]
  · rw [Int.ediv_eq_zero_of_lt (by omega) high]
    rfl

/-- R165: an arithmetic shift, by a count that may be past the word. -/
theorem sshiftRight_min {n : Nat} (a : BitVec (n + 1)) (b : Nat) :
    a.sshiftRight (Nat.min b n) =
      if b < n + 1 then BitVec.ofInt _ (a.toInt / 2 ^ b) else if a.toInt < 0 then BitVec.ofInt _ (-1) else 0 := by
  split
  next h => rw [show Nat.min b n = b from Nat.min_eq_left (by omega), sshiftRight_eq_ofInt]
  next h => rw [show Nat.min b n = n from Nat.min_eq_right (by omega), sshiftRight_sign]

theorem shiftArith_eq (a b : Word) :
    shiftArith a b =
      if b.toNat < 32 then BitVec.ofInt 32 (a.toInt / 2 ^ b.toNat) else if 0 ≤ a.toInt then 0 else 0xFFFFFFFF := by
  refine (sshiftRight_min (n := 31) a b.toNat).trans ?_
  by_cases h : a.toInt < 0
  · simp [h, Int.not_le.2 h]
  · simp [h, Int.not_lt.1 h]

/-! ## Counts and reversal of bits (R165) -/

theorem bitCount_eq (a : Word) : bitCount a = BitVec.ofNat 32 ((List.range 32).countP fun i => a.getLsbD i) := by
  rw [List.countP_eq_length_filter]
  rfl

/-- The first place from the left with a 1 is that of the logarithm. -/
theorem leadingZeros_eq (a : Word) :
    leadingZeros a = if a = 0 then 32 else BitVec.ofNat 32 (31 - Nat.log2 a.toNat) := by
  split
  next h => subst h; rfl
  next h =>
    have nonzero : a.toNat ≠ 0 := fun e => h (BitVec.eq_of_toNat_eq e)
    have top : Nat.log2 a.toNat < 32 := (Nat.log2_lt nonzero).2 a.isLt
    have found : (List.range 32).reverse.findIdx? (fun i => a.getLsbD i) = some (31 - Nat.log2 a.toNat) := by
      rw [List.findIdx?_eq_some_iff_getElem]
      refine ⟨by simp; omega, ?_, fun j hj => ?_⟩
      · have place : 32 - 1 - (31 - Nat.log2 a.toNat) = Nat.log2 a.toNat := by omega
        simp [place, BitVec.getLsbD, Nat.testBit_log2 nonzero]
      · have below : a.toNat < 2 ^ (32 - 1 - j) := (Nat.log2_lt nonzero).1 (by omega)
        simp [BitVec.getLsbD, Nat.testBit_eq_false_of_lt below]
    unfold leadingZeros firstOne
    rw [found]
    rfl

/-- The remainder by a power of two is 0 where every bit below it is 0. -/
theorem mod_twoPow_eq_zero (v k : Nat) : v % 2 ^ k = 0 ↔ ∀ j < k, v.testBit j = false := by
  constructor
  · intro h j hj
    have bit := Nat.testBit_mod_two_pow v k j
    rw [h] at bit
    simpa [hj] using bit.symm
  · intro h
    apply Nat.eq_of_testBit_eq
    intro j
    by_cases hj : j < k <;> simp [Nat.testBit_mod_two_pow, hj, h]

theorem trailingZeros_eq (a : Word) :
    trailingZeros a =
      BitVec.ofNat 32 (((List.range 32).find? fun i => decide (a.toNat % 2 ^ (i + 1) ≠ 0)).getD 32) := by
  unfold trailingZeros firstOne
  congr 2
  rcases h : (List.range 32).findIdx? (fun i => a.getLsbD i) with _ | i
  · rw [List.findIdx?_eq_none_iff] at h
    symm
    rw [List.find?_eq_none]
    intro i hi
    have zero : a.toNat % 2 ^ (i + 1) = 0 := (mod_twoPow_eq_zero ..).2 fun j hj => h j (by simp at hi ⊢; omega)
    simp [zero]
  · rw [List.findIdx?_eq_some_iff_getElem] at h
    obtain ⟨hi, one, zeros⟩ := h
    simp only [List.getElem_range, Bool.not_eq_true] at one zeros
    symm
    rw [List.find?_range_eq_some]
    refine ⟨?_, by simpa using hi, fun j hj => ?_⟩
    · simp only [ne_eq, decide_not, Bool.not_eq_true', decide_eq_false_iff_not, mod_twoPow_eq_zero]
      intro all
      exact absurd one (by simpa [BitVec.getLsbD] using all i (by omega))
    · have zero : a.toNat % 2 ^ (j + 1) = 0 := (mod_twoPow_eq_zero ..).2 fun k hk => zeros k (by omega)
      simp [zero]

/-- The bits of a word that is built from its lowest bit up. -/
theorem getLsbD_foldl_bits (p : Nat → Bool) (n j : Nat) (h : n ≤ 32) :
    ((List.range n).foldl (fun r i => if p i then r ||| 1#32 <<< i else r) (0 : Word)).getLsbD j = (decide (j < n) && p j) := by
  induction n with
  | zero => simp
  | succ n ih =>
    rw [List.range_succ, List.foldl_append, List.foldl_cons, List.foldl_nil]
    have bit : (1#32 <<< n).getLsbD j = decide (j = n) := by
      simp only [BitVec.getLsbD_shiftLeft, BitVec.getLsbD_one]
      by_cases hj : j = n
      · subst hj; simp; omega
      · simp [hj]; omega
    by_cases hp : p n
    · rw [if_pos hp, BitVec.getLsbD_or, ih (by omega), bit]
      by_cases hj : j = n
      · subst hj; simp [hp]
      · simp [hj, show j < n + 1 ↔ j < n by omega]
    · rw [if_neg hp, ih (by omega)]
      by_cases hj : j = n
      · subst hj; simp [hp]
      · simp [show j < n + 1 ↔ j < n by omega]

theorem bitReverse_eq (a : Word) :
    bitReverse a = (List.range 32).foldl (fun r i => if a.getLsbD (31 - i) then r ||| 1#32 <<< i else r) 0 := by
  apply BitVec.eq_of_getLsbD_eq
  intro j hj
  rw [getLsbD_foldl_bits (fun i => a.getLsbD (31 - i)) 32 j (by decide), bitReverse, BitVec.getLsbD_reverse,
    BitVec.getMsbD_eq_getLsbD]

/-! ## Comparison (R167) -/

theorem compareInt_eq_holds (cond : BitVec 3) (h : cond.toNat < 6) (a b : Int) : compareInt cond a b = holds cond a b := by
  have codes : cond = 0 ∨ cond = 1 ∨ cond = 2 ∨ cond = 3 ∨ cond = 4 ∨ cond = 5 := by
    revert cond; decide
  rcases codes with rfl | rfl | rfl | rfl | rfl | rfl <;> simp [compareInt, holds, bne, beq_eq_decide]

/-! ## Bit fields (R168) -/

/-- What a mask keeps, and what it cuts away, have no bit in common. -/
theorem and_mask_apart (x y m : Word) : (x &&& m) &&& (y &&& ~~~m) = 0 := by
  apply BitVec.eq_of_getLsbD_eq
  intro i hi
  cases h : m.getLsbD i <;> simp [h]

theorem toNat_fieldMask {len : Nat} (h : len ≤ 32) : (fieldMask len).toNat = 2 ^ len - 1 := by
  have : 2 ^ len ≤ 2 ^ 32 := Nat.pow_le_pow_right (by decide) h
  rw [fieldMask, BitVec.toNat_ofNat, Nat.mod_eq_of_lt (by omega)]

/-- The field of a number. -/
theorem toNat_field {len : Nat} (h : len ≤ 32) (pos : Nat) (a : Word) :
    ((a >>> pos) &&& fieldMask len).toNat = a.toNat / 2 ^ pos % 2 ^ len := by
  rw [BitVec.toNat_and, toNat_fieldMask h, Nat.and_two_pow_sub_one_eq_mod, BitVec.toNat_ushiftRight,
    Nat.shiftRight_eq_div_pow]

theorem not_fieldMask {len : Nat} (h : len ≤ 32) : ~~~(fieldMask len) = BitVec.ofInt 32 (-2 ^ len) := by
  have bound : 2 ^ len ≤ 2 ^ 32 := Nat.pow_le_pow_right (by decide) h
  have pos : 1 ≤ 2 ^ len := Nat.one_le_two_pow
  have cast : ((2 ^ len : Nat) : Int) = 2 ^ len := by norm_cast
  apply BitVec.eq_of_toNat_eq
  rw [BitVec.toNat_not, toNat_fieldMask h, BitVec.toNat_ofInt, ← cast]
  generalize 2 ^ len = m at bound pos
  omega

theorem extractField_eq (signed : Bool) (len pos : Nat) (h : len < 32) (a : Word) :
    extractField signed (len + 1) pos a =
      let v := a.toNat / 2 ^ pos % 2 ^ (len + 1)
      BitVec.ofInt 32 (if signed ∧ 2 ^ len ≤ v then (v : Int) - 2 ^ (len + 1) else v) := by
  have field := toNat_field (show len + 1 ≤ 32 by omega) pos a
  have apart : ((a >>> pos) &&& fieldMask (len + 1)) &&& ~~~(fieldMask (len + 1)) = 0 := by
    simpa only [BitVec.and_self] using and_mask_apart (a >>> pos) (~~~(fieldMask (len + 1))) (fieldMask (len + 1))
  unfold extractField
  simp only [Nat.add_sub_cancel]
  generalize (a >>> pos) &&& fieldMask (len + 1) = v at field apart
  rw [← field]
  have below : v.toNat < 2 * 2 ^ len := by rw [field, ← Nat.pow_succ']; exact Nat.mod_lt _ (by positivity)
  have sign : v.getLsbD len = decide (2 ^ len ≤ v.toNat) := by
    rw [BitVec.getLsbD, Nat.testBit_eq_decide_div_mod_eq]
    by_cases hv : 2 ^ len ≤ v.toNat
    · have : v.toNat / 2 ^ len = 1 := Nat.div_eq_of_lt_le (by omega) (by omega)
      simp [this, hv]
    · simp [Nat.div_eq_of_lt (Nat.not_le.1 hv), hv]
  have whole : BitVec.ofInt 32 (v.toNat : Int) = v := by rw [BitVec.ofInt_natCast, BitVec.ofNat_toNat, BitVec.setWidth_eq]
  rw [sign]
  by_cases hs : signed = true ∧ 2 ^ len ≤ v.toNat
  · rw [if_pos (by simpa using hs), if_pos hs, ← BitVec.add_eq_or_of_and_eq_zero _ _ apart,
      not_fieldMask (by omega), Int.sub_eq_add_neg, BitVec.ofInt_add, whole]
  · rw [if_neg (by simpa using hs), if_neg hs, whole]

/-- A number cut to a field in its place. -/
theorem and_shifted_mask (v len pos : Nat) : v &&& (2 ^ len - 1) * 2 ^ pos = v / 2 ^ pos % 2 ^ len * 2 ^ pos := by
  apply Nat.eq_of_testBit_eq
  intro j
  by_cases hj : pos ≤ j
  · simp [Nat.testBit_mul_two_pow, hj, Nat.testBit_mod_two_pow, Nat.testBit_div_two_pow, Bool.and_comm]
  · simp [Nat.testBit_mul_two_pow, hj]

theorem insertField_eq (len pos : Nat) (h : pos + len ≤ 32) (a b : Word) :
    insertField len pos a b =
      BitVec.ofNat 32 (a.toNat - a.toNat / 2 ^ pos % 2 ^ len * 2 ^ pos + b.toNat % 2 ^ len * 2 ^ pos) := by
  have split32 : 2 ^ 32 = 2 ^ pos * 2 ^ (32 - pos) := by rw [← Nat.pow_add]; congr 1; omega
  have mask : (fieldMask len <<< pos).toNat = (2 ^ len - 1) * 2 ^ pos := by
    have : 2 ^ len ≤ 2 ^ (32 - pos) := Nat.pow_le_pow_right (by decide) (by omega)
    have small : (2 ^ len - 1) * 2 ^ pos < 2 ^ 32 := by
      rw [split32, Nat.mul_comm]
      exact Nat.mul_lt_mul_of_pos_left (by have := Nat.one_le_two_pow (n := len); omega) (by positivity)
    rw [BitVec.toNat_shiftLeft, toNat_fieldMask (by omega), Nat.shiftLeft_eq, Nat.mod_eq_of_lt small]
  have old : (a &&& (fieldMask len <<< pos)).toNat = a.toNat / 2 ^ pos % 2 ^ len * 2 ^ pos := by
    rw [BitVec.toNat_and, mask, and_shifted_mask]
  have new : ((b <<< pos) &&& (fieldMask len <<< pos)).toNat = b.toNat % 2 ^ len * 2 ^ pos := by
    rw [BitVec.toNat_and, mask, and_shifted_mask, BitVec.toNat_shiftLeft, Nat.shiftLeft_eq, split32, Nat.mul_comm b.toNat,
      Nat.mul_mod_mul_left, Nat.mul_div_cancel_left _ (by positivity),
      Nat.mod_mod_of_dvd _ (Nat.pow_dvd_pow 2 (by omega))]
  have rest : a &&& ~~~(fieldMask len <<< pos) = a - (a &&& (fieldMask len <<< pos)) := by
    have sum : (a &&& (fieldMask len <<< pos)) + (a &&& ~~~(fieldMask len <<< pos)) = a := by
      rw [BitVec.add_eq_or_of_and_eq_zero _ _ (and_mask_apart ..), ← BitVec.and_or_distrib_left, BitVec.or_not_self,
        BitVec.and_allOnes]
    rw [eq_comm, BitVec.sub_eq_iff_eq_add, BitVec.add_comm, sum]
  have apart : (a &&& ~~~(fieldMask len <<< pos)) &&& ((b <<< pos) &&& (fieldMask len <<< pos)) = 0 := by
    rw [BitVec.and_comm]
    exact and_mask_apart ..
  unfold insertField
  rw [← BitVec.add_eq_or_of_and_eq_zero _ _ apart, rest]
  have le : (a &&& (fieldMask len <<< pos)).toNat ≤ a.toNat := by
    rw [BitVec.toNat_and]
    exact Nat.and_le_left
  apply BitVec.eq_of_toNat_eq
  rw [BitVec.toNat_add, BitVec.toNat_sub_of_le (BitVec.le_def.2 le), old, new, BitVec.toNat_ofNat]

end Sys2Proof.Proofs
end

section
/-! PROOF. The integer instructions on words and pairs (R161 to R170), from the value of their operation to the state that they
leave. -/

namespace Sys2Proof.Proofs

open Sys2Proof Sys2Proof.Machine Sys2Proof.Safety

variable {s : Machine.State} {id : Nat} {w : Warp} {sp : Split} {i : Instr} {bytes : Nat} {b : Bool}

/-! ## Operations without flags -/

/-- The stack of a lane after an operation from the stack to the stack. -/
def opCells (o : LaneOp) (st : List Cell) : List Cell :=
  pushed o.r (o.f (operand st (o.b + o.a) o.x) (operand st o.b o.a) (operand st 0 o.b)).1 (st.drop (o.x + o.a + o.b))

/-- An operation that raises no flag changes only the stacks of its split. -/
theorem warp_of_noFlags {o : NumberForm} (noFlags : ∀ x a b, (o.op.f x a b).2 = 0) :
    o.form.warp s w sp = onStacks w sp (opCells o.op) := by
  have raised : ∀ (ts : List Thread) (fl : Flags), ts.foldl (fun fl t => fl ||| (o.value t).2) fl = fl := by
    intro ts fl
    have zero : ∀ t, (o.value t).2 = 0 := fun t => noFlags _ _ _
    simp [zero]
  unfold WarpForm.warp NumberForm.form
  simp only [raised]
  rfl

/-- Such an operation, where it may issue. -/
theorem run_noFlags {o : LaneOp} (noFlags : ∀ x a b, (o.f x a b).2 = 0) (h : Ready s id w sp (Need.of bytes b (o.x + o.a + o.b) o.r)) :
    (s.run fun hp d => d.laneOp hp bytes b 0 Route.stack o) =
      .next (issued s id (onStacks w sp (opCells o)) (after sp bytes (o.x + o.a + o.b) o.r)) := by
  have run := run_laneOp ⟨bytes, b, 0, o⟩ h
  rw [warp_of_noFlags noFlags] at run
  exact run

/-! ## Words -/

/-- The instruction completes as its form says. -/
def WordCompletes (i : Instr) (o : WordForm) : Prop :=
  ∀ (s : Machine.State) (id : Nat) (w : Warp) (sp : Split), Ready s id w sp (Need.of o.bytes o.w o.pops 1) →
    exec i s = .next (issued s id (onStacks w sp o.onCells) (after sp o.bytes o.pops 1))

theorem operand_one (st : List Cell) (place : Nat) : low (operand st place 1) = cell st place := low_setWidth _

theorem pushed_one (v : Word) (st : List Cell) : pushed 1 (BitVec.setWidth 64 v) st = .full v :: st :=
  congrArg (fun u => Cell.full u :: st) (low_setWidth v)

theorem opCells_op1 (f : Word → Word) (st : List Cell) : opCells (op1 f) st = .full (f (cell st 0)) :: st.drop 1 := by
  unfold opCells op1
  rw [pushed_one, operand_one]
  rfl

theorem opCells_op2 (f : Word → Word → Word) (st : List Cell) :
    opCells (op2 f) st = .full (f (cell st 1) (cell st 0)) :: st.drop 2 := by
  unfold opCells op2
  rw [pushed_one, operand_one, operand_one]
  rfl

theorem opCells_op3 (f : Word → Word → Word → Word) (st : List Cell) :
    opCells (op3 f) st = .full (f (cell st 2) (cell st 1) (cell st 0)) :: st.drop 3 := by
  unfold opCells op3
  rw [pushed_one, operand_one, operand_one, operand_one]
  rfl

/-- An instruction that is a unary operation with the form's value. -/
theorem wordCompletes_op1 {f : Word → Word} {g : Word → Word → Word → Word}
    (hexec : ∀ s, exec i s = s.run fun hp d => d.laneOp hp bytes b 0 Route.stack (op1 f)) (hf : ∀ x y a, g x y a = f a) :
    WordCompletes i ⟨bytes, b, 1, g⟩ := by
  intro s id w sp h
  have cells : WordForm.onCells ⟨bytes, b, 1, g⟩ = opCells (op1 f) := by
    funext st
    rw [opCells_op1, ← hf (cell st 2) (cell st 1)]
    rfl
  rw [hexec, run_noFlags (fun _ _ _ => rfl) h, cells]
  rfl

/-- An instruction that is a binary operation with the form's value. -/
theorem wordCompletes_op2 {f : Word → Word → Word} {g : Word → Word → Word → Word}
    (hexec : ∀ s, exec i s = s.run fun hp d => d.laneOp hp bytes b 0 Route.stack (op2 f)) (hf : ∀ x a c, g x a c = f a c) :
    WordCompletes i ⟨bytes, b, 2, g⟩ := by
  intro s id w sp h
  have cells : WordForm.onCells ⟨bytes, b, 2, g⟩ = opCells (op2 f) := by
    funext st
    rw [opCells_op2, ← hf (cell st 2)]
    rfl
  rw [hexec, run_noFlags (fun _ _ _ => rfl) h, cells]
  rfl

/-- An instruction that is a ternary operation with the form's value. -/
theorem wordCompletes_op3 {f : Word → Word → Word → Word} {g : Word → Word → Word → Word}
    (hexec : ∀ s, exec i s = s.run fun hp d => d.laneOp hp bytes b 0 Route.stack (op3 f)) (hf : ∀ x a c, g x a c = f x a c) :
    WordCompletes i ⟨bytes, b, 3, g⟩ := by
  intro s id w sp h
  have cells : WordForm.onCells ⟨bytes, b, 3, g⟩ = opCells (op3 f) := by
    funext st
    rw [opCells_op3, ← hf]
    rfl
  rw [hexec, run_noFlags (fun _ _ _ => rfl) h, cells]
  rfl

/-- R124: a comparison whose condition is one of the six. -/
theorem exec_icmp {nat : Bool} {cond : BitVec 3} (h : cond.toNat < 6) (s : Machine.State) :
    exec (.icmp b nat cond) s = s.run fun hp d => d.laneOp hp 2 b 0 Route.stack (intCmp nat cond) := if_neg (Nat.not_le.2 h)

/-- R168: a field that lies within the word. -/
theorem exec_bfe {signed : Bool} {len pos : BitVec 5} (h : pos.toNat + len.toNat < 32) (s : Machine.State) :
    exec (.bfe b signed len pos) s =
      s.run fun hp d => d.laneOp hp 4 b 0 Route.stack (op1 (extractField signed (len.toNat + 1) pos.toNat)) := by
  change execBfe b signed len pos s = _
  unfold execBfe
  simp only [show ¬ 32 < pos.toNat + (len.toNat + 1) by omega, if_false]

theorem exec_bfi {len pos : BitVec 5} (h : pos.toNat + len.toNat < 32) (s : Machine.State) :
    exec (.bfi b len pos) s =
      s.run fun hp d => d.laneOp hp 4 b 0 Route.stack (op2 (insertField (len.toNat + 1) pos.toNat)) := by
  change execBfi b len pos s = _
  unfold execBfi
  simp only [show ¬ 32 < pos.toNat + (len.toNat + 1) by omega, if_false]

theorem intAdd_sat (nat : Bool) : intAdd nat true = op2 fun a c => saturate nat (value nat a + value nat c) := by
  simp only [saturate_eq]
  rfl

/-- R162, R163: the two signed forms of addition, and the natural one. -/
theorem wordCompletes_add (b nat sat : Bool) {o : WordForm} (h : wordForm (.add b nat sat) = some o) :
    WordCompletes (.add b nat sat) o := by
  cases sat <;> cases nat <;> cases h
  · exact wordCompletes_op2 (fun _ => rfl) fun _ a c => ofInt_toInt_add a c
  · exact wordCompletes_op2 (fun _ => by rw [← intAdd_sat]; rfl) fun _ _ _ => rfl
  · exact wordCompletes_op2 (fun _ => by rw [← intAdd_sat]; rfl) fun _ _ _ => rfl

theorem intSub_sat (nat : Bool) : intSub nat true = op2 fun a c => saturate nat (value nat a - value nat c) := by
  simp only [saturate_eq]
  rfl

theorem wordCompletes_sub (b nat sat : Bool) {o : WordForm} (h : wordForm (.sub b nat sat) = some o) :
    WordCompletes (.sub b nat sat) o := by
  cases sat <;> cases nat <;> cases h
  · exact wordCompletes_op2 (fun _ => rfl) fun _ a c => ofInt_toInt_sub a c
  · exact wordCompletes_op2 (fun _ => by rw [← intSub_sat]; rfl) fun _ _ _ => rfl
  · exact wordCompletes_op2 (fun _ => by rw [← intSub_sat]; rfl) fun _ _ _ => rfl

theorem min_eq (nat : Bool) (a c : Word) :
    (if value nat a ≤ value nat c then a else c) = if wordInt nat c < wordInt nat a then c else a := by
  change _ = if value nat c < value nat a then c else a
  by_cases h : value nat a ≤ value nat c
  · rw [if_pos h, if_neg (Int.not_lt.2 h)]
  · rw [if_neg h, if_pos (Int.not_le.1 h)]

theorem max_eq (nat : Bool) (a c : Word) :
    (if value nat c ≤ value nat a then a else c) = if wordInt nat a < wordInt nat c then c else a := by
  change _ = if value nat a < value nat c then c else a
  by_cases h : value nat c ≤ value nat a
  · rw [if_pos h, if_neg (Int.not_lt.2 h)]
  · rw [if_neg h, if_pos (Int.not_le.1 h)]

theorem mad_eq (x a c : Word) : BitVec.ofNat 32 (x.toNat + a.toNat * c.toNat) = x + a * c := by
  rw [BitVec.ofNat_add, ofNat_toNat_mul, BitVec.ofNat_toNat, BitVec.setWidth_eq]

theorem sel_eq (x a c : Word) : (if x ≠ 0 then a else c) = if x != 0 then a else c := by simp

/-- Settles O1: each instruction is an operation of one, two or three words, whose value as a number is that of its table. -/
theorem integerWordResults : Obligations.IntegerWordResults := by
  unfold Obligations.IntegerWordResults
  change ∀ i o, wordForm i = some o → WordCompletes i o
  intro i o h
  cases i
  case add b nat sat => exact wordCompletes_add b nat sat h
  case sub b nat sat => exact wordCompletes_sub b nat sat h
  case mul => cases h; exact wordCompletes_op2 (fun _ => rfl) fun _ a c => ofNat_toNat_mul a c
  case mulh => cases h; exact wordCompletes_op2 (fun _ => rfl) fun _ _ _ => (high_ofInt _).symm
  case div => cases h; exact wordCompletes_op2 (fun _ => rfl) fun _ _ _ => rfl
  case rem => cases h; exact wordCompletes_op2 (fun _ => rfl) fun _ a c => (remainder_eq _ a c).symm
  case neg =>
    cases h
    exact wordCompletes_op1 (fun _ => rfl) fun _ _ a => by rw [BitVec.ofInt_neg, BitVec.ofInt_toInt]
  case abs => cases h; exact wordCompletes_op1 (fun _ => rfl) fun _ _ a => ofInt_natAbs a
  case min => cases h; exact wordCompletes_op2 (fun _ => rfl) fun _ a c => min_eq _ a c
  case max => cases h; exact wordCompletes_op2 (fun _ => rfl) fun _ a c => max_eq _ a c
  case and | or | xor => cases h; exact wordCompletes_op2 (fun _ => rfl) fun _ _ _ => rfl
  case not => cases h; exact wordCompletes_op1 (fun _ => rfl) fun _ _ _ => rfl
  case shl => cases h; exact wordCompletes_op2 (fun _ => rfl) fun _ a c => by rw [← shiftLeft_eq_ofNat]; rfl
  case shr => cases h; exact wordCompletes_op2 (fun _ => rfl) fun _ a c => by rw [← ushiftRight_eq_ofNat]; rfl
  case sra => cases h; exact wordCompletes_op2 (fun _ => rfl) fun _ a c => (shiftArith_eq a c).symm
  case rotl =>
    cases h
    exact wordCompletes_op2 (fun _ => rfl) fun _ a c => by rw [rotateLeft, BitVec.rotateLeft_def, Nat.mod_mod]
  case popc => cases h; exact wordCompletes_op1 (fun _ => rfl) fun _ _ a => (bitCount_eq a).symm
  case clz => cases h; exact wordCompletes_op1 (fun _ => rfl) fun _ _ a => (leadingZeros_eq a).symm
  case ctz => cases h; exact wordCompletes_op1 (fun _ => rfl) fun _ _ a => (trailingZeros_eq a).symm
  case brev => cases h; exact wordCompletes_op1 (fun _ => rfl) fun _ _ a => (bitReverse_eq a).symm
  case sel => cases h; exact wordCompletes_op3 (fun _ => rfl) sel_eq
  case mad => cases h; exact wordCompletes_op3 (fun _ => rfl) mad_eq
  case icmp b nat cond =>
    change (if cond.toNat < 6 then some _ else none) = some o at h
    split at h
    next legal =>
      cases h
      exact wordCompletes_op2 (exec_icmp legal) fun _ a c => by rw [← compareInt_eq_holds cond legal]; rfl
    · nomatch h
  case bfe b signed len pos =>
    change (if pos.toNat + len.toNat < 32 then some _ else none) = some o at h
    split at h
    next legal =>
      cases h
      exact wordCompletes_op1 (exec_bfe legal) fun _ _ a => (extractField_eq signed len.toNat pos.toNat (by omega) a).symm
    · nomatch h
  case bfi b len pos =>
    change (if pos.toNat + len.toNat < 32 then some _ else none) = some o at h
    split at h
    next legal =>
      cases h
      exact wordCompletes_op2 (exec_bfi legal) fun _ a c => (insertField_eq (len.toNat + 1) pos.toNat (by omega) a c).symm
    · nomatch h
  all_goals nomatch h

/-! ## Pairs -/

/-- The instruction completes as its form says. -/
def PairCompletes (i : Instr) (o : PairForm) : Prop :=
  ∀ (s : Machine.State) (id : Nat) (w : Warp) (sp : Split), Ready s id w sp (Need.of 2 o.w o.pops o.pushes) →
    exec i s = .next (issued s id (onStacks w sp o.f) (after sp 2 o.pops o.pushes))

/-- An instruction that is an operation on pairs with the form's stack. -/
theorem pairCompletes_wide {x y r pops : Nat} {f : Dword → Dword → Dword} {g : List Cell → List Cell}
    (hexec : ∀ s, exec i s = s.run fun hp d => d.laneOp hp 2 b 0 Route.stack (wide x y r f)) (hp : 0 + x + y = pops)
    (hg : ∀ st, g st = pushed r (f (operand st y x) (operand st 0 y)) (st.drop pops)) : PairCompletes i ⟨b, pops, r, g⟩ := by
  subst hp
  intro s id w sp h
  have cells : g = opCells (wide x y r f) := funext hg
  rw [hexec, run_noFlags (fun _ _ _ => rfl) h, cells]
  rfl

theorem pairShl_eq (a : Dword) (n : Nat) :
    (if n < 64 then BitVec.ofNat 64 (a.toNat * 2 ^ n) else 0) = if n < 64 then a <<< n else 0 := by
  rw [shiftLeft_eq_ofNat]

theorem pairShr_eq (arith : Bool) (a : Dword) (n : Nat) :
    (if n < 64 then BitVec.ofInt 64 (value64 (!arith) a / 2 ^ n)
      else if arith ∧ a.toInt < 0 then BitVec.ofInt 64 (-1) else 0) =
      if arith then a.sshiftRight (Nat.min n 63) else if n < 64 then a >>> n else 0 := by
  cases arith
  · simp [value64, ushiftRight_eq_ofInt]
  · simpa [value64] using (sshiftRight_min (n := 63) a n).symm

theorem scaledAddress_eq (nat : Bool) (scale : BitVec 3) (a : Dword) (c : Word) :
    BitVec.ofInt 64 (a.toInt + value nat c * 2 ^ scale.toNat) = scaledAddress nat scale a c := by
  have index : BitVec.ofInt 64 (value nat c) = if nat then BitVec.setWidth 64 c else BitVec.signExtend 64 c := by
    cases nat
    · rfl
    · simp [value, BitVec.ofInt_natCast, BitVec.ofNat_toNat]
  have scaled : ∀ x : Dword, x <<< scale.toNat = x * BitVec.ofInt 64 (2 ^ scale.toNat) := by
    intro x
    have cast : BitVec.ofInt 64 (2 ^ scale.toNat) = BitVec.ofNat 64 (2 ^ scale.toNat) := by
      rw [← BitVec.ofInt_natCast]; norm_cast
    rw [shiftLeft_eq_ofNat, BitVec.ofNat_mul, BitVec.ofNat_toNat, BitVec.setWidth_eq, cast]
  unfold scaledAddress
  rw [← index, scaled, ← BitVec.ofInt_mul, BitVec.ofInt_add, BitVec.ofInt_toInt]

/-- R124: a comparison of pairs whose condition is one of the six. -/
theorem exec_icmp2 {nat : Bool} {cond : BitVec 3} (h : cond.toNat < 6) (s : Machine.State) :
    exec (.icmp2 b nat cond) s = s.run fun hp d => d.laneOp hp 2 b 0 Route.stack (pairCmp nat cond) := if_neg (Nat.not_le.2 h)

theorem pairCmp_eq (nat : Bool) {cond : BitVec 3} (legal : cond.toNat < 6) (x y : Dword) :
    truth (if nat then compareInt cond (x.toNat : Int) (y.toNat : Int) else compareInt cond x.toInt y.toInt) =
      flag (holds cond (value64 nat x) (value64 nat y)) := by
  cases nat <;> simp [compareInt_eq_holds cond legal, value64, truth, flag]

/-- Settles O2: each instruction is an operation on values of one or two cells, whose value is that of its table. -/
theorem pairResults : Obligations.PairResults := by
  unfold Obligations.PairResults
  change ∀ i o, pairForm i = some o → PairCompletes i o
  intro i o h
  cases i
  case add2 | sub2 => cases h; exact pairCompletes_wide (fun _ => rfl) rfl fun _ => rfl
  case mulw =>
    cases h
    exact pairCompletes_wide (fun _ => rfl) rfl fun st => by rw [operand_one, operand_one]; rfl
  case shl2 =>
    cases h
    exact pairCompletes_wide (fun _ => rfl) rfl fun st => by simp only [pairShl_eq, operand_one]; rfl
  case shr2 =>
    cases h
    exact pairCompletes_wide (fun _ => rfl) rfl fun st => by simp only [pairShr_eq, operand_one]; rfl
  case icmp2 b nat cond =>
    change (if cond.toNat < 6 then some _ else none) = some o at h
    split at h
    next legal =>
      cases h
      exact pairCompletes_wide (exec_icmp2 legal) rfl fun st => by rw [pushed_one, pairCmp_eq nat legal]; rfl
    · nomatch h
  case lea =>
    cases h
    exact pairCompletes_wide (fun _ => rfl) rfl fun st => by rw [operand_one, scaledAddress_eq]; rfl
  all_goals nomatch h

end Sys2Proof.Proofs
end

section
/-! PROOF. The instructions that change their own warp and nothing else: stack cells and literals (R146 to R151, R174), special
registers (R156 to R160), the warp-wide instructions (R254 to R256), and the moves between the stack, the uniform file and the
replay queue (R60 to R62, R394). -/

namespace Sys2Proof.Proofs

open Sys2Proof Sys2Proof.Machine Sys2Proof.Safety

variable {s : Machine.State} {id : Nat} {w : Warp} {sp : Split} {i : Instr}

/-! ## The shapes of these instructions -/

/-- An instruction that changes each thread of its split by a function of the thread alone. -/
theorem completes_stackOp {o : WarpForm} {f : Thread → Thread}
    (hexec : ∀ s, exec i s = s.run fun hp d => d.stackOp hp o.need f) (hwarp : ∀ s w sp, o.warp s w sp = w.onLanes sp.mask f) :
    o.completes i := by
  intro s id w sp h _
  rw [hexec, run_eq, stackOp_ready h, withDev_issued, hwarp]

/-- An instruction that pushes one cell in each lane. -/
theorem completes_pushOp {bytes : Nat} {f : Dev → Warp → Split → Thread → Word} {g : Machine.State → Warp → Split → Thread → List Cell}
    (hexec : ∀ s, exec i s = s.run fun hp d => d.pushOp hp bytes f)
    (hg : ∀ s w sp t, g s w sp t = .full (f s.dev w sp t) :: t.stack) : (onStack (Need.of bytes false 0 1) g).completes i := by
  intro s id w sp h _
  have lanes : (onStack (Need.of bytes false 0 1) g).lane s w sp = fun t => t.onStack fun st => .full (f s.dev w sp t) :: st := by
    funext t
    exact congrArg (fun st => { t with stack := st }) (hg s w sp t)
  rw [hexec, run_eq, pushOp_ready h, withDev_issued, WarpForm.warp, lanes]
  rfl

/-- The effect of an issue that leaves its own warp changed. -/
theorem run_issueWarp {n : Need} {x : Warp} {y : Split} {k : HostPart → Dev → Nat → Warp → Split → Dev} (h : Ready s id w sp n)
    (hk : k s.host s.dev id w sp = (issued s id x y).dev) :
    (s.run fun hp d => d.issueWarp hp n (k hp d)) = .next (issued s id x y) := by
  rw [run_eq, issueWarp_ready h, hk, withDev_issued]

/-- An instruction of the shape of a form: where it may issue, its effect is the form's. -/
theorem completes_issueWarp {o : WarpForm} {k : HostPart → Dev → Nat → Warp → Split → Dev}
    (hexec : ∀ s, exec i s = s.run fun hp d => d.issueWarp hp o.need (k hp d))
    (hk : ∀ s id w sp, Ready s id w sp o.need → o.legal s w sp = true →
      k s.host s.dev id w sp = (issued s id (o.warp s w sp) (after sp o.need.bytes o.need.pops o.need.pushes)).dev) :
    o.completes i := by
  intro s id w sp h legal
  rw [hexec, run_issueWarp h (hk s id w sp h legal)]

/-! ## Cells and literals -/

theorem swapCells_eq (st : List Cell) : swapCells st = (st.take 2).reverse ++ st.drop 2 := by
  rcases st with _ | ⟨a, _ | ⟨b, st⟩⟩ <;> rfl

theorem rotCells_eq (st : List Cell) : rotCells st = (st.drop 2).take 1 ++ st.take 2 ++ st.drop 3 := by
  rcases st with _ | ⟨a, _ | ⟨b, _ | ⟨c, st⟩⟩⟩ <;> rfl

theorem nipCell_eq (st : List Cell) : nipCell st = st.take 1 ++ st.drop 2 := by
  rcases st with _ | ⟨a, _ | ⟨b, st⟩⟩ <;> rfl

/-- R147: an instruction that moves or discards cells. -/
theorem completes_moveCells {pops pushes : Nat} {f : List Cell → List Cell} (g : List Cell → List Cell) (hg : ∀ st, g st = f st)
    (hexec : ∀ s, exec i s = s.run fun hp d => d.moveCells hp pops pushes f) :
    (onStack (blind 2 pops pushes) fun _ _ _ t => g t.stack).completes i := by
  rw [show g = f from funext hg]
  exact completes_stackOp hexec fun _ _ _ => rfl

/-- R150: the cell of a form. -/
theorem literal16_eq {form : BitVec 2} (h : form ≠ 3) (imm : BitVec 16) :
    literal16 form imm =
      if form = 0 then BitVec.ofInt 32 imm.toInt else if form = 1 then BitVec.ofNat 32 imm.toNat
      else BitVec.ofNat 32 (imm.toNat * 65536) := by
  have forms : form = 0 ∨ form = 1 ∨ form = 2 := by revert form; decide
  rcases forms with rfl | rfl | rfl
  · rfl
  · exact (BitVec.ofNat_toNat 32 imm).symm
  · apply BitVec.eq_of_toNat_eq
    have small := imm.isLt
    change (imm ++ 0#16).toNat = (imm.toNat * 65536) % 2 ^ 32
    rw [append_toNat, BitVec.toNat_ofNat]
    omega

theorem exec_lit16 {form : BitVec 2} (h : form ≠ 3) (b : Bool) (imm : BitVec 16) (s : Machine.State) :
    exec (.lit16 b form imm) s = s.run fun hp d => d.pushOp hp 4 fun _ _ _ _ => literal16 form imm := by
  change execLit16 b form imm s = _
  unfold execLit16
  simp only [h, if_false]

/-- R174: the sign of an FP32 cell flipped, and cleared. -/
theorem flipSign_eq (v : Word) : v ^^^ 0x80000000 = BitVec.ofNat 32 (v.toNat + 2 ^ 31) := by
  apply BitVec.eq_of_toNat_eq
  rw [BitVec.toNat_xor, BitVec.toNat_ofNat, show (0x80000000 : Word).toNat = 2 ^ 31 from rfl, Nat.add_comm]
  apply Nat.eq_of_testBit_eq
  intro j
  rw [Nat.testBit_xor, Nat.testBit_mod_two_pow, Nat.testBit_two_pow]
  rcases Nat.lt_trichotomy j 31 with low | rfl | high
  · rw [Nat.testBit_two_pow_add_gt low]
    simp [show j < 32 by omega, show 31 ≠ j by omega]
  · rw [Nat.testBit_two_pow_add_eq]
    simp
  · have zero : v.toNat.testBit j = false :=
      Nat.testBit_eq_false_of_lt (Nat.lt_of_lt_of_le v.isLt (Nat.pow_le_pow_right (by decide) (by omega)))
    simp [show ¬ j < 32 by omega, show 31 ≠ j by omega, zero]

theorem clearSign_eq (v : Word) : v &&& 0x7FFFFFFF = BitVec.ofNat 32 (v.toNat % 2 ^ 31) := by
  apply BitVec.eq_of_toNat_eq
  rw [BitVec.toNat_and, show (0x7FFFFFFF : Word).toNat = 2 ^ 31 - 1 from rfl, Nat.and_two_pow_sub_one_eq_mod, BitVec.toNat_ofNat,
    Nat.mod_eq_of_lt (b := 2 ^ 32) (by omega)]

/-- A unary operation that raises no flag, as an instruction on its own warp. -/
theorem completes_op1 {b : Bool} {f : Word → Word} (g : Word → Word) (hf : ∀ a, g a = f a)
    (hexec : ∀ s, exec i s = s.run fun hp d => d.laneOp hp 2 b 0 Route.stack (op1 f)) :
    (onStack (Need.of 2 b 1 1) fun _ _ _ t => .full (g (cell t.stack 0)) :: t.stack.drop 1).completes i :=
  fun s id w sp h _ => wordCompletes_op1 (g := fun _ _ a => g a) hexec (fun _ _ a => hf a) s id w sp h

/-- R146 to R151: each instruction on cells, and each literal. -/
theorem completes_cellForm {o : WarpForm} (h : cellForm i = some o) : o.completes i := by
  cases i
  case nop | dup => cases h; exact completes_stackOp (fun _ => rfl) fun _ _ _ => rfl
  case drop => cases h; exact completes_moveCells (fun st => st.drop 1) (fun _ => rfl) fun _ => rfl
  case swap => cases h; exact completes_moveCells (fun st => (st.take 2).reverse ++ st.drop 2) (fun st => (swapCells_eq st).symm) fun _ => rfl
  case rot => cases h; exact completes_moveCells (fun st => (st.drop 2).take 1 ++ st.take 2 ++ st.drop 3) (fun st => (rotCells_eq st).symm) fun _ => rfl
  case nip => cases h; exact completes_moveCells (fun st => st.take 1 ++ st.drop 2) (fun st => (nipCell_eq st).symm) fun _ => rfl
  case depth | lit32 => cases h; exact completes_pushOp (fun _ => rfl) fun _ _ _ _ => rfl
  case litS b v => cases h; exact fun s id w sp hr _ => exec_litS_ready hr b v
  case lit16 b form imm =>
    change (if form = 3 then none else some _) = some o at h
    split at h
    · nomatch h
    next legal =>
      cases h
      exact completes_pushOp (exec_lit16 legal b imm) fun _ _ _ _ => by rw [literal16_eq legal]
  all_goals nomatch h

/-- R174: the two instructions on the sign. -/
theorem completes_signForm {o : WarpForm} (h : signForm i = some o) : o.completes i := by
  cases i
  case fneg => cases h; exact completes_op1 (fun v => BitVec.ofNat 32 (v.toNat + 2 ^ 31)) (fun a => (flipSign_eq a).symm) fun _ => rfl
  case fabs => cases h; exact completes_op1 (fun v => BitVec.ofNat 32 (v.toNat % 2 ^ 31)) (fun a => (clearSign_eq a).symm) fun _ => rfl
  all_goals nomatch h

/-- Settles O3: each of the two families by its shape. -/
theorem cellAndLiteralResults : Obligations.CellAndLiteralResults := by
  unfold Obligations.CellAndLiteralResults
  rintro i o (h | h)
  · exact completes_cellForm h
  · exact completes_signForm h

/-! ## Warp-wide instructions -/

theorem secondWord_eq (t : Thread) : secondWord t = cell t.stack 1 := by
  unfold secondWord
  rw [cellsValue_take_drop, operand_one]

/-- R255: the result of a vote. -/
theorem voteResult_eq {mode : BitVec 2} (h : mode ≠ 3) :
    voteResult mode w sp =
      if mode = 0 then flag ((w.threadsOf sp.mask).any fun u => cell u.stack 0 != 0)
      else if mode = 1 then flag ((w.threadsOf sp.mask).all fun u => cell u.stack 0 != 0)
      else maskOf (((w.threadsOf sp.mask).filter fun u => cell u.stack 0 != 0).map Thread.lane) := by
  have modes : mode = 0 ∨ mode = 1 ∨ mode = 2 := by revert mode; decide
  unfold voteResult
  simp only [topWord_eq]
  generalize w.threadsOf sp.mask = ts
  rcases modes with rfl | rfl | rfl
  · have none : (ts.filter fun u => cell u.stack 0 != 0).isEmpty = !(ts.any fun u => cell u.stack 0 != 0) := by
      rw [Bool.eq_iff_iff]
      simp [List.filter_eq_nil_iff]
    change (if (ts.filter fun u => cell u.stack 0 != 0).isEmpty then 0 else 1) = flag (ts.any fun u => cell u.stack 0 != 0)
    rw [none]
    cases ts.any fun u => cell u.stack 0 != 0 <;> rfl
  · change (if (ts.filter fun u => cell u.stack 0 != 0).length = ts.length then 1 else 0) =
      flag (ts.all fun u => cell u.stack 0 != 0)
    simp only [flag, List.length_filter_eq_length_iff, List.all_eq_true]
  · rfl

/-- R256: the value that a lane receives. -/
theorem shuffled_eq (mode : BitVec 2) (t : Thread) : shuffled mode w sp t = received mode w sp t := by
  have source : shuffleLane mode t.lane (cell t.stack 0) =
      if 0 ≤ wanted mode t.lane (cell t.stack 0) ∧ wanted mode t.lane (cell t.stack 0) < 32 then
        some (wanted mode t.lane (cell t.stack 0)).toNat else none := by
    have limit : ∀ j : Int, (if (decide (0 ≤ j) && decide (j ≤ 31)) = true then some j.toNat else none) =
        if 0 ≤ j ∧ j < 32 then some j.toNat else none := by
      intro j
      simp only [Bool.and_eq_true, decide_eq_true_eq, show j ≤ 31 ↔ j < 32 by omega]
    have modes : mode = 0 ∨ mode = 1 ∨ mode = 2 ∨ mode = 3 := by revert mode; decide
    rcases modes with rfl | rfl | rfl | rfl <;> exact limit _
  have same : ∀ n, (w.thread? n).map secondWord = (w.thread? n).map fun u => cell u.stack 1 := by
    intro n
    rw [funext secondWord_eq]
  unfold shuffled received
  rw [topWord_eq, source]
  simp only [secondWord_eq, same]
  generalize wanted mode t.lane (cell t.stack 0) = j
  by_cases inside : 0 ≤ j ∧ j < 32
  · rw [if_pos inside]
    simp [inside]
  · rw [if_neg inside]
    simp [← and_assoc, inside]

theorem exec_vote {mode : BitVec 2} (h : mode ≠ 3) (b : Bool) (s : Machine.State) :
    exec (.vote b mode) s = s.run fun hp d => d.issueWarp hp (Need.of 2 b 1 1) fun id w sp =>
      d.commit id (w.onLanes sp.mask fun t => t.onStack (popPush 1 (voteResult mode w sp))) (sp.after (Need.of 2 b 1 1)) := by
  change execVote b mode s = _
  unfold execVote
  simp only [h, if_false]

theorem exec_shfl (mode : BitVec 2) (b : Bool) (s : Machine.State) :
    exec (.shfl b mode) s = s.run fun hp d => d.issueWarp hp (Need.of 2 b 2 1) fun id w sp =>
      d.commit id (w.onLanes sp.mask fun t => t.onStack (popPush 2 (shuffled mode w sp t))) (sp.after (Need.of 2 b 2 1)) := rfl

/-- Settles O6: the lowest lane, a vote and a shuffle each by the value that it gives a lane. -/
theorem warpWideResults : Obligations.WarpWideResults := by
  unfold Obligations.WarpWideResults
  intro i o h
  cases i
  case lead b =>
    cases h
    refine completes_pushOp (f := fun _ _ sp t => if t.lane = lowest sp.mask then 1 else 0) (fun _ => rfl) fun _ _ sp t => ?_
    simp [flag]
  case vote b mode =>
    change (if mode = 3 then none else some _) = some o at h
    split at h
    · nomatch h
    next legal =>
      cases h
      exact completes_issueWarp (exec_vote legal b) fun s id w sp _ _ => by rw [voteResult_eq legal]; rfl
  case shfl b mode =>
    cases h
    refine completes_issueWarp (exec_shfl mode b) fun s id w sp _ _ => ?_
    have lanes : (fun t => Thread.onStack t (popPush 2 (shuffled mode w sp t))) =
        fun t => { t with stack := .full (received mode w sp t) :: t.stack.drop 2 } := by
      funext t
      rw [shuffled_eq]
      rfl
    rw [lanes]
    rfl
  all_goals nomatch h

end Sys2Proof.Proofs
end

section
/-! PROOF. The uniform instructions (R59, R209 to R211, R214), the moves between the stack and the uniform file (R60 to R62), and
the replay queue read and written by a handler (R394). -/

namespace Sys2Proof.Proofs

open Sys2Proof Sys2Proof.Machine Sys2Proof.Safety

variable {s : Machine.State} {id : Nat} {w : Warp} {sp : Split} {i : Instr}

/-! ## Uniform arithmetic -/

/-- A uniform instruction of the shape of its form completes in a warp and in a front-end context. -/
theorem completes_uniform {o : UniformForm} {f : Uniform → Uniform} (hexec : ∀ s, exec i s = s.uniform o.bytes i f)
    (hregs : o.regs = uniformRegs i) (hf : ∀ u, o.f u = f u) : o.completes i := by
  obtain ⟨bytes, regs, g⟩ := o
  obtain rfl : g = f := funext hf
  subst hregs
  exact ⟨fun s id w sp h => by rw [hexec, stateUniform_warp h], fun s id c h => by rw [hexec, stateUniform_fet h]⟩

/-- R209: operand B as its form gives it. -/
theorem operandB_eq (u : Uniform) (kb : BitVec 6) (imm : Bool) :
    operandB u kb imm = if imm then BitVec.ofNat 32 kb.toNat else kGet u.k kb.toNat := by
  cases imm
  · rfl
  · exact (BitVec.ofNat_toNat 32 kb).symm

/-- R209: the arithmetic instructions, which name their sources and their destination. -/
theorem completes_arithmetic {kd ka kb : BitVec 6} {imm : Bool} {f g : Word → Word → Word}
    (hexec : ∀ s, exec i s = s.uniform 4 i (uniformOp kd ka kb imm g))
    (hregs : uniformRegs i = ka.toNat :: sourceB kb imm ++ [kd.toNat]) (hf : ∀ a b, f a b = g a b) :
    (arithmetic kd ka kb imm f).completes i := by
  refine completes_uniform hexec ?_ fun u => ?_
  · rw [hregs]
    cases imm <;> rfl
  · obtain rfl : f = g := funext fun a => funext (hf a)
    rw [uniformOp, operandB_eq]
    rfl

theorem kshr_eq (arith : Bool) (a b : Word) :
    (if b.toNat < 32 then BitVec.ofInt 32 (value (!arith) a / 2 ^ b.toNat)
      else if arith ∧ a.toInt < 0 then BitVec.ofInt 32 (-1) else 0) = (if arith then shiftArith else shiftRight) a b := by
  cases arith
  · simp [value, shiftRight, ushiftRight_eq_ofInt]
  · simpa [value, shiftArith] using (sshiftRight_min (n := 31) a b.toNat).symm

/-- A bit set or cleared in a word of predicates. -/
theorem setPred_eq (kp : BitVec 8) (p : Nat) (c : Bool) :
    kp &&& ~~~(1#8 <<< p) ||| (if c then 1#8 <<< p else 0) = setPred kp p c := by
  cases c
  · exact BitVec.or_zero
  · apply BitVec.eq_of_getLsbD_eq
    intro j hj
    simp only [setPred, if_true, BitVec.getLsbD_or, BitVec.getLsbD_and, BitVec.getLsbD_not, hj]
    cases (1#8 <<< p).getLsbD j <;> simp

/-- R124: a comparison whose condition is one of the six. -/
theorem exec_kcmp {kp : BitVec 3} {ka kb : BitVec 6} {nat : Bool} {cond : BitVec 3} (h : cond.toNat < 6) (s : Machine.State) :
    exec (.kcmp kp ka kb nat cond) s = s.uniform 4 (.kcmp kp ka kb nat cond) fun u =>
      { u with kp := setPred u.kp kp.toNat (compareInt cond (wordInt nat (kGet u.k ka.toNat)) (wordInt nat (kGet u.k kb.toNat))) } :=
  if_neg (Nat.not_le.2 h)

theorem completes_kcmp {kp : BitVec 3} {ka kb : BitVec 6} {nat : Bool} {cond : BitVec 3} (h : cond.toNat < 6) {o : UniformForm}
    (ho : uniformForm (.kcmp kp ka kb nat cond) = some o) : o.completes (.kcmp kp ka kb nat cond) := by
  have form := (if_pos h).symm.trans ho
  cases form
  refine completes_uniform (exec_kcmp h) rfl fun u => ?_
  rw [compareInt_eq_holds cond h, ← setPred_eq]
  rfl

/-- R211: the register that a predicate selects. -/
theorem select_eq (p inv : Bool) (a b : Nat) : (if p = inv then b else a) = if (p != inv) = true then a else b := by
  cases p <;> cases inv <;> rfl

theorem kadd2_eq (a : Dword) (imm : Bool) (kb : BitVec 6) (b : Dword) :
    BitVec.ofNat 64 (a.toNat + if imm then kb.toNat else b.toNat) = a + if imm then BitVec.setWidth 64 kb else b := by
  cases imm <;> rw [BitVec.ofNat_add, BitVec.ofNat_toNat, BitVec.setWidth_eq] <;> simp [BitVec.ofNat_toNat]

/-- Settles O9: each instruction by the function that it applies to its file, in a warp and in a front-end context. -/
theorem uniformResults : Obligations.UniformResults := by
  unfold Obligations.UniformResults
  intro i o h
  cases i
  case kmov | kli => cases h; exact completes_uniform (fun _ => rfl) rfl fun _ => rfl
  case kadd =>
    cases h
    exact completes_arithmetic (fun _ => rfl) rfl fun a b => by
      rw [BitVec.ofNat_add, BitVec.ofNat_toNat, BitVec.ofNat_toNat, BitVec.setWidth_eq, BitVec.setWidth_eq]
  case ksub =>
    cases h
    exact completes_arithmetic (fun _ => rfl) rfl fun a b => by
      rw [Int.sub_eq_add_neg, BitVec.ofInt_add, BitVec.ofInt_neg, BitVec.ofInt_natCast, BitVec.ofInt_natCast, BitVec.ofNat_toNat,
        BitVec.ofNat_toNat, BitVec.setWidth_eq, BitVec.setWidth_eq, BitVec.sub_eq_add_neg]
  case kmul => cases h; exact completes_arithmetic (fun _ => rfl) rfl ofNat_toNat_mul
  case kand | kor | kxor => cases h; exact completes_arithmetic (fun _ => rfl) rfl fun _ _ => rfl
  case kshl => cases h; exact completes_arithmetic (fun _ => rfl) rfl fun a b => by rw [← shiftLeft_eq_ofNat]; rfl
  case kshr kd ka kb imm arith => cases h; exact completes_arithmetic (fun _ => rfl) rfl (kshr_eq arith)
  case kmin kd ka kb imm nat => cases h; exact completes_arithmetic (fun _ => rfl) rfl (min_eq nat)
  case kmax kd ka kb imm nat => cases h; exact completes_arithmetic (fun _ => rfl) rfl (max_eq nat)
  case kcmp kp ka kb nat cond =>
    by_cases legal : cond.toNat < 6
    · exact completes_kcmp legal h
    · exact nomatch (if_neg legal).symm.trans h
  case kpsel kd ka kb inv kp =>
    cases h
    exact completes_uniform (fun _ => rfl) rfl fun u =>
      congrArg (fun n => { u with k := kSet u.k kd.toNat (kGet u.k n) }) (select_eq ..)
  case kadd2 => cases h; exact completes_uniform (fun _ => rfl) rfl fun u => by simp only [kadd2_eq]
  case klea => cases h; exact completes_uniform (fun _ => rfl) rfl fun u => by simp only [scaledAddress_eq]
  all_goals nomatch h

/-! ## Between the stack and the uniform file -/

/-- The words on top of the stacks of a split. -/
theorem map_topWord (ts : List Thread) : ts.map topWord = ts.map fun t => cell t.stack 0 := by
  rw [funext topWord_eq]

/-- R61, R62: an instruction that pops a cell of each lane into a uniform register, where it may issue. -/
theorem popToUniform_ready {kd : BitVec 6} (h : Ready s id w sp { Need.of 4 false 1 0 with regs := [kd.toNat] }) (hp : HostPart)
    (f : List Word → Word × Flags) :
    s.dev.popToUniform hp kd f =
      (issued s id
        ({ w with
          k := kSet w.k kd.toNat (f ((w.threadsOf sp.mask).map fun t : Thread => cell t.stack 0)).1
          flags := w.flags ||| (f ((w.threadsOf sp.mask).map fun t : Thread => cell t.stack 0)).2 }.onLanes sp.mask fun t =>
            { t with stack := t.stack.drop 1 })
        (after sp 4 1 0)).dev := by
  unfold Dev.popToUniform
  rw [issueWarp_ready h, map_topWord]
  rfl

/-- R61: no thread is left out of a split whose mask is all live threads. -/
theorem diverged_none (h : Issues s id w sp) (all : sp.mask = w.live) : s.dev.diverged = none := by
  unfold Dev.diverged
  simp [h.issuer, h.warp, h.cur, all]

theorem exec_kpop {kd : BitVec 6} {cv : Bool} (h : Issues s id w sp) (legal : (!cv || sp.mask == w.live) = true) :
    exec (.kpop kd cv) s = s.run fun hp d => d.popToUniform hp kd fun vs => (vs.headD 0, 0) := by
  have whole : (if cv then s.dev.diverged else none) = none := by
    cases cv
    · rfl
    · exact diverged_none h (by simpa using legal)
  change execKpop kd cv s = _
  unfold execKpop State.run
  simp only [whole]

theorem exec_kred {kd : BitVec 6} {op : BitVec 4} (h : ¬ 12 ≤ op.toNat) (s : Machine.State) :
    exec (.kred kd op) s = s.run fun hp d => d.popToUniform hp kd (reduceWords op) := by
  change execKred kd op s = _
  unfold execKred
  simp only [h, if_false]

theorem completes_exchangeForm {o : WarpForm} (h : exchangeForm i = some o) : o.completes i := by
  cases i
  case kpush ka =>
    cases h
    intro s id w sp hr _
    exact run_issueWarp (k := fun _ d id w sp => d.commit id (w.onLanes sp.mask fun t => t.onStack fun st =>
      .full (kGet w.k ka.toNat) :: st) (sp.after { Need.of 4 false 0 1 with regs := [ka.toNat] })) hr rfl
  case kpop kd cv =>
    cases h
    intro s id w sp hr legal
    rw [exec_kpop hr.issues legal, run_eq, popToUniform_ready hr, withDev_issued, List.headD_eq_head?_getD, List.head?_map,
      show w.flags ||| (0 : Flags) = w.flags from BitVec.or_zero]
    rfl
  case kred kd op =>
    by_cases legal : 12 ≤ op.toNat
    · exact nomatch (if_pos legal).symm.trans h
    · have form := (if_neg legal).symm.trans h
      cases form
      intro s id w sp hr _
      rw [exec_kred legal, run_eq, popToUniform_ready hr, withDev_issued]
      rfl
  all_goals nomatch h

/-! ## The replay queue -/

theorem low_eq_ofNat (v : Dword) : v.extractLsb' 0 32 = BitVec.ofNat 32 v.toNat := by
  apply BitVec.eq_of_toNat_eq
  simp

theorem high_eq_ofNat (v : Dword) : v.extractLsb' 32 32 = BitVec.ofNat 32 (v.toNat / 2 ^ 32) := by
  apply BitVec.eq_of_toNat_eq
  simp [BitVec.extractLsb'_toNat, Nat.shiftRight_eq_div_pow]

/-- R394: a field of an entry, by its number. -/
theorem field_eq (e : ReplayEntry) (f lane : Nat) : e.field f lane = replayField e f lane := by
  unfold replayField
  simp only [← low_eq_ofNat, ← high_eq_ofNat]
  match f with
  | 0 | 1 | 2 | 3 | 4 | 6 | 7 => rfl
  | 5 => exact (BitVec.ofNat_toNat 32 e.cause).symm
  | f + 8 => rfl

/-- R142: an instruction of a handler, where it is legal and may issue. -/
theorem issueHandler_ready {n : Need} {hd : Handler} (h : Ready s id w sp n) (hh : w.handler = some hd) {legal : Warp → Bool}
    (hl : legal w = true) (hp : HostPart) (k : Nat → Warp → Handler → Split → Dev) :
    s.dev.issueHandler hp n legal k = k id w hd sp := by
  unfold Dev.issueHandler
  simp only [h.issues.issuer, h.issues.warp, hh, hl, if_true]
  exact issueWarp_ready h hp fun id w s => k id w hd s

theorem completes_rplq {b : Bool} {entry field : BitVec 4} {o : WarpForm} (h : replayForm (.rplq b entry field) = some o) :
    o.completes (.rplq b entry field) := by
  cases h
  intro s id w sp hr legal
  simp only [Bool.and_eq_true, decide_eq_true_eq] at legal
  obtain ⟨⟨handling, inQueue⟩, isField⟩ := legal
  obtain ⟨hd, hh⟩ := Option.isSome_iff_exists.1 handling
  have entryAt : w.replay[entry.toNat]? = some w.replay[entry.toNat] := List.getElem?_eq_getElem inQueue
  change execRplq b entry field s = _
  unfold execRplq
  rw [run_eq, issueHandler_ready (n := Need.of 4 false 0 1) hr hh (by simp [inQueue, isField])]
  simp only [entryAt, field_eq]
  rw [commit_issued, withDev_issued, WarpForm.warp]
  simp only [entryAt]
  rfl

theorem lowestValue_eq : low (lowestValue w sp 1) = lowestTop w sp := by
  unfold lowestValue lowestTop
  cases w.thread? (lowest sp.mask) with
  | none => rfl
  | some t => exact topWord_eq t

theorem lowestValue_toNat : (lowestValue w sp 1).toNat = (lowestTop w sp).toNat := by
  have one : (lowestValue w sp 1).toNat < 2 ^ 32 := by
    unfold lowestValue
    cases w.thread? (lowest sp.mask) with
    | none => decide
    | some t =>
      change (cellsValue (t.stack.take 1)).toNat < 2 ^ 32
      cases t.stack with
      | nil => decide
      | cons c st =>
        change (BitVec.setWidth 64 c.word).toNat < 2 ^ 32
        have := c.word.isLt
        rw [BitVec.toNat_setWidth]
        omega
  rw [← lowestValue_eq, low, low_eq_ofNat, BitVec.toNat_ofNat, Nat.mod_eq_of_lt one]

theorem completes_wplq {b : Bool} {entry field : BitVec 4} {o : WarpForm} (h : replayForm (.wplq b entry field) = some o) :
    o.completes (.wplq b entry field) := by
  cases h
  intro s id w sp hr legal
  simp only [Bool.and_eq_true, decide_eq_true_eq] at legal
  obtain ⟨⟨⟨handling, inQueue⟩, mayWrite⟩, value⟩ := legal
  obtain ⟨hd, hh⟩ := Option.isSome_iff_exists.1 handling
  have passes : firstFailing [⟨0x01, if (field = 0 && decide (1 < (lowestValue w sp 1).toNat)) = true then sp.mask else 0, 0⟩] = none := by
    rw [firstFailing_eq_none]
    intro c hc
    obtain rfl := List.mem_singleton.1 hc
    rw [lowestValue_toNat]
    apply if_neg
    simpa [imp_iff_not_or] using value
  change execWplq b entry field s = _
  unfold execWplq
  rw [run_eq, issueHandler_ready (n := Need.of 4 b 1 0) hr hh (by simpa [inQueue, writable] using mayWrite)]
  simp only [checked_pass passes]
  rw [commit_issued, withDev_issued]
  have words : (fun t : Thread => (t.lane, (t.stack.head?.map Cell.word).getD 0)) = fun t => (t.lane, cell t.stack 0) := by
    funext t
    rw [cell, List.head?_eq_getElem?]
  rw [words]
  rfl

/-- Settles O10: the exchange instructions, and the two instructions on the replay queue. -/
theorem exchangeAndReplayResults : Obligations.ExchangeAndReplayResults := by
  unfold Obligations.ExchangeAndReplayResults
  rintro i o (h | h)
  · exact completes_exchangeForm h
  · cases i
    case rplq => exact completes_rplq h
    case wplq => exact completes_wplq h
    all_goals nomatch h

end Sys2Proof.Proofs
end

section
/-! PROOF. Special registers and flags (R156 to R160, R479), and the frame (R57, R152 to R154). -/

namespace Sys2Proof.Proofs

open Sys2Proof Sys2Proof.Machine Sys2Proof.Safety

variable {s : Machine.State} {id : Nat} {w : Warp} {sp : Split} {i : Instr}

/-! ## Special registers -/

theorem high_ofNat (n : Nat) : high (BitVec.ofNat 64 n) = BitVec.ofNat 32 (n / 2 ^ 32) := by
  apply BitVec.eq_of_toNat_eq
  simp only [high, BitVec.extractLsb'_toNat, BitVec.toNat_ofNat, Nat.shiftRight_eq_div_pow]
  omega

theorem low_ofNat (n : Nat) : low (BitVec.ofNat 64 n) = BitVec.ofNat 32 n := by
  apply BitVec.eq_of_toNat_eq
  simp only [low, BitVec.extractLsb'_toNat, BitVec.toNat_ofNat, Nat.shiftRight_zero]
  omega

/-- R156, R347: the view tag of group 0. -/
theorem viewTag_eq (slot : Nat) : s.dev.viewTag slot 0 = groupTag s slot 0 := by
  unfold Dev.viewTag groupTag
  change (match Table.find? (s.dev.context slot).groups 0 with | none => (0 : Dword) | some g => (0 : BitVec 16) ++ g.gen) = _
  cases Table.find? (s.dev.context slot).groups 0 with
  | none => rfl
  | some g =>
    apply BitVec.eq_of_toNat_eq
    have := g.gen.isLt
    simp only [append_toNat, BitVec.toNat_ofNat, show (0 : BitVec 16).toNat = 0 from rfl]
    omega

/-- R156, R157: a 64-bit register, by the number of its low half, and the number that it holds. -/
theorem wideRegister_clock : s.dev.wideRegister w 15 = BitVec.ofNat 64 (s.dev.cluster (clusterOf w.core)).clock := rfl

theorem wideRegister_gtime : s.dev.wideRegister w 17 = BitVec.ofNat 64 s.dev.gtime := rfl

theorem wideRegister_tag : s.dev.wideRegister w 21 = BitVec.ofNat 64 (groupTag s (s.dev.slotOf w.team) 0).toNat := by
  rw [BitVec.ofNat_toNat, BitVec.setWidth_eq, ← viewTag_eq]
  rfl

/-- R156: a register that the thread's team gives. -/
theorem teamRegister_eq {n : Nat} {f : Team → Launch → Nat}
    (hf : ∀ t l, s.dev.team? w.team = some t → s.dev.launchOf w.team = some l → s.dev.teamRegister w n = f t l)
    (h0 : (s.dev.team? w.team = none ∨ s.dev.launchOf w.team = none) → s.dev.teamRegister w n = 0) :
    BitVec.ofNat 32 (s.dev.teamRegister w n) = teamValue s w f := by
  unfold teamValue
  cases ht : s.dev.team? w.team with
  | none => rw [h0 (.inl ht)]; rfl
  | some t =>
    cases hl : s.dev.launchOf w.team with
    | none => rw [h0 (.inr hl)]; rfl
    | some l => rw [hf t l ht hl]

theorem teamRegister_none {n : Nat} (h : s.dev.team? w.team = none ∨ s.dev.launchOf w.team = none) :
    s.dev.teamRegister w n = 0 := by
  unfold Dev.teamRegister
  split
  next ht hl => rcases h with h | h <;> simp_all
  · rfl

theorem teamRegister_some {t : Team} {l : Launch} (ht : s.dev.team? w.team = some t) (hl : s.dev.launchOf w.team = some l) (n : Nat) :
    s.dev.teamRegister w n =
      match n with
      | 5 => t.coords.1
      | 6 => t.coords.2.1
      | 7 => t.coords.2.2
      | 8 => l.record.grid.1
      | 9 => l.record.grid.2.1
      | 10 => l.record.grid.2.2
      | 11 => t.warps
      | _ => t.stage.getD 0xFFFFFFFF := by
  unfold Dev.teamRegister
  simp only [ht, hl] <;> rfl

/-- R156: the special registers by their numbers. -/
theorem special_eq (t : Thread) {n : Nat} (h : n ≤ 22) : s.dev.special s.host n w sp t = (specials s w sp t).getD n 0 := by
  have team : ∀ (n : Nat) (f : Team → Launch → Nat), (∀ t l, (match n with
      | 5 => t.coords.1 | 6 => t.coords.2.1 | 7 => t.coords.2.2 | 8 => l.record.grid.1 | 9 => l.record.grid.2.1
      | 10 => l.record.grid.2.2 | 11 => t.warps | _ => t.stage.getD 0xFFFFFFFF) = f t l) →
      BitVec.ofNat 32 (s.dev.teamRegister w n) = teamValue s w f := by
    intro n f hf
    exact teamRegister_eq (fun t l ht hl => by rw [teamRegister_some ht hl]; exact hf t l) teamRegister_none
  match n, h with
  | 0, _ | 1, _ | 2, _ | 3, _ | 4, _ | 12, _ | 13, _ | 14, _ | 19, _ => rfl
  | 5, _ => exact team 5 _ fun _ _ => rfl
  | 6, _ => exact team 6 _ fun _ _ => rfl
  | 7, _ => exact team 7 _ fun _ _ => rfl
  | 8, _ => exact team 8 _ fun _ _ => rfl
  | 9, _ => exact team 9 _ fun _ _ => rfl
  | 10, _ => exact team 10 _ fun _ _ => rfl
  | 11, _ => exact team 11 _ fun _ _ => rfl
  | 20, _ => exact team 20 _ fun _ _ => rfl
  | 15, _ => exact low_ofNat _
  | 16, _ => exact high_ofNat _
  | 17, _ => exact low_ofNat _
  | 18, _ => exact high_ofNat _
  | 21, _ => exact (congrArg low wideRegister_tag).trans (low_ofNat _)
  | 22, _ => exact (congrArg high wideRegister_tag).trans (high_ofNat _)
  | n + 23, h => omega

/-- R157: a 64-bit register pushed is its two numbers pushed, the high half on top. -/
theorem pushValue_wideRegister (t : Thread) {n : BitVec 5} (h : n = 15 ∨ n = 17 ∨ n = 21) (st : List Cell) :
    pushValue 2 (s.dev.wideRegister w n.toNat) st =
      .full ((specials s w sp t).getD (n.toNat + 1) 0) :: .full ((specials s w sp t).getD n.toNat 0) :: st := by
  rcases h with rfl | rfl | rfl
  · exact congrArg₂ (fun a b => Cell.full a :: Cell.full b :: st) (special_eq t (n := 16) (by decide))
      (special_eq t (n := 15) (by decide))
  · exact congrArg₂ (fun a b => Cell.full a :: Cell.full b :: st) (special_eq t (n := 18) (by decide))
      (special_eq t (n := 17) (by decide))
  · exact congrArg₂ (fun a b => Cell.full a :: Cell.full b :: st) (special_eq t (n := 22) (by decide))
      (special_eq t (n := 21) (by decide))

/-- R479: a register other than gtime asks nothing of the ordering points before it. -/
theorem gtimeWaits_nil {n : BitVec 5} (h : (n = 17 ∨ n = 18) → s.dev.markDeps w.marks sp.mask = []) :
    s.dev.gtimeWaits w sp n.toNat = [] := by
  have number : n.toNat = 17 ∨ n.toNat = 18 → n = 17 ∨ n = 18 := by clear h; revert n; decide
  unfold Dev.gtimeWaits
  split
  next hn => exact h (number hn)
  · rfl

/-- R156 to R158: a reading that waits for nothing. -/
theorem readSpecial_ready {cells : Nat} {n : Nat} (h : Ready s id w sp (Need.of 2 false 0 cells))
    (hw : s.dev.gtimeWaits w sp n = []) (hp : HostPart) (f : Dev → Warp → Split → Thread → List Cell → List Cell) :
    s.dev.readSpecial hp n cells f =
      (issued s id (w.onLanes sp.mask fun t => t.onStack (f s.dev w sp t)) (after sp 2 0 cells)).dev := by
  unfold Dev.readSpecial
  rw [issueWarp_ready h]
  simp only [hw, List.isEmpty_nil, Bool.not_true, Bool.false_eq_true, if_false]
  rfl

/-- R479: a reading of gtime that waits for the ordering points before it. -/
theorem readSpecial_waits {cells : Nat} {n : Nat} (h : Ready s id w sp (Need.of 2 false 0 cells)) (hn : n = 17 ∨ n = 18)
    (hw : s.dev.markDeps w.marks sp.mask ≠ []) (hp : HostPart) (f : Dev → Warp → Split → Thread → List Cell → List Cell) :
    s.dev.readSpecial hp n cells f = s.dev.block id (.accesses (s.dev.markDeps w.marks sp.mask)) := by
  unfold Dev.readSpecial
  rw [issueWarp_ready h]
  simp [Dev.gtimeWaits, hn, hw]

theorem exec_rds {n : BitVec 5} (h : n.toNat ≤ 22) (b : Bool) (s : Machine.State) :
    exec (.rds b n) s =
      s.run fun hp d => d.readSpecial hp n.toNat 1 fun d w sp t st => .full (d.special hp n.toNat w sp t) :: st := by
  change execRds b n s = _
  unfold execRds
  simp only [Nat.not_lt.2 h, if_false]

theorem exec_rdsD {n : BitVec 5} (h : n = 15 ∨ n = 17 ∨ n = 21) (b : Bool) (s : Machine.State) :
    exec (.rdsD b n) s = s.run fun hp d => d.readSpecial hp n.toNat 2 fun d w _ _ => pushValue 2 (d.wideRegister w n.toNat) := by
  rcases h with rfl | rfl | rfl <;> rfl

theorem completes_rds {b : Bool} {n : BitVec 5} {o : WarpForm} (h : registerForm (.rds b n) = some o) : o.completes (.rds b n) := by
  by_cases legal : 22 < n.toNat
  · exact nomatch (if_pos legal).symm.trans h
  · have form := (if_neg legal).symm.trans h
    cases form
    intro s id w sp hr waits
    have none : s.dev.gtimeWaits w sp n.toNat = [] := by
      apply gtimeWaits_nil
      rintro (rfl | rfl) <;> simpa using waits
    rw [exec_rds (by omega), run_eq, readSpecial_ready hr none, withDev_issued]
    simp only [special_eq _ (Nat.not_lt.1 legal)]
    rfl

theorem completes_rdsD {b : Bool} {n : BitVec 5} {o : WarpForm} (h : registerForm (.rdsD b n) = some o) :
    o.completes (.rdsD b n) := by
  by_cases legal : n = 15 ∨ n = 17 ∨ n = 21
  · have form := (if_pos legal).symm.trans h
    cases form
    intro s id w sp hr waits
    have none : s.dev.gtimeWaits w sp n.toNat = [] := by
      apply gtimeWaits_nil
      rintro (rfl | rfl)
      · simpa using waits
      · exact absurd legal (by decide)
    rw [exec_rdsD legal, run_eq, readSpecial_ready hr none, withDev_issued]
    have lanes : (fun t : Thread => t.onStack (pushValue 2 (s.dev.wideRegister w n.toNat))) = fun t =>
        { t with stack := .full ((specials s w sp t).getD (n.toNat + 1) 0) :: .full ((specials s w sp t).getD n.toNat 0) :: t.stack } := by
      funext t
      rw [Thread.onStack, pushValue_wideRegister t legal]
    rw [lanes]
    rfl
  · exact nomatch (if_neg legal).symm.trans h

/-! ## Flags, and the registers that `wrs` writes -/

theorem flagsCell_eq (f : Flags) : flagsCell f = BitVec.ofNat 32 f.toNat := (BitVec.ofNat_toNat 32 f).symm

theorem lfsrOf_eq (v : Word) : lfsrOf (v.extractLsb' 0 16) = newLfsr v := by
  have half : v.extractLsb' 0 16 = BitVec.ofNat 16 v.toNat := by
    apply BitVec.eq_of_toNat_eq
    simp
  have zero : BitVec.ofNat 16 v.toNat = 0 ↔ v.toNat % 65536 = 0 := by
    rw [← BitVec.toNat_inj]
    simp
  unfold lfsrOf newLfsr
  rw [half]
  simp only [zero]

/-- An instruction that pops one cell of each lane and gives the lowest lane's to the warp. -/
theorem popLowest_ready {bytes : Nat} {b : Bool} (h : Ready s id w sp (Need.of bytes b 1 0)) (hp : HostPart)
    (f : Warp → Word → Warp) (g : Split → Split) :
    s.dev.popLowest hp bytes b f g =
      (issued s id (f (w.onLanes sp.mask fun t => { t with stack := t.stack.drop 1 }) (lowestTop w sp)) (g (after sp bytes 1 0))).dev := by
  unfold Dev.popLowest
  rw [issueWarp_ready h, lowestValue_eq]
  rfl

theorem completes_registerForm {o : WarpForm} (h : registerForm i = some o) : o.completes i := by
  cases i
  case rds => exact completes_rds h
  case rdsD => exact completes_rdsD h
  case flags b clear =>
    cases h
    intro s id w sp hr _
    change execFlags b clear s = _
    unfold execFlags
    rw [run_eq, issueWarp_ready (n := Need.of 2 false 0 1) hr, commit_issued, withDev_issued, flagsCell_eq]
    cases clear <;> rfl
  case wrsLfsr b =>
    cases h
    intro s id w sp hr _
    change execWrsLfsr b s = _
    unfold execWrsLfsr
    rw [run_eq, popLowest_ready hr, withDev_issued, lfsrOf_eq]
    rfl
  case wrsVigil b =>
    cases h
    intro s id w sp hr _
    change execWrsVigil b s = _
    unfold execWrsVigil
    rw [run_eq, popLowest_ready hr, withDev_issued]
    rfl
  all_goals nomatch h

/-- Settles O5: the registers by their numbers; a reading of gtime waits for what `gtimeWaits` names. -/
theorem specialRegisterResults : Obligations.SpecialRegisterResults := by
  unfold Obligations.SpecialRegisterResults
  refine ⟨fun i o h => completes_registerForm h, ?_⟩
  intro b s id w sp hw waits
  refine ⟨fun n hn hr => ?_, fun hr => ?_⟩
  · have small : n.toNat ≤ 22 ∧ (n.toNat = 17 ∨ n.toNat = 18) := by revert hn; revert n; decide
    rw [exec_rds small.1, run_eq, readSpecial_waits hr small.2 hw]
  · rw [exec_rdsD (by decide), run_eq, readSpecial_waits hr (by decide) hw]

/-! ## Frame words -/

theorem frameWord_setFrame_self (t : Thread) (n : Nat) (v : Word) : (t.setFrame n v).frameWord n = v := by
  simp [Thread.frameWord, Thread.setFrame]

theorem frameWord_setFrame_of_ne (t : Thread) {m n : Nat} (v : Word) (h : m ≠ n) :
    (t.setFrame n v).frameWord m = t.frameWord m := by
  have other : (n == m) = false := beq_false_of_ne h.symm
  have rest : (fun e : Nat × Word => decide ((e.1 != n) = true ∧ (e.1 == m) = true)) = fun e => e.1 == m := by
    funext e
    by_cases he : e.1 = m <;> simp [he, h]
  unfold Thread.frameWord Thread.setFrame
  simp only [List.find?_cons, other, List.find?_filter, rest]

/-- Some words stored from a slot up. -/
def storeWords (t : Thread) (slot : Nat) (v : Nat → Word) (k : Nat) : Thread :=
  (List.range k).foldl (fun u i => u.setFrame (slot + i) (v i)) t

theorem storeWords_succ (t : Thread) (slot : Nat) (v : Nat → Word) (k : Nat) :
    storeWords t slot v (k + 1) = (storeWords t slot v k).setFrame (slot + k) (v k) := by
  simp [storeWords, List.range_succ, List.foldl_append]

/-- A store changes the frame alone. -/
theorem storeWords_eq (t : Thread) (slot : Nat) (v : Nat → Word) (k : Nat) :
    storeWords t slot v k = { t with frame := (storeWords t slot v k).frame } := by
  induction k with
  | zero => rfl
  | succ k ih => rw [storeWords_succ, ih]; rfl

theorem frameWord_storeWords_inside (t : Thread) (slot : Nat) (v : Nat → Word) {k j : Nat} (h : j < k) :
    (storeWords t slot v k).frameWord (slot + j) = v j := by
  induction k with
  | zero => omega
  | succ k ih =>
    rw [storeWords_succ]
    by_cases hj : j = k
    · rw [hj, frameWord_setFrame_self]
    · rw [frameWord_setFrame_of_ne _ _ (by omega), ih (by omega)]

theorem frameWord_storeWords_outside (t : Thread) (slot : Nat) (v : Nat → Word) {k m : Nat} (h : m < slot ∨ slot + k ≤ m) :
    (storeWords t slot v k).frameWord m = t.frameWord m := by
  induction k with
  | zero => rfl
  | succ k ih => rw [storeWords_succ, frameWord_setFrame_of_ne _ _ (by omega), ih (by omega)]

/-! ## The checks of the frame (R407) -/

theorem mem_lanesOf {m : Mask} {l : Nat} (h : l ∈ lanesOf m) : m.getLsbD l = true := (List.mem_filter.1 h).2

theorem thread?_lane {l : Nat} {t : Thread} (h : w.thread? l = some t) : t.lane = l := by
  simpa using List.find?_some h

/-- The thread of a lane of a mask is one of the threads of the mask. -/
theorem thread?_mem {m : Mask} {l : Nat} {t : Thread} (hl : m.getLsbD l = true) (h : w.thread? l = some t) : t ∈ w.threadsOf m := by
  refine List.mem_filter.2 ⟨List.mem_of_find?_eq_some h, ?_⟩
  rw [thread?_lane h]
  exact hl

/-- R406: a check that no thread of the lanes fails. -/
theorem valueCheck_pass {cause : BitVec 8} {m : Mask} {bad : Thread → Bool} {va : Nat → Dword}
    (h : ∀ t ∈ w.threadsOf m, bad t = false) :
    firstFailing [valueCheck cause (lanesOf m) (fun l => ((w.thread? l).map bad).getD false) va] = none := by
  rw [firstFailing_eq_none]
  intro c hc
  obtain rfl := List.mem_singleton.1 hc
  have none : (lanesOf m).filter (fun l => ((w.thread? l).map bad).getD false) = [] := by
    rw [List.filter_eq_nil_iff]
    intro l hl
    cases ht : w.thread? l with
    | none => simp
    | some t => simp [h t (thread?_mem (mem_lanesOf hl) ht)]
  simp only [valueCheck, none]
  rfl

theorem frameCheck_pass {n k : Nat} (h : inFrame s w sp n k = true) : firstFailing [s.dev.frameCheck w sp n k] = none := by
  refine valueCheck_pass fun t ht => ?_
  have := List.all_eq_true.1 h t ht
  simp only [decide_eq_true_eq, decide_eq_false_iff_not] at this ⊢
  omega

/-! ## Loads, and the frame pointer -/

/-- Cells pushed one by one. -/
theorem foldl_push (f : Nat → Cell) (st : List Cell) (k : Nat) :
    (List.range k).foldl (fun st i => f i :: st) st = ((List.range k).map f).reverse ++ st := by
  induction k with
  | zero => rfl
  | succ k ih => simp [List.range_succ, List.foldl_append, ih]

theorem completes_frameLoad {bytes n k : Nat} (hexec : ∀ s, exec i s = s.run fun hp d => d.loadFrame hp bytes n k) :
    (frameLoad bytes n k).completes i := by
  intro s id w sp hr legal
  obtain ⟨inside, fed⟩ := Bool.and_eq_true_iff.1 legal
  rw [hexec, run_eq]
  unfold Dev.loadFrame
  rw [issueWarp_ready (n := Need.of bytes false 0 k) hr, checked_pass (frameCheck_pass inside), if_pos fed, commit_issued,
    withDev_issued]
  simp only [foldl_push]
  rfl

/-- R154: the frame pointers of a split that may move. -/
theorem moveFrame_ready {n : Nat} (h : Ready s id w sp (Need.of 4 false 0 0)) {bad : Nat → Bool}
    (hb : ∀ t ∈ w.threadsOf sp.mask, bad t.fp = false) (hp : HostPart) (f : Nat → Nat) :
    s.dev.moveFrame hp n bad f = (issued s id (w.onLanes sp.mask fun t => { t with fp := f t.fp }) (after sp 4 0 0)).dev := by
  unfold Dev.moveFrame
  rw [issueWarp_ready h, checked_pass (valueCheck_pass (bad := fun t => bad t.fp) hb)]
  rfl

theorem completes_frameForm {o : WarpForm} (h : frameForm i = some o) : o.completes i := by
  cases i
  case ldf => cases h; exact completes_frameLoad fun _ => rfl
  case ldfL b wide n =>
    by_cases illegal : wide = true ∧ n = 255
    · exact nomatch (if_pos illegal).symm.trans h
    · have form := (if_neg illegal).symm.trans h
      cases form
      refine completes_frameLoad fun s => ?_
      change execLdfL b wide n s = _
      unfold execLdfL
      simp only [show (wide && n == 255) = false by simpa using illegal, Bool.false_eq_true, if_false]
  case frame b n =>
    cases h
    intro s id w sp hr inside
    have pass : ∀ t ∈ w.threadsOf sp.mask, decide (((s.dev.warp? id).map s.dev.frameSlots).getD 0 < t.fp + n.toNat) = false := by
      intro t ht
      have := List.all_eq_true.1 inside t ht
      rw [hr.issues.warp]
      simpa using this
    change execFrame b n s = _
    unfold execFrame Dev.enterFrame
    rw [run_eq]
    simp only [hr.issues.issuer]
    rw [moveFrame_ready hr (bad := fun fp => decide (((s.dev.warp? id).map s.dev.frameSlots).getD 0 < fp + n.toNat)) pass,
      withDev_issued]
    rfl
  case leave b n =>
    cases h
    intro s id w sp hr inside
    have pass : ∀ t ∈ w.threadsOf sp.mask, decide (t.fp < n.toNat) = false := by
      intro t ht
      have := List.all_eq_true.1 inside t ht
      simpa using this
    change execLeave b n s = _
    unfold execLeave
    rw [run_eq, moveFrame_ready hr (bad := fun fp => decide (fp < n.toNat)) pass, withDev_issued]
    rfl
  all_goals nomatch h

/-! ## Stores -/

/-- R57: the places of the forwarding table that a store takes, which are those of its entries up to 16. -/
theorem storePlaces_issues (h : Issues s id w sp) (k : Nat) :
    s.dev.storePlaces k = Nat.min 16 (k * ((w.threadsOf sp.mask).map Thread.fp).eraseDups.length) := by
  unfold Dev.storePlaces Warp.framePointers
  simp [h.issuer, h.warp, h.cur]

theorem length_storeEntries (now id : Nat) (w : Warp) (sp : Split) (slot k : Nat) :
    (storeEntries now id w sp slot k).length = k * ((w.threadsOf sp.mask).map Thread.fp).eraseDups.length := by
  simp [storeEntries, Warp.framePointers, List.length_flatMap]

/-- R57: the forwarding table after entries are taken: the newest 16. -/
theorem length_pushForwards (d : Dev) (core lb : Nat) (fs : List Forward) :
    (((d.pushForwards core lb fs).core core).lb lb).forwards.length =
      Nat.min 16 (((d.core core).lb lb).forwards.length + fs.length) := by
  unfold Dev.pushForwards Dev.onLb
  simp only [Dev.core_onCore, Core.lb_onLb, List.length_drop, List.length_append, Nat.min_def]
  generalize ((d.core core).lb lb).forwards.length + fs.length = n
  split <;> omega

/-- R57: where the table has room, no entry is freed. -/
theorem pushForwards_room (d : Dev) (core lb : Nat) (fs : List Forward)
    (h : ((d.core core).lb lb).forwards.length + fs.length ≤ 16) :
    d.pushForwards core lb fs = { d with cores := (d.pushForwards core lb fs).cores } := by
  have none : (((d.core core).lb lb).forwards ++ fs).length - 16 = 0 := by
    rw [List.length_append]
    omega
  unfold Dev.pushForwards
  simp only [none]
  rfl

theorem core_commit (s : Machine.State) (d : Dev) (id : Nat) (w : Warp) (sp : Split) (j : Nat) :
    (withDev s (d.commit id w sp)).dev.core j = d.core j := rfl

/-- R152: the thread after a store of `k` words. -/
def storingThread (n k : Nat) (t : Thread) : Thread :=
  (storeWords t (t.fp + n) (t.storedWord k) k).onStack fun st => st.drop k

theorem exec_storeFrame {bytes n k : Nat} {b : Bool} (hexec : ∀ s, exec i s = s.run fun hp d => d.storeFrame hp bytes b n k)
    (hr : Ready s id w sp { Need.of bytes b k 0 with
      forwards := Nat.min 16 (k * ((w.threadsOf sp.mask).map Thread.fp).eraseDups.length) })
    (inside : inFrame s w sp n k = true) :
    exec i s = .next (withDev s ((s.dev.pushForwards w.core w.lb (storeEntries (s.dev.clockOf w.core) id w sp n k)).commit id
      (w.onLanes sp.mask (storingThread n k)) (after sp bytes k 0))) := by
  rw [← storePlaces_issues hr.issues] at hr
  rw [hexec, run_eq]
  unfold Dev.storeFrame
  rw [issueWarp_ready hr, checked_pass (frameCheck_pass inside)]
  rfl

/-- R57, R152: what a store leaves. -/
theorem stores {bytes n k : Nat} {b : Bool} (hexec : ∀ s, exec i s = s.run fun hp d => d.storeFrame hp bytes b n k)
    (s : Machine.State) (id : Nat) (w : Warp) (sp : Split) :
    let entries := k * ((w.threadsOf sp.mask).map Thread.fp).eraseDups.length
    Ready s id w sp { Need.of bytes b k 0 with forwards := Nat.min 16 entries } → inFrame s w sp n k = true →
    ∃ t w', exec i s = .next t ∧ t.dev.warp? id = some w' ∧ w'.cur = some (after sp bytes k 0) ∧
      (entries ≤ 16 →
        t = { s with dev := { s.dev with cores := t.dev.cores, warps := t.dev.warps, issued := true } }) ∧
      ((t.dev.core w.core).lb w.lb).forwards.length =
        Nat.min 16 (((s.dev.core w.core).lb w.lb).forwards.length + entries) ∧
      ∀ l ∈ lanesOf sp.mask, ∀ u, w.thread? l = some u → ∃ u', w'.thread? l = some u' ∧ u'.stack = u.stack.drop k ∧
        (∀ j < k, u'.frameWord (u.fp + n + j) = cell u.stack (k - 1 - j)) ∧
        ∀ m, (m < u.fp + n ∨ u.fp + n + k ≤ m) → u'.frameWord m = u.frameWord m := by
  intro entries hr inside
  have taken := length_storeEntries (s.dev.clockOf w.core) id w sp n k
  refine ⟨_, _, exec_storeFrame hexec hr inside, Dev.warp?_setWarp .., rfl, fun few => ?_, ?_, ?_⟩
  · have room : ((s.dev.core w.core).lb w.lb).forwards.length +
        (storeEntries (s.dev.clockOf w.core) id w sp n k).length ≤ 16 := by
      have := hr.forwards
      simp only [Nat.min_eq_right few] at this
      rw [taken]
      exact this
    rw [pushForwards_room _ _ _ _ room]
    rfl
  · rw [core_commit, length_pushForwards, taken]
  · intro l hl u hu
    have lane : ∀ t, (storingThread n k t).lane = t.lane := by
      intro t
      rw [storingThread, storeWords_eq]
      rfl
    refine ⟨storingThread n k u, ?_, ?_, fun j hj => ?_, fun m hm => ?_⟩
    · refine (Warp.thread?_onLanes w sp.mask _ lane l).trans ?_
      rw [hu, Option.map_some, thread?_lane hu, if_pos (mem_lanesOf hl)]
    · rw [storingThread, storeWords_eq]
      rfl
    · exact frameWord_storeWords_inside u (u.fp + n) (u.storedWord k) hj
    · exact frameWord_storeWords_outside u (u.fp + n) (u.storedWord k) hm

/-- Settles O4: loads and the frame pointer change their own warp; a store by what `storeWords` and the forwarding table hold. -/
theorem frameResults : Obligations.FrameResults := by
  unfold Obligations.FrameResults
  refine ⟨fun i o h => completes_frameForm h, ?_⟩
  rintro i bytes n k b (⟨x, rfl, rfl, rfl, rfl⟩ | ⟨x, rfl, rfl, rfl, rfl⟩ | ⟨x, rfl, hx, rfl, rfl, rfl⟩) s id w sp
  · exact stores (fun _ => rfl) s id w sp
  · exact stores (fun _ => rfl) s id w sp
  · refine stores (fun s => ?_) s id w sp
    change execStfL b true x s = _
    unfold execStfL
    simp only [show (true && x == 255) = false by simpa using hx, Bool.false_eq_true, if_false, if_true]

end Sys2Proof.Proofs
end

section
/-! PROOF. Branches, calls, returns and dispatch (R191 to R200, R204), of warps and of front-end contexts. -/

namespace Sys2Proof.Proofs

open Sys2Proof Sys2Proof.Machine Sys2Proof.Safety

variable {s : Machine.State} {id : Nat} {w : Warp} {sp : Split} {i : Instr}

/-! ## Where a branch goes -/

theorem blockTarget_eq (pc : Va) (off : Int) : blockTarget pc off = blockAt pc off := by
  unfold blockTarget blockAt
  rw [Int.add_mul]

/-- R192: the lanes that take a conditional branch. -/
theorem takers_eq (nz : Bool) :
    maskOf (((w.threadsOf sp.mask).filter fun t => (topWord t != 0) == nz).map Thread.lane) = takers nz w sp := by
  have same : (fun t : Thread => (topWord t != 0) == nz) = fun t => if nz then cell t.stack 0 != 0 else cell t.stack 0 == 0 := by
    funext t
    rw [topWord_eq]
    cases nz
    · simp [bne]
    · simp
  rw [same]
  rfl

/-! ## Branches of a warp -/

/-- A branch of the shape of a form. -/
theorem completes_branch {o : BranchForm} {k : HostPart → Dev → Nat → Warp → Split → Dev}
    (hexec : ∀ s, exec i s = s.run fun hp d => d.issueWarp hp o.need (k hp d))
    (hk : ∀ s id w sp, o.legal s w sp = true → k s.host s.dev id w sp = s.dev.goTo id (o.own s w sp) (o.parts s w sp)) :
    o.completes i := by
  intro s id w sp h legal
  rw [hexec, run_eq, issueWarp_ready h, hk s id w sp legal]

theorem completes_jump {bytes : Nat} {off : Int} (hexec : ∀ s, exec i s = s.run fun hp d => d.jump hp bytes off) :
    (jumpForm bytes off).completes i := by
  refine completes_branch (k := fun _ d id w s => d.goTo id w [{ s.after (Need.of bytes false 0 0) with pc := blockTarget s.pc off }])
    hexec fun s id w sp _ => ?_
  rw [blockTarget_eq]
  rfl

/-- R194: there is room on the join stack. -/
theorem joinRoom_pass {push : Bool} (h : (!push || decide (w.join.length < 16)) = true) :
    firstFailing (if push then [joinRoom w sp] else []) = none := by
  rw [firstFailing_eq_none]
  cases push
  · simp
  · have room : w.join.length < 16 := by simpa using h
    simp [joinRoom, Nat.not_le.2 room]

theorem completes_condBranch {bytes : Nat} {b nz push : Bool} {off : Int}
    (hexec : ∀ s, exec i s = s.run fun hp d => d.condBranch hp bytes b nz push off) :
    (conditionalForm bytes b nz push off).completes i := by
  intro s id w sp h room
  rw [hexec, run_eq]
  unfold Dev.condBranch
  rw [issueWarp_ready (n := Need.of bytes b 1 0) h, checked_pass (joinRoom_pass room), takers_eq]
  simp only [blockTarget_eq]
  rfl

theorem completes_predicate {bytes : Nat} {taken : BitVec 8 → Bool} {off : Int}
    (hexec : ∀ s, exec i s = s.run fun hp d => d.uniformBranch hp bytes taken off) :
    (predicateForm bytes taken off).completes i := by
  intro s id w sp h _
  rw [hexec, run_eq]
  unfold Dev.uniformBranch
  have next : Ready s id w sp { blind bytes 0 0 with regs := [] } := h
  rw [issueEither_warp next, blockTarget_eq]
  have parts : (if taken w.kp then { sp.after (Need.of bytes false 0 0) with pc := blockAt sp.pc off }
        else sp.after (Need.of bytes false 0 0)) =
      { after sp bytes 0 0 with pc := if taken w.kp then blockAt sp.pc off else sp.pc + BitVec.ofNat 57 bytes } := by
    cases taken w.kp <;> rfl
  exact congrArg (fun p => Host.Outcome.next (withDev s (s.dev.goTo id w [p]))) parts

/-! ## Calls and returns -/

/-- R199: the block after the instruction's, as a return stack holds it. -/
theorem returnBlock_eq (a : Va) : a.extractLsb' 6 51 = BitVec.ofNat 51 (a.toNat / 64) := by
  apply BitVec.eq_of_toNat_eq
  simp [BitVec.extractLsb'_toNat, Nat.shiftRight_eq_div_pow]

theorem returnAddress_eq (r : BitVec 51) : (r ++ (0 : BitVec 6) : BitVec 57) = BitVec.ofNat 57 (r.toNat * 64) := by
  apply BitVec.eq_of_toNat_eq
  have := r.isLt
  rw [append_toNat, BitVec.toNat_ofNat, show (0 : BitVec 6).toNat = 0 from rfl]
  omega

/-- R199: no lane's return stack fails its check. -/
theorem returnCheck_pass {cause : BitVec 8} {bad : Nat → Bool} (h : ∀ t ∈ w.threadsOf sp.mask, bad t.ret.length = false) :
    firstFailing [returnCheck cause w sp bad] = none :=
  valueCheck_pass (bad := fun t => bad t.ret.length) h

theorem completes_call {b : Bool} {off : BitVec 16} {o : BranchForm} (h : branchForm (.call b off) = some o) :
    o.completes (.call b off) := by
  cases h
  intro s id w sp hr room
  have pass : ∀ t ∈ w.threadsOf sp.mask, decide (32 ≤ t.ret.length) = false := by
    intro t ht
    simpa using List.all_eq_true.1 room t ht
  change execCall b off s = _
  unfold execCall
  rw [run_eq, issueWarp_ready (n := Need.of 4 false 0 0) hr, checked_pass (returnCheck_pass pass), returnBlock_eq, blockTarget_eq,
    blockTarget_eq]
  rfl

theorem completes_ret {b : Bool} {o : BranchForm} (h : branchForm (.ret b) = some o) : o.completes (.ret b) := by
  cases h
  intro s id w sp hr some_
  have pass : ∀ t ∈ w.threadsOf sp.mask, (t.ret.length == 0) = false := by
    intro t ht
    have := List.all_eq_true.1 some_ t ht
    simpa using this
  change execRet b s = _
  unfold execRet
  rw [run_eq, issueWarp_ready (n := Need.of 2 false 0 0) hr, checked_pass (returnCheck_pass (bad := fun k => k == 0) pass)]
  simp only [returnAddress_eq]
  rfl

theorem completes_jmpF {b : Bool} {off : BitVec 16} {o : BranchForm} (h : branchForm (.jmpF b off) = some o) :
    o.completes (.jmpF b off) := by
  cases h
  intro s id w sp hr valid
  change execJmpF b off s = _
  unfold execJmpF
  rw [run_eq, issueWarp_ready (n := Need.of 4 false 0 0) hr]
  simp only [blockTarget_eq]
  rw [if_pos valid]
  rfl

/-- Settles O11: each form by its shape: a jump, a conditional branch, a branch by a predicate, a call or a return. -/
theorem branchResults : Obligations.BranchResults := by
  unfold Obligations.BranchResults
  intro i o h
  cases i
  case br | brL => cases h; exact completes_jump fun _ => rfl
  case bz | bnz | bzj | bnzj | bzL | bnzL | bzjL | bnzjL => cases h; exact completes_condBranch fun _ => rfl
  case kbz b kp off =>
    cases h
    exact completes_predicate (taken := fun p => !p.getLsbD kp.toNat) fun _ => rfl
  case kbnz b kp off =>
    cases h
    exact completes_predicate (taken := fun p => p.getLsbD kp.toNat) fun _ => rfl
  case jmpX off =>
    cases h
    exact completes_predicate (taken := fun _ => true) fun _ => rfl
  case jmpF => exact completes_jmpF h
  case call => exact completes_call h
  case ret => exact completes_ret h
  all_goals nomatch h

/-! ## Front-end contexts -/

/-- R193, R198: a branch of a context. -/
theorem uniformBranch_fet {f : Fet} (h : IssuesFet s id f []) (hp : HostPart) (bytes : Nat) (taken : BitVec 8 → Bool) (off : Int) :
    s.dev.uniformBranch hp bytes taken off =
      (issuedFet s id { f with pc := if taken f.kp then blockAt f.pc off - BitVec.ofNat 57 bytes else f.pc } bytes).dev := by
  unfold Dev.uniformBranch
  rw [issueEither_fet h, blockTarget_eq]
  cases taken f.kp with
  | false => rfl
  | true =>
    have back : blockAt f.pc off + BitVec.ofNat 57 0 = blockAt f.pc off - BitVec.ofNat 57 bytes + BitVec.ofNat 57 bytes := by
      rw [BitVec.sub_add_cancel]
      exact BitVec.add_zero _
    simp only [if_true, commitFet_issued, issuedFet, back]

/-- A change of a context, or of a warp, that is there. -/
theorem onFet_eq {d : Dev} {id : Nat} {f : Fet} (h : Table.find? d.fets id = some f) (g : Fet → Fet) :
    d.onFet id g = d.setFet id (g f) := by
  unfold Dev.onFet Dev.setFet Table.modify
  rw [h]

theorem onWarp_eq {d : Dev} {id : Nat} {w : Warp} (h : d.warp? id = some w) (g : Warp → Warp) :
    d.onWarp id g = d.setWarp id (g w) := by
  unfold Dev.onWarp Dev.setWarp Table.modify
  rw [show Table.find? d.warps id = some w from h]

/-- R432: a fault of a warp that is in no handler. -/
theorem postFault_program {d : Dev} {n : Nat} {w : Warp} (h : d.warp? n = some w) (hh : w.handler = none) (p : Posted) :
    d.postFault n p = d.setWarp n { w with posted := addPosted w.posted p } := by
  unfold Dev.postFault
  rw [onWarp_eq h]
  simp only [hh]

/-- R402: a trap of a context whose team has a live warp that is not resident: the trap waits for it. -/
theorem fetTrapAt_evicted {d : Dev} {f : Fet} {n : Nat} (hf : Table.find? d.fets id = some f) (hl : d.lowestWarp f.team = some n)
    (hw : d.warp? n = some w) (hp : w.place = .evicted) (hh : w.handler = none) (host : HostPart) (stamp : Nat) (cause : BitVec 8)
    (lanes : Mask) (pc : Va) (va : Dword) (erec : List Byte) :
    d.fetTrapAt host id stamp cause lanes pc va erec =
      (d.setFet id { f with ended := true, stalled := none }).setWarp n
        { w with posted := addPosted w.posted ⟨stamp, cause, 2, 0, lanes, pc, va, 0, erec⟩ } := by
  have there : (d.setFet id { f with ended := true, stalled := none }).warp? n = some w := hw
  have lowest : (d.setFet id { f with ended := true, stalled := none }).lowestWarp f.team = some n := hl
  unfold Dev.fetTrapAt
  simp only [hf, onFet_eq hf, lowest]
  rw [postFault_program there hh]
  unfold Dev.deliver
  simp only [Dev.warp?_setWarp, hp]
  split
  · rfl
  · rfl

/-- R402: a trap at issue takes the next stamp. -/
theorem fetTrap_eq (host : HostPart) (d : Dev) (cause : BitVec 8) (lanes : Mask) (pc : Va) (va : Dword) (erec : List Byte) :
    d.fetTrap host id cause lanes pc va erec =
      { d with nextId := d.nextId + 1 }.fetTrapAt host id d.nextId cause lanes pc va erec := rfl

/-- R142: a context may not issue a `nop`. -/
theorem nop_fet {f : Fet} {regs : List Nat} (h : IssuesFet s id f regs) (host : HostPart) :
    s.dev.nop host = s.dev.fetTrap host id 0x01 0 f.pc 0 [] := by
  unfold Dev.nop Dev.stackOp Dev.issueWarp Dev.misplaced
  simp only [h.issuer, h.fet]

/-- R392: a trap whose stamp is new joins those that wait. -/
theorem addPosted_new {ps : List Posted} {p : Posted} (h : ∀ q ∈ ps, q.stamp ≠ p.stamp) : addPosted ps p = ps ++ [p] := by
  unfold addPosted
  rw [if_neg]
  simp only [List.any_eq_true, not_exists, not_and]
  intro q hq same
  simp only [Posted.same, Bool.and_eq_true, beq_iff_eq] at same
  exact h q hq same.1.1.1.symm

/-- Settles O12: the branches by that of a context, `nop` by the trap that its context raises. -/
theorem contextBranchResults : Obligations.ContextBranchResults := by
  unfold Obligations.ContextBranchResults
  refine ⟨fun b s id n f w h hl hw hp hh hs => ?_, ?_⟩
  · change s.run (fun hp d => d.nop hp) = _
    have trap := fetTrapAt_evicted (d := { s.dev with nextId := s.dev.nextId + 1 }) h.fet hl hw hp hh s.host s.dev.nextId 0x01 0
      f.pc 0 []
    rw [addPosted_new hs] at trap
    rw [run_eq, nop_fet h, fetTrap_eq, trap]
    rfl
  · intro i bytes taken off form s id f h
    cases i
    case kbz | kbnz | jmpX =>
      cases form
      exact congrArg (fun d => Host.Outcome.next (withDev s d)) (uniformBranch_fet h s.host _ _ _)
    all_goals nomatch form

/-! ## Dispatch -/

/-- A table set twice at one number. -/
theorem Table_set_set {α : Type} (t : Table α) (n : Nat) (a b : α) : Table.set (Table.set t n a) n b = Table.set t n b := by
  induction t with
  | nil => simp [Table.set]
  | cons e t ih =>
    obtain ⟨k, v⟩ := e
    by_cases hk : k = n
    · simp [Table.set, hk]
    · by_cases hn : n < k
      · simp [Table.set, hk, hn]
      · simp [Table.set, hk, hn, ih]

/-- R192: a split that goes on as one part: what its warp was before is of no account. -/
theorem goTo_mark (d : Dev) (id : Nat) (m : OrderMark) (x : Warp) (p : Split) :
    (d.mark id m).goTo id x [p] = d.goTo id x [p] := by
  have same : (d.mark id m).commit id x p = d.commit id x p := by
    unfold Dev.commit Dev.setWarp Dev.mark Dev.onWarp Table.modify
    cases h : Table.find? d.warps id with
    | none => rfl
    | some y => simp only [Table_set_set]
  change ((d.mark id m).commit id x p).mergeCheck id = (d.commit id x p).mergeCheck id
  rw [same]

/-- R196: the place of a lane in the table. -/
theorem tableIndex_eq (l : Nat) : ((w.thread? l).map fun t => (topWord t).toNat).getD 0 = (topOf w l).toNat := by
  unfold topOf
  cases w.thread? l with
  | none => rfl
  | some t => simp [topWord_eq]

/-- R196: dispatch whose indices lie in the table, which is there. -/
theorem exec_jtab {b : Bool} {last : BitVec 5} {table : List Nat} (h : Ready s id w sp (Need.of 4 b 1 0))
    (code : s.dev.codeParcels w.core (s.dev.slotOf w.team) (sp.pc.toNat + 4) (last.toNat + 1) = .parcels table)
    (room : w.join.length < 16) (inside : ∀ l ∈ lanesOf sp.mask, (topOf w l).toNat ≤ last.toNat) :
    exec (.jtab b last) s = .next (withDev s (s.dev.goTo id
      { w.onLanes sp.mask (fun t => { t with stack := t.stack.drop 1 }) with join := sp.mask :: w.join }
      (targetParts (after sp 4 1 0) ((lanesOf sp.mask).map fun l =>
        (l, blockAt sp.pc (BitVec.ofNat 16 (table.getD (topOf w l).toNat 0)).toInt))))) := by
  have pass : firstFailing [joinRoom w sp,
      valueCheck 0x0A (lanesOf sp.mask) (fun l => decide (last.toNat < (topOf w l).toNat)) fun _ => 0] = none := by
    have none : (lanesOf sp.mask).filter (fun l => decide (last.toNat < (topOf w l).toNat)) = [] := by
      rw [List.filter_eq_nil_iff]
      intro l hl
      simpa using inside l hl
    rw [firstFailing_eq_none]
    intro c hc
    rcases List.mem_pair.1 hc with rfl | rfl
    · exact if_neg (Nat.not_le.2 room)
    · simp only [valueCheck, none]
      rfl
  change execJtab b last s = _
  unfold execJtab
  rw [run_eq, issueWarp_ready h]
  simp only [code, tableIndex_eq, blockTarget_eq]
  rw [checked_pass pass]
  rfl

/-- R197: what one entry of ch15 decides. -/
theorem exec_brq {b : Bool} {off : BitVec 7} {v : Word} {before : List Nat} {rest : List (Word × List Nat)}
    (h : Ready s id w sp { Need.of 2 false 0 0 with channels := [(15, 1, false)] }) (entry : w.ch15 = (v, before) :: rest) :
    exec (.brq b off) s = .next (withDev s (s.dev.goTo id
      { w with
        ch15 := rest
        marks := if before = [] then w.marks else s.dev.liveMarks w.marks ++ [⟨sp.mask, before, 0, []⟩] }
      (whole (Need.of 2 false 0 0) sp (if v = 0 then sp.pc + 2 else blockAt sp.pc off.toInt)))) := by
  have parts : (if v != 0 then { sp.after { Need.of 2 false 0 0 with channels := [(15, 1, false)] } with
        pc := blockTarget sp.pc off.toInt } else sp.after { Need.of 2 false 0 0 with channels := [(15, 1, false)] }) =
      { after sp 2 0 0 with pc := if v = 0 then sp.pc + 2 else blockAt sp.pc off.toInt } := by
    rw [blockTarget_eq]
    by_cases hv : v = 0
    · subst hv; rfl
    · simp only [bne_iff_ne, ne_eq, hv, not_false_eq_true, if_true, if_false]
      rfl
  have tail : w.ch15.drop 1 = rest := by rw [entry]; rfl
  change execBrq b off s = _
  unfold execBrq
  rw [run_eq, issueWarp_ready h]
  simp only [entry, List.head?_cons, Option.map_some, Option.getD_some, List.take_succ_cons, List.take_zero]
  rw [parts]
  unfold Dev.entryMark
  simp only [List.flatMap_cons, List.flatMap_nil, List.append_nil]
  by_cases hb : before = []
  · subst hb
    simp only [List.isEmpty_nil, if_true, h.issues.warp, Option.getD_some, tail]
    rfl
  · simp only [show before.isEmpty = false by simpa using hb, Bool.false_eq_true, if_false, hb]
    rw [goTo_mark]
    unfold Dev.mark
    simp only [Dev.warp?_onWarp, h.issues.warp, Option.map_some, Option.getD_some, tail]
    rfl

/-- Settles O13: `jtab` where its checks pass, and `brq` by its entry; the device before the branch is that of the issue. -/
theorem dispatchResults : Obligations.DispatchResults := by
  unfold Obligations.DispatchResults
  refine ⟨fun b last s id w sp table h code room inside => exec_jtab h code room inside, ?_⟩
  intro b off s id w sp v before rest h entry marks parts
  exact ⟨s.dev, exec_brq h entry, rfl, rfl, fun _ _ => rfl, fun _ => rfl⟩

end Sys2Proof.Proofs
end

section
/-! PROOF. Selection (R30, R31, R33), `join` and `wsync` (R34, R194, R195, R257), `exit` and `yield` (R37, R201, R202). -/

namespace Sys2Proof.Proofs

open Sys2Proof Sys2Proof.Machine Sys2Proof.Safety

variable {s : Machine.State} {id : Nat} {w : Warp} {sp : Split}

/-! ## Selection -/

/-- R33: whether two splits merge depends on the warp's threads alone. -/
theorem merge?_setCur (p : Split) (id : Nat) (a b : Split) : (w.setCur p).merge? id a b = w.merge? id a b := rfl

/-- R33: a split that merges with no other stays current. -/
theorem mergeCheck_none {d : Dev} (h : d.warp? id = some w) {p : Split} (hc : w.cur = some p)
    (hm : ∀ t ∈ w.others, w.merge? id t p = none) : d.mergeCheck id = d := by
  have none : (w.others.any fun t => (w.merge? id t p).isSome) = false := by
    rw [List.any_eq_false]
    intro t ht
    simp [hm t ht]
  unfold Dev.mergeCheck
  simp only [h, hc, none, Bool.false_eq_true, if_false]

/-- R192: a split that goes on as one part, which merges with no other. -/
theorem goTo_single {d : Dev} {p : Split} (hm : ∀ t ∈ w.others, w.merge? id t p = none) : d.goTo id w [p] = d.commit id w p :=
  mergeCheck_none (w := w.setCur p) (Dev.warp?_setWarp ..) rfl hm

/-- R31: the step of L, as a number. -/
theorem lfsrStep_eq (l : BitVec 16) :
    lfsrStep l = BitVec.ofNat 16
      (2 * l.toNat + ((l.getLsbD 15).toNat + (l.getLsbD 13).toNat + (l.getLsbD 12).toNat + (l.getLsbD 10).toNat) % 2) := by
  have parity : ∀ a b c d : Bool, ((a ^^ b) ^^ (c ^^ d)).toNat = (a.toNat + b.toNat + c.toNat + d.toNat) % 2 := by decide
  unfold lfsrStep
  rw [← parity]
  generalize ((l.getLsbD 15 ^^ l.getLsbD 13) ^^ (l.getLsbD 12 ^^ l.getLsbD 10)) = feedback
  have apart : (l <<< 1) &&& BitVec.setWidth 16 (BitVec.ofBool feedback) = 0#16 := by
    apply BitVec.eq_of_getLsbD_eq
    intro j hj
    cases j with
    | zero => simp
    | succ j => simp
  rw [← BitVec.add_eq_or_of_and_eq_zero _ _ apart]
  apply BitVec.eq_of_toNat_eq
  rw [BitVec.toNat_add, BitVec.toNat_shiftLeft, BitVec.toNat_setWidth, BitVec.toNat_ofBool, BitVec.toNat_ofNat, Nat.shiftLeft_eq]
  omega

/-- Settles O14: no merge, no selection; the step of L by its feedback bit; the choice by its definition. -/
theorem selectionResults : Obligations.SelectionResults := by
  unfold Obligations.SelectionResults
  refine ⟨fun s id w p hm => ?_, lfsrStep_eq, fun l a b rest => ⟨rfl, rfl⟩⟩
  rw [goTo_single hm]
  rfl

/-! ## join and wsync -/

/-- R194: a `join` at the depth and with the mask that its entry asks for. -/
theorem exec_join {b : Bool} {depth : BitVec 7} {top : Mask} {rest : List Mask} (h : Ready s id w sp (Need.of 2 false 0 0))
    (hj : w.join = top :: rest) (hm : sp.mask &&& top = sp.mask) (hd : w.depth sp = depth.toNat) :
    exec (.join b depth) s = .next (withDev s (s.dev.arriveJoin id w sp (Need.of 2 false 0 0) top rest)) := by
  change execJoin b depth s = _
  unfold execJoin
  rw [run_eq, issueWarp_ready h]
  simp only [hj, hm, hd, bne_self_eq_false, Bool.or_self, Bool.false_eq_true, if_false]

/-- R257: a `wsync` whose depth agrees with those that wait at it. -/
theorem exec_wsync {b : Bool} (h : Ready s id w sp (Need.of 2 false 0 0))
    (hd : ∀ t ∈ w.others, t.state = .wsync → t.pc = sp.pc → w.depth t = w.depth sp) :
    exec (.wsync b) s = .next (withDev s (((leaving s id w [waiting sp .wsync]).settleWarp id).select id)) := by
  have agree : (w.others.any fun t => t.state == .wsync && t.pc == sp.pc && w.depth t != w.depth sp) = false := by
    rw [List.any_eq_false]
    intro t ht
    simp only [Bool.and_eq_true, beq_iff_eq, bne_iff_ne, not_and, not_not]
    intro ⟨hs, hp⟩
    exact hd t ht hs hp
  change execWsync b s = _
  unfold execWsync
  rw [run_eq, issueWarp_ready h]
  simp only [agree, Bool.false_eq_true, if_false]
  rfl

/-- R397: no lane of a warp is parked. -/
theorem parkedLanes_zero {d : Dev} (h : ∀ e ∈ d.accesses, e.2.party = .warp id → e.2.parked = false) : d.parkedLanes id = 0 := by
  have none : (d.accesses.filter fun e => e.2.party == Party.warp id && e.2.parked && decide (e.2.lane < 32)) = [] := by
    rw [List.filter_eq_nil_iff]
    intro e he hc
    simp only [Bool.and_eq_true, beq_iff_eq] at hc
    simp [h e he hc.1.1] at hc
  unfold Dev.parkedLanes
  rw [none]
  rfl

theorem parkedAll_none {d : Dev} (h : ∀ e ∈ d.accesses, e.2.party = .warp id → e.2.parked = false) (w : Warp) :
    d.parkedAll id w = w := by
  have none : (d.accesses.filter fun e => e.2.party == Party.warp id && e.2.parked && decide (e.2.lane < 32)) = [] := by
    rw [List.filter_eq_nil_iff]
    intro e he hc
    simp only [Bool.and_eq_true, beq_iff_eq] at hc
    simp [h e he hc.1.1] at hc
  unfold Dev.parkedAll
  rw [none]
  rfl

/-- The warp whose only split has waited at a `wsync` and goes on after it. -/
def pastWsync (w : Warp) (sp : Split) : Warp :=
  { w with
    cur := none
    others := [{ sp with pc := sp.pc + 2, age := 0, state := .ready }]
    last := (w.cur.map Split.mask).getD w.last }

/-- R257: the only split of a warp, at its `wsync`, has all that it waits for. -/
theorem settleWsync_alone (ho : w.others = []) (hl : sp.mask = w.live) (hn : w.live ≠ 0) (hk : sp.c ≤ 8) :
    (w.replaceCur [waiting sp .wsync]).settleWsync id 0 = (pastWsync w sp, true, []) := by
  have live : (w.replaceCur [waiting sp .wsync]).live = w.live := rfl
  have splits : (w.replaceCur [waiting sp .wsync]).splits = [waiting sp .wsync] := by
    simp [Warp.splits, Warp.replaceCur, ho]
  have count : leastCount [waiting sp .wsync] = sp.c := Nat.min_eq_right hk
  have all : (w.replaceCur [waiting sp .wsync]).allWaiting w.live .wsync = some sp.pc := by
    have here : ([waiting sp .wsync].filter fun t => t.mask &&& w.live != 0) = [waiting sp .wsync] := by
      have meets : (waiting sp .wsync).mask &&& w.live ≠ 0 := by
        change sp.mask &&& w.live ≠ 0
        rw [hl, BitVec.and_self]
        exact hn
      rw [List.filter_cons_of_pos (by simpa using meets), List.filter_nil]
    unfold Warp.allWaiting
    rw [splits, here]
    simp [waiting]
  have merged : joined [waiting sp .wsync] (sp.pc + 2) sp.c = { sp with pc := sp.pc + 2, age := 0, state := .ready } := by
    simp [joined, unionMask, waiting]
  have spills : mergeSpills id [waiting sp .wsync] sp.c = [] := by
    simp [mergeSpills, waiting]
  have waits : (w.live == 0 || (0 : Mask) &&& w.live != 0) = false := by
    simpa using hn
  unfold Warp.settleWsync
  simp only [live, all, splits, count, merged, spills, waits]
  rfl

/-- R257: and so its warp is settled, with the mark that what follows comes after what was before. -/
theorem settleWarp_alone (ho : w.others = []) (hl : sp.mask = w.live) (hn : w.live ≠ 0) (hj : w.join = [])
    (hk : sp.c ≤ 8) (hp : ∀ e ∈ s.dev.accesses, e.2.party = .warp id → e.2.parked = false) :
    ∃ m, (leaving s id w [waiting sp .wsync]).settleWarp id =
      ({ s.dev.setWarp id (pastWsync w sp) with issued := true }).mark id m := by
  have found : (leaving s id w [waiting sp .wsync]).warp? id = some (w.replaceCur [waiting sp .wsync]) := Dev.warp?_setWarp ..
  have parked : (leaving s id w [waiting sp .wsync]).parkedLanes id = 0 := parkedLanes_zero hp
  have join : (w.replaceCur [waiting sp .wsync]).settleJoin id 0 = (w.replaceCur [waiting sp .wsync], []) := by
    have empty : popDead (w.replaceCur [waiting sp .wsync]).live (w.replaceCur [waiting sp .wsync]).join = [] := by
      simp [Warp.replaceCur, hj, popDead]
    unfold Warp.settleJoin
    simp only [empty]
    simp [Warp.replaceCur, hj]
  unfold Dev.settleWarp
  simp only [found, parked, join, settleWsync_alone ho hl hn hk]
  refine ⟨_, congrArg (fun d => Dev.mark d id _) ?_⟩
  simp only [Dev.addTransfers, List.append_nil, List.isEmpty_nil, if_true]
  unfold leaving Dev.setWarp
  simp only [Table_set_set]

/-- R30: the only split of a warp, which is ready, becomes current. -/
theorem select_alone {d : Dev} {x : Warp} {p : Split} (hw : d.warp? id = some x) (hc : x.cur = none) (ho : x.others = [p])
    (hs : p.state = .ready) (hp : ∀ e ∈ d.accesses, e.2.party = .warp id → e.2.parked = false)
    (ht : ∀ t ∈ ((d.core x.core).lb x.lb).transfers, t.warp ≠ id) :
    d.select id = d.setWarp id { x with cur := some p, others := [] } := by
  have idle : d.transferring id x p.mask = false := by
    unfold Dev.transferring
    rw [List.any_eq_false]
    intro t h
    simp [ht t h]
  have awake : d.wake id x p = p := by
    unfold Dev.wake
    simp only [hs, idle, Bool.false_eq_true, if_false]
  have sel : d.selected id x = ({ x with cur := some p, others := [] }, []) := by
    unfold Dev.selected
    simp [Warp.splits, hc, ho, awake, Warp.mergeAll, Warp.mergeIn, sortSplits, insertSplit, hs, choose]
  unfold Dev.select
  simp only [hw, parkedAll_none hp, sel]
  rfl

/-- R257: the last threads of a `wsync` pass at once. -/
theorem wsync_passes (b : Bool) (h : Ready s id w sp (Need.of 2 false 0 0)) (ho : w.others = []) (hl : sp.mask = w.live)
    (hn : w.live ≠ 0) (hj : w.join = []) (hk : sp.c ≤ 8) (hp : ∀ e ∈ s.dev.accesses, e.2.party = .warp id → e.2.parked = false)
    (ht : ∀ t ∈ ((s.dev.core w.core).lb w.lb).transfers, t.warp ≠ id) :
    ∃ t w', exec (.wsync b) s = .next t ∧ t.dev.warp? id = some w' ∧
      w'.cur = some { sp with pc := sp.pc + 2, age := 0, state := .ready } ∧ w'.others = [] ∧ w'.threads = w.threads := by
  obtain ⟨m, settled⟩ := settleWarp_alone ho hl hn hj hk hp
  have found : (Dev.mark { s.dev.setWarp id (pastWsync w sp) with issued := true } id m).warp? id =
      some { pastWsync w sp with
        marks := ({ s.dev.setWarp id (pastWsync w sp) with issued := true } : Dev).liveMarks w.marks ++ [m] } := by
    unfold Dev.mark
    rw [Dev.warp?_onWarp]
    simp [Dev.warp?, Dev.setWarp, pastWsync]
  have sel := select_alone found rfl rfl rfl hp ht
  have passed : (((leaving s id w [waiting sp .wsync]).settleWarp id).select id).warp? id = _ :=
    (congrArg (fun d => (Dev.select d id).warp? id) settled).trans
      ((congrArg (fun d => d.warp? id) sel).trans (Dev.warp?_setWarp ..))
  exact ⟨_, _, exec_wsync h (by simp [ho]), passed, rfl, rfl, rfl⟩

/-- Settles O15: `join` by whether its split is every live thread of its entry, `wsync` by what settles it. -/
theorem joinAndSyncResults : Obligations.JoinAndSyncResults := by
  unfold Obligations.JoinAndSyncResults
  refine ⟨fun b depth s id w sp top rest h hj hm hd => ⟨fun all => ?_, fun some_ => ?_⟩,
    fun b s id w sp h hd => exec_wsync h hd, fun b s id w sp h ho hl hn hj hk hp ht => wsync_passes b h ho hl hn hj hk hp ht⟩
  · rw [exec_join h hj hm hd, Dev.arriveJoin, if_pos (by simpa using all)]
    rfl
  · rw [exec_join h hj hm hd, Dev.arriveJoin, if_neg (by simpa using some_)]
    rfl

/-! ## exit and yield -/

/-- Settles O16: `exit` by whether a thread is left, `yield` by the place that it gives the warp. -/
theorem exitAndYieldResults : Obligations.ExitAndYieldResults := by
  unfold Obligations.ExitAndYieldResults
  refine ⟨fun b s id w sp h => ?_, fun b s id w sp h => ?_⟩
  · intro w' d
    change execExit b s = _
    unfold execExit
    rw [run_eq, issueWarp_ready h]
    unfold Dev.endThreads
    by_cases none : w'.threads = []
    · rw [if_pos none]
      refine congrArg (fun d => Host.Outcome.next (withDev s d)) (if_pos ?_)
      exact List.isEmpty_iff.2 none
    · rw [if_neg none]
      refine congrArg (fun d => Host.Outcome.next (withDev s d)) (if_neg ?_)
      exact fun e => none (List.isEmpty_iff.1 e)
  · change execYield b s = _
    unfold execYield
    rw [run_eq, issueWarp_ready h]
    rfl

end Sys2Proof.Proofs
end

section
/-! PROOF. Memory instructions as they issue (R235 to R246, R390), fences (R225, R247), and `waitc` and `trywait` (R250, R251). -/

namespace Sys2Proof.Proofs

open Sys2Proof Sys2Proof.Machine Sys2Proof.Safety

variable {s : Machine.State} {id : Nat} {w : Warp} {sp : Split} {i : Instr} {f : MemForm} {d d' d'' : Dev}

/-! ## Entries of a table -/

theorem mem_set_self {α : Type} (t : Table α) (n : Nat) (a : α) : (n, a) ∈ Table.set t n a := by
  induction t with
  | nil => exact List.mem_singleton_self _
  | cons e t ih =>
    unfold Table.set
    split
    · exact List.mem_cons_self
    · split
      · exact List.mem_cons_self
      · exact List.mem_cons_of_mem _ ih

theorem mem_set_of_ne {α : Type} {t : Table α} {n : Nat} {a : α} {e : Nat × α} (he : e ∈ t) (hn : e.1 ≠ n) : e ∈ Table.set t n a := by
  induction t with
  | nil => nomatch he
  | cons x t ih =>
    unfold Table.set
    split
    next hx =>
      rcases List.mem_cons.1 he with rfl | he
      · exact absurd hx hn
      · exact List.mem_cons_of_mem _ he
    · split
      · exact List.mem_cons_of_mem _ he
      · rcases List.mem_cons.1 he with rfl | he
        · exact List.mem_cons_self
        · exact List.mem_cons_of_mem _ (ih he)

/-! ## What the issue of accesses changes -/

/-- A device that differs by accesses that have issued: their entries, their names, and the marks of their warp. The accesses
that were there before are still there. -/
structure Issuing (d d' : Dev) : Prop where
  only : ∃ as n ws, d' = { d with accesses := as, nextId := n, warps := ws }
  names : d.nextId ≤ d'.nextId
  kept : ∀ e ∈ d.accesses, e.1 < d.nextId → e ∈ d'.accesses

theorem Issuing.refl (d : Dev) : Issuing d d := ⟨⟨_, _, _, rfl⟩, Nat.le_refl _, fun _ he _ => he⟩

theorem Issuing.trans (h : Issuing d d') (h' : Issuing d' d'') : Issuing d d'' := by
  obtain ⟨⟨as, n, ws, rfl⟩, names, kept⟩ := h
  obtain ⟨⟨as', n', ws', rfl⟩, names', kept'⟩ := h'
  exact ⟨⟨as', n', ws', rfl⟩, Nat.le_trans names names', fun e he hlt => kept' e (kept e he hlt) (Nat.lt_of_lt_of_le hlt names)⟩

theorem issuing_takeIds (d : Dev) (k : Nat) : Issuing d (d.takeIds k).2 :=
  ⟨⟨_, _, _, rfl⟩, Nat.le_add_right .., fun _ he _ => he⟩

theorem issuing_fresh (d : Dev) : Issuing d d.fresh.2 := ⟨⟨_, _, _, rfl⟩, Nat.le_succ _, fun _ he _ => he⟩

theorem issuing_mark (d : Dev) (id : Nat) (m : OrderMark) : Issuing d (d.mark id m) :=
  ⟨⟨_, _, _, rfl⟩, Nat.le_refl _, fun _ he _ => he⟩

/-- A new access put among those in flight. -/
theorem issuing_setAccess (d : Dev) (a : Access) : Issuing d (d.fresh.2.setAccess d.nextId a) :=
  ⟨⟨_, _, _, rfl⟩, Nat.le_succ _, fun _ he hlt => mem_set_of_ne he (Nat.ne_of_lt hlt)⟩

/-- What is known of a lane's access for one word, as it has issued. -/
def AccessFields (a : Access) (id : Nat) (f : MemForm) (i : Instr) (pc : Va) (lane : Nat) (ea : Dword) (data expect : List Word)
    (part : Nat) : Prop :=
  a.party = .warp id ∧ a.lane = lane ∧ a.part = part ∧ a.instr = i ∧ a.pc = pc ∧ a.kind = f.kind ∧
    a.bytes = (if f.parts = 1 then f.bytes else 4) ∧ a.va = ea + BitVec.ofNat 64 (4 * part) ∧ a.data = data ∧ a.expect = expect ∧
    a.result = none ∧ a.cause = 0

/-- An access with a property is in flight. -/
def InFlight (d : Dev) (p : Access → Prop) : Prop := ∃ e ∈ d.accesses, e.1 < d.nextId ∧ p e.2

theorem InFlight.mono {p : Access → Prop} (h : InFlight d p) (hd : Issuing d d') : InFlight d' p := by
  obtain ⟨e, he, hlt, hp⟩ := h
  exact ⟨e, hd.kept e he hlt, Nat.lt_of_lt_of_le hlt hd.names, hp⟩

/-- R227: the accesses of a lane, one for each word. -/
theorem addParts_spec (id : Nat) (marks : List OrderMark) (i : Instr) (pc : Va) (stamp lane : Nat) (f : MemForm) (ea : Dword)
    (data expect : List Word) (tickets : List Nat) (pa : Option Nat) (parts : List Nat) (d : Dev) :
    Issuing d (d.addParts (.warp id) marks i pc stamp lane f ea data expect tickets pa parts) ∧
      ∀ part ∈ parts, InFlight (d.addParts (.warp id) marks i pc stamp lane f ea data expect tickets pa parts) fun a =>
        AccessFields a id f i pc lane ea data expect part := by
  induction parts generalizing d with
  | nil => exact ⟨Issuing.refl d, fun _ h => nomatch h⟩
  | cons part parts ih =>
    let a := d.newAccess (.warp id) marks i pc stamp lane part (laneBit lane) f ea data expect tickets (pa.map fun p => p + 4 * part)
    obtain ⟨later, found⟩ := ih (d.fresh.2.setAccess d.nextId a)
    refine ⟨(issuing_setAccess d a).trans later, fun part' h => ?_⟩
    rcases List.mem_cons.1 h with rfl | h
    · refine InFlight.mono (d := d.fresh.2.setAccess d.nextId a) ⟨(d.nextId, a), mem_set_self .., Nat.lt_succ_self _, ?_⟩ later
      exact ⟨rfl, rfl, rfl, rfl, rfl, rfl, rfl, rfl, rfl, rfl, rfl, rfl⟩
    · exact found part' h

/-- R224, R228: a lane's access, with the mark that it may leave. -/
theorem issueAccess_spec (d : Dev) (id : Nat) (marks : List OrderMark) (i : Instr) (pc : Va) (stamp lane : Nat) (f : MemForm)
    (ea : Dword) (data expect : List Word) (tickets : List Nat) (pa : Option Nat) :
    Issuing d (d.issueAccess id marks i pc stamp lane f ea data expect tickets pa) ∧
      ∀ part < f.parts, InFlight (d.issueAccess id marks i pc stamp lane f ea data expect tickets pa) fun a =>
        AccessFields a id f i pc lane ea data expect part := by
  obtain ⟨parts, found⟩ := addParts_spec id marks i pc stamp lane f ea data expect tickets pa (List.range f.parts) d
  unfold Dev.issueAccess Dev.addAccess
  split
  · exact ⟨parts.trans (issuing_mark ..), fun part h => (found part (List.mem_range.2 h)).mono (issuing_mark ..)⟩
  · exact ⟨parts, fun part h => found part (List.mem_range.2 h)⟩

/-! ## Cells and addresses of a lane -/

/-- R237: the effective address. -/
theorem ea_eq (t : Thread) (off : BitVec 16) : t.ea off = pair t.stack 0 + BitVec.ofInt 64 off.toInt :=
  congrArg (· + BitVec.ofInt 64 off.toInt) (cellsValue_take_drop t.stack 0 2)

theorem ofLane_ea (off : BitVec 16) (l : Nat) : (w.ofLane l 0 fun t => t.ea off) = address w off l := by
  unfold Warp.ofLane address
  rw [show (fun t : Thread => t.ea off) = fun t => pair t.stack 0 + BitVec.ofInt 64 off.toInt from funext fun t => ea_eq t off]

/-- R238, R244: the words that a lane gives to its access. -/
def storedWords (f : MemForm) (t : Thread) : List Word :=
  if f.kind = .swapIf then words t.stack 2 (f.takes / 2) else words t.stack 2 f.takes

def expectedWords (f : MemForm) (t : Thread) : List Word :=
  if f.kind = .swapIf then words t.stack (2 + f.takes / 2) (f.takes / 2) else []

theorem wordsUp_stored (f : MemForm) (t : Thread) :
    wordsUp (if (f.kind == AccessKind.swapIf) = true then (t.stack.drop 2).take (f.takes / 2) else (t.stack.drop 2).take f.takes) =
      storedWords f t := by
  simp only [beq_iff_eq]
  unfold storedWords
  split <;> rfl

theorem wordsUp_expected (f : MemForm) (t : Thread) :
    (if (f.kind == AccessKind.swapIf) = true then wordsUp (((t.stack.drop 2).drop (f.takes / 2)).take (f.takes / 2)) else []) =
      expectedWords f t := by
  simp only [beq_iff_eq, List.drop_drop]
  rfl

/-- R55, R238: a lane after its access has issued: the operands popped, and an empty cell for each word that it loads. -/
def LoadingThread (f : MemForm) (t u : Thread) : Prop :=
  u.stack.drop f.gives = t.stack.drop (2 + f.takes) ∧ (∀ c ∈ u.stack.take f.gives, c.ticket?.isSome = true) ∧
    u = { t with stack := u.stack }

theorem foldl_empty (tickets : List Nat) (st : List Cell) :
    tickets.foldl (fun st k => Cell.empty k :: st) st = (tickets.map Cell.empty).reverse ++ st := by
  induction tickets generalizing st with
  | nil => rfl
  | cons k ks ih => simp [ih]

/-- R238: one lane issues. -/
theorem issueLane_spec (d : Dev) (id : Nat) (marks : List OrderMark) (i : Instr) (pc : Va) (stamp : Nat) (f : MemForm)
    (off : BitVec 16) (pa : Option Nat) (t : Thread) :
    Issuing d (d.issueLane id marks i pc stamp f off pa t).2 ∧
      LoadingThread f t (d.issueLane id marks i pc stamp f off pa t).1 ∧
      ∀ part < f.parts, InFlight (d.issueLane id marks i pc stamp f off pa t).2 fun a =>
        AccessFields a id f i pc t.lane (t.ea off) (storedWords f t) (expectedWords f t) part := by
  obtain ⟨issuing, found⟩ := issueAccess_spec (d.takeIds f.gives).2 id marks i pc stamp t.lane f (t.ea off) (storedWords f t)
    (expectedWords f t) (d.takeIds f.gives).1 pa
  have lane : d.issueLane id marks i pc stamp f off pa t =
      (t.onStack fun _ => ((d.takeIds f.gives).1.map Cell.empty).reverse ++ (t.stack.drop 2).drop f.takes,
        (d.takeIds f.gives).2.issueAccess id marks i pc stamp t.lane f (t.ea off) (storedWords f t) (expectedWords f t)
          (d.takeIds f.gives).1 pa) := by
    unfold Dev.issueLane
    simp only [wordsUp_stored, wordsUp_expected, foldl_empty]
  have count : ((d.takeIds f.gives).1.map Cell.empty).reverse.length = f.gives := by simp [Dev.takeIds]
  rw [lane]
  refine ⟨(issuing_takeIds d f.gives).trans issuing, ⟨?_, ?_, rfl⟩, found⟩
  · change (((d.takeIds f.gives).1.map Cell.empty).reverse ++ (t.stack.drop 2).drop f.takes).drop f.gives = _
    rw [List.drop_left' count, List.drop_drop]
  · intro c hc
    change c ∈ (((d.takeIds f.gives).1.map Cell.empty).reverse ++ (t.stack.drop 2).drop f.takes).take f.gives at hc
    rw [List.take_left' count, List.mem_reverse, List.mem_map] at hc
    obtain ⟨k, _, rfl⟩ := hc
    rfl

/-- R240: the lanes issue one after another. -/
theorem issueLanes_spec (id : Nat) (marks : List OrderMark) (i : Instr) (pc : Va) (stamp : Nat) (f : MemForm) (off : BitVec 16)
    (pas : List (Nat × Nat)) (ts : List Thread) (d : Dev) :
    Issuing d (Dev.issueLanes id marks i pc stamp f off pas ts d).2 ∧
      List.Forall₂ (LoadingThread f) ts (Dev.issueLanes id marks i pc stamp f off pas ts d).1 ∧
      ∀ t ∈ ts, ∀ part < f.parts, InFlight (Dev.issueLanes id marks i pc stamp f off pas ts d).2 fun a =>
        AccessFields a id f i pc t.lane (t.ea off) (storedWords f t) (expectedWords f t) part := by
  induction ts generalizing d with
  | nil => exact ⟨Issuing.refl d, .nil, fun _ h => nomatch h⟩
  | cons t ts ih =>
    obtain ⟨first, thread, found⟩ :=
      issueLane_spec d id marks i pc stamp f off ((pas.find? fun e => e.1 == t.lane).map Prod.snd) t
    obtain ⟨rest, threads, others⟩ :=
      ih (d.issueLane id marks i pc stamp f off ((pas.find? fun e => e.1 == t.lane).map Prod.snd) t).2
    refine ⟨first.trans rest, .cons thread threads, fun u hu part h => ?_⟩
    rcases List.mem_cons.1 hu with rfl | hu
    · exact (found part h).mono rest
    · exact others u hu part h

/-! ## The warp after the issue -/

theorem find?_loading {ts us : List Thread} (h : List.Forall₂ (LoadingThread f) ts us) (l : Nat) :
    (ts.find? (fun t => t.lane == l) = none ∧ us.find? (fun t => t.lane == l) = none) ∨
      ∃ t u, ts.find? (fun t => t.lane == l) = some t ∧ us.find? (fun t => t.lane == l) = some u ∧ LoadingThread f t u := by
  induction h with
  | nil => exact .inl ⟨rfl, rfl⟩
  | @cons t u ts us htu _ ih =>
    have lane : u.lane = t.lane := by rw [htu.2.2]
    by_cases hl : t.lane = l
    · exact .inr ⟨t, u, by simp [hl], by simp [lane, hl], htu⟩
    · simpa [List.find?_cons, hl, lane] using ih

/-- A thread of a lane of the mask is the first of the mask's threads with its lane. -/
theorem find?_threadsOf {m : Mask} {l : Nat} {t : Thread} (hl : m.getLsbD l = true) (h : w.thread? l = some t) :
    (w.threadsOf m).find? (fun t => t.lane == l) = some t := by
  unfold Warp.threadsOf
  rw [List.find?_filter, ← h, Warp.thread?]
  congr 1
  funext u
  by_cases hu : u.lane = l <;> simp [hu, hl]

/-- The threads of a warp, those that have issued replaced. -/
theorem loading_map {us : List Thread} {w' : Warp} (h : List.Forall₂ (LoadingThread f) (w.threadsOf sp.mask) us)
    (hw : w'.threads = w.threads.map fun t => (us.find? fun u => u.lane == t.lane).getD t) : loading w w' sp f := by
  intro l hl t ht
  have keeps : ∀ t : Thread, ((us.find? fun u => u.lane == t.lane).getD t).lane = t.lane := by
    intro t
    cases hu : us.find? fun u => u.lane == t.lane with
    | none => rfl
    | some u => simpa using List.find?_some hu
  have found : w'.thread? l = some ((us.find? fun u => u.lane == t.lane).getD t) := by
    unfold Warp.thread?
    rw [hw, find?_map_of_eq _ _ _ (fun x => by rw [keeps])]
    exact congrArg (Option.map _) ht
  rcases find?_loading h l with ⟨none, _⟩ | ⟨t', u, ht', hu, loaded⟩
  · rw [find?_threadsOf (mem_lanesOf hl) ht] at none
    nomatch none
  · rw [find?_threadsOf (mem_lanesOf hl) ht] at ht'
    obtain rfl := Option.some.inj ht'
    refine ⟨u, ?_, loaded⟩
    rw [found, thread?_lane ht, hu, Option.getD_some]

/-- R240: the lanes of a split that have issued, and the device after them. -/
def issuedLanes (d : Dev) (id : Nat) (w : Warp) (sp : Split) (i : Instr) (f : MemForm) (off : BitVec 16) (pas : List (Nat × Nat)) :
    List Thread × Dev :=
  Dev.issueLanes id w.marks i sp.pc d.nextId f off pas (w.threadsOf sp.mask) d.fresh.2

theorem issueAccesses_eq (d : Dev) (id : Nat) (w : Warp) (sp : Split) (n : Need) (i : Instr) (f : MemForm) (off : BitVec 16)
    (pas : List (Nat × Nat)) :
    d.issueAccesses id w sp n i f off pas =
      (issuedLanes d id w sp i f off pas).2.commit id
        { w with
          marks := (((issuedLanes d id w sp i f off pas).2.warp? id).map Warp.marks).getD w.marks
          threads := w.threads.map fun t =>
            ((issuedLanes d id w sp i f off pas).1.find? fun u => u.lane == t.lane).getD t }
        (sp.after n) := rfl

/-- R238 to R246: what an issue that has passed its checks leaves. -/
theorem issueAccesses_spec (d : Dev) (id : Nat) (w : Warp) (sp : Split) (n : Need) (i : Instr) (f : MemForm) (off : BitVec 16)
    (pas : List (Nat × Nat)) :
    ∃ as k ws w', d.issueAccesses id w sp n i f off pas = { d with accesses := as, nextId := k, warps := ws, issued := true } ∧
      (d.issueAccesses id w sp n i f off pas).warp? id = some w' ∧ w'.cur = some (sp.after n) ∧ w'.others = w.others ∧
      loading w w' sp f ∧
      ∀ l ∈ lanesOf sp.mask, ∀ u, w.thread? l = some u → ∀ part < f.parts,
        issuedAccess (d.issueAccesses id w sp n i f off pas) id f i sp.pc u off part := by
  obtain ⟨issuing, threads, found⟩ :=
    issueLanes_spec id w.marks i sp.pc d.nextId f off pas (w.threadsOf sp.mask) d.fresh.2
  have whole := (issuing_fresh d).trans issuing
  rw [issueAccesses_eq]
  change Issuing d (issuedLanes d id w sp i f off pas).2 at whole
  change List.Forall₂ _ _ (issuedLanes d id w sp i f off pas).1 at threads
  change ∀ t ∈ _, ∀ part < _, InFlight (issuedLanes d id w sp i f off pas).2 _ at found
  generalize issuedLanes d id w sp i f off pas = r at threads found whole
  obtain ⟨⟨as, k, ws, hr⟩, -, -⟩ := whole
  have only : ∀ w' cur, r.2.commit id w' cur =
      { d with accesses := as, nextId := k, warps := ws.set id (w'.setCur cur), issued := true } := by
    intro w' cur
    unfold Dev.commit Dev.setWarp
    rw [hr]
  refine ⟨as, k, _, _, only _ _, Dev.warp?_setWarp .., rfl, rfl, loading_map threads rfl, fun l hl u hu part hp => ?_⟩
  · obtain ⟨e, he, -, fields⟩ := found u (thread?_mem (mem_lanesOf hl) hu) part hp
    refine ⟨e, he, ?_⟩
    rw [← ea_eq]
    exact fields

/-! ## The checks of the addresses (R237, R249, R406) -/

/-- R406: a check of the lanes of a split that none fails. -/
theorem valueCheck_lanes_zero {cause : BitVec 8} {ls : List Nat} {bad : Nat → Bool} {va : Nat → Dword} (h : ∀ l ∈ ls, bad l = false) :
    (valueCheck cause ls bad va).lanes = 0 := by
  have none : ls.filter bad = [] := by
    rw [List.filter_eq_nil_iff]
    intro l hl
    simp [h l hl]
  simp only [valueCheck, none]
  rfl

/-- R237: an address below 2^57 has no high bit. -/
theorem highBits_zero {v : Dword} (h : v.toNat < 2 ^ 57) : v.extractLsb' 57 7 = 0 := by
  apply BitVec.eq_of_toNat_eq
  simp only [BitVec.extractLsb'_toNat, Nat.shiftRight_eq_div_pow, Nat.div_eq_of_lt h]
  rfl

theorem addressChecks_pass {off : BitVec 16} {bytes : Nat} {writes : Bool} (h : accessible s w sp off bytes writes) :
    ∀ c ∈ addressChecks w sp off bytes, c.lanes = 0 := by
  unfold addressChecks
  simp only [ofLane_ea]
  intro c hc
  rcases List.mem_pair.1 hc with rfl | rfl
  · refine valueCheck_lanes_zero fun l hl => ?_
    rw [highBits_zero (h l hl).1]
    rfl
  · refine valueCheck_lanes_zero fun l hl => ?_
    rw [(h l hl).2.1]
    rfl

theorem sealedCheck_pass {off : BitVec 16} {bytes : Nat} (h : accessible s w sp off bytes true) :
    (s.dev.sealedCheck w sp off bytes).lanes = 0 := by
  unfold Dev.sealedCheck
  simp only [ofLane_ea]
  exact valueCheck_lanes_zero fun l hl => (h l hl).2.2 rfl

/-! ## Memory instructions -/

/-- R235: an instruction with a form is a memory instruction. -/
theorem exec_memory {b : Bool} {off : BitVec 16} (h : memoryForm i = some (b, off, f)) :
    memForm i = some f ∧ ∀ s, exec i s = s.run fun hp d => d.memoryOp hp b i off := by
  cases i
  case ld | st | ldo | sto | atom | red | cas =>
    cases h
    exact ⟨rfl, fun _ => rfl⟩
  all_goals nomatch h

/-- R238 to R246: a memory instruction whose checks pass and that is no wide `cas`. -/
theorem memoryOp_ready {b : Bool} {off : BitVec 16} (hf : memForm i = some f) (narrow : ¬(f.kind = .swapIf ∧ f.bytes = 8))
    (h : Ready s id w sp (memoryNeed i b f)) (ha : accessible s w sp off f.bytes (f.kind != .load)) (hp : HostPart) :
    s.dev.memoryOp hp b i off = s.dev.issueAccesses id w sp (memoryNeed i b f) i f off [] := by
  have checks : firstFailing (addressChecks w sp off f.bytes ++
      if (f.kind == AccessKind.load) = true then [] else [s.dev.sealedCheck w sp off f.bytes]) = none := by
    rw [firstFailing_eq_none]
    intro c hc
    rcases List.mem_append.1 hc with hc | hc
    · exact addressChecks_pass ha c hc
    · split at hc
      · nomatch hc
      next writes =>
        obtain rfl := List.mem_singleton.1 hc
        rw [show (f.kind != AccessKind.load) = true by simpa [bne] using writes] at ha
        exact sealedCheck_pass ha
  unfold Dev.memoryOp
  simp only [hf]
  refine (issueWarp_ready h hp _).trans ?_
  have wide : (f.kind == AccessKind.swapIf && f.bytes == 8) = false := by simpa using narrow
  rw [wide]
  exact checked_pass checks _

/-- R390: a wide `cas` whose pages are all translated. -/
theorem memoryOp_wide {b : Bool} {r : LaneWalks} (hf : memForm i = some f) (hk : f.kind = .swapIf) (hb : f.bytes = 8)
    (h : Ready s id w sp (memoryNeed i b f)) (ha : accessible s w sp 0 8 true)
    (hr : Dev.walkLanes s.host (s.dev.slotOf w.team) w.core ((lanesOf sp.mask).map fun l => (l, address w 0 l))
      ⟨[], none, [], none, s.dev⟩ = r) (failed : r.failed = []) (serve : r.serve = none) (lost : r.lost = none) :
    s.dev.memoryOp s.host b i 0 = r.d.issueAccesses id w sp (memoryNeed i b f) i f 0 r.pas := by
  have sealed_ : firstFailing [s.dev.sealedCheck w sp 0 f.bytes] = none := by
    rw [firstFailing_eq_none, hb]
    intro c hc
    obtain rfl := List.mem_singleton.1 hc
    exact sealedCheck_pass ha
  have walked : firstFailing [valueCheck w.walkCause (lanesOf sp.mask) r.failed.contains fun l => address w 0 l] = none := by
    rw [firstFailing_eq_none, failed]
    intro c hc
    obtain rfl := List.mem_singleton.1 hc
    exact valueCheck_lanes_zero fun _ _ => rfl
  have addresses : firstFailing (addressChecks w sp 0 f.bytes) = none := by
    rw [firstFailing_eq_none, hb]
    exact addressChecks_pass ha
  unfold Dev.memoryOp
  simp only [hf]
  refine (issueWarp_ready h s.host _).trans ?_
  have wide : (f.kind == AccessKind.swapIf && f.bytes == 8) = true := by simp [hk, hb]
  rw [wide]
  change s.dev.issueWide s.host id w sp (memoryNeed i b f) i f = _
  unfold Dev.issueWide
  simp only [ofLane_ea, hr, lost, serve]
  rw [checked_pass addresses, checked_pass walked, checked_pass sealed_]

/-- Settles O17: the checks pass, and the lanes issue one after another. -/
theorem accessesAreIssued : Obligations.AccessesAreIssued := by
  unfold Obligations.AccessesAreIssued
  refine ⟨fun i b off f hf narrow s id w sp h ha => ?_, fun b forder order scope rmt f s id w sp r hf h ha hr failed serve lost => ?_⟩
  · obtain ⟨form, meaning⟩ := exec_memory hf
    obtain ⟨as, k, ws, w', only, found, cur, others, loads, accesses⟩ :=
      issueAccesses_spec s.dev id w sp (memoryNeed i b f) i f off []
    refine ⟨withDev s (s.dev.issueAccesses id w sp (memoryNeed i b f) i f off []), w', ?_, ?_, found, cur, others, loads, accesses⟩
    · rw [meaning, run_eq, memoryOp_ready form narrow h ha]
    · unfold onlyAccesses
      rw [only]
      rfl
  · have form : f.kind = .swapIf ∧ f.bytes = 8 ∧ f.takes = 4 ∧ f.gives = 2 := by
      cases hf
      exact ⟨rfl, rfl, rfl, rfl⟩
    obtain ⟨kind, bytes, takes, gives⟩ := form
    obtain ⟨as, k, ws, w', only, found, cur, others, loads, accesses⟩ :=
      issueAccesses_spec r.d id w sp (memoryNeed (.cas b forder rmt order scope 1) b f) (.cas b forder rmt order scope 1) f 0 r.pas
    refine ⟨withDev s (r.d.issueAccesses id w sp (memoryNeed (.cas b forder rmt order scope 1) b f)
      (.cas b forder rmt order scope 1) f 0 r.pas), w', ?_, ?_, found, ?_, loads, accesses⟩
    · exact congrArg (fun d => Host.Outcome.next (withDev s d)) (memoryOp_wide hf kind bytes h ha hr failed serve lost)
    · change (r.d.issueAccesses id w sp _ _ f 0 r.pas).mem = r.d.mem
      rw [only]
    · rw [cur, memoryNeed, takes, gives]
      rfl

end Sys2Proof.Proofs
end

section
/-! PROOF. Fences (R225, R247), and `waitc` and `trywait` (R250, R251). -/

namespace Sys2Proof.Proofs

open Sys2Proof Sys2Proof.Machine Sys2Proof.Safety

variable {s : Machine.State} {id : Nat} {w : Warp} {sp : Split} {d : Dev}

/-- A warp that has issued is in the table as its instruction leaves it. -/
theorem warp?_commit (d : Dev) (id : Nat) (w : Warp) (sp : Split) : (d.commit id w sp).warp? id = some (w.setCur sp) :=
  Dev.warp?_setWarp ..

/-! ## Fences -/

/-- R225: an acquire fence keeps the names of the accesses in flight. -/
theorem acquireInFlight_names (d : Dev) (ids : List Nat) (scope : Nat) :
    (d.acquireInFlight ids scope).accesses.map Prod.fst = d.accesses.map Prod.fst := by
  unfold Dev.acquireInFlight
  rw [List.map_map]
  refine List.map_congr_left fun e _ => ?_
  simp only [Function.comp_apply]
  split <;> rfl

/-- R225: it changes accesses in flight and nothing else. -/
theorem acquireInFlight_frame (d : Dev) (ids : List Nat) (scope : Nat) :
    d.acquireInFlight ids scope = { d with accesses := (d.acquireInFlight ids scope).accesses } := rfl

/-- R225, R228: what a fence leaves: accesses under the same names, and one more mark of its warp. -/
theorem fenceMark_eq (d : Dev) (id : Nat) (w : Warp) (sp : Split) (order scope : Nat) :
    ∃ ids m, d.fenceMark id w sp order scope = (d.acquireInFlight ids scope).mark id m := ⟨_, _, rfl⟩

theorem fenceMark_warp (hw : d.warp? id = some w) (order scope : Nat) :
    ∃ ms, (d.fenceMark id w sp order scope).warp? id = some { w with marks := ms } := by
  obtain ⟨ids, m, same⟩ := fenceMark_eq d id w sp order scope
  refine ⟨(d.acquireInFlight ids scope).liveMarks w.marks ++ [m], ?_⟩
  rw [same, Dev.mark, Dev.warp?_onWarp, show (d.acquireInFlight ids scope).warp? id = some w from hw]
  rfl

theorem fenceMark_frame (d : Dev) (id : Nat) (w : Warp) (sp : Split) (order scope : Nat) :
    ∃ as ws, as.map Prod.fst = d.accesses.map Prod.fst ∧
      d.fenceMark id w sp order scope = { d with accesses := as, warps := ws } := by
  obtain ⟨ids, m, same⟩ := fenceMark_eq d id w sp order scope
  exact ⟨_, _, acquireInFlight_names d ids scope, same⟩

theorem exec_fence {b : Bool} {order scope : BitVec 3} (h : Ready s id w sp (Need.of 4 false 0 0))
    (hf : scope.toNat < 3 ∨ s.dev.laneAccesses id sp.mask (fun a => a.kind != .load && a.result.isNone) = []) :
    exec (.fence b order scope) s = .next (withDev s
      ((s.dev.fenceMark id w sp order.toNat scope.toNat).commit id
        (((s.dev.fenceMark id w sp order.toNat scope.toNat).warp? id).getD w) (sp.after (Need.of 4 false 0 0)))) := by
  change execFence b order scope s = _
  unfold execFence
  rw [run_eq, issueWarp_ready h]
  have free : (3 ≤ scope.toNat && !(s.dev.laneAccesses id sp.mask fun a => a.kind != .load && a.result.isNone).isEmpty) = false := by
    rcases hf with low | none
    · simp [Nat.not_le.2 low]
    · simp [none]
  simp only [free, Bool.false_eq_true, if_false]

/-! ## waitc and trywait -/

theorem exec_waitc {b : Bool} {cls : BitVec 2} {n : BitVec 8} (h : Ready s id w sp (blind 4 0 0)) :
    exec (.waitc b cls n) s = .next (if cntGet w.cnt cls.toNat ≤ n.toNat then issued s id w (after sp 4 0 0)
      else withDev s (s.dev.block id (.counter cls.toNat n.toNat))) := by
  change execWaitc b cls n s = _
  unfold execWaitc
  rw [run_eq, issueEither_warp (regs := []) h]
  split <;> rfl

theorem exec_waitc_fet {f : Fet} {b : Bool} {cls : BitVec 2} {n : BitVec 8} (h : IssuesFet s id f []) :
    exec (.waitc b cls n) s = .next (if cntGet f.cnt cls.toNat ≤ n.toNat then issuedFet s id f 4
      else withDev s (s.dev.onFet id fun f => { f with stalled := some (.counter cls.toNat n.toNat) })) := by
  change execWaitc b cls n s = _
  unfold execWaitc
  rw [run_eq, issueEither_fet h]
  split <;> rfl

/-- R251: the split's bound: its lowest lane's operand, at most 4,096. -/
theorem exec_trywait {b : Bool} {cls : BitVec 2} {n : BitVec 8} (h : Ready s id w sp (Need.of 4 b 1 1)) :
    exec (.trywait b cls n) s = .next (withDev s
      (if cntGet w.cnt cls.toNat ≤ n.toNat then s.dev.commit id (w.endTrywait sp 1) (after sp 4 1 1)
        else if Nat.min (lowestTop w sp).toNat 4096 = 0 then s.dev.commit id (w.endTrywait sp 0) (after sp 4 1 1)
        else (leaving s id w [waiting sp (.trywait cls.toNat n.toNat (Nat.min (lowestTop w sp).toNat 4096))]).select id)) := by
  change execTrywait b cls n s = _
  unfold execTrywait
  rw [run_eq, issueWarp_ready (n := trywaitNeed b) h]
  simp only [lowestValue_toNat]
  rfl

/-- Settles O18: each instruction's branches, one by one. -/
theorem fenceAndCounterResults : Obligations.FenceAndCounterResults := by
  unfold Obligations.FenceAndCounterResults
  refine ⟨fun b order scope s id w sp h hf => ?_, fun b cls n s id => ⟨fun w sp h => ⟨fun le => ?_, fun lt => ?_⟩, fun f h => ⟨fun le => ?_, fun lt => ?_⟩⟩,
    fun b cls n s id w sp h => ⟨fun le => ?_, fun lt none => ?_, fun lt some => ?_⟩⟩
  · obtain ⟨ms, found⟩ := fenceMark_warp (sp := sp) h.issues.warp order.toNat scope.toNat
    obtain ⟨as, ws, names, only⟩ := fenceMark_frame s.dev id w sp order.toNat scope.toNat
    have next := exec_fence (b := b) (order := order) h hf
    rw [found, Option.getD_some, only] at next
    exact ⟨_, Warp.setCur { w with marks := ms } (sp.after (Need.of 4 false 0 0)), next, rfl, warp?_commit .., rfl, rfl, rfl,
      names⟩
  · rw [exec_waitc h, if_pos le]
  · rw [exec_waitc h, if_neg (Nat.not_le.2 lt)]
  · rw [exec_waitc_fet h, if_pos le]
  · rw [exec_waitc_fet h, if_neg (Nat.not_le.2 lt)]
  · rw [exec_trywait h, if_pos le]
    rfl
  · rw [exec_trywait h, if_neg (Nat.not_le.2 lt), if_pos none]
    rfl
  · rw [exec_trywait h, if_neg (Nat.not_le.2 lt), if_neg some]

end Sys2Proof.Proofs
end

section
/-! PROOF. Barriers (R252, R253, R457). -/

namespace Sys2Proof.Proofs

open Sys2Proof Sys2Proof.Machine Sys2Proof.Safety

variable {s : Machine.State} {id : Nat} {w : Warp} {sp : Split} {d : Dev}

/-! ## Lists with one place set, and tables -/

theorem getD_putAt_self {α : Type} (fill : α) (l : List α) (n : Nat) (v : α) : (putAt fill l n v).getD n fill = v := by
  induction n generalizing l with
  | zero => cases l <;> rfl
  | succ n ih =>
    cases l with
    | nil => exact ih []
    | cons x l => exact ih l

theorem getD_putAt_of_ne {α : Type} (fill : α) (l : List α) {n k : Nat} (v : α) (h : k ≠ n) :
    (putAt fill l n v).getD k fill = l.getD k fill := by
  induction n generalizing l k with
  | zero =>
    obtain ⟨k, rfl⟩ := Nat.exists_eq_succ_of_ne_zero h
    cases l <;> rfl
  | succ n ih =>
    cases k with
    | zero => cases l <;> rfl
    | succ k =>
      have hk : k ≠ n := fun e => h (congrArg Nat.succ e)
      cases l with
      | nil => exact ih [] hk
      | cons x l => exact ih l hk

theorem mem_of_find? {α : Type} {t : Table α} {n : Nat} {a : α} (h : Table.find? t n = some a) : (n, a) ∈ t := by
  induction t with
  | nil => nomatch h
  | cons e t ih =>
    unfold Table.find? at h
    split at h
    next hk =>
      subst hk
      cases h
      exact List.mem_cons_self
    · exact List.mem_cons_of_mem _ (ih h)

theorem mem_of_mem_set {α : Type} {t : Table α} {n : Nat} {a : α} {e : Nat × α} (h : e ∈ Table.set t n a) : e = (n, a) ∨ e ∈ t := by
  induction t with
  | nil => exact .inl (List.mem_singleton.1 h)
  | cons x t ih =>
    unfold Table.set at h
    split at h
    · exact (List.mem_cons.1 h).imp id (List.mem_cons_of_mem _)
    · split at h
      · exact List.mem_cons.1 h
      · rcases List.mem_cons.1 h with rfl | h
        · exact .inr List.mem_cons_self
        · exact (ih h).imp id (List.mem_cons_of_mem _)

/-- In a table whose names are all different, the entry of a name is the one that is found. -/
theorem find?_of_mem {α : Type} {t : Table α} {e : Nat × α} (nodup : (t.map Prod.fst).Nodup) (h : e ∈ t) :
    Table.find? t e.1 = some e.2 := by
  induction t with
  | nil => nomatch h
  | cons x t ih =>
    rw [List.map_cons, List.nodup_cons] at nodup
    unfold Table.find?
    rcases List.mem_cons.1 h with rfl | h
    · exact if_pos rfl
    · have other : x.1 ≠ e.1 := fun same => nodup.1 (List.mem_map.2 ⟨e, h, same.symm⟩)
      rw [if_neg other]
      exact ih nodup.2 h

/-! ## Arrivals set out -/

theorem exec_bar {i : Instr} {b sync : Bool} {bar : BitVec 4} {count : BitVec 16}
    (hi : (i = .barArrive b bar count ∧ sync = false) ∨ (i = .barSync b bar count ∧ sync = true)) :
    exec i s = .next (withDev s (s.dev.barrierOp s.host b sync bar count)) := by
  rcases hi with ⟨rfl, rfl⟩ | ⟨rfl, rfl⟩ <;> rfl

/-- R253: an arrival whose count lies between 1 and 1,024. -/
theorem barrierOp_ready {b sync : Bool} {bar : BitVec 4} {count : BitVec 16} {pops e : Nat}
    (hp : pops = if count = 0 then 1 else 0) (he : e = if count = 0 then (lowestTop w sp).toNat else count.toNat)
    (h : Ready s id w sp (Need.of 4 b pops 0)) (low : 1 ≤ e) (high : e ≤ 1024) :
    s.dev.barrierOp s.host b sync bar count = arriving
      (if sync then (leaving s id (w.onLanes sp.mask fun t => { t with stack := t.stack.drop pops })
          [{ after sp 4 pops 0 with state := .arriving bar.toNat }]).select id
        else (issued s id (w.onLanes sp.mask fun t => { t with stack := t.stack.drop pops }) (after sp 4 pops 0)).dev)
      id (w.onLanes sp.mask fun t => { t with stack := t.stack.drop pops }) sp.mask bar.toNat e sync := by
  have encoded : ¬1024 < count.toNat := by
    by_cases zero : count = 0
    · subst zero
      decide
    · rw [if_neg zero] at he
      omega
  have checked : (e = 0 || decide (1024 < e)) = false := by
    simp only [Bool.or_eq_false_iff, decide_eq_false_iff_not]
    omega
  unfold Dev.barrierOp
  rw [if_neg encoded]
  subst hp
  simp only [issueWarp_ready h, lowestValue_toNat, ← he, checked]
  rw [checked_pass (by rfl)]
  cases sync <;> rfl

/-! ## The barrier unit -/

/-- R253: the unit's barrier after an arrival, and whether the phase has ended. -/
theorem arrive_eq (b : Barrier) (count n w now : Nat) (deps : List Nat) :
    b.arrive count n w now deps =
      (countedAt b count n w now deps, decide ((countedAt b count n w now deps).phase ≠ b.phase)) := by
  have flips : ∀ p : Bool, decide ((!p) ≠ p) = true := by decide
  have stays : ∀ p : Bool, decide (p ≠ p) = false := by decide
  unfold Barrier.arrive countedAt
  by_cases first : b.arrived = 0
  · simp only [first, beq_self_eq_true, if_true, true_or]
    split <;> simp [*]
  · simp only [beq_eq_false_iff_ne.2 first, first, Bool.false_eq_true, if_false, false_or]
    split <;> simp [*]

/-- R253: the state of a split once the phase has ended. -/
def passed (bar : Nat) (st : SplitState) : SplitState :=
  if st = .barrier bar then .ready else if st = .parkedAt bar then .parked else st

theorem passBarrier_eq (bar : Nat) (x : Split) : Split.passBarrier bar x = { x with state := passed bar x.state } := by
  unfold Split.passBarrier passed
  simp only [beq_iff_eq]
  split
  · rfl
  · split <;> rfl

theorem passBarrier_twice (bar : Nat) (x : Split) :
    Split.passBarrier bar (Split.passBarrier bar x) = Split.passBarrier bar x := by
  simp only [passBarrier_eq]
  congr 1
  unfold passed
  split
  · rfl
  · split
    · rfl
    · simp [*]

theorem splits_onAllSplits (w : Warp) (f : Split → Split) : (w.onAllSplits f).splits = w.splits.map f := by
  unfold Warp.splits Warp.onAllSplits Warp.onSplits
  cases w.cur <;> simp

/-- R253: what is known of a warp after the barrier unit has gone over it: its threads and its team are as they were, and its
splits are changed one by one. -/
def SplitsBecome (d : Dev) (id : Nat) (w : Warp) (f : Split → Split) : Prop :=
  ∃ w', d.warp? id = some w' ∧ w'.threads = w.threads ∧ w'.team = w.team ∧ w'.splits = w.splits.map f

theorem foldl_or_zero {ss : List Split} {m : Mask} (h : ss.foldl (fun m s => m ||| s.mask) m = 0) :
    m = 0 ∧ ∀ x ∈ ss, x.mask = 0 := by
  induction ss generalizing m with
  | nil => exact ⟨h, fun _ hx => nomatch hx⟩
  | cons y ss ih =>
    obtain ⟨both, rest⟩ := ih h
    obtain ⟨hm, hy⟩ := BitVec.or_eq_zero_iff.1 both
    refine ⟨hm, fun x hx => ?_⟩
    rcases List.mem_cons.1 hx with rfl | hx
    · exact hy
    · exact rest x hx

theorem unionMask_zero {ss : List Split} (h : unionMask ss = 0) : ∀ x ∈ ss, x.mask = 0 := (foldl_or_zero h).2

/-- An ordering mark changes the marks of its warp alone. -/
theorem mark_warp (h : d.warp? id = some w) (m : OrderMark) : ∃ ms, (d.mark id m).warp? id = some { w with marks := ms } :=
  ⟨_, (Dev.warp?_onWarp ..).trans (congrArg (Option.map _) h)⟩

/-- R253: a warp's waiting splits go on. -/
theorem releaseBarrier_self {bar : Nat} {deps : List Nat} (h : d.warp? id = some w) (hm : ∀ x ∈ w.splits, x.mask ≠ 0) :
    SplitsBecome (d.releaseBarrier bar deps id) id w (Split.passBarrier bar) := by
  unfold Dev.releaseBarrier
  simp only [h, beq_iff_eq]
  split
  next zero =>
    refine ⟨w, h, rfl, rfl, ?_⟩
    have still : ∀ x ∈ w.splits, Split.passBarrier bar x = x := by
      intro x hx
      by_contra moved
      refine hm x hx (unionMask_zero zero x (List.mem_filter.2 ⟨List.mem_append_left _ hx, ?_⟩))
      by_contra neither
      simp only [Bool.or_eq_true, beq_iff_eq, not_or] at neither
      refine moved ?_
      rw [passBarrier_eq, passed, if_neg neither.1, if_neg neither.2]
    exact ((List.map_congr_left still).trans (List.map_id' _)).symm
  · obtain ⟨ms, found⟩ := mark_warp (Dev.warp?_setWarp d id (w.onAllSplits (Split.passBarrier bar))) _
    exact ⟨_, found, rfl, rfl, splits_onAllSplits w _⟩

theorem releaseBarrier_of_ne {bar n : Nat} {deps : List Nat} (h : n ≠ id) :
    (d.releaseBarrier bar deps id).warp? n = d.warp? n := by
  unfold Dev.releaseBarrier
  split
  · rfl
  · dsimp only
    split
    · rfl
    · rw [Dev.mark, Dev.warp?_onWarp_of_ne _ _ h, Dev.warp?_setWarp_of_ne _ _ h]

/-- R253: the unit goes over warps and changes nothing else. -/
theorem releaseBarrier_frame (bar : Nat) (deps : List Nat) (d : Dev) (id : Nat) :
    ∃ ws, d.releaseBarrier bar deps id = { d with warps := ws } := by
  unfold Dev.releaseBarrier
  split
  · exact ⟨d.warps, rfl⟩
  · dsimp only
    split
    · exact ⟨d.warps, rfl⟩
    · exact ⟨_, rfl⟩

theorem releaseBarriers_frame (bar : Nat) (deps : List Nat) (ids : List Nat) (d : Dev) :
    ∃ ws, ids.foldl (Dev.releaseBarrier bar deps) d = { d with warps := ws } := by
  induction ids generalizing d with
  | nil => exact ⟨d.warps, rfl⟩
  | cons id ids ih =>
    obtain ⟨ws, first⟩ := releaseBarrier_frame bar deps d id
    obtain ⟨ws', rest⟩ := ih (d.releaseBarrier bar deps id)
    exact ⟨ws', by rw [List.foldl_cons, rest, first]⟩

theorem passBarrier_mask (bar : Nat) (x : Split) : (Split.passBarrier bar x).mask = x.mask := by
  rw [passBarrier_eq]

/-- R253: of the warps that the unit goes over, those that wait go on; the others stay as they are. -/
theorem releaseBarriers_warp {bar : Nat} {deps : List Nat} (ids : List Nat) (h : d.warp? id = some w)
    (hm : ∀ x ∈ w.splits, x.mask ≠ 0) :
    SplitsBecome (ids.foldl (Dev.releaseBarrier bar deps) d) id w (if id ∈ ids then Split.passBarrier bar else fun x => x) := by
  induction ids generalizing d w with
  | nil => exact ⟨w, h, rfl, rfl, (List.map_id' _).symm⟩
  | cons n ids ih =>
    rw [List.foldl_cons]
    by_cases hn : id = n
    · subst hn
      obtain ⟨w', h', threads, team, splits⟩ := releaseBarrier_self (bar := bar) (deps := deps) h hm
      have masks : ∀ x ∈ w'.splits, x.mask ≠ 0 := by
        rw [splits]
        intro x hx
        obtain ⟨y, hy, rfl⟩ := List.mem_map.1 hx
        rw [passBarrier_mask]
        exact hm y hy
      obtain ⟨w'', h'', threads', team', splits'⟩ := ih h' masks
      refine ⟨w'', h'', threads'.trans threads, team'.trans team, ?_⟩
      rw [splits', splits, List.map_map, if_pos List.mem_cons_self]
      refine List.map_congr_left fun x _ => ?_
      simp only [Function.comp_apply]
      split
      · exact passBarrier_twice bar x
      · rfl
    · have same : (id ∈ n :: ids) = (id ∈ ids) := by simp [hn]
      simp only [same]
      exact ih (by rw [releaseBarrier_of_ne hn]; exact h) hm

/-! ## An arrival is counted -/

/-- R457: a name that no queue request has. -/
theorem requestNamed_none {n : Nat} (h : noRequest d n) : d.requestNamed n = none := by
  have none : ∀ r : Nat × Nat × QueueRequest, r ∉ d.launches.flatMap fun (l : Nat × Launch) => match l.2.stages with
      | none => []
      | some ss => ((List.range ss.queues.length).zip ss.queues).flatMap fun (q : Nat × Queue) =>
          q.2.requests.filterMap fun r => if r.id = n && r.held then some (l.1, q.1, r) else none := by
    intro r hr
    obtain ⟨l, hl, hr⟩ := List.mem_flatMap.1 hr
    cases stages : l.2.stages with
    | none => simp [stages] at hr
    | some ss =>
      simp only [stages] at hr
      obtain ⟨q, hq, hr⟩ := List.mem_flatMap.1 hr
      obtain ⟨x, hx, found⟩ := List.mem_filterMap.1 hr
      have other : x.id ≠ n := h l hl ss stages q.2 (List.of_mem_zip hq).2 x hx
      simp [other] at found
  unfold Dev.requestNamed
  rw [List.head?_eq_none_iff]
  exact List.eq_nil_iff_forall_not_mem.2 none

/-- R457: a name that no access, engine operation, copy command or collective has. -/
theorem ownName_releases {n : Nat} (own : OwnName d n) :
    d.releaseAccess n = none ∧ d.releaseMatrix n = none ∧ d.releaseCopy n = none ∧ d.releaseColl n = none := by
  have engine : List.find? (fun (e : Nat × Core) => e.2.engine.any fun o => o.op == n) d.cores = none := by
    rw [List.find?_eq_none]
    intro c hc busy
    obtain ⟨o, ho, same⟩ := List.any_eq_true.1 busy
    exact own.engine c hc o ho (eq_of_beq same)
  unfold Dev.releaseAccess Dev.releaseMatrix Dev.releaseCopy Dev.releaseColl
  rw [own.access, engine, own.copy, own.coll]
  exact ⟨rfl, rfl, rfl, rfl⟩

/-- R457: the effect of an arrival's name is the arrival's. -/
theorem exec_release {n : Nat} {a : Arrival} (own : OwnName s.dev n) (request : noRequest s.dev n)
    (ha : Table.find? s.dev.arrivals n = some a)
    (oldest : List.find? (fun (e : Nat × Arrival) => e.2.team == a.team) s.dev.arrivals = some (n, a)) :
    exec (.holdWindowRelease n) s = .next (withDev s (s.dev.countArrival n a)) := by
  obtain ⟨access, engine, copy, coll⟩ := ownName_releases own
  have queue : s.dev.releaseQueue s.host n = none := congrArg (Option.map _) (requestNamed_none request)
  have arrival : s.dev.releaseArrival n = some (s.dev.countArrival n a) := by
    unfold Dev.releaseArrival
    rw [ha, Option.map_some, oldest]
    simp
  change execHoldWindowRelease n s = _
  unfold execHoldWindowRelease
  rw [run_eq, access, engine, copy, coll, queue, arrival]
  rfl

/-- R253: the device as the arrival's split waits at the barrier. -/
def arrivedAt (d : Dev) (n : Nat) (a : Arrival) : Dev :=
  let d := { d with arrivals := Table.erase d.arrivals n }
  if a.sync then d.onWarp a.warp fun w => d.parkedAll a.warp (w.onAllSplits (Split.countedAt a.bar a.lanes)) else d

theorem arrivedAt_frame (d : Dev) (n : Nat) (a : Arrival) :
    ∃ ws, arrivedAt d n a = { d with arrivals := Table.erase d.arrivals n, warps := ws } := by
  unfold arrivedAt
  dsimp only
  split
  · exact ⟨_, rfl⟩
  · exact ⟨_, rfl⟩

/-- R253: the split of a `bar.sync` waits at its barrier from now on. -/
theorem arrivedAt_warp {n : Nat} {a : Arrival} (h : d.warp? id = some w)
    (hp : ∀ e ∈ d.accesses, e.2.party = .warp id → e.2.parked = false) :
    SplitsBecome (arrivedAt d n a) id w
      (if a.sync = true ∧ id = a.warp then Split.countedAt a.bar a.lanes else fun x => x) := by
  have same : ∀ d' : Dev, d'.warp? id = some w → SplitsBecome d' id w fun x => x :=
    fun d' h' => ⟨w, h', rfl, rfl, (List.map_id' _).symm⟩
  unfold arrivedAt
  dsimp only
  by_cases sync : a.sync = true
  · by_cases own : id = a.warp
    · subst own
      rw [if_pos sync, if_pos ⟨sync, rfl⟩]
      refine ⟨w.onAllSplits (Split.countedAt a.bar a.lanes), ?_, rfl, rfl, splits_onAllSplits ..⟩
      rw [Dev.warp?_onWarp, show Dev.warp? { d with arrivals := Table.erase d.arrivals n } a.warp = some w from h, Option.map_some]
      exact congrArg some (parkedAll_none (d := { d with arrivals := Table.erase d.arrivals n }) hp _)
    · rw [if_pos sync, if_neg fun both => own both.2]
      exact same _ ((Dev.warp?_onWarp_of_ne _ _ own).trans h)
  · rw [if_neg sync, if_neg fun both => sync both.1]
    exact same _ h

/-- R253: the team's barrier after an arrival. -/
theorem countArrival_eq {n : Nat} {a : Arrival} {t : Team} {new : Barrier} (ht : d.team? a.team = some t)
    (hn : new = countedAt (t.bars.getD a.bar Barrier.reset) a.count (lanesOf a.lanes).length a.w (d.clockOf t.core)
      (a.deps.filter fun i => !d.performed i)) :
    d.countArrival n a =
      let u := (arrivedAt d n a).onTeam a.team fun t => { t with bars := putAt Barrier.reset t.bars a.bar new }
      if new.phase ≠ (t.bars.getD a.bar Barrier.reset).phase then
        (u.teamWarps a.team).foldl (Dev.releaseBarrier a.bar new.deps) u else u := by
  obtain ⟨ws, frame⟩ := arrivedAt_frame d n a
  unfold Dev.countArrival
  change (match (arrivedAt d n a).team? a.team with
    | none => arrivedAt d n a
    | some t =>
      let (b, done) := (t.bars.getD a.bar Barrier.reset).arrive a.count (popcount a.lanes) a.w ((arrivedAt d n a).clockOf t.core)
        (a.deps.filter fun i => !(arrivedAt d n a).performed i)
      let d := (arrivedAt d n a).onTeam a.team fun t => { t with bars := putAt Barrier.reset t.bars a.bar b }
      if done then (d.teamWarps a.team).foldl (Dev.releaseBarrier a.bar b.deps) d else d) = _
  have team : (arrivedAt d n a).team? a.team = some t := by
    rw [frame]
    exact ht
  have counts : countedAt (t.bars.getD a.bar Barrier.reset) a.count (popcount a.lanes) a.w ((arrivedAt d n a).clockOf t.core)
      (a.deps.filter fun i => !(arrivedAt d n a).performed i) = new := by
    rw [hn, frame]
    rfl
  simp only [team, arrive_eq, counts, decide_eq_true_eq]

/-- R253: every entry of the warps is still that of its warp: its team is as it was. -/
theorem arrivedAt_entry {n : Nat} {a : Arrival} {e : Nat × Warp} (nodup : (d.warps.map Prod.fst).Nodup) (h : d.warp? e.1 = some w)
    (hp : ∀ x ∈ d.accesses, x.2.party = .warp e.1 → x.2.parked = false) (he : e ∈ (arrivedAt d n a).warps) :
    e.2.team = w.team := by
  have old : e ∈ d.warps → e.2.team = w.team := by
    intro he
    obtain rfl : e.2 = w := Option.some.inj ((find?_of_mem nodup he).symm.trans h)
    rfl
  unfold arrivedAt at he
  dsimp only at he
  split at he
  · simp only [Dev.onWarp, Table.modify] at he
    split at he
    · exact old he
    next w₀ h₀ =>
      rcases mem_of_mem_set he with same | he
      · subst same
        obtain rfl : w₀ = w := Option.some.inj (h₀.symm.trans h)
        change Warp.team (Dev.parkedAll { d with arrivals := Table.erase d.arrivals n } _ (w₀.onAllSplits _)) = _
        rw [parkedAll_none (d := { d with arrivals := Table.erase d.arrivals n }) hp]
        rfl
      · exact old he
  · exact old he

/-- R253: the unit goes over the warps of the team. -/
theorem mem_teamWarps {n : Nat} {a : Arrival} {f : Team → Team} (nodup : (d.warps.map Prod.fst).Nodup) (h : d.warp? id = some w)
    (hp : ∀ e ∈ d.accesses, e.2.party = .warp id → e.2.parked = false) :
    id ∈ ((arrivedAt d n a).onTeam a.team f).teamWarps a.team ↔ w.team = a.team := by
  unfold Dev.teamWarps
  rw [List.mem_map]
  constructor
  · rintro ⟨e, he, rfl⟩
    obtain ⟨he, team⟩ := List.mem_filter.1 he
    exact (arrivedAt_entry nodup h hp he).symm.trans (eq_of_beq team)
  · intro team
    obtain ⟨w', h', -, team', -⟩ := arrivedAt_warp (n := n) (a := a) h hp
    exact ⟨(id, w'), List.mem_filter.2 ⟨mem_of_find? h', beq_iff_eq.2 (team'.trans team)⟩, rfl⟩

theorem splits_comp {d' : Dev} {w' : Warp} {f g : Split → Split}
    (first : w'.threads = w.threads ∧ w'.team = w.team ∧ w'.splits = w.splits.map f)
    (second : SplitsBecome d' id w' g) : SplitsBecome d' id w fun x => g (f x) := by
  obtain ⟨threads, team, splits⟩ := first
  obtain ⟨w'', h'', threads', team', splits'⟩ := second
  exact ⟨w'', h'', threads'.trans threads, team'.trans team, by rw [splits', splits, List.map_map]; rfl⟩

theorem countedAt_mask (bar : Nat) (lanes : Mask) (x : Split) : (Split.countedAt bar lanes x).mask = x.mask := by
  unfold Split.countedAt
  split <;> rfl

/-- R253: a split's way through the unit: its arrival is counted, and it goes on if the phase has ended. -/
def unitSplit (a : Arrival) (id : Nat) (ends : Prop) [Decidable ends] (x : Split) : Split :=
  (if ends then Split.passBarrier a.bar else fun x => x)
    ((if a.sync = true ∧ id = a.warp then Split.countedAt a.bar a.lanes else fun x => x) x)

/-- R253: the state that a split has then. -/
theorem unitSplit_eq {a : Arrival} {done team : Prop} [Decidable done] [Decidable team] (x : Split) :
    unitSplit a id (done ∧ team) x =
      let st := if a.sync = true ∧ id = a.warp ∧ x.mask = a.lanes ∧ x.state = .arriving a.bar then .barrier a.bar else x.state
      { x with state :=
          if done ∧ team ∧ st = .barrier a.bar then .ready
          else if done ∧ team ∧ st = .parkedAt a.bar then .parked
          else st } := by
  have counts : (if a.sync = true ∧ id = a.warp then Split.countedAt a.bar a.lanes else fun x => x) x =
      { x with state :=
          if a.sync = true ∧ id = a.warp ∧ x.mask = a.lanes ∧ x.state = .arriving a.bar then .barrier a.bar else x.state } := by
    by_cases own : a.sync = true ∧ id = a.warp
    · simp only [own, and_self, if_true, true_and, Split.countedAt, Bool.and_eq_true, beq_iff_eq]
      split <;> rfl
    · simp only [← and_assoc, own, false_and, if_false]
  unfold unitSplit
  rw [counts]
  by_cases ends : done ∧ team
  · rw [if_pos ends, passBarrier_eq]
    simp only [passed, ends.1, ends.2, true_and]
  · simp only [← and_assoc, ends, false_and, if_false]

section Counted

variable {n : Nat} {a : Arrival} {t : Team} {new : Barrier} (ht : d.team? a.team = some t)
  (hn : new = countedAt (t.bars.getD a.bar Barrier.reset) a.count (lanesOf a.lanes).length a.w (d.clockOf t.core)
    (a.deps.filter fun i => !d.performed i))
include ht hn

/-- R253: a warp after an arrival has been counted. -/
theorem countArrival_warp (nodup : (d.warps.map Prod.fst).Nodup) (h : d.warp? id = some w)
    (hp : ∀ e ∈ d.accesses, e.2.party = .warp id → e.2.parked = false) (hm : ∀ x ∈ w.splits, x.mask ≠ 0) :
    SplitsBecome (d.countArrival n a) id w
      (unitSplit a id (new.phase ≠ (t.bars.getD a.bar Barrier.reset).phase ∧ w.team = a.team)) := by
  obtain ⟨w', h', first⟩ := arrivedAt_warp (n := n) (a := a) h hp
  refine splits_comp (f := if a.sync = true ∧ id = a.warp then Split.countedAt a.bar a.lanes else fun x => x)
    (g := if new.phase ≠ (t.bars.getD a.bar Barrier.reset).phase ∧ w.team = a.team then Split.passBarrier a.bar else fun x => x)
    first ?_
  have masks : ∀ x ∈ w'.splits, x.mask ≠ 0 := by
    obtain ⟨-, -, splits⟩ := first
    rw [splits]
    intro x hx
    obtain ⟨y, hy, rfl⟩ := List.mem_map.1 hx
    split
    · rw [countedAt_mask]
      exact hm y hy
    · exact hm y hy
  rw [countArrival_eq ht hn]
  dsimp only
  by_cases ends : new.phase ≠ (t.bars.getD a.bar Barrier.reset).phase
  · have team := mem_teamWarps (n := n) (a := a) (f := fun t => { t with bars := putAt Barrier.reset t.bars a.bar new }) nodup h hp
    have goes := releaseBarriers_warp (bar := a.bar) (deps := new.deps) (Dev.teamWarps (Dev.onTeam (arrivedAt d n a) a.team
      fun t => { t with bars := putAt Barrier.reset t.bars a.bar new }) a.team) (d := Dev.onTeam (arrivedAt d n a) a.team
      fun t => { t with bars := putAt Barrier.reset t.bars a.bar new }) h' masks
    simp only [team] at goes
    simp only [ends, true_and, ne_eq, not_false_eq_true, if_true]
    exact goes
  · simp only [ends, false_and, if_false]
    exact ⟨w', h', rfl, rfl, (List.map_id' _).symm⟩

/-- R253: apart from its warps, only the arrival and the team's barrier have changed. -/
theorem countArrival_frame :
    ∃ ws, d.countArrival n a = { d with
      arrivals := Table.erase d.arrivals n
      warps := ws
      teams := Table.modify d.teams a.team fun t => { t with bars := putAt Barrier.reset t.bars a.bar new } } := by
  obtain ⟨ws, arrived⟩ := arrivedAt_frame d n a
  rw [countArrival_eq ht hn, arrived]
  dsimp only
  split
  · obtain ⟨ws', released⟩ := releaseBarriers_frame a.bar new.deps (Dev.teamWarps (Dev.onTeam { d with
        arrivals := Table.erase d.arrivals n, warps := ws } a.team
        fun t => { t with bars := putAt Barrier.reset t.bars a.bar new }) a.team) (Dev.onTeam { d with
        arrivals := Table.erase d.arrivals n, warps := ws } a.team
        fun t => { t with bars := putAt Barrier.reset t.bars a.bar new })
    exact ⟨ws', released⟩
  · exact ⟨ws, rfl⟩

end Counted

/-- Settles O19: the arrival sets out; and the unit counts it, warp by warp. -/
theorem barrierResults : Obligations.BarrierResults := by
  unfold Obligations.BarrierResults
  refine ⟨fun i b sync bar count hi s id w sp pops e hp he h low high => ?_, fun s n a t own request ha oldest ht nodup => ?_⟩
  · rw [exec_bar hi, barrierOp_ready hp he h low high]
  · dsimp only
    generalize hn : countedAt _ _ _ _ _ _ = new
    obtain ⟨ws, frame⟩ := countArrival_frame (n := n) ht hn.symm
    have team : (s.dev.countArrival n a).team? a.team = some { t with bars := putAt Barrier.reset t.bars a.bar new } := by
      rw [frame]
      exact (Table.find?_modify_self ..).trans (congrArg (Option.map _) ht)
    refine ⟨withDev s (s.dev.countArrival n a), _, exec_release own request ha oldest, ?_, ?_, team, rfl, getD_putAt_self ..,
      fun k hk => getD_putAt_of_ne _ _ _ hk, fun id w h hp hm => ?_⟩
    · exact (congrArg Dev.arrivals frame :)
    · exact (congrArg Dev.mem frame :)
    · obtain ⟨w', h', threads, -, splits⟩ := countArrival_warp ht hn.symm nodup h hp hm
      refine ⟨w', h', threads, splits.trans (List.map_congr_left fun x _ => ?_)⟩
      exact unitSplit_eq x

end Sys2Proof.Proofs
end

section
/-! PROOF. `seal`, `unseal` and `prefetch` (R231, R242, R248), and the overlay instructions (R205 to R207). -/

namespace Sys2Proof.Proofs

open Sys2Proof Sys2Proof.Machine Sys2Proof.Safety

variable {s : Machine.State} {id : Nat} {w : Warp} {sp : Split} {d : Dev}

/-! ## Addresses -/

/-- R237: the high bits of an address are 0 exactly below 2^57. -/
theorem highBits_ne_zero {v : Dword} : (v.extractLsb' 57 7 != 0) = true ↔ 2 ^ 57 ≤ v.toNat := by
  rw [bne_iff_ne]
  refine ⟨fun ne => ?_, fun le zero => ?_⟩
  · by_contra lt
    exact ne (highBits_zero (Nat.not_le.1 lt))
  · have high := congrArg BitVec.toNat zero
    simp only [BitVec.extractLsb'_toNat, Nat.shiftRight_eq_div_pow] at high
    have : v.toNat < 2 ^ 64 := v.isLt
    change v.toNat / 2 ^ 57 % 2 ^ 7 = 0 at high
    omega

/-- The lowest lane's operand on two cells. -/
theorem lowestValue_two : lowestValue w sp 2 = ((w.thread? (lowest sp.mask)).map fun t => pair t.stack 0).getD 0 := by
  unfold lowestValue
  cases w.thread? (lowest sp.mask) with
  | none => rfl
  | some t => exact cellsValue_take_drop t.stack 0 2

/-! ## seal and unseal -/

/-- R248: the value of a lane's cells 2 and 3. -/
theorem lowestBase : (w.ofLane (lowest sp.mask) 0 fun t => cellsValue ((t.stack.drop 2).take 2)) =
    ((w.thread? (lowest sp.mask)).map fun t => pair t.stack 2).getD 0 := by
  unfold Warp.ofLane
  simp only [cellsValue_take_drop]
  rfl

/-- R231, R248: the request of a `seal` or an `unseal`, and the status cells of its lanes. -/
theorem sealRequest_ready {b undo : Bool} (h : Ready s id w sp (Need.of 4 b 4 1)) :
    s.dev.sealRequest s.host b undo =
      Dev.commit { s.dev with
          seals := Table.set s.dev.seals (s.dev.nextId + 1)
            ⟨(((w.thread? (lowest sp.mask)).map fun t => pair t.stack 2).getD 0).toNat,
              (((w.thread? (lowest sp.mask)).map fun t => pair t.stack 0).getD 0).toNat, undo, .warp id, s.dev.nextId, 0, 0,
              s.dev.earlier (.warp id) sp.mask ++ s.dev.markDeps w.marks sp.mask⟩
          nextId := s.dev.nextId + 2 } id
        (Warp.onLanes { w with marks := s.dev.liveMarks w.marks ++ [⟨sp.mask, [s.dev.nextId + 1], 0, []⟩] } sp.mask
          fun t => { t with stack := .empty s.dev.nextId :: t.stack.drop 4 }) (after sp 4 4 1) := by
  unfold Dev.sealRequest
  simp only [issueWarp_ready h, lowestValue_two, lowestBase]
  rfl

/-! ## prefetch -/

theorem prefetchLane_eq (core slot : Nat) (d : Dev) (va : Dword) : d.prefetchLane core slot va = prefetched core slot d va := by
  unfold Dev.prefetchLane
  simp only [highBits_ne_zero]
  rfl

/-- R242: a `prefetch` of every lane. -/
theorem exec_prefetch {b : Bool} {off : BitVec 16} (h : Ready s id w sp (Need.of 4 b 2 0)) :
    exec (.prefetch b off) s = .next (issued
      (withDev s (((w.threadsOf sp.mask).map fun t => pair t.stack 0 + BitVec.ofInt 64 off.toInt).foldl
        (prefetched w.core (s.dev.slotOf w.team)) s.dev))
      id (w.onLanes sp.mask fun t => { t with stack := t.stack.drop 2 }) (after sp 4 2 0)) := by
  have lanes : ∀ d : Dev, Dev.prefetchLane w.core (s.dev.slotOf w.team) d = prefetched w.core (s.dev.slotOf w.team) d :=
    fun d => funext (prefetchLane_eq _ _ d)
  change execPrefetch b off s = _
  unfold execPrefetch
  simp only [run_eq, issueWarp_ready h, ea_eq, funext lanes]
  rfl

/-- Settles O20: the request of a `seal`, and the lanes of a `prefetch` in turn. -/
theorem sealAndPrefetchRequests : Obligations.SealAndPrefetchRequests := by
  unfold Obligations.SealAndPrefetchRequests
  refine ⟨fun b s id w sp h => ⟨?_, ?_⟩, fun b off s id w sp h => exec_prefetch h⟩
  · exact congrArg (fun d => Host.Outcome.next (withDev s d)) (sealRequest_ready h)
  · exact congrArg (fun d => Host.Outcome.next (withDev s d)) (sealRequest_ready h)

/-! ## The overlay instructions -/

/-- R205: a `cfetch` of an address below 2^57. -/
theorem exec_cfetch {b : Bool} {seg : BitVec 6} (hs : seg.toNat < 48) (h : Ready s id w sp (Need.of 4 b 2 1)) {va : Dword}
    (hv : va = ((w.thread? (lowest sp.mask)).map fun t => pair t.stack 0).getD 0) (low : va.toNat < 2 ^ 57) {st : Nat}
    (hst : st = s.dev.fetchStatus w.core seg.toNat (s.dev.slotOf w.team) (va.toNat / 4096)) :
    exec (.cfetch b seg) s = .next (withDev s (Dev.commit
      (if st = 0 then s.dev.fetchSegment w.core seg.toNat (s.dev.slotOf w.team) (va.toNat / 4096) else s.dev) id
      (w.onLanes sp.mask fun t => { t with stack := .full (BitVec.ofNat 32 st) :: t.stack.drop 2 }) (after sp 4 2 1))) := by
  have checked : firstFailing [⟨0x0D, if va.extractLsb' 57 7 != 0 then laneBit (lowest sp.mask) else 0, va⟩] = none := by
    rw [highBits_zero low]
    rfl
  change execCfetch b seg s = _
  unfold execCfetch
  simp only [run_eq, if_neg (Nat.not_le.2 hs), issueWarp_ready h, lowestValue_two, ← hv, checked_pass checked, ← hst]
  rfl

/-- R206. -/
theorem exec_cevict {b : Bool} {seg : BitVec 6} (hs : seg.toNat < 48) (h : Ready s id w sp (Need.of 4 false 0 1)) :
    exec (.cevict b seg) s = .next (withDev s (Dev.commit
      (if s.dev.takeable w.core seg.toNat then
        s.dev.onCore w.core fun c => c.onSegment seg.toNat fun g => { g with state := .free } else s.dev) id
      (w.onLanes sp.mask fun t =>
        { t with stack := .full (if s.dev.takeable w.core seg.toNat then 0 else 2) :: t.stack }) (after sp 4 0 1))) := by
  change execCevict b seg s = _
  unfold execCevict
  simp only [run_eq, if_neg (Nat.not_le.2 hs), issueWarp_ready h]
  rfl

/-- R207. -/
theorem exec_cstat {b : Bool} {seg : BitVec 6} (hs : seg.toNat < 48) (h : Ready s id w sp (Need.of 4 false 0 1)) :
    exec (.cstat b seg) s = .next (issued s id (w.onLanes sp.mask fun t =>
      { t with stack := .full (s.dev.segmentWord w.core seg.toNat (s.dev.slotOf w.team)) :: t.stack }) (after sp 4 0 1)) := by
  change execCstat b seg s = _
  unfold execCstat Dev.pushOp
  simp only [run_eq, if_neg (Nat.not_le.2 hs), issueWarp_ready h]
  rfl

/-- Settles O21: the three instructions, with the fill or the eviction that each brings. -/
theorem overlayResults : Obligations.OverlayResults := by
  unfold Obligations.OverlayResults
  refine fun b seg s id w sp hs => ⟨fun h => ?_, fun h => ⟨?_, exec_cstat hs h⟩⟩
  · dsimp only
    intro low
    rw [exec_cfetch hs h rfl low rfl]
    split <;> rfl
  · rw [exec_cevict hs h]
    split <;> rfl

end Sys2Proof.Proofs
end

section
/-! PROOF. Matrix instructions join the queue of their engine (R250, R281 to R293). -/

namespace Sys2Proof.Proofs

open Sys2Proof Sys2Proof.Machine Sys2Proof.Safety

variable {s : Machine.State} {id : Nat} {w : Warp} {sp : Split} {i : Instr} {r : LaunchRecord} {core : Nat} {k : List Word}

/-- What an instruction's issue asks, against its form. -/
structure IssueMeets (q : MatrixIssue) (o : EngineForm) : Prop where
  regs : q.regs = o.regs
  pair : q.pair = o.pair
  work : q.work = o.work
  legal : ∀ r, o.slots r = true → q.legal r = true
  checks : ∀ s r core k, o.good s r core k = true → firstBad (q.checks s.dev r core k) = none

/-- R250, R266, R281: an operation that nothing holds back. -/
theorem matrixWait_none {d : Dev} {cnt : List Nat} {slot core : Nat} {pair : Bool} (room : cntGet cnt 2 < 255)
    (home : d.matrixAway slot core pair = false) (free : pair = false → d.pairHeld core = false) :
    d.matrixWait cnt slot core pair = none := by
  have held : (!pair && d.pairHeld core) = false := by
    cases pair with
    | true => rfl
    | false => exact free rfl
  unfold Dev.matrixWait
  rw [if_neg (Nat.not_le.2 room), home, held]
  rfl

/-- R281: the launch of the operation's issuer, whose slots allow it. -/
theorem legal_issue {q : MatrixIssue} {o : EngineForm} (m : IssueMeets q o) (slots : o.slots r = true)
    (pairs : o.pair = true → r.pair = true) : (!q.legal r || (q.pair && !r.pair)) = false := by
  rw [m.legal r slots, m.pair]
  cases hp : o.pair with
  | false => rfl
  | true => rw [pairs hp]; rfl

/-- The launch of the warp or the front-end context whose turn it is. -/
theorem issuerLaunch_warp {l : Launch} (h : Issues s id w sp) (hl : s.dev.launchOf w.team = some l) :
    (s.dev.partyTeam s.dev.issuer).bind s.dev.launchOf = some l := by
  rw [h.issuer]
  exact (congrArg (fun w => (Option.map Warp.team w).bind s.dev.launchOf) h.warp).trans hl

theorem issuerLaunch_fet {f : Fet} {regs : List Nat} {l : Launch} (h : IssuesFet s id f regs) (hl : s.dev.launchOf f.team = some l) :
    (s.dev.partyTeam s.dev.issuer).bind s.dev.launchOf = some l := by
  rw [h.issuer]
  exact (congrArg (fun f => (Option.map Fet.team f).bind s.dev.launchOf) h.fet).trans hl

theorem completes_matrix {q : MatrixIssue} {o : EngineForm} (hexec : ∀ s, exec i s = s.run fun h d => d.issueMatrix h q)
    (m : IssueMeets q o) : o.completes i := by
  refine ⟨fun s id w sp l h hl slots pairs room home free_ good => ?_, fun s id f l h hl slots pairs room home free_ good => ?_⟩
  · have launch := issuerLaunch_warp h.issues hl
    rw [hexec, run_eq]
    unfold Dev.issueMatrix
    simp only [launch, legal_issue m slots pairs, Bool.false_eq_true, if_false]
    rw [m.regs, issueEither_warp h]
    simp only [m.pair, m.work]
    have wait : s.dev.matrixWait w.cnt l.slot (s.dev.engineOf w.team w.core o.pair) o.pair = none :=
      matrixWait_none room home fun single => by rw [single]; exact free_ single
    have checks := m.checks s l.record (s.dev.engineOf w.team w.core o.pair) w.k good
    simp only [wait, checks]
    rfl
  · have launch := issuerLaunch_fet h hl
    rw [hexec, run_eq]
    unfold Dev.issueMatrix
    simp only [launch, legal_issue m slots pairs, Bool.false_eq_true, if_false]
    rw [m.regs, issueEither_fet h]
    simp only [m.pair, m.work]
    have wait : s.dev.matrixWait f.cnt l.slot (s.dev.engineOf f.team f.core o.pair) o.pair = none :=
      matrixWait_none room home fun single => by rw [single]; exact free_ single
    have checks := m.checks s l.record (s.dev.engineOf f.team f.core o.pair) f.k good
    simp only [wait, checks]
    rfl

/-! ## The checks of the operands (R285) -/

/-- R285: a range within the core's slice has no byte outside it. -/
theorem outsideSlice_none {va : Dword} {n : Nat} (h : inOwnSlice core va n = true) : outsideSlice core va n = none := by
  unfold inOwnSlice at h
  simp only [Bool.or_eq_true, beq_iff_eq, Bool.and_eq_true, decide_eq_true_eq] at h
  unfold outsideSlice
  rcases h with rfl | ⟨low, high⟩
  · exact if_pos rfl
  · have size : sliceBytes = 2 ^ 22 := rfl
    by_cases zero : n = 0
    · exact if_pos zero
    · have inside : (decide (va.toNat < sliceVa core) || decide (sliceVa core + sliceBytes ≤ va.toNat)) = false := by
        simp only [Bool.or_eq_false_iff, decide_eq_false_iff_not]
        omega
      simp only [if_neg zero, inside, Bool.false_eq_true, if_false]
      exact if_neg (by omega)

/-- A list of checks none of which fails. -/
theorem firstBad_none {cs : List (BitVec 8 × Bool × Dword)} (h : ∀ c ∈ cs, c.2.1 = false) : firstBad cs = none := by
  unfold firstBad
  rw [Option.map_eq_none_iff, List.find?_eq_none]
  intro c hc
  simp [h c hc]

theorem mod_ne_zero_false {a n : Nat} (h : decide (a % n = 0) = true) : (a % n != 0) = false := by simpa using h

/-- R285: the checks of A that a good A passes. -/
theorem mmaChecks_none {ka : BitVec 6} {aslot bslot : BitVec 3} {rows : Nat}
    (h : (decide ((kGet64 k ka.toNat).toNat % 128 = 0) &&
        inOwnSlice core (kGet64 k ka.toNat)
          (payloadSize (r.slot aslot.toNat).format.toNat (r.slot bslot.toNat).format.toNat rows) &&
        inOwnSlice core (kGet64 k ka.toNat + (r.slot aslot.toNat).expStride)
          (exponentSize (r.slot aslot.toNat).format.toNat (r.slot bslot.toNat).format.toNat rows)) = true) :
    firstBad (mmaChecks ka aslot bslot rows r core k) = none := by
  simp only [Bool.and_eq_true] at h
  obtain ⟨⟨aligned, payload⟩, exponents⟩ := h
  refine firstBad_none fun c hc => ?_
  unfold mmaChecks at hc
  simp only [outsideSlice_none payload, outsideSlice_none exponents] at hc
  rcases List.mem_pair.1 hc with rfl | rfl
  · rfl
  · exact mod_ne_zero_false aligned

/-- R290, R291: the checks of a `bload` that good registers and free banks pass. -/
theorem bloadChecks_none {v stride : Nat} {a b pair : Bool} {va : Dword}
    (h : (decide (v % 128 = 0) && decide (stride % 128 = 0) && !a && !(pair && b)) = true) :
    firstBad [(0x0B, v % 128 != 0 || stride % 128 != 0, va), (0x12, a || (pair && b), 0)] = none := by
  simp only [Bool.and_eq_true, Bool.not_eq_true'] at h
  obtain ⟨⟨⟨base, step⟩, own⟩, follower⟩ := h
  refine firstBad_none fun c hc => ?_
  rcases List.mem_pair.1 hc with rfl | rfl
  · simp only [mod_ne_zero_false base, mod_ne_zero_false step, Bool.or_self]
  · simp only [own, follower, Bool.or_self]

/-- Bit 0 of a tile number says whether it is odd. -/
theorem even_tile (tile : BitVec 2) : (!tile.getLsbD 0) = decide (tile.toNat % 2 = 0) := by revert tile; decide

/-- Settles O22: each instruction's issue meets its form. -/
theorem matrixInstructionsIssue : Obligations.MatrixInstructionsIssue := by
  unfold Obligations.MatrixInstructionsIssue
  intro i o h
  cases i
  case mma =>
    cases h
    refine completes_matrix (fun _ => rfl) ⟨rfl, rfl, rfl, fun r slots => ?_, fun _ _ _ _ good => mmaChecks_none good⟩
    simp only [even_tile]
    exact slots
  case mclr | bswap =>
    cases h
    exact completes_matrix (fun _ => rfl) ⟨rfl, rfl, rfl, fun _ _ => rfl, fun _ _ _ _ _ => rfl⟩
  case mdrain =>
    cases h
    exact completes_matrix (fun _ => rfl) ⟨rfl, rfl, rfl, fun _ slots => slots, fun _ _ _ _ _ => rfl⟩
  case bload =>
    cases h
    exact completes_matrix (fun _ => rfl) ⟨rfl, rfl, rfl, fun _ slots => slots, fun _ _ _ _ good => bloadChecks_none good⟩
  case dload =>
    cases h
    refine completes_matrix (fun _ => rfl) ⟨rfl, rfl, rfl, fun _ _ => rfl, fun _ _ _ _ good => firstBad_none fun c hc => ?_⟩
    obtain rfl := List.mem_singleton.1 hc
    exact mod_ne_zero_false good
  all_goals nomatch h

end Sys2Proof.Proofs
end

section
/-! PROOF. Copy instructions queue their commands (R310 to R313). -/

namespace Sys2Proof.Proofs

open Sys2Proof Sys2Proof.Machine Sys2Proof.Safety

variable {s : Machine.State} {id : Nat} {w : Warp} {sp : Split} {i : Instr} {f : CopyFields} {l : Launch}

/-- R311: a lane's flag and its coordinates, in its cells. -/
theorem copyCells_eq (n : Nat) (t : Thread) :
    copyCells n t = (cell t.stack 0, (((t.stack.drop 1).take n).map Cell.word).reverse) := by
  unfold copyCells cell
  cases t.stack with
  | nil => simp
  | cons c st => simp

/-- R311: the leading lanes with their coordinates. -/
theorem leads_eq : leads f w sp = (copyLeaders f w sp).map fun t => (laneBit t.lane, (copyCells f.ncoord t).2) := by
  unfold leads copyLeaders
  simp only [copyCells_eq]

/-- R311: commands queued one after another, for the threads that lead. -/
theorem queueCopies_eq (p : Party) (team core : Nat) (pc : Va) (deps : List Nat) (tlr slice : Dword) (ts : List Thread)
    (s : Machine.State) :
    withDev s (ts.foldl
        (fun d t => d.queueCopy i f p team core pc (laneBit t.lane) deps (copyCells f.ncoord t).2 tlr slice) s.dev) =
      (ts.map fun t => (laneBit t.lane, (copyCells f.ncoord t).2)).foldl (copyQueued i f p team core pc deps tlr slice) s := by
  induction ts generalizing s with
  | nil => rfl
  | cons t ts ih => exact ih (copyQueued i f p team core pc deps tlr slice s (laneBit t.lane, (copyCells f.ncoord t).2))

/-- R313: addresses that pass their checks. -/
theorem copyChecks_none {tlr slice : Dword} (h : copyGood tlr slice) : firstBad (copyChecks tlr slice) = none := by
  obtain ⟨ht, hs, window, at_, as_⟩ := h
  refine firstBad_none fun c hc => ?_
  simp only [copyChecks, List.mem_cons, List.not_mem_nil, or_false] at hc
  rcases hc with rfl | rfl | rfl | rfl
  · simpa using ht
  · simp only [window, Bool.not_true, Bool.or_false, decide_eq_false_iff_not, Nat.not_le]
    exact hs
  · simp [at_]
  · simp [as_]

/-- R311: the commands of a warp whose counter and engine have room. -/
theorem copyFromWarp_good {n : Nat} (hp : HostPart) (slots : badDslot f l.record = false) (hn : n = (leads f w sp).length)
    (counter : cntGet w.cnt f.cls + n ≤ 255) (engine : s.dev.slotsUsed w.core + n ≤ 32)
    (good : n ≠ 0 → copyGood (kGet64 w.k f.kl) (kGet64 w.k f.ksl)) :
    withDev s (s.dev.copyFromWarp hp i f l.record id w sp) = issued
      ((leads f w sp).foldl (copyQueued i f (.warp id) w.team w.core sp.pc (s.dev.warpEarlier id w)
        (kGet64 w.k f.kl) (kGet64 w.k f.ksl)) s)
      id { w.onLanes sp.mask (fun t => { t with stack := t.stack.drop (f.ncoord + 1) }) with
        cnt := putAt 0 w.cnt f.cls (cntGet w.cnt f.cls + n) } (after sp 8 (f.ncoord + 1) 0) := by
  have leaders : (copyLeaders f w sp).length = n := by rw [hn, leads_eq, List.length_map]
  have room : s.dev.resolved id w sp (.room f.cls n) = true := by simp [Dev.resolved, counter, engine]
  have checks : firstBad (if n = 0 then [] else copyChecks (kGet64 w.k f.kl) (kGet64 w.k f.ksl)) = none := by
    split
    · rfl
    next some => exact copyChecks_none (good some)
  have queued := queueCopies_eq (i := i) (f := f) (.warp id) w.team w.core sp.pc (s.dev.warpEarlier id w) (kGet64 w.k f.kl)
    (kGet64 w.k f.ksl) (copyLeaders f w sp) s
  unfold Dev.copyFromWarp
  simp only [slots, leaders, room, checks, Bool.not_true, Bool.and_false, Bool.false_eq_true, if_false]
  rw [leads_eq, ← queued]
  rfl

/-- R312: the command of a front-end context whose counter and engine have room. -/
theorem copyFromFet_good {c : Fet} (hp : HostPart) (slots : badDslot f l.record = false) (counter : cntGet c.cnt f.cls < 255)
    (engine : s.dev.slotsUsed c.core < 32) (good : copyGood (kGet64 c.k f.kl) (kGet64 c.k f.ksl)) :
    withDev s (s.dev.copyFromFet hp i f l.record id c) = issuedFet
      (copyQueued i f (.fet id) c.team c.core c.pc (s.dev.earlier (.fet id) 0) (kGet64 c.k f.kl) (kGet64 c.k f.ksl) s
        (0, (List.range f.ncoord).map fun n => kGet c.k (f.kc + n)))
      id { c with cnt := counted c.cnt f.cls } 8 := by
  have room : (decide (255 ≤ cntGet c.cnt f.cls) || decide (32 ≤ s.dev.slotsUsed c.core)) = false := by
    simp only [Bool.or_eq_false_iff, decide_eq_false_iff_not]
    omega
  unfold Dev.copyFromFet
  simp only [slots, room, copyChecks_none good, Bool.false_eq_true, if_false]
  rfl

theorem exec_copy
    (hi : (∃ kl ksl out ring kc cv dslot ncoord tag, i = .tcopy kl ksl out ring kc cv dslot ncoord tag) ∨
      (∃ kl ksl ring kc cv dslot ncoord tag, i = .tgather kl ksl ring kc cv dslot ncoord tag) ∨
      (∃ kl ksl ring kc cv dslot ncoord tag, i = .tscatter kl ksl ring kc cv dslot ncoord tag)) (s : Machine.State) :
    exec i s = .next (withDev s (s.dev.issueCopy s.host i)) := by
  rcases hi with ⟨_, _, _, _, _, _, _, _, _, rfl⟩ | ⟨_, _, _, _, _, _, _, _, rfl⟩ | ⟨_, _, _, _, _, _, _, _, rfl⟩ <;> rfl

/-- R310, R311: a copy instruction of a warp. -/
theorem issueCopy_warp (hf : copyFields i = f) (h : Ready s id w sp (copyNeed f)) (hl : s.dev.launchOf w.team = some l)
    (place : f.kc = 0) (hp : HostPart) : s.dev.issueCopy hp i = s.dev.copyFromWarp hp i f l.record id w sp := by
  unfold Dev.issueCopy
  simp only [hf, issuerLaunch_warp h.issues hl]
  simp only [h.issues.issuer, place, bne_self_eq_false, Bool.false_eq_true, if_false]
  exact issueWarp_ready h ..

/-- R310, R312: a copy instruction of a front-end context. -/
theorem issueCopy_fet {c : Fet} (hf : copyFields i = f)
    (h : IssuesFet s id c ([f.kl, f.kl + 1, f.ksl, f.ksl + 1] ++ (List.range f.ncoord).map (f.kc + ·)))
    (hl : s.dev.launchOf c.team = some l) (place : f.kc + f.ncoord ≤ 64) (hp : HostPart) :
    s.dev.issueCopy hp i = s.dev.copyFromFet hp i f l.record id c := by
  have loaded : (c.kld.any fun e => ([f.kl, f.kl + 1, f.ksl, f.ksl + 1] ++ (List.range f.ncoord).map (f.kc + ·)).contains e.1) =
      false := by
    rw [List.any_eq_false]
    intro e he
    simpa using h.loaded e he
  unfold Dev.issueCopy
  simp only [hf, issuerLaunch_fet h hl]
  simp only [h.issuer, h.fet, loaded, if_neg (Nat.not_lt.2 place), Bool.false_eq_true, if_false]

/-- Settles O23: nothing holds the command back, and the leading lanes queue theirs one by one. -/
theorem copyInstructionsIssue : Obligations.CopyInstructionsIssue := by
  unfold Obligations.CopyInstructionsIssue
  refine fun i f l hi hf slots => ⟨fun s id w sp h hl place => ?_, fun s id c h hl place counter engine good => ?_⟩
  · dsimp only
    intro counter engine good
    rw [exec_copy hi, issueCopy_warp hf h hl place, copyFromWarp_good _ slots rfl counter engine good]
  · rw [exec_copy hi, issueCopy_fet hf h hl place, copyFromFet_good _ slots counter engine good]

end Sys2Proof.Proofs
end

section
/-! PROOF. Routed instructions (R126 to R128, R412). -/

namespace Sys2Proof.Proofs

open Sys2Proof Sys2Proof.Machine Sys2Proof.Safety

variable {s : Machine.State} {id : Nat} {w : Warp} {sp : Split} {f : Word → Word → Word} {r : Route} {ch15 : List Word} {t : Thread}

/-! ## Where a two-operand word operation takes its operands and puts its result -/

/-- R126: codes 2 and 3 of a route are a channel's. -/
theorem fromChannel_eq (c : BitVec 2) : fromChannel c = !decide (c.toNat < 2) := by revert c; decide

/-- R126: an odd code peeks. -/
theorem pops_channel (c : BitVec 2) : (fromChannel c && !peeks c) = decide (c = 2) := by revert c; decide

theorem peeks_stack (c : BitVec 2) : (peeks c && !fromChannel c) = decide (c = 1) := by revert c; decide

theorem stackB_op2 : (op2 f).stackB r = if r.rb.toNat < 2 then 1 else 0 := by
  unfold LaneOp.stackB
  rw [fromChannel_eq]
  by_cases h : r.rb.toNat < 2 <;> simp [h, op2]

theorem stackA_op2 : (op2 f).stackA r = if r.ra.toNat < 2 then 1 else 0 := by
  unfold LaneOp.stackA
  rw [fromChannel_eq]
  by_cases h : r.ra.toNat < 2 <;> simp [h, op2]

theorem popsA_op2 (ch : Nat) : (op2 f).popsA r ch = if r.ra = 2 ∧ r.cha = ch then 1 else 0 := by
  unfold LaneOp.popsA
  rw [pops_channel]
  by_cases h : r.ra = 2 <;> simp [h, op2]

theorem popsB_op2 (ch : Nat) : (op2 f).popsB r ch = if r.rb = 2 ∧ r.chb = ch then 1 else 0 := by
  unfold LaneOp.popsB
  rw [pops_channel]
  by_cases h : r.rb = 2 <;> simp [h, op2]

theorem low_cellsValue_one (st : List Cell) (n : Nat) : low (cellsValue ((st.drop n).take 1)) = cell st n := by
  have head : st[n]? = (st.drop n).head? := by rw [List.head?_drop]
  unfold cell
  rw [head]
  cases st.drop n with
  | nil => rfl
  | cons c _ => exact low_setWidth c.word

theorem low_entriesValue_one (ws : List Word) (n : Nat) : low (entriesValue ((ws.drop n).take 1)) = ws.getD n 0 := by
  rw [List.getD_eq_getElem?_getD, ← List.head?_drop]
  cases ws.drop n with
  | nil => rfl
  | cons v _ => exact low_setWidth v

/-- R127: operand A. -/
theorem valueA_op2 : low ((op2 f).valueA r ch15 t) =
    if r.ra.toNat < 2 then cell t.stack (if r.rb.toNat < 2 then 1 else 0) else (laneChannel ch15 t r.cha).getD 0 0 := by
  unfold LaneOp.valueA
  rw [fromChannel_eq, stackB_op2]
  by_cases h : r.ra.toNat < 2
  · simp only [h, decide_true, Bool.not_true, Bool.false_eq_true, if_false, if_true]
    exact low_cellsValue_one ..
  · simp only [h, decide_false, Bool.not_false, if_true, if_false]
    exact low_entriesValue_one _ 0

/-- R127, R412: operand B, which is read after A. -/
theorem valueB_op2 : low ((op2 f).valueB r ch15 t) =
    if r.rb.toNat < 2 then cell t.stack 0
    else (laneChannel ch15 t r.chb).getD (if r.ra = 2 ∧ r.cha = r.chb then 1 else 0) 0 := by
  unfold LaneOp.valueB
  rw [fromChannel_eq, popsA_op2]
  by_cases h : r.rb.toNat < 2
  · simp only [h, decide_true, Bool.not_true, Bool.false_eq_true, if_false, if_true]
    exact low_cellsValue_one _ 0
  · simp only [h, decide_false, Bool.not_false, if_true, if_false]
    exact low_entriesValue_one ..

/-- A peeked operand of the stack stays there; a peeked entry takes no cell. -/
theorem peeked_cells (c : BitVec 2) (st : List Cell) :
    (if peeks c then st.take (if c.toNat < 2 then 1 else 0) else []) = if c = 1 then st.take 1 else [] := by
  have codes : c = 0 ∨ c = 1 ∨ c = 2 ∨ c = 3 := by revert c; decide
  rcases codes with rfl | rfl | rfl | rfl <;> rfl

/-- R127: the cells that stay. -/
theorem kept_op2 (st : List Cell) : (op2 f).kept r st =
    (if r.rb = 1 then st.take 1 else []) ++
      (if r.ra = 1 then (st.drop (if r.rb.toNat < 2 then 1 else 0)).take 1 else []) ++
      st.drop ((if r.rb.toNat < 2 then 1 else 0) + if r.ra.toNat < 2 then 1 else 0) := by
  unfold LaneOp.kept
  simp only [stackB_op2, stackA_op2, peeked_cells]
  rfl

/-- R412: a channel with a popped entry gone; ch15 is the warp's. -/
theorem popChannel_one (chs : List (List Word)) (c : Nat) (code : BitVec 2) :
    popChannel chs c (if code = 2 then 1 else 0) =
      if (code == 2) = true ∧ c ≠ 15 then putAt [] chs c ((chs.getD c []).drop 1) else chs := by
  unfold popChannel
  by_cases pops : code = 2
  · subst pops
    by_cases warp : c = 15 <;> simp [warp]
  · have stays : ¬((code == 2) = true ∧ c ≠ 15) := fun both => pops (eq_of_beq both.1)
    rw [if_neg pops, if_neg stays]
    rfl

/-- R126 to R128: a two-operand word operation through a route. -/
theorem step_op2 (ra rb : BitVec 2) (rd : Bool) (cha chb chd : Nat) :
    (op2 f).step ⟨ra, rb, rd, cha, chb, chd⟩ ch15 t = routedWord f ra rb rd cha chb chd ch15 t := by
  have result : low ((op2 f).result ⟨ra, rb, rd, cha, chb, chd⟩ ch15 t).1 =
      f (low ((op2 f).valueA ⟨ra, rb, rd, cha, chb, chd⟩ ch15 t)) (low ((op2 f).valueB ⟨ra, rb, rd, cha, chb, chd⟩ ch15 t)) :=
    low_setWidth _
  simp only [valueA_op2, valueB_op2, laneChannel] at result
  unfold LaneOp.step routedWord
  simp only [kept_op2, popsA_op2, popsB_op2, and_true, popChannel_one, show (op2 f).r = 1 from rfl, valueEntries, pushValue, result]
  rfl

/-- Settles O24: the issue of a routed instruction, and a lane's operands, stack and channels one by one. -/
theorem routedResults : Obligations.RoutedResults := by
  unfold Obligations.RoutedResults
  refine ⟨?_, fun f ra rb rd cha chb chd ch15 t => step_op2 ra rb rd cha chb chd⟩
  intro op b ra rb rd cha chb chd mod o s id w sp
  dsimp only
  intro ho route h
  change execL32Routed op b ra rb rd cha chb chd mod s = _
  unfold execL32Routed
  simp only [run_eq, ho, route, if_true]
  rw [laneOp_ready h]
  rfl

end Sys2Proof.Proofs
end

section
/-! PROOF. Uniform loads and stores, `setperf`, `vtag` and `coll` (R212, R215, R347, R353, R354, R356). -/

namespace Sys2Proof.Proofs

open Sys2Proof Sys2Proof.Machine Sys2Proof.Safety

variable {s : Machine.State} {id : Nat} {w : Warp} {sp : Split} {i : Instr} {d : Dev} {f : Fet}

/-! ## Accesses of a uniform instruction -/

/-- R212: what is known of the access of a uniform instruction to a word, as it has issued. -/
def UniformFields (a : Access) (p : Party) (u : UniformAccess) (pa part : Nat) : Prop :=
  a.party = p ∧ a.lane = 32 ∧ a.part = part ∧ a.instr = u.instr ∧ a.kind = u.form.kind ∧
    a.bytes = (if u.form.parts = 1 then u.bytes else 4) ∧ a.va = u.va + BitVec.ofNat 64 (4 * part) ∧ a.pa = some (pa + 4 * part) ∧
    a.data = u.data ∧ a.result = none

/-- R212: the step of one word, with the registers that it loads. -/
def uniformPart (p : Party) (marks : List OrderMark) (pc : Va) (mask : Mask) (u : UniformAccess) (pa stamp : Nat)
    (r : List (Nat × Nat) × Dev) (part : Nat) : List (Nat × Nat) × Dev :=
  let a := r.2.newAccess p marks u.instr pc stamp 32 part mask u.form u.va u.data [mask] [] (some (pa + 4 * part))
  (if u.store then r.1 else r.1 ++ [(u.reg + part, r.2.nextId)],
    r.2.fresh.2.setAccess r.2.nextId { a with regs := if u.store then [] else [u.reg, u.reg + 1] })

theorem addUniform_eq (d : Dev) (p : Party) (marks : List OrderMark) (pc : Va) (mask : Mask) (u : UniformAccess) (pa : Nat) :
    d.addUniform p marks pc mask u pa =
      (List.range u.form.parts).foldl (uniformPart p marks pc mask u pa d.nextId) ([], d.fresh.2) := rfl

theorem uniformParts_spec (p : Party) (marks : List OrderMark) (pc : Va) (mask : Mask) (u : UniformAccess) (pa stamp : Nat)
    (parts : List Nat) (r : List (Nat × Nat) × Dev) :
    Issuing r.2 (parts.foldl (uniformPart p marks pc mask u pa stamp) r).2 ∧
      (parts.foldl (uniformPart p marks pc mask u pa stamp) r).1.map Prod.fst =
        r.1.map Prod.fst ++ (if u.store then [] else parts.map (u.reg + ·)) ∧
      ∀ part ∈ parts, InFlight (parts.foldl (uniformPart p marks pc mask u pa stamp) r).2 fun a => UniformFields a p u pa part := by
  induction parts generalizing r with
  | nil => exact ⟨Issuing.refl _, by simp, fun _ h => nomatch h⟩
  | cons part parts ih =>
    obtain ⟨later, regs, found⟩ := ih (uniformPart p marks pc mask u pa stamp r part)
    refine ⟨(issuing_setAccess r.2 _).trans later, ?_, fun part' h => ?_⟩
    · rw [List.foldl_cons, regs]
      unfold uniformPart
      cases u.store <;> simp
    · rcases List.mem_cons.1 h with rfl | h
      · exact InFlight.mono
          ⟨(r.2.nextId, _), mem_set_self .., Nat.lt_succ_self _, rfl, rfl, rfl, rfl, rfl, rfl, rfl, rfl, rfl, rfl⟩ later
      · exact found part' h

/-- R212: a uniform load or store whose address is good and whose page is translated. -/
theorem checkUniform_go {slot core pa : Nat} {u : UniformAccess}
    (h : uniformTranslated s slot core u.store u.va u.bytes pa d) (hp : HostPart) :
    s.dev.checkUniform hp slot core u = .go pa d := by
  obtain ⟨low, aligned, translated, good, open_⟩ := h
  have unsealed : (u.store && (d.context slot).sealedRange u.va.toNat u.bytes) = false := by
    cases hs : u.store with
    | false => rfl
    | true => exact open_ hs
  unfold Dev.checkUniform
  simp only [highBits_zero low, aligned, translated, good, unsealed, bne_self_eq_false, Bool.false_eq_true, if_false]

/-- R212: what a uniform load or store leaves: the names of its words' accesses, and the device with them in flight. -/
theorem addUniform_spec (d : Dev) (p : Party) (marks : List OrderMark) (pc : Va) (mask : Mask) (u : UniformAccess) (pa : Nat) :
    (∃ as k ws, (d.addUniform p marks pc mask u pa).2 = { d with accesses := as, nextId := k, warps := ws }) ∧
      (d.addUniform p marks pc mask u pa).1.map Prod.fst =
        (if u.store then [] else (List.range u.form.parts).map (u.reg + ·)) ∧
      ∀ part < u.form.parts, InFlight (d.addUniform p marks pc mask u pa).2 fun a => UniformFields a p u pa part := by
  obtain ⟨issuing, regs, found⟩ := uniformParts_spec p marks pc mask u pa d.nextId (List.range u.form.parts) ([], d.fresh.2)
  rw [addUniform_eq]
  exact ⟨((issuing_fresh d).trans issuing).only, regs, fun part h => found part (List.mem_range.2 h)⟩

/-- R212: a `kld` or a `kst`, whose size is 4 or 8 bytes. -/
def UniformForm (i : Instr) (store : Bool) (kd ka n : BitVec 6) (size : BitVec 2) : Prop :=
  size.toNat < 2 ∧ ((i = .kld kd ka n size ∧ store = false) ∨ (i = .kst kd ka n size ∧ store = true))

section UniformForm

variable {store : Bool} {kd ka n : BitVec 6} {size : BitVec 2}

/-- R212: one access for each word. -/
theorem uniform_parts (u : Uniform) : (uniformAccessOf i store kd ka n size u).form.parts = (if size = 1 then 8 else 4) / 4 := by
  unfold MemForm.parts UniformAccess.form uniformAccessOf
  by_cases wide : size = 1
  · simp only [if_pos wide]
    rfl
  · simp only [if_neg wide]
    rfl

theorem uniform_bytes (u : Uniform) :
    (if (uniformAccessOf i store kd ka n size u).form.parts = 1 then (uniformAccessOf i store kd ka n size u).bytes
      else 4) = 4 := by
  rw [uniform_parts]
  unfold uniformAccessOf
  dsimp only
  split <;> rfl

/-- R212: the registers that a load writes. -/
theorem uniform_regs (u : Uniform) :
    (if (uniformAccessOf i store kd ka n size u).store then []
      else (List.range (uniformAccessOf i store kd ka n size u).form.parts).map
        ((uniformAccessOf i store kd ka n size u).reg + ·)) =
      if store then [] else if size = 1 then [kd.toNat, kd.toNat + 1] else [kd.toNat] := by
  rw [uniform_parts]
  unfold uniformAccessOf
  dsimp only
  split
  · rfl
  · split <;> rfl

variable (h : UniformForm i store kd ka n size)

include h in
theorem exec_uniformAccess (s : Machine.State) :
    exec i s = .next (withDev s (s.dev.uniformAccess s.host (uniformReads i) (uniformAccessOf i store kd ka n size))) := by
  obtain ⟨hs, hi⟩ := h
  have legal : ¬2 ≤ size.toNat := Nat.not_le.2 hs
  rcases hi with ⟨rfl, rfl⟩ | ⟨rfl, rfl⟩
  · change execKld kd ka n size s = _
    unfold execKld
    rw [run_eq, if_neg legal]
    rfl
  · change execKst kd ka n size s = _
    unfold execKst
    rw [run_eq, if_neg legal]

/-- R212: the access of a word, as the statement gives it. -/
theorem uniform_issued {d : Dev} {p : Party} {u : Uniform} {pa part : Nat}
    (found : InFlight d fun a => UniformFields a p (uniformAccessOf i store kd ka n size u) pa part) :
    uniformIssued d p i store (kGet64 u.k ka.toNat + BitVec.ofNat 64 (n.toNat * if size = 1 then 8 else 4)) pa part
      [kGet u.k kd.toNat, kGet u.k (kd.toNat + 1)] := by
  obtain ⟨e, he, -, party, lane, hpart, instr, kind, bytes, va, hpa, data, result⟩ := found
  refine ⟨e, he, party, lane, hpart, instr, kind, bytes.trans (uniform_bytes u), va, hpa, fun hs => data.trans ?_, result⟩
  exact if_pos hs

include h in
/-- R212: a uniform load or store of a warp. -/
theorem exec_uniform_warp {pa : Nat} {d : Dev} (hr : Ready s id w sp { blind 4 0 0 with regs := uniformReads i })
    (translated : uniformTranslated s (s.dev.slotOf w.team) w.core store
      (kGet64 w.k ka.toNat + BitVec.ofNat 64 (n.toNat * if size = 1 then 8 else 4)) (if size = 1 then 8 else 4) pa d) :
    exec i s = .next (withDev s
      (Dev.commit (d.addUniform (.warp id) w.marks sp.pc sp.mask (uniformAccessOf i store kd ka n size ⟨w.k, w.kp⟩) pa).2 id
        { w with kld := w.kld ++
            (d.addUniform (.warp id) w.marks sp.pc sp.mask (uniformAccessOf i store kd ka n size ⟨w.k, w.kp⟩) pa).1 }
        (after sp 4 0 0))) := by
  have go := checkUniform_go (u := uniformAccessOf i store kd ka n size ⟨w.k, w.kp⟩) translated s.host
  rw [exec_uniformAccess h, Dev.uniformAccess, issueEither_warp hr]
  simp only [go]
  rfl

include h in
/-- R212: a uniform load or store of a front-end context. -/
theorem exec_uniform_fet {pa : Nat} {d : Dev} (hr : IssuesFet s id f (uniformReads i))
    (translated : uniformTranslated s (s.dev.slotOf f.team) f.core store
      (kGet64 f.k ka.toNat + BitVec.ofNat 64 (n.toNat * if size = 1 then 8 else 4)) (if size = 1 then 8 else 4) pa d) :
    exec i s = .next (withDev s
      (Dev.commitFet (d.addUniform (.fet id) [] f.pc 0 (uniformAccessOf i store kd ka n size ⟨f.k, f.kp⟩) pa).2 id
        { f with kld := f.kld ++
            (d.addUniform (.fet id) [] f.pc 0 (uniformAccessOf i store kd ka n size ⟨f.k, f.kp⟩) pa).1 } 4)) := by
  have go := checkUniform_go (u := uniformAccessOf i store kd ka n size ⟨f.k, f.kp⟩) translated s.host
  rw [exec_uniformAccess h, Dev.uniformAccess, issueEither_fet hr]
  simp only [go]

end UniformForm

/-! ## setperf, vtag and coll -/

/-- R347, R356: the view tag of a group. -/
theorem viewTag_group (slot : Nat) (group : BitVec 16) : s.dev.viewTag slot group = groupTag s slot group.toNat := by
  unfold Dev.viewTag groupTag
  cases Table.find? (s.dev.context slot).groups group.toNat with
  | none => rfl
  | some g =>
    apply BitVec.eq_of_toNat_eq
    have := g.gen.isLt
    have := group.isLt
    simp only [append_toNat, BitVec.toNat_ofNat]
    omega

theorem exec_vtag_warp {kd : BitVec 6} {group : BitVec 16}
    (h : Ready s id w sp { blind 8 0 0 with regs := [kd.toNat, kd.toNat + 1] }) :
    exec (.vtag kd group) s = .next (issued s id
      { w with k := kSet64 w.k kd.toNat (groupTag s (s.dev.slotOf w.team) group.toNat) } (after sp 8 0 0)) := by
  have slot : s.dev.partySlot s.dev.issuer = s.dev.slotOf w.team := by
    rw [h.issues.issuer]
    exact congrArg (fun w => (Option.map (fun w => s.dev.slotOf (Warp.team w)) w).getD 64) h.issues.warp
  change execVtag kd group s = _
  unfold execVtag
  rw [run_eq, uniform_warp h, slot, viewTag_group]
  rfl

theorem exec_vtag_fet {kd : BitVec 6} {group : BitVec 16} (h : IssuesFet s id f [kd.toNat, kd.toNat + 1]) :
    exec (.vtag kd group) s = .next (issuedFet s id
      { f with k := kSet64 f.k kd.toNat (groupTag s (s.dev.slotOf f.team) group.toNat) } 8) := by
  have slot : s.dev.partySlot s.dev.issuer = s.dev.slotOf f.team := by
    rw [h.issuer]
    exact congrArg (fun f => (Option.map (fun f => s.dev.slotOf (Fet.team f)) f).getD 64) h.fet
  change execVtag kd group s = _
  unfold execVtag
  rw [run_eq, uniform_fet h, slot, viewTag_group]
  rfl

/-- R354: a descriptor whose address is good. -/
theorem collChecks_none {desc : Dword} (low : desc.toNat < 2 ^ 57) (aligned : desc.toNat % 128 = 0) :
    firstBad (collChecks desc) = none := by
  refine firstBad_none fun c hc => ?_
  rcases List.mem_pair.1 hc with rfl | rfl
  · exact decide_eq_false (Nat.not_le.2 low)
  · simp [aligned]

theorem exec_coll_warp {k : BitVec 6} {ring : BitVec 3} {tag : BitVec 16}
    (h : Ready s id w sp { blind 8 0 0 with regs := [k.toNat, k.toNat + 1] }) (room : cntGet w.cnt 3 < 255)
    (low : (kGet64 w.k k.toNat).toNat < 2 ^ 57) (aligned : (kGet64 w.k k.toNat).toNat % 128 = 0) :
    exec (.coll k ring tag) s = .next (issued
      (collQueued s (.warp id) w.team sp.pc sp.mask (s.dev.warpEarlier id w) (kGet64 w.k k.toNat) ring.toNat tag)
      id { w with cnt := counted w.cnt 3 } (after sp 8 0 0)) := by
  change execColl k ring tag s = _
  unfold execColl
  simp only [run_eq, issueEither_warp h, if_neg (Nat.not_le.2 room), collChecks_none low aligned]
  rfl

theorem exec_coll_fet {k : BitVec 6} {ring : BitVec 3} {tag : BitVec 16} (h : IssuesFet s id f [k.toNat, k.toNat + 1])
    (room : cntGet f.cnt 3 < 255) (low : (kGet64 f.k k.toNat).toNat < 2 ^ 57) (aligned : (kGet64 f.k k.toNat).toNat % 128 = 0) :
    exec (.coll k ring tag) s = .next (issuedFet
      (collQueued s (.fet id) f.team f.pc 0 (s.dev.earlier (.fet id) 0) (kGet64 f.k k.toNat) ring.toNat tag)
      id { f with cnt := counted f.cnt 3 } 8) := by
  change execColl k ring tag s = _
  unfold execColl
  simp only [run_eq, issueEither_fet h, if_neg (Nat.not_le.2 room), collChecks_none low aligned]
  rfl

theorem exec_setperf_warp {ka : BitVec 6} (h : Ready s id w sp { blind 4 0 0 with regs := [ka.toNat] }) :
    exec (.setperf ka) s = .next (issued s id { w with perf := Nat.min (kGet w.k ka.toNat).toNat 7 } (after sp 4 0 0)) := by
  change execSetperf ka s = _
  unfold execSetperf
  simp only [run_eq, issueEither_warp h]
  rfl

theorem exec_setperf_fet {ka : BitVec 6} (h : IssuesFet s id f [ka.toNat]) :
    exec (.setperf ka) s = .next (issuedFet (withDev s ((s.dev.teamWarps f.team).foldl (fun d i =>
      d.onWarp i fun w => { w with perf := Nat.min (kGet f.k ka.toNat).toNat 7 }) s.dev)) id f 4) := by
  change execSetperf ka s = _
  unfold execSetperf
  simp only [run_eq, issueEither_fet h]
  rfl

/-- Settles O25: the words of a `kld` or `kst` one by one; and the other instructions in their two places. -/
theorem uniformUnitResults : Obligations.UniformUnitResults := by
  unfold Obligations.UniformUnitResults
  refine ⟨fun i store kd ka n size hs hi => ⟨?_, ?_⟩, ?_, ?_, ?_⟩
  · intro s id w sp pa d hr
    dsimp only
    intro translated
    have form : UniformForm i store kd ka n size := ⟨hs, hi⟩
    obtain ⟨⟨as, k, ws, only⟩, regs, found⟩ :=
      addUniform_spec d (.warp id) w.marks sp.pc sp.mask (uniformAccessOf i store kd ka n size ⟨w.k, w.kp⟩) pa
    refine ⟨_, _, exec_uniform_warp form hr translated, ?_, warp?_commit .., rfl, rfl, rfl, rfl, ?_, fun part hp => ?_⟩
    · exact (congrArg Dev.mem only :)
    · exact (List.map_append ..).trans (congrArg _ (regs.trans (uniform_regs _)))
    · exact uniform_issued (u := ⟨w.k, w.kp⟩) (found part (by rw [uniform_parts]; exact hp))
  · intro s id f pa d hr
    dsimp only
    intro translated
    have form : UniformForm i store kd ka n size := ⟨hs, hi⟩
    obtain ⟨⟨as, k, ws, only⟩, regs, found⟩ :=
      addUniform_spec d (.fet id) [] f.pc 0 (uniformAccessOf i store kd ka n size ⟨f.k, f.kp⟩) pa
    refine ⟨_, _, exec_uniform_fet form hr translated, ?_, Table.find?_set_self .., rfl, ?_, fun part hp => ?_⟩
    · exact (congrArg Dev.mem only :)
    · exact (List.map_append ..).trans (congrArg _ (regs.trans (uniform_regs _)))
    · exact uniform_issued (u := ⟨f.k, f.kp⟩) (found part (by rw [uniform_parts]; exact hp))
  · exact fun ka => ⟨fun s id w sp h => exec_setperf_warp h, fun s id f h => exec_setperf_fet h⟩
  · exact fun kd group => ⟨fun s id w sp h => exec_vtag_warp h, fun s id f h => exec_vtag_fet h⟩
  · exact fun k ring tag => ⟨fun s id w sp h room low aligned => exec_coll_warp h room low aligned,
      fun s id f h room low aligned => exec_coll_fet h room low aligned⟩

end Sys2Proof.Proofs
end

section
/-! PROOF. The front-end context's own instructions (R216, R218, R219, R457). -/

namespace Sys2Proof.Proofs

open Sys2Proof Sys2Proof.Machine Sys2Proof.Safety

variable {s : Machine.State} {id : Nat} {f : Fet} {d : Dev}

/-- R142: an instruction that only a front-end context may issue. -/
theorem issueFet_ready {regs : List Nat} (h : IssuesFet s id f regs) (hp : HostPart) (k : Nat → Fet → Dev) :
    s.dev.issueFet hp regs k = k id f := by
  have loaded : (f.kld.any fun e => regs.contains e.1) = false := by
    rw [List.any_eq_false]
    intro e he
    simpa using h.loaded e he
  unfold Dev.issueFet
  simp only [h.issuer, h.fet, loaded, Bool.false_eq_true, if_false]

/-! ## agen -/

/-- R217: no stream into the channel has reads left. -/
theorem streams_read {ch : Nat} (h : ∀ st ∈ f.streams, st.ch = ch → st.pending ≠ [] ∧ st.count ≤ st.elem + 1) :
    (f.streams.any fun st => st.ch == ch && !st.allRead) = false := by
  rw [List.any_eq_false]
  intro st hst busy
  simp only [Bool.and_eq_true, beq_iff_eq, Bool.not_eq_true', Stream.allRead, Bool.and_eq_false_iff, decide_eq_false_iff_not,
    List.isEmpty_iff, Bool.not_eq_false'] at busy
  obtain ⟨same, left⟩ := busy
  obtain ⟨pending, last⟩ := h st hst same
  rcases left with none | more
  · exact pending none
  · exact more last

/-- R216: a stream of no elements has a count of 0. -/
theorem exec_agen {ch : BitVec 3} {ka : BitVec 6} (h : IssuesFet s id f ((List.range 8).map (ka.toNat + ·)))
    (mode : (kGet f.k (ka.toNat + 7)).toNat < 3)
    (streams : ∀ st ∈ f.streams, st.ch = ch.toNat → st.pending ≠ [] ∧ st.count ≤ st.elem + 1) :
    exec (.agen ch ka) s = .next (issuedFet (withDev s { s.dev with nextId := s.dev.nextId + 1 }) id
      { f with streams := if kGet f.k (ka.toNat + 2) = 0 then f.streams
          else f.streams ++ [streamOf f.k ka.toNat ch.toNat f.pc s.dev.nextId []] } 4) := by
  have zero : (kGet f.k (ka.toNat + 2)).toNat = 0 ↔ kGet f.k (ka.toNat + 2) = 0 := by
    rw [← BitVec.toNat_inj]
    rfl
  change execAgen ch ka s = _
  unfold execAgen
  simp only [run_eq, issueFet_ready h, if_neg (Nat.not_le.2 mode), streams_read streams, Bool.false_eq_true, if_false]
  simp only [← zero]
  rfl

/-! ## dqpush and its entry -/

theorem exec_dqpush {ka : BitVec 6} (h : IssuesFet s id f [ka.toNat])
    (room : ∀ i ∈ s.dev.receivers f.team, ∀ w, s.dev.warp? i = some w →
      w.place ≠ .evicted ∧ w.ch15.length + (s.dev.decisions.filter fun e => e.2.team == f.team).length < 16) :
    exec (.dqpush ka) s = .next (issuedFet (withDev s { s.dev with
      nextId := s.dev.nextId + 1
      decisions := Table.set s.dev.decisions s.dev.nextId
        ⟨id, f.team, kGet f.k ka.toNat, s.dev.earlier (.fet id) 0xFFFFFFFF⟩ }) id f 4) := by
  have home : (s.dev.receivers f.team).any (fun i => ((s.dev.warp? i).map fun w => w.place == .evicted).getD false) = false := by
    rw [List.any_eq_false]
    intro i hi
    cases hw : s.dev.warp? i with
    | none => simp
    | some w => simpa using (room i hi w hw).1
  have space : (s.dev.receivers f.team).any (fun i =>
      ((s.dev.warp? i).map fun w => decide (16 ≤ w.ch15.length + s.dev.decisionsFor f.team)).getD false) = false := by
    rw [List.any_eq_false]
    intro i hi
    cases hw : s.dev.warp? i with
    | none => simp
    | some w =>
      simp only [Option.map_some, Option.getD_some, decide_eq_true_eq, Nat.not_le]
      exact (room i hi w hw).2
  change execDqpush ka s = _
  unfold execDqpush
  simp only [run_eq, issueFet_ready h, home, space, Bool.false_eq_true, if_false]
  rfl

/-- R218, R457: an entry leaves the hold window. -/
theorem exec_releaseEntry {n : Nat} {e : Decision} (own : OwnName s.dev n) (request : noRequest s.dev n)
    (arrival : Table.find? s.dev.arrivals n = none) (he : Table.find? s.dev.decisions n = some e)
    (oldest : List.find? (fun (x : Nat × Decision) => x.2.fet == e.fet) s.dev.decisions = some (n, e)) :
    exec (.holdWindowRelease n) s = .next (withDev s (s.dev.releaseDecision n e)) := by
  obtain ⟨access, engine, copy, coll⟩ := ownName_releases own
  have queue : s.dev.releaseQueue s.host n = none := congrArg (Option.map _) (requestNamed_none request)
  have none : s.dev.releaseArrival n = none := congrArg (Option.map _) arrival
  have entry : s.dev.releaseEntry n = some (s.dev.releaseDecision n e) := by
    unfold Dev.releaseEntry
    rw [he, Option.map_some, oldest]
    simp
  change execHoldWindowRelease n s = _
  unfold execHoldWindowRelease
  rw [run_eq, access, engine, copy, coll, queue, none, entry]
  rfl

/-- R404: none of its receivers is evicted. -/
theorem releaseDecision_ready {n : Nat} {e : Decision}
    (home : ∀ i ∈ d.receivers e.team, ∀ w, d.warp? i = some w → w.place ≠ .evicted) :
    d.releaseDecision n e = (d.receivers e.team).foldl
      (fun d i => d.onWarp i fun w => { w with ch15 := w.ch15 ++ [(e.word, e.deps)] })
      { d with decisions := Table.erase d.decisions n } := by
  have none : (d.receivers e.team).any (fun i => ((d.warp? i).map fun w => w.place == .evicted).getD false) = false := by
    rw [List.any_eq_false]
    intro i hi
    cases hw : d.warp? i with
    | none => simp
    | some w => simpa using home i hi w hw
  unfold Dev.releaseDecision
  simp only [none, Bool.false_eq_true, if_false]

/-! ## fetend -/

theorem exec_fetend (h : IssuesFet s id f []) : exec .fetend s = .next (issuedFet s id { f with ended := true } 4) := by
  have ended : (s.dev.commitFet id f 4).onFet id (fun f => { f with ended := true }) =
      s.dev.commitFet id { f with ended := true } 4 := by
    have found : Table.find? (s.dev.commitFet id f 4).fets id = some { f with pc := f.pc + BitVec.ofNat 57 4, stalled := none } :=
      Table.find?_set_self ..
    rw [onFet_eq found]
    unfold Dev.setFet Dev.commitFet Dev.setFet
    simp only [Table_set_set]
  change execFetend s = _
  unfold execFetend
  rw [run_eq, issueFet_ready h, ended]
  rfl

/-- Settles O26: each instruction of the context, and the entry as it leaves its window. -/
theorem frontEndResults : Obligations.FrontEndResults := by
  unfold Obligations.FrontEndResults
  refine ⟨fun ch ka s id f h mode streams => exec_agen h mode streams, fun ka s id f h room => exec_dqpush h room,
    fun s n e own request arrival he oldest home => ?_, fun s id f h => exec_fetend h⟩
  rw [exec_releaseEntry own request arrival he oldest, releaseDecision_ready home]

end Sys2Proof.Proofs
end

section
/-! PROOF. `brk` and `trap`: the trap of a warp with nothing in flight (R203, R387, R389, R393). -/

namespace Sys2Proof.Proofs

open Sys2Proof Sys2Proof.Machine Sys2Proof.Safety

variable {s : Machine.State} {id : Nat} {w : Warp} {sp : Split} {d : Dev}

/-! ## Uniform registers -/

theorem kGet_kSet_self (k : List Word) (n : Nat) (v : Word) : kGet (kSet k n v) n = v := getD_putAt_self 0 k n v

theorem kGet_kSet_of_ne (k : List Word) {m n : Nat} (v : Word) (h : m ≠ n) : kGet (kSet k n v) m = kGet k m :=
  getD_putAt_of_ne 0 k v h

/-- A 64-bit value is its high half above its low half. -/
theorem high_append_low (v : Dword) : v.extractLsb' 32 32 ++ v.extractLsb' 0 32 = v := by
  apply BitVec.eq_of_toNat_eq
  have := v.isLt
  simp only [append_toNat, BitVec.extractLsb'_toNat, Nat.shiftRight_eq_div_pow]
  omega

theorem kGet64_kSet64 (k : List Word) (n : Nat) (v : Dword) : kGet64 (kSet64 k n v) n = v := by
  unfold kGet64 kSet64
  rw [kGet_kSet_self, kGet_kSet_of_ne _ _ (Nat.succ_ne_self n).symm, kGet_kSet_self, high_append_low]

/-! ## A warp with nothing in flight -/

/-- R387: no access of the warp is among those in flight. -/
theorem quiet_accesses (h : Quiet d id) {p : Nat × Access → Bool} :
    (d.accesses.filter fun e => e.2.party == Party.warp id && p e) = [] := by
  rw [List.filter_eq_nil_iff]
  intro e he hp
  simp only [Bool.and_eq_true, beq_iff_eq] at hp
  exact h.1 e he hp.1

/-- R387: so none of its accesses is unfinished. -/
theorem quiet_unfinished (h : Quiet d id) : d.unfinishedAccesses (.warp id) = [] := by
  have none : ∀ es : List (Nat × Access), (∀ e ∈ es, e ∈ d.accesses) → es.foldl (fun acc e =>
      if e.2.party == Party.warp id && e.2.result.isNone &&
          ((e.2.pa.isNone && e.2.parked) || e.2.cause != 0 || e.2.deps.any acc.contains ||
            d.accesses.any fun f => acc.contains f.1 && f.2.before e.2) then acc ++ [e.1]
      else acc) [] = [] := by
    intro es
    induction es with
    | nil => intro _; rfl
    | cons e es ih =>
      intro inside
      have other : (e.2.party == Party.warp id) = false := by simpa using h.1 e (inside e List.mem_cons_self)
      rw [List.foldl_cons, other]
      exact ih fun e he => inside e (List.mem_cons_of_mem _ he)
  exact none d.accesses fun _ he => he

theorem quiet_trapReady (h : Quiet d id) : d.trapReady id = true := by
  obtain ⟨accesses, copies, polls⟩ := h
  have polling : d.polling id = false := by
    unfold Dev.polling
    rw [List.any_eq_false]
    intro p hp
    simpa using polls p hp
  have writes : (d.bufferWrites.all fun b => b.warp != id) = true := by
    rw [List.all_eq_true]
    intro b hb
    rw [bne_iff_ne]
    rcases List.mem_append.1 hb with hb | hb
    · obtain ⟨q, hq, rfl⟩ := List.mem_map.1 hb
      exact copies q hq
    · obtain ⟨p, hp, hb⟩ := List.mem_flatMap.1 hb
      obtain ⟨l, _, rfl⟩ := List.mem_map.1 hb
      exact polls p hp
  have all : (d.accesses.all fun e => e.2.party != Party.warp id || ([] : List Nat).contains e.1) = true := by
    rw [List.all_eq_true]
    intro e he
    simpa using accesses e he
  unfold Dev.trapReady
  rw [quiet_unfinished ⟨accesses, copies, polls⟩]
  simp only [all, writes, polling, Bool.not_false, Bool.and_self]

theorem quiet_replayQueue (h : Quiet d id) (w : Warp) : d.replayQueue id w = [] := by
  unfold Dev.replayQueue
  rw [quiet_unfinished h]
  simp

theorem quiet_queuedCause (h : Quiet d id) (p : Posted) : d.queuedCause id p = p := by
  unfold Dev.queuedCause
  rw [quiet_accesses h]
  rfl

theorem quiet_parkedAll (h : Quiet d id) (w : Warp) : d.parkedAll id w = w :=
  parkedAll_none (fun e he mine => absurd mine (h.1 e he)) w

/-- R387, R393: a warp with nothing in flight takes its trap: its cells are spilled, the frame is written to the handler area, and
it enters its handler. -/
theorem takeTrap_quiet {hp : HostPart} {p : Posted} {l : Launch} {d₁ d₂ : Dev} (hw : d.warp? id = some w) (hh : w.handler = none)
    (hq : Quiet d id) (posted : w.posted = [p]) (hl : d.launchOf w.team = some l)
    (area : (savedDev d id w).areaWritable hp (d.slotOf w.team) w.core (d.handlerBase w.team w.w) = .ok d₁)
    (frame : d₁.writeVa hp (d.slotOf w.team) w.core (d.handlerBase w.team w.w) (trapFrame (savedWarp d id w) p []) = .ok d₂) :
    d.takeTrap hp id p = d₂.setWarp id
      ((savedWarp d id w).enterHandler (BitVec.ofNat 57 l.record.trapEntry.toNat) (d.handlerBase w.team w.w) p.cause [] []) := by
  have idle : (d.accesses.filter fun e =>
      !((d.unfinishedAccesses (.warp id)).contains e.1 && decide (e.2.lane < 32))) = d.accesses := by
    rw [quiet_unfinished hq]
    simp
  have held : ((w.posted.filter fun q => q.stamp != p.stamp || q.erec != p.erec).filter fun q => !inQueue [] q) = [] := by
    rw [posted]
    simp
  have entry : ((d.launchOf w.team).map fun l => BitVec.ofNat 57 l.record.trapEntry.toNat).getD 0 =
      BitVec.ofNat 57 l.record.trapEntry.toNat := by
    rw [hl]
    rfl
  unfold Dev.takeTrap
  simp only [hw, hh, Option.isSome_none, Bool.false_eq_true, if_false, quiet_queuedCause hq, quiet_parkedAll hq,
    quiet_replayQueue hq, idle]
  split
  next f failed => nomatch area.symm.trans failed
  next d₁' reached =>
    obtain rfl : d₁ = d₁' := Except.ok.inj (area.symm.trans reached)
    split
    next f failed => nomatch frame.symm.trans failed
    next d₂' written =>
      obtain rfl : d₂ = d₂' := Except.ok.inj (frame.symm.trans written)
      exact congrArg₂ (fun entry held =>
        d₂.setWarp id ((savedWarp d id w).enterHandler entry (d.handlerBase w.team w.w) p.cause held [])) entry held

/-! ## The handler -/

/-- R387: a trap leaves the threads of its warp where they are. -/
theorem savedWarp_threads (d : Dev) (id : Nat) (w : Warp) : (savedWarp d id w).threads = w.threads := rfl

/-- R393: the warp as it enters its handler. -/
theorem enterHandler_spec (d : Dev) (id : Nat) (w : Warp) (entry : Va) (base : Nat) (cause : BitVec 8) :
    inHandler w ((savedWarp d id w).enterHandler entry base cause [] []) entry base cause := by
  refine ⟨rfl, rfl, rfl, rfl, rfl, ?_, ?_, rfl⟩
  · change kGet64 (kSet (kSet64 w.k 0 (BitVec.ofNat 64 base)) 2 (BitVec.setWidth 32 cause)) 0 = _
    unfold kGet64
    rw [kGet_kSet_of_ne _ _ (by decide), kGet_kSet_of_ne _ _ (by decide)]
    exact kGet64_kSet64 w.k 0 _
  · change kGet (kSet (kSet64 w.k 0 (BitVec.ofNat 64 base)) 2 (BitVec.setWidth 32 cause)) 2 = _
    rw [kGet_kSet_self]
    apply BitVec.eq_of_toNat_eq
    simp

/-! ## brk and trap -/

theorem exec_trapInstruction {i : Instr} {bytes : Nat} {cause : BitVec 8} {code : BitVec 16}
    (hi : (∃ b c, i = .brk b c ∧ bytes = 2 ∧ cause = 0x17 ∧ code = BitVec.setWidth 16 c) ∨
      (∃ b, i = .trap b code ∧ bytes = 4 ∧ cause = 0x16)) (h : Ready s id w sp (Need.of bytes false 0 0)) :
    exec i s = .next (withDev s
      ((withTrap s id ⟨s.dev.nextId, cause, 0, code, sp.mask, sp.pc, 0, 0, []⟩).deliver s.host id)) := by
  rcases hi with ⟨b, c, rfl, rfl, rfl, rfl⟩ | ⟨b, rfl, rfl, rfl⟩
  · change execBrk b c s = _
    unfold execBrk
    rw [run_eq, issueWarp_ready h]
    rfl
  · change Machine.execTrap b code s = _
    unfold Machine.execTrap
    rw [run_eq, issueWarp_ready h]
    rfl

/-- R387, R392: the warp takes the one trap that waits for it. -/
theorem deliver_single {hp : HostPart} {p : Posted} (hw : d.warp? id = some w) (place : w.place = .resident)
    (posted : w.posted = [p]) (ready : d.trapReady id = true) : d.deliver hp id = d.takeTrap hp id p := by
  unfold Dev.deliver
  simp only [hw, posted, oldestPosted, place, ready, beq_self_eq_true, Bool.or_true, Bool.and_self, if_true]

/-- Settles O27: the trap is taken at once. -/
theorem trapInstructionsEnterHandler : Obligations.TrapInstructionsEnterHandler := by
  unfold Obligations.TrapInstructionsEnterHandler
  intro i bytes cause code hi s id w sp l d d' h hh place none quiet hl
  have next := exec_trapInstruction hi h
  have hc : (⟨s.dev.nextId, cause, 0, code, sp.mask, sp.pc, 0, 0, []⟩ : Posted).cause = cause := rfl
  generalize (⟨s.dev.nextId, cause, 0, code, sp.mask, sp.pc, 0, 0, []⟩ : Posted) = p at next hc ⊢
  dsimp only
  intro area frame
  have found : (withTrap s id p).warp? id = some { w with posted := [p] } := by
    refine (Dev.warp?_onWarp ..).trans ?_
    rw [show s.dev.fresh.2.warp? id = some w from h.issues.warp, Option.map_some, none]
    rfl
  have still : Quiet (withTrap s id p) id := quiet
  have taken := takeTrap_quiet found hh still rfl hl area frame
  rw [deliver_single found place rfl (quiet_trapReady still), taken, hc] at next
  exact ⟨_, _, next, rfl, Dev.warp?_setWarp .., enterHandler_spec (withTrap s id p) id { w with posted := [p] } ..⟩

end Sys2Proof.Proofs
end

section
/-! PROOF. The return from a trap (R395, R396). -/

namespace Sys2Proof.Proofs

open Sys2Proof Sys2Proof.Machine Sys2Proof.Safety

variable {s : Machine.State} {id : Nat} {w : Warp} {sp : Split} {d : Dev} {hd : Handler} {bs : List Byte}

/-! ## Splits in order of their lowest lanes -/

theorem insertSplit_perm (x : Split) (ss : List Split) : (insertSplit x ss).Perm (x :: ss) := by
  induction ss with
  | nil => exact List.Perm.refl _
  | cons t ts ih =>
    unfold insertSplit
    split
    · exact List.Perm.refl _
    · exact (ih.cons t).trans (List.Perm.swap x t ts)

theorem sortSplits_perm (ss : List Split) : (sortSplits ss).Perm ss := by
  induction ss with
  | nil => exact List.Perm.refl _
  | cons x ss ih => exact (insertSplit_perm x (sortSplits ss)).trans (ih.cons x)

/-! ## The resumed splits (R389, R395) -/

/-- R395: the split of a record, after those of the records before it. -/
def resumed (d : Dev) (w : Warp) (saved : List Split) (join : List Mask) (before : List (Split × Nat)) (r : SplitRecord) :
    Split × Nat :=
  (⟨r.mask, BitVec.ofNat 57 (r.block + r.off), 0, ageOf saved r.mask,
    resumeState d w join before (BitVec.ofNat 57 (r.block + r.off)) r⟩, r.depth)

variable {saved : List Split} {join : List Mask}

theorem resumeSplits_append (rs : List SplitRecord) (r : SplitRecord) :
    resumeSplits d w saved join (rs ++ [r]) =
      resumeSplits d w saved join rs ++ [resumed d w saved join (resumeSplits d w saved join rs) r] := by
  unfold resumeSplits
  rw [List.foldl_append]
  rfl

/-- R395: one split for each record. -/
theorem resumeSplits_length (rs : List SplitRecord) : (resumeSplits d w saved join rs).length = rs.length := by
  induction rs using List.reverseRecOn with
  | nil => rfl
  | append_singleton rs r ih => rw [resumeSplits_append, List.length_append, List.length_append, ih]; rfl

/-- R395: every resumed split is that of a record. -/
theorem mem_resumeSplits {rs : List SplitRecord} {b : Split × Nat} (hb : b ∈ resumeSplits d w saved join rs) :
    ∃ r ∈ rs, ∃ before, b = resumed d w saved join before r := by
  induction rs using List.reverseRecOn with
  | nil => nomatch hb
  | append_singleton rs r ih =>
    rw [resumeSplits_append] at hb
    rcases List.mem_append.1 hb with hb | hb
    · obtain ⟨r', hr', before, same⟩ := ih hb
      exact ⟨r', List.mem_append_left _ hr', before, same⟩
    · exact ⟨r, List.mem_append_right _ (List.mem_singleton_self r), _, List.mem_singleton.1 hb⟩

/-- R395: the split of the n-th record comes after those of the records before it. -/
theorem resumed_mem (f : Nat → SplitRecord) {n k : Nat} (h : n < k) :
    resumed d w saved join (resumeSplits d w saved join ((List.range n).map f)) (f n) ∈
      resumeSplits d w saved join ((List.range k).map f) := by
  induction k with
  | zero => omega
  | succ k ih =>
    rw [List.range_succ, List.map_append, List.map_singleton, resumeSplits_append]
    rcases Nat.lt_succ_iff_lt_or_eq.1 h with lt | rfl
    · exact List.mem_append_left _ (ih lt)
    · exact List.mem_append_right _ (List.mem_singleton_self _)

/-! ## The state of a resumed split (R395) -/

variable {before : List (Split × Nat)} {pc : Va} {r : SplitRecord}

theorem resumeState_ready (h : r.state = 0 ∨ r.state = 3 ∨ r.state = 4) : resumeState d w join before pc r = .ready := by
  unfold resumeState
  rcases h with h | h | h <;> simp only [h]

theorem resumeState_join {b : Bool} {k : BitVec 7} {top : Mask} {rest : List Mask} (h : r.state = 1) (hj : join = top :: rest)
    (hi : d.instrAt (d.slotOf w.team) w.core pc = some (.join b k)) :
    resumeState d w join before pc r = if r.mask &&& top = r.mask ∧ k.toNat = r.depth then .join else .ready := by
  unfold resumeState
  rw [h, hj]
  simp only [List.head?_cons, hi, Bool.and_eq_true, beq_iff_eq]

theorem resumeState_wsync_or (h : r.state = 2) :
    resumeState d w join before pc r = .wsync ∨ resumeState d w join before pc r = .ready := by
  unfold resumeState
  simp only [h]
  split
  · exact .inr rfl
  · exact .inl rfl

/-- R395: a split waits at a `wsync` only where its record says so. -/
theorem state_of_wsync (h : resumeState d w join before pc r = .wsync) : r.state = 2 := by
  unfold resumeState at h
  split at h
  · split at h
    · split at h <;> nomatch h
    · nomatch h
  · assumption
  · nomatch h

/-- R395: a `wsync` that all splits before it reach with the same depth. -/
theorem resumeState_wsync {rs : List SplitRecord} (h : r.state = 2)
    (same : ∀ r' ∈ rs, r'.state = 2 → BitVec.ofNat 57 (r'.block + r'.off) = pc → r'.depth = r.depth) :
    resumeState d w join (resumeSplits d w saved join rs) pc r = .wsync := by
  have agree : ((resumeSplits d w saved join rs).any fun b => b.1.state == .wsync && b.1.pc == pc && b.2 != r.depth) = false := by
    rw [List.any_eq_false]
    intro b hb differs
    obtain ⟨r', hr', before, rfl⟩ := mem_resumeSplits hb
    simp only [Bool.and_eq_true, beq_iff_eq, bne_iff_ne] at differs
    obtain ⟨⟨waits, here⟩, other⟩ := differs
    exact other (same r' hr' (state_of_wsync waits) here)
  unfold resumeState
  rw [h]
  simp only [agree, Bool.false_eq_true, if_false]

/-! ## The restored stacks (R395) -/

theorem restack_spec (st : List Cell) (depth : Nat) :
    (restack st depth).length = depth ∧ (depth ≤ st.length → restack st depth = st.drop (st.length - depth)) ∧
      (st.length < depth → restack st depth = List.replicate (depth - st.length) (.full 0) ++ st) := by
  unfold restack
  by_cases le : depth ≤ st.length
  · rw [if_pos le]
    refine ⟨?_, fun _ => rfl, fun lt => absurd le (Nat.not_le.2 lt)⟩
    rw [List.length_drop]
    omega
  · rw [if_neg le]
    refine ⟨?_, fun le' => absurd le' le, fun _ => rfl⟩
    rw [List.length_append, List.length_replicate]
    omega

/-- R395: a frame that passes its checks has records of different lanes. -/
theorem frameFault_none (h : d.frameFault w bs = none) : masksCover w.live ((List.range (field bs 24 1)).map (readSplit bs)) = true := by
  unfold Dev.frameFault at h
  dsimp only at h
  split at h
  · nomatch h
  next checks =>
    simp only [Bool.or_eq_true, not_or, Bool.not_eq_true', Bool.not_eq_false] at checks
    obtain ⟨⟨⟨⟨-, cover⟩, -⟩, -⟩, -⟩ := checks
    exact cover

/-- R389: the record of a lane. -/
theorem find?_record {rs : List SplitRecord} (hc : masksCover w.live rs = true) (hr : r ∈ rs) {l : Nat} (hl : r.mask.getLsbD l = true) :
    rs.find? (fun r => r.mask.getLsbD l) = some r := by
  unfold masksCover at hc
  simp only [Bool.and_eq_true, decide_eq_true_eq] at hc
  obtain ⟨⟨-, apart⟩, -⟩ := hc
  cases found : rs.find? fun r => r.mask.getLsbD l with
  | none => exact absurd hl (by simpa using List.find?_eq_none.1 found r hr)
  | some r' =>
    have hl' : r'.mask.getLsbD l = true := by simpa using List.find?_some found
    by_contra other
    have symm : Std.Symm fun a b : SplitRecord => a.mask &&& b.mask = 0 := ⟨fun a b h => (BitVec.and_comm ..).trans h⟩
    have disjoint : r'.mask &&& r.mask = 0 :=
      apart.forall (List.mem_of_find?_eq_some found) hr fun e => other (congrArg some e)
    have bit := congrArg (fun m : Mask => m.getLsbD l) disjoint
    simp [hl, hl'] at bit

/-- R387: the cells of a lane that the trap kept. -/
def keptCells (hd : Handler) (l : Nat) : List Cell := ((hd.saved.find? fun e => e.1 == l).map Prod.snd).getD []

/-- R395: the stack with which a lane resumes. -/
def restoredStack (hd : Handler) (rs : List SplitRecord) (l : Nat) : List Cell :=
  match rs.find? fun r => r.mask.getLsbD l with
  | some r => restack (keptCells hd l) r.depth
  | none => keptCells hd l

theorem restoredStack_record {rs : List SplitRecord} {l : Nat} (h : rs.find? (fun r => r.mask.getLsbD l) = some r) :
    restoredStack hd rs l = restack (keptCells hd l) r.depth := by
  unfold restoredStack
  rw [h]

/-! ## rte -/

/-- R395, R396: `rte` with a frame that passes its checks. -/
theorem exec_rte (h : Ready s id w sp (Need.of 4 false 0 0)) (hh : w.handler = some hd) (earlier : s.dev.earlier (.warp id) w.live = [])
    (read : s.dev.readVa s.host (s.dev.slotOf w.team) w.core (s.dev.handlerBase w.team w.w) 0x2D00 = .ok (bs, d))
    (good : d.frameFault w bs = none) :
    exec .rte s = .next (withDev s
      (((Dev.replayAll id w.replay { d.setWarp id (d.restored w hd bs) with issued := true }).settleWarp id).select id)) := by
  change execRte s = _
  unfold execRte
  rw [run_eq, issueHandler_ready h hh rfl]
  simp only [earlier, List.isEmpty_nil, if_true]
  unfold Dev.returnFromTrap
  simp only [read, good]

/-- Settles O28: the frame's records one by one. -/
theorem returnFromTrap : Obligations.ReturnFromTrap := by
  unfold Obligations.ReturnFromTrap
  intro s id w sp hd bs d h hh earlier read good
  have cover := frameFault_none good
  refine ⟨exec_rte h hh earlier read good, rfl, rfl, rfl, rfl, rfl, rfl, rfl, ?_, ?_, fun n hn => ⟨fun l hl t ht lane => ?_, ?_⟩⟩
  · refine ((sortSplits_perm _).length_eq).trans ?_
    rw [List.length_map, resumeSplits_length, List.length_map, List.length_range]
  · exact List.map_map
  · obtain ⟨u, _, rfl⟩ := List.mem_map.1 ht
    have record := find?_record cover (List.mem_map.2 ⟨n, List.mem_range.2 hn, rfl⟩) hl
    change u.lane = l at lane
    subst lane
    have stack := restack_spec (keptCells hd u.lane) (readSplit bs n).depth
    rw [← restoredStack_record record] at stack
    exact stack
  · have split := (sortSplits_perm _).mem_iff.2 (List.mem_map_of_mem (f := Prod.fst) (resumed_mem (d := d) (w := w) (saved := hd.splits)
      (join := (bytesWords (slice bs 544 64) (field bs 25 1)).reverse) (readSplit bs) hn))
    refine ⟨_, split, rfl, rfl, rfl, resumeState_ready (r := readSplit bs n), fun state b k top rest hj hi => resumeState_join state hj hi,
      fun state => ⟨resumeState_wsync_or state, fun same => resumeState_wsync state fun r' hr' => ?_⟩⟩
    obtain ⟨m, hm, rfl⟩ := List.mem_map.1 hr'
    exact same m (List.mem_range.1 hm)

end Sys2Proof.Proofs
end

section
/-! PROOF. The queue instructions (R331 to R335, R457). -/

namespace Sys2Proof.Proofs

open Sys2Proof Sys2Proof.Machine Sys2Proof.Safety

variable {s : Machine.State} {id : Nat} {w : Warp} {sp : Split} {b : Bool} {port : BitVec 2} {launch q : Nat}

/-- R331: the lanes that take part, with their buffers. -/
theorem queueLanes_eq : queueLanes w sp = takingPart w sp := by
  unfold queueLanes takingPart leaderCell bufferVa
  simp only [topWord_eq, cellsValue_take_drop]
  rfl

/-- R331, R406: good buffers pass their checks. -/
theorem bufferChecks_pass {ls : List (Nat × Dword)} {n : Nat} (h : buffersGood s w ls n) :
    ∀ c ∈ s.dev.bufferChecks w ls n, c.lanes = 0 := by
  have good : ∀ l ∈ ls.map Prod.fst, ∃ va, ((ls.find? fun e => e.1 == l).map Prod.snd).getD 0 = va ∧
      (inSlice w.core va n = true ∨ inSlice (((s.dev.team? w.team).map Team.start).getD w.core) va n = true) ∧ va.toNat % 16 = 0 := by
    intro l hl
    cases found : ls.find? fun e => e.1 == l with
    | none =>
      obtain ⟨e, he, rfl⟩ := List.mem_map.1 hl
      exact absurd (List.find?_eq_none.1 found e he) (by simp)
    | some e => exact ⟨e.2, rfl, h e (List.mem_of_find?_eq_some found)⟩
  intro c hc
  rcases List.mem_pair.1 hc with rfl | rfl
  · refine valueCheck_lanes_zero fun l hl => ?_
    obtain ⟨va, hva, inside, -⟩ := good l hl
    simp only [hva, Bool.and_eq_false_iff, Bool.not_eq_false']
    exact inside
  · refine valueCheck_lanes_zero fun l hl => ?_
    obtain ⟨va, hva, -, aligned⟩ := good l hl
    simp only [hva, aligned, bne_self_eq_false]

/-- R331: a queue instruction whose port binds a queue. -/
theorem issueQueue_ready {n : Need} {out : Bool} (h : Ready s id w sp n)
    (hq : s.dev.portQueue w.team port.toNat out = some (launch, q)) (hp : HostPart) (k : Nat → Nat → Nat → Warp → Split → Dev) :
    s.dev.issueQueue hp n port out k = k launch q id w sp := by
  unfold Dev.issueQueue
  simp only [h.issues.issuer, h.issues.warp, Option.bind_some, hq]
  exact issueWarp_ready h hp _

/-! ## qpush and qeos -/

section Push

variable (hq : s.dev.portQueue w.team port.toNat true = some (launch, q)) (h : Ready s id w sp (Need.of 4 b 3 0))
include hq h

theorem exec_qpush_idle (idle : takingPart w sp = []) :
    exec (.qpush b port) s =
      .next (issued s id (w.onLanes sp.mask fun t => { t with stack := t.stack.drop 3 }) (after sp 4 3 0)) := by
  change execQpush b port s = _
  unfold execQpush
  rw [run_eq, issueQueue_ready (n := queueNeed b 0) h hq]
  simp only [queueLanes_eq, idle, List.isEmpty_nil, if_true]
  rfl

theorem exec_qpush (busy : takingPart w sp ≠ []) (good : buffersGood s w (takingPart w sp) (s.dev.queue launch q).recBytes)
    (open_ : s.dev.pushClosed w.team launch q = false) :
    exec (.qpush b port) s = .next (withDev s (requested s launch q id w sp true (takingPart w sp))) := by
  have checks : firstFailing (s.dev.bufferChecks w (takingPart w sp) (s.dev.queue launch q).recBytes ++
      [⟨0x1B, if s.dev.pushClosed w.team launch q then maskOf ((takingPart w sp).map Prod.fst) else 0, 0⟩]) = none := by
    rw [firstFailing_eq_none]
    intro c hc
    rcases List.mem_append.1 hc with hc | hc
    · exact bufferChecks_pass good c hc
    · obtain rfl := List.mem_singleton.1 hc
      rw [open_]
      rfl
  change execQpush b port s = _
  unfold execQpush
  rw [run_eq, issueQueue_ready (n := queueNeed b 0) h hq]
  simp only [queueLanes_eq, List.isEmpty_eq_false_iff.2 busy, Bool.false_eq_true, if_false, checked_pass checks]
  rfl

end Push

theorem exec_qeos (hq : s.dev.portQueue w.team port.toNat true = some (launch, q)) (h : Ready s id w sp (Need.of 4 false 0 0)) :
    exec (.qeos b port) s = .next (withDev s (((issued s id w (after sp 4 0 0)).dev.onTeam w.team fun t =>
      { t with eos := if q ∈ t.eos then t.eos else t.eos ++ [q] }).settle s.host)) := by
  change execQeos b port s = _
  unfold execQeos
  rw [run_eq, issueQueue_ready h hq]
  simp only [List.contains_iff_mem]
  rfl

/-! ## qpop and qtry -/

/-- R338: the team's handover mark on the queue has been handled. -/
def handedOver (s : Machine.State) (w : Warp) (q : Nat) : Bool := ((s.dev.team? w.team).map fun t => t.marks.contains q).getD false

section Pop

variable (hq : s.dev.portQueue w.team port.toNat false = some (launch, q)) (h : Ready s id w sp (Need.of 4 b 3 1))
  (good : buffersGood s w (takingPart w sp) (s.dev.queue launch q).recBytes)
include hq h good

/-- R333, R334: a pop answers HANDOVER, or IDLE, at once, or asks for records. -/
theorem issuePop_ready (k : Nat → Nat → Nat → Warp → Split → List (Nat × Dword) → Dev) :
    s.dev.issuePop s.host b port k =
      if handedOver s w q then s.dev.commit id (answered w sp fun _ => .full 2) (after sp 4 3 1)
      else if takingPart w sp = [] then s.dev.commit id (answered w sp fun _ => .full 4) (after sp 4 3 1)
      else k launch q id w sp (takingPart w sp) := by
  have checks := firstFailing_eq_none.2 (bufferChecks_pass good)
  unfold Dev.issuePop
  rw [issueQueue_ready (n := queueNeed b 1) h hq]
  simp only [queueLanes_eq, checked_pass checks, List.isEmpty_iff]
  rfl

theorem exec_pop_handed {i : Instr} (hi : i = .qpop b port ∨ i = .qtry b port) (handed : handedOver s w q = true) :
    exec i s = .next (issued s id (answered w sp fun _ => .full 2) (after sp 4 3 1)) := by
  have pop := issuePop_ready hq h good
  simp only [handed, if_true] at pop
  rcases hi with rfl | rfl
  · exact congrArg (fun d => Host.Outcome.next (withDev s d)) (pop _)
  · exact congrArg (fun d => Host.Outcome.next (withDev s d)) (pop _)

theorem exec_pop_idle {i : Instr} (hi : i = .qpop b port ∨ i = .qtry b port) (handed : handedOver s w q = false)
    (idle : takingPart w sp = []) : exec i s = .next (issued s id (answered w sp fun _ => .full 4) (after sp 4 3 1)) := by
  have pop := issuePop_ready hq h good
  simp only [handed, idle, Bool.false_eq_true, if_false, if_true] at pop
  rcases hi with rfl | rfl
  · exact congrArg (fun d => Host.Outcome.next (withDev s d)) (pop _)
  · exact congrArg (fun d => Host.Outcome.next (withDev s d)) (pop _)

theorem exec_qpop (handed : handedOver s w q = false) (busy : takingPart w sp ≠ []) :
    exec (.qpop b port) s = .next (withDev s (requested s launch q id w sp false (takingPart w sp))) := by
  have pop := issuePop_ready hq h good
  simp only [handed, busy, Bool.false_eq_true, if_false] at pop
  exact congrArg (fun d => Host.Outcome.next (withDev s d)) (pop _)

theorem exec_qtry (handed : handedOver s w q = false) (busy : takingPart w sp ≠ []) :
    exec (.qtry b port) s = .next (withDev s ((issued
      (withDev s ({ s.dev with nextId := s.dev.nextId + 1 }.onQueue launch q fun u => { u with requests := u.requests ++
        [(⟨s.dev.nextId, id, false, takingPart w sp, s.dev.bufferWaits id w (takingPart w sp) (s.dev.queue launch q).recBytes,
          s.dev.warpEarlier id w, some (sp.mask, sp.pc), true⟩ : QueueRequest)] }))
      id (answered w sp fun _ => .empty s.dev.nextId) (after sp 4 3 1)).dev.mark id
        ⟨maskOf ((takingPart w sp).map Prod.fst), [s.dev.nextId], 0, []⟩)) := by
  have pop := issuePop_ready hq h good
  simp only [handed, busy, Bool.false_eq_true, if_false] at pop
  exact congrArg (fun d => Host.Outcome.next (withDev s d)) (pop _)

end Pop

/-- Settles O29: the branches of each instruction. -/
theorem queueInstructionResults : Obligations.QueueInstructionResults := by
  unfold Obligations.QueueInstructionResults
  intro b port s id w sp launch q
  refine ⟨fun hq => ⟨fun h => ⟨exec_qpush_idle hq h, exec_qpush hq h⟩, exec_qeos hq⟩, fun hq h good => ⟨fun i hi => ⟨?_, ?_⟩, ?_⟩⟩
  · exact exec_pop_handed hq h good hi
  · exact exec_pop_idle hq h good hi
  · exact fun handed busy => ⟨exec_qpop hq h good handed busy, exec_qtry hq h good handed busy⟩

end Sys2Proof.Proofs
end

section
/-! PROOF. The commands of a stream (R104 to R112, R248, R375). -/

namespace Sys2Proof.Proofs

open Sys2Proof Sys2Proof.Machine Sys2Proof.Safety

variable {s : Machine.State} {slot n : Nat} {st : CmdStream} {i : Instr} {d : Dev} {tag : BitVec 32}

/-! ## The position of a stream -/

/-- R109: a command outside a graph. -/
theorem command_ready (h : IssuesCommand s slot n st) (hp : HostPart) (k : Nat → Nat → CmdStream → Dev) :
    s.dev.command hp k = k slot n st := by
  unfold Dev.command Dev.asCommand
  simp only [h.issuer, h.stream, h.outside]

/-- R104: a command that has started moves its stream past its words. -/
theorem advance_eq (hp : HostPart) (d : Dev) (slot n : Nat) (i : Instr) : d.advance hp slot n i = past hp d slot n (commandWords i) :=
  rfl

/-! ## Commands that steer their stream -/

section Steering

variable (h : IssuesCommand s slot n st)
include h

theorem exec_phase : exec (.phase tag) s =
    .next (withDev s ((past s.host s.dev slot n 1).onStream slot n fun x => { x with phase := true })) := by
  change execPhase tag s = _
  unfold execPhase
  simp only [run_eq, command_ready h, advance_eq]
  rfl

theorem exec_fenceCommand : exec (.fenceCommand tag) s = .next (withDev s (past s.host s.dev slot n 1)) := by
  change execFenceCommand tag s = _
  unfold execFenceCommand
  simp only [run_eq, command_ready h, advance_eq]
  rfl

theorem exec_loop {count : BitVec 32} (room : st.loops.length < 4) (some : count ≠ 0) :
    exec (.loop tag count) s = .next (withDev s ((past s.host s.dev slot n 2).onStream slot n fun x =>
      { x with loops := (st.rd + 2, count.toNat) :: x.loops })) := by
  change execLoop tag count s = _
  unfold execLoop
  simp only [run_eq, command_ready h, advance_eq, if_neg (Nat.not_le.2 room), if_neg some]
  rfl

theorem exec_loop_zero {word : Nat} (room : st.loops.length < 4)
    (found : s.dev.loopEnd s.host slot st (st.wr - st.rd) (st.rd + 2) 0 = .ok (some word)) :
    exec (.loop tag 0) s = .next (withDev s (s.dev.jumpTo s.host slot n word)) := by
  change execLoop tag 0 s = _
  unfold execLoop
  simp only [run_eq, command_ready h, if_neg (Nat.not_le.2 room), if_true, found]

theorem exec_endloop {word passes : Nat} {rest : List (Nat × Nat)} (loops : st.loops = (word, passes) :: rest) :
    exec (.endloop tag) s = .next (withDev s
      (if 2 ≤ passes then
        (s.dev.jumpTo s.host slot n word).onStream slot n fun x => { x with loops := (word, passes - 1) :: rest }
      else (past s.host s.dev slot n 1).onStream slot n fun x => { x with loops := rest })) := by
  change execEndloop tag s = _
  unfold execEndloop
  simp only [run_eq, command_ready h, advance_eq, loops]
  rfl

theorem exec_ifSkip {va : BitVec 64} {v : Nat} {eqz : Bool} {skip : BitVec 32}
    (read : s.dev.readValue s.host slot (processorCore slot) va.toNat 8 = .ok (v, d)) :
    exec (.ifSkip tag eqz va skip) s =
      .next (withDev s (d.jumpTo s.host slot n (st.rd + 3 + if (v == 0) = eqz then 0 else skip.toNat))) := by
  change execIfSkip tag eqz va skip s = _
  unfold execIfSkip
  simp only [run_eq, command_ready h, read, beq_iff_eq]

omit h in
/-- R107, R108: the condition of a WAIT. -/
theorem waitMet_iff (eq : Bool) (v : Nat) (x : Dword) : waitMet eq v x = true ↔ if eq then v = x.toNat else x.toNat ≤ v := by
  unfold waitMet
  cases eq <;> simp

theorem exec_wait {va x : BitVec 64} {v : Nat} {eq : Bool}
    (read : s.dev.readValue s.host slot (processorCore slot) va.toNat 8 = .ok (v, d)) :
    exec (.wait tag eq va x) s = .next (withDev s
      (if (if eq then v = x.toNat else x.toNat ≤ v) then past s.host d slot n 3
      else (past s.host d slot n 3).onStream slot n fun y => { y with waiting := some (tag, eq, va, x) })) := by
  change execWait tag eq va x s = _
  unfold execWait
  simp only [run_eq, command_ready h, read, advance_eq, waitMet_iff]
  rfl

theorem exec_signal {irq : Bool} {va v : BitVec 64}
    (written : s.dev.writeVa s.host slot (processorCore slot) va.toNat (leBytes 8 v.toNat) = .ok d) :
    exec (.signal tag irq va v) s = .next (withDev s
      (if irq then (past s.host d slot n 3).interrupt s.host slot else past s.host d slot n 3)) := by
  change execSignal tag irq va v s = _
  unfold execSignal
  simp only [run_eq, command_ready h, written, advance_eq]
  rfl

end Steering

theorem exec_waitPoll {eq : Bool} {va x : Dword} {v : Nat} (waits : ((s.dev.context slot).stream n).waiting = some (tag, eq, va, x))
    (read : s.dev.readValue s.host slot (processorCore slot) va.toNat 8 = .ok (v, d)) :
    exec (.waitPoll slot n) s = .next (withDev s
      (if (if eq then v = x.toNat else x.toNat ≤ v) then d.onStream slot n fun y => { y with waiting := none } else d)) := by
  change execWaitPoll slot n s = _
  unfold execWaitPoll
  simp only [run_eq, waits, read, waitMet_iff]

/-- Settles O30: each command, and the poll of an open WAIT. -/
theorem streamControlResults : Obligations.StreamControlResults := by
  unfold Obligations.StreamControlResults
  refine ⟨fun s slot n st tag h => ⟨exec_phase h, exec_fenceCommand h, fun count room => ⟨exec_loop h room, ?_⟩, ?_, ?_, ?_⟩, ?_⟩
  · exact fun word found => exec_loop_zero h room found
  · exact fun word passes rest loops => exec_endloop h loops
  · exact fun va v d read => ⟨fun eqz skip => exec_ifSkip h read, fun eq x => exec_wait h read⟩
  · exact fun irq va v d written => exec_signal h written
  · exact fun s slot n tag eq va x v d waits read => exec_waitPoll waits read

end Sys2Proof.Proofs
end

section
/-! PROOF. Commands that start work, the parts of a graph, and CANCEL, SEAL, CODE_LOAD and CODE_UNLOAD (R107 to R112, R248,
R365, R375). -/

namespace Sys2Proof.Proofs

open Sys2Proof Sys2Proof.Machine Sys2Proof.Safety

variable {s : Machine.State} {slot n : Nat} {st : CmdStream} {i : Instr} {d : Dev} {tag : BitVec 32} {cmd : NodeCommand}

/-! ## Commands of one node -/

/-- R108: a command that runs as a graph of one node. -/
theorem oneNode_ready {words opcode : Nat} (h : IssuesCommand s slot n st) (open_ : s.dev.workCancelled slot = false)
    (hw : commandWords i = words)
    (started : (withNode s slot n st tag opcode cmd).startWork s.host slot s.dev.nextId 0 [] cmd = .ok d) :
    s.dev.oneNode s.host i tag opcode cmd = (past s.host d slot n words).settle s.host := by
  unfold Dev.oneNode
  simp only [command_ready h, open_, Bool.false_eq_true, if_false, advance_eq, hw]
  change (match (withNode s slot n st tag opcode cmd).startWork s.host slot s.dev.nextId 0 [] cmd with
    | .error (.status status, e) =>
      { e with graphs := Table.erase e.graphs s.dev.nextId }.failCommand s.host slot n tag status opcode 0 st.rd
    | .error (.uncorrectable va, e) => e.killSlot s.host slot va
    | .error (.later, _) => s.dev
    | .ok d2 => (past s.host d2 slot n words).settle s.host) = _
  rw [started]

theorem exec_node {words opcode : Nat} (hi : nodeForm i = some (tag, words, opcode, cmd)) (s : Machine.State) :
    commandWords i = words ∧ exec i s = .next (withDev s (s.dev.oneNode s.host i tag opcode cmd)) := by
  cases i
  case launch | launchIndirect | copy =>
    cases hi
    exact ⟨rfl, rfl⟩
  all_goals nomatch hi

/-! ## Graphs -/

theorem exec_graph {nodes edges : BitVec 16} (h : IssuesCommand s slot n st) (nonzero : nodes ≠ 0#16) (few : nodes.toNat ≤ 4096)
    (fewEdges : edges.toNat ≤ 16384) :
    exec (.graph tag nodes edges) s = .next (withDev s ({ s.dev with issued := true }.onStream slot n fun x =>
      { x with rd := st.rd + 2, building := some ⟨tag, st.rd, nodes.toNat, edges.toNat, [], []⟩ })) := by
  have legal : (nodes = 0 || decide (4096 < nodes.toNat) || decide (16384 < edges.toNat)) = false := by
    simp [nonzero, Nat.not_lt.2 few, Nat.not_lt.2 fewEdges]
  obtain rfl := h.stream
  change execGraph tag nodes edges s = _
  unfold execGraph
  simp only [run_eq, command_ready h, legal, Bool.false_eq_true, if_false]
  rfl

/-- R109: a part that may join the graph that is open. -/
theorem joinGraph_ready {b b' : Building} {opcode : Nat} {f : CmdStream → Building → Option Building} (hi : s.dev.issuer = .stream slot n)
    (hb : ((s.dev.context slot).stream n).building = some b) (hf : f ((s.dev.context slot).stream n) b = some b') (hp : HostPart) :
    s.dev.joinGraph hp i tag opcode f = ({ s.dev with issued := true }.onStream slot n fun x =>
      { x with rd := ((s.dev.context slot).stream n).rd + commandWords i, building := some b' }).closeGraph hp slot n b' := by
  unfold Dev.joinGraph Dev.asCommand
  simp only [hi, hb, hf]
  rfl

theorem exec_node_part {b : Building} {index : BitVec 16} (hi : s.dev.issuer = .stream slot n)
    (hb : ((s.dev.context slot).stream n).building = some b) (inRange : index.toNat < b.nodes)
    (new : ∀ e ∈ b.gotNodes, e.1 ≠ index.toNat) {b' : Building}
    (hb' : b' = { b with gotNodes := b.gotNodes ++
      [(index.toNat, ⟨tag, ((s.dev.context slot).stream n).rd, cmd, 0, [], .waiting, []⟩)] }) :
    exec (.node tag index cmd) s = .next (withDev s (({ s.dev with issued := true }.onStream slot n fun x =>
      { x with rd := ((s.dev.context slot).stream n).rd + commandWords (.node tag index cmd), building := some b' }).closeGraph
        s.host slot n b')) := by
  have legal : (decide (b.nodes ≤ index.toNat) || b.gotNodes.any fun e => e.1 == index.toNat) = false := by
    rw [Bool.or_eq_false_iff, List.any_eq_false]
    exact ⟨decide_eq_false (Nat.not_le.2 inRange), fun e he => by simpa using new e he⟩
  change execNode tag index cmd s = _
  unfold execNode
  rw [run_eq, joinGraph_ready hi hb (b' := b')]
  simp only [legal, Bool.false_eq_true, if_false, hb']

theorem exec_edge_part {b : Building} {src dst : BitVec 16} (hi : s.dev.issuer = .stream slot n)
    (hb : ((s.dev.context slot).stream n).building = some b) (read : b.nodes ≤ b.gotNodes.length) (hs : src.toNat < b.nodes)
    (hd : dst.toNat < b.nodes) (differ : src ≠ dst) (new : (src.toNat, dst.toNat) ∉ b.gotEdges) {b' : Building}
    (hb' : b' = { b with gotEdges := b.gotEdges ++ [(src.toNat, dst.toNat)] }) :
    exec (.edge tag src dst) s = .next (withDev s (({ s.dev with issued := true }.onStream slot n fun x =>
      { x with rd := ((s.dev.context slot).stream n).rd + 2, building := some b' }).closeGraph s.host slot n b')) := by
  have apart : src.toNat ≠ dst.toNat := fun same => differ (BitVec.eq_of_toNat_eq same)
  have legal : (decide (b.gotNodes.length < b.nodes) || decide (b.nodes ≤ src.toNat) || decide (b.nodes ≤ dst.toNat) ||
      src.toNat == dst.toNat || b.gotEdges.contains (src.toNat, dst.toNat)) = false := by
    simp [Nat.not_lt.2 read, Nat.not_le.2 hs, Nat.not_le.2 hd, apart, new]
  change execEdge tag src dst s = _
  unfold execEdge
  rw [run_eq, joinGraph_ready hi hb (b' := b')]
  · rfl
  · simp only [legal, Bool.false_eq_true, if_false, hb']

/-- Settles O31: the commands of one node, the GRAPH, and its parts. -/
theorem workCommandResults : Obligations.WorkCommandResults := by
  unfold Obligations.WorkCommandResults
  refine ⟨fun i tag words opcode cmd hi s slot n st d h open_ started => ?_,
    fun s slot n st tag nodes edges h nonzero few fewEdges => exec_graph h nonzero few fewEdges, fun s slot n tag b hi hb => ⟨?_, ?_⟩⟩
  · obtain ⟨hw, meaning⟩ := exec_node hi s
    rw [meaning, oneNode_ready h open_ hw started]
  · exact fun index cmd inRange new => exec_node_part hi hb inRange new rfl
  · exact fun src dst read hs hd differ new => exec_edge_part hi hb read hs hd differ new rfl

/-! ## CANCEL, SEAL, CODE_LOAD and CODE_UNLOAD -/

theorem exec_cancel {unit : BitVec 3} {team : BitVec 32} (h : IssuesCommand s slot n st) (known : unit.toNat ≤ 4)
    (index : unit = 0 ∨ team = 0) :
    exec (.cancel tag unit team) s = .next (withDev s
      (((past s.host s.dev slot n 2).cancelUnits s.host slot tag unit.toNat team.toNat).settle s.host)) := by
  have legal : (decide (4 < unit.toNat) || (unit != 0 && team != 0)) = false := by
    rcases index with rfl | rfl <;> simp [Nat.not_lt.2 known]
  change execCancel tag unit team s = _
  unfold execCancel
  simp only [run_eq, command_ready h, legal, Bool.false_eq_true, if_false, advance_eq]
  rfl

theorem exec_sealCommand {undo : Bool} {base len : BitVec 64} {r : SealRequest} (h : IssuesCommand s slot n st)
    (hr : r = ⟨base.toNat, len.toNat, undo, .stream slot n, 0, tag, st.rd, []⟩)
    (good : r.verdict s.host (s.dev.context slot) = 0) :
    exec (.sealCommand tag undo base len) s = .next (withDev s { past s.host s.dev slot n 3 with
      nextId := (past s.host s.dev slot n 3).nextId + 1
      seals := Table.set (past s.host s.dev slot n 3).seals (past s.host s.dev slot n 3).nextId r }) := by
  have moved : s.dev.advance s.host slot n (.sealCommand tag undo base len) = past s.host s.dev slot n 3 := rfl
  change execSealCommand tag undo base len s = _
  unfold execSealCommand
  simp only [run_eq, command_ready h, ← hr, good, bne_self_eq_false, Bool.false_eq_true, if_false, moved]
  rfl

theorem exec_codeLoad {image bytes report : BitVec 64} {bs : List Byte} {d d2 d3 d4 : Dev} {x : DxoHeader} {ss : List Section}
    {digest : Nat} {t : KernelText} {handle : Nat} {o : CodeObject} (h : IssuesCommand s slot n st)
    (read : (past s.host s.dev slot n 4).readVa s.host slot (processorCore slot) image.toNat bytes.toNat = .ok (bs, d))
    (checked : d.checkImage s.host bs = .ok (x, ss, digest, t, d2))
    (placed : d2.placeImage s.host slot x digest t ((sectionOf bs ss 3).getD []) = some (handle, o, d3))
    (reported : d3.writeVa s.host slot (processorCore slot) report.toNat (loadReport handle o) = .ok d4) :
    exec (.codeLoad tag image bytes report) s = .next (withDev s d4) := by
  have moved : s.dev.advance s.host slot n (.codeLoad tag image bytes report) = past s.host s.dev slot n 4 := rfl
  change execCodeLoad tag image bytes report s = _
  unfold execCodeLoad
  simp only [run_eq, command_ready h, moved, read, checked, placed, reported]

theorem exec_codeUnload_none {forced : Bool} {handle : BitVec 64} (h : IssuesCommand s slot n st)
    (none : Table.find? (past s.host s.dev slot n 2).code handle.toNat = none) :
    exec (.codeUnload tag forced handle) s = .next (withDev s (past s.host s.dev slot n 2)) := by
  have moved : s.dev.advance s.host slot n (.codeUnload tag forced handle) = past s.host s.dev slot n 2 := rfl
  change execCodeUnload tag forced handle s = _
  unfold execCodeUnload
  simp only [run_eq, command_ready h, moved, none]

theorem exec_codeUnload {forced : Bool} {handle : BitVec 64} {o : CodeObject} (h : IssuesCommand s slot n st)
    (found : Table.find? (past s.host s.dev slot n 2).code handle.toNat = some o)
    (free : ∀ e ∈ (past s.host s.dev slot n 2).contexts, (past s.host s.dev slot n 2).references e.1 handle.toNat o = false) :
    exec (.codeUnload tag forced handle) s = .next (withDev s ((past s.host s.dev slot n 2).removeObject handle.toNat o)) := by
  have moved : s.dev.advance s.host slot n (.codeUnload tag forced handle) = past s.host s.dev slot n 2 := rfl
  have users : (((past s.host s.dev slot n 2).contexts.map Prod.fst).filter fun c =>
      (past s.host s.dev slot n 2).references c handle.toNat o) = [] := by
    rw [List.filter_eq_nil_iff]
    intro c hc
    obtain ⟨e, he, rfl⟩ := List.mem_map.1 hc
    simp [free e he]
  change execCodeUnload tag forced handle s = _
  unfold execCodeUnload
  simp only [run_eq, command_ready h, moved, found, users, List.isEmpty_nil, if_true]

/-- Settles O32: each command, one by one. -/
theorem contextCommandResults : Obligations.ContextCommandResults := by
  unfold Obligations.ContextCommandResults
  refine fun s slot n st tag h => ⟨fun unit team known index => exec_cancel h known index,
    fun undo base len good => exec_sealCommand h rfl good, ?_, fun forced handle => ⟨exec_codeUnload_none h, ?_⟩⟩
  · intro image bytes report bs d d2 d3 d4 x ss digest t handle o read checked placed reported
    exact exec_codeLoad h read checked placed reported
  · exact fun o found free => exec_codeUnload h found free

end Sys2Proof.Proofs
end

section
/-! PROOF. Nodes and launches that start, and the rollback of a launch (R110, R113, R462, R463). -/

namespace Sys2Proof.Proofs

open Sys2Proof Sys2Proof.Machine Sys2Proof.Safety

variable {s : Machine.State} {h : HostPart} {d d₁ d₂ : Dev} {slot graph node index launch : Nat} {g : Graph} {x : Node} {l : Launch}
  {record : Dword} {grid : Option Dword} {r : LaunchRecord} {ss : Option StageSet}

theorem exec_nodeStart (hg : Table.find? s.dev.graphs graph = some g) (hx : g.nodes[index]? = some x)
    (ready : s.dev.nodeReady s.host slot graph g x = true)
    (started : (s.dev.setGraph graph { g with nodes := changeAt g.nodes index fun y => { y with state := .running } }).startWork
      s.host slot graph index x.dropped x.cmd = .ok d) :
    exec (.nodeStart slot graph index) s = .next (withDev s (d.settle s.host)) := by
  change execNodeStart slot graph index s = _
  unfold execNodeStart
  simp only [run_eq, hg, Option.bind_some, hx, Option.map_some, ready, Bool.not_true, Bool.false_eq_true, if_false, started]

/-! ## Launches -/

/-- R113: a record that has been read is one that the machine may run. -/
theorem readRecord_allowed (read : d.readRecord h slot record grid = .ok (r, ss, d₁)) : recordAllowed h r = true := by
  by_contra refused
  have bad : recordAllowed h r = false := by simpa using refused
  unfold Dev.readRecord at read
  dsimp only at read
  split at read
  · nomatch read
  · split at read
    · nomatch read
    · split at read
      · nomatch read
      next good =>
        split at read
        · nomatch read
        · split at read
          · cases read
            simp [bad] at good
          · split at read
            · nomatch read
            · split at read
              · nomatch read
              · cases read
                simp [bad] at good

theorem startLaunch_eq (read : d.readRecord h slot record grid = .ok (r, ss, d₁))
    (kept : r.rollback = true → d₁.takeSnapshots h slot = .ok d₂) (plain : r.rollback = false → d₂ = d₁) :
    d.startLaunch h slot graph node [] record grid =
      .ok ({ d₂ with nextId := d₂.nextId + 1 }.setLaunch d₂.nextId (Launch.start slot graph node r ss false)) := by
  have snapshots : (if r.rollback then d₁.takeSnapshots h slot else .ok d₁) = .ok d₂ := by
    cases hr : r.rollback with
    | true => exact kept hr
    | false => rw [plain hr]; rfl
  unfold Dev.startLaunch
  simp only [read, snapshots]
  rfl

/-! ## Rollback -/

theorem exec_rollback (hl : s.dev.launch? launch = some l) (hg : Table.find? s.dev.graphs l.graph = some g)
    (hx : g.nodes[l.node]? = some x) (may : l.rollsBack = true) (open_ : l.complete = false) (kept : l.cancelled = false)
    (halted : s.dev.launchHalted launch = true) (clean : s.dev.imagesPoisoned s.host l.slot = false)
    (read : rereadRecord s.host (unrolled s.host s.dev launch l x) l.slot x.cmd = .ok (r, ss, d)) :
    exec (.rollback launch) s = .next (withDev s
      ((withoutTeams (d.setLaunch launch { Launch.start l.slot l.graph l.node r ss true with relaunched := l.relaunched }) launch
        x.dropped).settle s.host)) := by
  change execRollback launch s = _
  unfold execRollback
  simp only [run_eq, hl, may, open_, kept, halted, Bool.not_true, Bool.or_self, Bool.false_eq_true, if_false, clean, hg,
    Option.bind_some, hx]
  cases stages : l.stages <;> cases command : x.cmd <;>
    simp only [unrolled, rereadRecord, stages, command, Option.map_none, Option.map_some, Option.getD_none, Option.getD_some,
      reduceCtorEq] at read <;>
    simp only [read] <;> rfl

/-- Settles O33: a node that starts, a launch that enters the table, and one that is rolled back. -/
theorem launchResults : Obligations.LaunchResults := by
  unfold Obligations.LaunchResults
  refine ⟨fun s slot graph index g x d hg hx ready started => exec_nodeStart hg hx ready started, ?_, ?_⟩
  · intro h d d₁ d₂ slot graph node record grid r ss read kept plain
    exact ⟨_, startLaunch_eq read kept plain, Table.find?_set_self .., readRecord_allowed read, rfl⟩
  · intro s launch l g x r ss d hl hg hx capable first open_ kept cause halted clean read
    have may : l.rollsBack = true := by simp [Launch.rollsBack, capable, first, cause]
    exact exec_rollback hl hg hx may open_ kept halted clean read

end Sys2Proof.Proofs
end

section
/-! PROOF. Requests for seals and unseals (R72, R74, R248). -/

namespace Sys2Proof.Proofs

open Sys2Proof Sys2Proof.Machine Sys2Proof.Safety

variable {s : Machine.State} {h : HostPart} {d : Dev} {id n : Nat} {r : SealRequest} {w : Warp} {c : Context} {undo : Bool}

/-! ## The status of a request -/

theorem inRange_iff : r.inRange h = true ↔ h.featActive.getLsbD 6 = true ∧ r.base % 2 ^ 16 = 0 ∧ r.bytes % 2 ^ 16 = 0 ∧
    2 ^ 16 ≤ r.bytes ∧ r.bytes ≤ 2 ^ 32 ∧ r.base + r.bytes ≤ 2 ^ 57 := by
  simp only [SealRequest.inRange, Bool.and_eq_true, beq_iff_eq, decide_eq_true_eq, and_assoc]
  rfl

theorem sealedRange_iff {va bytes : Nat} : c.sealedRange va bytes = true ↔ ∃ e ∈ c.sealed_, e.1 < va + bytes ∧ va < e.1 + e.2 := by
  simp [Context.sealedRange]

theorem verdict_outside (bad : r.inRange h = false) : r.verdict h c = 3 := by
  simp [SealRequest.verdict, bad]

theorem verdict_unseal (good : r.inRange h = true) (hu : r.undo = true) :
    r.verdict h c = if (r.base, r.bytes) ∈ c.sealed_ then 0 else 4 := by
  simp [SealRequest.verdict, good, hu]

theorem verdict_full (good : r.inRange h = true) (hu : r.undo = false) (full : 64 ≤ c.sealed_.length) : r.verdict h c = 1 := by
  simp [SealRequest.verdict, good, hu, full]

theorem verdict_room (good : r.inRange h = true) (hu : r.undo = false) (room : c.sealed_.length < 64) :
    r.verdict h c = if c.sealedRange r.base r.bytes then 2 else 0 := by
  simp [SealRequest.verdict, good, hu, Nat.not_le.2 room]

/-! ## A request is decided -/

theorem answerSeal_warp (party : r.party = .warp n) (hw : d.warp? n = some w) (status : Nat) :
    d.answerSeal h r status = d.setWarp n (w.fill r.ticket (BitVec.ofNat 32 status)) := by
  unfold Dev.answerSeal
  simp only [party]
  exact onWarp_eq hw _

theorem partySlot_warp (party : r.party = .warp n) (hw : d.warp? n = some w) : d.partySlot r.party = d.slotOf w.team := by
  simp [Dev.partySlot, party, hw]

/-- R248: a refusal is answered at once. -/
theorem decideSeal_refused {status : Nat} (hr : Table.find? d.seals id = some r) (party : r.party = .warp n)
    (hw : d.warp? n = some w) (hv : r.verdict h (d.context (d.slotOf w.team)) = status) (refused : status ≠ 0) :
    d.decideSeal h id r.undo = ({ d with
      seals := Table.erase d.seals id
      warps := Table.set d.warps n (w.fill r.ticket (BitVec.ofNat 32 status)) }.settle h) := by
  have answer := answerSeal_warp (h := h) (d := { d with seals := Table.erase d.seals id }) party hw status
  unfold Dev.decideSeal
  simp only [hr, partySlot_warp party hw, hv, bne_self_eq_false, beq_eq_false_iff_ne.2 refused, Bool.false_and, Bool.or_self,
    Bool.false_eq_true, if_false, if_neg refused, answer]
  rfl

/-- R72, R74: a request that stands is carried out once what it comes after has performed. -/
theorem decideSeal_carried (hr : Table.find? d.seals id = some r) (party : r.party = .warp n) (hw : d.warp? n = some w)
    (hv : r.verdict h (d.context (d.slotOf w.team)) = 0) (performed : d.allPerformed (d.sealWaits r) = true)
    (whole : r.undo = false → d.halfStored (d.slotOf w.team) r.base r.bytes = false) :
    d.decideSeal h id r.undo = ({ d.carrySeal (d.slotOf w.team) r with
      seals := Table.erase d.seals id
      warps := Table.set d.warps n (w.fill r.ticket 0) }.settle h) := by
  have complete : (!r.undo && d.halfStored (d.slotOf w.team) r.base r.bytes) = false := by
    cases hu : r.undo with
    | true => rfl
    | false => rw [whole hu]; rfl
  have found : ({ d with seals := Table.erase d.seals id }.carrySeal (d.slotOf w.team) r).warp? n = some w := by
    rw [← hw]
    unfold Dev.carrySeal
    split <;> rfl
  unfold Dev.decideSeal
  simp only [hr, partySlot_warp party hw, hv, bne_self_eq_false, performed, complete, Bool.not_true, Bool.or_self, Bool.and_false,
    Bool.false_eq_true, if_false, if_true, answerSeal_warp party found]
  unfold Dev.carrySeal
  split <;> rfl

/-- Settles O37: each status of a seal, then each of an unseal. -/
theorem sealResults : Obligations.SealResults := by
  unfold Obligations.SealResults
  intro s id n r w hr party hw slot c good meets answered
  have outside (bad : ¬good) : r.verdict s.host c = 3 := verdict_outside (by simpa using mt inRange_iff.1 bad)
  refine ⟨fun sealing => ?_, fun unsealing => ?_⟩
  · have run : exec (.sealTakesEffect id) s = .next (withDev s (s.dev.decideSeal s.host id r.undo)) := by rw [sealing]; rfl
    rw [run]
    refine ⟨fun bad => ?_, fun ok full => ?_, fun ok room overlap => ?_, fun ok room apart performed whole => ?_⟩
    · rw [decideSeal_refused hr party hw (outside bad) (by decide)]
      rfl
    · rw [decideSeal_refused hr party hw (verdict_full (inRange_iff.2 ok) sealing full) (by decide)]
      rfl
    · have hv : r.verdict s.host c = 2 := by rw [verdict_room (inRange_iff.2 ok) sealing room, if_pos (sealedRange_iff.2 overlap)]
      rw [decideSeal_refused hr party hw hv (by decide)]
      rfl
    · have hv : r.verdict s.host c = 0 := by
        rw [verdict_room (inRange_iff.2 ok) sealing room, if_neg (mt sealedRange_iff.1 apart)]
      rw [decideSeal_carried hr party hw hv performed fun _ => whole]
      simp only [Dev.carrySeal, sealing, Bool.false_eq_true, if_false]
      rfl
  · have run : exec (.unsealComplete id) s = .next (withDev s (s.dev.decideSeal s.host id r.undo)) := by rw [unsealing]; rfl
    rw [run]
    refine ⟨fun bad => ?_, fun ok absent => ?_, fun ok present performed => ?_⟩
    · rw [decideSeal_refused hr party hw (outside bad) (by decide)]
      rfl
    · have hv : r.verdict s.host c = 4 := by rw [verdict_unseal (inRange_iff.2 ok) unsealing, if_neg absent]
      rw [decideSeal_refused hr party hw hv (by decide)]
      rfl
    · have hv : r.verdict s.host c = 0 := by rw [verdict_unseal (inRange_iff.2 ok) unsealing, if_pos present]
      rw [decideSeal_carried hr party hw hv performed fun sealing => nomatch sealing.symm.trans unsealing]
      simp only [Dev.carrySeal, unsealing, if_true]
      rfl

end Sys2Proof.Proofs
end

section
/-! PROOF. An access performs at its home (R222, R230, R236, R243, R245). -/

namespace Sys2Proof.Proofs

open Sys2Proof Sys2Proof.Machine Sys2Proof.Safety

variable {s : Machine.State} {h : HostPart} {d : Dev} {id pa v b n op : Nat} {a : Access}

/-! ## Bytes of a number -/

theorem leBytes_getD (n v : Nat) {i : Nat} (hi : i < n) : (leBytes n v).getD i 0 = BitVec.ofNat 8 (v / 256 ^ i) := by
  induction n generalizing v i with
  | zero => exact absurd hi (Nat.not_lt_zero i)
  | succ n ih =>
    cases i with
    | zero => simp [leBytes]
    | succ i =>
      have split : v / 256 ^ (i + 1) = v / 256 / 256 ^ i := by rw [Nat.div_div_eq_div_mul, Nat.pow_succ, Nat.mul_comm]
      simpa [leBytes, split] using ih (v / 256) (Nat.lt_of_succ_lt_succ hi)

theorem leValue_digit (bs : List Byte) (i : Nat) : BitVec.ofNat 8 (leValue bs / 256 ^ i) = bs.getD i 0 := by
  induction bs generalizing i with
  | nil => simp [leValue]
  | cons x bs ih =>
    cases i with
    | zero =>
      apply BitVec.eq_of_toNat_eq
      have := x.isLt
      simp [leValue]
      omega
    | succ i =>
      have split : (x.toNat + 256 * leValue bs) / 256 ^ (i + 1) = leValue bs / 256 ^ i := by
        have := x.isLt
        rw [Nat.pow_succ', ← Nat.div_div_eq_div_mul]
        congr 1
        omega
      simpa [leValue, split] using ih i

/-! ## What an access stores and returns -/

theorem integerValue_signed (w v : Nat) : integerValue w true v = (BitVec.ofNat w v).toInt := by
  unfold integerValue
  rw [BitVec.toInt_eq_toNat_cond, BitVec.toNat_ofNat]
  cases w with
  | zero => simp [Nat.mod_one]
  | succ w =>
    have double : 2 ^ (w + 1) = 2 * 2 ^ w := Nat.pow_succ'
    simp only [Bool.true_and, decide_eq_true_eq, Nat.add_sub_cancel]
    split <;> split <;> omega

/-- R243: the integer read-modify-writes on words of the access's size. -/
theorem updateValue_integer {bytes : Nat} (integer : op < 9) (hv : v < 2 ^ (8 * bytes)) (hb : b < 2 ^ (8 * bytes)) :
    updateValue op bytes v b = (updated op (BitVec.ofNat (8 * bytes) v) (BitVec.ofNat (8 * bytes) b)).toNat := by
  have tv : (BitVec.ofNat (8 * bytes) v).toNat = v := by rw [BitVec.toNat_ofNat, Nat.mod_eq_of_lt hv]
  have tb : (BitVec.ofNat (8 * bytes) b).toNat = b := by rw [BitVec.toNat_ofNat, Nat.mod_eq_of_lt hb]
  unfold updateValue updated
  interval_cases op
  · simp only [BitVec.toNat_add, tv, tb]
  · simp only [BitVec.toNat_and, tv, tb]
  · simp only [BitVec.toNat_or, tv, tb]
  · simp only [BitVec.toNat_xor, tv, tb]
  · simp only [integerValue_signed]
    split <;> split <;> omega
  · simp only [integerValue_signed]
    split <;> split <;> omega
  · simp only [tv, tb]
    split <;> split <;> omega
  · simp only [tv, tb]
    split <;> split <;> omega
  · exact tb.symm

theorem loadWords_eq (bytes : Nat) (signed : Bool) (v : Nat) : loadWords bytes signed v =
    if bytes < 4 then
      [if signed then BitVec.signExtend 32 (BitVec.ofNat (8 * bytes) v) else BitVec.ofNat 32 v]
    else (List.range (bytes / 4)).map fun i => BitVec.ofNat 32 (v / 2 ^ (32 * i)) := by
  have extended : BitVec.ofInt 32 (integerValue (8 * bytes) true v) = BitVec.signExtend 32 (BitVec.ofNat (8 * bytes) v) := by
    rw [integerValue_signed]
    rfl
  unfold loadWords
  rw [extended]

theorem perform_read (a : Access) (v : Nat) : (a.perform v).read = returned a v := by
  unfold Access.perform returned
  cases hk : a.kind with
  | load => simp [loadWords_eq]
  | store => simp
  | update op => simp [loadWords_eq]
  | swapIf => simp only [loadWords_eq]; split <;> simp

theorem perform_write (a : Access) (hv : v < 2 ^ (8 * a.bytes))
    (sized : ∀ op, a.kind = .update op → 4 ≤ a.bytes ∧ wordsValue (a.words a.data) < 2 ^ (8 * a.bytes)) :
    (a.perform v).write = stored a v := by
  unfold Access.perform stored
  cases hk : a.kind with
  | load => rfl
  | store => rfl
  | swapIf => dsimp only; split <;> rfl
  | update op =>
    obtain ⟨-, hb⟩ := sized op hk
    dsimp only
    split
    next integer => rw [updateValue_integer integer hv hb]
    next => rfl

/-! ## The device after an access -/

/-- R222: the bytes that an access writes. -/
def written (d : Dev) (pa bytes : Nat) : Option Nat → Dev
  | some v => d.putBytes pa (leBytes bytes v)
  | none => d

/-- R73: the line of a sealed region that a load of a warp has read. -/
def replicaKept (d : Dev) (a : Access) : Dev :=
  match a.party with
  | .warp wid =>
    if a.kind == AccessKind.load && (d.context a.slot).sealedAt a.va.toNat then
      d.noteReplica (((d.warp? wid).map Warp.core).getD 0) a.slot a.va.toNat
    else d
  | _ => d

/-- The device once an access has done what it does at its home, the access still in its table. -/
def homeEffect (d : Dev) (id : Nat) (a : Access) (pa : Nat) (p : Performed) : Dev :=
  let o := d.observe (a.settleOrder p.failed) pa
  replicaKept (written { o with tags := o.tagsAfter id (a.settleOrder p.failed) pa p.write.isSome } pa
    (a.settleOrder p.failed).bytes p.write) (a.settleOrder p.failed)

theorem performedAt_eq (clean : a.kind ≠ .store → d.poisoned pa a.bytes = false) :
    let p := a.perform (leValue (Memory.readBytes d.mem pa a.bytes))
    let x := a.settleOrder p.failed
    let e := homeEffect d id a pa p
    ∃ waits : List Nat, d.performedAt h id a pa =
      if x.tickets.isEmpty && x.regs.isEmpty && waits.isEmpty then { e with accesses := Table.erase e.accesses id }.settle h
      else (e.setAccess id { x with result := some p.read, waits := waits }).settle h := by
  intro p x e
  have ok : (a.kind != AccessKind.store && d.poisoned pa a.bytes) = false := by
    by_cases kind : a.kind = .store
    · simp [kind]
    · simp [clean kind]
  refine ⟨if x.acquires then d.acquireWaits x pa else [], ?_⟩
  unfold Dev.performedAt
  simp only [ok, Bool.false_eq_true, if_false]
  rfl

theorem settleOrder_frame (a : Access) (failed : Bool) : (a.settleOrder failed).bytes = a.bytes ∧
    (a.settleOrder failed).tickets = a.tickets ∧ (a.settleOrder failed).regs = a.regs := by
  unfold Access.settleOrder
  split <;> exact ⟨rfl, rfl, rfl⟩

theorem written_frame (d : Dev) (pa bytes : Nat) (v : Option Nat) : (written d pa bytes v).contexts = d.contexts ∧
    (written d pa bytes v).teams = d.teams ∧ (written d pa bytes v).launches = d.launches := by
  cases v <;> exact ⟨rfl, rfl, rfl⟩

/-- R73: a replica touches no field that the access's effect is about. -/
theorem replicaKept_cores (d : Dev) (a : Access) : ∃ cs, replicaKept d a = { d with cores := cs } := by
  unfold replicaKept
  split
  · split
    · exact ⟨_, rfl⟩
    · exact ⟨d.cores, rfl⟩
  · exact ⟨d.cores, rfl⟩

theorem observe_warps (d : Dev) (a : Access) (pa : Nat) : ∃ ws, d.observe a pa = { d with warps := ws } ∧
    ∀ n, (Table.find? ws n).map (fun w => { w with observed := [] }) = (d.warp? n).map fun w => { w with observed := [] } := by
  unfold Dev.observe
  split
  next id party =>
    dsimp only
    split
    · exact ⟨d.warps, rfl, fun _ => rfl⟩
    · refine ⟨_, rfl, fun n => ?_⟩
      by_cases same : n = id
      · subst same
        rw [Table.find?_modify_self]
        simp only [Option.map_map]
        rfl
      · rw [Table.find?_modify_of_ne _ _ same]
        rfl
  next => exact ⟨d.warps, rfl, fun _ => rfl⟩

theorem homeEffect_eq (d : Dev) (id : Nat) (a : Access) (pa : Nat) (p : Performed) :
    ∃ cs ws ts, homeEffect d id a pa p = { written d pa a.bytes p.write with cores := cs, warps := ws, tags := ts } ∧
      ∀ n, (Table.find? ws n).map (fun w => { w with observed := [] }) = (d.warp? n).map fun w => { w with observed := [] } := by
  obtain ⟨ws, observed, same⟩ := observe_warps d (a.settleOrder p.failed) pa
  obtain ⟨bytes, -, -⟩ := settleOrder_frame a p.failed
  unfold homeEffect
  simp only [observed, bytes]
  obtain ⟨cs, kept⟩ := replicaKept_cores (written { { d with warps := ws } with
    tags := Dev.tagsAfter { d with warps := ws } id (a.settleOrder p.failed) pa p.write.isSome } pa a.bytes p.write)
    (a.settleOrder p.failed)
  refine ⟨cs, ws, Dev.tagsAfter { d with warps := ws } id (a.settleOrder p.failed) pa p.write.isSome, ?_, same⟩
  rw [kept]
  cases p.write <;> rfl

theorem read_written_outside {bytes x : Nat} {v : Option Nat} (wf : Memory.wf d.mem = true) (hx : x < pa ∨ pa + bytes ≤ x) :
    Memory.read (written d pa bytes v).mem x = Memory.read d.mem x := by
  cases v with
  | none => rfl
  | some v => exact Memory.read_writeBytes_outside wf (by rwa [leBytes_length])

theorem read_written_inside {bytes i : Nat} {v : Option Nat} (wf : Memory.wf d.mem = true) (hi : i < bytes) :
    Memory.read (written d pa bytes v).mem (pa + i) =
      BitVec.ofNat 8 (v.getD (leValue (Memory.readBytes d.mem pa bytes)) / 256 ^ i) := by
  cases v with
  | none =>
    rw [Option.getD_none, leValue_digit, List.getD_eq_getElem?_getD, Memory.readBytes_get _ hi]
    rfl
  | some v =>
    have inside : i < (leBytes bytes v).length := by simpa using hi
    rw [Option.getD_some, ← leBytes_getD _ _ hi, List.getD_eq_getElem _ _ inside]
    exact Memory.read_writeBytes_inside wf inside

theorem homeEffect_outside {p : Performed} {x : Nat} (wf : Memory.wf d.mem = true) (hx : x < pa ∨ pa + a.bytes ≤ x) :
    Memory.read (homeEffect d id a pa p).mem x = Memory.read d.mem x := by
  obtain ⟨cs, ws, ts, effect, -⟩ := homeEffect_eq d id a pa p
  rw [effect]
  exact read_written_outside wf hx

theorem homeEffect_inside {p : Performed} {i : Nat} (wf : Memory.wf d.mem = true) (hi : i < a.bytes) :
    Memory.read (homeEffect d id a pa p).mem (pa + i) =
      BitVec.ofNat 8 (p.write.getD (leValue (Memory.readBytes d.mem pa a.bytes)) / 256 ^ i) := by
  obtain ⟨cs, ws, ts, effect, -⟩ := homeEffect_eq d id a pa p
  rw [effect]
  exact read_written_inside wf hi

theorem homeEffect_frame (d : Dev) (id : Nat) (a : Access) (pa : Nat) (p : Performed) :
    (∀ n, ((homeEffect d id a pa p).warp? n).map (fun w => { w with observed := [] }) =
      (d.warp? n).map fun w => { w with observed := [] }) ∧ (homeEffect d id a pa p).contexts = d.contexts ∧
      (homeEffect d id a pa p).teams = d.teams ∧ (homeEffect d id a pa p).launches = d.launches := by
  obtain ⟨cs, ws, ts, effect, same⟩ := homeEffect_eq d id a pa p
  rw [effect]
  exact ⟨same, written_frame _ _ _ _⟩

theorem exec_homeAccess (hp : Performs s id a pa) :
    exec (.homeAccess id) s = .next (withDev s (s.dev.performedAt s.host id a pa)) := by
  obtain ⟨found, place, turn, unsealed, -, -⟩ := hp
  have open_ : (a.kind != AccessKind.load && (s.dev.context a.slot).sealedRange a.va.toNat a.bytes) = false := by
    by_cases kind : a.kind = .load
    · simp [kind]
    · simp [unsealed kind]
  change execHomeAccess id s = _
  unfold execHomeAccess
  simp only [run_eq, found, place, turn, Bool.not_true, open_, Bool.false_eq_true, if_false]

theorem exec_release_access (found : Table.find? s.dev.accesses id = some a) :
    exec (.holdWindowRelease id) s = .next (withDev s (s.dev.setAccess id { a with held := false })) := by
  have released : s.dev.releaseAccess id = some (s.dev.setAccess id { a with held := false }) := by
    unfold Dev.releaseAccess Table.modify
    rw [found]
    rfl
  change execHoldWindowRelease id s = _
  unfold execHoldWindowRelease
  rw [run_eq, released]
  rfl

/-- Settles O34: the bytes of an access, what it returns, and what it leaves. -/
theorem accessesPerform : Obligations.AccessesPerform := by
  unfold Obligations.AccessesPerform
  refine ⟨fun s id pa a wf hp => ?_, fun s id a found => ?_⟩
  · intro v
    have bound : v < 2 ^ (8 * a.bytes) := by
      have := leValue_lt (Memory.readBytes s.dev.mem pa a.bytes)
      rwa [Memory.readBytes_length, show 256 = 2 ^ 8 from rfl, ← Nat.pow_mul] at this
    have write := perform_write a bound hp.sized
    obtain ⟨waits, performed⟩ := performedAt_eq (h := s.host) (id := id) hp.clean
    obtain ⟨-, tickets, regs⟩ := settleOrder_frame a (a.perform v).failed
    have outside := fun x hx => homeEffect_outside (id := id) (a := a) (p := a.perform v) (pa := pa) (x := x) wf hx
    have inside := fun i hi => homeEffect_inside (id := id) (a := a) (p := a.perform v) (pa := pa) (i := i) wf hi
    have frame := homeEffect_frame s.dev id a pa (a.perform v)
    rw [show leValue (Memory.readBytes s.dev.mem pa a.bytes) = v from rfl] at performed
    rw [exec_homeAccess hp, performed, ← write]
    generalize homeEffect s.dev id a pa (a.perform v) = e at outside inside frame ⊢
    obtain ⟨observed, rest⟩ := frame
    split
    next nothing =>
      refine ⟨{ e with accesses := Table.erase e.accesses id }, rfl, outside, inside, fun returns => ?_, observed, rest⟩
      simp only [Bool.and_eq_true, List.isEmpty_iff] at nothing
      exact absurd (And.intro (tickets.symm.trans nothing.1.1) (regs.symm.trans nothing.1.2)) (not_and_or.2 returns)
    next =>
      refine ⟨e.setAccess id { a.settleOrder (a.perform v).failed with result := some (a.perform v).read, waits := waits }, rfl,
        outside, inside, fun _ => ⟨_, Table.find?_set_self .., ?_⟩, observed, rest⟩
      exact ⟨congrArg some (perform_read a v), tickets, regs⟩
  · exact exec_release_access found

end Sys2Proof.Proofs
end

section
/-! PROOF. What an access returns fills its cells and registers; spills, refills and the writes of the forwarding table (R51,
R52, R55, R57, R212). -/

namespace Sys2Proof.Proofs

open Sys2Proof Sys2Proof.Machine Sys2Proof.Safety

variable {s : Machine.State} {h : HostPart} {d : Dev} {id pa n i x core lb : Nat} {a : Access} {w : Warp} {vs : List Word}
  {lanes : Mask} {words : List Word}

/-! ## Fills -/

/-- R55: a stack that has been filled for a list of tickets. -/
def fillAll (es : List (Nat × Word)) (c : Cell) : Cell :=
  match c.ticket? with
  | none => c
  | some n => match es.lookup n with
    | some v => .full v
    | none => c

theorem fillStack_fillAll (e : Nat × Word) (es : List (Nat × Word)) (st : List Cell) :
    (fillStack e.1 e.2 st).map (fillAll es) = st.map (fillAll (e :: es)) := by
  unfold fillStack
  rw [List.map_map]
  refine List.map_congr_left fun c _ => ?_
  cases c with
  | full v => rfl
  | empty t =>
    obtain ⟨m, v⟩ := e
    by_cases same : t = m
    · subst same
      simp [Function.comp, Cell.ticket?, fillAll]
    · have other : (t == m) = false := by simp [same]
      simp [Function.comp, Cell.ticket?, fillAll, List.lookup, other]

theorem fills_eq (es : List (Nat × Word)) (w : Warp) : es.foldl (fun (w : Warp) e => w.fill e.1 e.2) w =
    { w with
      threads := w.threads.map fun t => { t with stack := t.stack.map (fillAll es) }
      handler := w.handler.map fun hd => { hd with saved := hd.saved.map fun e => (e.1, e.2.map (fillAll es)) } } := by
  induction es generalizing w with
  | nil =>
    have same : ∀ st : List Cell, st.map (fillAll []) = st := fun st => by
      conv_rhs => rw [← List.map_id st]
      refine List.map_congr_left fun c _ => ?_
      cases c <;> rfl
    cases w with
    | mk => simp [same]
  | cons e es ih =>
    rw [List.foldl_cons, ih]
    unfold Warp.fill
    simp only [List.map_map, Option.map_map, Function.comp_def, Thread.onStack, fillStack_fillAll]

theorem fillRegister_eq (k : List Word) (kld : List (Nat × Nat)) (r id : Nat) (v : Word) :
    (fillRegister k kld r id v).1 = if (r, id) ∈ kld ∧ ∀ e ∈ kld, e.1 = r → e.2 ≤ id then kSet k r v else k := by
  unfold fillRegister
  by_cases there : (r, id) ∈ kld
  · have known : (!kld.contains (r, id)) = false := by simpa using there
    by_cases newest : ∀ e ∈ kld, e.1 = r → e.2 ≤ id
    · have last : (kld.any fun e => e.1 == r && decide (id < e.2)) = false := by
        rw [List.any_eq_false]
        intro e he
        have := newest e he
        simpa using this
      simp only [known, last, Bool.false_eq_true, if_false, if_pos (And.intro there newest)]
    · have newer : (kld.any fun e => e.1 == r && decide (id < e.2)) = true := by
        rw [List.any_eq_true]
        push Not at newest
        obtain ⟨e, he, same, later⟩ := newest
        exact ⟨e, he, by simp [same, later]⟩
      simp only [known, newer, Bool.false_eq_true, if_false, if_true, if_neg (mt And.right newest)]
  · have unknown : (!kld.contains (r, id)) = true := by simpa using there
    simp only [unknown, if_true, if_neg (mt And.left there)]

/-- R212: the registers that a list of words fills, and what they still wait for. -/
def fillRegisters (id : Nat) (es : List (Nat × Word)) (r : List Word × List (Nat × Nat)) : List Word × List (Nat × Nat) :=
  es.foldl (fun r e => fillRegister r.1 r.2 e.1 id e.2) r

theorem fillRegisters_one {es : List (Nat × Word)} (one : es.length ≤ 1) (k : List Word) (kld : List (Nat × Nat)) :
    (fillRegisters id es (k, kld)).1 = regFilled k kld id es := by
  match es, one with
  | [], _ => rfl
  | [(r, v)], _ => exact fillRegister_eq k kld r id v

theorem warp_fillRegisters (es : List (Nat × Word)) (w : Warp) :
    es.foldl (fun (w : Warp) e =>
      let r := fillRegister w.k w.kld e.1 id e.2
      { w with k := r.1, kld := r.2 }) w =
    { w with k := (fillRegisters id es (w.k, w.kld)).1, kld := (fillRegisters id es (w.k, w.kld)).2 } := by
  induction es generalizing w with
  | nil => rfl
  | cons e es ih => exact ih _

theorem fet_fillRegisters (es : List (Nat × Word)) (f : Fet) :
    es.foldl (fun (f : Fet) e =>
      let r := fillRegister f.k f.kld e.1 id e.2
      { f with k := r.1, kld := r.2 }) f =
    { f with k := (fillRegisters id es (f.k, f.kld)).1, kld := (fillRegisters id es (f.k, f.kld)).2 } := by
  induction es generalizing f with
  | nil => rfl
  | cons e es ih => exact ih _

theorem exec_loadFill (found : Table.find? s.dev.accesses id = some a) (hv : a.result = some vs) (good : a.cause = 0)
    (fenced : s.dev.allPerformed a.waits = true) :
    exec (.loadFill id) s = .next (withDev s
      (({ s.dev with accesses := Table.erase s.dev.accesses id }.fillAccess id a vs).settle s.host)) := by
  change execLoadFill id s = _
  unfold execLoadFill
  simp only [run_eq, found, hv, fenced, good, Bool.not_true, bne_self_eq_false, Bool.false_eq_true, if_false]

theorem fillAccess_warp (party : a.party = .warp n) (hw : d.warp? n = some w) :
    d.fillAccess id a vs = d.setWarp n
      { w with
        threads := w.threads.map fun t => { t with stack := t.stack.map (filled a vs) }
        handler := w.handler.map fun hd => { hd with saved := hd.saved.map fun e => (e.1, e.2.map (filled a vs)) }
        k := (fillRegisters id (a.parts a.regs vs) (w.k, w.kld)).1
        kld := (fillRegisters id (a.parts a.regs vs) (w.k, w.kld)).2 } := by
  unfold Dev.fillAccess
  simp only [party]
  rw [onWarp_eq hw, fills_eq, warp_fillRegisters]
  rfl

theorem fillAccess_fet {f : Fet} (party : a.party = .fet n) (hf : Table.find? d.fets n = some f) :
    d.fillAccess id a vs = d.setFet n
      { f with
        k := (fillRegisters id (a.parts a.regs vs) (f.k, f.kld)).1
        kld := (fillRegisters id (a.parts a.regs vs) (f.k, f.kld)).2 } := by
  unfold Dev.fillAccess
  simp only [party]
  rw [onFet_eq hf, fet_fillRegisters]

/-! ## The spill engine -/

theorem moved_eq (lanes : Mask) (spill : Bool) (c : Nat) : Split.moved lanes spill c = fun u =>
    if u.mask &&& lanes = 0 then u else { u with c := if spill then Nat.min u.c c else c } := by
  funext u
  unfold Split.moved
  by_cases apart : u.mask &&& lanes = 0 <;> simp [apart]

theorem exec_refill {t : Transfer} {rest : List Transfer} (queued : ((s.dev.core core).lb lb).transfers = t :: rest)
    (hw : s.dev.warp? t.warp = some w) (more : t.was ≤ t.c) (outside : w.handler = none)
    (clean : ∀ r ∈ s.dev.refillWords t.warp w (t.lanes &&& w.live) t.was t.c, s.dev.poisoned r.2.2 4 = false) :
    exec (.spillRefillComplete core lb) s = .next (withDev s
      ((s.dev.onLb core lb fun b => { b with transfers := rest }).setWarp t.warp
        (w.onSplits (Split.moved (t.lanes &&& w.live) (decide (t.c < t.was)) t.c)))) := by
  have found : ((s.dev.refillWords t.warp w (t.lanes &&& w.live) t.was t.c).find? fun r => s.dev.poisoned r.2.2 4) = none := by
    rw [List.find?_eq_none]
    intro r hr
    simp [clean r hr]
  have same : s.dev.refilled w (s.dev.refillWords t.warp w (t.lanes &&& w.live) t.was t.c) = w := by
    unfold Dev.refilled
    rw [outside]
    rfl
  change execSpillRefillComplete core lb s = _
  unfold execSpillRefillComplete
  simp only [run_eq, queued, hw, Nat.not_lt.2 more, if_false, found, same]

theorem pushForwards_append {fs : List Forward} (room : ((d.core core).lb lb).forwards.length + fs.length ≤ 16) :
    d.pushForwards core lb fs = d.onLb core lb fun b => { b with forwards := b.forwards ++ fs } := by
  have none : (((d.core core).lb lb).forwards ++ fs).length - 16 = 0 := by
    rw [List.length_append]
    omega
  unfold Dev.pushForwards
  simp only [none, List.take_zero, List.drop_zero, List.foldl_nil]
  rfl

theorem exec_spill {t : Transfer} {rest : List Transfer} {fs : List Forward}
    (queued : ((s.dev.core core).lb lb).transfers = t :: rest) (hw : s.dev.warp? t.warp = some w) (less : t.c < t.was)
    (hfs : spillForwards (s.dev.clockOf core) t.warp w (t.lanes &&& w.live) t.was t.c = fs)
    (room : ((s.dev.core core).lb lb).forwards.length + fs.length ≤ 16)
    (full : w.spillable (t.lanes &&& w.live) t.was t.c = true) :
    exec (.spillRefillComplete core lb) s = .next (withDev s
      (((s.dev.onLb core lb fun b => { b with transfers := rest }).onLb core lb fun b =>
        { b with forwards := b.forwards ++ fs }).setWarp t.warp
        (w.onSplits (Split.moved (t.lanes &&& w.live) (decide (t.c < t.was)) t.c)))) := by
  have ready : (!w.spillable (t.lanes &&& w.live) t.was t.c ||
      decide (16 < ((s.dev.core core).lb lb).forwards.length + fs.length)) = false := by
    simp [full, room]
  have pushed : (s.dev.onLb core lb fun b => { b with transfers := rest }).pushForwards core lb fs =
      (s.dev.onLb core lb fun b => { b with transfers := rest }).onLb core lb fun b => { b with forwards := b.forwards ++ fs } := by
    refine pushForwards_append ?_
    have kept : (((s.dev.onLb core lb fun b => { b with transfers := rest }).core core).lb lb).forwards =
        ((s.dev.core core).lb lb).forwards := by
      unfold Dev.onLb Dev.onCore
      rw [Dev.core_setCore, Core.lb_onLb]
    rwa [kept]
  change execSpillRefillComplete core lb s = _
  unfold execSpillRefillComplete
  simp only [run_eq, queued, hw, less, if_true, hfs, ready, Bool.false_eq_true, if_false, pushed]

/-! ## The entries of a spill -/

theorem getLsbD_foldl_laneBit {l : Nat} (hl : l < 32) (ls : List Nat) (m : Mask) :
    (ls.foldl (fun m l => m ||| laneBit l) m).getLsbD l = (m.getLsbD l || decide (l ∈ ls)) := by
  induction ls generalizing m with
  | nil => simp
  | cons x xs ih =>
    rw [List.foldl_cons, ih, BitVec.getLsbD_or]
    have bit : (laneBit x).getLsbD l = decide (l = x) := by
      simp only [laneBit, BitVec.getLsbD_shiftLeft, hl, decide_true, Bool.true_and, BitVec.getLsbD_one]
      by_cases same : l = x
      · simp [same]
      · have : l < x ∨ l - x ≠ 0 := by omega
        rcases this with below | above <;> simp [*]
    rw [bit]
    simp [Bool.or_assoc, List.mem_cons]

theorem getLsbD_maskOf {l : Nat} (hl : l < 32) (ls : List Nat) : (maskOf ls).getLsbD l = decide (l ∈ ls) := by
  simp [maskOf, getLsbD_foldl_laneBit hl]

/-- R57: the entry of one position of a spill. -/
theorem spillForwards_get {now i was c : Nat} (hi : i < was - c) :
    let ts := w.threadsOf lanes
    let p := ((ts.head?).map fun t => t.stack.length).getD 0 - was + i
    (spillForwards now id w lanes was c)[i]? = some (forwardOf now id w.handler.isSome
      (if w.handler.isSome then handlerLine p else w.stackLine p)
      (ts.filter fun t => (t.cellAt p).any fun x => x.ticket?.isNone) fun t => ((t.cellAt p).map Cell.word).getD 0) := by
  simp [spillForwards, hi]

theorem spillForwards_length (now id : Nat) (w : Warp) (lanes : Mask) (was c : Nat) :
    (spillForwards now id w lanes was c).length = was - c := by
  simp [spillForwards]

theorem full_iff (o : Option Cell) : (o.any fun x => x.ticket?.isNone) = true ↔ ∃ v, o = some (.full v) := by
  match o with
  | none => simp
  | some (.full v) => simp [Cell.ticket?]
  | some (.empty t) => simp [Cell.ticket?]

theorem find?_lane {ts : List Thread} (nodup : (ts.map Thread.lane).Nodup) {x : Thread} (hx : x ∈ ts) :
    ts.find? (fun t => t.lane == x.lane) = some x := by
  induction ts with
  | nil => nomatch hx
  | cons t ts ih =>
    rw [List.map_cons, List.nodup_cons] at nodup
    rcases List.mem_cons.1 hx with rfl | later
    · simp
    · have other : (t.lane == x.lane) = false :=
        beq_eq_false_iff_ne.2 fun same => nodup.1 (same ▸ List.mem_map_of_mem later)
      rw [List.find?_cons, other]
      exact ih nodup.2 later

/-- R57: a lane of an entry is one whose thread has a full cell there, and its word is that cell's. -/
theorem forwardOf_lane {ts : List Thread} {x : Thread} {cells : Thread → Option Cell} {now line : Nat} {mapped : Bool}
    (nodup : (ts.map Thread.lane).Nodup) (hx : x ∈ ts) (hl : x.lane < 32) :
    let f := forwardOf now id mapped line (ts.filter fun t => (cells t).any fun x => x.ticket?.isNone)
      fun t => ((cells t).map Cell.word).getD 0
    (f.lanes.getLsbD x.lane = true ↔ ∃ v, cells x = some (.full v)) ∧
      ∀ v, cells x = some (.full v) → f.words[x.lane]? = some v := by
  have nodup' := nodup.sublist ((List.filter_sublist (p := fun t => (cells t).any fun x => x.ticket?.isNone)).map Thread.lane)
  refine ⟨?_, fun v hv => ?_⟩
  · unfold forwardOf
    simp only [getLsbD_maskOf hl, decide_eq_true_eq, List.mem_map]
    rw [← full_iff]
    constructor
    · rintro ⟨y, hy, same⟩
      obtain ⟨there, full⟩ := List.mem_filter.1 hy
      have := find?_lane nodup there
      rw [same, find?_lane nodup hx] at this
      obtain rfl := Option.some.inj this
      exact full
    · exact fun full => ⟨x, List.mem_filter.2 ⟨hx, full⟩, rfl⟩
  · have found := find?_lane nodup' (List.mem_filter.2 ⟨hx, (full_iff (cells x)).2 ⟨v, hv⟩⟩)
    unfold forwardOf
    simp only [List.getElem?_map, List.getElem?_range hl, Option.map_some, found, hv, Option.getD_some]
    rfl

/-! ## The write of an entry -/

/-- R57: the byte of a line at an offset. -/
def lineByte (words : List Word) (n : Nat) : Byte := (leBytes 4 (words.getD (n / 4) 0).toNat).getD (n % 4) 0

/-- R57, R459: one unit of a line, or the word of it that is written. -/
def writeUnit (pa : Nat) (lanes : Mask) (words : List Word) (d : Dev) (i : Nat) : Dev :=
  let word := fun (l : Nat) => leBytes 4 (words.getD l 0).toNat
  match lanes.getLsbD (2 * i), lanes.getLsbD (2 * i + 1) with
  | true, true => d.putBytes (pa + 8 * i) (word (2 * i) ++ word (2 * i + 1))
  | true, false => d.putBytes (pa + 8 * i) (word (2 * i))
  | false, true => d.putBytes (pa + 8 * i + 4) (word (2 * i + 1))
  | false, false => d

theorem writeLine_eq (d : Dev) (pa : Nat) (lanes : Mask) (words : List Word) :
    d.writeLine pa lanes words = (List.range 16).foldl (writeUnit pa lanes words) d := rfl

theorem read_writeBytes {m : Memory} (wf : Memory.wf m = true) (pa : Nat) (bs : List Byte) (x : Nat) :
    Memory.read (Memory.writeBytes m pa bs) x = if pa ≤ x ∧ x < pa + bs.length then bs.getD (x - pa) 0 else Memory.read m x := by
  split
  next inside =>
    obtain ⟨n, rfl⟩ := Nat.exists_eq_add_of_le inside.1
    have hn : n < bs.length := by omega
    rw [Memory.read_writeBytes_inside wf hn, Nat.add_sub_cancel_left, List.getD_eq_getElem _ _ hn]
  next outside => exact Memory.read_writeBytes_outside wf (by omega)

theorem read_putBytes (wf : Memory.wf d.mem = true) (pa : Nat) (bs : List Byte) (x : Nat) : Memory.read (d.putBytes pa bs).mem x =
    if pa ≤ x ∧ x < pa + bs.length then bs.getD (x - pa) 0 else Memory.read d.mem x := read_writeBytes wf pa bs x

theorem wf_writeUnit (wf : Memory.wf d.mem = true) (pa : Nat) (lanes : Mask) (words : List Word) (i : Nat) :
    Memory.wf (writeUnit pa lanes words d i).mem = true := by
  unfold writeUnit
  split
  · exact Memory.wf_writeBytes _ _ wf
  · exact Memory.wf_writeBytes _ _ wf
  · exact Memory.wf_writeBytes _ _ wf
  · exact wf

theorem read_writeUnit (wf : Memory.wf d.mem = true) (pa : Nat) (lanes : Mask) (words : List Word) (i x : Nat) :
    Memory.read (writeUnit pa lanes words d i).mem x =
      if pa + 8 * i ≤ x ∧ x < pa + 8 * i + 8 ∧ lanes.getLsbD ((x - pa) / 4) = true then lineByte words (x - pa)
      else Memory.read d.mem x := by
  by_cases inside : pa + 8 * i ≤ x ∧ x < pa + 8 * i + 8
  · obtain ⟨n, rfl⟩ := Nat.exists_eq_add_of_le inside.1
    have hn : n < 8 := by omega
    have place : pa + 8 * i + n - pa = 8 * i + n := by omega
    have lane : (8 * i + n) / 4 = 2 * i + n / 4 := by omega
    have byte : (8 * i + n) % 4 = n % 4 := by omega
    unfold writeUnit lineByte
    rw [place, lane, byte]
    rcases Nat.lt_or_ge n 4 with low | high
    · have before : ¬4 ≤ n := by omega
      have off : pa + (8 * i + n) - (pa + 8 * i) = n := by omega
      rw [Nat.div_eq_of_lt low, Nat.mod_eq_of_lt low]
      cases h0 : lanes.getLsbD (2 * i) <;> cases h1 : lanes.getLsbD (2 * i + 1) <;>
        simp [read_putBytes wf, hn, low, before, Nat.add_assoc, off]
    · obtain ⟨m, rfl⟩ := Nat.exists_eq_add_of_le high
      have hm : m < 4 := by omega
      have off : pa + (8 * i + (4 + m)) - (pa + 8 * i) = 4 + m := by omega
      have off' : pa + (8 * i + (4 + m)) - (pa + (8 * i + 4)) = m := by omega
      rw [show (4 + m) / 4 = 1 by omega, show (4 + m) % 4 = m by omega]
      cases h0 : lanes.getLsbD (2 * i) <;> cases h1 : lanes.getLsbD (2 * i + 1) <;>
        simp [read_putBytes wf, hn, hm, Nat.add_assoc, off, off']
  · rw [if_neg (by tauto)]
    unfold writeUnit
    split
    · exact Memory.read_writeBytes_outside wf (by simp; omega)
    · exact Memory.read_writeBytes_outside wf (by simp; omega)
    · exact Memory.read_writeBytes_outside wf (by simp; omega)
    · rfl

theorem wf_writeUnits (wf : Memory.wf d.mem = true) (pa : Nat) (lanes : Mask) (words : List Word) (n : Nat) :
    Memory.wf ((List.range n).foldl (writeUnit pa lanes words) d).mem = true := by
  induction n with
  | zero => exact wf
  | succ n ih =>
    rw [List.range_succ, List.foldl_append]
    exact wf_writeUnit ih pa lanes words n

theorem read_writeUnits (wf : Memory.wf d.mem = true) (pa : Nat) (lanes : Mask) (words : List Word) (n x : Nat) :
    Memory.read ((List.range n).foldl (writeUnit pa lanes words) d).mem x =
      if pa ≤ x ∧ x < pa + 8 * n ∧ lanes.getLsbD ((x - pa) / 4) = true then lineByte words (x - pa)
      else Memory.read d.mem x := by
  induction n with
  | zero => rw [if_neg (by omega)]; rfl
  | succ n ih =>
    rw [List.range_succ, List.foldl_append, List.foldl_cons, List.foldl_nil,
      read_writeUnit (wf_writeUnits wf pa lanes words n), ih]
    by_cases here : pa + 8 * n ≤ x ∧ x < pa + 8 * n + 8
    · by_cases bit : lanes.getLsbD ((x - pa) / 4) = true
      · rw [if_pos ⟨here.1, here.2, bit⟩, if_pos ⟨by omega, by omega, bit⟩]
      · simp only [bit, Bool.false_eq_true, and_false, if_false]
    · rw [if_neg fun c => here ⟨c.1, c.2.1⟩]
      refine if_congr ⟨fun c => ⟨c.1, by omega, c.2.2⟩, fun c => ⟨c.1, by omega, c.2.2⟩⟩ rfl rfl

/-- R57: a line after its write: the words of its lanes, and every other byte as it was. -/
theorem read_writeLine (wf : Memory.wf d.mem = true) (pa : Nat) (lanes : Mask) (words : List Word) (x : Nat) :
    Memory.read (d.writeLine pa lanes words).mem x =
      if pa ≤ x ∧ x < pa + 128 ∧ lanes.getLsbD ((x - pa) / 4) = true then lineByte words (x - pa)
      else Memory.read d.mem x := read_writeUnits wf pa lanes words 16 x

theorem writeLine_word (wf : Memory.wf d.mem = true) {l : Nat} (hl : l ∈ lanesOf lanes) :
    leValue (Memory.readBytes (d.writeLine pa lanes words).mem (pa + 4 * l) 4) = (words.getD l 0).toNat := by
  have small : l < 32 := List.mem_range.1 (List.mem_filter.1 hl).1
  have bytes : Memory.readBytes (d.writeLine pa lanes words).mem (pa + 4 * l) 4 = leBytes 4 (words.getD l 0).toNat := by
    refine List.ext_getElem? fun i => ?_
    by_cases hi : i < 4
    · have inside : i < (leBytes 4 (words.getD l 0).toNat).length := by simpa using hi
      have off : pa + 4 * l + i - pa = 4 * l + i := by omega
      have lane : (4 * l + i) / 4 = l := by omega
      have byte : (4 * l + i) % 4 = i := by omega
      rw [Memory.readBytes_get _ hi, read_writeLine wf, off, lane, if_pos ⟨by omega, by omega, mem_lanesOf hl⟩, lineByte, lane, byte,
        List.getElem?_eq_getElem inside, List.getD_eq_getElem _ _ inside]
    · rw [List.getElem?_eq_none (by simpa using hi), List.getElem?_eq_none (by simpa using hi)]
  rw [bytes, leValue_leBytes]
  exact Nat.mod_eq_of_lt (words.getD l 0).isLt

theorem writeLine_outside (wf : Memory.wf d.mem = true) (apart : ∀ l ∈ lanesOf lanes, x < pa + 4 * l ∨ pa + 4 * l + 4 ≤ x) :
    Memory.read (d.writeLine pa lanes words).mem x = Memory.read d.mem x := by
  rw [read_writeLine wf, if_neg]
  rintro ⟨low, high, bit⟩
  have small : (x - pa) / 4 < 32 := by omega
  have := apart ((x - pa) / 4) (List.mem_filter.2 ⟨List.mem_range.2 small, bit⟩)
  omega

theorem exec_freed {f : Forward} {fs : List Forward} (queued : ((s.dev.core core).lb lb).forwards = f :: fs)
    (due : f.due ≤ s.dev.clockOf core) :
    exec (.forwardingEntryFreed core lb) s = .next (withDev s ((Dev.retire core s.dev f).onLb core lb fun b =>
      { b with forwards := fs })) := by
  change execForwardingEntryFreed core lb s = _
  unfold execForwardingEntryFreed
  simp only [run_eq, queued, due, if_true]

theorem retire_slice {f : Forward} (here : f.mapped = false) :
    Dev.retire core d f = d.writeLine (slicePa core + f.line) f.lanes f.words := by
  unfold Dev.retire
  rw [here]
  rfl

/-- Settles O35: fills, then the spill engine, then the forwarding table. -/
theorem fillResults : Obligations.FillResults := by
  unfold Obligations.FillResults
  refine ⟨fun s id a vs found hv good fenced => ⟨?_, ?_⟩, fun s core lb => ?_⟩
  · intro n w party hw
    refine ⟨_, _, exec_loadFill found hv good fenced, fillAccess_warp party hw, rfl, fun one => fillRegisters_one one _ _, rfl⟩
  · intro n f party hf one
    exact ⟨_, _, exec_loadFill found hv good fenced, fillAccess_fet party hf, fillRegisters_one one _ _, rfl⟩
  · intro b
    refine ⟨fun t rest w queued hw => ?_, fun f fs queued due => ⟨exec_freed queued due, fun wf here => ?_⟩⟩
    · intro lanes depth ended moved
      have hm : w.onSplits (Split.moved lanes (decide (t.c < t.was)) t.c) = moved := by
        rw [moved_eq]
        simp only [decide_eq_true_eq]
        rfl
      refine ⟨fun more outside clean => ?_, fun less room full => ?_⟩
      · rw [exec_refill queued hw more outside clean, hm]
      · have length := spillForwards_length (s.dev.clockOf core) t.warp w lanes t.was t.c
        have spills : w.spillable lanes t.was t.c = true := by
          simp only [Warp.spillable, List.all_eq_true]
          intro x hx c hc
          rw [full x hx c hc]
          rfl
        refine ⟨_, by rw [exec_spill queued hw less rfl (by rw [length]; exact room) spills, hm], length, fun i hi => ?_⟩
        refine ⟨_, spillForwards_get hi, rfl, rfl, rfl, ?_, fun nodup x hx => ?_⟩
        · unfold forwardOf handlerLine Warp.stackLine
          dsimp only
          split <;> rw [Nat.mul_comm]
        · obtain ⟨there, lane⟩ := List.mem_filter.1 hx
          have small : x.lane < 32 := by
            by_contra large
            rw [BitVec.getLsbD_of_ge _ _ (Nat.not_lt.1 large)] at lane
            nomatch lane
          exact forwardOf_lane (nodup.sublist (List.filter_sublist.map Thread.lane)) hx small
    · rw [retire_slice here]
      exact ⟨fun l hl => writeLine_word wf hl, fun a apart => writeLine_outside wf apart⟩

end Sys2Proof.Proofs
end

section
/-! PROOF. Waits that end: stalls, selections, `trywait` bounds, streams and counters (R31, R42, R217, R250, R251). -/

namespace Sys2Proof.Proofs

open Sys2Proof Sys2Proof.Machine Sys2Proof.Safety

variable {s : Machine.State} {h : HostPart} {d : Dev} {id n ch cls : Nat} {w : Warp} {sp : Split} {f : Fet} {st : Stream} {o : EngineOp}

theorem exec_fetResume {r : Wait} (hf : Table.find? s.dev.fets id = some f) (hr : f.stalled = some r)
    (due : s.dev.fetResolved f r = true) :
    exec (.fetResume id) s = .next (withDev s (s.dev.setFet id { f with stalled := none })) := by
  change execFetResume id s = _
  unfold execFetResume
  simp only [run_eq, hf, hr, due, if_true, onFet_eq hf]

theorem exec_splitSelection (hw : s.dev.warp? id = some w) (here : w.place = .resident) (idle : w.cur = none)
    (ready : ∃ x ∈ w.others, (s.dev.wake id w x).state = .ready) (free : (s.dev.team? w.team).any Team.held = false)
    (parked : ∀ e ∈ s.dev.accesses, e.2.party = .warp id → e.2.parked = false) :
    exec (.splitSelection id) s = .next (withDev s
      ((s.dev.setWarp id (s.dev.selected id w).1).addTransfers (s.dev.selected id w).1 (s.dev.selected id w).2)) := by
  have due : (w.place == .resident && !(s.dev.team? w.team).any Team.held && w.cur.isNone &&
      w.others.any fun x => (s.dev.wake id w x).state == .ready) = true := by
    have some : (w.others.any fun x => (s.dev.wake id w x).state == .ready) = true := by
      obtain ⟨x, hx, hs⟩ := ready
      exact List.any_eq_true.2 ⟨x, hx, beq_iff_eq.2 hs⟩
    simp [here, free, idle, some]
  change execSplitSelection id s = _
  unfold execSplitSelection
  simp only [run_eq, hw, due, if_true]
  unfold Dev.select
  simp only [hw, parkedAll_none parked]

/-! ## trywait -/

/-- R251: one waiting split, whose `trywait` ends. -/
theorem endTrywaits_one {m l : Nat} {p : Nat → Nat → Nat → Option Word} {v : Word} (ho : w.others = [sp])
    (hs : sp.state = .trywait cls m l) (hp : p cls m l = some v) :
    w.endTrywaits p = { onStacks w sp (fun st => .full v :: st.drop 1) with others := [{ after sp 4 1 1 with state := .ready }] } := by
  have next : sp.endTrywait = { after sp 4 1 1 with state := .ready } := rfl
  unfold Warp.endTrywaits
  simp only [ho, List.foldl_cons, List.foldl_nil, hs, hp]
  rw [show (w.endTrywait sp v).others = w.others from rfl, ho]
  simp only [List.map_cons, List.map_nil, beq_self_eq_true, if_true, next]
  rfl

theorem endTrywaits_none {p : Nat → Nat → Nat → Option Word} (ho : ∀ x ∈ w.others, ∀ c m l, x.state ≠ .trywait c m l) :
    w.endTrywaits p = w := by
  unfold Warp.endTrywaits
  generalize w.others = xs at ho
  induction xs with
  | nil => rfl
  | cons x xs ih =>
    rw [List.foldl_cons]
    split
    next c m l waits => exact absurd waits (ho x List.mem_cons_self c m l)
    next => exact ih fun y hy => ho y (List.mem_cons_of_mem x hy)

theorem exec_trywaitTimeout (hw : s.dev.warp? id = some w) (ho : w.others = [sp]) (hs : sp.state = .trywait cls n 0)
    (hp : w.posted = []) :
    exec (.trywaitTimeout id) s = .next (withDev s (s.dev.setWarp id
      { onStacks w sp (fun st => .full (flag (decide (cntGet w.cnt cls ≤ n))) :: st.drop 1) with
        others := [{ after sp 4 1 1 with state := .ready }] })) := by
  change execTrywaitTimeout id s = _
  unfold execTrywaitTimeout
  rw [run_eq, onWarp_eq hw]
  simp only [hp, List.isEmpty_nil, if_true]
  rw [endTrywaits_one (v := flag (decide (cntGet w.cnt cls ≤ n))) ho hs]
  simp only [if_true, flag, decide_eq_true_eq]

/-! ## Streams -/

theorem exec_agenStreamRead {rs : List (Nat × Nat × List Word)} (hf : Table.find? s.dev.fets id = some f)
    (hst : f.streams.find? (fun x => x.ch == ch) = some st) (live : s.dev.teamThreads f.team ≠ []) (sent : st.pending = [])
    (first : s.dev.streamBehind id st = false)
    (read : Dev.streamReads s.host (s.dev.slotOf f.team) f.core st (s.dev.teamThreads f.team) s.dev = .ok (rs, d)) :
    exec (.agenStreamRead id ch) s = .next (withDev s (d.onFet id fun f =>
      { f with streams := streamAt ch (fun x => some { x with pending := rs }) f.streams })) := by
  have threads : (s.dev.teamThreads f.team).isEmpty = false := by simpa using live
  change execAgenStreamRead id ch s = _
  unfold execAgenStreamRead
  simp only [run_eq, hf, hst, threads, sent, first, List.isEmpty_nil, Bool.not_true, Bool.or_self, Bool.false_eq_true, if_false, read]
  rfl

/-- R217: the addresses themselves, which a stream of mode 2 sends. -/
theorem streamReads_addresses {slot core : Nat} (mode : st.mode = 2) (ts : List (Nat × Nat × Nat)) (d : Dev) :
    Dev.streamReads h slot core st ts d = .ok (ts.map fun t =>
      (t.1, t.2.2, [low (st.address (32 * t.2.1 + t.2.2)), high (st.address (32 * t.2.1 + t.2.2))]), d) := by
  induction ts with
  | nil => rfl
  | cons t ts ih =>
    unfold Dev.streamReads Dev.streamRead
    simp only [mode, if_true, ih, List.map_cons]

theorem address_eq (st : Stream) (t : Nat) : st.address t = BitVec.ofInt 64 ((st.base.toNat : Int) + t * st.ts.toInt +
    (st.elem % st.ic : Nat) * st.is.toInt + (st.elem / st.ic : Nat) * st.os.toInt) := by
  unfold Stream.address
  simp only [BitVec.ofInt_add, BitVec.ofInt_natCast, BitVec.ofNat_toNat, BitVec.setWidth_eq, BitVec.add_assoc]

theorem next_eq (st : Stream) (left : List (Nat × Nat × List Word)) : st.next left =
    if ∃ r ∈ left, r.2.2 ≠ [] then some { st with pending := left }
    else if st.elem + 1 < st.count then some { st with pending := [], elem := st.elem + 1 } else none := by
  unfold Stream.next
  refine if_congr ?_ rfl rfl
  simp

theorem sendStream_eq (hf : Table.find? d.fets id = some f) (hst : f.streams.find? (fun x => x.ch == ch) = some st)
    (waiting : st.pending ≠ []) (room : d.streamRoom f.team ch = true) :
    d.sendStream id ch = d.sendEntries id ch
      (st.pending.filter fun r => (d.teamThreads f.team).any fun t => t.1 == r.1 && t.2.2 == r.2.1) := by
  have pending : st.pending.isEmpty = false := by simpa using waiting
  unfold Dev.sendStream
  simp only [hf, Option.bind_some, hst, Option.map_some, pending, room, Bool.not_true, Bool.or_self, Bool.false_eq_true, if_false]

/-! ## Counters -/

theorem patchRecord_memory (d : Dev) (id cls : Nat) : ∃ m p, d.patchRecord id cls = { d with mem := m, poison := p } := by
  have put : ∀ (e : Dev) (slot core off v : Nat), (∃ m p, e = { d with mem := m, poison := p }) → ∃ m p,
      (match e.savedPa slot core off with
        | none => e
        | some pa => e.putBytes pa (leBytes 1 v)) = { d with mem := m, poison := p } := by
    rintro e slot core off v ⟨m, p, rfl⟩
    split
    · exact ⟨_, _, rfl⟩
    · exact ⟨_, _, rfl⟩
  unfold Dev.patchRecord
  split
  · exact ⟨_, _, rfl⟩
  · dsimp only
    split
    · exact ⟨_, _, rfl⟩
    · exact put _ _ _ _ _ (put _ _ _ _ _ ⟨d.mem, d.poison, rfl⟩)

theorem patchRecord_resident (hw : d.warp? id = some w) (here : w.place = .resident) : d.patchRecord id cls = d := by
  unfold Dev.patchRecord
  rw [hw]
  simp [here]

theorem oldestOp_true (oldest : ∀ e ∈ d.ops, e.1 ≠ id → e.2.party = o.party → e.2.cls = o.cls → o.stamp < e.2.stamp) :
    d.oldestOp id o = true := by
  unfold Dev.oldestOp
  rw [List.all_eq_true]
  intro e he
  by_cases same : e.1 = id
  · simp [same]
  · by_cases party : e.2.party = o.party
    · by_cases class_ : e.2.cls = o.cls
      · simp [oldest e he same party class_]
      · simp [class_]
    · simp [party]

theorem exec_decrementDelivery (ho : Table.find? s.dev.ops id = some o) (done : o.done = true)
    (oldest : ∀ e ∈ s.dev.ops, e.1 ≠ id → e.2.party = o.party → e.2.cls = o.cls → o.stamp < e.2.stamp) :
    exec (.decrementDelivery id) s = .next (withDev s
      (((o.faults.foldl (Dev.deliverFault s.host o) ({ s.dev with ops := Table.erase s.dev.ops id }.decrement o)).wakeTrywaits
        o).settle s.host)) := by
  change execDecrementDelivery id s = _
  unfold execDecrementDelivery
  simp only [run_eq, ho, done, oldestOp_true oldest, Bool.not_true, Bool.or_self, Bool.false_eq_true, if_false]

/-- R102, R250: an issuer once a decrement has reached it. -/
def counted (w : Warp) (o : EngineOp) : Warp :=
  { w with cnt := putAt 0 w.cnt o.cls (cntGet w.cnt o.cls - 1), flags := w.flags ||| o.flags }

theorem decrement_warp (party : o.party = .warp n) (hw : d.warp? n = some w) :
    d.decrement o = (d.setWarp n (counted w o)).patchRecord n o.cls := by
  unfold Dev.decrement
  simp only [party]
  rw [onWarp_eq hw]
  rfl

/-- R251: a decrement that no `trywait` waits for wakes nothing. -/
theorem wakeTrywaits_set (party : o.party = .warp n) (ho : w.posted = [] → ∀ x ∈ w.others, ∀ c m l, x.state ≠ .trywait c m l) :
    (d.setWarp n w).wakeTrywaits o = d.setWarp n w := by
  have same : ∀ p : Nat → Nat → Nat → Option Word, (if w.posted.isEmpty then w.endTrywaits p else w) = w := fun p => by
    split
    next none => exact endTrywaits_none (ho (List.isEmpty_iff.1 none))
    next => rfl
  unfold Dev.wakeTrywaits
  simp only [party]
  rw [onWarp_eq (Dev.warp?_setWarp d n w), same]
  unfold Dev.setWarp
  rw [Table_set_set]

theorem deliverFault_warp {e : EngineFault} (party : o.party = .warp n) (hw : d.warp? n = some w) (live : w.threads ≠ [])
    (outside : w.handler = none) (new : ∀ p ∈ w.posted, p.stamp ≠ o.stamp) :
    Dev.deliverFault h o d e = d.setWarp n
      { w with posted := w.posted ++ [⟨o.stamp, e.cause, 0, 0, o.lanes, o.pc, 0, 0, e.erec⟩] } := by
  have threads : w.threads.isEmpty = false := by simpa using live
  unfold Dev.deliverFault
  simp only [party, hw, threads, Bool.false_eq_true, if_false]
  unfold Dev.postFault
  rw [onWarp_eq hw]
  simp only [outside, addPosted_new (p := ⟨o.stamp, e.cause, 0, 0, o.lanes, o.pc, 0, 0, e.erec⟩) new]

/-- Settles O38: what waits is over, case by case. -/
theorem waitsEnd : Obligations.WaitsEnd := by
  unfold Obligations.WaitsEnd
  refine ⟨fun s id f r hf hr due => exec_fetResume hf hr due,
    fun s id w hw here idle ready free parked => exec_splitSelection hw here idle ready free parked,
    fun s id cls n w sp hw ho hs hp => exec_trywaitTimeout hw ho hs hp, ?_, ?_⟩
  · intro s id ch f st hf hst live
    refine ⟨fun rs d sent first read => ⟨exec_agenStreamRead hf hst live sent first read, fun mode => ?_⟩, fun waiting room => ?_⟩
    · rw [streamReads_addresses mode] at read
      obtain ⟨rfl, rfl⟩ := Prod.mk.inj (Except.ok.inj read)
      exact ⟨rfl, List.map_congr_left fun t _ => by rw [address_eq]; rfl⟩
    · rw [sendStream_eq hf hst waiting room]
      unfold Dev.sendEntries Dev.onStreamOf
      simp only [next_eq]
  · intro s id n o w ho done oldest party hw quiet w' d
    have found : ({ s.dev with ops := Table.erase s.dev.ops id }).warp? n = some w := hw
    have lowered := decrement_warp party found
    have plain (here : w.place = .resident) : (d w').patchRecord n o.cls = d w' :=
      patchRecord_resident (Table.find?_set_self ..) here
    rw [exec_decrementDelivery ho done oldest]
    refine ⟨fun none => ?_, plain, fun f one here live outside new => ?_⟩
    · obtain ⟨m, p, patched⟩ := patchRecord_memory (d w') n o.cls
      have same : ((d w').patchRecord n o.cls).wakeTrywaits o = (d w').patchRecord n o.cls := by
        rw [patched]
        exact wakeTrywaits_set (d := { s.dev with ops := Table.erase s.dev.ops id, mem := m, poison := p }) (w := w') party
          fun _ => quiet
      rw [none, List.foldl_nil, lowered]
      exact congrArg (fun e : Dev => Host.Outcome.next (withDev s (e.settle s.host))) same
    · have once := deliverFault_warp (h := s.host) (e := f) (d := d w') (w := w') party (Table.find?_set_self ..) live outside new
      have twice : (d w').setWarp n { w' with posted := w.posted ++ [⟨o.stamp, f.cause, 0, 0, o.lanes, o.pc, 0, 0, f.erec⟩] } =
          d { w' with posted := w.posted ++ [⟨o.stamp, f.cause, 0, 0, o.lanes, o.pc, 0, 0, f.erec⟩] } := by
        unfold Dev.setWarp
        rw [show (d w').warps = Table.set s.dev.warps n w' from rfl, Table_set_set]
      rw [one, List.foldl_cons, List.foldl_nil]
      refine congrArg (fun e : Dev => Host.Outcome.next (withDev s (e.settle s.host))) ?_
      rw [lowered.trans (plain here), once, wakeTrywaits_set party fun none => ?_, twice]
      simp at none

end Sys2Proof.Proofs
end

section
/-! PROOF. Traps that wait are taken, and the watchdogs raise theirs (R387, R393, R399, R400, R408, R440). -/

namespace Sys2Proof.Proofs

open Sys2Proof Sys2Proof.Machine Sys2Proof.Safety

variable {s : Machine.State} {h : HostPart} {d d' : Dev} {id team bar : Nat} {w : Warp} {p : Posted} {x : Split} {xs : List Split}
  {t : Team} {l : Launch}

/-- R387, R392: a warp that may take its trap enters its handler. -/
theorem deliver_enters (he : Enters h d id w p d') : ∃ w' l, d.deliver h id = d'.setWarp id w' ∧ d.launchOf w.team = some l ∧
    inHandler w w' (BitVec.ofNat 57 l.record.trapEntry.toNat) (d.handlerBase w.team w.w) p.cause := by
  obtain ⟨hw, outside, place, posted, quiet, launch, d₁, area, frame⟩ := he
  obtain ⟨l, hl⟩ := Option.isSome_iff_exists.1 launch
  refine ⟨_, l, ?_, hl, enterHandler_spec d id w _ _ _⟩
  rw [deliver_single hw place posted (quiet_trapReady quiet)]
  exact takeTrap_quiet hw outside quiet posted hl area frame

theorem entered_deliver (he : Enters h d id w p d') : entered d id w p d' (withDev s (d.deliver h id)) := by
  obtain ⟨w', l, taken, hl, inside⟩ := deliver_enters he
  exact ⟨(congrArg Dev.mem taken :), w', l, (congrArg (fun e : Dev => e.warp? id) taken).trans (Dev.warp?_setWarp d' id w'), hl, inside⟩

/-- R399, R408: a trap that the machine posts now, and that the warp takes at once. -/
theorem entered_posted (he : Enters s.host (withTrap s id p) id { w with posted := [p] } p d') :
    entered s.dev id w p d' (withDev s ((withTrap s id p).deliver s.host id)) := by
  obtain ⟨mem, w', l, found, hl, inside⟩ := entered_deliver (s := s) he
  exact ⟨mem, w', l, found, hl, inside⟩

theorem exec_engineFaultTrap (he : Enters s.host s.dev id w p d) (engine : p.erec ≠ []) :
    exec (.engineFaultTrap id) s = .next (withDev s (s.dev.deliver s.host id)) := by
  have erec : p.erec.isEmpty = false := by simpa using engine
  have oldest : (s.dev.warp? id).bind (fun w => oldestPosted w.posted) = some p := by
    rw [he.warp, Option.bind_some, he.posted]
    rfl
  change execEngineFaultTrap id s = _
  unfold execEngineFaultTrap
  simp only [run_eq, oldest, erec, Bool.false_eq_true, if_false]

theorem exec_progressStall (hw : s.dev.warp? id = some w) (none : w.posted = []) (limit : w.vlimit ≠ 0)
    (old : sortSplits (w.splits.filter fun x => decide (w.vlimit.toNat ≤ x.age) &&
      let st := (s.dev.wake id w x).state
      st == .ready || st == .join || st == .wsync) = x :: xs) :
    exec (.progressStall id) s = .next (withDev s
      ((withTrap s id (postedNow s 0x11 (unionMask (x :: xs)) x.pc)).deliver s.host id)) := by
  have stalled : w.stalledSplits (s.dev.wake id w) = x :: xs := by
    unfold Warp.stalledSplits
    rw [if_neg limit]
    exact old
  change execProgressStall id s = _
  unfold execProgressStall
  simp only [run_eq, hw, stalled, none, List.any_nil, Bool.false_eq_true, if_false]
  rfl

theorem exec_channelEmpty (hw : s.dev.warp? id = some w) (none : w.posted = []) (place : w.place = .resident)
    (dead : s.dev.channelsDead id w = true)
    (blocked : (sortSplits (w.splits.map (s.dev.wake id w))).filter (fun y => !y.blockedOn.isEmpty) = x :: xs) :
    exec (.channelEmpty id) s = .next (withDev s
      ((withTrap s id (postedNow s 0x0F (unionMask (x :: xs)) x.pc)).deliver s.host id)) := by
  change execChannelEmpty id s = _
  unfold execChannelEmpty
  simp only [run_eq, hw, place, dead, none, List.any_nil, beq_self_eq_true, Bool.not_false, Bool.and_self, if_true, blocked,
    List.head?_cons]
  rfl

/-! ## The barrier timeout -/

theorem exec_barrierTimeout (ht : s.dev.team? team = some t) (hl : s.dev.launchOf team = some l)
    (started : (t.bars.getD bar Barrier.reset).arrived ≠ 0) (old : 2 ^ 28 ≤ (t.bars.getD bar Barrier.reset).age)
    (idle : ∀ c ∈ t.cores, s.dev.laneBusy c = false)
    (dumped : s.dev.writeVa s.host l.slot t.core (s.dev.handlerBase team 0 + 0x7D40)
      (s.dev.barrierRecord team t l bar (t.bars.getD bar Barrier.reset)) = .ok d) :
    exec (.barrierTimeout team bar) s = .next (withDev s
      (((d.terminate s.host l.slot 0x10).report 0x07 3 l.slot t.core
        (s.dev.barrierRecord team t l bar (t.bars.getD bar Barrier.reset))).settle s.host)) := by
  have due : (decide ((t.bars.getD bar Barrier.reset).arrived = 0) || decide ((t.bars.getD bar Barrier.reset).age < 2 ^ 28) ||
      t.cores.any s.dev.laneBusy) = false := by
    have busy : t.cores.any s.dev.laneBusy = false := by
      rw [List.any_eq_false]
      intro c hc
      simp [idle c hc]
    simp only [started, Nat.not_lt.2 old, busy, decide_false, Bool.or_self]
  change execBarrierTimeout team bar s = _
  unfold execBarrierTimeout
  simp only [run_eq, ht, hl, due, Bool.false_eq_true, if_false, dumped]

theorem field_leBytes (n v : Nat) (bs : List Byte) : field (leBytes n v ++ bs) 0 n = v % 256 ^ n := by
  unfold field
  rw [List.drop_zero, List.take_left' (leBytes_length n v), leValue_leBytes]

theorem field_skip {as bs : List Byte} {off n : Nat} (past : as.length ≤ off) :
    field (as ++ bs) off n = field bs (off - as.length) n := by
  unfold field
  rw [List.drop_append, List.drop_eq_nil_of_le past, List.nil_append]

/-- R441: the fields of the diagnostic record. -/
theorem barrierRecord_fields (d : Dev) (team : Nat) (t : Team) (l : Launch) (bar : Nat) (b : Barrier) :
    (d.barrierRecord team t l bar b).length = 64 ∧ field (d.barrierRecord team t l bar b) 0 1 = 0x10 ∧
      field (d.barrierRecord team t l bar b) 1 1 = bar % 256 ∧
      field (d.barrierRecord team t l bar b) 4 2 = b.expected % 2 ^ 16 ∧
      field (d.barrierRecord team t l bar b) 6 2 = b.arrived % 2 ^ 16 := by
  refine ⟨by simp [Dev.barrierRecord, zeros], ?_, ?_, ?_, ?_⟩
  all_goals simp only [Dev.barrierRecord, List.append_assoc]
  · exact field_leBytes ..
  · rw [field_skip (by simp)]
    exact field_leBytes ..
  · iterate 4 rw [field_skip (by simp)]
    exact field_leBytes ..
  · iterate 5 rw [field_skip (by simp)]
    exact field_leBytes ..

/-- Settles O39: delivery, the two watchdogs of a warp, and that of a barrier. -/
theorem trapsAreDelivered : Obligations.TrapsAreDelivered := by
  unfold Obligations.TrapsAreDelivered
  refine ⟨fun s id w p d he => ⟨⟨_, rfl, entered_deliver he⟩, fun engine => ⟨_, exec_engineFaultTrap he engine, entered_deliver he⟩⟩,
    ?_, ?_⟩
  · refine fun s id w x xs d hw none => ⟨fun limit old => ?_, fun place dead blocked => ?_⟩
    · exact fun he => ⟨_, exec_progressStall hw none limit old, entered_posted he⟩
    · exact fun he => ⟨_, exec_channelEmpty hw none place dead blocked, entered_posted he⟩
  · intro s team bar t l d ht hl started old idle record dumped
    exact ⟨exec_barrierTimeout ht hl started old idle dumped, barrierRecord_fields s.dev team t l bar _⟩

end Sys2Proof.Proofs
end

section
/-! PROOF. What stops an instruction at its issue (R142, R386, R394, R405, R406). -/

namespace Sys2Proof.Proofs

open Sys2Proof Sys2Proof.Machine Sys2Proof.Safety

variable {s : Machine.State} {id bytes : Nat} {w : Warp} {sp : Split} {n : Need} {i : Instr} {b : Bool} {f : MemForm}
  {off : BitVec 16} {p : Posted}

/-- The instruction comes about once its need is met. -/
def IssuesWith (i : Instr) (n : Need) : Prop :=
  ∃ k : HostPart → Dev → Nat → Warp → Split → Dev, ∀ s, exec i s = s.run fun hp d => d.issueWarp hp n (k hp d)

theorem issuesWith_laneOp {o : LaneOp} (hexec : ∀ s, exec i s = s.run fun hp d => d.laneOp hp bytes b 0 Route.stack o)
    (hn : n = Need.of bytes b (o.x + o.a + o.b) o.r) : IssuesWith i n := by
  rw [hn, ← need_stack]
  exact ⟨_, hexec⟩

theorem issuesWith_word {o : WordForm} (h : wordForm i = some o) : IssuesWith i (Need.of o.bytes o.w o.pops 1) := by
  cases i
  case add b nat sat | sub b nat sat => cases sat <;> cases nat <;> cases h <;> exact issuesWith_laneOp (fun _ => rfl) rfl
  case mul | mulh | div | rem | neg | abs | min | max | and | or | xor | not | shl | shr | sra | rotl | popc | clz | ctz | brev |
      sel | mad =>
    cases h
    exact issuesWith_laneOp (fun _ => rfl) rfl
  case icmp b nat cond =>
    change (if cond.toNat < 6 then some _ else none) = some o at h
    split at h
    next legal => cases h; exact issuesWith_laneOp (exec_icmp legal) rfl
    · nomatch h
  case bfe b signed len pos =>
    change (if pos.toNat + len.toNat < 32 then some _ else none) = some o at h
    split at h
    next legal => cases h; exact issuesWith_laneOp (exec_bfe legal) rfl
    · nomatch h
  case bfi b len pos =>
    change (if pos.toNat + len.toNat < 32 then some _ else none) = some o at h
    split at h
    next legal => cases h; exact issuesWith_laneOp (exec_bfi legal) rfl
    · nomatch h
  all_goals nomatch h

theorem issuesWith_pair {o : PairForm} (h : pairForm i = some o) : IssuesWith i (Need.of 2 o.w o.pops o.pushes) := by
  cases i
  case add2 | sub2 | mulw | shl2 | shr2 | lea => cases h; exact issuesWith_laneOp (fun _ => rfl) rfl
  case icmp2 b nat cond =>
    change (if cond.toNat < 6 then some _ else none) = some o at h
    split at h
    next legal => cases h; exact issuesWith_laneOp (exec_icmp2 legal) rfl
    · nomatch h
  all_goals nomatch h

/-- What an instruction on memory does once its need is met (R237, R249, R390). -/
def memoryEffect (i : Instr) (b : Bool) (off : BitVec 16) (f : MemForm) (hp : HostPart) (d : Dev) (id : Nat) (w : Warp)
    (sp : Split) : Dev :=
  if f.kind == AccessKind.swapIf && f.bytes == 8 then d.issueWide hp id w sp (memoryNeed i b f) i f
  else
    d.checked hp id sp
      (addressChecks w sp off f.bytes ++ if f.kind == AccessKind.load then [] else [d.sealedCheck w sp off f.bytes])
      (d.issueAccesses id w sp (memoryNeed i b f) i f off [])

theorem exec_memoryEffect (h : memoryForm i = some (b, off, f)) (s : Machine.State) :
    exec i s = s.run fun hp d => d.issueWarp hp (memoryNeed i b f) (memoryEffect i b off f hp d) := by
  obtain ⟨form, meaning⟩ := exec_memory h
  rw [meaning]
  unfold Dev.memoryOp
  rw [form]
  rfl

/-- The instructions on memory are neither on words nor on pairs. -/
theorem memoryForm_only {x : Bool × BitVec 16 × MemForm} (h : memoryForm i = some x) : wordForm i = none ∧ pairForm i = none := by
  cases i
  case ld | st | ldo | sto | atom | red | cas => exact ⟨rfl, rfl⟩
  all_goals nomatch h

/-- The cells that are judged first: the address of a store. -/
def judgedFirst (i : Instr) : List Nat := if (memoryForm i).any (fun x => x.2.2.kind == .store) then [0, 1] else []

theorem operandNeed_spec (h : operandNeed i = some n) :
    IssuesWith i n ∧ n.reads = List.range n.pops ∧ n.early = judgedFirst i := by
  unfold operandNeed at h
  cases hm : memoryForm i with
  | none =>
    have first : judgedFirst i = [] := by simp [judgedFirst, hm]
    rw [first]
    split at h
    next o hw => cases h; exact ⟨issuesWith_word hw, rfl, rfl⟩
    next o hp _ => cases h; exact ⟨issuesWith_pair hp, rfl, rfl⟩
    next hm' _ _ => nomatch hm.symm.trans hm'
    · nomatch h
  | some x =>
    obtain ⟨b, off, f⟩ := x
    obtain ⟨word, pair⟩ := memoryForm_only hm
    simp only [word, pair, hm] at h
    cases h
    exact ⟨⟨_, exec_memoryEffect hm⟩, rfl, by simp [judgedFirst, hm, memoryNeed]⟩

/-! ## The conditions of issue -/

theorem empties_range (t : Thread) (k : Nat) :
    (!(t.empties (List.range k)).isEmpty) = (t.stack.take k).any fun x => x.ticket?.isSome := by
  rw [Bool.eq_iff_iff]
  simp only [Thread.empties, Bool.not_eq_true', List.isEmpty_eq_false_iff_exists_mem, List.mem_filterMap, List.mem_range,
    List.any_eq_true, Option.isSome_iff_exists, Option.bind_eq_some_iff]
  constructor
  · rintro ⟨x, m, hm, c, hc, hx⟩
    exact ⟨c, List.mem_of_getElem? (i := m) (by rw [List.getElem?_take_of_lt hm]; exact hc), x, hx⟩
  · rintro ⟨c, hc, x, hx⟩
    obtain ⟨m, hm, rfl⟩ := List.mem_iff_getElem.1 hc
    rw [List.length_take] at hm
    exact ⟨x, m, by omega, _, by rw [List.getElem?_eq_getElem (by omega), List.getElem_take], hx⟩

/-- The threads of a split that have an empty cell among their first ones. -/
def lacking (w : Warp) (sp : Split) (cells : Nat) : List Thread :=
  (w.threadsOf sp.mask).filter fun t => (t.stack.take cells).any fun x => x.ticket?.isSome

theorem lacking_reads {reads : List Nat} (hr : reads = List.range n.pops) :
    (w.threadsOf sp.mask).filter (fun t => !(t.empties reads).isEmpty) = lacking w sp n.pops := by
  subst hr
  simp only [empties_range]
  rfl

theorem lacking_first (i : Instr) : (w.threadsOf sp.mask).filter (fun t => !(t.empties (judgedFirst i)).isEmpty) =
    if (memoryForm i).any (fun x => x.2.2.kind == .store) then lacking w sp 2 else [] := by
  unfold judgedFirst
  split
  · rw [show [0, 1] = List.range 2 from rfl]
    simp only [empties_range]
    rfl
  · rw [List.filter_eq_nil_iff]
    exact fun t _ => Bool.false_ne_true

/-- R386, R387: an instruction that traps where the warp can take the trap. -/
theorem raises_of {cause : BitVec 8} {lanes : Mask} {va : Dword}
    (h : exec i s = .next (withDev s (s.dev.raise s.host id sp cause lanes va 0))) :
    raises s id w i ⟨s.dev.nextId, cause, 0, 0, lanes, sp.pc, va, 0, []⟩ := by
  intro _ d he
  exact ⟨_, h, entered_posted he⟩

theorem exec_refused {v : Verdict} (hi : IssuesWith i n) (h : Issues s id w sp) (hv : s.dev.verdict id w sp n = v)
    (stop : v ≠ .go) : exec i s = .next (withDev s (s.dev.refused s.host id w sp v)) := by
  obtain ⟨k, meaning⟩ := hi
  rw [meaning, run_eq, issueWarp_refused h hv stop]

/-! ## Addresses and handler mode -/

theorem maskOf_ne_zero {ls : List Nat} {l : Nat} (hl : l ∈ ls) (small : l < 32) : maskOf ls ≠ 0 := by
  intro zero
  have bit := getLsbD_maskOf small ls
  rw [zero, decide_eq_true hl] at bit
  simp at bit

/-- R406: the first check passes and the second fails, first in the lane `l`. -/
theorem firstFailing_second {ls : List Nat} {bad : Nat → Bool} {va : Nat → Dword} {cause : BitVec 8} {c : ValueCheck}
    {cs : List ValueCheck} {l : Nat} (pass : c.lanes = 0) (found : ls.find? bad = some l) (small : l < 32) :
    firstFailing (c :: valueCheck cause ls bad va :: cs) = some ⟨cause, maskOf (ls.filter bad), va l⟩ := by
  have head : (ls.filter bad).head? = some l := by rw [List.head?_filter, found]
  have there : l ∈ ls.filter bad := List.mem_of_mem_head? head
  have fails : (valueCheck cause ls bad va).lanes ≠ 0 := maskOf_ne_zero there small
  have same : valueCheck cause ls bad va = ⟨cause, maskOf (ls.filter bad), va l⟩ := by
    unfold valueCheck
    simp only [head]
  unfold firstFailing
  rw [List.find?_cons_of_neg (by simp [pass]), List.find?_cons_of_pos (by simpa using fails), same]

theorem memoryEffect_misaligned {hp : HostPart} {d : Dev} {l : Nat} (h : memoryForm i = some (b, off, f))
    (low : ∀ l ∈ lanesOf sp.mask, (address w off l).toNat < 2 ^ 57)
    (found : (lanesOf sp.mask).find? (fun l => decide ((address w off l).toNat % f.bytes ≠ 0)) = some l) :
    memoryEffect i b off f hp d id w sp = d.raise hp id sp 0x0B
      (maskOf ((lanesOf sp.mask).filter fun l => decide ((address w off l).toNat % f.bytes ≠ 0))) (address w off l) 0 := by
  have small : l < 32 := List.mem_range.1 (List.mem_filter.1 (List.mem_of_find?_eq_some found)).1
  have decided : (fun l => (address w off l).toNat % f.bytes != 0) = fun l => decide ((address w off l).toNat % f.bytes ≠ 0) := by
    funext l
    exact Bool.eq_iff_iff.2 (by simp)
  have failing (cs : List ValueCheck) : firstFailing (addressChecks w sp off f.bytes ++ cs) = some ⟨0x0B,
      maskOf ((lanesOf sp.mask).filter fun l => decide ((address w off l).toNat % f.bytes ≠ 0)), address w off l⟩ := by
    unfold addressChecks
    simp only [ofLane_ea, decided]
    refine firstFailing_second (valueCheck_lanes_zero fun l hl => ?_) found small
    rw [highBits_zero (low l hl)]
    rfl
  unfold memoryEffect
  split
  next wide =>
    have zero : off = 0 := by
      simp only [Bool.and_eq_true, beq_iff_eq] at wide
      cases i
      case ld | st | ldo | sto | atom | red => cases h; nomatch wide.1
      case cas => cases h; rfl
      all_goals nomatch h
    subst zero
    unfold Dev.issueWide
    have fails := failing []
    rw [List.append_nil] at fails
    exact checked_fail fails _
  next => exact checked_fail (failing _) _

theorem misplaced_warp (h : Issues s id w sp) : s.dev.misplaced s.host = s.dev.raise s.host id sp 0x01 sp.mask 0 0 := by
  unfold Dev.misplaced
  simp only [h.issuer, h.warp, Option.bind_some, h.cur]

theorem issueHandler_outside {legal : Warp → Bool} {k : Nat → Warp → Handler → Split → Dev} (h : Issues s id w sp)
    (outside : w.handler = none) : s.dev.issueHandler s.host n legal k = s.dev.raise s.host id sp 0x01 sp.mask 0 0 := by
  rw [← misplaced_warp h]
  unfold Dev.issueHandler
  simp only [h.issuer, h.warp, outside]

theorem exec_outsideHandler {e g : BitVec 4} (hi : i = .rte ∨ i = .rplq b e g ∨ i = .wplq b e g) (h : Issues s id w sp)
    (outside : w.handler = none) : exec i s = .next (withDev s (s.dev.raise s.host id sp 0x01 sp.mask 0 0)) := by
  rcases hi with rfl | rfl | rfl
  · exact congrArg (fun d => Host.Outcome.next (withDev s d)) (issueHandler_outside h outside)
  · exact congrArg (fun d => Host.Outcome.next (withDev s d)) (issueHandler_outside h outside)
  · exact congrArg (fun d => Host.Outcome.next (withDev s d)) (issueHandler_outside h outside)

/-- Settles O51: the verdicts in their order, a misaligned address, and handler mode. -/
theorem issueChecks : Obligations.IssueChecks := by
  unfold Obligations.IssueChecks
  refine ⟨fun i n s id w sp hn h => ?_, ?_, ?_⟩
  · intro deep fits c empty early bad
    obtain ⟨hi, reads, first⟩ := operandNeed_spec hn
    have hearly : (w.threadsOf sp.mask).filter (fun t => !(t.empties n.early).isEmpty) = early := by
      rw [first]
      exact lacking_first i
    have hbad : (w.threadsOf sp.mask).filter (fun t => !(t.empties n.reads).isEmpty) = bad := lacking_reads reads
    have judged : (if early.isEmpty then bad else early) = if early = [] then bad else early :=
      if_congr List.isEmpty_iff rfl rfl
    have refused (v : Verdict) := exec_refused (v := v) hi h
    unfold Dev.verdict at refused
    simp only [hearly, hbad, judged] at refused
    have some (lacks : bad ≠ []) : (!(if early = [] then bad else early).isEmpty) = true := by
      split <;> simp [*]
    refine ⟨fun shallow => raises_of (refused (.trap 0x06 sp.mask) ?_ nofun),
      fun deep high => raises_of (refused (.trap 0x05 sp.mask) ?_ nofun),
      fun deep fits moves => refused (.transfer c) ?_ nofun,
      fun deep fits same lacks strict => raises_of (refused (.trap 0x07 _) ?_ nofun),
      fun deep fits same lacks waits =>
        ⟨_, refused (.wait (.cells ((if early = [] then bad else early).flatMap fun t => t.empties n.reads))) ?_ nofun⟩⟩
    · rw [if_pos (Nat.not_le.1 shallow)]
    · rw [if_neg (Nat.not_lt.2 deep), if_pos (Nat.not_le.1 high)]
    · rw [if_neg (Nat.not_lt.2 deep), if_neg (Nat.not_lt.2 fits), if_pos moves]
    · rw [if_neg (Nat.not_lt.2 deep), if_neg (Nat.not_lt.2 fits), if_neg (not_not.2 same), if_pos (some lacks), if_pos strict]
    · rw [if_neg (Nat.not_lt.2 deep), if_neg (Nat.not_lt.2 fits), if_neg (not_not.2 same), if_pos (some lacks),
        if_neg (by simp [waits])]
  · intro i b off f s id w sp l hm h low found
    refine raises_of ?_
    rw [exec_memoryEffect hm, run_eq, issueWarp_ready h, memoryEffect_misaligned hm low found]
  · exact fun i s id w sp b e g hi h outside => raises_of (exec_outsideHandler hi h outside)

end Sys2Proof.Proofs
end

section
/-! PROOF. The elements of the tiles after an `mma`, and a cleared tile (R267, R274, R275, R288). -/

namespace Sys2Proof.Proofs

open Sys2Proof Sys2Proof.Machine Sys2Proof.Safety

variable {m : Matrix} {f : MmaForm}

/-! ## Tables with a range of entries replaced -/

theorem find?_append {α : Type} (t u : Table α) (k : Nat) : Table.find? (t ++ u) k = (Table.find? t k).or (Table.find? u k) := by
  induction t with
  | nil => rfl
  | cons e t ih =>
    obtain ⟨n, v⟩ := e
    simp only [List.cons_append, Table.find?]
    split
    · rfl
    · exact ih

theorem find?_filter_key {α : Type} (p : Nat → Bool) (t : Table α) (k : Nat) :
    Table.find? (t.filter fun e => p e.1) k = if p k then Table.find? t k else none := by
  induction t with
  | nil => simp
  | cons e t ih =>
    obtain ⟨n, v⟩ := e
    by_cases same : n = k
    · subst same
      cases hp : p n <;> simp [hp, Table.find?, ih]
    · cases hp : p n <;> simp [hp, Table.find?, ih, same]

theorem find?_range {α : Type} [DecidableEq α] (zero : α) (lo n : Nat) (g : Nat → α) (k : Nat) :
    Table.find? (((List.range n).map fun k => (lo + k, g k)).filter fun e => e.2 != zero) k =
      if (lo ≤ k ∧ k < lo + n) ∧ g (k - lo) ≠ zero then some (g (k - lo)) else none := by
  induction n with
  | zero => rw [if_neg (by omega)]; rfl
  | succ n ih =>
    rw [List.range_succ, List.map_append, List.filter_append, find?_append, ih]
    by_cases last : k = lo + n
    · subst last
      rw [if_neg (by omega), Option.none_or, Nat.add_sub_cancel_left]
      by_cases hz : g n = zero
      · simp [hz]
      · simp [hz, Table.find?]
    · have none : Table.find? (([n].map fun k => (lo + k, g k)).filter fun e => e.2 != zero) k = none := by
        by_cases hz : g n = zero
        · simp [hz]
        · simp [hz, Table.find?, Ne.symm last]
      rw [none, Option.or_none]
      exact if_congr (and_congr_left fun _ => by omega) rfl rfl

/-- R265: an entry of a store after a range of its entries has been replaced. -/
theorem get_replace {α : Type} [DecidableEq α] (zero : α) (t : Table α) (lo n : Nat) (g : Nat → α) (k : Nat) :
    Table.get (Table.replace zero t lo n g) k zero = if lo ≤ k ∧ k < lo + n then g (k - lo) else Table.get t k zero := by
  have below := find?_filter_key (fun k => decide (k < lo)) t k
  have above := find?_filter_key (fun k => decide (lo + n ≤ k)) t k
  simp only [decide_eq_true_eq] at below above
  unfold Table.get Table.replace
  rw [find?_append, find?_append, find?_range, below, above]
  by_cases inside : lo ≤ k ∧ k < lo + n
  · rw [if_neg (Nat.not_lt.2 inside.1), if_neg (Nat.not_le.2 inside.2), if_pos inside, Option.or_none, Option.none_or]
    by_cases hz : g (k - lo) = zero
    · rw [if_neg fun c => c.2 hz, hz]; rfl
    · rw [if_pos ⟨inside, hz⟩]; rfl
  · have absent : ¬((lo ≤ k ∧ k < lo + n) ∧ g (k - lo) ≠ zero) := fun c => inside c.1
    rw [if_neg absent, if_neg inside, Option.or_none]
    by_cases low : k < lo
    · rw [if_pos low, if_neg (by omega), Option.or_none]
    · rw [if_neg low, if_pos (by omega), Option.none_or]

/-! ## One row of an `mma` -/

/-- R274: the elements of a row, over all its columns. -/
def rowValues (f : MmaForm) (w : Option Nat) (columns : List (List KBlock)) (as : List KBlock) (m : Matrix) (i : Nat) : List Word :=
  columns.mapIdx fun n bs =>
    accumulate w f.cplx (n % 2 == 0) (if f.acc then some (m.tile (f.tile + n / 512) i (n % 512)) else none) as bs

/-- R267: a row of elements put into some tile slots, from the first one on. -/
def putRow (tile i : Nat) (values : List Word) (m : Matrix) (t : Nat) : Matrix :=
  let vs := (values.drop ((t - tile) * 512)).take 512
  { m with tiles := Table.replace 0 m.tiles (tileKey t i 0) vs.length fun c => vs.getD c 0 }

/-- R267: the column of a row that an element of a tile slot is. -/
def columnAt (tile t c : Nat) : Nat := (t - tile) * 512 + c

theorem putRow_tile (m : Matrix) (values : List Word) {tile i t t' i' c : Nat} (hi : i < 16) (hi' : i' < 16) (hc : c < 512) :
    (putRow tile i values m t).tile t' i' c =
      if t' = t ∧ i' = i ∧ columnAt tile t c < values.length then values.getD (columnAt tile t c) 0 else m.tile t' i' c := by
  have length : ((values.drop ((t - tile) * 512)).take 512).length = min 512 (values.length - (t - tile) * 512) := by simp
  unfold putRow Matrix.tile
  dsimp only
  rw [get_replace, length]
  unfold tileKey columnAt
  refine ite_congr (propext ⟨fun h => ?_, fun h => ?_⟩) (fun h => ?_) fun _ => rfl
  · omega
  · omega
  · obtain ⟨rfl, rfl, inside⟩ := h
    have place : (t' * 16 + i') * 512 + c - ((t' * 16 + i') * 512 + 0) = c := by omega
    rw [place, List.getD_eq_getElem?_getD, List.getElem?_take_of_lt hc, List.getElem?_drop, ← List.getD_eq_getElem?_getD]

theorem putRows_tile (m : Matrix) (values : List Word) {tile i k t' i' c : Nat} (hi : i < 16) (hi' : i' < 16) (hc : c < 512) :
    (((List.range k).map (tile + ·)).foldl (putRow tile i values) m).tile t' i' c =
      if (tile ≤ t' ∧ t' < tile + k) ∧ i' = i ∧ columnAt tile t' c < values.length then values.getD (columnAt tile t' c) 0
      else m.tile t' i' c := by
  induction k with
  | zero => rw [if_neg (by omega)]; rfl
  | succ k ih =>
    rw [List.range_succ, List.map_append, List.foldl_append, List.map_cons, List.map_nil, List.foldl_cons, List.foldl_nil,
      putRow_tile _ _ hi hi' hc, ih]
    by_cases last : t' = tile + k
    · subst last
      by_cases inside : i' = i ∧ columnAt tile (tile + k) c < values.length
      · rw [if_pos ⟨rfl, inside⟩, if_pos ⟨by omega, inside⟩]
      · rw [if_neg fun c => inside c.2, if_neg fun c => inside c.2, if_neg fun c => inside c.2]
    · rw [if_neg fun c => last c.1]
      exact if_congr (and_congr_left fun _ => by omega) rfl rfl

/-! ## All rows -/

/-- R278: the NaN counter of a tile slot's row, with the NaNs of A and of B. -/
def putNans (f : MmaForm) (i nansA nansB : Nat) (m : Matrix) (t : Nat) : Matrix :=
  let old := if f.acc then Table.get m.nanc (nancKey t i) 0 else 0
  { m with nanc := Table.replace 0 m.nanc (nancKey t i) 1 fun _ => Nat.min (old + nansA + nansB) 65535 }

theorem putNans_frame (i a b : Nat) (ts : List Nat) (m : Matrix) :
    ts.foldl (putNans f i a b) m = { m with nanc := (ts.foldl (putNans f i a b) m).nanc } := by
  induction ts generalizing m with
  | nil => rfl
  | cons t ts ih => rw [List.foldl_cons, ih]; rfl

theorem putRows_frame (tile i : Nat) (values : List Word) (ts : List Nat) (m : Matrix) :
    ts.foldl (putRow tile i values) m = { m with tiles := (ts.foldl (putRow tile i values) m).tiles } := by
  induction ts generalizing m with
  | nil => rfl
  | cons t ts ih => rw [List.foldl_cons, ih]; rfl

/-- What an `mma` has read before its rows: its window, the columns of B, the number of their NaNs, and A. -/
structure MmaOperands where
  w : Option Nat
  columns : List (List KBlock)
  nansB : Nat
  payload : List Byte
  exps : List Byte

variable {x : MmaOperands}

/-- The elements of row i, where the tiles are those of a matrix state. -/
def MmaOperands.row (x : MmaOperands) (f : MmaForm) (m : Matrix) (i : Nat) : List Word :=
  rowValues f x.w x.columns (rowBlocks f.ca f.cb f.nazA x.payload x.exps i) m i

/-- One row of an `mma`. -/
def multiplyRow (f : MmaForm) (x : MmaOperands) (m : Matrix) (i : Nat) : Matrix :=
  let slots := (List.range (tilesOf f.cb)).map (f.tile + ·)
  let nansA := if f.nazA then countNans (rowBlocks f.ca f.cb false x.payload x.exps i) else 0
  let n := slots.foldl (putNans f i nansA x.nansB) m
  slots.foldl (putRow f.tile i (x.row f n i)) n

theorem multiplyRow_frame (f : MmaForm) (x : MmaOperands) (m : Matrix) (i : Nat) :
    multiplyRow f x m i = { m with tiles := (multiplyRow f x m i).tiles, nanc := (multiplyRow f x m i).nanc } := by
  unfold multiplyRow
  rw [putRows_frame, putNans_frame]

theorem row_length (f : MmaForm) (x : MmaOperands) (m : Matrix) (i : Nat) : (x.row f m i).length = x.columns.length := by
  simp [MmaOperands.row, rowValues]

theorem multiplyRow_tile {t i i' c : Nat} (m : Matrix) (hi : i < 16) (hi' : i' < 16) (hc : c < 512) :
    (multiplyRow f x m i).tile t i' c =
      if (f.tile ≤ t ∧ t < f.tile + tilesOf f.cb) ∧ i' = i ∧ columnAt f.tile t c < x.columns.length then
        (x.row f m i).getD (columnAt f.tile t c) 0
      else m.tile t i' c := by
  unfold multiplyRow
  dsimp only
  rw [putNans_frame, putRows_tile _ _ hi hi' hc, row_length]
  rfl

/-- R274: the rows of an `mma` up to one of them: each element of those rows, and every other as it was. -/
theorem multiplyRows_tile {k t i c : Nat} (m : Matrix) (hk : k ≤ 16) (hi : i < 16) (hc : c < 512) :
    ((List.range k).foldl (multiplyRow f x) m).tile t i c =
      if i < k ∧ (f.tile ≤ t ∧ t < f.tile + tilesOf f.cb) ∧ columnAt f.tile t c < x.columns.length then
        (x.row f m i).getD (columnAt f.tile t c) 0
      else m.tile t i c := by
  induction k generalizing t i c with
  | zero => rw [if_neg (by omega)]; rfl
  | succ k ih =>
    have before : ∀ {t c : Nat}, c < 512 → ((List.range k).foldl (multiplyRow f x) m).tile t k c = m.tile t k c := fun hc => by
      rw [ih (Nat.le_of_succ_le hk) hk hc, if_neg fun h => Nat.lt_irrefl k h.1]
    have same : x.row f ((List.range k).foldl (multiplyRow f x) m) k = x.row f m k := by
      unfold MmaOperands.row rowValues
      simp only [before (Nat.mod_lt _ (by decide))]
    rw [List.range_succ, List.foldl_append, List.foldl_cons, List.foldl_nil, multiplyRow_tile _ hk hi hc, same,
      ih (Nat.le_of_succ_le hk) hi hc]
    by_cases last : i = k
    · subst last
      by_cases inside : (f.tile ≤ t ∧ t < f.tile + tilesOf f.cb) ∧ columnAt f.tile t c < x.columns.length
      · rw [if_pos ⟨inside.1, rfl, inside.2⟩, if_pos ⟨Nat.lt_succ_self i, inside⟩]
      · rw [if_neg fun h => inside ⟨h.1, h.2.2⟩, if_neg fun h => Nat.lt_irrefl i h.1, if_neg fun h => inside h.2]
    · rw [if_neg fun h => last h.2.1]
      exact if_congr (and_congr_left fun _ => by omega) rfl rfl

theorem multiplyRows_frame (f : MmaForm) (x : MmaOperands) (is : List Nat) (m : Matrix) : is.foldl (multiplyRow f x) m =
    { m with tiles := (is.foldl (multiplyRow f x) m).tiles, nanc := (is.foldl (multiplyRow f x) m).nanc } := by
  induction is generalizing m with
  | nil => rfl
  | cons i is ih => rw [List.foldl_cons, ih, multiplyRow_frame]

/-- What an `mma` reads of a matrix state (R268, R273, R278, R279). -/
def operandsOf (m : Matrix) (f : MmaForm) (payload exps : List Byte) : MmaOperands :=
  let banks := (List.range 4).map fun q => bankOf m.roles q f.back
  let rowsOf := (List.range 4).map fun q => (List.range 128).map fun r => Table.get m.banks (bankKey q (banks.getD q 0) r) 0
  { w := match blockOf f.ca, blockOf f.cb with
      | some ma, some mb => some (254 + ma + mb)
      | _, _ => none
    columns := (List.range (columnsOf f.cb)).map fun n => columnBlocks f.cb f.nazB m banks rowsOf n
    nansB := if f.nazB then
        ((List.range (columnsOf f.cb)).map fun n => countNans (columnBlocks f.cb false m banks rowsOf n)).foldl (· + ·) 0
      else 0
    payload := payload
    exps := exps }

theorem multiply_eq (m : Matrix) (f : MmaForm) (payload exps : List Byte) :
    m.multiply f payload exps = (List.range f.rows).foldl (multiplyRow f (operandsOf m f payload exps)) m := rfl

/-- R274: the element of a row in a column. -/
theorem row_getD {n i : Nat} (m' : Matrix) (payload exps : List Byte) (hn : n < columnsOf f.cb) :
    let x := operandsOf m f payload exps
    let banks := (List.range 4).map fun q => bankOf m.roles q f.back
    let rowsOf := (List.range 4).map fun q => (List.range 128).map fun r => Table.get m.banks (bankKey q (banks.getD q 0) r) 0
    (x.row f m' i).getD n 0 = accumulate x.w f.cplx (n % 2 == 0)
      (if f.acc then some (m'.tile (f.tile + n / 512) i (n % 512)) else none)
      (rowBlocks f.ca f.cb f.nazA payload exps i) (columnBlocks f.cb f.nazB m banks rowsOf n) := by
  intro x banks rowsOf
  have column : x.columns[n]? = some (columnBlocks f.cb f.nazB m banks rowsOf n) := by
    change ((List.range (columnsOf f.cb)).map fun n => columnBlocks f.cb f.nazB m banks rowsOf n)[n]? = _
    simp [hn]
  unfold MmaOperands.row rowValues
  rw [List.getD_eq_getElem?_getD, List.getElem?_mapIdx, column]
  rfl

/-! ## A cleared tile -/

theorem clearTile_matrix (d : Dev) (core tile : Nat) : ((Dev.clearTile tile d core).core core).matrix =
    { (d.core core).matrix with
      tiles := Table.replace 0 (d.core core).matrix.tiles (tileKey tile 0 0) 8192 fun _ => 0
      nanc := Table.replace 0 (d.core core).matrix.nanc (nancKey tile 0) 16 fun _ => 0
      restart := none } := by
  unfold Dev.clearTile Dev.onMatrix Dev.onCore
  rw [Dev.core_setCore]
  rfl

/-- Settles O41: the rows of an `mma`, then a cleared tile. -/
theorem tileResults : Obligations.TileResults := by
  unfold Obligations.TileResults
  refine ⟨fun m f payload exps => ?_, fun d core tile => ?_⟩
  · intro banks rowsOf w m' rows
    have columns : (operandsOf m f payload exps).columns.length = columnsOf f.cb := by simp [operandsOf]
    have tile := fun t i c => multiplyRows_tile (f := f) (x := operandsOf m f payload exps) (t := t) (i := i) (c := c) m rows
    have frame := multiplyRows_frame f (operandsOf m f payload exps) (List.range f.rows) m
    rw [← multiply_eq] at frame
    simp only [← multiply_eq] at tile
    refine ⟨fun i hi n hn slot => ?_, fun t i c hi hc apart => ?_, frame⟩
    · have place : columnAt f.tile (f.tile + n / 512) (n % 512) = n := by
        unfold columnAt
        omega
      refine (tile _ _ _ (by omega) (Nat.mod_lt n (by decide))).trans ?_
      rw [place, columns, if_pos ⟨hi, ⟨by omega, by omega⟩, hn⟩]
      exact row_getD m payload exps hn
    · refine (tile t i c hi hc).trans (if_neg ?_)
      omega
  · intro m m'
    have cleared : m' = _ := clearTile_matrix d core tile
    rw [cleared]
    refine ⟨fun i hi c hc => ⟨?_, fun t other => ?_⟩, fun i hi => ?_, rfl, rfl, rfl⟩
    · unfold Matrix.tile tileKey
      rw [get_replace, if_pos (by omega)]
    · unfold Matrix.tile tileKey
      rw [get_replace, if_neg (by omega)]
    · unfold nancKey
      rw [get_replace, if_pos (by omega)]

end Sys2Proof.Proofs
end

section
/-! PROOF. Copy commands: their start, their completion record and their end (R107, R304, R314, R317 to R320). -/

namespace Sys2Proof.Proofs

open Sys2Proof Sys2Proof.Machine Sys2Proof.Safety

variable {s : Machine.State} {hp : HostPart} {d : Dev} {id : Nat} {c : Copy} {o : EngineOp} {i : Instr} {coords : List Word}
  {tlr base src dst count : Dword} {e : CopyEnd} {l : Launch} {t : Team} {ring rlog : Nat}

theorem exec_copyStart_tile {bs : List Byte} (hc : Table.find? s.dev.copies id = some c) (ho : Table.find? s.dev.ops id = some o)
    (work : c.work = .tile i coords tlr base) (new : c.started = false) (free : c.held = false)
    (ready : s.dev.allPerformed o.deps = true) (read : s.dev.readVa s.host c.slot c.core tlr.toNat 128 = .ok (bs, d)) :
    exec (.copyCommandStart id) s = .next (withDev s (d.setCopy id { c with started := true, layout := some bs })) := by
  change execCopyCommandStart id s = _
  unfold execCopyCommandStart
  simp only [run_eq, hc, ho, new, free, ready, Bool.not_true, Bool.or_self, Bool.false_eq_true, if_false, work, read]

theorem exec_copyStart_bytes (hc : Table.find? s.dev.copies id = some c) (ho : Table.find? s.dev.ops id = none) :
    exec (.copyCommandStart id) s = .next (withDev s (s.dev.setCopy id { c with started := true })) := by
  change execCopyCommandStart id s = _
  unfold execCopyCommandStart
  simp only [run_eq, hc, ho]

/-- R318: the bit of a record that says that a front-end context issued the copy. -/
def issuerBit (o : EngineOp) : Nat :=
  match o.party with
  | .fet _ => 4
  | _ => 0

/-- R317, R318: the record of a copy's end, whose number is the ring's write index. -/
def endRecord (c : Copy) (o : EngineOp) (e : CopyEnd) (index : Nat) : List Byte :=
  completionRecord c.tag e.status (e.rflags + issuerBit o) index e.bytes (detailOf e.status e.code e.va e.clipped)
    (e.d.clockOf c.core)

theorem pushRecord_written {team n slot core : Nat} {record : Nat → List Byte} (ht : d.team? team = some t) {d' : Dev}
    (written : (d.onTeam team fun t' => { t' with rings := putAt 0 t'.rings n (t.rings.getD n 0 + 1) }).writeVa hp slot core
      (BitVec.ofNat 64 (ring + ((8 * t.index + n) * 2 ^ rlog + t.rings.getD n 0 % 2 ^ rlog) * 32)).toNat
      (record (t.rings.getD n 0)) = .ok d') :
    d.pushRecord hp slot core team n ring rlog record = (d', none) := by
  unfold Dev.pushRecord
  simp only [ht, written]

theorem finish_recorded {d' : Dev} (hr : e.ring = some (ring, rlog))
    (pushed : e.d.pushRecord hp c.slot c.core o.team c.ring ring rlog (endRecord c o e) = (d', none)) :
    e.finish hp id c o = { d' with copies := Table.erase d'.copies id }.endOp hp id e.flags
      (copyFault c.tag e.status e.code e.va true (e.d.clockOf c.core)) := by
  unfold endRecord issuerBit at pushed
  unfold CopyEnd.finish
  cases party : o.party <;>
    simp only [party] at pushed <;>
    simp only [hr, pushed, Option.isNone_none]

theorem copyFault_recorded (tag : BitVec 16) (status code va time : Nat) : copyFault tag status code va true time =
    if status = 0 then [] else [⟨0x14, engineRecord 8 code status 0 tag.toNat va 0 0 0 time⟩] := by
  simp [copyFault]

theorem exec_copyComplete_tile (hc : Table.find? s.dev.copies id = some c) (ho : Table.find? s.dev.ops id = some o)
    (work : c.work = .tile i coords tlr base) (started : c.started = true) (hl : s.dev.launch? c.launch = some l)
    (run : (copyJob l.record i coords tlr base (readLayout (c.layout.getD []))).run s.host c.slot c.core s.dev = .ok e) :
    exec (.copyCommandComplete id) s = .next (withDev s (e.finish s.host id c o)) := by
  change execCopyCommandComplete id s = _
  unfold execCopyCommandComplete
  simp only [run_eq, hc, started, Bool.not_true, Bool.false_eq_true, if_false, work, ho, hl, run]

/-- R318: the fields of a completion record. -/
theorem completionRecord_fields (tag : BitVec 16) (status rflags index bytes detail time : Nat) :
    let r := completionRecord tag status rflags index bytes detail time
    r.length = 32 ∧ field r 0 4 = tag.toNat ∧ field r 4 1 = status % 2 ^ 8 ∧ field r 5 1 = rflags % 2 ^ 8 ∧
      field r 6 2 = index % 65535 + 1 ∧ field r 8 8 = bytes % 2 ^ 64 ∧ field r 16 8 = detail % 2 ^ 64 ∧
      field r 24 8 = time % 2 ^ 64 := by
  refine ⟨by simp [completionRecord], ?_, ?_, ?_, ?_, ?_, ?_, ?_⟩
  all_goals simp only [completionRecord, List.append_assoc]
  · exact (field_leBytes ..).trans (Nat.mod_eq_of_lt (by omega))
  · rw [field_skip (by simp)]
    exact field_leBytes ..
  · iterate 2 rw [field_skip (by simp)]
    exact field_leBytes ..
  · iterate 3 rw [field_skip (by simp)]
    exact (field_leBytes ..).trans (Nat.mod_eq_of_lt (by omega))
  · iterate 4 rw [field_skip (by simp)]
    exact field_leBytes ..
  · iterate 5 rw [field_skip (by simp)]
    exact field_leBytes ..
  · iterate 6 rw [field_skip (by simp)]
    rw [← List.append_nil (leBytes 8 time)]
    exact field_leBytes ..

theorem exec_copyComplete_bytes (hc : Table.find? s.dev.copies id = some c) (work : c.work = .bytes src dst count)
    (started : c.started = true)
    (moved : Dev.copyBytesFrom s.host c.slot c.core src dst (byKey (Config.copyKey s.dev.free) (List.range count.toNat))
      { s.dev with free := s.dev.free + 1 } = (d, none)) :
    exec (.copyCommandComplete id) s = .next (withDev s
      (({ d with copies := Table.erase d.copies id }.nodeDone c.graph c.node).settle s.host)) := by
  change execCopyCommandComplete id s = _
  unfold execCopyCommandComplete
  simp only [run_eq, hc, started, Bool.not_true, Bool.false_eq_true, if_false, work]
  unfold Dev.finishByteCopy Dev.nextFree
  simp only [moved]

/-- Settles O42: the commands of a team, the completion record, and the COPY of a stream. -/
theorem copyEngineResults : Obligations.CopyEngineResults := by
  unfold Obligations.CopyEngineResults
  refine ⟨fun s id c o hc ho i coords tlr base work => ⟨?_, ?_⟩, fun tag status rflags index bytes detail time =>
    completionRecord_fields tag status rflags index bytes detail time, fun s id c src dst count d hc work => ⟨?_, ?_⟩⟩
  · exact fun bs d new free ready read => exec_copyStart_tile hc ho work new free ready read
  · intro l t d e ring rlog started hl run hr ht index time fet record written
    have pushed : e.d.pushRecord s.host c.slot c.core o.team c.ring ring rlog (endRecord c o e) = (d, none) :=
      pushRecord_written ht written
    rw [exec_copyComplete_tile hc ho work started hl run, finish_recorded hr pushed]
    unfold Dev.endOp
    simp only [copyFault_recorded]
    rfl
  · exact fun _ ho => exec_copyStart_bytes hc ho
  · exact fun started moved => exec_copyComplete_bytes hc work started moved

end Sys2Proof.Proofs
end

section
/-! PROOF. The unit of a bounded queue: pushes, pops, polls, copies of records and handover marks (R330, R332, R333, R338). -/

namespace Sys2Proof.Proofs

open Sys2Proof Sys2Proof.Machine Sys2Proof.Safety

variable {s : Machine.State} {hp : HostPart} {d e : Dev} {launch q : Nat} {r : QueueRequest} {w : Warp} {sp : Split} {t : Team}

/-! ## What an access of an engine to virtual memory changes besides the bytes that it moves (R80, R424) -/

/-- The second device differs from the first in memory, translations, frames and what is under way to them only: its warps,
teams, launches and engines are those of the first. -/
def Reaches (d e : Dev) : Prop :=
  ∃ mem poison cores l2 contexts accesses hbm lpddr free,
    e = { d with mem := mem, poison := poison, cores := cores, l2 := l2, contexts := contexts, accesses := accesses,
                 hbmTaken := hbm, lpddrTaken := lpddr, freeFrames := free }

theorem Reaches.refl (d : Dev) : Reaches d d := ⟨_, _, _, _, _, _, _, _, _, rfl⟩

theorem Reaches.trans {f : Dev} (first : Reaches d e) (second : Reaches e f) : Reaches d f := by
  obtain ⟨_, _, _, _, _, _, _, _, _, rfl⟩ := first
  obtain ⟨_, _, _, _, _, _, _, _, _, rfl⟩ := second
  exact ⟨_, _, _, _, _, _, _, _, _, rfl⟩

theorem Reaches.launches (h : Reaches d e) : e.launches = d.launches := by
  obtain ⟨_, _, _, _, _, _, _, _, _, rfl⟩ := h
  rfl

theorem Reaches.warps (h : Reaches d e) : e.warps = d.warps := by
  obtain ⟨_, _, _, _, _, _, _, _, _, rfl⟩ := h
  rfl

theorem Reaches.teams (h : Reaches d e) : e.teams = d.teams := by
  obtain ⟨_, _, _, _, _, _, _, _, _, rfl⟩ := h
  rfl

theorem reaches_putBytes (d : Dev) (pa : Nat) (bs : List Byte) : Reaches d (d.putBytes pa bs) :=
  ⟨_, _, _, _, _, _, _, _, _, rfl⟩

theorem reaches_copyBytes (d : Dev) (src dst n : Nat) : Reaches d (d.copyBytes src dst n) := ⟨_, _, _, _, _, _, _, _, _, rfl⟩

theorem reaches_onContext (d : Dev) (slot : Nat) (f : Context → Context) : Reaches d (d.onContext slot f) :=
  ⟨_, _, _, _, _, _, _, _, _, rfl⟩

theorem reaches_dropTlb (d : Dev) (slot base bytes : Nat) : Reaches d (d.dropTlb slot base bytes) :=
  ⟨_, _, _, _, _, _, _, _, _, rfl⟩

theorem reaches_retranslate (d : Dev) (src dst : Nat) : Reaches d (d.retranslate src dst) := ⟨_, _, _, _, _, _, _, _, _, rfl⟩

theorem reaches_translate {slot core va pa : Nat} {want : Want} (h : d.translate slot core va want = .ok (pa, e)) : Reaches d e :=
  ⟨_, _, _, _, _, _, _, _, _, Dev.translate_frame h⟩

theorem reaches_walked (d : Dev) (slot core va : Nat) (want : Want) : Reaches d (d.walked slot core va want) := by
  unfold Dev.walked
  split
  · exact .refl d
  · exact reaches_putBytes ..

theorem reaches_takeHbm {ks : List Nat} {pa : Nat} (h : d.takeHbm hp ks = some (pa, e)) : Reaches d e := by
  unfold Dev.takeHbm at h
  split at h
  · cases h
    exact ⟨_, _, _, _, _, _, _, _, _, rfl⟩
  · unfold Dev.freshFrame at h
    obtain ⟨k, -, h⟩ := Option.map_eq_some_iff.1 h
    cases h
    exact ⟨_, _, _, _, _, _, _, _, _, rfl⟩

theorem reaches_takeFrame {tier pa : Nat} (h : d.takeFrame hp tier = some (pa, e)) : Reaches d e := by
  unfold Dev.takeFrame at h
  split at h
  · split at h
    · cases h
      exact ⟨_, _, _, _, _, _, _, _, _, rfl⟩
    · split at h
      · cases h
        exact ⟨_, _, _, _, _, _, _, _, _, rfl⟩
      · nomatch h
  · exact reaches_takeHbm h

theorem reaches_mapUnder {va fuel level table : Nat} {leaf : Dword} (h : d.mapUnder hp va leaf fuel level table = some e) :
    Reaches d e := by
  induction fuel generalizing d level table with
  | zero => nomatch h
  | succ fuel ih =>
    unfold Dev.mapUnder at h
    dsimp only at h
    split at h
    · cases h
      exact reaches_putBytes ..
    split at h
    · split at h
      · nomatch h
      · exact ih h
    split at h
    · nomatch h
    next t d' frame => exact (reaches_takeFrame frame).trans ((reaches_putBytes ..).trans (ih h))

theorem reaches_mapRoots {va : Nat} {roots : List Nat} {leaves : List Dword} (h : d.mapRoots hp va roots leaves = some e) :
    Reaches d e := by
  induction roots generalizing d leaves with
  | nil => cases h; exact .refl _
  | cons root roots ih =>
    cases leaves with
    | nil => cases h; exact .refl _
    | cons leaf leaves =>
      unfold Dev.mapRoots at h
      split at h
      · nomatch h
      next d' under => exact (reaches_mapUnder under).trans (ih h)

theorem reaches_serve {slot va code : Nat} (h : d.serve hp slot va code = some e) : Reaches d e := by
  unfold Dev.serve at h
  dsimp only at h
  split at h
  · split at h
    · nomatch h
    split at h
    · nomatch h
    next pa d' frame => exact (reaches_takeFrame frame).trans (reaches_mapRoots h)
  split at h
  · split at h
    · nomatch h
    split at h
    · nomatch h
    split at h
    · nomatch h
    next pa d' frame =>
      obtain ⟨d₂, mapped, rfl⟩ := Option.map_eq_some_iff.1 h
      exact (reaches_takeFrame frame).trans ((reaches_copyBytes ..).trans ((reaches_onContext ..).trans
        ((reaches_mapRoots mapped).trans ((reaches_dropTlb ..).trans (reaches_retranslate ..)))))
  · nomatch h

theorem reaches_reach (d : Dev) (slot core va : Nat) (want : Want) : Reaches d (d.reach hp slot core va want).2 := by
  unfold Dev.reach
  split
  · exact .refl d
  split
  next found => exact reaches_translate found
  next =>
    have walked := reaches_walked d slot core va want
    dsimp only
    split
    · exact walked
    split
    · exact walked
    next e served =>
      have served := walked.trans (reaches_serve served)
      split
      next found => exact served.trans (reaches_translate found)
      next => exact served.trans (reaches_walked ..)

theorem reaches_writeParts {slot core : Nat} {parts ps : List (Nat × Nat)} (h : Dev.writeParts hp slot core d parts = .ok (ps, e)) :
    Reaches d e := by
  induction parts generalizing d ps with
  | nil => cases h; exact .refl _
  | cons p parts ih =>
    have first := reaches_reach (hp := hp) d slot core p.1 .write
    unfold Dev.writeParts at h
    split at h
    · nomatch h
    next pa d' reached =>
      rw [reached] at first
      split at h
      · nomatch h
      split at h
      · nomatch h
      next ps d'' later =>
        cases h
        exact first.trans (ih later)

theorem reaches_checkBuffers {slot core n : Nat} {vas : List Dword} (h : Dev.checkBuffers hp slot core n vas d = .ok e) :
    Reaches d e := by
  induction vas generalizing d with
  | nil => cases h; exact .refl _
  | cons va vas ih =>
    unfold Dev.checkBuffers at h
    split at h
    · nomatch h
    next ps d' written => exact (reaches_writeParts written).trans (ih h)

/-! ## Queues of a device -/

theorem modify_modify {α : Type} (t : Table α) (n : Nat) (f g : α → α) :
    Table.modify (Table.modify t n f) n g = Table.modify t n fun a => g (f a) := by
  unfold Table.modify
  cases found : Table.find? t n with
  | none => simp only [found]
  | some a => simp only [Table.find?_set_self, Table_set_set]

theorem modify_congr {α : Type} {t : Table α} {n : Nat} {f g : α → α} (h : ∀ a, Table.find? t n = some a → f a = g a) :
    Table.modify t n f = Table.modify t n g := by
  unfold Table.modify
  split
  · rfl
  next a found => rw [h a found]

theorem changeAt_changeAt {α : Type} (l : List α) (n : Nat) (f g : α → α) :
    changeAt (changeAt l n f) n g = changeAt l n fun a => g (f a) := by
  induction l generalizing n with
  | nil => rfl
  | cons x l ih =>
    cases n with
    | zero => rfl
    | succ n => exact congrArg (x :: ·) (ih n)

theorem changeAt_congr {α : Type} {l : List α} {n : Nat} {f g : α → α} (h : ∀ x, l[n]? = some x → f x = g x) :
    changeAt l n f = changeAt l n g := by
  induction l generalizing n with
  | nil => rfl
  | cons x l ih =>
    cases n with
    | zero => exact congrArg (· :: l) (h x rfl)
    | succ n => exact congrArg (x :: ·) (ih h)

theorem getElem?_changeAt {α : Type} (l : List α) (n : Nat) (f : α → α) : (changeAt l n f)[n]? = l[n]?.map f := by
  induction l generalizing n with
  | nil => rfl
  | cons x l ih =>
    cases n with
    | zero => rfl
    | succ n => exact ih n

/-- A queue is found by its launch and its number. -/
def HasQueue (d : Dev) (launch q : Nat) (u : Queue) : Prop :=
  ∃ l ss, d.launch? launch = some l ∧ l.stages = some ss ∧ ss.queues[q]? = some u

theorem HasQueue.queue {u : Queue} (h : HasQueue d launch q u) : d.queue launch q = u := by
  obtain ⟨l, ss, found, stages, place⟩ := h
  simp [Dev.queue, Dev.stages?, found, stages, nth, List.getD, place]

/-- A queue that is not the one that stands for an absent queue is there. -/
theorem hasQueue_of_ne (h : d.queue launch q ≠ Queue.none) : HasQueue d launch q (d.queue launch q) := by
  cases found : d.launch? launch with
  | none => simp [Dev.queue, Dev.stages?, found] at h
  | some l =>
    cases stages : l.stages with
    | none => simp [Dev.queue, Dev.stages?, found, stages] at h
    | some ss =>
      cases place : ss.queues[q]? with
      | none => simp [Dev.queue, Dev.stages?, found, stages, nth, List.getD, place] at h
      | some u =>
        have same := HasQueue.queue ⟨l, ss, found, stages, place⟩
        exact same ▸ ⟨l, ss, found, stages, place⟩

theorem onQueue_onQueue (d : Dev) (launch q : Nat) (f g : Queue → Queue) :
    (d.onQueue launch q f).onQueue launch q g = d.onQueue launch q fun u => g (f u) := by
  unfold Dev.onQueue Dev.onStages Dev.onLaunch
  simp only [modify_modify, Option.map_map, Function.comp_def, changeAt_changeAt]

theorem onQueue_congr {f g : Queue → Queue} (h : f (d.queue launch q) = g (d.queue launch q)) :
    d.onQueue launch q f = d.onQueue launch q g := by
  have same : ∀ l, Table.find? d.launches launch = some l →
      { l with stages := l.stages.map fun (ss : StageSet) => { ss with queues := changeAt ss.queues q f } } =
        { l with stages := l.stages.map fun (ss : StageSet) => { ss with queues := changeAt ss.queues q g } } := by
    intro l found
    cases stages : l.stages with
    | none => rfl
    | some ss =>
      have place : ∀ u, ss.queues[q]? = some u → f u = g u := fun u place =>
        HasQueue.queue (d := d) ⟨l, ss, found, stages, place⟩ ▸ h
      rw [Option.map_some, Option.map_some, changeAt_congr place]
  unfold Dev.onQueue Dev.onStages Dev.onLaunch
  rw [modify_congr same]

theorem queue_onQueue {f : Queue → Queue} (h : d.queue launch q ≠ Queue.none) :
    (d.onQueue launch q f).queue launch q = f (d.queue launch q) := by
  obtain ⟨l, ss, found, stages, place⟩ := hasQueue_of_ne h
  refine HasQueue.queue ⟨{ l with stages := l.stages.map fun ss => { ss with queues := changeAt ss.queues q f } },
    { ss with queues := changeAt ss.queues q f }, ?_, by rw [stages]; rfl, by rw [getElem?_changeAt, place]; rfl⟩
  change Table.find? (Table.modify d.launches launch _) launch = _
  rw [Table.find?_modify_self]
  exact congrArg (Option.map _) found

theorem Reaches.queue (h : Reaches d e) : e.queue launch q = d.queue launch q := by
  unfold Dev.queue Dev.stages? Dev.launch?
  rw [h.launches]

/-! ## Pushes and pops -/

theorem first_eq (u : Queue) (push : Bool) :
    u.first push = u.requests.find? fun r => r.push == push && r.poll.isNone && !r.held := rfl

theorem requestOf_warp (h : d.requestOf r = some (w, sp)) : d.warp? r.warp = some w := by
  obtain ⟨w', found, h⟩ := Option.bind_eq_some_iff.1 h
  obtain ⟨sp', -, same⟩ := Option.map_eq_some_iff.1 h
  cases same
  exact found

theorem marked_eq (found : d.warp? r.warp = some w) (team : d.team? w.team = some t) : d.marked q r = decide (q ∈ t.marks) := by
  simp [Dev.marked, found, team]

/-- R332: the records that are read are those of the lanes, in their order. -/
theorem readRecords_lanes {slot core n : Nat} {ls : List (Nat × Dword)} {rs : List (Nat × List Byte)}
    (h : Dev.readRecords hp slot core n ls d = .ok (rs, e)) : rs.map Prod.fst = ls.map Prod.fst := by
  induction ls generalizing d rs with
  | nil => cases h; rfl
  | cons l ls ih =>
    unfold Dev.readRecords at h
    split at h
    · nomatch h
    split at h
    · nomatch h
    next rs d' later =>
      cases h
      exact congrArg (l.1 :: ·) (ih later)

theorem exec_queueGrant {rs : List (Nat × List Byte)}
    (oldest : (s.dev.queue launch q).first true = some r) (from_ : s.dev.requestOf r = some (w, sp))
    (room : r.lanes.length ≤ (s.dev.queue launch q).capacity - (s.dev.queue launch q).records.length)
    (performed : s.dev.allPerformed r.deps = true)
    (read : Dev.readRecords s.host (s.dev.slotOf w.team) w.core (s.dev.queue launch q).recBytes r.lanes s.dev = .ok (rs, d)) :
    exec (.queueGrant launch q) s = .next (withDev s
      ((((d.onQueue launch q fun u => { u with records := u.records ++ rs.map fun (x : Nat × List Byte) =>
          (⟨some x.2, r.id, x.1, r.before.filter fun i => !d.performed i⟩ : QueueRecord) }).onStages launch
        fun ss => { ss with moved := true }).answerRequest launch q r.warp r sp none).settle s.host)) := by
  have enough : decide ((s.dev.queue launch q).capacity - (s.dev.queue launch q).records.length < r.lanes.length) = false :=
    decide_eq_false (Nat.not_lt.2 room)
  change execQueueGrant launch q s = _
  unfold execQueueGrant
  simp only [run_eq, oldest, from_, enough, performed, Bool.not_true, Bool.or_self, Bool.false_eq_true, if_false, read]

theorem exec_delivery_marked (oldest : (s.dev.queue launch q).first false = some r) (from_ : s.dev.requestOf r = some (w, sp))
    (marked : s.dev.marked q r = true) :
    exec (.queueRecordDelivery launch q) s = .next (withDev s
      ((s.dev.answerRequest launch q r.warp r sp (some (allStatus statusHandover))).settle s.host)) := by
  change execQueueRecordDelivery launch q s = _
  unfold execQueueRecordDelivery Dev.answerPop
  simp only [run_eq, oldest, from_, marked, if_true]

theorem exec_delivery (oldest : (s.dev.queue launch q).first false = some r) (from_ : s.dev.requestOf r = some (w, sp))
    (marked : s.dev.marked q r = false)
    (ready : r.lanes.length ≤ (s.dev.queue launch q).records.length ∨ (s.dev.queue launch q).ended = true)
    (written : Dev.checkBuffers s.host (s.dev.slotOf w.team) w.core (s.dev.queue launch q).recBytes
      ((r.lanes.take (min r.lanes.length (s.dev.queue launch q).records.length)).map Prod.snd) s.dev = .ok d) :
    exec (.queueRecordDelivery launch q) s = .next (withDev s
      (((d.takeRecords launch q r sp.mask sp.pc (min r.lanes.length (s.dev.queue launch q).records.length)
          (queueStatus r.lanes (min r.lanes.length (s.dev.queue launch q).records.length) (s.dev.queue launch q).ended)).answerRequest
        launch q r.warp r sp (some (statusCells (min r.lanes.length (s.dev.queue launch q).records.length) r.id
          (queueStatus r.lanes (min r.lanes.length (s.dev.queue launch q).records.length) (s.dev.queue launch q).ended)))).settle
        s.host)) := by
  have enough : (decide (min r.lanes.length (s.dev.queue launch q).records.length < r.lanes.length) &&
      !(s.dev.queue launch q).ended) = false := by
    rcases ready with room | ended
    · rw [decide_eq_false (by omega), Bool.false_and]
    · rw [ended, Bool.not_true, Bool.and_false]
  change execQueueRecordDelivery launch q s = _
  unfold execQueueRecordDelivery Dev.answerPop
  simp only [run_eq, oldest, from_, marked, Bool.false_eq_true, if_false, enough, written]

/-- R333: what leaves a queue whose records are known, and the copies that begin. -/
theorem takeRecords_eq {u : Queue} (d : Dev) (r : QueueRequest) (mask : Mask) (pc : Va) (k : Nat) (st : Nat → Word)
    (same : (d.queue launch q).records = u.records) :
    d.takeRecords launch q r mask pc k st =
      if r.lanes.zip (u.records.take k) = [] then
        (({ d with queueCopies := d.queueCopies ++ (r.lanes.zip (u.records.take k)).map fun (x : (Nat × Dword) × QueueRecord) =>
            (⟨r.warp, x.1.1, x.1.2, q, x.2, r.id, (lanesOf mask).map fun l => (l, st l), pc, r.id, r.deps ++ x.2.deps⟩ : QueueCopy) }
            : Dev).onQueue launch q fun u => { u with records := u.records.drop k }).onStages launch
          fun ss => { ss with moved := ss.moved || k != 0 }
      else
        ((({ d with queueCopies := d.queueCopies ++ (r.lanes.zip (u.records.take k)).map fun (x : (Nat × Dword) × QueueRecord) =>
            (⟨r.warp, x.1.1, x.1.2, q, x.2, r.id, (lanesOf mask).map fun l => (l, st l), pc, r.id, r.deps ++ x.2.deps⟩ : QueueCopy) }
            : Dev).onQueue launch q fun u => { u with records := u.records.drop k }).onStages launch
          fun ss => { ss with moved := ss.moved || k != 0 }).mark r.warp
            ⟨maskOf ((r.lanes.zip (u.records.take k)).map fun x => x.1.1), [r.id], 0, []⟩ := by
  unfold Dev.takeRecords
  simp only [same, List.isEmpty_iff]

theorem queueStatus_idle {lane k : Nat} {ls : List (Nat × Dword)} {ended : Bool} (h : ∀ x ∈ ls, x.1 ≠ lane) :
    queueStatus ls k ended lane = 4 := by
  have absent : (ls.findIdx? fun l => l.1 == lane) = none :=
    List.findIdx?_eq_none_iff.2 fun x hx => beq_eq_false_iff_ne.2 (h x hx)
  unfold queueStatus
  rw [absent]
  rfl

theorem queueStatus_at {lane i k : Nat} {va : Dword} {ls : List (Nat × Dword)} {ended : Bool} (place : ls[i]? = some (lane, va))
    (once : (ls.map Prod.fst).Nodup) :
    queueStatus ls k ended lane = if i < k then 0 else if ended then 1 else 3 := by
  obtain ⟨bound, place⟩ := List.getElem?_eq_some_iff.1 place
  have found : (ls.findIdx? fun l => l.1 == lane) = some i := by
    refine List.findIdx?_eq_some_iff_getElem.2 ⟨bound, by simp [place], fun j before => ?_⟩
    have other : (ls.map Prod.fst)[j]'(by simp; omega) ≠ (ls.map Prod.fst)[i]'(by simpa) := fun same =>
      absurd ((List.Nodup.getElem_inj_iff once).1 same) (by omega)
    simpa [place] using other
  unfold queueStatus
  rw [found]
  rfl

/-! ## Polls -/

theorem takeWhile_oldest (r : QueueRequest) (rest : List QueueRequest) :
    ((r :: rest).takeWhile fun x => x.id != r.id) = [] := by simp

theorem exec_releaseRequest (own : OwnName s.dev r.id) (named : s.dev.requestNamed r.id = some (launch, q, r)) :
    exec (.holdWindowRelease r.id) s = .next (withDev s (s.dev.releaseRequest s.host launch q r)) := by
  obtain ⟨access, matrix, copy, coll⟩ := ownName_releases own
  have queue : s.dev.releaseQueue s.host r.id = some (s.dev.releaseRequest s.host launch q r) := congrArg (Option.map _) named
  change execHoldWindowRelease r.id s = _
  unfold execHoldWindowRelease
  rw [run_eq, access, matrix, copy, coll, queue]
  rfl

variable {rest : List QueueRequest} {mask : Mask} {pc : Va}

/-- R457: a request that is the oldest of its queue, once it has left its window. -/
theorem released_queue (requests : (d.queue launch q).requests = r :: rest) (once : ∀ x ∈ rest, x.id ≠ r.id) :
    (d.onQueue launch q fun u => { u with requests := u.requests.map fun x =>
        if x.id = r.id then { x with held := false } else x }).queue launch q =
      { d.queue launch q with requests := { r with held := false } :: rest } := by
  have there : d.queue launch q ≠ Queue.none := fun absent => by
    rw [absent] at requests
    nomatch requests
  have later : rest.map (fun x => if x.id = r.id then { x with held := false } else x) = rest :=
    (List.map_congr_left fun x hx => if_neg (once x hx)).trans (List.map_id rest)
  rw [queue_onQueue there, requests, List.map_cons, if_pos rfl, later]

theorem filter_requests (once : ∀ x ∈ rest, x.id ≠ r.id) :
    (({ r with held := false } :: rest).filter fun x => x.id != r.id) = rest := by
  have later : (rest.filter fun x => x.id != r.id) = rest :=
    List.filter_eq_self.2 fun x hx => bne_iff_ne.2 (once x hx)
  rw [List.filter_cons, later]
  simp

/-- R457: with the request that has left its window and is answered, its queue holds the later ones. -/
theorem released_answered (requests : (d.queue launch q).requests = r :: rest) (once : ∀ x ∈ rest, x.id ≠ r.id) :
    (d.onQueue launch q fun u => { u with requests := u.requests.map fun x =>
        if x.id = r.id then { x with held := false } else x }).onQueue launch q
      (fun u => { u with requests := u.requests.filter fun x => x.id != r.id }) =
      d.onQueue launch q fun u => { u with requests := rest } := by
  have later : rest.map (fun x => if x.id = r.id then { x with held := false } else x) = rest :=
    (List.map_congr_left fun x hx => if_neg (once x hx)).trans (List.map_id rest)
  rw [onQueue_onQueue]
  refine onQueue_congr ?_
  rw [requests, List.map_cons, if_pos rfl, later, filter_requests once]

theorem releaseRequest_poll (requests : (d.queue launch q).requests = r :: rest) (poll : r.poll = some (mask, pc)) :
    d.releaseRequest hp launch q r =
      (d.onQueue launch q fun u => { u with requests := u.requests.map fun x =>
        if x.id = r.id then { x with held := false } else x }).answerPoll hp launch q r mask pc := by
  unfold Dev.releaseRequest
  rw [requests, takeWhile_oldest]
  simp only [List.any_nil, Bool.false_eq_true, if_false, poll]

/-- R333, R338: a poll of a team whose handover mark the unit has handled. -/
theorem releaseRequest_marked (requests : (d.queue launch q).requests = r :: rest) (once : ∀ x ∈ rest, x.id ≠ r.id)
    (poll : r.poll = some (mask, pc)) (marked : d.marked q r = true) :
    d.releaseRequest hp launch q r = ((d.onQueue launch q fun u => { u with requests := rest }).onWarp r.warp fun w =>
      w.fillStatus r.id ((lanesOf mask).map fun l => (l, 2))).settle hp := by
  have marked : (d.onQueue launch q fun u => { u with requests := rest }).marked q r = true := marked
  rw [releaseRequest_poll requests poll]
  unfold Dev.answerPoll
  simp only [released_answered requests once, marked, if_true]
  rfl

/-- R333: a poll takes what is there. -/
theorem releaseRequest_takes (requests : (d.queue launch q).requests = r :: rest) (once : ∀ x ∈ rest, x.id ≠ r.id)
    (poll : r.poll = some (mask, pc)) (marked : d.marked q r = false) :
    d.releaseRequest hp launch q r =
      (if min r.lanes.length (d.queue launch q).records.length = 0 then
        ((d.onQueue launch q fun u => { u with requests := rest }).takeRecords launch q r mask pc
            (min r.lanes.length (d.queue launch q).records.length)
            (queueStatus r.lanes (min r.lanes.length (d.queue launch q).records.length) (d.queue launch q).ended)).onWarp r.warp
          fun w => w.fillStatus r.id ((lanesOf mask).map fun l => (l, queueStatus r.lanes
            (min r.lanes.length (d.queue launch q).records.length) (d.queue launch q).ended l))
      else (d.onQueue launch q fun u => { u with requests := rest }).takeRecords launch q r mask pc
        (min r.lanes.length (d.queue launch q).records.length)
        (queueStatus r.lanes (min r.lanes.length (d.queue launch q).records.length) (d.queue launch q).ended)).settle hp := by
  have marked : (d.onQueue launch q fun u => { u with requests := rest }).marked q r = false := marked
  have first : (({ r with held := false } :: rest).takeWhile fun x => x.id != r.id) = [] := by simp
  rw [releaseRequest_poll requests poll]
  unfold Dev.answerPoll
  simp only [released_answered requests once, released_queue requests once, marked, Bool.false_eq_true, if_false, first, List.any_nil]

/-! ## Copies and handover marks -/

theorem turn_queueCopy {n : Nat} {c : QueueCopy} (found : s.dev.queueCopies[n]? = some c) (ready : s.dev.allPerformed c.deps = true)
    (written : ({ s.dev with queueCopies := s.dev.queueCopies.filter fun x => !(x.ticket == c.ticket && x.lane == c.lane) } : Dev).writeVa
      s.host (s.dev.partySlot (.warp c.warp)) (s.dev.partyCore (.warp c.warp)) c.buffer.toNat (c.record.bytes.getD []) = .ok d) :
    turn (.queueCopy n) s = .next (withDev s
      ((if d.queueCopies.any fun x => x.ticket == c.ticket then d
        else d.onWarp c.warp fun w => w.fillStatus c.ticket c.status).settle s.host)) := by
  have slot : ({ s.dev with queueCopies := s.dev.queueCopies.filter fun x => !(x.ticket == c.ticket && x.lane == c.lane) } : Dev).partySlot
      (.warp c.warp) = s.dev.partySlot (.warp c.warp) := rfl
  have core : ({ s.dev with queueCopies := s.dev.queueCopies.filter fun x => !(x.ticket == c.ticket && x.lane == c.lane) } : Dev).partyCore
      (.warp c.warp) = s.dev.partyCore (.warp c.warp) := rfl
  change (s.run fun h d => d.copyTurn h n) = _
  unfold Dev.copyTurn
  simp only [run_eq, found, ready, if_true]
  unfold Dev.writeQueueCopy
  simp only [slot, core, written]

/-- R338: a waiting `qpop` of a team is what the team's handover mark answers. -/
def answersMark (d : Dev) (team : Nat) (r : QueueRequest) : Bool :=
  !r.push && r.poll.isNone && !r.held && (d.warp? r.warp).any fun w => w.team == team

theorem exec_handoverMark_none {team : Nat} {later : List Nat} (marks : (s.dev.queue launch q).marks = team :: later)
    (absent : (s.dev.queue launch q).requests.filter (answersMark s.dev team) = []) :
    exec (.handoverMark launch q) s = .next (withDev s (((s.dev.onQueue launch q fun u => { u with marks := later }).onTeam team
      fun t => { t with marks := t.marks ++ [q] }).settle s.host)) := by
  have absent : (s.dev.queue launch q).requests.filter (fun r => !r.push && r.poll.isNone && !r.held &&
      (((s.dev.onQueue launch q fun u => { u with marks := later }).onTeam team fun t =>
        { t with marks := t.marks ++ [q] }).warp? r.warp).any fun w => w.team == team) = [] := absent
  change execHandoverMark launch q s = _
  unfold execHandoverMark
  simp only [run_eq, marks, absent, List.foldl_nil]

theorem exec_handoverMark_one {team : Nat} {later : List Nat} (marks : (s.dev.queue launch q).marks = team :: later)
    (one : (s.dev.queue launch q).requests.filter (answersMark s.dev team) = [r]) (from_ : s.dev.requestOf r = some (w, sp)) :
    exec (.handoverMark launch q) s = .next (withDev s ((((s.dev.onQueue launch q fun u => { u with marks := later }).onTeam team
      fun t => { t with marks := t.marks ++ [q] }).answerRequest launch q r.warp r sp (some (allStatus statusHandover))).settle
        s.host)) := by
  have one : (s.dev.queue launch q).requests.filter (fun r => !r.push && r.poll.isNone && !r.held &&
      (((s.dev.onQueue launch q fun u => { u with marks := later }).onTeam team fun t =>
        { t with marks := t.marks ++ [q] }).warp? r.warp).any fun w => w.team == team) = [r] := one
  have from_ : ((s.dev.onQueue launch q fun u => { u with marks := later }).onTeam team fun t =>
      { t with marks := t.marks ++ [q] }).requestOf r = some (w, sp) := from_
  change execHandoverMark launch q s = _
  unfold execHandoverMark
  simp only [run_eq, marks, one, List.foldl_cons, List.foldl_nil, from_]

/-- Settles O43: each answer of the unit is the model's own with its guards met; a poll is the oldest of its queue, so that no
earlier pop waits, and the check of the buffers leaves the queues as they were. -/
theorem queueUnitResults : Obligations.QueueUnitResults := by
  unfold Obligations.QueueUnitResults
  intro s launch q
  refine ⟨?_, ?_, ?_, ?_, ?_, ?_⟩
  · intro r w sp rs d oldest from_ room performed read
    have oldest : (s.dev.queue launch q).first true = some r := by
      simpa only [first_eq, beq_true] using oldest
    exact ⟨exec_queueGrant oldest from_ room performed read, readRecords_lanes read⟩
  · intro r w sp t oldest from_ team
    have oldest : (s.dev.queue launch q).first false = some r := by
      simpa only [first_eq, beq_false] using oldest
    have marked : s.dev.marked q r = decide (q ∈ t.marks) := marked_eq (requestOf_warp from_) team
    refine ⟨fun h => exec_delivery_marked oldest from_ (marked.trans (decide_eq_true h)), fun h ready => ?_⟩
    intro k status d written
    rw [exec_delivery oldest from_ (marked.trans (decide_eq_false h)) ready written,
      takeRecords_eq d r sp.mask sp.pc _ _ (congrArg Queue.records (reaches_checkBuffers written).queue)]
  · intro r rest mask pc w t own named requests once poll warp team
    have marked : s.dev.marked q r = decide (q ∈ t.marks) := marked_eq warp team
    have there : s.dev.queue launch q ≠ Queue.none := fun absent => by
      rw [absent] at requests
      nomatch requests
    have records : ((s.dev.onQueue launch q fun u => { u with requests := rest }).queue launch q).records =
        (s.dev.queue launch q).records :=
      (congrArg Queue.records (queue_onQueue there)).trans rfl
    refine ⟨fun h => ?_, fun h => ?_⟩
    · rw [exec_releaseRequest own named, releaseRequest_marked requests once poll (marked.trans (decide_eq_true h))]
    · intro k status
      rw [exec_releaseRequest own named, releaseRequest_takes requests once poll (marked.trans (decide_eq_false h)),
        takeRecords_eq _ r mask pc _ _ records]
  · exact fun lane i k va ls ended => ⟨queueStatus_idle, queueStatus_at⟩
  · exact fun n c d found ready written => turn_queueCopy found ready written
  · intro team rest marks
    refine ⟨fun other => exec_handoverMark_none marks ?_, fun r w sp requests pop poll free from_ same => ?_⟩
    · refine List.filter_eq_nil_iff.2 fun r hr mine => ?_
      unfold answersMark at mine
      simp only [Bool.and_eq_true, Bool.not_eq_true', Option.isNone_iff_eq_none, Option.any_eq_true, beq_iff_eq] at mine
      obtain ⟨⟨⟨pop, poll⟩, free⟩, w, warp, same⟩ := mine
      rcases other r hr with push | polled | held | others
      · exact absurd push (by simp [pop])
      · exact polled poll
      · exact absurd held (by simp [free])
      · exact others w warp same
    · refine exec_handoverMark_one marks ?_ from_
      rw [requests]
      simp [answersMark, pop, poll, free, requestOf_warp from_, same]

end Sys2Proof.Proofs
end

section
/-! PROOF. The matrix engine: array phases, `bswap`, drains and the operations that retire (R270, R283, R288, R291 to R293,
R295, R296, R302, R435). -/

namespace Sys2Proof.Proofs

open Sys2Proof Sys2Proof.Machine Sys2Proof.Safety

variable {s : Machine.State} {hp : HostPart} {d e : Dev} {core : Nat} {o : MatrixOp}

theorem onCore_onCore (d : Dev) (j : Nat) (f g : Core → Core) : (d.onCore j f).onCore j g = d.onCore j fun c => g (f c) := by
  unfold Dev.onCore
  rw [Dev.core_setCore]
  unfold Dev.setCore
  simp only [Table_set_set]

/-! ## Array phases and `bswap` -/

/-- R270: the array phase of the oldest `mma` that waits for it. -/
theorem exec_arrayPhase {a : Dword} {tile prog aslot bslot oslot : Nat} {back pair acc cplx naz dc : Bool} {base : Dword} {g h : Word}
    {rows : Nat} {payload exps : List Byte}
    (work : o.work = .mma a tile prog aslot bslot oslot back pair acc cplx naz dc base g h rows)
    (oldest : (s.dev.core core).engine.find? (fun o => o.inArray && o.phase == .queued) = some o)
    (ready : s.dev.engineReady core o = true)
    (read : s.dev.readA s.host o.slot core a ⟨tile, s.dev.opSlot o aslot, s.dev.opSlot o bslot, back, acc, cplx, naz, rows⟩ =
      .ok ((payload, exps), d))
    (sound : ∀ j ∈ opCores core pair,
      d.multiplyPoisoned j ⟨tile, s.dev.opSlot o aslot, s.dev.opSlot o bslot, back, acc, cplx, naz, rows⟩ = false) :
    exec (.arrayPhase core) s = .next (withDev s (((opCores core pair).foldl (fun d j =>
      d.multiplyOn j ⟨tile, s.dev.opSlot o aslot, s.dev.opSlot o bslot, back, acc, cplx, naz, rows⟩ payload exps) d).setPhase core
        o.op .array)) := by
  have none : ((opCores core pair).any fun j =>
      d.multiplyPoisoned j ⟨tile, s.dev.opSlot o aslot, s.dev.opSlot o bslot, back, acc, cplx, naz, rows⟩) = false :=
    List.any_eq_false.2 fun j hj => by simp [sound j hj]
  change execArrayPhase core s = _
  unfold execArrayPhase Dev.firstOp
  simp only [run_eq, oldest, work, ready, Bool.not_true, Bool.false_eq_true, if_false, read, none]

theorem exec_arrayPhaseEnd (oldest : (s.dev.core core).engine.find? (fun o => o.phase == .array) = some o) :
    exec (.arrayPhaseEnd core) s =
      .next (withDev s (s.dev.setPhase core o.op (if o.drains then .arrayEnded else .finished))) := by
  change execArrayPhaseEnd core s = _
  unfold execArrayPhaseEnd Dev.firstOp
  simp only [run_eq, oldest]

/-- The operation is a `bswap`. -/
def swaps (o : MatrixOp) : Bool :=
  match o.work with
  | .bswap _ _ => true
  | _ => false

theorem exec_bswapTakesEffect {macros : BitVec 4} {pair : Bool} (work : o.work = .bswap macros pair)
    (oldest : (s.dev.core core).engine.find? swaps = some o) (ready : s.dev.engineReady core o = true) :
    exec (.bswapTakesEffect core) s = .next (withDev s
      (((opCores core pair).foldl (fun d j => d.onMatrix j fun m => { m with roles := m.roles ^^^ macros }) s.dev).retireOp
        s.host core o.op)) := by
  change execBswapTakesEffect core s = _
  unfold execBswapTakesEffect
  rw [run_eq]
  split
  next absent =>
    have absurd : none = some o := absent.symm.trans oldest
    nomatch absurd
  next first found =>
    have same : some first = some o := found.symm.trans oldest
    cases same
    simp only [work, ready, if_true]
    rfl

/-! ## Drains -/

/-- R302: what a drain that begins needs of the operations that its engine took before it. -/
def drainsAlone (o e : MatrixOp) : Bool := !e.drains && !e.inArray && (o.phase == .arrayEnded || !e.loads)

/-- R302: a drain's unit joins its operation, which drains now. -/
def joinDrain (o : MatrixOp) (u : DrainUnit) (x : MatrixOp) : MatrixOp :=
  if x.op = o.op then { x with phase := .draining, units := x.units ++ [u] } else x

/-- R295, R302: the device as a drain of one core begins. -/
def drainBegun (d : Dev) (core : Nat) (o : MatrixOp) (u : DrainUnit) : Dev :=
  d.onCore core fun c =>
    { c with engine := c.engine.map (joinDrain o u), matrix := { c.matrix with restart := none } }

theorem startUnit_legal {f : DrainForm} {prog rows : Nat}
    (legal : ∀ w ∈ checkedWords ((d.core core).matrix.program prog), microLegal f w = true) :
    Dev.startUnit o f prog rows core (d.setPhase core o.op .draining) (core, 0) =
      drainBegun d core o (d.beginUnit o f prog rows core 0) := by
  have span : (d.setPhase core o.op .draining).drainSpan o = d.drainSpan o := rfl
  have matrix : ((d.setPhase core o.op .draining).core core).matrix = (d.core core).matrix := by
    unfold Dev.setPhase Dev.onOp
    rw [Dev.core_onCore]
  have unit : (d.setPhase core o.op .draining).beginUnit o f prog rows core 0 = d.beginUnit o f prog rows core 0 := by
    unfold Dev.beginUnit
    rw [matrix, span]
  have program : ((((d.setPhase core o.op .draining).onMatrix core fun m => { m with restart := none }).core core).matrix.program prog) =
      (d.core core).matrix.program prog := by
    rw [← matrix]
    unfold Dev.onMatrix
    rw [Dev.core_onCore]
    rfl
  have sound : (checkedWords ((d.core core).matrix.program prog)).all (microLegal f) = true := List.all_eq_true.2 legal
  unfold Dev.startUnit
  simp only [unit, program, sound, if_true]
  unfold Dev.setPhase Dev.onMatrix Dev.onOp drainBegun
  rw [onCore_onCore, onCore_onCore]
  refine congrArg (d.onCore core) (funext fun c => ?_)
  have engine : ((c.engine.map fun x => if x.op = o.op then { x with phase := Phase.draining } else x).map fun x =>
      if x.op = o.op then { x with units := x.units ++ [d.beginUnit o f prog rows core 0] } else x) =
      c.engine.map (joinDrain o (d.beginUnit o f prog rows core 0)) := by
    rw [List.map_map]
    refine List.map_congr_left fun x _ => ?_
    unfold joinDrain
    simp only [Function.comp_apply]
    by_cases same : x.op = o.op
    · rw [if_pos same, if_pos same, if_pos same]
    · rw [if_neg same, if_neg same, if_neg same]
  rw [← engine]

/-- R302: the operation as it begins to drain, in its engine. -/
theorem drainBegun_first {u : DrainUnit} (here : (d.core core).engine.find? (fun e => e.op == o.op) = some o) :
    (drainBegun d core o u).firstOp core (fun e => e.op == o.op) = some (joinDrain o u o) := by
  have same : (fun e : MatrixOp => e.op == o.op) ∘ joinDrain o u = fun e => e.op == o.op := by
    funext e
    simp only [Function.comp_apply, joinDrain]
    split <;> rfl
  unfold Dev.firstOp drainBegun
  rw [Dev.core_onCore]
  simp only [List.find?_map, same, here, Option.map_some]

theorem exec_drain {f : DrainForm} {prog rows : Nat}
    (oldest : (s.dev.core core).engine.find? (fun o => o.drains && o.phase != .draining && (o.phase == .arrayEnded || !o.inArray) &&
      !o.held) = some o)
    (here : (s.dev.core core).engine.find? (fun e => e.op == o.op) = some o) (single : o.work.paired = false) (fresh : o.units = [])
    (alone : ∀ e ∈ engineBefore o.op (s.dev.core core).engine, drainsAlone o e = true)
    (performed : s.dev.allPerformed (((Table.find? s.dev.ops o.op).map EngineOp.deps).getD []) = true)
    (form : s.dev.drainForm o = some (f, prog, rows)) (sound : s.dev.programPoisoned core prog = false)
    (legal : ∀ w ∈ checkedWords ((s.dev.core core).matrix.program prog), microLegal f w = true)
    (more : (s.dev.beginUnit o f prog rows core 0).over = false) :
    exec (.drain core) s = .next (withDev s (drainBegun s.dev core o (s.dev.beginUnit o f prog rows core 0))) := by
  have alone : ((engineBefore o.op (s.dev.core core).engine).all fun e =>
      !e.drains && !e.inArray && (o.phase == .arrayEnded || !e.loads)) = true := List.all_eq_true.2 alone
  have units : (joinDrain o (s.dev.beginUnit o f prog rows core 0) o).units = [s.dev.beginUnit o f prog rows core 0] := by
    unfold joinDrain
    rw [if_pos rfl]
    exact congrArg (· ++ [s.dev.beginUnit o f prog rows core 0]) fresh
  change execDrain core s = _
  unfold execDrain
  rw [run_eq]
  simp only [show s.dev.firstOp core _ = some o from oldest, alone, performed, single, form, opCores, Bool.not_true, Bool.false_and,
    Bool.or_self, Bool.false_eq_true, if_false, List.any_cons, List.any_nil, sound, List.mapIdx_cons, List.mapIdx_nil,
    List.foldl_cons, List.foldl_nil, startUnit_legal legal, drainBegun_first here]
  unfold Dev.endDrain
  simp only [units, List.all_cons, List.all_nil, more, Bool.false_and, Bool.false_eq_true, if_false]

/-- R435: the operation's end, if a drain unit has no element left. -/
def drainEnds (core : Nat) (o : MatrixOp) (d : Dev) : Dev :=
  match d.firstOp core fun e => e.op == o.op with
  | none => d
  | some x => if x.phase == .draining then d.endDrain core x else d

theorem exec_drainElement {u : DrainUnit} {f : DrainForm} {prog rows : Nat} (draining : s.dev.drainingOp core = some (core, o, u))
    (form : s.dev.drainForm o = some (f, prog, rows)) :
    exec (.drainElement core) s = .next (withDev s (drainEnds core o (s.dev.drainElement s.host core core o u f))) := by
  change execDrainElement core s = _
  unfold execDrainElement
  rw [run_eq]
  simp only [draining, form]
  rfl

theorem drainElement_checks {u : DrainUnit} {f : DrainForm} {r : DrainRun} (fresh : u.checked = none)
    (sound : d.elementPoisoned core (u.tile + u.next % u.columns / 512) (u.next / u.columns) (u.next % u.columns % 512)
      (programWords ((d.core core).matrix.program u.prog)) = false)
    (run : microRun hp o.slot core (d.core core).matrix f ⟨0, u.next / u.columns, u.first + u.next % u.columns,
        u.next % u.columns + 1 == u.columns,
        Table.get (d.core core).matrix.nanc (nancKey (u.tile + u.next % u.columns / 512) (u.next / u.columns)) 0⟩
      ⟨scaledAccumulator f ((d.core core).matrix.tile (u.tile + u.next % u.columns / 512) (u.next / u.columns)
          (u.next % u.columns % 512)) :: List.replicate 7 0, u.sums.getD (u.next / u.columns) 0, u.maxima.getD (u.next / u.columns) 0,
        u.stager, u.nibbles, none, 0, [], none, d⟩ 0 (programWords ((d.core core).matrix.program u.prog)) = r)
    (goes : r.stop = none)
    (stores : Dev.checkStores hp o.slot core (r.elementStores f ⟨0, u.next / u.columns, u.first + u.next % u.columns,
        u.next % u.columns + 1 == u.columns,
        Table.get (d.core core).matrix.nanc (nancKey (u.tile + u.next % u.columns / 512) (u.next / u.columns)) 0⟩) r.d = .ok e) :
    d.drainElement hp core core o u f = e.setUnit core o.op core { u with
      checked := some (r.elementStores f ⟨0, u.next / u.columns, u.first + u.next % u.columns, u.next % u.columns + 1 == u.columns,
        Table.get (d.core core).matrix.nanc (nancKey (u.tile + u.next % u.columns / 512) (u.next / u.columns)) 0⟩, r.flags)
      sums := putAt 0 u.sums (u.next / u.columns) r.sum
      maxima := putAt 0 u.maxima (u.next / u.columns) r.max, stager := r.stager, nibbles := r.nibbles } := by
  unfold Dev.drainElement Dev.checkElement
  simp only [fresh, sound, Bool.false_eq_true, if_false, if_true, run, goes, stores]

theorem drainElement_stores {u : DrainUnit} {f : DrainForm} {stores : List DrainStore} {flags : Flags}
    (checked : u.checked = some (stores, flags)) (performed : Dev.performStores hp o.slot core d stores = (none, e)) :
    d.drainElement hp core core o u f =
      (e.opFlags o.op flags).setUnit core o.op core { u with next := u.next + 1, checked := none } := by
  unfold Dev.drainElement
  simp only [checked]
  unfold Dev.storeElement Dev.putStores
  simp only [performed]

theorem endDrain_frame (d : Dev) (core : Nat) (o : MatrixOp) : (d.endDrain core o).mem = d.mem ∧ (d.endDrain core o).ops = d.ops := by
  have units : ∀ (us : List DrainUnit) (d : Dev), (us.foldl (fun (d : Dev) u => if u.sums.isEmpty then d
      else d.onMatrix u.core fun m => { m with restart := some u }) d).mem = d.mem ∧
      (us.foldl (fun (d : Dev) u => if u.sums.isEmpty then d
        else d.onMatrix u.core fun m => { m with restart := some u }) d).ops = d.ops := by
    intro us
    induction us with
    | nil => exact fun d => ⟨rfl, rfl⟩
    | cons u us ih =>
      intro d
      rw [List.foldl_cons]
      split
      · exact ih d
      · exact ih _
  unfold Dev.endDrain
  split
  · dsimp only
    split
    · exact units o.units d
    · exact ⟨rfl, rfl⟩
  · exact ⟨rfl, rfl⟩

theorem drainEnds_frame (core : Nat) (o : MatrixOp) (d : Dev) : (drainEnds core o d).mem = d.mem ∧ (drainEnds core o d).ops = d.ops := by
  unfold drainEnds
  split
  · exact ⟨rfl, rfl⟩
  · split
    · exact endDrain_frame ..
    · exact ⟨rfl, rfl⟩

/-! ## Operations that retire -/

/-- The operation takes its last effect as it retires: it is no `bswap`. -/
def endsRetiring (o : MatrixOp) : Bool :=
  match o.work with
  | .bswap _ _ => false
  | _ => true

/-- R283: the last effect of an operation can come about. -/
def retires (d : Dev) (core : Nat) (x : MatrixOp) : Bool :=
  x.phase == .finished || (x.loads && d.engineReady core x && endsRetiring x)

/-- R288, R291, R293: the last effect of an operation that has not finished. -/
def lastEffect (hp : HostPart) (d : Dev) (core : Nat) (o : MatrixOp) : Dev :=
  match o.work with
  | .bload v stride macros bslot back pair rows =>
    ((opCores core pair).mapIdx fun n j => (j, n)).foldl
      (fun (d' : Dev) x => d'.loadBanks hp o core x.1 (x.2 * columnsOf (d.opSlot o bslot).format.toNat) (d.opSlot o bslot) v stride macros
        back rows) d
  | .mclr tile pair => (opCores core pair).foldl (Dev.clearTile tile) d
  | .dload src kind first count => d.loadDrain hp o core src kind first count
  | _ => d

theorem exec_retire (oldest : (s.dev.core core).engine.find? (retires s.dev core) = some o) :
    exec (.matrixOperationRetire core) s = .next (withDev s
      ((if o.phase == .finished then s.dev else lastEffect s.host s.dev core o).retireOp s.host core o.op)) := by
  change execMatrixOperationRetire core s = _
  unfold execMatrixOperationRetire
  rw [run_eq]
  split
  next absent =>
    have absurd : none = some o := absent.symm.trans oldest
    nomatch absurd
  next first found =>
    have same : some first = some o := found.symm.trans oldest
    cases same
    rfl

/-- R293: a word that a `dload` has read, in its record of drain memory. -/
theorem drainWord_setDrain (m : Matrix) (kind lo count n : Nat) (f : Nat → Word) (h : n < count) :
    (m.setDrain kind lo count f).drainWord kind (lo + n) = f n := by
  have at_ : ∀ t : List (Nat × Word), Table.get (Table.replace 0 t lo count f) (lo + n) 0 = f n := fun t => by
    rw [get_replace, if_pos (by omega), Nat.add_sub_cancel_left]
  match kind with
  | 0 => exact at_ m.programs
  | 1 => exact at_ m.constants
  | _ + 2 => exact at_ m.tables

theorem loadDrain_word {src : Dword} {kind first count n : Nat} {bs : List Byte}
    (read : d.readVa hp o.slot core src.toNat (count * drainRecordWords kind * 4) = .ok (bs, e)) (h : n < count * drainRecordWords kind) :
    ((d.loadDrain hp o core src kind first count).core core).matrix.drainWord kind (first * drainRecordWords kind + n) =
      BitVec.ofNat 32 (field bs (4 * n) 4) := by
  unfold Dev.loadDrain
  simp only [read]
  unfold Dev.onMatrix
  rw [Dev.core_onCore]
  exact drainWord_setDrain _ kind _ _ n _ h

/-- Settles O40: each event of the engine is the model's own for the operation that it takes; a drain's end and an operation's
last effect are named, and neither changes the memory or the flags of the operations. -/
theorem matrixEngineResults : Obligations.MatrixEngineResults := by
  unfold Obligations.MatrixEngineResults
  intro s core o
  refine ⟨?_, ?_, ?_, ?_, ?_, ?_⟩
  · exact fun a tile prog aslot bslot oslot back pair acc cplx naz dc base g h rows payload exps d work oldest ready read sound =>
      exec_arrayPhase work oldest ready read sound
  · exact exec_arrayPhaseEnd
  · exact fun macros pair work oldest ready => exec_bswapTakesEffect work oldest ready
  · intro f prog rows oldest here single fresh alone performed form sound legal u more
    refine exec_drain oldest here single fresh (fun e he => ?_) performed form sound legal more
    obtain ⟨drains, array, loads⟩ := alone e he
    unfold drainsAlone
    rcases loads with ended | loads
    · simp [drains, array, ended]
    · simp [drains, array, loads]
  · intro f prog rows u r d draining form
    refine ⟨fun fresh sound run goes stores => ?_, fun stores flags checked e performed => ?_⟩
    · rw [exec_drainElement draining form, drainElement_checks fresh sound run goes stores]
      rfl
    · intro t
      have frame := drainEnds_frame core o ((e.opFlags o.op flags).setUnit core o.op core { u with next := u.next + 1, checked := none })
      exact ⟨by rw [exec_drainElement draining form, drainElement_stores checked performed]; rfl, frame.1, frame.2⟩
  · intro oldest
    have oldest : (s.dev.core core).engine.find? (retires s.dev core) = some o := oldest
    have unfinished : o.phase ≠ .finished → exec (.matrixOperationRetire core) s =
        .next (withDev s ((lastEffect s.host s.dev core o).retireOp s.host core o.op)) := fun h => by
      rw [exec_retire oldest, if_neg (by simpa using h)]
    refine ⟨fun h => ?_, fun h tile pair work => ?_, fun h src kind first count bs d work read => ⟨?_, ?_⟩,
      fun h v stride macros bslot rows back work => ?_⟩
    · rw [exec_retire oldest, if_pos (by simp [h])]
    · rw [unfinished h]
      unfold lastEffect
      simp only [work]
    · rw [unfinished h]
      unfold lastEffect
      simp only [work]
    · exact fun n hn => loadDrain_word read hn
    · rw [unfinished h]
      unfold lastEffect
      simp only [work, opCores, Bool.false_eq_true, if_false, List.mapIdx_cons, List.mapIdx_nil, List.foldl_cons, List.foldl_nil,
        Nat.zero_mul]

end Sys2Proof.Proofs
end

section
/-! PROOF. Collectives: acceptance, flits, completion, and the sum of integers (R346, R349 to R352, R354, R446, R448, R449). -/

namespace Sys2Proof.Proofs

open Sys2Proof Sys2Proof.Machine Sys2Proof.Safety

variable {s : Machine.State} {hp : HostPart} {d e : Dev} {id : Nat} {c : Coll}

/-! ## Acceptance -/

theorem exec_collAccept {bs : List Byte} (next : s.dev.nextColl s.host s.dev.colls = some (id, c))
    (read : s.dev.readVa s.host c.slot (s.dev.collCore id) c.desc.toNat 128 = .ok (bs, d)) :
    exec .collAccept s = .next (withDev s (d.acceptRead s.host id c bs)) := by
  change execCollAccept s = _
  unfold execCollAccept
  simp only [run_eq, next, read]

/-- R350: an operation that the sequencer accepts under the view of its group. -/
def underView (c : Coll) (bs : List Byte) (g : Group) : Coll :=
  { c with accepted := true, bytes := bs, group := (readColl bs).group, seq := g.next, oldGen := g.gen, gen := g.gen,
           first := g.members, members := g.members }

/-- R350: the group's next sequence number. -/
def nextNumber (d : Dev) (slot : Nat) (bs : List Byte) : Dev :=
  d.onGroup slot (readColl bs).group fun g => { g with next := g.next + 1 }

theorem acceptRead_starts {bs : List Byte} {g : Group} (group : Table.find? (d.context c.slot).groups (readColl bs).group.toNat = some g)
    (active : hp.featActive.getLsbD 3 = true) (attached : g.detached = false)
    (view : (readColl bs).vexp = 0 ∨ (readColl bs).vexp = (readColl bs).group ++ g.gen)
    (valid : (readColl bs).valid g.members.length = true)
    (direct : (readColl bs).inPlace = false ∨ (readColl bs).readsHere g.members hp.module = false) :
    d.acceptRead hp id c bs = (nextNumber d c.slot bs).setColl id { underView c bs g with staged := none } := by
  have view : ((readColl bs).vexp != 0 && (readColl bs).vexp != tagOf (readColl bs).group g.gen) = false := by
    unfold tagOf
    rcases view with h | h <;> simp [h]
  have direct : ((readColl bs).inPlace && (readColl bs).readsHere g.members hp.module) = false := by
    rcases direct with h | h <;> simp [h]
  unfold Dev.acceptRead
  simp only [group, active, attached, view, valid, Bool.not_true, Bool.or_self, Bool.false_eq_true, if_false]
  unfold Dev.stage
  simp only [direct, Bool.false_eq_true, if_false]
  rfl

theorem acceptRead_ends {bs : List Byte} {g : Group} (group : Table.find? (d.context c.slot).groups (readColl bs).group.toNat = some g)
    (active : hp.featActive.getLsbD 3 = true)
    (refused : g.detached = true ∨ ((readColl bs).vexp ≠ 0 ∧ (readColl bs).vexp ≠ (readColl bs).group ++ g.gen)) :
    d.acceptRead hp id c bs = (nextNumber d c.slot bs).endColl hp id (underView c bs g) (.early 0x12) := by
  have refused : (g.detached || ((readColl bs).vexp != 0 && (readColl bs).vexp != tagOf (readColl bs).group g.gen)) = true := by
    unfold tagOf
    rcases refused with h | ⟨h, h'⟩
    · simp [h]
    · rw [bne_iff_ne.2 h, bne_iff_ne.2 h', Bool.and_self, Bool.or_true]
  unfold Dev.acceptRead
  simp only [group, active, Bool.not_true, Bool.false_eq_true, if_false, refused, if_true]
  rfl

/-! ## Completion -/

theorem leBytes_leValue (bs : List Byte) : leBytes bs.length (leValue bs) = bs := by
  induction bs with
  | nil => rfl
  | cons b bs ih =>
    have low : BitVec.ofNat 8 (b.toNat + 256 * leValue bs) = b := by
      apply BitVec.eq_of_toNat_eq
      have := b.isLt
      rw [BitVec.toNat_ofNat]
      omega
    have high : (b.toNat + 256 * leValue bs) / 256 = leValue bs := by
      have := b.isLt
      omega
    change BitVec.ofNat 8 (b.toNat + 256 * leValue bs) :: leBytes bs.length ((b.toNat + 256 * leValue bs) / 256) = _
    rw [low, high, ih]

/-- R351: the elements of a buffer, written out, are its bytes. -/
theorem elementsOf_bytes {size n : Nat} {bs : List Byte} (h : size * n ≤ bs.length) :
    (elementsOf size n bs).flatMap (leBytes size) = bs.take (size * n) := by
  induction n with
  | zero => simp [elementsOf]
  | succ n ih =>
    have long : size ≤ (bs.drop (size * n)).length := by
      rw [List.length_drop, Nat.mul_succ] at *
      omega
    have last : leBytes size (field bs (size * n) size) = (bs.drop (size * n)).take size := by
      have length : ((bs.drop (size * n)).take size).length = size := List.length_take_of_le long
      have whole := leBytes_leValue ((bs.drop (size * n)).take size)
      rw [length] at whole
      exact whole
    have before := ih (Nat.le_trans (Nat.mul_le_mul_left size (Nat.le_succ n)) h)
    unfold elementsOf at before ⊢
    rw [List.range_succ, List.map_append, List.flatMap_append, before, List.map_singleton, List.flatMap_singleton, last, Nat.mul_succ,
      List.take_add]

/-- R351: some of the elements of a buffer are those of its bytes from there on. -/
theorem elementsOf_slice {size n k m : Nat} {bs : List Byte} (h : k + m ≤ n) :
    ((elementsOf size n bs).drop k).take m = elementsOf size m (bs.drop (size * k)) := by
  unfold elementsOf
  refine List.ext_getElem (by simp; omega) fun i _ _ => ?_
  simp [field, List.drop_drop, Nat.mul_add]

theorem elementsOf_whole {size n : Nat} {bs : List Byte} (h : bs.length = n * size) :
    (elementsOf size n bs).flatMap (leBytes size) = bs := by
  rw [Nat.mul_comm] at h
  rw [elementsOf_bytes h.ge, ← h, List.take_length]

/-- R351: the elements of one of the blocks of a buffer, written out, are the block's bytes. -/
theorem elementsOf_block {size n m k : Nat} {bs : List Byte} (h : bs.length = m * n * size) (place : k < m) :
    (((elementsOf size (n * m) bs).drop (k * n)).take n).flatMap (leBytes size) = (bs.drop (k * n * size)).take (n * size) := by
  have blocks : k * n + n ≤ n * m := by
    have := Nat.mul_le_mul_right n (Nat.succ_le_of_lt place)
    rw [Nat.succ_mul, Nat.mul_comm m n] at this
    exact this
  have bytes : size * n ≤ (bs.drop (size * (k * n))).length := by
    have := Nat.mul_le_mul_left size blocks
    rw [Nat.mul_add] at this
    rw [List.length_drop, h, Nat.mul_comm m n, Nat.mul_comm (n * m) size]
    omega
  rw [elementsOf_slice blocks, elementsOf_bytes bytes, Nat.mul_comm size n, Nat.mul_comm size (k * n)]

/-- The bytes of some values without flags, and their flags. -/
theorem plain_values (size : Nat) (vs : List Nat) :
    ((vs.map fun v => (v, (0 : Flags))).flatMap fun x => leBytes size x.1) = vs.flatMap (leBytes size) ∧
      (vs.map fun v => (v, (0 : Flags))).foldl (fun (a : Flags) x => a ||| x.2) 0 = 0 := by
  refine ⟨by rw [List.flatMap_map], ?_⟩
  induction vs with
  | nil => rfl
  | cons v vs ih => simpa using ih

/-- R351: the elements that each rank gives. -/
def rankElements (c : Coll) (own : List Byte) (module size n : Nat) : List (List Nat) :=
  (List.range c.members.length).map fun r => elementsOf size n (given c own module r)

/-- R448: a completion of an operation that each other member has given to and acknowledged, once its own bytes are read and
its result is written. -/
theorem exec_collComplete {own bytes : List Byte} (found : Table.find? s.dev.colls id = some c) (accepted : c.accepted = true)
    (all : ∀ m ∈ c.members, m = s.host.module ∨ ((∃ g ∈ c.given, g.1 = m) ∧ m ∈ c.acks))
    (alike : ∀ g ∈ c.given, g.1 = s.host.module ∨ (readColl c.bytes).matches g.2 = true) (moves : (readColl c.bytes).op ≠ 1)
    (read : s.dev.ownBytes s.host id c (readColl c.bytes) = .ok (own, d)) {out : List Nat}
    (result : ∀ seed, c.result (readColl c.bytes) seed (rankIn c.members s.host.module)
      (rankIn c.members (moduleAt c.first (readColl c.bytes).root)) (rankElements c own s.host.module (readColl c.bytes).size
        ((readColl c.bytes).count * (if (readColl c.bytes).op = 4 then c.members.length else 1))) = out.map fun v => (v, 0))
    (whole : out.flatMap (leBytes (readColl c.bytes).size) = bytes)
    (written : { d with free := d.free + 1 }.writeVa s.host c.slot (d.collCore id) (readColl c.bytes).dbuf.toNat bytes = .ok e) :
    exec (.collComplete id) s = .next (withDev s (e.endColl s.host id c ⟨if c.changed then 0x13 else 0, 0, 0, bytes.length, 0⟩)) := by
  have all : c.allGiven s.host.module = true := by
    refine List.all_eq_true.2 fun m hm => ?_
    rcases all m hm with own | ⟨⟨g, hg, same⟩, ack⟩
    · simp [own]
    · have gave : (c.given.any fun g => g.1 == m) = true := List.any_eq_true.2 ⟨g, hg, by simp [same]⟩
      simp [gave, ack]
  have alike : (c.given.all fun g => g.1 == s.host.module || (readColl c.bytes).matches g.2) = true := by
    refine List.all_eq_true.2 fun g hg => ?_
    rcases alike g hg with own | same
    · simp [own]
    · simp [same]
  have moves : decide ((readColl c.bytes).op = 1) = false := decide_eq_false moves
  have core : ({ d with free := d.free + 1 } : Dev).collCore id = d.collCore id := rfl
  have elements : ((List.range c.members.length).map fun r =>
      if moduleAt c.members r = s.host.module then
        elementsOf (readColl c.bytes).size
          ((readColl c.bytes).count * (if (readColl c.bytes).op = 4 then c.members.length else 1)) own
      else elementsOf (readColl c.bytes).size
        ((readColl c.bytes).count * (if (readColl c.bytes).op = 4 then c.members.length else 1))
        (((c.given.find? fun g => g.1 == moduleAt c.members r).map fun g => g.2.data).getD [])) =
      rankElements c own s.host.module (readColl c.bytes).size
        ((readColl c.bytes).count * (if (readColl c.bytes).op = 4 then c.members.length else 1)) :=
    List.map_congr_left fun r _ => by
      unfold given
      dsimp only
      split <;> rfl
  have plain := plain_values (readColl c.bytes).size out
  change execCollComplete id s = _
  unfold execCollComplete
  rw [run_eq]
  simp only [found, accepted, all, Bool.and_self, if_true]
  unfold Dev.runColl Dev.nextFree
  simp only [alike, moves, Bool.not_true, Bool.false_and, Bool.false_eq_true, if_false, read, elements, result, plain.1, plain.2, whole,
    core, written]

/-! ## Flits -/

theorem exec_collectiveFlit {f : CollectiveFlit} (target : flitFor s.dev f id c) (member : f.sender ∈ c.members)
    (other : f.sender ≠ s.host.module) :
    (∀ x, f.payload = .contribution x → (∀ g ∈ c.given, g.1 ≠ f.sender) →
      (x.data.length = contributionBytes x c.members.length ∨ (x.op = 3 ∧ x.data = [])) →
      exec (.collectiveFlit f) s = .next (withDev s (s.dev.setColl id { c with given := c.given ++ [(f.sender, x)] }))) ∧
    (f.payload = .lastAcknowledged → f.sender ∉ c.acks →
      exec (.collectiveFlit f) s = .next (withDev s (s.dev.setColl id { c with acks := c.acks ++ [f.sender] }))) := by
  have admitted : (!c.members.contains f.sender || f.sender == s.host.module) = false := by simp [member, other]
  unfold flitFor at target
  refine ⟨fun x payload fresh full => ?_, fun payload fresh => ?_⟩
  · have full : (x.data.length == contributionBytes x c.members.length || (x.op == 3 && x.data.isEmpty)) = true := by
      rcases full with h | ⟨h, h'⟩
      · simp [h]
      · simp [h, h']
    have fresh : (c.given.any fun g => g.1 == f.sender) = false := List.any_eq_false.2 fun g hg => by simp [fresh g hg]
    change execCollectiveFlit f s = _
    unfold execCollectiveFlit
    rw [run_eq]
    simp only [target, admitted, payload, full, fresh, Bool.not_true, Bool.or_self, Bool.false_eq_true, if_false]
  · have fresh : c.acks.contains f.sender = false := by simpa using fresh
    change execCollectiveFlit f s = _
    unfold execCollectiveFlit
    rw [run_eq]
    simp only [target, admitted, payload, fresh, Bool.false_eq_true, if_false]

/-- R449: a flit of another view goes nowhere. -/
theorem exec_collectiveFlit_dropped {f : CollectiveFlit}
    (other : ∀ x ∈ s.dev.colls, x.2.accepted = true → x.2.slot = f.slot → x.2.group = f.group → x.2.seq = f.seq → x.2.gen ≠ f.gen) :
    exec (.collectiveFlit f) s = .next s := by
  have none : List.find? (fun (x : Nat × Coll) => x.2.accepted && x.2.slot == f.slot && x.2.group == f.group && x.2.seq == f.seq &&
      x.2.gen == f.gen) s.dev.colls = none := by
    refine List.find?_eq_none.2 fun x hx same => ?_
    simp only [Bool.and_eq_true, beq_iff_eq] at same
    obtain ⟨⟨⟨⟨accepted, slot⟩, group⟩, seq⟩, gen⟩ := same
    exact other x hx accepted slot group seq gen
  change execCollectiveFlit f s = _
  unfold execCollectiveFlit
  rw [run_eq]
  simp only [none]
  rfl

/-! ## The sum of integers -/

theorem sum_takeOut {xs : List Nat} {i : Nat} (h : i < xs.length) : (takeOut xs i).1 + (takeOut xs i).2.sum = xs.sum := by
  have same := (List.getElem_cons_eraseIdx_perm h).sum_eq
  rw [List.sum_cons] at same
  unfold takeOut
  rw [List.getD_eq_getElem xs 0 h]
  exact same

theorem length_takeOut {xs : List Nat} {i : Nat} (h : i < xs.length) : (takeOut xs i).2.length = xs.length - 1 :=
  List.length_eraseIdx_of_lt h

/-- R352: a step of a sum of s32 adds modulo 2^32 and raises no flag. -/
theorem reduceStep_sum (a b : Nat) : (reduceStep 0x18 0 a b).1 % 2 ^ 32 = (a + b) % 2 ^ 32 ∧ (reduceStep 0x18 0 a b).2 = 0 := by
  have signed : ∀ v : Nat, integerValue 32 true v % (2 ^ 32 : Nat) = (v : Int) % (2 ^ 32 : Nat) := fun v => by
    unfold integerValue
    dsimp only
    split <;> omega
  have ha := signed a
  have hb := signed b
  refine ⟨?_, rfl⟩
  change integerBits 32 (integerValue 32 true a + integerValue 32 true b) % 2 ^ 32 = _
  generalize integerValue 32 true a = x at ha ⊢
  generalize integerValue 32 true b = y at hb ⊢
  unfold integerBits
  omega

/-- R352: a sum of s32 is that of all the elements, whichever two are combined first. -/
theorem reduceTree_sum (pick : Nat → Nat × Nat) (n : Nat) (xs : List Nat) (fl : Flags) (h : xs.length = n + 1) :
    (reduceTree 0x18 0 pick n xs fl).1 % 2 ^ 32 = xs.sum % 2 ^ 32 ∧ (reduceTree 0x18 0 pick n xs fl).2 = fl := by
  induction n generalizing xs fl with
  | zero =>
    obtain ⟨x, rfl⟩ := List.length_eq_one_iff.1 h
    exact ⟨by simp [reduceTree], rfl⟩
  | succ n ih =>
    have first : (pick n).1 % xs.length < xs.length := Nat.mod_lt _ (by omega)
    have one := sum_takeOut first
    have left := length_takeOut first
    have second : (pick n).2 % (takeOut xs ((pick n).1 % xs.length)).2.length < (takeOut xs ((pick n).1 % xs.length)).2.length :=
      Nat.mod_lt _ (by omega)
    have two := sum_takeOut second
    have rest := length_takeOut second
    unfold reduceTree
    dsimp only
    generalize takeOut xs ((pick n).1 % xs.length) = p at one left second two rest ⊢
    generalize takeOut p.2 ((pick n).2 % p.2.length) = q at two rest ⊢
    have step := reduceStep_sum p.1 q.1
    have later := ih ((reduceStep 0x18 0 p.1 q.1).1 :: q.2) (fl ||| (reduceStep 0x18 0 p.1 q.1).2) (by rw [List.length_cons]; omega)
    refine ⟨?_, ?_⟩
    · have whole := later.1
      rw [List.sum_cons] at whole
      omega
    · rw [later.2, step.2]
      exact BitVec.or_zero

theorem reduce_sum {f : CollDesc} {seed lo n i : Nat} (xs : List (List Nat)) (format : f.etype = 0x18) (sum : f.redop = 0)
    (policy : f.policy ≠ 1) (h : i < n) :
    ∃ v, (c.reduce f seed lo n xs)[i]? = some (v, 0) ∧ v % 2 ^ 32 = (xs.map fun x => x.getD (lo + i) 0).sum % 2 ^ 32 := by
  have tree : (reduceTree 0x18 0 (Config.sumPick seed (lo + i)) (xs.length - 1) (xs.map fun x => x.getD (lo + i) 0) 0).1 % 2 ^ 32 =
      (xs.map fun x => x.getD (lo + i) 0).sum % 2 ^ 32 ∧
      (reduceTree 0x18 0 (Config.sumPick seed (lo + i)) (xs.length - 1) (xs.map fun x => x.getD (lo + i) 0) 0).2 = 0 := by
    cases xs with
    | nil => exact ⟨rfl, rfl⟩
    | cons x xs => exact reduceTree_sum _ _ _ _ (by simp)
  have plain : ∀ v, c.weigh f v = (v, 0) := fun v => by
    have average : f.redop ≠ 1 := by omega
    have reweighted : (decide (f.redop = 0) && decide (f.policy = 1) && c.changed) = false := by
      rw [decide_eq_false policy, Bool.and_false, Bool.false_and]
    unfold Coll.weigh
    simp [average, policy]
  refine ⟨_, ?_, tree.1⟩
  unfold Coll.reduce
  rw [List.getElem?_map, List.getElem?_range h, Option.map_some, format, sum]
  simp only [plain, tree.2]
  rfl

/-- Settles O44: acceptance, flits and completion are the model's own with their guards met; the elements of what a rank gives,
written out, are its bytes; and each step of a sum of s32 adds modulo 2^32. -/
theorem collectiveResults : Obligations.CollectiveResults := by
  unfold Obligations.CollectiveResults
  refine ⟨?_, ?_, ?_, ?_, ?_⟩
  · intro s id c bs d g next read f group active d' c'
    refine ⟨fun attached view valid direct => ?_, fun refused => ?_⟩
    · rw [exec_collAccept next read, acceptRead_starts group active attached view valid direct]
      rfl
    · rw [exec_collAccept next read, acceptRead_ends group active refused]
      rfl
  · intro s id c own d d' found accepted all f alike read m write ends
    have single : f.op ≠ 4 → f.count * (if f.op = 4 then m else 1) = f.count := fun h => by rw [if_neg h, Nat.mul_one]
    refine ⟨?_, ?_, ?_⟩
    · intro op length bytes written
      refine exec_collComplete found accepted all alike (fun one => absurd (op.symm.trans one) (by decide)) read
        (out := (rankElements c own s.host.module f.size f.count).flatMap fun x => x) (fun seed => ?_) ?_ written
      · change c.result f seed _ _ (rankElements c own s.host.module f.size (f.count * (if f.op = 4 then m else 1))) = _
        rw [single (by omega)]
        unfold Coll.result
        simp only [op]
      · unfold rankElements
        rw [List.flatMap_assoc, List.flatMap_map]
        exact List.flatMap_congr fun r hr => elementsOf_whole (length r (List.mem_range.1 hr))
    · intro op root place rank length bytes written
      refine exec_collComplete found accepted all alike (fun one => absurd (op.symm.trans one) (by decide)) read
        (out := elementsOf f.size f.count (given c own s.host.module root)) (fun seed => ?_) (elementsOf_whole length) written
      change c.result f seed _ _ (rankElements c own s.host.module f.size (f.count * (if f.op = 4 then m else 1))) = _
      rw [single (by omega)]
      unfold Coll.result
      simp only [op]
      have at_ : (rankElements c own s.host.module f.size f.count).getD root [] =
          elementsOf f.size f.count (given c own s.host.module root) := by
        unfold rankElements
        rw [List.getD_eq_getElem?_getD, List.getElem?_map, List.getElem?_range place]
        rfl
      rw [← at_, rank]
    · intro op length rank bytes place written
      refine exec_collComplete found accepted all alike (fun one => absurd (op.symm.trans one) (by decide)) read
        (out := (rankElements c own s.host.module f.size (f.count * m)).flatMap fun x => (x.drop (rank * f.count)).take f.count)
        (fun seed => ?_) ?_ written
      · change c.result f seed _ _ (rankElements c own s.host.module f.size (f.count * (if f.op = 4 then m else 1))) = _
        rw [if_pos op]
        unfold Coll.result
        simp only [op]
        rfl
      · unfold rankElements
        rw [List.flatMap_assoc, List.flatMap_map]
        exact List.flatMap_congr fun r hr => elementsOf_block (length r (List.mem_range.1 hr)) place
  · exact fun s f id c target member other => exec_collectiveFlit target member other
  · exact fun s f other => exec_collectiveFlit_dropped other
  · exact fun c f seed lo n xs format sum policy i h => reduce_sum xs format sum policy h

end Sys2Proof.Proofs
end

section
/-! PROOF. Membership: heartbeats, lost modules, agreement, new views and the return of a module (R358 to R360, R448 to R452). -/

namespace Sys2Proof.Proofs

open Sys2Proof Sys2Proof.Machine Sys2Proof.Safety

variable {s : Machine.State} {hp : HostPart} {d e : Dev} {slot module : Nat} {group : BitVec 16} {g : Group}

/-! ## Groups of a device -/

/-- A group of a context (R346). -/
def groupAt (d : Dev) (slot n : Nat) : Option Group := Table.find? (d.context slot).groups n

theorem onContext_onContext (d : Dev) (slot : Nat) (f f' : Context → Context) :
    (d.onContext slot f).onContext slot f' = d.onContext slot fun c => f' (f c) := by
  unfold Dev.onContext
  have same : (d.setContext slot (f (d.context slot))).context slot = f (d.context slot) := Dev.context_onContext d slot f
  rw [same]
  unfold Dev.setContext
  simp only [Table_set_set]

theorem onGroup_onGroup (d : Dev) (slot : Nat) (group : BitVec 16) (f f' : Group → Group) :
    (d.onGroup slot group f).onGroup slot group f' = d.onGroup slot group fun g => f' (f g) := by
  unfold Dev.onGroup
  simp only [onContext_onContext, modify_modify]

theorem onGroup_congr {f f' : Group → Group} (found : groupAt d slot group.toNat = some g) (h : f g = f' g) :
    d.onGroup slot group f = d.onGroup slot group f' := by
  have same : ∀ x, Table.find? (d.context slot).groups group.toNat = some x → f x = f' x := fun x hx => by
    cases found.symm.trans hx
    exact h
  unfold Dev.onGroup Dev.onContext
  dsimp only
  rw [modify_congr same]

theorem groupAt_onGroup (found : groupAt d slot group.toNat = some g) (f : Group → Group) :
    groupAt (d.onGroup slot group f) slot group.toNat = some (f g) := by
  unfold groupAt Dev.onGroup at *
  rw [Dev.context_onContext]
  exact (Table.find?_modify_self ..).trans (congrArg (Option.map f) found)

theorem groupAt_onGroup_of_ne {slot' n : Nat} (f : Group → Group) (h : ¬(slot' = slot ∧ n = group.toNat)) :
    groupAt (d.onGroup slot group f) slot' n = groupAt d slot' n := by
  unfold groupAt Dev.onGroup
  by_cases same : slot' = slot
  · have other : n ≠ group.toNat := fun c => h ⟨same, c⟩
    rw [same, Dev.context_onContext]
    exact Table.find?_modify_of_ne _ _ other
  · rw [Dev.context_onContext_of_ne _ _ same]

/-! ## A group that loses a module (R448, R450, R451) -/

/-- R450: a round under way after a module of it is lost. -/
def roundWithout (module : Nat) (g : Group) : Option Round :=
  g.round.filter fun r => !(r.members.contains module && !r.committed)

/-- R448: the module belongs to the group, or to its round under way. -/
def concerns (module : Nat) (g : Group) : Bool := g.members.contains module || g.round.any fun r => r.members.contains module

/-- R448: a group after a module is lost, whether or not the module belongs to it. -/
def lostGroup (module : Nat) (g : Group) : Group :=
  if concerns module g then g.loseMember module else { g.loseMember module with lost := g.lost }

theorem lostGroup_eq (module : Nat) (g : Group) : lostGroup module g =
    { g with
      lost := if concerns module g && !g.lost.contains module then g.lost ++ [module] else g.lost
      round := roundWithout module g, returning := g.returning.filter fun r => r.1 != module } := by
  have round : (g.loseMember module).round = roundWithout module g := by
    unfold Group.loseMember roundWithout
    cases g.round with
    | none => rfl
    | some r =>
      dsimp only
      rw [Option.filter_some]
      cases r.members.contains module && !r.committed <;> rfl
  have lost : (g.loseMember module).lost = if g.lost.contains module then g.lost else g.lost ++ [module] := rfl
  rw [← round]
  unfold lostGroup
  cases concerns module g
  · rfl
  · rw [if_pos rfl, Bool.true_and]
    unfold Group.loseMember
    cases g.lost.contains module <;> rfl

theorem roundWithout_any {p : Round → Bool} (h : (roundWithout module g).any p = true) : g.round.any p = true := by
  unfold roundWithout at h
  cases round : g.round with
  | none => simp [round] at h
  | some r =>
    rw [round, Option.filter_some] at h
    split at h
    · exact h
    · nomatch h

/-- R448: whose loss a group has noted is lost. -/
theorem mem_lost_lostGroup (h : concerns module g = true) : module ∈ (lostGroup module g).lost := by
  rw [lostGroup_eq, h]
  dsimp only
  split
  · simp
  next noted => simpa using noted

/-- R448: a module is lost once. -/
theorem lostGroup_lostGroup (module : Nat) (g : Group) : lostGroup module (lostGroup module g) = lostGroup module g := by
  have noted : (concerns module (lostGroup module g) && !(lostGroup module g).lost.contains module) = false := by
    cases again : concerns module (lostGroup module g) with
    | false => rfl
    | true =>
      have before : concerns module g = true := by
        unfold concerns at again ⊢
        rw [Bool.or_eq_true] at again ⊢
        refine again.imp (fun h => ?_) (fun h => roundWithout_any (module := module) ?_)
        · rw [lostGroup_eq] at h
          exact h
        · rw [lostGroup_eq] at h
          exact h
      simpa using mem_lost_lostGroup before
  have round : roundWithout module (lostGroup module g) = roundWithout module g := by
    rw [lostGroup_eq]
    unfold roundWithout
    rw [Option.filter_filter]
    simp only [Bool.and_self]
  rw [lostGroup_eq module (lostGroup module g), noted, round, lostGroup_eq]
  simp only [Bool.false_eq_true, if_false, List.filter_filter, Bool.and_self]

/-- R451: the live members, once a module is lost, are those of the others. -/
theorem liveMembers_lostGroup (module : Nat) (g : Group) :
    (lostGroup module g).liveMembers = g.liveMembers.filter (· ≠ module) := by
  unfold Group.liveMembers
  rw [List.filter_filter, lostGroup_eq]
  refine List.filter_congr fun m hm => ?_
  dsimp only
  cases mine : concerns module g with
  | false =>
    have other : m ≠ module := fun same => by simp [concerns, ← same, hm] at mine
    simp [other]
  | true =>
    by_cases noted : module ∈ g.lost
    · have kept : (if (true && !g.lost.contains module) = true then g.lost ++ [module] else g.lost) = g.lost :=
        if_neg (by simp [noted])
      rw [kept]
      by_cases same : m = module
      · simp [same, noted]
      · simp [same]
    · have added : (if (true && !g.lost.contains module) = true then g.lost ++ [module] else g.lost) = g.lost ++ [module] :=
        if_pos (by simp [noted])
      rw [added]
      by_cases same : m = module
      · simp [same]
      · simp [same]

theorem detached_lostGroup (module : Nat) (g : Group) : (lostGroup module g).detached = g.detached := by rw [lostGroup_eq]

theorem majority_lostGroup (module : Nat) (g : Group) :
    (lostGroup module g).majority (lostGroup module g).liveMembers = g.majority (g.liveMembers.filter (· ≠ module)) := by
  rw [liveMembers_lostGroup]
  unfold Group.majority
  rw [lostGroup_eq]

/-! ## A module that is lost -/

theorem loseIn_none {n : Nat} (absent : groupAt d slot n = none) : Dev.loseIn hp module slot d n = d := by
  unfold groupAt at absent
  unfold Dev.loseIn
  rw [absent]

theorem loseIn_keeps {n : Nat} (found : groupAt d slot n = some g)
    (keeps : g.detached = true ∨ g.majority (g.liveMembers.filter (· ≠ module)) = true) :
    Dev.loseIn hp module slot d n = d.onGroup slot (BitVec.ofNat 16 n) fun _ => lostGroup module g := by
  have keeps : ((lostGroup module g).detached || (lostGroup module g).majority (lostGroup module g).liveMembers) = true := by
    rw [detached_lostGroup, majority_lostGroup, Bool.or_eq_true]
    exact keeps
  unfold groupAt at found
  unfold Dev.loseIn
  rw [found]
  exact if_pos keeps

theorem loseIn_detaches {n : Nat} (found : groupAt d slot n = some g) (attached : g.detached = false)
    (minority : g.majority (g.liveMembers.filter (· ≠ module)) = false) :
    Dev.loseIn hp module slot d n =
      ((d.onGroup slot (BitVec.ofNat 16 n) fun _ => lostGroup module g).onGroup slot (BitVec.ofNat 16 n) fun g =>
        { g with detached := true, round := none }).abandonColls hp (d.groupColls slot (BitVec.ofNat 16 n)) := by
  have minority : ((lostGroup module g).detached || (lostGroup module g).majority (lostGroup module g).liveMembers) = false := by
    rw [detached_lostGroup, majority_lostGroup, attached, minority]
    rfl
  unfold groupAt at found
  unfold Dev.loseIn
  rw [found]
  exact if_neg fun kept => absurd (minority.symm.trans kept) (by decide)

/-- R448: a device in which some of the groups have lost a module. -/
def losing (module : Nat) (d e : Dev) : Prop :=
  e = { d with contexts := e.contexts } ∧ ∀ slot n,
    groupAt e slot n = groupAt d slot n ∨ groupAt e slot n = (groupAt d slot n).map (lostGroup module)

/-- R448: every group of the device that has lost the module keeps a majority, or was detached. -/
def keepsMajority (module : Nat) (d : Dev) : Prop :=
  ∀ slot n g, groupAt d slot n = some g →
    n < 2 ^ 16 ∧ (g.detached = true ∨ g.majority (g.liveMembers.filter (· ≠ module)) = true)

/-- R448: a group that keeps its majority loses a module. -/
theorem losing_step {n : Nat} (keeps : keepsMajority module d) (h : losing module d e) :
    losing module d (Dev.loseIn hp module slot e n) ∧
      groupAt (Dev.loseIn hp module slot e n) slot n = (groupAt d slot n).map (lostGroup module) ∧
      ∀ slot' n', groupAt e slot' n' = (groupAt d slot' n').map (lostGroup module) →
        groupAt (Dev.loseIn hp module slot e n) slot' n' = (groupAt d slot' n').map (lostGroup module) := by
  cases old : groupAt d slot n with
  | none =>
    have absent : groupAt e slot n = none := by simpa [old] using h.2 slot n
    rw [loseIn_none absent]
    exact ⟨h, absent, fun _ _ done => done⟩
  | some g =>
    obtain ⟨bound, majority⟩ := keeps slot n g old
    have number : (BitVec.ofNat 16 n).toNat = n := by rw [BitVec.toNat_ofNat, Nat.mod_eq_of_lt bound]
    have lose : ∃ g', groupAt e slot n = some g' ∧ lostGroup module g' = lostGroup module g ∧
        (g'.detached = true ∨ g'.majority (g'.liveMembers.filter (· ≠ module)) = true) := by
      rcases h.2 slot n with same | lost
      · exact ⟨g, same.trans old, rfl, majority⟩
      · refine ⟨lostGroup module g, lost.trans (congrArg (Option.map _) old), lostGroup_lostGroup module g, ?_⟩
        rw [← majority_lostGroup, lostGroup_lostGroup, detached_lostGroup, majority_lostGroup]
        exact majority
    obtain ⟨g', found, same, majority⟩ := lose
    rw [loseIn_keeps found majority, same]
    have here : groupAt (e.onGroup slot (BitVec.ofNat 16 n) fun _ => lostGroup module g) slot n = some (lostGroup module g) := by
      have placed := groupAt_onGroup (group := BitVec.ofNat 16 n) (number ▸ found) fun _ => lostGroup module g
      rwa [number] at placed
    have there : ∀ slot' n', ¬(slot' = slot ∧ n' = n) →
        groupAt (e.onGroup slot (BitVec.ofNat 16 n) fun _ => lostGroup module g) slot' n' = groupAt e slot' n' :=
      fun slot' n' other => groupAt_onGroup_of_ne _ (by rwa [number])
    refine ⟨⟨?_, fun slot' n' => ?_⟩, here, fun slot' n' done => ?_⟩
    · rw [h.1]
      rfl
    · by_cases this : slot' = slot ∧ n' = n
      · obtain ⟨rfl, rfl⟩ := this
        exact .inr (here.trans (congrArg (Option.map _) old).symm)
      · rw [there slot' n' this]
        exact h.2 slot' n'
    · by_cases this : slot' = slot ∧ n' = n
      · obtain ⟨rfl, rfl⟩ := this
        exact here.trans (congrArg (Option.map _) old).symm
      · rw [there slot' n' this]
        exact done

/-- R448: the groups of some contexts lose a module, in turn. -/
theorem losing_fold (ps : List (Nat × Nat)) (keeps : keepsMajority module d) (h : losing module d e) :
    losing module d (ps.foldl (fun e p => Dev.loseIn hp module p.1 e p.2) e) ∧
      (∀ slot n, groupAt e slot n = (groupAt d slot n).map (lostGroup module) →
        groupAt (ps.foldl (fun e p => Dev.loseIn hp module p.1 e p.2) e) slot n = (groupAt d slot n).map (lostGroup module)) ∧
      ∀ p ∈ ps, groupAt (ps.foldl (fun e p => Dev.loseIn hp module p.1 e p.2) e) p.1 p.2 =
        (groupAt d p.1 p.2).map (lostGroup module) := by
  induction ps generalizing e with
  | nil => exact ⟨h, fun _ _ done => done, fun _ hp => nomatch hp⟩
  | cons p ps ih =>
    obtain ⟨step, here, kept⟩ := losing_step (hp := hp) (slot := p.1) (n := p.2) keeps h
    obtain ⟨whole, later, each⟩ := ih step
    refine ⟨whole, fun slot n done => later slot n (kept slot n done), fun x hx => ?_⟩
    rcases List.mem_cons.1 hx with rfl | hx
    · exact later _ _ here
    · exact each x hx

/-- The groups of a device's contexts, by slot and number. -/
def groupNames (d : Dev) : List (Nat × Nat) := d.contexts.flatMap fun c => (Table.keys c.2.groups).map fun n => (c.1, n)

theorem loseModule_eq (other : module ≠ hp.module) :
    d.loseModule hp module = (groupNames d).foldl (fun e p => Dev.loseIn hp module p.1 e p.2) d := by
  unfold Dev.loseModule groupNames
  rw [if_neg other]
  generalize d.contexts = cs
  generalize d = e
  induction cs generalizing e with
  | nil => rfl
  | cons c cs ih => rw [List.foldl_cons, List.flatMap_cons, List.foldl_append, List.foldl_map, ih]

theorem context_mem {n : Nat} (found : groupAt d slot n = some g) : ∃ c, (slot, c) ∈ d.contexts ∧ (n, g) ∈ c.groups := by
  unfold groupAt Dev.context Table.get at found
  cases there : Table.find? d.contexts slot with
  | none => rw [there] at found; nomatch found
  | some c =>
    rw [there] at found
    exact ⟨c, mem_of_find? there, mem_of_find? found⟩

theorem mem_groupNames {n : Nat} (found : groupAt d slot n = some g) : (slot, n) ∈ groupNames d := by
  obtain ⟨c, hc, hg⟩ := context_mem found
  exact List.mem_flatMap.2 ⟨_, hc, List.mem_map.2 ⟨n, List.mem_map.2 ⟨_, hg, rfl⟩, rfl⟩⟩

/-! ## Heartbeats -/

theorem linksDead_iff (d : Dev) (module : Nat) :
    d.linksDead module = true ↔ ∀ p < 24, Config.linkModule p = module → 100 ≤ Table.get d.heartbeats p 0 := by
  unfold Dev.linksDead
  rw [List.all_eq_true]
  refine forall_congr' fun p => ?_
  rw [List.mem_range, Bool.or_eq_true, bne_iff_ne, decide_eq_true_eq]
  exact imp_congr_right fun _ => imp_iff_not_or.symm

/-- R448: the device once a port's heartbeat has come or was missed. -/
def heard (d : Dev) (port : Nat) (got : Bool) : Dev :=
  { d with heartbeats := Table.set d.heartbeats port (if got then 0 else Table.get d.heartbeats port 0 + 1) }

theorem exec_heartbeat (s : Machine.State) (port : Nat) (got : Bool) : exec (.heartbeat port got) s =
    .next (withDev s (if !got && (heard s.dev port got).linksDead (Config.linkModule port) then
      (heard s.dev port got).loseModule s.host (Config.linkModule port) else heard s.dev port got)) := by
  change execHeartbeat port got s = _
  unfold execHeartbeat
  rw [run_eq]
  rfl

theorem exec_moduleLost (s : Machine.State) (module : Nat) :
    exec (.moduleLost module) s = .next (withDev s (s.dev.loseModule s.host module)) := rfl

/-- R448: a module is lost whose groups all keep their majority. -/
theorem moduleLost_keeps (other : module ≠ s.host.module) (keeps : keepsMajority module s.dev) :
    ∃ t, exec (.moduleLost module) s = .next t ∧ t.dev.colls = s.dev.colls ∧ t.dev.mem = s.dev.mem ∧
      ∀ slot n g, groupAt s.dev slot n = some g → groupAt t.dev slot n = some (lostGroup module g) := by
  obtain ⟨whole, -, each⟩ := losing_fold (hp := s.host) (e := s.dev) (groupNames s.dev) keeps ⟨rfl, fun _ _ => .inl rfl⟩
  rw [← loseModule_eq other] at whole each
  refine ⟨_, exec_moduleLost s module, ?_, ?_, fun slot n g found => ?_⟩
  · change (s.dev.loseModule s.host module).colls = _
    rw [whole.1]
  · change (s.dev.loseModule s.host module).mem = _
    rw [whole.1]
  · exact (each _ (mem_groupNames found)).trans (congrArg (Option.map _) found)

/-- R451: the only group of the device is detached. -/
theorem moduleLost_detaches {n : Nat} {c : Context} (other : module ≠ s.host.module) (one : s.dev.contexts = [(slot, c)])
    (groups : c.groups = [(n, g)]) (bound : n < 2 ^ 16) (member : module ∈ g.members) (attached : g.detached = false)
    (minority : g.majority (g.liveMembers.filter (· ≠ module)) = false) :
    exec (.moduleLost module) s = .next (withDev s
      ((s.dev.onGroup slot (BitVec.ofNat 16 n) fun g => { g.loseMember module with detached := true, round := none }).abandonColls
        s.host (s.dev.groupColls slot (BitVec.ofNat 16 n)))) := by
  have number : (BitVec.ofNat 16 n).toNat = n := by rw [BitVec.toNat_ofNat, Nat.mod_eq_of_lt bound]
  have found : groupAt s.dev slot n = some g := by
    simp [groupAt, Dev.context, Table.get, one, Table.find?, groups]
  have names : groupNames s.dev = [(slot, n)] := by simp [groupNames, one, groups, Table.keys]
  have mine : concerns module g = true := by simp [concerns, member]
  rw [exec_moduleLost, loseModule_eq other, names, List.foldl_cons, List.foldl_nil, loseIn_detaches found attached minority,
    onGroup_onGroup, onGroup_congr (number ▸ found) (f' := fun g => { g.loseMember module with detached := true, round := none })]
  unfold lostGroup
  rw [if_pos mine]

/-! ## The agreement round, new views and returning modules -/

theorem exec_proposal {members : List Nat} {cut : Nat} (found : groupAt s.dev slot group.toNat = some g)
    (idle : ∀ r, g.round = some r → r.committed = false) (attached : g.detached = false) (mine : s.host.module ∈ members)
    (ahead : g.next ≤ cut) (live : ∀ m ∈ members, m ∉ g.lost) :
    exec (.agreementProposal slot group members cut) s =
      .next (withDev s (s.dev.onGroup slot group fun _ => { g with round := some ⟨members.eraseDups, g.gen + 1, cut, [], false⟩ })) := by
  have idle : (g.round.map Round.committed).getD false = false := by
    cases round : g.round with
    | none => rfl
    | some r => exact idle r round
  have live : members.any g.lost.contains = false := List.any_eq_false.2 fun m hm => by simp [live m hm]
  have open_ : ((g.round.map Round.committed).getD false || g.detached || !members.contains s.host.module || decide (cut < g.next) ||
      members.any g.lost.contains) = false := by
    rw [idle, attached, live]
    simp [mine, ahead]
  rw [onGroup_congr found (f' := fun g => { g with round := some ⟨members.eraseDups, g.gen + 1, cut, [], false⟩ }) rfl]
  unfold groupAt at found
  change execAgreementProposal slot group members cut s = _
  unfold execAgreementProposal
  rw [run_eq, found]
  simp only [open_, Bool.false_eq_true, if_false]

theorem exec_ack {r : Round} (found : groupAt s.dev slot group.toNat = some g) (round : g.round = some r) (member : module ∈ r.members)
    (fresh : module ∉ r.acks) :
    exec (.agreementAck slot group module) s =
      .next (withDev s (s.dev.onGroup slot group fun _ => { g with round := some { r with acks := r.acks ++ [module] } })) := by
  have adds : (r.members.contains module && !r.acks.contains module) = true := by simp [member, fresh]
  change Host.Outcome.next (withDev s (s.dev.onGroup slot group _)) = _
  rw [onGroup_congr found (f' := fun _ => { g with round := some { r with acks := r.acks ++ [module] } })]
  rw [round, Option.map_some, if_pos adds]

theorem exec_commit {r : Round} (found : groupAt s.dev slot group.toNat = some g) (round : g.round = some r) :
    exec (.agreementCommit slot group) s = .next (withDev s (s.dev.onGroup slot group fun _ =>
      if g.mayCommit s.host.module r then { g with round := some { r with committed := true } } else g)) := by
  change Host.Outcome.next (withDev s (s.dev.onGroup slot group _)) = _
  rw [onGroup_congr found (f' := fun _ => if g.mayCommit s.host.module r then { g with round := some { r with committed := true } } else g)]
  rw [round, Option.map_some]
  split
  · rfl
  · rw [← round]

theorem majority_iff (set : List Nat) : g.majority set = true ↔ g.members.length < 2 * (g.members.filter (· ∈ set)).length := by
  have same : (fun m => decide (m ∈ set)) = set.contains := by
    funext m
    simp
  unfold Group.majority
  rw [decide_eq_true_eq, same]

theorem mayCommit_iff {r : Round} (g : Group) (module : Nat) : g.mayCommit module r = true ↔
    g.members.length < 2 * (g.members.filter (· ∈ r.members)).length ∧
      if g.coordinator = some module then ∀ m ∈ r.members, m ∈ r.acks else module ∈ r.acks := by
  unfold Group.mayCommit
  rw [Bool.and_eq_true, majority_iff]
  refine and_congr_right fun _ => ?_
  split <;> simp

theorem exec_viewInstall {r : Round} (found : groupAt s.dev slot group.toNat = some g) (round : g.round = some r)
    (committed : r.committed = true) (reached : g.next = r.cut) :
    exec (.viewInstall slot group) s = .next (withDev s (s.dev.install s.host slot group g r)) := by
  have due : (r.committed && g.next == r.cut) = true := by simp [committed, reached]
  unfold groupAt at found
  change execViewInstall slot group s = _
  unfold execViewInstall
  rw [run_eq, found]
  dsimp only
  rw [round]
  exact congrArg (fun d => Host.Outcome.next (withDev s d)) (if_pos due)

theorem exec_rejoinRequest {tag : BitVec 64} (found : groupAt s.dev slot group.toNat = some g) :
    exec (.rejoinRequest slot group module tag) s = .next (withDev s (s.dev.onGroup slot group fun _ =>
      if module = s.host.module then { g with rejoin := some (tag, s.dev.gtime) }
      else { g with returning := (g.returning.filter fun r => r.1 != module) ++ [(module, tag)] })) := by
  have there := found
  unfold groupAt at there
  change execRejoinRequest slot group module tag s = _
  unfold execRejoinRequest
  rw [run_eq, there]
  dsimp only
  split
  · exact congrArg (fun d => Host.Outcome.next (withDev s d)) (onGroup_congr found rfl)
  · exact congrArg (fun d => Host.Outcome.next (withDev s d)) (onGroup_congr found rfl)

theorem exec_stateTransfer {gen : BitVec 48} {members : List Nat} {cut : Nat} (found : groupAt s.dev slot group.toNat = some g)
    (mine : module = s.host.module) (asked : g.rejoin ≠ none) :
    exec (.stateTransfer slot group module gen members cut) s = .next (withDev s (s.dev.onGroup slot group fun _ =>
      if gen ≠ 0 ∧ g.gen.toNat ≤ gen.toNat then
        { g with gen := gen, members := members.eraseDups, lost := [], next := cut, round := none, detached := false } else g)) := by
  have asked : g.rejoin.isSome = true := Option.isSome_iff_ne_none.2 asked
  have same : (g.rejoin.isSome && gen != 0 && decide (g.gen.toNat ≤ gen.toNat)) = decide (gen ≠ 0 ∧ g.gen.toNat ≤ gen.toNat) := by
    rw [asked, Bool.true_and, Bool.decide_and]
    simp [bne, Bool.beq_eq_decide_eq]
  change execStateTransfer slot group module gen members cut s = _
  unfold execStateTransfer
  rw [run_eq, if_pos mine, onGroup_congr found (f' := fun _ => if gen ≠ 0 ∧ g.gen.toNat ≤ gen.toNat then
    { g with gen := gen, members := members.eraseDups, lost := [], next := cut, round := none, detached := false } else g)]
  rw [same]
  simp only [decide_eq_true_eq]

theorem exec_stateTransfer_other {gen : BitVec 48} {members : List Nat} {cut : Nat} (other : module ≠ s.host.module) :
    exec (.stateTransfer slot group module gen members cut) s = .next s := by
  change execStateTransfer slot group module gen members cut s = _
  unfold execStateTransfer
  rw [run_eq, if_neg other]
  rfl

theorem exec_rejoinResend {tag : Dword} {t : Nat} (found : groupAt s.dev slot group.toNat = some g) (asked : g.rejoin = some (tag, t)) :
    exec (.rejoinResend slot group) s = .next (withDev s (s.dev.onGroup slot group fun _ =>
      if t + 10 ^ 9 ≤ s.dev.gtime then { g with rejoin := some (tag, s.dev.gtime) } else g)) := by
  change Host.Outcome.next (withDev s (s.dev.onGroup slot group _)) = _
  rw [onGroup_congr found (f' := fun _ => if t + 10 ^ 9 ≤ s.dev.gtime then { g with rejoin := some (tag, s.dev.gtime) } else g)]
  rw [asked]
  rfl

theorem exec_rejoinRequest_absent {tag : BitVec 64} (absent : groupAt s.dev slot group.toNat = none) :
    exec (.rejoinRequest slot group module tag) s = .next (withDev s (s.dev.report (Config.refusedRejoin 0) (Config.refusedRejoin 1)
      slot module (leBytes 2 group.toNat ++ leBytes 8 tag.toNat))) := by
  unfold groupAt at absent
  change execRejoinRequest slot group module tag s = _
  unfold execRejoinRequest
  rw [run_eq, absent]

/-- Settles O45: a lost module is lost in each group in turn, once however often the group is met, and its majority is judged on
the live members that are left; the rounds' messages are the model's own on the group that they name. -/
theorem membershipResults : Obligations.MembershipResults := by
  unfold Obligations.MembershipResults
  refine ⟨?_, ?_, ?_, fun s slot module group tag absent => exec_rejoinRequest_absent absent⟩
  · intro s port got d lost
    refine ⟨fun alive => ?_, fun missed dead => ?_⟩
    · have alive : (!got && (heard s.dev port got).linksDead lost) = false := by
        rcases alive with came | ⟨p, bound, link, few⟩
        · rw [came]
          rfl
        · rw [Bool.and_eq_false_iff]
          refine .inr (Bool.eq_false_iff.2 fun dead => ?_)
          have := (linksDead_iff _ _).1 dead p bound link
          exact absurd few (Nat.not_lt.2 this)
      rw [exec_heartbeat, if_neg (by rw [alive]; decide)]
      rfl
    · have dead : (!got && (heard s.dev port got).linksDead lost) = true := by
        rw [missed, Bool.not_false, Bool.true_and]
        subst missed
        exact (linksDead_iff _ _).2 dead
      rw [exec_heartbeat, if_pos dead]
      rfl
  · intro s module other
    refine ⟨fun keeps => ?_, fun slot n c g one groups bound member attached minority =>
      moduleLost_detaches other one groups bound member attached minority⟩
    have keeps : keepsMajority module s.dev := fun slot n g found => by
      obtain ⟨c, hc, hg⟩ := context_mem found
      exact keeps _ hc _ hg
    obtain ⟨t, next, colls, mem, each⟩ := moduleLost_keeps other keeps
    refine ⟨t, next, colls, mem, fun slot n g found member => ?_⟩
    have mine : concerns module g = true := by simp [concerns, member]
    refine ⟨_, each slot n g found, mem_lost_lostGroup mine, by rw [lostGroup_eq], by rw [lostGroup_eq], by rw [lostGroup_eq],
      fun r round => ?_⟩
    have after : (lostGroup module g).round = roundWithout module g := by rw [lostGroup_eq]
    unfold roundWithout at after
    rw [after, round, Option.filter_some]
    by_cases dropped : module ∈ r.members ∧ r.committed = false
    · rw [if_pos dropped, if_neg (by simp [dropped])]
    · rw [if_neg dropped, if_pos]
      by_cases inside : module ∈ r.members
      · have kept : r.committed = true := by simpa [inside] using dropped
        simp [kept]
      · simp [inside]
  · intro s slot group g found answer
    refine ⟨fun members cut idle attached mine ahead live => exec_proposal found idle attached mine ahead live, fun r round => ?_,
      fun module tag => exec_rejoinRequest found, fun module gen members cut => ⟨fun mine asked => exec_stateTransfer found mine asked,
        fun other => exec_stateTransfer_other other⟩, fun tag t asked => exec_rejoinResend found asked⟩
    refine ⟨fun module member fresh => exec_ack found round member fresh, fun majority acks => ?_, fun minority => ?_,
      fun committed reached => ?_⟩
    · have commits : g.mayCommit s.host.module r = true := (mayCommit_iff g _).2 ⟨majority, acks⟩
      rw [exec_commit found round, if_pos commits]
    · have waits : ¬g.mayCommit s.host.module r = true := fun c => absurd ((mayCommit_iff g _).1 c).1 (Nat.not_lt.2 minority)
      rw [exec_commit found round, if_neg waits]
    · intro d record
      refine ⟨fun all => ?_, fun without => ?_⟩
      · have all : g.members.all r.members.contains = true := List.all_eq_true.2 fun m hm => by simpa using all m hm
        rw [exec_viewInstall found round committed reached]
        unfold Dev.install
        simp only [all, if_true]
        rfl
      · have without : ¬g.members.all r.members.contains = true := fun all => by
          obtain ⟨m, hm, out⟩ := without
          exact out (by simpa using List.all_eq_true.1 all m hm)
        rw [exec_viewInstall found round committed reached]
        unfold Dev.install
        simp only [without]
        rfl

end Sys2Proof.Proofs
end

section
/-! PROOF. What the moves of bytes between the slices, the save areas and the frames of memory leave unchanged (R46, R266, R404). -/

namespace Sys2Proof.Proofs

open Sys2Proof Sys2Proof.Machine Sys2Proof.Safety

variable {hp : HostPart} {d e : Dev} {slot core team : Nat}

/-- The second device differs from the first in memory and its frames, translations, cores, contexts, what is under way to
memory, releases and the next free value only: its warps, teams, launches and names are those of the first. -/
def Stored (d e : Dev) : Prop :=
  ∃ mem poison cores l2 contexts accesses hbm lpddr frames tags next,
    e = { d with mem := mem, poison := poison, cores := cores, l2 := l2, contexts := contexts, accesses := accesses,
                 hbmTaken := hbm, lpddrTaken := lpddr, freeFrames := frames, tags := tags, free := next }

theorem Stored.refl (d : Dev) : Stored d d := ⟨_, _, _, _, _, _, _, _, _, _, _, rfl⟩

theorem Stored.trans {f : Dev} (first : Stored d e) (second : Stored e f) : Stored d f := by
  obtain ⟨_, _, _, _, _, _, _, _, _, _, _, rfl⟩ := first
  obtain ⟨_, _, _, _, _, _, _, _, _, _, _, rfl⟩ := second
  exact ⟨_, _, _, _, _, _, _, _, _, _, _, rfl⟩

theorem Reaches.stored (h : Reaches d e) : Stored d e := by
  obtain ⟨_, _, _, _, _, _, _, _, _, rfl⟩ := h
  exact ⟨_, _, _, _, _, _, _, _, _, _, _, rfl⟩

theorem Stored.warps (h : Stored d e) : e.warps = d.warps := by
  obtain ⟨_, _, _, _, _, _, _, _, _, _, _, rfl⟩ := h
  rfl

theorem Stored.teams (h : Stored d e) : e.teams = d.teams := by
  obtain ⟨_, _, _, _, _, _, _, _, _, _, _, rfl⟩ := h
  rfl

theorem Stored.launches (h : Stored d e) : e.launches = d.launches := by
  obtain ⟨_, _, _, _, _, _, _, _, _, _, _, rfl⟩ := h
  rfl

theorem Stored.nextId (h : Stored d e) : e.nextId = d.nextId := by
  obtain ⟨_, _, _, _, _, _, _, _, _, _, _, rfl⟩ := h
  rfl

theorem Stored.warp? (h : Stored d e) (id : Nat) : e.warp? id = d.warp? id := congrArg (Table.find? · id) h.warps

theorem Stored.team? (h : Stored d e) (id : Nat) : e.team? id = d.team? id := congrArg (Table.find? · id) h.teams

theorem stored_onCore (d : Dev) (j : Nat) (f : Core → Core) : Stored d (d.onCore j f) := ⟨_, _, _, _, _, _, _, _, _, _, _, rfl⟩

theorem stored_onContext (d : Dev) (slot : Nat) (f : Context → Context) : Stored d (d.onContext slot f) :=
  ⟨_, _, _, _, _, _, _, _, _, _, _, rfl⟩

theorem stored_nextFree (d : Dev) : Stored d d.nextFree.2 := ⟨_, _, _, _, _, _, _, _, _, _, _, rfl⟩

theorem stored_putBytes (d : Dev) (pa : Nat) (bs : List Byte) : Stored d (d.putBytes pa bs) := (reaches_putBytes d pa bs).stored

theorem stored_endTags (d : Dev) (pa n : Nat) : Stored d (d.endTags pa n) := ⟨_, _, _, _, _, _, _, _, _, _, _, rfl⟩

theorem stored_clearSlice (d : Dev) (pa n : Nat) : Stored d (d.clearSlice pa n) := ⟨_, _, _, _, _, _, _, _, _, _, _, rfl⟩

theorem stored_marks_context (d : Dev) (marks : List Nat) (slot : Nat) (f : Context → Context) :
    Stored d (({ d with poison := marks } : Dev).onContext slot f) := ⟨_, _, _, _, _, _, _, _, _, _, _, rfl⟩

theorem stored_marks_core (d : Dev) (marks : List Nat) (core : Nat) (f : Core → Core) :
    Stored d (({ d with poison := marks } : Dev).onCore core f) := ⟨_, _, _, _, _, _, _, _, _, _, _, rfl⟩

theorem stored_putParts (ps : List (Nat × Nat)) (bs : List Byte) (d : Dev) : Stored d (d.putParts ps bs) := by
  induction ps generalizing d bs with
  | nil => exact .refl d
  | cons p ps ih => exact ((stored_putBytes ..).trans (stored_endTags ..)).trans (ih _ _)

theorem stored_copyOut (src : Nat) (ps : List (Nat × Nat)) (d : Dev) : Stored d (d.copyOut src ps) := by
  induction ps generalizing d src with
  | nil => exact .refl d
  | cons p ps ih => exact (reaches_copyBytes ..).stored.trans (ih _ _)

theorem stored_copyIn (dst : Nat) (ps : List (Nat × Nat)) (d : Dev) : Stored d (d.copyIn dst ps) := by
  induction ps generalizing d dst with
  | nil => exact .refl d
  | cons p ps ih => exact (reaches_copyBytes ..).stored.trans (ih _ _)

theorem stored_savePage {page pa : Nat} (h : d.savePage hp slot page = some (pa, e)) : Stored d e := by
  unfold Dev.savePage at h
  split at h
  · cases h
    exact .refl _
  · obtain ⟨r, taken, same⟩ := Option.map_eq_some_iff.1 h
    cases same
    have frame : Stored d r.2 := by
      cases far : d.takeFrame hp 1 with
      | none =>
        rw [far] at taken
        exact (reaches_takeFrame taken).stored
      | some x =>
        rw [far] at taken
        cases taken
        exact (reaches_takeFrame far).stored
    exact frame.trans (stored_onContext ..)

theorem stored_saveParts {ps rs : List (Nat × Nat)} (h : Dev.saveParts hp slot ps d = some (rs, e)) : Stored d e := by
  induction ps generalizing d rs with
  | nil => cases h; exact .refl _
  | cons p ps ih =>
    unfold Dev.saveParts at h
    split at h
    · nomatch h
    next pa d' page =>
      obtain ⟨r, later, same⟩ := Option.map_eq_some_iff.1 h
      cases same
      exact (stored_savePage page).trans (ih later)

theorem stored_saveRange {off n : Nat} {r : List (Nat × Nat) × Dev} (h : d.saveRange hp slot core off n = some r) : Stored d r.2 :=
  stored_saveParts h

theorem stored_save {off : Nat} {bs : List Byte} (h : d.save hp slot core off bs = some e) : Stored d e := by
  obtain ⟨r, range, rfl⟩ := Option.map_eq_some_iff.1 h
  exact (stored_saveRange range).trans (stored_putParts ..)

theorem stored_saveSlice {off n : Nat} (h : d.saveSlice hp slot core off n = some e) : Stored d e := by
  obtain ⟨r, range, rfl⟩ := Option.map_eq_some_iff.1 h
  exact (stored_saveRange range).trans (stored_copyOut ..)

theorem stored_loadSlice {off n dst : Nat} (h : d.loadSlice hp slot core off n dst = some e) : Stored d e := by
  obtain ⟨r, range, rfl⟩ := Option.map_eq_some_iff.1 h
  exact (stored_saveRange range).trans (stored_copyIn ..)

theorem stored_unmapUnder (d : Dev) (va root : Nat) : Stored d (d.unmapUnder va root) := by
  unfold Dev.unmapUnder
  split
  · exact .refl _
  · exact stored_putBytes ..

theorem stored_unmapPage (d : Dev) (slot va : Nat) : Stored d (d.unmapPage slot va) := by
  unfold Dev.unmapPage
  generalize (d.context slot).roots = roots
  induction roots generalizing d with
  | nil => exact .refl d
  | cons root roots ih => exact (stored_unmapUnder ..).trans (ih _)

/-! ## The matrix state of a core, and its slice -/

theorem stored_saveMatrix {holder : Nat} {m : Matrix} (h : d.saveMatrix hp holder core m = some e) : Stored d e := by
  unfold Dev.saveMatrix at h
  dsimp only at h
  generalize (matrixRecord m d.nextFree.1) = bs at h
  obtain ⟨r, range, rfl⟩ := Option.map_eq_some_iff.1 h
  exact ((stored_nextFree d).trans (stored_saveRange range)).trans ((stored_putParts ..).trans (stored_marks_context ..))

theorem stored_restoreMatrix (hp : HostPart) (d : Dev) (slot core : Nat) : Stored d (d.restoreMatrix hp slot core) := by
  have read : Stored d (if (Table.find? (d.context slot).matrices core).isSome then
      (d.saveRange hp slot core 0 0x80000).getD ([], d) else ([], d)).2 := by
    split
    · cases range : d.saveRange hp slot core 0 0x80000 with
      | none => exact .refl d
      | some r => exact stored_saveRange range
    · exact .refl d
  unfold Dev.restoreMatrix
  dsimp only
  generalize (if (Table.find? (d.context slot).matrices core).isSome then
    (d.saveRange hp slot core 0 0x80000).getD ([], d) else ([], d)) = r at read ⊢
  exact read.trans (stored_marks_core ..)

theorem stored_takeMatrix (h : d.takeMatrix hp slot core = some e) : Stored d e := by
  unfold Dev.takeMatrix at h
  dsimp only at h
  split at h
  · cases h
    exact stored_restoreMatrix ..
  · split at h
    · cases h
      exact .refl _
    split at h
    · nomatch h
    obtain ⟨d', saved, rfl⟩ := Option.map_eq_some_iff.1 h
    exact (stored_saveMatrix saved).trans (stored_restoreMatrix ..)

theorem stored_claimMatrix (h : d.claimMatrix hp slot core = some e) : Stored d e := by
  unfold Dev.claimMatrix at h
  split at h
  · exact stored_takeMatrix h
  · cases h
    exact .refl _

theorem foldl_bind_none {α : Type} (f : Dev → α → Option Dev) (xs : List α) :
    xs.foldl (fun (d : Option Dev) x => d.bind fun d => f d x) none = none := by
  induction xs with
  | nil => rfl
  | cons x xs ih => exact ih

/-- A chain of steps, each of which may fail, that are storage moves. -/
theorem stored_foldl {α : Type} {f : Dev → α → Option Dev} (step : ∀ d x e, f d x = some e → Stored d e) (xs : List α)
    (h : xs.foldl (fun (d : Option Dev) x => d.bind fun d => f d x) (some d) = some e) : Stored d e := by
  induction xs generalizing d with
  | nil => cases h; exact .refl _
  | cons x xs ih =>
    rw [List.foldl_cons, Option.bind_some] at h
    cases one : f d x with
    | none =>
      rw [one, foldl_bind_none] at h
      nomatch h
    | some d' =>
      rw [one] at h
      exact (step d x d' one).trans (ih h)

theorem stored_claimAll {cores : List Nat} (h : d.claimAll hp slot cores = some e) : Stored d e :=
  stored_foldl (fun _ _ _ one => stored_claimMatrix one) cores h

theorem stored_mapShared {ks : List Nat} (h : Dev.mapShared hp slot core team ks d = some e) : Stored d e := by
  induction ks generalizing d with
  | nil => cases h; exact .refl _
  | cons k ks ih =>
    unfold Dev.mapShared at h
    split at h
    · nomatch h
    next d' mapped => exact (reaches_mapRoots mapped).stored.trans ((stored_onCore ..).trans (ih h))

theorem stored_placeShared {bytes : Nat} {va : Dword} (h : d.placeShared hp slot core team bytes = some (va, e)) : Stored d e := by
  unfold Dev.placeShared at h
  split at h
  · cases h
    exact .refl _
  dsimp only at h
  split at h
  · nomatch h
  · obtain ⟨d', mapped, same⟩ := Option.map_eq_some_iff.1 h
    cases same
    exact (stored_mapShared mapped).trans (stored_clearSlice ..)

theorem stored_reserve {who : Holder} {n off : Nat} (h : d.reserve slot core who n = some (off, e)) : Stored d e := by
  unfold Dev.reserve at h
  split at h
  · cases h
    exact .refl _
  · obtain ⟨off, -, same⟩ := Option.map_eq_some_iff.1 h
    cases same
    exact stored_onCore ..

end Sys2Proof.Proofs
end

section
/-! PROOF. Teams that start: their warps, their placement on a core, and the start of a stage set (R21 to R24, R32, R40, R59, R329,
R338). -/

namespace Sys2Proof.Proofs

open Sys2Proof Sys2Proof.Machine Sys2Proof.Safety

variable {s : Machine.State} {hp : HostPart} {d e : Dev} {slot core team launch index : Nat} {l : Launch} {f : TeamForm}
  {r : LaunchRecord} {shared : Dword}

/-! ## The uniform file at a warp's start -/

theorem kGet_startUniform (r : LaunchRecord) (shared : Dword) (index : Nat) :
    (∀ i < 58, kGet (startUniform r shared index) i = 0) ∧ kGet64 (startUniform r shared index) 58 = shared ∧
      kGet64 (startUniform r shared index) 60 = r.argBase ∧ kGet (startUniform r shared index) 62 = r.argBytes ∧
      kGet (startUniform r shared index) 63 = BitVec.ofNat 32 index := by
  have halves : ∀ v : Dword, high v ++ low v = v := fun v => by
    unfold high low
    exact BitVec.extractLsb'_append_extractLsb'_eq_extractLsb' (by decide) |>.trans (BitVec.extractLsb'_eq_self ..)
  refine ⟨fun i hi => ?_, halves shared, halves r.argBase, rfl, rfl⟩
  unfold kGet startUniform
  rw [List.getD_append _ _ _ _ (by rwa [List.length_replicate]), List.getD_eq_getElem?_getD, List.getElem?_replicate, if_pos hi]
  rfl

/-! ## Warps that start -/

/-- R23, R32, R50: a warp of a team as it starts in a lane block's slot, with its stacks in its core's slice. -/
def newWarp (team index : Nat) (f : TeamForm) (r : LaunchRecord) (k : List Word) (place : Nat × Nat) (lb ws base seed : Nat) : Warp where
  team := team
  w := place.1
  core := place.2
  lb := lb
  slot := ws
  sliceCore := place.2
  stackBase := base
  frameBase := base + r.stackLimit * 128
  place := .resident
  fwd := []
  stopped := []
  threads := startThreads seed
  cur := some ⟨0xFFFFFFFF, f.entry, 0, 0, .ready⟩
  others := []
  last := 0xFFFFFFFF
  lfsr := lfsrOf (r.seed ^^^ BitVec.ofNat 16 (index * f.warps + place.1))
  join := []
  k := k
  kp := 0
  flags := 0
  cnt := [0, 0, 0, 0]
  ch15 := []
  vlimit := 0x01000000
  perf := r.perf
  handler := none
  posted := []
  replay := []
  kld := []
  marks := []
  observed := []
  fed := 0

theorem newWarp_fresh (team index : Nat) (f : TeamForm) (r : LaunchRecord) (shared : Dword) (place : Nat × Nat) (lb ws base seed : Nat) :
    fresh (newWarp team index f r (startUniform r shared index) place lb ws base seed) team place.2 place.1 index f r shared := by
  obtain ⟨zero, k58, k60, k62, k63⟩ := kGet_startUniform r shared index
  exact ⟨rfl, rfl, rfl, rfl, rfl, rfl, rfl, rfl, rfl, rfl, rfl, rfl, rfl, rfl, rfl, rfl, rfl, zero, k58, k60, k62, k63, rfl⟩

/-- R23: a warp of a team is there, as its team starts, under a name given out from some number on. -/
def Started (d : Dev) (team index : Nat) (f : TeamForm) (r : LaunchRecord) (shared : Dword) (place : Nat × Nat) (first : Nat) : Prop :=
  ∃ id w, first ≤ id ∧ id < d.nextId ∧ d.warp? id = some w ∧ fresh w team place.2 place.1 index f r shared

/-- R23: what the start of warps leaves of the device: its teams, and the warps that it has. -/
def KeepsWarps (d e : Dev) : Prop := e.teams = d.teams ∧ d.nextId ≤ e.nextId ∧ ∀ id < d.nextId, e.warp? id = d.warp? id

theorem Started.later {place : Nat × Nat} {first : Nat} (h : Started d team index f r shared place first) (keeps : KeepsWarps d e) :
    Started e team index f r shared place first := by
  obtain ⟨id, w, from_, bound, found, starts⟩ := h
  exact ⟨id, w, from_, Nat.lt_of_lt_of_le bound keeps.2.1, (keeps.2.2 id bound).trans found, starts⟩

theorem KeepsWarps.trans {g : Dev} (first : KeepsWarps d e) (second : KeepsWarps e g) : KeepsWarps d g :=
  ⟨second.1.trans first.1, Nat.le_trans first.2.1 second.2.1, fun id old =>
    (second.2.2 id (Nat.lt_of_lt_of_le old first.2.1)).trans (first.2.2 id old)⟩

theorem startWarp_starts {place : Nat × Nat}
    (h : Dev.startWarp slot team index f r (startUniform r shared index) place d = some e) :
    KeepsWarps d e ∧ Started e team index f r shared place d.nextId := by
  unfold Dev.startWarp at h
  dsimp only at h
  split at h
  · nomatch h
  split at h
  next ws base d' slot' room =>
    have stored := stored_reserve room
    cases h
    have names : d'.nextId = d.nextId := stored.nextId
    have warps : ∀ id w, id ≠ d'.nextId → Table.find? (Table.set d'.warps d'.nextId w) id = d.warp? id := fun id w other =>
      (Table.find?_set_of_ne _ _ other).trans (stored.warp? id)
    refine ⟨⟨stored.teams, ?_, fun id old => warps id _ (by omega)⟩, d'.nextId,
      newWarp team index f r (startUniform r shared index) place (d.core place.2).roomiest ws base d'.free, names.ge, Nat.lt_succ_self _,
      Table.find?_set_self .., newWarp_fresh ..⟩
    exact Nat.le_of_lt (names ▸ Nat.lt_succ_self d'.nextId)
  · nomatch h

/-- R23: all of some warps of a team start. -/
theorem startWarps_start {places : List (Nat × Nat)}
    (h : Dev.startWarps slot team index f r (startUniform r shared index) places d = some e) :
    KeepsWarps d e ∧ ∀ place ∈ places, Started e team index f r shared place d.nextId := by
  induction places generalizing d with
  | nil =>
    cases h
    exact ⟨⟨rfl, Nat.le_refl _, fun _ _ => rfl⟩, fun _ hp => nomatch hp⟩
  | cons p places ih =>
    obtain ⟨d', one, later⟩ := Option.bind_eq_some_iff.1 h
    obtain ⟨keeps, starts⟩ := startWarp_starts one
    obtain ⟨rest, each⟩ := ih later
    refine ⟨keeps.trans rest, fun place hp => ?_⟩
    rcases List.mem_cons.1 hp with rfl | hp
    · exact starts.later rest
    · obtain ⟨id, w, from_, found⟩ := each place hp
      exact ⟨id, w, Nat.le_trans keeps.2.1 from_, found⟩

/-! ## A team that starts -/

theorem keepsWarps_startFet (d : Dev) (team core : Nat) (f : TeamForm) (r : LaunchRecord) (k : List Word) :
    KeepsWarps d (d.startFet team core f r k) := by
  unfold Dev.startFet
  split
  · exact ⟨rfl, Nat.le_refl _, fun _ _ => rfl⟩
  · exact ⟨rfl, Nat.le_succ _, fun _ _ => rfl⟩

/-- R21, R23: the core of each warp of a team is one of the team's. -/
theorem teamPlaces_on (core : Nat) (pair : Bool) (n : Nat) :
    (teamPlaces core pair n).filter (fun p => (teamCores core pair).contains p.2) = teamPlaces core pair n := by
  refine List.filter_eq_self.2 fun p hp => ?_
  obtain ⟨w, -, rfl⟩ := List.mem_map.1 hp
  unfold teamCores
  cases pair
  · simp
  · rcases Nat.mod_two_eq_zero_or_one w with even | odd
    · simp [even]
    · simp [odd]

theorem mem_teamPlaces {core n : Nat} {pair : Bool} {w : Nat} (h : w < n) :
    (w, if pair = true ∧ w % 2 = 1 then core + 1 else core) ∈ teamPlaces core pair n := by
  refine List.mem_map.2 ⟨w, List.mem_range.2 h, ?_⟩
  simp [followerOf]

theorem teamCores_first (core : Nat) (pair : Bool) : (teamCores core pair).contains core = true := by
  unfold teamCores
  cases pair <;> simp

/-- R22 to R25: a team that takes its seat, with all of its warps. -/
theorem seatTeam_seats (h : d.seatTeam hp launch l index core f (teamCores core (l.record.pair && f.stage.isNone)) = some (team, e)) :
    ∃ shared, e.team? team = some { l.newTeam launch index core f shared with held := f.stage.isSome && d.launchHeld launch } ∧
      ∀ place ∈ teamPlaces core (l.record.pair && f.stage.isNone) f.warps,
        ∃ first, Started e team index f l.record shared place first := by
  unfold Dev.seatTeam at h
  dsimp only at h
  rw [if_pos (teamCores_first ..)] at h
  split at h
  · nomatch h
  next shared d' placed =>
    obtain ⟨e', started, same⟩ := Option.map_eq_some_iff.1 h
    cases same
    have held : d'.launchHeld launch = d.launchHeld launch := by
      unfold Dev.launchHeld
      rw [(stored_placeShared placed).teams]
      rfl
    rw [teamPlaces_on, held] at started
    obtain ⟨keeps, each⟩ := startWarps_start started
    refine ⟨shared, ?_, fun place hp => ⟨_, each place hp⟩⟩
    unfold Dev.team?
    rw [keeps.1]
    exact Table.find?_set_self ..

/-- R22 to R25, R266, R384: what a start of a team needs, and what it leaves. -/
theorem startTeam_starts (h : d.startTeam hp launch l index core f = some (team, e)) :
    core < 576 ∧ hp.dieReady core = true ∧ ∃ shared,
      e.team? team = some { l.newTeam launch index core f shared with held := f.stage.isSome && d.launchHeld launch } ∧
      ∀ place ∈ teamPlaces core (l.record.pair && f.stage.isNone) f.warps,
        ∃ first, Started e team index f l.record shared place first := by
  unfold Dev.startTeam at h
  dsimp only at h
  split at h
  · nomatch h
  next fits =>
  simp only [Bool.or_eq_true, Bool.not_eq_true', decide_eq_true_eq, not_or, Bool.not_eq_false] at fits
  obtain ⟨⟨⟨ready, inside⟩, -⟩, -⟩ := fits
  refine ⟨by omega, ready, ?_⟩
  split at h
  · nomatch h
  next team' d' seated =>
    cases h
    obtain ⟨d₁, claimed, seated⟩ := Option.bind_eq_some_iff.1 seated
    have stored := stored_claimAll claimed
    obtain ⟨shared, found, each⟩ := seatTeam_seats seated
    have held : d₁.launchHeld launch = d.launchHeld launch := by
      unfold Dev.launchHeld
      rw [stored.teams]
    have keeps := keepsWarps_startFet d' team core f l.record
      (startUniform l.record (((d'.team? team).map Team.shared).getD 0) index)
    refine ⟨shared, ?_, fun place hp => ?_⟩
    · rw [← held]
      exact (congrArg (Table.find? · team) keeps.1).trans found
    · obtain ⟨first, starts⟩ := each place hp
      exact ⟨first, starts.later keeps⟩

/-! ## Placement on a core (R23) -/

theorem nextTeam_of (going : l.complete = false) (live : l.cancelled = false) (grid : l.stages = none)
    (slot : (d.context l.slot).state = .open_) (stays : ¬(l.record.rollback = true ∧ l.rolled = false ∧ l.cause = 0x19))
    (next : l.again = [] ∧ l.next < l.record.teams ∧ index = l.next ∨ l.again.head? = some index) : d.nextTeam l = some index := by
  have stays : l.rollsBack = false := by
    refine Bool.eq_false_iff.2 fun rolls => stays ?_
    simpa [Launch.rollsBack, and_assoc] using rolls
  have goes : (l.complete || l.rollsBack || l.cancelled || l.stages.isSome || (d.context l.slot).state != .open_) = false := by
    rw [going, live, grid, slot, stays]
    rfl
  unfold Dev.nextTeam
  rw [goes]
  rcases next with ⟨none, more, rfl⟩ | again
  · rw [none]
    exact if_pos more
  · obtain ⟨is, rest⟩ := List.head?_eq_some_iff.1 again
    rw [rest]
    rfl

theorem tookTeam_eq : Launch.tookTeam = fun l =>
    if l.again = [] then { l with next := l.next + 1 } else { l with again := l.again.drop 1 } := by
  funext l
  unfold Launch.tookTeam
  cases l.again with
  | nil => rfl
  | cons i is => rfl

theorem exec_teamPlacement (found : s.dev.launch? launch = some l) (next : s.dev.nextTeam l = some index)
    (form : s.dev.gridForm l = some f) (fresh : s.dev.skipsTeam launch l index = false)
    (fits : s.dev.startTeam s.host launch l index core f = some (team, d)) :
    exec (.teamPlacement launch core) s = .next (withDev s (d.onLaunch launch Launch.tookTeam)) := by
  change execTeamPlacement launch core s = _
  unfold execTeamPlacement
  rw [run_eq]
  simp only [found, next, form, fresh, Bool.false_eq_true, if_false, fits]

/-! ## Stage sets (R329, R338) -/

theorem exec_stageSetStart {ss : StageSet} {cores : List Nat} {d' : Dev} (found : s.dev.launch? launch = some l)
    (stages : l.stages = some ss) (going : l.complete = false) (live : l.cancelled = false) (new : ss.started = false)
    (length : cores.length = ss.initial.length) (once : cores.Nodup)
    (starts : Dev.startStages s.host launch l ss ((List.range cores.length).zip (ss.initial.zip cores)) s.dev = some d)
    (queues : Dev.reserveQueues l.slot launch ((List.range ss.queues.length).zip ss.queues) d = some d') :
    exec (.stageSetStart launch cores) s = .next (withDev s ((d'.onLaunch launch fun l =>
      { l with
        next := cores.length
        stages := l.stages.map fun ss => { ss with started := true, next := d'.gtime + ss.interval, since := d'.gtime } }).settle
      s.host)) := by
  have ready : (ss.started || l.complete || l.cancelled || cores.length != ss.initial.length || !decide cores.Nodup) = false := by
    rw [new, going, live, length, decide_eq_true once]
    simp
  change execStageSetStart launch cores s = _
  unfold execStageSetStart
  rw [run_eq]
  simp only [found, stages, ready, Bool.false_eq_true, if_false, starts, Option.bind_some, queues]

/-- R338: a stage whose handover with a team is over. -/
def clearHandover (donor : Nat) (y : Stage) : Stage :=
  if y.handover.any (fun h => h.2.2 = donor) then { y with handover := none, freed := none } else y

theorem exec_stageTeamStart {ss : StageSet} {k : Nat} {x : Stage} (found : s.dev.launch? launch = some l) (stages : l.stages = some ss)
    (going : l.complete = false) (live : l.cancelled = false) (place : ss.stages[k]? = some x) (freed : x.freed = some core)
    (open_ : ss.closing x = false) (first : ∀ j < k, ∀ y, ss.stages[j]? = some y → y.freed ≠ some core ∨ ss.closing y = true)
    (fits : s.dev.startTeam s.host launch l l.next core (x.form k) = some (team, d)) :
    exec (.stageTeamStart launch core) s = .next (withDev s (d.onLaunch launch fun l =>
      { l with
        next := l.next + 1
        stages := l.stages.map fun ss =>
          { ss with stages := ss.stages.map (clearHandover ((x.handover.map fun h => h.2.2).getD 0)) } })) := by
  obtain ⟨bound, at_⟩ := List.getElem?_eq_some_iff.1 place
  have here : (ss.stages.findIdx fun y => y.freed == some core && !ss.closing y) = k := by
    refine (List.findIdx_eq bound).2 ⟨by simp [at_, freed, open_], fun j hj => ?_⟩
    rcases first j hj _ (List.getElem?_eq_getElem (by omega)) with other | closed
    · simp [other]
    · simp [closed]
  have cleared : ∀ (y : Stage) (donor : Nat), (match y.handover with
      | some (_, _, h) => if h = donor then { y with handover := none, freed := none } else y
      | none => y) = clearHandover donor y := by
    intro y donor
    unfold clearHandover
    cases y.handover with
    | none => rfl
    | some h => simp
  change execStageTeamStart launch core s = _
  unfold execStageTeamStart
  rw [run_eq]
  simp only [found, stages, here, place, going, live, Bool.or_self, Bool.false_eq_true, if_false, fits]
  refine congrArg (fun g => Host.Outcome.next (withDev s (d.onLaunch launch g))) (funext fun l => ?_)
  refine congrArg (fun g => { l with next := l.next + 1, stages := l.stages.map g }) (funext fun ss => ?_)
  exact congrArg (fun g => { ss with stages := ss.stages.map g }) (funext fun y => cleared y _)

/-- Settles O46: each warp of a team gets a name that no later start takes, and what follows its start leaves it; a launch's next
team and the stage whose core was freed are the first that the model finds. -/
theorem teamStartResults : Obligations.TeamStartResults := by
  unfold Obligations.TeamStartResults
  refine ⟨?_, ?_, ?_⟩
  · intro h d d' launch index core team l f starts
    obtain ⟨inside, ready, shared, found, each⟩ := startTeam_starts starts
    refine ⟨inside, ready, _, found, rfl, rfl, rfl, rfl, rfl, rfl, fun grid => ?_, fun n hn => ?_⟩
    · have coords : (if f.stage.isSome then (index, 0, 0) else l.record.coordsOf index) = l.record.coordsOf index :=
        if_neg (by simp [grid])
      exact coords
    · obtain ⟨first, id, w, -, -, warp, start⟩ := each _ (mem_teamPlaces hn)
      refine ⟨id, w, warp, ?_⟩
      have core_ : (if l.record.pair = true ∧ f.stage = none ∧ n % 2 = 1 then core + 1 else core) =
          if (l.record.pair && f.stage.isNone) = true ∧ n % 2 = 1 then core + 1 else core := by
        refine if_congr ?_ rfl rfl
        simp [and_assoc]
      rw [core_]
      exact start
  · intro s launch core index team l f d found going live grid slot stays next form fresh fits
    rw [exec_teamPlacement found (nextTeam_of going live grid slot stays next) form fresh fits, tookTeam_eq]
  · intro s launch l ss found stages going live
    refine ⟨fun cores d d' new length once starts queues =>
      exec_stageSetStart found stages going live new length once starts queues, ?_⟩
    exact fun core k team x d place freed open_ first fits => exec_stageTeamStart found stages going live place freed open_ first fits

end Sys2Proof.Proofs
end

section
/-! PROOF. Warps that change places, leave their core and come back, teams that are placed again, and pages that move (R39, R43 to
R46, R70, R461). -/

namespace Sys2Proof.Proofs

open Sys2Proof Sys2Proof.Machine Sys2Proof.Safety

variable {s : Machine.State} {hp : HostPart} {d e : Dev} {slot core team launch id lb : Nat} {w : Warp} {l : Launch} {t : Team}

/-! ## Bytes that are copied -/

/-- R70: entries written at another place: each byte reads as the entry that was copied there, or as before. -/
theorem read_placed {lo src dst : Nat} {cs m : Memory} (sorted : Memory.wfFrom lo cs = true) (above : src ≤ lo) (wf : Memory.wf m = true)
    (x : Nat) : Memory.read (cs.foldl (fun m c => Memory.write m (c.1 - src + dst) c.2) m) x =
      if x < dst ∨ Memory.read cs (x - dst + src) = 0 then Memory.read m x else Memory.read cs (x - dst + src) := by
  induction cs generalizing lo m with
  | nil => exact (if_pos (.inr rfl)).symm
  | cons c cs ih =>
    simp only [Memory.wfFrom, Bool.and_eq_true, decide_eq_true_eq, bne_iff_ne] at sorted
    obtain ⟨⟨low, full⟩, rest⟩ := sorted
    rw [List.foldl_cons, ih rest (by omega) (Memory.wf_write _ _ wf)]
    have head : Memory.read (c :: cs) (x - dst + src) =
        if c.1 = x - dst + src then c.2 else if x - dst + src < c.1 then 0 else Memory.read cs (x - dst + src) := rfl
    rw [head]
    by_cases here : ¬x < dst ∧ c.1 = x - dst + src
    · obtain ⟨after, same⟩ := here
      have place : c.1 - src + dst = x := by omega
      have none : Memory.read cs (x - dst + src) = 0 := Memory.read_below rest (by omega)
      rw [if_pos (.inr none), place, Memory.read_write_self _ _ wf, if_pos same, if_neg (not_or.2 ⟨after, full⟩)]
    · have other : x ≠ c.1 - src + dst := fun same => here ⟨by omega, by omega⟩
      rw [Memory.read_write_of_ne _ wf other]
      by_cases before : x < dst
      · rw [if_pos (.inl before), if_pos (.inl before)]
      · have tail : (if x - dst + src < c.1 then 0 else Memory.read cs (x - dst + src)) = Memory.read cs (x - dst + src) := by
          split
          next below => exact (Memory.read_below rest (by omega)).symm
          next => rfl
        rw [if_neg (fun same => here ⟨before, same⟩), tail]

/-- R70: a copied range reads as what it was copied from did, and the rest as before. -/
theorem read_copyRange {m : Memory} (src dst n x : Nat) (wf : Memory.wf m = true) :
    Memory.read (Memory.copyRange m src dst n) x =
      if dst ≤ x ∧ x < dst + n then Memory.read m (x - dst + src) else Memory.read m x := by
  have entries : ∀ y, Memory.read (Memory.range m src n) y = if src ≤ y ∧ y < src + n then Memory.read m y else 0 := fun y => by
    unfold Memory.range
    rw [Memory.read_filter (fun k => decide (src ≤ k) && decide (k < src + n)) wf y]
    simp
  have sorted : Memory.wfFrom src (Memory.range m src n) = true := by
    have all : ∀ c ∈ Memory.range m src n, src ≤ c.1 := fun c hc => by
      have := (List.mem_filter.1 hc).2
      simp only [Bool.and_eq_true, decide_eq_true_eq] at this
      exact this.1
    have whole : Memory.wfFrom 0 (Memory.range m src n) = true := Memory.wfFrom_filter _ wf
    revert all whole
    cases Memory.range m src n with
    | nil => exact fun _ _ => rfl
    | cons c cs =>
      intro all whole
      simp only [Memory.wfFrom, Bool.and_eq_true, decide_eq_true_eq] at whole ⊢
      exact ⟨⟨all c List.mem_cons_self, whole.1.2⟩, whole.2⟩
  unfold Memory.copyRange
  rw [read_placed sorted (Nat.le_refl _) (Memory.wf_clear _ _ wf) x, entries, Memory.read_clear _ _ _ wf]
  by_cases inside : dst ≤ x ∧ x < dst + n
  · have source : src ≤ x - dst + src ∧ x - dst + src < src + n := by omega
    rw [if_pos inside, if_pos inside, if_pos source]
    split
    next low =>
      rcases low with low | zero
      · omega
      · exact zero.symm
    next => rfl
  · rw [if_neg inside, if_neg inside]
    by_cases low : x < dst
    · rw [if_pos (.inl low)]
    · rw [if_pos (.inr (if_neg (by omega)))]

/-! ## A warp that leaves its core (R43, R44, R46) -/

theorem stored_imageShared (h : d.imageShared hp slot team t = some e) : Stored d e := by
  unfold Dev.imageShared at h
  split at h
  · nomatch h
  refine stored_foldl (f := fun d k => (d.saveSlice hp slot t.start (k * pageBytes) pageBytes).map fun d =>
    ((d.unmapPage slot (sliceVa t.start + k * pageBytes)).dropTlb slot (sliceVa t.start + k * pageBytes) pageBytes).onCore t.start fun c =>
      { c with pages := match Table.find? c.pages k with
          | some (.shared x) => if x = team then Table.erase c.pages k else c.pages
          | _ => c.pages }) (fun d k e step => ?_) t.sharedPages h
  obtain ⟨d', saved, rfl⟩ := Option.map_eq_some_iff.1 step
  exact (stored_saveSlice saved).trans ((stored_unmapPage ..).trans ((reaches_dropTlb ..).stored.trans (stored_onCore ..)))

theorem stored_imageStacks (h : d.imageStacks hp slot w = some e) : Stored d e := by
  unfold Dev.imageStacks at h
  split at h
  · cases h
    exact .refl _
  · exact stored_saveSlice h

theorem teamLeaves_warps {record : Nat} {moves : Bool} (h : d.teamLeaves hp slot core record team moves = some e) : e.warps = d.warps := by
  unfold Dev.teamLeaves at h
  split at h
  · cases h
    rfl
  next t found =>
    obtain ⟨d₃, image, rfl⟩ := Option.map_eq_some_iff.1 h
    obtain ⟨d₂, left, image⟩ := Option.bind_eq_some_iff.1 image
    obtain ⟨d₁, saved, left⟩ := Option.bind_eq_some_iff.1 left
    have left : Stored d₁ d₂ := stored_foldl (fun _ _ _ step => stored_imageStacks step) _ left
    have image : Stored d₂ d₃ := by
      split at image
      · cases image
        exact .refl _
      · exact stored_imageShared image
    have freed : ∀ (js : List Nat) (d : Dev),
        (js.foldl (fun (d : Dev) j => d.onCore j fun c => c.giveBack fun r => r == Holder.team team) d).warps = d.warps := by
      intro js
      induction js with
      | nil => exact fun _ => rfl
      | cons j js ih => exact fun d => (ih _).trans rfl
    exact (freed _ _).trans ((stored_save saved).trans (left.trans image)).warps

/-- R43 to R46: a warp that has been evicted. -/
theorem evict_place {moves : Bool} (found : d.warp? id = some w) (h : d.evict hp id moves = some e) :
    (e.warp? id).map Warp.place = some .evicted := by
  unfold Dev.evict at h
  rw [found] at h
  obtain ⟨d', saved, left⟩ := Option.bind_eq_some_iff.1 h
  dsimp only at left
  split at left
  · cases left
    exact congrArg (Option.map Warp.place) (Table.find?_set_self ..)
  · unfold Dev.warp?
    rw [teamLeaves_warps left]
    exact congrArg (Option.map Warp.place) (Table.find?_set_self ..)

/-- R43: of some warps, the one that is to be evicted first is one of them. -/
theorem evictsFirst_mem (d : Dev) (xs : List (Nat × Warp)) {best : Option (Nat × Warp)} {x : Nat × Warp}
    (h : xs.foldl (fun (best : Option (Nat × Warp)) e => match best with
      | none => some e
      | some b => if d.evictsFirst e b then some e else some b) best = some x) : x ∈ xs ∨ best = some x := by
  induction xs generalizing best with
  | nil => exact .inr h
  | cons y xs ih =>
    rcases ih h with later | now
    · exact .inl (List.mem_cons_of_mem _ later)
    · cases best with
      | none =>
        cases now
        exact .inl List.mem_cons_self
      | some b =>
        dsimp only at now
        split at now
        · cases now
          exact .inl List.mem_cons_self
        · exact .inr now

/-- R43: the warp that leaves a core next is one of the core's, of a context of lower priority. -/
theorem nextVictim_of {priority : Nat} (h : d.nextVictim core priority = some id) :
    ∃ x ∈ d.warps, x.1 = id ∧ x.2.core = core ∧ d.waitingPriority (d.slotOf x.2.team) < priority := by
  obtain ⟨x, first, rfl⟩ := Option.map_eq_some_iff.1 h
  rcases evictsFirst_mem d _ first with mem | none
  · obtain ⟨mem, mine⟩ := List.mem_filter.1 mem
    simp only [Bool.and_eq_true, beq_iff_eq, decide_eq_true_eq] at mine
    obtain ⟨⟨⟨here, -⟩, -⟩, lower⟩ := mine
    exact ⟨x, mem, rfl, here, lower⟩
  · nomatch none

theorem exec_partialEviction {on : Nat} (found : s.dev.launch? launch = some l)
    (lacks : (teamCores core (l.record.pair && l.stages.isNone)).find? (s.dev.lacking s.host launch l core) = some on)
    (victim : s.dev.nextVictim on (s.dev.waitingPriority l.slot) = some id) (warp : s.dev.warp? id = some w)
    (free : s.dev.evictable id w = true) (leaves : s.dev.evict s.host id false = some d) :
    exec (.partialEviction launch core) s = .next (withDev s d) := by
  change execPartialEviction launch core s = _
  unfold execPartialEviction
  rw [run_eq]
  simp only [found, lacks, victim, warp, free, if_true, leaves, Option.getD_some]

theorem exec_timeSliceSwitch
    (free : ∀ x ∈ s.dev.warps.filter fun x => x.2.core == core && x.2.place == .resident && !x.2.threads.isEmpty &&
      s.dev.slotOf x.2.team == slot, s.dev.evictable x.1 x.2 = true)
    (leave : Dev.evictAll s.host false ((s.dev.warps.filter fun x => x.2.core == core && x.2.place == .resident &&
      !x.2.threads.isEmpty && s.dev.slotOf x.2.team == slot).map Prod.fst) s.dev = some d) :
    exec (.timeSliceSwitch slot core) s = .next (withDev s d) := by
  have free : ((s.dev.warps.filter fun x => x.2.core == core && x.2.place == .resident && !x.2.threads.isEmpty &&
      s.dev.slotOf x.2.team == slot).all fun x => s.dev.evictable x.1 x.2) = true := List.all_eq_true.2 free
  change execTimeSliceSwitch slot core s = _
  unfold execTimeSliceSwitch
  rw [run_eq]
  simp only [free, if_true, leave, Option.getD_some]

theorem exec_warpSwap {out new : Nat}
    (stands : ((s.dev.core core).lb lb).active.find? (fun id => (s.dev.warp? id).any (s.dev.stands id)) = some out)
    (ready : ((s.dev.core core).lb lb).pending.find? s.dev.couldIssue = some new) :
    exec (.warpSwap core lb) s = .next (withDev s (s.dev.onLb core lb fun b =>
      { b with
        active := b.active.filter (· != out) ++ [new]
        pending := b.pending.filter (· != new) ++ [out]
        arrivals := (b.arrivals.filter fun x => x.1 != out) ++
          [(new, arrivalTime (s.dev.cluster (clusterOf core)).laneCycles ((s.dev.core core).lb lb).credit)] })) := by
  change execWarpSwap core lb s = _
  unfold execWarpSwap
  rw [run_eq]
  simp only [stands, ready]

/-! ## A warp that comes back (R45, R46) -/

theorem stored_restoreShared (h : d.restoreShared hp slot team t = some e) : Stored d e := by
  unfold Dev.restoreShared at h
  dsimp only at h
  split at h
  · cases h
    exact .refl _
  split at h
  · cases mapped : Dev.mapShared hp slot t.start team t.sharedPages d with
    | none =>
      rw [mapped, foldl_bind_none] at h
      nomatch h
    | some d' =>
      rw [mapped] at h
      exact (stored_mapShared mapped).trans (stored_foldl (f := fun d k =>
        d.loadSlice hp slot t.start (k * pageBytes) pageBytes (slicePa t.start + k * pageBytes))
        (fun _ _ _ step => stored_loadSlice step) _ h)
  · nomatch h

/-- R46: the warp is as it was, or its frames and backing stacks lie at another offset of its home core's slice. -/
def Rebased (core : Nat) (w w' : Warp) : Prop := w' = w ∨ ∃ base, w' = w.based core base

theorem based_based (w : Warp) (core base base' : Nat) : (w.based core base).based core base' = w.based core base' := by
  have line : ∀ x : Nat, x + base - base + base' = x + base' := fun x => by omega
  unfold Warp.based
  simp only [line, List.map_map]
  congr 1
  refine List.map_congr_left fun f _ => ?_
  simp only [Function.comp_apply, line]

theorem Rebased.again {w' : Warp} (h : Rebased core w w') (base : Nat) : Rebased core w (w'.based core base) := by
  rcases h with rfl | ⟨b, rfl⟩
  · exact .inr ⟨base, rfl⟩
  · exact .inr ⟨base, based_based ..⟩

/-- R46: while a team's stacks come back, its teams stay, and each warp stays but for the place of its stacks. -/
def Returning (d e : Dev) : Prop :=
  e.teams = d.teams ∧ ∀ id w, d.warp? id = some w → ∃ w', e.warp? id = some w' ∧ Rebased (d.homeCore w) w w'

theorem Stored.returning (h : Stored d e) : Returning d e := ⟨h.teams, fun id w found => ⟨w, (h.warp? id).trans found, .inl rfl⟩⟩

theorem homeCore_rebased {core : Nat} {w' : Warp} (teams : e.teams = d.teams) (h : Rebased core w w') : e.homeCore w' = d.homeCore w := by
  have same : w'.team = w.team ∧ w'.core = w.core := by
    rcases h with rfl | ⟨b, rfl⟩ <;> exact ⟨rfl, rfl⟩
  unfold Dev.homeCore Dev.team?
  rw [teams, same.1, same.2]

theorem Returning.step {f : Dev} (h : Returning d e) (one : e.restoreStacks hp slot id = some f) : Returning d f := by
  unfold Dev.restoreStacks at one
  split at one
  · cases one
    exact h
  next w here =>
    split at one
    · cases one
      exact h
    obtain ⟨r, place, one⟩ := Option.bind_eq_some_iff.1 one
    obtain ⟨e', loaded, rfl⟩ := Option.map_eq_some_iff.1 one
    have room : Stored e r.2 := by
      split at place
      · split at place
        · cases place
          exact .refl _
        split at place
        · cases place
          dsimp only
          exact stored_onCore ..
        · nomatch place
      · exact stored_reserve place
    have moved := room.trans (stored_loadSlice loaded)
    refine ⟨moved.teams.trans h.1, fun id' w₀ found => ?_⟩
    obtain ⟨w', there, based⟩ := h.2 id' w₀ found
    by_cases same : id' = id
    · subst same
      cases here.symm.trans there
      refine ⟨_, Table.find?_set_self .., ?_⟩
      rw [homeCore_rebased h.1 based]
      exact based.again r.1
    · exact ⟨w', (Table.find?_set_of_ne _ _ same).trans ((moved.warp? id').trans there), based⟩

theorem returning_fold {ids : List Nat} {f : Dev} (h : Returning d e)
    (all : ids.foldl (fun (d : Option Dev) id => d.bind fun d => d.restoreStacks hp slot id) (some e) = some f) : Returning d f := by
  induction ids generalizing e with
  | nil => cases all; exact h
  | cons id ids ih =>
    rw [List.foldl_cons, Option.bind_some] at all
    cases one : e.restoreStacks hp slot id with
    | none =>
      rw [one, foldl_bind_none] at all
      nomatch all
    | some e' =>
      rw [one] at all
      exact ih (h.step one) all

theorem teamReturns_resident (h : d.teamReturns hp slot team = some e) (resident : d.teamResident team = true) : e = d := by
  unfold Dev.teamReturns at h
  rw [if_pos resident] at h
  exact (Option.some.inj h).symm

theorem teamReturns_returning (h : d.teamReturns hp slot team = some e) : Returning d e := by
  unfold Dev.teamReturns at h
  split at h
  · cases h
    exact (Stored.refl d).returning
  · obtain ⟨d', shared, each⟩ := Option.bind_eq_some_iff.1 h
    obtain ⟨t, -, shared⟩ := Option.bind_eq_some_iff.1 shared
    exact returning_fold (stored_restoreShared shared).returning each

theorem exec_warpResume {ws : Nat} {w' : Warp} (found : s.dev.warp? id = some w) (gone : w.place = .evicted) (live : w.threads ≠ [])
    (block : lb < 4) (room : ((s.dev.core (s.dev.homeCore w)).lb lb).used < 24)
    (fits : s.dev.contextFits (s.dev.slotOf w.team) (s.dev.homeCore w) = true)
    (place : s.dev.warpSlot (s.dev.slotOf w.team) (s.dev.homeCore w) lb (some id) = some ws)
    (claimed : s.dev.claimAll s.host (s.dev.slotOf w.team)
      (teamCores (s.dev.homeCore w) ((s.dev.team? w.team).any fun t => t.follower.isSome)) = some d)
    (returns : d.teamReturns s.host (s.dev.slotOf w.team) w.team = some e) (back : e.warp? id = some w') :
    exec (.warpResume id lb) s = .next (withDev s
      (((e.setWarp id (w'.resumed (s.dev.homeCore w) lb ws)).onLb (s.dev.homeCore w) lb fun b => b.enter id).pushForwards
        (s.dev.homeCore w) lb (w'.fwd.map fun f => { f with due := f.due + e.clockOf (s.dev.homeCore w) }))) := by
  have live : w.threads.isEmpty = false := by simpa using live
  have may : (w.place != .evicted || w.threads.isEmpty || decide (4 ≤ lb) ||
      decide (24 ≤ ((s.dev.core (s.dev.homeCore w)).lb lb).used) ||
      !s.dev.contextFits (s.dev.slotOf w.team) (s.dev.homeCore w)) = false := by
    rw [gone, live, fits, decide_eq_false (Nat.not_le.2 block), decide_eq_false (Nat.not_le.2 room)]
    rfl
  change execWarpResume id lb s = _
  unfold execWarpResume
  rw [run_eq]
  simp only [found, may, Bool.false_eq_true, if_false, place, claimed, Option.bind_some, returns, back]

/-! ## A team that is placed again, and a page that moves -/

/-- R461: the form with which an ended team is placed again. -/
def againForm (d : Dev) (l : Launch) (t : Team) : Option TeamForm :=
  match t.stage, l.stages with
  | some k, some ss => (ss.stages[k]?).map fun x => x.form k
  | _, _ => d.gridForm l

/-- R461: an ended team's slots and bytes are free, and its launch has placed it again. -/
def withoutTeam (d : Dev) (team : Nat) (t : Team) : Dev :=
  (d.releaseTeam team).onLaunch t.launch fun l => { l with relaunched := l.relaunched ++ [t.index] }

/-- R461: an ended team's name is forgotten, and its new start reported. -/
def reportAgain (team : Nat) (t : Team) (l : Launch) (d : Dev) : Dev :=
  (({ d with teams := Table.erase d.teams team } : Dev).onStages t.launch fun ss => { ss with moved := true }).report 0x04 2 l.slot t.core
    (leBytes 4 t.index)

theorem againForm_of {f : TeamForm} (form : (t.stage = none ∧ d.gridForm l = some f) ∨
    ∃ k ss x, t.stage = some k ∧ l.stages = some ss ∧ ss.stages[k]? = some x ∧ f = x.form k) : againForm d l t = some f := by
  unfold againForm
  rcases form with ⟨none, form⟩ | ⟨k, ss, x, stage, stages, place, rfl⟩
  · rw [none]
    exact form
  · rw [stage, stages]
    exact congrArg (Option.map fun x => x.form k) place

theorem exec_teamRelaunch {f : TeamForm} (found : s.dev.team? team = some t) (launch : s.dev.launchOf team = some l)
    (ended : t.ended = true) (idempotent : l.record.idempotent = true) (once : t.index ∉ l.relaunched) (live : l.cancelled = false)
    (stays : ¬(l.record.rollback = true ∧ l.rolled = false ∧ l.cause = 0x19)) (quiet : s.dev.teamCounter team = 0)
    (free : s.dev.sharedUsed team t = false) (form : againForm s.dev l t = some f) :
    (∀ new d, (withoutTeam s.dev team t).startTeam s.host t.launch l t.index t.core f = some (new, d) →
      exec (.teamRelaunch team) s = .next (withDev s (reportAgain team t l (d.renameDonor t.launch team new)))) ∧
    ((withoutTeam s.dev team t).startTeam s.host t.launch l t.index t.core f = none → t.stage = none →
      exec (.teamRelaunch team) s = .next (withDev s
        (reportAgain team t l ((withoutTeam s.dev team t).onLaunch t.launch fun l => { l with again := l.again ++ [t.index] })))) := by
  have stays : l.rollsBack = false := by
    refine Bool.eq_false_iff.2 fun rolls => stays ?_
    simpa [Launch.rollsBack, and_assoc] using rolls
  have may : (!t.ended || l.rollsBack || !l.record.idempotent || l.relaunched.contains t.index || l.cancelled ||
      s.dev.teamCounter team != 0 || s.dev.sharedUsed team t) = false := by
    rw [ended, stays, idempotent, live, quiet, free]
    simpa using once
  have run : exec (.teamRelaunch team) s = .next (withDev s
      (match (againForm s.dev l t).bind fun f => (withoutTeam s.dev team t).startTeam s.host t.launch l t.index t.core f with
        | some (new, d) => reportAgain team t l (d.renameDonor t.launch team new)
        | none => if t.stage.isSome then s.dev
          else reportAgain team t l ((withoutTeam s.dev team t).onLaunch t.launch fun l => { l with again := l.again ++ [t.index] }))) := by
    change execTeamRelaunch team s = _
    unfold execTeamRelaunch
    rw [run_eq]
    simp only [found, launch, may, Bool.false_eq_true, if_false]
    rfl
  rw [run, form, Option.bind_some]
  refine ⟨fun new d starts => ?_, fun full stage => ?_⟩
  · rw [starts]
  · rw [full, stage]
    rfl

theorem exec_migration {a pa : Nat} {va : BitVec 64} {tier : BitVec 8} {x : Dword} {d' : Dev}
    (walk : s.dev.walk slot 0 (pageOf va.toNat) = .ok (4, a, x)) (data : pteX x = false)
    (own : s.dev.objectPage slot (pageOf va.toNat) = false) (outside : inWindow (pageOf va.toNat) = false)
    (unused : s.dev.frameUsed (ptePa x) = false) (bound : tier.toNat ≤ 1) (frame : s.dev.takeFrame s.host tier.toNat = some (pa, d))
    (mapped : ((d.movePage (ptePa x) pa).onContext slot fun c =>
      { c with snapshots := c.snapshots.map fun t => if t.copied then t else { t with pa := movedTo (ptePa x) pa t.pa } }).mapPage
        s.host slot (pageOf va.toNat) ((x &&& 0xFFF000000000FFFF#64) ||| leafEntry pa false false false) = some d') :
    exec (.migration slot va tier) s = .next (withDev s ((d'.dropTlb slot (pageOf va.toNat) pageBytes).freeFrame (ptePa x))) := by
  have may : ((4 : Nat) != 4 || pteX x || s.dev.objectPage slot (pageOf va.toNat) || inWindow (pageOf va.toNat) ||
      s.dev.frameUsed (ptePa x) || decide (1 < tier.toNat)) = false := by
    rw [data, own, outside, unused, decide_eq_false (Nat.not_lt.2 bound)]
    rfl
  change execMigration slot va tier s = _
  unfold execMigration
  rw [run_eq]
  simp only [walk, may, Bool.false_eq_true, if_false, frame, mapped]

/-- Settles O47: each event is the model's own with its guards met; an evicted warp's stacks come back once or more, the last place
counts, and what a page is copied from reads as it did. -/
theorem placementResults : Obligations.PlacementResults := by
  unfold Obligations.PlacementResults
  refine ⟨?_, ?_, ?_, ?_, ?_, ?_, ?_⟩
  · exact fun s core lb out new stands ready => exec_warpSwap stands ready
  · exact fun s launch core on id l w d found lacks victim warp free leaves =>
      ⟨exec_partialEviction found lacks victim warp free leaves, evict_place warp leaves, nextVictim_of victim⟩
  · exact fun s slot core d free leave => exec_timeSliceSwitch free leave
  · intro s id lb ws w w' d e found gone live slot core block room fits place claimed returns back
    have stored := stored_claimAll claimed
    have here : d.warp? id = some w := (stored.warp? id).trans found
    refine ⟨exec_warpResume found gone live block room fits place claimed returns back, fun resident => ?_, ?_⟩
    · have same := teamReturns_resident returns resident
      subst same
      exact ⟨rfl, Option.some.inj (back.symm.trans here)⟩
    · obtain ⟨w₁, there, based⟩ := (teamReturns_returning returns).2 id w here
      cases back.symm.trans there
      have home : d.homeCore w = core := homeCore_rebased stored.teams (.inl rfl : Rebased core w w)
      rw [home] at based
      rcases based with same | ⟨base, same⟩
      · exact .inl same
      · exact .inr (by rw [same]; rfl)
  · intro s team t l f found launch ended idempotent once live stays quiet free form gone report
    exact exec_teamRelaunch found launch ended idempotent once live stays quiet free (againForm_of form)
  · exact fun s slot a pa va tier x d d' walk data own outside unused bound frame mapped =>
      exec_migration walk data own outside unused bound frame mapped
  · intro d src dst wf apart
    have moved : (d.movePage src dst).mem = Memory.copyRange d.mem src dst pageBytes := rfl
    refine ⟨fun i hi => ?_, fun a out => ?_⟩
    · have inside : dst ≤ dst + i ∧ dst + i < dst + pageBytes := ⟨by omega, by change dst + i < dst + 65536; omega⟩
      rw [moved, read_copyRange _ _ _ _ wf, if_pos inside, Nat.add_sub_cancel_left, Nat.add_comm]
    · have outside : ¬(dst ≤ a ∧ a < dst + pageBytes) := by
        change ¬(dst ≤ a ∧ a < dst + 65536)
        omega
      rw [moved, read_copyRange _ _ _ _ wf, if_neg outside]

end Sys2Proof.Proofs
end

section
/-! PROOF. The stage balancer at a boundary, a stuck set, and a donor that moves (R337, R339, R345, R445). -/

namespace Sys2Proof.Proofs

open Sys2Proof Sys2Proof.Machine Sys2Proof.Safety

variable {s : Machine.State} {d : Dev} {launch team core : Nat} {l : Launch} {ss : StageSet} {t : Team}

theorem stages?_of (found : d.launch? launch = some l) (stages : l.stages = some ss) : d.stages? launch = some ss := by
  unfold Dev.stages?
  rw [found]
  exact stages

theorem exec_rebalancing_held (found : s.dev.launch? launch = some l) (stages : l.stages = some ss)
    (held : s.dev.launchHeld launch = true) : exec (.rebalancingInterval launch) s = .next s := by
  have waits : (!ss.started || l.complete || l.cancelled || s.dev.launchHeld launch || decide (s.dev.gtime < ss.next)) = true := by
    simp [held]
  change execRebalancingInterval launch s = _
  unfold execRebalancingInterval
  rw [run_eq]
  simp only [found, stages, waits, if_true]
  rfl

theorem exec_rebalancing (found : s.dev.launch? launch = some l) (stages : l.stages = some ss) (started : ss.started = true)
    (going : l.complete = false) (live : l.cancelled = false) (free : s.dev.launchHeld launch = false) (due : ss.next ≤ s.dev.gtime) :
    exec (.rebalancingInterval launch) s = .next (withDev s
      ((if 5 ≤ stuckAfter (s.dev.allBlocked launch ss) ss.moved ss.stuck then
          s.dev.onStages launch fun ss' => { ss' with
            stuck := stuckAfter (s.dev.allBlocked launch ss) ss.moved ss.stuck, moved := false, next := ss'.next + ss'.interval }
        else Dev.balance launch ss.next 8 [] (s.dev.onStages launch fun ss' => { ss' with
            stuck := stuckAfter (s.dev.allBlocked launch ss) ss.moved ss.stuck, moved := false, next := ss'.next + ss'.interval })).settle
        s.host)) := by
  have goes : (!ss.started || l.complete || l.cancelled || s.dev.launchHeld launch || decide (s.dev.gtime < ss.next)) = false := by
    rw [started, going, live, free, decide_eq_false (Nat.not_lt.2 due)]
    rfl
  change execRebalancingInterval launch s = _
  unfold execRebalancingInterval
  rw [run_eq]
  simp only [found, stages, goes, Bool.false_eq_true, if_false]

theorem stuckAfter_eq (blocked moved : Bool) (stuck : Nat) :
    stuckAfter blocked moved stuck = if blocked = false then 0 else if moved then 1 else stuck + 1 := by
  unfold stuckAfter
  cases blocked <;> rfl

theorem exec_stageSetStuck (found : s.dev.launch? launch = some l) (stages : l.stages = some ss) (stuck : 5 ≤ ss.stuck)
    (going : l.complete = false) (live : l.cancelled = false) :
    exec (.stageSetStuck launch) s = .next (withDev s
      ((((s.dev.report 0x0E 3 l.slot 0 (s.dev.stuckRecord launch l ss)).onLaunch launch fun l =>
        { l with faulted := true, cause := if l.faulted then l.cause else 0x1B }).cancelLaunch launch).settle s.host)) := by
  have goes : (decide (ss.stuck < 5) || l.cancelled || l.complete) = false := by
    rw [going, live, decide_eq_false (Nat.not_lt.2 stuck)]
    rfl
  change execStageSetStuck launch s = _
  unfold execStageSetStuck
  rw [run_eq]
  simp only [found, stages, goes, Bool.false_eq_true, if_false]

/-! ## A donor that moves (R339) -/

/-- R339: the stage's handover of a team is due. -/
def handoverDue (team now interval : Nat) (x : Stage) : Bool :=
  match x.handover with
  | some (_, true, y) => y == team && decide (x.since + interval ≤ now)
  | _ => false

/-- R339: the recipient of a donor's core has it. -/
def freedStage (team core : Nat) (x : Stage) : Stage :=
  match x.handover with
  | some (_, false, y) => if y = team then { x with freed := some core } else x
  | _ => x

/-- R339: a donor that has left its core for a sibling's. -/
def donorGone (hp : HostPart) (launch team core : Nat) (t : Team) (d : Dev) : Dev :=
  ((d.onTeam team fun t => { t with core := core, donor := false, marks := [] }).onStages launch fun ss =>
    { ss with
      stages := ss.stages.map (freedStage team t.core)
      queues := ss.queues.map fun u => { u with marks := u.marks.filter (· != team) } }).settle hp

theorem exec_donorEviction {k : Nat} {x : Stage} (found : s.dev.team? team = some t) (stages : s.dev.stages? launch = some ss)
    (stage : t.stage = some k) (place : ss.stages[k]? = some x) (due : handoverDue team s.dev.gtime ss.interval x = true)
    (donor : t.donor = true) (going : t.complete = false) (free : s.dev.launchHeld launch = false)
    (sibling : s.dev.siblingCore launch k team = some core)
    (ready : ∀ e ∈ s.dev.warps.filter fun e => e.2.team == team && !e.2.threads.isEmpty,
      e.2.place = .evicted ∨ s.dev.evictable e.1 e.2 = true)
    (leave : Dev.evictAll s.host true (((s.dev.warps.filter fun e => e.2.team == team && !e.2.threads.isEmpty).filter fun e =>
      e.2.place == .resident).map Prod.fst) s.dev = some d) :
    exec (.donorEviction launch team) s = .next (withDev s (donorGone s.host launch team core t d)) := by
  have due : (ss.stages[k]?).any (handoverDue team s.dev.gtime ss.interval) = true := by
    rw [place]
    exact due
  have ready : ((s.dev.warps.filter fun e => e.2.team == team && !e.2.threads.isEmpty).all fun e =>
      e.2.place == .evicted || s.dev.evictable e.1 e.2) = true := List.all_eq_true.2 fun e he => by simpa using ready e he
  have goes : (!(ss.stages[k]?).any (handoverDue team s.dev.gtime ss.interval) || s.dev.launchHeld launch || !t.donor || t.complete ||
      !((s.dev.warps.filter fun e => e.2.team == team && !e.2.threads.isEmpty).all fun e =>
        e.2.place == .evicted || s.dev.evictable e.1 e.2)) = false := by
    rw [due, free, donor, going, ready]
    rfl
  change execDonorEviction launch team s = _
  unfold execDonorEviction
  rw [run_eq]
  simp only [found, stages, stage, sibling]
  refine congrArg (fun d => Host.Outcome.next (withDev s d)) ((if_neg fun waits => ?_).trans ?_)
  · exact absurd (goes.symm.trans waits) (by decide)
  · rw [leave]
    rfl

/-- Settles O48: a boundary, the end of a stuck set and a donor's eviction are the model's own, with their guards met; while the
launch is held stopped a boundary does nothing. -/
theorem stageBalancerResults : Obligations.StageBalancerResults := by
  unfold Obligations.StageBalancerResults
  intro s launch l ss found stages
  refine ⟨fun held => exec_rebalancing_held found stages held, fun started going live free due => ?_,
    fun stuck going live => exec_stageSetStuck found stages stuck going live, ?_⟩
  · rw [exec_rebalancing found stages started going live free due, stuckAfter_eq]
    rfl
  · intro team k core to_ t x team_ stage place handover since donor going free sibling mine d ready leave
    have due : handoverDue team s.dev.gtime ss.interval x = true := by
      unfold handoverDue
      rw [handover]
      simp [since]
    rw [exec_donorEviction team_ (stages?_of found stages) stage place due donor going free sibling ready leave]
    rfl

end Sys2Proof.Proofs
end

section
/-! PROOF. A front-end cycle of a core whose lane blocks are not listed in rising order (R182, R458). -/

namespace Sys2Proof.Proofs

open Sys2Proof Sys2Proof.Machine Sys2Proof.Safety

/-- A lane block in the midst of a replay. -/
def replayingBlock : LaneBlock := { LaneBlock.reset with replay := 1, credit := 1 }

/-- A core that lists its lane block 1 before its lane block 0, which replays. -/
def unsortedCore : Core := { Core.reset with lbs := [(1, LaneBlock.reset), (0, replayingBlock)] }

/-- A state with that core. -/
def unsortedState : Machine.State := { State.reset with dev := { State.reset.dev with cores := [(0, unsortedCore)] } }

/-- The lane blocks of core 0 after a step, with the lane cycles that their replays still take. -/
def replaysAfter : Host.Outcome Machine.State Fault Refusal → Option (List (Nat × Nat))
  | .next t => (Table.find? t.dev.cores 0).map fun (c : Core) => c.lbs.map fun (b : Nat × LaneBlock) => (b.1, b.2.replay)
  | _ => none

/-- R182: the block after its replay is listed before the block 1, and its old entry stays. -/
theorem replaysAfter_refill : replaysAfter (exec (.tokenBucketRefill 0) unsortedState) = some [(0, 0), (1, 0), (0, 1)] := by decide

/-- Refutes O49: the tables of a state are not held to rising numbers. Where a core lists lane block 1 before lane block 0, the
write of block 0 goes before both, and the old entry of block 0, whose replay has not passed, stays among the core's blocks. -/
theorem not_powerAndReliabilityResults : ¬ Obligations.PowerAndReliabilityResults := by
  unfold Obligations.PowerAndReliabilityResults
  intro h
  obtain ⟨c', t, next, -, -, -, -, -, cores⟩ := (h.1 unsortedState 0).2 (by decide) (by decide)
  obtain ⟨core, found, -, blocks⟩ := cores (by decide) 0 unsortedCore rfl (by decide) (by decide)
  have left := replaysAfter_refill
  rw [next] at left
  have left : core.lbs.map (fun b => (b.1, b.2.replay)) = [(0, 0), (1, 0), (0, 1)] := by
    simpa [replaysAfter, found] using left
  have old : (0, 1) ∈ core.lbs.map fun b => (b.1, b.2.replay) := by simp [left]
  obtain ⟨e, he, same⟩ := List.mem_map.1 old
  obtain ⟨number, replay⟩ := Prod.mk.inj same
  obtain ⟨-, -, b, hb, passed, -⟩ := blocks e he
  have block : b = replayingBlock := by
    rw [number] at hb
    simpa [unsortedCore] using hb
  rw [block, replay] at passed
  exact absurd passed (by decide)

end Sys2Proof.Proofs
end

section

/-! PROOF. The host function: doorbells, registers, the life of a context slot and of a mapping request, bring-up and the host
link (R104, R369, R381 to R385, R467, R468). -/

namespace Sys2Proof.Proofs

open Sys2Proof Sys2Proof.Machine Sys2Proof.Safety

variable {s : Machine.State} {d e : Dev} {hp : HostPart}

/-! ## What is usable, and what has no effect -/

/-- The host function is usable and its link is up, as the statements write it. -/
def Usable (h : HostPart) : Prop := h.linkUp = true ∧ h.stopped = false ∧ h.ready.getLsbD 0 = true

theorem reached_iff : hp.reached = true ↔ Usable hp := by
  unfold HostPart.reached Usable
  simp only [Bool.and_eq_true, Bool.not_eq_true', and_assoc]

theorem withDev_self : withDev s s.dev = s := rfl

theorem runHost_eq (f : HostPart → Dev → HostPart × Dev) :
    s.runHost f = .next { s with host := (f s.host s.dev).1, dev := (f s.host s.dev).2 } := rfl

/-! ## Doorbells -/

theorem doorbell_ignored {slot n : Nat}
    (off : ¬Usable s.host ∨ (s.dev.context slot).state ≠ .open_ ∨ s.host.featActive.getLsbD 0 = false) :
    exec (.doorbell slot n) s = .next s := by
  change execDoorbell slot n s = _
  unfold execDoorbell
  rw [run_eq]
  refine congrArg (fun d => Host.Outcome.next (withDev s d)) (if_pos ?_)
  rw [← reached_iff] at off
  simpa [Bool.or_eq_true, or_assoc] using off

theorem doorbell_heard {slot n : Nat} (up : Usable s.host) (live : (s.dev.context slot).state = .open_)
    (active : s.host.featActive.getLsbD 0 = true) :
    exec (.doorbell slot n) s = .next (withDev s
      (if s.host.processorReady slot then s.dev.readDescriptor s.host slot n
      else if s.dev.latched.contains (slot, n) then s.dev
      else { s.dev with latched := s.dev.latched ++ [(slot, n)] })) := by
  change execDoorbell slot n s = _
  unfold execDoorbell
  rw [run_eq]
  refine congrArg (fun d => Host.Outcome.next (withDev s d)) (if_neg ?_)
  simp [reached_iff.2 up, live, active]

theorem readDescriptor_taken {slot n : Nat} {bs : List Byte}
    (got : e.readVa hp slot (processorCore slot) (e.descriptorVa slot n) 64 = .ok (bs, d))
    (ok : descriptorOk bs (if ((d.context slot).stream n).stopped then field bs 24 8 else ((d.context slot).stream n).position) = true) :
    e.readDescriptor hp slot n =
      (if ((d.context slot).stream n).stopped then d else d.storeRd hp slot n).onStream slot n fun st => { st with
        ring := BitVec.ofNat 64 (field bs 0 8)
        words := field bs 8 4
        priority := field bs 12 1
        wr := field bs 16 8
        rd := if st.stopped then (if ((d.context slot).stream n).stopped then field bs 24 8
          else ((d.context slot).stream n).position) else st.rd
        errRec := BitVec.ofNat 64 (field bs 32 8)
        stopped := false
        failed := false } := by
  unfold Dev.readDescriptor
  rw [got]
  dsimp only
  rw [ok]
  rfl

/-! ## The life of a context slot -/

theorem takeHbm_contexts {ks : List Nat} {pa : Nat} (taken : d.takeHbm hp ks = some (pa, e)) : e.contexts = d.contexts := by
  unfold Dev.takeHbm at taken
  split at taken
  · cases taken
    rfl
  · unfold Dev.freshFrame at taken
    obtain ⟨k, -, made⟩ := Option.map_eq_some_iff.1 taken
    cases made
    rfl

theorem newRoots_contexts {n : Nat} {roots : List Nat} (made : Dev.newRoots hp n d = some (roots, e)) :
    e.contexts = d.contexts := by
  induction n generalizing d roots with
  | zero =>
    cases made
    rfl
  | succ n ih =>
    unfold Dev.newRoots at made
    cases taken : d.takeFrame hp 0 with
    | none => simp only [taken, reduceCtorEq] at made
    | some r =>
      obtain ⟨pa, f⟩ := r
      simp only [taken] at made
      obtain ⟨⟨more, g⟩, later, eq⟩ := Option.map_eq_some_iff.1 made
      cases eq
      exact (ih later).trans (takeHbm_contexts taken)

theorem ctxOpen_opens {slot : Nat} {groups : List (BitVec 16 × List Nat)} {roots : List Nat} (up : Usable s.host)
    (idle : (s.dev.context slot).state = .free) (made : Dev.newRoots s.host 4 s.dev = some (roots, d)) :
    exec (.ctxOpen slot groups) s = .next (withDev s ((({ d with free := d.free + 1 } : Dev).onContext slot fun _ => { Context.reset with
      state := .open_, streamTable := (s.dev.context slot).streamTable, mapReq := (s.dev.context slot).mapReq, roots := roots
      saveBase := Config.saveBase d.free }).installGroups s.host slot groups)) := by
  change execCtxOpen slot groups s = _
  unfold execCtxOpen
  rw [run_eq]
  have may : (!s.host.reached || (s.dev.context slot).state != .free) = false := by rw [reached_iff.2 up, idle]; rfl
  simp only [may, Bool.false_eq_true, if_false, made]
  have kept : s.dev.context slot = ({ d with free := d.free + 1 } : Dev).context slot := by
    unfold Dev.context
    rw [← newRoots_contexts made]
  rw [kept]
  rfl

theorem ctxClose_closes {slot : Nat} (up : Usable s.host)
    (live : (s.dev.context slot).state = .open_ ∨ (s.dev.context slot).state = .terminated) :
    exec (.ctxClose slot) s = .next (withDev s
      (((if (s.dev.context slot).state == .open_ && !s.dev.contextIdle slot then s.dev.cancelJob slot else s.dev).onContext slot
        fun c => { c with state := .closing }).settle s.host)) := by
  change execCtxClose slot s = _
  unfold execCtxClose
  rw [run_eq]
  refine congrArg (fun d => Host.Outcome.next (withDev s d)) (if_neg ?_)
  rcases live with live | live <;> simp [reached_iff.2 up, live]

theorem freeSlot_clears (slot : Nat) :
    ((d.freeSlot slot).context slot).state = .free ∧ (∀ e ∈ (d.freeSlot slot).accesses, e.2.slot ≠ slot) ∧
      ∀ e ∈ (d.freeSlot slot).launches, e.2.slot ≠ slot := by
  refine ⟨?_, ?_, ?_⟩
  · unfold Dev.freeSlot Dev.context
    simp [Dev.setContext, Context.reset]
  · intro e there
    unfold Dev.freeSlot Dev.setContext at there
    simpa using (List.mem_filter.1 there).2
  · intro e there
    unfold Dev.freeSlot Dev.setContext at there
    simpa using (List.mem_filter.1 there).2

theorem closeComplete_frees {slot : Nat} (closing : (s.dev.context slot).state = .closing)
    (done : s.dev.contextDone slot = true) :
    exec (.closeComplete slot) s = .next (withDev s (s.dev.freeSlot slot)) := by
  change execCloseComplete slot s = _
  unfold execCloseComplete
  rw [run_eq]
  exact congrArg (fun d => Host.Outcome.next (withDev s d)) (if_pos (by simp [closing, done]))

/-! ## Mapping requests -/

theorem readMapRequest_op (v : BitVec 256) : (readMapRequest v).op = mapField v 0 1 := by
  have first : leBytes 32 v.toNat = leBytes 1 v.toNat ++ leBytes 31 (v.toNat / 256) := rfl
  change field (leBytes 32 v.toNat) 0 1 = _
  rw [first, field_leBytes]
  simp [mapField]

theorem startRequest_started {slot : Nat} {undo : Bool} (up : Usable hp) (ended : (d.context slot).mapStatus ≠ 1)
    (kind : (mapField (d.context slot).mapReq 0 1 == 2) = undo) :
    d.startRequest hp slot undo = d.onContext slot fun c => { c with mapHeld := c.mapReq, mapStatus := 1 } := by
  unfold Dev.startRequest
  exact if_neg (by simp [reached_iff.2 up, ended, readMapRequest_op, kind])

theorem mapDone_mapped {slot : Nat} (busy : (s.dev.context slot).mapStatus = 1) (live : (s.dev.context slot).state ≠ .free)
    (map : (readMapRequest (s.dev.context slot).mapHeld).op = 1)
    (allowed : s.dev.mapAllowed s.host slot (readMapRequest (s.dev.context slot).mapHeld) = true)
    (made : s.dev.mapRange s.host slot (readMapRequest (s.dev.context slot).mapHeld) = some d) :
    exec (.mapDone slot) s = .next (withDev s (d.endRequest slot 2)) := by
  change execMapDone slot s = _
  unfold execMapDone
  rw [run_eq]
  simp [busy, live, map, allowed, made]

theorem mapDone_unmapped {slot : Nat} (busy : (s.dev.context slot).mapStatus = 1) (live : (s.dev.context slot).state ≠ .free)
    (unmap : (readMapRequest (s.dev.context slot).mapHeld).op = 2)
    (allowed : (readMapRequest (s.dev.context slot).mapHeld).unmapAllowed = true)
    (unused : ∀ l ∈ s.dev.mappedIn slot (readMapRequest (s.dev.context slot).mapHeld).va
      (readMapRequest (s.dev.context slot).mapHeld).bytes, s.dev.frameUsed (ptePa l.2) = false) :
    exec (.mapDone slot) s = .next (withDev s ((s.dev.unmapRange slot (readMapRequest (s.dev.context slot).mapHeld).va
      (readMapRequest (s.dev.context slot).mapHeld).bytes).endRequest slot 2)) := by
  have unmapped : ((s.dev.mappedIn slot (readMapRequest (s.dev.context slot).mapHeld).va
      (readMapRequest (s.dev.context slot).mapHeld).bytes).any fun l => s.dev.frameUsed (ptePa l.2)) = false := by
    rw [List.any_eq_false]
    intro l there
    rw [unused l there]
    decide
  change execMapDone slot s = _
  unfold execMapDone
  rw [run_eq]
  simp only [busy, live, unmap, allowed, unmapped, bne_self_eq_false, Bool.false_eq_true, if_false, beq_iff_eq, OfNat.ofNat_ne_one,
    decide_true, Bool.and_true, if_true]

theorem mapDone_refused {slot : Nat} (busy : (s.dev.context slot).mapStatus = 1) (live : (s.dev.context slot).state ≠ .free)
    (bad : let r := readMapRequest (s.dev.context slot).mapHeld
      (r.op ≠ 1 ∧ r.op ≠ 2) ∨ (r.op = 1 ∧ s.dev.mapAllowed s.host slot r = false) ∨ (r.op = 2 ∧ r.unmapAllowed = false)) :
    exec (.mapDone slot) s = .next (withDev s (s.dev.endRequest slot 3)) := by
  change execMapDone slot s = _
  unfold execMapDone
  rw [run_eq]
  rcases bad with ⟨notMap, notUnmap⟩ | ⟨map, refused⟩ | ⟨unmap, refused⟩
  · simp [busy, live, notMap, notUnmap]
  · simp [busy, live, map, refused]
  · simp [busy, live, unmap, refused]

/-! ## Features and registers -/

theorem featCommit_ignored {value : BitVec 32} (late : s.host.committed = true ∨ value ≠ 1) :
    exec (.featCommit value) s = .next s := by
  have same : (if (!s.host.reached || s.host.committed || value != 1) = true then (s.host, s.dev)
      else ({ s.host with
        committed := true
        featActive := if (s.host.featAccept &&& s.host.featOffer).getLsbD 0 then s.host.featAccept &&& s.host.featOffer
          else 0 }, s.dev)) = (s.host, s.dev) :=
    if_pos (by
      rcases late with late | late
      · simp [late]
      · rw [bne_iff_ne.2 late, Bool.or_true])
  exact congrArg (fun r : HostPart × Dev => Host.Outcome.next { s with host := r.1, dev := r.2 }) same

theorem featCommit_commits (up : Usable s.host) (first : s.host.committed = false) :
    exec (.featCommit 1) s = .next { s with host := { s.host with
      committed := true
      featActive := if (s.host.featAccept &&& s.host.featOffer).getLsbD 0 then s.host.featAccept &&& s.host.featOffer
        else 0 } } := by
  change execFeatCommit 1 s = _
  unfold execFeatCommit
  rw [runHost_eq]
  simp only [reached_iff.2 up, first, Bool.not_true, Bool.or_false, bne_self_eq_false, Bool.false_eq_true, if_false]

/-- A write that covers a register leaves its own bytes there. -/
theorem overwrite_all (n old v : Nat) : overwrite n old 0 (leBytes n v) = v % 256 ^ n := by
  have bytes : ((List.range n).map fun (i : Nat) =>
      let j : Int := Int.ofNat i - 0
      if 0 ≤ j && decide (j < Int.ofNat (leBytes n v).length) then (leBytes n v).getD j.toNat 0
      else BitVec.ofNat 8 (old / 256 ^ i)) = leBytes n v := by
    refine List.ext_getElem (by simp) ?_
    intro i inside _
    have low : i < n := by simpa using inside
    have covered : (0 ≤ (Int.ofNat i - 0) && decide ((Int.ofNat i - 0 : Int) < Int.ofNat (leBytes n v).length)) = true := by
      simp [low]
    simp only [List.getElem_map, List.getElem_range, covered, if_true]
    simp [List.getD_eq_getElem?_getD, low]
  exact (congrArg leValue bytes).trans (leValue_leBytes n v)

theorem registerWrite_accept (up : Usable s.host) (v : BitVec 256) :
    exec (.registerWrite 0x20 16 v) s = .next { s with host := { s.host with featAccept := BitVec.setWidth 128 v } } := by
  change execRegisterWrite 0x20 16 v s = _
  unfold execRegisterWrite
  rw [runHost_eq]
  have value : BitVec.ofNat 128 (overwrite 16 s.host.featAccept.toNat 0 (leBytes 16 v.toNat)) = BitVec.setWidth 128 v := by
    refine BitVec.eq_of_toNat_eq ?_
    rw [overwrite_all]
    simp [BitVec.toNat_setWidth]
  simp [reached_iff.2 up, value]

theorem registerWrite_streamTable (up : Usable s.host) (v : BitVec 256) {slot : Nat} (low : slot < 64) :
    exec (.registerWrite (0x10008 + 0x1000 * slot) 8 v) s = .next (withDev s
      (s.dev.onContext slot fun c => { c with streamTable := BitVec.setWidth 64 v })) := by
  have own : (0x10008 + 0x1000 * slot - 0x10000) / 0x1000 = slot := by omega
  have place : (0x10008 + 0x1000 * slot - 0x10000) % 0x1000 = 0x008 := by omega
  have host_ : ¬0x10008 + 0x1000 * slot < 0x20 + 16 := by omega
  have slots : ¬(0x10008 + 0x1000 * slot < 0x10000 ∨ 0x50000 ≤ 0x10008 + 0x1000 * slot) := by omega
  have value : ∀ old, BitVec.ofNat 64 (overwrite 8 old 0 (leBytes 8 v.toNat)) = BitVec.setWidth 64 v := by
    intro old
    refine BitVec.eq_of_toNat_eq ?_
    rw [overwrite_all]
    simp [BitVec.toNat_setWidth]
  change execRegisterWrite (0x10008 + 0x1000 * slot) 8 v s = _
  unfold execRegisterWrite
  rw [runHost_eq]
  simp only [reached_iff.2 up, own, place, host_, decide_false, Bool.and_false]
  simp [value, slots, withDev]

theorem registerWrite_mapReq (up : Usable s.host) (v : BitVec 256) {slot : Nat} (low : slot < 64) :
    exec (.registerWrite (0x10040 + 0x1000 * slot) 32 v) s = .next (withDev s
      (s.dev.onContext slot fun c => { c with mapReq := v })) := by
  have own : (0x10040 + 0x1000 * slot - 0x10000) / 0x1000 = slot := by omega
  have place : (0x10040 + 0x1000 * slot - 0x10000) % 0x1000 = 0x040 := by omega
  have host_ : ¬0x10040 + 0x1000 * slot < 0x20 + 16 := by omega
  have slots : ¬(0x10040 + 0x1000 * slot < 0x10000 ∨ 0x50000 ≤ 0x10040 + 0x1000 * slot) := by omega
  have value : ∀ old, BitVec.ofNat 256 (overwrite 32 old 0 (leBytes 32 v.toNat)) = v := by
    intro old
    refine BitVec.eq_of_toNat_eq ?_
    rw [overwrite_all]
    exact (BitVec.toNat_ofNat _ _).trans ((Nat.mod_mod _ _).trans (Nat.mod_eq_of_lt v.isLt))
  change execRegisterWrite (0x10040 + 0x1000 * slot) 32 v s = _
  unfold execRegisterWrite
  rw [runHost_eq]
  simp only [reached_iff.2 up, own, place, host_, decide_false, Bool.and_false]
  simp [value, slots, withDev]

/-! ## Bring-up and the host link -/

theorem serveLatched_none (quiet : d.latched = []) : d.serveLatched hp = d := by
  unfold Dev.serveLatched
  simp only [quiet, List.filter_nil, List.foldl_nil]
  rw [← quiet]

theorem functionReady_ready {n : Nat} (low : n < 42) (live : s.host.stopped = false) (booted : s.host.booted = true)
    (next_ : n = 0 ∨ s.host.ready.getLsbD 0 = true) (quiet : s.dev.latched = []) :
    exec (.functionReady n) s = .next { s with
      host := { s.host with ready := s.host.ready ||| 1#64 <<< n }, dev := s.dev.reportBoot (3 + n) } := by
  change execFunctionReady n s = _
  have may : (decide (42 ≤ n) || s.host.stopped || !s.host.booted || (n != 0 && !s.host.ready.getLsbD 0)) = false := by
    rw [live, booted]
    rcases next_ with first | usable
    · simp [first]
    · rw [usable]
      simp [low]
  unfold execFunctionReady
  rw [runHost_eq]
  simp only [may, Bool.false_eq_true, if_false, serveLatched_none quiet]

theorem functionReady_before_boot (n : Nat) (off : s.host.booted = false) : exec (.functionReady n) s = .next s := by
  change execFunctionReady n s = _
  unfold execFunctionReady
  rw [runHost_eq]
  simp only [off, Bool.not_false, Bool.or_true, Bool.true_or, if_true]

theorem fatalError_stops (reason : FatalReason) (live : s.host.stopped = false) :
    exec (.fatalError reason) s = .next { s with
      host := { s.host with stopped := true, ready := 0, nvme := some s.dev.stateDump }
      dev := { s.dev with dump := some s.dev.stateDump }.report 0x08 4 64 0 (leBytes 8 dumpBase) } := by
  change execFatalError reason s = _
  unfold execFatalError
  rw [runHost_eq]
  simp only [live, Bool.false_eq_true, if_false]

theorem securityCounterProgram_raises (v : BitVec 32) :
    exec (.securityCounterProgram v) s = .next { s with
      host := { s.host with fuse := if s.host.fuse.toNat < v.toNat then v else s.host.fuse } } := by
  change execSecurityCounterProgram v s = _
  unfold execSecurityCounterProgram
  rw [runHost_eq]
  by_cases higher : s.host.fuse.toNat < v.toNat
  · simp only [if_pos higher]
  · simp only [if_neg higher]

theorem hostLinkDown_down (up : s.host.linkUp = true) :
    exec .hostLinkDown s = .next { s with
      host := { s.host with linkUp := false }, dev := s.dev.report 0x0A 0 64 0 (leBytes 1 0) } := by
  change execHostLinkDown s = _
  unfold execHostLinkDown
  rw [runHost_eq]
  simp only [up, if_true]

theorem hostLinkUp_up (down : s.host.linkUp = false) :
    exec .hostLinkUp s = .next { s with
      host := { s.host with linkUp := true }
      dev := { s.dev with irqs := s.dev.irqs ++ s.dev.heldIrqs, heldIrqs := [] }.report 0x0A 0 64 0 (leBytes 1 1) } := by
  change execHostLinkUp s = _
  unfold execHostLinkUp
  rw [runHost_eq]
  simp only [down, Bool.false_eq_true, if_false]

/-- Settles O50: each event is its function's one equation where its guard holds, and leaves the state where it does not; a
register write is its bytes read back, and the frames that OPEN takes leave the contexts. -/
theorem hostFunctionResults : Obligations.HostFunctionResults := by
  unfold Obligations.HostFunctionResults
  refine ⟨?_, ?_⟩
  · intro s slot n
    refine ⟨doorbell_ignored, ?_, ?_, ?_, ?_, ?_, ?_, ?_, ?_⟩
    · intro up live active busy fresh
      rw [doorbell_heard up live active, busy]
      simp [fresh]
    · intro up live active ready bs d got st rd ok
      rw [doorbell_heard up live active, ready]
      exact congrArg (fun d => Host.Outcome.next (withDev s d)) (readDescriptor_taken got ok)
    · exact fun up idle groups roots d made => ctxOpen_opens up idle made
    · intro up how
      rcases how with ended | ⟨live, idle⟩
      · rw [ctxClose_closes up (.inr ended), ended]
        rfl
      · rw [ctxClose_closes up (.inl live), live, idle]
        rfl
    · intro up live busy
      rw [ctxClose_closes up (.inl live), live, busy]
      rfl
    · exact fun closing done => ⟨closeComplete_frees closing done, freeSlot_clears slot⟩
    · intro up idle started
      refine ⟨fun other => ?_, fun unmap => ?_⟩
      · exact congrArg (fun d => Host.Outcome.next (withDev s d)) (startRequest_started (undo := false) up idle (by simp [other]))
      · exact congrArg (fun d => Host.Outcome.next (withDev s d)) (startRequest_started (undo := true) up idle (by simp [unmap]))
    · exact fun busy live => ⟨fun d => mapDone_mapped busy live, mapDone_unmapped busy live, mapDone_refused busy live⟩
  · intro s
    exact ⟨featCommit_commits, fun value => featCommit_ignored,
      fun up v => ⟨registerWrite_accept up v,
        fun slot low => ⟨registerWrite_streamTable up v low, registerWrite_mapReq up v low⟩⟩,
      rfl, fun n low live booted next_ quiet => functionReady_ready low live booted next_ quiet,
      fun off n => functionReady_before_boot n off, fatalError_stops, securityCounterProgram_raises, hostLinkDown_down,
      hostLinkUp_up⟩

end Sys2Proof.Proofs
end

section

/-! PROOF. Page walks, the memory manager's services, and the fills of code segments (R76, R77, R80, R205, R397, R424, R429). -/

namespace Sys2Proof.Proofs

open Sys2Proof Sys2Proof.Machine Sys2Proof.Safety

variable {s : Machine.State} {d e : Dev} {hp : HostPart} {w : Warp} {a : Access}

/-! ## Walks -/

section
variable {id : Nat} (found : Table.find? s.dev.accesses id = some a) (fresh : a.pa = none) (well : a.cause = 0)
include found fresh well

theorem pageWalk_ok {pa : Nat} (free : a.parked = false)
    (clean : s.dev.walkPoisoned a.slot (dieOf (s.dev.partyCore a.party)) a.va.toNat = false)
    (got : s.dev.translate a.slot (s.dev.partyCore a.party) a.va.toNat a.want = .ok (pa, d)) :
    exec (.pageWalk id) s = .next (withDev s (d.setAccess id { a with pa := some pa })) := by
  change execPageWalk id s = _
  unfold execPageWalk
  rw [run_eq]
  simp only [found, fresh, well, free, clean, got, Option.isSome_none, Bool.or_false, bne_self_eq_false, Bool.false_eq_true, if_false]

theorem pageWalk_error {code : Nat} (free : a.parked = false)
    (clean : s.dev.walkPoisoned a.slot (dieOf (s.dev.partyCore a.party)) a.va.toNat = false)
    (failed : s.dev.translate a.slot (s.dev.partyCore a.party) a.va.toNat a.want = .error code) :
    exec (.pageWalk id) s = .next (withDev s
      ((s.dev.walked a.slot (s.dev.partyCore a.party) a.va.toNat a.want).failWalk s.host id a)) := by
  change execPageWalk id s = _
  unfold execPageWalk
  rw [run_eq]
  simp only [found, fresh, well, free, clean, failed, Option.isSome_none, Bool.or_false, bne_self_eq_false, Bool.false_eq_true,
    if_false]

end

theorem walked_rest (slot core va : Nat) (want : Want) :
    (d.walked slot core va want).warps = d.warps ∧ (d.walked slot core va want).accesses = d.accesses := by
  unfold Dev.walked
  split <;> exact ⟨rfl, rfl⟩

/-- A failed walk parks its lane, where the warp is not in handler mode. -/
theorem failWalk_parks {id n : Nat} (party : a.party = .warp n) (there : d.warp? n = some w) (outside : w.handler = none) :
    d.failWalk hp id a = { d with
      accesses := Table.set d.accesses id { a with parked := true }
      warps := Table.set d.warps n (w.park a.lane (d.parkedMates a ||| laneBit a.lane)) } := by
  have calm : d.nestFault hp n a.stamp (laneBit a.lane) a.pc a.va = d := by
    unfold Dev.nestFault
    simp only [there, outside]
  cases a
  cases party
  unfold Dev.failWalk
  simp only [calm, there, Option.isNone_some, Bool.false_eq_true, if_false]
  refine (onWarp_eq (w := w) ?_ _).trans rfl
  exact there

/-! ## Services -/

section
variable {id : Nat} (found : Table.find? s.dev.accesses id = some a) (fresh : a.pa = none) (well : a.cause = 0)
  (parked : a.parked = true) (unserved : a.served = false) (lane : a.lane < 32) (first : s.dev.servedAfter a = false)
include found fresh well parked unserved lane first

theorem pageService_ok {pa : Nat} (home : d.away a.party = false)
    (got : s.dev.reach s.host a.slot (s.dev.partyCore a.party) a.va.toNat a.want = (.ok pa, d)) :
    exec (.pageService id) s = .next (withDev s (d.reached id a pa)) := by
  have own : ¬a.lane = 32 := by omega
  change execPageService id s = _
  unfold execPageService
  rw [run_eq]
  simp only [found, fresh, well, parked, unserved, first, own, got, home, Bool.not_true, Option.isSome_none, Bool.or_false,
    bne_self_eq_false, Bool.false_eq_true, if_false]

theorem pageService_fault {code va : Nat}
    (failed : s.dev.reach s.host a.slot (s.dev.partyCore a.party) a.va.toNat a.want = (.error (.fault code va), d)) :
    exec (.pageService id) s = .next (withDev s (d.unresolved s.host id a)) := by
  have own : ¬a.lane = 32 := by omega
  change execPageService id s = _
  unfold execPageService
  rw [run_eq]
  simp only [found, fresh, well, parked, unserved, first, own, failed, Bool.not_true, Option.isSome_none, Bool.or_false,
    bne_self_eq_false, Bool.false_eq_true, if_false]

end

theorem addTransfers_frame (ts : List Transfer) :
    (d.addTransfers w ts).accesses = d.accesses ∧ (d.addTransfers w ts).mem = d.mem := by
  unfold Dev.addTransfers
  split <;> exact ⟨rfl, rfl⟩

theorem settleWarp_frame (id : Nat) : (d.settleWarp id).accesses = d.accesses ∧ (d.settleWarp id).mem = d.mem := by
  unfold Dev.settleWarp
  split
  · exact ⟨rfl, rfl⟩
  · dsimp only
    split
    · exact addTransfers_frame _
    · exact addTransfers_frame _

theorem served_frame (id : Nat) : (d.served id).accesses = d.accesses ∧ (d.served id).mem = d.mem := by
  unfold Dev.served
  split <;> exact ⟨rfl, rfl⟩

theorem allWaiting_none {m : Mask} {st : SplitState} (other : ∀ x ∈ w.splits, x.state ≠ st) : w.allWaiting m st = none := by
  unfold Warp.allWaiting
  split
  · rfl
  · next x xs here =>
    have inside : x ∈ w.splits := List.mem_of_mem_filter (here ▸ List.mem_cons_self)
    exact if_neg fun all => other x inside (by simpa using (Bool.and_eq_true_iff.1 (List.all_eq_true.1 all x List.mem_cons_self)).1)

/-- A warp with no join open and no split at a `wsync` stays as it is. -/
theorem settleWarp_still {id : Nat} (there : d.warp? id = some w) (noJoin : w.join = []) (calm : ∀ x ∈ w.splits, x.state ≠ .wsync) :
    d.settleWarp id = d.setWarp id w := by
  have joined : ∀ parked, w.settleJoin id parked = (w, []) := by
    intro parked
    unfold Warp.settleJoin
    rw [noJoin]
    change ({ w with join := [] }, []) = _
    rw [← noJoin]
  have synced : ∀ parked, w.settleWsync id parked = (w, false, []) := by
    intro parked
    unfold Warp.settleWsync
    rw [allWaiting_none calm, ite_self]
  unfold Dev.settleWarp
  simp only [there, joined, synced]
  rfl

theorem served_warp {id : Nat} (there : d.warp? id = some w) :
    ∃ w', (d.served id).warp? id = some w' ∧ w'.threads = w.threads ∧ w'.splits = w.splits := by
  unfold Dev.served
  split
  · exact ⟨w, there, rfl, rfl⟩
  · rw [onWarp_eq there]
    exact ⟨_, Table.find?_set_self _ _ _, rfl, rfl⟩

/-- R397: what a service leaves of a split that holds its lane. -/
def unparked (d : Dev) (id lane : Nat) (x : Split) : Split :=
  if x.mask.getLsbD lane && (lanesOf x.mask).all fun l =>
      !d.accesses.any fun e => e.2.party == Party.warp id && e.2.lane == l && e.2.parked then
    { x with state := x.state.unpark }
  else x

theorem unparked_wsync {id lane : Nat} {x : Split} (other : x.state ≠ .wsync) : (unparked d id lane x).state ≠ .wsync := by
  unfold unparked
  split
  · change x.state.unpark ≠ _
    cases state : x.state <;> simp_all [SplitState.unpark]
  · exact other

theorem unparked_eq {id lane : Nat} (x : Split) :
    unparked d id lane x =
      if x.mask.getLsbD lane = true ∧
          ¬∃ l ∈ lanesOf x.mask, ∃ e ∈ d.accesses, e.2.party = .warp id ∧ e.2.lane = l ∧ e.2.parked = true then
        { x with state := match x.state with
          | .parked => .ready
          | .parkedAt bar => .barrier bar
          | st => st }
      else x := by
  unfold unparked
  refine if_congr ?_ ?_ rfl
  · rw [Bool.and_eq_true, List.all_eq_true]
    refine and_congr_right fun _ => ?_
    push Not
    refine forall₂_congr fun l _ => ?_
    rw [Bool.not_eq_true', List.any_eq_false]
    refine forall₂_congr fun e _ => ?_
    simp [and_assoc]
  · cases x.state <;> rfl

theorem onSplits_splits (f : Split → Split) : (w.onSplits f).splits = w.splits.map f := by
  unfold Warp.onSplits Warp.splits
  cases w.cur <;> simp

theorem reached_access {id n pa : Nat} (party : a.party = .warp n) :
    (d.reached id a pa).accesses = Table.set d.accesses id { a with pa := some pa, parked := false, served := false } ∧
      (d.reached id a pa).mem = d.mem := by
  cases a
  cases party
  unfold Dev.reached
  dsimp only
  rw [(served_frame n).1, (served_frame n).2, (settleWarp_frame n).1, (settleWarp_frame n).2]
  exact ⟨rfl, rfl⟩

/-- A served lane's split goes on, in a warp with no join open and no split at a `wsync`. -/
theorem reached_warp {id n pa : Nat} (party : a.party = .warp n) (there : d.warp? n = some w) (noJoin : w.join = [])
    (calm : ∀ x ∈ w.splits, x.state ≠ .wsync) :
    ∃ w', (d.reached id a pa).warp? n = some w' ∧ w'.threads = w.threads ∧
      w'.splits = w.splits.map (unparked (d.reached id a pa) n a.lane) := by
  let given : Dev := d.setAccess id { a with pa := some pa, parked := false, served := false }
  have same : ∀ x, unparked (d.reached id a pa) n a.lane x = unparked given n a.lane x := by
    intro x
    unfold unparked
    rw [(reached_access party).1]
    rfl
  have freed : given.unpark n a.lane = given.setWarp n (w.onSplits (unparked given n a.lane)) :=
    onWarp_eq (d := given) there fun w => w.onSplits (unparked given n a.lane)
  have still : (given.unpark n a.lane).settleWarp n =
      (given.unpark n a.lane).setWarp n (w.onSplits (unparked given n a.lane)) := by
    refine settleWarp_still (by rw [freed]; exact Table.find?_set_self _ _ _) noJoin ?_
    intro x inside
    rw [onSplits_splits] at inside
    obtain ⟨y, before, rfl⟩ := List.mem_map.1 inside
    exact unparked_wsync (calm y before)
  obtain ⟨w', now, threads, splits⟩ := served_warp (d := (given.unpark n a.lane).settleWarp n)
    (w := w.onSplits (unparked given n a.lane)) (id := n) (by rw [still]; exact Table.find?_set_self _ _ _)
  refine ⟨w', ?_, threads, ?_⟩
  · cases a
    cases party
    exact now
  · rw [splits, onSplits_splits]
    exact List.map_congr_left fun x _ => (same x).symm

theorem unresolved_posts {id n : Nat} (party : a.party = .warp n) (there : d.warp? n = some w) (live : w.threads ≠ [])
    (first : ∀ p ∈ w.posted, p.stamp ≠ a.stamp) :
    d.unresolved hp id a = { d with
      accesses := Table.set d.accesses id { a with cause := 0x0D, served := true }
      warps := Table.set d.warps n { w with posted := w.posted ++
        [⟨a.stamp, if w.handler.isSome then 0x0C else 0x0D, 0, 0, laneBit a.lane, a.pc, a.ea, 0, []⟩] } } := by
  have unposted : (w.posted.any fun p => p.stamp == a.stamp) = false := by
    rw [List.any_eq_false]
    exact fun p inside => by simpa using first p inside
  have threads : w.threads.isEmpty = false := by simpa using live
  cases a
  cases party
  unfold Dev.unresolved
  simp only [there, threads, unposted, Bool.false_eq_true, if_false]
  refine (onWarp_eq (w := w) ?_ _).trans rfl
  exact there

/-! ## Code segments -/

theorem pageSegment_none {c : Core} {slot page : Nat} {st : SegmentState} (busy : st ≠ .free)
    (free : ∀ e ∈ c.segments, e.2.slot = slot → e.2.page = page → e.2.state = .free) : c.pageSegment slot page st = none := by
  unfold Core.pageSegment
  rw [Option.map_eq_none_iff, List.find?_eq_none]
  intro e inside hit
  simp only [Bool.and_eq_true, beq_iff_eq] at hit
  obtain ⟨⟨state, own⟩, here⟩ := hit
  exact busy (state.symm.trans (free e inside own here))

/-- The least of a list by a number, the first of several, as the model's fold finds it. -/
def leastOf (f : Nat → Nat) (best : Option Nat) (n : Nat) : Option Nat :=
  match best with
  | none => some n
  | some m => if f n < f m then some n else some m

theorem leastOf_least {f : Nat → Nat} {ns : List Nat} {best : Option Nat} {r : Nat} (found : ns.foldl (leastOf f) best = some r) :
    (r ∈ ns ∨ best = some r) ∧ (∀ m ∈ ns, f r ≤ f m) ∧ ∀ b, best = some b → f r ≤ f b := by
  induction ns generalizing best with
  | nil =>
    change best = some r at found
    refine ⟨.inr found, fun m inside => (by cases inside), fun b same => ?_⟩
    rw [found] at same
    cases same
    exact Nat.le_refl _
  | cons n ns ih =>
    obtain ⟨source, least, below⟩ := ih found
    cases best with
    | none =>
      have head := below n rfl
      refine ⟨?_, List.forall_mem_cons.2 ⟨head, least⟩, fun b same => by cases same⟩
      rcases source with later | now
      · exact .inl (List.mem_cons_of_mem _ later)
      · cases now
        exact .inl List.mem_cons_self
    | some b =>
      by_cases less : f n < f b
      · have chosen : leastOf f (some b) n = some n := if_pos less
        have head := below n chosen
        refine ⟨?_, List.forall_mem_cons.2 ⟨head, least⟩, fun c same => by cases same; omega⟩
        rcases source with later | now
        · exact .inl (List.mem_cons_of_mem _ later)
        · rw [chosen] at now
          cases now
          exact .inl List.mem_cons_self
      · have chosen : leastOf f (some b) n = some b := if_neg less
        have head := below b chosen
        refine ⟨?_, List.forall_mem_cons.2 ⟨by omega, least⟩, fun c same => by cases same; exact head⟩
        rcases source with later | now
        · exact .inl (List.mem_cons_of_mem _ later)
        · rw [chosen] at now
          exact .inr now

theorem victim_least {core n : Nat} (found : d.victim core = some n) :
    d.takeable core n = true ∧
      ∀ m < 48, d.takeable core m = true → ((d.core core).segment n).used ≤ ((d.core core).segment m).used := by
  have fold : ((List.range 48).filter (d.takeable core)).foldl (leastOf fun m => ((d.core core).segment m).used) none = some n := by
    refine Eq.trans ?_ found
    unfold Dev.victim
    refine congrArg (fun f => List.foldl f none _) ?_
    funext best m
    cases best <;> rfl
  obtain ⟨source, least, -⟩ := leastOf_least fold
  refine ⟨?_, fun m low able => least m (List.mem_filter.2 ⟨List.mem_range.2 low, able⟩)⟩
  rcases source with inside | never
  · exact (List.mem_filter.1 inside).2
  · cases never

theorem demandFill_starts {core slot n : Nat} {page : BitVec 45} (wanted : s.dev.codeWanted core slot page.toNat = true)
    (settled : (s.dev.core core).missed slot page.toNat = false)
    (free : ∀ e ∈ (s.dev.core core).segments, e.2.slot = slot → e.2.page = page.toNat → e.2.state = .free)
    (found : s.dev.victim core = some n) :
    exec (.demandFill core slot page) s = .next (withDev s (s.dev.onCore core fun c =>
      c.onSegment n fun g => ⟨.filling, slot, page.toNat, 0, false, g.used, true, none⟩)) := by
  change execDemandFill core slot page s = _
  unfold execDemandFill Dev.demandFill
  rw [run_eq]
  simp only [wanted, settled, pageSegment_none (st := .valid) (by decide) free, pageSegment_none (st := .filling) (by decide) free,
    found, Bool.not_false, Bool.and_self, if_true, Option.isSome_none, Bool.or_false, Bool.false_eq_true, if_false]
  rfl

theorem codeFillLands_valid {core n pa : Nat} (filling : ((s.dev.core core).segment n).state = .filling)
    (free : ((s.dev.core core).segment n).held = none)
    (got : s.dev.reach s.host ((s.dev.core core).segment n).slot core (((s.dev.core core).segment n).page * 4096) .exec =
      (.ok pa, d)) :
    exec (.codeFillLands core n) s = .next (withDev s (d.onCore core fun c =>
      c.onSegment n fun g => { g with state := .valid, pa := pa, used := d.clockOf core })) := by
  change execCodeFillLands core n s = _
  unfold execCodeFillLands
  rw [run_eq]
  simp only [filling, free, got, bne_self_eq_false, Option.isSome_none, Bool.or_false, Bool.false_eq_true, if_false]

theorem codeFillLands_fault {core n code va : Nat} (filling : ((s.dev.core core).segment n).state = .filling)
    (free : ((s.dev.core core).segment n).held = none)
    (got : s.dev.reach s.host ((s.dev.core core).segment n).slot core (((s.dev.core core).segment n).page * 4096) .exec =
      (.error (.fault code va), d)) (asked : ((s.dev.core core).segment n).demand = false) :
    exec (.codeFillLands core n) s = .next (withDev s (d.onCore core fun c =>
      c.onSegment n fun g => { g with state := .free, fault := true })) := by
  change execCodeFillLands core n s = _
  unfold execCodeFillLands
  rw [run_eq]
  simp only [filling, free, got, asked, bne_self_eq_false, Option.isSome_none, Bool.or_false, Bool.false_eq_true, if_false]

/-- Settles O36: a walk and a service each take the branch that their translation gives; a warp with no join open and no split
at a `wsync` is settled already, so that a served lane's split goes on; and a demand fill's fold keeps the least recently used
segment. -/
theorem pageResults : Obligations.PageResults := by
  unfold Obligations.PageResults
  refine ⟨?_, ?_⟩
  · intro s id a found fresh well core
    refine ⟨fun free clean => ⟨fun pa d got => ?_, fun code n w failed party there outside => ?_⟩,
      fun parked unserved lane first => ⟨fun pa d n got party home => ?_, fun code n va d w failed party there live unposted => ?_⟩⟩
    · exact pageWalk_ok found fresh well free clean got
    · rw [pageWalk_error found fresh well free clean failed]
      obtain ⟨warps, accesses⟩ := walked_rest (d := s.dev) a.slot core a.va.toNat a.want
      have now : (s.dev.walked a.slot core a.va.toNat a.want).warp? n = some w := by
        unfold Dev.warp?
        rw [warps]
        exact there
      have mates : (s.dev.walked a.slot core a.va.toNat a.want).parkedMates a = s.dev.parkedMates a := by
        unfold Dev.parkedMates
        rw [accesses]
      refine congrArg (fun d => Host.Outcome.next (withDev s d)) ((failWalk_parks party now outside).trans ?_)
      rw [warps, accesses, mates]
    · refine ⟨withDev s (d.reached id a pa), pageService_ok found fresh well parked unserved lane first home got,
        (reached_access party).1, (reached_access party).2, ?_⟩
      intro w there noJoin calm
      obtain ⟨w', now, threads, splits⟩ := reached_warp (id := id) (pa := pa) party there noJoin calm
      exact ⟨w', now, threads, splits.trans (List.map_congr_left fun x _ => unparked_eq x)⟩
    · rw [pageService_fault found fresh well parked unserved lane first failed]
      exact congrArg (fun d => Host.Outcome.next (withDev s d)) (unresolved_posts party there live unposted)
  · intro s core
    refine ⟨fun slot n page wanted settled free found => ⟨demandFill_starts wanted settled free found, victim_least found⟩, ?_⟩
    intro n filling free g
    exact ⟨fun pa d got => codeFillLands_valid filling free got, fun code va d got asked => codeFillLands_fault filling free got asked⟩

end Sys2Proof.Proofs
end

section

/-! PROOF. Rounding (R83, R87, R88, R171): the finite values of a format rise with their encodings, a number lies between two
neighbours of that row, and each mode takes the one that it names. -/

namespace Sys2Proof.Proofs

open Sys2Proof Sys2Proof.Machine Sys2Proof.Safety

variable {f : FloatFormat}

/-! ## The row of a format's magnitudes -/

/-- A format with an infinity, a fraction and normal numbers. -/
def HasInfinity (f : FloatFormat) : Prop := f.e4m3 = false ∧ 1 ≤ f.fb ∧ 2 ≤ f.eb

theorem hasInfinity_of_mem (inside : f ∈ [fmtFp64, fmtFp32, fmtFp16, fmtBf16, fmtE5m2]) : HasInfinity f := by
  simp only [List.mem_cons, List.not_mem_nil, or_false] at inside
  rcases inside with rfl | rfl | rfl | rfl | rfl <;> exact ⟨rfl, by decide, by decide⟩

/-- The significand that a magnitude's encoding stands for. -/
def significand (f : FloatFormat) (n : Nat) : Nat := if n / 2 ^ f.fb = 0 then n % 2 ^ f.fb else 2 ^ f.fb + n % 2 ^ f.fb

/-- The exponent of a magnitude's last place. -/
def placeOf (f : FloatFormat) (n : Nat) : Int := f.qmin + (n / 2 ^ f.fb - 1 : Nat)

/-- The value of a magnitude's encoding, as if the exponents had no end. -/
def magnitude (f : FloatFormat) (n : Nat) : Rat := significand f n * (2 : Rat) ^ placeOf f n

theorem place_pos (q : Int) : (0 : Rat) < (2 : Rat) ^ q := zpow_pos (by norm_num) q

/-- Within one exponent, the magnitude of an encoding is its fraction's. -/
theorem magnitude_within {j t : Nat} (low : t < 2 ^ (f.fb + 1)) (normal : j = 0 ∨ 2 ^ f.fb ≤ t) :
    significand f (j * 2 ^ f.fb + t) = t ∧ placeOf f (j * 2 ^ f.fb + t) = f.qmin + j := by
  have unit : 0 < 2 ^ f.fb := Nat.two_pow_pos _
  unfold significand placeOf
  by_cases small : t < 2 ^ f.fb
  · have first : j = 0 := by omega
    subst first
    rw [Nat.zero_mul, Nat.zero_add, Nat.div_eq_of_lt small, if_pos rfl, Nat.mod_eq_of_lt small]
    simp
  · obtain ⟨r, rfl⟩ : ∃ r, t = 2 ^ f.fb + r := ⟨t - 2 ^ f.fb, by omega⟩
    have inside : r < 2 ^ f.fb := by rw [Nat.pow_succ] at low; omega
    have form : j * 2 ^ f.fb + (2 ^ f.fb + r) = r + 2 ^ f.fb * (j + 1) := by ring
    rw [form, Nat.add_mul_div_left _ _ unit, Nat.add_mul_mod_self_left, Nat.div_eq_of_lt inside, Nat.mod_eq_of_lt inside]
    simp

/-- The next magnitude is one unit of the last place higher. -/
theorem magnitude_succ (n : Nat) : magnitude f (n + 1) = magnitude f n + (2 : Rat) ^ placeOf f n := by
  have unit : 0 < 2 ^ f.fb := Nat.two_pow_pos _
  obtain ⟨j, r, inside, rfl⟩ : ∃ j r, r < 2 ^ f.fb ∧ n = j * 2 ^ f.fb + r :=
    ⟨n / 2 ^ f.fb, n % 2 ^ f.fb, Nat.mod_lt _ unit, by rw [Nat.mul_comm]; exact (Nat.div_add_mod _ _).symm⟩
  have double : 2 ^ (f.fb + 1) = 2 ^ f.fb + 2 ^ f.fb := by rw [Nat.pow_succ]; omega
  unfold magnitude
  cases j with
  | zero =>
    obtain ⟨sig, place⟩ := magnitude_within (f := f) (j := 0) (t := r) (by omega) (.inl rfl)
    obtain ⟨sigNext, placeNext⟩ := magnitude_within (f := f) (j := 0) (t := r + 1) (by omega) (.inl rfl)
    rw [Nat.add_assoc, sig, place, sigNext, placeNext]
    push_cast
    ring
  | succ j =>
    have form : (j + 1) * 2 ^ f.fb + r = j * 2 ^ f.fb + (2 ^ f.fb + r) := by ring
    obtain ⟨sig, place⟩ := magnitude_within (f := f) (j := j) (t := 2 ^ f.fb + r) (by omega) (.inr (by omega))
    rw [form, sig, place]
    by_cases last : r + 1 < 2 ^ f.fb
    · obtain ⟨sigNext, placeNext⟩ := magnitude_within (f := f) (j := j) (t := 2 ^ f.fb + (r + 1)) (by omega) (.inr (by omega))
      rw [show j * 2 ^ f.fb + (2 ^ f.fb + r) + 1 = j * 2 ^ f.fb + (2 ^ f.fb + (r + 1)) by ring, sigNext, placeNext]
      push_cast
      ring
    · have full : r + 1 = 2 ^ f.fb := by omega
      obtain ⟨sigNext, placeNext⟩ := magnitude_within (f := f) (j := j + 1) (t := 2 ^ f.fb) (by omega) (.inr (by omega))
      rw [show j * 2 ^ f.fb + (2 ^ f.fb + r) + 1 = (j + 1) * 2 ^ f.fb + 2 ^ f.fb by rw [Nat.add_one_mul]; omega, sigNext, placeNext]
      have value : (r : Rat) + 1 = 2 ^ f.fb := by exact_mod_cast full
      push_cast
      rw [← add_assoc, zpow_add_one₀ (by norm_num : (2 : Rat) ≠ 0), ← value]
      ring

theorem magnitude_strictMono (f : FloatFormat) : StrictMono (magnitude f) :=
  strictMono_nat_of_lt_succ fun n => by
    rw [magnitude_succ]
    exact lt_add_of_pos_right _ (place_pos _)

theorem magnitude_nonneg (n : Nat) : 0 ≤ magnitude f n := mul_nonneg (Nat.cast_nonneg _) (place_pos _).le

/-! ## What encodings stand for -/

/-- A sign on a magnitude. -/
def signed (neg : Bool) (v : Rat) : Rat := if neg then -v else v

theorem rational_fin (neg : Bool) (m : Nat) (e : Int) : rational (.fin neg m e false) = signed neg (m * (2 : Rat) ^ e) := by
  unfold rational signed
  cases neg <;> simp

theorem largest_succ (wide : HasInfinity f) : f.largest + 1 = (2 ^ f.eb - 1) * 2 ^ f.fb := by
  obtain ⟨binary, -, exps⟩ := wide
  have many : 2 ^ 2 ≤ 2 ^ f.eb := Nat.pow_le_pow_right (by decide) exps
  have nonempty : 0 < (2 ^ f.eb - 1) * 2 ^ f.fb := Nat.mul_pos (by omega) (Nat.two_pow_pos _)
  unfold FloatFormat.largest
  rw [binary]
  simp only [Bool.false_eq_true, if_false]
  omega

theorem largest_lt (wide : HasInfinity f) : f.largest < 2 ^ (f.eb + f.fb) := by
  have top := largest_succ wide
  have less : (2 ^ f.eb - 1) * 2 ^ f.fb ≤ 2 ^ f.eb * 2 ^ f.fb := Nat.mul_le_mul_right _ (Nat.sub_le _ _)
  rw [Nat.pow_add]
  omega

/-- What an encoding stands for, by its sign and its magnitude. -/
theorem decode_parts (wide : HasInfinity f) (neg : Bool) {n : Nat} (inside : n < 2 ^ (f.eb + f.fb)) :
    f.decode (f.sign neg + n) =
      if n / 2 ^ f.fb = 2 ^ f.eb - 1 then
        if n % 2 ^ f.fb = 0 then .inf neg else .nan (f.canSignal && decide (n % 2 ^ f.fb < 2 ^ (f.fb - 1)))
      else .fin neg (significand f n) (placeOf f n) false := by
  have bits : 2 ^ f.bits = 2 ^ (f.eb + f.fb) + 2 ^ (f.eb + f.fb) := by
    unfold FloatFormat.bits
    rw [show 1 + f.eb + f.fb = f.eb + f.fb + 1 by omega, Nat.pow_succ]
    omega
  have whole : (f.sign neg + n) % 2 ^ f.bits = f.sign neg + n := by
    refine Nat.mod_eq_of_lt ?_
    rw [bits]
    unfold FloatFormat.sign
    split <;> omega
  have sign : decide (2 ^ (f.eb + f.fb) ≤ f.sign neg + n) = neg := by
    unfold FloatFormat.sign
    cases neg
    · simp only [Bool.false_eq_true, if_false, Nat.zero_add, decide_eq_false_iff_not]
      omega
    · simp
  have rest : (f.sign neg + n) % 2 ^ (f.eb + f.fb) = n := by
    unfold FloatFormat.sign
    cases neg
    · simp only [Bool.false_eq_true, if_false, Nat.zero_add]
      exact Nat.mod_eq_of_lt inside
    · simp only [if_true, Nat.add_mod_left]
      exact Nat.mod_eq_of_lt inside
  unfold FloatFormat.decode
  simp only [whole, sign, rest, wide.1, Bool.false_eq_true, if_false]
  refine if_congr Iff.rfl rfl ?_
  unfold significand placeOf
  split
  · next zero => rw [zero]; simp
  · rfl

/-- The encoding of a sign and a finite magnitude stands for that number. -/
theorem decode_sign (wide : HasInfinity f) (neg : Bool) {n : Nat} (finite : n ≤ f.largest) :
    f.decode (f.sign neg + n) = .fin neg (significand f n) (placeOf f n) false := by
  have top := largest_succ wide
  have exps : n / 2 ^ f.fb < 2 ^ f.eb - 1 := by
    rw [Nat.div_lt_iff_lt_mul (Nat.two_pow_pos _)]
    omega
  rw [decode_parts wide neg (finite.trans_lt (largest_lt wide)), if_neg exps.ne]

theorem rational_sign (neg : Bool) (n : Nat) :
    rational (.fin neg (significand f n) (placeOf f n) false) = signed neg (magnitude f n) := rational_fin _ _ _

theorem abs_signed (neg : Bool) {v : Rat} (whole : 0 ≤ v) : |signed neg v| = v := by
  unfold signed
  cases neg <;> simp [abs_of_nonneg whole]

/-- Every finite value of the format is a magnitude up to the largest, with a sign. -/
theorem magnitude_of_finite (wide : HasInfinity f) {y : Rat} (finite : FiniteIn f y) :
    ∃ n ≤ f.largest, |y| = magnitude f n := by
  obtain ⟨c, neg, m, e, low, decoded, rfl⟩ := finite
  obtain ⟨sg, n, inside, rfl⟩ : ∃ sg n, n < 2 ^ (f.eb + f.fb) ∧ c = f.sign sg + n := by
    have bits : 2 ^ f.bits = 2 ^ (f.eb + f.fb) + 2 ^ (f.eb + f.fb) := by
      unfold FloatFormat.bits
      rw [show 1 + f.eb + f.fb = f.eb + f.fb + 1 by omega, Nat.pow_succ]
      omega
    unfold FloatFormat.sign
    by_cases high : 2 ^ (f.eb + f.fb) ≤ c
    · exact ⟨true, c - 2 ^ (f.eb + f.fb), by omega, by simp; omega⟩
    · exact ⟨false, c, by omega, by simp⟩
  rw [decode_parts wide sg inside] at decoded
  split at decoded
  · split at decoded <;> cases decoded
  · next below =>
    cases decoded
    refine ⟨n, ?_, ?_⟩
    · have exps : n / 2 ^ f.fb < 2 ^ f.eb - 1 := by
        have : n / 2 ^ f.fb < 2 ^ f.eb := (Nat.div_lt_iff_lt_mul (Nat.two_pow_pos _)).2 (by rw [← Nat.pow_add]; exact inside)
        omega
      have top := largest_succ wide
      rw [Nat.div_lt_iff_lt_mul (Nat.two_pow_pos _)] at exps
      omega
    · rw [rational_sign, abs_signed _ (magnitude_nonneg n)]

/-! ## Rounding to whole units -/

/-- R87: whether a mode rounds a magnitude up, by its distances from the two neighbours and by the lower one's parity. -/
def GoesUp (mode : Nat) (neg : Bool) (n : Nat) (below above : Rat) : Prop :=
  match mode with
  | 0 => above < below ∨ (above = below ∧ n % 2 = 1)
  | 1 => False
  | 2 => below ≠ 0 ∧ neg = true
  | _ => below ≠ 0 ∧ neg = false

theorem goesUp_exact {mode n : Nat} {neg : Bool} {above : Rat} (succHere : 0 < above) : ¬GoesUp mode neg n 0 above := by
  unfold GoesUp
  split
  · rintro (less | ⟨same, -⟩) <;> linarith
  · exact id
  · exact fun up => up.1 rfl
  · exact fun up => up.1 rfl

/-- A magnitude of `m` parts of a unit, `2 ^ k` of them in each, rounded to whole units. -/
theorem roundUnits_spec (mode : Nat) (neg : Bool) (m k : Nat) (part : 0 < k) :
    ∃ up : Bool, roundUnits mode neg m k false = (if up then m / 2 ^ k + 1 else m / 2 ^ k, m % 2 ^ k != 0) ∧
      (up = true ↔ GoesUp mode neg (m / 2 ^ k) (m % 2 ^ k : Nat) (2 ^ k - (m % 2 ^ k : Nat))) := by
  have rest : m - (m / 2 ^ k) <<< k = m % 2 ^ k := by
    rw [Nat.shiftLeft_eq, Nat.mul_comm, ← Nat.mod_eq_sub_mul_div]
  have half : (2 : Rat) ^ k = 2 * (2 ^ (k - 1) : Nat) := by
    obtain ⟨j, rfl⟩ : ∃ j, k = j + 1 := ⟨k - 1, by omega⟩
    push_cast
    exact pow_succ' 2 j
  have less : ((2 : Rat) ^ k - (m % 2 ^ k : Nat) < (m % 2 ^ k : Nat)) ↔ 2 ^ (k - 1) < m % 2 ^ k := by
    rw [half, sub_lt_iff_lt_add, ← two_mul, mul_lt_mul_iff_right₀ (by norm_num), Nat.cast_lt]
  have same : ((2 : Rat) ^ k - (m % 2 ^ k : Nat) = (m % 2 ^ k : Nat)) ↔ m % 2 ^ k = 2 ^ (k - 1) := by
    rw [half, sub_eq_iff_eq_add, ← two_mul, mul_right_inj' (by norm_num), Nat.cast_inj, eq_comm]
  unfold roundUnits
  simp only [Nat.shiftRight_eq_div_pow, rest, part.ne', if_false, Nat.one_shiftLeft, Bool.or_false, Bool.false_or]
  refine ⟨_, rfl, ?_⟩
  unfold GoesUp
  match mode with
  | 0 => simp [part.ne', less, same]
  | 1 => simp
  | 2 => simp
  | n + 3 => simp

/-- Scaling both distances by one positive unit changes no mode's choice. -/
theorem goesUp_scale {mode n : Nat} {neg : Bool} {below above c : Rat} (pos : 0 < c) :
    GoesUp mode neg n (below * c) (above * c) ↔ GoesUp mode neg n below above := by
  unfold GoesUp
  split
  · rw [mul_lt_mul_iff_left₀ pos, mul_left_inj' pos.ne']
  · exact Iff.rfl
  · rw [mul_ne_zero_iff_right pos.ne']
  · rw [mul_ne_zero_iff_right pos.ne']

/-- R87: a number rounded at the place `q`: the unit below it or the next one, as its mode says, and whether it lies between. -/
theorem roundAt_spec (mode : Nat) (neg : Bool) (m : Nat) (e q : Int) :
    ∃ (t : Nat) (up : Bool), roundAt mode neg m e false q =
        (if up then t + 1 else t, decide ((m : Rat) * 2 ^ e - t * 2 ^ q ≠ 0)) ∧
      (t : Rat) * 2 ^ q ≤ m * 2 ^ e ∧ (m : Rat) * 2 ^ e < (t + 1) * 2 ^ q ∧
      (up = true ↔ GoesUp mode neg t ((m : Rat) * 2 ^ e - t * 2 ^ q) ((t + 1) * 2 ^ q - (m : Rat) * 2 ^ e)) := by
  have two : (2 : Rat) ≠ 0 := by norm_num
  unfold roundAt
  by_cases fine : q ≤ e
  · have scaled : ((m <<< (e - q).toNat : Nat) : Rat) * 2 ^ q = m * 2 ^ e := by
      have shift : (2 : Rat) ^ (e - q).toNat * 2 ^ q = 2 ^ e := by
        rw [← zpow_natCast, ← zpow_add₀ two, Int.toNat_of_nonneg (by omega), sub_add_cancel]
      rw [Nat.shiftLeft_eq]
      push_cast
      rw [mul_assoc, shift]
    rw [if_pos fine]
    refine ⟨m <<< (e - q).toNat, false, ?_, scaled.le, ?_, ?_⟩
    · simp [scaled]
    · rw [add_mul, scaled, one_mul]
      exact lt_add_of_pos_right _ (place_pos q)
    · rw [scaled, sub_self, add_mul, scaled, one_mul, add_sub_cancel_left]
      exact iff_of_false (by decide) (goesUp_exact (place_pos q))
  · rw [if_neg fine]
    obtain ⟨up, rounded, rises⟩ := roundUnits_spec mode neg m (q - e).toNat (by omega)
    generalize deep : (q - e).toNat = k at rounded rises
    have shift : (2 : Rat) ^ q = 2 ^ k * 2 ^ e := by
      rw [← deep, ← zpow_natCast, ← zpow_add₀ two, Int.toNat_of_nonneg (by omega), sub_add_cancel]
    have digits : (m : Rat) = (m / 2 ^ k : Nat) * 2 ^ k + (m % 2 ^ k : Nat) := by
      have parts := Nat.div_add_mod m (2 ^ k)
      rw [Nat.mul_comm] at parts
      exact_mod_cast parts.symm
    have rest : (m % 2 ^ k : Nat) < (2 : Rat) ^ k := by exact_mod_cast Nat.mod_lt m (Nat.two_pow_pos k)
    have below : (m : Rat) * 2 ^ e - (m / 2 ^ k : Nat) * 2 ^ q = (m % 2 ^ k : Nat) * 2 ^ e := by
      rw [shift]
      linear_combination (2 : Rat) ^ e * digits
    have above : ((m / 2 ^ k : Nat) + 1) * (2 : Rat) ^ q - m * 2 ^ e = (2 ^ k - (m % 2 ^ k : Nat)) * 2 ^ e := by
      rw [shift]
      linear_combination -(2 : Rat) ^ e * digits
    refine ⟨m / 2 ^ k, up, ?_, ?_, ?_, ?_⟩
    · have whole : ((m % 2 ^ k : Nat) * (2 : Rat) ^ e ≠ 0) ↔ m % 2 ^ k ≠ 0 :=
        (mul_ne_zero_iff_right (place_pos e).ne').trans Nat.cast_ne_zero
      rw [rounded, below]
      refine congrArg (Prod.mk _) ?_
      rw [Bool.eq_iff_iff, bne_iff_ne, decide_eq_true_iff]
      exact whole.symm
    · rw [← sub_nonneg, below]
      positivity
    · rw [← sub_pos, above]
      exact mul_pos (by linarith) (place_pos e)
    · rw [below, above, goesUp_scale (place_pos e)]
      exact rises

/-! ## Rounding into a format -/

theorem lt_bitLength (m : Nat) : m < 2 ^ bitLength m := by
  unfold bitLength
  split
  · next zero => rw [zero]; decide
  · exact Nat.lt_log2_self

theorem bitLength_le {m : Nat} (pos : 0 < m) : 2 ^ bitLength m ≤ 2 * m := by
  unfold bitLength
  rw [if_neg pos.ne', Nat.pow_succ, Nat.mul_comm]
  exact Nat.mul_le_mul_left 2 (Nat.log2_self_le pos.ne')

/-- The place at which a number is rounded (R87). -/
def roundPlace (f : FloatFormat) (m : Nat) (e : Int) : Int := max (e + bitLength m - (f.fb + 1 : Nat)) f.qmin

/-- At its place a number has at most the digits of the format, and all of them above the last place. -/
theorem roundPlace_digits {m t : Nat} {e : Int} (pos : 0 < m) (low : (t : Rat) * 2 ^ roundPlace f m e ≤ m * 2 ^ e)
    (high : (m : Rat) * 2 ^ e < (t + 1) * 2 ^ roundPlace f m e) :
    t < 2 ^ (f.fb + 1) ∧ (roundPlace f m e = f.qmin ∨ 2 ^ f.fb ≤ t) := by
  have two : (2 : Rat) ≠ 0 := by norm_num
  have place := place_pos (roundPlace f m e)
  refine ⟨?_, ?_⟩
  · have upper : (m : Rat) * 2 ^ e < 2 ^ (f.fb + 1) * 2 ^ roundPlace f m e := by
      calc (m : Rat) * 2 ^ e < 2 ^ bitLength m * 2 ^ e := mul_lt_mul_of_pos_right (by exact_mod_cast lt_bitLength m) (place_pos e)
        _ = 2 ^ ((bitLength m : Int) + e) := by rw [← zpow_natCast, ← zpow_add₀ two]
        _ ≤ 2 ^ (((f.fb + 1 : Nat) : Int) + roundPlace f m e) := by
          refine zpow_le_zpow_right₀ (by norm_num) ?_
          unfold roundPlace
          omega
        _ = 2 ^ (f.fb + 1) * 2 ^ roundPlace f m e := by rw [zpow_add₀ two, zpow_natCast]
    have bound : (t : Rat) < 2 ^ (f.fb + 1) := lt_of_mul_lt_mul_right (low.trans_lt upper) place.le
    exact_mod_cast bound
  · by_cases last : roundPlace f m e = f.qmin
    · exact .inl last
    · refine .inr ?_
      have own : roundPlace f m e = e + bitLength m - (f.fb + 1 : Nat) := by
        unfold roundPlace at last ⊢
        omega
      have lower : (2 : Rat) ^ f.fb * 2 ^ roundPlace f m e ≤ m * 2 ^ e := by
        have double : (2 : Rat) * (2 ^ f.fb * 2 ^ roundPlace f m e) = 2 ^ bitLength m * 2 ^ e := by
          rw [own, ← zpow_natCast, ← zpow_natCast, ← zpow_add₀ two, ← zpow_add₀ two, ← zpow_one_add₀ two]
          congr 1
          omega
        have digits : (2 : Rat) ^ bitLength m ≤ 2 * m := by exact_mod_cast bitLength_le pos
        have scaled := mul_le_mul_of_nonneg_right digits (place_pos e).le
        linarith
      have bound : (2 : Rat) ^ f.fb < t + 1 := lt_of_mul_lt_mul_right (lower.trans_lt high) place.le
      have whole : 2 ^ f.fb < t + 1 := by exact_mod_cast bound
      omega

theorem inexact_flag (inexact tiny : Bool) :
    flagIf inexact (flagNX ||| flagIf tiny flagUF) &&& flagNX ≠ 0 ↔ inexact = true := by
  cases inexact <;> cases tiny <;> decide

/-- The encoding that a rounded number has where there is no overflow. -/
def roundedTo (n : Nat) (up : Bool) : Nat := if up then n + 1 else n

/-- R87, R88: a number lies between two neighbours of the format's row; its mode takes one of them, or overflows past the
largest. -/
theorem round_spec (wide : HasInfinity f) (mode : Nat) (neg : Bool) {m : Nat} (e : Int) (pos : 0 < m) :
    ∃ (n : Nat) (up : Bool), magnitude f n ≤ m * 2 ^ e ∧ (m : Rat) * 2 ^ e < magnitude f (n + 1) ∧
      (up = true ↔ GoesUp mode neg n (m * 2 ^ e - magnitude f n) (magnitude f (n + 1) - m * 2 ^ e)) ∧
      (f.largest < roundedTo n up →
        f.round mode false (.fin neg m e false) = (f.overflow mode neg false, flagOF ||| flagNX)) ∧
      (roundedTo n up ≤ f.largest → (f.round mode false (.fin neg m e false)).1 = f.sign neg + roundedTo n up ∧
        ((f.round mode false (.fin neg m e false)).2 &&& flagNX ≠ 0 ↔ (m : Rat) * 2 ^ e - magnitude f n ≠ 0)) := by
  obtain ⟨t, up, rounded, low, high, rises⟩ := roundAt_spec mode neg m e (roundPlace f m e)
  obtain ⟨digits, normal⟩ := roundPlace_digits pos low high
  have above : f.qmin ≤ roundPlace f m e := le_max_right _ _
  obtain ⟨sig, place⟩ := magnitude_within (f := f) (j := (roundPlace f m e - f.qmin).toNat) digits
    (normal.imp (fun same => by rw [same, sub_self]; rfl) id)
  have here : magnitude f ((roundPlace f m e - f.qmin).toNat * 2 ^ f.fb + t) = t * 2 ^ roundPlace f m e := by
    unfold magnitude
    rw [sig, place]
    congr 2
    omega
  have succHere : magnitude f ((roundPlace f m e - f.qmin).toNat * 2 ^ f.fb + t + 1) = (t + 1) * 2 ^ roundPlace f m e := by
    rw [magnitude_succ, here, place, add_mul, one_mul]
    congr 2
    omega
  have parity : ((roundPlace f m e - f.qmin).toNat * 2 ^ f.fb + t) % 2 = t % 2 := by
    obtain ⟨b, bits⟩ : ∃ b, f.fb = b + 1 := ⟨f.fb - 1, by have := wide.2.1; omega⟩
    rw [bits, Nat.pow_succ, ← Nat.mul_assoc, Nat.mul_add_mod_self_right]
  have encoded : (roundPlace f m e - f.qmin).toNat * 2 ^ f.fb + (if up then t + 1 else t) =
      roundedTo ((roundPlace f m e - f.qmin).toNat * 2 ^ f.fb + t) up := by
    unfold roundedTo
    split <;> rfl
  have result : f.round mode false (.fin neg m e false) =
      if f.largest < roundedTo ((roundPlace f m e - f.qmin).toNat * 2 ^ f.fb + t) up then
        (f.overflow mode neg false, flagOF ||| flagNX)
      else (f.sign neg + roundedTo ((roundPlace f m e - f.qmin).toNat * 2 ^ f.fb + t) up,
        flagIf (decide ((m : Rat) * 2 ^ e - t * 2 ^ roundPlace f m e ≠ 0))
          (flagNX ||| flagIf (f.tiny mode neg m e false) flagUF)) := by
    rw [← encoded]
    unfold FloatFormat.round
    simp only [pos.ne', decide_false, Bool.false_and, Bool.false_eq_true, if_false]
    have rounded' := rounded
    unfold roundPlace at rounded' ⊢
    rw [rounded']
  refine ⟨_, up, here.le.trans low, high.trans_eq succHere.symm, ?_, fun past => ?_, fun inside => ?_⟩
  · rw [here, succHere, rises]
    unfold GoesUp
    rw [parity]
  · rw [result, if_pos past]
  · rw [result, if_neg inside.not_gt, here]
    exact ⟨rfl, (inexact_flag _ _).trans decide_eq_true_iff⟩

/-! ## What each mode takes -/

/-- The rounding gives a magnitude up to the largest, under the number's sign, and says whether the value changed. -/
def Takes (f : FloatFormat) (mode : Nat) (neg : Bool) (m : Nat) (e : Int) (n : Nat) : Prop :=
  n ≤ f.largest ∧ (f.round mode false (.fin neg m e false)).1 = f.sign neg + n ∧
    ((f.round mode false (.fin neg m e false)).2 &&& flagNX ≠ 0 ↔ magnitude f n ≠ m * 2 ^ e)

section
variable {mode m n : Nat} {neg : Bool} {e : Int}

/-- A mode that never rounds up takes the highest magnitude that is not above the number's. -/
theorem takes_below (wide : HasInfinity f) (pos : 0 < m) (never : ∀ n below above, ¬GoesUp mode neg n below above)
    (stays : f.overflow mode neg false = f.sign neg + f.largest) :
    ∃ n, Takes f mode neg m e n ∧ magnitude f n ≤ m * 2 ^ e ∧
      ∀ j ≤ f.largest, magnitude f j ≤ m * 2 ^ e → magnitude f j ≤ magnitude f n := by
  have mono := magnitude_strictMono f
  obtain ⟨n, up, low, high, rises, past, inside⟩ := round_spec wide mode neg e pos
  have down : up = false := by
    rw [← Bool.not_eq_true, rises]
    exact never _ _ _
  subst down
  change f.largest < n → _ at past
  change n ≤ f.largest → _ at inside
  by_cases fits : n ≤ f.largest
  · obtain ⟨value, flag⟩ := inside fits
    refine ⟨n, ⟨fits, value, flag.trans ?_⟩, low, fun j _ under => ?_⟩
    · rw [sub_ne_zero]
      exact ne_comm
    · exact mono.monotone (Nat.lt_succ_iff.1 (mono.lt_iff_lt.1 (under.trans_lt high)))
  · have less : magnitude f f.largest < m * 2 ^ e := (mono (by omega)).trans_le low
    refine ⟨f.largest, ⟨le_refl _, ?_, ?_⟩, less.le, fun j bound _ => mono.monotone bound⟩
    · rw [past (by omega)]
      exact stays
    · rw [past (by omega)]
      exact iff_of_true (show (flagOF ||| flagNX) &&& flagNX ≠ 0 by decide) less.ne

/-- A mode that always rounds up takes the lowest magnitude that is not below the number's, where the format has it. -/
theorem takes_above (wide : HasInfinity f) (pos : 0 < m) (always : ∀ n below above, GoesUp mode neg n below above ↔ below ≠ 0)
    (fits : (m : Rat) * 2 ^ e ≤ magnitude f f.largest) :
    ∃ n, Takes f mode neg m e n ∧ m * 2 ^ e ≤ magnitude f n ∧
      ∀ j, m * 2 ^ e ≤ magnitude f j → magnitude f n ≤ magnitude f j := by
  have mono := magnitude_strictMono f
  obtain ⟨n, up, low, high, rises, -, inside⟩ := round_spec wide mode neg e pos
  rw [always, sub_ne_zero] at rises
  cases up
  · have equal : (m : Rat) * 2 ^ e = magnitude f n := by
      by_contra other
      exact Bool.false_ne_true (rises.2 other)
    have bound : n ≤ f.largest := mono.le_iff_le.1 (equal ▸ fits)
    obtain ⟨value, flag⟩ := inside bound
    refine ⟨n, ⟨bound, value, flag.trans ?_⟩, equal.le, fun j higher => equal ▸ higher⟩
    rw [sub_ne_zero]
    exact ne_comm
  · have between : magnitude f n < m * 2 ^ e := lt_of_le_of_ne low (Ne.symm (rises.1 rfl))
    have bound : n + 1 ≤ f.largest := mono.lt_iff_lt.1 (between.trans_le fits)
    obtain ⟨value, flag⟩ := inside bound
    refine ⟨n + 1, ⟨bound, value, flag.trans ?_⟩, high.le, fun j higher => ?_⟩
    · exact iff_of_true (sub_ne_zero.2 between.ne') high.ne'
    · exact mono.monotone (mono.lt_iff_lt.1 (between.trans_le higher))

/-- A mode that always rounds up overflows past the largest magnitude. -/
theorem round_past (wide : HasInfinity f) (pos : 0 < m) (always : ∀ n below above, GoesUp mode neg n below above ↔ below ≠ 0)
    (past : magnitude f f.largest < m * 2 ^ e) :
    f.round mode false (.fin neg m e false) = (f.overflow mode neg false, flagOF ||| flagNX) := by
  have mono := magnitude_strictMono f
  obtain ⟨n, up, low, high, rises, higher, -⟩ := round_spec wide mode neg e pos
  rw [always, sub_ne_zero] at rises
  refine higher ?_
  have bound : f.largest < n + 1 := mono.lt_iff_lt.1 (past.trans high)
  cases up
  · have equal : (m : Rat) * 2 ^ e = magnitude f n := by
      by_contra other
      exact Bool.false_ne_true (rises.2 other)
    exact mono.lt_iff_lt.1 (equal ▸ past)
  · exact bound

end

/-- The point halfway between the largest magnitude and the next of the row. -/
theorem limit_eq {k : Nat} {q : Int} (top : f.decode f.largest = .fin false k q false) (wide : HasInfinity f) :
    magnitude f f.largest = k * 2 ^ q ∧ (2 * k + 1 : Rat) * 2 ^ (q - 1) = (magnitude f f.largest + magnitude f (f.largest + 1)) / 2 := by
  have own := decode_sign wide false (Nat.le_refl f.largest)
  rw [show f.sign false + f.largest = f.largest from Nat.zero_add _, top] at own
  cases own
  refine ⟨rfl, ?_⟩
  rw [magnitude_succ, zpow_sub_one₀ (by norm_num)]
  unfold magnitude
  ring

/-- To nearest: below the limit, the nearest magnitude, and the even one of two. -/
theorem takes_nearest (wide : HasInfinity f) {neg : Bool} {m : Nat} {e : Int} (pos : 0 < m)
    (fits : (m : Rat) * 2 ^ e < (magnitude f f.largest + magnitude f (f.largest + 1)) / 2) :
    ∃ n, Takes f 0 neg m e n ∧ ∀ j, |magnitude f n - m * 2 ^ e| ≤ |magnitude f j - m * 2 ^ e| ∧
      (|magnitude f n - m * 2 ^ e| = |magnitude f j - m * 2 ^ e| → j = n ∨ n % 2 = 0) := by
  have mono := magnitude_strictMono f
  obtain ⟨n, up, low, high, rises, -, inside⟩ := round_spec wide 0 neg e pos
  change up = true ↔ _ < _ ∨ _ = _ ∧ n % 2 = 1 at rises
  have gap : magnitude f f.largest < magnitude f (f.largest + 1) := mono (Nat.lt_succ_self _)
  have bound : n ≤ f.largest := by
    by_contra past
    have beyond : magnitude f (f.largest + 1) ≤ m * 2 ^ e := (mono.monotone (by omega)).trans low
    linarith
  have lower : ∀ j ≤ n, |magnitude f j - m * 2 ^ e| = m * 2 ^ e - magnitude f j ∧ magnitude f j ≤ magnitude f n := fun j under => by
    have order := mono.monotone under
    exact ⟨by rw [abs_sub_comm, abs_of_nonneg (sub_nonneg.2 (order.trans low))], order⟩
  have upper : ∀ j, n < j → |magnitude f j - m * 2 ^ e| = magnitude f j - m * 2 ^ e ∧ magnitude f (n + 1) ≤ magnitude f j :=
    fun j beyond => by
      have order : magnitude f (n + 1) ≤ magnitude f j := mono.monotone beyond
      exact ⟨abs_of_pos (sub_pos.2 (high.trans_le order)), order⟩
  cases up
  · obtain ⟨value, flag⟩ := inside bound
    have choice := fun yes => Bool.false_ne_true (rises.2 yes)
    have nearer : m * 2 ^ e - magnitude f n ≤ magnitude f (n + 1) - m * 2 ^ e := not_lt.1 fun less => choice (.inl less)
    refine ⟨n, ⟨bound, value, flag.trans (sub_ne_zero.trans ne_comm)⟩, fun j => ?_⟩
    rw [(lower n (le_refl n)).1]
    by_cases under : j ≤ n
    · obtain ⟨dist, order⟩ := lower j under
      exact ⟨by linarith, fun same => .inl (mono.injective (by linarith))⟩
    · obtain ⟨dist, order⟩ := upper j (by omega)
      refine ⟨by linarith, fun same => .inr ?_⟩
      by_contra odd
      exact choice (.inr ⟨by linarith, by omega⟩)
  · have choice := rises.1 rfl
    have nearer : magnitude f (n + 1) - m * 2 ^ e ≤ m * 2 ^ e - magnitude f n := by
      rcases choice with less | ⟨same, -⟩
      · exact less.le
      · exact same.le
    have inner : n + 1 ≤ f.largest := by
      by_contra past
      have last : n = f.largest := by omega
      rw [last] at nearer
      linarith
    obtain ⟨value, flag⟩ := inside inner
    refine ⟨n + 1, ⟨inner, value, flag.trans (iff_of_true ?_ high.ne')⟩, fun j => ?_⟩
    · have := high
      exact (by linarith : (0 : Rat) < m * 2 ^ e - magnitude f n).ne'
    · rw [(upper (n + 1) (Nat.lt_succ_self n)).1]
      by_cases under : j ≤ n
      · obtain ⟨dist, order⟩ := lower j under
        refine ⟨by linarith, fun same => .inr ?_⟩
        rcases choice with less | ⟨-, odd⟩
        · exact absurd less (by linarith)
        · omega
      · obtain ⟨dist, order⟩ := upper j (by omega)
        exact ⟨by linarith, fun same => .inl (mono.injective (by linarith))⟩

/-- To nearest: from the limit on, an overflow; the largest magnitude is odd. -/
theorem round_limit (wide : HasInfinity f) {neg : Bool} {m : Nat} {e : Int} (pos : 0 < m)
    (past : (magnitude f f.largest + magnitude f (f.largest + 1)) / 2 ≤ (m : Rat) * 2 ^ e) :
    f.round 0 false (.fin neg m e false) = (f.sign neg + f.infinity, flagOF ||| flagNX) := by
  have mono := magnitude_strictMono f
  obtain ⟨n, up, low, high, rises, beyond, -⟩ := round_spec wide 0 neg e pos
  change up = true ↔ _ < _ ∨ _ = _ ∧ n % 2 = 1 at rises
  have gap : magnitude f f.largest < magnitude f (f.largest + 1) := mono (Nat.lt_succ_self _)
  have bound : f.largest < n + 1 := mono.lt_iff_lt.1 (by linarith)
  have infinite : f.overflow 0 neg false = f.sign neg + f.infinity := by
    unfold FloatFormat.overflow
    rw [wide.1]
    rfl
  rw [← infinite]
  refine beyond ?_
  by_cases last : n = f.largest
  · have odd : n % 2 = 1 := by
      have top := largest_succ wide
      obtain ⟨b, bits⟩ : ∃ b, f.fb = b + 1 := ⟨f.fb - 1, by have := wide.2.1; omega⟩
      rw [bits, Nat.pow_succ, ← Nat.mul_assoc] at top
      omega
    have raised : up = true := by
      rw [rises, last]
      rcases lt_or_eq_of_le past with less | same
      · exact .inl (by linarith)
      · exact .inr ⟨by linarith, last ▸ odd⟩
    rw [raised]
    exact bound
  · unfold roundedTo
    split <;> omega

/-! ## The nearest value in each mode -/

/-- A rounding gives a number of the format under the same sign, which is `best` against every finite value; and says whether the
value changed. -/
def Gives (f : FloatFormat) (neg : Bool) (m : Nat) (e : Int) (mode : Nat) (best : Rat → Rat → Prop) : Prop :=
  ∃ r x, f.decode (f.round mode false (.fin neg m e false)).1 = .fin neg r x false ∧
    (∀ y, FiniteIn f y → best (rational (.fin neg r x false)) y) ∧
    ((f.round mode false (.fin neg m e false)).2 &&& flagNX ≠ 0 ↔
      rational (.fin neg r x false) ≠ rational (.fin neg m e false))

theorem gives_taken (wide : HasInfinity f) {mode m n : Nat} {neg : Bool} {e : Int} (taken : Takes f mode neg m e n)
    {best : Rat → Rat → Prop} (good : ∀ y, FiniteIn f y → best (signed neg (magnitude f n)) y) : Gives f neg m e mode best := by
  obtain ⟨finite, value, flag⟩ := taken
  refine ⟨significand f n, placeOf f n, by rw [value, decode_sign wide neg finite], ?_, ?_⟩
  · rw [rational_sign]
    exact good
  · rw [rational_sign, rational_fin, flag]
    unfold signed
    cases neg
    · rfl
    · exact neg_inj.not.symm

theorem signed_sub (neg : Bool) (a b : Rat) : |signed neg a - signed neg b| = |a - b| := by
  unfold signed
  cases neg
  · rfl
  · simp only [if_true]
    rw [neg_sub_neg, abs_sub_comm]

theorem sign_even (wide : HasInfinity f) (neg : Bool) : f.sign neg % 2 = 0 := by
  obtain ⟨b, bits⟩ : ∃ b, f.eb + f.fb = b + 1 := ⟨f.eb + f.fb - 1, by have := wide.2.1; omega⟩
  unfold FloatFormat.sign
  split
  · rw [bits, Nat.pow_succ, Nat.mul_mod_left]
  · rfl

/-- A value at the same distance as its opposite, from a number on one side of zero, is zero. -/
theorem eq_of_abs_eq {neg : Bool} {v w y : Rat} (pos : 0 < v) (whole : 0 ≤ w) (same : |y| = w)
    (dist : |w - v| = |y - signed neg v|) : y = signed neg w := by
  have opposite : |w - v| ≠ w + v ∨ w = 0 := by
    by_cases zero : w = 0
    · exact .inr zero
    · refine .inl fun sum => ?_
      rcases abs_cases (w - v) with ⟨eq, -⟩ | ⟨eq, -⟩
      · linarith
      · exact zero (by linarith)
  unfold signed at dist ⊢
  rcases abs_cases y with ⟨eq, -⟩ | ⟨eq, -⟩ <;> cases neg <;> simp only [Bool.false_eq_true, if_false, if_true] at dist ⊢
  · linarith
  · rcases opposite with far | zero
    · rw [show y - -v = w + v by linarith, abs_of_pos (show 0 < w + v by linarith)] at dist
      exact absurd dist far
    · linarith
  · rcases opposite with far | zero
    · rw [show y - v = -(w + v) by linarith, abs_neg, abs_of_pos (show 0 < w + v by linarith)] at dist
      exact absurd dist far
    · linarith
  · linarith

section
variable {m : Nat} {neg : Bool} {e : Int}

theorem gives_nearest (wide : HasInfinity f) (pos : 0 < m)
    (fits : (m : Rat) * 2 ^ e < (magnitude f f.largest + magnitude f (f.largest + 1)) / 2) :
    Gives f neg m e 0 fun w y => |w - rational (.fin neg m e false)| ≤ |y - rational (.fin neg m e false)| ∧
      (|w - rational (.fin neg m e false)| = |y - rational (.fin neg m e false)| →
        y = w ∨ (f.round 0 false (.fin neg m e false)).1 % 2 = 0) := by
  have positive : (0 : Rat) < m * 2 ^ e := mul_pos (by exact_mod_cast pos) (place_pos e)
  obtain ⟨n, taken, nearest⟩ := takes_nearest (neg := neg) wide pos fits
  refine gives_taken wide taken fun y finite => ?_
  obtain ⟨j, -, same⟩ := magnitude_of_finite wide finite
  obtain ⟨closest, tie⟩ := nearest j
  have further : |magnitude f j - m * 2 ^ e| ≤ |y - signed neg (m * 2 ^ e)| := by
    have apart := abs_abs_sub_abs_le y (signed neg (m * 2 ^ e))
    rwa [same, abs_signed neg positive.le] at apart
  rw [rational_fin, signed_sub]
  refine ⟨closest.trans further, fun equal => ?_⟩
  rcases tie (le_antisymm closest (further.trans_eq equal.symm)) with own | even
  · exact .inl (eq_of_abs_eq positive (magnitude_nonneg n) (own ▸ same) equal)
  · refine .inr ?_
    rw [taken.2.1, Nat.add_mod, sign_even wide, even]

theorem gives_towardZero (wide : HasInfinity f) (pos : 0 < m) :
    Gives f neg m e 1 fun w y => |w| ≤ |rational (.fin neg m e false)| ∧
      (|y| ≤ |rational (.fin neg m e false)| → |y| ≤ |w|) := by
  have positive : (0 : Rat) < m * 2 ^ e := mul_pos (by exact_mod_cast pos) (place_pos e)
  obtain ⟨n, taken, low, highest⟩ := takes_below (mode := 1) (neg := neg) (e := e) wide pos (fun _ _ _ => id) rfl
  refine gives_taken wide taken fun y finite => ?_
  obtain ⟨j, inside, same⟩ := magnitude_of_finite wide finite
  rw [rational_fin, abs_signed neg positive.le, abs_signed neg (magnitude_nonneg n), same]
  exact ⟨low, highest j inside⟩

/-- The highest magnitude that is not above a number is the highest finite value that is not. -/
theorem highest_below {n : Nat} {v y : Rat} (highest : ∀ j ≤ f.largest, magnitude f j ≤ v → magnitude f j ≤ magnitude f n)
    (finite : ∃ j ≤ f.largest, |y| = magnitude f j) (under : y ≤ v) : y ≤ magnitude f n := by
  obtain ⟨j, inside, same⟩ := finite
  rcases abs_cases y with ⟨eq, -⟩ | ⟨-, less⟩
  · rw [← eq, same] at under ⊢
    exact highest j inside under
  · exact less.le.trans (magnitude_nonneg n)

/-- The lowest magnitude that is not below a positive number is the lowest finite value that is not. -/
theorem lowest_above {n : Nat} {v y : Rat} (pos : 0 < v) (least : ∀ j, v ≤ magnitude f j → magnitude f n ≤ magnitude f j)
    (finite : ∃ j ≤ f.largest, |y| = magnitude f j) (above : v ≤ y) : magnitude f n ≤ y := by
  obtain ⟨j, -, same⟩ := finite
  rw [abs_of_pos (pos.trans_le above)] at same
  rw [same] at above ⊢
  exact least j above

/-- Toward −∞ is toward zero for a positive number, and away from it for a negative one. -/
theorem gives_down (wide : HasInfinity f) (pos : 0 < m) (fits : neg = true → (m : Rat) * 2 ^ e ≤ magnitude f f.largest) :
    Gives f neg m e 2 fun w y => w ≤ rational (.fin neg m e false) ∧ (y ≤ rational (.fin neg m e false) → y ≤ w) := by
  have positive : (0 : Rat) < m * 2 ^ e := mul_pos (by exact_mod_cast pos) (place_pos e)
  cases neg
  · obtain ⟨n, taken, low, highest⟩ := takes_below (mode := 2) (neg := false) (e := e) wide pos
      (fun _ _ _ up => Bool.false_ne_true up.2) rfl
    refine gives_taken wide taken fun y finite => ?_
    rw [rational_fin]
    exact ⟨low, highest_below highest (magnitude_of_finite wide finite)⟩
  · obtain ⟨n, taken, high, least⟩ := takes_above (mode := 2) (neg := true) wide pos
      (fun _ _ _ => and_iff_left rfl) (fits rfl)
    refine gives_taken wide taken fun y finite => ?_
    rw [rational_fin]
    change -_ ≤ -_ ∧ (_ ≤ -_ → _ ≤ -_)
    refine ⟨neg_le_neg high, fun under => ?_⟩
    exact le_neg_of_le_neg (lowest_above positive least (by rw [abs_neg]; exact magnitude_of_finite wide finite) (le_neg_of_le_neg under))

/-- Toward +∞ is away from zero for a positive number, and toward it for a negative one. -/
theorem gives_up (wide : HasInfinity f) (pos : 0 < m) (fits : neg = false → (m : Rat) * 2 ^ e ≤ magnitude f f.largest) :
    Gives f neg m e 3 fun w y => rational (.fin neg m e false) ≤ w ∧ (rational (.fin neg m e false) ≤ y → w ≤ y) := by
  have positive : (0 : Rat) < m * 2 ^ e := mul_pos (by exact_mod_cast pos) (place_pos e)
  cases neg
  · obtain ⟨n, taken, high, least⟩ := takes_above (mode := 3) (neg := false) wide pos
      (fun _ _ _ => and_iff_left rfl) (fits rfl)
    refine gives_taken wide taken fun y finite => ?_
    rw [rational_fin]
    exact ⟨high, lowest_above positive least (magnitude_of_finite wide finite)⟩
  · obtain ⟨n, taken, low, highest⟩ := takes_below (mode := 3) (neg := true) (e := e) wide pos
      (fun _ _ _ up => Bool.false_ne_true up.2.symm) rfl
    refine gives_taken wide taken fun y finite => ?_
    rw [rational_fin]
    change -_ ≤ -_ ∧ (-_ ≤ _ → -_ ≤ _)
    refine ⟨neg_le_neg low, fun above => ?_⟩
    exact neg_le.1 (highest_below highest (by rw [abs_neg]; exact magnitude_of_finite wide finite) (neg_le.1 above))

end

/-! ## NaN operands (R171) -/

theorem fp32_low (v : Dword) : fp32 (low v) = fmtFp32.decode v.toNat := by
  have word : (low v).toNat % 2 ^ fmtFp32.bits = v.toNat % 2 ^ fmtFp32.bits := by
    unfold low
    rw [BitVec.extractLsb'_toNat]
    exact Nat.mod_mod _ _
  unfold fp32 FloatFormat.decode
  rw [word]

theorem fpResult_nan (mode : Nat) (r : FpNum × Flags) (nan : r.1.isNan = true) : (fpResult mode r).1 = 0x7FC00000#32 := by
  obtain ⟨x, fl⟩ := r
  cases x with
  | nan signalling => rfl
  | inf neg => cases nan
  | fin neg m e more => cases nan

section
variable {x a b : FpNum}

theorem addNum_nan (mode : Nat) (nan : a.isNan = true ∨ b.isNan = true) : (addNum mode a b).1.isNan = true := by
  unfold addNum nanOf
  rw [if_pos (by simpa using nan)]
  rfl

theorem mulNum_nan (nan : a.isNan = true ∨ b.isNan = true) : (mulNum a b).1.isNan = true := by
  unfold mulNum nanOf
  rw [if_pos (by simpa using nan)]
  rfl

theorem divNum_nan (nan : a.isNan = true ∨ b.isNan = true) : (divNum a b).1.isNan = true := by
  unfold divNum nanOf
  rw [if_pos (by simpa using nan)]
  rfl

theorem fmaNum_nan (mode : Nat) (nan : x.isNan = true ∨ a.isNan = true ∨ b.isNan = true) :
    (fmaNum mode x a b).1.isNan = true := addNum_nan mode (nan.imp_right mulNum_nan)

theorem sqrtNum_nan (nan : b.isNan = true) : (sqrtNum b).1.isNan = true := by
  cases b with
  | nan signalling => rfl
  | inf neg => cases nan
  | fin neg m e more => cases nan

theorem negate_nan (nan : b.isNan = true) : b.negate.isNan = true := by
  cases b with
  | nan signalling => rfl
  | inf neg => cases nan
  | fin neg m e more => cases nan

end

/-- A NaN result, as a lane operation pushes it. -/
theorem nan_word (mode : Nat) {r : FpNum × Flags} (nan : r.1.isNan = true) :
    BitVec.setWidth 64 (fpResult mode r).1 = (0x7FC00000 : Dword) := by
  rw [fpResult_nan mode r nan]
  rfl

/-- R171: what each operation answers where an operand is a NaN. -/
theorem nan_operand (rm : BitVec 2) (x a b : Dword) :
    ((fmtFp32.decode b.toNat).isNan = true →
      ∀ o ∈ [fpAdd rm, fpSub rm, fpMul rm, fpDiv rm, fpFma rm, fpSqrt rm, fpRcp rm], (o.f x a b).1 = 0x7FC00000) ∧
    ((fmtFp32.decode a.toNat).isNan = true →
      ∀ o ∈ [fpAdd rm, fpSub rm, fpMul rm, fpDiv rm, fpFma rm], (o.f x a b).1 = 0x7FC00000) ∧
    ((fmtFp32.decode x.toNat).isNan = true → ((fpFma rm).f x a b).1 = 0x7FC00000) := by
  simp only [← fp32_low]
  refine ⟨fun nan o inside => ?_, fun nan o inside => ?_, fun nan => nan_word _ (fmaNum_nan _ (.inl nan))⟩
  · simp only [List.mem_cons, List.not_mem_nil, or_false] at inside
    rcases inside with rfl | rfl | rfl | rfl | rfl | rfl | rfl
    · exact nan_word _ (addNum_nan _ (.inr nan))
    · exact nan_word _ (addNum_nan _ (.inr (negate_nan nan)))
    · exact nan_word _ (mulNum_nan (.inr nan))
    · exact nan_word _ (divNum_nan (.inr nan))
    · exact nan_word _ (fmaNum_nan _ (.inr (.inr nan)))
    · exact nan_word _ (sqrtNum_nan nan)
    · exact nan_word _ (divNum_nan (.inr nan))
  · simp only [List.mem_cons, List.not_mem_nil, or_false] at inside
    rcases inside with rfl | rfl | rfl | rfl | rfl
    · exact nan_word _ (addNum_nan _ (.inl nan))
    · exact nan_word _ (addNum_nan _ (.inl nan))
    · exact nan_word _ (mulNum_nan (.inl nan))
    · exact nan_word _ (divNum_nan (.inl nan))
    · exact nan_word _ (fmaNum_nan _ (.inr (.inl nan)))

/-- Settles O52: the finite values of a format are one rising row of magnitudes under two signs; the number lies between two
neighbours of it, and each mode takes the one that it names. -/
theorem roundingResults : Obligations.RoundingResults := by
  unfold Obligations.RoundingResults
  refine ⟨?_, nan_operand⟩
  intro f neg m k e q inside pos top v largest limit infinite gives
  have wide := hasInfinity_of_mem inside
  obtain ⟨topValue, middle⟩ := limit_eq top wide
  have positive : (0 : Rat) < m * 2 ^ e := mul_pos (by exact_mod_cast pos) (place_pos e)
  have number : v = signed neg (m * 2 ^ e) := rational_fin neg m e
  have size : |v| = m * 2 ^ e := by rw [number, abs_signed neg positive.le]
  have highest : largest = magnitude f f.largest := (rational_fin false k q).trans topValue.symm
  have halfway : limit = (magnitude f f.largest + magnitude f (f.largest + 1)) / 2 := middle
  have nonneg : 0 ≤ magnitude f f.largest := magnitude_nonneg _
  have infinity : ∀ mode, (mode = 2 ∧ neg = true) ∨ (mode = 3 ∧ neg = false) → f.overflow mode neg false = f.sign neg + f.infinity := by
    rintro mode (⟨rfl, rfl⟩ | ⟨rfl, rfl⟩) <;> (unfold FloatFormat.overflow; rw [wide.1]; rfl)
  refine ⟨fun fits => gives_nearest wide pos (by rw [← size, ← halfway]; exact fits),
    fun past => round_limit wide pos (by rw [← size, ← halfway]; exact past), gives_towardZero wide pos, fun fits => ?_,
    fun past => ?_, fun fits => ?_, fun past => ?_⟩
  · rw [number, highest] at fits
    refine gives_down wide pos (neg := neg) (e := e) fun negative => ?_
    rw [negative] at fits
    exact neg_le_neg_iff.1 fits
  · rw [number, highest] at past
    cases neg
    · exact absurd (show (m : Rat) * 2 ^ e < -_ from past) (by linarith)
    · exact (round_past (mode := 2) wide pos (fun _ _ _ => and_iff_left rfl) (neg_lt_neg_iff.1 past)).trans
        (by rw [infinity 2 (.inl ⟨rfl, rfl⟩)])
  · rw [number, highest] at fits
    refine gives_up wide pos (neg := neg) (e := e) fun positive => ?_
    rw [positive] at fits
    exact fits
  · rw [number, highest] at past
    cases neg
    · exact (round_past (mode := 3) wide pos (fun _ _ _ => and_iff_left rfl) past).trans (by rw [infinity 3 (.inr ⟨rfl, rfl⟩)])
    · exact absurd (show magnitude f f.largest < -(m * 2 ^ e) from past) (by linarith)

end Sys2Proof.Proofs
end

section

/-! PROOF. A step runs the instruction that the bytes at the program counter decode to (R36 to R40, R76, R104, R119, R261,
R380). -/

namespace Sys2Proof.Proofs

open Sys2Proof Sys2Proof.Machine Sys2Proof.Safety

variable {s t u : Machine.State} {d before : Dev} {core lb : Nat} {g m : Grant} {w : Warp} {sp : Split} {pc : Va}

theorem step_turn {ts : List Turn} {a : Turn} (live : s.host.stopped = false) (named : s.agenda = a :: ts) :
    step s = turn a { s with agenda := ts } := by
  unfold step
  simp only [named, live, Bool.false_and, Bool.false_eq_true, if_false]

/-! ## Fetches -/

/-- The bytes that a fetch decodes: at most 8, up to the end of their block. -/
def fetched (d : Dev) (core n : Nat) (pc : Va) : List Byte :=
  Memory.readBytes d.mem (((d.core core).segment n).pa + pc.toNat % 4096) (min 8 (64 - pc.toNat % 64))

theorem fetched_length (d : Dev) (core n : Nat) (pc : Va) : (fetched d core n pc).length = min 8 (64 - pc.toNat % 64) := by
  unfold fetched
  simp

/-- The page is VALID in a segment of the core, and its bytes can be read. -/
structure Readable (d : Dev) (core slot n : Nat) (pc : Va) : Prop where
  valid : (d.core core).pageSegment slot (pc.toNat / 4096) .valid = some n
  clean : d.poisoned (((d.core core).segment n).pa + pc.toNat % 4096) 2 = false
  stored : d.chipPoisoned core 6 (n * 512 + pc.toNat % 4096 / 8) 1 = false

section
variable {slot n : Nat}

theorem fetch_run {i : Instr} {more : List Byte} (readable : Readable d core slot n pc)
    (decoded : decode (fetched d core n pc) = .ok (i, more)) :
    d.fetch core slot pc = .run i ((fetched d core n pc).length - more.length) := by
  obtain ⟨valid, clean, stored⟩ := readable
  rw [fetched_length]
  unfold fetched at decoded
  unfold Dev.fetch
  simp only [valid, clean, stored, Bool.or_false, Bool.false_eq_true, if_false]
  rw [show Nat.min 8 (64 - pc.toNat % 64) = min 8 (64 - pc.toNat % 64) from rfl, decoded]

theorem fetch_straddle (readable : Readable d core slot n pc) (short : decode (fetched d core n pc) = .error .tooShort) :
    d.fetch core slot pc = .straddle := by
  obtain ⟨valid, clean, stored⟩ := readable
  unfold fetched at short
  unfold Dev.fetch
  simp only [valid, clean, stored, Bool.or_false, Bool.false_eq_true, if_false]
  rw [show Nat.min 8 (64 - pc.toNat % 64) = min 8 (64 - pc.toNat % 64) from rfl, short]

theorem fetch_illegal {e : DecodeError} (readable : Readable d core slot n pc) (wrong : decode (fetched d core n pc) = .error e)
    (other : e ≠ .tooShort) : d.fetch core slot pc = .illegal := by
  obtain ⟨valid, clean, stored⟩ := readable
  unfold fetched at wrong
  unfold Dev.fetch
  simp only [valid, clean, stored, Bool.or_false, Bool.false_eq_true, if_false]
  rw [show Nat.min 8 (64 - pc.toNat % 64) = min 8 (64 - pc.toNat % 64) from rfl, wrong]
  cases e
  · exact absurd rfl other
  all_goals rfl

end

/-! ## A lane block's turn -/

/-- The device as a requester's turn finds it. -/
def asked (d : Dev) (p : Party) : Dev := { d with issuer := p, issued := false }

section
variable {hp : HostPart} {place : Nat × Bool} {paid : Option Nat} {id k : Nat} {i : Instr} {f : Fet}

theorem laneRequest_run (got : (asked d (.warp id)).fetch core ((asked d (.warp id)).slotOf w.team) sp.pc = .run i k) :
    d.laneRequest hp core lb place paid id w sp =
      .run ⟨i, id, sp.mask, sp.pc, sp.pc + BitVec.ofNat 57 k, tokenCost ((asked d (.warp id)).launchOf w.team) i, false, place.1,
        place.2, paid⟩ ((asked d (.warp id)).touchSegment core ((asked d (.warp id)).slotOf w.team) sp.pc) := by
  unfold asked at got ⊢
  unfold Dev.laneRequest
  simp only [got]

theorem laneRequest_straddle (got : (asked d (.warp id)).fetch core ((asked d (.warp id)).slotOf w.team) sp.pc = .straddle) :
    d.laneRequest hp core lb place paid id w sp = .idle ((asked d (.warp id)).raise hp id sp 0x03 sp.mask 0 0) := by
  unfold asked at got ⊢
  unfold Dev.laneRequest
  simp only [got]

theorem laneRequest_illegal (got : (asked d (.warp id)).fetch core ((asked d (.warp id)).slotOf w.team) sp.pc = .illegal) :
    d.laneRequest hp core lb place paid id w sp = .idle ((asked d (.warp id)).raise hp id sp 0x01 sp.mask 0 0) := by
  unfold asked at got ⊢
  unfold Dev.laneRequest
  simp only [got]

theorem fetRequest_run (got : (asked d (.fet id)).fetch core ((asked d (.fet id)).slotOf f.team) f.pc = .run i k) :
    d.fetRequest hp core place paid id f =
      .run ⟨i, id, 0, f.pc, f.pc + BitVec.ofNat 57 k, tokenCost ((asked d (.fet id)).launchOf f.team) i, false, place.1,
        place.2, paid⟩ ((asked d (.fet id)).touchSegment core ((asked d (.fet id)).slotOf f.team) f.pc) := by
  unfold asked at got ⊢
  unfold Dev.fetRequest
  simp only [got]

end

theorem laneTurn_requests {hp : HostPart} {id : Nat} {place : Nat × Bool} (placed : d.lanePlace core lb = some place)
    (served : place.2 = true ∨ ((d.core core).lb lb).misses = [])
    (ready : ((d.burnHold core lb).repaid core lb).candidate core lb = some id)
    (there : ((d.burnHold core lb).repaid core lb).warp? id = some w) (cur : w.cur = some sp) :
    d.laneTurn hp core lb =
      ((d.burnHold core lb).repaid core lb).laneRequest hp core lb place ((d.core core).lb lb).due id w sp := by
  have goesOn : (!(some place).any Prod.snd && !((d.core core).lb lb).misses.isEmpty) = false := by
    rcases served with first | free
    · simp [first]
    · simp [free]
  unfold Dev.laneTurn
  simp only [placed, goesOn, ready, there, cur, Bool.false_eq_true, if_false]

theorem step_lane {ts : List Turn} (live : s.host.stopped = false) (named : s.agenda = .lane core lb :: ts)
    (runs : s.dev.laneTurn s.host core lb = .run g before) :
    step s = laneAttempt (withDev { s with agenda := ts } before) core lb g := by
  rw [step_turn live named]
  unfold turn
  dsimp only
  rw [runs]
  rfl

theorem step_lane_idle {ts : List Turn} (live : s.host.stopped = false) (named : s.agenda = .lane core lb :: ts)
    (idle : s.dev.laneTurn s.host core lb = .idle before) : step s = .next (withDev { s with agenda := ts } before) := by
  rw [step_turn live named]
  unfold turn
  dsimp only
  rw [idle]
  rfl

/-- R261: dxdb stops a split at a breakpoint, unless it waits. -/
theorem laneAttempt_stops (ran : exec g.instr s = .next t) (stop : s.dev.breaks g = true) (free : t.dev.waitsAt g = false) :
    laneAttempt s core lb g = .next (withDev s (s.dev.stopTeamOf g.id)) := by
  unfold laneAttempt
  simp only [ran, stop, free, Bool.not_false, Bool.and_self, if_true]
  rfl

theorem laneAttempt_passes (ran : exec g.instr s = .next t) (passes : s.dev.breaks g = false ∨ t.dev.waitsAt g = true) :
    laneAttempt s core lb g = if t.dev.issued then laneIssued s t core lb g else .next t := by
  have goesOn : (s.dev.breaks g && !t.dev.waitsAt g) = false := by
    rcases passes with clear | waits
    · rw [clear, Bool.false_and]
    · rw [waits, Bool.not_true, Bool.and_false]
  unfold laneAttempt
  simp only [ran, goesOn, Bool.false_eq_true, if_false]

theorem laneIssued_alone (alone : (t.dev.afterLane core lb g).pairMate core lb g = none) :
    laneIssued s t core lb g = .next (withDev t (laneDecision s.dev (t.dev.afterLane core lb g) core lb g g.cost)) := by
  unfold laneIssued
  simp only [alone]
  rfl

theorem laneIssued_mate {e : Dev} (mate : (t.dev.afterLane core lb g).pairMate core lb g = some (m, e))
    (ran : exec m.instr (withDev t e) = .next u) :
    laneIssued s t core lb g =
      if u.dev.issued then .next (withDev u (laneDecision s.dev (u.dev.afterLane core lb m) core lb g (g.cost + m.cost)))
      else .next (withDev t (laneDecision s.dev (t.dev.afterLane core lb g) core lb g g.cost)) := by
  unfold laneIssued
  simp only [mate]
  rw [show exec m.instr { t with dev := e } = .next u from ran]
  rfl

/-- R380: what the bucket decides on a request, case by case; `t` is the state with the instruction's effect. -/
def Decided (s : Machine.State) (before : Dev) (core lb : Nat) (g : Grant) (t : Machine.State) (cost : Nat) : Prop :=
  ((before.cluster (clusterOf core)).grants (requester core lb) cost g.paid = true → g.first = false →
    step s = .next (withDev t ((t.dev.onCluster (clusterOf core) fun c => c.granted (requester core lb) cost g).onLb core lb
      fun b => b.spend g))) ∧
  ((before.cluster (clusterOf core)).grants (requester core lb) cost g.paid = true → g.first = true →
    step s = .next (withDev t ((before.onCluster (clusterOf core) fun c => c.granted (requester core lb) cost g).onLb core lb
      fun b => { b with due := some cost }))) ∧
  ((before.cluster (clusterOf core)).grants (requester core lb) cost g.paid = false →
    step s = .next (withDev t ((before.onCluster (clusterOf core) fun c =>
      (c.refuse (requester core lb)).decided g.place).onLb core lb fun b => { b with credit := 0 })))

theorem decided_of_decision {cost : Nat} {after : Dev}
    (made : step s = .next (withDev t (laneDecision before after core lb g cost))) :
    Decided s before core lb g (withDev t after) cost := by
  unfold laneDecision at made
  refine ⟨fun grants second => ?_, fun grants first => ?_, fun refused => ?_⟩
  · simp only [grants, second, if_true, Bool.false_eq_true, if_false] at made
    exact made
  · simp only [grants, first, if_true] at made
    exact made
  · simp only [refused, Bool.false_eq_true, if_false] at made
    exact made

/-- R261, R380: what a lane block's attempt to issue comes to. -/
theorem lane_outcome {rest : Machine.State} (made : step s = laneAttempt (withDev rest before) core lb g)
    (ran : exec g.instr (withDev rest before) = .next t) :
    (before.breaks g = true → t.dev.waitsAt g = false → step s = .next (withDev rest (before.stopTeamOf g.id))) ∧
    (before.breaks g = false ∨ t.dev.waitsAt g = true →
      (t.dev.issued = false → step s = .next t) ∧
      (t.dev.issued = true →
        ((t.dev.afterLane core lb g).pairMate core lb g = none →
          Decided s before core lb g (withDev t (t.dev.afterLane core lb g)) g.cost) ∧
        ∀ m e u, (t.dev.afterLane core lb g).pairMate core lb g = some (m, e) → exec m.instr (withDev t e) = .next u →
          (u.dev.issued = false → Decided s before core lb g (withDev t (t.dev.afterLane core lb g)) g.cost) ∧
          (u.dev.issued = true → Decided s before core lb g (withDev u (u.dev.afterLane core lb m)) (g.cost + m.cost)))) := by
  refine ⟨fun stop free => made.trans (laneAttempt_stops ran stop free), fun passes => ?_⟩
  have attempted := made.trans (laneAttempt_passes ran passes)
  refine ⟨fun idle => ?_, fun issued => ?_⟩
  · rw [idle] at attempted
    exact attempted
  · rw [issued, if_pos rfl] at attempted
    refine ⟨fun alone => decided_of_decision (attempted.trans (laneIssued_alone alone)), fun m e u mate ranMate => ?_⟩
    have both := attempted.trans (laneIssued_mate mate ranMate)
    refine ⟨fun single => ?_, fun double => ?_⟩
    · rw [single] at both
      exact decided_of_decision both
    · rw [double, if_pos rfl] at both
      exact decided_of_decision both

/-! ## A front-end turn -/

theorem fetTurn_requests {hp : HostPart} {id : Nat} {place : Nat × Bool} {f : Fet} (placed : d.fetPlace core = some place)
    (served : place.2 = true ∨ (d.core core).fetMisses = []) (ready : (d.fetRepaid core).nextFet core = some id)
    (there : Table.find? (d.fetRepaid core).fets id = some f) :
    d.fetTurn hp core = (d.fetRepaid core).fetRequest hp core place (d.core core).fetDue id f := by
  have goesOn : (!(some place).any Prod.snd && !(d.core core).fetMisses.isEmpty) = false := by
    rcases served with first | free
    · simp [first]
    · simp [free]
  unfold Dev.fetTurn
  simp only [placed, goesOn, ready, there, Bool.false_eq_true, if_false]

theorem step_fet {ts : List Turn} (live : s.host.stopped = false) (named : s.agenda = .frontEnd core :: ts)
    (runs : s.dev.fetTurn s.host core = .run g before) :
    step s = fetAttempt (withDev { s with agenda := ts } before) core g := by
  rw [step_turn live named]
  unfold turn
  dsimp only
  rw [runs]
  rfl

theorem fetAttempt_stops (ran : exec g.instr s = .next t) (stop : s.dev.fetBreaks g = true) (free : t.dev.fetWaits g = false) :
    fetAttempt s core g = .next (withDev s (s.dev.stopTeamOfFet g.id)) := by
  unfold fetAttempt
  simp only [ran, stop, free, Bool.not_false, Bool.and_self, if_true]
  rfl

theorem fetAttempt_passes (ran : exec g.instr s = .next t) (passes : s.dev.fetBreaks g = false ∨ t.dev.fetWaits g = true) :
    fetAttempt s core g = if t.dev.issued then .next (withDev t (fetDecision s.dev t.dev core g g.cost)) else .next t := by
  have goesOn : (s.dev.fetBreaks g && !t.dev.fetWaits g) = false := by
    rcases passes with clear | waits
    · rw [clear, Bool.false_and]
    · rw [waits, Bool.not_true, Bool.and_false]
  unfold fetAttempt
  simp only [ran, goesOn, Bool.false_eq_true, if_false]
  rfl

theorem fetDecision_grants {after : Dev} {cost : Nat}
    (grants : (before.cluster (clusterOf core)).grants (requester core 4) cost g.paid = true) (second : g.first = false) :
    fetDecision before after core g cost =
      ((after.onCluster (clusterOf core) fun c => (c.debit (requester core 4) cost).decided g.place).onCore core fun c =>
        { c with fetTurn := g.id, fetDue := none, fetCredit := c.fetCredit - 1 }).onFet g.id fun f => { f with stopped := none } := by
  unfold fetDecision
  simp only [grants, second, if_true, Bool.false_eq_true, if_false]

theorem fetDecision_refuses {after : Dev} {cost : Nat}
    (refused : (before.cluster (clusterOf core)).grants (requester core 4) cost g.paid = false) :
    fetDecision before after core g cost =
      (before.onCluster (clusterOf core) fun c => (c.refuse (requester core 4)).decided g.place).onCore core fun c =>
        { c with fetCredit := 0 } := by
  unfold fetDecision
  simp only [refused, Bool.false_eq_true, if_false]

/-- R261, R380: what a front-end context's attempt to issue comes to. -/
theorem fet_outcome {rest : Machine.State} (made : step s = fetAttempt (withDev rest before) core g)
    (ran : exec g.instr (withDev rest before) = .next t) :
    (before.fetBreaks g = true → t.dev.fetWaits g = false → step s = .next (withDev rest (before.stopTeamOfFet g.id))) ∧
    (before.fetBreaks g = false ∨ t.dev.fetWaits g = true →
      (t.dev.issued = false → step s = .next t) ∧
      (t.dev.issued = true → (before.cluster (clusterOf core)).grants (requester core 4) g.cost g.paid = true → g.first = false →
        step s = .next (withDev t (((t.dev.onCluster (clusterOf core) fun c => (c.debit (requester core 4) g.cost).decided
          g.place).onCore core fun c => { c with fetTurn := g.id, fetDue := none, fetCredit := c.fetCredit - 1 }).onFet g.id
            fun f => { f with stopped := none }))) ∧
      (t.dev.issued = true → (before.cluster (clusterOf core)).grants (requester core 4) g.cost g.paid = false →
        step s = .next (withDev t ((before.onCluster (clusterOf core) fun c => (c.refuse (requester core 4)).decided
          g.place).onCore core fun c => { c with fetCredit := 0 })))) := by
  refine ⟨fun stop free => made.trans (fetAttempt_stops ran stop free), fun passes => ?_⟩
  have attempted := made.trans (fetAttempt_passes ran passes)
  refine ⟨fun idle => ?_, fun issued grants second => ?_, fun issued refused => ?_⟩
  · rw [idle] at attempted
    exact attempted
  · rw [issued, if_pos rfl] at attempted
    exact attempted.trans (congrArg (fun d => Host.Outcome.next (withDev t d)) (fetDecision_grants grants second))
  · rw [issued, if_pos rfl] at attempted
    exact attempted.trans (congrArg (fun d => Host.Outcome.next (withDev t d)) (fetDecision_refuses refused))

/-- Settles O56: a turn's request is one fetch of the bytes at its program counter; what it decodes to is attempted, and the
attempt's outcome is decided branch by branch. -/
theorem stepRunsDecoded : Obligations.StepRunsDecoded := by
  unfold Obligations.StepRunsDecoded
  intro s ts live rest
  refine ⟨?_, ?_, ?_, ?_⟩
  · intro core lb id n place w sp named b d c pa slot placed served ready there cur valid clean stored bytes issuing k r
    have turnIs : s.dev.laneTurn s.host core lb = d.laneRequest s.host core lb place b.due id w sp :=
      laneTurn_requests placed served ready there cur
    clear_value d
    have readable : Readable issuing core slot n sp.pc := ⟨valid, clean, stored⟩
    refine ⟨?_, fun short => ?_, fun e wrong other => ?_⟩
    · intro i more decoded cost g before decides t ran
      exact lane_outcome (g := g) (before := before)
        (step_lane live named (turnIs.trans (laneRequest_run (fetch_run readable decoded)))) ran
    · exact step_lane_idle live named (turnIs.trans (laneRequest_straddle (fetch_straddle readable short)))
    · exact step_lane_idle live named (turnIs.trans (laneRequest_illegal (fetch_illegal readable wrong other)))
  · intro core id n place f named d c due pa slot placed served ready there valid clean stored bytes issuing
      i more decoded cost g before r k t ran
    have turnIs : s.dev.fetTurn s.host core = d.fetRequest s.host core place due id f := fetTurn_requests placed served ready there
    clear_value d
    have readable : Readable issuing core slot n f.pc := ⟨valid, clean, stored⟩
    exact fet_outcome (g := g) (before := before)
      (step_fet live named (turnIs.trans (fetRequest_run (fetch_run readable decoded)))) ran
  · intro i d named runs
    rw [step_turn live named]
    unfold turn
    dsimp only
    rw [runs]
    rfl
  · intro i named
    rw [step_turn live named]
    rfl

end Sys2Proof.Proofs
end

section

/-! PROOF. Every step keeps memory in its canonical form (R5, R64): what each operation of the device does to it, in the order of
the model's definitions. -/

namespace Sys2Proof.Proofs

open Sys2Proof Sys2Proof.Machine Sys2Proof.Safety

/-- The device's memory is in canonical form. -/
def Canonical (d : Dev) : Prop := Memory.wf d.mem = true

/-- What holds of the value that an `Option` holds. -/
inductive Holds {α : Type} (q : α → Prop) : Option α → Prop
  | none : Holds q none
  | some {a : α} (all : q a) : Holds q (some a)

/-- What holds of the value or of the failure that a result holds. -/
inductive Ends {ε α : Type} (p : ε → Prop) (q : α → Prop) : Except ε α → Prop
  | ok {a : α} (all : q a) : Ends p q (.ok a)
  | error {e : ε} (all : p e) : Ends p q (.error e)

/-- The next state of an outcome has its memory in canonical form. -/
inductive Stays : Host.Outcome Machine.State Fault Refusal → Prop
  | next {t : Machine.State} (h : Canonical t.dev) : Stays (.next t)
  | faulted {f : Fault} : Stays (.fault f)
  | refused {r : Refusal} : Stays (.refused r)

/-- A turn of a lane block or of a front end keeps memory in canonical form. -/
inductive IssueKeeps : LaneIssue → Prop
  | idle {d : Dev} (h : Canonical d) : IssueKeeps (.idle d)
  | run {d : Dev} {g : Grant} (h : Canonical d) : IssueKeeps (.run g d)

/-- A turn of the command processors keeps memory in canonical form. -/
inductive CommandKeeps : CommandIssue → Prop
  | idle {d : Dev} (h : Canonical d) : CommandKeeps (.idle d)
  | run {d : Dev} {i : Instr} (h : Canonical d) : CommandKeeps (.run i d)

/-- The checks of a uniform access keep memory in canonical form. -/
inductive CheckKeeps : UniformCheck → Prop
  | trap {d : Dev} {cause : BitVec 8} (h : Canonical d) : CheckKeeps (.trap cause d)
  | unmapped {d : Dev} (h : Canonical d) : CheckKeeps (.unmapped d)
  | lost {d : Dev} (h : Canonical d) : CheckKeeps (.lost d)
  | serve : CheckKeeps .serve
  | go {d : Dev} {pa : Nat} (h : Canonical d) : CheckKeeps (.go pa d)

/-- The read of a stream's element keeps memory in canonical form. -/
inductive ReadKeeps : StreamRead → Prop
  | entries {d : Dev} {vs : List Word} (h : Canonical d) : ReadKeeps (.entries vs d)
  | fault {d : Dev} {cause : BitVec 8} {va : Dword} (h : Canonical d) : ReadKeeps (.fault cause va d)
  | uncorrectable {d : Dev} {va pa : Nat} (h : Canonical d) : ReadKeeps (.uncorrectable va pa d)
  | lost {d : Dev} {va : Nat} (h : Canonical d) : ReadKeeps (.lost va d)

section
variable {α β ε : Type} {d e : Dev}

theorem holds_dev {o : Option Dev} (got : o = some e) (all : Holds Canonical o) : Canonical e := by
  subst got
  cases all
  assumption

theorem holds_some {o : Option (α × Dev)} {a : α} (got : o = some (a, e))
    (all : Holds (fun r => Canonical r.2) o) : Canonical e := by
  subst got
  cases all
  assumption

theorem holds_some₂ {o : Option (α × β × Dev)} {a : α} {b : β} (got : o = some (a, b, e))
    (all : Holds (fun r => Canonical r.2.2) o) : Canonical e := by
  subst got
  cases all
  assumption

theorem ends_dev {p : ε → Prop} {r : Except ε Dev} (got : r = .ok e) (all : Ends p Canonical r) : Canonical e := by
  subst got
  cases all
  assumption

theorem ends_ok {p : ε → Prop} {r : Except ε (α × Dev)} {a : α} (got : r = .ok (a, e))
    (all : Ends p (fun r => Canonical r.2) r) : Canonical e := by
  subst got
  cases all
  assumption

theorem ends_ok₂ {p : ε → Prop} {r : Except ε (α × β × Dev)} {a : α} {b : β} (got : r = .ok (a, b, e))
    (all : Ends p (fun r => Canonical r.2.2) r) : Canonical e := by
  subst got
  cases all
  assumption

theorem ends_error {q : β → Prop} {r : Except (ε × Dev) β} {x : ε} (got : r = .error (x, e))
    (all : Ends (fun e => Canonical e.2) q r) : Canonical e := by
  subst got
  cases all
  assumption

theorem ends_failure {γ : Type} {q : β → Prop} {r : Except (γ × Dev) β} {f : γ × Dev} (got : r = .error f)
    (all : Ends (fun e => Canonical e.2) q r) : Canonical f.2 := by
  subst got
  cases all
  assumption

theorem ends_failed {p : ε → Prop} {q : β → Prop} {r : Except ε β} {x : ε} (got : r = .error x) (all : Ends p q r) : p x := by
  subst got
  cases all
  assumption

theorem issue_idle {r : LaneIssue} (got : r = .idle e) (all : IssueKeeps r) : Canonical e := by
  subst got
  cases all
  assumption

theorem issue_run {r : LaneIssue} {g : Grant} (got : r = .run g e) (all : IssueKeeps r) : Canonical e := by
  subst got
  cases all
  assumption

theorem command_idle {r : CommandIssue} (got : r = .idle e) (all : CommandKeeps r) : Canonical e := by
  subst got
  cases all
  assumption

theorem command_run {r : CommandIssue} {i : Instr} (got : r = .run i e) (all : CommandKeeps r) : Canonical e := by
  subst got
  cases all
  assumption

theorem check_trap {r : UniformCheck} {cause : BitVec 8} (got : r = .trap cause e) (all : CheckKeeps r) : Canonical e := by
  subst got
  cases all
  assumption

theorem check_unmapped {r : UniformCheck} (got : r = .unmapped e) (all : CheckKeeps r) : Canonical e := by
  subst got
  cases all
  assumption

theorem check_lost {r : UniformCheck} (got : r = .lost e) (all : CheckKeeps r) : Canonical e := by
  subst got
  cases all
  assumption

theorem check_go {r : UniformCheck} {pa : Nat} (got : r = .go pa e) (all : CheckKeeps r) : Canonical e := by
  subst got
  cases all
  assumption

theorem read_entries {r : StreamRead} {vs : List Word} (got : r = .entries vs e) (all : ReadKeeps r) : Canonical e := by
  subst got
  cases all
  assumption

theorem read_fault {r : StreamRead} {cause : BitVec 8} {va : Dword} (got : r = .fault cause va e)
    (all : ReadKeeps r) : Canonical e := by
  subst got
  cases all
  assumption

theorem read_uncorrectable {r : StreamRead} {va pa : Nat} (got : r = .uncorrectable va pa e)
    (all : ReadKeeps r) : Canonical e := by
  subst got
  cases all
  assumption

theorem read_lost {r : StreamRead} {va : Nat} (got : r = .lost va e) (all : ReadKeeps r) : Canonical e := by
  subst got
  cases all
  assumption

theorem ends_value {p : ε → Prop} {q : α → Prop} {r : Except ε α} {a : α} (got : r = .ok a) (all : Ends p q r) : q a := by
  subst got
  cases all
  assumption

theorem canonical_snd {r : α × Dev} {a : α} (got : r = (a, e)) (h : Canonical r.2) : Canonical e := by
  rw [got] at h
  exact h

theorem canonical_fst {r : Dev × α} {a : α} (got : r = (e, a)) (h : Canonical r.1) : Canonical e := by
  rw [got] at h
  exact h

theorem canonical_ite {c : Prop} [Decidable c] (yes : Canonical d) (no : Canonical e) : Canonical (if c then d else e) := by
  split
  · exact yes
  · exact no

theorem canonical_foldl {f : Dev → α → Dev} {xs : List α} (h : Canonical d)
    (each : ∀ (d : Dev) (x : α), Canonical d → Canonical (f d x)) : Canonical (xs.foldl f d) := by
  induction xs generalizing d with
  | nil => exact h
  | cons x xs ih => exact ih (each d x h)

theorem canonical_foldl_snd {f : β × Dev → α → β × Dev} {xs : List α} {r : β × Dev} (h : Canonical r.2)
    (each : ∀ (r : β × Dev) (x : α), Canonical r.2 → Canonical (f r x).2) : Canonical (xs.foldl f r).2 := by
  induction xs generalizing r with
  | nil => exact h
  | cons x xs ih => exact ih (each r x h)

theorem holds_all {q : α → Prop} {o : Option α} (all : ∀ a, q a) : Holds q o := by
  cases o with
  | none => exact .none
  | some a => exact .some (all a)

theorem holds_map {p : α → Prop} {q : β → Prop} {f : α → β} {o : Option α} (all : Holds p o) (each : ∀ a, p a → q (f a)) :
    Holds q (o.map f) := by
  cases all with
  | none => exact .none
  | some all => exact .some (each _ all)

theorem holds_map_all {q : β → Prop} {f : α → β} {o : Option α} (each : ∀ a, q (f a)) : Holds q (o.map f) :=
  holds_map (p := fun _ => True) (holds_all fun _ => trivial) fun a _ => each a

theorem holds_orElse {q : α → Prop} {f : Unit → Option α} {o : Option α} (all : Holds q o) (other : Holds q (f ())) :
    Holds q (o.orElse f) := by
  cases all with
  | none => exact other
  | some all => exact .some all

theorem holds_foldl {f : Option Dev → α → Option Dev} {xs : List α} {o : Option Dev} (all : Holds Canonical o)
    (each : ∀ (o : Option Dev) (x : α), Holds Canonical o → Holds Canonical (f o x)) : Holds Canonical (xs.foldl f o) := by
  induction xs generalizing o with
  | nil => exact all
  | cons x xs ih => exact ih (each o x all)

theorem holds_bind {p : α → Prop} {q : β → Prop} {f : α → Option β} {o : Option α} (all : Holds p o)
    (each : ∀ a, p a → Holds q (f a)) : Holds q (o.bind f) := by
  cases all with
  | none => exact .none
  | some all => exact each _ all

theorem holds_bind_all {q : β → Prop} {f : α → Option β} {o : Option α} (each : ∀ a, Holds q (f a)) : Holds q (o.bind f) := by
  cases o with
  | none => exact .none
  | some a => exact each a

theorem canonical_getD {o : Option Dev} (all : Holds Canonical o) (h : Canonical d) : Canonical (o.getD d) := by
  cases all with
  | none => exact h
  | some all => exact all

theorem canonical_getD_snd {o : Option (α × Dev)} {r : α × Dev} (all : Holds (fun r => Canonical r.2) o) (h : Canonical r.2) :
    Canonical (o.getD r).2 := by
  cases all with
  | none => exact h
  | some all => exact all

theorem ends_map {γ : Type} {p : ε → Prop} {q : α → Prop} {q' : γ → Prop} {f : α → γ} {r : Except ε α} (all : Ends p q r)
    (each : ∀ a, q a → q' (f a)) : Ends p q' (r.map f) := by
  cases all with
  | ok all => exact .ok (each _ all)
  | error all => exact .error all

theorem stays_run {s : Machine.State} {f : HostPart → Dev → Dev} (h : Canonical (f s.host s.dev)) : Stays (s.run f) := .next h

theorem stays_runHost {s : Machine.State} {f : HostPart → Dev → HostPart × Dev} (h : Canonical (f s.host s.dev).2) :
    Stays (s.runHost f) := .next h

/-! ## Changes of other parts of the device -/

section

theorem canonical_onContext {slot : Nat} {f : Context → Context} (h : Canonical d) : Canonical (d.onContext slot f) := h

theorem canonical_onLb {core lb : Nat} {f : LaneBlock → LaneBlock} (h : Canonical d) : Canonical (d.onLb core lb f) := h

theorem canonical_onWarp {id : Nat} {f : Warp → Warp} (h : Canonical d) : Canonical (d.onWarp id f) := h

theorem canonical_onFet {id : Nat} {f : Fet → Fet} (h : Canonical d) : Canonical (d.onFet id f) := h

theorem canonical_onTeam {id : Nat} {f : Team → Team} (h : Canonical d) : Canonical (d.onTeam id f) := h

theorem canonical_onLaunch {id : Nat} {f : Launch → Launch} (h : Canonical d) : Canonical (d.onLaunch id f) := h

theorem canonical_setWarp {id : Nat} {w : Warp} (h : Canonical d) : Canonical (d.setWarp id w) := h

theorem canonical_report {rtype severity slot source : Nat} {payload : List Byte} (h : Canonical d) :
    Canonical (d.report rtype severity slot source payload) := h

theorem canonical_clearChip {core bank off n : Nat} (h : Canonical d) : Canonical (d.clearChip core bank off n) := h

theorem canonical_setPhase {core op : Nat} {p : Phase} (h : Canonical d) : Canonical (d.setPhase core op p) := h

end

/-! ## Tables, physical memory and translation -/

section
variable {hp : HostPart} {slot core va pa n code : Nat} {want : Want} {leaf : Dword} {bs : List Byte} {ps : List (Nat × Nat)}

theorem canonical_putBytes (h : Canonical d) : Canonical (d.putBytes pa bs) := Dev.wf_putBytes pa bs h

theorem canonical_copyBytes {src dst : Nat} (h : Canonical d) : Canonical
    (d.copyBytes src dst n) := Memory.wf_copyRange src dst n h

theorem canonical_putParts (h : Canonical d) : Canonical (d.putParts ps bs) := Dev.wf_putParts ps bs h

theorem canonical_freeFrame (h : Canonical d) : Canonical (d.freeFrame pa) := by
  unfold Canonical
  rw [Dev.freeFrame_mem]
  exact h

theorem canonical_walked (h : Canonical d) : Canonical (d.walked slot core va want) := Dev.wf_walked slot core va want h

theorem canonical_unmapPage (h : Canonical d) : Canonical (d.unmapPage slot va) := Dev.wf_unmapPage slot va h

theorem canonical_translate (h : Canonical d) : Ends (fun _ => True) (fun r => Canonical r.2)
    (d.translate slot core va want) := by
  cases got : d.translate slot core va want with
  | error c => exact .error trivial
  | ok r => exact .ok (Dev.wf_translate h got)

theorem canonical_takeHbm {ks : List Nat} (h : Canonical d) : Holds (fun r => Canonical r.2) (d.takeHbm hp ks) := by
  cases got : d.takeHbm hp ks with
  | none => exact .none
  | some r => exact .some (Dev.wf_takeHbm h got)

theorem canonical_takeFrame {tier : Nat} (h : Canonical d) : Holds (fun r => Canonical r.2) (d.takeFrame hp tier) := by
  cases got : d.takeFrame hp tier with
  | none => exact .none
  | some r => exact .some (Dev.wf_takeFrame h got)

theorem canonical_mapPage (h : Canonical d) : Holds Canonical (d.mapPage hp slot va leaf) := by
  cases got : d.mapPage hp slot va leaf with
  | none => exact .none
  | some e => exact .some (Dev.wf_mapPage h got)

theorem canonical_mapRoots {roots : List Nat} {leaves : List Dword} (h : Canonical d) :
    Holds Canonical (d.mapRoots hp va roots leaves) := by
  cases got : d.mapRoots hp va roots leaves with
  | none => exact .none
  | some e => exact .some (Dev.wf_mapRoots h got)

theorem canonical_reach (h : Canonical d) : Canonical (d.reach hp slot core va want).2 := Dev.wf_reach slot core va want h

theorem ends_reached {r : Reached α} (h : Canonical r.dev) : Ends (fun e => Canonical e.2) (fun a => Canonical a.2) r := by
  cases r with
  | ok a => exact .ok h
  | error e => exact .error h

theorem canonical_readVa (h : Canonical d) :
    Ends (fun e => Canonical e.2) (fun r => Canonical r.2) (d.readVa hp slot core va n) := ends_reached
      (Dev.wf_readVa slot core va n h)

theorem canonical_readValue (h : Canonical d) :
    Ends (fun e => Canonical e.2) (fun r => Canonical r.2) (d.readValue hp slot core va n) :=
  ends_reached (Dev.wf_readValue slot core va n h)

theorem canonical_writeParts (h : Canonical d) :
    Ends (fun e => Canonical e.2) (fun r => Canonical r.2) (Dev.writeParts hp slot core d ps) :=
  ends_reached (Dev.wf_writeParts slot core ps h)

theorem canonical_writeVa (h : Canonical d) : Ends (fun e => Canonical e.2) Canonical (d.writeVa hp slot core va bs) := by
  have kept := Dev.wf_writeVa (h := hp) slot core va bs h
  cases got : d.writeVa hp slot core va bs with
  | error e =>
    rw [got] at kept
    exact .error kept
  | ok e =>
    rw [got] at kept
    exact .ok kept

end

end

end Sys2Proof.Proofs

end

section

/-! PROOF. Canonical memory: the parts of the device that every unit uses: translation, warps, records, the engines'
operations, and marks. -/

namespace Sys2Proof.Proofs

open Sys2Proof Sys2Proof.Machine Sys2Proof.Safety

section
variable {d : Dev} {hp : HostPart}

/-! ### Memory and translation -/

theorem canonical_fresh (h : Canonical d) : Canonical d.fresh.2 := h

theorem canonical_nextFree (h : Canonical d) : Canonical d.nextFree.2 := h

theorem canonical_dropTlb {slot base bytes : Nat} (h : Canonical d) : Canonical (d.dropTlb slot base bytes) := h

theorem canonical_takeFrameOn {die : Nat} (h : Canonical d) : Holds (fun r => Canonical r.2) (Dev.takeFrameOn hp d die) :=
  canonical_takeHbm h

theorem canonical_dropSnapshots {slot : Nat} (h : Canonical d) : Canonical (Dev.dropSnapshots hp d slot) := by
  unfold Dev.dropSnapshots
  extract_lets c d1
  have h_d1 : Canonical d1 := by
    unfold d1
    refine canonical_foldl h (fun _ _ h1 => ?_)
    split
    · exact canonical_freeFrame h1
    · split
      · exact h1
      · exact canonical_dropTlb (canonical_getD (canonical_mapPage h1) h1)
  exact h_d1

/-! ### Warps and their selection -/

theorem canonical_addTransfers {w : Warp} {ts : List Transfer} (h : Canonical d) : Canonical (d.addTransfers w ts) :=
  canonical_ite h h

theorem canonical_select {id : Nat} (h : Canonical d) : Canonical (d.select id) := by
  unfold Dev.select
  split
  · exact h
  · exact canonical_addTransfers h

theorem canonical_mergeCheck {id : Nat} (h : Canonical d) : Canonical (d.mergeCheck id) := by
  unfold Dev.mergeCheck
  split
  · exact h
  · split
    · exact h
    · exact canonical_ite (canonical_select h) h

theorem canonical_block {id : Nat} {r : Wait} (h : Canonical d) : Canonical (d.block id r) := canonical_select h

/-! ### Records and streams -/

theorem canonical_patchRecord {id cls : Nat} (h : Canonical d) : Canonical (d.patchRecord id cls) := by
  unfold Dev.patchRecord
  split
  · exact h
  · split
    · exact h
    · extract_lets put
      have h_put : ∀ (d : Dev) (off v : Nat), Canonical d → Canonical (put d off v) := by
        unfold put
        intro d _ _ h1
        split
        · exact h1
        · exact canonical_putBytes h1
      exact h_put _ _ _ (h_put _ _ _ h)

theorem canonical_storeRd {slot n : Nat} (h : Canonical d) : Canonical (Dev.storeRd hp d slot n) := by
  unfold Dev.storeRd
  split
  next got => exact ends_dev got (canonical_writeVa h)
  next got => exact ends_error got (canonical_writeVa h)

theorem canonical_failCommand {slot n : Nat} {tag : BitVec 32} {status opcode byte6 word : Nat} (h : Canonical d) :
    Canonical (Dev.failCommand hp d slot n tag status opcode byte6 word) := by
  unfold Dev.failCommand
  extract_lets s d1
  have h_d1 : Canonical d1 := canonical_ite h (canonical_storeRd h)
  split
  · exact h_d1
  · split
    next got => exact ends_dev got (canonical_writeVa h_d1)
    next got => exact ends_error got (canonical_writeVa h_d1)

/-! ### Ends of warps, teams, launches and contexts -/

theorem canonical_withdraw {gone : QueueRequest → Bool} (h : Canonical d) : Canonical (d.withdraw gone) := h

theorem canonical_dropForwards {gone : Nat → Bool} (h : Canonical d) : Canonical (d.dropForwards gone) := h

theorem canonical_leaveWarp {id : Nat} (h : Canonical d) : Canonical (d.leaveWarp id) := by
  unfold Dev.leaveWarp
  split
  · exact h
  · extract_lets d1
    have h_d1 : Canonical d1 := canonical_withdraw h
    exact h_d1

theorem canonical_endWarp {id : Nat} (h : Canonical d) : Canonical (d.endWarp id) := by
  unfold Dev.endWarp
  extract_lets d1
  have h_d1 : Canonical d1 := canonical_withdraw (canonical_leaveWarp h)
  exact h_d1

theorem canonical_endFet {id : Nat} (h : Canonical d) : Canonical (d.endFet id) := h

theorem canonical_freeTeamOn {team slot core : Nat} (h : Canonical d) : Canonical (d.freeTeamOn team slot core) :=
  canonical_foldl h (fun _ _ h1 => canonical_dropTlb (canonical_unmapPage h1))

theorem canonical_releaseTeam {team : Nat} (h : Canonical d) : Canonical (d.releaseTeam team) := by
  unfold Dev.releaseTeam
  split
  · exact h
  · extract_lets d1 d2
    have h_d1 : Canonical d1 := canonical_foldl h (fun _ _ h1 => canonical_freeTeamOn h1)
    have h_d2 : Canonical d2 := canonical_dropForwards h_d1
    exact h_d2

theorem canonical_settleTeam {team : Nat} (h : Canonical d) : Canonical (d.settleTeam team) := by
  unfold Dev.settleTeam
  split
  · exact h
  · exact canonical_ite h (canonical_ite (canonical_releaseTeam h) (canonical_releaseTeam h))

theorem canonical_stopTeam {team : Nat} (h : Canonical d) : Canonical (d.stopTeam team) :=
  canonical_foldl (canonical_foldl h (fun _ _ h1 => canonical_endWarp h1)) (fun _ _ h1 => canonical_endFet h1)

theorem canonical_closePush {r : QueueRequest} (h : Canonical d) : Canonical (d.closePush r) := by
  unfold Dev.closePush
  split
  · exact h
  · exact h

theorem canonical_closePushes {launch : Nat} (h : Canonical d) : Canonical (d.closePushes launch) := by
  unfold Dev.closePushes
  split
  · exact h
  · exact canonical_foldl h (fun _ _ h1 => canonical_closePush h1)

theorem canonical_freeQueues {launch : Nat} {ss : StageSet} (h : Canonical d) : Canonical (d.freeQueues launch ss) :=
  canonical_foldl h (fun _ _ h1 => h1)

theorem canonical_settleStages {launch : Nat} (h : Canonical d) : Canonical (d.settleStages launch) := by
  unfold Dev.settleStages
  split
  · exact h
  · split
    · exact h
    · exact canonical_ite h (canonical_ite (canonical_freeQueues (canonical_ite h (canonical_closePushes h))) (canonical_ite h
      (canonical_closePushes h)))

theorem canonical_failNode {graph n status byte6 : Nat} (h : Canonical d) :
    Canonical (Dev.failNode hp d graph n status byte6) := by
  unfold Dev.failNode
  split
  · exact h
  · split
    · exact h
    · exact canonical_failCommand h

theorem canonical_settleLaunch {launch : Nat} (h : Canonical d) : Canonical (Dev.settleLaunch hp d launch) := by
  unfold Dev.settleLaunch
  split
  · exact h
  · split
    · exact h
    · extract_lets d1 d2 d3 d4
      have h_d1 : Canonical d1 := h
      have h_d2 : Canonical d2 := by
        unfold d2
        split
        · exact h_d1
        · exact canonical_freeQueues h_d1
      have h_d3 : Canonical d3 := canonical_ite (canonical_dropSnapshots h_d2) h_d2
      exact canonical_ite (canonical_failNode h_d3) (canonical_ite (canonical_failNode h_d3) h_d3)

theorem canonical_settleGraph {graph : Nat} (h : Canonical d) : Canonical (Dev.settleGraph hp d graph) := by
  unfold Dev.settleGraph
  split
  · exact h
  · exact canonical_ite h (canonical_ite (canonical_failCommand h) h)

theorem canonical_settle (h : Canonical d) : Canonical (Dev.settle hp d) := by
  unfold Dev.settle
  extract_lets d1 d2 d3
  have h_d1 : Canonical d1 := canonical_foldl h (fun _ _ h1 => canonical_settleTeam h1)
  have h_d2 : Canonical d2 := canonical_foldl h_d1 (fun _ _ h1 => canonical_settleStages h1)
  exact canonical_foldl (canonical_foldl h_d2 (fun _ _ h1 => canonical_settleLaunch h1)) (fun _ _ h1 => canonical_settleGraph h1)

theorem canonical_cancelTeam {team : Nat} (h : Canonical d) : Canonical (d.cancelTeam team) := canonical_stopTeam h

theorem canonical_cancelLaunch {launch : Nat} (h : Canonical d) : Canonical (d.cancelLaunch launch) := by
  unfold Dev.cancelLaunch
  split
  · exact h
  · exact canonical_ite h (canonical_foldl h (fun _ _ h1 => canonical_cancelTeam h1))

theorem canonical_cancelGraph {graph : Nat} (h : Canonical d) : Canonical (d.cancelGraph graph) :=
  canonical_foldl h (fun _ _ h1 => canonical_cancelLaunch h1)

theorem canonical_stopStream {slot : Nat} {cause : BitVec 8} {n : Nat} (h : Canonical d) :
    Canonical (Dev.stopStream hp slot cause d n) := canonical_ite (canonical_failCommand h) h

theorem canonical_dropContextWarps {slot : Nat} (h : Canonical d) : Canonical (d.dropContextWarps slot) := by
  unfold Dev.dropContextWarps
  extract_lets gone d1
  have h_d1 : Canonical d1 := canonical_dropForwards (canonical_foldl h (fun _ _ h1 => canonical_endWarp h1))
  exact h_d1

theorem canonical_terminate {slot : Nat} {cause : BitVec 8} (h : Canonical d) : Canonical (Dev.terminate hp d slot cause) := by
  unfold Dev.terminate
  extract_lets d1 d2 d3 d4
  have h_d1 : Canonical d1 := canonical_foldl h (fun _ _ h1 => canonical_stopStream h1)
  clear_value d1
  have h_d2 : Canonical d2 := canonical_dropContextWarps h_d1
  clear_value d2
  have h_d3 : Canonical d3 := h_d2
  clear_value d3
  have h_d4 : Canonical d4 := h_d3
  clear_value d4
  exact canonical_dropSnapshots h_d4

theorem canonical_kill {slot va : Nat} {cause : BitVec 8} {team w : Option Nat} {frames : List Byte} (h : Canonical d) :
    Canonical (d.kill hp slot cause team w va frames) := by
  unfold Dev.kill
  refine canonical_report (canonical_terminate ?_)
  split
  · exact h
  · extract_lets base
    split
    next got => exact ends_dev got (canonical_writeVa h)
    next got => exact ends_error got (canonical_writeVa h)

theorem canonical_killSlot {slot va : Nat} (h : Canonical d) : Canonical (Dev.killSlot hp d slot va) :=
  canonical_settle (canonical_kill h)

theorem canonical_killAt {p : Party} {slot va : Nat} (h : Canonical d) : Canonical (Dev.killAt hp d p slot va) :=
  canonical_settle (canonical_kill h)

theorem canonical_unreadable {slot : Nat} {f : Failure} {fail : Dev → Dev} (h : Canonical d)
    (each : ∀ (a : Dev), Canonical a → Canonical (fail a)) :
    Canonical (Dev.unreadable hp d slot f fail) := by
  unfold Dev.unreadable
  split
  · exact canonical_killSlot h
  · exact canonical_killSlot h
  · exact each _ h

theorem canonical_haltTeam {team : Nat} (h : Canonical d) : Canonical (d.haltTeam team) := canonical_stopTeam h

theorem canonical_afterEnding {team : Nat} {w : Option Nat} {va : Nat} {frame : List Byte} (h : Canonical d) :
    Canonical (Dev.afterEnding hp d team w va frame) := by
  unfold Dev.afterEnding
  split
  · exact canonical_ite h (canonical_ite (canonical_foldl h (fun _ _ h1 => canonical_haltTeam h1)) (canonical_kill h))
  · exact h

theorem canonical_endTeam {team : Nat} {who : Option Nat} {lanes : Mask} {pc : Va} {va pa : Nat} (h : Canonical d) :
    Canonical (Dev.endTeam hp d team who lanes pc va pa) := by
  unfold Dev.endTeam
  refine canonical_settle ?_
  refine canonical_afterEnding ?_
  refine canonical_report ?_
  refine canonical_haltTeam ?_
  split
  · exact h
  · dsimp only
    split
    next got =>
      have h1 := ends_dev got (canonical_writeVa h)
      exact h1
    next got =>
      have h1 := ends_error got (canonical_writeVa h)
      exact h1

/-! ### Marks and ordering points -/

theorem canonical_settleWarp {id : Nat} (h : Canonical d) : Canonical (d.settleWarp id) := by
  unfold Dev.settleWarp
  split
  · exact h
  · exact canonical_ite (canonical_addTransfers h) (canonical_addTransfers h)

theorem canonical_addParts {party : Party} {marks : List OrderMark} {i : Instr} {pc : Va} {stamp lane : Nat} {f : MemForm}
    {ea : Dword} {data expect : List Word} {tickets : List Nat} {pa : Option Nat} {a : List Nat} (h : Canonical d) :
    Canonical (d.addParts party marks i pc stamp lane f ea data expect tickets pa a) := by
  induction a generalizing d party marks i pc stamp lane f ea data expect tickets pa with
  | nil =>
    unfold Dev.addParts
    exact h
  | cons x xs ih =>
    unfold Dev.addParts
    exact ih h

theorem canonical_addAccess {party : Party} {marks : List OrderMark} {i : Instr} {pc : Va} {stamp lane : Nat} {f : MemForm}
    {ea : Dword} {data expect : List Word} {tickets : List Nat} {pa : Option Nat} (h : Canonical d) :
    Canonical (d.addAccess party marks i pc stamp lane f ea data expect tickets pa) := canonical_addParts h

theorem canonical_issueAccess {id : Nat} {marks : List OrderMark} {i : Instr} {pc : Va} {stamp lane : Nat} {f : MemForm}
    {ea : Dword} {data expect : List Word} {tickets : List Nat} {pa : Option Nat} (h : Canonical d) :
    Canonical (d.issueAccess id marks i pc stamp lane f ea data expect tickets pa) := by
  unfold Dev.issueAccess
  extract_lets first d1
  have h_d1 : Canonical d1 := canonical_addAccess h
  exact canonical_ite h_d1 h_d1

end

end Sys2Proof.Proofs

end

section

/-! PROOF. Canonical memory: the ways in which an instruction issues, and the instructions on the stack and of control. -/

namespace Sys2Proof.Proofs

open Sys2Proof Sys2Proof.Machine Sys2Proof.Safety

section
variable {d : Dev} {hp : HostPart}

/-! ### Traps, kills and the forms of issue -/

theorem canonical_writeLine {pa : Nat} {lanes : Mask} {words : List Word} (h : Canonical d) :
    Canonical (d.writeLine pa lanes words) := by
  unfold Dev.writeLine
  refine canonical_foldl h (fun _ _ h1 => ?_)
  split
  · exact canonical_putBytes h1
  · exact canonical_putBytes h1
  · exact canonical_putBytes h1
  · exact h1

theorem canonical_retire {core : Nat} {f : Forward} (h : Canonical d) : Canonical (Dev.retire core d f) := by
  unfold Dev.retire
  split
  · exact canonical_writeLine h
  · split
    · exact h
    · extract_lets slot va refused
      have h_refused : ∀ (d : Dev) (cause : BitVec 8), Canonical d → Canonical (refused d cause) :=
        fun _ _ h1 => canonical_fresh h1
      split
      · exact h_refused _ _ h
      · split
        · exact h_refused _ _ (canonical_walked h)
        next got => exact canonical_writeLine (ends_ok got (canonical_translate h))

theorem canonical_pushForwards {core lb : Nat} {fs : List Forward} (h : Canonical d) :
    Canonical (d.pushForwards core lb fs) := canonical_foldl h (fun _ _ h1 => canonical_retire h1)

theorem canonical_areaWritable {slot core base : Nat} (h : Canonical d) :
    Ends (fun r => Canonical r.2) Canonical (Dev.areaWritable hp d slot core base) := by
  unfold Dev.areaWritable
  split
  · exact .error h
  · split
    next got => exact .ok (ends_ok got (canonical_writeParts h))
    next got => exact .error (ends_failure got (canonical_writeParts h))

theorem canonical_doubleTrap {id : Nat} {p : Posted} (h : Canonical d) : Canonical (d.doubleTrap hp id p) := by
  unfold Dev.doubleTrap
  split
  · exact h
  · extract_lets slot base frame d1 first
    refine canonical_settle (canonical_kill ?_)
    unfold d1
    split
    next got => exact ends_dev got (canonical_writeVa h)
    next got => exact ends_error got (canonical_writeVa h)

theorem canonical_nestFault {id stamp : Nat} {lanes : Mask} {pc : Va} {va : Dword} (h : Canonical d) :
    Canonical (d.nestFault hp id stamp lanes pc va) := by
  unfold Dev.nestFault
  split
  · exact h
  · split
    · exact h
    · split
      · split
        next got => exact canonical_doubleTrap (canonical_snd got (canonical_fresh h))
      · split
        next got =>
          have h1 := canonical_snd got (canonical_nextFree h)
          extract_lets base d2
          have h2 : Canonical d2 := by
            unfold d2
            split
            next got1 => exact ends_dev got1 (canonical_writeVa h1)
            next got1 => exact ends_error got1 (canonical_writeVa h1)
          exact canonical_onWarp h2

theorem canonical_served {id : Nat} (h : Canonical d) : Canonical (d.served id) := canonical_ite h h

theorem canonical_escalate {id : Nat} {w : Warp} {p : Posted} {open_ : Table Access} {f : Failure} (h : Canonical d) :
    Canonical (Dev.escalate hp d id w p open_ f) := by
  unfold Dev.escalate
  extract_lets d1
  have h_d1 : Canonical d1 := h
  split
  · exact canonical_killAt h_d1
  · exact canonical_doubleTrap h_d1

theorem canonical_takeTrap {id : Nat} {p : Posted} (h : Canonical d) : Canonical (d.takeTrap hp id p) := by
  unfold Dev.takeTrap
  split
  · exact h
  · split
    · exact canonical_doubleTrap h
    · extract_lets slot base p₁ w₁ spills stopped w₂ w₃ reps entry held ids all d1 d2 d3
      have h1 : Canonical d1 := h
      have h2 : Canonical d2 := canonical_onLb (canonical_withdraw h1)
      have h3 : Canonical d3 := canonical_pushForwards h2
      split
      next got => exact canonical_escalate (ends_failure got (canonical_areaWritable h3))
      next got =>
        have h4 := ends_dev got (canonical_areaWritable h3)
        split
        next got1 => exact canonical_escalate (ends_failure got1 (canonical_writeVa h4))
        next got1 => exact canonical_setWarp (ends_dev got1 (canonical_writeVa h4))

theorem canonical_deliver {id : Nat} (h : Canonical d) : Canonical (Dev.deliver hp d id) := by
  unfold Dev.deliver
  split
  · exact h
  · split
    · exact h
    · exact canonical_ite (canonical_takeTrap h) h

theorem canonical_raise {id : Nat} {s : Split} {cause : BitVec 8} {lanes : Mask} {va : Dword} {code : BitVec 16}
    (h : Canonical d) :
    Canonical (Dev.raise hp d id s cause lanes va code) := canonical_deliver h

theorem canonical_undelivered {team : Nat} {p : Posted} (h : Canonical d) : Canonical (Dev.undelivered hp d team p) := by
  unfold Dev.undelivered
  split
  · exact h
  · extract_lets slot base frame d1
    have h_d1 : Canonical d1 := by
      unfold d1
      split
      next got => exact ends_dev got (canonical_writeVa h)
      next got => exact ends_error got (canonical_writeVa h)
    exact h_d1

theorem canonical_delegate {team origin : Nat} {p : Posted} (h : Canonical d) :
    Canonical (Dev.delegate hp d team origin p) := by
  unfold Dev.delegate
  split
  · exact canonical_undelivered h
  · exact h

theorem canonical_fetTrapAt {fet stamp : Nat} {cause : BitVec 8} {lanes : Mask} {pc : Va} {va : Dword} {erec : List Byte}
    (h : Canonical d) :
    Canonical (Dev.fetTrapAt hp d fet stamp cause lanes pc va erec) := by
  unfold Dev.fetTrapAt
  split
  · exact h
  · extract_lets p d1
    have h_d1 : Canonical d1 := h
    split
    · exact canonical_undelivered h_d1
    · exact canonical_deliver h_d1

theorem canonical_fetTrap {fet : Nat} {cause : BitVec 8} {lanes : Mask} {pc : Va} {va : Dword} {erec : List Byte}
    (h : Canonical d) :
    Canonical (Dev.fetTrap hp d fet cause lanes pc va erec) := canonical_fetTrapAt h

theorem canonical_misplaced (h : Canonical d) : Canonical (Dev.misplaced hp d) := by
  unfold Dev.misplaced
  split
  · split
    · exact h
    · exact canonical_raise h
  · split
    · exact h
    · exact canonical_fetTrap h
  · exact h

theorem canonical_requestTransfer {id : Nat} {w : Warp} {s : Split} {c : Nat} (h : Canonical d) :
    Canonical (d.requestTransfer id w s c) := canonical_block (canonical_addTransfers h)

theorem canonical_refused {id : Nat} {w : Warp} {s : Split} {a : Verdict} (h : Canonical d) :
    Canonical (Dev.refused hp d id w s a) := by
  unfold Dev.refused
  split
  · exact h
  · exact canonical_raise h
  · exact canonical_requestTransfer h
  · exact canonical_block h

theorem canonical_issueWarp {n : Need} {k : Nat → Warp → Split → Dev} (h : Canonical d)
    (each : ∀ (i : Nat) (w : Warp) (p : Split), Canonical (k i w p)) :
    Canonical (Dev.issueWarp hp d n k) := by
  unfold Dev.issueWarp
  split
  · split
    · exact h
    · split
      · exact h
      · split
        · exact each _ _ _
        · exact canonical_refused h
  · exact canonical_misplaced h
  · exact h

theorem canonical_commit {id : Nat} {w : Warp} {s : Split} (h : Canonical d) : Canonical (d.commit id w s) := h

theorem canonical_checked {id : Nat} {s : Split} {cs : List ValueCheck} {d1 : Dev} (h : Canonical d) (h1 : Canonical d1) :
    Canonical (Dev.checked hp d id s cs d1) := by
  unfold Dev.checked
  split
  · exact canonical_raise h
  · exact h1

theorem canonical_issueEither {bytes : Nat} {regs : List Nat} {kw : Nat → Warp → Split → Dev} {kf : Nat → Fet → Dev}
    (h : Canonical d) (each : ∀ (i : Nat) (w : Warp) (p : Split), Canonical (kw i w p))
    (each1 : ∀ (i : Nat) (f : Fet), Canonical (kf i f)) :
    Canonical (Dev.issueEither hp d bytes regs kw kf) := by
  unfold Dev.issueEither
  split
  · split
    · exact h
    · exact canonical_ite h (each1 _ _)
  · exact canonical_issueWarp h (fun _ _ _ => each _ _ _)

theorem canonical_commitFet {id : Nat} {f : Fet} {bytes : Nat} (h : Canonical d) : Canonical (d.commitFet id f bytes) := h

theorem canonical_uniform {bytes : Nat} {regs : List Nat} {f : Uniform → Uniform} (h : Canonical d) :
    Canonical (Dev.uniform hp d bytes regs f) :=
  canonical_issueEither h (fun _ _ _ => canonical_commit h) (fun _ _ => canonical_commitFet h)

theorem canonical_reinject {id : Nat} {w : Warp} {e : ReplayEntry} {next : Option ReplayEntry} (h : Canonical d) :
    Canonical (d.reinject id w e next) := by
  unfold Dev.reinject
  split
  · exact h
  · exact canonical_foldl h (fun _ _ h1 => canonical_issueAccess h1)

theorem canonical_replayAll {id : Nat} {a : List ReplayEntry} (h : Canonical d) : Canonical (Dev.replayAll id a d) := by
  induction a generalizing id d with
  | nil =>
    unfold Dev.replayAll
    exact h
  | cons x xs ih =>
    unfold Dev.replayAll
    extract_lets pair second discard
    split
    · exact ih h
    · split
      · exact h
      · exact ih (canonical_ite h (canonical_reinject h))

theorem canonical_returnFromTrap {id : Nat} {w : Warp} {hd : Handler} {s : Split} (h : Canonical d) :
    Canonical (d.returnFromTrap hp id w hd s) := by
  unfold Dev.returnFromTrap
  split
  next got => exact canonical_endTeam (ends_error got (canonical_readVa h))
  next got => exact canonical_killAt (ends_error got (canonical_readVa h))
  next got => exact canonical_raise (ends_error got (canonical_readVa h))
  next got =>
    have h1 := ends_ok got (canonical_readVa h)
    split
    · exact canonical_raise h1
    · extract_lets d2
      have h2 : Canonical d2 := h1
      exact canonical_select (canonical_settleWarp (canonical_replayAll h2))

/-! ### Instructions on operands -/

theorem canonical_holdIssue {w : Warp} {cycles : Nat} (h : Canonical d) : Canonical (d.holdIssue w cycles) := canonical_ite h h

theorem canonical_entryMark {id : Nat} {s : Split} {entries : List (Word × List Nat)} (h : Canonical d) :
    Canonical (d.entryMark id s entries) := canonical_ite h h

theorem canonical_laneOp {bytes : Nat} {wbit : Bool} {hold : Nat} {r : Route} {o : LaneOp} (h : Canonical d) :
    Canonical (Dev.laneOp hp d bytes wbit hold r o) :=
  canonical_issueWarp h (fun _ _ _ => canonical_entryMark (canonical_holdIssue (canonical_commit h)))

theorem canonical_stackOp {n : Need} {f : Thread → Thread} (h : Canonical d) : Canonical (Dev.stackOp hp d n f) :=
  canonical_issueWarp h (fun _ _ _ => canonical_commit h)

theorem stays_lane16 {s : Machine.State} {w : Bool} {o : LaneOp} (h : Canonical s.dev) : Stays (s.lane16 w o) :=
  stays_run (canonical_laneOp h)

/-! ### Stack instructions -/

theorem canonical_nop (h : Canonical d) : Canonical (Dev.nop hp d) := canonical_stackOp h

theorem canonical_moveCells {pops pushes : Nat} {f : List Cell → List Cell} (h : Canonical d) :
    Canonical (Dev.moveCells hp d pops pushes f) := canonical_stackOp h

theorem canonical_pushOp {bytes : Nat} {f : Dev → Warp → Split → Thread → Word} (h : Canonical d) :
    Canonical (Dev.pushOp hp d bytes f) := canonical_issueWarp h (fun _ _ _ => canonical_commit h)

theorem stays_execDepth {x : Bool} {s : Machine.State} (h : Canonical s.dev) : Stays (execDepth x s) :=
  stays_run (canonical_pushOp h)

theorem stays_execLitS {x : Bool} {v : BitVec 7} {s : Machine.State} (h : Canonical s.dev) : Stays (execLitS x v s) :=
  stays_run (canonical_pushOp h)

theorem stays_execLit32 {imm : BitVec 32} {s : Machine.State} (h : Canonical s.dev) : Stays (execLit32 imm s) :=
  stays_run (canonical_pushOp h)

theorem canonical_readFrame {id : Nat} {w : Warp} {s : Split} {slot k : Nat} (h : Canonical d) :
    Canonical (Dev.readFrame hp d id w s slot k) := by
  unfold Dev.readFrame
  split
  · exact canonical_endTeam h
  · exact canonical_block h

theorem canonical_loadFrame {bytes slot k : Nat} (h : Canonical d) : Canonical (Dev.loadFrame hp d bytes slot k) :=
  canonical_issueWarp h (fun _ _ _ => canonical_checked h (canonical_ite (canonical_commit h) (canonical_readFrame h)))

theorem canonical_storeFrame {bytes : Nat} {wbit : Bool} {slot k : Nat} (h : Canonical d) :
    Canonical (Dev.storeFrame hp d bytes wbit slot k) :=
  canonical_issueWarp h (fun _ _ _ => canonical_checked h (canonical_commit (canonical_pushForwards h)))

theorem canonical_moveFrame {n : Nat} {bad : Nat → Bool} {f : Nat → Nat} (h : Canonical d) :
    Canonical (Dev.moveFrame hp d n bad f) := canonical_issueWarp h (fun _ _ _ => canonical_checked h (canonical_commit h))

theorem canonical_enterFrame {n : Nat} (h : Canonical d) : Canonical (Dev.enterFrame hp d n) := by
  unfold Dev.enterFrame
  split <;> exact canonical_moveFrame h

theorem stays_execLeave {x : Bool} {n : BitVec 8} {s : Machine.State} (h : Canonical s.dev) : Stays (execLeave x n s) :=
  stays_run (canonical_moveFrame h)

theorem canonical_readSpecial {n cells : Nat} {f : Dev → Warp → Split → Thread → List Cell → List Cell} (h : Canonical d) :
    Canonical (Dev.readSpecial hp d n cells f) :=
  canonical_issueWarp h (fun _ _ _ => canonical_ite (canonical_block h) (canonical_commit h))

theorem canonical_popLowest {bytes : Nat} {wbit : Bool} {f : Warp → Word → Warp} {g : Split → Split} (h : Canonical d) :
    Canonical (Dev.popLowest hp d bytes wbit f g) := canonical_issueWarp h (fun _ _ _ => canonical_commit h)

theorem stays_execWrsLfsr {w : Bool} {s : Machine.State} (h : Canonical s.dev) : Stays (execWrsLfsr w s) :=
  stays_run (canonical_popLowest h)

theorem stays_execWrsVigil {w : Bool} {s : Machine.State} (h : Canonical s.dev) : Stays (execWrsVigil w s) :=
  stays_run (canonical_popLowest h)

theorem stays_execFlags {x clear : Bool} {s : Machine.State} (h : Canonical s.dev) : Stays (execFlags x clear s) :=
  stays_run (canonical_issueWarp h (fun _ _ _ => canonical_commit h))

theorem stays_execLead {x : Bool} {s : Machine.State} (h : Canonical s.dev) : Stays (execLead x s) :=
  stays_run (canonical_pushOp h)

theorem stays_execVote {w : Bool} {mode : BitVec 2} {s : Machine.State} (h : Canonical s.dev) :
    Stays (execVote w mode s) :=
  stays_run (canonical_ite (canonical_misplaced h) (canonical_issueWarp h (fun _ _ _ => canonical_commit h)))

theorem stays_execShfl {w : Bool} {mode : BitVec 2} {s : Machine.State} (h : Canonical s.dev) :
    Stays (execShfl w mode s) := stays_run (canonical_issueWarp h (fun _ _ _ => canonical_commit h))

/-! ### Integer instructions -/

theorem stays_execIcmp {w nat : Bool} {cond : BitVec 3} {s : Machine.State} (h : Canonical s.dev) :
    Stays (execIcmp w nat cond s) := by
  unfold execIcmp
  split
  · exact stays_run (canonical_misplaced h)
  · exact stays_lane16 h

theorem stays_execIcmp2 {w nat : Bool} {cond : BitVec 3} {s : Machine.State} (h : Canonical s.dev) :
    Stays (execIcmp2 w nat cond s) := by
  unfold execIcmp2
  split
  · exact stays_run (canonical_misplaced h)
  · exact stays_lane16 h

/-! ### Floating-point instructions -/

theorem stays_lane32 {s : Machine.State} {w : Bool} {hold : Nat} {o : LaneOp} (h : Canonical s.dev) :
    Stays (s.lane32 w hold o) := stays_run (canonical_laneOp h)

theorem stays_execL32Routed {op : BitVec 7} {w : Bool} {ra rb : BitVec 2} {rd : Bool} {cha chb chd mod : BitVec 4}
    {s : Machine.State} (h : Canonical s.dev) :
    Stays (execL32Routed op w ra rb rd cha chb chd mod s) := by
  unfold execL32Routed
  refine stays_run ?_
  split
  · exact canonical_misplaced h
  · exact canonical_ite (canonical_laneOp h) (canonical_misplaced h)

/-! ### Conversions -/

theorem stays_execCvtSlot {w : Bool} {src dst : BitVec 3} {s : Machine.State} (h : Canonical s.dev) :
    Stays (execCvtSlot w src dst s) := by
  unfold execCvtSlot
  refine stays_run ?_
  extract_lets a b
  split
  · exact canonical_laneOp h
  · exact canonical_misplaced h

theorem stays_execBpack {w : Bool} {slot : BitVec 3} {s : Machine.State} (h : Canonical s.dev) :
    Stays (execBpack w slot s) := by
  unfold execBpack
  refine stays_run ?_
  extract_lets f n
  split
  · exact canonical_misplaced h
  · exact canonical_issueWarp h (fun _ _ _ => canonical_commit h)

theorem stays_execBunpack {w : Bool} {slot : BitVec 3} {s : Machine.State} (h : Canonical s.dev) :
    Stays (execBunpack w slot s) := by
  unfold execBunpack
  refine stays_run ?_
  split
  · exact canonical_misplaced h
  · exact canonical_issueWarp h (fun _ _ _ => canonical_commit h)

/-! ### Control instructions -/

theorem canonical_goTo {id : Nat} {w : Warp} {parts : List Split} (h : Canonical d) : Canonical (d.goTo id w parts) := by
  unfold Dev.goTo
  split
  · exact canonical_mergeCheck (canonical_commit h)
  · exact canonical_select h

theorem canonical_condBranch {bytes : Nat} {wbit nz push : Bool} {off : Int} (h : Canonical d) :
    Canonical (Dev.condBranch hp d bytes wbit nz push off) :=
  canonical_issueWarp h (fun _ _ _ => canonical_checked h (canonical_goTo h))

theorem canonical_jump {bytes : Nat} {off : Int} (h : Canonical d) : Canonical (Dev.jump hp d bytes off) :=
  canonical_issueWarp h (fun _ _ _ => canonical_goTo h)

theorem stays_execBrq {x : Bool} {off : BitVec 7} {s : Machine.State} (h : Canonical s.dev) : Stays (execBrq x off s) :=
  stays_run (canonical_issueWarp h (fun _ _ _ => canonical_goTo (canonical_entryMark h)))

theorem canonical_uniformBranch {bytes : Nat} {taken : BitVec 8 → Bool} {off : Int} (h : Canonical d) :
    Canonical (Dev.uniformBranch hp d bytes taken off) := by
  unfold Dev.uniformBranch
  exact canonical_issueEither h (fun _ _ _ => canonical_goTo h) (fun _ _ => canonical_ite (canonical_commitFet h)
    (canonical_commitFet h))

theorem canonical_arriveJoin {id : Nat} {w : Warp} {s : Split} {n : Need} {top : Mask} {rest : List Mask} (h : Canonical d) :
    Canonical (d.arriveJoin id w s n top rest) := canonical_ite (canonical_commit h) (canonical_select (canonical_settleWarp h))

theorem stays_execJoin {x : Bool} {k : BitVec 7} {s : Machine.State} (h : Canonical s.dev) : Stays (execJoin x k s) := by
  unfold execJoin
  refine stays_run ?_
  refine canonical_issueWarp h (fun _ _ _ => ?_)
  split
  · exact canonical_raise h
  · exact canonical_ite (canonical_raise h) (canonical_arriveJoin h)

theorem stays_execWsync {x : Bool} {s : Machine.State} (h : Canonical s.dev) : Stays (execWsync x s) := by
  unfold execWsync
  exact stays_run (canonical_issueWarp h (fun _ _ _ => canonical_ite (canonical_raise h) (canonical_select
    (canonical_settleWarp h))))

theorem stays_execJtab {w : Bool} {last : BitVec 5} {s : Machine.State} (h : Canonical s.dev) :
    Stays (execJtab w last s) := by
  unfold execJtab
  refine stays_run ?_
  refine canonical_issueWarp h (fun _ _ _ => ?_)
  split
  · exact canonical_block h
  · exact canonical_endTeam h
  · exact canonical_checked h (canonical_goTo h)

theorem stays_execCall {x : Bool} {off : BitVec 16} {s : Machine.State} (h : Canonical s.dev) :
    Stays (execCall x off s) := stays_run (canonical_issueWarp h (fun _ _ _ => canonical_checked h (canonical_goTo h)))

theorem stays_execRet {x : Bool} {s : Machine.State} (h : Canonical s.dev) : Stays (execRet x s) :=
  stays_run (canonical_issueWarp h (fun _ _ _ => canonical_checked h (canonical_goTo h)))

theorem canonical_endThreads {id : Nat} {w : Warp} {s : Split} (h : Canonical d) : Canonical (Dev.endThreads hp d id w s) := by
  unfold Dev.endThreads
  extract_lets w1 d1
  have h_d1 : Canonical d1 := h
  split
  · exact canonical_settle (canonical_leaveWarp h_d1)
  · exact canonical_select (canonical_settleWarp h_d1)

theorem stays_execExit {x : Bool} {s : Machine.State} (h : Canonical s.dev) : Stays (execExit x s) :=
  stays_run (canonical_issueWarp h (fun _ _ _ => canonical_endThreads h))

theorem stays_execYield {x : Bool} {s : Machine.State} (h : Canonical s.dev) : Stays (execYield x s) :=
  stays_run (canonical_issueWarp h fun _ _ _ => canonical_select (canonical_onLb (canonical_commit h)))

theorem stays_execBrk {x : Bool} {code : BitVec 7} {s : Machine.State} (h : Canonical s.dev) : Stays (execBrk x code s) :=
  stays_run (canonical_issueWarp h (fun _ _ _ => canonical_raise h))

theorem stays_execTrap {x : Bool} {code : BitVec 16} {s : Machine.State} (h : Canonical s.dev) :
    Stays (execTrap x code s) := stays_run (canonical_issueWarp h (fun _ _ _ => canonical_raise h))

theorem stays_execJmpF {x : Bool} {off : BitVec 16} {s : Machine.State} (h : Canonical s.dev) :
    Stays (execJmpF x off s) :=
  stays_run (canonical_issueWarp h (fun _ _ _ => canonical_ite (canonical_goTo h) (canonical_raise h)))

/-! ### Code segments -/

theorem stays_execCfetch {w : Bool} {seg : BitVec 6} {s : Machine.State} (h : Canonical s.dev) :
    Stays (execCfetch w seg s) := by
  unfold execCfetch
  exact stays_run (canonical_ite (canonical_misplaced h) (canonical_issueWarp h (fun _ _ _ => canonical_checked h
    (canonical_commit (canonical_ite h h)))))

theorem stays_execCevict {x : Bool} {seg : BitVec 6} {s : Machine.State} (h : Canonical s.dev) :
    Stays (execCevict x seg s) := by
  unfold execCevict
  exact stays_run (canonical_ite (canonical_misplaced h) (canonical_issueWarp h (fun _ _ _ => canonical_commit
    (canonical_ite h h))))

theorem canonical_demandFill {core slot page : Nat} (h : Canonical d) : Canonical (d.demandFill core slot page) := by
  unfold Dev.demandFill
  extract_lets c
  split
  · exact h
  · split <;> exact h

theorem canonical_fetchFault {page id : Nat} (h : Canonical d) : Canonical (Dev.fetchFault hp d page id) := by
  unfold Dev.fetchFault
  split
  · exact h
  · split
    · exact h
    · exact canonical_raise h

theorem canonical_fetFetchFault {id : Nat} (h : Canonical d) : Canonical (Dev.fetFetchFault hp d id) := by
  unfold Dev.fetFetchFault
  split
  · exact h
  · exact canonical_fetTrap h

theorem canonical_failFetch {core slot page : Nat} (h : Canonical d) : Canonical (Dev.failFetch hp d core slot page) :=
  canonical_foldl (canonical_foldl h (fun _ _ h1 => canonical_fetchFault h1)) (fun _ _ h1 => canonical_fetFetchFault h1)

theorem stays_execCodeFillLands {core seg : Nat} {s : Machine.State} (h : Canonical s.dev) :
    Stays (execCodeFillLands core seg s) := by
  unfold execCodeFillLands
  refine stays_run ?_
  extract_lets g
  split
  · exact h
  · split
    next got =>
      have h1 := canonical_snd got (canonical_reach h)
      exact canonical_killSlot h1
    next got =>
      have h1 := canonical_snd got (canonical_reach h)
      exact h1
    next got =>
      have h1 := canonical_snd got (canonical_reach h)
      extract_lets d1
      have h_d1 : Canonical d1 := h1
      exact canonical_ite (canonical_failFetch h_d1) h_d1

/-! ### Turns of a lane block and of a front end -/

theorem canonical_touchSegment {core slot : Nat} {pc : Va} (h : Canonical d) : Canonical (d.touchSegment core slot pc) := by
  unfold Dev.touchSegment
  split <;> exact h

theorem canonical_holdTeams {team : Nat} {on : Bool} (h : Canonical d) : Canonical (d.holdTeams team on) :=
  canonical_foldl h (fun _ _ h1 => h1)

theorem canonical_burnHold {core lb : Nat} (h : Canonical d) : Canonical (d.burnHold core lb) := canonical_ite h h

theorem canonical_laneMiss {core lb slot page : Nat} {first : Bool} (h : Canonical d) :
    Canonical (d.laneMiss core lb slot page first) := canonical_ite h (canonical_demandFill h)

theorem canonical_laneRequest {core lb : Nat} {place : Nat × Bool} {paid : Option Nat} {id : Nat} {w : Warp} {s : Split}
    (h : Canonical d) :
    IssueKeeps (Dev.laneRequest hp d core lb place paid id w s) := by
  unfold Dev.laneRequest
  extract_lets d1 slot
  have h_d1 : Canonical d1 := h
  split
  · exact .idle (canonical_laneMiss (canonical_block h_d1))
  · exact .idle (canonical_raise h_d1)
  · exact .idle (canonical_raise h_d1)
  · exact .idle (canonical_endTeam h_d1)
  · exact .run (canonical_touchSegment h_d1)

theorem canonical_repaid {core lb : Nat} (h : Canonical d) : Canonical (d.repaid core lb) := by
  unfold Dev.repaid
  split <;> exact h

theorem canonical_serveMisses {core lb : Nat} (h : Canonical d) : Canonical (d.serveMisses core lb) :=
  canonical_foldl h (fun _ _ h1 => canonical_demandFill h1)

theorem canonical_laneTurn {core lb : Nat} (h : Canonical d) : IssueKeeps (Dev.laneTurn hp d core lb) := by
  unfold Dev.laneTurn
  extract_lets b first
  split
  · exact .idle (canonical_serveMisses h)
  · split
    · split
      · exact .idle (canonical_repaid (canonical_burnHold h))
      · split
        · exact .idle (canonical_repaid (canonical_burnHold h))
        · exact canonical_laneRequest (canonical_repaid (canonical_burnHold h))
    · exact .idle (canonical_ite (canonical_repaid (canonical_burnHold h)) (canonical_serveMisses (canonical_repaid
      (canonical_burnHold h))))

theorem canonical_pairMate {core lb : Nat} {g : Grant} (h : Canonical d) :
    Holds (fun r => Canonical r.2) (d.pairMate core lb g) := by
  unfold Dev.pairMate
  split
  · exact .none
  · split
    · exact .none
    · split
      · exact .none
      · split
        · split
          · refine .some ?_
            exact h
          · exact .none
        · exact .none

theorem canonical_laneDecision {d1 : Dev} {core lb : Nat} {g : Grant} {cost : Nat} (h : Canonical d) (h1 : Canonical d1) :
    Canonical (laneDecision d d1 core lb g cost) := canonical_ite (canonical_ite h h1) h

theorem canonical_stopTeamOf {id : Nat} (h : Canonical d) : Canonical (d.stopTeamOf id) := by
  unfold Dev.stopTeamOf
  split
  · exact h
  · exact canonical_holdTeams h

theorem canonical_fetMiss {core slot page : Nat} {first : Bool} (h : Canonical d) :
    Canonical (d.fetMiss core slot page first) := canonical_ite h (canonical_demandFill h)

theorem canonical_serveFetMisses {core : Nat} (h : Canonical d) : Canonical (d.serveFetMisses core) :=
  canonical_foldl h (fun _ _ h1 => canonical_demandFill h1)

theorem canonical_fetRepaid {core : Nat} (h : Canonical d) : Canonical (d.fetRepaid core) := by
  unfold Dev.fetRepaid
  split <;> exact h

theorem canonical_fetRequest {core : Nat} {place : Nat × Bool} {paid : Option Nat} {id : Nat} {f : Fet} (h : Canonical d) :
    IssueKeeps (Dev.fetRequest hp d core place paid id f) := by
  unfold Dev.fetRequest
  extract_lets d1 slot
  have h_d1 : Canonical d1 := h
  split
  · exact .idle (canonical_fetMiss h_d1)
  · exact .idle (canonical_fetTrap h_d1)
  · exact .idle (canonical_fetTrap h_d1)
  · exact .idle (canonical_endTeam h_d1)
  · exact .run (canonical_touchSegment h_d1)

theorem canonical_fetTurn {core : Nat} (h : Canonical d) : IssueKeeps (Dev.fetTurn hp d core) := by
  unfold Dev.fetTurn
  extract_lets c first
  split
  · exact .idle (canonical_serveFetMisses h)
  · split
    · split
      · exact .idle (canonical_fetRepaid h)
      · exact canonical_fetRequest (canonical_fetRepaid h)
    · exact .idle (canonical_ite (canonical_fetRepaid h) (canonical_serveFetMisses (canonical_fetRepaid h)))

theorem canonical_stopTeamOfFet {id : Nat} (h : Canonical d) : Canonical (d.stopTeamOfFet id) := by
  unfold Dev.stopTeamOfFet
  split
  · exact h
  · exact canonical_holdTeams h

theorem canonical_fetDecision {d1 : Dev} {core : Nat} {g : Grant} {cost : Nat} (h : Canonical d) (h1 : Canonical d1) :
    Canonical (fetDecision d d1 core g cost) := canonical_ite (canonical_ite h h1) h

end

end Sys2Proof.Proofs

end

section

/-! PROOF. Canonical memory: the uniform unit, the front end, memory instructions and accesses, seals, synchronisation and
handlers. -/

namespace Sys2Proof.Proofs

open Sys2Proof Sys2Proof.Machine Sys2Proof.Safety

section
variable {d : Dev} {hp : HostPart}

/-! ### The uniform unit -/

theorem stays_uniform {s : Machine.State} {bytes : Nat} {i : Instr} {f : Uniform → Uniform} (h : Canonical s.dev) :
    Stays (s.uniform bytes i f) := stays_run (canonical_uniform h)

theorem stays_execKcmp {kp : BitVec 3} {ka kb : BitVec 6} {nat : Bool} {cond : BitVec 3} {s : Machine.State}
    (h : Canonical s.dev) :
    Stays (execKcmp kp ka kb nat cond s) := by
  unfold execKcmp
  split
  · exact stays_run (canonical_misplaced h)
  · exact stays_uniform h

theorem stays_execSetperf {ka : BitVec 6} {s : Machine.State} (h : Canonical s.dev) : Stays (execSetperf ka s) := by
  unfold execSetperf
  exact stays_run (canonical_issueEither h (fun _ _ _ => canonical_commit h) (fun _ _ => canonical_commitFet
    (canonical_foldl h (fun _ _ h1 => h1))))

theorem stays_execKpush {ka : BitVec 6} {s : Machine.State} (h : Canonical s.dev) : Stays (execKpush ka s) :=
  stays_run (canonical_issueWarp h (fun _ _ _ => canonical_commit h))

theorem canonical_popToUniform {kd : BitVec 6} {f : List Word → Word × Flags} (h : Canonical d) :
    Canonical (Dev.popToUniform hp d kd f) := canonical_issueWarp h (fun _ _ _ => canonical_commit h)

theorem stays_execKpop {kd : BitVec 6} {cv : Bool} {s : Machine.State} (h : Canonical s.dev) : Stays (execKpop kd cv s) := by
  unfold execKpop
  refine stays_run ?_
  split
  · exact canonical_raise h
  · exact canonical_popToUniform h

theorem canonical_checkUniform {slot core : Nat} {u : UniformAccess} (h : Canonical d) :
    CheckKeeps (Dev.checkUniform hp d slot core u) := by
  unfold Dev.checkUniform
  extract_lets want
  split
  · exact .trap h
  · split
    · exact .trap h
    · split
      · split
        · exact .serve
        next got1 => exact .lost (canonical_snd got1 (canonical_reach h))
        next got1 => exact .unmapped (canonical_snd got1 (canonical_reach h))
      next got =>
        have h1 := ends_ok got (canonical_translate h)
        split
        · exact .lost h1
        · split
          · exact .trap h1
          · exact .go h1

theorem canonical_awaitService {id : Nat} {s : Split} {u : UniformAccess} (h : Canonical d) :
    Canonical (Dev.awaitService hp d id s u) := by
  unfold Dev.awaitService
  extract_lets d1
  have h_d1 : Canonical d1 := canonical_nestFault h
  exact canonical_ite h_d1 (canonical_block h_d1)

theorem canonical_uniformAccess {regs : List Nat} {u : Uniform → UniformAccess} (h : Canonical d) :
    Canonical (Dev.uniformAccess hp d regs u) := by
  unfold Dev.uniformAccess
  refine canonical_issueEither h (fun _ _ _ => ?_) (fun _ _ => ?_)
  · extract_lets u1
    split
    next got => exact canonical_raise (check_trap got (canonical_checkUniform h))
    next got => exact canonical_raise (check_unmapped got (canonical_checkUniform h))
    next got => exact canonical_killAt (check_lost got (canonical_checkUniform h))
    · exact canonical_awaitService h
    next got =>
      have h1 := check_go got (canonical_checkUniform h)
      refine canonical_commit ?_
      refine canonical_foldl_snd ?_ (fun _ _ h2 => ?_)
      · exact h1
      · exact canonical_fresh h2
  · extract_lets u1
    split
    next got => exact canonical_fetTrap (check_trap got (canonical_checkUniform h))
    next got => exact canonical_fetTrap (check_unmapped got (canonical_checkUniform h))
    next got => exact canonical_killAt (check_lost got (canonical_checkUniform h))
    · exact h
    next got =>
      have h1 := check_go got (canonical_checkUniform h)
      refine canonical_commitFet ?_
      refine canonical_foldl_snd ?_ (fun _ _ h2 => ?_)
      · exact h1
      · exact canonical_fresh h2

/-! ### Front-end contexts -/

theorem canonical_issueFet {regs : List Nat} {k : Nat → Fet → Dev} (h : Canonical d)
    (each : ∀ (i : Nat) (f : Fet), Canonical (k i f)) :
    Canonical (Dev.issueFet hp d regs k) := by
  unfold Dev.issueFet
  split
  · split
    · exact h
    · exact canonical_ite h (each _ _)
  · exact canonical_misplaced h
  · exact h

theorem stays_execAgen {ch : BitVec 3} {ka : BitVec 6} {s : Machine.State} (h : Canonical s.dev) :
    Stays (execAgen ch ka s) := by
  unfold execAgen
  exact stays_run (canonical_issueFet h (fun _ _ => canonical_ite (canonical_fetTrap h) (canonical_ite h
    (canonical_commitFet h))))

theorem canonical_streamRead {slot core mode : Nat} {a : Dword} (h : Canonical d) :
    ReadKeeps (Dev.streamRead hp d slot core mode a) := by
  unfold Dev.streamRead
  extract_lets n
  split
  · exact .entries h
  · split
    · exact .fault h
    · split
      · exact .fault h
      · split
        next got => exact .lost (canonical_snd got (canonical_reach h))
        next got => exact .fault (canonical_snd got (canonical_reach h))
        next got =>
          have h1 := canonical_snd got (canonical_reach h)
          split
          · exact .uncorrectable h1
          · exact .entries h1

theorem canonical_streamReads {slot core : Nat} {s : Machine.Stream} {a : List (Nat × Nat × Nat)} (h : Canonical d) :
    Ends ReadKeeps (fun r => Canonical r.2) (Dev.streamReads hp slot core s a d) := by
  induction a generalizing slot core s d with
  | nil =>
    unfold Dev.streamReads
    exact .ok h
  | cons x xs ih =>
    unfold Dev.streamReads
    split
    next got =>
      have h1 := read_entries got (canonical_streamRead h)
      split
      next got1 => exact .ok (ends_ok got1 (ih h1))
      next got1 => exact .error (ends_failed got1 (ih h1))
    · exact .error (canonical_streamRead h)

theorem canonical_sendEntries {fet ch : Nat} {rs : List (Nat × Nat × List Word)} (h : Canonical d) :
    Canonical (d.sendEntries fet ch rs) := canonical_foldl h (fun _ _ h1 => h1)

theorem canonical_sendStream {fet ch : Nat} (h : Canonical d) : Canonical (d.sendStream fet ch) := by
  unfold Dev.sendStream
  split
  · exact h
  · exact canonical_ite h (canonical_sendEntries h)

theorem canonical_sendStreams {cluster : Nat} (h : Canonical d) : Canonical (d.sendStreams cluster) :=
  canonical_foldl h (fun _ _ h1 => canonical_foldl h1 (fun _ _ h2 => canonical_sendStream h2))

theorem stays_execAgenStreamRead {fet ch : Nat} {s : Machine.State} (h : Canonical s.dev) :
    Stays (execAgenStreamRead fet ch s) := by
  unfold execAgenStreamRead
  refine stays_run ?_
  split
  · exact h
  · split
    · exact h
    · extract_lets ts
      split
      · exact h
      · split
        · exact h
        · split
          next got =>
            have h1 := ends_ok got (canonical_streamReads h)
            exact h1
          next got =>
            have h1 := read_fault rfl (ends_failed got (canonical_streamReads h))
            exact canonical_fetTrapAt h1
          next got => exact canonical_endTeam (read_uncorrectable rfl (ends_failed got (canonical_streamReads h)))
          next got => exact canonical_killAt (read_lost rfl (ends_failed got (canonical_streamReads h)))
          next got => exact read_entries rfl (ends_failed got (canonical_streamReads h))

theorem canonical_releaseDecision {id : Nat} {e : Decision} (h : Canonical d) : Canonical (d.releaseDecision id e) :=
  canonical_ite h (canonical_foldl h (fun _ _ h1 => h1))

theorem stays_execDqpush {ka : BitVec 6} {s : Machine.State} (h : Canonical s.dev) : Stays (execDqpush ka s) :=
  stays_run (canonical_issueFet h (fun _ _ => canonical_ite h (canonical_ite h (canonical_commitFet h))))

theorem stays_execFetend {s : Machine.State} (h : Canonical s.dev) : Stays (execFetend s) :=
  stays_run (canonical_issueFet h fun _ _ => canonical_onFet (canonical_commitFet h))

theorem stays_execFetResume {fet : Nat} {s : Machine.State} (h : Canonical s.dev) : Stays (execFetResume fet s) := by
  unfold execFetResume
  refine stays_run ?_
  split
  · exact h
  · split
    · exact h
    · exact canonical_ite h h

theorem stays_execChannelEmpty {warp : Nat} {s : Machine.State} (h : Canonical s.dev) : Stays (execChannelEmpty warp s) := by
  unfold execChannelEmpty
  refine stays_run ?_
  split
  · exact h
  · split
    · extract_lets bs
      split
      · exact h
      · exact canonical_deliver h
    · exact h

/-! ### Memory instructions -/

theorem canonical_takeIds {k : Nat} (h : Canonical d) : Canonical (d.takeIds k).2 := h

theorem canonical_issueLane {id : Nat} {marks : List OrderMark} {i : Instr} {pc : Va} {stamp : Nat} {f : MemForm}
    {off : BitVec 16} {pa : Option Nat} {t : Thread} (h : Canonical d) :
    Canonical (d.issueLane id marks i pc stamp f off pa t).2 := canonical_issueAccess (canonical_takeIds h)

theorem canonical_issueLanes {id : Nat} {marks : List OrderMark} {i : Instr} {pc : Va} {stamp : Nat} {f : MemForm}
    {off : BitVec 16} {pas : List (Nat × Nat)} {a : List Thread} (h : Canonical d) :
    Canonical (Dev.issueLanes id marks i pc stamp f off pas a d).2 := by
  induction a generalizing id marks i pc stamp f off pas d with
  | nil =>
    unfold Dev.issueLanes
    exact h
  | cons x xs ih =>
    unfold Dev.issueLanes
    exact ih (canonical_issueLane h)

theorem canonical_issueAccesses {id : Nat} {w : Warp} {s : Split} {n : Need} {i : Instr} {f : MemForm} {off : BitVec 16}
    {pas : List (Nat × Nat)} (h : Canonical d) :
    Canonical (d.issueAccesses id w s n i f off pas) := canonical_commit (canonical_issueLanes h)

theorem canonical_walkLanes {slot core : Nat} {a : List (Nat × Dword)} {a' : LaneWalks} (h : Canonical a'.d) :
    Canonical (Dev.walkLanes hp slot core a a').d := by
  induction a generalizing slot core a' with
  | nil =>
    unfold Dev.walkLanes
    exact h
  | cons x xs ih =>
    unfold Dev.walkLanes
    split
    · exact h
    · split
      next got => exact ih (ends_ok got (canonical_translate h))
      · split
        · exact ih h
        next got1 => exact canonical_snd got1 (canonical_reach h)
        next got1 => exact ih (canonical_snd got1 (canonical_reach h))

theorem canonical_issueWide {id : Nat} {w : Warp} {s : Split} {n : Need} {i : Instr} {f : MemForm} (h : Canonical d) :
    Canonical (d.issueWide hp id w s n i f) := by
  unfold Dev.issueWide
  extract_lets ea slot r
  have h_r : Canonical r.d := canonical_walkLanes h
  refine canonical_checked h ?_
  split
  · exact canonical_killAt h_r
  · refine canonical_checked h_r ?_
    split
    · exact canonical_awaitService h
    · exact canonical_checked h_r (canonical_issueAccesses h_r)

theorem canonical_memoryOp {wbit : Bool} {i : Instr} {off : BitVec 16} (h : Canonical d) :
    Canonical (Dev.memoryOp hp d wbit i off) := by
  unfold Dev.memoryOp
  split
  · exact canonical_misplaced h
  · exact canonical_issueWarp h (fun _ _ _ => canonical_ite (canonical_issueWide h) (canonical_checked h
      (canonical_issueAccesses h)))

theorem canonical_noteReplica {core slot va : Nat} (h : Canonical d) : Canonical (d.noteReplica core slot va) := h

theorem canonical_prefetchLane {core slot : Nat} {ea : Dword} (h : Canonical d) :
    Canonical (Dev.prefetchLane core slot d ea) := by
  unfold Dev.prefetchLane
  split
  · exact h
  · split
    · exact canonical_walked h
    next got =>
      have h1 := ends_ok got (canonical_translate h)
      exact canonical_ite (canonical_noteReplica h1) h1

theorem stays_execPrefetch {w : Bool} {off : BitVec 16} {s : Machine.State} (h : Canonical s.dev) :
    Stays (execPrefetch w off s) := by
  unfold execPrefetch
  exact stays_run (canonical_issueWarp h (fun _ _ _ => canonical_commit (canonical_foldl h
    (fun _ _ h1 => canonical_prefetchLane h1))))

theorem canonical_fenceMark {id : Nat} {w : Warp} {s : Split} {order scope : Nat} (h : Canonical d) :
    Canonical (d.fenceMark id w s order scope) := h

theorem stays_execFence {x : Bool} {order scope : BitVec 3} {s : Machine.State} (h : Canonical s.dev) :
    Stays (execFence x order scope s) := by
  unfold execFence
  exact stays_run (canonical_issueWarp h (fun _ _ _ => canonical_ite (canonical_block h) (canonical_commit
    (canonical_fenceMark h))))

theorem canonical_sealRequest {wbit undo : Bool} (h : Canonical d) : Canonical (Dev.sealRequest hp d wbit undo) :=
  canonical_issueWarp h (fun _ _ _ => canonical_commit h)

/-! ### Accesses and page walks -/

theorem canonical_fillAccess {id : Nat} {a : Access} {vs : List Word} (h : Canonical d) :
    Canonical (d.fillAccess id a vs) := by
  unfold Dev.fillAccess
  split <;> exact h

theorem canonical_unpark {id lane : Nat} (h : Canonical d) : Canonical (d.unpark id lane) := h

theorem canonical_failWalk {id : Nat} {a : Access} (h : Canonical d) : Canonical (Dev.failWalk hp d id a) := by
  unfold Dev.failWalk
  split
  · extract_lets d1
    have h_d1 : Canonical d1 := canonical_nestFault h
    exact canonical_ite h_d1 h_d1
  · exact h

theorem stays_execPageWalk {access : Nat} {s : Machine.State} (h : Canonical s.dev) : Stays (execPageWalk access s) := by
  unfold execPageWalk
  refine stays_run ?_
  split
  · exact h
  · split
    · exact h
    · extract_lets core
      split
      · exact canonical_killAt h
      · split
        next got =>
          have h1 := ends_ok got (canonical_translate h)
          exact h1
        · exact canonical_failWalk (canonical_walked h)

theorem canonical_reached {id : Nat} {a : Access} {pa : Nat} (h : Canonical d) : Canonical (d.reached id a pa) := by
  unfold Dev.reached
  extract_lets d1
  have h_d1 : Canonical d1 := h
  split
  · exact canonical_served (canonical_settleWarp (canonical_unpark h_d1))
  · exact h_d1

theorem canonical_unresolved {id : Nat} {a : Access} (h : Canonical d) : Canonical (Dev.unresolved hp d id a) := by
  unfold Dev.unresolved
  split
  · split
    · exact h
    · exact canonical_ite (canonical_settle (canonical_delegate h)) (canonical_ite h h)
  · exact h

theorem canonical_walkOver {id : Nat} {a : Access} (h : Canonical d) : Canonical (d.walkOver id a) := by
  unfold Dev.walkOver
  extract_lets d1
  have h_d1 : Canonical d1 := h
  split
  · exact canonical_served h_d1
  · exact h_d1

theorem stays_execPageService {access : Nat} {s : Machine.State} (h : Canonical s.dev) : Stays (execPageService access s) := by
  unfold execPageService
  refine stays_run ?_
  split
  · exact h
  · split
    · exact h
    · split
      next got =>
        have h1 := canonical_snd got (canonical_reach h)
        exact canonical_ite h1 (canonical_ite (canonical_walkOver h1) (canonical_reached h1))
      next got => exact canonical_killAt (canonical_snd got (canonical_reach h))
      next got =>
        have h1 := canonical_snd got (canonical_reach h)
        exact canonical_ite (canonical_walkOver h1) (canonical_unresolved h1)

theorem canonical_observe {a : Access} {pa : Nat} (h : Canonical d) : Canonical (d.observe a pa) := by
  unfold Dev.observe
  split
  · exact canonical_ite h h
  · exact h

theorem canonical_refuseStore {a : Access} (h : Canonical d) : Canonical (Dev.refuseStore hp d a) := by
  unfold Dev.refuseStore
  extract_lets gone
  have h_gone : Canonical gone := h
  split
  · split
    · exact h_gone
    · exact canonical_ite (canonical_settle (canonical_delegate h_gone)) (canonical_ite h_gone (canonical_ite h h))
  · exact canonical_fetTrapAt h_gone
  · exact h_gone

theorem canonical_performedAt {id : Nat} {a : Access} {pa : Nat} (h : Canonical d) :
    Canonical (Dev.performedAt hp d id a pa) := by
  unfold Dev.performedAt
  split
  · exact h
  · extract_lets p a1 waits d1 d2 d3 d4
    have h_d1 : Canonical d1 := canonical_observe h
    have h_d2 : Canonical d2 := h_d1
    have h_d3 : Canonical d3 := by
      unfold d3
      split
      · exact canonical_putBytes h_d2
      · exact h_d2
    have h_d4 : Canonical d4 := by
      unfold d4
      split
      · exact canonical_ite (canonical_noteReplica h_d3) h_d3
      · exact h_d3
    exact canonical_ite (canonical_settle h_d4) (canonical_settle h_d4)

theorem stays_execHomeAccess {access : Nat} {s : Machine.State} (h : Canonical s.dev) : Stays (execHomeAccess access s) := by
  unfold execHomeAccess
  refine stays_run ?_
  split
  · exact h
  · split
    · exact h
    · exact canonical_ite h (canonical_ite (canonical_refuseStore h) (canonical_performedAt h))

theorem canonical_consume {a : Access} {pa : Nat} (h : Canonical d) : Canonical (Dev.consume hp d a pa) := by
  unfold Dev.consume
  split
  · split
    · exact h
    · exact canonical_endTeam h
  · split
    · exact h
    · exact canonical_endTeam h
  · exact h

theorem stays_execLoadFill {access : Nat} {s : Machine.State} (h : Canonical s.dev) : Stays (execLoadFill access s) := by
  unfold execLoadFill
  refine stays_run ?_
  split
  · exact h
  · split
    · exact h
    · exact canonical_ite h (canonical_ite (canonical_consume h) (canonical_settle (canonical_fillAccess h)))

theorem stays_execSpillRefillComplete {core lb : Nat} {s : Machine.State} (h : Canonical s.dev) :
    Stays (execSpillRefillComplete core lb s) := by
  unfold execSpillRefillComplete
  refine stays_run ?_
  extract_lets b
  split
  · exact h
  · extract_lets ended
    have h_ended : Canonical ended := h
    split
    · exact h_ended
    · extract_lets lanes moved
      split
      · exact canonical_ite h (canonical_pushForwards h_ended)
      · split
        · extract_lets pc
          exact canonical_endTeam h_ended
        · exact h_ended

theorem stays_execForwardingEntryFreed {core lb : Nat} {s : Machine.State} (h : Canonical s.dev) :
    Stays (execForwardingEntryFreed core lb s) := by
  unfold execForwardingEntryFreed
  refine stays_run ?_
  split
  · exact h
  · exact canonical_ite (canonical_retire h) h

/-! ### Seals -/

theorem canonical_dropReplicas {slot base bytes : Nat} (h : Canonical d) : Canonical (d.dropReplicas slot base bytes) := h

theorem canonical_carrySeal {slot : Nat} {r : SealRequest} (h : Canonical d) : Canonical (d.carrySeal slot r) := by
  unfold Dev.carrySeal
  split
  · refine canonical_onContext (canonical_dropReplicas h)
  · exact h

theorem canonical_answerSeal {r : SealRequest} {status : Nat} (h : Canonical d) :
    Canonical (Dev.answerSeal hp d r status) := by
  unfold Dev.answerSeal
  split
  · exact h
  · exact canonical_ite h (canonical_failCommand h)
  · exact h

theorem canonical_decideSeal {id : Nat} {undo : Bool} (h : Canonical d) : Canonical (Dev.decideSeal hp d id undo) := by
  unfold Dev.decideSeal
  split
  · exact h
  · exact canonical_ite h (canonical_settle (canonical_answerSeal (canonical_ite (canonical_carrySeal h) h)))

theorem canonical_movePage {src dst : Nat} (h : Canonical d) : Canonical (d.movePage src dst) :=
  Memory.wf_copyRange src dst pageBytes h

theorem stays_execMigration {slot : Nat} {va : BitVec 64} {tier : BitVec 8} {s : Machine.State} (h : Canonical s.dev) :
    Stays (execMigration slot va tier s) := by
  unfold execMigration
  refine stays_run ?_
  extract_lets page
  split
  · exact h
  · split
    · exact h
    · split
      · exact h
      next got =>
        have h1 := holds_some got (canonical_takeFrame h)
        extract_lets leaf d1
        have h_d1 : Canonical d1 := canonical_movePage h1
        split
        · exact h_d1
        next got1 => exact canonical_freeFrame (canonical_dropTlb (holds_dev got1 (canonical_mapPage h_d1)))

/-! ### Fences, counters and barriers -/

theorem stays_execWaitc {x : Bool} {cls : BitVec 2} {n : BitVec 8} {s : Machine.State} (h : Canonical s.dev) :
    Stays (execWaitc x cls n s) := by
  unfold execWaitc
  exact stays_run (canonical_issueEither h (fun _ _ _ => canonical_ite (canonical_commit h) (canonical_block h))
    (fun _ _ => canonical_ite (canonical_commitFet h) h))

theorem stays_execTrywait {wbit : Bool} {cls : BitVec 2} {n : BitVec 8} {s : Machine.State} (h : Canonical s.dev) :
    Stays (execTrywait wbit cls n s) := by
  unfold execTrywait
  exact stays_run (canonical_issueWarp h (fun _ _ _ => canonical_ite (canonical_commit h) (canonical_ite (canonical_commit h)
    (canonical_select h))))

theorem canonical_delegateFault {o : EngineOp} {origin : Nat} {f : EngineFault} (h : Canonical d) :
    Canonical (Dev.delegateFault hp d o origin f) := canonical_delegate h

theorem canonical_deliverFault {o : EngineOp} {f : EngineFault} (h : Canonical d) :
    Canonical (Dev.deliverFault hp o d f) := by
  unfold Dev.deliverFault
  split
  · split
    · exact canonical_delegateFault h
    · exact canonical_ite (canonical_delegateFault h) h
  · exact canonical_fetTrapAt h
  · exact h

theorem canonical_decrement {o : EngineOp} (h : Canonical d) : Canonical (d.decrement o) := by
  unfold Dev.decrement
  split
  · exact canonical_patchRecord h
  · exact canonical_foldl h (fun _ _ h1 => canonical_patchRecord h1)
  · exact h

theorem canonical_wakeTrywaits {o : EngineOp} (h : Canonical d) : Canonical (d.wakeTrywaits o) := by
  unfold Dev.wakeTrywaits
  split <;> exact h

theorem stays_execDecrementDelivery {operation : Nat} {s : Machine.State} (h : Canonical s.dev) :
    Stays (execDecrementDelivery operation s) := by
  unfold execDecrementDelivery
  refine stays_run ?_
  split
  · exact h
  · exact canonical_ite h (canonical_settle (canonical_wakeTrywaits (canonical_foldl (canonical_decrement h)
    (fun _ _ h1 => canonical_deliverFault h1))))

theorem canonical_releaseBarrier {bar : Nat} {deps : List Nat} {id : Nat} (h : Canonical d) :
    Canonical (Dev.releaseBarrier bar deps d id) := by
  unfold Dev.releaseBarrier
  split
  · exact h
  · exact canonical_ite h h

theorem canonical_arrive {id : Nat} {w : Warp} {mask : Mask} {bar count : Nat} {sync : Bool} (h : Canonical d) :
    Canonical (d.arrive id w mask bar count sync) := h

theorem canonical_countArrival {n : Nat} {a : Arrival} (h : Canonical d) : Canonical (d.countArrival n a) := by
  unfold Dev.countArrival
  extract_lets d1 d2
  have h_d1 : Canonical d1 := h
  have h_d2 : Canonical d2 := canonical_ite h_d1 h_d1
  split
  · exact h_d2
  · exact canonical_ite (canonical_foldl h_d2 (fun _ _ h1 => canonical_releaseBarrier h1)) h_d2

theorem canonical_barrierOp {wbit sync : Bool} {bar : BitVec 4} {count : BitVec 16} (h : Canonical d) :
    Canonical (Dev.barrierOp hp d wbit sync bar count) := by
  unfold Dev.barrierOp
  exact canonical_ite (canonical_misplaced h) (canonical_issueWarp h (fun _ _ _ => canonical_checked h (canonical_arrive
    (canonical_ite (canonical_select h) (canonical_commit h)))))

theorem stays_execBarrierTimeout {team bar : Nat} {s : Machine.State} (h : Canonical s.dev) :
    Stays (execBarrierTimeout team bar s) := by
  unfold execBarrierTimeout
  refine stays_run ?_
  split
  · extract_lets b record d
    split
    · exact h
    · refine canonical_settle (canonical_report (canonical_terminate ?_))
      unfold d
      split
      next got => exact ends_dev got (canonical_writeVa h)
      next got => exact ends_error got (canonical_writeVa h)
  · exact h

theorem stays_execProgressStall {warp : Nat} {s : Machine.State} (h : Canonical s.dev) : Stays (execProgressStall warp s) := by
  unfold execProgressStall
  refine stays_run ?_
  split
  · exact h
  · split
    · exact h
    · exact canonical_ite h (canonical_deliver h)

theorem stays_execSplitSelection {warp : Nat} {s : Machine.State} (h : Canonical s.dev) :
    Stays (execSplitSelection warp s) := by
  unfold execSplitSelection
  refine stays_run ?_
  split
  · exact h
  · exact canonical_ite (canonical_select h) h

theorem stays_execEngineFaultTrap {warp : Nat} {s : Machine.State} (h : Canonical s.dev) :
    Stays (execEngineFaultTrap warp s) := by
  unfold execEngineFaultTrap
  refine stays_run ?_
  split
  · exact h
  · exact canonical_ite h (canonical_deliver h)

/-! ### Handlers -/

theorem canonical_issueHandler {n : Need} {legal : Warp → Bool} {k : Nat → Warp → Handler → Split → Dev} (h : Canonical d)
    (each : ∀ (i : Nat) (w : Warp) (hd : Handler) (p : Split), Canonical (k i w hd p)) :
    Canonical (Dev.issueHandler hp d n legal k) := by
  unfold Dev.issueHandler
  split
  · split
    · exact h
    · split
      · exact canonical_misplaced h
      · exact canonical_ite (canonical_issueWarp h (fun _ _ _ => each _ _ _ _)) (canonical_misplaced h)
  · exact canonical_misplaced h
  · exact h

theorem stays_execRte {s : Machine.State} (h : Canonical s.dev) : Stays (execRte s) :=
  stays_run (canonical_issueHandler h (fun _ _ _ _ => canonical_ite (canonical_returnFromTrap h) (canonical_block h)))

theorem stays_execRplq {x : Bool} {entry field : BitVec 4} {s : Machine.State} (h : Canonical s.dev) :
    Stays (execRplq x entry field s) := by
  unfold execRplq
  refine stays_run ?_
  refine canonical_issueHandler h (fun _ _ _ _ => ?_)
  split
  · exact h
  · exact canonical_commit h

theorem stays_execWplq {wbit : Bool} {entry field : BitVec 4} {s : Machine.State} (h : Canonical s.dev) :
    Stays (execWplq wbit entry field s) :=
  stays_run (canonical_issueHandler h (fun _ _ _ _ => canonical_checked h (canonical_commit h)))

end

end Sys2Proof.Proofs

end

section

/-! PROOF. Canonical memory: the matrix engine and its drain. -/

namespace Sys2Proof.Proofs

open Sys2Proof Sys2Proof.Machine Sys2Proof.Safety

section
variable {d : Dev} {hp : HostPart}

/-! ### The matrix engine -/

theorem canonical_enqueueMatrix {p : Party} {team core : Nat} {pc : Va} {lanes : Mask} {deps : List Nat} {work : MatrixWork}
    (h : Canonical d) :
    Canonical (d.enqueueMatrix p team core pc lanes deps work) := h

theorem canonical_issueMatrix {q : MatrixIssue} (h : Canonical d) : Canonical (Dev.issueMatrix hp d q) := by
  unfold Dev.issueMatrix
  split
  · exact h
  · split
    · exact canonical_misplaced h
    · refine canonical_issueEither h (fun _ _ _ => ?_) (fun _ _ => ?_)
      · extract_lets core
        split
        · exact canonical_block h
        · split
          · exact canonical_raise h
          · exact canonical_commit (canonical_enqueueMatrix h)
      · extract_lets core
        split
        · exact h
        · split
          · exact canonical_fetTrap h
          · exact canonical_commitFet (canonical_enqueueMatrix h)

theorem canonical_faultOp {id core kind fcode unit va row col done : Nat} (h : Canonical d) :
    Canonical (d.faultOp id core kind fcode unit va row col done) := h

theorem canonical_consumeOp {id va pa : Nat} (h : Canonical d) : Canonical (Dev.consumeOp hp d id va pa) := by
  unfold Dev.consumeOp
  split
  · exact h
  · exact canonical_endTeam h

theorem canonical_killOp {id va : Nat} (h : Canonical d) : Canonical (Dev.killOp hp d id va) := by
  unfold Dev.killOp
  split
  · exact h
  · exact canonical_settle (canonical_kill h)

theorem canonical_retireOp {core id : Nat} (h : Canonical d) : Canonical (Dev.retireOp hp d core id) := canonical_settle h

theorem canonical_multiplyOn {core : Nat} {f : MmaForm} {payload exps : List Byte} (h : Canonical d) :
    Canonical (d.multiplyOn core f payload exps) :=
  canonical_ite h (canonical_foldl h (fun _ _ h1 => canonical_foldl h1 (fun _ _ h2 => h2)))

theorem canonical_readA {slot core : Nat} {a : Dword} {f : MmaForm} (h : Canonical d) :
    Ends (fun r => Canonical r.2) (fun r => Canonical r.2) (Dev.readA hp d slot core a f) := by
  unfold Dev.readA
  split
  next got => exact .error (ends_failure got (canonical_readVa h))
  next got =>
    have h1 := ends_ok got (canonical_readVa h)
    split
    next got1 => exact .error (ends_failure got1 (canonical_readVa h1))
    next got1 => exact .ok (ends_ok got1 (canonical_readVa h1))

theorem stays_execArrayPhase {core : Nat} {s : Machine.State} (h : Canonical s.dev) : Stays (execArrayPhase core s) := by
  unfold execArrayPhase
  refine stays_run ?_
  split
  · exact h
  · split
    · split
      · exact h
      · extract_lets f
        split
        next got =>
          have h1 := ends_error got (canonical_readA h)
          exact canonical_setPhase (canonical_faultOp h1)
        next got =>
          have h1 := ends_error got (canonical_readA h)
          exact canonical_consumeOp h1
        next got =>
          have h1 := ends_error got (canonical_readA h)
          exact canonical_killOp h1
        next got =>
          have h1 := ends_ok got (canonical_readA h)
          exact canonical_ite (canonical_consumeOp h1) (canonical_foldl h1 fun _ _ h2 => canonical_multiplyOn h2)
    · exact h

theorem stays_execArrayPhaseEnd {core : Nat} {s : Machine.State} (h : Canonical s.dev) : Stays (execArrayPhaseEnd core s) := by
  unfold execArrayPhaseEnd
  refine stays_run ?_
  split <;> exact h

theorem stays_execBswapTakesEffect {core : Nat} {s : Machine.State} (h : Canonical s.dev) :
    Stays (execBswapTakesEffect core s) := by
  unfold execBswapTakesEffect
  refine stays_run ?_
  split
  · exact h
  · split
    · exact canonical_ite (canonical_retireOp (canonical_foldl h (fun _ _ h1 => h1))) h
    · exact h

/-! ### The drain -/

theorem canonical_drainRun_load {r : DrainRun} {slot core va n : Nat} {k : Nat → DrainRun → DrainRun} (h : Canonical r.d)
    (each : ∀ (i : Nat) (q : DrainRun), Canonical q.d → Canonical (k i q).d) :
    Canonical (DrainRun.load hp r slot core va n k).d := by
  unfold DrainRun.load
  split
  · exact h
  · split
    · exact h
    · split
      next got => exact ends_error got (canonical_readValue h)
      next got => exact each _ _ (ends_ok got (canonical_readValue h))

theorem canonical_drainRun_storeNibble {r : DrainRun} {word : Nat} {va : Dword} {n : Nat} {v : Word} (h : Canonical r.d) :
    Canonical (r.storeNibble word va n v).d := by
  unfold DrainRun.storeNibble
  split <;> exact h

theorem canonical_drainRun_stage {r : DrainRun} {f : DrainForm} {at_ : DrainAt} {slot : FormatSlot} {v : Word}
    (h : Canonical r.d) :
    Canonical (r.stage f at_ slot v).d := by
  unfold DrainRun.stage
  split <;> exact h

theorem canonical_drainRun_store {r : DrainRun} {f : DrainForm} {at_ : DrainAt} {word : Nat} {v : Word} {m : Nat} {row : Bool}
    (h : Canonical r.d) :
    Canonical (r.store f at_ word v m row).d := by
  unfold DrainRun.store
  dsimp only
  split
  · split <;> exact h
  · split
    · split <;> exact h
    · split
      · exact canonical_drainRun_storeNibble h
      · exact h

theorem canonical_microStep {slot core : Nat} {m : Machine.Matrix} {f : DrainForm} {at_ : DrainAt} {r : DrainRun} {word : Nat}
    {w : Word} (h : Canonical r.d) :
    Canonical (microStep hp slot core m f at_ r word w).d := by
  unfold microStep
  split
  · exact h
  · split
    · exact h
    · exact h
    · exact canonical_drainRun_load h (fun _ _ h1 => h1)
    · exact canonical_drainRun_load h (fun _ _ h1 => h1)
    · exact h
    · exact h
    · exact h
    · exact h
    · exact h
    · exact h
    · exact h
    · exact h
    · exact h
    · exact h
    · exact h
    · exact canonical_drainRun_stage h
    · exact canonical_drainRun_store h
    · exact h
    · exact h
    · exact h
    · exact h
    · exact h
    · exact h

theorem canonical_microRun {slot core : Nat} {m : Machine.Matrix} {f : DrainForm} {at_ : DrainAt} {r : DrainRun} {n : Nat}
    {a : List Word} (h : Canonical r.d) :
    Canonical (microRun hp slot core m f at_ r n a).d := by
  induction a generalizing slot core m f at_ r n with
  | nil =>
    unfold microRun
    exact h
  | cons x xs ih =>
    unfold microRun
    exact ih (canonical_microStep h)

theorem canonical_checkStores {slot core : Nat} {a : List DrainStore} (h : Canonical d) :
    Ends (fun r => Canonical r.2) Canonical (Dev.checkStores hp slot core a d) := by
  induction a generalizing slot core d with
  | nil =>
    unfold Dev.checkStores
    exact .ok h
  | cons x xs ih =>
    unfold Dev.checkStores
    split
    · split
      · exact .error h
      · split
        · exact .error h
        · split
          next got => exact .error (ends_failure got (canonical_writeParts h))
          next got => exact ih (ends_ok got (canonical_writeParts h))

theorem canonical_performStore {slot core : Nat} {s : DrainStore} (h : Canonical d) :
    Ends (fun r => Canonical r.2) Canonical (Dev.performStore hp slot core d s) := by
  unfold Dev.performStore
  split
  · exact canonical_writeVa h
  · split
    next got => exact .error (canonical_snd got (canonical_reach h))
    next got => exact .ok (canonical_putBytes (canonical_snd got (canonical_reach h)))
  · split
    next got => exact .error (canonical_snd got (canonical_reach h))
    next got =>
      have h1 := canonical_snd got (canonical_reach h)
      exact .ok (canonical_putBytes h1)
  · exact .ok h
  · exact .ok h

theorem canonical_performStores {slot core : Nat} {stores : List DrainStore} (h : Canonical d) :
    Canonical (Dev.performStores hp slot core d stores).2 := by
  unfold Dev.performStores
  refine canonical_foldl_snd h (fun _ _ h1 => ?_)
  split
  · exact h1
  · split
    next got => exact ends_dev got (canonical_performStore h1)
    next got => exact ends_error got (canonical_performStore h1)

theorem canonical_startUnit {o : MatrixOp} {f : DrainForm} {prog rows core : Nat} {x : Nat × Nat} (h : Canonical d) :
    Canonical (Dev.startUnit o f prog rows core d x) := canonical_ite h (canonical_faultOp h)

theorem canonical_endDrain {core : Nat} {o : MatrixOp} (h : Canonical d) : Canonical (d.endDrain core o) := by
  unfold Dev.endDrain
  split
  · extract_lets d1
    have h_d1 : Canonical d1 := by
      unfold d1
      split
      · refine canonical_foldl h (fun _ _ h1 => ?_)
        split <;> exact h1
      · exact h
    exact h_d1
  · exact h

theorem stays_execDrain {core : Nat} {s : Machine.State} (h : Canonical s.dev) : Stays (execDrain core s) := by
  unfold execDrain
  refine stays_run ?_
  split
  · exact h
  · extract_lets ready deps
    split
    · exact h
    · split
      · exact h
      · split
        · exact canonical_consumeOp h
        · extract_lets d
          have h_d : Canonical d := canonical_foldl h (fun _ _ h1 => canonical_startUnit h1)
          split
          · exact h_d
          · exact canonical_endDrain h_d

theorem canonical_stopElement {o : MatrixOp} {core index row n done : Nat} {a : DrainStop} (h : Canonical d) :
    Canonical (Dev.stopElement hp d o core index row n done a) := by
  unfold Dev.stopElement
  split
  · exact canonical_faultOp h
  · exact canonical_consumeOp h
  · exact canonical_killOp h

theorem canonical_putStores {o : MatrixOp} {core index row n done : Nat} {stores : List DrainStore} (h : Canonical d) :
    Canonical (Dev.putStores hp d o core index row n done stores) := by
  unfold Dev.putStores
  split
  next got => exact canonical_snd got (canonical_performStores h)
  next got => exact canonical_stopElement (canonical_snd got (canonical_performStores h))

theorem canonical_checkElement {engine core : Nat} {o : MatrixOp} {u : DrainUnit} {f : DrainForm} (h : Canonical d) :
    Canonical (d.checkElement hp engine core o u f) := by
  unfold Dev.checkElement
  extract_lets i c index m tile place ws stopWith r₀ r stores
  have h_stop : ∀ (d : Dev) (why : DrainStop), Canonical d → Canonical (stopWith d why) :=
    fun _ _ h1 => canonical_stopElement (canonical_putStores h1)
  split
  · exact h_stop _ _ h
  · have h_r : Canonical r.d := canonical_microRun h
    split
    · exact h_stop _ _ h_r
    · split
      next got => exact h_stop _ _ (ends_error got (canonical_checkStores h_r))
      next got =>
        have h1 := ends_dev got (canonical_checkStores h_r)
        exact h1

theorem canonical_storeElement {engine core : Nat} {o : MatrixOp} {u : DrainUnit} {stores : List DrainStore} {flags : Flags}
    (h : Canonical d) :
    Canonical (Dev.storeElement hp d engine core o u stores flags) := canonical_putStores h

theorem canonical_drainElement {engine core : Nat} {o : MatrixOp} {u : DrainUnit} {f : DrainForm} (h : Canonical d) :
    Canonical (Dev.drainElement hp d engine core o u f) := by
  unfold Dev.drainElement
  split
  · exact canonical_checkElement h
  · exact canonical_storeElement h

theorem stays_execDrainElement {core : Nat} {s : Machine.State} (h : Canonical s.dev) : Stays (execDrainElement core s) := by
  unfold execDrainElement
  refine stays_run ?_
  split
  · exact h
  · split
    · exact h
    · extract_lets d
      have h_d : Canonical d := canonical_drainElement h
      split
      · exact h_d
      · exact canonical_ite (canonical_endDrain h_d) h_d

theorem canonical_imageRead_bytes {slot core : Nat} {r : ImageRead} {va n : Nat} (h : Canonical r.d) :
    Canonical (ImageRead.bytes hp slot core r va n).2.d := by
  unfold ImageRead.bytes
  split
  next got => exact ends_ok got (canonical_readVa h)
  next got => exact ends_error got (canonical_readVa h)
  next got => exact ends_error got (canonical_readVa h)

theorem canonical_foldl_image {α β : Type} {f : β × ImageRead → α → β × ImageRead} {xs : List α} {r : β × ImageRead}
    (h : Canonical r.2.d) (each : ∀ (r : β × ImageRead) (x : α), Canonical r.2.d → Canonical (f r x).2.d) :
    Canonical (xs.foldl f r).2.d := by
  induction xs generalizing r with
  | nil => exact h
  | cons x xs ih => exact ih (each r x h)

theorem canonical_imageRead_denseColumn {slot core code blocks : Nat} {es v : Dword} {stride n : Nat} {r : ImageRead}
    (h : Canonical r.d) : Canonical (ImageRead.denseColumn hp slot core code blocks es v stride n r).2.d := by
  unfold ImageRead.denseColumn
  extract_lets m p a x cells
  refine canonical_foldl_image h fun s t h1 => ?_
  extract_lets q e vs
  have h_q : Canonical q.2.d := canonical_imageRead_bytes h1
  change Canonical (if code = 0x10 then (none, q.2) else q.2.bytes hp slot core (x + 2 * t) 2).2.d
  split
  · exact h_q
  · exact canonical_imageRead_bytes h_q

theorem canonical_image_read {α : Type} {x : α × ImageRead} {a : α} {r : ImageRead} (got : x = (a, r)) (h : Canonical x.2.d) :
    Canonical r.d := by
  rw [got] at h
  exact h

theorem canonical_imageRead_sparseColumn {slot core code lines va need : Nat} {c : Column} {r : ImageRead} (h : Canonical r.d) :
    Canonical (ImageRead.sparseColumn hp slot core code lines va need c r).2.d := by
  induction lines generalizing va need c r with
  | zero =>
    cases need with
    | zero => exact h
    | succ n => exact h
  | succ lines ih =>
    cases need with
    | zero => exact h
    | succ n =>
      rw [ImageRead.sparseColumn]
      case x_5 => exact nofun
      split
      next got => exact canonical_image_read got (canonical_imageRead_bytes h)
      next line r got =>
        have h1 := canonical_image_read got (canonical_imageRead_bytes h)
        extract_lets count m cells side
        split
        · exact h1
        · exact ih h1

theorem canonical_imageRead_column {slot core : Nat} {b : FormatSlot} {v : Dword} {stride rows n : Nat} {r : ImageRead}
    (h : Canonical r.d) : Canonical (ImageRead.column hp slot core b v stride rows n r).2.d := by
  unfold ImageRead.column
  extract_lets code
  split
  · exact canonical_imageRead_sparseColumn h
  · exact canonical_imageRead_denseColumn h

theorem canonical_columns {slot core : Nat} {b : FormatSlot} {v : Dword} {stride rows : Nat} {place : Nat → Nat} {ns : List Nat}
    {s : List Column × ImageRead} (h : Canonical s.2.d) :
    Canonical (ns.foldl (fun (s : List Column × ImageRead) c =>
      let x := s.2.column hp slot core b v stride rows (place c)
      (s.1 ++ [x.1], x.2)) s).2.d :=
  canonical_foldl_image h fun _ _ h1 => canonical_imageRead_column h1

theorem canonical_loadBanks {o : MatrixOp} {engine core first : Nat} {b : FormatSlot} {v : Dword} {stride : Word}
    {macros : BitVec 4} {back : Bool} {rows : Nat} (h : Canonical d) :
    Canonical (d.loadBanks hp o engine core first b v stride macros back rows) := by
  unfold Dev.loadBanks
  extract_lets code nm
  refine canonical_foldl h fun d q h1 => ?_
  split
  · exact h1
  · split
    next cs r got =>
      have read := canonical_columns (hp := hp) (slot := o.slot) (core := engine) (b := b) (v := v) (stride := stride.toNat)
        (rows := rows) (place := fun c => first + q * nm + c) (ns := List.range nm) (s := ([], (⟨none, none, d⟩ : ImageRead))) h1
      rw [got] at read
      extract_lets p
      split
      next got1 =>
        have h2 := canonical_snd got1 (canonical_nextFree read)
        extract_lets d2 d3 reported d4
        have h3 : Canonical d3 := canonical_ite h2 (canonical_clearChip (canonical_clearChip h2))
        have h4 : Canonical d4 := by
          unfold d4
          split
          · exact canonical_ite h3 (canonical_faultOp h3)
          · exact h3
        split
        · exact canonical_consumeOp h4
        · exact canonical_killOp h4
        · exact h4

theorem canonical_loadDrain {o : MatrixOp} {core : Nat} {src : Dword} {kind first count : Nat} (h : Canonical d) :
    Canonical (Dev.loadDrain hp d o core src kind first count) := by
  unfold Dev.loadDrain
  extract_lets w
  split
  next got =>
    have h1 := ends_ok got (canonical_readVa h)
    extract_lets d2
    exact h1
  next got =>
    have h1 := ends_error got (canonical_readVa h)
    split
    next got1 =>
      have h2 := canonical_snd got1 (canonical_nextFree h1)
      extract_lets word d3
      have h_d3 : Canonical d3 := h2
      split
      · exact canonical_faultOp h_d3
      · exact canonical_consumeOp h_d3
      · exact canonical_killOp h_d3

theorem stays_execMatrixOperationRetire {core : Nat} {s : Machine.State} (h : Canonical s.dev) :
    Stays (execMatrixOperationRetire core s) := by
  unfold execMatrixOperationRetire
  refine stays_run ?_
  split
  · exact h
  · extract_lets d
    have h_d : Canonical d := by
      unfold d
      split
      · exact h
      · split
        · exact canonical_foldl h (fun _ _ h1 => canonical_loadBanks h1)
        · exact canonical_foldl h (fun _ _ h1 => h1)
        · exact canonical_loadDrain h
        · exact h
    exact canonical_retireOp h_d

end

end Sys2Proof.Proofs

end

section

/-! PROOF. Canonical memory: the copy engines, the queues between stages and the save area. -/

namespace Sys2Proof.Proofs

open Sys2Proof Sys2Proof.Machine Sys2Proof.Safety

section
variable {d : Dev} {hp : HostPart}

/-! ### Copies -/

theorem canonical_queueCopy {i : Instr} {f : CopyFields} {p : Party} {team core : Nat} {pc : Va} {lanes : Mask}
    {deps : List Nat} {coords : List Word} {tlr slice : Dword} (h : Canonical d) :
    Canonical (d.queueCopy i f p team core pc lanes deps coords tlr slice) := h

theorem canonical_copyFromWarp {i : Instr} {f : CopyFields} {r : LaunchRecord} {id : Nat} {w : Warp} {s : Split}
    (h : Canonical d) :
    Canonical (Dev.copyFromWarp hp d i f r id w s) := by
  unfold Dev.copyFromWarp
  extract_lets ls n tlr slice
  split
  · exact canonical_raise h
  · split
    · exact canonical_block h
    · split
      · exact canonical_raise h
      · exact canonical_commit (canonical_foldl h (fun _ _ h1 => canonical_queueCopy h1))

theorem canonical_copyFromFet {i : Instr} {f : CopyFields} {r : LaunchRecord} {id : Nat} {c : Fet} (h : Canonical d) :
    Canonical (Dev.copyFromFet hp d i f r id c) := by
  unfold Dev.copyFromFet
  extract_lets tlr slice
  split
  · exact canonical_fetTrap h
  · split
    · exact h
    · split
      · exact canonical_fetTrap h
      · exact canonical_commitFet (canonical_queueCopy h)

theorem canonical_issueCopy {i : Instr} (h : Canonical d) : Canonical (Dev.issueCopy hp d i) := by
  unfold Dev.issueCopy
  extract_lets f
  split
  · exact h
  · split
    · exact canonical_ite (canonical_misplaced h) (canonical_issueWarp h (fun _ _ _ => canonical_copyFromWarp h))
    · split
      · exact canonical_misplaced h
      · split
        · exact h
        · exact canonical_ite h (canonical_copyFromFet h)
    · exact h

theorem canonical_readElement {slot core : Nat} {f : FormatSlot} {p : ElementPlace} (h : Canonical d) :
    Ends (fun r => Canonical r.2) (fun r => Canonical r.2) (Dev.readElement hp d slot core f p) := by
  unfold Dev.readElement
  split
  · exact .error h
  · split
    · split
      next got => exact .error (ends_failure got (canonical_readValue h))
      next got =>
        have h1 := ends_ok got (canonical_readValue h)
        split
        next got1 => exact .error (ends_failure got1 (canonical_readValue h1))
        next got1 => exact .ok (ends_ok got1 (canonical_readValue h1))
    · extract_lets w
      split
      next got => exact .error (ends_failure got (canonical_readValue h))
      next got => exact .ok (ends_ok got (canonical_readValue h))

theorem canonical_copyJob_readItem {job : CopyJob} {slot core : Nat} {a : List Nat} (h : Canonical d) :
    Ends (fun r => Canonical r.2) (fun r => Canonical r.2) (CopyJob.readItem hp job slot core a d) := by
  induction a generalizing job slot core d with
  | nil =>
    unfold CopyJob.readItem
    exact .ok h
  | cons x xs ih =>
    unfold CopyJob.readItem
    extract_lets spot read
    clear_value spot
    have h_read : Ends (fun r => Canonical r.2) (fun r => Canonical r.2) read := by
      unfold read
      split
      · split
        next got =>
          have h1 := ends_failure got (canonical_readElement h)
          exact .error h1
        next got =>
          have h1 := ends_ok got (canonical_readElement h)
          exact .ok h1
      · exact .ok h
    clear_value read
    split
    · have h1 := ends_failure rfl h_read
      exact .error h1
    · have h1 := ends_ok rfl h_read
      split
      next got =>
        have h3 := ends_failure got (ih h1)
        exact .error h3
      next got =>
        have h3 := ends_ok got (ih h1)
        exact .ok h3

theorem canonical_copyRun_put {slot core : Nat} {f : FormatSlot} {a : List (Dword × List Byte)} {a' : CopyRun}
    (h : Canonical a'.d) :
    Canonical (CopyRun.put hp slot core f a a').d := by
  induction a generalizing slot core f a' with
  | nil =>
    unfold CopyRun.put
    exact h
  | cons x xs ih =>
    unfold CopyRun.put
    split
    · exact h
    · split
      next got => exact ends_error got (canonical_writeVa h)
      next got => exact ih (ends_dev got (canonical_writeVa h))

theorem canonical_copyJob_item {job : CopyJob} {slot core : Nat} {r : CopyRun} {es : List Nat} (h : Canonical r.d) :
    Canonical (CopyJob.item hp job slot core r es).d := by
  unfold CopyJob.item
  split
  · exact h
  · split
    next got =>
      have h1 := ends_error got (canonical_copyJob_readItem h)
      exact h1
    next got =>
      have h1 := ends_ok got (canonical_copyJob_readItem h)
      split
      · dsimp only
        split
        · exact canonical_copyRun_put h1
        · dsimp only
          exact canonical_copyRun_put h1

theorem canonical_copyJob_readRows {job : CopyJob} {slot core : Nat} {a : List Nat} (h : Canonical d) :
    Ends (fun r => Canonical r.2) (fun r => Canonical r.2) (CopyJob.readRows hp job slot core a d) := by
  induction a generalizing job slot core d with
  | nil =>
    unfold CopyJob.readRows
    exact .ok h
  | cons x xs ih =>
    unfold CopyJob.readRows
    extract_lets n read
    have h_read : Ends (fun r => Canonical r.2) (fun r => Canonical r.2) read := by
      unfold read
      split
      · split
        next got =>
          have h1 := ends_failure got (canonical_readValue h)
          exact .error h1
        next got =>
          have h1 := ends_ok got (canonical_readValue h)
          exact .ok h1
      · exact .ok h
    clear_value read
    split
    · have h1 := ends_failure rfl h_read
      exact .error h1
    · have h1 := ends_ok rfl h_read
      split
      next got =>
        have h3 := ends_failure got (ih h1)
        exact .error h3
      next got =>
        have h3 := ends_ok got (ih h1)
        exact .ok h3

theorem canonical_copyJob_items {job : CopyJob} {slot core : Nat} {es : List (List Nat)} {r : CopyRun} (h : Canonical r.d) :
    Canonical (es.foldl (job.item hp slot core) r).d := by
  induction es generalizing r with
  | nil => exact h
  | cons x xs ih => exact ih (canonical_copyJob_item h)

theorem canonical_copyJob_move {job : CopyJob} {slot core : Nat} (h : Canonical d) : Canonical (job.move hp slot core d).d := by
  unfold CopyJob.move
  split
  next d1 got =>
    have h1 := canonical_snd got (canonical_nextFree h)
    have read : Ends (fun e => Canonical e.2) (fun r => Canonical r.2)
        (if job.lay.mode = 2 then job.readRows hp slot core (List.range (job.lay.box.getD 1 0)) d1 else .ok ([], d1)) := by
      split
      · exact canonical_copyJob_readRows h1
      · exact .ok h1
    split
    next got1 => exact ends_error got1 read
    next got1 => exact canonical_copyJob_items (ends_ok got1 read)

theorem canonical_copyJob_run {job : CopyJob} {slot core : Nat} (h : Canonical d) :
    Ends (fun e => Canonical e.2) (fun r => Canonical r.d) (job.run hp slot core d) := by
  unfold CopyJob.run
  split
  · exact .ok h
  · extract_lets ring r
    have h_r : Canonical r.d := canonical_copyJob_move h
    split
    · exact .ok h
    · exact .ok h
    · split
      · exact .error h_r
      · exact .ok h_r

theorem canonical_pushRecord {slot core team ring ringBase rlog : Nat} {record : Nat → List Byte} (h : Canonical d) :
    Canonical (Dev.pushRecord hp d slot core team ring ringBase rlog record).1 := by
  unfold Dev.pushRecord
  split
  · exact h
  · dsimp only
    split
    next got =>
      have h1 := ends_dev got (canonical_writeVa h)
      exact h1
    next got =>
      have h1 := ends_error got (canonical_writeVa h)
      exact h1

theorem canonical_endOp {id : Nat} {flags : Flags} {faults : List EngineFault} (h : Canonical d) :
    Canonical (Dev.endOp hp d id flags faults) := canonical_settle h

theorem canonical_copyEnd_finish {e : CopyEnd} {id : Nat} {c : Copy} {o : EngineOp} (h : Canonical e.d) :
    Canonical (e.finish hp id c o) := by
  unfold CopyEnd.finish
  extract_lets fet time
  split
  next got =>
    have recorded : Canonical (match e.ring with
        | none => (e.d, some (Failure.fault e.code e.va))
        | some (base, rlog) =>
          e.d.pushRecord hp c.slot c.core o.team c.ring base rlog fun index =>
            completionRecord c.tag e.status (e.rflags + fet) index e.bytes (detailOf e.status e.code e.va e.clipped) time).1 := by
      split
      · exact h
      · exact canonical_pushRecord h
    have h1 := canonical_fst got recorded
    split
    · exact canonical_killOp h1
    · exact canonical_endOp h1

theorem stays_execCopyCommandStart {command : Nat} {s : Machine.State} (h : Canonical s.dev) :
    Stays (execCopyCommandStart command s) := by
  unfold execCopyCommandStart
  refine stays_run ?_
  split
  · split
    · exact h
    · split
      · split
        next got =>
          have h1 := ends_ok got (canonical_readVa h)
          exact h1
        next got =>
          have h1 := ends_error got (canonical_readVa h)
          exact canonical_killOp h1
        next got =>
          have h1 := ends_error got (canonical_readVa h)
          exact canonical_copyEnd_finish h1
      · exact h
  · exact h
  · exact h

theorem canonical_copyBytesFrom {slot core : Nat} {src dst : Dword} {a : List Nat} (h : Canonical d) :
    Canonical (Dev.copyBytesFrom hp slot core src dst a d).1 := by
  induction a generalizing slot core src dst d with
  | nil =>
    unfold Dev.copyBytesFrom
    exact h
  | cons x xs ih =>
    unfold Dev.copyBytesFrom
    dsimp only
    split
    next got =>
      have h1 := ends_error got (canonical_readVa h)
      exact h1
    next got =>
      have h1 := ends_ok got (canonical_readVa h)
      split
      next got1 =>
        have h2 := ends_error got1 (canonical_writeVa h1)
        exact h2
      next got1 =>
        have h2 := ends_dev got1 (canonical_writeVa h1)
        exact ih h2

theorem canonical_finishByteCopy {id : Nat} {c : Copy} {src dst count : Dword} (h : Canonical d) :
    Canonical (Dev.finishByteCopy hp d id c src dst count) := by
  unfold Dev.finishByteCopy
  split
  next got =>
    have h1 := canonical_snd got (canonical_nextFree h)
    split
    next got1 =>
      have h2 := canonical_fst got1 (canonical_copyBytesFrom h1)
      extract_lets d3 done
      have h_d3 : Canonical d3 := h2
      have h_done : ∀ (d : Dev), Canonical d → Canonical (done d) := fun _ h3 => canonical_settle h3
      split
      · exact h_done _ h_d3
      · exact canonical_unreadable h_d3 (fun _ h3 => h_done _ (canonical_failNode h3))

theorem stays_execCopyCommandComplete {command : Nat} {s : Machine.State} (h : Canonical s.dev) :
    Stays (execCopyCommandComplete command s) := by
  unfold execCopyCommandComplete
  refine stays_run ?_
  split
  · exact h
  · split
    · exact h
    · split
      · exact canonical_finishByteCopy h
      · split
        · split
          next got =>
            have h1 := ends_value got (canonical_copyJob_run h)
            exact canonical_copyEnd_finish h1
          next got => exact canonical_killOp (ends_error got (canonical_copyJob_run h))
        · exact h

/-! ### Queues -/

theorem canonical_issueQueue {n : Need} {port : BitVec 2} {out : Bool} {k : Nat → Nat → Nat → Warp → Split → Dev}
    (h : Canonical d) (each : ∀ (i j m : Nat) (w : Warp) (p : Split), Canonical (k i j m w p)) :
    Canonical (Dev.issueQueue hp d n port out k) := by
  unfold Dev.issueQueue
  split
  · split
    · exact canonical_misplaced h
    · exact canonical_issueWarp h (fun _ _ _ => each _ _ _ _ _)
  · exact canonical_misplaced h
  · exact h

theorem canonical_sendRequest {launch q id : Nat} {w : Warp} {push : Bool} {ls : List (Nat × Dword)}
    {poll : Option (Mask × Va)} (h : Canonical d) :
    Canonical (d.sendRequest launch q id w push ls poll).2 := canonical_fresh h

theorem canonical_request {launch q id : Nat} {w : Warp} {s : Split} {push : Bool} {ls : List (Nat × Dword)} (h : Canonical d) :
    Canonical (d.request launch q id w s push ls) := canonical_select h

theorem stays_execQpush {wbit : Bool} {port : BitVec 2} {s : Machine.State} (h : Canonical s.dev) :
    Stays (execQpush wbit port s) := by
  unfold execQpush
  exact stays_run (canonical_issueQueue h (fun _ _ _ _ _ => canonical_ite (canonical_commit h) (canonical_checked h
    (canonical_request h))))

theorem stays_execQeos {x : Bool} {port : BitVec 2} {s : Machine.State} (h : Canonical s.dev) :
    Stays (execQeos x port s) :=
  stays_run (canonical_issueQueue h fun _ _ _ _ _ => canonical_settle (canonical_onTeam (canonical_commit h)))

theorem canonical_checkBuffers {slot core n : Nat} {a : List Dword} (h : Canonical d) :
    Ends (fun r => Canonical r.2) Canonical (Dev.checkBuffers hp slot core n a d) := by
  induction a generalizing slot core n d with
  | nil =>
    unfold Dev.checkBuffers
    exact .ok h
  | cons x xs ih =>
    unfold Dev.checkBuffers
    split
    next got => exact .error (ends_failure got (canonical_writeParts h))
    next got => exact ih (ends_ok got (canonical_writeParts h))

theorem canonical_takeRecords {launch q : Nat} {r : QueueRequest} {mask : Mask} {pc : Va} {k : Nat} {st : Nat → Word}
    (h : Canonical d) :
    Canonical (d.takeRecords launch q r mask pc k st) := by
  unfold Dev.takeRecords
  extract_lets u into status copies d1
  have h_d1 : Canonical d1 := h
  exact canonical_ite h_d1 h_d1

theorem canonical_issuePop {wbit : Bool} {port : BitVec 2} {k : Nat → Nat → Nat → Warp → Split → List (Nat × Dword) → Dev}
    (h : Canonical d)
    (each : ∀ (i j m : Nat) (w : Warp) (p : Split) (ws : List (Nat × Dword)), Canonical (k i j m w p ws)) :
    Canonical (Dev.issuePop hp d wbit port k) := by
  unfold Dev.issuePop
  exact canonical_issueQueue h (fun _ _ _ _ _ => canonical_checked h (canonical_ite (canonical_commit h) (canonical_ite
    (canonical_commit h) (each _ _ _ _ _ _))))

theorem stays_execQpop {wbit : Bool} {port : BitVec 2} {s : Machine.State} (h : Canonical s.dev) :
    Stays (execQpop wbit port s) := stays_run (canonical_issuePop h (fun _ _ _ _ _ _ => canonical_request h))

theorem stays_execQtry {wbit : Bool} {port : BitVec 2} {s : Machine.State} (h : Canonical s.dev) :
    Stays (execQtry wbit port s) := by
  unfold execQtry
  refine stays_run (canonical_issuePop h fun _ _ _ _ _ _ => ?_)
  split
  next got =>
    have h1 := canonical_snd got (canonical_sendRequest h)
    exact h1

theorem canonical_answerRequest {launch q id : Nat} {r : QueueRequest} {s : Split} {st : Option (Nat → Cell)} (h : Canonical d) :
    Canonical (d.answerRequest launch q id r s st) := h

theorem canonical_failRequest {launch q id : Nat} {w : Warp} {r : QueueRequest} {s : Split} {f : Failure} (h : Canonical d) :
    Canonical (Dev.failRequest hp d launch q id w r s f) := by
  unfold Dev.failRequest
  extract_lets lanes d1
  have h_d1 : Canonical d1 := h
  split
  · exact canonical_endTeam h_d1
  · exact canonical_killAt h_d1
  · exact h_d1

theorem canonical_readRecords {slot core n : Nat} {a : List (Nat × Dword)} (h : Canonical d) :
    Ends (fun r => Canonical r.2) (fun r => Canonical r.2) (Dev.readRecords hp slot core n a d) := by
  induction a generalizing slot core n d with
  | nil =>
    unfold Dev.readRecords
    exact .ok h
  | cons x xs ih =>
    unfold Dev.readRecords
    split
    next got => exact .error (ends_failure got (canonical_readVa h))
    next got =>
      have h1 := ends_ok got (canonical_readVa h)
      split
      next got1 => exact .error (ends_failure got1 (ih h1))
      next got1 => exact .ok (ends_ok got1 (ih h1))

theorem stays_execQueueGrant {launch queue : Nat} {s : Machine.State} (h : Canonical s.dev) :
    Stays (execQueueGrant launch queue s) := by
  unfold execQueueGrant
  refine stays_run ?_
  extract_lets u
  split
  · exact h
  · split
    · exact h
    · split
      · exact h
      · split
        next got => exact canonical_failRequest (ends_error got (canonical_readRecords h))
        next got =>
          have h1 := ends_ok got (canonical_readRecords h)
          extract_lets deps d1
          exact canonical_settle (canonical_answerRequest h1)

theorem canonical_answerPop {launch queue : Nat} (h : Canonical d) : Canonical (Dev.answerPop hp d launch queue) := by
  unfold Dev.answerPop
  extract_lets u
  split
  · exact h
  · split
    · exact h
    · extract_lets k st
      split
      · exact canonical_settle (canonical_answerRequest h)
      · split
        · exact h
        · split
          next got => exact canonical_failRequest (ends_error got (canonical_checkBuffers h))
          next got =>
            have h1 := ends_dev got (canonical_checkBuffers h)
            exact canonical_settle (canonical_answerRequest (canonical_takeRecords h1))

theorem canonical_writeQueueCopy {c : QueueCopy} (h : Canonical d) : Canonical (Dev.writeQueueCopy hp d c) := by
  unfold Dev.writeQueueCopy
  extract_lets d1 d2
  have h_d1 : Canonical d1 := h
  have h_d2 : Canonical d2 := by
    unfold d2
    split
    next got => exact ends_dev got (canonical_writeVa h_d1)
    next got => exact canonical_killAt (ends_error got (canonical_writeVa h_d1))
    next got =>
      have h1 := ends_error got (canonical_writeVa h_d1)
      split
      · exact h1
      · split
        · exact canonical_delegate h1
        · exact h1
  exact canonical_settle (canonical_ite h_d2 h_d2)

theorem canonical_answerPoll {launch queue : Nat} {r : QueueRequest} {mask : Mask} {pc : Va} (h : Canonical d) :
    Canonical (Dev.answerPoll hp d launch queue r mask pc) := by
  unfold Dev.answerPoll
  extract_lets u d1 fill
  have h_d1 : Canonical d1 := h
  have h_fill : ∀ (d : Dev) (st : Nat → Word), Canonical d → Canonical (fill d st) := fun _ _ h1 => h1
  exact canonical_ite (canonical_settle (h_fill _ _ h_d1)) (canonical_settle (canonical_ite (h_fill _ _
    (canonical_takeRecords h_d1)) (canonical_takeRecords h_d1)))

theorem canonical_releaseRequest {launch queue : Nat} {r : QueueRequest} (h : Canonical d) :
    Canonical (Dev.releaseRequest hp d launch queue r) := by
  unfold Dev.releaseRequest
  split
  · exact h
  · extract_lets d1
    have h_d1 : Canonical d1 := h
    split
    · exact h_d1
    · exact canonical_answerPoll h_d1

theorem canonical_copyTurn {n : Nat} (h : Canonical d) : Canonical (Dev.copyTurn hp d n) := by
  unfold Dev.copyTurn
  split
  · exact h
  · exact canonical_ite (canonical_writeQueueCopy h) h

theorem stays_execHandoverMark {launch queue : Nat} {s : Machine.State} (h : Canonical s.dev) :
    Stays (execHandoverMark launch queue s) := by
  unfold execHandoverMark
  refine stays_run ?_
  extract_lets u
  split
  · exact h
  · extract_lets d mine
    have h_d : Canonical d := h
    refine canonical_settle ?_
    refine canonical_foldl h_d (fun _ _ h1 => ?_)
    split
    · exact h1
    · exact canonical_answerRequest h1

/-! ### The save area -/

theorem canonical_savePage {slot page : Nat} (h : Canonical d) :
    Holds (fun r => Canonical r.2) (Dev.savePage hp d slot page) := by
  unfold Dev.savePage
  split
  · exact .some h
  · refine holds_map (holds_orElse (canonical_takeFrame h) (canonical_takeFrame h)) (fun _ h1 => ?_)
    exact h1

theorem canonical_saveParts {slot : Nat} {a : List (Nat × Nat)} (h : Canonical d) :
    Holds (fun r => Canonical r.2) (Dev.saveParts hp slot a d) := by
  induction a generalizing slot d with
  | nil =>
    unfold Dev.saveParts
    exact .some h
  | cons x xs ih =>
    unfold Dev.saveParts
    split
    · exact .none
    next got => exact holds_map (ih (holds_some got (canonical_savePage h))) (fun _ h2 => h2)

theorem canonical_saveRange {slot core off n : Nat} (h : Canonical d) :
    Holds (fun r => Canonical r.2) (Dev.saveRange hp d slot core off n) := canonical_saveParts h

theorem canonical_save {slot core off : Nat} {bytes : List Byte} (h : Canonical d) :
    Holds Canonical (Dev.save hp d slot core off bytes) := holds_map (canonical_saveRange h) (fun _ h1 => canonical_putParts h1)

theorem canonical_copyOut {src : Nat} {a : List (Nat × Nat)} (h : Canonical d) : Canonical (Dev.copyOut src a d) := by
  induction a generalizing src d with
  | nil =>
    unfold Dev.copyOut
    exact h
  | cons x xs ih =>
    unfold Dev.copyOut
    exact ih (canonical_copyBytes h)

theorem canonical_copyIn {dst : Nat} {a : List (Nat × Nat)} (h : Canonical d) : Canonical (Dev.copyIn dst a d) := by
  induction a generalizing dst d with
  | nil =>
    unfold Dev.copyIn
    exact h
  | cons x xs ih =>
    unfold Dev.copyIn
    exact ih (canonical_copyBytes h)

theorem canonical_saveSlice {slot core off n : Nat} (h : Canonical d) :
    Holds Canonical (Dev.saveSlice hp d slot core off n) := holds_map (canonical_saveRange h) (fun _ h1 => canonical_copyOut h1)

theorem canonical_loadSlice {slot core off n dst : Nat} (h : Canonical d) :
    Holds Canonical (Dev.loadSlice hp d slot core off n dst) :=
  holds_map (canonical_saveRange h) (fun _ h1 => canonical_copyIn h1)

theorem canonical_saveMatrix {holder core : Nat} {m : Machine.Matrix} (h : Canonical d) :
    Holds Canonical (Dev.saveMatrix hp d holder core m) := by
  unfold Dev.saveMatrix
  exact holds_map (canonical_saveRange h) (fun _ h1 => canonical_putParts h1)

theorem canonical_restoreMatrix {slot core : Nat} (h : Canonical d) : Canonical (Dev.restoreMatrix hp d slot core) := by
  unfold Dev.restoreMatrix
  extract_lets saved m
  split
  next got =>
    have h1 : Canonical (if saved.isSome = true then (Dev.saveRange hp d slot core 0 524288).getD ([], d) else ([], d)).2 := by
      split
      · exact canonical_getD_snd (canonical_saveRange h) h
      · exact h
    have h1' := canonical_snd got h1
    exact h1'

theorem canonical_takeMatrix {slot core : Nat} (h : Canonical d) : Holds Canonical (Dev.takeMatrix hp d slot core) := by
  unfold Dev.takeMatrix
  extract_lets m
  split
  · exact .some (canonical_restoreMatrix h)
  · split
    · exact .some h
    · split
      · exact .none
      · exact holds_map (canonical_saveMatrix h) (fun _ h1 => canonical_restoreMatrix h1)

theorem canonical_claimMatrix {slot core : Nat} (h : Canonical d) : Holds Canonical (Dev.claimMatrix hp d slot core) := by
  unfold Dev.claimMatrix
  split
  · exact canonical_takeMatrix h
  · exact .some h

theorem canonical_claimAll {slot : Nat} {cores : List Nat} (h : Canonical d) :
    Holds Canonical (Dev.claimAll hp d slot cores) :=
  holds_foldl (.some h) (fun _ _ h1 => holds_bind h1 (fun _ h2 => canonical_claimMatrix h2))

end

end Sys2Proof.Proofs

end

section

/-! PROOF. Canonical memory: the placement of teams and of stage sets, and collectives. -/

namespace Sys2Proof.Proofs

open Sys2Proof Sys2Proof.Machine Sys2Proof.Safety

section
variable {d : Dev} {hp : HostPart}

/-! ### Teams and warps that start, leave and return -/

theorem canonical_mapShared {slot core team : Nat} {a : List Nat} (h : Canonical d) :
    Holds Canonical (Dev.mapShared hp slot core team a d) := by
  induction a generalizing slot core team d with
  | nil =>
    unfold Dev.mapShared
    exact .some h
  | cons x xs ih =>
    unfold Dev.mapShared
    split
    · exact .none
    next got =>
      have h1 := holds_dev got (canonical_mapPage h)
      exact ih h1

theorem canonical_clearSlice {pa n : Nat} (h : Canonical d) : Canonical (d.clearSlice pa n) := Memory.wf_clear pa n h

theorem canonical_placeShared {slot core team bytes : Nat} (h : Canonical d) :
    Holds (fun r => Canonical r.2) (Dev.placeShared hp d slot core team bytes) := by
  unfold Dev.placeShared
  split
  · exact .some h
  · extract_lets n
    split
    · exact .none
    · refine holds_map (canonical_mapShared h) (fun _ h1 => ?_)
      exact canonical_clearSlice h1

theorem canonical_reserve {slot core : Nat} {who : Holder} {n : Nat} (h : Canonical d) :
    Holds (fun r => Canonical r.2) (d.reserve slot core who n) := by
  unfold Dev.reserve
  split
  · exact .some h
  · refine holds_map_all (fun _ => ?_)
    exact h

theorem canonical_startWarp {slot team index : Nat} {f : TeamForm} {r : LaunchRecord} {k : List Word} {place : Nat × Nat}
    (h : Canonical d) :
    Holds Canonical (Dev.startWarp slot team index f r k place d) := by
  unfold Dev.startWarp
  split
  · extract_lets lb
    split
    · exact .none
    · split
      next got =>
        have h1 := holds_some got (canonical_reserve h)
        exact .some h1
      · exact .none

theorem canonical_startWarps {slot team index : Nat} {f : TeamForm} {r : LaunchRecord} {k : List Word} {a : List (Nat × Nat)}
    (h : Canonical d) :
    Holds Canonical (Dev.startWarps slot team index f r k a d) := by
  induction a generalizing slot team index f r k d with
  | nil =>
    unfold Dev.startWarps
    exact .some h
  | cons x xs ih =>
    unfold Dev.startWarps
    exact holds_bind (canonical_startWarp h) (fun _ h1 => ih h1)

theorem canonical_startFet {team core : Nat} {f : TeamForm} {r : LaunchRecord} {k : List Word} (h : Canonical d) :
    Canonical (d.startFet team core f r k) := by
  unfold Dev.startFet
  split <;> exact h

theorem canonical_seatTeam {launch : Nat} {l : Launch} {index core : Nat} {f : TeamForm} {on : List Nat} (h : Canonical d) :
    Holds (fun r => Canonical r.2) (Dev.seatTeam hp d launch l index core f on) := by
  unfold Dev.seatTeam
  extract_lets r
  split
  next id d1 got =>
    have h1 := canonical_snd got (canonical_fresh h)
    split
    · exact .none
    next got1 =>
      have h2 : Holds (fun r => Canonical r.2)
        (if on.contains core = true then Dev.placeShared hp d1 l.slot core id r.sharedBytes else some (0, d1)) := by
        split
        · exact canonical_placeShared h1
        · exact .some h1
      have h2' := holds_some got1 h2
      exact holds_map (canonical_startWarps h2') (fun _ h3 => h3)

theorem canonical_startTeam {launch : Nat} {l : Launch} {index core : Nat} {f : TeamForm} (h : Canonical d) :
    Holds (fun r => Canonical r.2) (Dev.startTeam hp d launch l index core f) := by
  unfold Dev.startTeam
  extract_lets pair
  split
  · exact .none
  · split
    · exact .none
    next got =>
      have h1 := holds_some got (holds_bind (canonical_claimAll h) (fun _ h1 => canonical_seatTeam h1))
      refine .some ?_
      exact canonical_startFet h1

theorem stays_execTeamPlacement {launch core : Nat} {s : Machine.State} (h : Canonical s.dev) :
    Stays (execTeamPlacement launch core s) := by
  unfold execTeamPlacement
  refine stays_run ?_
  split
  · exact h
  · split
    · split
      · exact canonical_settle h
      · split
        · exact h
        next got =>
          have h1 := holds_some got (canonical_startTeam h)
          exact h1
    · exact h

theorem canonical_imageShared {slot team : Nat} {t : Team} (h : Canonical d) :
    Holds Canonical (Dev.imageShared hp d slot team t) := by
  unfold Dev.imageShared
  split
  · exact .none
  · refine holds_foldl (.some h) fun _ _ h1 => holds_bind h1 fun d1 h2 => ?_
    refine holds_map (p := Canonical) (canonical_saveSlice h2) fun _ h3 => ?_
    exact canonical_unmapPage h3

theorem canonical_imageStacks {slot : Nat} {w : Warp} (h : Canonical d) : Holds Canonical (Dev.imageStacks hp slot d w) := by
  unfold Dev.imageStacks
  split
  · exact .some h
  · exact canonical_saveSlice h

theorem canonical_teamLeaves {slot core record team : Nat} {moves : Bool} (h : Canonical d) :
    Holds Canonical (Dev.teamLeaves hp d slot core record team moves) := by
  unfold Dev.teamLeaves
  split
  · exact .some h
  · extract_lets leave
    have h_leave : ∀ (d : Dev), Canonical d → Holds Canonical (leave d) :=
      fun _ h1 => holds_foldl (.some h1) (fun _ _ h2 => holds_bind h2 (fun _ h3 => canonical_imageStacks h3))
    refine holds_map (p := Canonical) ?_ (fun _ h1 => canonical_foldl h1 (fun _ _ h2 => h2))
    refine holds_bind (holds_bind (canonical_save h) (fun _ h1 => h_leave _ h1)) (fun _ h1 => ?_)
    split
    · exact .some h1
    · exact canonical_imageShared h1

theorem canonical_evict {id : Nat} {moves : Bool} (h : Canonical d) : Holds Canonical (Dev.evict hp d id moves) := by
  unfold Dev.evict
  split
  · exact .some h
  · extract_lets slot
    refine holds_bind (canonical_save (canonical_foldl (canonical_withdraw h) (fun _ _ h1 => canonical_retire h1)))
      (fun _ h1 => ?_)
    extract_lets d1
    have h_d1 : Canonical d1 := h1
    split
    · exact .some h_d1
    · exact canonical_teamLeaves h_d1

theorem canonical_evictAll {moves : Bool} {a : List Nat} (h : Canonical d) : Holds Canonical (Dev.evictAll hp moves a d) := by
  induction a generalizing moves d with
  | nil =>
    unfold Dev.evictAll
    exact .some h
  | cons x xs ih =>
    unfold Dev.evictAll
    exact holds_bind (canonical_evict h) (fun _ h1 => ih h1)

theorem canonical_reserveQueues {slot launch : Nat} {a : List (Nat × Queue)} (h : Canonical d) :
    Holds Canonical (Dev.reserveQueues slot launch a d) := by
  induction a generalizing slot launch d with
  | nil =>
    unfold Dev.reserveQueues
    exact .some h
  | cons x xs ih =>
    unfold Dev.reserveQueues
    exact holds_bind (canonical_reserve h) (fun _ h1 => ih h1)

theorem stays_execPartialEviction {launch core : Nat} {s : Machine.State} (h : Canonical s.dev) :
    Stays (execPartialEviction launch core s) := by
  unfold execPartialEviction
  refine stays_run ?_
  split
  · exact h
  · split
    · exact h
    · split
      · exact h
      · split
        · exact h
        · exact canonical_ite (canonical_getD (canonical_evict h) h) h

theorem canonical_restoreShared {slot team : Nat} {t : Team} (h : Canonical d) :
    Holds Canonical (Dev.restoreShared hp d slot team t) := by
  unfold Dev.restoreShared
  extract_lets c
  split
  · exact .some h
  · split
    · exact holds_foldl (canonical_mapShared h) (fun _ _ h1 => holds_bind h1 (fun _ h2 => canonical_loadSlice h2))
    · exact .none

theorem canonical_restoreStacks {slot id : Nat} (h : Canonical d) : Holds Canonical (Dev.restoreStacks hp slot d id) := by
  unfold Dev.restoreStacks
  split
  · exact .some h
  · split
    · exact .some h
    · refine holds_bind (p := fun r => Canonical r.2) ?_ (fun _ h1 => holds_map (canonical_loadSlice h1) (fun _ h2 => h2))
      split
      · split
        · exact .some h
        · split
          · refine .some ?_
            exact h
          · exact .none
      · exact canonical_reserve h

theorem canonical_teamReturns {slot team : Nat} (h : Canonical d) : Holds Canonical (d.teamReturns hp slot team) := by
  unfold Dev.teamReturns
  split
  · exact .some h
  · have shared : Holds Canonical ((d.team? team).bind fun t => d.restoreShared hp slot team t) :=
      holds_bind_all fun _ => canonical_restoreShared h
    exact holds_bind shared fun _ h1 => holds_foldl (.some h1) fun _ _ h2 => holds_bind h2 fun _ h3 => canonical_restoreStacks h3

theorem stays_execWarpResume {warp lb : Nat} {s : Machine.State} (h : Canonical s.dev) : Stays (execWarpResume warp lb s) := by
  unfold execWarpResume
  refine stays_run ?_
  split
  · exact h
  · extract_lets slot core
    split
    · exact h
    · split
      next got =>
        have h1 := holds_dev got (holds_bind (canonical_claimAll h) (fun _ h1 => canonical_teamReturns h1))
        split
        · exact h
        · extract_lets fwd
          exact canonical_pushForwards h1
      · exact h

theorem stays_execWarpSwap {core lb : Nat} {s : Machine.State} (h : Canonical s.dev) : Stays (execWarpSwap core lb s) := by
  unfold execWarpSwap
  refine stays_run ?_
  extract_lets b
  split <;> exact h

theorem canonical_renameDonor {launch old new : Nat} (h : Canonical d) : Canonical (d.renameDonor launch old new) := by
  unfold Dev.renameDonor
  split
  · exact h
  · exact canonical_ite h h

theorem stays_execTeamRelaunch {team : Nat} {s : Machine.State} (h : Canonical s.dev) : Stays (execTeamRelaunch team s) := by
  unfold execTeamRelaunch
  refine stays_run ?_
  split
  · split
    · exact h
    · extract_lets gone form forget report
      have h_gone : Canonical gone := canonical_onLaunch (canonical_releaseTeam h)
      have h_forget : ∀ d : Dev, Canonical d → Canonical (forget d) := fun _ h1 => h1
      have h_report : ∀ d : Dev, Canonical d → Canonical (report d) := fun _ h1 => canonical_report h1
      split
      next got =>
        have h1 := holds_some got (holds_bind_all fun _ => canonical_startTeam h_gone)
        exact h_report _ (h_forget _ (canonical_renameDonor h1))
      · exact canonical_ite h (h_report _ (h_forget _ (canonical_onLaunch h_gone)))
  · exact h

/-! ### Stage sets -/

theorem canonical_startStages {launch : Nat} {l : Launch} {ss : StageSet} {a : List (Nat × Nat × Nat)} (h : Canonical d) :
    Holds Canonical (Dev.startStages hp launch l ss a d) := by
  induction a generalizing d with
  | nil => exact .some h
  | cons x xs ih =>
    unfold Dev.startStages
    split
    · exact .none
    next got =>
      have started : ∀ s : Option Stage, Holds (fun r => Canonical r.2) (s.bind fun s => d.startTeam hp launch l x.1 x.2.2
        (s.form x.2.1)) := by
        intro s
        cases s with
        | none => exact .none
        | some s => exact canonical_startTeam h
      exact ih (holds_some got (started _))

theorem stays_execStageSetStart {launch : Nat} {cores : List Nat} {s : Machine.State} (h : Canonical s.dev) :
    Stays (execStageSetStart launch cores s) := by
  unfold execStageSetStart
  refine stays_run ?_
  split
  · exact h
  · split
    · exact h
    · split
      · exact h
      · extract_lets teams
        split
        · exact h
        next got =>
          have h1 := holds_dev got (holds_bind (canonical_startStages h) (fun _ h1 => canonical_reserveQueues h1))
          exact canonical_settle h1

theorem canonical_startHandover {launch donor to_ team now : Nat} (h : Canonical d) :
    Canonical (d.startHandover launch donor to_ team now) := h

theorem canonical_balance {launch now a : Nat} {a' : List Nat} (h : Canonical d) :
    Canonical (Dev.balance launch now a a' d) := by
  induction a generalizing launch now a' d with
  | zero =>
    unfold Dev.balance
    exact h
  | succ k ih =>
    unfold Dev.balance
    split
    · exact h
    · extract_lets free cores r
      clear_value r
      split
      · exact h
      · split
        · exact h
        · split
          · exact h
          · split
            · exact h
            · exact ih (canonical_startHandover h)

theorem stays_execRebalancingInterval {launch : Nat} {s : Machine.State} (h : Canonical s.dev) :
    Stays (execRebalancingInterval launch s) := by
  unfold execRebalancingInterval
  refine stays_run ?_
  split
  · exact h
  · split
    · exact h
    · exact canonical_ite h (canonical_settle (canonical_ite h (canonical_balance h)))

theorem stays_execDonorEviction {launch team : Nat} {s : Machine.State} (h : Canonical s.dev) :
    Stays (execDonorEviction launch team s) := by
  unfold execDonorEviction
  refine stays_run ?_
  split
  · split
    · exact h
    · extract_lets due mine
      split
      · exact h
      · split
        · exact h
        · split
          · exact h
          next got =>
            have h1 := holds_dev got (canonical_evictAll h)
            extract_lets d1
            exact canonical_settle h1
  · exact h

theorem stays_execStageTeamStart {launch core : Nat} {s : Machine.State} (h : Canonical s.dev) :
    Stays (execStageTeamStart launch core s) := by
  unfold execStageTeamStart
  refine stays_run ?_
  split
  · exact h
  · split
    · exact h
    · extract_lets k
      split
      · exact h
      · split
        · exact h
        · split
          · exact h
          next got =>
            have h1 := holds_some got (canonical_startTeam h)
            extract_lets team
            exact h1

theorem stays_execStageSetStuck {launch : Nat} {s : Machine.State} (h : Canonical s.dev) :
    Stays (execStageSetStuck launch s) := by
  unfold execStageSetStuck
  refine stays_run ?_
  split
  · exact h
  · split
    · exact h
    · exact canonical_ite h (canonical_settle (canonical_cancelLaunch h))

/-! ### Collectives and membership -/

theorem canonical_sendColl {p : Party} {team : Nat} {pc : Va} {lanes : Mask} {deps : List Nat} {desc : Dword} {ring : Nat}
    {tag : BitVec 16} (h : Canonical d) :
    Canonical (d.sendColl p team pc lanes deps desc ring tag) := h

theorem stays_execColl {kdsc : BitVec 6} {ring : BitVec 3} {tag : BitVec 16} {s : Machine.State} (h : Canonical s.dev) :
    Stays (execColl kdsc ring tag s) := by
  unfold execColl
  refine stays_run ?_
  extract_lets k
  refine canonical_issueEither h (fun _ _ _ => ?_) (fun _ _ => ?_)
  · extract_lets desc
    split
    · exact canonical_block h
    · split
      · exact canonical_raise h
      · exact canonical_commit (canonical_sendColl h)
  · extract_lets desc
    split
    · exact h
    · split
      · exact canonical_fetTrap h
      · exact canonical_commitFet (canonical_sendColl h)

theorem stays_execVtag {kd : BitVec 6} {group : BitVec 16} {s : Machine.State} (h : Canonical s.dev) :
    Stays (execVtag kd group s) := stays_run (canonical_uniform h)

theorem canonical_endColl {id : Nat} {c : Coll} {e : CollEnd} (h : Canonical d) : Canonical (Dev.endColl hp d id c e) := by
  unfold Dev.endColl
  split
  · exact h
  · extract_lets f core time fet members finish
    have h_finish : ∀ (d : Dev) (faults : List EngineFault), Canonical d → Canonical (finish d faults) :=
      fun _ _ h1 => canonical_endOp h1
    split
    · exact h_finish _ _ h
    · split
      next got => exact h_finish _ _ (canonical_fst got (canonical_pushRecord h))
      next got => exact canonical_killOp (canonical_fst got (canonical_pushRecord h))
      next got => exact h_finish _ _ (canonical_fst got (canonical_pushRecord h))

theorem canonical_endUnread {id : Nat} {c : Coll} {code : Nat} (h : Canonical d) : Canonical (Dev.endUnread hp d id c code) :=
  canonical_endOp h

theorem canonical_stage {id : Nat} {c : Coll} {f : CollDesc} {reads : Bool} (h : Canonical d) :
    Canonical (Dev.stage hp d id c f reads) := by
  unfold Dev.stage
  split
  · split
    next got =>
      have h1 := ends_ok got (canonical_readVa h)
      exact h1
    next got =>
      have h1 := ends_error got (canonical_readVa h)
      exact canonical_killOp h1
    next got =>
      have h1 := ends_error got (canonical_readVa h)
      exact h1
  · exact h

theorem canonical_acceptRead {id : Nat} {c : Coll} {bs : List Byte} (h : Canonical d) :
    Canonical (Dev.acceptRead hp d id c bs) := by
  unfold Dev.acceptRead
  extract_lets f c1
  split
  · exact canonical_endColl h
  · extract_lets c2
    exact canonical_ite (canonical_endColl h) (canonical_ite (canonical_endColl h) (canonical_ite (canonical_endColl h)
      (canonical_stage h)))

theorem stays_execCollAccept {s : Machine.State} (h : Canonical s.dev) : Stays (execCollAccept s) := by
  unfold execCollAccept
  refine stays_run ?_
  split
  · exact h
  · split
    next got => exact canonical_killOp (ends_error got (canonical_readVa h))
    next got => exact canonical_endUnread (ends_error got (canonical_readVa h))
    next got => exact canonical_acceptRead (ends_ok got (canonical_readVa h))

theorem canonical_scramble_part {slot core seed : Nat} {x : Scramble} {va n : Nat} (h : Canonical x.d) :
    Canonical (Scramble.part hp slot core seed x va n).d := by
  unfold Scramble.part
  dsimp only
  split
  next got =>
    have h1 := ends_dev got (canonical_writeVa h)
    exact h1
  next got =>
    have h1 := ends_error got (canonical_writeVa h)
    exact h1

theorem canonical_scrambles {slot core seed : Nat} {ps : List (Nat × Nat)} {x : Scramble} (h : Canonical x.d) :
    Canonical (ps.foldl (fun x p => x.part hp slot core seed p.1 p.2) x).d := by
  induction ps generalizing x with
  | nil => exact h
  | cons p ps ih => exact ih (canonical_scramble_part h)

theorem canonical_scramble {slot core va n : Nat} (h : Canonical d) : Canonical (d.scramble hp slot core va n).d := by
  unfold Dev.scramble
  split
  next got => exact canonical_scrambles (canonical_snd got (canonical_nextFree h))

theorem canonical_endUndefined {id : Nat} {c : Coll} {f : CollDesc} {e : CollEnd} (h : Canonical d) :
    Canonical (Dev.endUndefined hp d id c f e) := by
  unfold Dev.endUndefined
  extract_lets n x
  have h_x : Canonical x.d := by
    unfold x
    exact canonical_scramble h
  exact canonical_endColl h_x

theorem canonical_ownBytes {id : Nat} {c : Coll} {f : CollDesc} (h : Canonical d) :
    Ends (fun r => Canonical r.2) (fun r => Canonical r.2) (Dev.ownBytes hp d id c f) := by
  unfold Dev.ownBytes
  split
  · exact .ok h
  · split
    · exact .ok h
    · exact canonical_readVa h

theorem canonical_runColl {id : Nat} {c : Coll} (h : Canonical d) : Canonical (Dev.runColl hp d id c) := by
  unfold Dev.runColl
  extract_lets f m
  split
  · exact canonical_endColl h
  · split
    · exact canonical_endUndefined h
    · split
      next got => exact canonical_killOp (ends_error got (canonical_ownBytes h))
      next got => exact canonical_endUndefined (ends_error got (canonical_ownBytes h))
      next got =>
        have h1 := ends_ok got (canonical_ownBytes h)
        split
        next got1 =>
          have h2 := canonical_snd got1 (canonical_nextFree h1)
          extract_lets xs out flags bytes
          split
          next got2 => exact canonical_killOp (ends_error got2 (canonical_writeVa h2))
          next got2 => exact canonical_endUndefined (ends_error got2 (canonical_writeVa h2))
          next got2 => exact canonical_endColl (ends_dev got2 (canonical_writeVa h2))

theorem stays_execCollComplete {operation : Nat} {s : Machine.State} (h : Canonical s.dev) :
    Stays (execCollComplete operation s) := by
  unfold execCollComplete
  refine stays_run ?_
  split
  · exact h
  · exact canonical_ite (canonical_runColl h) h

theorem stays_execCollectiveFlit {flit : CollectiveFlit} {s : Machine.State} (h : Canonical s.dev) :
    Stays (execCollectiveFlit flit s) := by
  unfold execCollectiveFlit
  refine stays_run ?_
  split
  · exact h
  · split
    · exact h
    · split
      · exact canonical_ite h h
      · exact canonical_ite h h

theorem canonical_abandonColls {es : List (Nat × Coll)} (h : Canonical d) : Canonical (Dev.abandonColls hp d es) :=
  canonical_foldl h (fun _ _ h1 => canonical_endUndefined h1)

theorem canonical_loseIn {module slot group : Nat} (h : Canonical d) : Canonical (Dev.loseIn hp module slot d group) := by
  unfold Dev.loseIn
  split
  · exact h
  · exact canonical_ite h (canonical_abandonColls h)

theorem canonical_loseModule {module : Nat} (h : Canonical d) : Canonical (Dev.loseModule hp d module) :=
  canonical_ite h (canonical_foldl h (fun _ _ h1 => canonical_foldl h1 (fun _ _ h2 => canonical_loseIn h2)))

theorem stays_execAgreementProposal {slot : Nat} {group : BitVec 16} {members : List Nat} {cut : Nat} {s : Machine.State}
    (h : Canonical s.dev) :
    Stays (execAgreementProposal slot group members cut s) := by
  unfold execAgreementProposal
  refine stays_run ?_
  split
  · exact h
  · exact canonical_ite h h

theorem canonical_rerun {r : Round} {e : Nat × Coll} (h : Canonical d) : Canonical (Dev.rerun hp r d e) :=
  canonical_ite (canonical_endUndefined h) h

theorem stays_execViewInstall {slot : Nat} {group : BitVec 16} {s : Machine.State} (h : Canonical s.dev) :
    Stays (execViewInstall slot group s) := by
  unfold execViewInstall
  refine stays_run ?_
  split
  · exact h
  · split
    · exact h
    · exact canonical_ite (canonical_ite h (canonical_foldl h (fun _ _ h1 => canonical_rerun h1))) h

theorem stays_execRejoinRequest {slot : Nat} {group : BitVec 16} {module : Nat} {tag : BitVec 64} {s : Machine.State}
    (h : Canonical s.dev) :
    Stays (execRejoinRequest slot group module tag s) := by
  unfold execRejoinRequest
  refine stays_run ?_
  split
  · exact h
  · exact canonical_ite h h

end

end Sys2Proof.Proofs

end

section

/-! PROOF. Canonical memory: commands, code objects, the hold window, the host function and power. -/

namespace Sys2Proof.Proofs

open Sys2Proof Sys2Proof.Machine Sys2Proof.Safety

section
variable {d : Dev} {hp : HostPart}

/-! ### Command streams -/

theorem canonical_ringWord {slot : Nat} {s : CmdStream} {i : Nat} (h : Canonical d) :
    Ends (fun r => Canonical r.2) (fun r => Canonical r.2) (Dev.ringWord hp d slot s i) := by
  unfold Dev.ringWord
  split
  next got => exact .error (ends_failure got (canonical_readValue h))
  next got => exact .ok (ends_ok got (canonical_readValue h))

theorem canonical_ringWords {slot : Nat} {s : CmdStream} {a a' : Nat} (h : Canonical d) :
    Ends (fun r => Canonical r.2) (fun r => Canonical r.2) (Dev.ringWords hp slot s a a' d) := by
  induction a' generalizing slot s a d with
  | zero =>
    unfold Dev.ringWords
    exact .ok h
  | succ k ih =>
    unfold Dev.ringWords
    split
    next got => exact .error (ends_failure got (canonical_ringWord h))
    next got =>
      have h1 := ends_ok got (canonical_ringWord h)
      split
      next got1 => exact .error (ends_failure got1 (ih h1))
      next got1 => exact .ok (ends_ok got1 (ih h1))

theorem canonical_nextPhase {slot : Nat} (h : Canonical d) : Canonical (d.nextPhase slot) := canonical_ite h h

theorem canonical_nextCommand {slot n : Nat} (h : Canonical d) : Canonical (Dev.nextCommand hp d slot n).2 := by
  unfold Dev.nextCommand
  dsimp only
  split
  next got =>
    have h1 := ends_error got (canonical_ringWord h)
    exact h1
  next got =>
    have h1 := ends_ok got (canonical_ringWord h)
    split
    · exact h1
    · split
      · exact h1
      · split
        next got1 =>
          have h2 := ends_error got1 (canonical_ringWords h1)
          exact h2
        next got1 =>
          have h2 := ends_ok got1 (canonical_ringWords h1)
          split <;> exact h2

theorem canonical_commandTurn (h : Canonical d) : CommandKeeps (Dev.commandTurn hp d) := by
  unfold Dev.commandTurn
  extract_lets d1
  have h_d1 : Canonical d1 := canonical_foldl h (fun _ _ h1 => canonical_nextPhase h1)
  split
  · exact .idle h_d1
  · split
    next got =>
      have h1 := canonical_snd got (canonical_fresh h_d1)
      split
      next got1 =>
        have h2 := canonical_snd got1 (canonical_nextCommand h1)
        split
        · exact .idle h2
        · exact .idle (canonical_failCommand h2)
        · exact .idle (canonical_killSlot h2)
        · exact .run h2

theorem canonical_advance {slot n : Nat} {i : Instr} (h : Canonical d) : Canonical (Dev.advance hp d slot n i) :=
  canonical_storeRd h

theorem canonical_jumpTo {slot n word : Nat} (h : Canonical d) : Canonical (Dev.jumpTo hp d slot n word) := canonical_storeRd h

theorem canonical_asCommand {k : Nat → Nat → CmdStream → Dev} (h : Canonical d)
    (each : ∀ (l m : Nat) (st : CmdStream), Canonical (k l m st)) :
    Canonical (d.asCommand k) := by
  unfold Dev.asCommand
  split
  · exact each _ _ _
  · exact h

/-! ### Commands -/

theorem canonical_imagePage {slot pa : Nat} (h : Canonical d) : Holds Canonical (Dev.imagePage hp slot d pa) :=
  canonical_saveSlice h

theorem canonical_takeSnapshots {slot : Nat} (h : Canonical d) :
    Ends (fun _e => True) Canonical (Dev.takeSnapshots hp d slot) := by
  unfold Dev.takeSnapshots
  extract_lets leaves pages slices
  split
  · exact .error trivial
  · split
    · exact .error trivial
    next got =>
      have h1 := holds_dev got (holds_foldl (.some h) (fun _ _ h1 => holds_bind h1 (fun _ h2 => canonical_imagePage h2)))
      extract_lets d2
      exact .ok (canonical_foldl h1 (fun _ _ h2 => canonical_dropTlb (canonical_getD (canonical_mapPage h2) h2)))

theorem canonical_readRecord {slot : Nat} {record : Dword} {grid : Option Dword} (h : Canonical d) :
    Ends (fun e => Canonical e.2) (fun r => Canonical r.2.2) (d.readRecord hp slot record grid) := by
  unfold Dev.readRecord
  extract_lets core
  split
  next got => exact .error (ends_error got (canonical_readVa h))
  next got =>
    have h1 := ends_ok got (canonical_readVa h)
    extract_lets sizes
    have h_sizes : Ends (fun e => Canonical e.2) (fun r => Canonical r.2) sizes := by
      unfold sizes
      split
      · exact .ok h1
      · exact ends_map (canonical_readVa h1) fun _ h2 => h2
    clear_value sizes
    split
    · exact .error (ends_error rfl h_sizes)
    · have h2 := ends_ok rfl h_sizes
      extract_lets r
      clear_value r
      split
      · exact .error h2
      · split
        · exact .error h2
        · split
          · exact .ok h2
          · split
            next got1 => exact .error (ends_error got1 (canonical_readVa h2))
            next got1 =>
              have h3 := ends_ok got1 (canonical_readVa h2)
              split
              · exact .error h3
              · exact .ok h3

theorem canonical_cancelTeamOf {index launch : Nat} (h : Canonical d) : Canonical (d.cancelTeamOf index launch) := by
  unfold Dev.cancelTeamOf
  split
  · exact canonical_ite h (canonical_cancelTeam h)
  · split
    · exact h
    · exact canonical_ite h (canonical_ite h h)

theorem canonical_startLaunch {slot graph node : Nat} {dropped : List Nat} {record : Dword} {grid : Option Dword}
    (h : Canonical d) :
    Ends (fun r => Canonical r.2) Canonical (Dev.startLaunch hp d slot graph node dropped record grid) := by
  unfold Dev.startLaunch
  split
  next got => exact .error (ends_failure got (canonical_readRecord h))
  next r _ d1 got =>
    have h1 := ends_ok₂ got (canonical_readRecord h)
    split
    · exact .error h1
    next got1 =>
      have h2 : Ends (fun _e => True) Canonical (if r.rollback = true then Dev.takeSnapshots hp d1 slot else Except.ok d1) := by
        split
        · exact canonical_takeSnapshots h1
        · exact .ok h1
      have h2' := ends_dev got1 h2
      exact .ok (canonical_foldl h2' (fun _ _ h3 => canonical_cancelTeamOf h3))

theorem canonical_startWork {slot graph node : Nat} {dropped : List Nat} {a : NodeCommand} (h : Canonical d) :
    Ends (fun r => Canonical r.2) Canonical (Dev.startWork hp d slot graph node dropped a) := by
  unfold Dev.startWork
  split
  · exact canonical_startLaunch h
  · exact canonical_startLaunch h
  · exact .ok h

theorem canonical_badGraph {slot n : Nat} {b : Building} (h : Canonical d) : Canonical (Dev.badGraph hp d slot n b) :=
  canonical_failCommand h

theorem canonical_command {k : Nat → Nat → CmdStream → Dev} (h : Canonical d)
    (each : ∀ (l m : Nat) (st : CmdStream), Canonical (k l m st)) :
    Canonical (Dev.command hp d k) := by
  unfold Dev.command
  refine canonical_asCommand h (fun _ _ _ => ?_)
  split
  · exact canonical_badGraph h
  · exact each _ _ _

theorem canonical_oneNode {i : Instr} {tag : BitVec 32} {opcode : Nat} {cmd : NodeCommand} (h : Canonical d) :
    Canonical (Dev.oneNode hp d i tag opcode cmd) := by
  unfold Dev.oneNode
  refine canonical_command h (fun _ _ _ => ?_)
  split
  next got =>
    have h1 := canonical_snd got (canonical_fresh h)
    extract_lets off node d2 started
    have h_d2 : Canonical d2 := h1
    clear_value d2
    have h_started : Ends (fun r => Canonical r.2) Canonical started := by
      unfold started
      split
      · exact .ok h_d2
      · exact canonical_startWork h_d2
    clear_value started
    split
    · have h2 := ends_error rfl h_started
      exact canonical_failCommand h2
    · have h2 := ends_error rfl h_started
      exact canonical_killSlot h2
    · exact h
    · have h2 := ends_dev rfl h_started
      exact canonical_settle (canonical_advance h2)

theorem stays_execGraph {tag : BitVec 32} {nodes edges : BitVec 16} {s : Machine.State} (h : Canonical s.dev) :
    Stays (execGraph tag nodes edges s) :=
  stays_run (canonical_command h (fun _ _ _ => canonical_ite (canonical_failCommand h) h))

theorem canonical_closeGraph {slot n : Nat} {b : Building} (h : Canonical d) : Canonical (Dev.closeGraph hp d slot n b) :=
  canonical_ite h (canonical_ite (canonical_badGraph h) (canonical_settle (canonical_storeRd h)))

theorem canonical_joinGraph {i : Instr} {tag : BitVec 32} {opcode : Nat} {f : CmdStream → Building → Option Building}
    (h : Canonical d) :
    Canonical (Dev.joinGraph hp d i tag opcode f) := by
  unfold Dev.joinGraph
  refine canonical_asCommand h (fun _ _ _ => ?_)
  split
  · exact canonical_failCommand h
  · split
    · exact canonical_badGraph h
    · exact canonical_closeGraph h

theorem stays_execNodeStart {slot graph index : Nat} {s : Machine.State} (h : Canonical s.dev) :
    Stays (execNodeStart slot graph index s) := by
  unfold execNodeStart
  refine stays_run ?_
  split
  · exact h
  · split
    · exact h
    · extract_lets waits d
      have h_waits : Canonical waits := h
      have h_d : Canonical d := h
      split
      next got => exact canonical_settle (ends_dev got (canonical_startWork h_d))
      next got => exact canonical_settle (canonical_failNode (ends_error got (canonical_startWork h_d)))
      next got => exact canonical_killSlot (ends_error got (canonical_startWork h_d))
      · exact h_waits

theorem stays_execPhase {tag : BitVec 32} {s : Machine.State} (h : Canonical s.dev) : Stays (execPhase tag s) :=
  stays_run (canonical_command h (fun _ _ _ => canonical_advance h))

theorem stays_execWait {tag : BitVec 32} {eq : Bool} {va x : BitVec 64} {s : Machine.State} (h : Canonical s.dev) :
    Stays (execWait tag eq va x s) := by
  unfold execWait
  refine stays_run ?_
  refine canonical_command h (fun _ _ _ => ?_)
  split
  next got => exact canonical_unreadable (ends_error got (canonical_readValue h)) (fun _ h2 => canonical_failCommand h2)
  next got =>
    have h1 := ends_ok got (canonical_readValue h)
    extract_lets d1
    have h_d1 : Canonical d1 := canonical_advance h1
    exact canonical_ite h_d1 h_d1

theorem stays_execWaitPoll {slot stream : Nat} {s : Machine.State} (h : Canonical s.dev) :
    Stays (execWaitPoll slot stream s) := by
  unfold execWaitPoll
  refine stays_run ?_
  extract_lets st
  split
  · exact h
  · split
    next got => exact canonical_unreadable (ends_error got (canonical_readValue h)) (fun _ h2 => canonical_failCommand h2)
    next got =>
      have h1 := ends_ok got (canonical_readValue h)
      exact canonical_ite h1 h1

theorem canonical_interrupt {slot : Nat} (h : Canonical d) : Canonical (Dev.interrupt hp d slot) := canonical_ite h h

theorem stays_execSignal {tag : BitVec 32} {irq : Bool} {va value : BitVec 64} {s : Machine.State} (h : Canonical s.dev) :
    Stays (execSignal tag irq va value s) := by
  unfold execSignal
  refine stays_run ?_
  refine canonical_command h (fun _ _ _ => ?_)
  split
  next got => exact canonical_unreadable (ends_error got (canonical_writeVa h)) (fun _ h2 => canonical_failCommand h2)
  next got =>
    have h1 := ends_dev got (canonical_writeVa h)
    extract_lets d1
    have h_d1 : Canonical d1 := canonical_advance h1
    exact canonical_ite (canonical_interrupt h_d1) h_d1

theorem stays_execLoop {tag count : BitVec 32} {s : Machine.State} (h : Canonical s.dev) : Stays (execLoop tag count s) := by
  unfold execLoop
  refine stays_run ?_
  refine canonical_command h (fun _ _ _ => ?_)
  split
  · exact canonical_failCommand h
  · split
    · split
      · exact h
      · exact canonical_jumpTo h
      · exact canonical_killSlot h
    · exact canonical_advance h

theorem stays_execEndloop {tag : BitVec 32} {s : Machine.State} (h : Canonical s.dev) : Stays (execEndloop tag s) := by
  unfold execEndloop
  refine stays_run ?_
  refine canonical_command h (fun _ _ _ => ?_)
  split
  · exact canonical_failCommand h
  · exact canonical_ite (canonical_jumpTo h) (canonical_advance h)

theorem stays_execIfSkip {tag : BitVec 32} {eqz : Bool} {va : BitVec 64} {skip : BitVec 32} {s : Machine.State}
    (h : Canonical s.dev) :
    Stays (execIfSkip tag eqz va skip s) := by
  unfold execIfSkip
  refine stays_run ?_
  refine canonical_command h (fun _ _ _ => ?_)
  split
  next got => exact canonical_unreadable (ends_error got (canonical_readValue h)) (fun _ h2 => canonical_failCommand h2)
  next got => exact canonical_jumpTo (ends_ok got (canonical_readValue h))

theorem stays_execFenceCommand {tag : BitVec 32} {s : Machine.State} (h : Canonical s.dev) :
    Stays (execFenceCommand tag s) := stays_run (canonical_command h (fun _ _ _ => canonical_advance h))

theorem canonical_cancelJob {slot : Nat} (h : Canonical d) : Canonical (d.cancelJob slot) :=
  canonical_foldl h (fun _ _ h1 => canonical_cancelGraph h1)

theorem canonical_cancelNode {at_ : Nat × Nat} (h : Canonical d) : Canonical (Dev.cancelNode hp d at_) := canonical_failNode h

theorem canonical_noteDropped {slot : Nat} {tag : BitVec 32} {index : Nat} (h : Canonical d) :
    Canonical (d.noteDropped slot tag index) := h

theorem canonical_cancelUnits {slot : Nat} {tag : BitVec 32} {unit index : Nat} (h : Canonical d) :
    Canonical (Dev.cancelUnits hp d slot tag unit index) := by
  unfold Dev.cancelUnits
  split
  · exact canonical_foldl (canonical_noteDropped h) (fun _ _ h1 => canonical_cancelTeamOf h1)
  · exact canonical_foldl (canonical_foldl h (fun _ _ h1 => canonical_cancelLaunch h1)) (fun _ _ h1 => canonical_cancelNode h1)
  · exact canonical_foldl h (fun _ _ h1 => canonical_cancelGraph h1)
  · exact canonical_foldl h (fun _ _ h1 => canonical_cancelGraph h1)
  · exact canonical_cancelJob h

theorem stays_execCancel {tag : BitVec 32} {unit : BitVec 3} {team : BitVec 32} {s : Machine.State} (h : Canonical s.dev) :
    Stays (execCancel tag unit team s) := by
  unfold execCancel
  exact stays_run (canonical_command h (fun _ _ _ => canonical_ite (canonical_failCommand h) (canonical_settle
    (canonical_cancelUnits (canonical_advance h)))))

theorem stays_execSealCommand {tag : BitVec 32} {undo : Bool} {base len : BitVec 64} {s : Machine.State} (h : Canonical s.dev) :
    Stays (execSealCommand tag undo base len s) := by
  unfold execSealCommand
  refine stays_run (canonical_command h fun _ _ _ => ?_)
  extract_lets r status
  split
  · exact canonical_failCommand h
  · split
    next got =>
      have h1 := canonical_snd got (canonical_fresh (canonical_advance h))
      exact h1

theorem canonical_restorePage {slot pa : Nat} (h : Canonical d) : Canonical (Dev.restorePage hp slot d pa) :=
  canonical_getD (canonical_loadSlice h) h

theorem canonical_restoreSnapshots {slot : Nat} (h : Canonical d) : Canonical (Dev.restoreSnapshots hp d slot) := by
  unfold Dev.restoreSnapshots
  extract_lets c kept known d1 d2 d3
  have h_d1 : Canonical d1 :=
    canonical_foldl h (fun _ _ h1 => canonical_ite (canonical_ite (canonical_ite h1 (canonical_freeFrame h1))
      (canonical_dropTlb (canonical_unmapPage (canonical_ite h1 (canonical_freeFrame h1))))) h1)
  have h_d2 : Canonical d2 := by
    unfold d2
    refine canonical_foldl h_d1 (fun _ _ h1 => ?_)
    split
    · exact h1
    · exact canonical_dropTlb (canonical_getD (canonical_mapPage h1) h1)
  exact canonical_foldl h_d2 (fun _ _ h1 => canonical_restorePage h1)

theorem stays_execRollback {launch : Nat} {s : Machine.State} (h : Canonical s.dev) : Stays (execRollback launch s) := by
  unfold execRollback
  refine stays_run ?_
  split
  · exact h
  · split
    · exact h
    · split
      · exact canonical_killSlot h
      · split
        · exact h
        · extract_lets teams d d1 d2 d3 read
          have h_d : Canonical d := canonical_foldl h (fun _ _ h1 => canonical_releaseTeam h1)
          clear_value d
          have h_d1 : Canonical d1 := by
            unfold d1
            split
            · exact h_d
            · exact canonical_freeQueues h_d
          clear_value d1
          have h_d2 : Canonical d2 := h_d1
          clear_value d2
          have h_d3 : Canonical d3 := canonical_restoreSnapshots h_d2
          clear_value d3
          have h_read : Ends (fun r => Canonical r.2) (fun r => Canonical r.2.2) read := by
            unfold read
            split
            · exact canonical_readRecord h_d3
            · exact canonical_readRecord h_d3
            · exact .error h_d3
          clear_value read
          split
          · have h1 := ends_ok₂ rfl h_read
            exact canonical_settle (canonical_foldl h1 (fun _ _ h2 => canonical_cancelTeamOf h2))
          · have h1 := ends_error rfl h_read
            exact canonical_killSlot h1
          · have h1 := ends_error rfl h_read
            exact h1
          · have h1 := ends_error rfl h_read
            exact canonical_settle (canonical_failNode (canonical_dropSnapshots h1))

/-! ### Code objects -/

theorem canonical_translation {x : DxoHeader} {digest : Nat} {dpf : Option (List Byte)} (h : Canonical d) :
    Ends (fun _e => True) (fun r => Canonical r.2) (Dev.translation hp d x digest dpf) := by
  unfold Dev.translation
  split
  · exact .error trivial
  · split
    · exact .error trivial
    · split
      · exact .ok h
      · split
        · exact .error trivial
        · split
          next got =>
            have h1 := canonical_snd got (canonical_nextFree h)
            split
            · exact .error trivial
            · refine .ok ?_
              exact h1

theorem canonical_checkImage {bs : List Byte} (h : Canonical d) :
    Ends (fun _e => True) (fun r => Canonical r.2.2.2.2) (Dev.checkImage hp d bs) := by
  unfold Dev.checkImage
  split
  · exact .error trivial
  · extract_lets ss
    split
    · exact .error trivial
    · split
      · exact .error trivial
      · split
        · exact .error trivial
        · split
          · exact .error trivial
          · split
            · exact .error trivial
            · split
              · exact .ok h
              · exact ends_map (canonical_translation h) (fun _ h1 => h1)

theorem canonical_placePages {va : Nat} {bytes : List Byte} {a : List (Nat × Nat)} (h : Canonical d) :
    Holds (fun r => Canonical r.2) (Dev.placePages hp va bytes a d) := by
  induction a generalizing va bytes d with
  | nil =>
    unfold Dev.placePages
    exact .some h
  | cons x xs ih =>
    unfold Dev.placePages
    split
    · exact .none
    next got => exact holds_map (ih (canonical_putBytes (holds_some got (canonical_takeFrameOn h)))) (fun _ h2 => h2)

theorem canonical_placeObject {x : DxoHeader} {digest : Nat} {t : KernelText} {drain : List Byte} (h : Canonical d) :
    Holds (fun r => Canonical r.2.2) (Dev.placeObject hp d x digest t drain) := by
  unfold Dev.placeObject
  extract_lets text access drainVa
  split
  · exact .none
  · split
    · exact .none
    next got =>
      have h1 := holds_some got (canonical_placePages h)
      split
      · exact .none
      next got1 =>
        have h2 := holds_some got1 (canonical_placePages h1)
        refine holds_map (canonical_placePages h2) (fun _ h3 => ?_)
        exact h3

theorem canonical_mapObject {slot : Nat} {o : CodeObject} {a : List (Nat × Bool)} (h : Canonical d) :
    Holds Canonical (Dev.mapObject hp slot o a d) := by
  induction a generalizing slot o d with
  | nil =>
    unfold Dev.mapObject
    exact .some h
  | cons x xs ih =>
    unfold Dev.mapObject
    exact holds_bind (canonical_mapRoots h) (fun _ h1 => ih h1)

theorem canonical_joinObject {slot handle : Nat} {o : CodeObject} (h : Canonical d) :
    Holds Canonical (Dev.joinObject hp d slot handle o) := by
  unfold Dev.joinObject
  split
  · exact .some h
  · exact holds_map (canonical_mapObject h) (fun _ h1 => h1)

theorem canonical_placeImage {slot : Nat} {x : DxoHeader} {digest : Nat} {t : KernelText} {drain : List Byte} (h : Canonical d) :
    Holds (fun r => Canonical r.2.2) (Dev.placeImage hp d slot x digest t drain) := by
  unfold Dev.placeImage
  split
  · exact holds_map (canonical_joinObject h) (fun _ h1 => h1)
  · exact holds_bind (canonical_placeObject h) (fun _ h1 => holds_map (canonical_joinObject h1) (fun _ h2 => h2))

theorem stays_execCodeLoad {tag : BitVec 32} {image bytes report : BitVec 64} {s : Machine.State} (h : Canonical s.dev) :
    Stays (execCodeLoad tag image bytes report s) := by
  unfold execCodeLoad
  refine stays_run ?_
  refine canonical_command h fun _ _ _ => ?_
  extract_lets core d fail
  have h_d : Canonical d := canonical_advance h
  have h_fail : ∀ (d : Dev) (f : LoadFailure), Canonical d → Canonical (fail d f) := fun _ _ h1 => canonical_failCommand h1
  split
  next got => exact canonical_unreadable (ends_error got (canonical_readVa h_d)) fun _ h2 => h_fail _ _ h2
  next got =>
    have h1 := ends_ok got (canonical_readVa h_d)
    split
    · exact h_fail _ _ h1
    next got1 =>
      have h2 := ends_value got1 (canonical_checkImage h1)
      split
      · exact h_fail _ _ h2
      next got2 =>
        have h3 := holds_some₂ got2 (canonical_placeImage h2)
        split
        next got3 => exact ends_dev got3 (canonical_writeVa h3)
        next got3 => exact canonical_unreadable (ends_error got3 (canonical_writeVa h3)) fun _ h4 => h_fail _ _ h4

theorem canonical_unmapObject {o : CodeObject} {slot : Nat} (h : Canonical d) : Canonical (Dev.unmapObject o d slot) :=
  canonical_foldl h (fun _ _ h1 => canonical_dropTlb (canonical_unmapPage h1))

theorem canonical_removeObject {handle : Nat} {o : CodeObject} (h : Canonical d) : Canonical (d.removeObject handle o) :=
  canonical_foldl (canonical_foldl h (fun _ _ h1 => canonical_unmapObject h1)) (fun _ _ h1 => canonical_freeFrame h1)

theorem canonical_revoke {slot handle : Nat} (h : Canonical d) : Canonical (Dev.revoke hp handle d slot) :=
  canonical_report (canonical_terminate h)

theorem stays_execCodeUnload {tag : BitVec 32} {forced : Bool} {handle : BitVec 64} {s : Machine.State} (h : Canonical s.dev) :
    Stays (execCodeUnload tag forced handle s) := by
  unfold execCodeUnload
  refine stays_run ?_
  refine canonical_command h (fun _ _ _ => ?_)
  extract_lets d
  have h_d : Canonical d := canonical_advance h
  split
  · exact h_d
  · exact canonical_ite (canonical_removeObject h_d) (canonical_ite (canonical_failCommand h_d) (canonical_removeObject
      (canonical_foldl (canonical_ite (canonical_failCommand h_d) h_d) (fun _ _ h1 => canonical_revoke h1))))

/-! ### The hold window -/

theorem canonical_releaseAccess {n : Nat} (h : Canonical d) : Holds Canonical (d.releaseAccess n) := by
  unfold Dev.releaseAccess
  refine holds_map_all (fun _ => h)

theorem canonical_releaseMatrix {n : Nat} (h : Canonical d) : Holds Canonical (d.releaseMatrix n) := by
  unfold Dev.releaseMatrix
  refine holds_map_all (fun _ => canonical_ite h h)

theorem canonical_releaseCopy {n : Nat} (h : Canonical d) : Holds Canonical (d.releaseCopy n) := by
  unfold Dev.releaseCopy
  refine holds_map_all (fun _ => canonical_ite h h)

theorem canonical_releaseColl {n : Nat} (h : Canonical d) : Holds Canonical (d.releaseColl n) := by
  unfold Dev.releaseColl
  refine holds_map_all (fun _ => canonical_ite h h)

theorem canonical_releaseQueue {n : Nat} (h : Canonical d) : Holds Canonical (Dev.releaseQueue hp d n) := by
  unfold Dev.releaseQueue
  refine holds_map_all (fun _ => canonical_releaseRequest h)

theorem canonical_releaseArrival {n : Nat} (h : Canonical d) : Holds Canonical (d.releaseArrival n) := by
  unfold Dev.releaseArrival
  refine holds_map_all (fun _ => canonical_ite (canonical_countArrival h) h)

theorem canonical_releaseEntry {n : Nat} (h : Canonical d) : Holds Canonical (d.releaseEntry n) := by
  unfold Dev.releaseEntry
  refine holds_map_all (fun _ => canonical_ite (canonical_releaseDecision h) h)

theorem canonical_releaseFill {n : Nat} (h : Canonical d) : Canonical (d.releaseFill n) := h

theorem stays_execHoldWindowRelease {effect : Nat} {s : Machine.State} (h : Canonical s.dev) :
    Stays (execHoldWindowRelease effect s) := by
  unfold execHoldWindowRelease
  refine stays_run (canonical_getD ?_ (canonical_releaseFill h))
  refine holds_orElse (canonical_releaseAccess h) (holds_orElse (canonical_releaseMatrix h) ?_)
  refine holds_orElse (canonical_releaseCopy h) (holds_orElse (canonical_releaseColl h) ?_)
  exact holds_orElse (canonical_releaseQueue h) (holds_orElse (canonical_releaseArrival h) (canonical_releaseEntry h))

/-! ### The host function -/

theorem canonical_refuseDescriptor {slot n rd errRec : Nat} (h : Canonical d) :
    Canonical (Dev.refuseDescriptor hp d slot n rd errRec) := by
  unfold Dev.refuseDescriptor
  extract_lets d1
  have h_d1 : Canonical d1 := h
  split
  · exact h_d1
  · split
    next got => exact ends_dev got (canonical_writeVa h_d1)
    next got => exact canonical_unreadable (ends_error got (canonical_writeVa h_d1)) (fun _ h2 => h2)

theorem canonical_readDescriptor {slot n : Nat} (h : Canonical d) : Canonical (Dev.readDescriptor hp d slot n) := by
  unfold Dev.readDescriptor
  split
  next got => exact canonical_unreadable (ends_error got (canonical_readVa h)) (fun _ h2 => h2)
  next got =>
    have h1 := ends_ok got (canonical_readVa h)
    extract_lets s d2 rd
    have h_d2 : Canonical d2 := canonical_ite h1 (canonical_storeRd h1)
    exact canonical_ite (canonical_refuseDescriptor h_d2) h_d2

theorem stays_execDoorbell {slot stream : Nat} {s : Machine.State} (h : Canonical s.dev) :
    Stays (execDoorbell slot stream s) :=
  stays_run (canonical_ite h (canonical_ite (canonical_readDescriptor h) (canonical_ite h h)))

theorem canonical_newRoots {a : Nat} (h : Canonical d) : Holds (fun r => Canonical r.2) (Dev.newRoots hp a d) := by
  induction a generalizing d with
  | zero =>
    unfold Dev.newRoots
    exact .some h
  | succ k ih =>
    unfold Dev.newRoots
    split
    · exact .none
    next got => exact holds_map (ih (holds_some got (canonical_takeFrame h))) (fun _ h2 => h2)

theorem stays_execCtxOpen {slot : Nat} {groups : List (BitVec 16 × List Nat)} {s : Machine.State} (h : Canonical s.dev) :
    Stays (execCtxOpen slot groups s) := by
  unfold execCtxOpen
  refine stays_run ?_
  split
  · exact h
  · split
    · exact h
    next got =>
      have h1 := holds_some got (canonical_newRoots h)
      exact canonical_foldl h1 (fun _ _ h2 => h2)

theorem stays_execCtxClose {slot : Nat} {s : Machine.State} (h : Canonical s.dev) : Stays (execCtxClose slot s) :=
  stays_run (canonical_ite h (canonical_settle (canonical_ite (canonical_cancelJob h) h)))

theorem canonical_freeSlot {slot : Nat} (h : Canonical d) : Canonical (d.freeSlot slot) := by
  unfold Dev.freeSlot
  extract_lets d1 d2 c d3
  have h_d1 : Canonical d1 := canonical_foldl h (fun _ _ h1 => canonical_freeFrame h1)
  exact h_d1

theorem canonical_startRequest {slot : Nat} {undo : Bool} (h : Canonical d) : Canonical (Dev.startRequest hp d slot undo) :=
  canonical_ite h h

theorem canonical_mapSlicePage {slot : Nat} {r : MapRequest} {a : List (Nat × Nat)} (h : Canonical d) :
    Holds Canonical (Dev.mapSlicePage hp slot r a d) := by
  induction a generalizing slot r d with
  | nil =>
    unfold Dev.mapSlicePage
    exact .some h
  | cons x xs ih =>
    unfold Dev.mapSlicePage
    extract_lets leaf
    split
    · exact .none
    next got =>
      have h1 := holds_dev got (canonical_mapPage h)
      exact ih h1

theorem canonical_mapRange {slot : Nat} {r : MapRequest} (h : Canonical d) : Holds Canonical (Dev.mapRange hp d slot r) := by
  unfold Dev.mapRange
  extract_lets d1
  have h_d1 : Canonical d1 := h
  split
  · exact canonical_mapSlicePage h_d1
  · exact .some h_d1

theorem canonical_forgetSnapshots {slot va bytes : Nat} (h : Canonical d) : Canonical (d.forgetSnapshots slot va bytes) :=
  canonical_foldl h (fun _ _ h1 => canonical_freeFrame h1)

theorem canonical_unmapRange {slot va bytes : Nat} (h : Canonical d) : Canonical (d.unmapRange slot va bytes) := by
  unfold Dev.unmapRange
  extract_lets d1 d2
  have h_d1 : Canonical d1 :=
    canonical_foldl (canonical_forgetSnapshots h) (fun _ _ h1 => canonical_freeFrame (canonical_unmapPage h1))
  exact canonical_dropTlb h_d1

theorem stays_execMapDone {slot : Nat} {s : Machine.State} (h : Canonical s.dev) : Stays (execMapDone slot s) := by
  unfold execMapDone
  refine stays_run ?_
  extract_lets c r
  split
  · exact h
  · split
    · exact h
    · split
      · split
        · exact h
        · split
          · exact h
          next got =>
            have h1 := holds_dev got (canonical_mapRange h)
            exact h1
      · exact canonical_ite (canonical_ite h (canonical_unmapRange h)) h

theorem stays_execFeatCommit {value : BitVec 32} {s : Machine.State} (h : Canonical s.dev) :
    Stays (execFeatCommit value s) := by
  unfold execFeatCommit
  refine stays_runHost ?_
  split <;> exact h

theorem stays_execRegisterWrite {offset width : Nat} {value : BitVec 256} {s : Machine.State} (h : Canonical s.dev) :
    Stays (execRegisterWrite offset width value s) := by
  unfold execRegisterWrite
  refine stays_runHost ?_
  dsimp only
  split
  · exact h
  · split
    · exact h
    · split
      · dsimp only
        exact h
      · exact h

theorem canonical_readWindow {a : List (Nat × Nat)} (h : Canonical d) : Canonical (Dev.readWindow hp a d).2 := by
  induction a generalizing d with
  | nil =>
    unfold Dev.readWindow
    exact h
  | cons x xs ih =>
    unfold Dev.readWindow
    split
    · exact h
    · split
      next got =>
        have h1 := ends_error got (canonical_readVa h)
        dsimp only
        exact canonical_killSlot h1
      next got =>
        have h1 := ends_error got (canonical_readVa h)
        exact h1
      next got =>
        have h1 := ends_ok got (canonical_readVa h)
        exact ih h1

theorem canonical_windowRead {offset n : Nat} (h : Canonical d) : Canonical (Dev.windowRead hp d offset n).2 := by
  unfold Dev.windowRead
  split
  · exact h
  · split
    next got => exact canonical_snd got (canonical_readWindow h)

theorem canonical_writeWindow {a : List (Nat × Nat)} {a' : List Byte} (h : Canonical d) :
    Canonical (Dev.writeWindow hp a a' d) := by
  induction a generalizing a' d with
  | nil =>
    unfold Dev.writeWindow
    exact h
  | cons x xs ih =>
    unfold Dev.writeWindow
    extract_lets d1
    have h_d1 : Canonical d1 := by
      unfold d1
      split
      · exact h
      · split
        next got => exact canonical_killSlot (ends_error got (canonical_writeVa h))
        next got => exact ends_error got (canonical_writeVa h)
        next got => exact ends_dev got (canonical_writeVa h)
    exact ih h_d1

theorem canonical_windowWrite {offset : Nat} {bytes : List Byte} (h : Canonical d) :
    Canonical (Dev.windowWrite hp d offset bytes) := canonical_ite (canonical_writeWindow h) h

theorem canonical_goOn {team : Nat} (h : Canonical d) : Canonical (d.goOn team) := h

theorem canonical_resumeTeam {team : Nat} (h : Canonical d) : Canonical (d.resumeTeam team) :=
  canonical_ite (canonical_holdTeams (canonical_foldl h (fun _ _ h1 => canonical_goOn h1))) h

theorem canonical_debug {a : Debug} (h : Canonical d) : Canonical (d.debug a) := by
  unfold Dev.debug
  split
  · exact h
  · exact canonical_holdTeams h
  · exact canonical_resumeTeam h

theorem stays_execReset {s : Machine.State} : Stays (execReset s) := stays_runHost (show Memory.wf [] = true from rfl)

theorem canonical_hostPart_checkFirmware {x : FirmwareImage} (h : Canonical d) : Canonical (hp.checkFirmware d x).2 := by
  unfold HostPart.checkFirmware
  split
  · exact h
  · split
    · exact h
    · exact h

theorem canonical_serveLatched (h : Canonical d) : Canonical (Dev.serveLatched hp d) :=
  canonical_foldl h (fun _ _ h1 => canonical_ite (canonical_readDescriptor h1) h1)

theorem stays_execFunctionReady {function : Nat} {s : Machine.State} (h : Canonical s.dev) :
    Stays (execFunctionReady function s) := by
  unfold execFunctionReady
  refine stays_runHost ?_
  split
  · exact h
  · exact canonical_serveLatched h

theorem stays_execHostLinkDown {s : Machine.State} (h : Canonical s.dev) : Stays (execHostLinkDown s) := by
  unfold execHostLinkDown
  refine stays_runHost ?_
  split
  · exact h
  · exact h

theorem stays_execHostLinkUp {s : Machine.State} (h : Canonical s.dev) : Stays (execHostLinkUp s) := by
  unfold execHostLinkUp
  refine stays_runHost ?_
  split
  · exact h
  · exact h

/-! ### Power -/

theorem canonical_endCycle {cluster : Nat} (h : Canonical d) : Canonical (d.endCycle cluster) :=
  canonical_sendStreams (canonical_foldl h (fun _ _ h1 => canonical_burnHold h1))

theorem canonical_passStops {ns : Nat} (h : Canonical d) : Canonical (d.passStops ns) := h

theorem stays_execTokenBucketRefill {cluster : Nat} {s : Machine.State} (h : Canonical s.dev) :
    Stays (execTokenBucketRefill cluster s) := stays_run (canonical_ite h (canonical_passStops (canonical_endCycle h)))

theorem stays_execScrub {addr : Nat} {found : EccFinding} {s : Machine.State} (h : Canonical s.dev) :
    Stays (execScrub addr found s) := by
  unfold execScrub
  refine stays_run ?_
  split
  · exact h
  · exact h
  · exact canonical_ite h h

theorem stays_execFatalError {x : FatalReason} {s : Machine.State} (h : Canonical s.dev) : Stays (execFatalError x s) := by
  unfold execFatalError
  refine stays_runHost ?_
  split
  · exact h
  · exact h

theorem stays_execThermal {cluster temperature : Nat} {cap : BitVec 3} {s : Machine.State} (h : Canonical s.dev) :
    Stays (execThermal cluster temperature cap s) := stays_run h

end

end Sys2Proof.Proofs

end

section

/-! PROOF. Canonical memory: every instruction, every turn and every step keep it (O59). -/

namespace Sys2Proof.Proofs

open Sys2Proof Sys2Proof.Machine Sys2Proof.Safety

theorem stays_exec {i : Instr} {s : Machine.State} (h : Canonical s.dev) : Stays (exec i s) := by
  cases i
  case nop => exact .next (canonical_nop h)
  case drop | swap | rot | nip => exact .next (canonical_moveCells h)
  case dup => exact .next (canonical_stackOp h)
  case ldf => exact .next (canonical_loadFrame h)
  case stf => exact .next (canonical_storeFrame h)
  case rds | rdsD => exact .next (canonical_ite (canonical_misplaced h) (canonical_readSpecial h))
  case add | sub | mul | mulh | div | rem | neg | abs | min | max | and | or | xor | not | shl | shr | sra | rotl | popc |
      clz | ctz | brev | sel | mad | fadd | fsub | fmul | fdiv | fma | fneg | fabs | fmin | fmax | fsqrt | frcp | frsq | fex2 |
      flg2 | fsin | fcos | fcmp | fclass | frnd | add2 | sub2 | mulw | shl2 | shr2 | lea => exact stays_lane16 h
  case br | brL => exact .next (canonical_jump h)
  case bz | bnz | bzj | bnzj | bzL | bnzL | bzjL | bnzjL => exact .next (canonical_condBranch h)
  case lit16 | cstat => exact .next (canonical_ite (canonical_misplaced h) (canonical_pushOp h))
  case ldfL => exact .next (canonical_ite (canonical_misplaced h) (canonical_loadFrame h))
  case stfL => exact .next (canonical_ite (canonical_misplaced h) (canonical_storeFrame h))
  case frame => exact .next (canonical_enterFrame h)
  case kbz | kbnz | jmpX => exact .next (canonical_uniformBranch h)
  case ld | st | ldo | sto | atom | cas | red => exact .next (canonical_memoryOp h)
  case barArrive | barSync => exact .next (canonical_barrierOp h)
  case cvt | bfe | bfi => exact .next (canonical_ite (canonical_misplaced h) (canonical_laneOp h))
  case hadd2 | hmul2 | hfma2 | hmnx2 | dadd | dmul | dfma | ddiv | dsqrt => exact stays_lane32 h
  case kmov | kadd | ksub | kmul | kand | kor | kxor | kshl | kshr | kmin | kmax | kadd2 | klea | kpsel | kli =>
    exact stays_uniform h
  case kld | kst => exact .next (canonical_ite (canonical_misplaced h) (canonical_uniformAccess h))
  case kred => exact .next (canonical_ite (canonical_misplaced h) (canonical_popToUniform h))
  case mma | mclr | mdrain | bload | bswap | dload => exact .next (canonical_issueMatrix h)
  case tcopy | tgather | tscatter => exact .next (canonical_issueCopy h)
  case launch | launchIndirect | copy => exact .next (canonical_oneNode h)
  case node | edge => exact .next (canonical_joinGraph h)
  case closeComplete => exact .next (canonical_ite (canonical_freeSlot h) h)
  case sealTakesEffect | unsealComplete => exact .next (canonical_decideSeal h)
  case demandFill => exact .next (canonical_ite (canonical_demandFill h) h)
  case queueRecordDelivery => exact .next (canonical_answerPop h)
  case trapDelivery => exact .next (canonical_deliver h)
  case trywaitTimeout | laneRateTransition | agreementAck | agreementCommit | rejoinResend | strike | droopDetectorTrip |
      powerManagerCapAndRefill => exact .next (h)
  case heartbeat => exact .next (canonical_ite (canonical_loseModule h) h)
  case moduleLost => exact .next (canonical_loseModule h)
  case stateTransfer | bucketReservation => exact .next (canonical_ite h h)
  case securityCounterProgram => exact .next (h)
  case timeSliceSwitch => exact .next (canonical_ite (canonical_getD (canonical_evictAll h) h) h)
  case unmapPages | mapPages => exact .next (canonical_startRequest h)
  case depth w => exact stays_execDepth (x := w) h
  case litS w _ => exact stays_execLitS (x := w) h
  case flags w _ => exact stays_execFlags (x := w) h
  case lead w => exact stays_execLead (x := w) h
  case vote => exact stays_execVote h
  case shfl => exact stays_execShfl h
  case wsync w => exact stays_execWsync (x := w) h
  case icmp => exact stays_execIcmp h
  case icmp2 => exact stays_execIcmp2 h
  case l32Routed => exact stays_execL32Routed h
  case brq w _ => exact stays_execBrq (x := w) h
  case join w _ => exact stays_execJoin (x := w) h
  case ret w => exact stays_execRet (x := w) h
  case exit w => exact stays_execExit (x := w) h
  case yield w => exact stays_execYield (x := w) h
  case brk w _ => exact stays_execBrk (x := w) h
  case leave w _ => exact stays_execLeave (x := w) h
  case call w _ => exact stays_execCall (x := w) h
  case jtab => exact stays_execJtab h
  case jmpF w _ => exact stays_execJmpF (x := w) h
  case trap w _ => exact stays_execTrap (x := w) h
  case rte => exact stays_execRte h
  case rplq w _ _ => exact stays_execRplq (x := w) h
  case wplq => exact stays_execWplq h
  case prefetch => exact stays_execPrefetch h
  case fence w _ _ => exact stays_execFence (x := w) h
  case waitc w _ _ => exact stays_execWaitc (x := w) h
  case trywait => exact stays_execTrywait h
  case qpush => exact stays_execQpush h
  case qpop => exact stays_execQpop h
  case qeos w _ => exact stays_execQeos (x := w) h
  case qtry => exact stays_execQtry h
  case cfetch => exact stays_execCfetch h
  case cevict w _ => exact stays_execCevict (x := w) h
  case cvtSlot => exact stays_execCvtSlot h
  case bpack => exact stays_execBpack h
  case bunpack => exact stays_execBunpack h
  case wrsLfsr => exact stays_execWrsLfsr h
  case wrsVigil => exact stays_execWrsVigil h
  case kcmp => exact stays_execKcmp h
  case kpush => exact stays_execKpush h
  case kpop => exact stays_execKpop h
  case setperf => exact stays_execSetperf h
  case agen => exact stays_execAgen h
  case dqpush => exact stays_execDqpush h
  case fetend => exact stays_execFetend h
  case lit32 => exact stays_execLit32 h
  case coll => exact stays_execColl h
  case vtag => exact stays_execVtag h
  case graph => exact stays_execGraph h
  case phase => exact stays_execPhase h
  case wait => exact stays_execWait h
  case waitPoll => exact stays_execWaitPoll h
  case signal => exact stays_execSignal h
  case loop => exact stays_execLoop h
  case endloop => exact stays_execEndloop h
  case ifSkip => exact stays_execIfSkip h
  case fenceCommand => exact stays_execFenceCommand h
  case cancel => exact stays_execCancel h
  case codeLoad => exact stays_execCodeLoad h
  case codeUnload => exact stays_execCodeUnload h
  case sealCommand => exact stays_execSealCommand h
  case nodeStart => exact stays_execNodeStart h
  case doorbell => exact stays_execDoorbell h
  case mapDone => exact stays_execMapDone h
  case reset => exact stays_execReset
  case teamPlacement => exact stays_execTeamPlacement h
  case stageSetStart => exact stays_execStageSetStart h
  case warpResume => exact stays_execWarpResume h
  case warpSwap => exact stays_execWarpSwap h
  case splitSelection => exact stays_execSplitSelection h
  case spillRefillComplete => exact stays_execSpillRefillComplete h
  case forwardingEntryFreed => exact stays_execForwardingEntryFreed h
  case loadFill => exact stays_execLoadFill h
  case homeAccess => exact stays_execHomeAccess h
  case holdWindowRelease => exact stays_execHoldWindowRelease h
  case pageWalk => exact stays_execPageWalk h
  case pageService => exact stays_execPageService h
  case codeFillLands => exact stays_execCodeFillLands h
  case agenStreamRead => exact stays_execAgenStreamRead h
  case fetResume => exact stays_execFetResume h
  case channelEmpty => exact stays_execChannelEmpty h
  case arrayPhase => exact stays_execArrayPhase h
  case arrayPhaseEnd => exact stays_execArrayPhaseEnd h
  case drain => exact stays_execDrain h
  case drainElement => exact stays_execDrainElement h
  case bswapTakesEffect => exact stays_execBswapTakesEffect h
  case matrixOperationRetire => exact stays_execMatrixOperationRetire h
  case copyCommandStart => exact stays_execCopyCommandStart h
  case copyCommandComplete => exact stays_execCopyCommandComplete h
  case decrementDelivery => exact stays_execDecrementDelivery h
  case queueGrant => exact stays_execQueueGrant h
  case collAccept => exact stays_execCollAccept h
  case collComplete => exact stays_execCollComplete h
  case handoverMark => exact stays_execHandoverMark h
  case tokenBucketRefill => exact stays_execTokenBucketRefill h
  case rebalancingInterval => exact stays_execRebalancingInterval h
  case stageTeamStart => exact stays_execStageTeamStart h
  case progressStall => exact stays_execProgressStall h
  case barrierTimeout => exact stays_execBarrierTimeout h
  case stageSetStuck => exact stays_execStageSetStuck h
  case teamRelaunch => exact stays_execTeamRelaunch h
  case donorEviction => exact stays_execDonorEviction h
  case rollback => exact stays_execRollback h
  case collectiveFlit => exact stays_execCollectiveFlit h
  case registerWrite => exact stays_execRegisterWrite h
  case agreementProposal => exact stays_execAgreementProposal h
  case viewInstall => exact stays_execViewInstall h
  case rejoinRequest => exact stays_execRejoinRequest h
  case scrub => exact stays_execScrub h
  case fatalError reason => exact stays_execFatalError (x := reason) h
  case thermal => exact stays_execThermal h
  case featCommit => exact stays_execFeatCommit h
  case hostLinkDown => exact stays_execHostLinkDown h
  case hostLinkUp => exact stays_execHostLinkUp h
  case partialEviction => exact stays_execPartialEviction h
  case migration => exact stays_execMigration h
  case engineFaultTrap => exact stays_execEngineFaultTrap h
  case functionReady => exact stays_execFunctionReady h
  case ctxClose => exact stays_execCtxClose h
  case ctxOpen => exact stays_execCtxOpen h
  -- The two instructions that seal and unseal a region: Lean takes their names for commands.
  all_goals exact .next (canonical_sealRequest h)

theorem stays_laneIssued {s t : Machine.State} {core lb : Nat} {g : Grant} (before : Canonical s.dev) (after : Canonical t.dev) :
    Stays (laneIssued s t core lb g) := by
  unfold laneIssued
  extract_lets t₁ done
  have h₁ : Canonical t₁.dev := after
  clear_value t₁
  have h_done : ∀ (t : Machine.State) (cost : Nat), Canonical t.dev → Stays (done t cost) :=
    fun _ _ h => .next (canonical_laneDecision before h)
  clear_value done
  split
  · exact h_done _ _ h₁
  next m d paired =>
    have h_d : Canonical d := holds_some paired (canonical_pairMate h₁)
    have ran : Stays (exec m.instr { t₁ with dev := d }) := stays_exec h_d
    split
    next u got =>
      rw [got] at ran
      cases ran with
      | next h =>
        split
        · exact h_done _ _ h
        · exact h_done _ _ h₁
    · exact .faulted
    · exact .refused

theorem stays_laneAttempt {s : Machine.State} {core lb : Nat} {g : Grant} (h : Canonical s.dev) :
    Stays (laneAttempt s core lb g) := by
  unfold laneAttempt
  have ran : Stays (exec g.instr s) := stays_exec h
  split
  next t got =>
    rw [got] at ran
    cases ran with
    | next after =>
      split
      · exact .next (canonical_stopTeamOf h)
      · split
        · exact stays_laneIssued h after
        · exact .next after
  · exact .faulted
  · exact .refused

theorem stays_fetAttempt {s : Machine.State} {core : Nat} {g : Grant} (h : Canonical s.dev) : Stays (fetAttempt s core g) := by
  unfold fetAttempt
  have ran : Stays (exec g.instr s) := stays_exec h
  split
  next t got =>
    rw [got] at ran
    cases ran with
    | next after =>
      split
      · exact .next (canonical_stopTeamOfFet h)
      · split
        · exact .next (canonical_fetDecision h after)
        · exact .next after
  · exact .faulted
  · exact .refused

/-- Every turn keeps memory in canonical form: what it runs does, and what it counts, reads or decides besides is elsewhere. -/
theorem stays_turn {t : Turn} {s : Machine.State} (h : Canonical s.dev) : Stays (turn t s) := by
  unfold turn
  split
  · split
    next got => exact .next (issue_idle got (canonical_laneTurn h))
    next got => exact stays_laneAttempt (issue_run got (canonical_laneTurn h))
  · split
    next got => exact .next (issue_idle got (canonical_fetTurn h))
    next got => exact stays_fetAttempt (issue_run got (canonical_fetTurn h))
  · split
    next got => exact .next (command_idle got (canonical_commandTurn h))
    next got => exact stays_exec (command_run got (canonical_commandTurn h))
  · exact stays_exec h
  · exact stays_run (canonical_copyTurn h)
  · exact .next h
  · exact .next h
  · exact stays_runHost (canonical_windowRead h)
  · exact stays_run (canonical_windowWrite h)
  · exact stays_runHost (canonical_hostPart_checkFirmware h)
  · exact stays_run (canonical_debug h)

theorem stays_step {s : Machine.State} (h : Canonical s.dev) : Stays (step s) := by
  unfold step
  split
  · split
    · exact .next h
    · split
      · exact .next h
      · exact stays_turn h
  · split
    · exact .next h
    · exact stays_turn h

/-- Settles O59: memory changes only where an access, an image, a copy, a save or a migration writes, clears or copies bytes, each
of which keeps the canonical form; every operation of the device is made of those (`stays_exec`), and so is every turn. -/
theorem memoryStaysCanonical : Obligations.MemoryStaysCanonical := by
  intro s t h stepped
  have kept : Stays (step s) := stays_step h
  rw [stepped] at kept
  cases kept with
  | next h => exact h

end Sys2Proof.Proofs

end
